-- ==== Sys2Proof/Word.lean ====
section
/-! DEFINITION. The word types of the Priura Lenlek and the shape of a sparse map. -/

namespace Sys2Proof

/-- A 64-bit register, instruction word or generic address. -/
abbrev Word := BitVec 64

/-- A byte of memory. -/
abbrev Byte := BitVec 8

/-- A sparse map from numbers: keys strictly rising, one entry per key. -/
abbrev FMap (α : Type) := List (Nat × α)

/-- Bytes by address, listed where they differ from zero (R459: every byte is written zero at boot). -/
abbrev Memory := List Host.Cell

/-- Engine tags 0 to 5 (R3). -/
inductive EngTag where
  | c | a | x | m | w | k
  deriving DecidableEq, Repr

/-- Classes of chiplet (R1). -/
inductive DieClass where
  | gsd | dmx | vec | spx | srt | mem
  deriving DecidableEq, Repr

/-- The number of an engine tag (R3). -/
def EngTag.num : EngTag → Nat
  | .c => 0 | .a => 1 | .x => 2 | .m => 3 | .w => 4 | .k => 5

/-- The engine tag with a number (R3); 6 and 7 name no engine. -/
def EngTag.ofNum : Nat → Option EngTag
  | 0 => some .c | 1 => some .a | 2 => some .x | 3 => some .m | 4 => some .w | 5 => some .k
  | _ => none

/-- All engine tags, in ascending order. -/
def EngTag.all : List EngTag := [.c, .a, .x, .m, .w, .k]

/-- Engines present on a die class (R3). -/
def DieClass.has : DieClass → EngTag → Bool
  | .dmx, .k => false
  | .dmx, _ => true
  | .vec, .c => true
  | .vec, .a => true
  | .vec, .x => true
  | .vec, _ => false
  | .spx, .c => true
  | .spx, .a => true
  | .spx, .k => true
  | .spx, _ => false
  | .srt, .c => true
  | .srt, .a => true
  | .srt, .k => true
  | .srt, _ => false
  | .gsd, _ => false
  | .mem, _ => false

/-- Engines present on a die class, in ascending tag order. -/
def DieClass.engines (c : DieClass) : List EngTag := EngTag.all.filter c.has

/-- Bits [lo + n - 1 : lo] of a natural number. -/
def natBits (x lo n : Nat) : Nat := (x >>> lo) % 2 ^ n

end Sys2Proof
end

