-- ==== Sys2Proof/Syntax.lean ====
section
/-! DEFINITION. The instructions, packets, commands and events of the LK-8: one constructor per row of
spec/opcode_table.json. -/

namespace Sys2Proof

/-- A SIGNAL byte that pushes a token (R80, R85): receiving engine, counter, and WHEN. -/
structure Sig where
  eng : EngTag
  cnt : BitVec 3
  done : Bool
  deriving DecidableEq, Repr

/-- The fields every first word carries (R80): WAIT, SIGNAL and the engine tag, 7 for every present engine. -/
structure Hdr where
  wait : BitVec 8
  sig : Option Sig
  eng : BitVec 3
  deriving DecidableEq, Repr

/-- The second word of a wide instruction (R81). -/
structure W1 where
  lit : BitVec 32
  ext : BitVec 32
  deriving DecidableEq, Repr

/-- The RRR and AS formats (R89, R93): operand codes of D, A and B, and MOD. -/
structure Rrr where
  hdr : Hdr
  d : BitVec 8
  a : BitVec 8
  b : BitVec 8
  ty : BitVec 4
  rs : BitVec 4
  fl : BitVec 4
  w1 : Option W1
  deriving DecidableEq, Repr

/-- The RI format (R89). -/
structure Ri where
  hdr : Hdr
  d : BitVec 8
  a : BitVec 8
  imm : BitVec 20
  w1 : Option W1
  deriving DecidableEq, Repr

/-- The BR format (R89, R91). -/
structure Br where
  hdr : Hdr
  cond : BitVec 4
  prod : Bool
  reg : BitVec 7
  off : BitVec 24
  w1 : Option W1
  deriving DecidableEq, Repr

/-- The LP format (R89, R92). -/
structure Lp where
  hdr : Hdr
  lc : BitVec 4
  res : BitVec 4
  stg : BitVec 3
  rot : Bool
  off : BitVec 24
  w1 : Option W1
  deriving DecidableEq, Repr

/-- A host packet as the GSD reads it (R346): its queue, index and header, and four body words. -/
structure Pkt where
  queue : Nat
  idx : Nat
  fence : Bool
  notify : Bool
  sigid : Nat
  sigval : Word
  start : Nat
  lattol : Nat
  b0 : Word
  b1 : Word
  b2 : Word
  b3 : Word
  /-- a byte that the layout says is zero is not (R332) -/
  resv : Bool
  deriving DecidableEq, Repr

/-- A management command as the GSD reads it (R456): where its entry lies and its six argument words. -/
structure Cmd where
  entry : Nat
  /-- the entry lies in the I3C buffer, not in host memory (R468) -/
  i3c : Bool
  /-- R436: the tick at which it arrived -/
  tick : Nat := 0
  w0 : Word
  w1 : Word
  w2 : Word
  w3 : Word
  w4 : Word
  w5 : Word
  deriving DecidableEq, Repr

/-- What ECC finds at a place a scrub reads (R425). -/
inductive EccFinding where
  | clean | correctable | uncorrectable
  deriving DecidableEq, Repr

/-- What the board and the links show a boot (R459-R461): the strap, the objects whose training fails, whether
a GSD path to the minimum population exists, and whether the time source locks. -/
structure BootInputs where
  strap : BitVec 2
  failing : List Nat
  minPaths : Bool
  lock : Bool
  deriving DecidableEq, Repr

/-- What ACCESS_PERFORMED performs (R311): a die's message by its place in the die's list, or the next element
of a cell's asynchronous job. -/
inductive PerfTarget where
  | message (chip idx : Nat)
  | element (cell job : Nat)
  deriving DecidableEq, Repr

/-- The steps of the LK-8: the words of Kitra, and the packets, commands and events of the package. -/
inductive Instr where
  /-- ADD (R115) -/
  | add (f : Rrr)
  /-- ADD_RI (R97) -/
  | addRi (f : Ri)
  /-- SUB (R115) -/
  | sub (f : Rrr)
  /-- MUL (R115) -/
  | mul (f : Rrr)
  /-- MULH (R115) -/
  | mulh (f : Rrr)
  /-- DIV (R116) -/
  | div (f : Rrr)
  /-- REM (R116) -/
  | rem (f : Rrr)
  /-- AND (R115) -/
  | and (f : Rrr)
  /-- AND_RI (R97) -/
  | andRi (f : Ri)
  /-- OR (R115) -/
  | or (f : Rrr)
  /-- OR_RI (R97) -/
  | orRi (f : Ri)
  /-- XOR (R115) -/
  | xor (f : Rrr)
  /-- ANDN (R115) -/
  | andn (f : Rrr)
  /-- SHL (R117) -/
  | shl (f : Rrr)
  /-- SHL_RI (R97) -/
  | shlRi (f : Ri)
  /-- SHR (R117) -/
  | shr (f : Rrr)
  /-- SHR_RI (R97) -/
  | shrRi (f : Ri)
  /-- SHRA (R117) -/
  | shra (f : Rrr)
  /-- MIN (R115) -/
  | min (f : Rrr)
  /-- MAX (R115) -/
  | max (f : Rrr)
  /-- SETEQ (R115) -/
  | seteq (f : Rrr)
  /-- SETNE (R115) -/
  | setne (f : Rrr)
  /-- SETLT (R115) -/
  | setlt (f : Rrr)
  /-- SETLT_RI (R97) -/
  | setltRi (f : Ri)
  /-- SETLE (R115) -/
  | setle (f : Rrr)
  /-- SEL (R118) -/
  | sel (f : Rrr)
  /-- CLZ (R117) -/
  | clz (f : Rrr)
  /-- POPC (R117) -/
  | popc (f : Rrr)
  /-- BFX (R118) -/
  | bfx (f : Rrr)
  /-- BFI (R118) -/
  | bfi (f : Rrr)
  /-- ADDSC (R119) -/
  | addsc (f : Rrr)
  /-- CVTA (R120) -/
  | cvta (f : Rrr)
  /-- APTEST (R121) -/
  | aptest (f : Rrr)
  /-- LCSET (R122) -/
  | lcset (f : Rrr)
  /-- LI (R115) -/
  | li (f : Ri)
  /-- TRAP (R140) -/
  | trap (f : Ri)
  /-- BKPT (R140) -/
  | bkpt (f : Ri)
  /-- ERET (R148) -/
  | eret (f : Ri)
  /-- CSRR (R136) -/
  | csrr (f : Ri)
  /-- CSRW (R136) -/
  | csrw (f : Ri)
  /-- CSRS (R136) -/
  | csrs (f : Ri)
  /-- CSRC (R136) -/
  | csrc (f : Ri)
  /-- TICK (R137) -/
  | tick (f : Rrr)
  /-- WAITTICK (R137) -/
  | waittick (f : Rrr)
  /-- HALT (R138) -/
  | halt (f : Rrr)
  /-- ICINV (R139) -/
  | icinv (f : Rrr)
  /-- TLBINV (R139) -/
  | tlbinv (f : Rrr)
  /-- WATCH (R141) -/
  | watch (f : Ri)
  /-- PEND_GO (R142) -/
  | pendGo (f : Ri)
  /-- PEND_CANCEL (R142) -/
  | pendCancel (f : Ri)
  /-- PEND_REPEAT (R142) -/
  | pendRepeat (f : Ri)
  /-- ECHO (R143) -/
  | echo (f : Ri)
  /-- DISCVER (R143) -/
  | discver (f : Ri)
  /-- MARK (R143) -/
  | mark (f : Ri)
  /-- FWSVC_UNDEFINED (R143) -/
  | fwsvcUndefined (f : Ri)
  /-- OUT (R130) -/
  | out (f : Rrr)
  /-- MSET (R247) -/
  | mset (f : Rrr)
  /-- MOPD (R252) -/
  | mopd (f : Rrr)
  /-- MSCALE (R256) -/
  | mscale (f : Rrr)
  /-- RTT (R275) -/
  | rtt (f : Rrr)
  /-- LD (R156) -/
  | ld (f : Rrr)
  /-- ST (R157) -/
  | st (f : Rrr)
  /-- LDS (R160) -/
  | lds (f : Rrr)
  /-- STS (R160) -/
  | sts (f : Rrr)
  /-- RCLAIM_CFG (R165) -/
  | rclaimCfg (f : Rrr)
  /-- RCLAIM (R166) -/
  | rclaim (f : Rrr)
  /-- RCOMMIT (R166) -/
  | rcommit (f : Rrr)
  /-- RTAKE (R166) -/
  | rtake (f : Rrr)
  /-- RDONE (R166) -/
  | rdone (f : Rrr)
  /-- WAITFILL (R166) -/
  | waitfill (f : Rrr)
  /-- WAITFREE (R166) -/
  | waitfree (f : Rrr)
  /-- ATOM_ADD (R169) -/
  | atomAdd (f : Rrr)
  /-- ATOM_AND (R169) -/
  | atomAnd (f : Rrr)
  /-- ATOM_OR (R169) -/
  | atomOr (f : Rrr)
  /-- ATOM_XOR (R169) -/
  | atomXor (f : Rrr)
  /-- ATOM_MIN (R169) -/
  | atomMin (f : Rrr)
  /-- ATOM_MAX (R169) -/
  | atomMax (f : Rrr)
  /-- ATOM_EXCH (R169) -/
  | atomExch (f : Rrr)
  /-- ATOM_CAS (R169) -/
  | atomCas (f : Rrr)
  /-- ATOM_INCW (R169) -/
  | atomIncw (f : Rrr)
  /-- ATOM_DECW (R169) -/
  | atomDecw (f : Rrr)
  /-- ATOM_FADDB (R169) -/
  | atomFaddb (f : Rrr)
  /-- PHASE (R176) -/
  | phase (f : Rrr)
  /-- REL (R176) -/
  | rel (f : Rrr)
  /-- ACQ (R176) -/
  | acq (f : Rrr)
  /-- BAR_DIE (R177) -/
  | barDie (f : Rrr)
  /-- BAR_NODE (R177) -/
  | barNode (f : Rrr)
  /-- PUBLISH (R180) -/
  | publish (f : Rrr)
  /-- COPY (R188) -/
  | copy (f : Rrr)
  /-- COPY_TH_IN (R189) -/
  | copyThIn (f : Rrr)
  /-- COPY_TH_OUT (R189) -/
  | copyThOut (f : Rrr)
  /-- COPYM (R190) -/
  | copym (f : Rrr)
  /-- GATHER (R191) -/
  | gather (f : Rrr)
  /-- SCATTER (R192) -/
  | scatter (f : Rrr)
  /-- PREFETCH (R193) -/
  | prefetch (f : Rrr)
  /-- THFENCE (R194) -/
  | thfence (f : Rrr)
  /-- CAPOPEN (R197) -/
  | capopen (f : Rrr)
  /-- CAPGIVE (R198) -/
  | capgive (f : Rrr)
  /-- CAPDUP (R199) -/
  | capdup (f : Rrr)
  /-- CAPDROP (R200) -/
  | capdrop (f : Rrr)
  /-- FENCE_ENG (R178) -/
  | fenceEng (f : Rrr)
  /-- FENCE_ENG_ASYNC (R178) -/
  | fenceEngAsync (f : Rrr)
  /-- FADD (R208) -/
  | fadd (f : Rrr)
  /-- FSUB (R208) -/
  | fsub (f : Rrr)
  /-- FMUL (R208) -/
  | fmul (f : Rrr)
  /-- FDIV (R208) -/
  | fdiv (f : Rrr)
  /-- FSQRT (R208) -/
  | fsqrt (f : Rrr)
  /-- FMA (R208) -/
  | fma (f : Rrr)
  /-- FMS (R208) -/
  | fms (f : Rrr)
  /-- FMIN (R209) -/
  | fmin (f : Rrr)
  /-- FMAX (R209) -/
  | fmax (f : Rrr)
  /-- FABS (R209) -/
  | fabs (f : Rrr)
  /-- FNEG (R209) -/
  | fneg (f : Rrr)
  /-- FCMP (R210) -/
  | fcmp (f : Rrr)
  /-- IADD (R212) -/
  | iadd (f : Rrr)
  /-- ISUB (R212) -/
  | isub (f : Rrr)
  /-- IMUL (R212) -/
  | imul (f : Rrr)
  /-- IMULH (R212) -/
  | imulh (f : Rrr)
  /-- IMIN (R212) -/
  | imin (f : Rrr)
  /-- IMAX (R212) -/
  | imax (f : Rrr)
  /-- IAND (R212) -/
  | iand (f : Rrr)
  /-- IOR (R212) -/
  | ior (f : Rrr)
  /-- IXOR (R212) -/
  | ixor (f : Rrr)
  /-- ISHL (R212) -/
  | ishl (f : Rrr)
  /-- ISHR (R212) -/
  | ishr (f : Rrr)
  /-- ISHRA (R212) -/
  | ishra (f : Rrr)
  /-- ICMP (R213) -/
  | icmp (f : Rrr)
  /-- IABS (R212) -/
  | iabs (f : Rrr)
  /-- VSEL (R214) -/
  | vsel (f : Rrr)
  /-- KAND (R215) -/
  | kand (f : Rrr)
  /-- KOR (R215) -/
  | kor (f : Rrr)
  /-- KXOR (R215) -/
  | kxor (f : Rrr)
  /-- KNOT (R215) -/
  | knot (f : Rrr)
  /-- MOV_V (R216) -/
  | movV (f : Rrr)
  /-- ROTR (R218) -/
  | rotr (f : Rrr)
  /-- ROTC (R218) -/
  | rotc (f : Rrr)
  /-- BCR (R218) -/
  | bcr (f : Rrr)
  /-- BCC (R218) -/
  | bcc (f : Rrr)
  /-- REDR (R219) -/
  | redr (f : Rrr)
  /-- REDC (R219) -/
  | redc (f : Rrr)
  /-- TRB (R220) -/
  | trb (f : Rrr)
  /-- UNPK (R225) -/
  | unpk (f : Rrr)
  /-- PACK (R226) -/
  | pack (f : Rrr)
  /-- CVT (R223) -/
  | cvt (f : Rrr)
  /-- EXP2 (R228) -/
  | exp2 (f : Rrr)
  /-- LOG2 (R228) -/
  | log2 (f : Rrr)
  /-- RCP (R228) -/
  | rcp (f : Rrr)
  /-- RSQ (R228) -/
  | rsq (f : Rrr)
  /-- SIN (R228) -/
  | sin (f : Rrr)
  /-- COS (R228) -/
  | cos (f : Rrr)
  /-- TANH (R228) -/
  | tanh (f : Rrr)
  /-- ROT_BASE (R230) -/
  | rotBase (f : Rrr)
  /-- ROT_BASE_OFF (R230) -/
  | rotBaseOff (f : Rrr)
  /-- ORIENT2 (R233) -/
  | orient2 (f : Rrr)
  /-- ORIENT3 (R233) -/
  | orient3 (f : Rrr)
  /-- INCIRCLE (R233) -/
  | incircle (f : Rrr)
  /-- INSPHERE (R233) -/
  | insphere (f : Rrr)
  /-- SEGCROSS (R233) -/
  | segcross (f : Rrr)
  /-- VLD (R222) -/
  | vld (f : Rrr)
  /-- VST (R222) -/
  | vst (f : Rrr)
  /-- MZERO (R266) -/
  | mzero (f : Rrr)
  /-- MLOAD (R267) -/
  | mload (f : Rrr)
  /-- MGO (R259) -/
  | mgo (f : Rrr)
  /-- MDRAIN_SPAD (R268) -/
  | mdrainSpad (f : Rrr)
  /-- MDRAIN_GLOB (R268) -/
  | mdrainGlob (f : Rrr)
  /-- MDRAIN_GLOB_ADD (R268) -/
  | mdrainGlobAdd (f : Rrr)
  /-- MDRAIN_PEER (R271) -/
  | mdrainPeer (f : Rrr)
  /-- RGO_MAX (R276) -/
  | rgoMax (f : Rrr)
  /-- RGO_EXPSUM (R276) -/
  | rgoExpsum (f : Rrr)
  /-- RGO_SCALE (R276) -/
  | rgoScale (f : Rrr)
  /-- RGO_NORM (R276) -/
  | rgoNorm (f : Rrr)
  /-- SORT (R280) -/
  | sort (f : Rrr)
  /-- SEGSORT (R280) -/
  | segsort (f : Rrr)
  /-- MERGE (R280) -/
  | merge (f : Rrr)
  /-- TOPK (R280) -/
  | topk (f : Rrr)
  /-- KSEL (R280) -/
  | ksel (f : Rrr)
  /-- UNIQ (R280) -/
  | uniq (f : Rrr)
  /-- SPMM_CSR (R283) -/
  | spmmCsr (f : Rrr)
  /-- SPMM_BSR (R283) -/
  | spmmBsr (f : Rrr)
  /-- SDDMM (R283) -/
  | sddmm (f : Rrr)
  /-- SPMV (R283) -/
  | spmv (f : Rrr)
  /-- BR (R126) -/
  | br (f : Br)
  /-- JMPI (R127) -/
  | jmpi (f : Br)
  /-- CALL (R127) -/
  | call (f : Br)
  /-- CALLI (R127) -/
  | calli (f : Br)
  /-- RET (R127) -/
  | ret (f : Br)
  /-- LOOP (R128) -/
  | loop (f : Lp)
  /-- BREAK (R129) -/
  | break_ (f : Br)
  /-- FOLLOW (R130) -/
  | follow (f : Br)
  /-- REGION (R131) -/
  | region (f : Rrr)
  /-- END (R132) -/
  | end_ (f : Rrr)
  /-- NOP (R133) -/
  | nop (f : Rrr)
  /-- GRAPH_LAUNCH (R332) -/
  | graphLaunch (p : Pkt)
  /-- NODE_LAUNCH (R348) -/
  | nodeLaunch (p : Pkt)
  /-- SIGNAL (R347) -/
  | signal (p : Pkt)
  /-- WAIT (R349) -/
  | wait (p : Pkt)
  /-- BUFFER_CREATE (R337) -/
  | bufferCreate (p : Pkt)
  /-- BUFFER_DROP (R337) -/
  | bufferDrop (p : Pkt)
  /-- BUFFER_PUBLISH (R337) -/
  | bufferPublish (p : Pkt)
  /-- BARRIER (R349) -/
  | barrier (p : Pkt)
  /-- TIMED (R354) -/
  | timed (p : Pkt)
  /-- PART_CREATE (R387) -/
  | partCreate (c : Cmd)
  /-- PART_DESTROY (R387) -/
  | partDestroy (c : Cmd)
  /-- CTX_CREATE (R387) -/
  | ctxCreate (c : Cmd)
  /-- CTX_DESTROY (R387) -/
  | ctxDestroy (c : Cmd)
  /-- CTX_SWITCH (R396) -/
  | ctxSwitch (c : Cmd)
  /-- PREEMPT (R392) -/
  | preempt (c : Cmd)
  /-- MAP (R387) -/
  | map (c : Cmd)
  /-- UNMAP (R387) -/
  | unmap (c : Cmd)
  /-- FAULT_REPLY (R391) -/
  | faultReply (c : Cmd)
  /-- OBJ_LOAD (R112) -/
  | objLoad (c : Cmd)
  /-- OBJ_PATCH (R397) -/
  | objPatch (c : Cmd)
  /-- OBJ_UNLOAD (R398) -/
  | objUnload (c : Cmd)
  /-- GRAPH_CANCEL (R411) -/
  | graphCancel (c : Cmd)
  /-- HALT_RESUME (R411) -/
  | haltResume (c : Cmd)
  /-- HALT_DISCARD (R411) -/
  | haltDiscard (c : Cmd)
  /-- DUMP_AREA (R411) -/
  | dumpArea (c : Cmd)
  /-- WATCH_DEFAULTS (R419) -/
  | watchDefaults (c : Cmd)
  /-- TRACE_DEFAULTS (R437) -/
  | traceDefaults (c : Cmd)
  /-- STOP_AT (R436) -/
  | stopAt (c : Cmd)
  /-- ROLE_SET (R447) -/
  | roleSet (c : Cmd)
  /-- POWER_SET (R466) -/
  | powerSet (c : Cmd)
  /-- ATTEST (R464) -/
  | attest (c : Cmd)
  /-- FW_STAGE (R463) -/
  | fwStage (c : Cmd)
  /-- JOURNAL_CLEAR (R463) -/
  | journalClear (c : Cmd)
  /-- PEER_TILE_APPLY (R272) -/
  | peerTileApply (cell idx : Nat)
  /-- ASYNC_COMPLETION (R182) -/
  | asyncCompletion (cell job : Nat)
  /-- COMPLETION_QUEUE_APPLY (R290) -/
  | completionQueueApply (cell : Nat) (e : EngTag) (idx : Nat)
  /-- HELD_PUSH_ACCEPT (R289) -/
  | heldPushAccept (cell : Nat) (e : EngTag)
  /-- TRAP_ENTRY (R146) -/
  | trapEntry (cell : Nat)
  /-- ENGINE_STALL (R305) -/
  | engineStall (cell : Nat)
  /-- SHARD_STOP (R408) -/
  | shardStop (cell : Nat)
  /-- SCRATCHPAD_CLEAR_DONE (R61) -/
  | scratchpadClearDone (cell : Nat)
  /-- SHARD_RETIRE (R132) -/
  | shardRetire (cell : Nat)
  /-- NODE_RETIRE (R341) -/
  | nodeRetire (node : Nat)
  /-- NODE_PLACE (R342) -/
  | nodePlace (part : Nat)
  /-- FALLBACK_TIMEOUT (R343) -/
  | fallbackTimeout (node : Nat)
  /-- SLOT_STARVATION (R357) -/
  | slotStarvation (node : Nat)
  /-- QUEUE_DEADLOCK (R356) -/
  | queueDeadlock (q : Nat)
  /-- PROLOGUE_RUN (R351) -/
  | prologueRun (node : Nat)
  /-- LTHB_WRITE (R352) -/
  | lthbWrite (node : Nat) (value : Word)
  /-- TIMED_START (R354) -/
  | timedStart (cell : Nat)
  /-- NODE_HALTED (R392) -/
  | nodeHalted (node : Nat)
  /-- QCFG_WRITE (R345) -/
  | qcfgWrite (q : Nat) (value : Word)
  /-- SIGNAL_WRITE (R347) -/
  | signalWrite (sig : Nat) (value : Word)
  /-- REGISTER_WRITE (R14) -/
  | registerWrite (off : Nat) (value : Word)
  /-- TILE_FETCH_COMPLETE (R376) -/
  | tileFetchComplete (buf tile : Nat)
  /-- TILE_EVICT_COMPLETE (R363) -/
  | tileEvictComplete (buf tile : Nat)
  /-- ROW_COUNTER_HALVE (R379) -/
  | rowCounterHalve (chip : Nat)
  /-- LINK_FAILURE (R324) -/
  | linkFailure (chipA chipB : Nat)
  /-- DUMP_WRITE (R421) -/
  | dumpWrite
  /-- SCRUB (R425) -/
  | scrub (chip place : Nat) (found : EccFinding)
  /-- THERMAL_TRIP (R462) -/
  | thermalTrip (chip : Nat)
  /-- PCIE_RESET (R451) -/
  | pcieReset
  /-- POWER_GOOD (R459) -/
  | powerGood (b : BootInputs)
  /-- NYERN_LINK_LOCK (R430) -/
  | nyernLinkLock (tick : Nat)
  /-- TB_CORRECTION (R432) -/
  | tbCorrection (offset : Int) (newInc : Nat)
  /-- STOP_ON_TICK (R436) -/
  | stopOnTick
  /-- TRACE_RETRY (R440) -/
  | traceRetry (cell : Nat)
  /-- EVENT_RING_POST (R456) -/
  | eventRingPost
  /-- BAR2_ACCESS (R454) -/
  | bar2Access (off len : Nat) (data : Option (List Byte))
  /-- I3C_MCTP_MESSAGE (R468) -/
  | i3cMctpMessage (entry : List Byte)
  /-- ACCESS_PERFORMED (R311) -/
  | accessPerformed (t : PerfTarget)
  /-- L1_EVICTION (R309) -/
  | l1Eviction (cell line : Nat)
  /-- WAITTICK_END (R137) -/
  | waittickEnd (cell : Nat)
  /-- LATENCY_TOLERANCE_EXPIRY (R359) -/
  | latencyToleranceExpiry (node : Nat)
  /-- TIMED_PLACEMENT_OPEN (R354) -/
  | timedPlacementOpen (node : Nat)
  /-- POWER_LOSS (R460) -/
  | powerLoss (tornEntry : Bool)
  deriving DecidableEq, Repr

/-- The operand area of an instruction, by format; `event` for a row that is no instruction word. -/
inductive Body where
  | rrr (f : Rrr)
  | ri (f : Ri)
  | br (f : Br)
  | lp (f : Lp)
  | event
  deriving DecidableEq, Repr

/-- The operand area of an instruction. -/
def Instr.body : Instr → Body
  | .add f => .rrr f
  | .addRi f => .ri f
  | .sub f => .rrr f
  | .mul f => .rrr f
  | .mulh f => .rrr f
  | .div f => .rrr f
  | .rem f => .rrr f
  | .and f => .rrr f
  | .andRi f => .ri f
  | .or f => .rrr f
  | .orRi f => .ri f
  | .xor f => .rrr f
  | .andn f => .rrr f
  | .shl f => .rrr f
  | .shlRi f => .ri f
  | .shr f => .rrr f
  | .shrRi f => .ri f
  | .shra f => .rrr f
  | .min f => .rrr f
  | .max f => .rrr f
  | .seteq f => .rrr f
  | .setne f => .rrr f
  | .setlt f => .rrr f
  | .setltRi f => .ri f
  | .setle f => .rrr f
  | .sel f => .rrr f
  | .clz f => .rrr f
  | .popc f => .rrr f
  | .bfx f => .rrr f
  | .bfi f => .rrr f
  | .addsc f => .rrr f
  | .cvta f => .rrr f
  | .aptest f => .rrr f
  | .lcset f => .rrr f
  | .li f => .ri f
  | .trap f => .ri f
  | .bkpt f => .ri f
  | .eret f => .ri f
  | .csrr f => .ri f
  | .csrw f => .ri f
  | .csrs f => .ri f
  | .csrc f => .ri f
  | .tick f => .rrr f
  | .waittick f => .rrr f
  | .halt f => .rrr f
  | .icinv f => .rrr f
  | .tlbinv f => .rrr f
  | .watch f => .ri f
  | .pendGo f => .ri f
  | .pendCancel f => .ri f
  | .pendRepeat f => .ri f
  | .echo f => .ri f
  | .discver f => .ri f
  | .mark f => .ri f
  | .fwsvcUndefined f => .ri f
  | .out f => .rrr f
  | .mset f => .rrr f
  | .mopd f => .rrr f
  | .mscale f => .rrr f
  | .rtt f => .rrr f
  | .ld f => .rrr f
  | .st f => .rrr f
  | .lds f => .rrr f
  | .sts f => .rrr f
  | .rclaimCfg f => .rrr f
  | .rclaim f => .rrr f
  | .rcommit f => .rrr f
  | .rtake f => .rrr f
  | .rdone f => .rrr f
  | .waitfill f => .rrr f
  | .waitfree f => .rrr f
  | .atomAdd f => .rrr f
  | .atomAnd f => .rrr f
  | .atomOr f => .rrr f
  | .atomXor f => .rrr f
  | .atomMin f => .rrr f
  | .atomMax f => .rrr f
  | .atomExch f => .rrr f
  | .atomCas f => .rrr f
  | .atomIncw f => .rrr f
  | .atomDecw f => .rrr f
  | .atomFaddb f => .rrr f
  | .phase f => .rrr f
  | .rel f => .rrr f
  | .acq f => .rrr f
  | .barDie f => .rrr f
  | .barNode f => .rrr f
  | .publish f => .rrr f
  | .copy f => .rrr f
  | .copyThIn f => .rrr f
  | .copyThOut f => .rrr f
  | .copym f => .rrr f
  | .gather f => .rrr f
  | .scatter f => .rrr f
  | .prefetch f => .rrr f
  | .thfence f => .rrr f
  | .capopen f => .rrr f
  | .capgive f => .rrr f
  | .capdup f => .rrr f
  | .capdrop f => .rrr f
  | .fenceEng f => .rrr f
  | .fenceEngAsync f => .rrr f
  | .fadd f => .rrr f
  | .fsub f => .rrr f
  | .fmul f => .rrr f
  | .fdiv f => .rrr f
  | .fsqrt f => .rrr f
  | .fma f => .rrr f
  | .fms f => .rrr f
  | .fmin f => .rrr f
  | .fmax f => .rrr f
  | .fabs f => .rrr f
  | .fneg f => .rrr f
  | .fcmp f => .rrr f
  | .iadd f => .rrr f
  | .isub f => .rrr f
  | .imul f => .rrr f
  | .imulh f => .rrr f
  | .imin f => .rrr f
  | .imax f => .rrr f
  | .iand f => .rrr f
  | .ior f => .rrr f
  | .ixor f => .rrr f
  | .ishl f => .rrr f
  | .ishr f => .rrr f
  | .ishra f => .rrr f
  | .icmp f => .rrr f
  | .iabs f => .rrr f
  | .vsel f => .rrr f
  | .kand f => .rrr f
  | .kor f => .rrr f
  | .kxor f => .rrr f
  | .knot f => .rrr f
  | .movV f => .rrr f
  | .rotr f => .rrr f
  | .rotc f => .rrr f
  | .bcr f => .rrr f
  | .bcc f => .rrr f
  | .redr f => .rrr f
  | .redc f => .rrr f
  | .trb f => .rrr f
  | .unpk f => .rrr f
  | .pack f => .rrr f
  | .cvt f => .rrr f
  | .exp2 f => .rrr f
  | .log2 f => .rrr f
  | .rcp f => .rrr f
  | .rsq f => .rrr f
  | .sin f => .rrr f
  | .cos f => .rrr f
  | .tanh f => .rrr f
  | .rotBase f => .rrr f
  | .rotBaseOff f => .rrr f
  | .orient2 f => .rrr f
  | .orient3 f => .rrr f
  | .incircle f => .rrr f
  | .insphere f => .rrr f
  | .segcross f => .rrr f
  | .vld f => .rrr f
  | .vst f => .rrr f
  | .mzero f => .rrr f
  | .mload f => .rrr f
  | .mgo f => .rrr f
  | .mdrainSpad f => .rrr f
  | .mdrainGlob f => .rrr f
  | .mdrainGlobAdd f => .rrr f
  | .mdrainPeer f => .rrr f
  | .rgoMax f => .rrr f
  | .rgoExpsum f => .rrr f
  | .rgoScale f => .rrr f
  | .rgoNorm f => .rrr f
  | .sort f => .rrr f
  | .segsort f => .rrr f
  | .merge f => .rrr f
  | .topk f => .rrr f
  | .ksel f => .rrr f
  | .uniq f => .rrr f
  | .spmmCsr f => .rrr f
  | .spmmBsr f => .rrr f
  | .sddmm f => .rrr f
  | .spmv f => .rrr f
  | .br f => .br f
  | .jmpi f => .br f
  | .call f => .br f
  | .calli f => .br f
  | .ret f => .br f
  | .loop f => .lp f
  | .break_ f => .br f
  | .follow f => .br f
  | .region f => .rrr f
  | .end_ f => .rrr f
  | .nop f => .rrr f
  | .peerTileApply _ _ => .event
  | .asyncCompletion _ _ => .event
  | .completionQueueApply _ _ _ => .event
  | .heldPushAccept _ _ => .event
  | .trapEntry _ => .event
  | .engineStall _ => .event
  | .shardStop _ => .event
  | .scratchpadClearDone _ => .event
  | .shardRetire _ => .event
  | .nodeRetire _ => .event
  | .nodePlace _ => .event
  | .fallbackTimeout _ => .event
  | .slotStarvation _ => .event
  | .queueDeadlock _ => .event
  | .prologueRun _ => .event
  | .lthbWrite _ _ => .event
  | .timedStart _ => .event
  | .nodeHalted _ => .event
  | .graphLaunch _ => .event
  | .nodeLaunch _ => .event
  | .signal _ => .event
  | .wait _ => .event
  | .bufferCreate _ => .event
  | .bufferDrop _ => .event
  | .bufferPublish _ => .event
  | .barrier _ => .event
  | .timed _ => .event
  | .qcfgWrite _ _ => .event
  | .signalWrite _ _ => .event
  | .registerWrite _ _ => .event
  | .partCreate _ => .event
  | .partDestroy _ => .event
  | .ctxCreate _ => .event
  | .ctxDestroy _ => .event
  | .ctxSwitch _ => .event
  | .preempt _ => .event
  | .map _ => .event
  | .unmap _ => .event
  | .faultReply _ => .event
  | .objLoad _ => .event
  | .objPatch _ => .event
  | .objUnload _ => .event
  | .graphCancel _ => .event
  | .haltResume _ => .event
  | .haltDiscard _ => .event
  | .dumpArea _ => .event
  | .watchDefaults _ => .event
  | .traceDefaults _ => .event
  | .stopAt _ => .event
  | .roleSet _ => .event
  | .powerSet _ => .event
  | .attest _ => .event
  | .fwStage _ => .event
  | .journalClear _ => .event
  | .tileFetchComplete _ _ => .event
  | .tileEvictComplete _ _ => .event
  | .rowCounterHalve _ => .event
  | .linkFailure _ _ => .event
  | .dumpWrite => .event
  | .scrub _ _ _ => .event
  | .thermalTrip _ => .event
  | .pcieReset => .event
  | .powerGood _ => .event
  | .nyernLinkLock _ => .event
  | .tbCorrection _ _ => .event
  | .stopOnTick => .event
  | .traceRetry _ => .event
  | .eventRingPost => .event
  | .bar2Access _ _ _ => .event
  | .i3cMctpMessage _ => .event
  | .accessPerformed _ => .event
  | .l1Eviction _ _ => .event
  | .waittickEnd _ => .event
  | .latencyToleranceExpiry _ => .event
  | .timedPlacementOpen _ => .event
  | .powerLoss _ => .event

/-- The first word's common fields. -/
def Body.hdr : Body → Option Hdr
  | .rrr f => some f.hdr
  | .ri f => some f.hdr
  | .br f => some f.hdr
  | .lp f => some f.hdr
  | .event => none

/-- The second word, when there is one. -/
def Body.w1 : Body → Option W1
  | .rrr f => f.w1
  | .ri f => f.w1
  | .br f => f.w1
  | .lp f => f.w1
  | .event => none

end Sys2Proof
end

