-- ==== Sys2Proof/WellFormed.lean ====
section
/-! DEFINITION. The checks an engine makes on a word before it executes it (R81, R85, R89 to R96), as one form
per instruction and one check over forms; and when an instruction is well formed. -/

namespace Sys2Proof

/-- Which engine tags a form stands under (R97 to R103). -/
inductive Tags where
  /-- C and A share the opcode (R97) -/
  | scalar
  | one (t : Nat)
  /-- tag 5 on SRT dies -/
  | kSort
  /-- tag 5 on SPX dies -/
  | kSparse
  /-- tag 7 -/
  | all
  deriving DecidableEq, Repr

/-- What a field of an operand area holds (R94, R202). -/
inductive Fld where
  /-- must be 0x00 -/
  | zero
  /-- any number, checked elsewhere -/
  | raw
  /-- scalar destination: register or push -/
  | sdst
  /-- scalar register that is read and written: 0x00-0x3F -/
  | sreg
  /-- scalar source -/
  | ssrc
  /-- D as the data source of a store -/
  | sdat
  /-- D as a source of an AS or K form: register only or literal is refused -/
  | sas
  /-- lc0-lc15 -/
  | lc
  /-- vector source; as D the destination -/
  | v
  /-- D of VST, a vector source -/
  | vs
  /-- first register of a predicate's group -/
  | vg
  /-- mask k0-k15 -/
  | k
  /-- accumulator m0-m7 -/
  | acc
  deriving DecidableEq, Repr

/-- The TYPE codes a form accepts (R93 and the form's own rule). -/
inductive Types where
  | int | i64 | mem | atomF | atomI | atomN | gather | flt | vint | vany | t32 | sf | t89 | key | sp | any
  deriving DecidableEq, Repr

/-- The RS codes a form accepts. -/
inductive RsKind where
  | zero | any | round | scope | inv | barDie | barNode | thf | one | vld
  | lt2 | lt3 | lt4 | lt6 | lt8 | lt9
  deriving DecidableEq, Repr

/-- The FL bits a form defines: none, all, or a mask. -/
inductive FlKind where
  | zero | any | m1 | m3 | mB
  deriving DecidableEq, Repr

/-- What tells rows of one opcode apart. -/
inductive Sel where
  | any
  | imm2 (n : Nat)
  | imm8 (n : Nat)
  | svcOther
  | flBit (i : Nat) (b : Bool)
  | rsBit (b : Bool)
  | drain (dest : Nat) (add : Bool)
  deriving DecidableEq, Repr

/-- Further checks of single forms, named by the form. -/
inductive Extra where
  | plain | cvta | imm0 | csrr | csrw | imm5 | imm2 | imm8 | mset | mopd | mscale | rtt
  | ldPair | stPair | lds | pairD | cmtOk | cmtTh | cmtReq | scatter | prefetch | th
  | movv | red | unpk | pack | cvt | rotb | pred (i : Nat)
  | mgo | mdSpad | mdGlob | mdGlobAdd | mdPeer | ext0 | ext23 | uniq
  | br | jmpi | call | ret | follow | noTok | lp
  deriving DecidableEq, Repr

/-- What the encoding tables fix about one instruction. -/
structure Form where
  tags : Tags
  opc : BitVec 8
  D : Fld
  A : Fld
  B : Fld
  ty : Types
  rs : RsKind
  fl : FlKind
  /-- AS form: W1 is required and EXT32 is defined by the form -/
  ext : Bool
  /-- the form has asynchronous work, so WHEN may be 1 (R85) -/
  async : Bool
  sel : Sel
  extra : Extra
  deriving DecidableEq, Repr

/-- The form of each instruction word: R97 to R103 give tag, opcode and format, the instruction chapters the
operand fields; none for a row that is no instruction word. -/
def Instr.form : Instr → Option Form
  | .add _ => some ⟨.scalar, 0x00, .sdst, .ssrc, .ssrc, .int, .zero, .zero, false, false, .any, .plain⟩
  | .addRi _ => some ⟨.scalar, 0x40, .sdst, .ssrc, .zero, .any, .any, .any, false, false, .any, .plain⟩
  | .sub _ => some ⟨.scalar, 0x01, .sdst, .ssrc, .ssrc, .int, .zero, .zero, false, false, .any, .plain⟩
  | .mul _ => some ⟨.scalar, 0x02, .sdst, .ssrc, .ssrc, .int, .zero, .zero, false, false, .any, .plain⟩
  | .mulh _ => some ⟨.scalar, 0x03, .sdst, .ssrc, .ssrc, .int, .zero, .zero, false, false, .any, .plain⟩
  | .div _ => some ⟨.scalar, 0x04, .sdst, .ssrc, .ssrc, .int, .zero, .zero, false, false, .any, .plain⟩
  | .rem _ => some ⟨.scalar, 0x05, .sdst, .ssrc, .ssrc, .int, .zero, .zero, false, false, .any, .plain⟩
  | .and _ => some ⟨.scalar, 0x06, .sdst, .ssrc, .ssrc, .int, .zero, .zero, false, false, .any, .plain⟩
  | .andRi _ => some ⟨.scalar, 0x46, .sdst, .ssrc, .zero, .any, .any, .any, false, false, .any, .plain⟩
  | .or _ => some ⟨.scalar, 0x07, .sdst, .ssrc, .ssrc, .int, .zero, .zero, false, false, .any, .plain⟩
  | .orRi _ => some ⟨.scalar, 0x47, .sdst, .ssrc, .zero, .any, .any, .any, false, false, .any, .plain⟩
  | .xor _ => some ⟨.scalar, 0x08, .sdst, .ssrc, .ssrc, .int, .zero, .zero, false, false, .any, .plain⟩
  | .andn _ => some ⟨.scalar, 0x09, .sdst, .ssrc, .ssrc, .int, .zero, .zero, false, false, .any, .plain⟩
  | .shl _ => some ⟨.scalar, 0x0A, .sdst, .ssrc, .ssrc, .int, .zero, .zero, false, false, .any, .plain⟩
  | .shlRi _ => some ⟨.scalar, 0x4A, .sdst, .ssrc, .zero, .any, .any, .any, false, false, .any, .plain⟩
  | .shr _ => some ⟨.scalar, 0x0B, .sdst, .ssrc, .ssrc, .int, .zero, .zero, false, false, .any, .plain⟩
  | .shrRi _ => some ⟨.scalar, 0x4B, .sdst, .ssrc, .zero, .any, .any, .any, false, false, .any, .plain⟩
  | .shra _ => some ⟨.scalar, 0x0C, .sdst, .ssrc, .ssrc, .int, .zero, .zero, false, false, .any, .plain⟩
  | .min _ => some ⟨.scalar, 0x0D, .sdst, .ssrc, .ssrc, .int, .zero, .zero, false, false, .any, .plain⟩
  | .max _ => some ⟨.scalar, 0x0E, .sdst, .ssrc, .ssrc, .int, .zero, .zero, false, false, .any, .plain⟩
  | .seteq _ => some ⟨.scalar, 0x0F, .sdst, .ssrc, .ssrc, .int, .zero, .zero, false, false, .any, .plain⟩
  | .setne _ => some ⟨.scalar, 0x10, .sdst, .ssrc, .ssrc, .int, .zero, .zero, false, false, .any, .plain⟩
  | .setlt _ => some ⟨.scalar, 0x11, .sdst, .ssrc, .ssrc, .int, .zero, .zero, false, false, .any, .plain⟩
  | .setltRi _ => some ⟨.scalar, 0x51, .sdst, .ssrc, .zero, .any, .any, .any, false, false, .any, .plain⟩
  | .setle _ => some ⟨.scalar, 0x12, .sdst, .ssrc, .ssrc, .int, .zero, .zero, false, false, .any, .plain⟩
  | .sel _ => some ⟨.scalar, 0x13, .sreg, .ssrc, .ssrc, .i64, .zero, .zero, false, false, .any, .plain⟩
  | .clz _ => some ⟨.scalar, 0x14, .sdst, .ssrc, .zero, .int, .zero, .zero, false, false, .any, .plain⟩
  | .popc _ => some ⟨.scalar, 0x15, .sdst, .ssrc, .zero, .int, .zero, .zero, false, false, .any, .plain⟩
  | .bfx _ => some ⟨.scalar, 0x16, .sdst, .ssrc, .ssrc, .i64, .zero, .m1, false, false, .any, .plain⟩
  | .bfi _ => some ⟨.scalar, 0x17, .sreg, .ssrc, .ssrc, .i64, .zero, .zero, false, false, .any, .plain⟩
  | .addsc _ => some ⟨.scalar, 0x18, .sdst, .ssrc, .ssrc, .i64, .zero, .any, false, false, .any, .plain⟩
  | .cvta _ => some ⟨.scalar, 0x19, .sdst, .ssrc, .ssrc, .i64, .lt4, .m1, false, false, .any, .cvta⟩
  | .aptest _ => some ⟨.scalar, 0x1A, .sdst, .ssrc, .zero, .i64, .zero, .zero, false, false, .any, .plain⟩
  | .lcset _ => some ⟨.scalar, 0x1B, .lc, .ssrc, .zero, .i64, .zero, .zero, false, false, .any, .plain⟩
  | .li _ => some ⟨.scalar, 0x5F, .sdst, .zero, .zero, .any, .any, .any, false, false, .any, .plain⟩
  | .trap _ => some ⟨.one 0, 0x80, .zero, .ssrc, .zero, .any, .any, .any, false, false, .any, .plain⟩
  | .bkpt _ => some ⟨.one 0, 0x8B, .zero, .zero, .zero, .any, .any, .any, false, false, .any, .plain⟩
  | .eret _ => some ⟨.one 0, 0x81, .zero, .zero, .zero, .any, .any, .any, false, false, .any, .imm0⟩
  | .csrr _ => some ⟨.one 0, 0x82, .sdst, .zero, .zero, .any, .any, .any, false, false, .any, .csrr⟩
  | .csrw _ => some ⟨.one 0, 0x83, .sdst, .ssrc, .zero, .any, .any, .any, false, false, .any, .csrw⟩
  | .csrs _ => some ⟨.one 0, 0x84, .sdst, .ssrc, .zero, .any, .any, .any, false, false, .any, .csrw⟩
  | .csrc _ => some ⟨.one 0, 0x85, .sdst, .ssrc, .zero, .any, .any, .any, false, false, .any, .csrw⟩
  | .tick _ => some ⟨.one 0, 0x86, .sdst, .zero, .zero, .i64, .zero, .zero, false, false, .any, .plain⟩
  | .waittick _ => some ⟨.one 0, 0x87, .zero, .ssrc, .zero, .i64, .zero, .zero, false, false, .any, .plain⟩
  | .halt _ => some ⟨.one 0, 0x88, .zero, .zero, .zero, .i64, .zero, .zero, false, false, .any, .plain⟩
  | .icinv _ => some ⟨.one 0, 0x89, .zero, .ssrc, .ssrc, .i64, .inv, .zero, false, false, .any, .plain⟩
  | .tlbinv _ => some ⟨.one 0, 0x8A, .zero, .ssrc, .ssrc, .i64, .inv, .zero, false, false, .any, .plain⟩
  | .watch _ => some ⟨.one 0, 0x8C, .sdst, .zero, .zero, .any, .any, .any, false, false, .any, .imm5⟩
  | .pendGo _ => some ⟨.one 0, 0x8D, .zero, .zero, .zero, .any, .any, .any, false, false, (.imm2 0), .imm2⟩
  | .pendCancel _ => some ⟨.one 0, 0x8D, .zero, .zero, .zero, .any, .any, .any, false, false, (.imm2 1), .imm2⟩
  | .pendRepeat _ => some ⟨.one 0, 0x8D, .zero, .ssrc, .zero, .any, .any, .any, false, false, (.imm2 2), .imm2⟩
  | .echo _ => some ⟨.one 0, 0x8E, .sdst, .ssrc, .zero, .any, .any, .any, false, false, (.imm8 0), .imm8⟩
  | .discver _ => some ⟨.one 0, 0x8E, .sdst, .ssrc, .zero, .any, .any, .any, false, false, (.imm8 1), .imm8⟩
  | .mark _ => some ⟨.one 0, 0x8E, .sdst, .ssrc, .zero, .any, .any, .any, false, false, (.imm8 2), .imm8⟩
  | .fwsvcUndefined _ => some ⟨.one 0, 0x8E, .sdst, .ssrc, .zero, .any, .any, .any, false, false, .svcOther, .imm8⟩
  | .out _ => some ⟨.one 0, 0x8F, .zero, .ssrc, .zero, .i64, .zero, .zero, false, false, .any, .plain⟩
  | .mset _ => some ⟨.one 0, 0xC0, .raw, .ssrc, .zero, .i64, .zero, .zero, false, false, .any, .mset⟩
  | .mopd _ => some ⟨.one 0, 0xC1, .raw, .ssrc, .ssrc, .i64, .zero, .zero, false, false, .any, .mopd⟩
  | .mscale _ => some ⟨.one 0, 0xC2, .raw, .ssrc, .ssrc, .i64, .zero, .zero, false, false, .any, .mscale⟩
  | .rtt _ => some ⟨.one 0, 0xC3, .raw, .ssrc, .zero, .i64, .zero, .zero, false, false, .any, .rtt⟩
  | .ld _ => some ⟨.one 1, 0x60, .sdst, .ssrc, .ssrc, .mem, .scope, .m3, false, false, .any, .ldPair⟩
  | .st _ => some ⟨.one 1, 0x61, .sdat, .ssrc, .ssrc, .mem, .scope, .m3, false, false, .any, .stPair⟩
  | .lds _ => some ⟨.one 1, 0x62, .sdst, .ssrc, .ssrc, .mem, .zero, .m3, false, false, .any, .lds⟩
  | .sts _ => some ⟨.one 1, 0x63, .sdat, .ssrc, .ssrc, .mem, .zero, .m3, false, false, .any, .stPair⟩
  | .rclaimCfg _ => some ⟨.one 1, 0x68, .zero, .ssrc, .ssrc, .i64, .any, .m1, false, false, (.flBit 0 true), .plain⟩
  | .rclaim _ => some ⟨.one 1, 0x68, .sdst, .zero, .zero, .i64, .any, .zero, false, false, (.flBit 0 false), .plain⟩
  | .rcommit _ => some ⟨.one 1, 0x69, .zero, .zero, .zero, .i64, .any, .zero, false, false, .any, .plain⟩
  | .rtake _ => some ⟨.one 1, 0x6A, .sdst, .zero, .zero, .i64, .any, .zero, false, false, .any, .plain⟩
  | .rdone _ => some ⟨.one 1, 0x6B, .zero, .zero, .zero, .i64, .any, .zero, false, false, .any, .plain⟩
  | .waitfill _ => some ⟨.one 1, 0x6C, .zero, .ssrc, .zero, .i64, .any, .zero, false, false, .any, .plain⟩
  | .waitfree _ => some ⟨.one 1, 0x6D, .zero, .ssrc, .zero, .i64, .any, .zero, false, false, .any, .plain⟩
  | .atomAdd _ => some ⟨.one 1, 0x70, .sreg, .ssrc, .ssrc, .atomF, .scope, .m3, false, false, .any, .plain⟩
  | .atomAnd _ => some ⟨.one 1, 0x71, .sreg, .ssrc, .ssrc, .atomI, .scope, .m3, false, false, .any, .plain⟩
  | .atomOr _ => some ⟨.one 1, 0x72, .sreg, .ssrc, .ssrc, .atomI, .scope, .m3, false, false, .any, .plain⟩
  | .atomXor _ => some ⟨.one 1, 0x73, .sreg, .ssrc, .ssrc, .atomI, .scope, .m3, false, false, .any, .plain⟩
  | .atomMin _ => some ⟨.one 1, 0x74, .sreg, .ssrc, .ssrc, .atomF, .scope, .m3, false, false, .any, .plain⟩
  | .atomMax _ => some ⟨.one 1, 0x75, .sreg, .ssrc, .ssrc, .atomF, .scope, .m3, false, false, .any, .plain⟩
  | .atomExch _ => some ⟨.one 1, 0x76, .sreg, .ssrc, .ssrc, .atomF, .scope, .m3, false, false, .any, .plain⟩
  | .atomCas _ => some ⟨.one 1, 0x77, .sreg, .ssrc, .ssrc, .atomF, .scope, .m3, false, false, .any, .pairD⟩
  | .atomIncw _ => some ⟨.one 1, 0x78, .sreg, .ssrc, .ssrc, .atomN, .scope, .m3, false, false, .any, .plain⟩
  | .atomDecw _ => some ⟨.one 1, 0x79, .sreg, .ssrc, .ssrc, .atomN, .scope, .m3, false, false, .any, .plain⟩
  | .atomFaddb _ => some ⟨.one 1, 0x7A, .sreg, .ssrc, .ssrc, .atomN, .scope, .m3, false, false, .any, .pairD⟩
  | .phase _ => some ⟨.one 1, 0x80, .zero, .zero, .zero, .i64, .scope, .zero, false, false, .any, .plain⟩
  | .rel _ => some ⟨.one 1, 0x81, .zero, .zero, .zero, .i64, .scope, .zero, false, false, .any, .plain⟩
  | .acq _ => some ⟨.one 1, 0x82, .zero, .zero, .zero, .i64, .scope, .zero, false, false, .any, .plain⟩
  | .barDie _ => some ⟨.one 1, 0x83, .zero, .zero, .zero, .i64, .barDie, .m1, false, false, (.flBit 0 false), .plain⟩
  | .barNode _ => some ⟨.one 1, 0x83, .zero, .zero, .zero, .i64, .barNode, .m1, false, false, (.flBit 0 true), .plain⟩
  | .publish _ => some ⟨.one 1, 0x84, .zero, .zero, .zero, .i64, .any, .zero, false, false, .any, .plain⟩
  | .copy _ => some ⟨.one 1, 0x90, .sas, .ssrc, .ssrc, .i64, .zero, .m3, true, true, .any, .cmtOk⟩
  | .copyThIn _ => some ⟨.one 1, 0x91, .sas, .ssrc, .ssrc, .i64, .zero, .mB, true, true, (.flBit 3 false), .cmtTh⟩
  | .copyThOut _ => some ⟨.one 1, 0x91, .sas, .ssrc, .ssrc, .i64, .zero, .mB, true, true, (.flBit 3 true), .cmtTh⟩
  | .copym _ => some ⟨.one 1, 0x92, .zero, .ssrc, .zero, .i64, .zero, .zero, true, true, .any, .cmtReq⟩
  | .gather _ => some ⟨.one 1, 0x93, .sas, .ssrc, .ssrc, .gather, .zero, .m3, true, true, .any, .cmtTh⟩
  | .scatter _ => some ⟨.one 1, 0x94, .sas, .ssrc, .ssrc, .any, .scope, .any, true, true, .any, .scatter⟩
  | .prefetch _ => some ⟨.one 1, 0x95, .zero, .ssrc, .ssrc, .i64, .scope, .m3, true, true, .any, .prefetch⟩
  | .thfence _ => some ⟨.one 1, 0x96, .zero, .zero, .zero, .i64, .thf, .m1, true, true, .any, .th⟩
  | .capopen _ => some ⟨.one 1, 0xA0, .sdst, .zero, .zero, .i64, .any, .any, false, false, .any, .plain⟩
  | .capgive _ => some ⟨.one 1, 0xA1, .zero, .ssrc, .zero, .i64, .any, .any, false, false, .any, .plain⟩
  | .capdup _ => some ⟨.one 1, 0xA2, .zero, .ssrc, .zero, .i64, .any, .any, false, false, .any, .plain⟩
  | .capdrop _ => some ⟨.one 1, 0xA3, .zero, .zero, .zero, .i64, .any, .zero, false, false, .any, .plain⟩
  | .fenceEng _ => some ⟨.all, 0x0A, .zero, .zero, .zero, .i64, .zero, .m1, false, false, (.flBit 0 false), .plain⟩
  | .fenceEngAsync _ => some ⟨.all, 0x0A, .zero, .zero, .zero, .i64, .zero, .m1, false, false, (.flBit 0 true), .plain⟩
  | .fadd _ => some ⟨.one 2, 0x00, .v, .v, .v, .flt, .round, .any, false, false, .any, .plain⟩
  | .fsub _ => some ⟨.one 2, 0x01, .v, .v, .v, .flt, .round, .any, false, false, .any, .plain⟩
  | .fmul _ => some ⟨.one 2, 0x02, .v, .v, .v, .flt, .round, .any, false, false, .any, .plain⟩
  | .fdiv _ => some ⟨.one 2, 0x03, .v, .v, .v, .flt, .round, .any, false, false, .any, .plain⟩
  | .fsqrt _ => some ⟨.one 2, 0x04, .v, .v, .zero, .flt, .round, .any, false, false, .any, .plain⟩
  | .fma _ => some ⟨.one 2, 0x05, .v, .v, .v, .flt, .round, .any, false, false, .any, .plain⟩
  | .fms _ => some ⟨.one 2, 0x06, .v, .v, .v, .flt, .round, .any, false, false, .any, .plain⟩
  | .fmin _ => some ⟨.one 2, 0x07, .v, .v, .v, .flt, .zero, .any, false, false, .any, .plain⟩
  | .fmax _ => some ⟨.one 2, 0x08, .v, .v, .v, .flt, .zero, .any, false, false, .any, .plain⟩
  | .fabs _ => some ⟨.one 2, 0x09, .v, .v, .zero, .flt, .zero, .any, false, false, .any, .plain⟩
  | .fneg _ => some ⟨.one 2, 0x0A, .v, .v, .zero, .flt, .zero, .any, false, false, .any, .plain⟩
  | .fcmp _ => some ⟨.one 2, 0x0B, .k, .v, .v, .flt, .lt8, .any, false, false, .any, .plain⟩
  | .iadd _ => some ⟨.one 2, 0x10, .v, .v, .v, .vint, .zero, .any, false, false, .any, .plain⟩
  | .isub _ => some ⟨.one 2, 0x11, .v, .v, .v, .vint, .zero, .any, false, false, .any, .plain⟩
  | .imul _ => some ⟨.one 2, 0x12, .v, .v, .v, .vint, .zero, .any, false, false, .any, .plain⟩
  | .imulh _ => some ⟨.one 2, 0x13, .v, .v, .v, .vint, .zero, .any, false, false, .any, .plain⟩
  | .imin _ => some ⟨.one 2, 0x14, .v, .v, .v, .vint, .zero, .any, false, false, .any, .plain⟩
  | .imax _ => some ⟨.one 2, 0x15, .v, .v, .v, .vint, .zero, .any, false, false, .any, .plain⟩
  | .iand _ => some ⟨.one 2, 0x16, .v, .v, .v, .vint, .zero, .any, false, false, .any, .plain⟩
  | .ior _ => some ⟨.one 2, 0x17, .v, .v, .v, .vint, .zero, .any, false, false, .any, .plain⟩
  | .ixor _ => some ⟨.one 2, 0x18, .v, .v, .v, .vint, .zero, .any, false, false, .any, .plain⟩
  | .ishl _ => some ⟨.one 2, 0x19, .v, .v, .v, .vint, .zero, .any, false, false, .any, .plain⟩
  | .ishr _ => some ⟨.one 2, 0x1A, .v, .v, .v, .vint, .zero, .any, false, false, .any, .plain⟩
  | .ishra _ => some ⟨.one 2, 0x1B, .v, .v, .v, .vint, .zero, .any, false, false, .any, .plain⟩
  | .icmp _ => some ⟨.one 2, 0x1C, .k, .v, .v, .vint, .lt6, .any, false, false, .any, .plain⟩
  | .iabs _ => some ⟨.one 2, 0x1D, .v, .v, .zero, .vint, .zero, .any, false, false, .any, .plain⟩
  | .vsel _ => some ⟨.one 2, 0x20, .v, .v, .v, .vany, .zero, .any, false, false, .any, .plain⟩
  | .kand _ => some ⟨.one 2, 0x21, .k, .k, .k, .i64, .zero, .zero, false, false, .any, .plain⟩
  | .kor _ => some ⟨.one 2, 0x22, .k, .k, .k, .i64, .zero, .zero, false, false, .any, .plain⟩
  | .kxor _ => some ⟨.one 2, 0x23, .k, .k, .k, .i64, .zero, .zero, false, false, .any, .plain⟩
  | .knot _ => some ⟨.one 2, 0x24, .k, .k, .zero, .i64, .zero, .zero, false, false, .any, .plain⟩
  | .movV _ => some ⟨.one 2, 0x25, .raw, .v, .zero, .vany, .lt4, .any, false, false, .any, .movv⟩
  | .rotr _ => some ⟨.one 2, 0x28, .v, .v, .ssrc, .vany, .zero, .any, false, false, .any, .plain⟩
  | .rotc _ => some ⟨.one 2, 0x29, .v, .v, .ssrc, .vany, .zero, .any, false, false, .any, .plain⟩
  | .bcr _ => some ⟨.one 2, 0x2A, .v, .v, .ssrc, .vany, .zero, .any, false, false, .any, .plain⟩
  | .bcc _ => some ⟨.one 2, 0x2B, .v, .v, .ssrc, .vany, .zero, .any, false, false, .any, .plain⟩
  | .redr _ => some ⟨.one 2, 0x2C, .v, .v, .zero, .vany, .lt6, .any, false, false, .any, .red⟩
  | .redc _ => some ⟨.one 2, 0x2D, .v, .v, .zero, .vany, .lt6, .any, false, false, .any, .red⟩
  | .trb _ => some ⟨.one 2, 0x2E, .v, .v, .zero, .t32, .zero, .any, false, false, .any, .plain⟩
  | .unpk _ => some ⟨.one 2, 0x30, .v, .v, .raw, .any, .lt9, .any, false, false, .any, .unpk⟩
  | .pack _ => some ⟨.one 2, 0x31, .v, .v, .raw, .any, .lt9, .any, false, false, .any, .pack⟩
  | .cvt _ => some ⟨.one 2, 0x32, .v, .v, .raw, .vany, .round, .any, false, false, .any, .cvt⟩
  | .exp2 _ => some ⟨.one 2, 0x38, .v, .v, .zero, .sf, .zero, .any, false, false, .any, .plain⟩
  | .log2 _ => some ⟨.one 2, 0x39, .v, .v, .zero, .sf, .zero, .any, false, false, .any, .plain⟩
  | .rcp _ => some ⟨.one 2, 0x3A, .v, .v, .zero, .sf, .zero, .any, false, false, .any, .plain⟩
  | .rsq _ => some ⟨.one 2, 0x3B, .v, .v, .zero, .sf, .zero, .any, false, false, .any, .plain⟩
  | .sin _ => some ⟨.one 2, 0x3C, .v, .v, .zero, .sf, .zero, .any, false, false, .any, .plain⟩
  | .cos _ => some ⟨.one 2, 0x3D, .v, .v, .zero, .sf, .zero, .any, false, false, .any, .plain⟩
  | .tanh _ => some ⟨.one 2, 0x3E, .v, .v, .zero, .sf, .zero, .any, false, false, .any, .plain⟩
  | .rotBase _ => some ⟨.one 2, 0x40, .raw, .raw, .zero, .i64, .zero, .zero, false, false, (.rsBit false), .rotb⟩
  | .rotBaseOff _ => some ⟨.one 2, 0x40, .zero, .zero, .zero, .i64, .one, .zero, false, false, (.rsBit true), .plain⟩
  | .orient2 _ => some ⟨.one 2, 0x48, .v, .vg, .k, .t89, .lt4, .any, false, false, .any, (.pred 0)⟩
  | .orient3 _ => some ⟨.one 2, 0x49, .v, .vg, .k, .t89, .lt4, .any, false, false, .any, (.pred 1)⟩
  | .incircle _ => some ⟨.one 2, 0x4A, .v, .vg, .k, .t89, .lt4, .any, false, false, .any, (.pred 2)⟩
  | .insphere _ => some ⟨.one 2, 0x4B, .v, .vg, .k, .t89, .lt4, .any, false, false, .any, (.pred 3)⟩
  | .segcross _ => some ⟨.one 2, 0x4C, .v, .vg, .k, .t89, .lt4, .any, false, false, .any, (.pred 4)⟩
  | .vld _ => some ⟨.one 2, 0x50, .v, .ssrc, .ssrc, .vany, .vld, .any, false, false, .any, .plain⟩
  | .vst _ => some ⟨.one 2, 0x51, .vs, .ssrc, .ssrc, .vany, .zero, .any, false, false, .any, .plain⟩
  | .mzero _ => some ⟨.one 3, 0x00, .acc, .zero, .zero, .i64, .lt3, .zero, false, false, .any, .plain⟩
  | .mload _ => some ⟨.one 3, 0x01, .acc, .ssrc, .zero, .i64, .zero, .zero, false, false, .any, .plain⟩
  | .mgo _ => some ⟨.one 3, 0x02, .zero, .zero, .zero, .i64, .zero, .zero, true, true, .any, .mgo⟩
  | .mdrainSpad _ => some ⟨.one 3, 0x03, .acc, .ssrc, .ssrc, .any, .any, .any, true, true, (.drain 0 false), .mdSpad⟩
  | .mdrainGlob _ => some ⟨.one 3, 0x03, .acc, .ssrc, .ssrc, .any, .any, .any, true, true, (.drain 1 false), .mdGlob⟩
  | .mdrainGlobAdd _ => some ⟨.one 3, 0x03, .acc, .ssrc, .ssrc, .any, .any, .any, true, true, (.drain 1 true), .mdGlobAdd⟩
  | .mdrainPeer _ => some ⟨.one 3, 0x03, .acc, .ssrc, .ssrc, .any, .any, .any, true, true, (.drain 2 false), .mdPeer⟩
  | .rgoMax _ => some ⟨.one 4, 0x00, .zero, .zero, .zero, .i64, .zero, .zero, false, true, .any, .plain⟩
  | .rgoExpsum _ => some ⟨.one 4, 0x01, .zero, .zero, .zero, .i64, .zero, .zero, false, true, .any, .plain⟩
  | .rgoScale _ => some ⟨.one 4, 0x02, .zero, .zero, .zero, .i64, .zero, .zero, false, true, .any, .plain⟩
  | .rgoNorm _ => some ⟨.one 4, 0x03, .zero, .zero, .zero, .i64, .zero, .zero, false, true, .any, .plain⟩
  | .sort _ => some ⟨.kSort, 0x00, .sas, .ssrc, .ssrc, .key, .lt4, .zero, true, true, .any, .ext0⟩
  | .segsort _ => some ⟨.kSort, 0x01, .sas, .ssrc, .ssrc, .key, .lt4, .zero, true, true, .any, .ext23⟩
  | .merge _ => some ⟨.kSort, 0x02, .sas, .ssrc, .ssrc, .key, .lt4, .zero, true, true, .any, .ext23⟩
  | .topk _ => some ⟨.kSort, 0x03, .sas, .ssrc, .ssrc, .key, .lt4, .zero, true, true, .any, .ext0⟩
  | .ksel _ => some ⟨.kSort, 0x04, .sas, .ssrc, .ssrc, .key, .lt4, .zero, true, true, .any, .ext0⟩
  | .uniq _ => some ⟨.kSort, 0x05, .sas, .ssrc, .ssrc, .key, .lt4, .zero, true, true, .any, .uniq⟩
  | .spmmCsr _ => some ⟨.kSparse, 0x10, .zero, .ssrc, .zero, .sp, .lt2, .zero, true, true, .any, .ext0⟩
  | .spmmBsr _ => some ⟨.kSparse, 0x11, .zero, .ssrc, .zero, .sp, .lt2, .zero, true, true, .any, .ext0⟩
  | .sddmm _ => some ⟨.kSparse, 0x12, .zero, .ssrc, .zero, .sp, .zero, .zero, true, true, .any, .ext0⟩
  | .spmv _ => some ⟨.kSparse, 0x13, .zero, .ssrc, .zero, .sp, .lt2, .zero, true, true, .any, .ext0⟩
  | .br _ => some ⟨.all, 0x00, .zero, .zero, .zero, .any, .any, .any, false, false, .any, .br⟩
  | .jmpi _ => some ⟨.all, 0x01, .zero, .zero, .zero, .any, .any, .any, false, false, .any, .jmpi⟩
  | .call _ => some ⟨.all, 0x02, .zero, .zero, .zero, .any, .any, .any, false, false, .any, .call⟩
  | .calli _ => some ⟨.all, 0x03, .zero, .zero, .zero, .any, .any, .any, false, false, .any, .jmpi⟩
  | .ret _ => some ⟨.all, 0x04, .zero, .zero, .zero, .any, .any, .any, false, false, .any, .ret⟩
  | .loop _ => some ⟨.all, 0x05, .zero, .zero, .zero, .any, .any, .any, false, false, .any, .lp⟩
  | .break_ _ => some ⟨.all, 0x06, .zero, .zero, .zero, .any, .any, .any, false, false, .any, .br⟩
  | .follow _ => some ⟨.all, 0x07, .zero, .zero, .zero, .any, .any, .any, false, false, .any, .follow⟩
  | .region _ => some ⟨.all, 0x08, .zero, .zero, .zero, .i64, .zero, .zero, false, false, .any, .noTok⟩
  | .end_ _ => some ⟨.all, 0x09, .zero, .zero, .zero, .i64, .zero, .zero, false, false, .any, .noTok⟩
  | .nop _ => some ⟨.all, 0x0B, .zero, .zero, .zero, .i64, .zero, .zero, false, false, .any, .plain⟩
  | .peerTileApply _ _ => none
  | .asyncCompletion _ _ => none
  | .completionQueueApply _ _ _ => none
  | .heldPushAccept _ _ => none
  | .trapEntry _ => none
  | .engineStall _ => none
  | .shardStop _ => none
  | .scratchpadClearDone _ => none
  | .shardRetire _ => none
  | .nodeRetire _ => none
  | .nodePlace _ => none
  | .fallbackTimeout _ => none
  | .slotStarvation _ => none
  | .queueDeadlock _ => none
  | .prologueRun _ => none
  | .lthbWrite _ _ => none
  | .timedStart _ => none
  | .nodeHalted _ => none
  | .graphLaunch _ => none
  | .nodeLaunch _ => none
  | .signal _ => none
  | .wait _ => none
  | .bufferCreate _ => none
  | .bufferDrop _ => none
  | .bufferPublish _ => none
  | .barrier _ => none
  | .timed _ => none
  | .qcfgWrite _ _ => none
  | .signalWrite _ _ => none
  | .registerWrite _ _ => none
  | .partCreate _ => none
  | .partDestroy _ => none
  | .ctxCreate _ => none
  | .ctxDestroy _ => none
  | .ctxSwitch _ => none
  | .preempt _ => none
  | .map _ => none
  | .unmap _ => none
  | .faultReply _ => none
  | .objLoad _ => none
  | .objPatch _ => none
  | .objUnload _ => none
  | .graphCancel _ => none
  | .haltResume _ => none
  | .haltDiscard _ => none
  | .dumpArea _ => none
  | .watchDefaults _ => none
  | .traceDefaults _ => none
  | .stopAt _ => none
  | .roleSet _ => none
  | .powerSet _ => none
  | .attest _ => none
  | .fwStage _ => none
  | .journalClear _ => none
  | .tileFetchComplete _ _ => none
  | .tileEvictComplete _ _ => none
  | .rowCounterHalve _ => none
  | .linkFailure _ _ => none
  | .dumpWrite => none
  | .scrub _ _ _ => none
  | .thermalTrip _ => none
  | .pcieReset => none
  | .powerGood _ => none
  | .nyernLinkLock _ => none
  | .tbCorrection _ _ => none
  | .stopOnTick => none
  | .traceRetry _ => none
  | .eventRingPost => none
  | .bar2Access _ _ _ => none
  | .i3cMctpMessage _ => none
  | .accessPerformed _ => none
  | .l1Eviction _ _ => none
  | .waittickEnd _ => none
  | .latencyToleranceExpiry _ => none
  | .timedPlacementOpen _ => none
  | .powerLoss _ => none

/-! ## The single checks -/

/-- R93: the TYPE codes of a set. -/
def Types.ok : Types → Nat → Bool
  | .int, t => t < 8
  | .i64, t => t == 0
  | .mem, t => t < 8 || t == 12
  | .atomF, t => t < 4 || t == 8 || t == 9
  | .atomI, t => t < 4
  | .atomN, t => t == 1 || t == 3
  | .gather, t => t == 1 || t == 3
  | .flt, t => 8 ≤ t && t ≤ 11
  | .vint, t => t < 6
  | .vany, t => t < 6 || (8 ≤ t && t ≤ 11)
  | .t32, t => t == 2 || t == 3 || t == 9
  | .sf, t => 9 ≤ t && t ≤ 11
  | .t89, t => t == 8 || t == 9
  | .key, t => t < 4 || t == 8 || t == 9
  | .sp, t => t == 9 || t == 10
  | .any, t => t < 13

/-- The RS codes a form accepts; scope code 7 is left to check 8 of R96. -/
def RsKind.ok : RsKind → Nat → Bool
  | .zero, r => r == 0
  | .any, _ => true
  | .round, r => r < 5
  | .scope, r => r < 8
  | .inv, r => r == 0 || r == 1 || r == 5 || r == 7
  | .barDie, r => 1 ≤ r && r < 8
  | .barNode, r => 5 ≤ r && r < 8
  | .thf, r => r == 1 || r == 5
  | .one, r => r == 1
  | .vld, r => r == 0 || r == 1 || r == 3
  | .lt2, r => r < 2
  | .lt3, r => r < 3
  | .lt4, r => r < 4
  | .lt6, r => r < 6
  | .lt8, r => r < 8
  | .lt9, r => r < 9

/-- Whether RS holds a scope, so that code 7 raises 0x07 (R76). -/
def RsKind.isScope : RsKind → Bool
  | .scope => true
  | .inv => true
  | .barDie => true
  | .barNode => true
  | _ => false

/-- The FL bits a form defines. -/
def FlKind.ok : FlKind → Nat → Bool
  | .zero, f => f == 0
  | .any, _ => true
  | .m1, f => f < 2
  | .m3, f => f < 4
  | .mB, f => f < 16 && !f.testBit 2

/-- R62: the CSR numbers of a cell. -/
def csrAssigned (n : Nat) : Bool :=
  n == 1 || n == 2 || (0x10 ≤ n && n ≤ 0x15) || (0x18 ≤ n && n ≤ 0x1D) || n == 0x40 || (0x60 ≤ n && n ≤ 0x7F)
  || (0x100 ≤ n && n ≤ 0x103) || n == 0x110 || (0x112 ≤ n && n ≤ 0x116) || (0x180 ≤ n && n ≤ 0x183)
  || (0x1C0 ≤ n && n ≤ 0x1DF) || (0x200 ≤ n && n ≤ 0x203)

/-- R62: the CSR numbers of a cell that may be written. -/
def csrWritable (n : Nat) : Bool :=
  n == 1 || n == 2 || (0x11 ≤ n && n ≤ 0x14) || n == 0x180 || (0x1C0 ≤ n && n ≤ 0x1DF)
  || (0x200 ≤ n && n ≤ 0x202)

/-- R352: launch registers exist only on prologue cores. -/
def launchReg (n : Nat) : Bool :=
  (0x300 ≤ n && n ≤ 0x305) || (0x310 ≤ n && n ≤ 0x31F) || n == 0x320 || n == 0x321
  || (0x330 ≤ n && n ≤ 0x332)

/-- R352: launch registers that a CSRW may name. -/
def launchRegWritable (n : Nat) : Bool := launchReg n && n != 0x331 && n != 0x332

/-- R247: the MSET field numbers. -/
def msetField (f : Nat) : Bool :=
  f ≤ 5 || (8 ≤ f && f ≤ 0xD) || (0x10 ≤ f && f ≤ 0x15) || (0x18 ≤ f && f ≤ 0x1D) || f == 0x20 || f == 0x21
  || f == 0x28 || f == 0x29

/-- R181: EXT32 of an AS form: bits [26:16] zero, RING zero when CMT is, TH zero unless the form takes one. -/
def asExt (e : Nat) (cmtAllowed cmtRequired thAllowed : Bool) : Bool :=
  natBits e 16 11 == 0 && (thAllowed || natBits e 0 16 == 0)
  && (if e.testBit 31 then cmtAllowed else natBits e 27 4 == 0 && !cmtRequired)

/-- R203: elements per row in the view of a TYPE code. -/
def viewElems (t : Nat) : Nat := if t == 0 || t == 1 || t == 8 then 32 else if t == 2 || t == 3 || t == 9 then 64 else 128

/-- R224: bits per element of the narrow formats of PACK and UNPK. -/
def narrowBits : Nat → Nat
  | 1 => 6 | 2 => 4 | 6 => 4 | 7 => 2 | 8 => 1 | _ => 8

/-- R224: RS names a format, TYPE is one the format allows, and the part exists. -/
def packOk (ty rs part : Nat) : Bool :=
  rs < 9 && (ty == 9 || ty == 10 || (5 ≤ rs && (ty == 2 || ty == 4)))
  && part < 32768 / (viewElems ty * 16 * narrowBits rs)

/-- R233: registers in a predicate's group. -/
def groupSize (form : Nat) (sos : Bool) : Nat :=
  match form, sos with
  | 0, false => 6 | 0, true => 9 | 1, false => 12 | 1, true => 16 | 2, false => 8 | 2, true => 12
  | 3, false => 15 | 3, true => 20 | _, false => 8 | _, true => 12

/-- R223: the part is one the two views allow. -/
def cvtOk (ty b : Nat) : Bool :=
  let s := b % 16
  let p := natBits b 4 2
  let nd := viewElems ty
  let ns := viewElems s
  b < 64 && (s < 6 || (8 ≤ s && s ≤ 11)) && p < (if nd ≥ ns then nd / ns else ns / nd)

/-- R259: MGO's EXT32: format codes up to 11 and bits [17:0] zero. -/
def mgoExt (e : Nat) : Bool := natBits e 28 4 < 12 && natBits e 24 4 < 12 && natBits e 0 18 == 0

/-- R271: EXT32 of a peer drain. -/
def peerExt (e : Nat) (ord : Bool) : Bool := natBits e 19 13 == 0 && (ord || natBits e 0 16 == 0)

/-- R268: TYPE codes of a drain without `.add`. -/
def drainType (t : Nat) : Bool := t == 9 || t == 10 || t == 11 || t == 2 || t == 4 || t == 6

/-- The reserved-field checks that only one form makes on an RRR or AS operand area (check 6 of R96). -/
def Extra.rrrOk (x : Extra) (f : Rrr) : Bool :=
  let e := match f.w1 with | some w => w.ext.toNat | none => 0
  let ty := f.ty.toNat
  let rs := f.rs.toNat
  let fl := f.fl.toNat
  match x with
  | .cvta => f.fl != 0 || f.b == 0
  | .mset => msetField f.d.toNat
  | .mopd => f.d.toNat < 6
  | .mscale => f.d.toNat < 2
  | .rtt => f.d.toNat < 4
  | .lds => !fl.testBit 1 || fl.testBit 0
  | .cmtOk => asExt e true false false
  | .cmtTh => asExt e true false true
  | .cmtReq => asExt e true true true
  | .th => asExt e false false true
  | .scatter => asExt e false false true &&
      (if fl % 4 == 0 then ty == 0 else ty < 4 || ty == 8 || ty == 9)
  | .prefetch =>
      if fl.testBit 1 then asExt e false false true && f.a == 0 && f.b == 0 else asExt e false false false
  | .movv => (!rs.testBit 0 || f.d == 0xFE || f.d == 0xFF) && (!rs.testBit 1 || f.a == 0xFE || f.a == 0xFF)
  | .red => if 8 ≤ ty then rs < 3 else rs < 6
  | .unpk => packOk ty rs f.b.toNat
  | .pack => packOk ty rs f.b.toNat
  | .cvt => cvtOk ty f.b.toNat
  | .rotb => f.d.toNat + f.a.toNat + 1 ≤ 256
  | .mgo => mgoExt e
  | .mdSpad => drainType ty && rs < 5 && fl == 0 && e < 2 ^ 31
  | .mdGlob => drainType ty && rs < 5 && fl == 1
  | .mdGlobAdd => (ty == 9 || ty == 2) && rs < 8 && fl == 9
  | .mdPeer => (ty == 9 || ty == 2) && rs == 0 && (fl == 2 || fl == 6) && peerExt e (fl.testBit 2)
  | .ext0 => e == 0
  | .ext23 => e < 2 ^ 23
  | .uniq => e < 2 ^ 23 && rs % 2 == 0
  | .noTok => f.hdr.wait == 0 && f.hdr.sig.isNone
  | _ => true

/-- The reserved-field checks of RI forms. -/
def Extra.riOk (x : Extra) (f : Ri) : Bool :=
  let i := f.imm.toNat
  match x with
  | .imm0 => i == 0
  | .csrr => i < 4096 && csrAssigned i
  | .csrw => i < 4096 && csrWritable i
  | .imm5 => i < 32
  | .imm2 => i < 4
  | .imm8 => i < 256
  | _ => true

/-- The reserved-field checks of BR forms (R91, R103, R130). -/
def Extra.brOk (x : Extra) (f : Br) : Bool :=
  match x with
  | .br => f.cond.toNat < 8 && (f.cond != 0 || (!f.prod && f.reg == 0))
  | .jmpi => f.cond == 0 && f.off == 0
  | .call => f.cond == 0 && !f.prod && f.reg == 0
  | .ret => f.cond == 0 && !f.prod && f.reg == 0 && f.off == 0
  | .follow => (f.cond == 1 || f.cond == 2) && !f.prod && f.reg == 0
  | _ => true

/-- R92: the LP FLAGS and OFF24 checks. -/
def lpOk (f : Lp) : Bool := f.res == 0 && (f.rot || f.stg == 0) && 0 < f.off.toInt

/-- Whether the rows of one opcode are told apart as the form says. -/
def Sel.rrrOk (s : Sel) (f : Rrr) : Bool :=
  match s with
  | .flBit i b => f.fl.toNat.testBit i == b
  | .rsBit b => f.rs.toNat.testBit 0 == b
  | .drain dest add => f.fl.toNat % 4 == dest && f.fl.toNat.testBit 3 == add
  | _ => true

/-- The same for RI forms. -/
def Sel.riOk (s : Sel) (f : Ri) : Bool :=
  match s with
  | .imm2 n => f.imm.toNat % 4 == n
  | .imm8 n => f.imm.toNat % 256 == n
  | .svcOther => 2 < f.imm.toNat % 256
  | _ => true

/-- Whether a field of this kind is a source that 0xFF makes the literal (R95). -/
def Fld.isSrc : Fld → Bool
  | .ssrc => true
  | .sdat => true
  | .v => true
  | _ => false

/-- Whether a source field selects the literal. -/
def Rrr.usesLit (form : Form) (f : Rrr) : Bool :=
  ((form.D == .sdat) && f.d == 0xFF) || (form.D == .sas && f.hdr.eng == 5 && f.d == 0xFF)
  || (form.A.isSrc && f.a == 0xFF && !(form.extra == .movv && f.rs.toNat.testBit 1))
  || (form.B.isSrc && f.b == 0xFF)

/-- Whether a source field selects the literal as an element of the word's TYPE: not the scalar fields of an X word,
which take it zero-extended whatever the TYPE (R204). -/
def Rrr.usesTypedLit (form : Form) (f : Rrr) : Bool :=
  if form.tags == .one 2 then
    (form.A == .v && f.a == 0xFF && !(form.extra == .movv && f.rs.toNat.testBit 1)) || (form.B == .v && f.b == 0xFF)
  else f.usesLit form

/-- R95: the TYPE that extends a literal: CVT uses its source type (R223). -/
def Rrr.litType (form : Form) (f : Rrr) : Nat := if form.extra == .cvt then f.b.toNat % 16 else f.ty.toNat

/-- R81, R95: the second word of an RRR or AS form holds nothing that the form does not read. -/
def Rrr.w1Ok (form : Form) (f : Rrr) : Bool :=
  match f.w1 with
  | none => true
  | some w =>
    (f.usesLit form || w.lit == 0) && (form.ext || w.ext == 0)
    && (!(f.usesTypedLit form && (f.litType form == 10 || f.litType form == 11)) || w.lit.toNat < 65536)

/-- R81: a second word that the form reads no part of holds zero, and a literal stands alone. -/
def w1Zero (w : Option W1) (lit : Bool) : Bool :=
  match w with
  | none => true
  | some w => (lit || w.lit == 0) && w.ext == 0

/-- Whether a field kind that must be zero is, and a source or destination code lies in its reach; check 7 of
R96. `tag` is the tag of the word. -/
def Fld.reach (fk : Fld) (tag : Nat) (dst : Bool) (c : Nat) : Bool :=
  match fk with
  | .zero => true
  | .raw => true
  | .sreg => c < 0x40
  | .lc => c < 16
  | .k => c < 16
  | .acc => c < 8
  | .sdst => c < 0x40 || ((tag == 0) && c == 0xFE) || ((tag == 1) && (c == 0xFE || c == 0xFF))
  | .ssrc => c < 0x40 || c == 0xFF || (c == 0xFE && tag < 3)
  | .sdat => c < 0x40 || c == 0xFE || c == 0xFF
  | .sas => c < 0x40 || (c == 0xFF && tag == 5)
  | .v => !dst || c < 0xFE
  | .vs => c < 0xFE
  | .vg => c < 0xFE

/-- The operand-reach checks that only one form makes (check 7 of R96). -/
def Extra.reach (x : Extra) (f : Rrr) : Bool :=
  match x with
  | .ldPair => f.ty != 12 || 0x40 ≤ f.d.toNat || f.d.toNat % 2 == 0
  | .lds => f.ty != 12 || 0x40 ≤ f.d.toNat || f.d.toNat % 2 == 0
  | .stPair => f.ty != 12 || (f.d != 0xFF && (f.d == 0xFE || f.d.toNat % 2 == 0))
  | .pairD => 2 ≤ f.d.toNat && f.d.toNat % 2 == 0
  | .movv => f.rs.toNat.testBit 0 || f.d.toNat < 0xFE
  | .pred i => f.a.toNat + groupSize i (f.rs.toNat.testBit 0) ≤ 256
  | _ => true

/-- The number of the engine tag stands under the form. -/
def Tags.ok (t : Tags) (eng : Nat) : Bool :=
  match t with
  | .scalar => eng == 0 || eng == 1
  | .one n => eng == n
  | .kSort => eng == 5
  | .kSparse => eng == 5
  | .all => eng == 7

/-- Check 4 of R96: W1 is required and absent (R90). -/
def missingW1 (form : Form) : Body → Bool
  | .rrr f => f.w1.isNone && (form.ext || f.usesLit form)
  | .ri f => f.w1.isNone && form.A.isSrc && f.a == 0xFF
  | .br _ => false
  | .lp _ => false
  | .event => false

/-- Check 5 of R96, as far as a parsed SIGNAL byte can fail it (R85): the engine it names is absent, or WHEN is
1 on a form without asynchronous work. -/
def sigCause (form : Form) (cls : DieClass) (h : Hdr) : Option (BitVec 8) :=
  match h.sig with
  | none => none
  | some s => if !cls.has s.eng then some 0x04 else if s.done && !form.async then some 0x02 else none

/-- Check 6 of R96. -/
def reservedOk (form : Form) : Body → Bool
  | .rrr f =>
    form.ty.ok f.ty.toNat && form.rs.ok f.rs.toNat && form.fl.ok f.fl.toNat
    && (form.D != .zero || f.d == 0) && (form.A != .zero || f.a == 0) && (form.B != .zero || f.b == 0)
    && form.sel.rrrOk f && form.extra.rrrOk f && f.w1Ok form
  | .ri f =>
    (form.D != .zero || f.d == 0) && (form.A != .zero || f.a == 0) && form.sel.riOk f && form.extra.riOk f
    && w1Zero f.w1 (form.A.isSrc && f.a == 0xFF)
  | .br f => form.extra.brOk f && w1Zero f.w1 false
  | .lp f => lpOk f && w1Zero f.w1 false
  | .event => true

/-- Check 7 of R96. -/
def reachOk (form : Form) : Body → Bool
  | .rrr f =>
    let t := f.hdr.eng.toNat
    form.D.reach t true f.d.toNat && form.A.reach t false f.a.toNat && form.B.reach t false f.b.toNat
    && form.extra.reach f
  | .ri f => form.D.reach f.hdr.eng.toNat true f.d.toNat && form.A.reach f.hdr.eng.toNat false f.a.toNat
  | .br f => f.reg.toNat < 64
  | .lp _ => true
  | .event => true

/-- Check 8 of R96: scope code 7. -/
def scopeOk (form : Form) : Body → Bool
  | .rrr f => !((form.rs.isScope || form.extra == .mdGlobAdd) && f.rs == 7)
  | _ => true

/-- The cause of the first failing check 4 to 8 of R96, none for a valid instruction. -/
def encodingCause (cls : DieClass) (i : Instr) : Option (BitVec 8) :=
  match i.form with
  | none => none
  | some form =>
    if missingW1 form i.body then some 0x06
    else match i.body.hdr.bind (sigCause form cls) with
      | some c => some c
      | none =>
        if !reservedOk form i.body then some 0x02
        else if !reachOk form i.body then some 0x05
        else if !scopeOk form i.body then some 0x07
        else none

/-- The class a form needs beyond its tag (R102). -/
def Tags.classOk (t : Tags) (cls : DieClass) : Bool :=
  match t with
  | .kSort => cls == .srt
  | .kSparse => cls == .spx
  | .scalar => cls.has .c
  | .all => cls.has .c
  | .one n => match EngTag.ofNum n with | some e => cls.has e | none => false

/-- An instruction word that the checks of R96 pass on a die of the class. A packet, command or event is no
word and is always well formed. -/
def Instr.wf (cls : DieClass) (i : Instr) : Bool :=
  match i.form with
  | none => true
  | some form =>
    form.tags.classOk cls && (match i.body.hdr with | some h => form.tags.ok h.eng.toNat | none => false)
    && (encodingCause cls i).isNone

end Sys2Proof
end

