-- ==== Sys2Proof/Decode.lean ====
section
/-! DEFINITION. Decoding Kitra words (R80 to R103), total on any bits and refusing by cause; and the encoder,
written from the same tables. -/

namespace Sys2Proof

/-! ## Fields of a first word (R80, R89, R93) -/

/-- Bits [lo + n - 1 : lo] of a word as a natural number. -/
def fld (w : Word) (lo n : Nat) : Nat := (w.extractLsb' lo n).toNat

/-- OPC [44:37]. -/
def fOpc (w : Word) : Nat := fld w 37 8
/-- ENG [47:45]. -/
def fEng (w : Word) : Nat := fld w 45 3
/-- WIDE [36]. -/
def fWide (w : Word) : Bool := w.getLsbD 36
/-- IMM20 [19:0]. -/
def fImm (w : Word) : Nat := fld w 0 20
/-- RS [7:4]. -/
def fRs (w : Word) : Nat := fld w 4 4
/-- FL [3:0]. -/
def fFl (w : Word) : Nat := fld w 0 4

/-- The RRR operand area. -/
def rrrOf (w : Word) (h : Hdr) (v : Option W1) : Rrr :=
  ⟨h, w.extractLsb' 28 8, w.extractLsb' 20 8, w.extractLsb' 12 8, w.extractLsb' 8 4, w.extractLsb' 4 4,
    w.extractLsb' 0 4, v⟩

/-- The RI operand area. -/
def riOf (w : Word) (h : Hdr) (v : Option W1) : Ri :=
  ⟨h, w.extractLsb' 28 8, w.extractLsb' 20 8, w.extractLsb' 0 20, v⟩

/-- The BR operand area. -/
def brOf (w : Word) (h : Hdr) (v : Option W1) : Br :=
  ⟨h, w.extractLsb' 32 4, w.getLsbD 31, w.extractLsb' 24 7, w.extractLsb' 0 24, v⟩

/-- The LP operand area (R92). -/
def lpOf (w : Word) (h : Hdr) (v : Option W1) : Lp :=
  ⟨h, w.extractLsb' 32 4, w.extractLsb' 28 4, w.extractLsb' 25 3, w.getLsbD 24, w.extractLsb' 0 24, v⟩

/-- The second word (R81). -/
def w1Of (w : Word) : W1 := ⟨w.extractLsb' 32 32, w.extractLsb' 0 32⟩

/-- The SIGNAL byte (R85): a well-formed one, or none for a byte that raises 0x02 whatever the class. -/
def sigOf (w : Word) : Option (Option Sig) :=
  if w.getLsbD 55 then
    match EngTag.ofNum (fld w 52 3) with
    | some e => some (some ⟨e, w.extractLsb' 49 3, w.getLsbD 48⟩)
    | none => none
  else if fld w 48 7 = 0 then some none else none

/-- The instruction an opcode names under R97, with its operand area. -/
def scalarOp (opc : Nat) (w : Word) (h : Hdr) (v : Option W1) : Option Instr :=
  match opc with
  | 0x00 => some (.add (rrrOf w h v))
  | 0x01 => some (.sub (rrrOf w h v))
  | 0x02 => some (.mul (rrrOf w h v))
  | 0x03 => some (.mulh (rrrOf w h v))
  | 0x04 => some (.div (rrrOf w h v))
  | 0x05 => some (.rem (rrrOf w h v))
  | 0x06 => some (.and (rrrOf w h v))
  | 0x07 => some (.or (rrrOf w h v))
  | 0x08 => some (.xor (rrrOf w h v))
  | 0x09 => some (.andn (rrrOf w h v))
  | 0x0A => some (.shl (rrrOf w h v))
  | 0x0B => some (.shr (rrrOf w h v))
  | 0x0C => some (.shra (rrrOf w h v))
  | 0x0D => some (.min (rrrOf w h v))
  | 0x0E => some (.max (rrrOf w h v))
  | 0x0F => some (.seteq (rrrOf w h v))
  | 0x10 => some (.setne (rrrOf w h v))
  | 0x11 => some (.setlt (rrrOf w h v))
  | 0x12 => some (.setle (rrrOf w h v))
  | 0x13 => some (.sel (rrrOf w h v))
  | 0x14 => some (.clz (rrrOf w h v))
  | 0x15 => some (.popc (rrrOf w h v))
  | 0x16 => some (.bfx (rrrOf w h v))
  | 0x17 => some (.bfi (rrrOf w h v))
  | 0x18 => some (.addsc (rrrOf w h v))
  | 0x19 => some (.cvta (rrrOf w h v))
  | 0x1A => some (.aptest (rrrOf w h v))
  | 0x1B => some (.lcset (rrrOf w h v))
  | 0x40 => some (.addRi (riOf w h v))
  | 0x46 => some (.andRi (riOf w h v))
  | 0x47 => some (.orRi (riOf w h v))
  | 0x4A => some (.shlRi (riOf w h v))
  | 0x4B => some (.shrRi (riOf w h v))
  | 0x51 => some (.setltRi (riOf w h v))
  | 0x5F => some (.li (riOf w h v))
  | _ => none

/-- The instruction an opcode names under R98, with its operand area. -/
def cOp (opc : Nat) (w : Word) (h : Hdr) (v : Option W1) : Option Instr :=
  match opc with
  | 0x80 => some (.trap (riOf w h v))
  | 0x81 => some (.eret (riOf w h v))
  | 0x82 => some (.csrr (riOf w h v))
  | 0x83 => some (.csrw (riOf w h v))
  | 0x84 => some (.csrs (riOf w h v))
  | 0x85 => some (.csrc (riOf w h v))
  | 0x86 => some (.tick (rrrOf w h v))
  | 0x87 => some (.waittick (rrrOf w h v))
  | 0x88 => some (.halt (rrrOf w h v))
  | 0x89 => some (.icinv (rrrOf w h v))
  | 0x8A => some (.tlbinv (rrrOf w h v))
  | 0x8B => some (.bkpt (riOf w h v))
  | 0x8C => some (.watch (riOf w h v))
  | 0x8D => some (if fImm w % 4 = 1 then .pendCancel (riOf w h v) else if fImm w % 4 = 2 then .pendRepeat (riOf w h v) else .pendGo (riOf w h v))
  | 0x8E => some (if fImm w % 256 = 1 then .discver (riOf w h v) else if fImm w % 256 = 2 then .mark (riOf w h v) else if 2 < fImm w % 256 then .fwsvcUndefined (riOf w h v) else .echo (riOf w h v))
  | 0x8F => some (.out (rrrOf w h v))
  | 0xC0 => some (.mset (rrrOf w h v))
  | 0xC1 => some (.mopd (rrrOf w h v))
  | 0xC2 => some (.mscale (rrrOf w h v))
  | 0xC3 => some (.rtt (rrrOf w h v))
  | _ => none

/-- The instruction an opcode names under R99, with its operand area. -/
def aOp (opc : Nat) (w : Word) (h : Hdr) (v : Option W1) : Option Instr :=
  match opc with
  | 0x60 => some (.ld (rrrOf w h v))
  | 0x61 => some (.st (rrrOf w h v))
  | 0x62 => some (.lds (rrrOf w h v))
  | 0x63 => some (.sts (rrrOf w h v))
  | 0x68 => some (if (fFl w).testBit 0 then .rclaimCfg (rrrOf w h v) else .rclaim (rrrOf w h v))
  | 0x69 => some (.rcommit (rrrOf w h v))
  | 0x6A => some (.rtake (rrrOf w h v))
  | 0x6B => some (.rdone (rrrOf w h v))
  | 0x6C => some (.waitfill (rrrOf w h v))
  | 0x6D => some (.waitfree (rrrOf w h v))
  | 0x70 => some (.atomAdd (rrrOf w h v))
  | 0x71 => some (.atomAnd (rrrOf w h v))
  | 0x72 => some (.atomOr (rrrOf w h v))
  | 0x73 => some (.atomXor (rrrOf w h v))
  | 0x74 => some (.atomMin (rrrOf w h v))
  | 0x75 => some (.atomMax (rrrOf w h v))
  | 0x76 => some (.atomExch (rrrOf w h v))
  | 0x77 => some (.atomCas (rrrOf w h v))
  | 0x78 => some (.atomIncw (rrrOf w h v))
  | 0x79 => some (.atomDecw (rrrOf w h v))
  | 0x7A => some (.atomFaddb (rrrOf w h v))
  | 0x80 => some (.phase (rrrOf w h v))
  | 0x81 => some (.rel (rrrOf w h v))
  | 0x82 => some (.acq (rrrOf w h v))
  | 0x83 => some (if (fFl w).testBit 0 then .barNode (rrrOf w h v) else .barDie (rrrOf w h v))
  | 0x84 => some (.publish (rrrOf w h v))
  | 0x90 => some (.copy (rrrOf w h v))
  | 0x91 => some (if (fFl w).testBit 3 then .copyThOut (rrrOf w h v) else .copyThIn (rrrOf w h v))
  | 0x92 => some (.copym (rrrOf w h v))
  | 0x93 => some (.gather (rrrOf w h v))
  | 0x94 => some (.scatter (rrrOf w h v))
  | 0x95 => some (.prefetch (rrrOf w h v))
  | 0x96 => some (.thfence (rrrOf w h v))
  | 0xA0 => some (.capopen (rrrOf w h v))
  | 0xA1 => some (.capgive (rrrOf w h v))
  | 0xA2 => some (.capdup (rrrOf w h v))
  | 0xA3 => some (.capdrop (rrrOf w h v))
  | _ => none

/-- The instruction an opcode names under R100, with its operand area. -/
def xOp (opc : Nat) (w : Word) (h : Hdr) (v : Option W1) : Option Instr :=
  match opc with
  | 0x00 => some (.fadd (rrrOf w h v))
  | 0x01 => some (.fsub (rrrOf w h v))
  | 0x02 => some (.fmul (rrrOf w h v))
  | 0x03 => some (.fdiv (rrrOf w h v))
  | 0x04 => some (.fsqrt (rrrOf w h v))
  | 0x05 => some (.fma (rrrOf w h v))
  | 0x06 => some (.fms (rrrOf w h v))
  | 0x07 => some (.fmin (rrrOf w h v))
  | 0x08 => some (.fmax (rrrOf w h v))
  | 0x09 => some (.fabs (rrrOf w h v))
  | 0x0A => some (.fneg (rrrOf w h v))
  | 0x0B => some (.fcmp (rrrOf w h v))
  | 0x10 => some (.iadd (rrrOf w h v))
  | 0x11 => some (.isub (rrrOf w h v))
  | 0x12 => some (.imul (rrrOf w h v))
  | 0x13 => some (.imulh (rrrOf w h v))
  | 0x14 => some (.imin (rrrOf w h v))
  | 0x15 => some (.imax (rrrOf w h v))
  | 0x16 => some (.iand (rrrOf w h v))
  | 0x17 => some (.ior (rrrOf w h v))
  | 0x18 => some (.ixor (rrrOf w h v))
  | 0x19 => some (.ishl (rrrOf w h v))
  | 0x1A => some (.ishr (rrrOf w h v))
  | 0x1B => some (.ishra (rrrOf w h v))
  | 0x1C => some (.icmp (rrrOf w h v))
  | 0x1D => some (.iabs (rrrOf w h v))
  | 0x20 => some (.vsel (rrrOf w h v))
  | 0x21 => some (.kand (rrrOf w h v))
  | 0x22 => some (.kor (rrrOf w h v))
  | 0x23 => some (.kxor (rrrOf w h v))
  | 0x24 => some (.knot (rrrOf w h v))
  | 0x25 => some (.movV (rrrOf w h v))
  | 0x28 => some (.rotr (rrrOf w h v))
  | 0x29 => some (.rotc (rrrOf w h v))
  | 0x2A => some (.bcr (rrrOf w h v))
  | 0x2B => some (.bcc (rrrOf w h v))
  | 0x2C => some (.redr (rrrOf w h v))
  | 0x2D => some (.redc (rrrOf w h v))
  | 0x2E => some (.trb (rrrOf w h v))
  | 0x30 => some (.unpk (rrrOf w h v))
  | 0x31 => some (.pack (rrrOf w h v))
  | 0x32 => some (.cvt (rrrOf w h v))
  | 0x38 => some (.exp2 (rrrOf w h v))
  | 0x39 => some (.log2 (rrrOf w h v))
  | 0x3A => some (.rcp (rrrOf w h v))
  | 0x3B => some (.rsq (rrrOf w h v))
  | 0x3C => some (.sin (rrrOf w h v))
  | 0x3D => some (.cos (rrrOf w h v))
  | 0x3E => some (.tanh (rrrOf w h v))
  | 0x40 => some (if fRs w % 2 = 1 then .rotBaseOff (rrrOf w h v) else .rotBase (rrrOf w h v))
  | 0x48 => some (.orient2 (rrrOf w h v))
  | 0x49 => some (.orient3 (rrrOf w h v))
  | 0x4A => some (.incircle (rrrOf w h v))
  | 0x4B => some (.insphere (rrrOf w h v))
  | 0x4C => some (.segcross (rrrOf w h v))
  | 0x50 => some (.vld (rrrOf w h v))
  | 0x51 => some (.vst (rrrOf w h v))
  | _ => none

/-- The instruction an opcode names under R101, with its operand area. -/
def mOp (opc : Nat) (w : Word) (h : Hdr) (v : Option W1) : Option Instr :=
  match opc with
  | 0x00 => some (.mzero (rrrOf w h v))
  | 0x01 => some (.mload (rrrOf w h v))
  | 0x02 => some (.mgo (rrrOf w h v))
  | 0x03 => some (if fFl w % 4 = 1 ∧ (fFl w).testBit 3 = false then .mdrainGlob (rrrOf w h v) else if fFl w % 4 = 1 ∧ (fFl w).testBit 3 = true then .mdrainGlobAdd (rrrOf w h v) else if fFl w % 4 = 2 then .mdrainPeer (rrrOf w h v) else .mdrainSpad (rrrOf w h v))
  | _ => none

/-- The instruction an opcode names under R101, with its operand area. -/
def wOp (opc : Nat) (w : Word) (h : Hdr) (v : Option W1) : Option Instr :=
  match opc with
  | 0x00 => some (.rgoMax (rrrOf w h v))
  | 0x01 => some (.rgoExpsum (rrrOf w h v))
  | 0x02 => some (.rgoScale (rrrOf w h v))
  | 0x03 => some (.rgoNorm (rrrOf w h v))
  | _ => none

/-- The instruction an opcode names under R102, with its operand area. -/
def sortOp (opc : Nat) (w : Word) (h : Hdr) (v : Option W1) : Option Instr :=
  match opc with
  | 0x00 => some (.sort (rrrOf w h v))
  | 0x01 => some (.segsort (rrrOf w h v))
  | 0x02 => some (.merge (rrrOf w h v))
  | 0x03 => some (.topk (rrrOf w h v))
  | 0x04 => some (.ksel (rrrOf w h v))
  | 0x05 => some (.uniq (rrrOf w h v))
  | _ => none

/-- The instruction an opcode names under R102, with its operand area. -/
def sparseOp (opc : Nat) (w : Word) (h : Hdr) (v : Option W1) : Option Instr :=
  match opc with
  | 0x10 => some (.spmmCsr (rrrOf w h v))
  | 0x11 => some (.spmmBsr (rrrOf w h v))
  | 0x12 => some (.sddmm (rrrOf w h v))
  | 0x13 => some (.spmv (rrrOf w h v))
  | _ => none

/-- The instruction an opcode names under R103, with its operand area. -/
def allOp (opc : Nat) (w : Word) (h : Hdr) (v : Option W1) : Option Instr :=
  match opc with
  | 0x00 => some (.br (brOf w h v))
  | 0x01 => some (.jmpi (brOf w h v))
  | 0x02 => some (.call (brOf w h v))
  | 0x03 => some (.calli (brOf w h v))
  | 0x04 => some (.ret (brOf w h v))
  | 0x05 => some (.loop (lpOf w h v))
  | 0x06 => some (.break_ (brOf w h v))
  | 0x07 => some (.follow (brOf w h v))
  | 0x08 => some (.region (rrrOf w h v))
  | 0x09 => some (.end_ (rrrOf w h v))
  | 0x0A => some (if (fFl w).testBit 0 then .fenceEngAsync (rrrOf w h v) else .fenceEng (rrrOf w h v))
  | 0x0B => some (.nop (rrrOf w h v))
  | _ => none

/-- The instruction that tag and opcode name, with no check of its fields. -/
def opOf (cls : DieClass) (w : Word) (h : Hdr) (v : Option W1) : Option Instr :=
  let opc := fOpc w
  match fEng w with
  | 0 => if opc < 0x60 then scalarOp opc w h v else cOp opc w h v
  | 1 => if opc < 0x60 then scalarOp opc w h v else aOp opc w h v
  | 2 => xOp opc w h v
  | 3 => mOp opc w h v
  | 4 => wOp opc w h v
  | 5 => if cls = .srt then sortOp opc w h v else if cls = .spx then sparseOp opc w h v else none
  | 7 => allOp opc w h v
  | _ => none

/-- Decoding a word for a die class in the order of R96: the instruction, or the cause of the first check that
fails. `v` is the word that follows, which only a wide word reads. -/
def decode (cls : DieClass) (w : Word) (v : Option Word) : Except (BitVec 8) Instr :=
  if fEng w = 6 then .error 0x03
  else if (match EngTag.ofNum (fEng w) with | some e => !cls.has e | none => false) then .error 0x04
  else
    let w1 := if fWide w then some (w1Of (v.getD 0)) else none
    match opOf cls w ⟨w.extractLsb' 56 8, (sigOf w).getD none, w.extractLsb' 45 3⟩ w1 with
    | none => .error 0x01
    | some i =>
      if (match i.form with | some f => missingW1 f i.body | none => false) then .error 0x06
      else if (sigOf w).isNone then .error 0x02
      else match encodingCause cls i with
        | some c => .error c
        | none => .ok i

/-! ## The encoder -/

/-- The SIGNAL byte of a push (R80). -/
def encSig : Option Sig → Nat
  | none => 0
  | some s => 128 + s.eng.num * 16 + s.cnt.toNat * 2 + (if s.done then 1 else 0)

/-- Bits [63:36] of a first word (R80). -/
def encHead (h : Hdr) (opc : BitVec 8) (wide : Bool) : Nat :=
  h.wait.toNat * 2 ^ 56 + encSig h.sig * 2 ^ 48 + h.eng.toNat * 2 ^ 45 + opc.toNat * 2 ^ 37
    + (if wide then 2 ^ 36 else 0)

/-- Bits [35:0] of a first word, by format (R89, R92, R93). -/
def encArea : Body → Nat
  | .rrr f => f.d.toNat * 2 ^ 28 + f.a.toNat * 2 ^ 20 + f.b.toNat * 2 ^ 12 + f.ty.toNat * 2 ^ 8
      + f.rs.toNat * 2 ^ 4 + f.fl.toNat
  | .ri f => f.d.toNat * 2 ^ 28 + f.a.toNat * 2 ^ 20 + f.imm.toNat
  | .br f => f.cond.toNat * 2 ^ 32 + (if f.prod then 2 ^ 31 else 0) + f.reg.toNat * 2 ^ 24 + f.off.toNat
  | .lp f => f.lc.toNat * 2 ^ 32 + f.res.toNat * 2 ^ 28 + f.stg.toNat * 2 ^ 25 + (if f.rot then 2 ^ 24 else 0)
      + f.off.toNat
  | .event => 0

/-- A second word (R81). -/
def encW1 (w : W1) : Word := BitVec.ofNat 64 (w.lit.toNat * 2 ^ 32 + w.ext.toNat)

/-- The words of an instruction: one, or two when it is wide; none for a row that is no instruction word. -/
def encode (i : Instr) : List Word :=
  match i.form, i.body.hdr with
  | some form, some h =>
    let w1 := i.body.w1
    BitVec.ofNat 64 (encHead h form.opc w1.isSome + encArea i.body)
      :: (match w1 with | some w => [encW1 w] | none => [])
  | _, _ => []

/-- Decoding the words of an instruction. -/
def decodeWords (cls : DieClass) : List Word → Except (BitVec 8) Instr
  | [] => .error 0x08
  | w :: rest => decode cls w rest.head?

/-- The instruction the decoder reads from bits numbered as the opcode table numbers them: the first word is
bits [63:0], the second bits [127:64]. The table gives no row any bits; a word is read for the first class of
die that accepts it, DMX before SRT before SPX before VEC. -/
def decodeTableWord (_nbits w : Nat) : Option Instr :=
  let w0 : Word := BitVec.ofNat 64 w
  let w1 : Word := BitVec.ofNat 64 (w >>> 64)
  [DieClass.dmx, DieClass.srt, DieClass.spx, DieClass.vec].findSome? fun c =>
    match decode c w0 (some w1) with
    | .ok i => some i
    | .error _ => none

end Sys2Proof
end

