-- ==== Sys2Proof/Machine/Map.lean ====
section
/-! DEFINITION. Operations on sparse maps and on byte memories: every write keeps keys strictly rising and lists
no default entry. -/

namespace Sys2Proof.Machine

/-- The entry under a key, if listed. -/
def FMap.find? {α : Type} : FMap α → Nat → Option α
  | [], _ => none
  | (k, v) :: m, i => if i = k then some v else FMap.find? m i

/-- The value under a key; what is not listed reads as the default. -/
def FMap.get {α : Type} (m : FMap α) (i : Nat) (d : α) : α := (FMap.find? m i).getD d

/-- The map without a key. -/
def FMap.erase {α : Type} (m : FMap α) (i : Nat) : FMap α := m.filter fun e => e.1 != i

/-- The map with an entry put in its place. -/
def FMap.put {α : Type} : FMap α → Nat → α → FMap α
  | [], i, x => [(i, x)]
  | (k, v) :: m, i, x =>
    if i < k then (i, x) :: (k, v) :: m else if i = k then (i, x) :: m else (k, v) :: FMap.put m i x

/-- A write to a map whose unlisted keys read as `d`: writing `d` removes the entry. -/
def FMap.set {α : Type} [DecidableEq α] (m : FMap α) (i : Nat) (x d : α) : FMap α :=
  if x = d then FMap.erase m i else FMap.put m i x

/-- Numbered entries of a list from a key on, defaults left out. -/
def FMap.number {α : Type} [DecidableEq α] (d : α) : Nat → List α → FMap α
  | _, [] => []
  | i, x :: xs => if x = d then FMap.number d (i + 1) xs else (i, x) :: FMap.number d (i + 1) xs

/-- A write of consecutive entries from a key on. -/
def FMap.setRange {α : Type} [DecidableEq α] (m : FMap α) (base : Nat) (xs : List α) (d : α) : FMap α :=
  m.filter (fun e => e.1 < base) ++ FMap.number d base xs ++ m.filter (fun e => base + xs.length ≤ e.1)

/-- Entries with keys in [base, base + n), shifted to start at 0. -/
def FMap.slice {α : Type} (m : FMap α) (base n : Nat) : FMap α :=
  (m.filter fun e => decide (base ≤ e.1) && decide (e.1 < base + n)).map fun e => (e.1 - base, e.2)

/-- The list of `n` entries a slice stands for, from number `i` on. -/
def FMap.toList {α : Type} (d : α) : Nat → Nat → FMap α → List α
  | 0, _, _ => []
  | n + 1, i, [] => d :: FMap.toList d n (i + 1) []
  | n + 1, i, (k, v) :: m =>
    if k = i then v :: FMap.toList d n (i + 1) m else d :: FMap.toList d n (i + 1) ((k, v) :: m)

/-- `n` consecutive values from a key on. -/
def FMap.getRange {α : Type} (m : FMap α) (base n : Nat) (d : α) : List α :=
  FMap.toList d n 0 (FMap.slice m base n)

/-- A map with the entries of [base, base + n) removed. -/
def FMap.clearRange {α : Type} (m : FMap α) (base n : Nat) : FMap α :=
  m.filter fun e => decide (e.1 < base) || decide (base + n ≤ e.1)

/-- A map with the entries of [dst, dst + n) replaced by a slice that starts at 0. -/
def FMap.blit {α : Type} (m : FMap α) (dst n : Nat) (sl : FMap α) : FMap α :=
  m.filter (fun e => decide (e.1 < dst)) ++ sl.map (fun e => (e.1 + dst, e.2)) ++ m.filter fun e => decide (dst + n ≤ e.1)

/-- The value of a key changed by a function, where it is listed. -/
def FMap.modify {α : Type} (m : FMap α) (i : Nat) (f : α → α) : FMap α :=
  m.map fun e => if e.1 = i then (e.1, f e.2) else e

/-- The lowest key from `i` on, within `n`, that the map does not list. -/
def FMap.freeFrom {α : Type} (m : FMap α) : Nat → Nat → Option Nat
  | 0, _ => none
  | n + 1, i => if (FMap.find? m i).isNone then some i else FMap.freeFrom m n (i + 1)

/-- Keys strictly rising. -/
def FMap.sorted {α : Type} : FMap α → Bool
  | [] => true
  | [_] => true
  | e :: f :: m => decide (e.1 < f.1) && FMap.sorted (f :: m)

/-- The canonical form of a map whose unlisted keys read as `d`. -/
def FMap.wf {α : Type} [DecidableEq α] (m : FMap α) (d : α) : Bool := FMap.sorted m && m.all fun e => e.2 != d

/-! ## Bytes -/

/-- What an address that no entry lists reads as (R459: written zero at boot; R60: zero at shard start). -/
def Memory.default : Byte := 0

/-- The canonical form of a memory. -/
def Memory.wf (m : Memory) : Bool := FMap.wf m Memory.default

/-- One byte. -/
def Memory.read (m : Memory) (a : Nat) : Byte := FMap.get m a Memory.default

/-- A write of one byte. -/
def Memory.write (m : Memory) (a : Nat) (b : Byte) : Memory := FMap.set m a b Memory.default

/-- `n` bytes from an address on. -/
def Memory.readN (m : Memory) (a n : Nat) : List Byte := FMap.getRange m a n Memory.default

/-- A write of bytes from an address on. -/
def Memory.writeN (m : Memory) (a : Nat) (bs : List Byte) : Memory := FMap.setRange m a bs Memory.default

/-- The natural number that little-endian bytes hold (R12). -/
def leNat : List Byte → Nat
  | [] => 0
  | b :: bs => b.toNat + 256 * leNat bs

/-- `n` little-endian bytes of a natural number (R12). -/
def leBytes : Nat → Nat → List Byte
  | 0, _ => []
  | n + 1, x => BitVec.ofNat 8 x :: leBytes n (x / 256)

/-- A 64-bit little-endian read. -/
def Memory.read64 (m : Memory) (a : Nat) : Word := BitVec.ofNat 64 (leNat (Memory.readN m a 8))

/-- The two's-complement value of the low `w` bits of a natural number. -/
def toSigned (w x : Nat) : Int := if x % 2 ^ w < 2 ^ (w - 1) then (x % 2 ^ w : Nat) else (x % 2 ^ w : Nat) - (2 ^ w : Nat)

/-- The low `w` bits of an integer as a natural number. -/
def wrapNat (w : Nat) (z : Int) : Nat := (z % ((2 ^ w : Nat) : Int)).toNat

/-- `n` pieces of `k` entries each, from the start of a list. -/
def chunks {α : Type} (k : Nat) : Nat → List α → List (List α)
  | 0, _ => []
  | n + 1, xs => xs.take k :: chunks k n (xs.drop k)

/-- The entry of a list at a number, or a default. -/
def nthD {α : Type} (l : List α) (i : Nat) (d : α) : α := l.getD i d

/-- A list with one entry replaced. -/
def setNth {α : Type} : List α → Nat → α → List α
  | [], _, _ => []
  | _ :: xs, 0, y => y :: xs
  | x :: xs, n + 1, y => x :: setNth xs n y

end Sys2Proof.Machine
end

