-- ==== Sys2Proof/Machine/Flags.lean ====
section
/-! DEFINITION. Number formats, rounding and flags (R18 to R47), over exact integers. -/

namespace Sys2Proof.Machine

/-! ## Flags (R24, R64) -/

/-- A set of FPSTAT flags, bit numbers as R64 gives them. -/
abbrev Flags := BitVec 6

def flagNone : Flags := 0
/-- invalid -/
def flagNV : Flags := 1
/-- divide by zero -/
def flagDZ : Flags := 2
/-- overflow -/
def flagOF : Flags := 4
/-- underflow -/
def flagUF : Flags := 8
/-- inexact -/
def flagNX : Flags := 16
/-- a ternary operand held code 10 -/
def flagTRNBAD : Flags := 32

/-! ## Exact values -/

/-- The exact value of an operand (R39): a NaN, an infinity, or (-1)^neg * mag * 2^exp with its sign of zero. -/
inductive Val where
  | nan (signalling : Bool)
  | inf (neg : Bool)
  | fin (neg : Bool) (mag : Nat) (exp : Int)
  deriving DecidableEq, Repr

/-- A dyadic number num * 2^exp. -/
structure Dy where
  num : Int
  exp : Int
  deriving DecidableEq, Repr

/-- The sum of two dyadic numbers, exact. -/
def Dy.add (a b : Dy) : Dy :=
  let e := min a.exp b.exp
  ⟨a.num * 2 ^ (a.exp - e).toNat + b.num * 2 ^ (b.exp - e).toNat, e⟩

/-- The product of two dyadic numbers, exact. -/
def Dy.mul (a b : Dy) : Dy := ⟨a.num * b.num, a.exp + b.exp⟩

/-- The negation of a dyadic number. -/
def Dy.neg (a : Dy) : Dy := ⟨-a.num, a.exp⟩

/-- The difference of two dyadic numbers, exact. -/
def Dy.sub (a b : Dy) : Dy := a.add b.neg

/-- The sign of a dyadic number. -/
def Dy.sign (a : Dy) : Int := a.num.sign

/-- The magnitude of a dyadic number. -/
def Dy.abs (a : Dy) : Dy := ⟨a.num.natAbs, a.exp⟩

/-- a < b, exactly. -/
def Dy.lt (a b : Dy) : Bool := (a.sub b).num < 0

/-- The dyadic number of a finite value; 0 for the others. -/
def Val.dy : Val → Dy
  | .fin n m e => ⟨if n then -(m : Int) else m, e⟩
  | _ => ⟨0, 0⟩

/-- The value of a dyadic number; zero is +0. -/
def Dy.val (a : Dy) : Val := .fin (a.num < 0) a.num.natAbs a.exp

def Val.isNan : Val → Bool | .nan _ => true | _ => false
def Val.isSnan : Val → Bool | .nan s => s | _ => false
def Val.isInf : Val → Bool | .inf _ => true | _ => false
def Val.isFin : Val → Bool | .fin _ _ _ => true | _ => false
def Val.isZero : Val → Bool | .fin _ m _ => m == 0 | _ => false
/-- The sign of a value that is no NaN. -/
def Val.neg? : Val → Bool | .nan _ => false | .inf n => n | .fin n _ _ => n

/-! ## IEEE formats (R18, R20, R23) -/

/-- An IEEE binary interchange format: exponent and fraction widths. -/
structure FFmt where
  ew : Nat
  mw : Nat
  deriving DecidableEq, Repr

def f64 : FFmt := ⟨11, 52⟩
def f32 : FFmt := ⟨8, 23⟩
def f16 : FFmt := ⟨5, 10⟩
def bf16 : FFmt := ⟨8, 7⟩
/-- e5m2 has the layout of an IEEE format (R30). -/
def e5m2 : FFmt := ⟨5, 2⟩

/-- The exponent bias (R18). -/
def FFmt.bias (f : FFmt) : Nat := 2 ^ (f.ew - 1) - 1
/-- The width of the format. -/
def FFmt.width (f : FFmt) : Nat := 1 + f.ew + f.mw
/-- The exponent of the least subnormal. -/
def FFmt.emin (f : FFmt) : Int := 1 - (f.bias : Int) - f.mw
/-- The canonical quiet NaN (R23). -/
def FFmt.qnan (f : FFmt) : Nat := (2 ^ f.ew - 1) * 2 ^ f.mw + 2 ^ (f.mw - 1)
/-- An infinity. -/
def FFmt.inf (f : FFmt) (neg : Bool) : Nat := (if neg then 2 ^ (f.ew + f.mw) else 0) + (2 ^ f.ew - 1) * 2 ^ f.mw
/-- The largest finite value. -/
def FFmt.maxFin (f : FFmt) (neg : Bool) : Nat := FFmt.inf f neg - 1

/-- The exact value of a bit pattern in an IEEE format. -/
def FFmt.decode (f : FFmt) (bits : Nat) : Val :=
  let neg := bits.testBit (f.ew + f.mw)
  let e := natBits bits f.mw f.ew
  let m := bits % 2 ^ f.mw
  if e = 2 ^ f.ew - 1 then (if m = 0 then .inf neg else .nan (!m.testBit (f.mw - 1)))
  else if e = 0 then .fin neg m f.emin
  else .fin neg (2 ^ f.mw + m) (f.emin + (e - 1 : Nat))

/-! ## Rounding (R20 to R24, R33) -/

/-- floor(log2 (num / den)) for positive num and den. -/
def log2Quot (num den : Nat) : Int :=
  let d : Int := (Nat.log2 num : Int) - Nat.log2 den
  let ge := if d ≥ 0 then decide (den * 2 ^ d.toNat ≤ num) else decide (den ≤ num * 2 ^ (-d).toNat)
  if ge then d else d - 1

/-- Whether an inexact magnitude rounds up (R21): `odd` the kept integer's last bit, `cmp` the remainder against
half a unit (0 below, 1 at, 2 above), `some_` a non-zero remainder. -/
def roundsUp (mode : Nat) (neg odd : Bool) (cmp : Nat) (some_ : Bool) : Bool :=
  match mode with
  | 0 => cmp == 2 || (cmp == 1 && odd)
  | 1 => false
  | 2 => neg && some_
  | 3 => !neg && some_
  | _ => cmp ≥ 1

/-- num / den * 2^exp rounded to a multiple of 2^q: the integer and whether it is inexact. -/
def roundAt (mode : Nat) (neg : Bool) (num den : Nat) (exp q : Int) : Nat × Bool :=
  let sh := exp - q
  let n := if sh ≥ 0 then num * 2 ^ sh.toNat else num
  let d := if sh ≥ 0 then den else den * 2 ^ (-sh).toNat
  let k := n / d
  let r := n % d
  let cmp := if 2 * r < d then 0 else if 2 * r = d then 1 else 2
  (if roundsUp mode neg (k % 2 == 1) cmp (r != 0) then k + 1 else k, r != 0)

/-- The quantum of a `p`-bit significand for the magnitude num / den * 2^exp. -/
def quantum (num den : Nat) (exp : Int) (p : Nat) : Int := log2Quot num den + exp - ((p : Int) - 1)

/-- Overflow under a rounding mode gives an infinity or the largest finite value (R33). -/
def FFmt.overflow (f : FFmt) (mode : Nat) (neg : Bool) : Nat :=
  match mode with
  | 1 => f.maxFin neg
  | 2 => if neg then f.inf true else f.maxFin false
  | 3 => if neg then f.maxFin true else f.inf false
  | _ => f.inf neg

/-- A positive magnitude num / den * 2^exp with a sign, rounded once to an IEEE format (R20, R24, R33): bits and
flags. Tininess is detected after rounding. -/
def FFmt.roundQuot (f : FFmt) (mode : Nat) (neg : Bool) (num den : Nat) (exp : Int) : Nat × Flags :=
  let sgn := if neg then 2 ^ (f.ew + f.mw) else 0
  let q0 := quantum num den exp (f.mw + 1)
  let q := max q0 f.emin
  let (k, inexact) := roundAt mode neg num den exp q
  let (k, q) := if k = 2 ^ (f.mw + 1) then (2 ^ f.mw, q + 1) else (k, q)
  let nx := if inexact then flagNX else 0
  if k < 2 ^ f.mw then
    (sgn + k, nx ||| (if inexact then flagUF else 0))
  else
    let e := (q - f.emin).toNat + 1
    if 2 ^ f.ew - 1 ≤ e then (f.overflow mode neg, flagOF ||| flagNX)
    else
      let (ku, _) := roundAt mode neg num den exp q0
      let tiny := q0 < f.emin && !(ku == 2 ^ (f.mw + 1) && q0 + 1 == f.emin)
      (sgn + e * 2 ^ f.mw + (k - 2 ^ f.mw), nx ||| (if inexact && tiny then flagUF else 0))

/-- A signed zero. -/
def FFmt.zero (f : FFmt) (neg : Bool) : Nat := if neg then 2 ^ (f.ew + f.mw) else 0

/-- An exact value rounded to an IEEE format (R33); a signalling NaN sets NV. -/
def FFmt.roundVal (f : FFmt) (mode : Nat) : Val → Nat × Flags
  | .nan s => (f.qnan, if s then flagNV else 0)
  | .inf n => (f.inf n, 0)
  | .fin n m e => if m = 0 then (f.zero n, 0) else f.roundQuot mode n m 1 e

/-- An exact dyadic sum rounded to an IEEE format, with the sign of an exact zero given (R22). -/
def FFmt.roundDy (f : FFmt) (mode : Nat) (d : Dy) (zeroNeg : Bool) : Nat × Flags :=
  if d.num = 0 then (f.zero zeroNeg, 0) else f.roundQuot mode (d.num < 0) d.num.natAbs 1 d.exp

/-- The sign of an exact zero sum of terms with the signs `a` and `b` (R22). -/
def zeroSign (mode : Nat) (a b : Bool) (bothZero : Bool) : Bool :=
  if bothZero && a == b then a else mode == 2

/-! ## Arithmetic (R208) -/

def snanFlag (a b : Val) : Flags := if a.isSnan || b.isSnan then flagNV else 0

/-- a + b. -/
def FFmt.add (f : FFmt) (mode : Nat) (a b : Val) : Nat × Flags :=
  match a, b with
  | .fin na ma _, .fin nb mb _ =>
    f.roundDy mode (a.dy.add b.dy) (zeroSign mode na nb (ma == 0 && mb == 0))
  | .inf na, .inf nb => if na = nb then (f.inf na, 0) else (f.qnan, flagNV)
  | .inf na, .fin _ _ _ => (f.inf na, 0)
  | .fin _ _ _, .inf nb => (f.inf nb, 0)
  | _, _ => (f.qnan, snanFlag a b)

/-- The value with its sign inverted. -/
def Val.negate : Val → Val
  | .nan s => .nan s
  | .inf n => .inf (!n)
  | .fin n m e => .fin (!n) m e

/-- The exact product of two values; `none` for 0 times an infinity. -/
def Val.mulExact (a b : Val) : Option Val :=
  match a, b with
  | .fin na ma ea, .fin nb mb eb => some (.fin (na != nb) (ma * mb) (ea + eb))
  | .inf na, .inf nb => some (.inf (na != nb))
  | .inf na, .fin nb mb _ => if mb = 0 then none else some (.inf (na != nb))
  | .fin na ma _, .inf nb => if ma = 0 then none else some (.inf (na != nb))
  | _, _ => some (.nan (a.isSnan || b.isSnan))

/-- a * b. -/
def FFmt.mul (f : FFmt) (mode : Nat) (a b : Val) : Nat × Flags :=
  match Val.mulExact a b with
  | none => (f.qnan, flagNV)
  | some v => f.roundVal mode v

/-- a / b. -/
def FFmt.div (f : FFmt) (mode : Nat) (a b : Val) : Nat × Flags :=
  match a, b with
  | .fin na ma ea, .fin nb mb eb =>
    if mb = 0 then (if ma = 0 then (f.qnan, flagNV) else (f.inf (na != nb), flagDZ))
    else if ma = 0 then (f.zero (na != nb), 0)
    else f.roundQuot mode (na != nb) ma mb (ea - eb)
  | .inf na, .fin nb _ _ => (f.inf (na != nb), 0)
  | .fin na _ _, .inf nb => (f.zero (na != nb), 0)
  | .inf _, .inf _ => (f.qnan, flagNV)
  | _, _ => (f.qnan, snanFlag a b)

/-- The square root of a positive magnitude to well over the bits any format keeps, with a sticky last bit:
numerator and exponent. -/
def sqrtSticky (m : Nat) (e : Int) : Nat × Int :=
  let (m, e) := if e % 2 = 0 then (m, e) else (2 * m, e - 1)
  let n := m * 2 ^ 160
  let r := Nat.sqrt n
  (2 * r + (if r * r = n then 0 else 1), (e - 160) / 2 - 1)

/-- sqrt a. -/
def FFmt.sqrt (f : FFmt) (mode : Nat) (a : Val) : Nat × Flags :=
  match a with
  | .nan s => (f.qnan, if s then flagNV else 0)
  | .inf n => if n then (f.qnan, flagNV) else (f.inf false, 0)
  | .fin n m e =>
    if m = 0 then (f.zero n, 0)
    else if n then (f.qnan, flagNV)
    else
      let (r, x) := sqrtSticky m e
      f.roundQuot mode false r 1 x

/-- a * b + d with one rounding (R20, R208). -/
def FFmt.fma (f : FFmt) (mode : Nat) (a b d : Val) : Nat × Flags :=
  match Val.mulExact a b with
  | none => (f.qnan, flagNV)
  | some p =>
    let sn := if a.isSnan || b.isSnan || d.isSnan then flagNV else 0
    if p.isNan || d.isNan then (f.qnan, sn) else f.add mode p d

/-! ## Comparison, minimum and maximum (R38, R210) -/

/-- a < b for values that are no NaN; -0 equals +0. -/
def Val.lt (a b : Val) : Bool :=
  match a, b with
  | .inf n, .inf n' => n && !n'
  | .inf n, _ => n
  | _, .inf n' => !n'
  | _, _ => Dy.lt a.dy b.dy

/-- a = b for values that are no NaN; -0 equals +0. -/
def Val.eq (a b : Val) : Bool :=
  match a, b with
  | .inf n, .inf n' => n == n'
  | .fin _ _ _, .fin _ _ _ => (a.dy.sub b.dy).num == 0
  | _, _ => false

/-- The order of R38: -0 below +0. -/
def Val.below (a b : Val) : Bool :=
  Val.lt a b || (Val.eq a b && a.neg? && !b.neg?)

/-- min_num and max_num of R38 on bit patterns, without flags. -/
def FFmt.minMax (f : FFmt) (max_ : Bool) (a b : Nat) : Nat :=
  let va := f.decode a
  let vb := f.decode b
  if va.isNan && vb.isNan then f.qnan
  else if va.isNan then b
  else if vb.isNan then a
  else if (if max_ then Val.below va vb else Val.below vb va) then b else a

/-! ## Vendor and OCP narrow formats (R26 to R35) -/

/-- A KF format: exponent and fraction widths and bias (R18). -/
structure KFmt where
  ew : Nat
  mw : Nat
  bias : Nat
  deriving DecidableEq, Repr

def kf8 : KFmt := ⟨4, 3, 7⟩
def kf6 : KFmt := ⟨3, 2, 3⟩
def kf4 : KFmt := ⟨2, 1, 1⟩

/-- R26. -/
def KFmt.decode (f : KFmt) (code : Nat) : Val :=
  let e := natBits code f.mw f.ew
  let m := code % 2 ^ f.mw
  if code = 0 then .fin false 0 0
  else if f = kf8 ∧ code % 128 = 127 then .nan false
  else .fin (code.testBit (f.ew + f.mw)) (2 ^ f.mw + m) ((e : Int) - f.bias - f.mw)

/-- The code of the largest finite magnitude: 448, 28 or 6 (R18). -/
def KFmt.maxCode (f : KFmt) : Nat := if f = kf8 then 0x7E else 2 ^ (f.ew + f.mw) - 1

/-- R34: conversion into a KF format. -/
def KFmt.sat (f : KFmt) (v : Val) : Nat × Flags :=
  let sgn := fun (n : Bool) => if n then 2 ^ (f.ew + f.mw) else 0
  match v with
  | .nan _ => (if f = kf8 then 0x7F else 0, flagNV)
  | .inf n => (sgn n + f.maxCode, flagNV)
  | .fin n m e =>
    if m = 0 then (0, 0)
    else
      let q0 : Int := -(f.bias : Int) - f.mw
      -- the smallest magnitude of the sign, in units of 2^q0
      let least := 2 ^ f.mw + (if n then 0 else 1)
      let (whole, exact) := roundAt 1 n m 1 e q0
      if whole < least then
        -- between zero and the smallest code: twice x against the smallest, a tie to zero
        let (twice, tInexact) := roundAt 1 n m 1 (e + 1) q0
        if twice < least ∨ (twice = least ∧ !tInexact) then (0, flagNX ||| flagUF)
        else (sgn n + (least - 2 ^ f.mw), flagNX)
      else
        let _ := exact
        let q := quantum m 1 e (f.mw + 1)
        let (k, inexact) := roundAt 0 n m 1 e q
        let (k, q) := if k = 2 ^ (f.mw + 1) then (2 ^ f.mw, q + 1) else (k, q)
        let code := (q - q0).toNat * 2 ^ f.mw + (k - 2 ^ f.mw)
        if f.maxCode < code then (sgn n + f.maxCode, flagOF ||| flagNX)
        else (sgn n + code, if inexact then flagNX else 0)

/-- R30: e4m3. -/
def e4m3Decode (code : Nat) : Val :=
  let e := natBits code 3 4
  let m := code % 8
  if e = 15 ∧ m = 7 then .nan false
  else if e = 0 then .fin (code.testBit 7) m (-9)
  else .fin (code.testBit 7) (8 + m) ((e : Int) - 10)

/-- R35: conversion into e4m3 and e5m2, saturating. -/
def satOcp (isE5 : Bool) (v : Val) : Nat × Flags :=
  let mw := if isE5 then 2 else 3
  let emin : Int := if isE5 then -16 else -9
  let maxCode := if isE5 then 0x7B else 0x7E
  match v with
  | .nan s => (if isE5 then 0x7E else 0x7F, if s then flagNV else 0)
  | .inf n => if isE5 then ((if n then 128 else 0) + 0x7C, 0) else ((if n then 128 else 0) + maxCode, flagNV)
  | .fin n m e =>
    let sgn := if n then 128 else 0
    if m = 0 then (sgn, 0)
    else
      let q := max (quantum m 1 e (mw + 1)) emin
      let (k, inexact) := roundAt 0 n m 1 e q
      let code := (q - emin).toNat * 2 ^ mw + k
      if maxCode < code then (sgn + maxCode, flagOF ||| flagNX)
      else if code = 0 then (sgn, flagUF ||| flagNX)
      else
        -- R24: tininess is detected after rounding, as if the exponent had no lower bound
        let q0 := quantum m 1 e (mw + 1)
        let (ku, _) := roundAt 0 n m 1 e q0
        let tiny := decide (q0 < emin) && !(ku == 2 ^ (mw + 1) && q0 + 1 == emin)
        (sgn + code, (if inexact then flagNX else 0) ||| (if inexact && tiny then flagUF else 0))

/-- R31: the value of a ternary code, and whether it is code 10. -/
def trnValue (code : Nat) : Int × Bool :=
  match code % 4 with
  | 1 => (1, false)
  | 3 => (-1, false)
  | 2 => (0, true)
  | _ => (0, false)

/-! ## Integers (R36, R37, R39, R114) -/

/-- An integer type: signedness and width. -/
structure ITy where
  signed : Bool
  w : Nat
  deriving DecidableEq, Repr

/-- The integer type of TYPE codes 0 to 7 (R93). -/
def ITy.ofCode (t : Nat) : ITy :=
  ⟨t % 2 == 0, match t / 2 with | 0 => 64 | 1 => 32 | 2 => 16 | _ => 8⟩

def ITy.lo (t : ITy) : Int := if t.signed then -(2 ^ (t.w - 1) : Nat) else 0
def ITy.hi (t : ITy) : Int := if t.signed then (2 ^ (t.w - 1) : Nat) - 1 else (2 ^ t.w : Nat) - 1

/-- int_read of R114. -/
def ITy.read (t : ITy) (v : Nat) : Int := if t.signed then toSigned t.w v else ((v % 2 ^ t.w : Nat) : Int)

/-- int_write of R114, into a 64-bit register. -/
def ITy.write (t : ITy) (z : Int) : Word :=
  let y := wrapNat t.w z
  BitVec.ofInt 64 (if t.signed then toSigned t.w y else (y : Int))

/-- sat_int of R39. -/
def satInt (t : ITy) (z : Int) : Int := max t.lo (min t.hi z)

/-- An exact value rounded to an integer under a mode: the integer and whether it is inexact. -/
def roundInt (mode : Nat) (n : Bool) (m : Nat) (e : Int) : Int × Bool :=
  let (k, inexact) := roundAt mode n m 1 e 0
  (if n then -(k : Int) else k, inexact)

/-- R36: a float value into an integer type. -/
def ITy.ofVal (t : ITy) (mode : Nat) : Val → Int × Flags
  | .nan _ => (0, flagNV)
  | .inf n => (if n then t.lo else t.hi, flagNV)
  | .fin n m e =>
    let (z, inexact) := roundInt mode n m e
    if z < t.lo then (t.lo, flagNV)
    else if t.hi < z then (t.hi, flagNV)
    else (z, if inexact then flagNX else 0)

/-- to_trn of R37, as a code. -/
def toTrn : Val → Nat × Flags
  | .nan _ => (0, flagNV)
  | .inf n => (if n then 3 else 1, flagNX)
  | .fin n m e =>
    let (z, _) := roundInt 0 n m e
    let c := max (-1) (min 1 z)
    let d := (Dy.sub ⟨if n then -(m : Int) else m, e⟩ ⟨c, 0⟩).num
    (if c = 1 then 1 else if c = -1 then 3 else 0, if d = 0 then 0 else flagNX)

/-- to_b1 of R37. -/
def toB1 : Val → Nat × Flags
  | .nan _ => (1, flagNV)
  | .inf _ => (1, 0)
  | .fin _ m _ => (if m = 0 then 0 else 1, 0)

/-- An integer as an exact value. -/
def intVal (z : Int) : Val := .fin (z < 0) z.natAbs 0

/-! ## The formats of X, by TYPE code (R93) -/

/-- The IEEE format of TYPE codes 8 to 11. -/
def fmtOf (t : Nat) : FFmt := if t = 8 then f64 else if t = 9 then f32 else if t = 10 then bf16 else f16

/-- The width in bits of an element of a TYPE code. -/
def typeBits (t : Nat) : Nat := if 8 ≤ t then (fmtOf t).width else (ITy.ofCode t).w

/-- A TYPE code names a floating type. -/
def isFloatType (t : Nat) : Bool := 8 ≤ t && t ≤ 11

end Sys2Proof.Machine
end

