-- ==== Sys2Proof/Config.lean ====
section
/-! DEFINITION. What an implementation or the world outside the package fixes and the spec leaves open: opaque
constants, so that nothing proved rests on a value. Each has a row in notes/assumptions. -/

namespace Sys2Proof

/-- Who acts next. -/
inductive Act where
  /-- the engine of the cell tries its next word -/
  | engine (cell : Nat) (e : EngTag)
  /-- the GSD starts the next management command of the ring (R456) -/
  | command
  /-- the GSD admits the next packet of a queue (R349) -/
  | packet (q : Nat)
  /-- a row of the table that is no fetched word: a hardware event or a host access -/
  | event (i : Instr)
  deriving DecidableEq, Repr, Inhabited

/-- One turn: the ticks that pass before it, and who acts. -/
structure Turn where
  ticks : Nat
  act : Act
  deriving DecidableEq, Repr, Inhabited

namespace Config

/-- R285, R311, R355: which agent acts next and after how many ticks, where no rule orders them. -/
opaque nextTurn : Nat → Turn

/-- R471, R390, R306: the choice the device makes among those a rule allows (entry numbers, buffer ids, tags,
virtual ranges, frames, replaced entries). -/
opaque pick : Nat → Nat

/-- R307: the home hash, a function of the line and the number of ARITH dies. -/
opaque homeIx : Nat → Nat → Nat

/-- R78: a remote package is reachable over a Nyern link, at a version of the discovery table. -/
opaque remotePackage : Nat → Bool

/-- R378: the row-cache set of a line. -/
opaque rowSet : Nat → Nat

/-- R228: the bits a special function gives, by function (0 EXP2 to 6 TANH), TYPE code and input bits. -/
opaque special : Nat → Nat → Word → Word

/-- R264: whether a group at or above the faulting one had been applied to an output point, by job and point. -/
opaque partialPoint : Nat → Nat → Nat → Bool

/-- R262: the read of a nest that its fetcher performs ahead of the group that takes it, if any, by draw. -/
opaque readAhead : Nat → Option Nat

/-- R184: how many elements above the faulting one a COPY, COPY.TH or GATHER had performed. -/
opaque partialElems : Nat → Nat → Bool

/-- R459, R463: the parts of a firmware image that boot step 2 looks at: the vendor's public key, the bytes signed, the
signature r and s. -/
opaque imageKey : List Byte → Nat × Nat
opaque imageSigned : List Byte → List Byte
opaque imageSignature : List Byte → Nat × Nat
/-- R459, R464: the security version of an image. -/
opaque imageVersion : List Byte → Nat
/-- R459: the vendor key hash fused in the ROM, and the fused minimum of the security version. -/
opaque vendorKeyHash : List Byte
opaque minVersion : Nat

/-- R459: the bytes by which MEAS1 and MEAS2 record the boot's decisions. -/
opaque decisionBytes : List Nat → List Byte

/-- R428, R468: the status with which a command completes that a terminated context or the I3C port does not accept,
by draw. -/
opaque refusedStatus : Nat → BitVec 8

/-- R464: the device identity key, which the security engine derives from fused secrets, and the secret number of a
signature, by draw. -/
opaque identityKey : Nat
opaque signSecret : Nat → Nat

end Config

end Sys2Proof
end

