-- ==== Sys2Proof/Machine/State.lean ====
section
/-! DEFINITION. The state of one LK-8 package, as plain data: cells and their engines, dies, memory, and the
tables of the graph-scheduler die. Every field's docstring names the rule of spec/ that gives it. -/

namespace Sys2Proof.Machine

/-! ## The cell -/

/-- The kind of a bq entry (R125). -/
inductive BqKind where
  /-- outcome bit of a BR or BREAK -/
  | outcome
  /-- target address of a JMPI or CALLI -/
  | target
  /-- outcome bit of an OUT -/
  | out
  deriving DecidableEq, Repr

/-- An outcome-queue entry: kind, value and the PC of its producer (R125), with the producer's position (R284),
by which entries stand in program order. -/
structure BqEnt where
  kind : BqKind
  value : Word
  pc : Nat
  pos : Nat
  deriving DecidableEq, Repr

/-- An open hardware loop (R128): its end E, the first word of its body, the iterations left, and for a
rotating loop (R231) its trip N, its STG and the number of the iteration in progress. -/
structure LoopEnt where
  endPc : Nat
  startPc : Nat
  left : Nat
  rot : Bool
  n : Nat
  stg : Nat
  iter : Nat
  deriving DecidableEq, Repr

/-- A token push that its counter did not accept (R289): receiving engine and counter. -/
structure Push where
  eng : EngTag
  cnt : BitVec 3
  deriving DecidableEq, Repr

/-- A watchpoint: WPBASE, WPLEN, WPCTL, WPCNT (R417). -/
structure WatchPt where
  base : Word
  len : Word
  ctl : Word
  cnt : Nat
  deriving DecidableEq, Repr

/-- The all-zero watchpoint. -/
def WatchPt.zero : WatchPt := ⟨0, 0, 0, 0⟩

/-- One engine's own state. -/
structure Eng where
  /-- R3, R80: program counter, byte offset in the class section; 64 bits. Reset 0 (no shard). -/
  pc : Nat
  /-- R284: position in the dynamic word sequence. Reset 0. -/
  pos : Nat
  /-- R48, R58: token counters t0-t7, 8 bits each. Reset 0. -/
  tok : FMap (BitVec 8)
  /-- R290: completion queue, counter numbers, at most 32 entries, oldest first. Reset empty. -/
  cq : List (BitVec 3)
  /-- R59, R125: outcome queue, at most 64 entries, in program order. Reset empty. -/
  bq : List BqEnt
  /-- R127: return stack, at most 16 entries, innermost first. Reset empty. -/
  rstack : List Nat
  /-- R128: loop stack, at most 8 entries, innermost first. Reset empty. -/
  lstack : List LoopEnt
  /-- R132: the engine has executed END. Reset false. -/
  done : Bool
  /-- R289: the push the engine holds. Reset none. -/
  held : Option Push
  /-- R304: reason code of the engine's block. 4 bits. Reset 0. -/
  reason : Nat
  /-- R84: the word at pc has issued (its WAIT is consumed) and waits on its own condition. Reset false. -/
  issued : Bool
  /-- R137, R143, R177: the value that a waiting issued word keeps (a tick, a barrier number, an FWSVC reply).
  Reset none. -/
  waitVal : Option Word
  /-- R299: ordinal of the engine's next executed word in the region. Reset 0. -/
  ordinal : Nat
  /-- R141, R419: the watchpoints as they stood when the waiting issued word issued. Reset none. -/
  wps : List WatchPt
  deriving DecidableEq, Repr

/-- One version of an x or lc register kept for lagging readers (R50). -/
structure RegVer where
  reg : Nat
  pos : Nat
  value : Word
  deriving DecidableEq, Repr

/-- A scratchpad ring descriptor (R164). -/
structure Ring where
  base : Nat
  size : Nat
  cnt : Nat
  head : Nat
  tail : Nat
  taken : Nat
  filled : Nat
  claimed : Nat
  deriving DecidableEq, Repr

/-- An unconfigured ring. -/
def Ring.zero : Ring := ⟨0, 0, 0, 0, 0, 0, 0, 0⟩

/-- A matrix operand descriptor (R252): the two words MOPD wrote and the kind. -/
structure Opd where
  kind : Nat
  wa : Word
  wb : Word
  deriving DecidableEq, Repr

/-- A nest table (R245): the MSET fields by field number, two operand descriptors, two scale pointers. -/
structure Nest where
  fields : FMap Word
  opdA : Opd
  opdB : Opd
  sclA : Word × Word
  sclB : Word × Word
  deriving DecidableEq, Repr

/-- The all-zero nest table. -/
def Nest.zero : Nest := ⟨[], ⟨0, 0, 0⟩, ⟨0, 0, 0⟩, (0, 0), (0, 0)⟩

/-- A tile record as a command sees it (R186). -/
structure TileRec where
  base : Word
  rows : Nat
  rbytes : Nat
  pitch : Int
  planes : Nat
  ppitch : Int
  ok : Bool
  deriving DecidableEq, Repr

/-- A fault or trap cause with the parts ECAUSE and the fault record carry (R71, R412). -/
structure Cause where
  code : BitVec 8
  eng : EngTag
  pc : Nat
  pos : Nat
  addr : Word
  view : Nat
  row : Nat
  elem : Nat
  /-- R412: element of an asynchronous command. -/
  celem : Option Nat
  /-- R412: pointer tag and granule tag. -/
  tags : Option (BitVec 4 × BitVec 4)
  /-- R412: AUX, and PC2 with its engine. -/
  aux : Word
  pc2 : Option (Nat × EngTag)
  deriving DecidableEq, Repr

/-- A PUBLISH that a cell is not yet ordered after (R323): the buffer, the chiplet of the publisher, and the widest scope
from 2 on of an acquire by the cell since then that covers the publisher, 0 for none. -/
structure OldView where
  buf : Nat
  chip : Nat
  acq : Nat
  deriving DecidableEq, Repr

/-- Asynchronous work accepted and not complete (R182): an AS, M, W or K command with the operand values it
took at issue. -/
structure Job where
  id : Nat
  ins : Instr
  eng : EngTag
  pc : Nat
  pos : Nat
  /-- R299: ordinal of the issuing word. -/
  ordinal : Nat
  /-- R182: the values of D, A and B taken at issue. -/
  vd : Word
  va : Word
  vb : Word
  /-- R244: the active table an MGO took. -/
  nest : Nest
  /-- R248: lc0-lc15 as an MGO read them; R190: the mask bits a COPYM has read; R282: the bytes of the descriptor
  an SPX command has read. -/
  aux : List Nat
  /-- R275: the timetable an RGO took. -/
  timetable : List Word
  /-- R68: the pad value an MGO took. -/
  pad : BitVec 32
  /-- R187: the tile records as the command read them; for an MGO those of its `.th` operands, A before B. -/
  trecs : List TileRec
  /-- R186: a cause that the command meets at element 0, found when the record was read. -/
  early : Option Cause
  /-- R185: scratchpad ranges, first byte and length, that the command writes. -/
  locks : List (Nat × Nat)
  /-- R182: completion token, when WHEN = 1. -/
  sig : Option Push
  /-- R167: ring to commit. -/
  cmt : Option Nat
  /-- R167: slot base that the commit will fill. -/
  slot : Nat
  /-- R184: next element to perform. -/
  next : Nat
  /-- every element is performed; the commit or the token is still held (R167, R290). -/
  finished : Bool
  /-- R272: a peer tile has been handed to its peer. -/
  sent : Bool
  /-- R441: acceptance tick. -/
  accTick : Nat
  /-- R323: exchanges of DOUBLE buffers that the command's accesses are not ordered after. -/
  oldView : List OldView
  /-- R141, R419: the watchpoints as they stood at its issue. -/
  wps : List WatchPt
  /-- R184: what of its next element is performed; empty before it begins. -/
  part : List Nat
  /-- R418: watchpoints that have counted the next element. -/
  hit : Nat
  /-- R469: the cell, and the number of its shard, at whose bank an element is held while that scratchpad is cleared. -/
  bank : Option (Nat × Nat)
  /-- R184: a cause found before, and the element at which the command meets it; for an MGO the least group at which
  one was found (R264). -/
  late : Option (Nat × Cause)
  /-- R255, R258: an MGO has started: its tile records and its pad value are taken. -/
  started : Bool
  /-- R262, R277: values an MGO or an RGO has read and not used, by the number of the read. -/
  reads : FMap Nat
  deriving DecidableEq, Repr

/-- A stamp record in the making (R441): its MGO's job, the TRBASE and STALL that the MGO took at issue (R246, R437),
T0, issue tick, tile id; compute start and end once they are known; the first MDRAIN after the MGO; copy-out end;
whether another MGO or END came before a MDRAIN. -/
structure Stamp where
  mgo : Nat
  trbase : Word
  stall : Bool
  t0 : Nat
  issue : Nat
  tile : BitVec 32
  start : Option Nat
  last : Nat
  stop : Option Nat
  drain : Option Nat
  out : Option Nat
  noDrain : Bool
  deriving DecidableEq, Repr

/-- A tile handed to a peer and not applied (R271, R272): accumulator, whether it is `.ord` with its NSRC and RANK,
the elements that are added, by their number in the accumulator, whether they are f32, the source cell and its job,
and the token pushed at the peer. Elements leave the list as they are added. -/
structure PeerTile where
  acc : Nat
  ord : Option (Nat × Nat)
  elems : List (Nat × BitVec 32)
  isF32 : Bool
  src : Nat
  job : Nat
  push : Option Push
  /-- every element is added; the tokens are still held (R290) -/
  done : Bool
  deriving DecidableEq, Repr

/-- Handler mode of C (R146, R147): the trapped engine, and C's kept state. The other engines' stop PCs are
their own pc fields, which do not move while C is in handler mode. -/
structure Handler where
  trapEng : EngTag
  trapPc : Nat
  /-- C's stop PC, used when another engine trapped (R148). -/
  cStop : Nat
  /-- R147: C's return and loop stacks. -/
  cRstack : List Nat
  cLstack : List LoopEnt
  /-- R132, R147: C had executed END when the trap was entered; it stands there again after ERET (R148). -/
  cDone : Bool
  deriving DecidableEq, Repr

/-- A watched scratchpad read (R294): reader, position, PC, first byte and length. -/
structure WatchedRead where
  eng : EngTag
  pos : Nat
  pc : Nat
  off : Nat
  len : Nat
  deriving DecidableEq, Repr

/-- A held qualified scratchpad access (R161): the issuing cell, the granule, in order of arrival. A request dies with
the shard at whose bank it stands (R469). -/
structure Held where
  cell : Nat
  eng : EngTag
  granule : Nat
  /-- it waits for the granule to be full; else for it to be empty. -/
  full : Bool
  deriving DecidableEq, Repr

/-- The restart record (R393). -/
structure Record where
  rpc : Nat
  /-- R284: the position of the word at RPC; R393: a REGION has written the record. Beside the record's bytes. -/
  pos : Nat
  written : Bool
  obj : Nat
  shcoord : Word
  rinst : Nat
  barDie : Nat
  barNode : Nat
  fpstat : BitVec 6
  mstat : BitVec 3
  win : Nat
  padval : BitVec 32
  ordwatch : Bool
  x : FMap Word
  a : FMap Word
  lc : FMap Word
  deriving DecidableEq, Repr

/-- What a cell is doing (R469, R408, R138). -/
inductive Phase where
  /-- no shard -/
  | idle
  /-- the scratchpad clear of R61 runs -/
  | clearing
  /-- held for a start tick (R354) -/
  | timed
  | running
  /-- HALT (R138) -/
  | halted
  /-- being discarded (R392, steps 1 to 5) -/
  | halting
  /-- stopped by a fatal cause and held for a dump (R408) -/
  | stopped
  deriving DecidableEq, Repr

/-- A byte in an L1 line: its value and whether it is dirty (R306). -/
structure L1Byte where
  val : Byte
  dirty : Bool
  deriving DecidableEq, Repr

/-- A cached translation (R390): frame base, page size, W. -/
structure TlbEnt where
  frame : Nat
  bits : Nat
  w : Bool
  deriving DecidableEq, Repr

/-- The place of the word, or of the element of a command, that sent a write to another cell's scratchpad (R469): the
shard's number, engine, PC, position, element, and the address. -/
structure Sender where
  serial : Nat
  eng : EngTag
  pc : Nat
  pos : Nat
  celem : Option Nat
  addr : Word
  deriving DecidableEq, Repr

/-- A TARN or GLOBAL byte location and a value written to it (R308). -/
structure ByteWrite where
  at_ : Nat
  val : Byte
  deriving DecidableEq, Repr

/-- One cell. Map-typed fields list only the entries that differ from zero. -/
structure Cell where
  /-- R469: the number of the shard's placement, by which requests toward it are told from those toward another
  shard on the cell. Reset 0 (no shard). -/
  serial : Nat
  /-- R138, R354, R408, R469: what the cell is doing. -/
  phase : Phase
  /-- R335: node entry of the shard, its flat C and D indices. Reset 0. -/
  node : Nat
  flatC : Nat
  flatD : Nat
  /-- R3: one program-counter slot and its engine state per tag 0-5. -/
  engC : Eng
  engA : Eng
  engX : Eng
  engM : Eng
  engW : Eng
  engK : Eng
  /-- R48: x1-x63, 64 bits each, by number. Reset 0 at shard start (R60). -/
  x : FMap Word
  /-- R48: a1-a63, 64 bits each. Reset 0 at shard start. -/
  a : FMap Word
  /-- R48, R57: lc0-lc15, 32 bits each. Reset 0, lc0-lc5 the launch trips. -/
  lc : FMap Word
  /-- R50: kept versions of x registers, newest first. Reset empty. -/
  xVer : List RegVer
  /-- R50: kept versions of lc registers, newest first. Reset empty. -/
  lcVer : List RegVer
  /-- R284: PCs of the dynamic word sequence from `pathBase` on. Reset empty. -/
  path : List Nat
  pathBase : Nat
  /-- R125: entries held back behind an earlier producing word, in program order, each with its producer. Reset none. -/
  bqHeld : List (EngTag × BqEnt)
  /-- R138: the PC after a HALT whose event is not yet reported. Reset none. -/
  haltPc : Option Nat
  /-- R51: v0-v255, 32-bit lane L of register q under key 1024 q + L. Reset 0. -/
  v : FMap (BitVec 32)
  /-- R54: k1-k15, 2,048 bits each. Reset 0. -/
  k : FMap (BitVec 2048)
  /-- R231: k8-k15 are driven by an open rotating loop. Reset false. -/
  stageOpen : Bool
  /-- R56: m0-m7, 32-bit elements under key 32768 m + 256 row + column. Reset 0. -/
  acc : FMap (BitVec 32)
  /-- R258: void marks of accumulator elements. Reset none. -/
  void : FMap Bool
  /-- R277: the elements that the MZERO at M has written while W works in the accumulator, one bit each. Reset 0. -/
  zeroed : Nat
  /-- R59: data queues, 64-bit entries, oldest first. Reset empty. -/
  qx : List Word
  qc : List Word
  qa : List Word
  /-- R64: FPSTAT flags [5:0]. Reset 0. -/
  fpstat : BitVec 6
  /-- R65: MSTAT flags [2:0]. Reset 0. -/
  mstat : BitVec 3
  /-- R25: the flags raised in FPSTAT and in MSTAT at the present tick. Reset 0. -/
  nowFp : BitVec 6
  nowM : BitVec 3
  /-- R288: pushes accepted at the present tick, newest first: rank (the pusher's tag, 6 for a completion) and push.
  Reset none. -/
  nowTok : List (Nat × Push)
  /-- R65, R244: MSTAT.SHV. Reset false. -/
  shv : Bool
  /-- R67: SHCOORD. Set at dispatch. -/
  shcoord : Word
  /-- R68: WINSLIP.WIN. Reset 256. -/
  winslip : Nat
  /-- R68: ORDWATCH.EN as written. Reset 0. -/
  ordwatch : Bool
  /-- R295: ORDWATCH.EN in force before the changes of `ordLog`. Reset 0. -/
  ordActive : Bool
  /-- R295: positions of the tag-7 words at which C made a new value of ORDWATCH.EN take effect, newest first. Reset
  none. -/
  ordLog : List (Nat × Bool)
  /-- R68: PADVAL. Reset 0. -/
  padval : BitVec 32
  /-- R69: VROT. Reset 0. -/
  vrotOff : Nat
  vrotSize : Nat
  vrotBase : Nat
  /-- R232: writes of VROT by C that X has not reached, with their positions, oldest first. Reset none. -/
  vrotPend : List (Nat × Word)
  /-- R66: PSTAGE.STG, PSTAGE.NC and the lane map PSLANE0-31 as one word of 1,024 bits. Reset 0. -/
  pstg : Nat
  pnc : Nat
  pslane : BitVec 1024
  /-- R71: EPC, ECAUSE, EADDR, TVEC. Reset 0; TVEC set by the loader. -/
  epc : Word
  ecause : Word
  eaddr : Word
  tvec : Word
  /-- R78: SCOPETAB and SCOPEM2-6 as the cell saw them at its last (re)start. -/
  scopetab : Word
  scopem : List Word
  /-- R417: the eight watchpoints. Reset the context defaults. -/
  watch : List WatchPt
  /-- R437: TRCTL, TRBASE, STTILE, TRDROP. Reset the context defaults, 0, 0. -/
  trctl : BitVec 2
  trbase : Word
  sttile : BitVec 32
  trdrop : Nat
  /-- R60, R75: scratchpad bytes, 8 MiB. Reset 0. -/
  spad : Memory
  /-- R160: full-empty bits by 16-byte granule; listed when full. Reset all empty. -/
  fe : FMap Bool
  /-- R164: ring descriptors 0-15. Reset all zero. -/
  rings : FMap Ring
  /-- R161: qualified accesses held at this cell's banks, in arrival order. Reset empty. -/
  bankHeld : List Held
  /-- R244: shadow and active nest tables. Reset zero. -/
  shadow : Nest
  active : Nest
  /-- R275: row timetable fields 0-3. Reset 0. -/
  timetable : FMap Word
  /-- R276: row statistics MX and SM, 128 f32 each. Reset 0. -/
  mx : FMap (BitVec 32)
  sm : FMap (BitVec 32)
  /-- R182: asynchronous work accepted and not complete, in acceptance order. Reset empty. -/
  jobs : List Job
  nextJob : Nat
  /-- R271: peer tiles handed to this cell and not applied, in order of arrival. Reset none. -/
  peerIn : List PeerTile
  /-- R272: per accumulator: NSRC of the open round (0 none) and tiles applied in it. Reset none. -/
  rounds : FMap (Nat × Nat)
  /-- R306: L1 data cache bytes, by location. Reset empty. -/
  l1 : FMap L1Byte
  /-- R7, R414: the lines the L1 holds, at most 4,096, each with the tag its copy carries. Reset empty. -/
  l1Tag : FMap (BitVec 4)
  /-- R323: exchanges of DOUBLE buffers that the cell is not ordered after. Reset none. -/
  oldView : List OldView
  /-- R469: writes to other cells' scratchpads that were turned back, oldest first. Reset none. -/
  rejects : List Sender
  /-- R139: instruction cache words, by word index. Reset empty. -/
  icache : FMap Word
  /-- R390: L1 TLB, by 16 KiB page number. Reset empty. -/
  tlb : FMap TlbEnt
  /-- R147: handler mode. Reset none. -/
  handler : Option Handler
  /-- R409: fatal causes raised and not yet delivered, with their ticks, newest first. Reset none. -/
  fatals : List (Nat × Cause)
  /-- R146: a trap whose entry waits for other engines' issued words. Reset none. -/
  pendTrap : Option Cause
  /-- R294: recorded watched reads. Reset empty. -/
  reads : List WatchedRead
  /-- R393: the restart record. -/
  record : Record
  /-- R131, R394: the next REGION is the first word of a restart. Reset false. -/
  restarting : Bool
  /-- R299: region instance number. Reset 0. -/
  rinst : Nat
  /-- R177: BAR words of each kind counted so far. Reset 0. -/
  barDie : Nat
  barNode : Nat
  /-- R61: tick by which the clear ends; R354: start tick. Reset 0. -/
  clearEnd : Nat
  startTick : Nat
  /-- R305: tick since which the shard has been stalled. Reset none. -/
  stalledSince : Option Nat
  /-- R357: tick since which the shard has been polling. Reset 0. -/
  pollSince : Nat
  /-- R441: the earliest acceptance tick among the commands whose tokens reached M since its last MGO. Reset
  none. -/
  stampT0 : Option Nat
  /-- R441: the tick at which M reached the word at its PC. Reset the tick of the shard's start. -/
  reachM : Nat
  /-- R441: the entries of M's completion queue, each with the acceptance tick of the cell's command that pushed it; none
  for a push of a peer. Reset none. -/
  cqTicks : List (BitVec 3 × Option Nat)
  /-- R441, R440: stamp records in the making, or held under STALL. Reset none. -/
  stamps : List Stamp
  deriving DecidableEq, Repr

/-! ## Dies -/

/-- A message from a die toward a home or a bank, not yet performed there (R308, R313, R324): the chiplet it is sent to,
its sequence number among those of the die toward that chiplet, issuing cell, the destination (a line's location, or
2^60 + cell key for a peer scratchpad), and what it writes. -/
structure Msg where
  home : Nat
  seq : Nat
  cell : Nat
  dest : Nat
  /-- a write-through of the RDC (R308), not a store of its own. -/
  wt : Bool
  writes : List ByteWrite
  /-- granules whose full-empty bit the write sets (R162). -/
  fill : List Nat
  /-- R469: the shard it is sent to, of a write to a scratchpad, and who sent it. -/
  shard : Nat
  by_ : Option Sender
  deriving DecidableEq, Repr

/-- A row line of an SPX row cache (R379): hit counter and the tick of its last hit or fill. -/
structure RowLine where
  hits : Nat
  last : Nat
  bytes : Memory
  /-- R414: the tag the copy carries. -/
  tag : BitVec 4
  deriving DecidableEq, Repr

/-- One die. -/
structure Die where
  /-- R443, R344: role 0 ARITH, 1 TIER, 2 none, 3 mapped out. -/
  role : Nat
  /-- R384: partition that holds the die, 0 for none. -/
  part : Nat
  /-- R306: remote-data cache bytes, by location. Reset empty. -/
  rdc : Memory
  /-- R306: RDC bytes present. -/
  rdcHas : FMap Bool
  /-- R7, R414: the lines the RDC holds, at most 524,288, each with the tag its copy carries. Reset empty. -/
  rdcTag : FMap (BitVec 4)
  /-- R306, R366: HBM lines the die cache holds, at most 524,288, and whether each is dirty. Reset empty. -/
  dcache : FMap Bool
  /-- R308: messages sent and not performed, oldest first. Reset empty. -/
  out : List Msg
  /-- R324: next sequence number toward each chiplet, 32 bits. Reset 0. -/
  nextSeq : FMap Nat
  /-- R324: as a home, the numbers of the last 4,096 messages applied for each sending chiplet, newest first, with the
  old value that an atomic returned. Reset none. -/
  applied : FMap (List (Nat × Word))
  /-- R187: tile-record cache: object, handle and shape; most recently used first; at most 256. Reset empty. -/
  tileCache : List (Nat × Nat × TileRec)
  /-- R390: die TLB, by context * 2^43 + page number. Reset empty. -/
  tlb : FMap TlbEnt
  /-- R390: walk cache of upper-level table entries, by context * 2^64 + lowest VA bit of the level * 2^57 + VA from that
  bit on. Reset empty. -/
  walkc : FMap Nat
  /-- R378: row lines of an SPX die, by location of the line. Reset empty. -/
  rows : FMap RowLine
  /-- R378: tile frames of an SPX die in use. Reset none. -/
  frames : FMap Bool
  /-- R379: multiples of 2^24 ticks whose halving of the hit counters is done. Reset 0. -/
  halved : Nat
  deriving DecidableEq, Repr

/-! ## Buffers, residency, objects -/

/-- A capability (R196). -/
abbrev Cap := Word

/-- One silt-log entry (R369) with the identity of R299 that made it. -/
structure LogEnt where
  off : Nat
  op : Nat
  ty : BitVec 4
  value : Word
  deriving DecidableEq, Repr

/-- The identity of a silt append or a capability word (R299, R300): node entry, flat indices, region instance,
engine, ordinal, element. -/
structure Ident where
  node : Nat
  flatC : Nat
  flatD : Nat
  rinst : Nat
  eng : EngTag
  ordinal : Nat
  elem : Nat
  deriving DecidableEq, Repr

/-- A kept identity of a capability word (R300): the slot it named, the capability it moved, dropped or copied,
whether it emptied the slot, and whether its drop left the buffer without references. -/
structure KeptCap where
  id : Ident
  slot : Nat
  cap : Cap
  emptied : Bool
  dropped : Bool
  deriving DecidableEq, Repr

/-- States of a residency tile (R361). -/
inductive TileState where
  | cold | fetching | resident | evicting
  deriving DecidableEq, Repr

/-- Who makes an access that a tile in transition holds (R364): an engine's word at its position (of a prologue core
under 2^20 + its node) and what of it is done, a job's element and what of it is done, a message of a die, the host's
access to the memory window, or the trace record of an MGO of a cell. -/
inductive Waiter where
  | word (cell : Nat) (e : EngTag) (pos done : Nat)
  | job (cell id next : Nat) (part : List Nat)
  | message (chip home seq : Nat)
  | window
  | stamp (cell mgo : Nat)
  deriving DecidableEq, Repr

/-- A residency tile (R360-R370). -/
structure Tile where
  st : TileState
  /-- location of the frame of a RESIDENT or EVICTING tile, or of the frame that a FETCHING tile will take; none
  while every frame is in transition (R365). -/
  frame : Option Nat
  /-- R365: SPX die into whose tile frames a fetch goes; none for the tarn pool. -/
  spx : Option Nat
  log : List LogEnt
  /-- R370: the log holds a slot. -/
  slot : Bool
  /-- R363: tick of its last access. -/
  lastAccess : Nat
  /-- R364: the accesses held by a move, in the order they arrived. -/
  held : List Waiter
  deriving DecidableEq, Repr

/-- A buffer-table entry (R336, R385). -/
structure Buffer where
  ctx : Nat
  va : Nat
  len : Nat
  double : Bool
  tiled : Bool
  pageable : Bool
  reassoc : Bool
  format : Nat
  tag : BitVec 4
  refs : Nat
  gen : BitVec 32
  /-- frames of the front and shadow backing, in page order; locations. -/
  front : List Nat
  shadowPages : List Nat
  tiles : FMap Tile
  live : Bool
  /-- R300, R363: reference count is zero and the free waits. -/
  freeing : Bool
  deriving DecidableEq, Repr

/-- A class section of a loaded object (R109). -/
structure Section where
  cls : Nat
  entry : Nat
  trap : Option Nat
  words : List Word
  deriving DecidableEq, Repr

/-- A specialisation slot (R110). -/
structure Slot where
  ty : Nat
  sect : Nat
  target : Nat
  value : Word
  deriving DecidableEq, Repr

/-- A launch-loop level (R109). -/
structure Level where
  trip : Nat
  kind : Nat
  tsrc : Nat
  slot : Nat
  deriving DecidableEq, Repr

/-- A loaded code object (R108-R111). -/
structure CodeObj where
  ctx : Nat
  sections : List Section
  slots : List Slot
  levels : List Level
  /-- R111: capability slot kinds: slot number and KIND 1 or 2. -/
  capKinds : List (Nat × Nat)
  /-- R186: buffer id of the tile table and its entry count. -/
  tileBuf : Nat
  tileCount : Nat
  /-- R111: buffer id of the data image, if any. -/
  dataBuf : Option Nat
  /-- R397: a node or prologue of the object has been placed or run. -/
  used : Bool
  /-- R399: the object has been freed while entries still name it; its handle is unknown. -/
  gone : Bool
  deriving DecidableEq, Repr

/-! ## Scheduler -/

/-- States of a dependency-table entry (R340). -/
inductive NodeState where
  | pending | prologue | runnable | running | retiring | faulted
  deriving DecidableEq, Repr

/-- A slot transfer along an edge (R330). -/
structure Xfer where
  succ : Nat
  mode : Nat
  src : Nat
  dst : Nat
  rmask : Nat
  deriving DecidableEq, Repr

/-- What PEND decided (R353). -/
inductive PendKind where
  | go | cancel | again (n : Nat)
  deriving DecidableEq, Repr

/-- The registers of a prologue core (R351, R352). -/
structure Prologue where
  /-- the scalar registers, loop registers, program counter and stacks, in the places a cell's C has them. -/
  core : Cell
  /-- R351: words executed in this run. -/
  count : Nat
  /-- R352: LTHN. -/
  lthn : Nat
  deriving DecidableEq, Repr

/-- A dependency-table entry (R340) with the node it stands for. -/
structure Node where
  st : NodeState
  kobj : Nat
  prolObj : Nat
  param : Word
  prio : Nat
  /-- R352: PRIO of the packet, which LPRIO takes at the start of a run. -/
  pktPrio : Nat
  /-- R343: preferred class code and the class now tried, 1-4. -/
  cls : Nat
  /-- R343: tick since which it has waited on that class; its shape failed on a class before. -/
  clsSince : Nat
  shapeFail : Bool
  /-- R333: the node record's trips, for levels of TSRC 2. -/
  trips2 : List Nat
  /-- R333: trips fixed at placement. -/
  trips : Option (List Nat)
  /-- R340: pending count. -/
  pendingCnt : Nat
  /-- R331: successor entries in edge order, with the transfers. -/
  succs : List Xfer
  /-- R196: the 16 capability slots. -/
  caps : FMap Cap
  /-- R339: capabilities that arrive at placement, by slot; R198 reservations. -/
  capsIn : FMap Cap
  reserved : List Nat
  /-- R349: its packet's queue and index, and its context. -/
  queue : Nat
  pkt : Nat
  ctx : Nat
  /-- R342: its place in the order of admission. -/
  order : Nat
  /-- R355: place of the event that took it to PROLOGUE or RETIRING among those of its queue. -/
  arrival : Nat
  /-- R342: tick at which it first became RUNNABLE, kept over discards and repeats. -/
  firstRunnable : Option Nat
  /-- R359: tick at which it last became RUNNABLE. -/
  runnableAt : Nat
  /-- R357: starvation count. -/
  starved : Nat
  /-- R357: tick at which it was placed. -/
  placedAt : Nat
  /-- R352: LCOUNT, runs so far. -/
  lcount : Nat
  /-- R353: repeat budget. -/
  budget : Option Nat
  /-- R353: what the last PEND decided. -/
  lastPend : PendKind
  /-- R352: LTRIP, LCAP. -/
  ltrip : List Nat
  lcap : FMap Cap
  /-- R354: start tick, 0 for none. -/
  start : Nat
  /-- R359: latency tolerance in ticks. -/
  lattol : Nat
  /-- R392: the node is being discarded or cancelled. -/
  discarding : Bool
  /-- R400: PREEMPT commands that wait for the node to halt. -/
  preempts : List Cmd
  /-- R353: a PEND CANCEL ended the node. -/
  cancelled : Bool
  /-- R394: restart records by 256 * flat D + flat C. -/
  records : FMap Record
  deriving DecidableEq, Repr

/-- A packet of a launch or other kind that is admitted and not complete (R349). -/
structure Open where
  queue : Nat
  idx : Nat
  ctx : Nat
  sigid : Nat
  sigval : Word
  notify : Bool
  /-- location of the STATUS byte; in host memory when `host`. -/
  statusAt : Word
  host : Bool
  /-- R349: nodes, or other work, not complete; 0 once the packet is complete. -/
  left : Nat
  /-- R410, R353: a node of it has faulted, or was cancelled. -/
  faulted : Bool
  cancelled : Bool
  deriving DecidableEq, Repr

/-- A host queue (R345). -/
structure Queue where
  base : Word
  ctx : Nat
  lattol : Nat
  log2 : Nat
  rev : Nat
  hostMem : Bool
  en : Bool
  wr : Nat
  rd : Nat
  st : Nat
  cause : BitVec 8
  fidx : Nat
  /-- R354: pending TIMED start tick. -/
  timed : Option Nat
  /-- R355: the doorbell event that is pending, by its place among the events of the queue; none. -/
  bell : Option Nat
  /-- R349: the WAIT that blocks the queue: signal, condition, value. -/
  wait : Option (Nat × Nat × Word)
  /-- R356: tick of the last admission. -/
  lastAdmit : Nat
  deriving DecidableEq, Repr

/-- An access of the host that a later one may not pass (R454): a write of 8 bytes of the host window, or an access to
the memory window. -/
inductive HostOp where
  | reg (off : Nat) (value : Word)
  | window (off len : Nat) (data : Option (List Byte))
  deriving DecidableEq, Repr

/-- A partition (R384). -/
structure Part where
  /-- R78, R79: the discovery version as the partition's cells saw it enumerated. -/
  ver : Nat
  stackMask : Nat
  dies : List Nat
  hbmFrames : Nat
  usedFrames : Nat
  respool : Nat
  activeCtx : Nat
  /-- R465: power state and awake clock per class 1-4. -/
  power : List (Nat × Nat)
  deriving DecidableEq, Repr

/-- A fault record (R412), as its bytes' fields. -/
structure FaultRec where
  tick : Nat
  cause : Cause
  chip : Nat
  cell : Nat
  node : Nat
  queue : Nat
  /-- R457: the packet's index, which the event carries. -/
  pkt : Nat
  /-- R412: context, flat C and D, and whether it was raised in a handler. -/
  ctx : Nat
  flatC : Nat
  flatD : Nat
  nested : Bool
  deriving DecidableEq, Repr

/-- A context (R385). -/
structure Ctx where
  part : Nat
  root : Nat
  aper : List Word
  watch : List WatchPt
  trctl : BitVec 2
  trbase : Word
  /-- R420: armed dump area: host address, length, PARTS. -/
  dump : Option (Nat × Nat × Nat)
  /-- R428: the context is TERMINATED. -/
  terminated : Bool
  /-- R412, R427: the records of context-class causes that a prologue or the GSD met, not yet acted on, oldest first. -/
  condemned : List FaultRec
  /-- R395: die-TLB entries saved while the context is SAVED, by die. -/
  savedTlb : List (Nat × FMap TlbEnt)
  deriving DecidableEq, Repr

/-- A fault request to the host (R391). -/
structure FaultReq where
  ctx : Nat
  page : Nat
  write : Bool
  cell : Nat
  eng : EngTag
  /-- the asynchronous command whose element waits; none for a word. -/
  job : Option Nat
  /-- the generic address of the access (R412). -/
  addr : Word
  /-- R391: the host has answered KILL. -/
  killed : Bool
  deriving DecidableEq, Repr

/-- A dump being written or queued (R423). -/
structure Dump where
  ctx : Nat
  records : List FaultRec
  cells : List Nat
  start : Nat
  deriving DecidableEq, Repr

/-- A check that an access to a queue's ring failed while no more FAULT events could be kept: its cause waits (R456). -/
structure LateFault where
  queue : Nat
  idx : Nat
  ctx : Nat
  addr : Word
  code : BitVec 8
  deriving DecidableEq, Repr

/-- An event for the host's event ring: its 128 bytes (R456). -/
abbrev EventBytes := List Byte

/-- A boot-journal entry (R460). -/
structure JEnt where
  boot : Nat
  step : Nat
  outcome : Nat
  obj : Nat
  tick : Nat
  seq : Nat
  deriving DecidableEq, Repr

/-- A boot in progress (R459): what the board and the links show it, whether the second firmware slot is being tried
(step 2), and how many objects step 4 has trained. -/
structure Boot where
  found : BootInputs
  second : Bool
  trained : Nat
  deriving DecidableEq, Repr

/-- The time-base anchor (R431) and source (R434). -/
structure TimeBase where
  ak : Nat
  ans : Nat
  afrac : Nat
  inc : Nat
  src : Nat
  link : Nat
  lock : Bool
  deriving DecidableEq, Repr

/-- Who executes the word that exec is given. -/
inductive Cur where
  /-- an engine of a cell -/
  | cell (key : Nat) (e : EngTag)
  /-- the firmware core that runs the prologue of a node (R351) -/
  | prologue (node : Nat)
  deriving DecidableEq, Repr

/-- A re-enumeration begun and not ended (R344, R447): its partition, the layer whose role changed with its old and new
role (none when the partition is new), the command that it completes, and that command's result. -/
structure Reenum where
  part : Nat
  change : Option (Nat × Nat × Nat)
  cmd : Cmd
  result : Nat
  deriving DecidableEq, Repr

/-- The package. -/
structure State where
  /-- R429: global tick, 64 bits. Reset 0. -/
  tick : Nat
  /-- the model's own: free values drawn so far. Reset 0 (DESIGN CHOICE). -/
  drawn : Nat
  /-- the model's own: the turns to come; when empty the next turn is a free value. Reset empty. -/
  agenda : List Turn
  /-- the model's own: the cell and engine, or the prologue core, whose word exec runs. -/
  cur : Cur
  /-- the model's own: the job or message whose access is being performed; none for a word of `cur`. -/
  actor : Option Waiter
  /-- R469: the number of the last shard placed. Reset 0. -/
  nextShard : Nat
  /-- R351: prologue cores at work, by node entry. Reset none. -/
  prols : FMap Prologue
  /-- R1, R3: cells that hold state, by chiplet * 32 + cell. Reset none. -/
  cells : FMap Cell
  /-- R77: dies by chiplet index. -/
  dies : FMap Die
  /-- R306, R388: bytes at their homes, by location. Reset 0 (R459). -/
  mem : Memory
  /-- R414: granule tags, by location / 64. Reset 0. -/
  tags : FMap (BitVec 4)
  /-- R416: last tag retired, by location / 16384. Reset 0. -/
  lastTag : FMap (BitVec 4)
  /-- R389: frames in use, by location / 16384, with the partition. -/
  frames : FMap Nat
  /-- R427: granules with an uncorrectable error. Reset none. -/
  bad : FMap Bool
  /-- memory of the host, which the device reads and writes. -/
  host : Memory
  /-- R336: buffers by id. -/
  buffers : FMap Buffer
  /-- R299: kept identities of silt appends, with the old value each returned. Reset none. -/
  kept : List (Ident × Word)
  /-- R300: kept identities of capability words, newest first. Reset none. -/
  keptCaps : List KeptCap
  /-- R200: frees that a CAPDROP without a kept identity causes, each with an identity of the region instance it waits for
  and the buffer. Reset none. -/
  heldFrees : List (Ident × Nat)
  /-- R448: pages that an evacuation mapped, by context and VA; they belong to no buffer. Reset none. -/
  loose : List (Nat × Nat)
  /-- R108: code objects by handle; handles are never reused. -/
  objects : FMap CodeObj
  /-- R108: the next handle. -/
  nextHandle : Nat
  /-- R340: dependency-table entries by number. -/
  nodes : FMap Node
  /-- R342, R356: order of admission of the next node. -/
  nextOrder : Nat
  /-- R355: number of the next event that takes a node to PROLOGUE or RETIRING. Reset 0. -/
  nextArrival : Nat
  /-- R345: host queues by number. -/
  queues : FMap Queue
  /-- R347: signals, 64 bits. Reset 0. -/
  signals : FMap Word
  /-- R356: tick of each signal's last change. -/
  sigTick : FMap Nat
  /-- R349, R410: packets admitted and not complete. Reset none. -/
  opens : List Open
  /-- R356: cycles already reported. -/
  reported : List (List Nat)
  /-- R384: partitions 1-8. -/
  parts : FMap Part
  /-- R358: FBWAIT and DLTIME of partition number 1-8, 32 bits. Reset 2^20 and 2^26. -/
  fbwaits : FMap Nat
  dltimes : FMap Nat
  /-- R385: contexts by id. -/
  ctxs : FMap Ctx
  /-- R344: discovery VERSION. Reset 0, 1 after boot. -/
  version : Nat
  /-- R344: while it is set, the table's UPDATING bit is set. Reset none. -/
  reenum : Option Reenum
  /-- R324: links that have failed, lower chiplet first. Reset none. -/
  deadLinks : List (Nat × Nat)
  /-- R391: requests outstanding. -/
  faults : List FaultReq
  /-- R423: dumps waiting or being written, in the order of their primary records. Reset none. -/
  dumps : List Dump
  /-- R424: DUMPLOST.NOAREA, 32 bits. Reset 0. -/
  noArea : Nat
  /-- R424: DUMPLOST.QFULL, 32 bits. Reset 0. -/
  qFull : Nat
  /-- R426: error counters per chiplet: CE, UE, KIND, PADDR. Reset 0. -/
  errs : FMap (Nat × Nat × Nat × Nat)
  /-- R431, R434: the time base. -/
  timeBase : TimeBase
  /-- R436: armed stop tick. Reset none. -/
  stopAt : Option Nat
  /-- R436: the package has stopped. Reset false. -/
  stopped : Bool
  /-- R453: READY, RECOV, FAIL, STEP, COOL. -/
  ready : Bool
  recov : Bool
  fail : Nat
  bootStep : Nat
  cool : Nat
  /-- R459: the boot in progress; none before power-good and after the last step. Reset none. -/
  booting : Option Boot
  /-- R451, R462: the package has power. -/
  powered : Bool
  /-- R453: HBMMAP and BAR2CTL. -/
  hbmmap : BitVec 12
  bar2ctx : Nat
  bar2tag : BitVec 4
  bar2va : Nat
  bar2err : Bool
  /-- R455: ring registers. Reset 0. -/
  mcBase : Word
  mcLog2 : Nat
  mcWr : Nat
  mcRd : Nat
  /-- R436, R468: values of MCWR whose commands have not all started, oldest first, each with the tick at which it was
  written. Reset none. -/
  mcBells : List (Nat × Nat)
  evBase : Word
  evLog2 : Nat
  evWr : Nat
  evRd : Nat
  evLost : Nat
  /-- R456: events kept while the ring is full. -/
  evKept : List EventBytes
  /-- R456: causes of queues that wait until their events can be posted, oldest first. Reset none. -/
  lateFaults : List LateFault
  /-- R427, R457: places of granules with bad check bits that a write-back met, not yet told to the host. Reset none. -/
  ueFound : List Nat
  /-- R459: MEAS0-MEAS7, 384 bits each. Reset 0. -/
  meas : List (BitVec 384)
  /-- R460: the non-volatile boot journal, newest first, at most 256. -/
  journal : List JEnt
  /-- R460: the store that the journal is kept in: of each entry of the ring, by SEQ modulo 256, the two 32-byte copies.
  Reset none. -/
  jstore : FMap (List Byte × List Byte)
  /-- R453, R460: boot count, 32 bits. -/
  boots : Nat
  /-- R463: SEQ of the newest entry at the last JOURNAL_CLEAR; 2^32, which no SEQ is, before the first one. -/
  journalClear : Nat
  /-- R463: the two firmware slots: image bytes. -/
  fwSlots : List (List Byte)
  /-- R459, R463: the active slot. -/
  fwActive : Nat
  /-- R463: the slot that becomes active at the next boot. -/
  fwNext : Nat
  /-- R427: after an error in state that contexts share, the GSD admits nothing until a reset. -/
  shut : Bool
  /-- R462: chiplet whose sensor tripped, kept over the loss of power. -/
  tripped : Option Nat
  /-- R468: the 64 KiB I3C buffer. Reset 0. -/
  i3c : Memory
  /-- R468: command entries from I3C that commands of the ring precede, oldest first, each with the MCWR value up to which
  those come first. Reset none. -/
  i3cWait : List (List Byte × Nat)
  /-- R454: the bytes that the last read through the memory window returned to the host. Reset none. -/
  bar2Data : List Byte
  /-- R454: an access to the memory window that a tile's move holds, and the host accesses that arrived after it, oldest
  first. Reset none. -/
  hostOps : List HostOp
  /-- R434: what TBAK, TBANS and TBINC show while firmware rewrites the anchor, UPD being set. Reset none. -/
  tbShown : Option TimeBase
  /-- R430: a context has been created, or the tick has been loaded, so that no lock of a link loads it. -/
  tickKept : Bool
  /-- R451: MSI-X vectors raised, newest first. -/
  msix : List Nat
  deriving DecidableEq, Repr

/-! ## Stops -/

/-- Why a step stops with a fault. The faults of the LK-8 itself are no stops: a cause is taken as R145 to R149
and R408 say, and the step answers a next state. -/
inductive Fault where
  /-- raised by every meaning of an instruction word when State.cur names no cell that runs a shard and no
  prologue core: no engine exists that could execute the word. Safe: `step` never calls a meaning so. -/
  | noExecutor
  deriving DecidableEq, Repr

/-- Why a step is refused. -/
inductive Refusal where
  /-- raised by an arm of `exec` for an instruction that has no meaning yet. Safe. -/
  | notModelled (mnemonic : String)
  deriving DecidableEq, Repr

/-! ## Reset -/

/-- The time base before any anchor is set (R434: AK, ANS, AFRAC 0, INC nominal, source free-running). -/
def TimeBase.reset : TimeBase := ⟨0, 0, 0, 0x1AAAAAAAB, 0, 0, false⟩

/-- The role of a chiplet before any partition exists (R344): ARITH for DMX dies, none for the others. -/
def Die.reset (chip : Nat) : Die :=
  { role := if 1 ≤ chip ∧ chip ≤ 32 then 0 else 2, part := 0, rdc := [], rdcHas := [], rdcTag := [],
    dcache := [], out := [], nextSeq := [], applied := [],
    tileCache := [], tlb := [], walkc := [], rows := [], frames := [], halved := 0 }

/-- A disabled queue (R345). -/
def Queue.reset : Queue :=
  { base := 0, ctx := 0, lattol := 0, log2 := 0, rev := 0, hostMem := false, en := false, wr := 0, rd := 0, st := 0,
    cause := 0, fidx := 0, timed := none, bell := none, wait := none, lastAdmit := 0 }

/-- The package at the first boot step, before power-good (R429, R451, R459): every register at its reset value,
memory listed nowhere, no cell holding a shard. -/
def State.reset : State where
  tick := 0
  drawn := 0
  agenda := []
  cur := .cell 0 .c
  actor := none
  nextShard := 0
  prols := []
  cells := []
  dies := (List.range 44).map fun i => (i, Die.reset i)
  mem := []
  tags := []
  lastTag := []
  frames := []
  bad := []
  host := []
  buffers := []
  kept := []
  keptCaps := []
  heldFrees := []
  loose := []
  objects := []
  nextHandle := 1
  nodes := []
  nextOrder := 0
  nextArrival := 0
  queues := []
  signals := []
  sigTick := []
  opens := []
  reported := []
  parts := []
  fbwaits := []
  dltimes := []
  ctxs := []
  version := 0
  reenum := none
  deadLinks := []
  faults := []
  dumps := []
  noArea := 0
  qFull := 0
  errs := []
  timeBase := TimeBase.reset
  stopAt := none
  stopped := false
  ready := false
  recov := false
  fail := 0
  bootStep := 0
  cool := 1
  booting := none
  powered := true
  hbmmap := 0
  bar2ctx := 0
  bar2tag := 0
  bar2va := 0
  bar2err := false
  mcBase := 0
  mcLog2 := 0
  mcWr := 0
  mcRd := 0
  mcBells := []
  evBase := 0
  evLog2 := 0
  evWr := 0
  evRd := 0
  evLost := 0
  evKept := []
  lateFaults := []
  ueFound := []
  meas := List.replicate 8 0
  journal := []
  jstore := []
  boots := 0
  journalClear := 2 ^ 32
  fwSlots := [[], []]
  fwActive := 0
  fwNext := 0
  shut := false
  tripped := none
  i3c := []
  i3cWait := []
  bar2Data := []
  hostOps := []
  tbShown := none
  tickKept := false
  msix := []

end Sys2Proof.Machine
end

