-- ==== Sys2Proof/Machine/Access.lean ====
section
/-! DEFINITION. Where things stand in the package and the plain reads and writes of its state: chiplets and
hops, cells and engines, code words, the parts of a stop. -/

namespace Sys2Proof.Machine

/-! ## Chiplets (R77, R470) -/

/-- The class of a chiplet of the LK-8 population (R77). -/
def chipClass (i : Nat) : DieClass :=
  if i = 0 then .gsd else if i ≤ 32 then .dmx else if i ≤ 34 then .vec else if i ≤ 36 then .spx
  else if i = 37 then .srt else .mem

/-- Cells on a die, by class (R1). -/
def classCells : DieClass → Nat
  | .dmx => 16 | .vec => 32 | .spx => 8 | .srt => 8 | _ => 0

/-- The number by which descriptors name a class (R109, R330). -/
def classNum : DieClass → Nat
  | .gsd => 0 | .dmx => 1 | .vec => 2 | .spx => 3 | .srt => 4 | .mem => 5

/-- The class a number names in a descriptor (R330). -/
def classOf (n : Nat) : Option DieClass :=
  match n with | 1 => some .dmx | 2 => some .vec | 3 => some .spx | 4 => some .srt | _ => none

/-- Whether a chiplet is a layer of a stack. -/
def isLayer (i : Nat) : Bool := 1 ≤ i && i ≤ 32
/-- The stack of a layer (R77). -/
def stackOf (i : Nat) : Nat := (i - 1) / 4
/-- The chiplet through which a chiplet reaches others (R470). -/
def bottomOf (i : Nat) : Nat := if isLayer i then 1 + 4 * stackOf i else i

/-- The UCIe links of the LK-8 population, each once (R470). -/
def ucieLinks : List (Nat × Nat) :=
  ([1, 2, 5, 6].map fun s => (0, 1 + 4 * s)) ++ [(0, 33), (0, 34), (0, 35), (0, 36), (0, 37), (0, 42), (0, 43)]
  ++ ([0, 1, 2, 4, 5, 6].map fun s => (1 + 4 * s, 1 + 4 * (s + 1)))
  ++ ([0, 1, 2, 3].map fun s => (1 + 4 * s, 1 + 4 * (s + 4)))
  ++ ([0, 1, 2, 3].map fun s => (1 + 4 * s, 38 + s))
  ++ ([0, 1, 2, 3].map fun s => (1 + 4 * (s + 4), 38 + s))
  ++ [(5, 42), (9, 42), (21, 43), (25, 43), (1, 33), (17, 34), (13, 35), (29, 36)]

/-- A die's state. -/
def State.die (s : State) (i : Nat) : Die := FMap.get s.dies i (Die.reset i)
/-- A die's state replaced. -/
def State.setDie (s : State) (i : Nat) (d : Die) : State := { s with dies := FMap.put s.dies i d }

/-- A chiplet is in the package and not mapped out (R344). -/
def State.present (s : State) (i : Nat) : Bool :=
  i < 44 && (s.die i).role != 3 && (!isLayer i || (s.die (bottomOf i)).role != 3)

/-- The chiplets one link away from those of a list, themselves included, over the links given. -/
def linkStep (links : List (Nat × Nat)) (from_ : List Nat) : List Nat :=
  (List.range 44).filter fun i => from_.contains i
    || links.any fun l => (l.1 == i && from_.contains l.2) || (l.2 == i && from_.contains l.1)

/-- Links between `from_` and a chiplet, at most `n`; 0xFF when no path reaches it. -/
def hopsFrom (links : List (Nat × Nat)) : Nat → Nat → List Nat → Nat → Nat
  | 0, _, _, _ => 0xFF
  | n + 1, d, from_, b => if from_.contains b then d else hopsFrom links n (d + 1) (linkStep links from_) b

/-- The links whose two ends are present (R470). -/
def State.links (s : State) : List (Nat × Nat) :=
  ucieLinks.filter fun l => s.present l.1 && s.present l.2

/-- The hop distance between two chiplets (R470). -/
def State.hops (s : State) (a b : Nat) : Nat :=
  if a = b then 0
  else if !(s.present a && s.present b) then 0xFF
  else if bottomOf a = bottomOf b then 0
  else hopsFrom s.links 44 0 [bottomOf a] (bottomOf b)

/-- Whether a path of links that have not failed joins two chiplets (R324). -/
def State.pathTo (s : State) (a b : Nat) : Bool :=
  bottomOf a == bottomOf b
    || hopsFrom (s.links.filter fun l => !(s.deadLinks.contains l || s.deadLinks.contains (l.2, l.1))) 44 0
        [bottomOf a] (bottomOf b) != 0xFF

/-! ## Cells and engines -/

/-- An engine before any word: its reset state. -/
def Eng.fresh : Eng :=
  { pc := 0, pos := 0, tok := [], cq := [], bq := [], rstack := [], lstack := [], done := false, held := none,
    reason := 0, issued := false, waitVal := none, ordinal := 0, wps := [] }

/-- An empty restart record. -/
def Record.fresh : Record :=
  { rpc := 0, pos := 0, written := false, obj := 0, shcoord := 0, rinst := 0, barDie := 0, barNode := 0, fpstat := 0, mstat := 0, win := 256,
    padval := 0, ordwatch := false, x := [], a := [], lc := [] }

/-- A cell without a shard. -/
def Cell.fresh : Cell :=
  { serial := 0, phase := .idle, node := 0, flatC := 0, flatD := 0, engC := Eng.fresh, engA := Eng.fresh, engX := Eng.fresh,
    engM := Eng.fresh, engW := Eng.fresh, engK := Eng.fresh, x := [], a := [], lc := [], xVer := [], lcVer := [],
    path := [], pathBase := 0, bqHeld := [], haltPc := none, v := [], k := [], stageOpen := false, acc := [], void := [], zeroed := 0, qx := [], qc := [],
    qa := [], fpstat := 0, mstat := 0, nowFp := 0, nowM := 0, nowTok := [], shv := false, shcoord := 0, winslip := 256, ordwatch := false,
    ordActive := false, ordLog := [], padval := 0, vrotOff := 0, vrotSize := 0, vrotBase := 0, vrotPend := [], pstg := 0, pnc := 0, pslane := 0,
    epc := 0, ecause := 0, eaddr := 0, tvec := 0, scopetab := 0, scopem := [], watch := [], trctl := 0, trbase := 0,
    sttile := 0, trdrop := 0, spad := [], fe := [], rings := [], bankHeld := [], shadow := Nest.zero,
    active := Nest.zero, timetable := [], mx := [], sm := [], jobs := [], nextJob := 0, peerIn := [], rounds := [],
    l1 := [], l1Tag := [], oldView := [], rejects := [], icache := [], tlb := [], handler := none, fatals := [], pendTrap := none, reads := [], record := Record.fresh,
    restarting := false, rinst := 0, barDie := 0, barNode := 0, clearEnd := 0, startTick := 0, stalledSince := none,
    pollSince := 0, stampT0 := none, reachM := 0, cqTicks := [], stamps := [] }

/-- An engine of a cell. -/
def Cell.eng (c : Cell) : EngTag → Eng
  | .c => c.engC | .a => c.engA | .x => c.engX | .m => c.engM | .w => c.engW | .k => c.engK

/-- An engine of a cell replaced. -/
def Cell.setEng (c : Cell) (e : EngTag) (g : Eng) : Cell :=
  match e with
  | .c => { c with engC := g } | .a => { c with engA := g } | .x => { c with engX := g }
  | .m => { c with engM := g } | .w => { c with engW := g } | .k => { c with engK := g }

/-- Flags raised in FPSTAT, and in MSTAT (R25). -/
def Cell.raiseFp (c : Cell) (fl : BitVec 6) : Cell := { c with fpstat := c.fpstat ||| fl, nowFp := c.nowFp ||| fl }
def Cell.raiseM (c : Cell) (fl : BitVec 3) : Cell := { c with mstat := c.mstat ||| fl, nowM := c.nowM ||| fl }
/-- A tick has passed: no flag is raised and no push accepted at the present one. -/
def Cell.newTick (c : Cell) : Cell := { c with nowFp := 0, nowM := 0, nowTok := [] }

/-- The state of a cell by key; a cell that is not listed holds no shard. -/
def State.cell (s : State) (key : Nat) : Cell := FMap.get s.cells key Cell.fresh
/-- A cell replaced. -/
def State.setCell (s : State) (key : Nat) (c : Cell) : State := { s with cells := FMap.put s.cells key c }
/-- The key of a cell of a chiplet. -/
def cellKey (chip cell : Nat) : Nat := chip * 32 + cell
/-- The chiplet of a cell's key. -/
def keyChip (key : Nat) : Nat := key / 32
/-- The number of a cell on its chiplet. -/
def keyCell (key : Nat) : Nat := key % 32

/-- The core whose word exec runs: a cell, or the firmware core of a prologue. -/
def State.core (s : State) : Cell :=
  match s.cur with
  | .cell key _ => s.cell key
  | .prologue n => match FMap.find? s.prols n with | some p => p.core | none => Cell.fresh

/-- That core replaced. -/
def State.setCore (s : State) (c : Cell) : State :=
  match s.cur with
  | .cell key _ => s.setCell key c
  | .prologue n => { s with prols := FMap.modify s.prols n fun p => { p with core := c } }

/-- The engine that executes; a prologue core stands for C. -/
def State.curEng (s : State) : EngTag :=
  match s.cur with | .cell _ e => e | .prologue _ => .c

/-- The key of the executing cell. -/
def State.curKey (s : State) : Nat :=
  match s.cur with | .cell key _ => key | .prologue _ => 0

/-- The class of the die of the executing cell. -/
def State.curClass (s : State) : DieClass :=
  match s.cur with | .cell key _ => chipClass (keyChip key) | .prologue _ => .dmx

/-- The node of a cell or of a prologue core. -/
def State.curNode (s : State) : Nat :=
  match s.cur with | .cell key _ => (s.cell key).node | .prologue n => n

/-- A dependency-table entry. -/
def State.node? (s : State) (n : Nat) : Option Node := FMap.find? s.nodes n
/-- An entry changed. -/
def State.modNode (s : State) (n : Nat) (f : Node → Node) : State := { s with nodes := FMap.modify s.nodes n f }
/-- The context of a node; 0 names none. -/
def State.nodeCtx (s : State) (n : Nat) : Nat := match s.node? n with | some d => d.ctx | none => 0
/-- A context. -/
def State.ctx? (s : State) (c : Nat) : Option Ctx := FMap.find? s.ctxs c
/-- The partition of a context; 0 names none. -/
def State.ctxPart (s : State) (c : Nat) : Nat := match s.ctx? c with | some x => x.part | none => 0
/-- A partition. -/
def State.part? (s : State) (p : Nat) : Option Part := FMap.find? s.parts p

/-- The next free value (R471): drawn once, then never again. -/
def State.draw (s : State) : Nat × State := (Config.pick s.drawn, { s with drawn := s.drawn + 1 })

/-- Cells that run a node, with their keys; a cell held for a dump runs none. -/
def State.nodeCells (s : State) (n : Nat) : List (Nat × Cell) :=
  s.cells.filter fun e => e.2.node == n && e.2.phase != .idle && e.2.phase != .stopped

/-! ## Code (R80 to R83, R109) -/

/-- The class section of an object (R109). -/
def CodeObj.section? (o : CodeObj) (cls : DieClass) : Option Section :=
  o.sections.find? fun x => x.cls == classNum cls

/-- The section a cell's shard runs. -/
def State.sectionOf (s : State) (key : Nat) (c : Cell) : Option Section :=
  match s.node? c.node with
  | some n =>
    match FMap.find? s.objects n.kobj with
    | some o => if o.gone then none else o.section? (chipClass (keyChip key))
    | none => none
  | none => none

/-- The section a prologue core runs: the first of the prologue object (R351). -/
def State.prolSection (s : State) (node : Nat) : Option Section :=
  match s.node? node with
  | some n => match FMap.find? s.objects n.prolObj with | some o => if o.gone then none else o.sections.head? | none => none
  | none => none

/-- The section of the executing core. -/
def State.curSection (s : State) : Option Section :=
  match s.cur with | .cell key _ => s.sectionOf key (s.cell key) | .prologue n => s.prolSection n

/-- The word at a word index, as a cell's fetch sees it: the instruction cache, else the section (R139). -/
def Cell.wordAt (c : Cell) (code : List Word) (i : Nat) : Option Word :=
  if i < code.length then
    match FMap.find? c.icache i with
    | some w => some w
    | none => code[i]?
  else none

/-- The instruction at a word index, if it decodes. -/
def Cell.instrAt (c : Cell) (cls : DieClass) (code : List Word) (i : Nat) : Option Instr :=
  match c.wordAt code i with
  | some w => match decode cls w (c.wordAt code (i + 1)) with | .ok n => some n | .error _ => none
  | none => none

/-! ## Why a word does not retire -/

/-- What a cause carries besides its code (R71, R412). -/
structure Raise where
  code : BitVec 8
  addr : Word := 0
  view : Nat := 3
  row : Nat := 0
  elem : Nat := 0
  celem : Option Nat := none
  tags : Option (BitVec 4 × BitVec 4) := none
  aux : Word := 0
  pc2 : Option (Nat × EngTag) := none

/-- Why the body of a word did not finish. -/
inductive Stop where
  /-- the word has not issued: reason code of R304 -/
  | block (reason : Nat)
  /-- the word has issued, with the effects in the state, and waits -/
  | wait (s : State) (reason : Nat)
  /-- a page that takes the host path (R391): context, page, kind -/
  | page (ctx page : Nat) (write : Bool) (addr : Word)
  /-- a residency tile whose fetch an access starts (`fetch`), or whose move it waits for, and who makes that access: for
  a word that performs messages first, the message (R363, R364) -/
  | tile (buf tile : Nat) (who : Waiter) (fetch : Bool)
  /-- an access that stands at the bank of another cell while that scratchpad is cleared (R469) -/
  | bank (cell : Nat)
  /-- a cause, and the state with what the word may already have done, if anything -/
  | cause (r : Raise) (after : Option State)

/-- The result of a body, or the reason it stopped. -/
abbrev M (α : Type) := Except Stop α

/-- A cause with a code alone. -/
def raise {α : Type} (code : BitVec 8) : M α := .error (.cause { code := code } none)
/-- A cause that involves an address. -/
def raiseAt {α : Type} (code : BitVec 8) (addr : Word) : M α := .error (.cause { code := code, addr := addr } none)
/-- The word cannot issue yet. -/
def blocked {α : Type} (reason : Nat) : M α := .error (.block reason)

/-- Where an engine goes after a word. -/
inductive Next where
  /-- the word after it, with the loop-end test -/
  | seq
  /-- a target, with the loop-end test (R128) -/
  | goto (pc : Nat)
  /-- a target without the loop-end test (R129) -/
  | jump (pc : Nat)
  /-- the program counters are already set (ERET) -/
  | stay
  deriving DecidableEq, Repr

end Sys2Proof.Machine
end

