-- ==== Sys2Proof/Machine/Operands.lean ====
section
/-! DEFINITION. Operand forms (R48 to R59, R94, R95): registers in program order across engines, queues, literals,
vector registers and masks. -/

namespace Sys2Proof.Machine

/-! ## Registers in program order (R50) -/

/-- The engines of a class that have not executed END. -/
def Cell.live (c : Cell) (cls : DieClass) : List EngTag := cls.engines.filter fun e => !(c.eng e).done

/-- The least position among the live engines of a class; 0 when there is none (R287). -/
def Cell.minPos (c : Cell) (cls : DieClass) : Nat :=
  match c.live cls with
  | [] => 0
  | e :: es => es.foldl (fun m x => min m (c.eng x).pos) (c.eng e).pos

/-- The x register a C word writes (R48); x0 is no register. -/
def Instr.writesX (i : Instr) : Option Nat :=
  match i.form, i.body with
  | some f, .rrr r => if r.hdr.eng = 0 ∧ (f.D = .sdst ∨ f.D = .sreg) ∧ r.d.toNat < 64 ∧ r.d ≠ 0 then some r.d.toNat else none
  | some f, .ri r => if r.hdr.eng = 0 ∧ (f.D = .sdst ∨ f.D = .sreg) ∧ r.d.toNat < 64 ∧ r.d ≠ 0 then some r.d.toNat else none
  | _, _ => none

/-- The loop register that a word of an engine tag writes (R122). -/
def Instr.writesLc (i : Instr) (tag : Nat) : Option Nat :=
  match i with
  | .lcset f => if f.hdr.eng.toNat = tag then some f.d.toNat else none
  | _ => none

/-- The PC of the word at a position of the dynamic word sequence, where it is known. -/
def Cell.pcAt (c : Cell) (pos : Nat) : Option Nat := if c.pathBase ≤ pos then c.path[pos - c.pathBase]? else none

/-- Whether some word at positions lo to hi - 1 satisfies a test. -/
def Cell.anyWord (c : Cell) (cls : DieClass) (code : List Word) (lo hi : Nat) (p : Instr → Bool) : Bool :=
  (List.range (hi - lo)).any fun d =>
    match c.pcAt (lo + d) with
    | some pc => match c.instrAt cls code (pc / 8) with | some i => p i | none => false
    | none => false

/-! ## Outcome queues (R125) -/

/-- A word whose entry goes to the bqs, and its producer: 0 for C, 1 for A. -/
def Instr.produces (i : Instr) : Option Nat :=
  let by_ := fun (f : Br) => if f.prod then 1 else 0
  match i with
  | .br f => if f.cond = 0 then none else some (by_ f)
  | .break_ f => if f.cond = 0 then none else some (by_ f)
  | .jmpi f => some (by_ f)
  | .calli f => some (by_ f)
  | .out _ => some 0
  | _ => none

/-- A producing word before a position has still to push its entry. -/
def Cell.bqEarly (c : Cell) (cls : DieClass) (code : List Word) (pos : Nat) : Bool :=
  [EngTag.c, EngTag.a].any fun e => !(c.eng e).done
    && c.anyWord cls code (c.eng e).pos pos (fun i => Instr.produces i == some e.num)

/-- The engines that take an entry: of an OUT every one, of another word every one but its producer; those at END take
none. -/
def Cell.bqTakers (c : Cell) (cls : DieClass) (p : EngTag) (x : BqEnt) : List EngTag :=
  (c.live cls).filter fun e => e != p || x.kind == .out

/-- Every bq of an entry has room. -/
def Cell.bqRoom (c : Cell) (cls : DieClass) (p : EngTag) (x : BqEnt) : Bool :=
  (c.bqTakers cls p x).all fun e => decide ((c.eng e).bq.length < 64)

/-- An entry at the end of every bq that takes it. -/
def Cell.bqPut (c : Cell) (cls : DieClass) (p : EngTag) (x : BqEnt) : Cell :=
  (c.bqTakers cls p x).foldl (fun (c : Cell) e => c.setEng e { c.eng e with bq := (c.eng e).bq ++ [x] }) c

/-- An entry among those held back, in program order. -/
def insertHeld (x : EngTag × BqEnt) : List (EngTag × BqEnt) → List (EngTag × BqEnt)
  | [] => [x]
  | y :: ys => if x.2.pos < y.2.pos then x :: y :: ys else y :: insertHeld x ys

/-- Entries held back enter the bqs, as long as no earlier producing word has still to push and every bq has room. -/
def Cell.bqEnter (cls : DieClass) (code : List Word) : List (EngTag × BqEnt) → Cell → Cell
  | [], c => c
  | y :: ys, c =>
    if c.bqEarly cls code y.2.pos || !c.bqRoom cls y.1 y.2 then c
    else Cell.bqEnter cls code ys { c.bqPut cls y.1 y.2 with bqHeld := ys }

/-- The code words of the executing core. -/
def State.curCode (s : State) : List Word := match s.curSection with | some x => x.words | none => []

/-- The value of x*n* that a reader at a position receives: the version not yet superseded before it. -/
def Cell.xAt (c : Cell) (n pos : Nat) : Word :=
  match (c.xVer.filter fun v => v.reg == n && decide (pos ≤ v.pos)).getLast? with
  | some v => v.value
  | none => FMap.get c.x n 0

/-- A read of x*n* by the executing engine (R49, R50). -/
def State.readX (s : State) (n : Nat) : M Word :=
  let c := s.core
  if n = 0 then .ok 0
  else match s.curEng with
    | .c => .ok (FMap.get c.x n 0)
    | e =>
      let pos := (c.eng e).pos
      if !c.engC.done && c.anyWord s.curClass s.curCode c.engC.pos pos (fun i => Instr.writesX i == some n)
      then blocked 8 else .ok (c.xAt n pos)

/-- Whether an engine other than A still reads words at or before a position. -/
def Cell.xNeeded (c : Cell) (cls : DieClass) (pos : Nat) : Bool :=
  (c.live cls).any fun e => e != .c && e != .a && decide ((c.eng e).pos ≤ pos)

/-- A write of x*n* by C (R49, R50, R406). -/
def State.writeX (s : State) (n : Nat) (w : Word) : M State :=
  let c := s.core
  let cls := s.curClass
  if n = 0 then .ok s
  else if c.handler.isSome then
    .ok (s.setCore { c with x := FMap.set c.x n w 0, xVer := c.xVer.filter fun v => v.reg != n })
  else
    let kept := c.xVer.filter fun v => c.xNeeded cls v.pos
    let needed := c.xNeeded cls c.engC.pos
    if needed && decide (3 ≤ (kept.filter fun v => v.reg == n).length) then blocked 8
    else
      let xv := if needed then ⟨n, c.engC.pos, FMap.get c.x n 0⟩ :: kept else kept
      .ok (s.setCore { c with x := FMap.set c.x n w 0, xVer := xv })

/-- The value of lc*n* at a position: the latest write before it. -/
def Cell.lcAt (c : Cell) (n pos : Nat) : Word :=
  match c.lcVer.find? fun v => v.reg == n && decide (v.pos < pos) with
  | some v => v.value
  | none => FMap.get c.lc n 0

/-- A read of lc*n* by the executing engine (R50, R57). -/
def State.readLc (s : State) (n : Nat) : M Nat :=
  let c := s.core
  let e := s.curEng
  let pos := (c.eng e).pos
  let late := fun (w : EngTag) => w != e && !(c.eng w).done
    && c.anyWord s.curClass s.curCode (c.eng w).pos pos (fun i => Instr.writesLc i w.num == some n)
  if late .c || late .a then blocked 8 else .ok (c.lcAt n pos).toNat

/-- Writes of loop registers that every live engine has passed move into the register file. -/
def Cell.settleLc (c : Cell) (cls : DieClass) : Cell :=
  let m := c.minPos cls
  let old := c.lcVer.filter fun v => decide (v.pos < m)
  { c with
    lc := old.reverse.foldl (fun l v => FMap.set l v.reg v.value 0) c.lc
    lcVer := c.lcVer.filter fun v => decide (m ≤ v.pos) }

/-- A list of versions, latest position first, with one more. -/
def insertVer (v : RegVer) : List RegVer → List RegVer
  | [] => [v]
  | u :: us => if u.pos ≤ v.pos then v :: u :: us else u :: insertVer v us

/-- A write of lc*n* by C or A (R50, R122, R406). -/
def State.writeLc (s : State) (n : Nat) (w : Word) : M State :=
  let c := s.core
  if c.handler.isSome then
    .ok (s.setCore { c with lc := FMap.set c.lc n w 0, lcVer := c.lcVer.filter fun v => v.reg != n })
  else
    let c := c.settleLc s.curClass
    if 3 ≤ (c.lcVer.filter fun v => v.reg == n).length then blocked 8
    else .ok (s.setCore { c with lcVer := insertVer ⟨n, (c.eng s.curEng).pos, w⟩ c.lcVer })

/-! ## Queues (R59, R94) -/

/-- A pop of the executing engine's inbound queue: qc for C, qa for A, qx for X. -/
def State.popQ (s : State) : M (Word × State) :=
  let c := s.core
  match s.curEng with
  | .c => match c.qc with | w :: q => .ok (w, s.setCore { c with qc := q }) | [] => blocked 2
  | .a => match c.qa with | w :: q => .ok (w, s.setCore { c with qa := q }) | [] => blocked 2
  | .x => match c.qx with | w :: q => .ok (w, s.setCore { c with qx := q }) | [] => blocked 2
  | _ => raise 0x05

/-- A push to qx, qc or qa, named by the engine that pops it. A push to an engine that has executed END is
discarded (R132). -/
def State.pushQ (s : State) (dest : EngTag) (w : Word) : M State :=
  let c := s.core
  if (c.eng dest).done then .ok s
  else match dest with
    | .c => if c.qc.length < 32 then .ok (s.setCore { c with qc := c.qc ++ [w] }) else blocked 3
    | .a => if c.qa.length < 32 then .ok (s.setCore { c with qa := c.qa ++ [w] }) else blocked 3
    | .x => if c.qx.length < 64 then .ok (s.setCore { c with qx := c.qx ++ [w] }) else blocked 3
    | _ => raise 0x05

/-! ## Scalar operands (R94, R95) -/

/-- An f32 bit pattern widened to f64, exactly (R95). -/
def widenF32 (b : Nat) : Nat :=
  match f32.decode b with
  | .nan _ => (if b.testBit 31 then 2 ^ 63 else 0) + 0x7FF * 2 ^ 52 + (b % 2 ^ 23) * 2 ^ 29
  | v => (f64.roundVal 0 v).1

/-- The value of the literal, by TYPE code (R95); 0 is the rule of forms without a type. DESIGN CHOICE: R95 has no row for
TYPE 12 (.b128), for which the literal is zero-extended (log entry 123). -/
def litVal (ty : Nat) (w1 : Option W1) : Word :=
  match w1 with
  | none => 0
  | some w =>
    let l := w.lit
    if ty = 0 ∨ ty = 2 ∨ ty = 4 ∨ ty = 6 then l.signExtend 64
    else if ty = 8 then BitVec.ofNat 64 (widenF32 l.toNat)
    else if ty = 10 ∨ ty = 11 then (l.extractLsb' 0 16).setWidth 64
    else l.setWidth 64

/-- The register a scalar code names for the executing engine. -/
def State.readReg (s : State) (n : Nat) : M Word :=
  match s.curEng with
  | .a => .ok (if n = 0 then 0 else FMap.get s.core.a n 0)
  | _ => s.readX n

/-- A write of the register a scalar code names for the executing engine. -/
def State.writeReg (s : State) (n : Nat) (w : Word) : M State :=
  match s.curEng with
  | .a => let c := s.core; .ok (if n = 0 then s else s.setCore { c with a := FMap.set c.a n w 0 })
  | _ => s.writeX n w

/-- A scalar source field (R94). -/
def State.src (s : State) (code : BitVec 8) (lit : Word) : M (Word × State) :=
  if code = 0xFF then .ok (lit, s)
  else if code = 0xFE then (match s.cur with | .prologue _ => raise 0x05 | .cell _ _ => s.popQ)
  else if code.toNat < 64 then do .ok (← s.readReg code.toNat, s)
  else raise 0x05

/-- A scalar destination field (R94). -/
def State.dst (s : State) (code : BitVec 8) (w : Word) : M State :=
  if code.toNat < 64 then s.writeReg code.toNat w
  else match s.cur with
    | .prologue _ => raise 0x05
    | .cell _ _ =>
      if code = 0xFE then (match s.curEng with | .c => s.pushQ .a w | .a => s.pushQ .x w | _ => raise 0x05)
      else if code = 0xFF then (match s.curEng with | .a => s.pushQ .c w | _ => raise 0x05)
      else raise 0x05

/-- A pair destination (R156): even register and its successor, or two queue entries, the low half first. -/
def State.dstPair (s : State) (code : BitVec 8) (lo hi : Word) : M State := do
  if code.toNat < 64 then (← s.writeReg code.toNat lo).writeReg (code.toNat + 1) hi
  else (← s.dst code lo).dst code hi

/-- A data source of a store (R157): a register, a pop, or the literal; both halves of a `.b128`. -/
def State.dataSrc (s : State) (code : BitVec 8) (lit : Word) (pair : Bool) : M (Word × Word × State) := do
  let (lo, s) ← s.src code lit
  if !pair then .ok (lo, 0, s)
  else if code = 0xFE then do
    let (hi, s) ← s.src code lit
    .ok (lo, hi, s)
  else .ok (lo, ← s.readReg (code.toNat + 1), s)

/-! ## Vector registers (R51 to R53) -/

/-- The physical register an X code names (R53). -/
def Cell.vphys (c : Cell) (n : Nat) : Nat :=
  if c.vrotSize ≠ 0 ∧ c.vrotBase ≤ n ∧ n < c.vrotBase + c.vrotSize then
    c.vrotBase + (n - c.vrotBase + c.vrotSize - c.vrotOff % c.vrotSize) % c.vrotSize
  else n

/-- The 1,024 lanes of a physical register. -/
def Cell.vlanes (c : Cell) (q : Nat) : List (BitVec 32) := FMap.getRange c.v (1024 * q) 1024 0

/-- A physical register written whole. -/
def Cell.setVlanes (c : Cell) (q : Nat) (ls : List (BitVec 32)) : Cell :=
  { c with v := FMap.setRange c.v (1024 * q) (ls.take 1024) 0 }

/-- Pairs of lanes as 64-bit elements, the low half in the even column (R51). -/
def pairLanes : List (BitVec 32) → List Nat
  | a :: b :: ls => (a.toNat + b.toNat * 2 ^ 32) :: pairLanes ls
  | [a] => [a.toNat]
  | [] => []

/-- The elements of lanes in the view of an element width (R51). -/
def elemsOf (w : Nat) (ls : List (BitVec 32)) : List Nat :=
  if w = 64 then pairLanes ls
  else if w = 32 then ls.map BitVec.toNat
  else ls.flatMap fun l => [l.toNat % 65536, l.toNat / 65536]

/-- 16-bit elements as lanes. -/
def joinHalves : List Nat → List (BitVec 32)
  | a :: b :: es => BitVec.ofNat 32 (a % 65536 + (b % 65536) * 65536) :: joinHalves es
  | [a] => [BitVec.ofNat 32 (a % 65536)]
  | [] => []

/-- The lanes of elements in the view of an element width. -/
def lanesOf (w : Nat) (es : List Nat) : List (BitVec 32) :=
  if w = 64 then es.flatMap fun e => [BitVec.ofNat 32 e, BitVec.ofNat 32 (e / 2 ^ 32)]
  else if w = 32 then es.map (BitVec.ofNat 32)
  else joinHalves es

/-- Elements of a register in the view of an element width: 512, 1,024 or 2,048. -/
def elemCount (w : Nat) : Nat := 32768 / w

/-- Elements in a row of a view. -/
def rowElems (w : Nat) : Nat := 2048 / w

/-- The code of a view, as ECAUSE names it (R71): 0 for 32 bits, 1 for 16, 2 for 64. -/
def viewCode (w : Nat) : Nat := if w = 64 then 2 else if w = 16 then 1 else 0

/-- The elements of a physical register. -/
def Cell.velems (c : Cell) (w q : Nat) : List Nat := elemsOf w (c.vlanes q)

/-- A vector source field (R52): a register, an entry of qx or the literal broadcast. -/
def State.vsrc (s : State) (code : BitVec 8) (w : Nat) (lit : Word) : M (List Nat × State) :=
  if code = 0xFF then .ok (List.replicate (elemCount w) (lit.toNat % 2 ^ w), s)
  else if code = 0xFE then do
    let (x, s) ← s.popQ
    .ok (List.replicate (elemCount w) (x.toNat % 2 ^ w), s)
  else .ok (s.core.velems w (s.core.vphys code.toNat), s)

/-! ## Masks (R54) -/

/-- A mask register as it reads: k0 is all ones. -/
def Cell.kreg (c : Cell) (n : Nat) : BitVec 2048 := if n = 0 then BitVec.allOnes 2048 else FMap.get c.k n 0

/-- A mask register written; a write of k0 is discarded. -/
def Cell.setK (c : Cell) (n : Nat) (b : BitVec 2048) : Cell :=
  if n = 0 then c else { c with k := FMap.set c.k n b 0 }

/-- The mask bit of each element of a view (R54). -/
def maskBits (w : Nat) (k : BitVec 2048) : List Bool :=
  (List.range (elemCount w)).map fun i => k.getLsbD (i * (w / 16))

/-- A mask from the bits of the elements of a view: every bit an element covers takes its value. -/
def maskOf (w : Nat) (bs : List Bool) : BitVec 2048 :=
  BitVec.ofNat 2048 ((bs.foldr (fun b (acc : Nat) => acc * 2 ^ (w / 16) + (if b then 2 ^ (w / 16) - 1 else 0)) 0))

/-- New elements where the mask is set, old elements elsewhere. -/
def selectMask : List Bool → List Nat → List Nat → List Nat
  | m :: ms, n :: ns, o :: os => (if m then n else o) :: selectMask ms ns os
  | _, _, os => os

/-- A vector result under a mask into the register an X code names (R52, R54). -/
def Cell.writeV (c : Cell) (code : BitVec 8) (w mask : Nat) (es : List Nat) : Cell :=
  let q := c.vphys code.toNat
  c.setVlanes q (lanesOf w (selectMask (maskBits w (c.kreg mask)) es (c.velems w q)))

/-- A mask result of the active lanes into a mask register (R54); other bits keep their values. -/
def Cell.writeKmask (c : Cell) (n w mask : Nat) (bs : List Bool) : Cell :=
  let act := maskOf w (maskBits w (c.kreg mask))
  c.setK n ((maskOf w bs &&& act) ||| (c.kreg n &&& ~~~act))

end Sys2Proof.Machine
end

