-- ==== Sys2Proof/Machine/Hier.lean ====
section
/-! DEFINITION. The memory hierarchy (R306 to R324): homes, messages, the L1 and the remote-data cache, residency
tiles and silt logs (R360 to R377), row lines (R378 to R381). A location is a Nat: below 2^40 a byte of HBM, from
2^40 on tarn bytes by layer, from 2^41 on SPX tile frames, from 2^80 on bytes of DOUBLE buffers, which the home
resolves to front or shadow (R323). -/

namespace Sys2Proof.Machine

/-! ## Locations -/

/-- The location of a tarn byte of a layer. -/
def tarnLoc (chip off : Nat) : Nat := 2 ^ 40 + chip * 2 ^ 28 + off
/-- The location of a byte of an SPX tile frame region. -/
def spxLoc (chip off : Nat) : Nat := 2 ^ 41 + chip * 2 ^ 28 + off
/-- The location of a byte of a DOUBLE buffer. -/
def dblLoc (id : Nat) (shadow : Bool) (off : Nat) : Nat :=
  2 ^ 80 + id * 2 ^ 50 + (if shadow then 2 ^ 49 else 0) + off
/-- The destination of a message to a cell's scratchpad. -/
def cellDest (key : Nat) : Nat := 2 ^ 60 + key
/-- Bytes of tarn in a layer (R8). -/
def tarnBytes : Nat := 192 * 2 ^ 20
/-- Bytes of a scratchpad (R7). -/
def spadBytes : Nat := 8 * 2 ^ 20
/-- The base of a line or granule (R306). -/
def lineOf (loc : Nat) : Nat := loc / 64 * 64

/-- Whether a location is a byte of a DOUBLE buffer. -/
def isDbl (loc : Nat) : Bool := 2 ^ 80 ≤ loc

/-- A buffer by id. -/
def State.buf? (s : State) (id : Nat) : Option Buffer := FMap.find? s.buffers id

/-- The byte a DOUBLE-buffer location names when the home performs the access (R180, R323). -/
def State.dblPlace (s : State) (loc : Nat) : Nat :=
  let r := loc - 2 ^ 80
  let off := r % 2 ^ 49
  match s.buf? (r / 2 ^ 50) with
  | some b =>
    let pages := if r % 2 ^ 50 / 2 ^ 49 = 1 then b.shadowPages else b.front
    nthD pages (off / 16384) 0 + off % 16384
  | none => off

/-- The residency tile of an HBM location: buffer id, tile and offset in the tile (R360). -/
def State.tileOf (s : State) (loc : Nat) : Option (Nat × Nat × Nat) :=
  if 2 ^ 40 ≤ loc then none
  else
    (s.buffers.filter fun e => e.2.tiled && e.2.live).findSome? fun e =>
      let fr := loc / 16384 * 16384
      if e.2.front.contains fr then
        let p := e.2.front.findIdx (fun f => f == fr)
        some (e.1, p / 4, p % 4 * 16384 + loc % 16384)
      else none

/-- An untouched tile (R360). -/
def Tile.cold : Tile := { st := .cold, frame := none, spx := none, log := [], slot := false, lastAccess := 0, held := [] }

/-- A tile of a buffer. -/
def State.tile (s : State) (id i : Nat) : Tile :=
  match s.buf? id with | some b => FMap.get b.tiles i Tile.cold | none => Tile.cold
/-- A tile replaced. -/
def State.setTile (s : State) (id i : Nat) (t : Tile) : State :=
  { s with buffers := FMap.modify s.buffers id fun b => { b with tiles := FMap.put b.tiles i t } }

/-- The HBM location of a byte of a tile. -/
def State.tileHbm (s : State) (id i off : Nat) : Nat :=
  match s.buf? id with | some b => nthD b.front (4 * i + off / 16384) 0 + off % 16384 | none => 0

/-- Where the bytes of a location are held now (R180, R361). -/
def State.place (s : State) (loc : Nat) : Nat :=
  if isDbl loc then s.dblPlace loc
  else match s.tileOf loc with
    | some (id, i, off) =>
      let t := s.tile id i
      match t.st, t.frame with
      | .resident, some f => f + off
      | .evicting, some f => f + off
      | _, _ => loc
    | none => loc

/-- The kind of the memory that holds a place (R426): 1 HBM, 2 SRAM data. -/
def placeKind (place : Nat) : Nat := if place < 2 ^ 40 then 1 else 2

/-- The physical address by which a place is reported (R413, R426): in HBM its own, else the byte of its die. -/
def placeAddr (place : Nat) : Nat := if place < 2 ^ 40 then place else place % 2 ^ 28

/-- AUX of a cause 0xE1 (R413). -/
def ueAux (place : Nat) : Word := BitVec.ofNat 64 (placeAddr place + placeKind place * 2 ^ 56)

/-- A read of one granule for a context finds its bad check bits (R427). -/
def State.eccCheck (s : State) (loc : Nat) : M Unit :=
  let p := s.place loc
  if FMap.get s.bad (p / 64) false then
    .error (.cause { code := 0xE1, aux := ueAux p } none)
  else .ok ()

/-- A write of a whole granule replaces bad check bits (R427). -/
def State.eccWrite (s : State) (place n : Nat) : State :=
  if 64 ≤ n then { s with bad := FMap.erase s.bad (place / 64) } else s

/-- The tag of the granule of a location (R414). -/
def State.tagAt (s : State) (loc : Nat) : BitVec 4 := FMap.get s.tags (s.place loc / 64) 0

/-- Layers of a partition with a role, by ascending chiplet index. -/
def Part.layersOf (p : Part) (s : State) (role : Nat) : List Nat :=
  (List.range 33).filter fun i => isLayer i && p.stackMask.testBit (stackOf i) && (s.die i).role == role

/-- The ARITH layers of a partition. -/
def State.arith (s : State) (part : Nat) : List Nat :=
  match s.part? part with | some p => p.layersOf s 0 | none => []
/-- The TIER layers of a partition, in tarn order (R445). -/
def State.tiers (s : State) (part : Nat) : List Nat :=
  match s.part? part with | some p => p.layersOf s 1 | none => []

/-- The location of a tarn offset of a partition (R75, R445). -/
def State.tarnAt (s : State) (part off : Nat) : Option Nat :=
  match (s.tiers part)[off / tarnBytes]? with | some c => some (tarnLoc c (off % tarnBytes)) | none => none

/-- The frames of a partition's residency pool: the top of its tarn (R362, R445). -/
def State.pool (s : State) (part : Nat) : List Nat :=
  match s.part? part with
  | some p =>
    let total := (s.tiers part).length * tarnBytes / 65536
    let n := min p.respool total
    (List.range n).filterMap fun j => s.tarnAt part ((total - n + j) * 65536)
  | none => []

/-- The MEM die on whose HBM a location lies (R360): two stacks of 64 GiB each. -/
def memDie (loc : Nat) : Nat := 38 + loc / 2 ^ 37

/-- The choice of the home hash among `n` dies for a line: a free function, except that where it would leave some die
without a line of a 16 KiB page, the lines of that page take the dies in turn (R307). -/
def homePick (line n : Nat) : Nat :=
  let all_ := (List.range n).all fun d =>
    (List.range 256).any fun k => Config.homeIx (line / 256 * 256 + k) n % max 1 n == d
  (if all_ then Config.homeIx line n else line) % max 1 n

/-- The chiplet that is home to a location for a partition (R307, R361). -/
def State.homeChip (s : State) (part loc : Nat) : Nat :=
  let p := s.place loc
  if p < 2 ^ 40 then
    let logged := match s.tileOf p with | some (id, i, _) => !(s.tile id i).log.isEmpty | none => false
    if logged then memDie p
    else let ds := s.arith part; nthD ds (homePick (p / 64) ds.length) 0
  else (p % 2 ^ 40) / 2 ^ 28

/-- The die has a die cache and an RDC: a DMX die in ARITH (R306). -/
def State.hasRdc (s : State) (chip : Nat) : Bool := isLayer chip && (s.die chip).role == 0

/-- A map with room for one more entry: when it is full, one entry chosen freely is dropped. -/
def makeRoom {α : Type} (cap : Nat) (m : FMap α) (choice : Nat) : FMap α :=
  if m.length < cap then m
  else match m[choice % max 1 m.length]? with | some e => FMap.erase m e.1 | none => m

/-- The die cache holds the line of an access performed at its home there (R306, R366); 524,288 lines, of which one
chosen freely goes back to HBM. -/
def State.dcNote (s : State) (loc : Nat) (dirty : Bool) : State :=
  let p := lineOf (s.place loc)
  let chip := s.homeChip (FMap.get s.frames (p / 16384) 0) p
  if 2 ^ 40 ≤ p ∨ !s.hasRdc chip then s
  else
    let (x, s) := s.draw
    let d := s.die chip
    let was := FMap.get d.dcache p false
    let m := if (FMap.find? d.dcache p).isSome then d.dcache else makeRoom 524288 d.dcache x
    s.setDie chip { d with dcache := FMap.put m p (was || dirty) }

/-- Every die-cache line of some pages written back and dropped (R366). -/
def State.dcDrop (s : State) (pages : List Nat) : State :=
  { s with dies := s.dies.map fun (e : Nat × Die) =>
      (e.1, { e.2 with dcache := e.2.dcache.filter fun x => !pages.contains (x.1 / 16384 * 16384) }) }

/-! ## The operations of atomics and logs (R170, R369) -/

/-- Operations in the order of R369; 6 EXCH, 7 CAS, 8 INCW, 9 DECW, 10 FADDB follow (R169). -/
def combine (op : Nat) (ty : Nat) (old v : Nat) : Nat :=
  let w := typeBits ty
  if isFloatType ty then
    let f := fmtOf ty
    match op with
    | 0 => (f.add 0 (f.decode old) (f.decode v)).1
    | 4 => f.minMax false old v
    | 5 => f.minMax true old v
    | _ => v
  else
    let t := ITy.ofCode ty
    match op with
    | 0 => (old + v) % 2 ^ w
    | 1 => old &&& v
    | 2 => old ||| v
    | 3 => old ^^^ v
    | 4 => if t.read old ≤ t.read v then old else v
    | 5 => if t.read v ≤ t.read old then old else v
    | _ => v

/-- Bytes of an element of a TYPE code. -/
def typeBytes (ty : Nat) : Nat := if ty = 12 then 16 else typeBits ty / 8

/-- A window of tile bytes [lo, lo + bs.length) with one log entry applied to it, where the entry lies in it. -/
def applyEnt (lo : Nat) (bs : List Byte) (e : LogEnt) : List Byte :=
  let n := typeBytes e.ty.toNat
  if lo ≤ e.off ∧ e.off + n ≤ lo + bs.length then
    let d := e.off - lo
    let old := leNat ((bs.drop d).take n)
    bs.take d ++ leBytes n (combine e.op e.ty.toNat old (e.value.toNat % 2 ^ (8 * n))) ++ bs.drop (d + n)
  else bs

/-- The bytes of a line of a COLD tile with its log merged (R371). -/
def mergeLog (lo : Nat) (bs : List Byte) (log : List LogEnt) : List Byte := log.foldl (applyEnt lo) bs

/-- A read of a whole line performed at its home (R311, R371): its 64 bytes. -/
def State.homeLine (s : State) (line : Nat) : List Byte :=
  let raw := Memory.readN s.mem (s.place line) 64
  if isDbl line then raw
  else match s.tileOf line with
    | some (id, i, off) =>
      let t := s.tile id i
      if (t.st = .cold ∨ t.st = .fetching) ∧ !t.log.isEmpty then mergeLog off raw t.log else raw
    | none => raw

/-- Bytes [loc, loc + n) of one line read at its home. -/
def State.homeRead (s : State) (loc n : Nat) : List Byte := ((s.homeLine (lineOf loc)).drop (loc % 64)).take n

/-- A read performed at a RESIDENT tile's frame is an access of the tile (R363): its last-access tick. -/
def State.touchTile (s : State) (loc : Nat) : State :=
  match s.tileOf loc with
  | some (id, i, _) =>
    let t := s.tile id i
    if t.st = .resident then s.setTile id i { t with lastAccess := s.tick } else s
  | none => s

/-- What a read performed at the home leaves: the last access of its tile, and the line in the die cache. -/
def State.homeTouch (s : State) (loc : Nat) (dirty : Bool) : State := (s.touchTile loc).dcNote loc dirty

/-- A tile is in transition. -/
def Tile.moving (t : Tile) : Bool := t.st == .fetching || t.st == .evicting

/-- The tiles of all buffers: buffer id, number, tile. -/
def State.allTiles (s : State) : List (Nat × Nat × Tile) :=
  s.buffers.flatMap fun e => e.2.tiles.map fun t => (e.1, t.1, t.2)

/-- The tile that holds up an access to a location: its own, or one that moves into or out of the frame under a TARN
address (R362, R364). -/
def State.holder (s : State) (loc : Nat) : Option (Nat × Nat) :=
  if 2 ^ 40 ≤ loc ∧ loc < 2 ^ 41 then
    (s.allTiles.find? fun t => t.2.2.moving && t.2.2.frame == some (loc / 65536 * 65536)).map fun t => (t.1, t.2.1)
  else (s.tileOf loc).map fun t => (t.1, t.2.1)

/-- The tile of a location is moving, so every access to it is held (R364). -/
def State.homeBusy (s : State) (loc : Nat) : Bool :=
  match s.holder loc with | some (id, i) => (s.tile id i).moving | none => false

/-- What of an engine's waiting word is done: the granules of a transfer (R222). -/
def Eng.wordDone (g : Eng) : Nat := match g.waitVal with | some x => x.toNat | none => 0

/-- Words that a prologue core has executed in its run. -/
def State.prolCount (s : State) (n : Nat) : Nat := match FMap.find? s.prols n with | some p => p.count | none => 0

/-- A job's access, by how far the job has come. -/
def State.jobWaiter (s : State) (key id : Nat) : Waiter :=
  match (s.cell key).jobs.find? fun j => j.id == id with
  | some j => .job key id j.next j.part
  | none => .job key id 0 []

/-- Who makes the access being performed. -/
def State.waiter (s : State) : Waiter :=
  match s.actor with
  | some (.job key id _ _) => s.jobWaiter key id
  | some w => w
  | none => match s.cur with
    | .cell key e => let g := (s.cell key).eng e; .word key e g.pos g.wordDone
    | .prologue n => .word (2 ^ 20 + n) .c 0 (s.prolCount n)

/-- A held access still waits; one whose word, element or message has gone on or is gone does not. -/
def State.stillWaits (s : State) : Waiter → Bool
  | .word key e pos done =>
    if 2 ^ 20 ≤ key then (FMap.find? s.prols (key - 2 ^ 20)).isSome && s.prolCount (key - 2 ^ 20) == done
    else
      let c := s.cell key
      (c.phase == .running || c.phase == .halted || c.phase == .halting) && (c.eng e).pos == pos && (c.eng e).issued
        && (c.eng e).wordDone == done && (c.eng e).reason == 12 && !(c.fatals.any fun f => f.2.eng == e)
  | .job key id next part =>
    let c := s.cell key
    (c.phase == .running || c.phase == .halted || c.phase == .halting)
      && c.jobs.any fun j => j.id == id && !j.finished && j.next == next && j.part == part
        && !(c.fatals.any fun f => f.2.pos == j.pos && f.2.eng == j.eng && f.2.celem.isSome)
  | .message chip home seq => (s.die chip).out.any fun m => m.home == home && m.seq == seq
  | .window => match s.hostOps with | .window _ _ _ :: _ => true | _ => false
  | .stamp key mgo => (s.cell key).stamps.any fun x => x.mgo == mgo

/-- The tile of a location that keeps an access of a waiter from the home: it moves, or an access that arrived before
still waits there (R364). -/
def State.heldBy (s : State) (loc : Nat) (w : Waiter) : Option (Nat × Nat) :=
  match s.holder loc with
  | none => none
  | some (id, i) =>
    let t := s.tile id i
    if t.moving then some (id, i)
    else match t.held.filter s.stillWaits with
      | [] => none
      | v :: _ => if v = w then none else some (id, i)

/-- The access being performed may be performed at the home: no move holds it, and no access that arrived before it
still waits there (R364). An access that waits no longer is left in its place in the list, which `stillWaits` passes
over, until the list is empty. -/
def State.homeTurn (s : State) (loc : Nat) : M State :=
  match s.heldBy loc s.waiter with
  | some (id, i) => .error (.tile id i s.waiter false)
  | none =>
    match s.holder loc with
    | none => .ok s
    | some (id, i) =>
      let t := s.tile id i
      .ok (if t.held.isEmpty then s else s.setTile id i { t with held := t.held.filter s.stillWaits })

/-- An access waits at no tile any more, but perhaps at one. -/
def State.leaveTiles (s : State) (w : Waiter) (at_ : Option (Nat × Nat)) : State :=
  s.allTiles.foldl (fun (s : State) t =>
    if t.2.2.held.contains w && some (t.1, t.2.1) != at_ then
      s.setTile t.1 t.2.1 { s.tile t.1 t.2.1 with held := t.2.2.held.filter fun v => v != w } else s) s

/-- An access is held with those that arrived before it. It waits at one tile at a time: what a step did at another before
it came here is done again. -/
def State.hold (s : State) (id i : Nat) (w : Waiter) : State :=
  let s := s.leaveTiles w (some (id, i))
  let t := s.tile id i
  if t.held.contains w then s else s.setTile id i { t with held := t.held ++ [w] }

/-- An access of a job still waits for a tile's move. -/
def State.jobHeld (s : State) (key id : Nat) : Bool :=
  let w := s.jobWaiter key id
  s.allTiles.any fun t => t.2.2.held.contains w && s.stillWaits w

/-- An access of a shard of a node, of a word or of a command's element, has issued and waits for a tile's move: it is
performed before the shard stops (R392, step 3; R408, step 2). -/
def State.nodeHeld (s : State) (n : Nat) : Bool :=
  s.allTiles.any fun t => t.2.2.held.any fun w => s.stillWaits w && (match w with
    | .word key _ _ _ | .job key _ _ _ => decide (key < 2 ^ 20) && (s.cell key).node == n
    | .message _ _ _ | .window | .stamp _ _ => false)

/-- A tile's log applied to its bytes in HBM, and the log emptied (R365, item 4; R376). -/
def State.applyInPlace (s : State) (id i : Nat) : State :=
  let t := s.tile id i
  let base := fun off => s.tileHbm id i off
  let mem := t.log.foldl (fun m e =>
    let n := typeBytes e.ty.toNat
    let a := base e.off
    Memory.writeN m a (leBytes n (combine e.op e.ty.toNat (leNat (Memory.readN m a n)) (e.value.toNat % 2 ^ (8 * n))))) s.mem
  { s with mem := mem }.setTile id i { t with log := [], slot := false }

/-- The partition whose pool a buffer's tiles are fetched into. -/
def State.bufPart (s : State) (id : Nat) : Nat :=
  match s.buf? id with | some b => s.ctxPart b.ctx | none => 0

/-- The frames that tiles hold. -/
def State.heldFrames (s : State) : List Nat := s.allTiles.filterMap fun t => t.2.2.frame

/-- The tile with the oldest last access among those resident in a list of frames (R365). -/
def State.victim (s : State) (frames : List Nat) : Option (Nat × Nat) :=
  let ts := s.allTiles.filter fun t => t.2.2.st == .resident &&
    (match t.2.2.frame with | some f => frames.contains f | none => false)
  match ts with
  | [] => none
  | t :: rest =>
    let b := rest.foldl (fun m x => if x.2.2.lastAccess < m.2.2.lastAccess then x else m) t
    some (b.1, b.2.1)

/-- The tile frames of an SPX die (R378). -/
def spxFrames (chip : Nat) : List Nat := (List.range 2048).map fun j => spxLoc chip (65536 * j)

/-- The frames among which a fetch chooses (R365): those of an SPX die, or the pool. -/
def State.fetchFrames (s : State) (id : Nat) (spx : Option Nat) : List Nat :=
  match spx with | some c => spxFrames c | none => s.pool (s.bufPart id)

/-- A frame for a FETCHING tile (R365, item 3): a free one, or that of the oldest resident tile, whose eviction
starts; with every frame in transition the tile waits. -/
def State.claimFrame (s : State) (id i : Nat) (t : Tile) : State :=
  let frames := s.fetchFrames id t.spx
  let held := s.heldFrames
  match frames.find? fun f => !held.contains f with
  | some f => s.setTile id i { t with frame := some f }
  | none =>
    match s.victim frames with
    | some (vb, vi) =>
      let v := s.tile vb vi
      (s.setTile id i { t with frame := v.frame }).setTile vb vi { v with st := .evicting }
    | none => s.setTile id i { t with frame := none }

/-- A fetch of a COLD tile started (R363, R365): into a die's tile frames, or into the pool; with a pool of no
frames the log is applied in place at once. -/
def State.startFetch (s : State) (id i : Nat) (spx : Option Nat) : State :=
  let t := s.tile id i
  if t.st ≠ .cold then s
  else
    if (s.fetchFrames id spx).isEmpty then s.applyInPlace id i
    else s.claimFrame id i { t with st := .fetching, spx := spx }

/-! ## Moves (R363, R365, R376) -/

/-- Bytes, tags and bad check bits of whole granules copied from one place to another. -/
def State.movePlace (s : State) (src dst n : Nat) : State :=
  { s with
    mem := FMap.blit s.mem dst n (FMap.slice s.mem src n)
    tags := FMap.blit s.tags (dst / 64) (n / 64) (FMap.slice s.tags (src / 64) (n / 64))
    bad := FMap.blit s.bad (dst / 64) (n / 64) (FMap.slice s.bad (src / 64) (n / 64)) }

/-- The tile that still leaves a frame. -/
def State.leaver (s : State) (frame : Nat) : Option (Nat × Nat) :=
  (s.allTiles.find? fun t => t.2.2.st == .evicting && t.2.2.frame == some frame).map fun t => (t.1, t.2.1)

/-- A fetch ended (R376): the log is applied, and the bytes and tags stand in the frame. A fetch without a frame, or
whose frame another tile still leaves, goes on. -/
def State.fetchDone (s : State) (id i : Nat) : State :=
  let t := s.tile id i
  if t.st ≠ .fetching then s
  else match t.frame with
    | none => s.claimFrame id i t
    | some f =>
      if (s.leaver f).isSome then s
      else
        let s := s.applyInPlace id i
        let s := (List.range 4).foldl (fun (s : State) j =>
          s.movePlace (s.tileHbm id i (16384 * j)) (f + 16384 * j) 16384) s
        s.setTile id i { t with st := .resident, log := [], slot := false, lastAccess := s.tick }

/-- The granules of a range with bad check bits, which a write-back of the range meets (R427). -/
def State.badIn (s : State) (place n : Nat) : List Nat :=
  (s.bad.filter fun e => e.2 && decide (place / 64 ≤ e.1 ∧ e.1 < (place + n) / 64)).map fun e => 64 * e.1

/-- A write-back that meets bad check bits is noted (R427). -/
def State.noteBad (s : State) (ps : List Nat) : State := { s with ueFound := s.ueFound ++ ps }

/-- An eviction ended (R363, R414): the bytes and tags stand in HBM, and the frame takes tag 0. -/
def State.evictDone (s : State) (id i : Nat) : State :=
  let t := s.tile id i
  match t.st, t.frame with
  | .evicting, some f =>
    let s := (List.range 4).foldl (fun (s : State) j =>
      s.movePlace (f + 16384 * j) (s.tileHbm id i (16384 * j)) 16384) (s.noteBad (s.badIn f 65536))
    { s with tags := FMap.clearRange s.tags (f / 64) 1024 }.setTile id i { Tile.cold with held := t.held }
  | _, _ => s

/-- A fetch that has its frame brought to its end, after the eviction that still holds the frame. -/
def State.endFetch (s : State) (id i : Nat) : State :=
  let s := match (s.tile id i).frame.bind s.leaver with | some (b, j) => s.evictDone b j | none => s
  s.fetchDone id i

/-- A tile's move brought to its end. A fetch that waits for a frame takes that of a move among its frames, which ends
first. -/
def State.endMove (s : State) (id i : Nat) : State :=
  let t := s.tile id i
  match t.st, t.frame with
  | .evicting, _ => s.evictDone id i
  | .fetching, some _ => s.endFetch id i
  | .fetching, none =>
    let frames := s.fetchFrames id t.spx
    let other := s.allTiles.find? fun x => x.2.2.moving && (match x.2.2.frame with | some f => frames.contains f | none => false)
    let s := match other with
      | some (b, j, x) => if x.st = TileState.evicting then s.evictDone b j else s.endFetch b j
      | none => s
    (s.claimFrame id i t).endFetch id i
  | _, _ => s

/-- The tile of a location brought where a write can be performed now: a COLD one fetched, a move ended (R363 to R365;
log entry 115). -/
def State.homeForce (s : State) (loc : Nat) : State :=
  match s.holder loc with
  | some (id, i) => (s.startFetch id i none).endMove id i
  | none => s

/-- Bytes of one line written where they are held, with the access noted. -/
def State.putAt (s : State) (loc : Nat) (ws : List ByteWrite) : State :=
  ({ s with mem := ws.foldl (fun (m : Memory) (b : ByteWrite) => Memory.write m (s.place b.at_) b.val) s.mem }.eccWrite
    (s.place loc) ws.length).homeTouch loc true

/-- A COLD tile under a location that other accesses than appends may reach: none, once its log is applied in place
where the pool has no frame (R365, item 4); else its fetch starts (R363). -/
def State.warm (s : State) (loc : Nat) : M State :=
  match s.tileOf loc with
  | some (id, i, _) =>
    if (s.tile id i).st = .cold then
      if (s.pool (s.bufPart id)).isEmpty then .ok (s.applyInPlace id i) else .error (.tile id i s.waiter true)
    else .ok s
  | none => .ok s

/-- A write of bytes of one line performed at its home. A COLD tile is fetched first (R363). -/
def State.homeWrite (s : State) (loc : Nat) (ws : List ByteWrite) : M State := do
  let s ← s.homeTurn loc
  let s ← s.warm loc
  .ok (s.putAt loc ws)

/-- A write by the GSD or a trace producer, whose tile is fetched, and whose move ends, before it. -/
def State.homePut (s : State) (loc : Nat) (ws : List ByteWrite) : State := (s.homeForce loc).putAt loc ws

/-! ## Silt logs (R368 to R377) -/

/-- Whether entries of an operation and type may merge (R373). -/
def mergeable (reassoc : Bool) (op ty : Nat) : Bool :=
  if isFloatType ty then op == 4 || op == 5 || (op == 0 && reassoc) else op ≤ 5

/-- The value of a group of merged entries, values in log order (R373, R374). -/
def mergeVals (op ty : Nat) : List Nat → Nat
  | [] => 0
  | v :: vs =>
    if isFloatType ty && op == 0 then
      let f := fmtOf ty
      let xs := (v :: vs).map f.decode
      if vs.isEmpty then v
      else if xs.any Val.isNan then f.qnan
      else
        let p := xs.any fun x => x.isInf && !x.neg?
        let n := xs.any fun x => x.isInf && x.neg?
        if p && n then f.qnan else if p then f.inf false else if n then f.inf true
        else
          let allNegZero := xs.all fun x => x.isZero && x.neg?
          (f.roundDy 0 (xs.foldl (fun d x => d.add x.dy) ⟨0, 0⟩) allNegZero).1
    else vs.foldl (fun a b => combine op ty a b) v

/-- Whether two entries touch a byte in common. -/
def LogEnt.touches (a b : LogEnt) : Bool :=
  decide (a.off < b.off + typeBytes b.ty.toNat) && decide (b.off < a.off + typeBytes a.ty.toNat)

/-- An entry joined to the group it may merge with, looking back from the newest; none when an entry between
splits it (R373). -/
def joinGroup (reassoc : Bool) (e : LogEnt) : List (LogEnt × List Nat) → Option (List (LogEnt × List Nat))
  | [] => none
  | g :: gs =>
    if g.1.off = e.off ∧ g.1.op = e.op ∧ g.1.ty = e.ty ∧ mergeable reassoc e.op e.ty.toNat then
      some ((g.1, g.2 ++ [e.value.toNat]) :: gs)
    else if g.1.touches e then none
    else match joinGroup reassoc e gs with | some r => some (g :: r) | none => none

/-- Compaction of a log (R373). -/
def compact (reassoc : Bool) (log : List LogEnt) : List LogEnt :=
  let groups := log.foldl (fun gs e =>
    match joinGroup reassoc e gs with
    | some r => r
    | none => (e, [e.value.toNat]) :: gs) []
  groups.reverse.map fun g => { g.1 with value := BitVec.ofNat 64 (mergeVals g.1.op g.1.ty.toNat g.2) }

/-- Log slots in use on a MEM die (R370). -/
def State.slotsUsed (s : State) (die : Nat) : Nat :=
  (s.allTiles.filter fun t => t.2.2.slot && memDie (s.tileHbm t.1 t.2.1 0) == die).length

/-- The identities kept for a shard's current region instance (R299). -/
def State.keptOf (s : State) (n : Ident) : List (Ident × Word) :=
  s.kept.filter fun e => e.1.node == n.node && e.1.flatC == n.flatC && e.1.flatD == n.flatD && e.1.rinst == n.rinst

/-- A read and write of an element performed at the home as one step (R311): the old value, and the state. -/
def State.rmwAt (s : State) (loc n : Nat) (f : Nat → Option Nat) : Nat × State :=
  let old := leNat (s.homeRead loc n)
  (old, match f old with
    | some x => { s with mem := Memory.writeN s.mem (s.place loc) (leBytes n x) }.homeTouch loc true
    | none => s.homeTouch loc false)

/-- A read and write performed at the home; a COLD tile becomes resident first (R173, R363). -/
def State.homeRmw (s : State) (loc n : Nat) (f : Nat → Option Nat) : M (Nat × State) := do
  let s ← s.homeTurn loc
  s.eccCheck loc
  let s ← s.warm loc
  .ok (s.rmwAt loc n f)

/-- A command whose elements combine at the home (R192, R269). -/
def isCombining : Instr → Bool
  | .scatter f => f.fl.toNat % 4 != 0
  | .mdrainGlobAdd _ => true
  | _ => false

/-- An earlier command of the same engine may still append (R377; log entry 116). -/
def State.earlierAppends (s : State) (who : Ident) : Bool :=
  s.cells.any fun e => e.2.node == who.node && e.2.flatC == who.flatC && e.2.flatD == who.flatD
    && e.2.jobs.any fun j => j.eng == who.eng && decide (j.ordinal < who.ordinal) && !j.finished && isCombining j.ins

/-- An append to the log of a COLD tile (R368 to R373): the old value, and the state. -/
def State.append (s : State) (id i off loc op ty v : Nat) (who : Ident) : Nat × State :=
  let t := s.tile id i
  let old := leNat (s.homeRead loc (typeBytes ty))
  let s := if t.log.isEmpty then s.dcDrop ((List.range 4).map fun k => s.tileHbm id i (16384 * k)) else s
  let log := t.log ++ [⟨off, op, BitVec.ofNat 4 ty, BitVec.ofNat 64 v⟩]
  let re := match s.buf? id with | some b => b.reassoc | none => false
  let log := if [129, 161, 193, 225].contains log.length then compact re log else log
  let s := s.setTile id i { t with log := log, slot := true }
  let kept := if (s.keptOf who).length < 65536 then (who, BitVec.ofNat 64 old) :: s.kept else s.kept
  (old, { s with kept := kept })

/-- A combining write at STACK scope or wider (R173, R311, R363): the old value, and the state. -/
def State.homeCombine (s : State) (loc op ty v : Nat) (who : Ident) : M (Nat × State) := do
  let n := typeBytes ty
  let s ← s.homeTurn loc
  s.eccCheck loc
  match s.tileOf loc with
  | some (id, i, off) =>
    let t := s.tile id i
    if t.st = .cold then
      match (s.keptOf who).find? fun e => e.1 == who with
      | some k => .ok (k.2.toNat, s)
      | none =>
        let free := decide (s.slotsUsed (memDie (s.tileHbm id i 0)) < 12288)
        if s.earlierAppends who then .error (.block 12)
        else if t.log.length < 256 ∧ (t.slot ∨ free) then .ok (s.append id i off loc op ty v who)
        else do
          let s ← s.warm loc
          .ok (s.rmwAt loc n fun old => some (combine op ty old v))
    else .ok (s.rmwAt loc n fun old => some (combine op ty old v))
  | none => .ok (s.rmwAt loc n fun old => some (combine op ty old v))

/-! ## What a DOUBLE buffer's home shows (R323) -/

/-- The locations of DOUBLE bytes seen through the other backing. -/
def dblFlip (loc : Nat) : Nat := if (loc - 2 ^ 80) % 2 ^ 50 / 2 ^ 49 = 1 then loc - 2 ^ 49 else loc + 2 ^ 49

/-- Whether a chiplet lies within a scope of a cell (R76, R78). -/
def Cell.inScope (c : Cell) (scope chip : Nat) : Bool :=
  decide (5 ≤ scope) || (nthD c.scopem (scope - 2) 0).getLsbD chip

/-- The exchanges that the access being performed for a cell is not ordered after: those of its job as the command was
issued, or of the cell. -/
def State.oldViews (s : State) (key : Nat) : List OldView :=
  match s.actor with
  | some (.job k id _ _) =>
    if k = key then (match (s.cell key).jobs.find? fun j => j.id == id with | some j => j.oldView | none => []) else []
  | _ => (s.cell key).oldView

/-- The line of a DOUBLE buffer that a cell's access at a scope reaches at the home: where the access is not ordered
after an exchange, the new backing or the old, line by line and freely (R323). -/
def State.viewOf (s : State) (key part scope loc : Nat) : Nat × State :=
  if !isDbl loc then (loc, s)
  else
    let c := s.cell key
    let unordered := (s.oldViews key).any fun o => o.buf == (loc - 2 ^ 80) / 2 ^ 50
      && (o.acq == 0 || !(decide (2 ≤ scope) || c.inScope o.acq (s.homeChip part loc)))
    if unordered then
      let (x, s) := s.draw
      (if x % 2 = 1 then dblFlip loc else loc, s)
    else (loc, s)

/-! ## Messages (R308, R313, R324) -/

/-- Bytes from a location on, as writes. -/
def writesOf (loc : Nat) : List Byte → List ByteWrite
  | [] => []
  | b :: bs => ⟨loc, b⟩ :: writesOf (loc + 1) bs

/-- The chiplet of the home or bank that a cell's access goes to. -/
def State.destChip (s : State) (chip cell dest : Nat) : Nat :=
  if 2 ^ 60 ≤ dest ∧ dest < 2 ^ 80 then keyChip (dest - 2 ^ 60)
  else s.homeChip (s.ctxPart (s.nodeCtx (s.cell (cellKey chip cell)).node)) dest

/-- Some path of links leads a cell's access to its home (R324). -/
def State.reaches (s : State) (chip cell dest : Nat) : Bool :=
  s.deadLinks.isEmpty || s.pathTo chip (s.destChip chip cell dest)

/-- A message toward a home that no path reaches (R324, R413). -/
def State.lost (s : State) (chip cell dest : Nat) : M Unit :=
  if s.reaches chip cell dest then .ok ()
  else .error (.cause { code := 0xE2, aux := BitVec.ofNat 64 (s.destChip chip cell dest) } none)

/-- The next number of a die toward a home, and the die with it taken (R324). -/
def Die.number (d : Die) (home : Nat) : Nat × Die :=
  let n := FMap.get d.nextSeq home 0
  (n, { d with nextSeq := FMap.put d.nextSeq home ((n + 1) % 2 ^ 32) })

/-- At most 4,096 messages of a die are outstanding toward a home over the links (R324). -/
def State.linkRoom (s : State) (chip home : Nat) : Bool :=
  home == chip || decide (((s.die chip).out.filter fun m => m.home == home).length < 4096)

/-- A message a die sends. At most 4,096 are outstanding toward one home over the links (R324). -/
def State.send (s : State) (chip cell dest : Nat) (wt : Bool) (ws : List ByteWrite) (fill : List Nat)
    (by_ : Option Sender) : M State :=
  let d := s.die chip
  let home := s.destChip chip cell dest
  (s.lost chip cell dest).bind fun _ =>
    if !s.linkRoom chip home then blocked 12
    else
      let (n, d) := d.number home
      .ok (s.setDie chip { d with
        out := d.out ++ [{ home := home, seq := n, cell := cell, dest := dest, wt := wt, writes := ws, fill := fill,
                           shard := (if 2 ^ 60 ≤ dest ∧ dest < 2 ^ 80 then (s.cell (dest - 2 ^ 60)).serial else 0)
                           by_ := by_ }] })

/-- A write sent toward the home of a line. -/
def State.post (s : State) (chip cell dest : Nat) (wt : Bool) (ws : List ByteWrite) : M State :=
  s.send chip cell dest wt ws [] none

/-- A write sent to a cell's scratchpad. -/
def State.postPeer (s : State) (key k : Nat) (ws : List ByteWrite) (fill : List Nat) (by_ : Sender) : M State :=
  s.send (keyChip key) (keyCell key) (cellDest k) false ws fill (some by_)

/-- A home has applied a number of a sender; it keeps the last 4,096 (R324). -/
def State.noteApplied (s : State) (chip home n : Nat) (old : Word) : State :=
  if home = chip then s
  else
    let d := s.die home
    s.setDie home { d with applied := FMap.put d.applied chip (((n, old) :: FMap.get d.applied chip []).take 4096) }

/-- An atomic or append that a die sends to a home over the links: it takes the next number, waits while 4,096 messages
are outstanding, and is performed there, unless the home has applied that number; the reply is the old value that the
home recorded with it (R324). -/
def State.sendAtomic (s : State) (chip home : Nat) (run : State → M (Nat × State)) : M (Nat × State) :=
  if home = chip then run s
  else if !s.linkRoom chip home then blocked 12
  else
    let (n, d) := (s.die chip).number home
    match (FMap.get (s.die home).applied chip []).find? fun e => e.1 == n with
    | some e => .ok (e.2.toNat, s.setDie chip d)
    | none => (run (s.setDie chip d)).map fun r => (r.1, r.2.noteApplied chip home n (BitVec.ofNat 64 r.1))

/-- A cell serves accesses through the DIE window (R469). -/
def Cell.serves (c : Cell) : Bool :=
  match c.phase with | .clearing | .timed | .running | .halted | .halting => true | _ => false

/-- Bytes written to a cell's scratchpad, and full-empty bits set. -/
def Cell.spadPut (c : Cell) (ws : List ByteWrite) (fill : List Nat) : Cell :=
  { c with
    stalledSince := none
    spad := ws.foldl (fun m b => Memory.write m b.at_ b.val) c.spad
    fe := fill.foldl (fun f g => FMap.put f g true) c.fe }

/-- A write-through of the die that is still on its way writes a byte: the RDC's copy is newer than the home's
(R312, R318). -/
def Die.newer (d : Die) (loc : Nat) : Bool := d.out.any fun m => m.wt && m.writes.any fun b => b.at_ == loc

/-- Every access of a die served at the home writes its bytes into the die's copies of the line, RDC and row line
(R308, item 5; R380); a byte of the RDC that a later store of the die has written keeps that store's value (R312). -/
def State.refresh (s : State) (chip : Nat) (ws : List ByteWrite) : State :=
  let d := s.die chip
  let held := ws.filter fun b => FMap.get d.rdcHas b.at_ false && !d.newer b.at_
  let rows := ws.foldl (fun (m : FMap RowLine) b =>
    match FMap.find? m (lineOf b.at_) with
    | some r => FMap.put m (lineOf b.at_) { r with bytes := Memory.write r.bytes (b.at_ % 64) b.val }
    | none => m) d.rows
  s.setDie chip { d with rdc := held.foldl (fun x b => Memory.write x b.at_ b.val) d.rdc, rows := rows }

/-- A write to a scratchpad performed at its bank: by the shard it was sent to (R313), or turned back to its sender
(R469). -/
def State.performPeer (s : State) (chip : Nat) (m : Msg) : State :=
  let key := m.dest - 2 ^ 60
  let c := s.cell key
  if c.serves && c.serial == m.shard then s.setCell key (c.spadPut m.writes m.fill)
  else match m.by_ with
    | some b =>
      let from_ := cellKey chip m.cell
      let c := s.cell from_
      if c.serial = b.serial then s.setCell from_ { c with rejects := c.rejects ++ [b] } else s
    | none => s

/-- The writes of a message as the home resolves them (R323). -/
def State.resolve (s : State) (chip : Nat) (m : Msg) : List ByteWrite × State :=
  let key := cellKey chip m.cell
  let (loc, s) := s.viewOf key (s.ctxPart (s.nodeCtx (s.cell key).node)) 2 m.dest
  (if loc = m.dest then m.writes else m.writes.map fun b => { b with at_ := dblFlip b.at_ }, s)

/-- What follows a write of a message at the home: its number is kept, and a store of a cell reaches the die's own
copies (R308, item 5; R324). -/
def State.performed (s : State) (chip : Nat) (m : Msg) : State :=
  let s := s.noteApplied chip m.home m.seq 0
  if m.wt then s else s.refresh chip m.writes

/-- The home has applied the message already, and drops it (R324). -/
def State.alreadyApplied (s : State) (chip : Nat) (m : Msg) : Bool :=
  m.home != chip && (FMap.get (s.die m.home).applied chip []).any fun e => e.1 == m.seq

/-- A message performed at its home or bank (R311, R313). -/
def State.perform (s : State) (chip : Nat) (m : Msg) : M State :=
  if 2 ^ 60 ≤ m.dest ∧ m.dest < 2 ^ 80 then .ok (s.performPeer chip m)
  else if s.alreadyApplied chip m then .ok s
  else
    let actor := s.actor
    let (ws, s) := { s with actor := some (.message chip m.home m.seq) }.resolve chip m
    (s.homeWrite (match ws with | b :: _ => lineOf b.at_ | [] => m.dest) ws).map fun s =>
      { s.performed chip m with actor := actor }

/-- A message performed although a tile's move holds it: the move is brought to its end first (R364; log entry 115). -/
def State.performNow (s : State) (chip : Nat) (m : Msg) : State :=
  match s.perform chip m with
  | .ok t => t
  | .error _ =>
    let (ws, s) := s.resolve chip m
    (s.homePut (match ws with | b :: _ => lineOf b.at_ | [] => m.dest) ws).performed chip m

/-- One message of a die must be performed before another: write-throughs to a line before every later message to it,
and the messages of one cell in their order (R308, items 3 and 4; R311; R313). -/
def Msg.before (b m : Msg) : Bool := b.dest == m.dest && (b.wt || b.cell == m.cell)

/-- A message may be performed when no earlier one must come first. -/
def mayGo (before : List Msg) (m : Msg) : Bool := before.all fun b => !b.before m

/-- The messages that a test selects, with those that must come before them, from a list newest first; oldest first. -/
def selectOut (p : Msg → Bool) : List Msg → List Msg → List Msg
  | [], acc => acc
  | m :: ms, acc => selectOut p ms (if p m || acc.any fun l => m.before l then m :: acc else acc)

/-- A message leaves its die. -/
def State.dropMsg (s : State) (chip : Nat) (m : Msg) : State :=
  let d := s.die chip
  s.setDie chip { d with out := d.out.filter fun x => !(x.home == m.home && x.seq == m.seq) }

/-- The pending messages of a die that a test selects. -/
def State.selected (s : State) (chip : Nat) (p : Msg → Bool) : List Msg := selectOut p (s.die chip).out.reverse []

/-- Every pending message of a die that a test selects, performed in order. -/
def State.flush (s : State) (chip : Nat) (p : Msg → Bool) : M State :=
  (s.selected chip p).foldlM (fun s m => (s.perform chip m).map fun t => t.dropMsg chip m) s

/-- The same, whatever moves hold them. -/
def State.flushNow (s : State) (chip : Nat) (p : Msg → Bool) : State :=
  (s.selected chip p).foldl (fun s m => (s.performNow chip m).dropMsg chip m) s

/-- A load, store or atomic performed at the home comes after the die's write-throughs to the line and the cell's
own stores to it (R308, item 4; R311). -/
def State.flushLine (s : State) (chip cell line : Nat) : M State :=
  s.flush chip fun m => m.dest == line && (m.wt || m.cell == cell)

/-! ## The die level (R308 to R310) -/

/-- DIE-level accesses to a location go to the RDC: the die has one, and the line is homed elsewhere. -/
def State.usesRdc (s : State) (chip part loc : Nat) : Bool :=
  s.hasRdc chip && !isDbl loc && s.homeChip part loc != chip

/-- The RDC holds a line. -/
def Die.rdcHolds (d : Die) (line : Nat) : Bool := (FMap.find? d.rdcTag line).isSome

/-- A line dropped from the RDC. -/
def Die.rdcDrop (d : Die) (line : Nat) : Die :=
  { d with rdc := FMap.clearRange d.rdc line 64, rdcHas := FMap.clearRange d.rdcHas line 64
           rdcTag := FMap.erase d.rdcTag line }

/-- A line allocated in the RDC under its home's tag; of 524,288 lines held, one chosen freely leaves it (R7, R306). -/
def State.rdcAlloc (s : State) (chip line : Nat) : State :=
  let d := s.die chip
  if d.rdcHolds line then s
  else
    let tag := s.tagAt line
    if d.rdcTag.length < 524288 then s.setDie chip { d with rdcTag := FMap.put d.rdcTag line tag }
    else
      let (x, s) := s.draw
      let d := match d.rdcTag[x % 524288]? with | some e => d.rdcDrop e.1 | none => d
      s.setDie chip { d with rdcTag := FMap.put d.rdcTag line tag }

/-- Bytes put into the RDC. -/
def Die.rdcPut (d : Die) (ws : List ByteWrite) : Die :=
  { d with
    rdc := ws.foldl (fun m b => Memory.write m b.at_ b.val) d.rdc
    rdcHas := ws.foldl (fun m b => FMap.put m b.at_ true) d.rdcHas }

/-- A line's bytes read at its home by a cell (R311): the 64 bytes. -/
def State.homeFetch (s : State) (chip cell line : Nat) : M (List Byte × State) := do
  let s ← s.homeTurn line
  if !s.reaches chip cell line then blocked 12
  else do
    s.eccCheck line
    .ok (s.homeLine line, s.homeTouch line false)

/-- A line's bytes fetched into the RDC where it does not hold them (R308, item 1). A write still on its way to a byte
that the RDC does not hold comes first. -/
def State.rdcFill (s : State) (chip cell line : Nat) : M State := do
  let d := s.die chip
  if (List.range 64).all fun i => FMap.get d.rdcHas (line + i) false then .ok s
  else do
    let unheld := d.out.any fun m => m.dest == line && (m.wt || m.cell == cell)
      && m.writes.any fun b => !FMap.get d.rdcHas b.at_ false
    let s ← if unheld then s.flushLine chip cell line else .ok s
    let (bs, s) ← s.homeFetch chip cell line
    let s := s.rdcAlloc chip line
    let d := s.die chip
    .ok (s.setDie chip (d.rdcPut ((writesOf line bs).filter fun b => !FMap.get d.rdcHas b.at_ false)))

/-- Bytes of one line read at DIE level (R155, R310), for a cell's access at a scope. -/
def State.dieRead (s : State) (chip cell part loc n scope : Nat) (alloc : Bool) : M (List Byte × State) := do
  let line := lineOf loc
  if s.usesRdc chip part loc then
    let s ← s.flush chip fun m => m.dest == line && !m.wt && m.cell == cell
    let d := s.die chip
    if (List.range n).all fun i => FMap.get d.rdcHas (loc + i) false then .ok (Memory.readN d.rdc loc n, s)
    else do
      let t ← s.rdcFill chip cell line
      let bs := Memory.readN (t.die chip).rdc loc n
      .ok (bs, if alloc || d.rdcHolds line then t else t.setDie chip ((t.die chip).rdcDrop line))
  else
    let s ← s.flushLine chip cell line
    let (at_, s) := s.viewOf (cellKey chip cell) part scope line
    let (l, s) ← s.homeFetch chip cell at_
    let bs := (l.drop (loc - line)).take n
    .ok (bs, s.refresh chip (writesOf loc bs))

/-- Bytes of one line written at DIE level (R155, R308, item 3). -/
def State.dieWrite (s : State) (chip cell part loc : Nat) (ws : List ByteWrite) (alloc : Bool) : M State :=
  let line := lineOf loc
  if s.usesRdc chip part loc then
    if alloc || (s.die chip).rdcHolds line then
      let s := s.rdcAlloc chip line
      (s.setDie chip ((s.die chip).rdcPut ws)).post chip cell line true ws
    else s.post chip cell line true ws
  else s.post chip cell line false ws

/-! ## The L1 (R309) -/

/-- The L1 holds a line. -/
def Cell.l1Holds (c : Cell) (line : Nat) : Bool := (FMap.find? c.l1Tag line).isSome

/-- Bytes put into the L1, dirty or clean. -/
def Cell.l1Put (c : Cell) (ws : List ByteWrite) (dirty : Bool) : Cell :=
  { c with l1 := ws.foldl (fun m b => FMap.put m b.at_ ⟨b.val, dirty⟩) c.l1 }

/-- Bytes put into the L1 as clean, except where it holds dirty ones. -/
def Cell.l1Fill (c : Cell) (ws : List ByteWrite) : Cell :=
  { c with l1 := ws.foldl (fun m b =>
      match FMap.find? m b.at_ with
      | some x => if x.dirty then m else FMap.put m b.at_ ⟨b.val, false⟩
      | none => FMap.put m b.at_ ⟨b.val, false⟩) c.l1 }

/-- Bytes with the cell's own dirty bytes in their places (R155). -/
def Cell.overlay (c : Cell) (loc : Nat) : List Byte → List Byte
  | [] => []
  | b :: bs =>
    (match FMap.find? c.l1 loc with | some x => if x.dirty then x.val else b | none => b) :: c.overlay (loc + 1) bs

/-- The level of a load or store: 0 the L1, 1 the die, 2 the home (R155, R310). -/
def levelOf (loc scope : Nat) : Nat := if isDbl loc then 2 else min scope 2

/-- The tag of the copy that serves an access at a level (R414): of the L1, of the RDC, of a row line, or of the home. -/
def State.tagServed (s : State) (key part loc level : Nat) (row : Bool) : BitVec 4 :=
  let chip := keyChip key
  let line := lineOf loc
  let d := s.die chip
  let below := match (if row && chipClass chip == .spx then (FMap.find? d.rows line).map RowLine.tag else none) with
    | some t => t
    | none =>
      match (if level ≤ 1 ∧ s.usesRdc chip part loc then FMap.find? d.rdcTag line else none) with
      | some t => t
      | none => s.tagAt loc
  if level = 0 then (match FMap.find? (s.cell key).l1Tag line with | some t => t | none => below) else below

/-- Dirty bytes of a line written back from the L1, and the line dropped (R309). -/
def State.l1Evict (s : State) (key part line : Nat) (drop : Bool) : M State :=
  let c := s.cell key
  let dirty := (c.l1.filter fun e => lineOf e.1 == line && e.2.dirty).map fun e => (⟨e.1, e.2.val⟩ : ByteWrite)
  let l1 := if drop then c.l1.filter fun e => lineOf e.1 != line
    else c.l1.map fun e => if lineOf e.1 == line then (e.1, { e.2 with dirty := false }) else e
  let s := s.setCell key { c with l1 := l1, l1Tag := if drop then FMap.erase c.l1Tag line else c.l1Tag }
  if dirty.isEmpty then .ok s
  else (if dirty.length < 64 then s.noteBad (s.badIn (lineOf (s.place line)) 64) else s).dieWrite (keyChip key) (keyCell key)
    part line dirty true

/-- A line allocated in the L1; of 4,096 lines held, one chosen freely is evicted (R7, R309). -/
def State.l1Alloc (s : State) (key part line : Nat) : M State :=
  if (s.cell key).l1Holds line then .ok s
  else do
    let tag := s.tagServed key part line 1 false
    let s ← (if (s.cell key).l1Tag.length < 4096 then (.ok s : M State)
      else
        let (x, s) := s.draw
        match (s.cell key).l1Tag[x % 4096]? with
        | some e => s.l1Evict key part e.1 true
        | none => .ok s)
    let c := s.cell key
    .ok (s.setCell key { c with l1Tag := FMap.put c.l1Tag line tag })

/-- A load of bytes of one line by a cell (R155, R309). -/
def State.loadLine (s : State) (key part loc n scope : Nat) (na : Bool) : M (List Byte × State) := do
  let chip := keyChip key
  let cell := keyCell key
  let line := lineOf loc
  match levelOf loc scope with
  | 0 =>
    let c := s.cell key
    if (List.range n).all fun i => (FMap.find? c.l1 (loc + i)).isSome then
      .ok ((List.range n).map fun i => match FMap.find? c.l1 (loc + i) with | some x => x.val | none => 0, s)
    else do
      let s ← if na then .ok s else s.l1Alloc key part line
      let (bs, s) ← s.dieRead chip cell part line 64 scope (!na)
      let c := s.cell key
      let out := (((writesOf line bs).drop (loc - line)).take n).map fun b =>
        match FMap.find? c.l1 b.at_ with | some x => x.val | none => b.val
      let missing := (writesOf line bs).filter fun b => (FMap.find? c.l1 b.at_).isNone
      .ok (out, if c.l1Holds line then s.setCell key (c.l1Put missing false) else s)
  | 1 =>
    let (bs, s) ← s.dieRead chip cell part loc n scope (!na)
    let c := s.cell key
    .ok (c.overlay loc bs, if c.l1Holds line then s.setCell key (c.l1Fill (writesOf loc bs)) else s)
  | _ =>
    let s ← s.flushLine chip cell line
    let (at_, s) := s.viewOf key part scope line
    let (l, s) ← s.homeFetch chip cell at_
    let bs := (l.drop (loc - line)).take n
    let s := s.refresh chip (writesOf loc bs)
    let c := s.cell key
    .ok (c.overlay loc bs, if c.l1Holds line then s.setCell key (c.l1Fill (writesOf loc bs)) else s)

/-- A store of bytes of one line by a cell (R155, R309). With the hint `.na` a line that the L1 or the RDC misses is
not allocated there, and the bytes go on to the next level (R158). -/
def State.storeLine (s : State) (key part loc : Nat) (bs : List Byte) (scope : Nat) (na : Bool) : M State :=
  let chip := keyChip key
  let cell := keyCell key
  let line := lineOf loc
  let ws := writesOf loc bs
  let c := s.cell key
  match levelOf loc scope with
  | 0 =>
    if na && !c.l1Holds line then s.dieWrite chip cell part loc ws false
    else (s.l1Alloc key part line).map fun s => s.setCell key ((s.cell key).l1Put ws true)
  | 1 => (if c.l1Holds line then s.setCell key (c.l1Put ws false) else s).dieWrite chip cell part loc ws (!na)
  | _ => (if c.l1Holds line then s.setCell key (c.l1Put ws false) else s).post chip cell line false ws

/-- The lines that hold dirty L1 bytes. -/
def Cell.dirtyLines (c : Cell) : List Nat :=
  (c.l1.filter fun e => e.2.dirty).foldl (fun ls e => if ls.contains (lineOf e.1) then ls else ls ++ [lineOf e.1]) []

/-- A line's dirty bytes written back, after the messages already sent are performed where no more may be
outstanding (R324). -/
def State.l1Clean (s : State) (key part line : Nat) : M State :=
  match s.l1Evict key part line false with
  | .error (.block _) =>
    (s.flush (keyChip key) fun m => m.wt || m.cell == keyCell key).bind fun s => s.l1Evict key part line false
  | r => r

/-- All dirty bytes of a cell written back to the die level; the L1 keeps them clean (R176). -/
def State.cleanL1 (s : State) (key part : Nat) : M State :=
  (s.cell key).dirtyLines.foldlM (fun s l => s.l1Clean key part l) s

/-- A message to another cell's scratchpad. -/
def Msg.toPeer (m : Msg) : Bool := decide (2 ^ 60 ≤ m.dest ∧ m.dest < 2 ^ 80)

/-- REL at a scope (R176, R308, R314, R316). -/
def State.release (s : State) (key part scope : Nat) : M State := do
  let chip := keyChip key
  let cell := keyCell key
  if scope = 0 then s.flush chip fun m => m.toPeer && m.cell == cell
  else do
    let s ← s.cleanL1 key part
    if scope = 1 then s.flush chip fun m => !m.wt && m.cell == cell
    else s.flush chip fun m => m.wt || m.cell == cell

/-- A line of a TILED buffer counts as homed within every scope of STACK or wider (R367). -/
def State.dropsLine (s : State) (c : Cell) (part scope loc : Nat) : Bool :=
  (s.tileOf loc).isSome || c.inScope scope (s.homeChip part loc)

/-- What an acquire at a scope orders the cell after (R318, R323): an exchange whose publisher the scope covers, for
good at PKG and SYS or on one die, else for the accesses that the scope reaches. -/
def Cell.orderAfter (c : Cell) (scope chip : Nat) : List OldView :=
  c.oldView.filterMap fun o =>
    if 1 ≤ scope ∧ (o.chip = chip ∨ 5 ≤ scope) then none
    else if 2 ≤ scope ∧ c.inScope scope o.chip then some { o with acq := max o.acq scope }
    else some o

/-- ACQ at a scope (R176, R308, R317, R323, R367, R380). -/
def State.acquire (s : State) (key part scope : Nat) : State :=
  let chip := keyChip key
  let c := s.cell key
  let s := if 1 ≤ scope then
      let l1 := c.l1.filter fun e => e.2.dirty
      s.setCell key { c with
        l1 := l1
        l1Tag := c.l1Tag.filter fun e => l1.any fun x => lineOf x.1 == e.1
        oldView := c.orderAfter scope chip }
    else s
  if 2 ≤ scope then
    let d := s.die chip
    let keep := fun loc => !s.dropsLine c part scope loc
    s.setDie chip { d with
      rdc := d.rdc.filter fun e => keep e.1
      rdcHas := d.rdcHas.filter fun e => keep e.1
      rdcTag := d.rdcTag.filter fun e => keep e.1
      rows := d.rows.filter fun e => keep e.1 }
  else s

/-! ## Row lines of an SPX die (R378 to R381) -/

/-- The hit counters halved once for every multiple of 2^24 up to a number of them (R379). -/
def Die.halveTo (d : Die) (n : Nat) : Die :=
  if n ≤ d.halved then d
  else { d with halved := n, rows := d.rows.map fun e => (e.1, { e.2 with hits := e.2.hits / 2 ^ (n - d.halved) }) }

/-- The counters of a die as they stand at this tick. -/
def State.halve (s : State) (chip : Nat) : State := s.setDie chip ((s.die chip).halveTo (s.tick / 2 ^ 24))

/-- A hit that brings a counter to 63 (R381): a COLD tile is fetched into the die's own tile frames where one is free
or old enough; of a RESIDENT one the last access is noted (R363). -/
def State.promote (s : State) (chip line : Nat) : State :=
  match s.tileOf line with
  | some (id, i, _) =>
    let t := s.tile id i
    match t.st with
    | .cold =>
      let fr := spxFrames chip
      let held := s.heldFrames
      let room := fr.any fun f => !held.contains f
      let old := match s.victim fr with
        | some (vb, vi) => decide ((s.tile vb vi).lastAccess + 2 ^ 24 ≤ s.tick) | none => false
      if room || old then s.startFetch id i (some chip) else s
    | .resident => s.setTile id i { t with lastAccess := s.tick }
    | _ => s
  | none => s

/-- The tile of a line is resident in a tile frame of the die. -/
def State.ownFrame (s : State) (chip line : Nat) : Bool :=
  match s.tileOf line with
  | some (id, i, _) => match (s.tile id i).frame with
    | some f => (s.tile id i).st == .resident && decide (f / 2 ^ 28 == spxLoc chip 0 / 2 ^ 28) | none => false
  | none => false

/-- The row lines of a die with a line filled in: into a full set in place of the line with the lowest counter, the
one whose last hit or fill is oldest among equals (R379). -/
def rowFill (rows : FMap RowLine) (line : Nat) (row : RowLine) : FMap RowLine :=
  let set_ := rows.filter fun e => Config.rowSet e.1 % 262144 == Config.rowSet line % 262144
  FMap.put (match set_ with
    | [] => rows
    | e :: es =>
      if set_.length < 16 then rows
      else FMap.erase rows (es.foldl (fun m x =>
        if x.2.hits < m.2.hits || (x.2.hits == m.2.hits && x.2.last < m.2.last) then x else m) e).1) line row

/-- A row-line read of a line by an SPX die: the 64 bytes, and the state. The cell's own stores to the line come
first (R321). Only the first of an element's reads of the line counts; `more` marks another (R379). -/
def State.rowRead (s : State) (chip cell part line : Nat) (more : Bool := false) : M (List Byte × State) := do
  let s ← (s.halve chip).flushLine chip cell line
  if s.ownFrame chip line || isDbl line then
    let (at_, s) := s.viewOf (cellKey chip cell) part 1 line
    let (bs, s) ← s.homeFetch chip cell at_
    .ok (bs, s.refresh chip (writesOf line bs))
  else
    let d := s.die chip
    match FMap.find? d.rows line with
    | some r =>
      let hits := if more then r.hits else min 63 (r.hits + 1)
      let s := s.setDie chip { d with rows := FMap.put d.rows line { r with hits := hits, last := s.tick } }
      .ok (Memory.readN r.bytes 0 64, if r.hits < 63 ∧ hits = 63 then s.promote chip line else s)
    | none =>
      let tag := s.tagAt line
      let (bs, s) ← s.homeFetch chip cell line
      let d := s.die chip
      let row : RowLine := { hits := 1, last := s.tick, bytes := Memory.writeN [] 0 bs, tag := tag }
      .ok (bs, s.setDie chip { d with rows := rowFill d.rows line row })

/-- An element read of one line by asynchronous work (R310, R380): the cell's dirty L1 bytes, else the die level,
or the row lines on an SPX die for GATHER and SPX reads. -/
def State.elemRead (s : State) (key part loc n : Nat) (row na : Bool) (more : Bool := false) : M (List Byte × State) := do
  let chip := keyChip key
  let (bs, s) ←
    if row && chipClass chip == .spx then do
      let (l, s) ← s.rowRead chip (keyCell key) part (lineOf loc) more
      pure ((l.drop (loc % 64)).take n, s)
    else s.dieRead chip (keyCell key) part loc n 1 (!na)
  .ok ((s.cell key).overlay loc bs, s)

/-- An element write of one line by asynchronous work (R310): the cell's L1 copies of the bytes are dropped, and
the write is performed as a DIE-scope store. -/
def State.elemWrite (s : State) (key part loc : Nat) (bs : List Byte) (na : Bool) : M State :=
  let c := s.cell key
  let s := s.setCell key { c with l1 := FMap.clearRange c.l1 loc bs.length }
  s.dieWrite (keyChip key) (keyCell key) part loc (writesOf loc bs) (!na)

/-! ## Prefetches (R193) -/

/-- A line put into the L1 by a PREFETCH, or into the RDC; the die cache of its own home holds it as any access there
leaves it (R310). -/
def State.warmLine (s : State) (key part loc scope : Nat) : M State := do
  let chip := keyChip key
  let line := lineOf loc
  if isDbl loc ∨ 2 ≤ scope then .ok s
  else if scope = 0 then (s.loadLine key part line 64 0 false).map fun r => r.2
  else (s.dieRead chip (keyCell key) part line 64 1 true).map fun r => r.2

end Sys2Proof.Machine
end

