-- ==== Sys2Proof/Machine/Addr.lean ====
section
/-! DEFINITION. Generic addresses (R72 to R75), translation (R388 to R391), and the checks of every access (R154)
with tags (R414, R415) and watchpoints (R417, R418). -/

namespace Sys2Proof.Machine

/-! ## Windows (R73, R74) -/

/-- Base and size of an enabled window (R73). -/
def aperRange (w : Word) : Option (Nat × Nat) :=
  if w.getLsbD 0 then some ((w.extractLsb' 24 33).toNat * 2 ^ 24, 2 ^ (w.extractLsb' 16 6).toNat) else none

/-- The first window that takes a VA, from number `i` on: its number and the offset (R74). -/
def windowFrom (i : Nat) : List Word → Nat → Option (Nat × Nat)
  | [], _ => none
  | w :: ws, va =>
    match aperRange w with
    | some (base, sz) => if base ≤ va ∧ va < base + sz then some (i, va - base) else windowFrom (i + 1) ws va
    | none => windowFrom (i + 1) ws va

/-- The windows of a context. -/
def State.apers (s : State) (ctx : Nat) : List Word := match s.ctx? ctx with | some c => c.aper | none => []

/-- The windows in force for the executing core. -/
def State.curApers (s : State) : List Word := s.apers (s.nodeCtx s.curNode)

/-- The window that takes a VA. -/
def windowOf (apers : List Word) (va : Nat) : Option (Nat × Nat) := windowFrom 0 apers va

/-- The first edge of a window beyond a VA; 2^57 where there is none. -/
def nextEdge (apers : List Word) (va : Nat) : Nat :=
  apers.foldl (fun m w =>
    match aperRange w with
    | some (base, sz) =>
      let m := if va < base then min m base else m
      if va < base + sz then min m (base + sz) else m
    | none => m) (2 ^ 57)

/-- A range of VAs cut where another window takes them: first VA, length, and the window with the offset there. -/
def windowSpans (apers : List Word) : Nat → Nat → Nat → List (Nat × Nat × Option (Nat × Nat))
  | 0, _, _ => []
  | fuel + 1, va, n =>
    if n = 0 then []
    else
      let k := if va < 2 ^ 57 then min n (nextEdge apers va - va) else n
      (va, k, windowOf apers va) :: windowSpans apers fuel (va + k) (n - k)

/-- The VA of a generic address (R72). -/
def addrVa (a : Word) : Nat := (a.extractLsb' 0 57).toNat
/-- The tag of a generic address (R72). -/
def addrTag (a : Word) : BitVec 4 := a.extractLsb' 60 4
/-- Bits [59:57] are zero (R72). -/
def canonical (a : Word) : Bool := a.extractLsb' 57 3 == 0

/-- Whether an offset lies beyond the backing store of a window, for a chiplet and partition (R75). -/
def State.beyond (s : State) (chip part win off : Nat) : Bool :=
  match win with
  | 0 => decide (spadBytes ≤ off)
  | 1 => decide (spadBytes * classCells (chipClass chip) ≤ off)
  | 2 => (s.tarnAt part off).isNone
  | _ => false

/-! ## Translation (R388 to R390) -/

/-- The fields of a table entry (R389). -/
def pteV (e : Nat) : Bool := e.testBit 0
def ptePgbl (e : Nat) : Bool := e.testBit 1
def pteLeaf (e : Nat) : Bool := e.testBit 2
def pteW (e : Nat) : Bool := e.testBit 3
def pteFrame (e : Nat) : Nat := natBits e 14 26 * 2 ^ 14
/-- A valid entry's reserved bits are zero and PGBL is zero. -/
def pteClean (e : Nat) : Bool := natBits e 40 24 == 0 && natBits e 4 10 == 0 && !ptePgbl e

/-- What a walk ends with: a translation, or an invalid entry with its PGBL. -/
inductive WalkEnd where
  | leaf (t : TlbEnt)
  | invalid (pgbl : Bool)
  /-- a table entry has an uncorrectable error, at this place (R427) -/
  | ue (place : Nat)
  deriving DecidableEq, Repr

/-- The levels of a walk: lowest VA bit indexed, index width, and whether a leaf, or a table, may stand there. -/
def walkLevels : List (Nat × Nat × Bool × Bool) :=
  [(47, 10, false, true), (36, 11, true, true), (25, 11, true, true), (14, 11, true, false)]

/-- A walk of the page table from a table on (R388, R389); an upper-level entry comes from a walk cache where that has
it (R390). -/
def State.walk (s : State) (part va : Nat) (cached : Nat → Option Nat) : Nat → List (Nat × Nat × Bool × Bool) → WalkEnd
  | _, [] => .invalid false
  | table, (lo, n, mayLeaf, mayTable) :: rest =>
    let at_ := table + 8 * natBits va lo n
    let e := (cached lo).getD (Memory.read64 s.mem at_).toNat
    if (cached lo).isNone && FMap.get s.bad (at_ / 64) false then .ue at_
    else if !pteV e then .invalid (ptePgbl e)
    else
      let fr := pteFrame e
      let owned := FMap.get s.frames (fr / 16384) 0 == part
      if !pteClean e || !owned then .invalid false
      else if pteLeaf e then
        if mayLeaf && fr % 2 ^ lo == 0 then .leaf ⟨fr, lo, pteW e⟩ else .invalid false
      else if mayTable then s.walk part va cached fr rest
      else .invalid false

/-- A walk from a context's root. -/
def State.walkCtx (s : State) (ctx va : Nat) : WalkEnd :=
  match s.ctx? ctx with | some c => s.walk c.part va (fun _ => none) c.root walkLevels | none => .invalid false

/-- The key of an upper-level entry in a walk cache: context, lowest VA bit of the level, and the VA from that bit. -/
def walkKey (ctx lo va : Nat) : Nat := ctx * 2 ^ 64 + lo * 2 ^ 57 + va / 2 ^ lo

/-- The upper-level entries that a walk passes on its way to a leaf: key and entry. -/
def State.walkPath (s : State) (ctx va : Nat) (cached : Nat → Option Nat) :
    Nat → List (Nat × Nat × Bool × Bool) → List (Nat × Nat)
  | _, [] => []
  | table, (lo, n, _, _) :: rest =>
    let e := (cached lo).getD (Memory.read64 s.mem (table + 8 * natBits va lo n)).toNat
    if pteV e && !pteLeaf e then (walkKey ctx lo va, e) :: s.walkPath ctx va cached (pteFrame e) rest else []

/-- A walk made by a die (R390). Which entries its walk cache still holds is free, level by level: the cache has no
stated size. The upper-level entries passed on the way to a leaf stand in it afterwards. -/
def State.dieWalk (s : State) (chip ctx va : Nat) : WalkEnd × State :=
  match s.ctx? ctx with
  | none => (.invalid false, s)
  | some c =>
    let (x, s) := s.draw
    let d := s.die chip
    let cached := fun (lo : Nat) => if x.testBit lo then FMap.find? d.walkc (walkKey ctx lo va) else none
    match s.walk c.part va cached c.root walkLevels with
    | .leaf t =>
      let seen := s.walkPath ctx va cached c.root walkLevels
      (.leaf t, s.setDie chip { d with walkc := seen.foldl (fun (m : FMap Nat) e => FMap.put m e.1 e.2) d.walkc })
    | r => (r, s)

/-- The translation of a VA for a cell through its TLBs (R390). -/
def State.tlbLookup (s : State) (key ctx va : Nat) : WalkEnd × State :=
  let page := va / 16384
  let c := s.cell key
  match FMap.find? c.tlb page with
  | some t => (.leaf t, s)
  | none =>
    let chip := keyChip key
    let d := s.die chip
    let install := fun (s : State) (t : TlbEnt) =>
      let (x, s) := s.draw
      let c := s.cell key
      s.setCell key { c with tlb := FMap.put (makeRoom 64 c.tlb x) page t }
    match FMap.find? d.tlb (ctx * 2 ^ 43 + page) with
    | some t => (.leaf t, install s t)
    | none =>
      match s.dieWalk chip ctx va with
      | (.leaf t, s) =>
        let (x, s) := s.draw
        let d := s.die chip
        let s := s.setDie chip { d with tlb := FMap.put (makeRoom 4096 d.tlb x) (ctx * 2 ^ 43 + page) t }
        (.leaf t, install s t)
      | r => r

/-- The location a translation gives a VA: a page of a DOUBLE buffer is left for the home to resolve (R180). -/
def State.locOf (s : State) (t : TlbEnt) (ctx va : Nat) (shadow : Bool) : Nat :=
  let plain := t.frame + va % 2 ^ t.bits
  match s.buffers.find? fun e => e.2.double && e.2.live && e.2.ctx == ctx && decide (e.2.va ≤ va ∧ va < e.2.va + e.2.len) with
  | some (id, b) => dblLoc id shadow (va - b.va)
  | none => plain

/-! ## Watchpoints (R417, R418) -/

/-- An access as a watchpoint sees it: first VA, length, kind (0 read, 1 write, 2 atomic) and watch scope. -/
structure Watched where
  va : Nat
  len : Nat
  kind : Nat
  scope : Nat
  deriving DecidableEq, Repr

/-- A watchpoint that is armed matches an access (R418); a range of no bytes never does (R417). -/
def WatchPt.hits (p : WatchPt) (q : Watched) : Bool :=
  let lo := addrVa p.base
  let n := (p.len.extractLsb' 0 48).toNat
  let hi := min (lo + n) (2 ^ 57)
  p.ctl.getLsbD q.kind && decide ((p.ctl.extractLsb' 4 3).toNat ≤ q.scope) && decide (0 < n)
    && decide (q.va < hi) && decide (lo < q.va + q.len)

/-- Check 9 of R154 under the watchpoints `ps`: the one that faults, lowest first, or the present watchpoints `now` with
the counts of those that count. DEDUCED: a match under
what held at issue counts in WPCNT as it stands at the access (log entry 156). -/
def watchCheck (ps now : List WatchPt) (q : Watched) : Except Nat (List WatchPt) :=
  let hit := fun (p : WatchPt) => p.ctl.getLsbD 8 && p.hits q
  match (ps.zipIdx.find? fun e => hit e.1 && !e.1.ctl.getLsbD 9) with
  | some e => .error e.2
  | none => .ok (now.zipIdx.map fun e =>
      if hit (nthD ps e.2 WatchPt.zero) then { e.1 with cnt := min (e.1.cnt + 1) (2 ^ 32 - 1) } else e.1)

/-- A watchpoint of a cell. -/
def Cell.wp (c : Cell) (i : Nat) : WatchPt := nthD c.watch i WatchPt.zero

/-- The arm bits of the watchpoints (R141). -/
def Cell.armMask (c : Cell) : Nat :=
  (List.range 8).foldl (fun a i => a + (if (c.wp i).ctl.getLsbD 8 then 2 ^ i else 0)) 0

/-- The watchpoints under which the access being performed for a cell is checked: as they stood when its word, or the
word of its command, issued (R141, R419). -/
def State.watchOf (s : State) (key : Nat) : List WatchPt :=
  let c := s.cell key
  match s.actor with
  | some (.job k id _ _) =>
    if k = key then (match c.jobs.find? fun j => j.id == id with | some j => j.wps | none => c.watch) else c.watch
  | _ => let g := s.core.eng s.curEng; if g.issued then g.wps else c.watch

/-- The VA at which an access without a generic address is compared (R418). -/
def State.localVa (s : State) (key off : Nat) : Nat :=
  match (s.apers (s.nodeCtx (s.cell key).node))[0]? with
  | some w => (w.extractLsb' 24 33).toNat * 2 ^ 24 + off
  | none => off

/-! ## The checks of an access (R154) -/

/-- A cause that a level of memory found, with the address of the access that met it (R412). -/
def atAddr {α : Type} (a : Word) (m : M α) : M α :=
  match m with
  | .error (.cause r t) => .error (.cause (if r.code = 0xE1 ∧ r.addr = 0 then { r with addr := a } else r) t)
  | m => m

/-- Where an access goes. -/
inductive Place where
  /-- a scratchpad: cell key, byte -/
  | spad (key off : Nat)
  /-- a location of TARN or GLOBAL -/
  | line (loc : Nat)
  deriving DecidableEq, Repr

/-- An access to check. -/
structure Acc where
  addr : Word
  size : Nat
  write : Bool := false
  atomic : Bool := false
  /-- RS of an atomic, which LOCAL and DIE admit only to 1 (R171). -/
  atomScope : Nat := 0
  /-- a SCATTER store, which obeys the window rules of R171 too (R192). -/
  scopeRule : Bool := false
  /-- LDS and STS: LOCAL and DIE only (R160). -/
  spadOnly : Bool := false
  align : Nat := 1
  shadow : Bool := false
  /-- the scope at which it is performed. -/
  scope : Nat := 0
  /-- an element read that row lines may serve (R380). -/
  row : Bool := false
  /-- watch scope of an element, which its window does not change (R418). -/
  element : Option Nat := none
  /-- whether check 9 is made. -/
  watch : Bool := true

/-- The watch kind of an access. -/
def Acc.kind (q : Acc) : Nat := if q.atomic then 2 else if q.write then 1 else 0

/-- Check 9 for a cell's access, and the counts it leaves. -/
def State.watchAt (s : State) (key : Nat) (q : Acc) (wscope : Nat) : M State :=
  if !q.watch then .ok s
  else
    let c := s.cell key
    match watchCheck (s.watchOf key) c.watch ⟨addrVa q.addr, q.size, q.kind, wscope⟩ with
    | .error i => .error (.cause { code := 0x48, addr := q.addr, aux := BitVec.ofNat 64 i } none)
    | .ok ps => .ok (if ps = c.watch then s else s.setCell key { c with watch := ps })

/-- Checks 1 to 9 of R154 for an access of a cell that touches one granule. Check 8 is made against the tag that the
copy carries which serves the access (R414). DESIGN CHOICE: the 0x23 of R469, for a peer cell that does not serve, is made
with check 3, before 0x28, 0x20 and 0x48; R469 does not place it (log entry 143). -/
def State.access (s : State) (key : Nat) (q : Acc) : M (Place × State) := do
  let chip := keyChip key
  let ctx := s.nodeCtx (s.cell key).node
  let part := s.ctxPart ctx
  let va := addrVa q.addr
  if !canonical q.addr then raiseAt 0x21 q.addr
  else match windowOf (s.apers ctx) va with
  | none => raiseAt 0x22 q.addr
  | some (win, off) =>
    if s.beyond chip part win off then raiseAt 0x23 q.addr
    else
      let peer := cellKey chip (off / spadBytes)
      if win = 1 ∧ !(s.cell peer).serves then raiseAt 0x23 q.addr
      else if 2 ≤ win ∧ q.spadOnly then raiseAt 0x23 q.addr
      else if win ≤ 1 ∧ (q.atomic || q.scopeRule) ∧ 2 ≤ q.atomScope then raiseAt 0x28 q.addr
      else if q.addr.toNat % q.align ≠ 0 then raiseAt 0x20 q.addr
      else
        let tagged := fun (s : State) (loc : Nat) => do
          let t := s.tagServed key part loc (levelOf loc q.scope) q.row
          if t ≠ addrTag q.addr then
            (.error (.cause { code := 0x40, addr := q.addr, tags := some (addrTag q.addr, t) } none) : M (Place × State))
          else
            -- R357: a TARN or GLOBAL write ends polling
            let s := if q.write || q.atomic then s.setCell key { s.cell key with pollSince := s.tick } else s
            .ok (.line loc, ← s.watchAt key q (q.element.getD q.scope))
        match win with
        | 0 => .ok (.spad key off, ← s.watchAt key q (q.element.getD 0))
        | 1 => .ok (.spad peer (off % spadBytes), ← s.watchAt key q (q.element.getD (if peer = key then 0 else 1)))
        | 2 => match s.tarnAt part off with | some loc => tagged s loc | none => raiseAt 0x23 q.addr
        | _ =>
          match s.tlbLookup key ctx va with
          | (.leaf t, s) =>
            if (q.write || q.atomic) && !t.w then raiseAt 0x25 q.addr
            else tagged s (s.locOf t ctx va q.shadow)
          | (.invalid pgbl, _) =>
            if pgbl then .error (.page ctx (va / 16384) (q.write || q.atomic) q.addr) else raiseAt 0x24 q.addr
          | (.ue p, _) =>
            .error (.cause { code := 0xE1, addr := q.addr, aux := ueAux p } none)

/-- Checks 1 to 8 for an access the GSD makes for a context under its windows and page table: a GLOBAL address
only (R337, R346, R454). The cause of the failing check, or the location. -/
def State.gsdAccess (s : State) (ctx : Nat) (addr : Word) (size align : Nat) (write : Bool) (shadow : Bool := false) :
    Except (BitVec 8) Nat :=
  let va := addrVa addr
  if !canonical addr then .error 0x21
  else match windowOf (s.apers ctx) va with
  | none => .error 0x22
  | some (3, _) =>
    if addr.toNat % align ≠ 0 then .error 0x20
    else match s.walkCtx ctx va with
      | .leaf t =>
        if write && !t.w then .error 0x25
        else
          let loc := s.locOf t ctx va shadow
          let last := s.locOf t ctx (va + size - 1) shadow
          if s.tagAt loc ≠ addrTag addr ∨ s.tagAt last ≠ addrTag addr then .error 0x40 else .ok loc
      | .invalid _ => .error 0x24
      | .ue _ => .error 0xE1
  | some _ => .error 0x23

/-- Bytes the GSD reads at a GLOBAL address, granule by granule, performed at the home. -/
def State.gsdRead (s : State) (ctx : Nat) (addr : Word) : Nat → Nat → Except (BitVec 8) (List Byte)
  | 0, _ => .ok []
  | fuel + 1, n =>
    if n = 0 then .ok []
    else
      let k := min n (64 - addr.toNat % 64)
      match s.gsdAccess ctx addr k 1 false with
      | .error c => .error c
      | .ok loc =>
        match s.gsdRead ctx (addr + BitVec.ofNat 64 k) fuel (n - k) with
        | .error c => .error c
        | .ok bs =>
          if FMap.get s.bad (s.place loc / 64) false then .error 0xE1 else .ok (s.homeRead loc k ++ bs)

/-- Granules that the GSD has read from an address on: the tiles they lie in were accessed, moves of theirs ended
(R363, R364; log entry 115). -/
def State.gsdTouch (s : State) (ctx : Nat) : Nat → Word → State
  | 0, _ => s
  | n + 1, addr =>
    (match s.gsdAccess ctx addr 1 1 false with
      | .ok loc => (if s.homeBusy loc then s.homeForce loc else s).homeTouch loc false
      | .error _ => s).gsdTouch ctx n
      (addr + BitVec.ofNat 64 (64 - addr.toNat % 64))

/-- AUX of the uncorrectable error that the GSD meets from an address on, within a number of granules (R413). -/
def State.gsdUe (s : State) (ctx : Nat) : Nat → Word → Word
  | 0, _ => 0
  | n + 1, addr =>
    match s.walkCtx ctx (addrVa addr) with
    | .ue p => ueAux p
    | .invalid _ => 0
    | .leaf t =>
      let p := s.place (s.locOf t ctx (addrVa addr) false)
      if FMap.get s.bad (p / 64) false then ueAux p
      else s.gsdUe ctx n (addr + BitVec.ofNat 64 (64 - addr.toNat % 64))

/-- Bytes the GSD writes at a GLOBAL address within one granule, performed at the home. A write to a moving or
cold tile waits for the tile; the GSD's write is then performed at its new place. -/
def State.gsdWrite (s : State) (ctx : Nat) (addr : Word) (bs : List Byte) : Except (BitVec 8) State :=
  match s.gsdAccess ctx addr bs.length 1 true with
  | .error c => .error c
  | .ok loc => .ok (s.homePut loc (writesOf loc bs))

/-! ## Scratchpad bytes -/

/-- Bytes of a cell's scratchpad. -/
def Cell.spadRead (c : Cell) (off n : Nat) : List Byte := Memory.readN c.spad off n

/-- The 16-byte granules that a byte range touches (R160, R185). -/
def granules (off n : Nat) : List Nat :=
  if n = 0 then [] else (List.range ((off + n - 1) / 16 - off / 16 + 1)).map fun i => off / 16 + i

/-- Whether a byte range of the scratchpad touches a granule that accepted work of the cell has locked (R185). DESIGN CHOICE: a
command all of whose elements are performed locks nothing any more, be its commit or token held (log entry 150). -/
def Cell.locked (c : Cell) (off n : Nat) : Bool :=
  c.jobs.any fun j => !j.finished && j.locks.any fun r =>
    decide (r.1 / 16 * 16 < off + n) && decide (off < (r.1 + r.2 + 15) / 16 * 16) && decide (0 < r.2) && decide (0 < n)

/-- ORDWATCH.EN in force for the word at a position (R295). -/
def Cell.ordAt (c : Cell) (pos : Nat) : Bool :=
  match c.ordLog.find? fun e => decide (e.1 < pos) with | some e => e.2 | none => c.ordActive

/-- A word of C that writes ORDWATCH. -/
def Instr.writesOrd : Instr → Bool
  | .csrw f | .csrs f | .csrc f => f.imm.toNat % 4096 == 0x12
  | _ => false

/-- ORDWATCH for the word at a position is not known: before it stands a tag-7 word that C has not passed, and before that a
write of ORDWATCH by C that no tag-7 word has put in force (R295). -/
def Cell.ordOpen (c : Cell) (cls : DieClass) (code : List Word) (pos : Nat) : Bool :=
  !c.engC.done && (List.range (pos - c.engC.pos)).foldl (fun (st : Nat) d =>
    match c.pcAt (c.engC.pos + d) with
    | none => st
    | some pc =>
      if st == 1 && (match c.wordAt code (pc / 8) with | some w => fEng w == 7 | none => false) then 2
      else if st == 0 && (match c.instrAt cls code (pc / 8) with | some i => Instr.writesOrd i | none => false) then 1 else st)
    (if c.ordwatch = c.ordAt c.engC.pos then 0 else 1) == 2

/-- A write of ORDWATCH in handler mode: it holds for every word that issues after the ERET (R406), and what was read
before stays watched, or not, as it was. -/
def Cell.handlerOrd (c : Cell) (on : Bool) : Cell :=
  { c with ordwatch := on, ordActive := on, ordLog := [], reads := c.reads.filter fun r => c.ordAt r.pos }

/-- Reads kept until every live engine has passed them (R294): which of them are watched is known once C has passed the
tag-7 words before them (R295). -/
def Cell.noteRead (c : Cell) (cls : DieClass) (e : EngTag) (pos pc off n : Nat) : Cell :=
  let m := c.minPos cls
  { c with reads := ⟨e, pos, pc, off, n⟩ :: c.reads.filter fun r => decide (m ≤ r.pos) }

/-- The recorded reads of other engines that a store at a position passes (R294). -/
def Cell.readsPast (c : Cell) (e : EngTag) (pos off n : Nat) : List WatchedRead :=
  c.reads.filter fun r => r.eng != e && decide (pos < r.pos) && decide (r.off < off + n) && decide (off < r.off + r.len)

/-- Whether a store that passes a read is watched is not known yet. DESIGN CHOICE: it waits for C, as for a register not
yet written (log entry 148). -/
def State.ordWaits (s : State) (key : Nat) (e : EngTag) (pos off n : Nat) : Bool :=
  let c := s.cell key
  (c.readsPast e pos off n).any fun r => c.ordOpen s.curClass s.curCode r.pos

/-- The recorded read that a watched store at a position passes, with the lowest first overlapping byte (R294). -/
def Cell.passedRead (c : Cell) (e : EngTag) (pos off n : Nat) : Option (WatchedRead × Nat) :=
  let hits := ((c.readsPast e pos off n).filter fun r => c.ordAt pos && c.ordAt r.pos).map fun r => (r, max off r.off)
  match hits with
  | [] => none
  | h :: hs => some (hs.foldl (fun m x => if x.2 < m.2 then x else m) h)

end Sys2Proof.Machine
end

