-- ==== Sys2Proof/Machine/Ops.lean ====
section
/-! DEFINITION. What every word shares: issue, retirement, the loop end, tokens, causes, trap entry and return,
fault records and events (R84, R124, R128, R145 to R149, R287 to R290, R408 to R413, R456). -/

namespace Sys2Proof.Machine

abbrev Result := Host.Outcome State Fault Refusal

/-! ## Events for the host (R456, R457) -/

/-- A list of bytes with some of them replaced. -/
def patch (bs : List Byte) (at_ : Nat) (new : List Byte) : List Byte :=
  bs.take at_ ++ new ++ bs.drop (at_ + new.length)

/-- The 128 bytes of an event: kind, partition, context, fields given as (offset, length, value), and a record. -/
def eventBytes (kind part ctx : Nat) (fields : List (Nat × Nat × Nat)) (rec_ : List Byte) : List Byte :=
  let base := patch (patch (patch (List.replicate 128 0) 0 (leBytes 1 kind)) 2 (leBytes 2 part)) 4 (leBytes 4 ctx)
  patch (fields.foldl (fun b f => patch b f.1 (leBytes f.2.1 f.2.2)) base) 64 rec_

/-- The event ring has room (R455). A ring whose size the host has not set holds nothing. -/
def State.ringRoom (s : State) : Bool :=
  decide (4 ≤ s.evLog2) && decide ((s.evWr + 2 ^ 32 - s.evRd) % 2 ^ 32 < 2 ^ s.evLog2)

/-- An event written into the ring, with vector 0 (R451, R455). -/
def State.ringPut (s : State) (b : EventBytes) : State :=
  { s with
    host := Memory.writeN s.host (s.evBase.toNat + 128 * (s.evWr % 2 ^ s.evLog2)) b
    evWr := (s.evWr + 1) % 2 ^ 32, msix := 0 :: s.msix }

/-- Kept events written while the ring has room; the rest stays kept (R456). -/
def State.flushKept (s : State) : List EventBytes → State
  | [] => { s with evKept := [] }
  | b :: bs => if s.ringRoom then (s.ringPut b).flushKept bs else { s with evKept := b :: bs }

/-- An event that is never lost can be posted: the ring has room, or fewer than 1,024 events are kept. Else its cause
waits (R456) (DEDUCED, log entry 158). -/
def State.eventRoom (s : State) : Bool := decide (s.evKept.length < 1024) || s.ringRoom

/-- An event posted. While the ring is full it is kept; beyond 1,024 kept events the kinds that may be lost are
counted (R456). -/
def State.postEvent (s : State) (kind part ctx : Nat) (fields : List (Nat × Nat × Nat)) (rec_ : List Byte) : State :=
  let s := s.flushKept s.evKept
  let b := eventBytes kind part ctx fields rec_
  if s.evKept.isEmpty && s.ringRoom then s.ringPut b
  else if 1024 ≤ s.evKept.length ∧ [2, 4, 5, 8].contains kind then { s with evLost := min (s.evLost + 1) (2 ^ 32 - 1) }
  else { s with evKept := s.evKept ++ [b] }

/-- INFO of a fault record, which is ECAUSE's layout (R71, R412). -/
def Cause.info (c : Cause) : Nat :=
  c.code.toNat + c.eng.num * 2 ^ 8 + c.row * 2 ^ 16 + c.elem * 2 ^ 20 + c.view * 2 ^ 28

/-- The 64 bytes of a fault record (R412). -/
def FaultRec.bytes (r : FaultRec) : List Byte :=
  let c := r.cause
  leBytes 8 r.tick ++ leBytes 8 c.pc ++ leBytes 8 c.addr.toNat
  ++ leBytes 8 (match c.celem with | some e => e | none => 2 ^ 64 - 1)
  ++ leBytes 4 c.info
  ++ leBytes 1 (match c.tags with | some (p, g) => p.toNat + 16 * g.toNat | none => 0)
  ++ leBytes 1 ((if c.tags.isSome then 1 else 0) + (if c.celem.isSome then 2 else 0) + (if r.nested then 4 else 0)
      + (if c.pc2.isSome then 8 else 0))
  ++ leBytes 1 r.chip ++ leBytes 1 r.cell
  ++ leBytes 8 (r.node + r.queue % 2 ^ 12 * 2 ^ 16 + r.ctx * 2 ^ 32 + r.flatC * 2 ^ 48 + r.flatD * 2 ^ 56)
  ++ leBytes 8 (match c.pc2 with | some (pc, e) => pc / 8 * 8 + e.num | none => 0)
  ++ leBytes 8 c.aux.toNat

/-! ## Tokens (R58, R288, R289) -/

/-- The counter of an engine. -/
def Eng.counter (g : Eng) (n : Nat) : BitVec 8 := FMap.get g.tok n 0
/-- A counter replaced. -/
def Eng.setCounter (g : Eng) (n : Nat) (v : BitVec 8) : Eng := { g with tok := FMap.set g.tok n v 0 }

/-- The entries that the completion queue holds for a counter, applied as far as the counter takes them (R290). -/
def Eng.applyCq (g : Eng) (n : BitVec 3) : Eng :=
  let k := min (g.cq.count n) (255 - (g.counter n.toNat).toNat)
  { g.setCounter n.toNat (g.counter n.toNat + BitVec.ofNat 8 k) with cq := (List.range k).foldl (fun l _ => l.erase n) g.cq }

/-- T0 of M's next stamp, with the acceptance tick of one more command whose push has reached M's counters (R441). -/
def Cell.reachT0 (c : Cell) (t : Option Nat) : Cell :=
  match t with
  | none => c
  | some t => { c with stampT0 := some (match c.stampT0 with | some u => min t u | none => t) }

/-- Entries that left the completion queue of an engine for a counter: what R288 and R441 note of them. -/
def Cell.noteCq (c : Cell) (e : EngTag) (n : BitVec 3) (k : Nat) : Cell :=
  let c := { c with nowTok := List.replicate k (0, ⟨e, n⟩) ++ c.nowTok }
  if e = .m then
    (List.range k).foldl (fun (c : Cell) _ =>
      match c.cqTicks.find? fun x => x.1 == n with
      | some x => { c.reachT0 x.2 with cqTicks := c.cqTicks.erase x }
      | none => c) c
  else c

/-- The entries that the completion queue of an engine holds for a counter, applied as far as the counter takes them. -/
def Cell.applyCq (c : Cell) (e : EngTag) (n : BitVec 3) : Cell :=
  let g := c.eng e
  (c.setEng e (g.applyCq n)).noteCq e n (g.cq.length - (g.applyCq n).cq.length)

/-- A push to a counter of the cell, after the entries that the receiver's completion queue holds for it (R288): none
when the counter stands at 255. A push to an engine at END is discarded. -/
def Cell.pushTok (c : Cell) (p : Push) : Option Cell :=
  if (c.eng p.eng).done then some c
  else
    let c := c.applyCq p.eng p.cnt
    let g := c.eng p.eng
    let v := g.counter p.cnt.toNat
    if v = 255 then none else some (c.setEng p.eng (g.setCounter p.cnt.toNat (v + 1)))

/-- The pushes that a counter of an engine has taken in the present cycle (R288). -/
def Cell.pushedNow (c : Cell) (e : EngTag) (i : Nat) : Nat := c.nowTok.countP fun x => x.2.eng == e && x.2.cnt.toNat == i

/-- Every counter that a WAIT byte selects is non-zero (R84), without the pushes of the present cycle, which enable an
issue no earlier than the next (R288). -/
def Cell.waitOk (c : Cell) (e : EngTag) (w : BitVec 8) : Bool :=
  (List.range 8).all fun i => !w.getLsbD i || decide (c.pushedNow e i < ((c.eng e).counter i).toNat)

/-- The counters that a WAIT byte selects, decremented (R84). -/
def Eng.takeWait (g : Eng) (w : BitVec 8) : Eng :=
  (List.range 8).foldl (fun g i => if w.getLsbD i then g.setCounter i (g.counter i - 1) else g) g

/-- Counters that a word had decremented at its issue, incremented again, saturating (R146). -/
def Eng.giveWait (g : Eng) (w : BitVec 8) : Eng :=
  (List.range 8).foldl (fun g i =>
    if w.getLsbD i ∧ g.counter i ≠ 255 then g.setCounter i (g.counter i + 1) else g) g

/-- The completion queue of the receiver takes a push, where it has room (R290). -/
def Cell.queueTok (c : Cell) (p : Push) : Option Cell :=
  let g := c.eng p.eng
  if g.cq.length < 32 then some (c.setEng p.eng { g with cq := g.cq ++ [p.cnt] }) else none

/-- The rank of a completion push among the pushes of a cycle: after those of every engine tag (R288). -/
def asyncRank : Nat := 6

/-- A push of this rank noted as accepted in the present cycle. -/
def Cell.noteTok (c : Cell) (rank : Nat) (p : Push) : Cell := { c with nowTok := (rank, p) :: c.nowTok }

/-- A push accepted earlier in the cycle that ranks behind one of `rank` to the same counter: the last of them. -/
def Cell.laterTok (c : Cell) (rank : Nat) (p : Push) : Option Nat :=
  c.nowTok.foldl (fun (m : Option Nat) x =>
    if x.2 == p && decide (rank < x.1) && (match m with | some y => decide (y < x.1) | none => true) then some x.1 else m) none

/-- A push that gives way to one that ranks before it in the same cycle: an engine that has issued nothing since holds its
own again, a completion goes to the completion queue. -/
def Cell.giveWay (c : Cell) (rank : Nat) (p : Push) : Option Cell :=
  let c' := { c with nowTok := c.nowTok.erase (rank, p) }
  match EngTag.ofNum rank with
  | some e => if (c.eng e).held.isNone && !(c.eng e).issued then some (c'.setEng e { c'.eng e with held := some p }) else none
  | none => (c'.queueTok p).map fun d => if p.eng = .m then { d with cqTicks := d.cqTicks ++ [(p.cnt, none)] } else d

/-- A push of a retiring word of an engine, in the order in which the pushes of a cycle are accepted (R288): at a full
counter, one that ranks behind it and was accepted in this cycle gives way. -/
def Cell.retireTok (c : Cell) (e : EngTag) (p : Push) : Option Cell :=
  match c.pushTok p with
  | some d => some (d.noteTok e.num p)
  | none => (c.laterTok e.num p).bind fun r => (c.giveWay r p).map fun d => d.noteTok e.num p

/-- A completion push of asynchronous work: taken by the counter, or by the completion queue, or kept (R290). For M's
stamps it brings the acceptance tick of its command (R441), none from a peer. -/
def Cell.completeTok (c : Cell) (p : Push) (acc : Option Nat) : Option Cell :=
  match c.pushTok p with
  | some d => some ((if p.eng = .m ∧ !(c.eng .m).done then d.reachT0 acc else d).noteTok asyncRank p)
  | none => (c.queueTok p).map fun d => if p.eng = .m then { d with cqTicks := d.cqTicks ++ [(p.cnt, acc)] } else d

/-! ## The loop end (R128, R231) -/

/-- The loop-end test at a next PC: where the engine goes, its loop stack, and the loop ends passed, each with its
entry, how many iterations ended, and whether the loop goes on. -/
def loopEnd : List LoopEnt → Nat → Nat × List LoopEnt × List (LoopEnt × Nat × Bool)
  | [], pc => (pc, [], [])
  | l :: rest, pc =>
    if pc = l.endPc then
      if l.startPc ≠ l.endPc ∧ 1 < l.left then
        (l.startPc, { l with left := l.left - 1, iter := l.iter + 1 } :: rest, [(l, 1, true)])
      else
        let (p, ls, es) := loopEnd rest pc
        (p, ls, (l, if l.startPc = l.endPc then l.left else 1, false) :: es)
    else (pc, l :: rest, [])

/-- The stage predicates of an iteration (R55, R231). -/
def Cell.setStages (c : Cell) (n stg i : Nat) : Cell :=
  (List.range 8).foldl (fun c st =>
    { c with k := FMap.set c.k (8 + st) (if st ≤ stg ∧ st ≤ i ∧ i - st < n then BitVec.allOnes 2048 else 0) 0 }) c

/-- k8 to k15 all zero. -/
def Cell.clearStages (c : Cell) : Cell := c.setStages 0 0 0

/-- What X's passing of loop ends does to VROT and the stage predicates (R231). -/
def Cell.rotate (c : Cell) (ls : List LoopEnt) (es : List (LoopEnt × Nat × Bool)) : Cell :=
  es.foldl (fun c e =>
    if !e.1.rot then c
    else
      let c := if c.vrotSize ≠ 0 then { c with vrotOff := (c.vrotOff + e.2.1) % c.vrotSize } else c
      if e.2.2 then c.setStages e.1.n e.1.stg (e.1.iter + 1)
      else { c.clearStages with stageOpen := ls.any fun l => l.rot }) c

/-! ## Issue and retirement -/

/-- Versions and path entries that no engine needs any more are dropped. -/
def Cell.prune (c : Cell) (cls : DieClass) : Cell :=
  let m := c.minPos cls
  let n := min (m - c.pathBase) c.path.length
  { c.settleLc cls with path := c.path.drop n, pathBase := c.pathBase + n }

/-- VROT written from a 64-bit value (R69): OFF is reduced modulo SIZE. -/
def Cell.setVrot (c : Cell) (w : Word) : Cell :=
  let size := natBits w.toNat 8 9
  { c with vrotBase := natBits w.toNat 0 8, vrotSize := size
           vrotOff := if size = 0 then 0 else natBits w.toNat 24 8 % size }

/-- Writes of VROT by C at positions before `n`, which X passes, take effect (R232). -/
def Cell.settleVrot (c : Cell) (n : Nat) : Cell :=
  let due := c.vrotPend.filter fun p => c.engX.done || decide (p.1 < n)
  { due.foldl (fun (c : Cell) p => c.setVrot p.2) c with
    vrotPend := c.vrotPend.filter fun p => !(c.engX.done || decide (p.1 < n)) }

/-- The engine passes the word at its PC: position, path and counts move on (R284). In handler mode positions stay
(R147). -/
def Cell.pass (c : Cell) (cls : DieClass) (e : EngTag) (next : Nat) (own : Bool) : Cell :=
  let g := c.eng e
  -- R288: the pushes of its words before this one give way no more
  let c := { c with stalledSince := none, nowTok := c.nowTok.map fun (x : Nat × Push) => if x.1 = e.num then (0, x.2) else x }
  if c.handler.isSome then
    c.setEng e { g with pc := next, issued := false, waitVal := none, reason := 0 }
  else
    let c := if g.pos = c.pathBase + c.path.length then { c with path := c.path ++ [g.pc] } else c
    let c := c.setEng e { g with
      pc := next, pos := g.pos + 1, issued := false, waitVal := none, reason := 0
      ordinal := if own then g.ordinal + 1 else g.ordinal }
    (c.settleVrot c.engX.pos).prune cls

/-- Where an engine goes after a word, by the loop-end rule, with X's rotation. -/
def Cell.advance (c : Cell) (cls : DieClass) (e : EngTag) (n : Next) (wide own : Bool) : Cell :=
  let g := c.eng e
  let step := fun (c : Cell) (pc : Nat) =>
    let (p, ls, es) := loopEnd (c.eng e).lstack pc
    let c := c.setEng e { c.eng e with lstack := ls }
    (if e = .x then (c.settleVrot (g.pos + 1)).rotate ls es else c).pass cls e p own
  match n with
  | .seq => step c (g.pc + (if wide then 16 else 8))
  | .goto pc => step c pc
  | .jump pc => c.pass cls e pc own
  | .stay => c

/-- The last live engine at a tag-7 word pushes its token: every other one has passed it (R124). -/
def Cell.lastAt (c : Cell) (cls : DieClass) (e : EngTag) : Bool :=
  (c.live cls).all fun x => x == e || decide ((c.eng e).pos < (c.eng x).pos)

/-- A cause with its word's place. -/
def Raise.at_ (r : Raise) (e : EngTag) (pc pos : Nat) : Cause :=
  { code := r.code, eng := e, pc := pc, pos := pos, addr := r.addr, view := r.view, row := r.row, elem := r.elem,
    celem := r.celem, tags := r.tags, aux := r.aux, pc2 := r.pc2 }

/-! ## Traps (R145 to R149) -/

/-- A code of the class that a handler may take (R145). -/
def trapClass (code : BitVec 8) : Bool := (0x60 ≤ code.toNat && code.toNat ≤ 0x7F) || code == 0x49

/-- An engine stands in a word that has issued and must complete before a trap is entered (R146, step 2). A tag-7 word
at which it waits for the other engines is not executed yet. -/
def Eng.outside (g : Eng) : Bool := g.issued && g.reason != 10

/-- Trap entry (R146, step 3 on). A word of C that has issued and waits is treated as never issued (R149): the
counters its WAIT byte selects are incremented again. -/
def Cell.trapEntry (c : Cell) (t : Cause) (cwait : BitVec 8) : Cell :=
  let c := if c.engC.issued then { c with engC := c.engC.giveWait cwait } else c
  let h : Handler := { trapEng := t.eng, trapPc := t.pc, cStop := c.engC.pc, cRstack := c.engC.rstack,
                       cLstack := c.engC.lstack, cDone := c.engC.done }
  { c with
    epc := BitVec.ofNat 64 (t.pc % 2 ^ 57 / 8 * 8)
    ecause := BitVec.ofNat 64 t.info
    eaddr := t.addr
    handler := some h
    pendTrap := none
    engC := { c.engC with pc := c.tvec.toNat, rstack := [], lstack := [], done := false, issued := false, waitVal := none } }

/-- A cause raised at a word: a trap, entered at once unless another engine's issued word must complete first, or
a fatal cause (R145, R149, R409). -/
def Cell.takeCause (c : Cell) (cls : DieClass) (tick : Nat) (t : Cause) (cwait : BitVec 8) : Cell :=
  if trapClass t.code ∧ c.tvec ≠ 0 ∧ c.handler.isNone then
    -- R149: a fatal cause takes precedence, and the trap is not delivered
    if !c.fatals.isEmpty then c
    else match c.pendTrap with
    | some p => if t.pos < p.pos then { c with pendTrap := some t } else c
    | none =>
      if (c.live cls).all fun e => e == t.eng || !(c.eng e).outside then c.trapEntry t cwait
      else { c with pendTrap := some t }
  else { c with fatals := (tick, t) :: c.fatals }

/-- The launch of a packet has a faulted node. -/
def State.markFaulted (s : State) (queue idx : Nat) : State :=
  { s with opens := s.opens.map fun (o : Open) => if o.queue = queue ∧ o.idx = idx then { o with faulted := true } else o }

/-- What becomes of the dump of a new primary record (R420, R421, R423): the DUMP code of the event (R457), the
state, and whether the cells are held for it. -/
def State.dumpFor (s : State) (ctx : Nat) (recs : List FaultRec) (cells : List Nat) : Nat × State × Bool :=
  let joined := { s with dumps := s.dumps.map fun (d : Dump) =>
    if d.ctx = ctx then { d with records := d.records ++ recs.map fun (r : FaultRec) => { r with nested := true }
                                 cells := d.cells ++ cells } else d }
  if s.dumps.any fun d => d.ctx == ctx then (5, joined, !cells.isEmpty)
  else if cells.isEmpty then (0, s, false)
  else
    let armed := match s.ctx? ctx with | some c => c.dump.isSome | none => false
    if !armed then (4, { s with noArea := min (s.noArea + 1) (2 ^ 32 - 1) }, false)
    else if s.dumps.isEmpty then (1, { s with dumps := [⟨ctx, recs, cells, s.tick⟩] }, true)
    else if s.dumps.length < 5 then (2, { s with dumps := s.dumps ++ [⟨ctx, recs, cells, s.tick⟩] }, true)
    else (3, { s with qFull := min (s.qFull + 1) (2 ^ 32 - 1) }, false)

/-- The stop of the queue that launched a node whose prologue raised a cause (R345, R351), once its event can be posted
(R456). A dump of the context that is under way takes the record (R423). -/
def State.prologueFault (s : State) (node : Nat) (t : Cause) : State :=
  match s.node? node with
  | none => s
  | some n =>
    if !s.eventRoom then s
    else
    let part := s.ctxPart n.ctx
    let rec_ : FaultRec := { tick := s.tick, cause := t, chip := 0, cell := 0xFF, node := node, queue := n.queue,
                             pkt := n.pkt, ctx := n.ctx, flatC := 0, flatD := 0, nested := false }
    let s := { s with
      prols := FMap.erase s.prols node
      queues := FMap.modify s.queues n.queue fun q => { q with st := 3, cause := t.code, fidx := n.pkt } }
    let s := s.markFaulted n.queue n.pkt
    let (code, s, _) := s.dumpFor n.ctx [rec_] []
    (s.modNode node fun n => { n with st := .faulted }).postEvent 1 part n.ctx
      [(8, 2, node), (10, 2, n.queue), (12, 4, n.pkt), (16, 1, code)] rec_.bytes

/-- The WAIT byte of the word at C's PC. -/
def State.cWait (s : State) (key : Nat) : BitVec 8 :=
  let c := s.cell key
  match s.sectionOf key c with
  | some x => match c.wordAt x.words (c.engC.pc / 8) with | some w => w.extractLsb' 56 8 | none => 0
  | none => 0

/-- The delivery class "context" (R150). -/
def contextClass (code : BitVec 8) : Bool := 0xE1 ≤ code.toNat && code.toNat ≤ 0xE3

/-- A context-class cause met for a context outside the words of its cells (R412, R427): its record stands with those
before it until the context is terminated. -/
def State.condemn (s : State) (ctx : Nat) (r : FaultRec) : State :=
  { s with ctxs := FMap.modify s.ctxs ctx fun (c : Ctx) =>
      if c.terminated then c else { c with condemned := c.condemned ++ [r] } }

/-- The queue of a node, and the index of its packet. -/
def State.nodeQueue (s : State) (n : Nat) : Nat := match s.node? n with | some d => d.queue | none => 0
def State.nodePkt (s : State) (n : Nat) : Nat := match s.node? n with | some d => d.pkt | none => 0

/-- A cell meets a context-class cause outside its words (R324, R427). -/
def State.cellCondemn (s : State) (key : Nat) (r : Raise) : State :=
  let c := s.cell key
  let ctx := s.nodeCtx c.node
  s.condemn ctx
    { tick := s.tick, cause := r.at_ .c 0 0, chip := keyChip key, cell := keyCell key, node := c.node
      queue := s.nodeQueue c.node, pkt := s.nodePkt c.node, ctx := ctx, flatC := c.flatC, flatD := c.flatD
      nested := false }

/-- A cause taken where it was raised. -/
def State.deliver (s : State) (r : Raise) : State :=
  match s.cur with
  | .cell key e =>
    let c := s.cell key
    let g := c.eng e
    s.setCell key (c.takeCause (chipClass (keyChip key)) s.tick (r.at_ e g.pc g.pos) (s.cWait key))
  | .prologue n =>
    let g := s.core.engC
    let t := r.at_ .c g.pc g.pos
    if contextClass r.code then
      match s.node? n with
      | some d =>
        { s with prols := FMap.erase s.prols n }.condemn d.ctx
          { tick := s.tick, cause := t, chip := 0, cell := 0xFF, node := n, queue := d.queue, pkt := d.pkt,
            ctx := d.ctx, flatC := 0, flatD := 0, nested := false }
      | none => s
    else s.prologueFault n t

/-! ## Host path (R391) -/

/-- The PAGE_FAULT event of a request (R457), with the record of the access and of the shard that makes it (R412). -/
def State.pageFault (s : State) (q : FaultReq) (t : Cause) (chip cell node queue : Nat) : State :=
  let c := if cell = 0xFF then Cell.fresh else s.cell (cellKey chip cell)
  let rec_ : FaultRec := { tick := s.tick, cause := t, chip := chip, cell := cell, node := node, queue := queue,
                           pkt := s.nodePkt node, ctx := q.ctx, flatC := c.flatC, flatD := c.flatD, nested := false }
  s.postEvent 7 (s.ctxPart q.ctx) q.ctx
    [(16, 8, q.page * 16384), (24, 1, if q.write then 1 else 0), (25, 1, chip), (26, 1, cell), (27, 1, q.eng.num)]
    rec_.bytes

/-- An access waits for a page: it joins the request outstanding for it, or makes one (R391), once its event can be
posted (R456). -/
def State.askPage (s : State) (q : FaultReq) (t : Cause) (chip cell node queue : Nat) : State :=
  let joins := s.faults.any fun r => r.ctx == q.ctx && r.page == q.page && !r.killed
  if !joins && !s.eventRoom then s
  else
    let s := { s with faults := s.faults ++ [q] }
    if joins then s else s.pageFault q t chip cell node queue

/-- The number by which a prologue core's access stands among the cells of the requests. -/
def prolCell (node : Nat) : Nat := 2 ^ 20 + node

/-- The request of the executing word, if it waits for one. -/
def State.myFault (s : State) : Option FaultReq :=
  let who := match s.cur with | .cell key _ => key | .prologue n => prolCell n
  s.faults.find? fun r => r.cell == who && r.eng == s.curEng && r.job.isNone

/-! ## Running a word -/

/-- The executing engine's state changed. -/
def State.modEng (s : State) (f : Eng → Eng) : State :=
  let c := s.core
  s.setCore (c.setEng s.curEng (f (c.eng s.curEng)))

/-- A write to ORDWATCH takes effect at the tag-7 word that C passes (R295). -/
def Cell.noteOrd (c : Cell) : Cell :=
  if c.ordwatch = c.ordAt (c.engC.pos + 1) then c else { c with ordLog := (c.engC.pos, c.ordwatch) :: c.ordLog }

/-- Retirement of a word whose body is done (R84, R85, R124, R128, R289). -/
def State.retire (s : State) (h : Hdr) (wide : Bool) (n : Next) : State :=
  let c := s.core
  let cls := s.curClass
  let e := s.curEng
  let pushes := h.eng ≠ 7 ∨ c.handler.isSome ∨ c.lastAt cls e
  -- R295: a write to ORDWATCH takes effect at the first tag-7 word after it
  let c := if h.eng = 7 ∧ e = .c then c.noteOrd else c
  let c := c.advance cls e n wide true
  let c := if e = .m then { c with reachM := s.tick } else c
  -- R125: an entry that this word no longer holds back, or makes room for
  let c := Cell.bqEnter cls s.curCode c.bqHeld c
  match h.sig with
  | some g =>
    if pushes ∧ !g.done then
      match c.retireTok e ⟨g.eng, g.cnt⟩ with
      | some c => s.setCore c
      | none => s.setCore (c.setEng e { c.eng e with held := some ⟨g.eng, g.cnt⟩ })
    else s.setCore c
  | none => s.setCore c

/-- What the result of a body makes of the state before issue `s0`. -/
def State.settle (s0 : State) (h : Hdr) (wide : Bool) : M (State × Next) → State
  | .ok (s, n) => s.retire h wide n
  | .error (.block r) => s0.modEng fun g => { g with reason := r }
  | .error (.wait s r) =>
    s.modEng fun g => { g with issued := true, reason := r, wps := if g.issued then g.wps else s.core.watch }
  | .error (.tile id i w fetch) =>
    ((if fetch then s0.startFetch id i none else s0).hold id i w).modEng fun g => { (if g.issued then g else g.takeWait h.wait) with
      issued := true, reason := 12, wps := if g.issued then g.wps else s0.core.watch }
  | .error (.bank k) =>
    s0.modEng fun g => { (if g.issued then g else g.takeWait h.wait) with
      issued := true, reason := 12, waitVal := some (BitVec.ofNat 64 (s0.cell k).serial)
      wps := if g.issued then g.wps else s0.core.watch }
  | .error (.page ctx page w addr) =>
    let who := match s0.cur with | .cell key _ => key | .prologue n => prolCell n
    let g := s0.core.eng s0.curEng
    let t := Raise.at_ { code := 0x24, addr := addr } s0.curEng g.pc g.pos
    let (chip, cell) := match s0.cur with | .cell key _ => (keyChip key, keyCell key) | .prologue _ => (0, 0xFF)
    (s0.askPage ⟨ctx, page, w, who, s0.curEng, none, addr, false⟩ t chip cell s0.curNode (s0.nodeQueue s0.curNode)).modEng
      fun g => { (if g.issued then g.giveWait h.wait else g) with issued := false, reason := 12 }
  | .error (.cause r after) =>
    let s := after.getD s0
    let s := if (s.core.eng s.curEng).issued then
        s.modEng fun g => { g.giveWait h.wait with issued := false, waitVal := none } else s
    s.deliver r

/-- The slip window admits the word (R287); it does not bind C in handler mode. -/
def Cell.slipOk (c : Cell) (cls : DieClass) (e : EngTag) : Bool :=
  c.handler.isSome || decide ((c.eng e).pos < c.minPos cls + c.winslip)

/-- The engine may issue or go on with a word: the shard runs, no stop or trap of its cell holds it. In a halted shard
words already issued go on (R138), and under a discard those that wait at the home or perform their granules (R392,
step 3). -/
def Cell.mayRun (c : Cell) (e : EngTag) : Bool :=
  (c.phase == .running || (c.phase == .halted && (c.eng e).issued)
    || (c.phase == .halting && (c.eng e).issued && (((c.eng e).reason == 12 && (c.eng e).waitVal.isNone) || (c.eng e).reason == 0)))
    && !(c.eng e).done && (c.handler.isNone || e == .c)
    && (c.pendTrap.isNone || (c.eng e).outside)
    && !(c.fatals.any fun f => f.2.eng == e)

/-- A word on a cell's engine: the issue conditions of R84, R287, R289 and R301, then the body (R146 gives a word
that raises a cause no effect). -/
def State.runCell (s : State) (h : Hdr) (wide : Bool) (body : State → M (State × Next)) : State :=
  let c := s.core
  let e := s.curEng
  let g := c.eng e
  if !c.mayRun e then s
  else if g.held.isSome then s.modEng fun g => { g with reason := 7 }
  else match s.myFault with
    | some q =>
      if q.killed then
        { s with faults := s.faults.filter fun r => r != q }.deliver
          { code := 0x24, addr := q.addr }
      else s
    | none =>
      if g.issued then s.settle h wide (body s)
      else if !c.slipOk s.curClass e then s.modEng fun g => { g with reason := 6 }
      else if !c.waitOk e h.wait then s.modEng fun g => { g with reason := 1 }
      else s.settle h wide (body (s.modEng fun g => g.takeWait h.wait))

/-- A word on a prologue core (R351): WAIT and SIGNAL are zero, and each word counts against the budget. -/
def State.runPrologue (s : State) (h : Hdr) (wide allowed : Bool) (body : State → M (State × Next)) : State :=
  match s.cur with
  | .prologue n =>
    match FMap.find? s.prols n with
    | none => s
    | some p =>
      if 4096 ≤ p.count then
        s.deliver { code := 0xC6, aux := BitVec.ofNat 64 (match s.node? n with | some d => d.pkt | none => 0) }
      else if !allowed then s.deliver { code := 0x01 }
      else if h.wait ≠ 0 ∨ h.sig.isSome then s.deliver { code := 0x02 }
      else match s.myFault with
        | some q =>
          if q.killed then
            { s with faults := s.faults.filter fun r => r != q }.deliver
              { code := 0x24, addr := q.addr }
          else s
        | none =>
          let counted := fun (r : M (State × Next)) => match r with
            | .ok (t, x) => (.ok ({ t with prols := FMap.modify t.prols n fun p => { p with count := p.count + 1 } }, x)
                : M (State × Next))
            | r => r
          s.settle h wide (counted (body s))
  | _ => s

/-- A word of the executing core: a cell's engine, or a prologue core when the word is one it executes. -/
def runWord (h : Hdr) (wide onPrologue : Bool) (body : State → M (State × Next)) (s : State) : Result :=
  match s.cur with
  | .cell key _ =>
    if (FMap.find? s.cells key).isSome then .next (s.runCell h wide body) else .fault .noExecutor
  | .prologue n =>
    if (FMap.find? s.prols n).isSome then .next (s.runPrologue h wide onPrologue body) else .fault .noExecutor

/-- An event or command: it is no word of an engine, and always ends in a next state. -/
def event (s : State) : Result := .next s

/-- A body that goes on to the next word. -/
def seqM (r : M State) : M (State × Next) := do .ok (← r, .seq)

/-- A word may stand in handler mode only where R147 allows it. -/
def notInHandler (s : State) : M Unit := if s.core.handler.isSome then raise 0x8F else .ok ()

/-! ## Writing back and stopping (R392, R408) -/

/-- The pending messages of a cell performed, with every write-through of its die that was pending: what a release at
SYS waits for (R308, item 4; R316). -/
def State.performOut (s : State) (key : Nat) : State :=
  s.flushNow (keyChip key) fun m => m.wt || m.cell == keyCell key

/-- A line's dirty bytes sent on from the L1, after the pending messages where no more may be outstanding (R324). Bytes
that no path leads home terminate the context with 0xE2. -/
def State.drainLine (s : State) (key part line : Nat) : State :=
  match s.l1Evict key part line false with
  | .ok t => t
  | .error (.cause r _) => s.cellCondemn key r
  | .error _ =>
    let s := s.performOut key
    match s.l1Evict key part line false with
    | .ok t => t
    | .error (.cause r _) => s.cellCondemn key r
    | .error _ => s

/-- A cell's dirty bytes and the pending messages of its die performed at their homes (R316; R392, steps 3 and 4; R408,
step 3). -/
def State.drainCell (s : State) (key part : Nat) : State :=
  ((s.cell key).dirtyLines.foldl (fun (s : State) l => s.drainLine key part l) s).performOut key

/-- The writes that a cell has on their way, and its dirty lines, meet no move of a tile and no access of another that
waits there: they can be performed in the order they arrived (R364). -/
def State.drainReady (s : State) (key : Nat) : Bool :=
  let chip := keyChip key
  let ms := s.selected chip fun m => m.wt || m.cell == keyCell key
  let mine := ms.map fun m => Waiter.message chip m.home m.seq
  (ms.map (fun m => m.dest) ++ (s.cell key).dirtyLines).all fun loc =>
    match s.holder loc with
    | none => true
    | some (id, i) => let t := s.tile id i; !t.moving && (t.held.filter s.stillWaits).all fun w => mine.contains w

/-- Qualified accesses of a cell withdrawn from every bank (R392, step 3), and its drains into peers stopped (R272). -/
def State.withdraw (s : State) (key : Nat) : State :=
  { s with
    cells := s.cells.map fun e => (e.1, { e.2 with
      bankHeld := e.2.bankHeld.filter fun h => h.cell != key
      peerIn := e.2.peerIn.filter fun t => t.src != key })
    faults := s.faults.filter fun r => r.cell != key }

/-- The job met a fatal cause: it goes no further (R184). -/
def Job.dead (c : Cell) (j : Job) : Bool :=
  c.fatals.any fun f => f.2.pos == j.pos && f.2.eng == j.eng && f.2.celem.isSome

/-- A word of an engine has issued and performs its granules: it completes before its shard stops (R392, step 3; R408,
step 2). -/
def Eng.midWord (g : Eng) : Bool := g.issued && g.reason == 0 && g.waitVal.isSome

/-- A command of a cell stands within an element, at whose end it stops with its shard (R392, step 2; R408, step 2). One
that waits for the host's page, or behind the locks of a command that has met its fault, goes no further. -/
def State.midElement (s : State) (key : Nat) (c : Cell) : Bool :=
  c.jobs.any fun j => !j.part.isEmpty && !j.finished && !j.dead c
    && !(s.faults.any fun r => r.cell == key && r.job == some j.id)
    && !(c.jobs.any fun x => decide (x.id < j.id) && x.dead c && !x.locks.isEmpty)

/-- The shards of a node still complete what they may not leave half done: accesses that a tile's move holds, issued
words, elements that have begun, and writes that stand behind an access of another (R364; R392, steps 2 to 4; R408). -/
def State.nodeBusy (s : State) (n : Nat) : Bool :=
  s.nodeHeld n || (s.nodeCells n).any fun e =>
    (EngTag.all.any fun x => (e.2.eng x).midWord) || s.midElement e.1 e.2 || !s.drainReady e.1

/-- The ticks of a stamp record that is due, with its copy-out end: the drain's end, or the compute end when no drain
came (R441). -/
def Stamp.due (x : Stamp) : Option (Nat × Nat × Nat) :=
  match x.stop, x.out with
  | some stop, some out => some (x.start.getD x.issue, stop, out)
  | some stop, none => if x.noDrain then some (x.start.getD x.issue, stop, stop) else none
  | none, _ => none

/-- The reason code of an engine: 12 in a halted shard (R138), and for a token that a record which waits for room
withholds (R440). -/
def Cell.reasonOf (c : Cell) (e : EngTag) : Nat :=
  if c.phase = .halted then 12
  else if (c.eng e).reason = 1 && c.stamps.any (fun x => x.due.isSome && x.stall) then 12 else (c.eng e).reason

/-- The reason codes of every engine of a cell, as AUX of 0x81 (R413). -/
def Cell.reasons (c : Cell) (cls : DieClass) : Nat :=
  EngTag.all.foldl (fun a e =>
    a + (if cls.has e && !(c.eng e).done then c.reasonOf e else 0) * 2 ^ (4 * e.num)) 0

/-- Whether one fatal cause of the node comes before another (R409): ticks, then flat indices; within a shard the
lower position. Entries are (flat C, flat D, tick, cause). -/
def faultBefore (a b : Nat × Nat × Nat × Cause) : Bool :=
  if a.1 = b.1 ∧ a.2.1 = b.2.1 then decide (a.2.2.2.pos < b.2.2.2.pos)
  else decide (a.2.2.1 < b.2.2.1) || (a.2.2.1 == b.2.2.1 && (decide (a.1 < b.1) || (a.1 == b.1 && decide (a.2.1 < b.2.1))))

/-- The fatal causes of a node, primary first (R409). -/
def State.nodeFaults (s : State) (n : Nat) : List (Nat × Cell × Nat × Cause) :=
  let all := (s.nodeCells n).flatMap fun e => e.2.fatals.reverse.map fun f => (e.1, e.2, f.1, f.2)
  -- within a shard the lowest position stands for it; across shards the earliest tick
  let best := fun (l : List (Nat × Cell × Nat × Cause)) => match l with
    | [] => []
    | x :: xs =>
      let p := xs.foldl (fun m y =>
        if faultBefore (y.2.1.flatC, y.2.1.flatD, y.2.2.1, y.2.2.2) (m.2.1.flatC, m.2.1.flatD, m.2.2.1, m.2.2.2)
        then y else m) x
      [p]
  let heads := (s.nodeCells n).flatMap fun e => best (all.filter fun x => x.1 == e.1)
  match best heads with
  | [p] => p :: all.filter fun x => !(x.1 == p.1 && x.2.2.1 == p.2.2.1 && x.2.2.2 == p.2.2.2)
  | _ => all

/-- A cell that no shard holds any more: nothing of it acts or is acted on, and what the shard left in its registers,
accumulators and scratchpad stands until the next shard start (R60, R327). -/
def Cell.freed (c : Cell) : Cell :=
  { c with phase := .idle, jobs := [], peerIn := [], bankHeld := [], rejects := [], oldView := [], handler := none
           fatals := [], pendTrap := none, reads := [], stamps := [], stampT0 := none, cqTicks := [] }

/-- A cell freed. -/
def State.freeCell (s : State) (key : Nat) : State := { s with cells := FMap.modify s.cells key Cell.freed }

/-- A node stops with the fatal causes its cells have recorded (R408, R409): its work stops, dirty bytes reach
their homes, the node enters FAULTED, the event and the dump follow. -/
def State.stopNode (s : State) (n : Nat) : State :=
  match s.node? n, s.nodeFaults n with
  | some d, p :: nested =>
    let part := s.ctxPart d.ctx
    let cells := (s.nodeCells n).map fun e => e.1
    let s := cells.foldl (fun s k => (s.drainCell k part).withdraw k) s
    let rec_ := fun (x : Nat × Cell × Nat × Cause) (nest : Bool) =>
      ({ tick := x.2.2.1, cause := x.2.2.2, chip := keyChip x.1, cell := keyCell x.1, node := n, queue := d.queue,
         pkt := d.pkt, ctx := d.ctx, flatC := x.2.1.flatC, flatD := x.2.1.flatD, nested := nest } : FaultRec)
    let recs := rec_ p false :: nested.map fun x => rec_ x true
    let (code, s, held) := s.dumpFor d.ctx recs cells
    let s := if held then
        cells.foldl (fun s k =>
          let c := s.cell k
          s.setCell k { c with phase := .stopped, jobs := [], pendTrap := none, stamps := [] }) s
      else cells.foldl State.freeCell s
    let s := s.markFaulted d.queue d.pkt
    (s.modNode n fun d => { d with st := .faulted }).postEvent 1 part d.ctx
      [(8, 2, n), (10, 2, d.queue), (12, 4, d.pkt), (16, 1, code)] (rec_ p false).bytes
  | _, _ => s

end Sys2Proof.Machine
end

