-- ==== Sys2Proof/Machine/Buffers.lean ====
section
/-! DEFINITION. Frames, page tables, buffers, references and capabilities (R196, R336 to R339, R387 to R390, R414,
R416). -/

namespace Sys2Proof.Machine

/-! ## Frames of HBM -/

/-- Bytes of a page frame. -/
def pageBytes : Nat := 16384

/-- A frame number lies on an HBM stack in service (R453): 2^22 frames of 16 KiB each. -/
def State.frameInService (s : State) (f : Nat) : Bool := decide (f / 2 ^ 22 < 12) && s.hbmmap.getLsbD (f / 2 ^ 22)

/-- Free frames from a number on that satisfy a test, at most `n` of them. -/
def State.takeFrames (s : State) (ok : Nat → Bool) : Nat → Nat → Nat → List Nat
  | 0, _, _ => []
  | fuel + 1, f, n =>
    if n = 0 then []
    else if !s.frameInService f then
      (if 12 ≤ f / 2 ^ 22 then [] else s.takeFrames ok fuel ((f / 2 ^ 22 + 1) * 2 ^ 22) n)
    else if (FMap.find? s.frames f).isNone && ok f then f :: s.takeFrames ok fuel (f + 1) (n - 1)
    else s.takeFrames ok fuel (f + 1) n

/-- Steps that suffice to find `n` free frames. -/
def State.frameFuel (s : State) (n : Nat) : Nat := s.frames.length + s.lastTag.length + n + 16

/-- The free choice of a place to start (R471). -/
def State.frameStart (s : State) : Nat := Config.pick s.drawn % (12 * 2 ^ 22)

/-- `n` free frames, from a freely chosen place or else from the lowest, that satisfy a test. -/
def State.findFrames (s : State) (ok : Nat → Bool) (n : Nat) : Option (List Nat) :=
  let a := s.takeFrames ok (s.frameFuel n) s.frameStart n
  if a.length = n then some a
  else
    let b := s.takeFrames ok (s.frameFuel n) 0 n
    if b.length = n then some b else none

/-- Frames given to a partition, written zero. -/
def State.giveFrames (s : State) (part : Nat) (fs : List Nat) : State :=
  { s with
    drawn := s.drawn + 1
    frames := fs.foldl (fun (m : FMap Nat) f => FMap.put m f part) s.frames
    bad := fs.foldl (fun (m : FMap Bool) f => FMap.clearRange m (f * 256) 256) s.bad
    mem := fs.foldl (fun (m : Memory) f => FMap.clearRange m (f * pageBytes) pageBytes) s.mem }

/-- A tag written into every granule of frames. -/
def State.tagFrames (s : State) (fs : List Nat) (t : BitVec 4) : State :=
  { s with tags := fs.foldl (fun (m : FMap (BitVec 4)) f =>
      if t = 0 then FMap.clearRange m (f * 256) 256 else FMap.setRange m (f * 256) (List.replicate 256 t) 0) s.tags }

/-- Frames returned. -/
def State.releaseFrames (s : State) (fs : List Nat) : State :=
  { s with frames := fs.foldl (fun (m : FMap Nat) f => FMap.erase m f) s.frames }

/-- Frames returned, with the tag last retired on each (R416). -/
def State.returnFrames (s : State) (fs : List Nat) (t : BitVec 4) : State :=
  { s.releaseFrames fs with
    lastTag := fs.foldl (fun (m : FMap (BitVec 4)) f => FMap.set m f t 0) s.lastTag }

/-- A partition changed. -/
def State.modPart (s : State) (p : Nat) (f : Part → Part) : State := { s with parts := FMap.modify s.parts p f }
/-- FBWAIT and DLTIME of a partition, in ticks (R358). -/
def State.fbwait (s : State) (p : Nat) : Nat := FMap.get s.fbwaits p (2 ^ 20)
def State.dltime (s : State) (p : Nat) : Nat := FMap.get s.dltimes p (2 ^ 26)
/-- Frames of the quota counted as used or as free again. -/
def State.useQuota (s : State) (p n : Nat) : State := s.modPart p fun x => { x with usedFrames := x.usedFrames + n }
def State.freeQuota (s : State) (p n : Nat) : State := s.modPart p fun x => { x with usedFrames := x.usedFrames - n }
/-- Frames a partition may still take (R384). -/
def State.quotaLeft (s : State) (p : Nat) : Nat :=
  match s.part? p with | some x => x.hbmFrames - x.usedFrames | none => 0

/-! ## Page tables (R388, R389) -/

/-- The levels from the root down to a leaf of 16 KiB, 32 MiB or 64 GiB: size code 0, 1 or 2. -/
def ptPath (size : Nat) : List (Nat × Nat) := ([(47, 10), (36, 11), (25, 11), (14, 11)] : List (Nat × Nat)).take (4 - size)

/-- Bytes of a page of a size code. -/
def sizeBytes (size : Nat) : Nat := if size = 0 then 2 ^ 14 else if size = 1 then 2 ^ 25 else 2 ^ 36

/-- A table entry written. -/
def State.putPte (s : State) (at_ v : Nat) : State := { s with mem := Memory.writeN s.mem at_ (leBytes 8 v) }

/-- An entry written at the end of a path of levels, with the tables on the way made where they are missing; where no
frame is left for one, nothing is written. No table is made to say what the invalid entry above says already. A table
that a leaf of a larger page replaces is returned. -/
def State.ptWrite (s : State) (part va v : Nat) : Nat → List (Nat × Nat) → State
  | _, [] => s
  | table, [(lo, n)] =>
    let at_ := table + 8 * natBits va lo n
    let e := (Memory.read64 s.mem at_).toNat
    let s := if pteV e && !pteLeaf e && lo != 14 then s.releaseFrames [pteFrame e / pageBytes] else s
    s.putPte at_ v
  | table, (lo, n) :: rest =>
    let at_ := table + 8 * natBits va lo n
    let e := (Memory.read64 s.mem at_).toNat
    if pteV e then s.ptWrite part va v (pteFrame e) rest
    else if !pteV v && ptePgbl v == ptePgbl e then s
    else match s.findFrames (fun _ => true) 1 with
      | some (f :: _) =>
        let s := (s.giveFrames part [f]).tagFrames [f] 0
        -- a table in place of an invalid entry with PGBL begins with PGBL in all its entries
        let s := if ptePgbl e then
            { s with mem := (List.range 2048).foldl (fun (m : Memory) i => Memory.write m (f * pageBytes + 8 * i) 2) s.mem }
          else s
        (s.putPte at_ (f * pageBytes + 1)).ptWrite part va v (f * pageBytes) rest
      | _ => s

/-- A leaf entry: V and LEAF set, at every level that may hold one (R389). -/
def leafPte (frame : Nat) (w : Bool) : Nat := frame + 5 + (if w then 8 else 0)

/-- An entry of a context's table written for a page of a size. -/
def State.setPage (s : State) (ctx va size v : Nat) : State :=
  match s.ctx? ctx with | some c => s.ptWrite c.part va v c.root (ptPath size) | none => s

/-- The leaf that maps a VA, if there is a valid one. -/
def State.leafAt (s : State) (ctx va : Nat) : Option TlbEnt :=
  match s.walkCtx ctx va with | .leaf t => some t | .invalid _ | .ue _ => none

/-- The valid entries of a table: entry number and entry. Only listed bytes of memory are looked at. -/
def State.tableEntries (s : State) (table n : Nat) : List (Nat × Nat) :=
  let ixs := (FMap.slice s.mem table (8 * 2 ^ n)).foldl (fun (l : List Nat) e =>
    if l.head? == some (e.1 / 8) then l else e.1 / 8 :: l) []
  (ixs.reverse.map fun i => (i, (Memory.read64 s.mem (table + 8 * i)).toNat)).filter fun e => pteV e.2

/-- The tables under a table, itself included, and the leaves: VA, base, VA bits of the page. -/
def State.tree (s : State) : List (Nat × Nat) → Nat → Nat → List Nat × List (Nat × Nat × Nat)
  | [], _, _ => ([], [])
  | (lo, n) :: rest, table, va =>
    (s.tableEntries table n).foldl (fun acc e =>
      let va := va + e.1 * 2 ^ lo
      if pteLeaf e.2 then (acc.1, acc.2 ++ [(va, pteFrame e.2, lo)])
      else
        let sub := s.tree rest (pteFrame e.2) va
        (acc.1 ++ sub.1, acc.2 ++ sub.2)) ([table], [])

/-- The tables and leaves of a context. -/
def State.ctxTree (s : State) (ctx : Nat) : List Nat × List (Nat × Nat × Nat) :=
  match s.ctx? ctx with | some c => s.tree (ptPath 0) c.root 0 | none => ([], [])

/-- Pages of 16 KiB in a range. -/
def pagesOf (va len : Nat) : List Nat := (List.range (len / pageBytes)).map fun i => va + i * pageBytes

/-- Some page of a range holds a valid leaf. -/
def State.anyLeaf (s : State) (ctx va len : Nat) : Bool := (pagesOf va len).any fun p => (s.leafAt ctx p).isSome

/-- TLBINV over a VA range of a context on a set of chiplets (R139, R390): TLB entries of the pages that overlap it,
those saved with a SAVED context among them, and the upper-level entries whose part of the VA space does. -/
def State.tlbInv (s : State) (chips : List Nat) (ctx va len : Nat) : State :=
  let meets := fun (lo : Nat) (n : Nat) => decide (n * 2 ^ lo < va + len) && decide (va < (n + 1) * 2 ^ lo)
  let hit := fun (page : Nat) => meets 14 page
  let keep := fun (m : FMap TlbEnt) => m.filter fun t => !(t.1 / 2 ^ 43 == ctx && hit (t.1 % 2 ^ 43))
  { s with
    dies := s.dies.map fun e => if chips.contains e.1 then
      (e.1, { e.2 with
        tlb := keep e.2.tlb
        walkc := e.2.walkc.filter fun x => !(x.1 / 2 ^ 64 == ctx && meets (x.1 / 2 ^ 57 % 2 ^ 7) (x.1 % 2 ^ 57)) }) else e
    ctxs := s.ctxs.map fun e => if e.1 = ctx then
      (e.1, { e.2 with savedTlb := e.2.savedTlb.map fun t => if chips.contains t.1 then (t.1, keep t.2) else t }) else e
    cells := s.cells.map fun e => if chips.contains (keyChip e.1) && s.nodeCtx e.2.node == ctx then
      (e.1, { e.2 with tlb := e.2.tlb.filter fun t => !hit t.1 }) else e }

/-- Every chiplet. -/
def allChips : List Nat := List.range 44

/-! ## References and frees (R200, R338, R416) -/

/-- A buffer changed. -/
def State.modBuf (s : State) (id : Nat) (f : Buffer → Buffer) : State := { s with buffers := FMap.modify s.buffers id f }

/-- Some tile of a buffer is moving, or an access that a move held is still to be performed (R363, R383, R416). -/
def State.movesBuf (s : State) (b : Buffer) : Bool := b.tiles.any fun t => t.2.moving || t.2.held.any s.stillWaits

/-- The moves of a buffer's tiles brought to their ends (R363). -/
def State.endBufMoves (s : State) (id : Nat) : State :=
  match s.buf? id with
  | some b => b.tiles.foldl (fun (s : State) t => if t.2.moving then s.endMove id t.1 else s) s
  | none => s

/-- A buffer's frames as frame numbers. -/
def Buffer.frames (b : Buffer) : List Nat := (b.front ++ b.shadowPages).map fun l => l / pageBytes

/-- A free (R200, R416): translations removed, the tag retired on the frames, the frames returned, the generation
advanced. It waits while a tile is moving, and for the accesses that the move held (R363, R416). -/
def State.freeBuffer (s : State) (id : Nat) : State :=
  match s.buf? id with
  | none => s
  | some b =>
    if s.movesBuf b then s.modBuf id fun b => { b with freeing := true }
    else
      let part := s.ctxPart b.ctx
      -- R448: a page that an evacuation mapped belongs to no buffer
      let pages := (pagesOf b.va b.len).filter fun p => !s.loose.contains (b.ctx, p)
      let mapped := pages.filterMap fun p => (s.leafAt b.ctx p).map fun t => t.frame / pageBytes
      let s := pages.foldl (fun (s : State) p => s.setPage b.ctx p 0 0) s
      let s := s.tlbInv allChips b.ctx b.va b.len
      let frames := if b.pageable then mapped ++ b.shadowPages.map (· / pageBytes) else b.frames
      -- a tarn or row-cache frame that a resident tile frees takes tag 0 (R414)
      let held := b.tiles.filterMap fun t => t.2.frame
      let s := { s with tags := held.foldl (fun (m : FMap (BitVec 4)) f => FMap.clearRange m (f / 64) 1024) s.tags }
      let s := (s.returnFrames frames b.tag).freeQuota part frames.length
      s.modBuf id fun b => { b with live := false, freeing := false, refs := 0, gen := b.gen + 1, tiles := [] }

/-- A free that waited for a tile of its buffer made (R363). -/
def State.lateFree (s : State) (id : Nat) : State :=
  match s.buf? id with | some b => if b.freeing && !s.movesBuf b then s.freeBuffer id else s | none => s

/-- Every free that no longer waits made. -/
def State.lateFrees (s : State) : State :=
  (s.buffers.filter fun e => e.2.freeing).foldl (fun (s : State) e => s.lateFree e.1) s

/-- A reference dropped; none left frees the buffer (R200, R338). -/
def State.dropRef (s : State) (id : Nat) : State :=
  match s.buf? id with
  | none => s
  | some b =>
    let s := s.modBuf id fun b => { b with refs := b.refs - 1 }
    if b.refs = 1 ∧ b.live then s.freeBuffer id else s

/-- The reference count of a buffer is at its limit of 32 bits (R336). -/
def State.refsFull (s : State) (id : Nat) : Bool :=
  match s.buf? id with | some b => b.refs == 2 ^ 32 - 1 | none => false

/-- A reference added. At the limit of the count none is: whoever asked for it leaves the slot it was for empty
(R336). -/
def State.addRef (s : State) (id : Nat) : State :=
  if s.refsFull id then s else s.modBuf id fun b => { b with refs := b.refs + 1 }

/-! ## Capabilities (R196) -/

def capId (c : Cap) : Nat := (c.extractLsb' 40 24).toNat
def capRights (c : Cap) : BitVec 4 := c.extractLsb' 36 4
def capTag (c : Cap) : BitVec 4 := c.extractLsb' 32 4
def capGen (c : Cap) : BitVec 32 := c.extractLsb' 0 32

/-- A capability from its parts. -/
def mkCap (id : Nat) (rights tag : BitVec 4) (gen : BitVec 32) : Cap :=
  BitVec.ofNat 64 (id * 2 ^ 40 + rights.toNat * 2 ^ 36 + tag.toNat * 2 ^ 32 + gen.toNat)

/-- Checks 2 and 3 of R196 on a capability, for the rights required by a context. -/
def State.capCheck (s : State) (ctx : Nat) (c : Cap) (rights : BitVec 4) : Option (BitVec 8) :=
  if capRights c &&& rights ≠ rights then some 0x41
  else match s.buf? (capId c) with
    | some b => if b.live && b.ctx == ctx && b.gen == capGen c then none else some 0x42
    | none => some 0x42

/-- A capability with rights taken away (R199, R330). -/
def capStrip (c : Cap) (mask : BitVec 4) : Cap := mkCap (capId c) (capRights c &&& ~~~mask) (capTag c) (capGen c)

/-! ## Kept identities (R299, R300) -/

/-- An identity belongs to a region instance of a shard. -/
def Ident.inInstance (i : Ident) (node flatC flatD rinst : Nat) : Bool :=
  i.node == node && i.flatC == flatC && i.flatD == flatD && i.rinst == rinst

/-- The frees made that waited for the end of region instances, which a test on identities selects (R200). -/
def State.freeHeld (s : State) (p : Ident → Bool) : State :=
  (s.heldFrees.filter fun e => p e.1).foldl (fun (s : State) e => s.freeBuffer e.2)
    { s with heldFrees := s.heldFrees.filter fun e => !p e.1 }

/-- The identities of a shard's region instance dropped; a buffer that a CAPDROP of it left without references is
then freed (R200, R300). -/
def State.dropKept (s : State) (node flatC flatD rinst : Nat) : State :=
  let gone := s.keptCaps.filter fun k => k.id.inInstance node flatC flatD rinst
  let s := { s with
    kept := s.kept.filter fun e => !e.1.inInstance node flatC flatD rinst
    keptCaps := s.keptCaps.filter fun k => !k.id.inInstance node flatC flatD rinst }
  (gone.foldl (fun (s : State) k => if k.dropped then s.freeBuffer (capId k.cap) else s) s).freeHeld
    fun i => i.inInstance node flatC flatD rinst

/-! ## Creating buffers (R337) -/

/-- Four frames of one MEM die for a residency tile, beside those already chosen (R360). -/
def State.tileFrames (s : State) (ok : Nat → Bool) (acc : List Nat) : Option (List Nat) :=
  (s.frameStart :: (List.range 6).map fun d => d * 2 ^ 23).findSome? fun f =>
    let fs := s.takeFrames (fun g => ok g && !acc.contains g) (s.frameFuel 4 + acc.length) f 4
    if fs.length = 4 ∧ fs.all (fun g => memDie (g * pageBytes) == memDie (fs.headD 0 * pageBytes)) then some fs else none

/-- Frames for a buffer's backing under a tag: none of them had that tag retired last; a tile's pages lie on one
MEM die (R360). -/
def State.backing (s : State) (tiled : Bool) (tag : BitVec 4) (n : Nat) : Option (List Nat) :=
  let ok := fun f => FMap.get s.lastTag f 0 != tag
  if !tiled then s.findFrames ok n
  else
    (List.range (n / 4)).foldlM (fun (acc : List Nat) _ => (s.tileFrames ok acc).map fun fs => acc ++ fs) []

/-- Tags in the order they are tried: a free choice first (R471). -/
def State.tagOrder (s : State) : List (BitVec 4) :=
  BitVec.ofNat 4 (1 + Config.pick (s.drawn + 1) % 15) :: (List.range 15).map fun i => BitVec.ofNat 4 (i + 1)

/-- Every page of a range holds a valid leaf: the writes of its leaves found frames for all their tables. -/
def State.mapped (s : State) (ctx va len : Nat) : Bool := (pagesOf va len).all fun p => (s.leafAt ctx p).isSome

/-- A VA range is allowed for a buffer: the context's APER3 takes every byte under R74, and no page holds a valid
leaf (R337). -/
def State.vaOk (s : State) (ctx va len : Nat) : Bool :=
  (match (s.apers ctx)[3]?.bind aperRange with
    | some (b, sz) => decide (b ≤ va ∧ va + len ≤ b + sz)
    | none => false)
  && ((s.apers ctx).take 3).all (fun w => match aperRange w with
    | some (b, sz) => decide (va + len ≤ b ∨ b + sz ≤ va)
    | none => true)
  && !s.anyLeaf ctx va len
  && s.buffers.all fun e => !e.2.live || e.2.ctx != ctx || decide (va + len ≤ e.2.va ∨ e.2.va + e.2.len ≤ va)

/-- The VA ranges tried: a free choice, then APER3's base and every place where a window, a buffer or a leaf ends. A
range that is allowed can be moved down to one of these, so that a create fails only when no range is allowed. -/
def State.vaTries (s : State) (ctx align : Nat) : List Nat :=
  let up := fun x => (x + align - 1) / align * align
  let base := match (s.apers ctx)[3]?.bind aperRange with | some (b, _) => b | none => 0
  let free := match (s.apers ctx)[3]?.bind aperRange with
    | some (b, sz) => b + Config.pick (s.drawn + 2) % (max 1 (sz / align)) * align | none => 0
  free :: up base :: ((s.apers ctx).filterMap aperRange).map (fun r => up (r.1 + r.2))
    ++ (s.buffers.filter fun e => e.2.ctx == ctx).map (fun e => up (e.2.va + e.2.len))
    ++ (s.ctxTree ctx).2.map fun l => up (l.1 + 2 ^ l.2.2)

/-- A free buffer id (R471): a free choice, or the lowest (ids never used, or freed). -/
def State.freeId (s : State) : Option Nat :=
  let isFree := fun i => match s.buf? i with | some b => !b.live | none => true
  let x := Config.pick s.drawn % 2 ^ 24
  if isFree x then some x else (List.range (min (2 ^ 24) (s.buffers.length + 1))).find? isFree

/-- A buffer created: its id, or none when ids, frames or a VA range are lacking (R337, steps 3 to 6). -/
def State.createBuffer (s : State) (ctx len : Nat) (double tiled pageable reassoc : Bool) (format : Nat) (w : Bool) :
    Option (Nat × State) :=
  let part := s.ctxPart ctx
  let n := len / pageBytes
  let need := if double then 2 * n else n
  match s.freeId, (s.vaTries ctx (if tiled then 65536 else pageBytes)).find? (fun v => s.vaOk ctx v len) with
  | some id, some va =>
    if s.quotaLeft part < need then none
    else
      let choice := s.tagOrder.findSome? fun t => (s.backing tiled t need).map fun fs => (t, fs)
      match choice with
      | none => none
      | some (tag, fs) =>
        let s := ((s.giveFrames part fs).tagFrames fs tag).useQuota part need
        let front := (fs.take n).map (· * pageBytes)
        let s := ((pagesOf va len).zip front).foldl (fun (s : State) p =>
          s.setPage ctx p.1 0 (leafPte p.2 w)) s
        let gen := match s.buf? id with | some b => b.gen | none => 0
        let b : Buffer := { ctx := ctx, va := va, len := len, double := double, tiled := tiled, pageable := pageable,
                            reassoc := reassoc, format := format, tag := tag, refs := 1, gen := gen, front := front,
                            shadowPages := (fs.drop n).map (· * pageBytes), tiles := [], live := true, freeing := false }
        if s.mapped ctx va len then some (id, { s with buffers := FMap.put s.buffers id b, drawn := s.drawn + 3 })
        else none
  | _, _ => none

/-- Bytes of a buffer's front backing written by the GSD. -/
def State.fillBuffer (s : State) (id off : Nat) (bs : List Byte) : State :=
  match s.buf? id with
  | some b => { s with mem := (bs.zipIdx).foldl (fun (m : Memory) x =>
      Memory.write m (nthD b.front ((off + x.2) / pageBytes) 0 + (off + x.2) % pageBytes) x.1) s.mem }
  | none => s

/-- Bytes of a buffer's front backing read by the GSD. -/
def State.readBuffer (s : State) (id off n : Nat) : List Byte :=
  match s.buf? id with
  | some b => (List.range n).map fun i =>
      Memory.read s.mem (nthD b.front ((off + i) / pageBytes) 0 + (off + i) % pageBytes)
  | none => List.replicate n 0

/-- PUBLISH, steps 3 and 4 (R180): front and shadow exchanged, the leaves rewritten and translations dropped. -/
def State.publishBuffer (s : State) (id : Nat) : State :=
  match s.buf? id with
  | some b =>
    let s := s.modBuf id fun b => { b with front := b.shadowPages, shadowPages := b.front }
    let s := ((pagesOf b.va b.len).zip b.shadowPages).foldl (fun (s : State) p =>
      s.setPage b.ctx p.1 0 (leafPte p.2 true)) s
    s.tlbInv allChips b.ctx b.va b.len
  | none => s

/-- An exchange that the cells of the buffer's context are not yet ordered after (R323). The publisher's own words are
ordered after it, and with it after every earlier exchange of the buffer
(DEDUCED, log entry 157). -/
def State.noteExchange (s : State) (id chip : Nat) (publisher : Option Nat) : State :=
  let ctx := match s.buf? id with | some b => b.ctx | none => 0
  let add := fun (vs : List OldView) => (⟨id, chip, 0⟩ : OldView) :: vs.filter fun o => o.buf != id
  { s with cells := s.cells.map fun (e : Nat × Cell) =>
      if s.nodeCtx e.2.node = ctx then
        (e.1, { e.2 with
          oldView := if some e.1 = publisher then e.2.oldView.filter fun o => o.buf != id else add e.2.oldView
          jobs := e.2.jobs.map fun (j : Job) => { j with oldView := add j.oldView } })
      else e }

end Sys2Proof.Machine
end

