-- ==== Sys2Proof/Machine/HostIo.lean ====
section
/-! DEFINITION. What the GSD tells the host: host memory, command and packet completion, signals (R345 to R349,
R456). -/

namespace Sys2Proof.Machine

/-! ## Host memory -/

/-- Bytes of host memory read by the device. -/
def State.hostRead (s : State) (a n : Nat) : List Byte := Memory.readN s.host a n
/-- Bytes of host memory written by the device. -/
def State.hostWrite (s : State) (a : Nat) (bs : List Byte) : State := { s with host := Memory.writeN s.host a bs }
/-- An n64 word of host memory. -/
def State.hostWord (s : State) (a : Nat) : Nat := leNat (s.hostRead a 8)

/-! ## Management commands (R387, R456) -/

/-- A command completed: STATUS and RESULT in its entry, and vector 2 (R451). -/
def State.cmdDone (s : State) (c : Cmd) (status result : Nat) : State :=
  let m := if c.i3c then s.i3c else s.host
  let m := Memory.writeN (Memory.writeN m (c.entry + 56) (leBytes 8 result)) (c.entry + 1) (leBytes 1 status)
  if c.i3c then { s with i3c := m } else { s with host := m, msix := 2 :: s.msix }

/-- Status codes of R387. -/
def stOk : Nat := 0x00
def stBusy : Nat := 0x20
def stBadArg : Nat := 0x21
def stThermal : Nat := 0x22
def stNoResource : Nat := 0x23
def stNotFound : Nat := 0x24

/-! ## Queues and packets (R345 to R349) -/

/-- A queue. -/
def State.queue (s : State) (q : Nat) : Queue := FMap.get s.queues q Queue.reset
/-- A queue changed. -/
def State.modQueue (s : State) (q : Nat) (f : Queue → Queue) : State :=
  { s with queues := FMap.put s.queues q (f (s.queue q)) }

/-- A queue stopped by a cause at a packet (R345, R410). -/
def State.faultQueue (s : State) (q idx : Nat) (code : BitVec 8) : State :=
  s.modQueue q fun (x : Queue) => { x with st := 3, cause := code, fidx := idx }

/-- The address of packet `idx` of a queue, as a host address or a generic address (R346). -/
def Queue.packetAt (q : Queue) (idx : Nat) : Word := q.base + BitVec.ofNat 64 (64 * (idx % 2 ^ q.log2))

/-- A record of a cause that the GSD raises: AUX is the packet index for 0xC1 to 0xC6 (R413). -/
def State.gsdRecord (s : State) (node queue pkt ctx : Nat) (code : BitVec 8) (addr : Word := 0)
    (tags : Option (BitVec 4 × BitVec 4) := none) : FaultRec :=
  let aux := if 0xC1 ≤ code.toNat ∧ code.toNat ≤ 0xC6 then pkt else 0
  { tick := s.tick, cause := Raise.at_ { code := code, addr := addr, tags := tags, aux := BitVec.ofNat 64 aux } .c 0 0, chip := 0, cell := 0xFF,
    node := node, queue := queue, pkt := pkt, ctx := ctx, flatC := 0, flatD := 0, nested := false }

/-- An uncorrectable error that the GSD meets in a context's memory from an address on, for a packet (R427). -/
def State.condemnAt (s : State) (ctx queue idx : Nat) (addr : Word) (n : Nat) : State :=
  let r := s.gsdRecord 0xFFFF queue idx ctx 0xE1
  s.condemn ctx { r with cause := { r.cause with addr := addr, aux := s.gsdUe ctx n addr } }

/-- The FAULT event of a cause that names no shard (R410, R412, R457). A dump of the context that is under way takes its
record (R423). -/
def State.gsdFault (s : State) (node queue pkt ctx : Nat) (code : BitVec 8) (addr : Word := 0)
    (tags : Option (BitVec 4 × BitVec 4) := none) : State :=
  let r := s.gsdRecord node queue pkt ctx code addr tags
  let (dump, s, _) := s.dumpFor ctx [r] []
  s.postEvent 1 (s.ctxPart ctx) ctx [(8, 2, node), (10, 2, queue), (12, 4, pkt), (16, 1, dump)] r.bytes

/-- A queue stopped at a packet by a cause (R346, R410), with its event. -/
def State.queueFault (s : State) (q idx : Nat) (code : BitVec 8) (addr : Word := 0)
    (tags : Option (BitVec 4 × BitVec 4) := none) : State :=
  (s.faultQueue q idx code).gsdFault 0xFFFF q idx (s.queue q).ctx code addr tags

/-- The tags of a failing check 8 at an address (R412): the pointer's and the granule's. -/
def State.gsdTags (s : State) (ctx : Nat) (addr : Word) (code : BitVec 8) : Option (BitVec 4 × BitVec 4) :=
  match s.walkCtx ctx (addrVa addr) with
  | .leaf t => if code = 0x40 then some (addrTag addr, s.tagAt (s.locOf t ctx (addrVa addr) false)) else none
  | _ => none

/-- A queue stopped by a check that an access to its ring failed (R346), once its event can be posted (R456). -/
def State.ringFault (s : State) (q idx ctx : Nat) (addr : Word) (code : BitVec 8) : State :=
  if s.eventRoom then s.queueFault q idx code addr (s.gsdTags ctx addr code)
  else { s with lateFaults := s.lateFaults ++ [⟨q, idx, ctx, addr, code⟩] }

/-- Causes of queues that no longer wait (R456). -/
def State.lateFaultTurn (s : State) : State :=
  s.lateFaults.foldl (fun (s : State) f => s.ringFault f.queue f.idx f.ctx f.addr f.code) { s with lateFaults := [] }

/-- The STATUS byte of a packet written (R346); a failing check faults the queue. -/
def State.putStatus (s : State) (o : Open) (status : Nat) : State :=
  if o.host then s.hostWrite o.statusAt.toNat (leBytes 1 status)
  else match s.gsdWrite o.ctx o.statusAt (leBytes 1 status) with
    | .ok t => t
    | .error c => if contextClass c then s.condemnAt o.ctx o.queue o.idx o.statusAt 1
      else s.ringFault o.queue o.idx o.ctx o.statusAt c

/-- A signal written: its value and the tick of its change (R347, R356). -/
def State.putSignal (s : State) (sig : Nat) (v : Word) : State :=
  if FMap.get s.signals sig 0 = v then s
  else { s with signals := FMap.set s.signals sig v 0, sigTick := FMap.put s.sigTick sig s.tick }

/-- The condition of a WAIT (R347). -/
def waitHolds (cond : Nat) (v x : Word) : Bool :=
  match cond with
  | 0 => v == x | 1 => v != x | 2 => decide (x.toInt ≤ v.toInt) | _ => decide (v.toInt < x.toInt)

/-- A packet completed: STATUS, the completion signal, NOTIFY (R347). -/
def State.packetDone (s : State) (o : Open) (status : Nat) : State :=
  let s := { s with opens := s.opens.filter fun (x : Open) => !(x.queue == o.queue && x.idx == o.idx) }
  let s := s.putStatus o status
  let s := if o.sigid < 16384 then s.putSignal o.sigid (FMap.get s.signals o.sigid 0 + o.sigval) else s
  if o.notify then { s with msix := 1 :: s.msix } else s

/-- The queues whose WAIT holds now. -/
def State.readyWaits (s : State) : List Nat :=
  (s.queues.filter fun e => match e.2.wait with
    | some (sig, cond, x) => waitHolds cond (FMap.get s.signals sig 0) x
    | none => false).map fun e => e.1

/-- Queues whose WAIT has ended go on; a cycle through one of them is broken (R356). -/
def State.endWaits (s : State) (qs : List Nat) : State :=
  { s with
    queues := s.queues.map fun (e : Nat × Queue) =>
      if qs.contains e.1 then (e.1, { e.2 with st := if e.2.st = 2 then 1 else e.2.st, wait := none }) else e
    reported := s.reported.filter fun c => !(qs.any fun q => c.contains q) }

/-- WAIT packets that have ended completed one after another. Each completion signal is a change of its own, at which
every WAIT is tested before the next completion (R349). -/
def State.settleList : Nat → List Open → State → State
  | 0, _, s => s
  | fuel + 1, due, s =>
    let qs := s.readyWaits
    let due := due ++ qs.filterMap fun q => s.opens.find? fun (o : Open) => o.queue == q && o.left == 0
    let s := s.endWaits qs
    match due with
    | [] => s
    | o :: rest => State.settleList fuel rest (s.packetDone o 0x01)

/-- Every WAIT whose condition holds completed, its own completion signal included (R349). -/
def State.settleWaits (fuel : Nat) (s : State) : State := State.settleList fuel [] s

/-- A packet completed, and every WAIT that its signal ends. -/
def State.complete (s : State) (o : Open) (status : Nat) : State :=
  State.settleWaits (s.queues.length + 1) (s.packetDone o status)

/-- A signal changed, and every WAIT that the change ends. -/
def State.changeSignal (s : State) (sig : Nat) (v : Word) : State :=
  State.settleWaits (s.queues.length + 1) (s.putSignal sig v)

/-! ## Faults that name no shard (R410, R412, R457) -/

/-- A node that faults with no shard placed (R410), once its event can be posted (R456). -/
def State.plainFault (s : State) (node : Nat) (code : BitVec 8) : State :=
  match s.node? node with
  | none => s
  | some d =>
    if !s.eventRoom then s
    else ((s.markFaulted d.queue d.pkt).modNode node fun (d : Node) => { d with st := .faulted }).gsdFault node d.queue
      d.pkt d.ctx code

/-! ## Admission (R349) -/

/-- The record of a packet under admission. -/
def State.openOf (s : State) (p : Pkt) : Open :=
  let q := s.queue p.queue
  { queue := p.queue, idx := p.idx, ctx := q.ctx, sigid := p.sigid, sigval := p.sigval, notify := p.notify,
    statusAt := q.packetAt p.idx + 3, host := q.hostMem, left := 0, faulted := false, cancelled := false }

/-- A packet admitted: RD moves on, and the packet stands open with a number of nodes. -/
def State.takeIn (s : State) (p : Pkt) (left : Nat) : State :=
  let o := s.openOf p
  -- R355: the doorbell event goes on, before every other event of the queue, while more packets are there
  let s := s.modQueue p.queue fun (q : Queue) => { q with
    rd := (q.rd + 1) % 2 ^ 32, lastAdmit := s.tick, bell := if (q.rd + 1) % 2 ^ 32 = q.wr then none else some 0 }
  { s with opens := s.opens ++ [{ o with left := left }] }

/-- A packet admitted and completed at once. -/
def State.admitDone (s : State) (p : Pkt) (status : Nat) : State := (s.takeIn p 0).complete (s.openOf p) status

/-- Packets of a queue that are admitted and not complete. -/
def State.openIn (s : State) (q : Nat) : Bool := s.opens.any fun (o : Open) => o.queue == q

/-- A packet of an active queue whose FENCE, if any, is met: handled by a function; else nothing happens. -/
def State.packet (s : State) (p : Pkt) (f : State → State) : State :=
  if (s.queue p.queue).st ≠ 1 then s
  else if p.fence && s.openIn p.queue then s
  else if p.resv || (16384 ≤ p.sigid && p.sigid != 2 ^ 32 - 1) then s.admitDone p 0x11
  else f s

end Sys2Proof.Machine
end

