-- ==== Sys2Proof/Machine/Launch.lean ====
section
/-! DEFINITION. Nodes from admission to retirement (R333 to R343, R351 to R354) and discard and restart of shards
(R60, R392 to R394). -/

namespace Sys2Proof.Machine

/-! ## Launch levels (R109, R333, R335) -/

/-- The trip of a level: for a node with a prologue the launch register stands for every level (R352). -/
def levelTrip (d : Node) (o : CodeObj) (i : Nat) (l : Level) : Nat :=
  if d.prolObj ≠ 0 then nthD d.ltrip i 0
  else match l.tsrc with
    | 1 => (match o.slots[l.slot]? with | some x => x.value.toNat % 2 ^ 32 | none => l.trip)
    | 2 => nthD d.trips2 i 0
    | _ => l.trip

/-- The trips of a node: fixed at its first placement (R333, R392). -/
def nodeTrips (d : Node) (o : CodeObj) : List Nat :=
  match d.trips with
  | some t => t
  | none => o.levels.zipIdx.map fun e => levelTrip d o e.2 e.1

/-- The trips of the levels of a kind, outermost first. -/
def kindTrips (o : CodeObj) (ts : List Nat) (kind : Nat) : List Nat :=
  ((o.levels.zip ts).filter fun e => e.1.kind == kind).map fun e => e.2

/-- The coordinates that a flat index stands for, innermost digit least (R335). -/
def coordsOf (ts : List Nat) (flat : Nat) : List Nat :=
  (ts.foldr (fun t (acc : List Nat × Nat) => (acc.2 % max 1 t :: acc.1, acc.2 / max 1 t)) ([], flat)).1

/-- The six launch levels of an object; those it does not list are unused (R67, R109). -/
def CodeObj.sixLevels (o : CodeObj) : List Level :=
  (o.levels ++ List.replicate 6 ({ trip := 1, kind := 3, tsrc := 0, slot := 0 } : Level)).take 6

/-- SHCOORD of a shard (R67), level by level. -/
def shcoordFrom (i : Nat) : List Level → List Nat → List Nat → Nat
  | [], _, _ => 0
  | l :: ls, cs, ds =>
    let k := l.kind * 2 ^ (48 + 2 * i)
    if l.kind = 1 then k + cs.headD 0 * 2 ^ (8 * i) + shcoordFrom (i + 1) ls cs.tail ds
    else if l.kind = 2 then k + ds.headD 0 * 2 ^ (8 * i) + shcoordFrom (i + 1) ls cs ds.tail
    else k + shcoordFrom (i + 1) ls cs ds

/-- SHCOORD of the shard with flat indices `c` and `d`. -/
def shcoordOf (o : CodeObj) (ts : List Nat) (c d : Nat) : Word :=
  BitVec.ofNat 64 (shcoordFrom 0 o.sixLevels (coordsOf (kindTrips o ts 1) c) (coordsOf (kindTrips o ts 2) d))

/-! ## Shard start and restart (R60, R78, R394, R419, R437) -/

/-- The scope masks of a chiplet (R78): STACK, HOP1, HOP2, PKG, SYS. Whether a Nyern link reaches another package is
free, and as the partition's last enumeration found it (R79). -/
def State.scopeMasks (s : State) (ver chip : Nat) : List Word :=
  let mask := fun (p : Nat → Bool) => BitVec.ofNat 64 ((List.range 44).foldl (fun a i =>
    a + (if p i then 2 ^ i else 0)) 0)
  let stack := fun i => s.present i && bottomOf i == bottomOf chip
  let within := fun (n : Nat) (i : Nat) => stack i || (s.present i && decide (s.hops chip i ≤ n))
  [mask stack, mask (within 1), mask (within 2), mask s.present,
    mask s.present ||| (if Config.remotePackage ver then BitVec.ofNat 64 (2 ^ 63) else 0)]

/-- An engine at the start of a shard, or at the position of the REGION word of a restart (R284). -/
def Eng.at_ (pc pos : Nat) : Eng := { Eng.fresh with pc := pc, pos := pos }

/-- The record of a shard that starts afresh (R393). -/
def freshRecord (entryPc : Nat) (obj : Nat) (shcoord : Word) (trips : List Nat) (levels : List Level) : Record :=
  { Record.fresh with
    rpc := entryPc, obj := obj, shcoord := shcoord
    lc := (List.range 6).foldl (fun (m : FMap Word) i =>
      let t := match levels[i]? with | some l => if l.kind = 3 then 1 else nthD trips i 1 | none => 1
      FMap.set m i (BitVec.ofNat 64 (t % 2 ^ 32)) 0) [] }

/-- A cell as a shard takes it, from a restart record (R60, R394). SCOPETAB.VER is the version that its partition saw
at its last enumeration (R79). -/
def State.shardCell (s : State) (key node flatC flatD : Nat) (ctx : Option Ctx) (r : Record) (tvec : Word)
    (start : Nat) : Cell :=
  let chip := keyChip key
  let g := Eng.at_ r.rpc r.pos
  let ver := match (ctx.bind fun c => s.part? c.part) with | some p => p.ver | none => s.version
  { Cell.fresh with
    serial := s.nextShard + 1, pathBase := r.pos
    phase := .clearing, node := node, flatC := flatC, flatD := flatD
    engC := g, engA := g, engX := g, engM := g, engW := g, engK := g
    x := r.x, a := r.a, lc := r.lc, fpstat := r.fpstat, mstat := r.mstat, winslip := r.win, padval := r.padval
    ordwatch := r.ordwatch, ordActive := r.ordwatch, shcoord := r.shcoord, tvec := tvec
    scopetab := BitVec.ofNat 64 (ver % 2 ^ 16 * 2 ^ 48 + chip * 2 ^ 40)
    scopem := s.scopeMasks ver chip
    watch := (match ctx with | some c => c.watch.map fun (p : WatchPt) => { p with cnt := 0 } | none => [])
    trctl := (match ctx with | some c => c.trctl | none => 0)
    trbase := (match ctx with | some c => c.trbase | none => 0)
    record := r, restarting := r.written, rinst := r.rinst, barDie := r.barDie, barNode := r.barNode
    clearEnd := s.tick + 2048, startTick := start, pollSince := s.tick, reachM := s.tick }

/-! ## Discard (R298, R392, R393) -/

/-- A node becomes RUNNABLE: its age counts from the first time (R342). -/
def Node.runnableNow (d : Node) (tick : Nat) : Node :=
  { d with st := .runnable, firstRunnable := some (d.firstRunnable.getD tick), runnableAt := tick, clsSince := tick }

/-- Step 1 of a discard: every engine of the node stops issuing. -/
def State.haltNode (s : State) (n : Nat) : State :=
  let s := { s with cells := s.cells.map fun (e : Nat × Cell) =>
    if e.2.node == n && e.2.phase != Phase.idle && e.2.phase != Phase.stopped then (e.1, { e.2 with phase := .halting, handler := none }) else e }
  s.modNode n fun (d : Node) => { d with discarding := true }

/-- The PREEMPT commands that wait for a node complete, each with the last node it waits for (R387, R392). -/
def State.releasePreempts (s : State) (n : Nat) : State :=
  match s.node? n with
  | none => s
  | some d =>
    let s := s.modNode n fun (d : Node) => { d with preempts := [] }
    d.preempts.foldl (fun (s : State) c =>
      if s.nodes.any (fun e => e.2.preempts.contains c) then s else s.cmdDone c stOk 0) s

/-- Steps 2 to 5 of a discard, and the node's return to RUNNABLE: asynchronous work and held requests go, what has
issued is performed, the restart records are kept, the cells are freed. -/
def State.haltDone (s : State) (n : Nat) : State :=
  match s.node? n with
  | none => s
  | some d =>
    let part := s.ctxPart d.ctx
    let cells := s.nodeCells n
    let s := cells.foldl (fun (s : State) e => (s.drainCell e.1 part).withdraw e.1) s
    let recs := cells.foldl (fun (m : FMap Record) e => FMap.put m (256 * e.2.flatD + e.2.flatC) e.2.record) d.records
    let s := cells.foldl (fun (s : State) e => s.freeCell e.1) s
    let s := s.modNode n fun (d : Node) => { d.runnableNow s.tick with discarding := false, records := recs }
    s.releasePreempts n

/-- A whole discard of a RUNNING node. -/
def State.discardNode (s : State) (n : Nat) : State :=
  match s.node? n with
  | some d => if d.st = .running then (s.haltNode n).haltDone n else s
  | none => s

/-- RUNNING nodes that satisfy a test. -/
def State.runningNodes (s : State) (p : Node → Bool) : List Nat :=
  (s.nodes.filter fun e => e.2.st == .running && p e.2).map fun e => e.1

/-! ## Node states (R339 to R341, R353) -/

/-- A node enters PROLOGUE or RETIRING: the event joins those of its queue, in arrival order (R355). -/
def State.arrive (s : State) (n : Nat) (st : NodeState) : State :=
  { s with nextArrival := s.nextArrival + 1 }.modNode n fun (d : Node) => { d with st := st, arrival := s.nextArrival }

/-- A node whose prologue can start: its context is ACTIVE and sound (R351, R385). -/
def State.canPrologue (s : State) (d : Node) : Bool :=
  (match s.part? (s.ctxPart d.ctx) with | some p => p.activeCtx == d.ctx | none => false)
    && (match s.ctx? d.ctx with | some c => !c.terminated && c.condemned.isEmpty | none => false)

/-- A prologue runs for a queue: the core that runs it holds the queue's ordering lock (R355). -/
def State.lockHeld (s : State) (queue : Nat) : Bool :=
  s.prols.any fun e => match s.node? e.1 with | some d => d.queue == queue | none => false

/-- One of the twelve firmware cores is idle: a prologue keeps the one that runs it (R355). -/
def State.coreIdle (s : State) : Bool := decide (s.prols.length < 12)

/-- A node's event is pending: it has entered RETIRING, or PROLOGUE in a context whose prologues can start. -/
def State.nodeEvent (s : State) (d : Node) : Bool := d.st == .retiring || (d.st == .prologue && s.canPrologue d)

/-- No event of a queue that arrived before a place in the order, the doorbell event among them, is pending (R355). -/
def State.oldest (s : State) (queue place : Nat) : Bool :=
  (s.nodes.all fun e => e.2.queue != queue || decide (place ≤ e.2.arrival) || !s.nodeEvent e.2)
    && (match (s.queue queue).bell with | some b => decide (place ≤ b) | none => true)

/-- An event of a queue that arrives now may run: a core is idle, no prologue holds the queue's ordering lock, and none
that arrived before is pending (R355). -/
def State.eventTurn (s : State) (queue : Nat) : Bool :=
  s.coreIdle && !s.lockHeld queue && s.oldest queue s.nextArrival

/-- A node whose pending count is 0 moves on (R340). -/
def State.nodeReady (s : State) (n : Nat) : State :=
  if (match s.node? n with | some d => d.prolObj != 0 | none => false) then s.arrive n .prologue
  else s.modNode n fun (d : Node) => d.runnableNow s.tick

/-- A capability placed in a slot of a node with a reference of its own; where the count is at its limit the slot
stays empty (R336, R338). -/
def State.fillSlot (s : State) (n slot : Nat) (c : Cap) : State :=
  let full := s.refsFull (capId c)
  (s.addRef (capId c)).modNode n fun (d : Node) => { d with
    caps := if full then FMap.erase d.caps slot else FMap.put d.caps slot c }

/-- PEND places the capabilities of LCAP (R352): each is checked under R196 and placed with a reference. A slot
that held one before gives it up. -/
def State.placeLcaps (s : State) (n : Nat) (d : Node) : Except Raise State :=
  d.lcap.foldlM (fun (s : State) e =>
    match s.capCheck d.ctx e.2 0 with
    | some c => .error { code := c, aux := BitVec.ofNat 64 e.1 }
    | none =>
      let old := match s.node? n with | some d => FMap.get d.caps e.1 0 | none => 0
      let s := if old = 0 then s else s.dropRef (capId old)
      .ok (s.fillSlot n e.1 e.2)) s

/-- The end of a prologue run (R353). -/
def State.prologueEnd (s : State) (n : Nat) (k : PendKind) : State :=
  match s.node? n with
  | none => s
  | some d =>
    let stop := { s with prols := FMap.erase s.prols n }
    match k with
    | .cancel => (stop.arrive n .retiring).modNode n fun (d : Node) => { d with cancelled := true, lastPend := .cancel }
    | _ =>
      match stop.placeLcaps n d with
      | .error r => s.prologueFault n (r.at_ .c s.core.engC.pc s.core.engC.pos)
      | .ok s => s.modNode n fun (d : Node) => { d.runnableNow s.tick with
          lastPend := k, trips := none
          budget := match k, d.budget with | .again r, none => some r | _, b => b }

/-- A slot of a node moved or copied along an edge (R339). -/
def State.transfer (s : State) (n : Nat) (x : Xfer) (mode : Nat) : State :=
  if x.mode ≠ mode then s
  else
    let s := s.modNode x.succ fun (d : Node) => { d with reserved := d.reserved.filter fun m => m != x.dst }
    match s.node? n with
    | none => s
    | some d =>
      let c := FMap.get d.caps x.src 0
      if c = 0 then s
      else
        if mode = 2 ∧ s.refsFull (capId c) then s
        else
          let c' := capStrip c (BitVec.ofNat 4 x.rmask)
          let s := s.modNode x.succ fun (d : Node) => { d with capsIn := FMap.put d.capsIn x.dst c' }
          if mode = 2 then s.addRef (capId c)
          else s.modNode n fun (d : Node) => { d with caps := FMap.erase d.caps x.src }

/-- The slots of a node settled at its retirement (R339): copies, moves, then drops. -/
def State.settleSlots (s : State) (n : Nat) : State :=
  match s.node? n with
  | none => s
  | some d =>
    let s := d.succs.foldl (fun (s : State) x => s.transfer n x 2) s
    let s := d.succs.foldl (fun (s : State) x => s.transfer n x 1) s
    let left := match s.node? n with | some d => d.caps | none => []
    let s := left.foldl (fun (s : State) e => s.dropRef (capId e.2)) s
    s.modNode n fun (d : Node) => { d with caps := [] }

/-- A packet of which one node fewer is left: it completes with its last (R341, R347). -/
def State.lessOne (s : State) (queue idx : Nat) : State :=
  let s := { s with opens := s.opens.map fun (o : Open) =>
    if o.queue = queue ∧ o.idx = idx then { o with left := o.left - 1 } else o }
  match s.opens.find? fun (o : Open) => o.queue == queue && o.idx == idx && o.left == 0 with
  | some o => s.complete o (if o.faulted then 0x03 else if o.cancelled then 0x02 else 0x01)
  | none => s

/-- RETIRING, steps 2 to 6 (R341). The steps after the settling of the slots wait until the frees that result are
applied, which a moving tile of the buffer holds back (R363, R401). -/
def State.retireNode (s : State) (n : Nat) : State :=
  match s.node? n with
  | none => s
  | some d =>
    let s := s.settleSlots n
    if s.buffers.any fun e => e.2.freeing && e.2.ctx == d.ctx then s
    else
    let again := match d.lastPend, d.budget with
      | .again _, some r => if 0 < r ∧ !d.cancelled then some (r - 1) else none
      | _, _ => none
    match again with
    | some r => (s.arrive n .prologue).modNode n fun (d : Node) => { d with
        budget := some r, lcount := d.lcount + 1, records := [], starved := 0 }
    | none =>
      let s := s.releasePreempts n
      let s := d.succs.foldl (fun (s : State) x =>
        let s := s.modNode x.succ fun (m : Node) => { m with pendingCnt := m.pendingCnt - 1 }
        match s.node? x.succ with
        | some m => if m.st = .pending ∧ m.pendingCnt = 0 then s.nodeReady x.succ else s
        | none => s) s
      let s := if d.cancelled then
          { s with opens := s.opens.map fun (o : Open) =>
              if o.queue = d.queue ∧ o.idx = d.pkt then { o with cancelled := true } else o }
        else s
      { s with nodes := FMap.erase s.nodes n }.lessOne d.queue d.pkt

/-! ## Placement (R334, R335, R342, R343, R354) -/

/-- The fallback chain of a class (R2), the class itself first. -/
def fallbackChain (cls : Nat) : List Nat :=
  match cls with | 4 => [4, 2, 1] | 2 => [2, 1] | 3 => [3, 1] | _ => [cls]

/-- The dies of a class that a partition holds; for DMX the ARITH layers. -/
def State.classDies (s : State) (part cls : Nat) : List Nat :=
  (List.range 44).filter fun i => classNum (chipClass i) == cls && (s.die i).part == part && s.present i
    && (cls != 1 || (s.die i).role == 0)

/-- A power state in which nodes of a domain are placed (R465). -/
def Part.places (p : Part) (cls : Nat) : Bool := let st := (nthD p.power (cls - 1) (0, 0)).1; st ≤ 2 || st == 6

/-- Dispatch slots in use: one per node and die (R335). -/
def State.slotsHeld (s : State) : Nat :=
  (s.cells.foldl (fun (l : List (Nat × Nat)) e =>
    let x := (e.2.node, keyChip e.1)
    if e.2.phase == .idle || l.contains x then l else x :: l) []).length

/-- A cell that no shard holds. -/
def State.cellFree (s : State) (key : Nat) : Bool :=
  match FMap.find? s.cells key with | some c => c.phase == .idle | none => true

/-- A section of an object for a class number. -/
def CodeObj.sect? (o : CodeObj) (cls : Nat) : Option Section := o.sections.find? fun x => x.cls == cls

/-- The shards of a node on a class: cell key, flat C and flat D index, when the node fits (R335). -/
def State.fit (s : State) (part cls cp dp : Nat) (hasC : Bool) : Option (List (Nat × Nat × Nat)) :=
  let cells := match classOf cls with | some c => classCells c | none => 0
  let roomOf := fun (i : Nat) =>
    if hasC then
      if (List.range cp).all fun j => s.cellFree (cellKey i j) then
        some ((List.range cp).map fun j => cellKey i j) else none
    else ((List.range cells).find? fun j => s.cellFree (cellKey i j)).map fun j => [cellKey i j]
  let dies := ((s.classDies part cls).filterMap roomOf).take dp
  if dies.length = dp ∧ s.slotsHeld + dp ≤ 1024 then
    some (dies.zipIdx.flatMap fun e => e.1.zipIdx.map fun k => (k.1, k.2, e.2))
  else none

/-- The next class of a node's chain for which the object has a section. -/
def nextClass (o : CodeObj) (cls : Nat) : Option Nat := (fallbackChain cls).tail.find? fun c => (o.sect? c).isSome

/-- A node moved past its current class (R343): to the next one, or to its fault. -/
def State.dropClass (s : State) (n : Nat) (o : CodeObj) (shape : Bool) : State :=
  match s.node? n with
  | none => s
  | some d =>
    match nextClass o d.cls with
    | some c => s.modNode n fun (d : Node) => { d with cls := c, clsSince := s.tick, shapeFail := d.shapeFail || shape }
    | none => s.plainFault n (if d.shapeFail || shape then 0xC3 else 0xC2)

/-- Why a class cannot ever hold a node: no instance of it, or its shape (R334, R343). -/
def State.classFails (s : State) (part cls cp dp : Nat) : Option Bool :=
  let dies := s.classDies part cls
  if dies.isEmpty then some false
  else if (match classOf cls with | some c => classCells c | none => 0) < cp ∨ dies.length < dp then some true
  else none

/-- The classes that cannot hold a node left behind, at once (R343). -/
def State.chooseClass : Nat → State → Nat → State
  | 0, s, _ => s
  | fuel + 1, s, n =>
    match s.node? n with
    | some d =>
      match FMap.find? s.objects d.kobj with
      | some o =>
        let ts := nodeTrips d o
        let cp := (kindTrips o ts 1).foldl (· * ·) 1
        let dp := (kindTrips o ts 2).foldl (· * ·) 1
        if d.st = .runnable ∧ cp * dp ≠ 0 then
          match s.classFails (s.ctxPart d.ctx) d.cls cp dp with
          | some shape =>
            -- R343, R449: a node that has been placed keeps its class
            if d.placedAt = 0 then State.chooseClass fuel (s.dropClass n o shape) n else s.plainFault n 0xC3
          | none => s
        else s
      | none => s
    | none => s

/-- The capability slots that the GSD fills at a first placement (R111, R338). DESIGN CHOICE: a slot to which CAPGIVE or
LCAP brought a capability keeps that one (log entry 125). -/
def State.fillSlots (s : State) (n : Nat) (o : CodeObj) : State :=
  let brought := fun (slot : Nat) => match s.node? n with
    | some d => FMap.get d.capsIn slot 0 != 0 || FMap.get d.caps slot 0 != 0
    | none => false
  (o.capKinds.filter fun e => !brought e.1).foldl (fun (s : State) e =>
    let id := if e.2 = 1 then some o.tileBuf else o.dataBuf
    match id with
    | some id =>
      match s.buf? id with
      | some b => s.fillSlot n e.1 (mkCap id (if e.2 = 1 then 0xC else 0x8) b.tag b.gen)
      | none => s
    | none => s) s

/-- A node placed on cells (R335, R394): every shard starts, or restarts from the record its indices left. -/
def State.placeOn (s : State) (n : Nat) (d : Node) (o : CodeObj) (cells : List (Nat × Nat × Nat)) : State :=
  let ts := nodeTrips d o
  let sect := o.sect? d.cls
  let entry := match sect with | some x => 8 * x.entry | none => 0
  let tvec : Word := match sect.bind (fun x => x.trap) with | some t => BitVec.ofNat 64 (8 * t) | none => 0
  let ctx := s.ctx? d.ctx
  let part := s.ctxPart d.ctx
  let s := cells.foldl (fun (s : State) e =>
    let (key, i, j) := e
    let old := FMap.find? d.records (256 * j + i)
    let r := old.getD (freshRecord entry d.kobj (shcoordOf o ts i j) ts o.levels)
    let c := s.shardCell key n i j ctx r tvec d.start
    -- R399: a shard of code that is gone stops at once
    -- R400: a PREEMPT that came during the prologue discards the node as it becomes RUNNING
    let c := if d.preempts.isEmpty then c else { c with phase := .halting }
    let c := if o.gone then { c with fatals := [(s.tick, Raise.at_ { code := 0x2A } .c r.rpc r.pos)] } else c
    ({ s with nextShard := s.nextShard + 1 }.setCell key c).acquire key part 6) s
  let s := if d.trips.isNone && !o.gone then s.fillSlots n o else s
  let s := d.capsIn.foldl (fun (s : State) e => s.modNode n fun (d : Node) => { d with caps := FMap.put d.caps e.1 e.2 }) s
  let s := { s with objects := FMap.modify s.objects d.kobj fun (o : CodeObj) => { o with used := true } }
  let s := if cells.isEmpty then s.arrive n .retiring else s.modNode n fun (d : Node) => { d with st := .running }
  s.modNode n fun (d : Node) => { d with
    discarding := !d.preempts.isEmpty, trips := some ts, capsIn := [], placedAt := s.tick + 1, records := [] }

/-- Effective priority (R342). -/
def State.effPrio (s : State) (d : Node) : Nat :=
  min 7 (d.prio + (s.tick - d.firstRunnable.getD s.tick) / 2 ^ 22)

/-- One node before another in the order of R342. -/
def State.before (s : State) (a b : Node) : Bool :=
  let pa := s.effPrio a
  let pb := s.effPrio b
  let fa := a.firstRunnable.getD 0
  let fb := b.firstRunnable.getD 0
  decide (pb < pa) || (pa == pb && (decide (fa < fb) || (fa == fb && decide (a.order < b.order))))

/-- A list with one entry put before those it precedes. -/
def insertBy {α : Type} (lt : α → α → Bool) (x : α) : List α → List α
  | [] => [x]
  | y :: ys => if lt x y then x :: y :: ys else y :: insertBy lt x ys

/-- The RUNNABLE nodes of a partition's ACTIVE context whose placement is open, in the order of R342 (R354); none while
the partition's dies are re-enumerated (R447). -/
def State.candidates (s : State) (part : Nat) : List Nat :=
  match s.part? part with
  | none => []
  | some p =>
    let open_ := match s.reenum with | some r => r.part != part | none => true
    let ns := s.nodes.filter fun e => open_ && e.2.st == .runnable && e.2.ctx == p.activeCtx
      && decide (e.2.start ≤ s.tick + 2 ^ 16)
    (ns.foldl (fun l e => insertBy (fun (a b : Nat × Node) => s.before a.2 b.2) e l) []).map fun e => e.1

/-- A node at effective priority 7 has waited 2^24 ticks (R342). -/
def State.starving (s : State) (d : Node) : Bool :=
  s.effPrio d == 7 && decide (2 ^ 24 ≤ s.tick - d.firstRunnable.getD s.tick)

/-- The classes whose placements firmware defers in this pass, to wake the engines for several nodes at once (R359): in
BATCHED alone, and while no candidate's tolerance has run out. Whether it does is free. -/
def State.deferred (s : State) (part draw : Nat) : List Nat :=
  match s.part? part with
  | none => []
  | some p => ([1, 2, 3, 4] : List Nat).filter fun cls =>
      (nthD p.power (cls - 1) (0, 0)).1 == 6 && draw.testBit cls && (s.candidates part).all fun n =>
        match s.node? n with | some d => d.cls != cls || decide (s.tick < d.runnableAt + d.lattol) | none => true

/-- One node placed, if it fits, its class is not deferred, and no node of its class that has waited too long must go
first; one just discarded for starvation does not compete (R357). -/
def State.tryPlace (s : State) (part n : Nat) (late : List Nat) (gone : Option Nat) : State :=
  let s := State.chooseClass 4 s n
  match s.node? n with
  | none => s
  | some d =>
    match FMap.find? s.objects d.kobj, s.part? part with
    | some o, some p =>
      let ts := nodeTrips d o
      let cs := kindTrips o ts 1
      let cp := cs.foldl (· * ·) 1
      let dp := (kindTrips o ts 2).foldl (· * ·) 1
      let held := s.nodes.any fun e => e.1 != n && some e.1 != gone && e.2.st == .runnable && e.2.cls == d.cls && e.2.ctx == d.ctx
        && s.starving e.2 && s.before e.2 d
      if d.st ≠ .runnable then s
      else if cp * dp = 0 then s.placeOn n d o []
      else if held || !p.places d.cls || late.contains d.cls then s
      else match s.fit part d.cls cp dp (o.levels.any fun (l : Level) => l.kind == 1) with
        | some cells => s.placeOn n d o cells
        | none => s
    | _, _ => s

/-- The RUNNABLE nodes of a partition, one perhaps left out, placed as far as they fit (R342, R357). -/
def State.placeBut (s : State) (part : Nat) (gone : Option Nat) : State :=
  let (x, s) := s.draw
  let late := s.deferred part x
  ((s.candidates part).filter fun n => some n != gone).foldl (fun (s : State) n => s.tryPlace part n late gone) s

/-- The RUNNABLE nodes of a partition placed as far as they fit (R342). -/
def State.placeAll (s : State) (part : Nat) : State := s.placeBut part none

end Sys2Proof.Machine
end

