-- ==== Sys2Proof/Machine/Control.lean ====
section
/-! DEFINITION. Tag-7 words and OUT (R124 to R134, R178): branches and outcomes, calls, loops, regions, fences,
END, NOP. -/

namespace Sys2Proof.Machine

/-- C executes tag-7 words alone: in handler mode (R147) and on a prologue core (R351). -/
def State.alone (s : State) : Bool :=
  match s.cur with | .prologue _ => true | .cell _ _ => s.core.handler.isSome

/-- The PC of the executing engine. -/
def State.curPc (s : State) : Nat := (s.core.eng s.curEng).pc

/-- A branch condition on a register (R91). -/
def condTaken (cond : Nat) (v : Word) : Bool :=
  match cond with
  | 0 => true
  | 1 => v == 0
  | 2 => v != 0
  | 3 => decide (v.toInt < 0)
  | 4 => decide (0 ≤ v.toInt)
  | 5 => decide (v.toInt ≤ 0)
  | 6 => decide (0 < v.toInt)
  | 7 => v.getLsbD 0
  | _ => false

/-- PC + OFF24 * 8 (R89). -/
def offTarget (pc : Nat) (off : BitVec 24) : Nat :=
  (BitVec.ofNat 64 pc + BitVec.ofInt 64 (off.toInt * 8)).toNat

/-! ## Outcome queues (R125) -/

/-- An entry pushed to the bqs of engines, all at once or not at all; pushes to engines at END are discarded. Behind an
earlier producing word whose entry has not been pushed it is held back, and the producer goes on (log entry 132). -/
def State.pushBq (s : State) (x : BqEnt) : M State :=
  let c := s.core
  if c.bqEarly s.curClass s.curCode x.pos then .ok (s.setCore { c with bqHeld := insertHeld (s.curEng, x) c.bqHeld })
  else if c.bqHeld.any (fun y => decide (y.2.pos < x.pos)) || !c.bqRoom s.curClass s.curEng x then blocked 5
  else .ok (s.setCore (c.bqPut s.curClass s.curEng x))

/-- The head of the executing engine's bq. -/
def State.headBq (s : State) : M BqEnt :=
  match (s.core.eng s.curEng).bq with
  | [] => blocked 4
  | x :: _ => .ok x

/-- The head entry popped: one that a test accepts, or 0x8B. -/
def State.popBq (s : State) (ok : BqEnt → Bool) : M (Word × State) := do
  let x ← s.headBq
  if ok x then
    .ok (x.value, s.modEng fun g => { g with bq := g.bq.tail })
  else .error (.cause { code := 0x8B, aux := BitVec.ofNat 64 x.pc } none)

/-- The outcome or target of a word with a producer, as the executing engine learns it: the producer computes and
pushes it, every other engine pops it. -/
def State.exchange (s : State) (kind : BqKind) (prod : Bool) (value : State → M Word) : M (Word × State) :=
  if s.alone then
    if prod && s.core.handler.isSome then raise 0x8F else do .ok (← value s, s)
  else
    let p : EngTag := if prod then .a else .c
    let g := s.core.eng s.curEng
    if s.curEng = p then do
      let v ← value s
      .ok (v, ← s.pushBq ⟨kind, v, g.pc, g.pos⟩)
    else s.popBq fun x => x.kind == kind && x.pc == g.pc

/-- The outcome of a conditional word (R126, R129). -/
def State.outcome (s : State) (f : Br) : M (Bool × State) := do
  let (v, s) ← s.exchange .outcome f.prod fun s => do
    let r ← s.readReg f.reg.toNat
    .ok (if condTaken f.cond.toNat r then 1 else 0)
  .ok (v != 0, s)

/-- The target of a JMPI or CALLI (R127). -/
def State.target (s : State) (f : Br) : M (Nat × State) := do
  let (v, s) ← s.exchange .target f.prod fun s => do
    let r ← s.readReg f.reg.toNat
    if r.toNat % 8 ≠ 0 ∨ 8 * s.curCode.length ≤ r.toNat then raise 0x08 else .ok r
  .ok (v.toNat, s)

/-- A cause that C raises for all engines (R127 to R129); another engine waits for the stop. -/
def State.raiseAtC {α : Type} (s : State) (code : BitVec 8) : M α :=
  if s.curEng = .c then raise code else blocked 10

/-! ## Branches and calls -/

/-- BR (R126). -/
def execBr (f : Br) (s : State) : Result :=
  runWord f.hdr f.w1.isSome true (fun s =>
    let t := offTarget s.curPc f.off
    if f.cond = 0 then .ok (s, .goto t)
    else do
      let (b, s) ← s.outcome f
      .ok (s, if b then .goto t else .seq)) s

/-- JMPI (R127). -/
def execJmpi (f : Br) (s : State) : Result :=
  runWord f.hdr f.w1.isSome true (fun s => do
    let (t, s) ← s.target f
    .ok (s, .goto t)) s

/-- A return address pushed (R127). -/
def State.pushRet (s : State) (wide : Bool) : M State :=
  let g := s.core.eng s.curEng
  if 16 ≤ g.rstack.length then s.raiseAtC 0x8A
  else .ok (s.modEng fun g => { g with rstack := (g.pc + (if wide then 16 else 8)) :: g.rstack })

/-- CALL (R127). -/
def execCall (f : Br) (s : State) : Result :=
  runWord f.hdr f.w1.isSome true (fun s => do
    .ok (← s.pushRet f.w1.isSome, .goto (offTarget s.curPc f.off))) s

/-- CALLI (R127). DESIGN CHOICE: where a return stack that is full (0x8A) and an outcome pushed in a handler (0x8F, R147)
meet, the stack's cause is raised (log entry 154). -/
def execCalli (f : Br) (s : State) : Result :=
  runWord f.hdr f.w1.isSome true (fun s => do
    let s ← s.pushRet f.w1.isSome
    let (t, s) ← s.target f
    .ok (s, .goto t)) s

/-- RET (R127). -/
def execRet (f : Br) (s : State) : Result :=
  runWord f.hdr f.w1.isSome true (fun s =>
    match (s.core.eng s.curEng).rstack with
    | [] => s.raiseAtC 0x8A
    | r :: rs => .ok (s.modEng fun g => { g with rstack := rs }, .goto r)) s

/-! ## Loops -/

/-- The iteration count of a LOOP (R128). -/
def loopCount (n stg : Nat) (rot : Bool) : Nat := if n = 0 then 0 else if rot then n + stg else n

/-- LOOP (R128). Its end is the word at OFF24; its body begins after the LOOP. With ROT, X drives k8 to k15 from
here on (R231). -/
def execLoop (f : Lp) (s : State) : Result :=
  runWord f.hdr f.w1.isSome true (fun s => do
    let n ← s.readLc f.lc.toNat
    let pc := s.curPc
    let e := offTarget pc f.off
    let i := loopCount n f.stg.toNat f.rot
    if i = 0 then .ok (s, .goto e)
    else if 8 ≤ (s.core.eng s.curEng).lstack.length then s.raiseAtC 0x8D
    else
      let l : LoopEnt := { endPc := e, startPc := pc + (if f.w1.isSome then 16 else 8), left := i, rot := f.rot,
                           n := n, stg := f.stg.toNat, iter := 0 }
      let s := s.modEng fun g => { g with lstack := l :: g.lstack }
      let c := s.core
      let s := if f.rot ∧ s.curEng = .x then
          s.setCore { c.setStages n f.stg.toNat 0 with stageOpen := true } else s
      .ok (s, .seq)) s

/-- The innermost loop closed (R129); X's stage predicates go with a rotating one (R231). -/
def State.popLoop (s : State) : State :=
  let c := s.core
  let e := s.curEng
  match (c.eng e).lstack with
  | [] => s
  | l :: ls =>
    let c := c.setEng e { c.eng e with lstack := ls }
    s.setCore (if e = .x ∧ l.rot then { c.clearStages with stageOpen := ls.any fun (m : LoopEnt) => m.rot } else c)

/-- BREAK (R129). DESIGN CHOICE: where a loop stack that is empty (0x8D) and an outcome pushed in a handler (0x8F, R147)
meet, the stack's cause is raised (log entry 154). -/
def execBreak (f : Br) (s : State) : Result :=
  runWord f.hdr f.w1.isSome true (fun s =>
    if (s.core.eng s.curEng).lstack.isEmpty then s.raiseAtC 0x8D
    else
      let t := offTarget s.curPc f.off
      if f.cond = 0 then .ok (s.popLoop, .jump t)
      else do
        let (b, s) ← s.outcome f
        .ok (if b then (s.popLoop, .jump t) else (s, .seq))) s

/-! ## OUT and FOLLOW (R130) -/

/-- OUT. -/
def execOut (f : Rrr) (s : State) : Result :=
  runWord f.hdr f.w1.isSome false (fun s => seqM do
    notInHandler s
    let (a, s) ← s.src f.a (litVal 0 f.w1)
    let g := s.core.eng s.curEng
    s.pushBq ⟨.out, if a = 0 then 0 else 1, g.pc, g.pos⟩) s

/-- FOLLOW. -/
def execFollow (f : Br) (s : State) : Result :=
  runWord f.hdr f.w1.isSome false (fun s => do
    notInHandler s
    let (v, s) ← s.popBq fun x => x.kind == .out
    .ok (s, if condTaken f.cond.toNat v then .goto (offTarget s.curPc f.off) else .seq)) s

/-! ## REGION, FENCE.ENG, END, NOP -/

/-- Every other live engine stands issued at C's word. -/
def State.allHere (s : State) : Bool :=
  let c := s.core
  (c.live s.curClass).all fun e => e == .c || ((c.eng e).issued && (c.eng e).pos == c.engC.pos)

/-- Every live engine but C goes on to the next word. -/
def State.releaseOthers (s : State) (wide : Bool) : State :=
  (s.core.live s.curClass).foldl (fun (s : State) e =>
    if e = .c then s else s.setCore (s.core.advance s.curClass e .seq wide true)) s

/-- The restart record at a REGION (R131, step 4; R393). -/
def State.recordOf (s : State) : Record :=
  let c := s.core.settleLc s.curClass
  { rpc := c.engC.pc, pos := c.engC.pos, written := true, obj := (match s.node? c.node with | some n => n.kobj | none => 0), shcoord := c.shcoord,
    rinst := c.rinst + 1, barDie := c.barDie, barNode := c.barNode, fpstat := c.fpstat, mstat := c.mstat,
    win := c.winslip, padval := c.padval, ordwatch := c.ordwatch, x := c.x, a := c.a, lc := c.lc }

/-- The checks of REGION on the state of the shard (R131, step 2). -/
def Cell.regionCause (c : Cell) (cls : DieClass) : Option (BitVec 8) :=
  let es := c.live cls
  if es.any fun e => !(c.eng e).rstack.isEmpty || !(c.eng e).lstack.isEmpty then some 0x8C
  else if !c.qx.isEmpty || !c.qc.isEmpty || !c.qa.isEmpty
      || !c.bqHeld.isEmpty || es.any fun e => !(c.eng e).bq.isEmpty || !(c.eng e).cq.isEmpty then some 0x8E
  else none

/-- REGION (R131): each engine waits; C, last, checks, resets the tokens, writes the restart record unless the
region restarts (R394), and lets every engine go on. -/
def execRegion (f : Rrr) (s : State) : Result :=
  runWord f.hdr f.w1.isSome false (fun s => do
    notInHandler s
    if s.curEng ≠ .c then .error (.wait s 10)
    else if !s.allHere || !s.core.jobs.isEmpty then .error (.wait s 10)
    else
      let c := s.core
      match c.regionCause s.curClass with
      | some code => raise code
      | none =>
        let c := EngTag.all.foldl (fun (c : Cell) e => c.setEng e { c.eng e with tok := [], ordinal := 0 }) c
        let s := s.setCore c
        let s :=
          if c.restarting then s.setCore { c with restarting := false }
          else
            let s := s.dropKept c.node c.flatC c.flatD c.rinst
            s.setCore { s.core with record := s.recordOf, rinst := c.rinst + 1 }
        .ok (s.releaseOthers f.w1.isSome, .seq)) s

/-- FENCE.ENG (R178). -/
def fence (async : Bool) (f : Rrr) (s : State) : Result :=
  runWord f.hdr f.w1.isSome false (fun s => do
    notInHandler s
    if s.curEng ≠ .c then .error (.wait s 10)
    else if !s.allHere || (async && !s.core.jobs.isEmpty) then .error (.wait s 10)
    else .ok (s.releaseOthers f.w1.isSome, .seq)) s

/-- FENCE.ENG (R178). -/
def execFenceEng (f : Rrr) (s : State) : Result := fence false f s
/-- FENCE.ENG .async (R178). -/
def execFenceEngAsync (f : Rrr) (s : State) : Result := fence true f s

/-- END (R132); on a prologue core it acts as PEND GO (R351). -/
def execEnd (f : Rrr) (s : State) : Result :=
  runWord f.hdr f.w1.isSome true (fun s =>
    match s.cur with
    | .prologue n =>
      .ok (s.prologueEnd n .go, .seq)
    | .cell _ _ => do
      notInHandler s
      let c := s.core
      -- R441: a stamp whose drain has not come has none; R357: END ends polling
      let c := if s.curEng = .m then { c with stamps := c.stamps.map fun (x : Stamp) =>
          if x.drain.isNone then { x with noDrain := true } else x } else c
      .ok ((s.setCore { c with pollSince := s.tick }).modEng fun g =>
        { g with done := true, lstack := [], rstack := [], bq := [], cq := [] }, .seq)) s

/-- NOP (R133). -/
def execNop (f : Rrr) (s : State) : Result :=
  runWord f.hdr f.w1.isSome true (fun s => .ok (s, .seq)) s

end Sys2Proof.Machine
end

