-- ==== Sys2Proof/Machine/Trace.lean ====
section
/-! DEFINITION. Trace rings and their records (R437 to R442). -/

namespace Sys2Proof.Machine

/-- What becomes of a record (R439, R440). -/
inductive TraceEnd where
  | written | lost | dropped
  /-- the ring is full and STALL is 1 -/
  | full
  /-- a move of the header's tile, or an access that waits there, keeps the reservation from the home; or its fetch
  starts (R363, R364) -/
  | held (buf tile : Nat) (who : Waiter) (fetch : Bool)
  deriving DecidableEq, Repr

/-- Bytes at a place, read where they are held. -/
def State.placeRead (s : State) (p : Place) (n : Nat) : List Byte :=
  match p with
  | .spad key off => (s.cell key).spadRead off n
  | .line loc => s.homeRead loc n

/-- Bytes at a place, written where they are held by a cell of a die; what its home serves reaches the die's copies
(R308, item 5; R380). -/
def State.placePut (s : State) (chip : Nat) (p : Place) (bs : List Byte) : State :=
  match p with
  | .spad key off => s.setCell key ((s.cell key).spadPut (writesOf off bs) [])
  | .line loc => (s.homePut loc (writesOf loc bs)).refresh chip (writesOf loc bs)

/-- A record of 32 bytes sent to its home, where it is performed whole (R439); once it can be sent, it may be performed
later than the reservation of its slot. -/
def State.tracePut (s : State) (key : Nat) (p : Place) (bs : List Byte) : State :=
  match p with
  | .spad _ _ => s.placePut (keyChip key) p bs
  | .line loc =>
    match s.storeLine key (s.ctxPart (s.nodeCtx (s.cell key).node)) loc bs 5 true with
    | .ok s => s
    | .error _ => s.placePut (keyChip key) p bs

/-- A 64-bit field at a place. -/
def State.placeWord (s : State) (p : Place) (off : Nat) : Nat :=
  leNat (((s.placeRead p 64).drop off).take 8)

/-- A place further on. -/
def Place.plus : Place → Nat → Place
  | .spad k o, n => .spad k (o + n)
  | .line l, n => .line (l + n)

/-- TRDROP counts a record that a failed check dropped. -/
def State.traceDrop (s : State) (key : Nat) : State :=
  let c := s.cell key
  s.setCell key { c with trdrop := min (c.trdrop + 1) (2 ^ 32 - 1) }

/-- An access of a trace producer as its checks see it: performed at the home, whose tag it is checked against. R418
lists no such access, so no watchpoint compares it (DEDUCED; log entry 144). -/
def traceAcc (a : Word) (n : Nat) : Acc := { addr := a, size := n, write := true, align := n, scope := 2, watch := false }

/-- The reservation's turn at the home of the header line: after the cell's own stores to it (R311), where no move and no
earlier access holds it (R364), with its check bits good (R427). -/
def State.traceTurn (s : State) (key : Nat) (h : Place) : M State :=
  match h with
  | .spad _ _ => .ok s
  | .line loc => do
    let s ← s.flushLine (keyChip key) (keyCell key) (lineOf loc)
    let s ← s.homeTurn loc
    s.eccCheck loc
    s.warm loc

/-- A record of 32 bytes written into the ring of a cell (R439), whose header lies at `base`: the header and the record
pass the checks of R154, a slot is reserved at the home of the header, and the record is written there. -/
def State.traceWrite (s : State) (key : Nat) (base : Word) (stall : Bool) (recTick : Nat) (rec_ : List Byte) :
    TraceEnd × State :=
  let chip := keyChip key
  match s.access key (traceAcc base 64) with
  | .error _ => (.dropped, s.traceDrop key)
  | .ok (h, s0) =>
    match s0.traceTurn key h with
    | .error (.tile id i w f) => (.held id i w f, s)
    | .error (.cause r _) => (.dropped, (s0.traceDrop key).cellCondemn key { r with addr := base })
    | .error _ => (.full, s)
    | .ok s1 =>
      let nrecWord := s1.placeWord h 0x10
      let nrec := nrecWord % 32
      if nrecWord ≠ nrec ∨ nrec < 4 ∨ 24 < nrec then (.dropped, s1.traceDrop key)
      else
        let wr := s1.placeWord h 0
        let rd := s1.placeWord h 8
        if (wr + 2 ^ 64 - rd) % 2 ^ 64 < 2 ^ nrec then
          match s1.access key (traceAcc (base + BitVec.ofNat 64 (64 + 32 * (wr % 2 ^ nrec))) 32) with
          | .error _ => (.dropped, s1.traceDrop key)
          | .ok (r, s2) => (.written, (s2.placePut chip h (leBytes 8 (wr + 1))).tracePut key r rec_)
        else if stall then (.full, s)
        else
          let s2 := s1.placePut chip (h.plus 0x18) (leBytes 8 (s1.placeWord h 0x18 + 1))
          (.lost, if s1.placeWord h 0x20 = 2 ^ 64 - 1 then s2.placePut chip (h.plus 0x20) (leBytes 8 recTick) else s2)

/-- What a reservation that cannot be performed leaves: the tile's fetch, and the access among those that wait there. -/
def State.traceHold (s : State) (id i : Nat) (w : Waiter) (fetch : Bool) : State :=
  (if fetch then s.startFetch id i none else s).hold id i w

/-- A mark record (R442). -/
def markBytes (tick : Nat) (value : Word) (key : Nat) : List Byte :=
  leBytes 8 tick ++ leBytes 8 value.toNat ++ List.replicate 12 0
    ++ leBytes 1 (keyChip key) ++ leBytes 1 (keyCell key) ++ [0, 2]

/-- A stamp record (R441, R442): T0 and the four later ticks, the tile, and NODRAIN. -/
def stampBytes (t0 : Nat) (ticks : List Nat) (tile : BitVec 32) (key : Nat) (nodrain : Bool) : List Byte :=
  let sat := ticks.any fun t => decide (2 ^ 32 - 1 < t - t0)
  leBytes 8 t0 ++ ticks.flatMap (fun t => leBytes 4 (min (t - t0) (2 ^ 32 - 1))) ++ leBytes 4 tile.toNat
    ++ leBytes 1 (keyChip key) ++ leBytes 1 (keyCell key)
    ++ leBytes 1 ((if sat then 1 else 0) + (if nodrain then 2 else 0)) ++ [1]

/-- Every stamp record that is due, oldest first, written, lost or dropped; under STALL a full ring keeps it (R439 to
R441). -/
def State.produceStamps (s : State) (key : Nat) : State :=
  (s.cell key).stamps.foldl (fun (s : State) x =>
    match x.due with
    | none => s
    | some (start, stop, out) =>
      match { s with actor := some (.stamp key x.mgo) }.traceWrite key x.trbase x.stall out
          (stampBytes x.t0 [x.issue, start, stop, out] x.tile key x.out.isNone) with
      | (.full, _) => s
      | (.held id i w f, _) => s.traceHold id i w f
      | (_, t) =>
        let c := t.cell key
        { t with actor := s.actor }.setCell key { c with stamps := c.stamps.filter fun y => y.mgo != x.mgo }) s

end Sys2Proof.Machine
end

