-- ==== Sys2Proof/Machine/System.lean ====
section
/-! DEFINITION. The system words of C (R135 to R144, R148) and the special registers (R62 to R71, R78, R352, R417,
R437). -/

namespace Sys2Proof.Machine

/-! ## Order between C and the tables of M and W (R246, R437) -/

def Instr.isMgo : Instr → Bool | .mgo _ => true | _ => false
def Instr.isRgo : Instr → Bool
  | .rgoMax _ | .rgoExpsum _ | .rgoScale _ | .rgoNorm _ => true
  | _ => false
/-- A CSR word that writes the CSR of a number in a range. -/
def Instr.writesCsr (lo hi : Nat) : Instr → Bool
  | .csrw f | .csrs f | .csrc f => decide (lo ≤ f.imm.toNat % 4096 ∧ f.imm.toNat % 4096 ≤ hi)
  | _ => false
/-- A word of C that writes what an MGO takes. -/
def Instr.writesNest (i : Instr) : Bool :=
  match i with | .mset _ | .mopd _ | .mscale _ => true | _ => Instr.writesCsr 0x200 0x202 i
/-- A word of C that writes the row timetable. -/
def Instr.writesTimetable : Instr → Bool | .rtt _ => true | _ => false
/-- A word of C that writes VROT (R232). -/
def Instr.writesVrot (i : Instr) : Bool := Instr.writesCsr 0x14 0x14 i

/-- An engine still has a word that satisfies a test before the position of the executing one. -/
def State.owes (s : State) (e : EngTag) (p : Instr → Bool) : Bool :=
  let c := s.core
  s.curClass.has e && !(c.eng e).done && c.anyWord s.curClass s.curCode (c.eng e).pos (c.eng s.curEng).pos p

/-- C waits until an engine has issued every earlier word that takes the table C writes; in handler mode the
other engines stand still and C writes at once (R406). -/
def State.afterTakers (s : State) (e : EngTag) (p : Instr → Bool) : M Unit :=
  if s.core.handler.isNone && s.owes e p then blocked 11 else .ok ()

/-! ## Special registers of a cell -/

/-- VROT as a word (R69). -/
def Cell.vrotWord (c : Cell) : Word := BitVec.ofNat 64 (c.vrotBase + c.vrotSize * 2 ^ 8 + c.vrotOff * 2 ^ 24)

/-- VROT as C reads it: its own latest write, or the value X's words have left. -/
def Cell.readVrot (c : Cell) : Word :=
  match c.vrotPend.getLast? with
  | some p => (c.setVrot p.2).vrotWord
  | none => c.vrotWord

/-- MSTAT (R65, R273). -/
def Cell.mstatWord (c : Cell) : Nat :=
  let busy := c.jobs.any fun j => j.eng == .m
  c.mstat.toNat + (if busy then 2 ^ 8 else 0) + (if c.shv then 2 ^ 9 else 0)

/-- TOKMAP of an engine tag (R70). -/
def Cell.tokmap (c : Cell) (cls : DieClass) (n : Nat) : Nat :=
  match EngTag.ofNum n with
  | some e =>
    if cls.has e then (List.range 8).foldl (fun a i => a + ((c.eng e).counter i).toNat * 2 ^ (8 * i)) 0 else 0
  | none => 0

/-- The value of a special register (R62). -/
def State.csrRead (s : State) (n : Nat) : Word :=
  let c := s.core
  let cls := s.curClass
  if n = 0x001 then c.fpstat.setWidth 64
  else if n = 0x002 then BitVec.ofNat 64 c.mstatWord
  else if n = 0x010 then c.shcoord
  else if n = 0x011 then BitVec.ofNat 64 c.winslip
  else if n = 0x012 then (if c.ordwatch then 1 else 0)
  else if n = 0x013 then c.padval.setWidth 64
  else if n = 0x014 then c.readVrot
  else if n = 0x015 then BitVec.ofNat 64 (c.qa.length + c.qc.length * 2 ^ 8 + c.qx.length * 2 ^ 16
    + c.engC.bq.length * 2 ^ 32)
  else if 0x018 ≤ n ∧ n ≤ 0x01D then BitVec.ofNat 64 (c.tokmap cls (n - 0x018))
  else if n = 0x040 then BitVec.ofNat 64 (c.pstg + c.pnc * 2 ^ 16)
  else if 0x060 ≤ n ∧ n ≤ 0x07F then (c.pslane.extractLsb' (32 * (n - 0x060)) 32).setWidth 64
  else if 0x100 ≤ n ∧ n ≤ 0x103 then nthD s.curApers (n - 0x100) 0
  else if n = 0x110 then c.scopetab
  else if 0x112 ≤ n ∧ n ≤ 0x116 then nthD c.scopem (n - 0x112) 0
  else if n = 0x180 then c.epc
  else if n = 0x181 then c.ecause
  else if n = 0x182 then c.eaddr
  else if n = 0x183 then c.tvec
  else if 0x1C0 ≤ n ∧ n ≤ 0x1DF then
    let p := c.wp ((n - 0x1C0) / 4)
    match n % 4 with
    | 0 => p.base | 1 => p.len | 2 => p.ctl | _ => BitVec.ofNat 64 p.cnt
  else if n = 0x200 then c.trctl.setWidth 64
  else if n = 0x201 then c.trbase
  else if n = 0x202 then c.sttile.setWidth 64
  else if n = 0x203 then BitVec.ofNat 64 c.trdrop
  else 0

/-- WPCTL as it stores a value (R417): reserved bits zero, a SCOPE of 7 stored as 6. -/
def wpCtl (w : Word) : Word :=
  let x := w &&& 0x377
  if x.extractLsb' 4 3 = 7 then x &&& ~~~(0x10 : Word) else x

/-- A watchpoint register written. -/
def WatchPt.write (p : WatchPt) (r : Nat) (w : Word) : WatchPt :=
  match r with
  | 0 => { p with base := BitVec.ofNat 64 (addrVa w) }
  | 1 => { p with len := (w.extractLsb' 0 48).setWidth 64 }
  | 2 => { p with ctl := wpCtl w }
  | _ => { p with cnt := w.toNat % 2 ^ 32 }

/-- WINSLIP as it stores a value (R68). -/
def winOf (w : Word) : Nat := min (max (w.toNat % 2 ^ 13) 16) 4096

/-- A write of VROT by C (R69, R232): X takes it up when it passes the writing word. -/
def State.writeVrot (s : State) (w : Word) : M State :=
  let c := s.core
  if 256 < natBits w.toNat 0 8 + natBits w.toNat 8 9 then raise 0x02
  else if c.handler.isSome then .ok (s.setCore { c.setVrot w with vrotPend := [] })
  else if c.engX.done || decide (c.engC.pos < c.engX.pos) || !s.curClass.has .x then .ok (s.setCore (c.setVrot w))
  else .ok (s.setCore { c with vrotPend := c.vrotPend ++ [(c.engC.pos, w)] })

/-- A write of a special register (R62 to R71, R417, R437); reserved bits keep their values (R14). A flag
raised at the tick of a write of FPSTAT or MSTAT stays set (R25). -/
def State.csrWrite (s : State) (n : Nat) (w : Word) : M State :=
  let c := s.core
  if n = 0x001 then .ok (s.setCore { c with fpstat := w.setWidth 6 ||| c.nowFp })
  else if n = 0x002 then .ok (s.setCore { c with mstat := w.setWidth 3 ||| c.nowM })
  else if n = 0x011 then .ok (s.setCore { c with winslip := winOf w })
  else if n = 0x012 then
    .ok (s.setCore (if c.handler.isSome then c.handlerOrd (w.getLsbD 0) else { c with ordwatch := w.getLsbD 0 }))
  else if n = 0x013 then .ok (s.setCore { c with padval := w.setWidth 32 })
  else if n = 0x014 then s.writeVrot w
  else if n = 0x180 then .ok (s.setCore { c with epc := w &&& 0x01FFFFFFFFFFFFF8 })
  else if 0x1C0 ≤ n ∧ n ≤ 0x1DF then
    let i := (n - 0x1C0) / 4
    let ps := (List.range 8).map fun j => if j = i then (c.wp j).write (n % 4) w else c.wp j
    .ok (s.setCore { c with watch := ps })
  else if n = 0x200 then .ok (s.setCore { c with trctl := w.setWidth 2 })
  else if n = 0x201 then .ok (s.setCore { c with trbase := w })
  else if n = 0x202 then .ok (s.setCore { c with sttile := w.setWidth 32 })
  else .ok s

/-! ## Launch registers (R352) -/

/-- The value of a launch register on the prologue core of a node. -/
def State.launchRead (s : State) (node n : Nat) : Word :=
  match s.node? node, FMap.find? s.prols node with
  | some d, some p =>
    if n ≤ 0x305 then BitVec.ofNat 64 (nthD d.ltrip (n - 0x300) 0)
    else if n ≤ 0x31F then FMap.get d.lcap (n - 0x310) 0
    else if n = 0x320 then BitVec.ofNat 64 p.lthn
    else if n = 0x330 then BitVec.ofNat 64 d.prio
    else if n = 0x331 then BitVec.ofNat 64 d.lcount
    else if n = 0x332 then d.param
    else 0
  | _, _ => 0

/-- BASE of the tile record LTHN, written by LTHB (R186, R352). -/
def State.writeLthb (s : State) (node : Nat) (w : Word) : M State :=
  match s.node? node, FMap.find? s.prols node with
  | some d, some p =>
    match FMap.find? s.objects d.kobj with
    | some o =>
      if o.gone then .ok s
      else if o.tileCount ≤ p.lthn then .error (.cause { code := 0xA0, aux := BitVec.ofNat 64 p.lthn } none)
      else .ok (s.fillBuffer o.tileBuf (64 * p.lthn) (leBytes 8 w.toNat))
    | none => .ok s
  | _, _ => .ok s

/-- A launch register written. -/
def State.launchWrite (s : State) (node n : Nat) (w : Word) : M State :=
  if n ≤ 0x305 then .ok (s.modNode node fun (d : Node) => { d with ltrip := setNth d.ltrip (n - 0x300) (w.toNat % 2 ^ 32) })
  else if n ≤ 0x31F then .ok (s.modNode node fun (d : Node) => { d with lcap := FMap.set d.lcap (n - 0x310) w 0 })
  else if n = 0x320 then
    .ok { s with prols := FMap.modify s.prols node fun (p : Prologue) => { p with lthn := w.toNat % 2 ^ 16 } }
  else if n = 0x321 then s.writeLthb node w
  else if n = 0x330 then .ok (s.modNode node fun (d : Node) => { d with prio := w.toNat % 8 })
  else .ok s

/-! ## The CSR words (R136) -/

/-- The CSR number of a word. -/
def Ri.csr (f : Ri) : Nat := f.imm.toNat % 4096

/-- The old value of the register a CSR word names. -/
def State.csrOld (s : State) (n : Nat) : M Word :=
  match s.cur with
  | .cell _ _ => .ok (s.csrRead n)
  | .prologue node => if launchReg n then .ok (s.launchRead node n) else raise 0x01

/-- A CSR word that writes: the old value to D, then the new one to the register. -/
def csrForm (onPrologue : Bool) (f : Ri) (fn : Word → Word → Word) (s : State) : Result :=
  runWord f.hdr f.w1.isSome onPrologue (fun s => seqM do
    let n := Ri.csr f
    if 0x200 ≤ n ∧ n ≤ 0x202 then s.afterTakers .m Instr.isMgo
    let (a, s) ← s.src f.a (litVal 0 f.w1)
    let old ← s.csrOld n
    let s ← match s.cur with
      | .cell _ _ => s.csrWrite n (fn old a)
      | .prologue node => s.launchWrite node n (fn old a)
    s.dst f.d old) s

/-- CSRR (R136). -/
def execCsrr (f : Ri) (s : State) : Result :=
  runWord f.hdr f.w1.isSome true (fun s => seqM do
    let old ← s.csrOld (Ri.csr f)
    s.dst f.d old) s
/-- CSRW (R136). -/
def execCsrw (f : Ri) (s : State) : Result := csrForm true f (fun _ a => a) s
/-- CSRS (R136). -/
def execCsrs (f : Ri) (s : State) : Result := csrForm false f (fun old a => old ||| a) s
/-- CSRC (R136). -/
def execCsrc (f : Ri) (s : State) : Result := csrForm false f (fun old a => old &&& ~~~a) s

/-! ## Traps -/

/-- TRAP (R140). -/
def execTrap (f : Ri) (s : State) : Result :=
  runWord f.hdr f.w1.isSome false (fun s => do
    let (a, _) ← s.src f.a (litVal 0 f.w1)
    raiseAt 0x7E (a + f.imm.signExtend 64)) s

/-- BKPT (R140). -/
def execBkpt (f : Ri) (s : State) : Result :=
  runWord f.hdr f.w1.isSome false (fun _ => raiseAt 0x49 (f.imm.signExtend 64)) s

/-- The return from handler mode (R148): C's stacks and stop PC come back, the trapped engine goes to EPC, and it
counts the trapped word as passed unless it resumes there. DESIGN CHOICE: the loop-end test is not applied to an engine
that resumes at the end E of its innermost loop; R148 sets its PC and names no such test (log entry 142). -/
def Cell.trapReturn (c : Cell) (h : Handler) : Cell :=
  let c := { c with
    handler := none
    engC := { c.engC with pc := h.cStop, rstack := h.cRstack, lstack := h.cLstack, done := h.cDone, reason := 0
                          issued := false } }
  let g := c.eng h.trapEng
  let passed := c.epc.toNat != h.trapPc
  let c := if passed && g.pos == c.pathBase + c.path.length then { c with path := c.path ++ [h.trapPc] } else c
  c.setEng h.trapEng { g with pc := c.epc.toNat, pos := if passed then g.pos + 1 else g.pos }

/-- ERET (R148). -/
def execEret (f : Ri) (s : State) : Result :=
  runWord f.hdr f.w1.isSome false (fun s =>
    match s.core.handler with
    | none => raise 0x8F
    | some h => .ok (s.setCore (s.core.trapReturn h), .stay)) s

/-! ## Time, HALT, invalidation -/

/-- TICK (R137). -/
def execTick (f : Rrr) (s : State) : Result :=
  runWord f.hdr f.w1.isSome false (fun s => seqM (s.dst f.d (BitVec.ofNat 64 s.tick))) s

/-- The operand of a word that waits after it has issued: taken at issue, and kept. -/
def State.heldOperand (s : State) (code : BitVec 8) (lit : Word) : M (Word × State) :=
  match (s.core.eng s.curEng).waitVal with
  | some v => .ok (v, s)
  | none => do
    let (v, s) ← s.src code lit
    .ok (v, s.modEng fun g => { g with waitVal := some v })

/-- WAITTICK (R137). -/
def execWaittick (f : Rrr) (s : State) : Result :=
  runWord f.hdr f.w1.isSome false (fun s => do
    let (v, s) ← s.heldOperand f.a (litVal 0 f.w1)
    if v.toNat ≤ s.tick then .ok (s, .seq) else .error (.wait s 12)) s

/-- The HALT event of a cell (R138, R457). -/
def State.haltEvent (s : State) (key pc : Nat) : State :=
  let c := s.cell key
  let ctx := s.nodeCtx c.node
  s.postEvent 2 (s.ctxPart ctx) ctx
    [(8, 2, c.node), (10, 1, keyChip key), (11, 1, keyCell key), (12, 1, c.flatC), (13, 1, c.flatD), (16, 8, pc)] []

/-- A halted shard has nothing more to complete: its event is due. An engine that waits at a tag-7 word for the others
has not executed it. -/
def Cell.haltQuiet (c : Cell) : Bool :=
  c.phase == .halted && c.jobs.isEmpty && EngTag.all.all fun e => (c.eng e).done || !(c.eng e).outside

/-- The HALT events that are due (R138). -/
def State.haltReports (s : State) : State :=
  s.cells.foldl (fun (s : State) e =>
    match e.2.haltPc with
    | some pc => if e.2.haltQuiet then (s.setCell e.1 { e.2 with haltPc := none }).haltEvent e.1 pc else s
    | none => s) s

/-- HALT (R138): the shard issues no more. The event follows when its issued words and its asynchronous work have
completed. -/
def execHalt (f : Rrr) (s : State) : Result :=
  runWord f.hdr f.w1.isSome false (fun s =>
    .ok (s.setCore { s.core with phase := .halted, haltPc := some (s.curPc + (if f.w1.isSome then 16 else 8)) }, .seq)) s

/-- The chiplets an invalidation scope reaches (R139): the issuing die, or every die of the partition. -/
def State.scopeChips (s : State) (rs : Nat) : List Nat :=
  let chip := keyChip s.curKey
  if rs = 5 then (List.range 44).filter fun i => (s.die i).part == s.ctxPart (s.nodeCtx s.curNode)
  else [chip]

/-- A range of an invalidation (R139): first byte and length; B = 0 covers all. -/
def invRange (a b : Word) : Nat × Nat :=
  if b = 0 then (0, 2 ^ 57) else (addrVa a, min b.toNat (2 ^ 57 - addrVa a))

/-- Instruction-cache words of the 64-byte lines that overlap a range, dropped. -/
def Cell.icDrop (c : Cell) (lo len : Nat) : Cell :=
  { c with icache := c.icache.filter fun e => !(decide (e.1 / 8 * 64 < lo + len) && decide (lo < e.1 / 8 * 64 + 64)) }

/-- Cells of the executing context that a test on keys selects, changed. -/
def State.mapCells (s : State) (sel : Nat → Bool) (f : Cell → Cell) : State :=
  let ctx := s.nodeCtx s.curNode
  { s with cells := s.cells.map fun e => if sel e.1 && s.nodeCtx e.2.node == ctx then (e.1, f e.2) else e }

/-- ICINV (R139). -/
def execIcinv (f : Rrr) (s : State) : Result :=
  runWord f.hdr f.w1.isSome false (fun s => seqM do
    let lit := litVal 0 f.w1
    let (a, s) ← s.src f.a lit
    let (b, s) ← s.src f.b lit
    let (lo, len) := invRange a b
    let chips := s.scopeChips f.rs.toNat
    let sel := fun k => if f.rs = 0 then k == s.curKey else chips.contains (keyChip k)
    .ok (s.mapCells sel fun c => c.icDrop lo len)) s

/-- TLBINV (R139). -/
def execTlbinv (f : Rrr) (s : State) : Result :=
  runWord f.hdr f.w1.isSome false (fun s => seqM do
    let lit := litVal 0 f.w1
    let (a, s) ← s.src f.a lit
    let (b, s) ← s.src f.b lit
    let (lo, len) := invRange a b
    if f.rs = 0 then
      .ok (s.mapCells (fun k => k == s.curKey) fun c =>
        { c with tlb := c.tlb.filter fun t =>
            !(decide (t.1 * pageBytes < lo + len) && decide (lo < (t.1 + 1) * pageBytes)) })
    else .ok (s.tlbInv (s.scopeChips f.rs.toNat) (s.nodeCtx s.curNode) lo len)) s

/-! ## WATCH, PEND, FWSVC -/

/-- A watchpoint armed or disarmed. -/
def WatchPt.setArm (p : WatchPt) (on : Bool) : WatchPt :=
  { p with ctl := if on then p.ctl ||| 0x100 else p.ctl &&& ~~~(0x100 : Word) }

/-- WATCH (R141). -/
def execWatch (f : Ri) (s : State) : Result :=
  runWord f.hdr f.w1.isSome false (fun s => seqM do
    let c := s.core
    let ps := (List.range 8).map fun i =>
      if f.imm.getLsbD 4 || i == f.imm.toNat % 8 then (c.wp i).setArm (f.imm.getLsbD 3) else c.wp i
    (s.setCore { c with watch := ps }).dst f.d (BitVec.ofNat 64 c.armMask)) s

/-- A PEND word (R142): it ends a prologue run, and raises 0xC7 on a cell. -/
def pend (f : Ri) (kind : State → M (PendKind × State)) (s : State) : Result :=
  runWord f.hdr f.w1.isSome true (fun s =>
    match s.cur with
    | .cell _ _ => raise 0xC7
    | .prologue n => do
      let (k, s) ← kind s
      .ok (s.prologueEnd n k, .seq)) s

/-- PEND GO (R142). -/
def execPendGo (f : Ri) (s : State) : Result := pend f (fun s => .ok (.go, s)) s
/-- PEND CANCEL (R142). -/
def execPendCancel (f : Ri) (s : State) : Result := pend f (fun s => .ok (.cancel, s)) s
/-- PEND REPEAT (R142): A as i64, clamped to 0 to 65,535; 0 acts as GO. -/
def execPendRepeat (f : Ri) (s : State) : Result :=
  pend f (fun s => do
    let (a, s) ← s.src f.a (litVal 0 f.w1)
    let n := (min (max a.toInt 0) 65535).toNat
    .ok (if n = 0 then .go else .again n, s)) s

/-- A firmware service that replies at once (R143). -/
def service (f : Ri) (reply : State → Word → Word) (s : State) : Result :=
  runWord f.hdr f.w1.isSome false (fun s => seqM do
    let (a, s) ← s.src f.a (litVal 0 f.w1)
    s.dst f.d (reply s a)) s

/-- FWSVC ECHO (R143). -/
def execEcho (f : Ri) (s : State) : Result := service f (fun _ a => a) s
/-- FWSVC DISCVER (R143). -/
def execDiscver (f : Ri) (s : State) : Result := service f (fun s _ => BitVec.ofNat 64 s.version) s
/-- FWSVC with an undefined service (R143). -/
def execFwsvcUndefined (f : Ri) (s : State) : Result := service f (fun _ _ => BitVec.allOnes 64) s

/-- FWSVC MARK (R143, R440, R442). -/
def execMark (f : Ri) (s : State) : Result :=
  runWord f.hdr f.w1.isSome false (fun s => do
    let (v, s) ← s.heldOperand f.a (litVal 0 f.w1)
    if s.core.trbase = 0 then seqM (s.dst f.d (BitVec.allOnes 64))
    else match s.traceWrite s.curKey s.core.trbase (s.core.trctl.getLsbD 1) s.tick (markBytes s.tick v s.curKey) with
      | (.written, s) => seqM (s.dst f.d (BitVec.ofNat 64 s.tick))
      | (.full, s) => .error (.wait s 12)
      | (.held id i w fetch, s) => .error (.wait (s.traceHold id i w fetch) 12)
      | (_, s) => seqM (s.dst f.d (BitVec.allOnes 64))) s

end Sys2Proof.Machine
end

