-- ==== Sys2Proof/Machine/Memory.lean ====
section
/-! DEFINITION. LD, ST, LDS and STS (R153 to R163). -/

namespace Sys2Proof.Machine

/-! ## Scratchpads of the own cell and of peers (R161, R313, R469) -/

/-- An access to the bytes of a scratchpad may be performed now: no clear runs there, and no granule of the cell's
own scratchpad is locked. -/
def State.spadReady (s : State) (key k off n : Nat) : M Unit :=
  let c := s.cell k
  if c.phase = .clearing then blocked 12
  else if k = key ∧ c.locked off n then blocked 12
  else .ok ()

/-- The executing engine's access to another cell's bank: held while that scratchpad is cleared, and turned back when
the shard at whose bank it stood is gone (R469). -/
def State.bankReady (s : State) (key k : Nat) (addr : Word) : M Unit :=
  if k = key then .ok ()
  else match (s.core.eng s.curEng).waitVal with
    | some x =>
      if x.toNat ≠ (s.cell k).serial then raiseAt 0x23 addr
      else if (s.cell k).phase = .clearing then .error (.bank k) else .ok ()
    | none => if (s.cell k).phase = .clearing then .error (.bank k) else .ok ()

/-- The place of the executing word, as a message to another cell carries it (R469). -/
def State.sender (s : State) (addr : Word) : Sender :=
  let g := s.core.eng s.curEng
  { serial := s.core.serial, eng := s.curEng, pc := g.pc, pos := g.pos, celem := none, addr := addr }

/-- The cell's own earlier messages to a peer are performed before an access that waits at the peer's bank. -/
def State.flushPeer (s : State) (key k : Nat) : M State :=
  if k = key then .ok s
  else s.flush (keyChip key) fun m => m.dest == cellDest k && m.cell == keyCell key

/-- The ORDER_WATCH cause of a store that passes a recorded read (R294, R413). -/
def orderWatch {α : Type} (r : WatchedRead) (off : Nat) : M α :=
  .error (.cause { code := 0x85, aux := BitVec.ofNat 64 off, pc2 := some (r.pc, r.eng) } none)

/-- Bytes read by the executing engine from a scratchpad, the full-empty bits apart. -/
def State.spadLoad (s : State) (key k off n : Nat) (addr : Word) : M (List Byte × State) := do
  s.bankReady key k addr
  s.spadReady key k off n
  let s ← s.flushPeer key k
  let bs := (s.cell k).spadRead off n
  let g := s.core.eng s.curEng
  .ok (bs, if k = key then s.setCell key ((s.cell key).noteRead s.curClass s.curEng g.pos g.pc off n) else s)

/-- Bytes written by A to a scratchpad, with the granules whose bit it sets: at once in the own cell, as a message
to a peer. -/
def State.spadStore (s : State) (key k off : Nat) (bs : List Byte) (fill : List Nat) (addr : Word) : M State :=
  if k = key then do
    s.spadReady key k off bs.length
    let c := s.cell key
    if s.ordWaits key .a c.engA.pos off bs.length then blocked 8
    else match c.passedRead .a c.engA.pos off bs.length with
    | some (r, at_) => orderWatch r at_
    | none => .ok (s.setCell key (c.spadPut (writesOf off bs) fill))
  else do
    s.bankReady key k addr
    s.postPeer key k (writesOf off bs) fill (s.sender addr)

/-! ## Values (R156, R157) -/

/-- A loaded value as D receives it: extended per its type. -/
def loadWord (ty : Nat) (bs : List Byte) : Word :=
  let t := ITy.ofCode ty
  t.write (t.read (leNat bs))

/-- The halves of a loaded value. -/
def loadHalves (ty : Nat) (bs : List Byte) : Word × Word :=
  if ty = 12 then (BitVec.ofNat 64 (leNat (bs.take 8)), BitVec.ofNat 64 (leNat (bs.drop 8))) else (loadWord ty bs, 0)

/-- A loaded value written to D, both halves of a `.b128`. -/
def State.putLoaded (s : State) (d : BitVec 8) (ty : Nat) (bs : List Byte) : M State :=
  let (lo, hi) := loadHalves ty bs
  if ty = 12 then s.dstPair d lo hi else s.dst d lo

/-- The bytes a store writes. -/
def storeBytes (ty : Nat) (lo hi : Word) : List Byte :=
  if ty = 12 then leBytes 8 lo.toNat ++ leBytes 8 hi.toNat else leBytes (typeBytes ty) lo.toNat

/-- The address of a memory form: A + B (R153). -/
def State.memAddr (s : State) (f : Rrr) : M (Word × State) := do
  let lit := litVal f.ty.toNat f.w1
  let (a, s) ← s.src f.a lit
  let (b, s) ← s.src f.b lit
  .ok (a + b, s)

/-! ## LD and ST -/

/-- LD on a prologue core (R351): GLOBAL only, performed at the home; the hint `.shadow` holds as on a cell (R158). -/
def State.prologueLoad (s : State) (node : Nat) (addr : Word) (n : Nat) (shadow : Bool) : M (List Byte × State) :=
  let ctx := s.nodeCtx node
  let va := addrVa addr
  match s.gsdAccess ctx addr n n false shadow with
  | .ok loc => atAddr addr do
    let s ← s.homeTurn loc
    s.eccCheck loc
    .ok (s.homeRead loc n, s.homeTouch loc false)
  | .error c =>
    match c, s.walkCtx ctx va with
    | 0x24, .invalid true => .error (.page ctx (va / 16384) false addr)
    | 0x40, .leaf t =>
      .error (.cause { code := c, addr := addr, tags := some (addrTag addr, s.tagAt (s.locOf t ctx va shadow)) } none)
    | 0xE1, .ue p => .error (.cause { code := c, addr := addr, aux := ueAux p } none)
    | _, _ => raiseAt c addr

/-- LD (R155, R156). -/
def execLd (f : Rrr) (s : State) : Result :=
  runWord f.hdr f.w1.isSome true (fun s => seqM do
    let ty := f.ty.toNat
    let n := typeBytes ty
    let (addr, s) ← s.memAddr f
    match s.cur with
    | .prologue node => do
      let (bs, s) ← s.prologueLoad node addr n (f.fl.getLsbD 1)
      s.putLoaded f.d ty bs
    | .cell key _ => do
      let (p, s) ← s.access key
        { addr := addr, size := n, align := n, shadow := f.fl.getLsbD 1, scope := f.rs.toNat }
      let (bs, s) ← match p with
        | .spad k off => s.spadLoad key k off n addr
        | .line loc => atAddr addr (s.loadLine key (s.ctxPart (s.nodeCtx s.curNode)) loc n f.rs.toNat (f.fl.getLsbD 0))
      s.putLoaded f.d ty bs) s

/-- ST (R155, R157). -/
def execSt (f : Rrr) (s : State) : Result :=
  runWord f.hdr f.w1.isSome false (fun s => seqM do
    let ty := f.ty.toNat
    let n := typeBytes ty
    let key := s.curKey
    let (lo, hi, s) ← s.dataSrc f.d (litVal ty f.w1) (ty == 12)
    let (addr, s) ← s.memAddr f
    let (p, s) ← s.access key
      { addr := addr, size := n, write := true, align := n, shadow := f.fl.getLsbD 1, scope := f.rs.toNat }
    let bs := storeBytes ty lo hi
    match p with
    | .spad k off => s.spadStore key k off bs [] addr
    | .line loc => s.storeLine key (s.ctxPart (s.nodeCtx s.curNode)) loc bs f.rs.toNat (f.fl.getLsbD 0)) s

/-! ## LDS and STS (R160, R161) -/

/-- The executing engine's qualified access stands at a bank, in order of arrival, with the shard there noted. -/
def State.holdAt (s : State) (key k g : Nat) (full : Bool) : State :=
  let c := s.cell k
  let h : Held := ⟨key, s.curEng, g, full⟩
  (if c.bankHeld.contains h then s else s.setCell k { c with bankHeld := c.bankHeld ++ [h] }).modEng
    fun x => { x with waitVal := some (BitVec.ofNat 64 c.serial) }

/-- A qualified access is next at its bank: the bit is as it needs, and no earlier request for the granule that
waits for the same state stands before it. -/
def Cell.bankTurn (c : Cell) (key : Nat) (e : EngTag) (g : Nat) (full : Bool) : Bool :=
  (FMap.get c.fe g false == full) &&
    (match c.bankHeld.find? fun h => h.granule == g && h.full == full with
      | some h => h.cell == key && h.eng == e
      | none => true)

/-- The request leaves its bank. -/
def State.unhold (s : State) (key k : Nat) : State :=
  let c := s.cell k
  s.setCell k { c with bankHeld := c.bankHeld.filter fun (h : Held) => !(h.cell == key && h.eng == s.curEng) }

/-- LDS (R160, R161). A held request keeps its operands: A pops and pushes nothing while it waits. -/
def execLds (f : Rrr) (s : State) : Result :=
  runWord f.hdr f.w1.isSome false (fun s0 => seqM do
    let ty := f.ty.toNat
    let n := typeBytes ty
    let key := s0.curKey
    let (addr, s) ← s0.memAddr f
    let (p, s) ← s.access key { addr := addr, size := n, align := n, spadOnly := true }
    match p with
    | .line _ => raiseAt 0x23 addr
    | .spad k off => do
      let g := off / 16
      let (bs, s) ← s.spadLoad key k off n addr
      if f.fl.getLsbD 0 && !(s.cell k).bankTurn key .a g true then
        .error (.wait (s0.holdAt key k g true) (if k = key then 9 else 12))
      else do
        let s := if f.fl.getLsbD 0 then s.unhold key k else s
        let c := s.cell k
        let s := if f.fl.getLsbD 1 then s.setCell k { c with fe := FMap.erase c.fe g } else s
        s.putLoaded f.d ty bs) s

/-- STS (R160, R161). -/
def execSts (f : Rrr) (s : State) : Result :=
  runWord f.hdr f.w1.isSome false (fun s0 => seqM do
    let ty := f.ty.toNat
    let n := typeBytes ty
    let key := s0.curKey
    let (lo, hi, s) ← s0.dataSrc f.d (litVal ty f.w1) (ty == 12)
    let (addr, s) ← s.memAddr f
    let (p, s) ← s.access key { addr := addr, size := n, write := true, align := n, spadOnly := true }
    match p with
    | .line _ => raiseAt 0x23 addr
    | .spad k off => do
      let g := off / 16
      let bs := storeBytes ty lo hi
      let fill := if f.fl.getLsbD 0 then [g] else []
      if f.fl.getLsbD 1 then do
        s.bankReady key k addr
        let s ← s.flushPeer key k
        if !(s.cell k).bankTurn key .a g false then
          .error (.wait (s0.holdAt key k g false) (if k = key then 9 else 12))
        else do
          let s := s.unhold key k
          if k = key then s.spadStore key k off bs fill addr
          else .ok (s.setCell k ((s.cell k).spadPut (writesOf off bs) fill))
      else s.spadStore key k off bs fill addr) s

end Sys2Proof.Machine
end

