-- ==== Sys2Proof/Machine/Atomics.lean ====
section
/-! DEFINITION. Atomics and the ordering words (R169 to R179). -/

namespace Sys2Proof.Machine

/-- The partition of the executing core. -/
def State.curPart (s : State) : Nat := s.ctxPart (s.nodeCtx s.curNode)

/-- Operations beyond those a log holds (R169): 6 EXCH, 7 CAS, 8 INCW, 9 DECW, 10 FADDB. -/
structure AtomOp where
  op : Nat
  ty : Nat
  v : Nat
  v2 : Nat
  deriving DecidableEq, Repr

/-- What an atomic writes, if it writes, and the flag FADDB returns (R170). -/
def AtomOp.new (a : AtomOp) (old : Nat) : Option Nat × Bool :=
  let w := typeBits a.ty
  if a.op ≤ 5 then (some (combine a.op a.ty old a.v), true)
  else match a.op with
    | 6 => (some a.v, true)
    | 7 => (if old = a.v then some a.v2 else none, true)
    | 8 => (some (if a.v ≤ old then 0 else old + 1), true)
    | 9 => (some (if old = 0 ∨ a.v < old then a.v else old - 1), true)
    | _ => if old + a.v < 2 ^ w ∧ old + a.v ≤ a.v2 then (some (old + a.v), true) else (none, false)

/-- The identity of an element of the executing word (R299). -/
def State.identOf (s : State) (elem : Nat) : Ident :=
  let c := s.core
  { node := c.node, flatC := c.flatC, flatD := c.flatD, rinst := c.rinst, eng := s.curEng,
    ordinal := (c.eng s.curEng).ordinal, elem := elem }

/-- An atomic on a line of TARN or GLOBAL, performed at the level its scope selects (R171, R173, R310): the old
value, and the state. The cell's own dirty bytes of the line are written back first. -/
def State.lineAtomic (s : State) (key part loc scope : Nat) (a : AtomOp) (who : Ident) : M (Nat × State) := do
  let n := typeBytes a.ty
  let chip := keyChip key
  let cell := keyCell key
  let line := lineOf loc
  let lvl := levelOf loc scope
  if lvl = 0 then
    let (bs, s) ← s.loadLine key part loc n 0 false
    let old := leNat bs
    match (a.new old).1 with
    | some x => .ok (old, ← s.storeLine key part loc (leBytes n x) 0 false)
    | none => .ok (old, s)
  else
    let s ← s.l1Evict key part line true
    if lvl = 1 && s.usesRdc chip part loc then
      let (bs, s) ← s.dieRead chip cell part loc n 1 true
      let old := leNat bs
      match (a.new old).1 with
      | some x => .ok (old, ← s.dieWrite chip cell part loc (writesOf loc (leBytes n x)) true)
      | none => .ok (old, s)
    else
      let s ← s.flushLine chip cell line
      s.lost chip cell loc
      let (loc, s) := s.viewOf key part scope loc
      let home := s.homeChip part loc
      let (old, s) ← s.sendAtomic chip home fun s =>
        if 2 ≤ scope && a.op ≤ 5 then s.homeCombine loc a.op a.ty a.v who
        else s.homeRmw loc n fun old => (a.new old).1
      .ok (old, s.refresh chip (writesOf loc (s.homeRead loc n)))

/-- An atomic on scratchpad bytes (R171). -/
def State.spadAtomic (s : State) (key k off : Nat) (a : AtomOp) (addr : Word) : M (Nat × State) := do
  let n := typeBytes a.ty
  s.bankReady key k addr
  s.spadReady key k off n
  let s ← s.flushPeer key k
  let c := s.cell k
  let old := leNat (c.spadRead off n)
  match (a.new old).1 with
  | some x => .ok (old, s.setCell k (c.spadPut (writesOf off (leBytes n x)) []))
  | none => .ok (old, s)

/-- An atomic of A (R169 to R174). `pair` names a second operand register. -/
def atomic (op : Nat) (pair : Bool) (f : Rrr) (s : State) : Result :=
  runWord f.hdr f.w1.isSome false (fun s => seqM do
    let ty := f.ty.toNat
    let n := typeBytes ty
    let key := s.curKey
    let part := s.curPart
    let v ← s.readReg f.d.toNat
    let v2 ← if pair then s.readReg (f.d.toNat + 1) else .ok 0
    let (addr, s) ← s.memAddr f
    let (p, s) ← s.access key { addr := addr, size := n, write := true, atomic := true, atomScope := f.rs.toNat,
                                align := n, scope := f.rs.toNat }
    let a : AtomOp := ⟨op, ty, v.toNat % 2 ^ (8 * n), v2.toNat % 2 ^ (8 * n)⟩
    let s ← if f.fl.getLsbD 1 then s.release key part f.rs.toNat else .ok s
    let (old, s) ← match p with
      | .spad k off => s.spadAtomic key k off a addr
      | .line loc => atAddr addr (s.lineAtomic key part loc f.rs.toNat a (s.identOf 0))
    let s := if f.fl.getLsbD 0 then s.acquire key part f.rs.toNat else s
    let s ← s.writeReg f.d.toNat (loadWord (if isFloatType ty then (if ty = 8 then 1 else 3) else ty) (leBytes n old))
    if op = 10 then s.writeReg (f.d.toNat + 1) (if (a.new old).2 then 1 else 0) else .ok s) s

/-- ATOM ADD (R169). -/
def execAtomAdd (f : Rrr) (s : State) : Result := atomic 0 false f s
/-- ATOM AND (R169). -/
def execAtomAnd (f : Rrr) (s : State) : Result := atomic 1 false f s
/-- ATOM OR (R169). -/
def execAtomOr (f : Rrr) (s : State) : Result := atomic 2 false f s
/-- ATOM XOR (R169). -/
def execAtomXor (f : Rrr) (s : State) : Result := atomic 3 false f s
/-- ATOM MIN (R169). -/
def execAtomMin (f : Rrr) (s : State) : Result := atomic 4 false f s
/-- ATOM MAX (R169). -/
def execAtomMax (f : Rrr) (s : State) : Result := atomic 5 false f s
/-- ATOM EXCH (R169). -/
def execAtomExch (f : Rrr) (s : State) : Result := atomic 6 false f s
/-- ATOM CAS (R169). -/
def execAtomCas (f : Rrr) (s : State) : Result := atomic 7 true f s
/-- ATOM INCW (R169). -/
def execAtomIncw (f : Rrr) (s : State) : Result := atomic 8 false f s
/-- ATOM DECW (R169). -/
def execAtomDecw (f : Rrr) (s : State) : Result := atomic 9 false f s
/-- ATOM FADDB (R169). -/
def execAtomFaddb (f : Rrr) (s : State) : Result := atomic 10 true f s

/-! ## PHASE, REL, ACQ, BAR (R176, R177) -/

/-- REL (R176). -/
def execRel (f : Rrr) (s : State) : Result :=
  runWord f.hdr f.w1.isSome false (fun s => seqM (s.release s.curKey s.curPart f.rs.toNat)) s

/-- ACQ (R176). -/
def execAcq (f : Rrr) (s : State) : Result :=
  runWord f.hdr f.w1.isSome false (fun s => .ok (s.acquire s.curKey s.curPart f.rs.toNat, .seq)) s

/-- PHASE (R176). -/
def execPhase (f : Rrr) (s : State) : Result :=
  runWord f.hdr f.w1.isSome false (fun s => seqM do
    let s ← s.release s.curKey s.curPart f.rs.toNat
    .ok (s.acquire s.curKey s.curPart f.rs.toNat)) s

/-- The count of BAR words of a kind (R177). -/
def Cell.barCount (c : Cell) (node : Bool) : Nat := if node then c.barNode else c.barDie

/-- The shards of the executing node that take part in a barrier. -/
def State.participants (s : State) (node : Bool) : List (Nat × Cell) :=
  (s.nodeCells s.curNode).filter fun e => node || keyChip e.1 == keyChip s.curKey

/-- BAR (R177): the k-th BAR releases and arrives, waits until every participant has arrived at its k-th or is at
END, and acquires. -/
def barrier (node : Bool) (f : Rrr) (s : State) : Result :=
  runWord f.hdr f.w1.isSome false (fun s => do
    let key := s.curKey
    let rs := f.rs.toNat
    let (k, s) ← match (s.core.eng s.curEng).waitVal with
      | some k => (.ok (k.toNat, s) : M (Nat × State))
      | none => do
        let s ← s.release key s.curPart rs
        let c := s.core
        let k := c.barCount node + 1
        let s := s.setCore (if node then { c with barNode := k } else { c with barDie := k })
        .ok (k, s.modEng fun g => { g with waitVal := some (BitVec.ofNat 64 k) })
    if (s.participants node).all fun e => e.2.engA.done || decide (k ≤ e.2.barCount node) then
      .ok (s.acquire key s.curPart rs, .seq)
    else .error (.wait s 12)) s

/-- BAR .die (R177). -/
def execBarDie (f : Rrr) (s : State) : Result := barrier false f s
/-- BAR .node (R177). -/
def execBarNode (f : Rrr) (s : State) : Result := barrier true f s

end Sys2Proof.Machine
end

