-- ==== Sys2Proof/Machine/Caps.lean ====
section
/-! DEFINITION. The capability words and PUBLISH (R180, R196 to R201, R300). -/

namespace Sys2Proof.Machine

/-- A cause that names a slot (R413). -/
def raiseSlot {α : Type} (code : BitVec 8) (n : Nat) : M α :=
  .error (.cause { code := code, aux := BitVec.ofNat 64 n } none)

/-- A capability slot of the executing node; an empty one reads as 0. -/
def State.slot (s : State) (n : Nat) : Cap :=
  match s.node? s.curNode with | some d => FMap.get d.caps n 0 | none => 0

/-- A capability slot written. -/
def State.setSlot (s : State) (node n : Nat) (c : Cap) : State :=
  s.modNode node fun (d : Node) => { d with caps := FMap.set d.caps n c 0 }

/-- The checks of a capability word on its slot (R196). -/
def State.checkSlot (s : State) (n : Nat) (rights : BitVec 4) : M Cap :=
  let c := s.slot n
  if c = 0 then raiseSlot 0x43 n
  else match s.capCheck (s.nodeCtx s.curNode) c rights with
    | some code => raiseSlot code n
    | none => .ok c

/-- The identities of the executing shard's region instance (R300). -/
def State.myKept (s : State) : List KeptCap :=
  let c := s.core
  s.keptCaps.filter fun k => k.id.inInstance c.node c.flatC c.flatD c.rinst

/-- The executing word has been performed before in its region instance. -/
def State.repeated (s : State) : Bool := s.myKept.any fun k => k.id == s.identOf 0

/-- The executing word's identity kept, while fewer than 256 are. -/
def State.keep (s : State) (n : Nat) (c : Cap) (emptied dropped : Bool) : State :=
  if s.myKept.length < 256 then { s with keptCaps := ⟨s.identOf 0, n, c, emptied, dropped⟩ :: s.keptCaps } else s

/-- The address of a capability's buffer (R197). -/
def State.capAddr (s : State) (c : Cap) : Word :=
  match s.buf? (capId c) with
  | some b => BitVec.ofNat 64 ((capTag c).toNat * 2 ^ 60 + b.va)
  | none => 0

/-- CAPOPEN (R197, R300). -/
def execCapopen (f : Rrr) (s : State) : Result :=
  runWord f.hdr f.w1.isSome false (fun s => seqM do
    let n := f.rs.toNat
    let c ← match s.slot n, s.myKept.find? (fun k => k.slot == n && k.emptied) with
      | 0, some k =>
        (match s.capCheck (s.nodeCtx s.curNode) k.cap f.fl with
          | some code => raiseSlot code n
          | none => .ok k.cap : M Cap)
      | _, _ => s.checkSlot n f.fl
    s.dst f.d (s.capAddr c)) s

/-- CAPGIVE (R198). -/
def execCapgive (f : Rrr) (s : State) : Result :=
  runWord f.hdr f.w1.isSome false (fun s => seqM do
    let n := f.rs.toNat
    let m := f.fl.toNat
    let (a, s) ← s.src f.a (litVal 0 f.w1)
    if s.repeated then .ok s
    else do
      let c ← s.checkSlot n 2
      match (s.node? s.curNode).bind (fun d => d.succs[a.toNat]?) with
      | none => raiseSlot 0x45 n
      | some x =>
        let taken := match s.node? x.succ with
          | some d => FMap.get d.caps m 0 != 0 || FMap.get d.capsIn m 0 != 0 || d.reserved.contains m
          | none => true
        if taken then raiseSlot 0x45 n
        else
          let s := s.modNode x.succ fun (d : Node) => { d with capsIn := FMap.set d.capsIn m c 0 }
          .ok ((s.setSlot s.curNode n 0).keep n c true false)) s

/-- CAPDUP (R199). -/
def execCapdup (f : Rrr) (s : State) : Result :=
  runWord f.hdr f.w1.isSome false (fun s => seqM do
    let n := f.rs.toNat
    let m := f.fl.toNat
    let (a, s) ← s.src f.a (litVal 0 f.w1)
    if s.repeated then .ok s
    else do
      let c ← s.checkSlot n 0
      if s.slot m ≠ 0 then raiseSlot 0x45 n
      else if s.refsFull (capId c) then raiseSlot 0x44 n
      else .ok (((s.setSlot s.curNode m (capStrip c (a.setWidth 4))).addRef (capId c)).keep n c false false)) s

/-- CAPDROP (R200, R300): the free that the last reference causes waits until the region instance ends. -/
def execCapdrop (f : Rrr) (s : State) : Result :=
  runWord f.hdr f.w1.isSome false (fun s => seqM do
    let n := f.rs.toNat
    if s.repeated then .ok s
    else do
      let c ← s.checkSlot n 0
      let s := s.setSlot s.curNode n 0
      let last := match s.buf? (capId c) with | some b => decide (b.refs ≤ 1) | none => false
      if last then
        let t := s.modBuf (capId c) fun (b : Buffer) => { b with refs := 0 }
        .ok (if s.myKept.length < 256 then t.keep n c true true
          else { t with heldFrees := (t.identOf 0, capId c) :: t.heldFrees })
      else .ok ((s.dropRef (capId c)).keep n c true false)) s

/-- PUBLISH (R180, R300). -/
def execPublish (f : Rrr) (s : State) : Result :=
  runWord f.hdr f.w1.isSome false (fun s => seqM do
    let n := f.rs.toNat
    let key := s.curKey
    if s.repeated then do
      let s ← s.release key s.curPart 5
      match s.myKept.find? (fun k => k.id == s.identOf 0) with
      | some k =>
        match s.buf? (capId k.cap) with
        | some b => .ok (s.tlbInv allChips b.ctx b.va b.len)
        | none => .ok s
      | none => .ok s
    else do
      let c ← s.checkSlot n 1
      match s.buf? (capId c) with
      | some b =>
        if !b.double then raiseSlot 0x41 n
        else do
          let s ← s.release key s.curPart 5
          .ok (((s.publishBuffer (capId c)).noteExchange (capId c) (keyChip key) (some key)).keep n c false false)
      | none => raiseSlot 0x42 n) s

end Sys2Proof.Machine
end

