-- ==== Sys2Proof/Machine/Rings.lean ====
section
/-! DEFINITION. Scratchpad rings (R164 to R168). -/

namespace Sys2Proof.Machine

/-- A ring descriptor of a cell. -/
def Cell.ring (c : Cell) (n : Nat) : Ring := FMap.get c.rings n Ring.zero
/-- A descriptor replaced. -/
def Cell.setRing (c : Cell) (n : Nat) (r : Ring) : Cell := { c with rings := FMap.set c.rings n r Ring.zero }

/-- Free slots (R164). -/
def Ring.free (r : Ring) : Nat := r.cnt - r.taken - r.filled - r.claimed
/-- The generic address of a slot. -/
def Ring.slotAddr (r : Ring) (i : Nat) : Word := BitVec.ofNat 64 (r.base + i * r.size)
/-- The address of the barrier granule. -/
def Ring.barrier (r : Ring) : Word := BitVec.ofNat 64 (r.base + r.cnt * r.size)

/-- The scratchpad offset of a LOCAL-window address of the executing context. -/
def State.localOff (s : State) (a : Word) : Nat :=
  match windowOf s.curApers (addrVa a) with | some (0, off) => off | _ => 0

/-- Commits of a ring issued and not applied (R167). -/
def Cell.pendingCommits (c : Cell) (n : Nat) : Nat := (c.jobs.filter fun j => j.cmt == some n).length

/-- The write of a ring granule as a watchpoint sees it (R418). -/
def State.watchRing (s : State) (key : Nat) (addr : Word) (n : Nat) : M State :=
  s.watchAt key { addr := addr, size := n, write := true } 0

/-- A commit (R166, R167): the oldest claimed slot becomes filled, and the barrier granule counts it. -/
def State.commitRing (s : State) (key n off : Nat) : State :=
  let c := s.cell key
  let r := c.ring n
  let count := leNat (Memory.readN c.spad off 8) + 1
  s.setCell key ((c.setRing n { r with claimed := r.claimed - 1, filled := r.filled + 1 }).spadPut
    (writesOf off (leBytes 8 count)) [off / 16])

/-- A configured ring of the executing cell, or 0x26. -/
def State.ringOf (s : State) (n : Nat) : M Ring :=
  let r := s.core.ring n
  if r.cnt = 0 then raise 0x26 else .ok r

/-- The granule bits of a byte range cleared. -/
def Cell.feClear (c : Cell) (off n : Nat) : Cell :=
  { c with fe := (granules off n).foldl (fun (m : FMap Bool) g => FMap.erase m g) c.fe }

/-- RCLAIM .cfg (R165). DESIGN CHOICE: non-zero other bits of B, and bits [59:57] of A, raise 0x26 like a field outside its
range (log entry 149). -/
def execRclaimCfg (f : Rrr) (s : State) : Result :=
  runWord f.hdr f.w1.isSome false (fun s => seqM do
    let key := s.curKey
    let n := f.rs.toNat
    let lit := litVal 0 f.w1
    let (a, s) ← s.src f.a lit
    let (b, s) ← s.src f.b lit
    let c := s.core
    let old := c.ring n
    let cnt := natBits b.toNat 0 16
    let units := natBits b.toNat 32 16
    let foot := cnt * (16 * units) + 32
    match windowOf s.curApers (addrVa a) with
    | some (0, off) =>
      if !canonical a || a.toNat % 16 != 0 || natBits b.toNat 16 16 != 0 || natBits b.toNat 48 16 != 0
          || cnt == 0 || decide (4096 < cnt) || units == 0 || decide (spadBytes < off + foot)
          || old.taken != 0 || old.filled != 0 || old.claimed != 0 || c.pendingCommits n != 0 then raiseAt 0x26 a
      else do
        let r : Ring := { base := a.toNat, size := 16 * units, cnt := cnt, head := 0, tail := 0, taken := 0,
                          filled := 0, claimed := 0 }
        let at_ := off + cnt * (16 * units)
        s.spadReady key key at_ 32
        let s ← s.watchRing key (r.barrier) 32
        let c := s.cell key
        .ok (s.setCell key (((c.setRing n r).spadPut (writesOf at_ (List.replicate 32 0)) []).feClear at_ 32))
    | _ => raiseAt 0x26 a) s

/-- RCLAIM (R166). -/
def execRclaim (f : Rrr) (s : State) : Result :=
  runWord f.hdr f.w1.isSome false (fun s => seqM do
    let n := f.rs.toNat
    let r ← s.ringOf n
    if r.free = 0 then s.dst f.d (BitVec.allOnes 64)
    else
      (s.setCore (s.core.setRing n { r with tail := (r.tail + 1) % r.cnt, claimed := r.claimed + 1 })).dst f.d
        (r.slotAddr r.tail)) s

/-- RCOMMIT (R166, R167). -/
def execRcommit (f : Rrr) (s : State) : Result :=
  runWord f.hdr f.w1.isSome false (fun s => seqM do
    let n := f.rs.toNat
    let r ← s.ringOf n
    if s.core.pendingCommits n ≠ 0 then blocked 12
    else if r.claimed = 0 then raise 0x26
    else do
      let off := s.localOff r.barrier
      s.spadReady s.curKey s.curKey off 8
      let s ← s.watchRing s.curKey r.barrier 8
      .ok (s.commitRing s.curKey n off)) s

/-- RTAKE (R166). -/
def execRtake (f : Rrr) (s : State) : Result :=
  runWord f.hdr f.w1.isSome false (fun s => seqM do
    let n := f.rs.toNat
    let r ← s.ringOf n
    if r.filled = 0 then s.dst f.d (BitVec.allOnes 64)
    else
      (s.setCore (s.core.setRing n { r with taken := r.taken + 1, filled := r.filled - 1 })).dst f.d
        (r.slotAddr ((r.head + r.taken) % r.cnt))) s

/-- RDONE (R166). -/
def execRdone (f : Rrr) (s : State) : Result :=
  runWord f.hdr f.w1.isSome false (fun s => seqM do
    let n := f.rs.toNat
    let r ← s.ringOf n
    if r.taken = 0 then raise 0x26
    else
      let c := s.core.setRing n { r with head := (r.head + 1) % r.cnt, taken := r.taken - 1 }
      .ok (s.setCore (c.feClear (s.localOff (r.slotAddr r.head)) r.size))) s

/-- WAITFILL and WAITFREE: wait until a count of slots is at least A. -/
def ringWait (f : Rrr) (have_ : Ring → Nat) (s : State) : Result :=
  runWord f.hdr f.w1.isSome false (fun s => do
    let r ← s.ringOf f.rs.toNat
    let (a, s) ← s.heldOperand f.a (litVal 0 f.w1)
    if r.cnt < a.toNat then raise 0x26
    else if a.toNat ≤ have_ r then .ok (s, .seq) else .error (.wait s 9)) s

/-- WAITFILL (R166). -/
def execWaitfill (f : Rrr) (s : State) : Result := ringWait f (fun r => r.filled) s
/-- WAITFREE (R166). -/
def execWaitfree (f : Rrr) (s : State) : Result := ringWait f Ring.free s

end Sys2Proof.Machine
end

