-- ==== Sys2Proof/Machine/AsyncOps.lean ====
section
/-! DEFINITION. What asynchronous commands share (R181 to R187): acceptance, tile records, locks, element reads and
writes, and how a command's elements are laid out. -/

namespace Sys2Proof.Machine

/-! ## Jobs -/

/-- A job of a cell. -/
def Cell.job? (c : Cell) (id : Nat) : Option Job := c.jobs.find? fun j => j.id == id
/-- A job changed. -/
def Cell.modJob (c : Cell) (id : Nat) (f : Job → Job) : Cell :=
  { c with jobs := c.jobs.map fun j => if j.id = id then f j else j }
/-- A job of a cell of the package changed. -/
def State.modJob (s : State) (key id : Nat) (f : Job → Job) : State := s.setCell key ((s.cell key).modJob id f)

/-- How a job's elements are performed (R184): a preparation, if one is due; a check made at element 0; the number
of elements; the next step of an element, given what of it is performed, with what is performed after it, or none when
the element is done; what follows the last one. -/
structure Plan where
  prep : Option (State → M State) := none
  check : Option Raise := none
  count : Nat
  elem : Nat → List Nat → State → M (State × Option (List Nat))
  finish : State → M State := fun s => .ok s

/-- An element performed in one step. -/
def wholeElem (f : Nat → State → M State) (k : Nat) (_ : List Nat) (s : State) : M (State × Option (List Nat)) :=
  (f k s).map fun t => (t, none)

/-- EXT32 of a word. -/
def extOf (w1 : Option W1) : Nat := match w1 with | some w => w.ext.toNat | none => 0

/-- A job as a word issues it. -/
def State.newJob (s : State) (h : Hdr) (i : Instr) : Job :=
  let c := s.core
  let g := c.eng s.curEng
  { id := c.nextJob, ins := i, eng := s.curEng, pc := g.pc, pos := g.pos, ordinal := g.ordinal, vd := 0, va := 0,
    vb := 0, nest := Nest.zero, aux := [], timetable := [], pad := 0, trecs := [], early := none, locks := [],
    sig := (match h.sig with | some x => if x.done then some ⟨x.eng, x.cnt⟩ else none | none => none)
    cmt := none, slot := 0, next := 0, finished := false, sent := false, accTick := s.tick
    oldView := c.oldView, wps := c.watch, part := [], hit := 0, bank := none, late := none, started := false, reads := [] }

/-- A job accepted (R182). -/
def State.accept (s : State) (j : Job) : State :=
  let c := s.core
  -- R357: it ends polling
  s.setCore { c with jobs := c.jobs ++ [j], nextJob := c.nextJob + 1, pollSince := s.tick }

/-- Jobs of an engine that are accepted and not complete. -/
def Cell.jobsOf (c : Cell) (e : EngTag) : List Job := c.jobs.filter fun j => j.eng == e

/-- A command queue of `n` commands has room for one more. -/
def State.queueRoom (s : State) (n : Nat) : M Unit :=
  if n ≤ (s.core.jobsOf s.curEng).length then blocked 12 else .ok ()

/-! ## Locks (R185) -/

/-- The scratchpad offset of an address that reaches the cell's own scratchpad. -/
def State.ownOff (s : State) (key : Nat) (a : Word) : Option Nat :=
  match windowOf (s.apers (s.nodeCtx (s.cell key).node)) (addrVa a) with
  | some (0, off) => some off
  | some (1, off) => if off / spadBytes = keyCell key then some (off % spadBytes) else none
  | _ => none

/-- The VAs that reach the cell's own scratchpad, through LOCAL or DIE: first VA, end, and the offset there. -/
def State.ownSpans (s : State) (key : Nat) : List (Nat × Nat × Nat) :=
  (windowSpans (s.apers (s.nodeCtx (s.cell key).node)) 10 0 (2 ^ 57)).filterMap fun x =>
    match x.2.2 with
    | some (0, off) => if off < spadBytes then some (x.1, x.1 + min x.2.1 (spadBytes - off), off) else none
    | some (1, off) =>
      let base := keyCell key * spadBytes
      let lo := max off base
      let hi := min (off + x.2.1) (base + spadBytes)
      if lo < hi then some (x.1 + (lo - off), x.1 + (hi - off), lo - base) else none
    | _ => none

/-- The part of a range of VAs that lies in a span: offset and length. -/
def spanPart (e : Nat × Nat × Nat) (va len : Nat) : Option (Nat × Nat) :=
  let lo := max e.1 va
  let hi := min e.2.1 (va + len)
  if lo < hi then some (e.2.2 + (lo - e.1), hi - lo) else none

/-- The parts of a range of bytes from an address on that lie in the cell's own scratchpad. -/
def State.ownRange (s : State) (key : Nat) (a : Word) (len : Nat) : List (Nat × Nat) :=
  (s.ownSpans key).filterMap fun e => spanPart e (addrVa a) len

/-- The ranges of the own scratchpad that rows of `len` bytes, `pitch` apart, take from an address on. Rows with no
whole granule between them are one range. -/
def State.lockRows (s : State) (key : Nat) (a : Word) (pitch len count : Nat) : List (Nat × Nat) :=
  if len = 0 ∨ count = 0 then []
  else if pitch < len + 16 then s.ownRange key a ((count - 1) * pitch + len)
  else
    let va := addrVa a
    (s.ownSpans key).flatMap fun e =>
      -- the rows that meet the span
      let first := if e.1 < va + len then 0 else (e.1 - len - va) / pitch + 1
      let last := if va < e.2.1 then min count ((e.2.1 - 1 - va) / pitch + 1) else 0
      (List.range (last - first)).filterMap fun d => spanPart e (va + (first + d) * pitch) len

/-- A byte range touches a granule that an earlier job of the cell has locked. -/
def Cell.lockedBefore (c : Cell) (id off n : Nat) : Bool :=
  Cell.locked { c with jobs := c.jobs.filter fun j => decide (j.id < id) } off n

/-! ## Tile records (R186, R187) -/

/-- The tile-record cache with an entry used last: at most 256 stay. -/
def cachePut (m : List (Nat × Nat × TileRec)) (e : Nat × Nat × TileRec) : List (Nat × Nat × TileRec) :=
  (e :: m.filter fun x => !(x.1 == e.1 && x.2.1 == e.2.1)).take 256

/-- The shape fields of a record, from offset 0x08 on (R186). -/
def shapeOf (bs : List Byte) : TileRec :=
  let n := fun (off k : Nat) => leNat ((bs.drop (off - 8)).take k)
  { base := 0, rows := n 0x08 4, rbytes := n 0x0C 4, pitch := toSigned 64 (n 0x10 8), planes := max 1 (n 0x18 4)
    ppitch := toSigned 64 (n 0x20 8)
    ok := n 0x1C 4 == 1 && decide (n 0x0C 4 ≤ 2 ^ 24) && n 0x28 24 == 0 }

/-- A read of a record's bytes by the cell at a scope. -/
def State.recordBytes (s : State) (key : Nat) (addr : Word) (n scope : Nat) : M (List Byte × State) := do
  let part := s.ctxPart (s.nodeCtx (s.cell key).node)
  let (p, s) ← s.access key { addr := addr, size := n, scope := scope, element := some 0 }
  match p with
  | .line loc => atAddr addr (s.loadLine key part loc n scope false)
  | .spad k off => .ok ((s.cell k).spadRead off n, s)

/-- The shape of a record, from the die's cache or read into it. -/
def State.recordShape (s : State) (key obj h : Nat) (addr : Word) : M (TileRec × State) :=
  let chip := keyChip key
  match (s.die chip).tileCache.find? fun e => e.1 == obj && e.2.1 == h with
  | some e =>
    let d := s.die chip
    .ok (e.2.2, s.setDie chip { d with tileCache := cachePut d.tileCache e })
  | none => do
    let (bs, s) ← s.recordBytes key (addr + 8) 56 1
    let r := shapeOf bs
    let d := s.die chip
    .ok (r, s.setDie chip { d with tileCache := cachePut d.tileCache (obj, h, r) })

/-- A tile record as a command reads it: its cached shape and its BASE, or the cause that the command meets at
element 0. -/
def State.tileRecord (s : State) (key h : Nat) : M (Except Raise TileRec × State) :=
  let bad : Raise := { code := 0xA0, aux := BitVec.ofNat 64 h }
  match s.node? (s.cell key).node with
  | none => .ok (.error bad, s)
  | some d =>
    match FMap.find? s.objects d.kobj with
    | none => .ok (.error bad, s)
    | some o =>
      match s.buf? o.tileBuf with
      | none => .ok (.error bad, s)
      | some b =>
        if o.tileCount ≤ h then .ok (.error bad, s)
        else
          let addr := BitVec.ofNat 64 (b.tag.toNat * 2 ^ 60 + b.va + 64 * h)
          let read : M (TileRec × State) := do
            let (r, s) ← s.recordShape key d.kobj h addr
            let (bs, s) ← s.recordBytes key addr 8 0
            .ok ({ r with base := BitVec.ofNat 64 (leNat bs) }, s)
          match read with
          | .ok (r, s) => .ok (if r.ok then .ok r else .error bad, s)
          | .error (.cause r _) => .ok (.error r, s)
          | .error e => .error e

/-! ## Element reads and writes (R154, R185, R310) -/

/-- The cell's scratchpad bytes may be touched by a job now: no clear runs there, the shard at whose bank the element
stood is still there (R469), and no earlier command of the cell has locked them. -/
def State.jobSpad (s : State) (key : Nat) (j : Job) (k off n : Nat) (a : Word) : M Unit :=
  let c := s.cell k
  if (match j.bank with | some (b, x) => b == k && x != c.serial | none => false) then raiseAt 0x23 a
  else if c.phase = .clearing then .error (.bank k)
  else if k = key ∧ c.lockedBefore j.id off n then blocked 12
  else .ok ()

/-- The partition of a cell. -/
def State.cellPart (s : State) (key : Nat) : Nat := s.ctxPart (s.nodeCtx (s.cell key).node)

/-- The hint `.na` of a command (R158, R181). -/
def Job.na (j : Job) : Bool :=
  match j.ins with
  | .copy f | .copyThIn f | .copyThOut f | .gather f => f.fl.getLsbD 0
  | _ => false

/-- How a job's write is performed (R310): as asynchronous work at DIE scope, filling granules or not; the same by an
engine that works on its own scratchpad; as the count granule of a ring, which fills too; or as ST at a scope. -/
inductive WriteAs where
  | element
  | plain
  | engine
  | count
  | store (scope : Nat)
  deriving DecidableEq, Repr

/-- An element read as its checks see it; `row` reads go through the row lines of an SPX die (R380, R418). -/
def readAcc (row shadow : Bool) (a : Word) (n : Nat) : Acc :=
  { addr := a, size := n, shadow := shadow, scope := 1, row := row, element := some 0 }

/-- An element write as its checks see it (R418). -/
def writeAcc (as_ : WriteAs) (shadow : Bool) (a : Word) (n : Nat) : Acc :=
  match as_ with
  | .element | .plain => { addr := a, size := n, write := true, shadow := shadow, scope := 1, element := some 1 }
  | .engine => { addr := a, size := n, write := true, shadow := shadow, scope := 1 }
  | .count => { addr := a, size := n, write := true, shadow := shadow, scope := 1, element := some 0 }
  | .store sc => { addr := a, size := n, write := true, shadow := shadow, scope := sc, atomScope := sc, scopeRule := true,
                   element := some sc }

/-- The place of a failing check in the order of R154. -/
def Stop.rank : Stop → Nat
  | .cause r _ =>
    match r.code.toNat with
    | 0x21 => 1 | 0x22 => 2 | 0x23 => 3 | 0x28 => 4 | 0x20 => 5 | 0x24 => 6 | 0x25 => 7 | 0x40 => 8 | _ => 6
  | _ => 6

/-- Checks 1 to 8 of R154 on the granules of an element, one after another: the state, and the check that fails
first. -/
def checkPieces (key : Nat) (q : Acc) : Nat → Word → Nat → State × Option Stop → State × Option Stop
  | 0, _, _, r => r
  | fuel + 1, a, n, (s, e) =>
    if n = 0 then (s, e)
    else
      let k := min n (64 - a.toNat % 64)
      checkPieces key q fuel (a + BitVec.ofNat 64 k) (n - k)
        (match s.access key { q with addr := a, size := k, watch := false } with
          | .ok (_, t) => (t, e)
          | .error x => (s, match e with | some y => if x.rank < y.rank then some x else e | none => some x))

/-- The checks of an element (R154, R184): each of 1 to 8 on all its granules, and check 9 once (R418). -/
def State.elemCheck (s : State) (key : Nat) (q : Acc) : M State :=
  match checkPieces key q (q.size / 64 + 2) q.addr q.size (s, none) with
  | (_, some e) => .error e
  | (s, none) => if q.size = 0 then .ok s else s.watchAt key q (q.element.getD q.scope)

/-- A read within one 64-byte granule, its checks made; `more` where the element has read of the line before. -/
def State.readPiece (s : State) (key : Nat) (j : Job) (row shadow : Bool) (a : Word) (n : Nat) (more : Bool := false) :
    M (List Byte × State) := do
  let (p, s) ← s.access key { readAcc row shadow a n with watch := false }
  match p with
  | .spad k off => do
    s.jobSpad key j k off n a
    let s ← s.flushPeer key k
    let c := s.cell k
    -- R294: a K command's read of its own scratchpad is watched
    .ok (c.spadRead off n,
      if k = key ∧ j.eng = .k then s.setCell key (c.noteRead (chipClass (keyChip key)) j.eng j.pos j.pc off n) else s)
  | .line loc => atAddr a (s.elemRead key (s.cellPart key) loc n row j.na more)

/-- A read of a byte range, granule by granule. -/
def State.readRange (key : Nat) (j : Job) (row shadow : Bool) : Nat → State → Word → Nat → M (List Byte × State)
  | 0, s, _, _ => .ok ([], s)
  | fuel + 1, s, a, n =>
    if n = 0 then .ok ([], s)
    else do
      let k := min n (64 - a.toNat % 64)
      let (bs, s) ← s.readPiece key j row shadow a k
      let (rest, s) ← State.readRange key j row shadow fuel s (a + BitVec.ofNat 64 k) (n - k)
      .ok (bs ++ rest, s)

/-- An element's byte range checked and read by a job. -/
def State.jobRead (s : State) (key : Nat) (j : Job) (row shadow : Bool) (a : Word) (n : Nat) :
    M (List Byte × State) := do
  let s ← s.elemCheck key (readAcc row shadow a n)
  State.readRange key j row shadow (n / 64 + 2) s a n

/-- The place of a job's element, as a message to another cell carries it (R469). -/
def State.jobSender (s : State) (key : Nat) (j : Job) (a : Word) : Sender :=
  { serial := (s.cell key).serial, eng := j.eng, pc := j.pc, pos := j.pos, celem := some j.next, addr := a }

/-- A write within one 64-byte granule, its checks made. -/
def State.writePiece (s : State) (key : Nat) (j : Job) (as_ : WriteAs) (shadow : Bool) (a : Word) (bs : List Byte) :
    M State := do
  let n := bs.length
  let (p, s) ← s.access key { writeAcc as_ shadow a n with watch := false }
  match p with
  | .spad k off =>
    let fill := if as_ = .element ∨ as_ = .engine ∨ as_ = .count then granules off n else []
    s.jobSpad key j k off n a
    if k = key then .ok (s.setCell k ((s.cell k).spadPut (writesOf off bs) fill))
    else s.postPeer key k (writesOf off bs) fill (s.jobSender key j a)
  | .line loc =>
    match as_ with
    | .element | .plain | .engine | .count => s.elemWrite key (s.cellPart key) loc bs j.na
    | .store sc => s.storeLine key (s.cellPart key) loc bs sc false

/-- A write of a byte range, granule by granule. -/
def State.writeRange (key : Nat) (j : Job) (as_ : WriteAs) (shadow : Bool) : Nat → State → Word → List Byte → M State
  | 0, s, _, _ => .ok s
  | fuel + 1, s, a, bs =>
    if bs.isEmpty then .ok s
    else do
      let k := min bs.length (64 - a.toNat % 64)
      let s ← s.writePiece key j as_ shadow a (bs.take k)
      State.writeRange key j as_ shadow fuel s (a + BitVec.ofNat 64 k) (bs.drop k)

/-- An element's byte range checked and written by a job. -/
def State.jobWrite (s : State) (key : Nat) (j : Job) (as_ : WriteAs) (shadow : Bool) (a : Word) (bs : List Byte) :
    M State := do
  let s ← s.elemCheck key (writeAcc as_ shadow a bs.length)
  State.writeRange key j as_ shadow (bs.length / 64 + 2) s a bs

/-- The next bytes of a copy of `n` bytes, `p` of them done: as many as lie in one granule of the source and one
scratchpad granule of the destination. -/
def movePart (src dst : Word) (n p : Nat) : Nat :=
  min (n - p) (min (64 - (src.toNat + p) % 64) (16 - (dst.toNat + p) % 16))

/-- One step of a row that is copied, its checks made when it begins (R184, R185): the state, and how much is done,
or none when all is. -/
def State.moveStep (s : State) (key : Nat) (j : Job) (row shadow : Bool) (as_ : WriteAs) (src dst : Word) (n p : Nat) :
    M (State × Option Nat) := do
  let s ← if p ≠ 0 then .ok s else do
    let s ← s.elemCheck key (readAcc row shadow src n)
    s.elemCheck key (writeAcc as_ shadow dst n)
  if n = 0 then .ok (s, none)
  else do
    let k := movePart src dst n p
    let (bs, s) ← s.readPiece key j row shadow (src + BitVec.ofNat 64 p) k (p != 0 && (src.toNat + p) % 64 != 0)
    let s ← s.writePiece key j as_ shadow (dst + BitVec.ofNat 64 p) bs
    .ok (s, if p + k < n then some (p + k) else none)

/-- Scratchpad bytes of the own cell read by a K, M or W command at an offset, with check 9 and the order watch
(R294, R418). -/
def State.localRead (s : State) (key : Nat) (j : Job) (off n : Nat) (noted : Bool) : M (List Byte × State) := do
  s.jobSpad key j key off n (BitVec.ofNat 64 (s.localVa key off))
  let s ← s.watchAt key { addr := BitVec.ofNat 64 (s.localVa key off), size := n } 0
  let c := s.cell key
  let c := if noted then c.noteRead (chipClass (keyChip key)) j.eng j.pos j.pc off n else c
  .ok (c.spadRead off n, s.setCell key c)

/-- The part that a step of an element turns to, of those left; which is free (R262, R277, R293). -/
def State.pickOf (s : State) (left : List Nat) : Nat × State :=
  let (x, s) := s.draw
  (nthD left (x % left.length) 0, s)

/-- The part of a range that lies in scratchpad granule `g`: first byte and length. -/
def granulePart (r : Nat × Nat) (g : Nat) : Nat × Nat :=
  let lo := max r.1 (16 * g)
  (lo, min (r.1 + r.2) (16 * g + 16) - lo)

/-- The granules of ranges, each numbered with its range, of two at most. -/
def rangeParts (rs : List (Nat × Nat)) : List Nat :=
  rs.zipIdx.flatMap fun e => if e.1.2 = 0 then [] else (granules e.1.1 e.1.2).map fun g => 2 * g + e.2

/-- One more granule of the scratchpad ranges that a K command reads, in free order (R293); none when it has them
all. -/
def State.localGather (s : State) (key : Nat) (j : Job) (rs : List (Nat × Nat)) : Option (M State) :=
  match (rangeParts rs).filter fun g => (FMap.find? j.reads g).isNone with
  | [] => none
  | left => some do
    let (g, s) := s.pickOf left
    let (off, n) := granulePart (nthD rs (g % 2) (0, 0)) (g / 2)
    let (bs, s) ← s.localRead key j off n true
    .ok (s.modJob key j.id fun (x : Job) => { x with reads := FMap.put x.reads g (leNat bs) })

/-- The bytes of a range as they were gathered; `i` is its number. -/
def Job.gathered (j : Job) (r : Nat × Nat) (i : Nat) : List Byte :=
  if r.2 = 0 then []
  else (granules r.1 r.2).flatMap fun g => leBytes (granulePart r g).2 (FMap.get j.reads (2 * g + i) 0)

/-- Scratchpad bytes of the own cell written by a K or W command: every granule written is set full. -/
def State.localWrite (s : State) (key : Nat) (j : Job) (off : Nat) (bs : List Byte) : M State := do
  s.jobSpad key j key off bs.length (BitVec.ofNat 64 (s.localVa key off))
  let s ← s.watchAt key { addr := BitVec.ofNat 64 (s.localVa key off), size := bs.length, write := true } 0
  .ok (s.setCell key ((s.cell key).spadPut (writesOf off bs) (granules off bs.length)))

/-- An atomic that a job performs at a scope (R192, R269), with the identity of its element (R299). -/
def State.jobAtomic (s : State) (key : Nat) (j : Job) (shadow : Bool) (a : Word) (scope op ty v elem : Nat)
    (watch : Bool) : M State := do
  let n := typeBytes ty
  let (p, s) ← s.access key { addr := a, size := n, write := true, atomic := true, atomScope := scope, align := n,
                              shadow := shadow, scope := scope, element := some scope, watch := watch }
  let x : AtomOp := ⟨op, ty, v % 2 ^ (8 * n), 0⟩
  let c := s.cell key
  let who : Ident := { node := c.node, flatC := c.flatC, flatD := c.flatD, rinst := c.rinst, eng := j.eng,
                       ordinal := j.ordinal, elem := elem }
  match p with
  | .spad k off => do
    s.jobSpad key j k off n a
    let s ← s.flushPeer key k
    let c := s.cell k
    match (x.new (leNat (c.spadRead off n))).1 with
    | some y => .ok (s.setCell k (c.spadPut (writesOf off (leBytes n y)) []))
    | none => .ok s
  | .line loc => do
    let (_, s) ← atAddr a (s.lineAtomic key (s.cellPart key) loc scope x who)
    .ok s

/-- A cause with no more than a code, as a job meets it. -/
def cause (code : BitVec 8) : Raise := { code := code }
/-- A cause of a command that carries a tile handle (R413). -/
def tileCause (code : BitVec 8) (h : Nat) : Raise := { code := code, aux := BitVec.ofNat 64 h }
/-- An element that meets a cause. -/
def failWith {α : Type} (r : Raise) : M α := .error (.cause r none)

end Sys2Proof.Machine
end

