-- ==== Sys2Proof/Machine/Async.lean ====
section
/-! DEFINITION. The asynchronous commands of A (R181, R188 to R194): what each takes at issue, and its elements. -/

namespace Sys2Proof.Machine

/-! ## Fields of EXT32 (R181) -/

def extCmt (e : Nat) : Option Nat := if e.testBit 31 then some (natBits e 27 4) else none
def extTh (e : Nat) : Nat := e % 65536

/-- An address moved by a signed distance. -/
def addrPlus (a : Word) (z : Int) : Word := a + BitVec.ofInt 64 z

/-- The address of a row of a tile (R189). -/
def TileRec.rowAddr (r : TileRec) (row : Nat) : Word :=
  addrPlus r.base ((row / max 1 r.rows : Nat) * r.ppitch + (row % max 1 r.rows : Nat) * r.pitch)

/-- A tile record taken at issue, or the cause it gives at element 0. -/
def State.takeRecord (s : State) (key : Nat) (j : Job) (h : Nat) : M (Job × State) := do
  let (r, s) ← s.tileRecord key h
  match r with
  | .ok t => .ok ({ j with trecs := j.trecs ++ [t] }, s)
  | .error e =>
    .ok (if j.early.isSome then j else { j with early := some (e.at_ j.eng j.pc j.pos) }, s)

/-- The ring that a command owes a commit, checked (R181), with the address of the slot it will fill. -/
def State.owedSlot (s : State) (ring : Nat) : M Word := do
  let r ← s.ringOf ring
  let pending := s.core.pendingCommits ring
  if r.claimed ≤ pending then raise 0x26
  else .ok (r.slotAddr ((r.head + r.taken + r.filled + pending) % r.cnt))

/-- An AS word of A: its operands, its commit, its record, its locks, and acceptance (R182). -/
def asyncWord (f : Rrr) (i : Instr) (th : Bool) (locks : State → Job → List (Nat × Nat)) (s : State) : Result :=
  runWord f.hdr f.w1.isSome false (fun s => seqM do
    s.queueRoom 64
    let ext := extOf f.w1
    let lit := litVal f.ty.toNat f.w1
    let (d, s) ← s.src f.d lit
    let (a, s) ← s.src f.a lit
    let (b, s) ← s.src f.b lit
    let j := { s.newJob f.hdr i with vd := d, va := a, vb := b }
    let j ← match extCmt ext with
      | some n => do .ok { j with cmt := some n, slot := (← s.owedSlot n).toNat }
      | none => .ok j
    let (j, s) ← if th then s.takeRecord s.curKey j (extTh ext) else (.ok (j, s) : M (Job × State))
    .ok (s.accept { j with locks := locks s j })) s

/-- The record of a job; an invalid one stands for none. -/
def Job.trec (j : Job) : TileRec := j.trecs.headD ⟨0, 0, 0, 0, 1, 0, false⟩

/-- Rows of a tile over all planes. -/
def TileRec.allRows (r : TileRec) : Nat := r.rows * r.planes

/-- The ranges of the own scratchpad that the rows of a plane of a tile take, moved by `b` (R185). -/
def State.planeLocks (s : State) (key : Nat) (r : TileRec) (b : Word) (p : Nat) : List (Nat × Nat) :=
  -- the row at the lowest address stands first
  let low := if r.pitch < 0 then r.rows - 1 else 0
  s.lockRows key (r.rowAddr (p * r.rows + low) + b) r.pitch.natAbs r.rbytes r.rows

/-! ## COPY (R188) -/

/-- What a piece of a range reaches after window decoding: the kind of place, and the first and the end offset. LOCAL and
DIE bytes are numbered through the scratchpads of the die. -/
def spanReach (key : Nat) (x : Nat × Nat × Option (Nat × Nat)) : Nat × Nat × Nat :=
  match x.2.2 with
  | some (0, off) => (0, keyCell key * spadBytes + off, keyCell key * spadBytes + min (off + x.2.1) spadBytes)
  | some (1, off) => (0, off, off + x.2.1)
  | some (2, off) => (2, off, off + x.2.1)
  | _ => (3, x.1, x.1 + x.2.1)

/-- What a range of bytes reaches, piece by piece (R74, R188). -/
def State.reached (s : State) (key : Nat) (a : Word) (n : Nat) : List (Nat × Nat × Nat) :=
  (windowSpans (s.apers (s.nodeCtx (s.cell key).node)) 10 (addrVa a) n).map (spanReach key)

/-- The kind of place that an address reaches: 0 the scratchpads of the die, 2 TARN, 3 GLOBAL or no window. -/
def State.reach (s : State) (key : Nat) (a : Word) : Nat :=
  match windowOf (s.apers (s.nodeCtx (s.cell key).node)) (addrVa a) with
  | some (0, _) | some (1, _) => 0
  | some (2, _) => 2
  | _ => 3

/-- The elements of a COPY. -/
def State.copyPlan (s : State) (key : Nat) (j : Job) (f : Rrr) : Plan :=
  let n := j.vb.toNat
  let overlap := (s.reached key j.va n).any fun x => (s.reached key j.vd n).any fun y =>
    x.1 == y.1 && decide (x.2.1 < y.2.2) && decide (y.2.1 < x.2.2)
  let src := j.va.toNat
  { check := if 2 ^ 32 < n ∨ overlap then some (cause 0xA2) else none
    count := if n = 0 then 0 else (src % 64 + n - 1) / 64 + 1
    elem := wholeElem fun k s => do
      let lo := if k = 0 then 0 else 64 * k - src % 64
      let hi := min n (64 * (k + 1) - src % 64)
      let sh := f.fl.getLsbD 1
      let (bs, s) ← s.jobRead key j false sh (j.va + BitVec.ofNat 64 lo) (hi - lo)
      s.jobWrite key j .element sh (j.vd + BitVec.ofNat 64 lo) bs }

/-- COPY (R188). -/
def execCopy (f : Rrr) (s : State) : Result :=
  asyncWord f (.copy f) false (fun s j => s.lockRows s.curKey j.vd 0 j.vb.toNat 1) s

/-! ## COPY.TH (R189) -/

/-- The scratchpad row pitch of a COPY.TH. -/
def Job.thPitch (j : Job) : Nat := if j.va = 0 then j.trec.rbytes else j.va.toNat

/-- The elements of a COPY.TH. DESIGN CHOICE: a tile of no rows or no bytes copies nothing and raises nothing, a D outside
LOCAL and DIE among them (log entry 151). `More than one row` counts the rows that P, or PITCH, sets apart: all rows in the
scratchpad, those of one plane in the tile (log entry 117). -/
def State.copyThPlan (s : State) (key : Nat) (j : Job) (f : Rrr) (out : Bool) : Plan :=
  let r := j.trec
  let h := extTh (extOf f.w1)
  let p := j.thPitch
  let some_ := decide (r.rows * r.rbytes ≠ 0)
  let many := decide (1 < r.allRows)
  let bad := (many && decide (p < r.rbytes))
    || (out && decide (1 < r.rows) && decide (r.pitch.natAbs < r.rbytes))
    || (out && decide (1 < r.planes) && decide (r.ppitch.natAbs < r.rows * r.pitch.natAbs))
  let place := s.reach key j.vd == 0
  { check := if !some_ then none
      else if !place then some { code := 0x23, addr := j.vd } else if bad then some (tileCause 0xA2 h) else none
    count := if some_ then r.allRows else 0
    elem := fun k part s =>
      let g := r.rowAddr k + j.vb
      let l := j.vd + BitVec.ofNat 64 (k * p)
      let sh := f.fl.getLsbD 1
      let done := part.headD 0
      (if out then s.moveStep key j false sh .plain l g r.rbytes done
        else s.moveStep key j false sh .element g l r.rbytes done).map fun x => (x.1, x.2.map fun p => [p]) }

/-- COPY.TH into the scratchpad (R189). -/
def execCopyThIn (f : Rrr) (s : State) : Result :=
  asyncWord f (.copyThIn f) true (fun s j => s.lockRows s.curKey j.vd j.thPitch j.trec.rbytes j.trec.allRows) s
/-- COPY.TH `.out` (R189). -/
def execCopyThOut (f : Rrr) (s : State) : Result :=
  asyncWord f (.copyThOut f) true (fun s j =>
    (List.range j.trec.planes).flatMap fun p => s.planeLocks s.curKey j.trec j.vb p) s

/-! ## COPYM (R190) -/

/-- A mask bit read. -/
def State.maskBit (s : State) (key : Nat) (j : Job) (k : Nat) : M (Nat × State) := do
  let (bs, s) ← s.jobRead key j false false (j.va + BitVec.ofNat 64 (k / 8)) 1
  .ok (if (bs.headD 0).getLsbD (k % 8) then 1 else 0, s)

/-- The mask bits from a number on, up to the first whose byte fails its checks; a mark 2 ends the list. -/
def State.readMask (key : Nat) (j : Job) : Nat → Nat → State → M (List Nat × State)
  | 0, _, s => .ok ([2], s)
  | n + 1, k, s =>
    match s.maskBit key j k with
    | .ok (b, s) => do
      let (bs, s) ← State.readMask key j n (k + 1) s
      .ok (b :: bs, s)
    | .error (.cause _ _) => .ok ([2], s)
    | .error e => .error e

/-- The elements of a COPYM. -/
def State.copymPlan (s : State) (key : Nat) (j : Job) (f : Rrr) : Plan :=
  let r := j.trec
  let h := extTh (extOf f.w1)
  let known := j.aux.filter fun b => b ≠ 2
  let ring := (s.cell key).ring (natBits (extOf f.w1) 27 4)
  let before := fun (k : Nat) => ((known.take k).filter fun b => b = 1).length
  { prep := if j.aux.isEmpty then some fun s => do
        let (bs, s) ← State.readMask key j (match j.late with | some (k, _) => min k r.allRows | none => r.allRows) 0 s
        .ok (s.modJob key j.id fun (j : Job) => { j with aux := bs })
      else none
    check := if ring.size < before known.length * r.rbytes then some (tileCause 0xA2 h) else none
    count := r.allRows
    elem := fun k part s => do
      let (b, s) ← match known[k]? with
        | some b => (.ok (b, s) : M (Nat × State))
        | none => s.maskBit key j k
      if b = 0 then .ok (s, none)
      else
        (s.moveStep key j false false .element (r.rowAddr k) (BitVec.ofNat 64 (j.slot + before k * r.rbytes)) r.rbytes
          (part.headD 0)).map fun x => (x.1, x.2.map fun p => [p])
    finish := fun s =>
      s.jobWrite key j .count false (ring.barrier + 16) (leBytes 8 (before known.length) ++ List.replicate 8 0) }

/-- COPYM (R190). -/
def execCopym (f : Rrr) (s : State) : Result :=
  asyncWord f (.copym f) true (fun s j =>
    let r := s.core.ring (natBits (extOf f.w1) 27 4)
    s.lockRows s.curKey (BitVec.ofNat 64 j.slot) 0 r.size 1 ++ s.lockRows s.curKey (r.barrier + 16) 0 16 1) s

/-! ## GATHER and SCATTER (R191, R192) -/

/-- Index `k` of a list of indices: an access of its own size, which check 5 finds aligned (log entry 131). The hint
`.shadow` addresses the rows, not the list (log entry 118). -/
def State.indexAt (s : State) (key : Nat) (j : Job) (wide : Bool) (k : Nat) : M (Nat × State) := do
  let n := if wide then 8 else 4
  let a := j.va + BitVec.ofNat 64 (n * k)
  let s ← s.elemCheck key { readAcc false false a n with align := n }
  let (bs, s) ← State.readRange key j false false 2 s a n
  .ok (leNat bs, s)

/-- The index of an element: read when the element begins, kept while it is performed. -/
def indexOf (key : Nat) (j : Job) (wide : Bool) (k : Nat) (part : List Nat) (s : State) : M (Nat × State) :=
  match part with
  | [_, x] => .ok (x, s)
  | _ => s.indexAt key j wide k

/-- The elements of a GATHER. -/
def State.gatherPlan (key : Nat) (j : Job) (f : Rrr) : Plan :=
  let r := j.trec
  let h := extTh (extOf f.w1)
  { check := if 1 < r.planes then some (tileCause 0xA2 h) else none
    count := j.vb.toNat
    elem := fun k part s => do
      let (x, s) ← indexOf key j (f.ty == 1) k part s
      if r.rows ≤ x then failWith (tileCause 0xA1 h)
      else
        (s.moveStep key j true (f.fl.getLsbD 1) .element (addrPlus r.base (x * r.pitch))
          (j.vd + BitVec.ofNat 64 (k * r.rbytes)) r.rbytes (part.headD 0)).map fun y => (y.1, y.2.map fun p => [p, x]) }

/-- GATHER (R191). -/
def execGather (f : Rrr) (s : State) : Result :=
  asyncWord f (.gather f) true (fun s j => s.lockRows s.curKey j.vd 0 (j.vb.toNat * j.trec.rbytes) 1) s

/-- The operation of a combining SCATTER, as R169 numbers them. -/
def scatterOp (fl : BitVec 4) : Nat := match fl.toNat % 4 with | 1 => 0 | 2 => 5 | _ => 4

/-- The checks of a combining element before any of it is performed (R154, R184): its source row, and the place of
each atomic. -/
def State.scatterCheck (s : State) (key : Nat) (j : Job) (f : Rrr) (src dest : Word) : M State := do
  let r := j.trec
  let n := typeBytes f.ty.toNat
  let sh := f.fl.getLsbD 3
  let s ← s.elemCheck key (readAcc false sh src r.rbytes)
  s.elemCheck key { addr := dest, size := r.rbytes, write := true, atomic := true, atomScope := f.rs.toNat, align := n,
                    shadow := sh, scope := f.rs.toNat, element := some f.rs.toNat }

/-- One atomic of a combining element, at a byte of its row (R192). -/
def State.scatterPart (s : State) (key : Nat) (j : Job) (f : Rrr) (src dest : Word) (k p : Nat) : M (State × Option Nat) := do
  let r := j.trec
  let n := typeBytes f.ty.toNat
  let sh := f.fl.getLsbD 3
  let s ← if p = 0 then s.scatterCheck key j f src dest else .ok s
  if r.rbytes = 0 then .ok (s, none)
  else do
    let (bs, s) ← State.readRange key j false sh 2 s (src + BitVec.ofNat 64 p) n
    let s ← s.jobAtomic key j sh (dest + BitVec.ofNat 64 p) f.rs.toNat (scatterOp f.fl) f.ty.toNat (leNat bs)
      (k * (r.rbytes / n) + p / n) false
    .ok (s, if p + n < r.rbytes then some (p + n) else none)

/-- The elements of a SCATTER. -/
def State.scatterPlan (key : Nat) (j : Job) (f : Rrr) : Plan :=
  let r := j.trec
  let h := extTh (extOf f.w1)
  let store := f.fl.toNat % 4 = 0
  let n := typeBytes f.ty.toNat
  { check := if ¬ store ∧ r.rbytes % n ≠ 0 then some (tileCause 0xA2 h) else none
    count := j.vb.toNat
    elem := fun k part s => do
      let (x, s) ← indexOf key j (f.fl.getLsbD 2) k part s
      if r.rows ≤ x then failWith (tileCause 0xA1 h)
      else
        let src := j.vd + BitVec.ofNat 64 (k * r.rbytes)
        let dest := addrPlus r.base (x * r.pitch)
        let done := part.headD 0
        (if store then s.moveStep key j false (f.fl.getLsbD 3) (.store f.rs.toNat) src dest r.rbytes done
          else s.scatterPart key j f src dest k done).map fun y => (y.1, y.2.map fun p => [p, x]) }

/-- SCATTER (R192). Its destination as it begins is every row of the tile that an index may name (R185). -/
def execScatter (f : Rrr) (s : State) : Result :=
  asyncWord f (.scatter f) true (fun s j => s.planeLocks s.curKey j.trec 0 0) s

/-! ## PREFETCH (R193) -/

/-- The SPX die of a cell, into whose tile frames its PREFETCH `.resident` fetches (R365). -/
def spxOf (key : Nat) : Option Nat := if chipClass (keyChip key) == .spx then some (keyChip key) else none

/-- One granule of a PREFETCH, its checks made: with `.resident` its tile is made resident, and the line is brought into the
store that RS names (R193). -/
def State.prefetchPiece (s : State) (key : Nat) (resident : Bool) (scope : Nat) (a : Word) (n : Nat) : M State := do
  let (p, s) ← s.access key { addr := a, size := n, watch := false, scope := 1 }
  match p with
  | .spad _ _ => .ok s
  | .line loc =>
    let s ← match resident, s.tileOf loc with
      | true, some (id, i, _) => do
        let s ← s.homeTurn loc
        let t := s.tile id i
        if t.st = .resident then .ok (s.setTile id i { t with lastAccess := s.tick })
        else if (s.fetchFrames id (spxOf key)).isEmpty then .ok (s.applyInPlace id i)
        else (.error (.tile id i s.waiter true) : M State)
      | _, _ => .ok s
    s.warmLine key (s.cellPart key) loc scope

/-- The next granule of a PREFETCH's element of `n` bytes, `p` of them done. Without `.resident` an element that fails
a check of R154 is dropped. -/
def State.prefetchStep (s : State) (key : Nat) (f : Rrr) (a : Word) (n p : Nat) : M (State × Option (List Nat)) :=
  let res := f.fl.getLsbD 0
  let r : M (State × Option (List Nat)) := do
    let s ← if p = 0 then s.elemCheck key { addr := a, size := n, watch := false, scope := 1 } else .ok s
    let k := min (n - p) (64 - (a.toNat + p) % 64)
    let s ← s.prefetchPiece key res f.rs.toNat (a + BitVec.ofNat 64 p) k
    .ok (s, if p + k < n then some [p + k] else none)
  match r with
  | .error (.cause _ _) | .error (.page _ _ _ _) => if res then r else .ok (s, none)
  | _ => r

/-- The elements of a PREFETCH: granules of a range, or rows of a tile. -/
def State.prefetchPlan (key : Nat) (j : Job) (f : Rrr) : Plan :=
  let r := j.trec
  let th := f.fl.getLsbD 1
  let src := j.va.toNat
  let n := j.vb.toNat
  { count := if th then (if r.rbytes = 0 then 0 else r.allRows) else if n = 0 then 0 else (src % 64 + n - 1) / 64 + 1
    elem := fun k part s =>
      if th then s.prefetchStep key f (r.rowAddr k) r.rbytes (part.headD 0)
      else
        let lo := if k = 0 then 0 else 64 * k - src % 64
        let hi := min n (64 * (k + 1) - src % 64)
        s.prefetchStep key f (j.va + BitVec.ofNat 64 lo) (hi - lo) 0 }

/-- PREFETCH (R193). -/
def execPrefetch (f : Rrr) (s : State) : Result :=
  asyncWord f (.prefetch f) (f.fl.getLsbD 1) (fun _ _ => []) s

/-! ## THFENCE (R194) -/

/-- What THFENCE does: the release, then the records dropped in its scope. -/
def State.thfence (s : State) (f : Rrr) : M State := do
  let s ← s.release s.curKey s.curPart (if f.rs = 5 then 5 else 1)
  let h := extTh (extOf f.w1)
  let obj := match s.node? s.curNode with | some d => d.kobj | none => 0
  let all_ := f.fl.getLsbD 0
  .ok ((s.scopeChips f.rs.toNat).foldl (fun (s : State) i =>
    let d := s.die i
    s.setDie i { d with tileCache := d.tileCache.filter fun e => !(e.1 == obj && (all_ || e.2.1 == h)) }) s)

/-- THFENCE: it completes at issue, so A issues nothing before that. A completion token goes as R290 says: while no place
takes it, everything else is done and the word waits. -/
def execThfence (f : Rrr) (s : State) : Result :=
  runWord f.hdr f.w1.isSome false (fun s => seqM do
    let g := s.core.eng s.curEng
    let s ← if g.issued ∧ g.waitVal.isSome then .ok s
      else do
        if g.issued then .ok () else s.queueRoom 64
        s.thfence f
    match (s.newJob f.hdr (.thfence f)).sig with
    | none => .ok s
    | some p =>
      match s.core.completeTok p (some s.tick) with
      | some c => .ok (s.setCore c)
      | none => .error (.wait (s.modEng fun g => { g with waitVal := some 1 }) 12)) s

end Sys2Proof.Machine
end

