-- ==== Sys2Proof/Machine/Ecdsa.lean ====
section
/-! DEFINITION. ECDSA on curve P-384 with SHA-384, by which firmware is verified and reports are signed (R11, R459, R464):
the standard's own functions, FIPS 186-5 with the curve of SP 800-186. -/

namespace Sys2Proof.Machine

/-! ## The field and the curve -/

/-- The prime of the field. -/
def p384 : Nat := 2 ^ 384 - 2 ^ 128 - 2 ^ 96 + 2 ^ 32 - 1

/-- The order of the base point. -/
def p384n : Nat := 0xFFFFFFFFFFFFFFFFFFFFFFFFFFFFFFFFFFFFFFFFFFFFFFFFC7634D81F4372DDF581A0DB248B0A77AECEC196ACCC52973

/-- The constant term of the curve y^2 = x^3 - 3 x + b. -/
def p384b : Nat := 0xB3312FA7E23EE7E4988E056BE3F82D19181D9C6EFE8141120314088F5013875AC656398D8A2ED19D2A85C8EDD3EC2AEF

/-- A point of the curve; none is the point at infinity. -/
abbrev CurvePt := Option (Nat × Nat)

/-- The base point. -/
def p384g : CurvePt := some
  (0xAA87CA22BE8B05378EB1C71EF320AD746E1D3B628BA79B9859F741E082542A385502F25DBF55296C3A545E3872760AB7,
   0x3617DE4A96262C6F5D9E98BF9292DC29F8F41DBD289A147CE9DA3113B5F0B8C00A60B1CE1D7E819D7A431D7C90EA0E5F)

/-- x to the power of the lowest `n` bits of e, modulo m. -/
def powMod (m x e : Nat) : Nat → Nat
  | 0 => 1 % m
  | n + 1 =>
    let h := powMod m (x * x % m) (e / 2) n
    if e % 2 = 1 then x * h % m else h

/-- The inverse modulo a prime below 2^384. -/
def invMod (m x : Nat) : Nat := powMod m (x % m) (m - 2) 384

/-- A difference in the field. -/
def subMod (m x y : Nat) : Nat := (x + m - y % m) % m

/-- The point where the line of a slope through two points meets the curve again, mirrored. -/
def chord (slope : Nat) (a b : Nat × Nat) : Nat × Nat :=
  let x := subMod p384 (subMod p384 (slope * slope) a.1) b.1
  (x, subMod p384 (slope * subMod p384 a.1 x) a.2)

/-- The sum of two points. -/
def CurvePt.add (a b : CurvePt) : CurvePt :=
  match a, b with
  | none, _ => b
  | _, none => a
  | some a, some b =>
    if a.1 = b.1 then
      if (a.2 + b.2) % p384 = 0 then none
      else some (chord (subMod p384 (3 * a.1 * a.1) 3 * invMod p384 (2 * a.2) % p384) a b)
    else some (chord (subMod p384 b.2 a.2 * invMod p384 (subMod p384 b.1 a.1) % p384) a b)

/-- A point taken as often as the lowest `n` bits of k say. -/
def CurvePt.mul (k : Nat) (a : CurvePt) : Nat → CurvePt
  | 0 => none
  | n + 1 =>
    let h := CurvePt.mul (k / 2) (a.add a) n
    if k % 2 = 1 then a.add h else h

/-- The x coordinate of a multiple of a point, modulo the order; 0 for the point at infinity. -/
def CurvePt.xMod (a : CurvePt) : Nat := match a with | some q => q.1 % p384n | none => 0

/-- A pair of coordinates names a point of the curve. -/
def onCurve (q : Nat × Nat) : Bool :=
  decide (q.1 < p384) && decide (q.2 < p384) && q.2 * q.2 % p384 == subMod p384 (q.1 ^ 3 + p384b) (3 * q.1)

/-! ## Signatures -/

/-- The digest of a message as a number. -/
def digestNat (msg : List Byte) : Nat := beNat (sha384 msg)

/-- The signature that a private key and a per-message secret give a message. -/
def signWith (key secret : Nat) (msg : List Byte) : Nat × Nat :=
  let r := (p384g.mul secret 384).xMod
  (r, invMod p384n secret * (digestNat msg + r * key) % p384n)

/-- A signature of a message is good under a public key. -/
def verifies (pub : Nat × Nat) (msg : List Byte) (sig : Nat × Nat) : Bool :=
  let (r, s) := sig
  let w := invMod p384n s
  let u := digestNat msg * w % p384n
  let v := r * w % p384n
  decide (0 < r ∧ r < p384n) && decide (0 < s ∧ s < p384n) && onCurve pub
    && ((p384g.mul u 384).add (CurvePt.mul v (some pub) 384)).xMod == r

/-- The signature of the device identity key over a message (R464): the per-message secret is drawn, again where it gives
a part of 0. -/
def deviceSign (draw : Nat) (msg : List Byte) : Nat × Nat :=
  let try_ := fun (i : Nat) => signWith (1 + Config.identityKey % (p384n - 1)) (1 + Config.signSecret (draw + i) % (p384n - 1)) msg
  ((List.range 64).map try_).find? (fun x => x.1 != 0 && x.2 != 0) |>.getD (try_ 0)

/-- Step 2 of boot on an image (R459): its key hashes to the value fused in the ROM, its signature is good, and its
security version is at least the fused minimum. Where in the image these stand is the implementation's. -/
def imageOk (image : List Byte) : Bool :=
  let key := Config.imageKey image
  sha384 (beBytes 48 key.1 ++ beBytes 48 key.2) == Config.vendorKeyHash
    && verifies key (Config.imageSigned image) (Config.imageSignature image)
    && decide (Config.minVersion ≤ Config.imageVersion image)

end Sys2Proof.Machine
end

