-- ==== Sys2Proof/Machine/Stops.lean ====
section
/-! DEFINITION. Entries freed before their time, and contexts terminated (R338, R410, R411, R427, R428). -/

namespace Sys2Proof.Machine

/-- The identities of every shard of a node dropped, with the frees that they hold back (R299, R300). -/
def State.dropNodeKept (s : State) (n : Nat) : State :=
  let gone := s.keptCaps.filter fun k => k.id.node == n
  let s := { s with
    kept := s.kept.filter fun e => e.1.node != n
    keptCaps := s.keptCaps.filter fun k => k.id.node != n }
  (gone.foldl (fun (s : State) k => if k.dropped then s.freeBuffer (capId k.cap) else s) s).freeHeld
    fun i => i.node == n

/-- A dependency-table entry freed, its slots and those on their way to it dropped (R338, R411). -/
def State.freeEntry (s : State) (n : Nat) : State :=
  match s.node? n with
  | none => s
  | some d =>
    let s := (s.releasePreempts n).dropNodeKept n
    let s := (d.caps ++ d.capsIn).foldl (fun (s : State) e => s.dropRef (capId e.2)) s
    { s with
      nodes := FMap.erase s.nodes n
      prols := FMap.erase s.prols n
      faults := s.faults.filter fun r => r.cell != prolCell n }

/-- Entries of nodes that satisfy a test. -/
def State.entriesOf (s : State) (p : Node → Bool) : List Nat := (s.nodes.filter fun e => p e.2).map fun e => e.1

/-- Entries freed one after another. -/
def State.freeEntries (s : State) (ns : List Nat) : State := ns.foldl (fun (s : State) n => s.freeEntry n) s

/-- A record of a fatal cause of a cell (R412). -/
def State.cellRecord (s : State) (x : Nat × Cell × Nat × Cause) (nested : Bool) : FaultRec :=
  { tick := x.2.2.1, cause := x.2.2.2, chip := keyChip x.1, cell := keyCell x.1, node := x.2.1.node
    queue := s.nodeQueue x.2.1.node, pkt := (match s.node? x.2.1.node with | some d => d.pkt | none => 0), ctx := s.nodeCtx x.2.1.node, flatC := x.2.1.flatC, flatD := x.2.1.flatD
    nested := nested }

/-- The cells that run shards of a context. -/
def State.ctxCells (s : State) (ctx : Nat) : List Nat :=
  (s.cells.filter fun e => e.2.phase != .idle && e.2.phase != .stopped && s.nodeCtx e.2.node == ctx).map fun e => e.1

/-- The fatal causes that the nodes of a context have met, one node apart, as nested records (R409). -/
def State.otherRecords (s : State) (ctx : Nat) (node : Option Nat) : List FaultRec :=
  ((s.entriesOf fun d => d.ctx == ctx && d.st == .running).filter fun n => some n != node).flatMap fun n =>
    (s.nodeFaults n).map fun x => s.cellRecord x true

/-- The records of the context-class causes that a prologue or the GSD met for a context (R412). -/
def State.condemnedOf (s : State) (ctx : Nat) : List FaultRec := match s.ctx? ctx with | some c => c.condemned | none => []

/-- A record beside the primary one. -/
def FaultRec.asNested (r : FaultRec) : FaultRec := { r with nested := true }

/-- The cause that terminates a context: the context-class cause among its records (R410). -/
def contextCause (recs : List FaultRec) : BitVec 8 :=
  match recs.find? (fun r => contextClass r.cause.code) with
  | some r => r.cause.code
  | none => (recs.head?.map fun r => r.cause.code).getD 0

/-- A context terminated by a cause (R428): every shard stops, the launches complete FAULTED, the entries are freed
with their slots, and every queue stops with the cause. -/
def State.terminateCtx (s : State) (ctx : Nat) (recs : List FaultRec) : State :=
  match s.ctx? ctx, recs with
  | some x, r :: _ =>
    if x.terminated then s
    else
      let cells := s.ctxCells ctx
      let s := cells.foldl (fun (s : State) k => (s.drainCell k x.part).withdraw k) s
      let recs := recs ++ ((s.condemnedOf ctx).drop x.condemned.length).map FaultRec.asNested
      -- R421: a primary record whose node has no shards gives no dump
      let shards := if (s.nodeCells r.node).isEmpty then [] else cells
      let (code, s, held) := s.dumpFor ctx recs shards
      let s := if held then
          cells.foldl (fun (s : State) k =>
            let c := s.cell k
            s.setCell k { c with phase := .stopped, jobs := [], pendTrap := none, stamps := [] }) s
        else cells.foldl State.freeCell s
      let s := s.freeEntries (s.entriesOf fun d => d.ctx == ctx)
      let s := { s with
        ctxs := FMap.modify s.ctxs ctx fun (c : Ctx) => { c with terminated := true, condemned := [] }
        queues := s.queues.map fun (e : Nat × Queue) =>
          if e.2.ctx = ctx ∧ e.2.en then (e.1, { e.2 with st := 3, cause := contextCause recs, wait := none }) else e }
      let launches := s.opens.filter fun (o : Open) => o.ctx == ctx && o.left != 0
      let s := { s with opens := s.opens.filter fun (o : Open) => o.ctx != ctx }
      let s := launches.foldl (fun (s : State) o => s.complete o 0x03) s
      s.postEvent 1 x.part ctx [(8, 2, r.node), (10, 2, r.queue), (12, 4, r.pkt), (16, 1, code)]
        r.bytes
  | _, _ => s

/-- The records of a termination that a cell of a node brought about, the node's primary record first, whatever its
class (R409); none where none of its causes is of the context class. -/
def State.contextRecords (s : State) (n : Nat) : List FaultRec :=
  match s.nodeFaults n with
  | [] => []
  | p :: ps =>
    if (p :: ps).any fun x => contextClass x.2.2.2.code then
      s.cellRecord p false :: (ps.map fun x => s.cellRecord x true) ++ s.otherRecords (s.nodeCtx n) (some n)
    else []

/-- A context terminated by a cause that no word raised (R412, R427). -/
def State.terminateFor (s : State) (ctx : Nat) (code : BitVec 8) (aux : Nat) : State :=
  let r : FaultRec := { tick := s.tick, cause := Raise.at_ { code := code, aux := BitVec.ofNat 64 aux } .c 0 0, chip := 0,
                        cell := 0xFF, node := 0xFFFF, queue := 0xFFFF, pkt := 0, ctx := ctx, flatC := 0, flatD := 0,
                        nested := false }
  s.terminateCtx ctx (r :: (s.condemnedOf ctx).map FaultRec.asNested ++ s.otherRecords ctx none)

/-- An error in state that contexts share (R427): every context goes, and the GSD admits nothing more. -/
def State.terminateAll (s : State) : State :=
  { s.ctxs.foldl (fun (s : State) e => s.terminateFor e.1 0xE3 0) s with shut := true }

/-- A node or a context that has met a fatal cause stops (R408, R428), once its event can be posted (R456). Keys from 2^21
on name a context. Every record of a context-class cause of the context goes with it (R412). -/
def State.stopFor (s : State) (key : Nat) : State :=
  if !s.eventRoom then s
  else if 2 ^ 21 ≤ key then
    match s.condemnedOf (key - 2 ^ 21) with
    | r :: rs => s.terminateCtx (key - 2 ^ 21) (r :: rs.map FaultRec.asNested ++ s.otherRecords (key - 2 ^ 21) none)
    | [] => s
  else
    let c := s.cell key
    if c.fatals.isEmpty || c.phase == .stopped || c.phase == .idle then s
    else
      let rs := s.contextRecords c.node
      if rs.isEmpty then s.stopNode c.node
      else s.terminateCtx (s.nodeCtx c.node) (rs ++ (s.condemnedOf (s.nodeCtx c.node)).map FaultRec.asNested)

end Sys2Proof.Machine
end

