-- ==== Sys2Proof/Machine/Manage.lean ====
section
/-! DEFINITION. Management commands on partitions, contexts, translation and halted work (R384 to R387, R391, R392,
R395, R396, R411, R419, R436, R437, R458). -/

namespace Sys2Proof.Machine

/-! ## Commands -/

/-- A command's work, or the state in which it has completed with another status. -/
abbrev CM (α : Type) := Except State α

/-- The command completes with a status. -/
def State.fails {α : Type} (s : State) (c : Cmd) (status : Nat) : CM α := .error (s.cmdDone c status 0)

/-- The command completes with a status unless a condition holds. -/
def State.must (s : State) (c : Cmd) (ok : Bool) (status : Nat) : CM Unit := if ok then .ok () else s.fails c status

/-- The command completes with a status that the spec does not state. -/
def State.declines {α : Type} (s : State) (c : Cmd) : CM α :=
  .error ({ s with drawn := s.drawn + 1 }.cmdDone c (Config.refusedStatus s.drawn).toNat 0)

/-- A command of the ring handled, once the device is READY; over I3C only those of R468 are. -/
def command (c : Cmd) (f : State → CM State) (s : State) : Result :=
  event (
    if !s.ready then s
    else
      let r := if c.i3c then s.declines c else f s
      match r with | .ok t => t | .error t => t)

/-- A context that a command names: it exists, and is not terminated (R387, R428). -/
def State.cmdCtx (s : State) (c : Cmd) (ctx : Nat) : CM Ctx :=
  match s.ctx? ctx with
  | none => s.fails c stNotFound
  | some x => if x.terminated then s.declines c else .ok x

/-- A partition that a command names. -/
def State.cmdPart (s : State) (c : Cmd) (p : Nat) : CM Part :=
  match s.part? p with | some x => .ok x | none => s.fails c stNotFound

/-- Words of a command that must be zero (R458). -/
def zeros (ws : List Word) : Bool := ws.all fun w => w == 0

/-- A word has no bit set at or above a place (R458). -/
def below (w : Word) (n : Nat) : Bool := decide (w.toNat < 2 ^ n)

/-! ## PART_CREATE, PART_DESTROY (R384, R387, R444) -/

/-- The layers of stacks in a mask. -/
def layersIn (mask : Nat) : List Nat := (List.range 44).filter fun i => isLayer i && mask.testBit (stackOf i)

/-- Watts of a stack, by the role each layer has (R444). -/
def stackWatts (role : Nat → Nat) (stack : Nat) : Nat :=
  (List.range 4).foldl (fun a l => match role (1 + 4 * stack + l) with | 0 => a + 82 | 1 => a + 14 | _ => a) 0

/-- The stack limit of the cooling class (R9). -/
def State.stackLimit (s : State) : Nat := if s.cool = 2 then 340 else 260

/-- HBM in service, in GiB (R7, R453). -/
def State.hbmGiB (s : State) : Nat := 64 * ((List.range 12).filter fun i => s.hbmmap.getLsbD i).length

/-- The tarn of a layer written zero, with tag 0 (R447). -/
def State.zeroTarn (s : State) (chip : Nat) : State :=
  { s with
    mem := FMap.clearRange s.mem (tarnLoc chip 0) tarnBytes
    tags := FMap.clearRange s.tags (tarnLoc chip 0 / 64) (tarnBytes / 64)
    bad := FMap.clearRange s.bad (tarnLoc chip 0 / 64) (tarnBytes / 64) }

/-- The role of a layer rewritten in the discovery table (R344, R447); the state of its cells is gone with the power, and
zero when it comes back. -/
def State.setRole (s : State) (chip role : Nat) : State :=
  let d := s.die chip
  let s := s.setDie chip { d with role := role, rdc := [], rdcHas := [], rdcTag := [], dcache := [], tileCache := [], tlb := [], walkc := [], rows := [] }
  let s := if role = d.role then s else { s with cells := s.cells.filter fun e => keyChip e.1 != chip }
  if role = 1 ∧ d.role ≠ 1 then s.zeroTarn chip else s

/-- The entries of the discovery table are changed, UPDATING being set; the command completes as VERSION increments
(R344, R447). -/
def State.beginReenum (s : State) (r : Reenum) : State := { s with reenum := some r }

/-- The re-enumeration ends: VERSION increments, UPDATING is clear, the partition's shards will see the new version (R79),
the RECONFIG event of a role change is posted and the command completes (R344, R447). -/
def State.endReenum (s : State) : State :=
  match s.reenum with
  | none => s
  | some r =>
    let v := (s.version + 1) % 2 ^ 63
    let s := { s with version := v, reenum := none }
    let s := s.modPart r.part fun (p : Part) => { p with ver := v }
    let s := match r.change with
      | some (chip, old, role) => s.postEvent 3 r.part 0 [(8, 1, chip), (9, 1, old), (10, 1, role), (16, 8, v)] []
      | none => s
    s.cmdDone r.cmd stOk r.result

/-- A re-enumeration may end before a turn, or go on through it: which is free. -/
def State.reenumTurn (s : State) : State :=
  if s.reenum.isNone || !s.eventRoom then s
  else
    let (x, s) := s.draw
    if x % 2 = 0 then s.endReenum else s

/-- PART_CREATE (R384, R387, R444, R458, R471). -/
def execPartCreate (c : Cmd) (s : State) : Result :=
  command c (fun s => do
    let mask := natBits c.w0.toNat 0 8
    let tier := fun (i : Nat) => c.w0.toNat.testBit (8 + (i - 1))
    let role := fun (i : Nat) => if (s.die i).role = 3 then 3 else if tier i then 1 else 0
    let layers := layersIn mask
    let others := (List.range 64).filter fun i => c.w1.getLsbD i
    s.must c (below c.w0 40 && zeros [c.w4, c.w5]) stBadArg
    s.must c ((List.range 44).all fun i => !(isLayer i && tier i) || layers.contains i) stBadArg
    s.must c (others.all fun i => 33 ≤ i && i ≤ 37 && (s.die i).role != 3) stBadArg
    s.must c (layers.any fun i => s.present i && role i == 0) stBadArg
    s.must c ((layers ++ others).all fun i => (s.die i).part == 0) stBusy
    s.must c ((List.range 8).all fun k => !mask.testBit k || decide (stackWatts role k ≤ s.stackLimit)) stThermal
    let taken := s.parts.foldl (fun a e => a + e.2.hbmFrames / 65536) 0
    s.must c (decide (s.parts.length < 8) && decide (c.w2.toNat + taken ≤ s.hbmGiB)) stNoResource
    match ((List.range 8).map fun i => i + 1).find? fun i => (s.part? i).isNone with
    | none => s.fails c stNoResource
    | some id =>
      let changed := layers.any fun i => role i != (s.die i).role
      let s := layers.foldl (fun (s : State) i => if role i = 3 then s else s.setRole i (role i)) s
      let s := (layers ++ others).foldl (fun (s : State) i => s.setDie i { s.die i with part := id }) s
      let p : Part := { ver := s.version, stackMask := mask, dies := others, hbmFrames := c.w2.toNat * 65536, usedFrames := 0
                        respool := c.w3.toNat, activeCtx := 0
                        power := [(0, 0), (0, 0), (0, 0), (0, 0)] }
      let s := { s with parts := FMap.put s.parts id p }
      .ok (if changed then s.beginReenum ⟨id, none, c, id⟩ else s.cmdDone c stOk id)) s

/-- PART_DESTROY (R387). -/
def execPartDestroy (c : Cmd) (s : State) : Result :=
  command c (fun s => do
    s.must c (zeros [c.w1, c.w2, c.w3, c.w4, c.w5]) stBadArg
    let id := c.w0.toNat
    let _ ← s.cmdPart c id
    s.must c (s.ctxs.all fun e => e.2.part != id) stBusy
    let dies := s.dies.map fun (e : Nat × Die) => if e.2.part = id then (e.1, { e.2 with part := 0 }) else e
    .ok ({ s with dies := dies, parts := FMap.erase s.parts id }.cmdDone c stOk 0)) s

/-! ## CTX_CREATE, CTX_DESTROY (R385, R387) -/

/-- A window value that CTX_CREATE accepts (R73). -/
def aperOk (w : Word) : Bool :=
  let base := (w.extractLsb' 24 33).toNat * 2 ^ 24
  let sz := (w.extractLsb' 16 6).toNat
  w.extractLsb' 57 7 == 0 && w.extractLsb' 22 2 == 0 && w.extractLsb' 1 15 == 0
    && (!w.getLsbD 0 || (decide (24 ≤ sz ∧ sz ≤ 57) && decide (base % 2 ^ sz = 0) && decide (base + 2 ^ sz ≤ 2 ^ 57)))

/-- A new context, SAVED, with an empty page table in a frame. -/
def Ctx.fresh (part root : Nat) (aper : List Word) : Ctx :=
  { part := part, root := root, aper := aper, watch := List.replicate 8 WatchPt.zero, trctl := 0, trbase := 0
    dump := none, terminated := false, condemned := [], savedTlb := [] }

/-- CTX_CREATE (R73, R385, R387). -/
def execCtxCreate (c : Cmd) (s : State) : Result :=
  command c (fun s => do
    let id := c.w1.toNat
    let aper := [c.w2, c.w3, c.w4, c.w5]
    s.must c (below c.w1 16) stBadArg
    let _ ← s.cmdPart c c.w0.toNat
    s.must c (id != 0 && (s.ctx? id).isNone && aper.all aperOk) stBadArg
    s.must c (decide ((s.ctxs.filter fun e => e.2.part == c.w0.toNat).length < 16)) stNoResource
    match s.findFrames (fun _ => true) 1 with
    | some (f :: _) =>
      let s := (s.giveFrames c.w0.toNat [f]).tagFrames [f] 0
      .ok ({ s with ctxs := FMap.put s.ctxs id (Ctx.fresh c.w0.toNat (f * pageBytes) aper), tickKept := true }.cmdDone c stOk 0)
    | _ => s.fails c stNoResource) s

/-- The frames of a leaf. -/
def leafFrames (l : Nat × Nat × Nat) : List Nat := (List.range (2 ^ l.2.2 / pageBytes)).map fun i => l.2.1 / pageBytes + i

/-- Every node of a context is free, and none of its queues is enabled. -/
def State.ctxIdle (s : State) (ctx : Nat) : Bool :=
  s.nodes.all (fun e => e.2.ctx != ctx) && s.queues.all fun e => !(e.2.en && e.2.ctx == ctx)

/-- A context's buffers, objects, tables and translations gone (R387). -/
def State.destroyCtx (s : State) (ctx : Nat) (x : Ctx) : State :=
  let ids := (s.buffers.filter fun e => e.2.live && e.2.ctx == ctx).map fun e => e.1
  let s := ids.foldl (fun (s : State) id => (s.endBufMoves id).freeBuffer id) s
  let (tables, leaves) := s.ctxTree ctx
  let mapped := leaves.flatMap leafFrames
  let s := (s.releaseFrames (tables.map (· / pageBytes) ++ mapped)).freeQuota x.part mapped.length
  let s := s.tlbInv allChips ctx 0 (2 ^ 57)
  let s := s.modPart x.part fun (p : Part) => if p.activeCtx = ctx then { p with activeCtx := 0 } else p
  { s with ctxs := FMap.erase s.ctxs ctx, objects := s.objects.filter fun e => e.2.ctx != ctx
           loose := s.loose.filter fun e => e.1 != ctx }

/-- CTX_DESTROY (R387). -/
def execCtxDestroy (c : Cmd) (s : State) : Result :=
  command c (fun s => do
    s.must c (zeros [c.w1, c.w2, c.w3, c.w4, c.w5]) stBadArg
    let ctx := c.w0.toNat
    match s.ctx? ctx with
    | none => s.fails c stNotFound
    | some x => do
      s.must c (s.ctxIdle ctx) stBusy
      .ok ((s.destroyCtx ctx x).cmdDone c stOk 0)) s

/-! ## CTX_SWITCH, PREEMPT (R386, R392, R395, R396) -/

/-- The dies of a partition. -/
def State.partDies (s : State) (p : Nat) : List Nat := (List.range 44).filter fun i => (s.die i).part == p

/-- What a die drops at a context switch and a re-enumeration (R396, step 3): RDC, row and tile-record lines; its
write-throughs have reached their homes. -/
def Die.emptied (d : Die) : Die := { d with rdc := [], rdcHas := [], rdcTag := [], rows := [], tileCache := [] }

/-- A context of a partition saved and another one restored (R396, steps 2 to 5). -/
def State.switchTo (s : State) (part q : Nat) : State :=
  let old := match s.part? part with | some p => p.activeCtx | none => 0
  let s := (s.runningNodes fun d => d.ctx == old).foldl (fun (s : State) n => s.discardNode n) s
  let dies := s.partDies part
  let own := fun (ctx : Nat) (t : FMap TlbEnt) => t.filter fun e => e.1 / 2 ^ 43 == ctx
  let saved := dies.map fun i => (i, own old (s.die i).tlb)
  let back := match s.ctx? q with | some x => x.savedTlb | none => []
  let s := dies.foldl (fun (s : State) i =>
    let d := (s.die i).emptied
    let kept := d.tlb.filter fun e => e.1 / 2 ^ 43 != old && e.1 / 2 ^ 43 != q
    let rest := match back.find? fun e => e.1 == i with | some e => e.2 | none => []
    s.setDie i { d with tlb := rest.foldl (fun (m : FMap TlbEnt) e => FMap.put m e.1 e.2) kept }) s
  let s := { s with ctxs := FMap.modify s.ctxs old fun (x : Ctx) => { x with savedTlb := saved } }
  let s := { s with ctxs := FMap.modify s.ctxs q fun (x : Ctx) => { x with savedTlb := [] } }
  s.modPart part fun (p : Part) => { p with activeCtx := q, ver := s.version }

/-- CTX_SWITCH (R396). -/
def execCtxSwitch (c : Cmd) (s : State) : Result :=
  command c (fun s => do
    s.must c (zeros [c.w2, c.w3, c.w4, c.w5]) stBadArg
    let p ← s.cmdPart c c.w0.toNat
    let x ← s.cmdCtx c c.w1.toNat
    s.must c (x.part == c.w0.toNat) stNotFound
    .ok ((if p.activeCtx = c.w1.toNat then s else s.switchTo c.w0.toNat c.w1.toNat).cmdDone c stOk 0)) s

/-- A command waits for nodes to halt: those RUNNING stop issuing now, those in PROLOGUE once they are placed (R392,
R400). A node of a SAVED context runs no prologue, and is not waited for. With none to wait for, the command completes. -/
def State.preempt (s : State) (c : Cmd) (ns : List Nat) : State :=
  let todo := ns.filter fun n => match s.node? n with
    | some d => d.st == .running || (d.st == .prologue && s.canPrologue d) | none => false
  if todo.isEmpty then s.cmdDone c stOk 0
  else todo.foldl (fun (s : State) n =>
    let s := s.modNode n fun (d : Node) => { d with preempts := c :: d.preempts }
    match s.node? n with | some d => if d.st = .running then s.haltNode n else s | none => s) s

/-- PREEMPT (R392, R400). -/
def execPreempt (c : Cmd) (s : State) : Result :=
  command c (fun s => do
    s.must c (decide (c.w0.toNat ≤ 1) && zeros [c.w2, c.w3, c.w4, c.w5] && (c.w0 != 0 || below c.w1 16)) stBadArg
    if c.w0 = 0 then do
      s.must c (s.node? c.w1.toNat).isSome stNotFound
      .ok (s.preempt c [c.w1.toNat])
    else do
      let _ ← s.cmdCtx c c.w1.toNat
      .ok (s.preempt c (s.entriesOf fun d => d.ctx == c.w1.toNat))) s

/-! ## MAP, UNMAP, FAULT_REPLY (R387 to R391, R414, R416) -/

/-- Some valid leaf of a context overlaps a range. -/
def State.leafIn (s : State) (ctx va len : Nat) : Bool :=
  (s.ctxTree ctx).2.any fun l => decide (l.1 < va + len) && decide (va < l.1 + 2 ^ l.2.2)

/-- The live buffers of a context that a range covers in part. -/
def State.buffersIn (s : State) (ctx va len : Nat) : List Buffer :=
  (s.buffers.filter fun e => e.2.live && e.2.ctx == ctx && decide (e.2.va < va + len) && decide (va < e.2.va + e.2.len)).map
    fun e => e.2

/-- A block of 2^k frames that is free and in service. -/
def State.blockFree (s : State) (k g : Nat) : Bool :=
  s.frameInService (g * 2 ^ k) && s.frames.all fun e => e.1 / 2 ^ k != g

/-- The first frames of `n` free aligned blocks of 2^k frames each. -/
def State.findBlocks (s : State) (k n : Nat) : Option (List Nat) :=
  if k = 0 then s.findFrames (fun _ => true) n
  else
    let gs := ((List.range (12 * 2 ^ 22 / 2 ^ k)).filter fun g => s.blockFree k g).take n
    if gs.length = n then some (gs.map fun g => g * 2 ^ k) else none

/-- The table that the last entry of a path points to. -/
def State.entryTable (s : State) (va : Nat) : Nat → List (Nat × Nat) → Option Nat
  | table, [] => some table
  | table, (lo, n) :: rest =>
    let e := (Memory.read64 s.mem (table + 8 * natBits va lo n)).toNat
    if pteV e && !pteLeaf e then s.entryTable va (pteFrame e) rest else none

/-- The tables below the one that a larger leaf replaces, all of whose entries are invalid, returned. -/
def State.dropTables (s : State) (ctx va size : Nat) : State :=
  match (s.ctx? ctx).bind fun c => s.entryTable va c.root (ptPath size) with
  | some t => s.releaseFrames (((s.tree ((ptPath 0).drop (4 - size)) t 0).1.drop 1).map (· / pageBytes))
  | none => s

/-- A page of a PAGEABLE buffer has a new frame. -/
def State.setFront (s : State) (ctx va frame : Nat) : State :=
  { s with buffers := s.buffers.map fun (e : Nat × Buffer) =>
      let b := e.2
      if b.live ∧ b.ctx = ctx ∧ b.va ≤ va ∧ va < b.va + b.len then
        (e.1, { b with front := setNth b.front ((va - b.va) / pageBytes) (frame * pageBytes) }) else e }

/-- Pages written over fresh frames, filled from the host or with zeros (R387). -/
def State.mapPages (s : State) (part ctx va size src : Nat) (w : Bool) (tag : BitVec 4) (blocks : List Nat) : State :=
  let bytes := sizeBytes size
  let k := bytes / pageBytes
  let fs := blocks.flatMap fun f => (List.range k).map fun j => f + j
  let s := ((s.giveFrames part fs).tagFrames fs tag).useQuota part fs.length
  blocks.zipIdx.foldl (fun (s : State) e =>
    let (f, i) := e
    let s := if src = 0 then s
      else { s with mem := FMap.blit s.mem (f * pageBytes) bytes (FMap.slice s.host (src + i * bytes) bytes) }
    let at_ := va + i * bytes
    let s := if size = 0 then s.setFront ctx at_ f else s.dropTables ctx at_ size
    s.setPage ctx at_ size (leafPte (f * pageBytes) w)) s

/-- MAP (R387, R389, R414). -/
def execMap (c : Cmd) (s : State) : Result :=
  command c (fun s => do
    let ctx := c.w0.toNat
    let va := c.w1.toNat
    let len := c.w2.toNat
    let size := natBits c.w3.toNat 8 2
    let unit := sizeBytes size
    s.must c (natBits c.w3.toNat 1 7 == 0 && natBits c.w3.toNat 10 54 == 0 && decide (size ≤ 2) && zeros [c.w5]
      && c.w4.toNat % 8 == 0) stBadArg
    let x ← s.cmdCtx c ctx
    s.must c (va % unit == 0 && len % unit == 0 && decide (va + len ≤ 2 ^ 57) && !s.leafIn ctx va len) stBadArg
    let bs := s.buffersIn ctx va len
    let inOne := bs.all fun b => b.pageable && size == 0 && decide (b.va ≤ va ∧ va + len ≤ b.va + b.len)
    s.must c inOne stBadArg
    let n := len / unit
    s.must c (decide (len / pageBytes ≤ s.quotaLeft x.part)) stNoResource
    match s.findBlocks (Nat.log2 (unit / pageBytes)) n with
    | none => s.fails c stNoResource
    | some blocks =>
      let tag := match bs with | b :: _ => b.tag | [] => 0
      let s' := s.mapPages x.part ctx va size c.w4.toNat (c.w3.getLsbD 0) tag blocks
      s.must c (s'.mapped ctx va len) stNoResource
      .ok ((s'.tlbInv allChips ctx va len).cmdDone c stOk 0)) s

/-- The bytes of a range copied to the host, zeros where no leaf is valid (R387). -/
def State.copyOut (s : State) (leaves : List (Nat × Nat × Nat)) (va len target : Nat) : State :=
  let host := FMap.clearRange s.host target len
  { s with host := leaves.foldl (fun (m : Memory) l =>
      FMap.blit m (target + (l.1 - va)) (2 ^ l.2.2) (FMap.slice s.mem l.2.1 (2 ^ l.2.2))) host }

/-- The size code of a leaf by its VA bits. -/
def sizeCode (bits : Nat) : Nat := if bits = 14 then 0 else if bits = 25 then 1 else 2

/-- A leaf removed, its frames returned: those of a PAGEABLE buffer with the buffer's tag (R387, R416). -/
def State.unmapLeaf (s : State) (part ctx : Nat) (pgbl : Bool) (l : Nat × Nat × Nat) : State :=
  let fs := leafFrames l
  let s := s.setPage ctx l.1 (sizeCode l.2.2) (if pgbl then 2 else 0)
  let s := match s.loose.contains (ctx, l.1), s.buffersIn ctx l.1 (2 ^ l.2.2) with
    | false, b :: _ => s.returnFrames fs b.tag
    | _, _ => s.releaseFrames fs
  { s with loose := s.loose.filter fun e => e != (ctx, l.1) }.freeQuota part fs.length

/-- UNMAP (R387, R391, R416). -/
def execUnmap (c : Cmd) (s : State) : Result :=
  command c (fun s => do
    let ctx := c.w0.toNat
    let va := c.w1.toNat
    let len := c.w2.toNat
    let pgbl := c.w3.getLsbD 1
    s.must c (c.w3 &&& ~~~(2 : Word) == 0 && zeros [c.w5] && c.w4.toNat % 8 == 0) stBadArg
    let x ← s.cmdCtx c ctx
    s.must c (va % pageBytes == 0 && len % pageBytes == 0 && decide (va + len ≤ 2 ^ 57)) stBadArg
    let leaves := (s.ctxTree ctx).2.filter fun l => decide (l.1 < va + len) && decide (va < l.1 + 2 ^ l.2.2)
    s.must c (leaves.all fun l => decide (va ≤ l.1 ∧ l.1 + 2 ^ l.2.2 ≤ va + len)) stBadArg
    s.must c ((s.buffersIn ctx va len).all fun b => b.pageable) stBadArg
    let s := if c.w4 = 0 then s else s.copyOut leaves va len c.w4.toNat
    let covered := fun (p : Nat) => leaves.any fun l => decide (l.1 ≤ p ∧ p < l.1 + 2 ^ l.2.2)
    let other := (pagesOf va len).filter fun p => !covered p
      && (match s.walkCtx ctx p with | .invalid g => g != pgbl | _ => false)
    let s := leaves.foldl (fun (s : State) l => s.unmapLeaf x.part ctx pgbl l) s
    let s := other.foldl (fun (s : State) p => s.setPage ctx p 0 (if pgbl then 2 else 0)) s
    .ok ((s.tlbInv allChips ctx va len).cmdDone c stOk 0)) s

/-- FAULT_REPLY (R391): RESUME lets every joined access translate again, KILL makes each of them fatal. -/
def execFaultReply (c : Cmd) (s : State) : Result :=
  command c (fun s => do
    let ctx := c.w0.toNat
    let page := c.w1.toNat / pageBytes
    s.must c (c.w1.toNat % pageBytes == 0 && decide (c.w2.toNat ≤ 1) && zeros [c.w3, c.w4, c.w5]) stBadArg
    let _ ← s.cmdCtx c ctx
    let mine := fun (r : FaultReq) => r.ctx == ctx && r.page == page && !r.killed
    s.must c (s.faults.any mine) stNotFound
    let faults := if c.w2 = 0 then s.faults.filter fun r => !mine r
      else s.faults.map fun r => if mine r then { r with killed := true } else r
    .ok ({ s with faults := faults }.cmdDone c stOk 0)) s

/-! ## Faulted and halted work (R411) -/

/-- GRAPH_CANCEL (R338, R411). -/
def execGraphCancel (c : Cmd) (s : State) : Result :=
  command c (fun s => do
    let q := c.w0.toNat
    let idx := c.w1.toNat
    s.must c (zeros [c.w2, c.w3, c.w4, c.w5]) stBadArg
    match s.opens.find? fun (o : Open) => o.queue == q && o.idx == idx && o.left != 0 with
    | none => s.fails c stNotFound
    | some o =>
      let ns := s.entriesOf fun d => d.queue == q && d.pkt == idx
      let s := ns.foldl (fun (s : State) n => s.discardNode n) s
      let s := (s.freeEntries ns).complete o (if o.faulted then 0x03 else 0x02)
      .ok (s.cmdDone c stOk 0)) s

/-- Cells of a node that stand in HALT (R138). -/
def State.haltedCells (s : State) (n : Nat) : List Nat :=
  ((s.nodeCells n).filter fun e => e.2.phase == .halted && e.2.haltPc.isNone).map fun e => e.1

/-- A command on a node with halted shards (R411). -/
def haltedNode (c : Cmd) (f : State → Nat → State) (s : State) : Result :=
  command c (fun s => do
    let n := c.w0.toNat
    s.must c (below c.w0 16 && zeros [c.w1, c.w2, c.w3, c.w4, c.w5]) stBadArg
    s.must c (s.node? n).isSome stNotFound
    s.must c (!(s.haltedCells n).isEmpty) stBadArg
    .ok ((f s n).cmdDone c stOk 0)) s

/-- HALT_RESUME (R138, R411). -/
def execHaltResume (c : Cmd) (s : State) : Result :=
  haltedNode c (fun s n => (s.haltedCells n).foldl (fun (s : State) k =>
    s.setCell k { s.cell k with phase := .running }) s) s

/-- HALT_DISCARD (R138, R392, R411). -/
def execHaltDiscard (c : Cmd) (s : State) : Result := haltedNode c (fun s n => s.discardNode n) s

/-! ## Defaults of a context, dumps, stop on tick (R411, R419, R420, R436, R437) -/

/-- A context changed. -/
def State.modCtx (s : State) (ctx : Nat) (f : Ctx → Ctx) : State := { s with ctxs := FMap.modify s.ctxs ctx f }

/-- DUMP_AREA (R411, R420, R458), which a terminated context accepts too (R428). -/
def execDumpArea (c : Cmd) (s : State) : Result :=
  command c (fun s => do
    s.must c (below c.w3 4 && zeros [c.w4, c.w5] && c.w1.toNat % 64 == 0 && decide (4096 ≤ c.w2.toNat)) stBadArg
    s.must c (s.ctx? c.w0.toNat).isSome stNotFound
    .ok ((s.modCtx c.w0.toNat fun (x : Ctx) => { x with dump := some (c.w1.toNat, c.w2.toNat, c.w3.toNat) }).cmdDone c
      stOk 0)) s

/-- Watch defaults from eight triples (R417, R419). -/
def watchTriples : List Word → List WatchPt
  | a :: b :: d :: rest => ((WatchPt.zero.write 0 a).write 1 b).write 2 d :: watchTriples rest
  | _ => []

/-- WATCH_DEFAULTS (R411, R419, R458). -/
def execWatchDefaults (c : Cmd) (s : State) : Result :=
  command c (fun s => do
    s.must c (c.w5.toNat % 8 == 0) stBadArg
    let _ ← s.cmdCtx c c.w0.toNat
    let rest := (List.range 20).map fun i => BitVec.ofNat 64 (s.hostWord (c.w5.toNat + 8 * i))
    .ok ((s.modCtx c.w0.toNat fun (x : Ctx) => { x with watch := watchTriples ([c.w1, c.w2, c.w3, c.w4] ++ rest) }).cmdDone
      c stOk 0)) s

/-- TRACE_DEFAULTS (R437, R458). -/
def execTraceDefaults (c : Cmd) (s : State) : Result :=
  command c (fun s => do
    s.must c (zeros [c.w3, c.w4, c.w5]) stBadArg
    let _ ← s.cmdCtx c c.w0.toNat
    .ok ((s.modCtx c.w0.toNat fun (x : Ctx) => { x with trctl := c.w1.setWidth 2, trbase := c.w2 }).cmdDone c stOk 0)) s

/-- STOP_AT (R436): S is compared with the tick at which the command arrived. -/
def execStopAt (c : Cmd) (s : State) : Result :=
  command c (fun s => do
    s.must c (zeros [c.w1, c.w2, c.w3, c.w4, c.w5] && decide (c.tick + 2 ^ 16 ≤ c.w0.toNat) && s.stopAt.isNone) stBadArg
    .ok ({ s with stopAt := some c.w0.toNat }.cmdDone c stOk 0)) s

end Sys2Proof.Machine
end

