-- ==== Sys2Proof/Machine/Fetch.lean ====
section
/-! DEFINITION. How the next instruction of an agent is found (R80 to R88, R96, R139): an engine's word, a
prologue core's word, a packet of a host queue (R346), a command of the host's ring (R456). -/

namespace Sys2Proof.Machine

/-- What a fetch gives: an instruction to execute in a state, or a turn that ends in a state. -/
inductive Fetched where
  | run (i : Instr) (s : State)
  | done (s : State)

/-! ## Words of an engine -/

/-- The lines of an instruction cache of 64 KiB (R7), by number. -/
def Cell.icLines (c : Cell) : List Nat :=
  c.icache.foldl (fun (l : List Nat) e => if l.head? == some (e.1 / 8) then l else e.1 / 8 :: l) []

/-- Room for the line of a word: where 1,024 others are held, one chosen freely leaves (R7). -/
def Cell.icRoom (c : Cell) (i draw : Nat) : Cell :=
  let ls := c.icLines
  if ls.contains (i / 8) || decide (ls.length < 1024) then c
  else match ls[draw % ls.length]? with
    | some l => { c with icache := c.icache.filter fun e => e.1 / 8 != l }
    | none => c

/-- The 64-byte line of a word put into the instruction cache, where it is not there (R139). DESIGN CHOICE: code lies
outside every address that a program can store to (log entry 128). -/
def Cell.icFill (c : Cell) (code : List Word) (i : Nat) : Cell :=
  let lo := i / 8 * 8
  { c with icache := (List.range 8).foldl (fun (m : FMap Word) d =>
      match FMap.find? m (lo + d), code[lo + d]? with
      | none, some w => FMap.put m (lo + d) w
      | _, _ => m) c.icache }

/-- X may not pass a word while a write of VROT that its rotating loop depends on is still to come (R232); nor a LOOP
that opens one, whose body may be empty. -/
def State.rotateWaits (s : State) (code : List Word) (i : Nat) : Bool :=
  let c := s.core
  let opens := match c.instrAt s.curClass code i with | some (.loop f) => f.rot | _ => false
  -- the word at which X stands counts: X passes it as it passes the loop end behind it
  let here := decide (c.engC.pos ≤ c.engX.pos) && (match c.instrAt s.curClass code i with | some x => Instr.writesVrot x | none => false)
  s.curEng == .x && (c.stageOpen || opens)
    && !c.engC.done && (here || c.anyWord s.curClass s.curCode c.engC.pos c.engX.pos Instr.writesVrot)

/-- A cause that the executing engine raises at the word it fetches, or, at a tag-7 word, the wait of an engine
other than C for the stop (R88). -/
def State.encodingFault (s : State) (tag7 : Bool) (code : BitVec 8) : State :=
  if tag7 && s.curEng != .c then s.modEng fun g => { g with reason := 10 }
  else s.deliver { code := code }

/-- The word at the executing engine's PC: executed, skipped, or refused by cause (R86 to R88, R96). -/
def State.atWord (s : State) (code : List Word) (w : Word) (i : Nat) : Fetched :=
  let cls := s.curClass
  let e := s.curEng
  let tag := fEng w
  let absent := tag == 6 || (match EngTag.ofNum tag with | some x => !cls.has x | none => false)
  if tag = e.num ∨ tag = 7 ∨ (absent ∧ e = .c) then
    if fWide w && decide (code.length ≤ i + 1) && !absent then .done (s.encodingFault (tag == 7) 0x08)
    else if s.rotateWaits code i then .done (s.modEng fun g => { g with reason := 8 })
    else match decode cls w (s.core.wordAt code (i + 1)) with
      | .ok n => .run n s
      | .error c => .done (s.encodingFault (tag == 7) c)
  else if s.rotateWaits code i then .done (s.modEng fun g => { g with reason := 8 })
  else .done (s.setCore (s.core.advance cls e .seq (fWide w) false))

/-- The turn of an engine of a cell. -/
def State.fetchCell (s0 : State) (key : Nat) (e : EngTag) : Fetched :=
  let s := { s0 with cur := .cell key e, actor := none }
  let c := s.core
  let g := c.eng e
  if !s.curClass.has e || !c.mayRun e then .done s0
  else match s.sectionOf key c with
    | none => .done (if e = .c then s.deliver { code := 0x2A } else s.modEng fun g => { g with reason := 12 })
    | some x =>
      let i := g.pc / 8
      if g.pc % 8 ≠ 0 ∨ x.words.length ≤ i then .done (s.deliver { code := 0x08 })
      else if g.held.isSome then .done (s.modEng fun g => { g with reason := 7 })
      else if !g.issued && !c.slipOk s.curClass e then .done (s.modEng fun g => { g with reason := 6 })
      else
        let (d, s) := s.draw
        let c := (((c.icRoom i d).icFill x.words i).icRoom (i + 1) (d / 1024)).icFill x.words (i + 1)
        let s := s.setCore c
        match c.wordAt x.words i with
        | some w => s.atWord x.words w i
        | none => .done s

/-! ## Words of a prologue core (R351, R352) -/

/-- A CSRR or CSRW of a launch register: checked as the same word with a register of R62 in its place. -/
def launchWord (w : Word) : Option Nat :=
  let n := w.toNat % 4096
  if fEng w = 0 ∧ (fOpc w = 0x82 ∨ fOpc w = 0x83) ∧ fImm w < 4096 ∧ launchReg n then some n else none

/-- The CSR number put back into a decoded word. -/
def Instr.withCsr (i : Instr) (n : Nat) : Instr :=
  match i with
  | .csrr f => .csrr { f with imm := BitVec.ofNat 20 n }
  | .csrw f => .csrw { f with imm := BitVec.ofNat 20 n }
  | i => i

/-- The words a prologue core executes, by engine tag and opcode (R351). -/
def prologueWord (w : Word) : Bool :=
  let opc := fOpc w
  match fEng w with
  | 0 => decide (opc ≤ 0x5F) || opc == 0x8D || ((opc == 0x82 || opc == 0x83) && launchReg (w.toNat % 4096))
  | 1 => opc == 0x60
  | 7 => decide (opc ≤ 0x06) || opc == 0x09 || opc == 0x0B
  | _ => false

/-- A field of a word names a queue, of which a prologue core has none: a source field of 0xFE, or a D field of 0xFE or
0xFF. -/
def namesQueue (form : Form) : Body → Bool
  | .rrr f => (form.D == .sdst && decide (0xFE ≤ f.d.toNat)) || (form.A == .ssrc && f.a == 0xFE) || (form.B == .ssrc && f.b == 0xFE)
  | .ri f => (form.D == .sdst && decide (0xFE ≤ f.d.toNat)) || (form.A == .ssrc && f.a == 0xFE)
  | .br _ | .lp _ | .event => false

/-- The word that stands for one of a prologue in the decoder of a cell: without its WAIT and SIGNAL bytes, and with a
CSR of R62 in place of a launch register. -/
def prologueAs (w : Word) : Word :=
  let w := w &&& BitVec.ofNat 64 (2 ^ 48 - 1)
  if (launchWord w).isSome then (w &&& ~~~(0xFFF : Word)) ||| 1 else w

/-- The reserved fields of a prologue's word: the WAIT and SIGNAL bytes must be zero, and a CSRW names a launch register
that can be written. -/
def prologueReserved (w : Word) : Bool :=
  w.extractLsb' 48 16 != 0 || (match launchWord w with | some n => fOpc w == 0x83 && !launchRegWritable n | none => false)

/-- The word of a prologue names a queue. -/
def prologueQueue (w : Word) (v : Option Word) : Bool :=
  let w1 := if fWide w then some (w1Of (v.getD 0)) else none
  match opOf .dmx w ⟨0, none, w.extractLsb' 45 3⟩ w1 with
  | some i => (match i.form with | some f => namesQueue f i.body | none => false)
  | none => false

/-- Decoding on a prologue core, the checks in the order of R96: any other word raises 0x01 before its fields are looked
at; the WAIT and SIGNAL bytes must be zero; CSR numbers are those of R352; no field names a queue. -/
def decodePrologue (w : Word) (v : Option Word) : Except (BitVec 8) Instr :=
  if !prologueWord w then .error 0x01
  else
    let r := decode .dmx (prologueAs w) v
    match r with
    | .error 0x06 => .error 0x06
    | _ =>
      if prologueReserved w then .error 0x02
      else match r with
        | .error 0x02 => .error 0x02
        | _ =>
          if prologueQueue (prologueAs w) v then .error 0x05
          else match r, launchWord w with
            | .ok i, some n => .ok (Instr.withCsr i n)
            | r, _ => r

/-- The turn of a prologue core. -/
def State.fetchPrologue (s0 : State) (n : Nat) : Fetched :=
  let s := { s0 with cur := .prologue n, actor := none }
  match FMap.find? s0.prols n with
  | none => .done s0
  | some p =>
    let pc := p.core.engC.pc
    let i := pc / 8
    if 4096 ≤ p.count then
      .done (s.deliver { code := 0xC6, aux := BitVec.ofNat 64 (match s.node? n with | some d => d.pkt | none => 0) })
    else match s.prolSection n with
      | none => .done (s.deliver { code := 0x2A })
      | some x =>
        if pc % 8 ≠ 0 then .done (s.deliver { code := 0x08 })
        else match x.words[i]? with
          | none => .done (s.deliver { code := 0x08 })
          | some w =>
            if fWide w && decide (x.words.length ≤ i + 1) then .done (s.deliver { code := 0x08 })
            else match decodePrologue w x.words[i + 1]? with
              | .ok n => .run n s
              | .error c => .done (s.deliver { code := c })

/-- The turn of an engine: of a cell, or, from 2^20 on, of the prologue core of a node. -/
def State.fetchEngine (s : State) (key : Nat) (e : EngTag) : Fetched :=
  if 2 ^ 20 ≤ key then s.fetchPrologue (key - 2 ^ 20) else s.fetchCell key e

/-! ## Commands (R456, R458) -/

/-- The command a code names (R458). -/
def cmdOf (code : Nat) (c : Cmd) : Option Instr :=
  match code with
  | 0x01 => some (.partCreate c)
  | 0x02 => some (.partDestroy c)
  | 0x03 => some (.ctxCreate c)
  | 0x04 => some (.ctxDestroy c)
  | 0x05 => some (.ctxSwitch c)
  | 0x06 => some (.preempt c)
  | 0x07 => some (.map c)
  | 0x08 => some (.unmap c)
  | 0x09 => some (.faultReply c)
  | 0x0A => some (.objLoad c)
  | 0x0B => some (.objPatch c)
  | 0x0C => some (.objUnload c)
  | 0x0D => some (.graphCancel c)
  | 0x0E => some (.haltResume c)
  | 0x0F => some (.haltDiscard c)
  | 0x10 => some (.dumpArea c)
  | 0x11 => some (.watchDefaults c)
  | 0x12 => some (.traceDefaults c)
  | 0x13 => some (.stopAt c)
  | 0x14 => some (.roleSet c)
  | 0x15 => some (.powerSet c)
  | 0x16 => some (.attest c)
  | 0x17 => some (.fwStage c)
  | 0x18 => some (.journalClear c)
  | _ => none

/-- A command entry as the GSD reads it, with the tick of its arrival. -/
def cmdAt (m : Memory) (entry : Nat) (i3c : Bool) (tick : Nat) : Cmd :=
  let w := fun k => Memory.read64 m (entry + 8 + 8 * k)
  { entry := entry, i3c := i3c, tick := tick, w0 := w 0, w1 := w 1, w2 := w 2, w3 := w 3, w4 := w 4, w5 := w 5 }

/-- The context that a command names, if it names one (R387, R458). -/
def namedCtx : Instr → Option Nat
  | .ctxDestroy c | .map c | .unmap c | .faultReply c | .objLoad c | .watchDefaults c | .traceDefaults c | .dumpArea c => some c.w0.toNat
  | .ctxSwitch c => some c.w1.toNat
  | .preempt c => if c.w0 = 1 then some c.w1.toNat else none
  | _ => none

/-- The partition that a command names, itself or by one of its contexts (R446). -/
def State.namedPart (s : State) (i : Instr) : Option Nat :=
  match i with
  | .partDestroy c | .ctxCreate c | .roleSet c | .powerSet c => some c.w0.toNat
  | _ => (namedCtx i).map s.ctxPart

/-- A PREEMPT of a context of a partition still waits for nodes to halt (R392, R400). -/
def State.preempting (s : State) (part : Nat) : Bool :=
  s.nodes.any fun e => e.2.preempts.any fun c => c.w0 == 1 && s.ctxPart c.w1.toNat == part

/-- A prologue of a partition runs, or a node of its ACTIVE context stands in PROLOGUE and has not begun its run. -/
def State.prologueRuns (s : State) (part : Nat) : Bool :=
  (s.prols.any fun e => s.ctxPart (s.nodeCtx e.1) == part)
    || s.nodes.any fun e => e.2.st == .prologue && s.ctxPart e.2.ctx == part && s.canPrologue e.2

/-- The nodes whose shards a command discards (R396, R399, R411, R447, R466). -/
def State.cmdStops (s : State) : Instr → List Nat
  | .ctxSwitch c | .roleSet c =>
    s.runningNodes fun d => match s.part? c.w0.toNat with | some p => d.ctx == p.activeCtx | none => false
  | .graphCancel c => s.entriesOf fun d => d.queue == c.w0.toNat && d.pkt == c.w1.toNat
  | .haltDiscard c => [c.w0.toNat]
  | .objUnload c => s.runningNodes fun d => d.kobj == c.w0.toNat
  | .powerSet c => s.runningNodes fun d => d.cls == c.w1.toNat && s.ctxPart d.ctx == c.w0.toNat
  | _ => []

/-- A command waits for an earlier one that names its partition or one of its contexts: those are carried out one at a
time (R387, R446). A ROLE_SET waits for the nodes in PROLOGUE (R447, step 1). A command that discards nodes waits for what
their shards must complete first (R392, steps 2 to 4). -/
def State.cmdWaits (s : State) (i : Instr) : Bool :=
  (match s.namedPart i with | some p => s.preempting p | none => false)
    || (s.cmdStops i).any s.nodeBusy
    || (match i with | .roleSet c => s.prologueRuns c.w0.toNat | _ => false)

/-- The tick at which the next command of the ring arrived: that of the first doorbell that is beyond MCRD (R436,
R455). -/
def State.bellTick (s : State) : Nat :=
  match s.mcBells.find? fun b => b.1 != s.mcRd with | some b => b.2 | none => s.tick

/-- The next command of the ring started (R455, R456): MCRD moves on; an undefined code completes with BAD_ARG. -/
def State.fetchCommand (s : State) : Fetched :=
  if !s.ready || s.mcRd = s.mcWr || s.reenum.isSome then .done s
  else
    let entry := s.mcBase.toNat + 64 * (s.mcRd % 2 ^ s.mcLog2)
    let c := cmdAt s.host entry false s.bellTick
    let rd := (s.mcRd + 1) % 2 ^ 32
    let next := { s with mcRd := rd, mcBells := (s.mcBells.dropWhile fun b => b.1 == s.mcRd).filter fun b => b.1 != rd }
    match cmdOf (Memory.read s.host entry).toNat c with
    | some i => if s.cmdWaits i then .done s else .run i next
    | none => .done (next.cmdDone c stBadArg 0)

/-! ## Packets (R346, R347) -/

/-- The 64 bytes of a packet, read under the checks of R154 or from host memory. -/
def State.packetBytes (s : State) (q : Queue) (idx : Nat) : Except (BitVec 8) (List Byte) :=
  if q.hostMem then .ok (s.hostRead (q.packetAt idx).toNat 64) else s.gsdRead q.ctx (q.packetAt idx) 8 64

/-- Bytes of a list as a number. -/
def bytesNat (bs : List Byte) (off n : Nat) : Nat := leNat ((bs.drop off).take n)

/-- A packet from its bytes, by revision. -/
def packetOf (queue idx : Nat) (bs : List Byte) : Pkt :=
  let r3 := bytesNat bs 1 1 == 3
  let body := if r3 then 32 else 16
  let w := fun k => BitVec.ofNat 64 (bytesNat bs (body + 8 * k) 8)
  { queue := queue, idx := idx, fence := bytesNat bs 2 1 % 2 == 1, notify := bytesNat bs 2 1 / 2 % 2 == 1
    sigid := bytesNat bs 4 4, sigval := BitVec.ofNat 64 (bytesNat bs 8 8)
    start := if r3 then bytesNat bs 16 8 else 0, lattol := if r3 then bytesNat bs 24 4 else 0
    b0 := w 0, b1 := w 1, b2 := w 2, b3 := w 3
    resv := decide (4 ≤ bytesNat bs 2 1) || (if r3 then bytesNat bs 28 4 != 0 else bytesNat bs 48 16 != 0) }

/-- The instruction that a packet's KIND, and a BUFFER's OP, name; or the status it ends with. -/
def packetInstr (kind : Nat) (p : Pkt) : Except Nat Instr :=
  match kind with
  | 1 => .ok (.graphLaunch p)
  | 2 => .ok (.nodeLaunch p)
  | 3 => .ok (.signal p)
  | 4 => .ok (.wait p)
  | 5 =>
    match p.b0.toNat % 256 with
    | 0 => .ok (.bufferCreate p)
    | 1 => .ok (.bufferDrop p)
    | 2 => .ok (.bufferPublish p)
    | _ => .error 0x11
  | 6 => .ok (.barrier p)
  | 7 => .ok (.timed p)
  | _ => .error 0x10

/-- The next packet of a queue (R345, R346): read whole; a failing check, or another revision, faults the queue,
which resumes after the packet. The event that admits it takes its turn among the queue's (R355): a doorbell event by its
arrival, and what ends a wait of the queue as it comes; the event ends where no packet can be admitted. -/
def State.fetchPacket (s0 : State) (n : Nat) : Fetched :=
  let q := s0.queue n
  let s := s0.modQueue n fun (x : Queue) => { x with bell := none }
  if !s0.coreIdle || s0.lockHeld n || !s0.oldest n (q.bell.getD s0.nextArrival) then .done s0
  else if !s.ready || s.shut || !q.en || q.st ≠ 1 || q.wait.isSome || q.rd = q.wr then .done s
  else if !s.eventRoom then .done s0
  else
    let fault := fun (c : BitVec 8) =>
      Fetched.done ((s.modQueue n fun (x : Queue) => { x with rd := (x.rd + 1) % 2 ^ 32 }).queueFault n q.rd c)
    let ring := fun (c : BitVec 8) =>
      Fetched.done ((s.modQueue n fun (x : Queue) => { x with rd := (x.rd + 1) % 2 ^ 32 }).ringFault n q.rd q.ctx (q.packetAt q.rd) c)
    match s.packetBytes q q.rd with
    | .error c =>
      if contextClass c then .done (s.condemnAt q.ctx n q.rd (q.packetAt q.rd) 2) else ring c
    | .ok bs =>
      if bytesNat bs 1 1 ≠ q.rev then fault 0xC1
      else
        let s := if q.hostMem then s else s.gsdTouch q.ctx 1 (q.packetAt q.rd)
        let p := packetOf n q.rd bs
        match packetInstr (bytesNat bs 0 1) p with
        | .ok i => .run i s
        | .error st => .done (s.packet p fun s => s.admitDone p st)

/-! ## A word placed where the next turn fetches it -/

/-- The die classes in the order in which a word is tried: DMX, SRT, SPX, VEC, with a chiplet of each. -/
def wordDies : List (DieClass × Nat) := [(.dmx, 1), (.srt, 37), (.spx, 35), (.vec, 33)]

/-- The first class whose decoder accepts a word. -/
def wordDie (w0 w1 : Word) : DieClass × Nat :=
  (wordDies.find? fun d => match decode d.1 w0 (some w1) with | .ok _ => true | .error _ => false).getD (.dmx, 1)

/-- The engine that executes a word. -/
def wordEngine (w : Word) : EngTag := (EngTag.ofNum (fEng w)).getD .c

/-- A node entry in RUNNING. -/
def Node.runningOn (kobj cls : Nat) : Node :=
  { st := .running, kobj := kobj, prolObj := 0, param := 0, prio := 0, pktPrio := 0, cls := cls, clsSince := 0, shapeFail := false,
    trips2 := [], trips := some [], pendingCnt := 0, succs := [], caps := [], capsIn := [], reserved := [], queue := 0,
    pkt := 0, ctx := 1, order := 0, arrival := 0, firstRunnable := none, runnableAt := 0, starved := 0, placedAt := 1, lcount := 0, budget := none,
    lastPend := .go, ltrip := [], lcap := [], start := 0, lattol := 0, discarding := false, preempts := [], cancelled := false,
    records := [] }

/-- A shard of a one-node launch whose code is the two words, and its engine's turn next. -/
def State.placeWords (s : State) (w0 w1 : Word) : State :=
  let (cls, chip) := wordDie w0 w1
  let key := cellKey chip 0
  { s with
    agenda := [⟨0, .engine key (wordEngine w0)⟩]
    stopAt := none, stopped := false, powered := true
    objects := FMap.put s.objects 1
      { ctx := 1, sections := [⟨classNum cls, 0, none, [w0, w1]⟩], slots := [], levels := [], capKinds := [],
        tileBuf := 0, tileCount := 0, dataBuf := none, used := true, gone := false }
    nodes := FMap.put s.nodes 0 (Node.runningOn 1 (classNum cls))
    cells := FMap.put s.cells key { Cell.fresh with phase := .running } }

end Sys2Proof.Machine
end

