-- ==== Sys2Proof/Machine/Boot.lean ====
section
/-! DEFINITION. Boot, journal, measurement, firmware, reset and loss of power, I3C (R451, R459 to R464, R468). -/

namespace Sys2Proof.Machine

/-! ## The journal (R460) -/

/-- Entries of the journal's ring. -/
def journalSize : Nat := 256

/-- The 32 bytes of one copy of an entry (R460). -/
def JEnt.bytes (e : JEnt) : List Byte :=
  let head := leBytes 4 e.boot ++ leBytes 1 e.step ++ leBytes 1 e.outcome ++ leBytes 1 e.obj ++ leBytes 1 0
    ++ leBytes 8 e.tick ++ leBytes 4 e.seq
  head ++ leBytes 4 (crc32 head).toNat ++ List.replicate 8 0

/-- A copy that a reader takes as good (R460). -/
def copyGood (bs : List Byte) : Bool := bs.length == 32 && leNat ((bs.drop 0x14).take 4) == (crc32 (bs.take 0x14)).toNat

/-- The copy that a reader takes of an entry's two (R460). -/
def readCopies (a b : List Byte) : Option (List Byte) :=
  let seq := fun (x : List Byte) => leNat ((x.drop 0x10).take 4)
  match copyGood a, copyGood b with
  | true, true => some (if seq a < seq b then b else a)
  | true, false => some a
  | false, true => some b
  | false, false => none

/-- The entry that a good copy holds. -/
def JEnt.ofBytes (bs : List Byte) : JEnt :=
  let n := fun (off k : Nat) => leNat ((bs.drop off).take k)
  { boot := n 0 4, step := n 4 1, outcome := n 5 1, obj := n 6 1, tick := n 8 8, seq := n 0x10 4 }

/-- The two copies in the ring's place of a sequence number; zeros where nothing was written. -/
def State.copiesAt (s : State) (seq : Nat) : List Byte × List Byte :=
  FMap.get s.jstore (seq % journalSize) (List.replicate 32 0, List.replicate 32 0)

/-- Two copies put in the place of a sequence number, over the oldest entry of a full ring. -/
def State.putCopies (s : State) (seq : Nat) (cs : List Byte × List Byte) : State :=
  { s with jstore := FMap.put s.jstore (seq % journalSize) cs }

/-- A write of both copies, first copy 0 and then copy 1, cut after `k` bytes (R460). DESIGN CHOICE: the copies are written
in this order, in one write that may be cut at any byte (log entry 155). -/
def tornCopies (k : Nat) (old new : List Byte × List Byte) : List Byte × List Byte :=
  let bs := (new.1 ++ new.2).take k ++ (old.1 ++ old.2).drop k
  (bs.take 32, bs.drop 32)

/-- An entry among others, those of higher SEQ first. -/
def insertEnt (e : JEnt) : List JEnt → List JEnt
  | [] => [e]
  | x :: xs => if x.seq ≤ e.seq then e :: x :: xs else x :: insertEnt e xs

/-- The journal as a reader finds it in the store, newest first (R460). -/
def State.readStore (s : State) : List JEnt :=
  ((s.jstore.filterMap fun x => readCopies x.2.1 x.2.2).map JEnt.ofBytes).foldl (fun l e => insertEnt e l) []

/-- An entry appended: both its copies are written. -/
def State.log (s : State) (step outcome obj : Nat) : State :=
  let seq := match s.journal with | e :: _ => (e.seq + 1) % 2 ^ 32 | [] => 1
  let e : JEnt := { boot := s.boots, step := step, outcome := outcome, obj := obj, tick := s.tick, seq := seq }
  ({ s with journal := (e :: s.journal).take journalSize } : State).putCopies seq (e.bytes, e.bytes)

/-- The entries since the last JOURNAL_CLEAR, newest first. -/
def State.history (s : State) : List JEnt := s.journal.takeWhile fun e => e.seq != s.journalClear

/-- How a boot treats an object (R460): 0 normal training, 1 conservative mode, 2 skipped. -/
def treatment (js : List JEnt) (obj : Nat) : Nat :=
  let mine := js.filter fun e => e.obj == obj && e.step == 4
  if mine.any fun e => e.outcome == 3 || e.outcome == 4 then 2
  else if mine.any fun e => e.outcome == 1 || e.outcome == 2 then 1 else 0

/-- How a boot treats an object, a layer with its bottom layer: where that is mapped out, its whole stack is (R460). -/
def treated (js : List JEnt) (obj : Nat) : Nat :=
  if treatment js (bottomOf obj) = 2 then 2 else treatment js obj

/-- The objects that a boot trains: the chiplets beside the GSD, and the HBM stacks. -/
def bootObjects : List Nat := ((List.range 43).map fun i => i + 1) ++ (List.range 12).map fun i => i + 64

/-- The outcome of an object in step 4 (R460). -/
def trainOutcome (t : Nat) (fails : Bool) : Nat := if t = 2 then 4 else if fails then t + 2 else t

/-- What the newest entry of a layer's bottom layer says of step 4; none of an object that is its own. -/
def belowOutcome (js : List JEnt) (obj : Nat) : Option Nat :=
  if bottomOf obj = obj then none
  else (js.find? fun e => e.obj == bottomOf obj && e.step == 4).map JEnt.outcome

/-- The outcome of an object in step 4, of a layer after its bottom layer: mapped out with it, and skipped in every later
boot (R460). -/
def stackOutcome (js : List JEnt) (obj : Nat) (fails : Bool) : Nat :=
  if treatment js obj = 2 then 4
  else match belowOutcome js obj with
    | some 3 => 3
    | some 4 => 4
    | _ => trainOutcome (treatment js obj) fails

/-! ## Reset (R451) -/

/-- The number of the last boot that the journal records; 0 when it is empty (R453, R460). -/
def bootsOf : List JEnt → Nat
  | e :: _ => e.boot
  | [] => 0

/-- The package at boot step 0: what is non-volatile stays, the staged slot becomes active (R463), and what lies
outside the package stays. -/
def State.restart (s : State) : State :=
  { State.reset with
    drawn := s.drawn, agenda := s.agenda, cur := s.cur, host := s.host, bar2Data := s.bar2Data
    journal := s.journal, jstore := s.jstore, boots := bootsOf s.journal, journalClear := s.journalClear
    fwSlots := s.fwSlots, fwActive := s.fwNext, fwNext := s.fwNext, tripped := s.tripped }

/-- The package stands at step 0 and waits for power-good. -/
def State.bootPending (s : State) : Bool := !s.ready && !s.recov && s.booting.isNone

/-! ## Boot (R459 to R462) -/

/-- A measurement as its 48 bytes. -/
def measBytes (m : BitVec 384) : List Byte := beBytes 48 m.toNat

/-- Step 3: one measurement extended by a digest. -/
def State.extend (s : State) (i : Nat) (digest : List Byte) : State :=
  { s with meas := setNth s.meas i (BitVec.ofNat 384 (beNat (sha384 (measBytes (nthD s.meas i 0) ++ digest)))) }

/-- HBMMAP when the objects that a test selects are out of service (R453). -/
def mapWithout (out : Nat → Bool) : BitVec 12 :=
  BitVec.ofNat 12 ((List.range 12).foldl (fun a i => if out (64 + i) || out (38 + i / 2) then a else a + 2 ^ i) 0)

/-- Step 3 (R459). -/
def State.measureAll (s : State) : State :=
  let ts := bootObjects.map fun o => treated s.history o
  let skipped := fun (o : Nat) => treated s.history o == 2
  let out := (List.range 44).filter skipped
  let s := s.extend 0 (sha384 (nthD s.fwSlots s.fwActive []))
  let s := s.extend 1 (sha384 (Config.decisionBytes (1 :: ts)))
  (s.extend 2 (sha384 (Config.decisionBytes (2 :: (mapWithout skipped).toNat :: out)))).log 3 0 0

/-- A chiplet taken out of service; a bottom layer takes its whole stack with it (R460). -/
def State.mapOut (s : State) (chip : Nat) : State :=
  let gone := if isLayer chip && bottomOf chip == chip then [chip, chip + 1, chip + 2, chip + 3] else [chip]
  gone.foldl (fun (s : State) i => s.setDie i { s.die i with role := 3 }) s

/-- Step 4 (R459, R460): an object trained as its history says, with the outcome recorded. What fails is out of service
for the rest of the boot; an HBM stack that does not, of a MEM die in service, appears in HBMMAP (R453). -/
def State.trainObj (s : State) (o : Nat) (fails : Bool) : State :=
  let outcome := stackOutcome s.history o fails
  let s := s.log 4 outcome o
  if o < 64 then (if 2 ≤ outcome then s.mapOut o else s)
  else if outcome < 2 ∧ (s.die (38 + (o - 64) / 2)).role ≠ 3 then
    { s with hbmmap := s.hbmmap ||| BitVec.ofNat 12 (2 ^ (o - 64)) }
  else s

/-- The minimum population is reached (R461): one MEM die with one HBM stack, and one DMX stack. -/
def State.enough (s : State) : Bool :=
  let reach := fun (i : Nat) => s.present i && s.pathTo 0 i
  ((List.range 12).any fun i => s.hbmmap.getLsbD i && reach (38 + i / 2))
    && (List.range 8).any fun k => reach (1 + 4 * k)

/-- The cooling class that the board straps (R453). -/
def strapCool (x : BitVec 2) : Nat := if x = 2 then 2 else 1

/-- A boot ends in recovery (R461). -/
def State.recover (s : State) (fail : Nat) : State := { s with recov := true, fail := fail, booting := none }

/-- Step 0 reads the journal from its store (R459, R460). -/
def State.readJournal (s : State) : State :=
  let js := s.readStore
  { s with journal := js, boots := (bootsOf js + 1) % 2 ^ 32 }

/-- Step 5 (R459): HBM, tarn and the tables of the GSD written zero, and every granule tag 0; every write of a whole granule
replaces its check bits (R427). -/
def State.initMemory (s : State) : State :=
  { s with mem := [], tags := [], bad := [], shut := false, version := 1 }

/-- The next entry of the journal and what the boot does with it (R459 to R462): the step in progress ends, or the next
object of step 4 is trained. Each call makes at most one entry. -/
def State.bootDo (s : State) (b : Boot) : State :=
  match s.bootStep with
  | 0 =>
    let s := s.readJournal
    match s.tripped with
    | some c => { s with tripped := none }.log 0 2 c
    | none => { s.log 0 0 0 with bootStep := 1 }
  | 1 => { s.log 1 0 0 with bootStep := 2 }
  | 2 =>
    if imageOk (nthD s.fwSlots s.fwActive []) then { s.log 2 0 0 with bootStep := 3 }
    else if b.second then (s.log 2 2 0).recover 1
    else
      let other := 1 - s.fwActive
      { s.log 2 2 0 with bootStep := 1, fwActive := other, fwNext := other, booting := some { b with second := true } }
  | 3 => { s.measureAll with bootStep := 4 }
  | 4 => match bootObjects[b.trained]? with
    | some o => { s.trainObj o (b.found.failing.contains o) with booting := some { b with trained := b.trained + 1 } }
    | none =>
      let s := { s with timeBase := { s.timeBase with lock := b.found.lock } }
      if b.found.minPaths && s.enough then { s with bootStep := 5 } else s.recover 2
  | 5 => { s.initMemory.log 5 0 0 with bootStep := 6 }
  | _ => { s.log 6 0 0 with ready := true, booting := none }

/-- A boot goes on before a turn or does not, which is free: other agents may read its step, or reset the package, at any
point of it (R459). -/
def State.bootTurn (s : State) : State :=
  match s.booting with
  | none => s
  | some b =>
    let (x, s) := s.draw
    if x % 2 = 0 then s.bootDo b else s

/-- POWER_GOOD (R459 to R462): a boot begins, and the tick is 0; good rails change nothing for a package that boots or has
booted. -/
def execPowerGood (b : BootInputs) (s : State) : Result :=
  event (if s.bootPending then
      { s with powered := true, tick := 0, cool := strapCool b.strap, boots := (s.boots + 1) % 2 ^ 32
               fail := if s.tripped.isSome then 3 else 0, booting := some ⟨b, false, 0⟩ }
    else s)

/-- PCIE_RESET (R451, R436). -/
def execPcieReset (s : State) : Result := event (if s.powered then s.restart else s)

/-- Power gone (R460): a loss while an entry of the journal is being written cuts the write of its copies at any byte, so
that a reader finds the old entry or the new one. -/
def State.loseNow (s : State) (torn : Bool) : State :=
  let s := match s.booting with
    | some b =>
      if torn then
        let (x, s) := s.draw
        let t := s.bootDo b
        match t.journal with
        | e :: _ => s.putCopies e.seq (tornCopies (x % 65) (s.copiesAt e.seq) (t.copiesAt e.seq))
        | [] => s
      else s
    | none => s
  { s.restart with powered := false }

/-- POWER_LOSS (R451, R460). -/
def execPowerLoss (torn : Bool) (s : State) : Result := event (if s.powered then s.loseNow torn else s)

/-- THERMAL_TRIP (R462): power goes, and the next boot knows the chiplet. -/
def execThermalTrip (chip : Nat) (s : State) : Result :=
  event (if s.powered then { s.loseNow false with tripped := some chip } else s)

/-! ## ATTEST, FW_STAGE, JOURNAL_CLEAR (R463, R464, R468) -/

/-- Bytes that a command reads, from the host or from the I3C buffer. -/
def State.cmdRead (s : State) (c : Cmd) (a n : Nat) : List Byte := Memory.readN (if c.i3c then s.i3c else s.host) a n
/-- Bytes that a command writes there. -/
def State.cmdWrite (s : State) (c : Cmd) (a : Nat) (bs : List Byte) : State :=
  if c.i3c then { s with i3c := Memory.writeN s.i3c a bs } else { s with host := Memory.writeN s.host a bs }

/-- Bytes of the I3C buffer. -/
def i3cBytes : Nat := 65536

/-- A range that a command may name: in the I3C buffer it lies within it. -/
def cmdRange (c : Cmd) (a n : Nat) : Bool := a % 8 == 0 && (!c.i3c || decide (a + n ≤ i3cBytes))

/-- A command of R463 that I3C carries too: once READY, or, where it may, in recovery. -/
def eitherPort (recovery : Bool) (c : Cmd) (f : State → CM State) (s : State) : Result :=
  event (
    if s.ready || (recovery && s.recov) then (match f s with | .ok t => t | .error t => t)
    else if s.recov then (match s.declines (α := Unit) c with | .ok _ => s | .error t => t)
    else s)

/-- The signed body of a report (R464). -/
def State.reportBody (s : State) (nonce : List Byte) : List Byte :=
  (s.meas.flatMap measBytes) ++ nonce ++ leBytes 8 s.boots
  ++ leBytes 8 (Config.imageVersion (nthD s.fwSlots s.fwActive [])) ++ leBytes 8 s.version ++ List.replicate 8 0

/-- ATTEST (R463, R464). -/
def execAttest (c : Cmd) (s : State) : Result :=
  eitherPort false c (fun s => do
    s.must c (zeros [c.w2, c.w3, c.w4, c.w5] && cmdRange c c.w0.toNat 32 && cmdRange c c.w1.toNat 544) stBadArg
    let body := s.reportBody (s.cmdRead c c.w0.toNat 32)
    let sig := deviceSign s.drawn body
    let s := { s with drawn := s.drawn + 64 }
    .ok ((s.cmdWrite c c.w1.toNat (body ++ beBytes 48 sig.1 ++ beBytes 48 sig.2)).cmdDone c stOk 0)) s

/-- FW_STAGE (R463). -/
def execFwStage (c : Cmd) (s : State) : Result :=
  eitherPort true c (fun s => do
    s.must c (zeros [c.w2, c.w3, c.w4, c.w5] && cmdRange c c.w0.toNat c.w1.toNat) stBadArg
    let image := s.cmdRead c c.w0.toNat c.w1.toNat
    s.must c (imageOk image) stBadArg
    let other := 1 - s.fwActive
    .ok ({ s with fwSlots := setNth s.fwSlots other image, fwNext := other }.cmdDone c stOk 0)) s

/-- JOURNAL_CLEAR (R460, R463). -/
def execJournalClear (c : Cmd) (s : State) : Result :=
  eitherPort true c (fun s => do
    s.must c (zeros [c.w0, c.w1, c.w2, c.w3, c.w4, c.w5]) stBadArg
    let seq := match s.journal with | e :: _ => e.seq | [] => 2 ^ 32
    .ok ({ s with journalClear := seq }.cmdDone c stOk 0)) s

/-! ## I3C (R468) -/

/-- Where a message's entry stands, beyond the I3C buffer: its STATUS and RESULT go back to the sender from there. -/
def i3cEntry : Nat := i3cBytes

/-- A command from I3C carried out (R468). -/
def State.i3cCommand (s : State) (entry : List Byte) : Result :=
  let s := { s with i3c := Memory.writeN s.i3c i3cEntry entry }
  let c := cmdAt s.i3c i3cEntry true s.tick
  match (Memory.read s.i3c i3cEntry).toNat with
  | 0x16 => execAttest c s
  | 0x17 => execFwStage c s
  | 0x18 => execJournalClear c s
  | n =>
    event (if (cmdOf n c).isNone then s.cmdDone c stBadArg 0
      else match s.declines (α := Unit) c with | .ok _ => s | .error t => t)

/-- Commands from I3C whose turn in the serialising order has come: every command of the ring that arrived before them has
started (R468). -/
def State.i3cTurn : Nat → State → State
  | 0, s => s
  | n + 1, s =>
    match s.i3cWait with
    | [] => s
    | (entry, wr) :: rest =>
      if wr != s.mcRd && (s.mcBells.any fun b => b.1 == wr) then s
      else match { s with i3cWait := rest }.i3cCommand entry with
        | .next t => State.i3cTurn n t
        | _ => s

/-- I3C_MCTP_MESSAGE (R468): a message whose payload is a command entry, which waits for the commands that arrived before
it. DESIGN CHOICE: what a message holds beyond the entry stands in the I3C buffer, from its start, before the command is
carried out (log entry 145). -/
def execI3cMctpMessage (entry : List Byte) (s : State) : Result :=
  if entry.length < 64 ∨ (!s.ready ∧ !s.recov) then event s
  else
    let s := { s with i3c := Memory.writeN s.i3c 0 ((entry.drop 64).take i3cBytes) }
    if s.i3cWait.isEmpty && (s.mcRd == s.mcWr || !s.ready) then s.i3cCommand (entry.take 64)
    else event { s with i3cWait := s.i3cWait ++ [(entry.take 64, s.mcWr)] }

end Sys2Proof.Machine
end

