-- ==== Sys2Proof/Machine/Vector.lean ====
section
/-! DEFINITION. Vector words of X (R202 to R227, R230): arithmetic, comparisons, masks, axis moves, conversions,
scratchpad transfers, ROT.BASE. -/

namespace Sys2Proof.Machine

/-! ## What every X word shares (R203 to R206) -/

/-- The literal, zero-extended (R204). -/
def litZ (w1 : Option W1) : Word := match w1 with | some w => w.lit.setWidth 64 | none => 0

/-- X waits for a write of VROT by C at an earlier position (R232). -/
def State.vrotReady (s : State) : M Unit := if s.owes .c Instr.writesVrot then blocked 8 else .ok ()

/-- k8 to k15 are no destinations while a rotating loop is open (R55). -/
def State.stageFree (s : State) (n : Nat) : M Unit :=
  if s.core.stageOpen && decide (8 ≤ n) then raise 0x05 else .ok ()

/-- An X word that reads or writes vector registers. -/
def vecWord (f : Rrr) (body : State → M State) (s : State) : Result :=
  runWord f.hdr f.w1.isSome false (fun s => seqM do
    s.vrotReady
    body s) s

/-- The union of the flags of the active elements (R205). -/
def flagsOf : List Bool → List (Nat × Flags) → Flags
  | m :: ms, r :: rs => (if m then r.2 else 0) ||| flagsOf ms rs
  | _, _ => 0

/-- A function applied element by element to three sources. -/
def map3 {α : Type} (fn : Nat → Nat → Nat → α) : List Nat → List Nat → List Nat → List α
  | a :: as, b :: bs, d :: ds => fn a b d :: map3 fn as bs ds
  | _, _, _ => []

/-- Elements of D as they stand. -/
def State.oldV (s : State) (f : Rrr) (w : Nat) : List Nat := s.core.velems w (s.core.vphys f.d.toNat)

/-- A result written to D under the mask, with the flags of its active elements (R205). -/
def State.putV (s : State) (f : Rrr) (w : Nat) (rs : List (Nat × Flags)) : State :=
  let c := s.core
  let m := maskBits w (c.kreg f.fl.toNat)
  let c := c.writeV f.d w f.fl.toNat (rs.map fun r => r.1)
  s.setCore (c.raiseFp (flagsOf m rs))

/-- A form that reads A, B and the old D, element by element. -/
def vecTer (f : Rrr) (fn : Nat → Nat → Nat → Nat × Flags) (s : State) : Result :=
  vecWord f (fun s => do
    let w := typeBits f.ty.toNat
    let lit := litVal f.ty.toNat f.w1
    let (a, s) ← s.vsrc f.a w lit
    let (b, s) ← s.vsrc f.b w lit
    .ok (s.putV f w (map3 fn a b (s.oldV f w)))) s

/-- A form that reads A and B. -/
def vecBin (f : Rrr) (fn : Nat → Nat → Nat × Flags) (s : State) : Result := vecTer f (fun a b _ => fn a b) s

/-- A form that reads A alone. -/
def vecUn (f : Rrr) (fn : Nat → Nat × Flags) (s : State) : Result :=
  vecWord f (fun s => do
    let w := typeBits f.ty.toNat
    let (a, s) ← s.vsrc f.a w (litVal f.ty.toNat f.w1)
    .ok (s.putV f w (a.map fn))) s

/-- A comparison into mask D: bits of inactive elements are cleared (R205). -/
def vecCmp (f : Rrr) (fn : Nat → Nat → Bool × Flags) (s : State) : Result :=
  vecWord f (fun s => do
    s.stageFree f.d.toNat
    let w := typeBits f.ty.toNat
    let lit := litVal f.ty.toNat f.w1
    let (a, s) ← s.vsrc f.a w lit
    let (b, s) ← s.vsrc f.b w lit
    let c := s.core
    let m := maskBits w (c.kreg f.fl.toNat)
    let rs := (a.zip b).map fun e => fn e.1 e.2
    let bits := (m.zip rs).map fun e => e.1 && e.2.1
    let fl := flagsOf m (rs.map fun r => (0, r.2))
    .ok (s.setCore ((c.setK f.d.toNat (maskOf w bits)).raiseFp fl))) s

/-- The IEEE format of a word's TYPE. -/
def Rrr.fmt (f : Rrr) : FFmt := fmtOf f.ty.toNat

/-! ## Floating point (R208 to R210) -/

/-- A binary floating form. -/
def floatBin (f : Rrr) (g : FFmt → Nat → Val → Val → Nat × Flags) (s : State) : Result :=
  vecBin f (fun a b => g (Rrr.fmt f) f.rs.toNat ((Rrr.fmt f).decode a) ((Rrr.fmt f).decode b)) s

/-- FADD (R208). -/
def execFadd (f : Rrr) (s : State) : Result := floatBin f FFmt.add s
/-- FSUB (R208). -/
def execFsub (f : Rrr) (s : State) : Result := floatBin f (fun t m a b => t.add m a b.negate) s
/-- FMUL (R208). -/
def execFmul (f : Rrr) (s : State) : Result := floatBin f FFmt.mul s
/-- FDIV (R208). -/
def execFdiv (f : Rrr) (s : State) : Result := floatBin f FFmt.div s
/-- FSQRT (R208). -/
def execFsqrt (f : Rrr) (s : State) : Result :=
  vecUn f (fun a => (Rrr.fmt f).sqrt f.rs.toNat ((Rrr.fmt f).decode a)) s
/-- FMA (R208). -/
def execFma (f : Rrr) (s : State) : Result :=
  let t := Rrr.fmt f
  vecTer f (fun a b d => t.fma f.rs.toNat (t.decode a) (t.decode b) (t.decode d)) s
/-- FMS (R208). -/
def execFms (f : Rrr) (s : State) : Result :=
  let t := Rrr.fmt f
  vecTer f (fun a b d => t.fma f.rs.toNat (t.decode a) (t.decode b) (t.decode d).negate) s

/-- FMIN and FMAX on bit patterns, with NV for a signalling NaN (R209). -/
def FFmt.minMaxFl (t : FFmt) (max_ : Bool) (a b : Nat) : Nat × Flags :=
  (t.minMax max_ a b, snanFlag (t.decode a) (t.decode b))

/-- FMIN (R209). -/
def execFmin (f : Rrr) (s : State) : Result := vecBin f ((Rrr.fmt f).minMaxFl false) s
/-- FMAX (R209). -/
def execFmax (f : Rrr) (s : State) : Result := vecBin f ((Rrr.fmt f).minMaxFl true) s
/-- FABS (R209). -/
def execFabs (f : Rrr) (s : State) : Result :=
  vecUn f (fun a => (a % 2 ^ ((Rrr.fmt f).width - 1), 0)) s
/-- FNEG (R209). -/
def execFneg (f : Rrr) (s : State) : Result :=
  vecUn f (fun a => (a ^^^ 2 ^ ((Rrr.fmt f).width - 1), 0)) s

/-- A floating comparison by condition code: whether it holds, and NV (R210). -/
def floatCmp (cond : Nat) (a b : Val) : Bool × Flags :=
  let nan := a.isNan || b.isNan
  let quiet := snanFlag a b
  let loud : Flags := if nan then flagNV else 0
  match cond with
  | 0 => (!nan && Val.eq a b, quiet)
  | 1 => (nan || !Val.eq a b, quiet)
  | 2 => (!nan && Val.lt a b, loud)
  | 3 => (!nan && (Val.lt a b || Val.eq a b), loud)
  | 4 => (!nan && Val.lt b a, loud)
  | 5 => (!nan && (Val.lt b a || Val.eq a b), loud)
  | 6 => (nan, quiet)
  | _ => (!nan, quiet)

/-- FCMP (R210). -/
def execFcmp (f : Rrr) (s : State) : Result :=
  let t := Rrr.fmt f
  vecCmp f (fun a b => floatCmp f.rs.toNat (t.decode a) (t.decode b)) s

/-! ## Integers (R212, R213) -/

/-- An integer form, by the scalar function of the same name (R212). -/
def intBin (f : Rrr) (g : ITy → Word → Word → Word) (s : State) : Result :=
  let t := ITy.ofCode f.ty.toNat
  vecBin f (fun a b => ((g t (BitVec.ofNat 64 a) (BitVec.ofNat 64 b)).toNat % 2 ^ t.w, 0)) s

/-- An exact integer function, as `intBin` takes one (R114). -/
def intOp (g : Int → Int → Int) (t : ITy) (a b : Word) : Word := t.write (g (t.read a.toNat) (t.read b.toNat))
/-- A bitwise function. -/
def bitOp (g : Nat → Nat → Nat) (_ : ITy) (a b : Word) : Word := BitVec.ofNat 64 (g a.toNat b.toNat)

/-- IADD (R212). -/
def execIadd (f : Rrr) (s : State) : Result := intBin f (intOp (· + ·)) s
/-- ISUB (R212). -/
def execIsub (f : Rrr) (s : State) : Result := intBin f (intOp (· - ·)) s
/-- IMUL (R212). -/
def execImul (f : Rrr) (s : State) : Result := intBin f (intOp (· * ·)) s
/-- IMULH (R212). -/
def execImulh (f : Rrr) (s : State) : Result :=
  intBin f (fun t => intOp (fun a b => Int.fdiv (a * b) (2 ^ t.w : Nat)) t) s
/-- IMIN (R212). -/
def execImin (f : Rrr) (s : State) : Result := intBin f (intOp min) s
/-- IMAX (R212). -/
def execImax (f : Rrr) (s : State) : Result := intBin f (intOp max) s
/-- IAND (R212). -/
def execIand (f : Rrr) (s : State) : Result := intBin f (bitOp (· &&& ·)) s
/-- IOR (R212). -/
def execIor (f : Rrr) (s : State) : Result := intBin f (bitOp (· ||| ·)) s
/-- IXOR (R212). -/
def execIxor (f : Rrr) (s : State) : Result := intBin f (bitOp (· ^^^ ·)) s
/-- ISHL (R212, R117). -/
def execIshl (f : Rrr) (s : State) : Result :=
  intBin f (fun t => bitOp (fun a b => a * 2 ^ (b % t.w)) t) s
/-- ISHR (R212, R117). -/
def execIshr (f : Rrr) (s : State) : Result :=
  intBin f (fun t => bitOp (fun a b => a / 2 ^ (b % t.w)) t) s
/-- ISHRA (R212, R117). -/
def execIshra (f : Rrr) (s : State) : Result :=
  intBin f (fun t a b => t.write (Int.fdiv (toSigned t.w a.toNat) (2 ^ (b.toNat % t.w) : Nat))) s
/-- IABS (R212). -/
def execIabs (f : Rrr) (s : State) : Result :=
  let t := ITy.ofCode f.ty.toNat
  vecUn f (fun a => ((t.read a).natAbs % 2 ^ t.w, 0)) s

/-- An integer comparison by condition code (R213). -/
def intCmp (cond : Nat) (a b : Int) : Bool :=
  match cond with
  | 0 => a == b | 1 => a != b | 2 => decide (a < b) | 3 => decide (a ≤ b) | 4 => decide (b < a) | _ => decide (b ≤ a)

/-- ICMP (R213). -/
def execIcmp (f : Rrr) (s : State) : Result :=
  let t := ITy.ofCode f.ty.toNat
  vecCmp f (fun a b => (intCmp f.rs.toNat (t.read a) (t.read b), 0)) s

/-! ## Selection, masks, moves (R214 to R216) -/

/-- VSEL (R214): FL is the selector; every element is written. -/
def execVsel (f : Rrr) (s : State) : Result :=
  vecWord f (fun s => do
    let w := typeBits f.ty.toNat
    let lit := litVal f.ty.toNat f.w1
    let (a, s) ← s.vsrc f.a w lit
    let (b, s) ← s.vsrc f.b w lit
    let c := s.core
    .ok (s.setCore (c.writeV f.d w 0 (selectMask (maskBits w (c.kreg f.fl.toNat)) a b)))) s

/-- A mask form over all 2,048 bits (R215). -/
def maskWord (f : Rrr) (fn : BitVec 2048 → BitVec 2048 → BitVec 2048) (s : State) : Result :=
  runWord f.hdr f.w1.isSome false (fun s => seqM do
    s.stageFree f.d.toNat
    let c := s.core
    .ok (s.setCore (c.setK f.d.toNat (fn (c.kreg f.a.toNat) (c.kreg f.b.toNat))))) s

/-- KAND (R215). -/
def execKand (f : Rrr) (s : State) : Result := maskWord f (· &&& ·) s
/-- KOR (R215). -/
def execKor (f : Rrr) (s : State) : Result := maskWord f (· ||| ·) s
/-- KXOR (R215). -/
def execKxor (f : Rrr) (s : State) : Result := maskWord f (· ^^^ ·) s
/-- KNOT (R215). -/
def execKnot (f : Rrr) (s : State) : Result := maskWord f (fun a _ => ~~~a) s

/-- MOV.V (R216): with RS[1], code 0xFE or 0xFF of A names v254 or v255. -/
def execMovV (f : Rrr) (s : State) : Result :=
  vecWord f (fun s => do
    let w := typeBits f.ty.toNat
    let (a, s) ← if f.rs.getLsbD 1 then (.ok (s.core.velems w (s.core.vphys f.a.toNat), s) : M (List Nat × State))
      else s.vsrc f.a w (litVal f.ty.toNat f.w1)
    .ok (s.putV f w (a.map fun x => (x, 0)))) s

/-! ## Axis moves (R218 to R220) -/

/-- A register's elements rearranged: element (row, e) of the result comes from (fst, snd) of the source. -/
def rearrange (w : Nat) (from_ : Nat → Nat → Nat × Nat) (a : List Nat) : List Nat :=
  let n := rowElems w
  let arr := a.toArray
  (List.range (16 * n)).map fun i =>
    let p := from_ (i / n) (i % n)
    arr.getD (p.1 * n + p.2) 0

/-- An axis move with a count (R218). -/
def axisMove (f : Rrr) (from_ : Nat → Nat → Nat → Nat → Nat × Nat) (s : State) : Result :=
  vecWord f (fun s => do
    let w := typeBits f.ty.toNat
    let (a, s) ← s.vsrc f.a w (litVal f.ty.toNat f.w1)
    let (c, s) ← s.src f.b (litZ f.w1)
    .ok (s.putV f w ((rearrange w (from_ (rowElems w) c.toNat) a).map fun x => (x, 0)))) s

/-- ROTR (R218). -/
def execRotr (f : Rrr) (s : State) : Result :=
  axisMove f (fun n c row e => (row, (e + n - c % n) % n)) s
/-- ROTC (R218). -/
def execRotc (f : Rrr) (s : State) : Result :=
  axisMove f (fun _ c row e => ((row + 16 - c % 16) % 16, e)) s
/-- BCR (R218). -/
def execBcr (f : Rrr) (s : State) : Result := axisMove f (fun n c row _ => (row, c % n)) s
/-- BCC (R218). -/
def execBcc (f : Rrr) (s : State) : Result := axisMove f (fun _ c _ e => (c % 16, e)) s

/-- The exact sum of floating values rounded once to nearest even (R219). DESIGN CHOICE: the sum of contributions that are
all -0 is -0 (log entry 122). -/
def FFmt.sumOnce (t : FFmt) (vs : List Val) : Nat × Flags :=
  if vs.any Val.isNan then (t.qnan, flagNV)
  else
    let p := vs.any fun x => x.isInf && !x.neg?
    let n := vs.any fun x => x.isInf && x.neg?
    if p && n then (t.qnan, flagNV) else if p then (t.inf false, 0) else if n then (t.inf true, 0)
    else t.roundDy 0 (vs.foldl (fun d x => d.add x.dy) ⟨0, 0⟩) (!vs.isEmpty && vs.all fun x => x.isZero && x.neg?)

/-- A floating reduction (R219). -/
def FFmt.reduce (t : FFmt) (op : Nat) (xs : List Nat) : Nat × Flags :=
  let vs := xs.map t.decode
  if op = 0 then t.sumOnce vs
  else
    let max_ := op == 2
    let nums := xs.filter fun x => !(t.decode x).isNan
    let fl : Flags := if vs.any Val.isSnan then flagNV else 0
    match nums with
    | [] => (if xs.isEmpty then t.inf max_ else t.qnan, fl)
    | y :: ys => (ys.foldl (t.minMax max_) y, fl)

/-- An integer reduction (R219). -/
def ITy.reduce (t : ITy) (op : Nat) (xs : List Nat) : Nat :=
  let pick := fun (better : Int → Int → Bool) (empty : Int) => match xs with
    | [] => wrapNat t.w empty
    | y :: ys => ys.foldl (fun m x => if better (t.read x) (t.read m) then x else m) y
  match op with
  | 0 => xs.foldl (· + ·) 0 % 2 ^ t.w
  | 1 => pick (fun a b => decide (a < b)) t.hi
  | 2 => pick (fun a b => decide (b < a)) t.lo
  | 3 => xs.foldl (· &&& ·) (2 ^ t.w - 1)
  | 4 => xs.foldl (· ||| ·) 0
  | _ => xs.foldl (· ^^^ ·) 0

/-- The elements that contribute to one line of an axis. -/
def contributions (m : List Bool) (a : List Nat) (sel : Nat → Bool) : List Nat :=
  (((m.zip a).zipIdx).filter fun e => e.1.1 && sel e.2).map fun e => e.1.2

/-- REDR and REDC (R219): every element of D is written. -/
def reduceWord (f : Rrr) (rows : Bool) (s : State) : Result :=
  vecWord f (fun s => do
    let ty := f.ty.toNat
    let w := typeBits ty
    let n := rowElems w
    let (a, s) ← s.vsrc f.a w (litVal ty f.w1)
    let c := s.core
    let m := maskBits w (c.kreg f.fl.toNat)
    let red := fun (xs : List Nat) => if isFloatType ty then (fmtOf ty).reduce f.rs.toNat xs
      else ((ITy.ofCode ty).reduce f.rs.toNat xs, 0)
    let lines := (List.range (if rows then 16 else n)).map fun k =>
      red (contributions m a fun i => if rows then i / n == k else i % n == k)
    let arr := lines.toArray
    let rs := (List.range (16 * n)).map fun i => (arr.getD (if rows then i / n else i % n) (0, 0)).1
    let fl := lines.foldl (fun (x : Flags) r => x ||| r.2) 0
    let c := c.writeV f.d w 0 rs
    .ok (s.setCore (c.raiseFp fl))) s

/-- REDR (R219). -/
def execRedr (f : Rrr) (s : State) : Result := reduceWord f true s
/-- REDC (R219). -/
def execRedc (f : Rrr) (s : State) : Result := reduceWord f false s

/-- TRB (R220). -/
def execTrb (f : Rrr) (s : State) : Result :=
  vecWord f (fun s => do
    let (a, s) ← s.vsrc f.a 32 (litVal f.ty.toNat f.w1)
    .ok (s.putV f 32 ((rearrange 32 (fun row e => (e % 16, e / 16 * 16 + row)) a).map fun x => (x, 0)))) s

/-! ## Conversions (R223 to R226) -/

/-- One element converted between TYPE codes (R223). -/
def cvtElem (src dst mode x : Nat) : Nat × Flags :=
  if isFloatType src then
    let v := (fmtOf src).decode x
    if isFloatType dst then (fmtOf dst).roundVal mode v
    else
      let t := ITy.ofCode dst
      let (z, fl) := t.ofVal mode v
      (wrapNat t.w z, fl)
  else
    let z := (ITy.ofCode src).read x
    if isFloatType dst then (fmtOf dst).roundVal mode (intVal z)
    else (wrapNat (ITy.ofCode dst).w (satInt (ITy.ofCode dst) z), 0)

/-- The source element of a destination element, if one maps to it (R223). -/
def cvtFrom (ns nd p row e : Nat) : Option Nat :=
  if ns ≤ nd then (if e / ns = p then some (row * ns + e % ns) else none) else some (row * ns + e + nd * p)

/-- CVT (R223). -/
def execCvt (f : Rrr) (s : State) : Result :=
  vecWord f (fun s => do
    let src := f.b.toNat % 16
    let p := f.b.toNat / 16 % 4
    let ws := typeBits src
    let wd := typeBits f.ty.toNat
    let nd := rowElems wd
    let (a, s) ← s.vsrc f.a ws (litVal src f.w1)
    let arr := a.toArray
    let rs := (s.oldV f wd).zipIdx.map fun e =>
      match cvtFrom (rowElems ws) nd p (e.2 / nd) (e.2 % nd) with
      | some i => cvtElem src f.ty.toNat f.rs.toNat (arr.getD i 0)
      | none => (e.1, (0 : Flags))
    .ok (s.putV f wd rs)) s

/-- Bits of an element of a narrow format (R224). -/
def narrowBits (fmt : Nat) : Nat :=
  match fmt with | 1 => 6 | 2 => 4 | 6 => 4 | 7 => 2 | 8 => 1 | _ => 8

/-- The exact value of a narrow code, and the flag it raises (R225). -/
def narrowVal (fmt code : Nat) : Val × Flags :=
  match fmt with
  | 0 => (kf8.decode code, 0)
  | 1 => (kf6.decode code, 0)
  | 2 => (kf4.decode code, 0)
  | 3 => (e4m3Decode code, 0)
  | 4 => (match e5m2.decode code with | .nan _ => .nan false | v => v, 0)
  | 5 => (intVal (toSigned 8 code), 0)
  | 6 => (intVal (toSigned 4 code), 0)
  | 7 => (intVal (trnValue code).1, if (trnValue code).2 then flagTRNBAD else 0)
  | _ => (intVal (code % 2 : Nat), 0)

/-- The narrow code of a value (R226). -/
def narrowOf (fmt : Nat) (v : Val) : Nat × Flags :=
  let int := fun (w : Nat) =>
    let t : ITy := ⟨true, w⟩
    let (z, fl) := t.ofVal 0 v
    (wrapNat w z, fl)
  match fmt with
  | 0 => kf8.sat v
  | 1 => kf6.sat v
  | 2 => kf4.sat v
  | 3 => satOcp false v
  | 4 => satOcp true v
  | 5 => int 8
  | 6 => int 4
  | 7 => toTrn v
  | _ => toB1 v

/-- The narrow code of an integer (R226): int8 and int4 saturate with no flag. -/
def narrowOfInt (fmt : Nat) (z : Int) : Nat × Flags :=
  match fmt with
  | 5 => (wrapNat 8 (satInt ⟨true, 8⟩ z), 0)
  | 6 => (wrapNat 4 (satInt ⟨true, 4⟩ z), 0)
  | _ => narrowOf fmt (intVal z)

/-- The bits of a register as one number: bit 32 L + j is bit j of lane L (R224). -/
def lanesNat (ls : List (BitVec 32)) : Nat := ls.foldr (fun l (a : Nat) => l.toNat + a * 2 ^ 32) 0
/-- Lanes of such a number. -/
def natLanes (x : Nat) : List (BitVec 32) := (List.range 1024).map fun i => BitVec.ofNat 32 (natBits x (32 * i) 32)

/-- The first bit of a part (R224). -/
def partBit (fmt w p : Nat) : Nat := p * (elemCount w * narrowBits fmt / 8) * 8

/-- UNPK (R225). A broadcast source fills the view that TYPE selects (R52, R203), and the packed bytes are those of the
lanes it fills (log entry 114). -/
def execUnpk (f : Rrr) (s : State) : Result :=
  vecWord f (fun s => do
    let ty := f.ty.toNat
    let w := typeBits ty
    let nb := narrowBits f.rs.toNat
    let (a, s) ← s.vsrc f.a w (litVal ty f.w1)
    let x := lanesNat (lanesOf w a)
    let base := partBit f.rs.toNat w f.b.toNat
    let rs := (List.range (elemCount w)).map fun i =>
      let (v, fl) := narrowVal f.rs.toNat (natBits x (base + i * nb) nb)
      if isFloatType ty then (((fmtOf ty).roundVal 0 v).1, fl)
      else (wrapNat w (match v with | .fin n m e => (if n then -(m : Int) else m) * 2 ^ e.toNat | _ => 0), fl)
    .ok (s.putV f w rs)) s

/-- PACK (R226): the fields of active elements replaced. -/
def execPack (f : Rrr) (s : State) : Result :=
  vecWord f (fun s => do
    let ty := f.ty.toNat
    let w := typeBits ty
    let nb := narrowBits f.rs.toNat
    let (a, s) ← s.vsrc f.a w (litVal ty f.w1)
    let c := s.core
    let q := c.vphys f.d.toNat
    let m := maskBits w (c.kreg f.fl.toNat)
    let rs := a.map fun x => if isFloatType ty then narrowOf f.rs.toNat ((fmtOf ty).decode x)
      else narrowOfInt f.rs.toNat ((ITy.ofCode ty).read x)
    let old := lanesNat (c.vlanes q)
    let base := partBit f.rs.toNat w f.b.toNat
    let part := ((m.zip rs).zipIdx).foldr (fun e (acc : Nat) =>
      acc * 2 ^ nb + (if e.1.1 then e.1.2.1 % 2 ^ nb else natBits old (base + e.2 * nb) nb)) 0
    let len := elemCount w * nb
    let new := old % 2 ^ base + part * 2 ^ base + old / 2 ^ (base + len) * 2 ^ (base + len)
    let c := c.setVlanes q (natLanes new)
    .ok (s.setCore (c.raiseFp (flagsOf m rs)))) s

/-! ## Scratchpad transfers (R222) -/

/-- The scratchpad offset of a VLD or VST, checked. -/
def State.vecAddr (s : State) (f : Rrr) : M (Nat × State) := do
  let (a, s) ← s.src f.a (litZ f.w1)
  let (b, s) ← s.src f.b (litZ f.w1)
  let o := (a + b).toNat
  if o % 16 ≠ 0 then raise 0x20
  else if spadBytes < o + 4096 then raise 0x23
  else .ok (o, s)

/-- Check 9 for scratchpad bytes without a generic address (R418). -/
def State.watchLocal (s : State) (key off n : Nat) (write : Bool) : M State :=
  s.watchAt key { addr := BitVec.ofNat 64 (s.localVa key off), size := n, write := write } 0

/-- Lanes from bytes. -/
def bytesLanes : List Byte → List (BitVec 32)
  | a :: b :: c :: d :: bs => (d ++ c ++ b ++ a) :: bytesLanes bs
  | _ => []

/-- All ones in the lane bits that active elements cover. -/
def laneMask (w : Nat) (k : BitVec 2048) : List (BitVec 32) :=
  lanesOf w ((maskBits w k).map fun b => if b then 2 ^ w - 1 else 0)

/-- Lanes replaced where a lane mask is set. -/
def mergeLanes : List (BitVec 32) → List (BitVec 32) → List (BitVec 32) → List (BitVec 32)
  | m :: ms, n :: ns, o :: os => ((n &&& m) ||| (o &&& ~~~m)) :: mergeLanes ms ns os
  | _, _, os => os

/-- The granules of the executing word's transfer that are done. -/
def State.partsDone (s : State) : Nat := match (s.core.eng s.curEng).waitVal with | some g => g.toNat | none => 0

/-- A transfer goes on with its next granule, or, after the last, is done. -/
def State.partsNext (s : State) (last g : Nat) : M State :=
  if last ≤ g then .ok s
  else .error (.wait (s.modEng fun x => { x with waitVal := some (BitVec.ofNat 64 (g + 1)) }) 0)

/-- Granule `g` of a VLD read into register `q` under a lane mask (R222, R294). -/
def State.vldGranule (s : State) (key o q g : Nat) (take : Bool) (lm : List (BitVec 32)) : State :=
  let s := s.unhold key key
  let c := s.cell key
  let new := mergeLanes ((lm.drop (4 * g)).take 4) (bytesLanes (c.spadRead (o + 16 * g) 16))
    (FMap.getRange c.v (1024 * q + 4 * g) 4 0)
  let c := { c with v := FMap.setRange c.v (1024 * q + 4 * g) new 0
                    fe := if take then FMap.erase c.fe (o / 16 + g) else c.fe }
  s.setCell key (c.noteRead s.curClass .x c.engX.pos c.engX.pc (o + 16 * g) 16)

/-- VLD (R222): one granule at a time, in increasing order; with `.wait` each once it is full. -/
def execVld (f : Rrr) (s : State) : Result :=
  vecWord f (fun s0 => do
    let w := typeBits f.ty.toNat
    let key := s0.curKey
    let (o, s) ← s0.vecAddr f
    let g := s0.partsDone
    s.spadReady key key (o + 16 * g) 16
    let s ← s.watchLocal key o 4096 false
    if f.rs.getLsbD 0 && !(s.cell key).bankTurn key .x (o / 16 + g) true then
      .error (.wait ((s0.holdAt key key (o / 16 + g) true).modEng fun x =>
        { x with waitVal := some (BitVec.ofNat 64 g) }) 9)
    else
      (if 255 ≤ g then s else s0).vldGranule key o (s0.core.vphys f.d.toNat) g (f.rs.getLsbD 1)
        (laneMask w (s0.core.kreg f.fl.toNat)) |>.partsNext 255 g) s

/-- The bytes of active elements, as writes from an offset on. -/
def activeWrites (w off : Nat) : List Bool → List Nat → List ByteWrite
  | m :: ms, e :: es =>
    (if m then writesOf off (leBytes (w / 8) e) else []) ++ activeWrites w (off + w / 8) ms es
  | _, _ => []

/-- VST (R222): one granule at a time, in increasing order; the bit of each granule it writes is set (R162). A granule
that passes a watched read stops it (R294). -/
def execVst (f : Rrr) (s : State) : Result :=
  vecWord f (fun s0 => do
    let w := typeBits f.ty.toNat
    let key := s0.curKey
    let (es, s) ← s0.vsrc f.d w (litVal f.ty.toNat f.w1)
    let (o, s) ← s.vecAddr f
    let g := s0.partsDone
    s.spadReady key key (o + 16 * g) 16
    let s ← s.watchLocal key o 4096 true
    let s := if 255 ≤ g then s else s0
    let c := s.core
    let ws := (activeWrites w o (maskBits w (c.kreg f.fl.toNat)) es).filter fun b => b.at_ / 16 == o / 16 + g
    if ws.any fun b => s.ordWaits key .x c.engX.pos b.at_ 1 then blocked 8
    else match ws.findSome? fun b => c.passedRead .x c.engX.pos b.at_ 1 with
    | some (r, at_) => orderWatch r at_
    | none => (s.setCell key (c.spadPut ws (if ws.isEmpty then [] else [o / 16 + g]))).partsNext 255 g) s

/-! ## ROT.BASE (R230) -/

/-- ROT.BASE (R230). -/
def execRotBase (f : Rrr) (s : State) : Result :=
  vecWord f (fun s =>
    let c := s.core
    .ok (s.setCore { c with vrotBase := f.d.toNat, vrotSize := f.a.toNat + 1, vrotOff := 0 })) s

/-- ROT.BASE.OFF (R230). -/
def execRotBaseOff (f : Rrr) (s : State) : Result :=
  vecWord f (fun s => .ok (s.setCore { s.core with vrotSize := 0, vrotOff := 0 })) s

end Sys2Proof.Machine
end

