-- ==== Sys2Proof/Machine/Matrix.lean ====
section
/-! DEFINITION. The matrix engine (R243 to R274): the nest tables, the walk, MGO, MZERO, MLOAD and MDRAIN, with the
sums of R40 to R47. -/

namespace Sys2Proof.Machine

/-! ## The tables that C writes (R244 to R256) -/

/-- A write of the shadow table by C (R244, R246). -/
def shadowWord (f : Rrr) (write : Nest → Word → Word → Nest) (s : State) : Result :=
  runWord f.hdr f.w1.isSome false (fun s => seqM do
    s.afterTakers .m Instr.isMgo
    let lit := litVal 0 f.w1
    let (a, s) ← s.src f.a lit
    let (b, s) ← s.src f.b lit
    let c := s.core
    .ok (s.setCore { c with shadow := write c.shadow a b, shv := true })) s

/-- MSET (R247). -/
def execMset (f : Rrr) (s : State) : Result :=
  shadowWord f (fun t a _ => { t with fields := FMap.set t.fields f.d.toNat a 0 }) s

/-- MOPD (R252): D[0] names the operand, D[2:1] the kind. -/
def execMopd (f : Rrr) (s : State) : Result :=
  shadowWord f (fun t a b =>
    let o : Opd := ⟨f.d.toNat / 2, a, b⟩
    if f.d.getLsbD 0 then { t with opdB := o } else { t with opdA := o }) s

/-- MSCALE (R256). -/
def execMscale (f : Rrr) (s : State) : Result :=
  shadowWord f (fun t a b => if f.d.getLsbD 0 then { t with sclB := (a, b) } else { t with sclA := (a, b) }) s

/-! ## Levels and the walk (R248, R251) -/

/-- A level of a nest as an MGO takes it. -/
structure Lv where
  used : Bool
  role : Nat
  cKind : Bool
  trip : Nat
  cdim : Nat
  /-- the index of a C-kind level, from SPAT -/
  spat : Nat
  deriving DecidableEq, Repr

/-- A field of a table. -/
def Nest.field (t : Nest) (f : Nat) : Nat := (FMap.get t.fields f 0).toNat

/-- Level `l`, its trip from a loop register where TSRC says so. -/
def Nest.level (t : Nest) (lcs : List Nat) (l : Nat) : Lv :=
  let w := t.field l
  let src := w.testBit 60
  { used := src || natBits w 0 32 != 0, role := natBits w 62 2, cKind := w.testBit 61
    trip := if src then nthD lcs l 0 else natBits w 0 32, cdim := natBits w 57 3
    spat := natBits (t.field 0x20) (4 * l) 4 }

/-- The six levels, outermost first. -/
def Nest.levels (t : Nest) (lcs : List Nat) : List Lv := (List.range 6).map (t.level lcs)

/-- Levels that add to the walk: used and iterated by the cell. -/
def Lv.walks (l : Lv) : Bool := l.used && !l.cKind
def Lv.isK (l : Lv) : Bool := l.used && l.role == 2

/-- The product of the trips of levels that a test selects. -/
def tripsOf (ls : List Lv) (p : Lv → Bool) : Nat := (ls.filter p).foldl (fun n l => n * l.trip) 1

/-- Output points of a nest, and its K extent. -/
def pointCount (ls : List Lv) : Nat := tripsOf ls fun l => l.walks && !l.isK
def kExtent (ls : List Lv) : Nat := tripsOf ls Lv.isK

/-- The index tuple of output point `p` and K index `k`: level 5 is the fastest of each. -/
def tuple (ls : List Lv) (p k : Nat) : List Nat :=
  (ls.foldr (fun l (x : Nat × Nat × List Nat) =>
    let (p, k, is) := x
    if !l.used then (p, k, 0 :: is)
    else if l.cKind then (p, k, l.spat :: is)
    else if l.isK then (p, k / l.trip, k % l.trip :: is)
    else (p / l.trip, k, p % l.trip :: is)) (p, k, [])).2.2

/-- A flat index of the levels a test selects, outer to inner. -/
def flatIx (ls : List Lv) (is : List Nat) (p : Lv → Bool) : Nat :=
  (ls.zip is).foldl (fun n x => if p x.1 then n * x.1.trip + x.2 else n) 0

def flatM (ls : List Lv) (is : List Nat) : Nat := flatIx ls is fun l => l.walks && l.role == 0
def flatN (ls : List Lv) (is : List Nat) : Nat := flatIx ls is fun l => l.walks && l.role == 1
def flatO (ls : List Lv) (is : List Nat) : Nat := flatIx ls is fun l => l.walks && l.role == 3

/-- An element's coordinates: element, row and tile (R251). -/
structure Coord where
  e : Int
  r : Int
  t : Int
  deriving DecidableEq, Repr

def Coord.add (a b : Coord) : Coord := ⟨a.e + b.e, a.r + b.r, a.t + b.t⟩

/-- What index `i` of level `l` adds to operand A's (`x` = 0x08) or B's (`x` = 0x10) coordinates (R249). -/
def Nest.stride (t : Nest) (x l i : Nat) : Coord :=
  let w := t.field (x + l)
  let d := (i : Int) * toSigned 32 w
  match natBits w 62 2 with
  | 0 => ⟨d, 0, 0⟩
  | 1 => ⟨0, d, 0⟩
  | _ => ⟨0, 0, d⟩

/-- The accumulator element of an index tuple, before its range is checked. -/
def Nest.accOf (t : Nest) (ls : List Lv) (is : List Nat) : Int :=
  (ls.zip is).zipIdx.foldl (fun a x =>
    if x.1.1.used && !x.1.1.isK then a + (x.1.2 : Int) * toSigned 32 (t.field (0x18 + x.2)) else a)
    (natBits (t.field 0x21) 0 18 : Int)

/-! ## Convolution (R257, R258) -/

/-- The convolution words. -/
structure ConvP where
  n : Nat
  h : Nat
  w : Nat
  c : Nat
  sh : Nat
  sw : Nat
  dh : Nat
  dw : Nat
  ph : Nat
  pw : Nat
  foh : Int
  fow : Int
  deriving DecidableEq, Repr

def Nest.conv (t : Nest) : ConvP :=
  let a := t.field 0x28
  let b := t.field 0x29
  { n := natBits a 0 16, h := natBits a 16 16, w := natBits a 32 16, c := natBits a 48 16
    sh := natBits b 0 8, sw := natBits b 8 8, dh := natBits b 16 8, dw := natBits b 24 8
    ph := natBits b 32 8, pw := natBits b 40 8, foh := toSigned 8 (natBits b 48 8), fow := toSigned 8 (natBits b 56 8) }

/-- The index of the level with a CDIM; 0 when the nest has none. -/
def cdimIx (ls : List Lv) (is : List Nat) (d : Nat) : Nat :=
  match (ls.zip is).find? fun x => x.1.used && x.1.cdim == d with | some x => x.2 | none => 0

/-- The input row or column of an output index and a filter index. -/
def convIn (o s : Nat) (f : Nat) (fo : Int) (d pad : Nat) : Int :=
  (o : Int) * s + ((f : Int) + fo) * d - pad

/-- Where operand A of a tuple comes from. -/
inductive ASrc where
  /-- an element at coordinates -/
  | at_ (c : Coord)
  /-- the pad value -/
  | pad
  deriving DecidableEq, Repr

/-- The output point of a tuple is masked: its image index is at or beyond N (R258). -/
def Nest.masked (t : Nest) (conv : Bool) (ls : List Lv) (is : List Nat) : Bool :=
  conv && decide (t.conv.n ≤ cdimIx ls is 1)

/-- Coordinates of operand B. -/
def Nest.coordB (t : Nest) (ls : List Lv) (is : List Nat) : Coord :=
  (ls.zip is).zipIdx.foldl (fun c x => if x.1.1.used then c.add (t.stride 0x10 x.2 x.1.2) else c) ⟨0, 0, 0⟩

/-- Coordinates of operand A (R251, R257). -/
def Nest.coordA (t : Nest) (conv : Bool) (ls : List Lv) (is : List Nat) : ASrc :=
  let base := (ls.zip is).zipIdx.foldl (fun (c : Coord) x =>
    if x.1.1.used && !(conv && x.1.1.cdim != 0) then c.add (t.stride 0x08 x.2 x.1.2) else c) ⟨0, 0, 0⟩
  if !conv then .at_ base
  else
    let p := t.conv
    let ih := convIn (cdimIx ls is 2) p.sh (cdimIx ls is 4) p.foh p.dh p.ph
    let iw := convIn (cdimIx ls is 3) p.sw (cdimIx ls is 5) p.fow p.dw p.pw
    if ih < 0 ∨ p.h ≤ ih ∨ iw < 0 ∨ p.w ≤ iw then .pad
    else .at_ (base.add ⟨cdimIx ls is 6, ((cdimIx ls is 1 : Int) * p.h + ih) * p.w + iw, 0⟩)

/-! ## Formats (R259, R260) -/

/-- Bits of an element of a format code. -/
def mgoBits (f : Nat) : Nat := nthD [16, 16, 8, 8, 8, 6, 4, 8, 4, 2, 1, 32] f 8

/-- The exact value of an element of a floating format. -/
def mgoVal (f : Nat) (x : Nat) : Val :=
  match f with
  | 0 => bf16.decode x
  | 1 => f16.decode x
  | 2 => e4m3Decode x
  | 3 => e5m2.decode x
  | 4 => kf8.decode x
  | 5 => kf6.decode x
  | 6 => kf4.decode x
  | _ => f32.decode x

/-- The integer of an element of an integer format, trn among them (R31). -/
def mgoInt (f : Nat) (x : Nat) : Int :=
  match f with
  | 7 => toSigned 8 x
  | 8 => toSigned 4 x
  | _ => (trnValue x).1

/-- The formats, semiring and scale use that R260 lists. -/
def mgoCombination (fa fb sr : Nat) (scaled : Bool) : Bool :=
  let eight := fun (x : Nat) => decide (2 ≤ x ∧ x ≤ 5)
  if sr = 0 then
    (fa == fb && (fa ≤ 1 || fa == 7 || fa == 8 || fa == 11) && !scaled)
    || (eight fa && eight fb) || (fa == 6 && fb == 6)
    || (((fa == 9 && fb == 7) || (fa == 7 && fb == 9)) && !scaled)
  else if sr = 3 then fa == 10 && fb == 10 && !scaled
  else fa == fb && fa ≤ 1 && !scaled

/-- The accumulator of a format pair is i32. -/
def mgoIntAcc (fa : Nat) : Bool := fa == 7 || fa == 8 || fa == 9

/-- The identity of a semiring (R47, R261). -/
def mgoIdentity (sr : Nat) : BitVec 32 := match sr with | 1 => 0x7F800000 | 2 => 0xFF800000 | _ => 0

/-- PADVAL converted into operand A's format (R68, R258), as element bits. -/
def padBits (f : Nat) (pad : BitVec 32) : Nat :=
  let v := f32.decode pad.toNat
  let z := toSigned 32 pad.toNat
  match f with
  | 0 => (bf16.roundVal 0 v).1
  | 1 => (f16.roundVal 0 v).1
  | 2 => (satOcp false v).1
  | 3 => (satOcp true v).1
  | 4 => (kf8.sat v).1
  | 5 => (kf6.sat v).1
  | 6 => (kf4.sat v).1
  | 7 => wrapNat 8 (satInt ⟨true, 8⟩ z)
  | 8 => wrapNat 4 (satInt ⟨true, 4⟩ z)
  | 9 => wrapNat 2 (max (-1) (min 1 z))
  | 10 => if z = 0 then 0 else 1
  | _ => (f32.roundVal 0 v).1

/-! ## Sums (R40 to R47) -/

/-- MSTAT flags: OVF, UNF, TRNBAD. -/
abbrev MFlags := BitVec 3

/-- A negative zero. -/
def Val.isNegZero : Val → Bool | .fin true 0 _ => true | _ => false

/-- The exact sum of values under R42. A sum of negative zeros alone is -0 (R22; log entry 122). -/
def sumVals (vs : List Val) : Val :=
  if vs.any Val.isNan then .nan false
  else match vs.filter Val.isInf with
    | [] => if !vs.isEmpty && vs.all Val.isNegZero then .fin true 0 0 else (vs.foldl (fun (a : Dy) v => a.add v.dy) ⟨0, 0⟩).val
    | i :: is => if is.all fun x => x == i then i else .nan false

/-- A product under R42: 0 times an infinity is NaN. -/
def product (a b : Val) : Val := (Val.mulExact a b).getD (.nan false)

/-- The bf16 halves of a finite f32 (R45). -/
def splitBf16 (x : Nat) : Val × Val :=
  let hi := bf16.decode (x / 2 ^ 16)
  (hi, bf16.decode (bf16.roundVal 0 ((f32.decode x).dy.sub hi.dy).val).1)

/-- What a pair of f32 elements adds to the group sum (R45). -/
def pairX3 (a b : Nat) : List Val :=
  let va := f32.decode a
  let vb := f32.decode b
  if va.isFin && vb.isFin then
    let (ah, al) := splitBf16 a
    let (bh, bl) := splitBf16 b
    [product ah bh, product ah bl, product al bh]
  else [product va vb]

/-- group_value (R43): bits and flags. -/
def groupValue (sum : Val) (sa sb : Nat) : Nat × MFlags :=
  if sa = 0xFF ∨ sb = 0xFF then (f32.qnan, 0)
  else match sum with
    | .nan _ => (f32.qnan, 0)
    | .inf n => (f32.inf n, 0)
    | .fin n m e =>
      if m = 0 then (0, 0)
      else
        let e := e + ((sa : Int) + sb - 254)
        if log2Quot m 1 + e < -149 then (0, 2)
        else
          let q := quantum m 1 e 24
          let (k, _) := roundAt 0 n m 1 e q
          if 128 ≤ log2Quot k 1 + q then (f32.maxFin n, 1)
          else ((f32.roundQuot 0 n m 1 e).1, 0)

/-- The accumulator add of R44. -/
def accAdd (c g : Nat) : Nat × MFlags :=
  let (r, fl) := f32.add 0 (f32.decode c) (f32.decode g)
  (r, if fl &&& flagOF != 0 then 1 else 0)

/-- A saturating i32 add (R46). -/
def accAddInt (c : Nat) (z : Int) : Nat × MFlags :=
  let y := toSigned 32 c + z
  let t : ITy := ⟨true, 32⟩
  (wrapNat 32 (satInt t y), if satInt t y = y then 0 else 1)

/-- min_num or max_num over a group, to whose products a short group adds the identity (R47). -/
def groupMinMax (max_ : Bool) : List Nat → Option Nat
  | [] => none
  | p :: ps => some (ps.foldl (fun g p => f32.minMax max_ g p) p)

/-- The update of an accumulator element by one group of element pairs (R41 to R47). DESIGN CHOICE: under or-and an old
word other than 0 and 1, which only MLOAD can leave, counts as 1 (log entry 120). -/
def groupUpdate (fa fb sr : Nat) (c : Nat) (pairs : List (Nat × Nat)) (sa sb : Nat) : Nat × MFlags :=
  match sr with
  | 0 =>
    if mgoIntAcc fa then
      let bad := pairs.any fun p => (fa == 9 && (trnValue p.1).2) || (fb == 9 && (trnValue p.2).2)
      let (r, fl) := accAddInt c (pairs.foldl (fun (z : Int) p => z + mgoInt fa p.1 * mgoInt fb p.2) 0)
      (r, fl ||| (if bad then 4 else 0))
    else
      let vs := if fa = 11 then pairs.flatMap fun p => pairX3 p.1 p.2
        else pairs.map fun p => product (mgoVal fa p.1) (mgoVal fb p.2)
      let (g, fg) := groupValue (sumVals vs) sa sb
      let (r, fl) := accAdd c g
      (r, fg ||| fl)
  | 3 => (if c ≠ 0 ∨ pairs.any fun p => p.1 % 2 == 1 && p.2 % 2 == 1 then 1 else 0, 0)
  | _ =>
    let ps := pairs.map fun p =>
      let a := mgoVal fa p.1
      let b := mgoVal fb p.2
      if sr = 1 then (f32.add 0 a b).1 else (f32.mul 0 a b).1
    match groupMinMax (sr == 2) (if ps.length < 32 then ps ++ [(mgoIdentity sr).toNat] else ps) with
    | some g => (f32.minMax (sr == 2) c g, 0)
    | none => (c, 0)

/-! ## The checks of a table (R250) -/

/-- Item 1: reserved fields and trip sources. -/
def Nest.fieldsOk (t : Nest) : Bool :=
  let levelOk := fun (l : Nat) =>
    let w := t.field l
    let unused := !w.testBit 60 && natBits w 0 32 == 0
    natBits w 36 21 == 0 && natBits w 57 3 != 7
      && (if w.testBit 60 then natBits w 0 32 == 0 else natBits w 32 4 == 0) && (!unused || w == 0)
  let strideOk := fun (f : Nat) => natBits (t.field f) 32 30 == 0 && natBits (t.field f) 62 2 != 3
  let opdOk := fun (o : Opd) => match o.kind with
    | 0 => natBits o.wa.toNat 48 16 == 0 && natBits o.wb.toNat 35 29 == 0
    | 1 => natBits o.wa.toNat 8 24 == 0 && natBits o.wa.toNat 48 16 == 0 && natBits o.wb.toNat 32 32 == 0
    | _ => natBits o.wa.toNat 16 48 == 0 && o.wb == 0
  let sclOk := fun (p : Word × Word) => natBits p.1.toNat 48 16 == 0 && natBits p.2.toNat 32 32 == 0
  (List.range 6).all (fun l => levelOk l && strideOk (0x08 + l) && strideOk (0x10 + l)
      && natBits (t.field (0x18 + l)) 32 32 == 0)
    && natBits (t.field 0x20) 24 40 == 0 && natBits (t.field 0x21) 18 46 == 0
    && opdOk t.opdA && opdOk t.opdB && sclOk t.sclA && sclOk t.sclB

/-- Items 2 to 6. -/
def Nest.levelsOk (ls : List Lv) : Bool :=
  ls.all (fun l => !(l.used && l.cKind && 2 ≤ l.role)
      && (if l.used && l.cKind then decide (l.spat < l.trip) else l.spat == 0))
    && tripsOf ls (fun l => l.walks && l.role == 0) ≤ 128 && tripsOf ls (fun l => l.walks && l.role == 1) ≤ 256
    && tripsOf ls (fun l => l.used && l.cKind && l.role == 0) ≤ 4
    && tripsOf ls (fun l => l.used && l.cKind && l.role == 1) ≤ 4
    && kExtent ls ≤ 2 ^ 32

/-- Item 7 (R257). -/
def Nest.cdimsOk (t : Nest) (conv : Bool) (ls : List Lv) : Bool :=
  let used := ls.filter fun l => l.used && l.cdim != 0
  if !conv then used.isEmpty
  else
    let p := t.conv
    used.all (fun l => l.role == (if l.cdim ≤ 3 then 0 else 2)) && (used.map fun l => l.cdim).Nodup
      && p.n != 0 && p.h != 0 && p.w != 0 && p.c != 0 && p.sh != 0 && p.sw != 0 && p.dh != 0 && p.dw != 0
      && used.all fun l => l.cdim != 6 || decide (l.trip ≤ p.c)

/-- The extreme indices of a level. -/
def Lv.ends (l : Lv) : List Nat := if !l.used then [0] else if l.cKind then [l.spat] else [0, l.trip - 1]

/-- Sums of one choice from each list. -/
def cornerSums (xs : List (List Coord)) : List Coord :=
  xs.foldl (fun cs x => cs.flatMap fun c => x.map fun d => c.add d) [⟨0, 0, 0⟩]

/-- Least and greatest of a list of ranges. -/
def spanOf : List (Int × Int) → Option (Int × Int)
  | [] => none
  | r :: rs => some (rs.foldl (fun a b => (min a.1 b.1, max a.2 b.2)) r)

/-- The input rows (or columns) that lie inside the image, over output indices and filter indices: least and
greatest. -/
def convSpan (os : List Nat) (s fTrip : Nat) (fo : Int) (d pad size : Nat) : Option (Int × Int) :=
  spanOf (os.filterMap fun o =>
    let b := convIn o s 0 fo d pad
    let lo := max 0 (-(Int.fdiv b d))
    let hi := min ((fTrip : Int) - 1) (Int.fdiv ((size : Int) - 1 - b) d)
    if lo ≤ hi then some (b + lo * d, b + hi * d) else none)

/-- The indices a CDIM takes, and its trip; without a level, index 0 alone. -/
def cdimRange (ls : List Lv) (d : Nat) : List Nat × Nat :=
  match ls.find? fun l => l.used && l.cdim == d with
  | some l => (if l.cKind then [l.spat] else List.range l.trip, l.trip)
  | none => ([0], 1)

/-- The extreme rows that convolution adds, when some element is no pad; with `masked`, those of masked tuples among
them. -/
def Nest.pixelEnds (t : Nest) (masked : Bool) (ls : List Lv) : List Coord :=
  let p := t.conv
  let fr := match ls.find? fun l => l.used && l.cdim == 4 with | some l => l.trip | none => 1
  let fs := match ls.find? fun l => l.used && l.cdim == 5 with | some l => l.trip | none => 1
  let ci := match ls.find? fun l => l.used && l.cdim == 6 with | some l => l.trip | none => 1
  match spanOf (((cdimRange ls 1).1.filter fun i => masked || decide (i < p.n)).map fun (i : Nat) => ((i : Int), (i : Int))),
      convSpan (cdimRange ls 2).1 p.sh fr p.foh p.dh p.ph p.h, convSpan (cdimRange ls 3).1 p.sw fs p.fow p.dw p.pw p.w with
  | some (g0, g1), some (h0, h1), some (w0, w1) =>
    [⟨0, (g0 * p.h + h0) * p.w + w0, 0⟩, ⟨(ci : Int) - 1, (g1 * p.h + h1) * p.w + w1, 0⟩]
  | _, _, _ => []

/-- The extreme coordinates of an operand. DEDUCED: a masked tuple is an index tuple of the nest, whose addresses R250
checks; it reads nothing, so R255 does not check its row (log entry 146). -/
def Nest.corners (t : Nest) (isA conv masked : Bool) (ls : List Lv) : List Coord :=
  let x := if isA then 0x08 else 0x10
  let plain := ls.zipIdx.filterMap fun e =>
    if e.1.used && !(isA && conv && e.1.cdim != 0) then some (e.1.ends.map fun i => t.stride x e.2 i) else none
  if isA && conv then
    match t.pixelEnds masked ls with
    | [] => []
    | ps => cornerSums (ps :: plain)
  else cornerSums plain

/-- Bytes an element touches, from the bit it begins at. -/
def bytesTouched (bits bit : Nat) : Nat := (bit + bits + 7) / 8

/-- RP and the rotation code of an operand. -/
def Opd.rp (o : Opd) : Nat := natBits o.wa.toNat 32 16
def Opd.rotc (o : Opd) : Nat := if o.kind = 0 then natBits o.wb.toNat 32 3 else 0

/-- The first byte of a row of a scratchpad or register operand (R253, R254). -/
def Opd.rowAt (o : Opd) (c : Coord) : Int :=
  let base := if o.kind = 0 then natBits o.wa.toNat 0 32 else natBits o.wa.toNat 0 8 * 4096
  (base : Int) + c.t * natBits o.wb.toNat 0 32 + c.r * o.rp

/-- The bytes of an element in a scratchpad or register operand (R253, R254), and the bit of the first one at which
it begins. With ROT each byte is rotated within its row. -/
def Opd.bytesOf (o : Opd) (bits : Nat) (c : Coord) : List Int × Nat :=
  let bit := ((c.e * bits) % 8).toNat
  ((List.range (bytesTouched bits bit)).map fun (i : Nat) =>
    let cb := Int.fdiv (c.e * bits) 8 + (i : Int)
    o.rowAt c + (if o.rotc = 0 then cb else (cb + c.r * 16 * 2 ^ (o.rotc - 1)) % max 1 o.rp), bit)

/-- The bytes of an element lie below the end of its file. -/
def Opd.bytesIn (o : Opd) (bits : Nat) (c : Coord) : Bool :=
  (o.bytesOf bits c).1.all fun b => decide (0 ≤ b ∧ b < if o.kind = 0 then spadBytes else 2 ^ 20)

/-- An extreme element lies in its operand's range (R251 to R255); where a rotation moves its bytes, they stand in
`Nest.rotOk`. -/
def Opd.inRange (o : Opd) (bits : Nat) (c : Coord) : Bool :=
  let n := bytesTouched bits ((c.e * bits) % 8).toNat
  decide (0 ≤ c.e) && decide (0 ≤ c.r) && decide (0 ≤ c.t) && (o.kind == 2
    || (if o.rotc = 0 then o.bytesIn bits c
        else o.rp != 0 && o.rp % 16 == 0 && decide (Int.fdiv (c.e * bits) 8 + n ≤ o.rp)))

/-- The coordinate of an operand at an index tuple; none for a pad. -/
def Nest.coord (t : Nest) (isA conv : Bool) (ls : List Lv) (is : List Nat) : Option Coord :=
  if isA then (match t.coordA conv ls is with | .pad => none | .at_ c => some c) else some (t.coordB ls is)

/-- Every byte of a rotated operand lies below 8 MiB (R253): where the extreme rows lie there whole, all do; else each
index tuple is looked at, since rotation moves the last byte away from the extreme ones. -/
def Nest.rotOk (t : Nest) (isA conv : Bool) (ls : List Lv) (o : Opd) (bits : Nat) : Bool :=
  o.rotc == 0 || ((t.corners isA conv true ls).all fun c => decide (0 ≤ o.rowAt c ∧ o.rowAt c + o.rp ≤ spadBytes))
    || (List.range (pointCount ls)).all fun p => (List.range (kExtent ls)).all fun k =>
      match t.coord isA conv ls (tuple ls p k) with
      | some c => o.bytesIn bits c
      | none => true

/-- Item 8, at the extreme index values. -/
def Nest.rangesOk (t : Nest) (fa fb : Nat) (conv scaled : Bool) (ls : List Lv) : Bool :=
  if ls.any fun l => l.used && l.trip == 0 then true
  else
    let accs := (ls.zipIdx.foldl (fun (xs : List Int) e =>
      if e.1.used && !e.1.isK then
        xs.flatMap fun a => e.1.ends.map fun (i : Nat) => a + (i : Int) * toSigned 32 (t.field (0x18 + e.2))
      else xs) [(natBits (t.field 0x21) 0 18 : Int)])
    let top := fun (p : Lv → Bool) => tripsOf ls (fun l => l.walks && p l) - 1
    let scl := fun (p : Word × Word) (row : Nat) =>
      decide (natBits p.1.toNat 0 32 + top (fun l => l.role == 3) * natBits p.2.toNat 0 32
        + row * natBits p.1.toNat 32 16 + (kExtent ls - 1) / 32 < spadBytes)
    (t.corners true conv true ls).all (t.opdA.inRange (mgoBits fa)) && (t.corners false conv true ls).all (t.opdB.inRange (mgoBits fb))
      && t.rotOk true conv ls t.opdA (mgoBits fa) && t.rotOk false conv ls t.opdB (mgoBits fb)
      && accs.all (fun a => decide (0 ≤ a ∧ a < 262144))
      && (!scaled || (scl t.sclA (top fun l => l.role == 0) && scl t.sclB (top fun l => l.role == 1)))

/-- The whole of R250. -/
def Nest.ok (t : Nest) (fa fb : Nat) (conv scaled : Bool) (ls : List Lv) : Bool :=
  t.fieldsOk && Nest.levelsOk ls && t.cdimsOk conv ls && t.rangesOk fa fb conv scaled ls

/-! ## MGO (R259 to R265) -/

/-- The fields of an MGO's EXT32. -/
structure MgoF where
  fa : Nat
  fb : Nat
  sr : Nat
  init : Bool
  conv : Bool
  scaled : Bool
  deriving DecidableEq, Repr

def mgoF (f : Rrr) : MgoF :=
  let e := extOf f.w1
  ⟨natBits e 28 4, natBits e 24 4, natBits e 21 3, e.testBit 20, e.testBit 19, e.testBit 18⟩

/-- The values of the loop registers that levels take as trips, by level. -/
def State.nestTrips (s : State) (t : Nest) : List Nat → M (List Nat)
  | [] => .ok []
  | l :: ls => do
    let w := t.field l
    let v ← if w.testBit 60 then s.readLc (natBits w 32 4) else .ok 0
    .ok (v :: (← s.nestTrips t ls))

/-- MGO: its issue. -/
def execMgo (f : Rrr) (s : State) : Result :=
  runWord f.hdr f.w1.isSome false (fun s => seqM do
    let m := mgoF f
    if s.owes .c Instr.writesNest then blocked 11
    else if 4 ≤ m.sr then raise 0x61
    else if !mgoCombination m.fa m.fb m.sr m.scaled then raise 0x60
    else do
      let t := s.core.shadow
      let lcs ← s.nestTrips t (List.range 6)
      if !t.ok m.fa m.fb m.conv m.scaled (t.levels lcs) then raise 0x62
      else do
        let j := { s.newJob f.hdr (.mgo f) with nest := t, aux := lcs }
        let c := s.core
        -- R441: the stamp of this tile, and the end of those that wait for a drain
        let open_ := c.stamps.map fun (x : Stamp) => if x.drain.isNone then { x with noDrain := true } else x
        let mine : Stamp := { mgo := j.id, trbase := c.trbase, stall := c.trctl.getLsbD 1, t0 := c.stampT0.getD c.reachM
                              issue := s.tick, tile := c.sttile, start := none, last := s.tick, stop := none, drain := none
                              out := none, noDrain := false }
        let c := { c with active := t, shv := false, stampT0 := none
                          stamps := open_ ++ (if c.trctl.getLsbD 0 then [mine] else []) }
        .ok (((s.setCore c).accept j).produceStamps s.curKey)) s

/-- The bits of `n` bytes from a bit on. -/
def bitsOf (bs : List Byte) (bit bits : Nat) : Nat := natBits (leNat bs) bit bits

/-- Bytes of the vector register file seen as one array (R254). -/
def Cell.vregBytes (c : Cell) (at_ n : Nat) : List Byte :=
  (List.range n).map fun i =>
    let b := at_ + i
    (FMap.get c.v (1024 * (b / 4096) + b % 4096 / 4) 0).extractLsb' (8 * (b % 4)) 8

/-- Scratchpad bytes read at their places, one place after another. -/
def State.localBytes (s : State) (key : Nat) (j : Job) : List Int → M (List Byte × State)
  | [] => .ok ([], s)
  | b :: bs => do
    let (x, s) ← s.localRead key j b.toNat 1 true
    let (xs, s) ← s.localBytes key j bs
    .ok (x ++ xs, s)

/-- An element of an operand read (R253 to R255), with the checks of R255 for a tile record. -/
def State.nestElem (s : State) (key : Nat) (j : Job) (o : Opd) (r : TileRec) (bits : Nat) (c : Coord) :
    M (Nat × State) := do
  let (at_, bit) := o.bytesOf bits c
  let b := (at_.headD 0).toNat
  match o.kind with
  | 0 => do
    let (bs, s) ← if o.rotc = 0 then s.localRead key j b at_.length true else s.localBytes key j at_
    .ok (bitsOf bs bit bits, s)
  | 1 => .ok (bitsOf ((s.cell key).vregBytes b at_.length) bit bits, s)
  | _ => do
    let a := addrPlus r.base (c.t * r.ppitch + c.r * r.pitch + (c.e.toNat * bits / 8 : Nat))
    let (bs, s) ← s.jobRead key j false false a at_.length
    .ok (bitsOf bs bit bits, s)

/-- The tile records of operands A and B. -/
def Job.recA (j : Job) : TileRec := j.trec
def Job.recB (j : Job) : TileRec := if j.nest.opdA.kind = 2 then (j.trecs.drop 1).headD j.trec else j.trec

/-- The levels of an MGO's nest. -/
def Job.lvs (j : Job) : List Lv := j.nest.levels j.aux

/-- Groups of an MGO (R40). -/
def Job.groups (j : Job) : Nat := (kExtent j.lvs + 31) / 32

/-- A read of a nest (R253 to R256): an element of A or of B, or the scale byte of A or of B. -/
inductive NestRead where
  | elemA | elemB | scaleA | scaleB
  deriving DecidableEq, Repr

/-- The number of a read within an output point, at a K index or, for a scale, a group. -/
def Job.readNo (j : Job) (p k : Nat) (w : NestRead) : Nat :=
  4 * (p * kExtent j.lvs + k) + (match w with | .elemA => 0 | .elemB => 1 | .scaleA => 2 | .scaleB => 3)

/-- The number stands for a read. -/
def NestRead.ofNo (n : Nat) : NestRead :=
  match n % 4 with | 0 => .elemA | 1 => .elemB | 2 => .scaleA | _ => .scaleB

/-- A block scale read (R256). -/
def State.nestScale (s : State) (key : Nat) (j : Job) (m : MgoF) (p : Word × Word) (o row g : Nat) : M (Nat × State) :=
  if !m.scaled then .ok (127, s)
  else do
    let (bs, s) ← s.localRead key j
      (natBits p.1.toNat 0 32 + o * natBits p.2.toNat 0 32 + row * natBits p.1.toNat 32 16 + g) 1 true
    .ok ((bs.headD 0).toNat, s)

/-- A read of a nest performed. -/
def State.nestRead (s : State) (key : Nat) (j : Job) (m : MgoF) (p k : Nat) (w : NestRead) : M (Nat × State) :=
  let ls := j.lvs
  let is := tuple ls p k
  match w with
  | .elemA =>
    match j.nest.coordA m.conv ls is with
    | .pad => .ok (padBits m.fa j.pad, s)
    | .at_ c => s.nestElem key j j.nest.opdA j.recA (mgoBits m.fa) c
  | .elemB => s.nestElem key j j.nest.opdB j.recB (mgoBits m.fb) (j.nest.coordB ls is)
  | .scaleA => s.nestScale key j m j.nest.sclA (flatO ls is) (flatM ls is) k
  | .scaleB => s.nestScale key j m j.nest.sclB (flatO ls is) (flatN ls is) k

/-- The value of a read as its group takes it: as it was read ahead, or read now. -/
def State.nestTake (s : State) (key : Nat) (j : Job) (m : MgoF) (p k : Nat) (w : NestRead) : M (Nat × State) :=
  match FMap.find? j.reads (j.readNo p k w) with
  | some v => .ok (v, s)
  | none => s.nestRead key j m p k w

/-- The element pairs of one group of an output point. -/
def State.nestPairs (key : Nat) (j : Job) (m : MgoF) (p : Nat) : List Nat → State → M (List (Nat × Nat) × State)
  | [], s => .ok ([], s)
  | k :: ks, s => do
    let (a, s) ← s.nestTake key j m p k .elemA
    let (b, s) ← s.nestTake key j m p k .elemB
    let (rest, s) ← State.nestPairs key j m p ks s
    .ok ((a, b) :: rest, s)

/-- One group of an output point read and summed onto a value (R40, R41). -/
def State.nestGroup (s : State) (key : Nat) (j : Job) (m : MgoF) (p g c : Nat) : M (Nat × MFlags × State) := do
  let kx := kExtent j.lvs
  let (pairs, s) ← State.nestPairs key j m p ((List.range (min 32 (kx - 32 * g))).map fun i => 32 * g + i) s
  let (sa, s) ← s.nestTake key j m p g .scaleA
  let (sb, s) ← s.nestTake key j m p g .scaleB
  let (c, f) := groupUpdate m.fa m.fb m.sr c pairs sa sb
  .ok (c, f, s)

/-- The accumulator element of an output point. -/
def Job.accAt (j : Job) (p : Nat) : Nat := (j.nest.accOf j.lvs (tuple j.lvs p 0)).toNat
/-- An output point is masked. -/
def Job.pointMasked (j : Job) (m : MgoF) (p : Nat) : Bool := j.nest.masked m.conv j.lvs (tuple j.lvs p 0)

/-- An accumulator element, by its number over m0 to m7. -/
def Cell.accGet (c : Cell) (n : Nat) : BitVec 32 := FMap.get c.acc n 0
/-- An accumulator element written. -/
def Cell.accPut (c : Cell) (n : Nat) (v : BitVec 32) : Cell := { c with acc := FMap.set c.acc n v 0 }

/-- The reads of a group of an output point that are not performed yet (R40, R256). -/
def Job.groupReads (j : Job) (m : MgoF) (p g : Nat) : List Nat :=
  let ks := (List.range (min 32 (kExtent j.lvs - 32 * g))).map fun i => 32 * g + i
  let ns := ks.flatMap (fun k => [j.readNo p k .elemA, j.readNo p k .elemB])
    ++ (if m.scaled then [j.readNo p g .scaleA, j.readNo p g .scaleB] else [])
  ns.filter fun n => (FMap.find? j.reads n).isNone

/-- A read belongs to group `g` of output point `p`. -/
def Job.readOf (j : Job) (p g n : Nat) : Bool :=
  let k := n / 4 % kExtent j.lvs
  n / 4 / kExtent j.lvs == p && (if n % 4 < 2 then k / 32 else k) == g

/-- A group of an output point applied to its accumulator element (R258, R261), with those of its reads performed now that
are not yet; INIT sets the element to the identity before the first group that reaches it. -/
def State.nestApply (s : State) (key : Nat) (j : Job) (m : MgoF) (p g : Nat) : M State := do
  let at_ := j.accAt p
  let first := g == 0 && !(List.range p).any fun q => !j.pointMasked m q && j.accAt q == at_
  let c0 := if m.init && first then (mgoIdentity m.sr).toNat else ((s.cell key).accGet at_).toNat
  let (r, fl, s) ← s.nestGroup key j m p g c0
  let c := s.cell key
  let c := { (c.accPut at_ (BitVec.ofNat 32 r)).raiseM fl with void := FMap.set c.void at_ false false }
  .ok ((s.setCell key c).modJob key j.id fun (x : Job) => { x with reads := x.reads.filter fun e => !j.readOf p g e.1 })

/-- An MGO meets a cause at a group (R264): from then on only the groups below the least such group are applied to every
output point, and groups from it on to some. -/
def State.nestCause (s : State) (key : Nat) (j : Job) (g : Nat) (r : Raise) : State :=
  s.modJob key j.id fun (x : Job) => { x with late :=
    match x.late with
    | some (h, t) => if h ≤ g then some (h, t) else some (g, r.at_ j.eng j.pc j.pos)
    | none => some (g, r.at_ j.eng j.pc j.pos) }

/-- A group that a cause stands at or below (R264). -/
def Job.past (j : Job) (g : Nat) : Bool := match j.late with | some (h, _) => decide (h ≤ g) | none => false

/-- One step of group `g` of output point `p`: one of its reads performed, which one is free, or the group applied with
those that are left, so that each read falls before or after a write of another engine by itself (R262). -/
def State.nestGo (s : State) (key : Nat) (j : Job) (m : MgoF) (p g : Nat) : M (State × Bool) :=
  let (x, s) := s.draw
  let left := j.groupReads m p g
  if left.isEmpty || x % 2 == 0 then (s.nestApply key j m p g).map fun t => (t, true)
  else do
    let n := nthD left (x / 2 % left.length) 0
    let (v, s) ← s.nestRead key j m p (n / 4 % kExtent j.lvs) (NestRead.ofNo n)
    .ok (s.modJob key j.id fun (y : Job) => { y with reads := FMap.put y.reads n v }, false)

/-- Group `g` of output point `p` (R261, R264): the state, and the next group of the point. A masked point is marked
void (R258). -/
def State.nestPoint (key : Nat) (j : Job) (m : MgoF) (p g : Nat) (s : State) : M (State × Option (List Nat)) :=
  if j.pointMasked m p then
    let c := s.cell key
    .ok (s.setCell key { c with void := FMap.set c.void (j.accAt p) true false }, none)
  else if j.groups ≤ g || (j.past g && !Config.partialPoint j.id p g) then .ok (s, none)
  else match s.nestGo key j m p g with
    | .ok (t, true) => .ok (t, if g + 1 < j.groups then some [g + 1] else none)
    | .ok (t, false) => .ok (t, some [g])
    | .error (.cause r _) => .ok (if j.past g then s else s.nestCause key j g r, none)
    | .error e => if j.past g then .ok (s, none) else .error e

/-- A read performed ahead of group `g0` of output point `p0` (R255, R262): which one, if any, is free; one that is held
or meets a cause is left to its group. -/
def State.readAhead (s : State) (key : Nat) (j : Job) (m : MgoF) (p0 g0 : Nat) : State :=
  let (x, s) := s.draw
  match Config.readAhead x with
  | none => s
  | some n =>
    let ls := j.lvs
    let w := NestRead.ofNo n
    let p := n / 4 / kExtent ls
    let k := n / 4 % kExtent ls
    let gone := decide (p < p0) || (p == p0 && decide ((if n % 4 < 2 then k / 32 else k) < g0))
    if gone || pointCount ls ≤ p || (FMap.find? j.reads n).isSome || j.pointMasked m p then s
    else match s.nestRead key j m p k w with
      | .ok (v, t) => t.modJob key j.id fun (y : Job) => { y with reads := FMap.put y.reads n v }
      | .error _ => s

/-- The check of R255 on the rows of a tile record. -/
def Nest.recordOk (t : Nest) (isA conv : Bool) (ls : List Lv) (o : Opd) (bits : Nat) (r : TileRec) : Bool :=
  o.kind != 2 || (t.corners isA conv false ls).all fun c =>
    decide (c.r < r.rows) && decide (c.t < max r.planes 1) && decide (c.e.toNat * bits / 8 + bytesTouched bits (c.e.toNat * bits % 8) ≤ r.rbytes)

/-- The elements of an MGO: one for each output point. When it starts it reads its tile records, of an empty nest too
(log entry 121), and takes the pad value (R255, R258). -/
def State.mgoPlan (key : Nat) (j : Job) (f : Rrr) : Plan :=
  let m := mgoF f
  let ls := j.lvs
  let empty := ls.any fun l => l.used && l.trip == 0
  let t := j.nest
  let stamp := fun (s : State) (g : Stamp → Stamp) =>
    let c := s.cell key
    s.setCell key { c with stamps := c.stamps.map fun x => if x.mgo = j.id then g x else x }
  { prep := if j.started then none else some fun s => do
      let (j, s) ← if t.opdA.kind = 2 then s.takeRecord key j (natBits t.opdA.wa.toNat 0 16) else (.ok (j, s) : M (Job × State))
      let (j, s) ← if t.opdB.kind = 2 then s.takeRecord key j (natBits t.opdB.wa.toNat 0 16) else (.ok (j, s) : M (Job × State))
      .ok (s.modJob key j.id fun (x : Job) => { x with
        started := true, pad := (s.cell key).padval, trecs := j.trecs, early := j.early })
    check := if empty then none
      else if !t.recordOk true m.conv ls t.opdA (mgoBits m.fa) j.recA then
        some (tileCause 0xA2 (natBits t.opdA.wa.toNat 0 16))
      else if !t.recordOk false m.conv ls t.opdB (mgoBits m.fb) j.recB then
        some (tileCause 0xA2 (natBits t.opdB.wa.toNat 0 16))
      else none
    count := if empty then 0 else pointCount ls
    elem := fun p part s =>
      let s := stamp s fun x => if x.start.isNone then { x with start := some s.tick } else x
      let s := s.readAhead key j m p (part.headD 0)
      (State.nestPoint key ((s.cell key).job? j.id |>.getD j) m p (part.headD 0) s).map fun t =>
        (stamp t.1 fun x => { x with last := s.tick }, t.2)
    finish := fun s => .ok ((stamp s fun x => { x with
      start := some (x.start.getD x.issue), stop := some (if empty then x.issue else x.last) }).produceStamps key) }

/-! ## MZERO and MLOAD (R266, R267) -/

/-- The accumulator elements that an MGO updates. -/
def Job.points (j : Job) : List Nat := (List.range (pointCount j.lvs)).map j.accAt

/-- An earlier word of M still uses an accumulator: an MGO with an output point there, or a drain of it (R262). -/
def Cell.accBusy (c : Cell) (acc : Nat) : Bool :=
  c.jobs.any fun j => !j.finished && match j.ins with
    | .mgo _ => j.points.any fun n => n / 32768 == acc
    | .mdrainSpad f | .mdrainGlob f | .mdrainGlobAdd f | .mdrainPeer f => !j.sent && f.d.toNat == acc
    | _ => false

/-- Accumulator elements written from a number on, their void marks cleared. -/
def Cell.accPart (c : Cell) (at_ : Nat) (vs : List (BitVec 32)) : Cell :=
  { c with acc := FMap.setRange c.acc at_ vs 0, void := FMap.clearRange c.void at_ vs.length }

/-- An accumulator written whole, its void marks cleared. -/
def Cell.accFill (c : Cell) (acc : Nat) (vs : List (BitVec 32)) : Cell :=
  { c with acc := FMap.setRange c.acc (32768 * acc) vs 0, void := FMap.clearRange c.void (32768 * acc) 32768 }

/-- W works in an accumulator (R277). -/
def Cell.rowsAt (c : Cell) (acc : Nat) : Bool :=
  c.jobs.any fun j => Instr.isRgo j.ins && !j.finished && natBits (nthD j.timetable 0 0).toNat 0 3 == acc

/-- A step of a MZERO beside W (R277): the first element that is left is written, and any others, which are free. -/
def State.zeroStep (s : State) (acc : Nat) (v : BitVec 32) : M State :=
  let (x, s) := s.draw
  let c := s.core
  let left := (List.range 32768).filter fun n => !c.zeroed.testBit n
  let now := left.filter fun n => some n == left.head? || x.testBit n
  let c := now.foldl (fun (c : Cell) n => c.accPart (32768 * acc + n) [v]) c
  if now.length = left.length then .ok (s.setCore { c with zeroed := 0 })
  else .error (.wait ((s.setCore { c with zeroed := c.zeroed ||| now.foldl (fun m n => m + 2 ^ n) 0 }).modEng
    fun g => { g with waitVal := some 1 }) 0)

/-- MZERO (R266). Where W works in the accumulator, no order holds between their accesses, element by element (R277). -/
def execMzero (f : Rrr) (s : State) : Result :=
  runWord f.hdr f.w1.isSome false (fun s => seqM do
    let c := s.core
    if c.accBusy f.d.toNat then blocked 12
    else
      let v : BitVec 32 := match f.rs.toNat with | 1 => 0x7F800000 | 2 => 0xFF800000 | _ => 0
      if c.rowsAt f.d.toNat || c.zeroed ≠ 0 then s.zeroStep f.d.toNat v
      else .ok (s.setCore (c.accFill f.d.toNat (List.replicate 32768 v)))) s

/-- Bytes as 32-bit elements. -/
def wordsOf : List Byte → List (BitVec 32)
  | a :: b :: c :: d :: bs => BitVec.ofNat 32 (leNat [a, b, c, d]) :: wordsOf bs
  | _ => []

/-- MLOAD (R267): granule by granule, in increasing order, as stores beside it may be seen (R293). -/
def execMload (f : Rrr) (s : State) : Result :=
  runWord f.hdr f.w1.isSome false (fun s0 => seqM do
    let key := s0.curKey
    let (a, s) ← s0.src f.a (litVal 0 f.w1)
    let o := a.toNat
    if o % 16 ≠ 0 then raiseAt 0x20 a
    else if spadBytes < o + 131072 then raiseAt 0x23 a
    else if s.core.accBusy f.d.toNat then blocked 12
    else do
      let s ← s.watchLocal key o 131072 false
      let g := s0.partsDone
      let (bs, s) ← (if 8191 ≤ g then s else s0).spadLoad key key (o + 16 * g) 16 a
      (s.setCore (s.core.accPart (32768 * f.d.toNat + 4 * g) (wordsOf bs))).partsNext 8191 g) s

/-! ## MDRAIN (R268 to R272) -/

/-- The region of a drain: xB's fields. -/
structure DrainB where
  row0 : Nat
  nrows : Nat
  col0 : Nat
  ncols : Nat
  /-- a reserved bit is set, or the region leaves the accumulator -/
  bad : Bool
  deriving DecidableEq, Repr

def drainB (w : Word) : DrainB :=
  let x := w.toNat
  let r : DrainB := ⟨natBits x 0 8, natBits x 8 8, natBits x 16 8, natBits x 32 9, false⟩
  { r with bad := natBits x 24 8 != 0 || natBits x 41 23 != 0 || decide (128 < r.row0 + r.nrows)
      || decide (256 < r.col0 + r.ncols) }

/-- The issue of a drain: the operands of its word, its locks, and its place after the newest MGO's stamp (R441). -/
def drainWord (f : Rrr) (i : Instr) (locks : State → Job → List (Nat × Nat)) (s : State) : Result :=
  runWord f.hdr f.w1.isSome false (fun s => seqM do
    let lit := litVal f.ty.toNat f.w1
    let (a, s) ← s.src f.a lit
    let (b, s) ← s.src f.b lit
    let j := { s.newJob f.hdr i with va := a, vb := b }
    let c := s.core
    let stamps := c.stamps.map fun (x : Stamp) =>
      if x.drain.isNone && !x.noDrain then { x with drain := some j.id } else x
    .ok ((s.setCore { c with stamps := stamps }).accept { j with locks := locks s j })) s

/-- PITCH of a drain. -/
def drainPitch (f : Rrr) : Nat := natBits (extOf f.w1) 0 31
/-- Bytes of an output element. -/
def drainSize (f : Rrr) : Nat := typeBits f.ty.toNat / 8

/-- The scratchpad ranges a drain writes (R185). -/
def drainLocks (f : Rrr) (s : State) (j : Job) : List (Nat × Nat) :=
  let r := drainB j.vb
  let n := r.ncols * drainSize f
  if r.bad || decide (1 < r.nrows ∧ drainPitch f < n) then [] else s.lockRows s.curKey j.va (drainPitch f) n r.nrows

/-- MDRAIN .spad (R268 to R270). -/
def execMdrainSpad (f : Rrr) (s : State) : Result := drainWord f (.mdrainSpad f) (drainLocks f) s
/-- MDRAIN .glob. -/
def execMdrainGlob (f : Rrr) (s : State) : Result := drainWord f (.mdrainGlob f) (drainLocks f) s
/-- MDRAIN .glob.add. -/
def execMdrainGlobAdd (f : Rrr) (s : State) : Result := drainWord f (.mdrainGlobAdd f) (drainLocks f) s
/-- MDRAIN .peer (R271). -/
def execMdrainPeer (f : Rrr) (s : State) : Result := drainWord f (.mdrainPeer f) (fun _ _ => []) s

/-- An accumulator element as a drain writes it (R269): bytes of the output type. -/
def drainBytes (f : Rrr) (v : BitVec 32) : List Byte :=
  let t := f.ty.toNat
  if t = 9 ∨ t = 2 then leBytes 4 v.toNat
  else if isFloatType t then leBytes (drainSize f) ((fmtOf t).roundVal f.rs.toNat (f32.decode v.toNat)).1
  else leBytes (drainSize f) (wrapNat 32 (satInt (ITy.ofCode t) (toSigned 32 v.toNat)))

/-- The number of an accumulator element in a drain's region. -/
def drainAt (f : Rrr) (r : DrainB) (i c : Nat) : Nat := 32768 * f.d.toNat + 256 * (r.row0 + i) + r.col0 + c

/-- Columns of a row from `k0` on, `n` of them, that are not void, in runs: first column and bytes. -/
def Cell.drainRuns (c : Cell) (f : Rrr) (r : DrainB) (i k0 n : Nat) : List (Nat × List Byte) :=
  ((List.range n).map fun k => k0 + k).foldr (fun k (xs : List (Nat × List Byte)) =>
    let at_ := drainAt f r i k
    if FMap.get c.void at_ false then xs
    else
      let bs := drainBytes f (c.accGet at_)
      match xs with
      | (k', bs') :: rest => if k' = k + 1 then (k, bs ++ bs') :: rest else (k, bs) :: xs
      | [] => [(k, bs)]) []

/-- The check of a drain into memory at element 0 (R269); a drain of no rows or no columns has no address to check. -/
def State.drainCheck (s : State) (key : Nat) (j : Job) (f : Rrr) (spad : Bool) : Option Raise :=
  let r := drainB j.vb
  let n := drainSize f
  let pitch := drainPitch f
  if r.bad || decide (1 < r.nrows ∧ pitch < r.ncols * n) then some { cause 0xA2 with addr := j.va }
  else if r.nrows = 0 ∨ r.ncols = 0 then none
  else if j.va.toNat % n ≠ 0 ∨ (1 < r.nrows ∧ pitch % n ≠ 0) then some { code := 0x20, addr := j.va }
  else if spad && canonical j.va && s.reach key j.va != 0
      && (windowOf (s.apers (s.nodeCtx (s.cell key).node)) (addrVa j.va)).isSome then
    some { code := 0x23, addr := j.va }
  else none

/-- The checks of a drain's row on what it writes, made when the row begins (R154, R184). -/
def State.drainRowCheck (s : State) (key : Nat) (f : Rrr) (spad add sh : Bool) (row : Word) (runs : List (Nat × List Byte)) :
    M State :=
  let n := drainSize f
  runs.foldlM (fun (s : State) x =>
    let a := row + BitVec.ofNat 64 (x.1 * n)
    s.elemCheck key (if add then
        { addr := a, size := x.2.length, write := true, atomic := true, atomScope := f.rs.toNat, align := n,
          shadow := sh, scope := f.rs.toNat, element := some f.rs.toNat }
      else writeAcc (if spad then .engine else .plain) sh a x.2.length)) s

/-- The next piece of a drain's row, `p` bytes of it done: a 16-byte granule, or the next element added (R185, R269). -/
def State.drainStep (s : State) (key : Nat) (j : Job) (f : Rrr) (spad add : Bool) (i p : Nat) :
    M (State × Option (List Nat)) := do
  let r := drainB j.vb
  let n := drainSize f
  let sh := (extOf f.w1).testBit 31
  let row := j.va + BitVec.ofNat 64 (i * drainPitch f)
  let s ← if p = 0 then s.drainRowCheck key f spad add sh row ((s.cell key).drainRuns f r i 0 r.ncols) else .ok s
  let len := if add then n else min (r.ncols * n - p) (16 - (row.toNat + p) % 16)
  let s ← ((s.cell key).drainRuns f r i (p / n) (len / n)).foldlM (fun (s : State) x =>
    let a := row + BitVec.ofNat 64 (x.1 * n)
    if add then s.jobAtomic key j sh a f.rs.toNat 0 f.ty.toNat (leNat x.2) (i * r.ncols + x.1) false
    else State.writeRange key j (if spad then .engine else .plain) sh 2 s a x.2) s
  .ok (s, if p + len < r.ncols * n then some [p + len] else none)

/-- The elements of a drain into memory: its rows. -/
def State.drainPlan (s : State) (key : Nat) (j : Job) (f : Rrr) (spad add : Bool) : Plan :=
  let r := drainB j.vb
  { check := s.drainCheck key j f spad
    count := if r.ncols = 0 then 0 else r.nrows
    elem := fun i part s => s.drainStep key j f spad add i (part.headD 0) }

/-! ## Drains into a peer (R271, R272) -/

/-- The fields of a peer drain. -/
def peerKey (a : Word) : Nat := cellKey (natBits a.toNat 8 6) (natBits a.toNat 0 4)
def peerAcc (f : Rrr) : Nat := natBits (extOf f.w1) 16 3
def peerOrd (f : Rrr) : Option (Nat × Nat) :=
  if f.fl.getLsbD 2 then some (natBits (extOf f.w1) 8 8, natBits (extOf f.w1) 0 8) else none

/-- PEER_BAD (R271). DESIGN CHOICE: the bits of D that R271 says are zero raise nothing when they are not (log entry 126). -/
def State.peerBad (s : State) (key : Nat) (j : Job) (f : Rrr) : Bool :=
  let k := peerKey j.va
  let p := s.cell k
  let tag := EngTag.ofNum (natBits j.va.toNat 20 3)
  chipClass (keyChip k) != .dmx || !p.serves || p.node != (s.cell key).node
    || (match tag with | some e => !(DieClass.dmx).has e | none => true)
    || match peerOrd f with
      | none => false
      | some (n, rank) =>
        let (open_, _) := FMap.get p.rounds (peerAcc f) (0, 0)
        decide (n ≤ rank) || (open_ != 0 && open_ != n)

/-- The element of a peer drain: the tile handed over. It is complete when the peer has applied it. -/
def State.peerPlan (s : State) (key : Nat) (j : Job) (f : Rrr) : Plan :=
  let r := drainB j.vb
  { check := if r.bad then some (cause 0xA2) else if s.peerBad key j f then some (cause 0xA3) else none
    count := if j.sent then 0 else 1
    elem := wholeElem fun _ s =>
      let c := s.cell key
      let k := peerKey j.va
      let at_ := (List.range r.nrows).flatMap fun i => (List.range r.ncols).map fun x => 256 * (r.row0 + i) + r.col0 + x
      let elems := (at_.filter fun e => !FMap.get c.void (32768 * f.d.toNat + e) false).map fun e =>
        (e, c.accGet (32768 * f.d.toNat + e))
      let a := j.va.toNat
      let tile : PeerTile :=
        { acc := peerAcc f, ord := peerOrd f, elems := elems, isF32 := f.ty == 9, src := key, job := j.id
          push := if a.testBit 19 then
              (EngTag.ofNum (natBits a 20 3)).map fun e => ⟨e, BitVec.ofNat 3 (natBits a 16 3)⟩ else none
          done := false }
      let p := s.cell k
      let rounds := match peerOrd f with
        | some (n, _) => if (FMap.get p.rounds (peerAcc f) (0, 0)).1 = 0 then FMap.set p.rounds (peerAcc f) (n, 0) (0, 0) else p.rounds
        | none => p.rounds
      .ok ((s.setCell k { p with peerIn := p.peerIn ++ [tile], rounds := rounds }).modJob key j.id
        fun (x : Job) => { x with sent := true }) }

/-- An element of a tile added into an accumulator, with the flags it sets (R272). DESIGN CHOICE: an add of a peer leaves a
void mark as it is, since R258 does not name it among what clears one (log entry 147). -/
def Cell.addElem (c : Cell) (t : PeerTile) (e : Nat × BitVec 32) : Cell :=
  let at_ := 32768 * t.acc + e.1
  let old := (c.accGet at_).toNat
  let (r, fl) := if t.isF32 then accAdd old e.2.toNat else accAddInt old (toSigned 32 e.2.toNat)
  (c.accPut at_ (BitVec.ofNat 32 r)).raiseM fl

/-- A tile may be applied: without `.ord` no such tile came earlier; with it, its rank is next, and no earlier tile
of that rank waits (R272). -/
def Cell.tileMayGo (c : Cell) (idx : Nat) (t : PeerTile) : Bool :=
  let before := (c.peerIn.take idx).filter fun x => !x.done
  match t.ord with
  | none => before.all fun x => x.ord.isSome
  | some (_, rank) =>
    (FMap.get c.rounds t.acc (0, 0)).2 == rank
      && before.all fun x => !(x.acc == t.acc && x.ord.isSome && (x.ord.map fun o => o.2) == some rank)

/-- The rounds of a cell after an `.ord` tile of an accumulator is applied. -/
def Cell.closeRound (c : Cell) (t : PeerTile) : Cell :=
  match t.ord with
  | none => c
  | some _ =>
    let (n, k) := FMap.get c.rounds t.acc (0, 0)
    let next : Nat × Nat :=
      if k + 1 < n then (n, k + 1)
      else match c.peerIn.find? fun x => x.acc == t.acc && x.ord.isSome && !x.done with
        | some x => ((x.ord.getD (0, 0)).1, 0)
        | none => (0, 0)
    { c with rounds := FMap.set c.rounds t.acc next (0, 0) }

end Sys2Proof.Machine
end

