-- ==== Sys2Proof/Machine/Special.lean ====
section
/-! DEFINITION. The special functions (R228, R229): the special inputs and exact results as stated, and elsewhere a
free value within the stated bound. The exact value that the bound refers to is computed to far more bits than any
format keeps. -/

namespace Sys2Proof.Machine

/-! ## Fixed-point evaluation: integers in units of 2^-P -/

/-- Fraction bits of the evaluation. -/
def fpBits : Nat := 480
/-- One. -/
def fpOne : Int := (2 ^ fpBits : Nat)
/-- A product. -/
def fpMul (a b : Int) : Int := Int.fdiv (a * b) fpOne

/-- A Taylor series whose term k is the term before it times x, over d(k): terms k, k + 1, … summed. -/
def series (x : Int) (d : Nat → Int) : Nat → Nat → Int → Int
  | 0, _, _ => 0
  | fuel + 1, k, t => t + series x d fuel (k + 1) (Int.fdiv (fpMul t x) (d (k + 1)))

/-- ln 2 = the sum over k of 1 / (k 2^k). -/
def fpLn2 : Int := (List.range 500).foldl (fun (a : Int) k => a + Int.fdiv fpOne ((k + 1) * 2 ^ (k + 1) : Nat)) 0

/-- atan (1 / n) by its series. -/
def fpAtanInv (n : Nat) : Int :=
  (List.range 240).foldl (fun (a : Int) k =>
    let t := Int.fdiv fpOne ((2 * k + 1) * n ^ (2 * k + 1) : Nat)
    if k % 2 = 0 then a + t else a - t) 0

/-- π by Machin's formula. -/
def fpPi : Int := 16 * fpAtanInv 5 - 4 * fpAtanInv 239

/-- exp of a number between 0 and 1. -/
def fpExp (x : Int) : Int := series x (fun k => (k : Int)) 120 0 fpOne

/-- sin and cos of a number between -4 and 4. -/
def fpSin (x : Int) : Int := series (-(fpMul x x)) (fun k => (2 * k * (2 * k + 1) : Nat)) 80 0 x
def fpCos (x : Int) : Int := series (-(fpMul x x)) (fun k => ((2 * k - 1) * (2 * k) : Nat)) 80 0 fpOne

/-- A dyadic number in units of 2^-P. -/
def fpOf (a : Dy) : Int :=
  let e := a.exp + fpBits
  if 0 ≤ e then a.num * 2 ^ e.toNat else Int.fdiv a.num ((2 ^ (-e).toNat : Nat) : Int)

/-- 2^a: the value in units of 2^-P between 1 and 2, and its exponent. -/
def exp2Parts (a : Dy) : Int × Int :=
  let x := fpOf a
  let n := Int.fdiv x fpOne
  (fpExp (fpMul (x - n * fpOne) fpLn2), n)

/-- Binary digits of log2 of a number between 1 and 2. -/
def log2Digits : Nat → Int → Int → Int
  | 0, _, acc => acc
  | n + 1, m, acc =>
    let m := fpMul m m
    if 2 * fpOne ≤ m then log2Digits n (Int.fdiv m 2) (2 * acc + 1) else log2Digits n m (2 * acc)

/-- The exact value of a function at a finite non-special input, to within far less than any bound: function
numbers 0 EXP2, 1 LOG2, 2 RCP, 3 RSQ, 4 SIN, 5 COS, 6 TANH. -/
def specialExact (fn : Nat) (a : Dy) : Dy :=
  match fn with
  | 0 => let (m, n) := exp2Parts a; ⟨m, n - fpBits⟩
  | 1 =>
    let k : Int := (Nat.log2 a.num.natAbs : Int) + a.exp
    let m := fpOf ⟨a.num, a.exp - k⟩
    ⟨k * 2 ^ 200 + log2Digits 200 m 0, -200⟩
  | 2 => ⟨Int.fdiv ((2 ^ 400 : Nat) : Int) a.num.natAbs * a.num.sign, -400 - a.exp⟩
  | 3 =>
    let (m, e) : Nat × Int := if a.exp % 2 = 0 then (a.num.natAbs, a.exp) else (2 * a.num.natAbs, a.exp - 1)
    ⟨Nat.sqrt (2 ^ 800 / m), -400 - e / 2⟩
  | 6 =>
    if Dy.lt ⟨1, 7⟩ a then ⟨fpOne - 1, -(fpBits : Int)⟩
    else
      let t := Int.fdiv (fpOf a * 2 * fpOne) fpLn2
      let n := Int.fdiv t fpOne
      let e := fpExp (fpMul (t - n * fpOne) fpLn2) * 2 ^ n.toNat
      ⟨Int.fdiv ((e - fpOne) * fpOne) (e + fpOne), -(fpBits : Int)⟩
  | _ =>
    let x := fpOf a
    let n := Int.fdiv x (2 * fpPi)
    let r := x - n * (2 * fpPi) - fpPi
    -- sin (r + π) = -sin r, cos (r + π) = -cos r
    ⟨if fn = 4 then -(fpSin r) else -(fpCos r), -(fpBits : Int)⟩

/-! ## The bound of R228 -/

/-- |a - b| ≤ n * 2^q. -/
def within (a b : Dy) (n : Nat) (q : Int) : Bool := !Dy.lt ⟨n, q⟩ (a.sub b).abs

/-- A candidate result within the bound of R228. -/
def specialOk (t : FFmt) (fn : Nat) (x : Dy) (exact : Dy) (y : Val) : Bool :=
  let b32 := t = f32
  let ulp := max (if exact.num = 0 then t.emin else quantum exact.num.natAbs 1 exact.exp (t.mw + 1)) t.emin
  if !y.isFin then false
  else
    let z := y.dy
    let ulps := fun n => within z exact n ulp
    let near1 := !Dy.lt x ⟨1, -1⟩ && !Dy.lt ⟨2, 0⟩ x
    match fn with
    | 0 => ulps (if b32 then 2 else 1)
    | 1 => ulps (if b32 then 2 else 1) || (near1 && within z exact 1 (if b32 then -22 else -8))
    | 2 => ulps 1
    | 3 => ulps (if b32 then 2 else 1)
    | 6 => ulps (if b32 then 2 else 1) || (b32 && within z exact 1 (-24))
    | _ =>
      if Dy.lt ⟨1, 16⟩ x.abs then !Dy.lt ⟨1, 0⟩ z.abs else within z exact 1 (if b32 then -22 else -8)

/-- A positive number is a power of two: its exponent. -/
def powerOf2 (a : Dy) : Option Int :=
  let m := a.num.natAbs
  if m ≠ 0 ∧ 2 ^ Nat.log2 m = m then some (Nat.log2 m + a.exp) else none

/-- An integer's value, if the number is one. -/
def intOf (a : Dy) : Option Int :=
  if 0 ≤ a.exp then (if a.exp < 64 then some (a.num * 2 ^ a.exp.toNat) else none)
  else if a.num % ((2 ^ (-a.exp).toNat : Nat) : Int) = 0 then some (Int.fdiv a.num ((2 ^ (-a.exp).toNat : Nat) : Int)) else none

/-- The exact results of R228, for a finite non-zero input in the function's domain. -/
def specialPoint (fn : Nat) (a : Dy) : Option Dy :=
  match fn with
  | 0 => (intOf a).map fun n => ⟨1, n⟩
  | 1 => (powerOf2 a).map fun n => ⟨n, 0⟩
  | 2 => (powerOf2 a).map fun n => ⟨a.num.sign, -n⟩
  | 3 => (powerOf2 a).bind fun n => if n % 2 = 0 then some ⟨1, -(n / 2)⟩ else none
  | _ => none

/-- A special function of a finite non-zero input in its domain: an exact result where R228 names one, else, where the
free values are to be taken, the free value if it lies within the bound, and the flags of its rounding. DESIGN CHOICE: UF
and OF are those of the exact value rounded, also where the free value lies on the other side of the least normal number
(log entry 44). -/
def specialFinite (free : Bool) (t : FFmt) (ty fn : Nat) (x : Nat) (a : Dy) : Nat × Flags :=
  match specialPoint fn a with
  | some r => t.roundDy 0 r false
  | none =>
    if fn = 0 ∧ Dy.lt ⟨1, 12⟩ a then (t.inf false, flagOF ||| flagNX)
    else
      let exact := if fn = 0 ∧ Dy.lt a ⟨-1, 12⟩ then (⟨1, -4096⟩ : Dy)
        else if (fn = 4 ∨ fn = 5) ∧ Dy.lt ⟨1, 16⟩ a.abs then ⟨0, 0⟩ else specialExact fn a
      let (near, fl) := if exact.num = 0 then (t.zero false, (0 : Flags)) else t.roundDy 0 exact false
      if (t.decode near).isInf then (near, flagOF ||| flagNX)
      else
        let y := (Config.special fn ty (BitVec.ofNat 64 x)).toNat % 2 ^ t.width
        (if specialOk t fn a exact (t.decode y) && free then y else near, fl ||| flagNX)

/-- A special function of a bit pattern (R229), with or without the free values. SIN and TANH are odd, COS is even, bit
for bit. -/
def specialWith (free : Bool) (ty fn : Nat) (x : Nat) : Nat × Flags :=
  let t := fmtOf ty
  let sgn := 2 ^ (t.width - 1)
  let one := (t.roundVal 0 (.fin false 1 0)).1
  match t.decode x with
  | .nan s => (t.qnan, if s then flagNV else 0)
  | .inf neg =>
    match fn with
    | 0 => (if neg then 0 else t.inf false, 0)
    | 1 => if neg then (t.qnan, flagNV) else (t.inf false, 0)
    | 2 => (t.zero neg, 0)
    | 3 => if neg then (t.qnan, flagNV) else (0, 0)
    | 6 => (one + (if neg then sgn else 0), 0)
    | _ => (t.qnan, flagNV)
  | .fin neg m e =>
    if m = 0 then
      match fn with
      | 0 => (one, 0)
      | 1 => (t.inf true, flagDZ)
      | 2 => (t.inf neg, flagDZ)
      | 3 => (t.inf neg, flagDZ)
      | 5 => (one, 0)
      | _ => (t.zero neg, 0)
    else
      match fn with
      | 1 | 3 => if neg then (t.qnan, flagNV) else specialFinite free t ty fn x ⟨m, e⟩
      | 0 | 2 => specialFinite free t ty fn x ⟨if neg then -(m : Int) else m, e⟩
      | 5 => specialFinite free t ty fn (x % sgn) ⟨m, e⟩
      | _ =>
        let (y, fl) := specialFinite free t ty fn (x % sgn) ⟨m, e⟩
        (if neg then y ^^^ sgn else y, fl)

/-- Where a bit pattern that is no NaN stands in the order of its values. -/
def orderKey (t : FFmt) (y : Nat) : Int :=
  let sgn := 2 ^ (t.width - 1)
  if y < sgn then y else -((y - sgn : Nat) : Int)

/-- The pattern below infinity that follows a pattern, for both of one sign, keeps the order that R228's last column asks
for: the results of the inputs of a sign whose magnitudes follow one another do not fall (`up`), or do not rise. -/
def specialRuns (ty fn : Nat) (neg up : Bool) : Bool :=
  let t := fmtOf ty
  let key := fun (x : Nat) => orderKey t (specialWith true ty fn (x + (if neg then 2 ^ (t.width - 1) else 0))).1
  (List.range (t.inf false - 1)).all fun x =>
    if up then decide (key x ≤ key (x + 1)) else decide (key (x + 1) ≤ key x)

/-- The free values of a function have the order that R228's last column asks for. -/
def specialMonotone (ty fn : Nat) : Bool :=
  match fn with
  | 0 => specialRuns ty fn false true && specialRuns ty fn true false
  | 1 | 6 => specialRuns ty fn false true
  | 2 => specialRuns ty fn false false && specialRuns ty fn true true
  | 3 => specialRuns ty fn false false
  | _ => true

/-- A special function of a bit pattern (R228): free within the bounds, where the free values are monotonic as R228
states; else every result is the nearest one. -/
def specialFn (ty fn : Nat) (x : Nat) : Nat × Flags := specialWith (specialMonotone ty fn) ty fn x

/-- A special-function word. -/
def specialWord (fn : Nat) (f : Rrr) (s : State) : Result := vecUn f (specialFn f.ty.toNat fn) s

/-- EXP2 (R228). -/
def execExp2 (f : Rrr) (s : State) : Result := specialWord 0 f s
/-- LOG2 (R228). -/
def execLog2 (f : Rrr) (s : State) : Result := specialWord 1 f s
/-- RCP (R228). -/
def execRcp (f : Rrr) (s : State) : Result := specialWord 2 f s
/-- RSQ (R228). -/
def execRsq (f : Rrr) (s : State) : Result := specialWord 3 f s
/-- SIN (R228). -/
def execSin (f : Rrr) (s : State) : Result := specialWord 4 f s
/-- COS (R228). -/
def execCos (f : Rrr) (s : State) : Result := specialWord 5 f s
/-- TANH (R228). -/
def execTanh (f : Rrr) (s : State) : Result := specialWord 6 f s

end Sys2Proof.Machine
end

