-- ==== Sys2Proof/Machine/Row.lean ====
section
/-! DEFINITION. The row engine (R275 to R278): the timetable and the four passes. -/

namespace Sys2Proof.Machine

/-- RTT (R275): a write of the row timetable by C, after every earlier RGO has issued (R246). -/
def execRtt (f : Rrr) (s : State) : Result :=
  runWord f.hdr f.w1.isSome false (fun s => seqM do
    s.afterTakers .w Instr.isRgo
    let (a, s) ← s.src f.a (litVal 0 f.w1)
    let c := s.core
    .ok (s.setCore { c with timetable := FMap.set c.timetable f.d.toNat a 0 })) s

/-- The timetable as an RGO takes it. -/
structure Rtt where
  acc : Nat
  row0 : Nat
  nrows : Nat
  col0 : Nat
  ncols : Nat
  s : Nat
  eps : Nat
  off : Nat
  en : Bool
  causal : Bool
  rms : Bool
  diag : Int
  ok : Bool
  deriving DecidableEq, Repr

/-- The four fields of a timetable, and whether they are valid (R275). -/
def rttOf (ws : List Word) : Rtt :=
  let w := fun (i : Nat) => (nthD ws i 0).toNat
  let r := w 0
  let st := w 2
  let ct := w 3
  let nrows := natBits r 16 8
  let ncols := natBits r 40 9
  let row0 := natBits r 8 7
  let col0 := natBits r 32 8
  let off := natBits st 0 32
  { acc := natBits r 0 3, row0 := row0, nrows := nrows, col0 := col0, ncols := ncols
    s := natBits (w 1) 0 32, eps := natBits (w 1) 32 32, off := off, en := st.testBit 32
    causal := ct.testBit 0, rms := ct.testBit 1, diag := toSigned 16 (natBits ct 16 16)
    ok := natBits r 3 5 == 0 && !r.testBit 15 && natBits r 24 8 == 0 && natBits r 49 15 == 0
      && natBits st 33 31 == 0 && natBits ct 2 14 == 0 && natBits ct 32 32 == 0
      && decide (0 < nrows ∧ 0 < ncols ∧ row0 + nrows ≤ 128 ∧ col0 + ncols ≤ 256)
      && off % 16 == 0 && (!st.testBit 32 || decide (off + 16 * nrows ≤ spadBytes)) }

/-- The issue of an RGO: the timetable copied and checked (R275). -/
def rgoWord (f : Rrr) (i : Instr) (s : State) : Result :=
  runWord f.hdr f.w1.isSome false (fun s => seqM do
    if s.owes .c Instr.writesTimetable then blocked 11
    else
      let ws := (List.range 4).map fun n => FMap.get s.core.timetable n 0
      if !(rttOf ws).ok then raise 0x63
      else .ok (s.accept { s.newJob f.hdr i with timetable := ws })) s

/-- RGO.MAX (R276). -/
def execRgoMax (f : Rrr) (s : State) : Result := rgoWord f (.rgoMax f) s
/-- RGO.EXPSUM. -/
def execRgoExpsum (f : Rrr) (s : State) : Result := rgoWord f (.rgoExpsum f) s
/-- RGO.SCALE. -/
def execRgoScale (f : Rrr) (s : State) : Result := rgoWord f (.rgoScale f) s
/-- RGO.NORM. -/
def execRgoNorm (f : Rrr) (s : State) : Result := rgoWord f (.rgoNorm f) s

/-- An element of the region is masked (R276). -/
def Rtt.masked (t : Rtt) (r c : Nat) : Bool := t.causal && decide ((r : Int) + t.diag < c)

/-- f32 arithmetic of W: it sets no flag. -/
def addF (a b : Nat) : Nat := (f32.add 0 (f32.decode a) (f32.decode b)).1
def subF (a b : Nat) : Nat := (f32.add 0 (f32.decode a) (f32.decode b).negate).1
def mulF (a b : Nat) : Nat := (f32.mul 0 (f32.decode a) (f32.decode b)).1
/-- The helpers exp2f, rcpf and rsqf (R276, R228). -/
def exp2f (a : Nat) : Nat := (specialFn 9 0 a).1
def rcpf (a : Nat) : Nat := (specialFn 9 2 a).1
def rsqf (a : Nat) : Nat := (specialFn 9 3 a).1

/-- round_rne of an exact sum over a count; an exact zero keeps the sign of the sum (R22; log entry 122). -/
def meanF (v : Val) (n : Nat) : Nat :=
  match v with
  | .fin neg m e => if m = 0 then (if neg then 0x80000000 else 0) else (f32.roundQuot 0 neg m n e).1
  | v => (f32.roundVal 0 v).1

/-- The exact square of x - mu. -/
def devSq (x mu : Nat) : Val :=
  match f32.decode x, f32.decode mu with
  | .nan _, _ => .nan false
  | _, .nan _ => .nan false
  | .inf a, .inf b => if a = b then .nan false else .inf false
  | .inf _, _ => .inf false
  | _, .inf _ => .inf false
  | a, b => (let d := a.dy.sub b.dy; d.mul d).val

/-- A row after a pass: its elements, and MX and SM. `kind` is 0 MAX, 1 EXPSUM, 2 SCALE, 3 NORM. -/
def rowPass (kind : Nat) (t : Rtt) (r mx sm : Nat) (xs : List Nat) : List Nat × Nat × Nat :=
  let es := xs.zipIdx.map fun e => (e.1, t.masked r (t.col0 + e.2))
  let live := (es.filter fun e => !e.2).map fun e => e.1
  match kind with
  | 0 =>
    let m := match live with | [] => 0xFF800000 | y :: ys => ys.foldl (fun m x => f32.minMax true m x) y
    -- a NaN alone is canonical (R276)
    (xs, if (f32.decode m).isNan then f32.qnan else m, sm)
  | 1 =>
    let ys := es.map fun e =>
      if e.2 || mx == 0xFF800000 then 0 else exp2f (mulF (subF e.1 mx) t.s)
    (ys, mx, (f32.roundVal 0 (sumVals (ys.map f32.decode))).1)
  | 2 =>
    if sm = 0 then (xs.map fun _ => 0, mx, sm)
    else
      let q := rcpf sm
      (es.map fun e => if e.2 then 0 else mulF e.1 q, mx, sm)
  | _ =>
    if live.isEmpty then (xs.map fun _ => 0, 0, 0)
    else
      let mu := if t.rms then 0 else meanF (sumVals (live.map f32.decode)) live.length
      let v := meanF (sumVals (live.map fun x => devSq x mu)) live.length
      let q := rsqf (addF v t.eps)
      (es.map fun e => if e.2 then 0 else mulF (subF e.1 mu) q, mu, q)

/-- One step of a row of an RGO (R276, R277): an element read, then the pass over the row, then an element written, then
the statistics. Elements are read and written one by one, so that M may see and leave any mixture. -/
def State.rgoStep (s : State) (key : Nat) (j : Job) (kind i : Nat) (writing : Bool) : M (State × Option (List Nat)) :=
  let t := rttOf j.timetable
  let c := s.cell key
  let r := t.row0 + i
  let base := 32768 * t.acc + 256 * r + t.col0
  let keep := fun (s : State) (m : FMap Nat) => s.modJob key j.id fun (x : Job) => { x with reads := m }
  let left := (List.range t.ncols).filter fun k => (FMap.find? j.reads k).isSome == writing
  if !left.isEmpty then
    let (k, s) := s.pickOf left
    if writing then
      let c := s.cell key
      .ok (keep (s.setCell key (c.accPut (base + k) (BitVec.ofNat 32 (FMap.get j.reads k 0)))) (FMap.erase j.reads k), some [1])
    else .ok (keep s (FMap.put j.reads k (c.accGet (base + k)).toNat), some [0])
  else if writing then
    if t.en && (kind == 1 || kind == 3) then
      (s.localWrite key j (t.off + 16 * i)
        (leBytes 4 (FMap.get c.mx r 0).toNat ++ leBytes 4 (FMap.get c.sm r 0).toNat ++ List.replicate 8 0)).map
          fun s => (s, none)
    else .ok (s, none)
  else
    let xs := (List.range t.ncols).map fun k => FMap.get j.reads k 0
    let (ys, mx, sm) := rowPass kind t r (FMap.get c.mx r 0).toNat (FMap.get c.sm r 0).toNat xs
    let s := s.setCell key { c with mx := FMap.set c.mx r (BitVec.ofNat 32 mx) 0, sm := FMap.set c.sm r (BitVec.ofNat 32 sm) 0 }
    .ok (keep s (if kind = 0 then [] else ys.zipIdx.map fun e => (e.2, e.1)), some [1])

/-- The elements of an RGO: its rows. -/
def State.rgoPlan (key : Nat) (j : Job) (kind : Nat) : Plan :=
  { count := (rttOf j.timetable).nrows
    elem := fun i part s => s.rgoStep key j kind i (part.headD 0 == 1) }

end Sys2Proof.Machine
end

