-- ==== Sys2Proof/Machine/Sort.lean ====
section
/-! DEFINITION. The sort engine of an SRT die (R279 to R281). -/

namespace Sys2Proof.Machine

/-- The key type of a TYPE code (R279): bits, signedness, and whether it is a float. -/
def keyBits (ty : Nat) : Nat := if ty = 2 ∨ ty = 3 ∨ ty = 9 then 32 else 64

/-- A key as an integer whose order is the key order (R280): integers by value, floats by totalOrder. -/
def keyRank (ty : Nat) (k : Nat) : Int :=
  let w := keyBits ty
  if 8 ≤ ty then (if k.testBit (w - 1) then -((k % 2 ^ (w - 1) : Nat) : Int) - 1 else (k : Int))
  else if ty % 2 = 0 then toSigned w k else (k : Int)

/-- A record's bytes and the rank of its key. -/
structure KRec where
  rank : Int
  key : Nat
  bytes : List Byte
  deriving DecidableEq, Repr

/-- Bytes of a record: the key alone, or 16 with a value (R279). -/
def recBytes (f : Rrr) : Nat := if f.rs.getLsbD 1 then 16 else keyBits f.ty.toNat / 8

/-- A list of bytes cut into records. -/
def recsOf (f : Rrr) : Nat → List Byte → List KRec
  | 0, _ => []
  | n + 1, bs =>
    let r := bs.take (recBytes f)
    let k := leNat (r.take (keyBits f.ty.toNat / 8))
    ⟨keyRank f.ty.toNat k, k, r⟩ :: recsOf f n (bs.drop (recBytes f))

/-- A record stands before another in the order of a word: ascending, or descending with RS[0]. -/
def KRec.before (desc : Bool) (a b : KRec) : Bool := if desc then decide (b.rank < a.rank) else decide (a.rank < b.rank)

/-- A stable sort: a record moves only past those it stands before. -/
def sortRecs (desc : Bool) (xs : List KRec) : List KRec := xs.foldr (fun x ys => place desc x ys) []
where
  /-- A record put at the front of those not before it. -/
  place (desc : Bool) (x : KRec) : List KRec → List KRec
    | [] => [x]
    | y :: ys => if y.before desc x then y :: place desc x ys else x :: y :: ys

/-- Runs of records, each beginning where a head flag stands; record 0 always begins one (R280). -/
def segments : List (KRec × Bool) → List (List KRec)
  | [] => []
  | (x, _) :: rest =>
    match segments rest, rest with
    | s :: ss, (_, false) :: _ => (x :: s) :: ss
    | ss, _ => [x] :: ss

/-- Two runs merged: the first run's record unless it stands after the second's (R280). -/
def mergeRecs (desc : Bool) : Nat → List KRec → List KRec → List KRec
  | 0, _, _ => []
  | n + 1, x :: xs, y :: ys =>
    if y.before desc x then y :: mergeRecs desc n (x :: xs) ys else x :: mergeRecs desc n xs (y :: ys)
  | _, [], ys => ys
  | _, xs, [] => xs

/-- Records whose key bits differ from those of the record before (R280). -/
def uniqRecs : Option Nat → List KRec → List KRec
  | _, [] => []
  | p, x :: xs => if p = some x.key then uniqRecs p xs else x :: uniqRecs (some x.key) xs

/-- The count fields of B. -/
def nLo (b : Word) : Nat := natBits b.toNat 0 32
def nHi (b : Word) : Nat := natBits b.toNat 32 32

/-- A form's sizes (R280): records of the input, of the second run, and of the output at most. -/
structure KShape where
  n1 : Nat
  n2 : Nat
  out : Nat
  deriving DecidableEq, Repr

/-- The second input of a form, and its length in bytes. -/
def kAux (i : Instr) (f : Rrr) (sh : KShape) : Nat × Nat :=
  match i with
  | .segsort _ => (extOf f.w1, (sh.n1 + 7) / 8)
  | .merge _ => (extOf f.w1, sh.n2 * recBytes f)
  | _ => (0, 0)

def kShape (i : Instr) (b : Word) : KShape :=
  match i with
  | .merge _ => ⟨nLo b, nHi b, nLo b + nHi b⟩
  | .topk _ => ⟨nLo b, 0, min (nHi b) (nLo b)⟩
  | .ksel _ => ⟨nLo b, 0, 1⟩
  | _ => ⟨nLo b, 0, nLo b⟩

/-- Two byte ranges share a byte. -/
def overlaps (a n b m : Nat) : Bool := decide (0 < n ∧ 0 < m ∧ a < b + m ∧ b < a + n)

/-- A form that may run in place (R281). -/
def inPlace : Instr → Bool | .sort _ | .segsort _ | .uniq _ => true | _ => false

/-- A form that writes nothing (R281): a count of 0, or TOPK with k = 0. UNIQ with a count of 0 writes nothing, its count
granule neither; MERGE writes the other run where one count alone is 0 (log entry 127). -/
def sortNothing (i : Instr) (b : Word) : Bool :=
  let sh := kShape i b
  sh.n1 + sh.n2 == 0 || (match i with | .topk _ => nHi b == 0 | _ => false)

/-- A range has a byte beyond 8 MiB; an empty one has none. -/
def pastEnd (off n : Nat) : Bool := decide (0 < n ∧ spadBytes < off + n)

/-- The checks of R281, in the table's order. DESIGN CHOICE: the head flags of a SEGSORT stand at any offset (log entry
152). -/
def sortCheck (i : Instr) (j : Job) (f : Rrr) : Option Raise :=
  let sh := kShape i j.vb
  let rb := recBytes f
  let d := j.vd.toNat
  let a := j.va.toNat
  let (x, xn) := kAux i f sh
  let isUniq : Bool := match i with | .uniq _ => true | _ => false
  let isMerge : Bool := match i with | .merge _ => true | _ => false
  let isKsel : Bool := match i with | .ksel _ => true | _ => false
  let e := extOf f.w1
  if a % rb ≠ 0 then some { code := 0x20, addr := j.va }
  else if d % rb ≠ 0 then some { code := 0x20, addr := j.vd }
  else if (isMerge && x % rb != 0) || (isUniq && e % 16 != 0) then some { code := 0x20, addr := BitVec.ofNat 64 e }
  else if pastEnd a (sh.n1 * rb) then some { code := 0x23, addr := j.va }
  else if pastEnd d (sh.out * rb) then some { code := 0x23, addr := j.vd }
  else if pastEnd x xn || (isUniq && !sortNothing i j.vb && pastEnd e 16) then some { code := 0x23, addr := BitVec.ofNat 64 e }
  else if decide (2 ^ 20 < sh.n1) || decide (2 ^ 20 < sh.n2) || (isKsel && decide (sh.n1 ≤ nHi j.vb)) then some { code := 0xA4, addr := j.va }
  else
    let exact := d = a ∧ sh.out = sh.n1
    let withA := overlaps d (sh.out * rb) a (sh.n1 * rb) && !(inPlace i && decide exact)
    let withX := overlaps d (sh.out * rb) x xn
    let count := isUniq && overlaps e 16 a (sh.n1 * rb)
    if withA || withX || count then some { code := 0xA4, addr := j.vd } else none

/-- The records a form writes. -/
def sortOut (i : Instr) (f : Rrr) (b : Word) (xs ys : List KRec) (flags : List Byte) : List KRec :=
  let desc := f.rs.getLsbD 0
  match i with
  | .sort _ => sortRecs desc xs
  | .segsort _ =>
    let heads := xs.zipIdx.map fun e => (e.1, e.2 == 0 || (nthD flags (e.2 / 8) 0).getLsbD (e.2 % 8))
    (segments heads).flatMap (sortRecs desc)
  | .merge _ => mergeRecs desc (xs.length + ys.length) xs ys
  | .topk _ => (sortRecs (!desc) xs).take (nHi b)
  | .ksel _ => ((sortRecs desc xs).drop (nHi b)).take 1
  | _ => uniqRecs none xs

/-- The writes of a sort command: the records, and UNIQ's count. Where a count granule lies in the output of UNIQ, no
rule says which of the two stays: the order is drawn (log entry 129). -/
def State.sortWrite (s : State) (key : Nat) (j : Job) (i : Instr) (f : Rrr) (out : List KRec) : M State := do
  let bytes := out.flatMap fun (r : KRec) => r.bytes
  match i with
  | .uniq _ =>
    let count := leBytes 8 out.length ++ List.replicate 8 0
    let (x, s) := s.draw
    if x % 2 = 0 then do
      let s ← s.localWrite key j j.vd.toNat bytes
      s.localWrite key j (extOf f.w1) count
    else do
      let s ← s.localWrite key j (extOf f.w1) count
      s.localWrite key j j.vd.toNat bytes
  | _ => s.localWrite key j j.vd.toNat bytes

/-- The one element of a sort command: its inputs are read granule by granule, then it writes. -/
def State.sortPlan (key : Nat) (j : Job) (i : Instr) (f : Rrr) : Plan :=
  let sh := kShape i j.vb
  let rb := recBytes f
  { check := sortCheck i j f
    count := if sortNothing i j.vb then 0 else 1
    elem := fun _ _ s =>
      let a := (j.va.toNat, sh.n1 * rb)
      let x := kAux i f sh
      match s.localGather key j [a, x] with
      | some r => r.map fun s => (s, some [])
      | none =>
        let aux := j.gathered x 1
        let ys := match i with | .merge _ => recsOf f sh.n2 aux | _ => []
        (s.sortWrite key j i f (sortOut i f j.vb (recsOf f sh.n1 (j.gathered a 0)) ys aux)).map fun s => (s, none) }

/-- The issue of a sort word: operands, and the locks of what it writes (R185, R274). -/
def sortWord (f : Rrr) (i : Instr) (s : State) : Result :=
  runWord f.hdr f.w1.isSome false (fun s => seqM do
    s.queueRoom 8
    let lit := litVal f.ty.toNat f.w1
    let (d, s) ← s.src f.d lit
    let (a, s) ← s.src f.a lit
    let (b, s) ← s.src f.b lit
    let j := { s.newJob f.hdr i with vd := d, va := a, vb := b }
    let locks := if (sortCheck i j f).isSome ∨ sortNothing i b then []
      else (d.toNat, (kShape i b).out * recBytes f) :: (match i with | .uniq _ => [(extOf f.w1, 16)] | _ => [])
    .ok (s.accept { j with locks := locks })) s

/-- SORT (R280). -/
def execSort (f : Rrr) (s : State) : Result := sortWord f (.sort f) s
/-- SEGSORT. -/
def execSegsort (f : Rrr) (s : State) : Result := sortWord f (.segsort f) s
/-- MERGE. -/
def execMerge (f : Rrr) (s : State) : Result := sortWord f (.merge f) s
/-- TOPK. -/
def execTopk (f : Rrr) (s : State) : Result := sortWord f (.topk f) s
/-- KSEL. -/
def execKsel (f : Rrr) (s : State) : Result := sortWord f (.ksel f) s
/-- UNIQ. -/
def execUniq (f : Rrr) (s : State) : Result := sortWord f (.uniq f) s

end Sys2Proof.Machine
end

