-- ==== Sys2Proof/Machine/Sparse.lean ====
section
/-! DEFINITION. The sparse engine of an SPX die (R282, R283). -/

namespace Sys2Proof.Machine

/-- The descriptor of a sparse command (R282). -/
structure SpDesc where
  rowptr : Word
  colidx : Word
  vals : Word
  paddr : Word
  qaddr : Word
  oaddr : Word
  rows : Nat
  cols : Nat
  ncol : Nat
  bs : Nat
  ppitch : Nat
  qpitch : Nat
  opitch : Nat
  deriving DecidableEq, Repr

/-- A descriptor from its 128 bytes. -/
def spDesc (bs : List Nat) : SpDesc :=
  let n := fun (off k : Nat) => ((bs.drop off).take k).foldr (fun b (a : Nat) => b + 256 * a) 0
  let w := fun (off : Nat) => BitVec.ofNat 64 (n off 8)
  { rowptr := w 0x00, colidx := w 0x08, vals := w 0x10, paddr := w 0x18, qaddr := w 0x20, oaddr := w 0x28
    rows := n 0x30 4, cols := n 0x34 4, ncol := n 0x38 4, bs := n 0x3C 4, ppitch := n 0x40 4, qpitch := n 0x44 4
    opitch := n 0x48 4 }

/-- The sparse forms. -/
inductive SpKind where
  | csr | bsr | sddmm | spmv
  deriving DecidableEq, Repr

/-- A descriptor the engine cannot take (R283). -/
def spBad (k : SpKind) (bs : List Nat) : Bool :=
  let d := spDesc bs
  ((bs.drop 0x4C).any fun b => b != 0) || decide (d.ncol = 0 ∨ 65536 < d.ncol)
    || (k == .spmv && d.ncol != 1)
    || (if k = .bsr then !([1, 2, 4, 8, 16].contains d.bs) else d.bs != 0)
    || (k != .sddmm && d.qaddr != 0)

/-- Bytes of an element of VALS, P and Q. -/
def spSize (f : Rrr) : Nat := typeBits f.ty.toNat / 8

/-- A number read from an array, through the row lines of the die (R380); its address is aligned (R154; log entry
131). -/
def State.arrayRead (s : State) (key : Nat) (j : Job) (base : Word) (off n : Nat) : M (Nat × State) := do
  let a := base + BitVec.ofNat 64 off
  let s ← s.elemCheck key { readAcc true false a n with align := n }
  let (bs, s) ← State.readRange key j true false 2 s a n
  .ok (leNat bs, s)

/-- One rounding of a sum with an exact product (R283). -/
def spStep (acc : Nat) (v p : Val) : Nat := (f32.fma 0 v p (f32.decode acc)).1

/-- The outputs of a row whose nonzeros are `lo` up to `hi`. -/
def spCount (k : SpKind) (d : SpDesc) (lo hi : Nat) : Nat :=
  match k with | .spmv => 1 | .csr => d.ncol | .bsr => d.bs * d.ncol | .sddmm => hi - lo

/-- The address of output `t` of row `i`, whose nonzeros begin with `lo`. -/
def spAddr (k : SpKind) (d : SpDesc) (i lo t : Nat) : Word :=
  d.oaddr + BitVec.ofNat 64 (match k with
    | .spmv => 4 * i
    | .csr => i * d.opitch + 4 * t
    | .bsr => (i * d.bs + t / d.ncol) * d.opitch + 4 * (t % d.ncol)
    | .sddmm => 4 * (lo + t))

/-- A read of a row: its number among the row's reads, the array, the offset there and the length. -/
structure SpRead where
  no : Nat
  base : Word
  off : Nat
  len : Nat
  deriving DecidableEq, Repr

/-- The reads with which row `i` begins: two row pointers, then the column indices between them (R283), so far as what is
read tells. -/
def spFirst (d : SpDesc) (i : Nat) (have_ : FMap Nat) : List SpRead :=
  match FMap.find? have_ 0, FMap.find? have_ 1 with
  | some lo, some hi => (List.range (hi - lo)).map fun m => ⟨2 + m, d.colidx, 4 * (lo + m), 4⟩
  | _, _ => [⟨0, d.rowptr, 4 * i, 4⟩, ⟨1, d.rowptr, 4 * (i + 1), 4⟩]

/-- The reads of output `t` of row `i`, numbered on from the row's first ones: the old value under `.acc`, and each value
with the elements of P, or of P and Q, that it meets (R283). `col m` is the column of the row's nonzero `m`. -/
def spReads (k : SpKind) (d : SpDesc) (f : Rrr) (i lo hi t : Nat) (col : Nat → Nat) : List SpRead :=
  let z := spSize f
  let k0 := 2 + (hi - lo)
  let sum := fun (n : Nat) (val p : Nat → Nat) =>
    (if f.rs.getLsbD 0 then [⟨k0, spAddr k d i lo t, 0, 4⟩] else [])
      ++ (List.range n).flatMap fun m => [⟨k0 + 1 + 2 * m, d.vals, val m * z, z⟩, ⟨k0 + 2 + 2 * m, d.paddr, p m, z⟩]
  match k with
  | .spmv => sum (hi - lo) (fun m => lo + m) fun m => col m * z
  | .csr => sum (hi - lo) (fun m => lo + m) fun m => col m * d.ppitch + t * z
  | .bsr => sum ((hi - lo) * d.bs) (fun m => ((lo + m / d.bs) * d.bs + t / d.ncol) * d.bs + m % d.bs)
      fun m => (col (m / d.bs) * d.bs + m % d.bs) * d.ppitch + t % d.ncol * z
  | .sddmm => ⟨k0, d.vals, (lo + t) * z, z⟩ :: (List.range d.ncol).flatMap fun c =>
      [⟨k0 + 1 + 2 * c, d.paddr, i * d.ppitch + c * z, z⟩, ⟨k0 + 2 + 2 * c, d.qaddr, col t * d.qpitch + c * z, z⟩]

/-- An output from its reads (R283). -/
def spValue (k : SpKind) (d : SpDesc) (f : Rrr) (lo hi : Nat) (get : Nat → Nat) : Nat :=
  let k0 := 2 + (hi - lo)
  let val := fun (n : Nat) => (fmtOf f.ty.toNat).decode (get (k0 + n))
  let sum := fun (n : Nat) => (List.range n).foldl (fun acc m => spStep acc (val (1 + 2 * m)) (val (2 + 2 * m)))
    (if f.rs.getLsbD 0 then get k0 else 0)
  match k with
  | .spmv | .csr => sum (hi - lo)
  | .bsr => sum ((hi - lo) * d.bs)
  | .sddmm =>
    let dot := (f32.roundVal 0 (sumVals ((List.range d.ncol).map fun c => product (val (1 + 2 * c)) (val (2 + 2 * c))))).1
    (f32.mul 0 (val 0) (f32.decode dot)).1

/-- The column of nonzero `m` of the row at work. -/
def Job.spCol (j : Job) (m : Nat) : Nat := FMap.get j.reads (2 + m) 0

/-- Every read and write of the outputs of a row checked (R154, R184). -/
def State.spCheck (s : State) (key : Nat) (j : Job) (k : SpKind) (f : Rrr) (i lo hi : Nat) : M Unit := do
  let d := spDesc j.aux
  let _ ← (List.range (spCount k d lo hi)).foldlM (fun (s : State) t => do
    let s ← (spReads k d f i lo hi t j.spCol).foldlM (fun (s : State) r =>
      s.elemCheck key { readAcc true false (r.base + BitVec.ofNat 64 r.off) r.len with align := r.len }) s
    s.elemCheck key { writeAcc .element false (spAddr k d i lo t) 4 with align := 4 }) s
  .ok ()

/-- One of the reads that are left performed; which one is free (R293). A column beyond COLS fails as it is read. -/
def State.spRead (s : State) (key : Nat) (j : Job) (left : List SpRead) (first : Bool) : M State := do
  let (x, s) := s.draw
  let r := nthD left (x % left.length) ⟨0, 0, 0, 0⟩
  let (v, s) ← s.arrayRead key j r.base r.off r.len
  if first && decide (2 ≤ r.no ∧ (spDesc j.aux).cols ≤ v) then failWith (cause 0xA1)
  else .ok (s.modJob key j.id fun (y : Job) => { y with reads := FMap.put y.reads r.no v })

/-- The reads of a list that are not performed yet. -/
def Job.unread (j : Job) (rs : List SpRead) : List SpRead := rs.filter fun r => (FMap.find? j.reads r.no).isNone

/-- A step of a row of a sparse command (R283): a read of its pointers and columns, then the checks of the whole row, since
a row that fails is not performed (R184), then, output by output, a read or the write. -/
def State.spRow (key : Nat) (j : Job) (k : SpKind) (f : Rrr) (i : Nat) (part : List Nat) (s : State) :
    M (State × Option (List Nat)) := do
  let d := spDesc j.aux
  match part with
  | [lo, hi, t, n] =>
    match j.unread (spReads k d f i lo hi t j.spCol) with
    | [] =>
      let s ← s.elemCheck key { writeAcc .element false (spAddr k d i lo t) 4 with align := 4 }
      let s ← State.writeRange key j .element false 2 s (spAddr k d i lo t)
        (leBytes 4 (spValue k d f lo hi fun x => FMap.get j.reads x 0))
      if t + 1 < spCount k d lo hi then
        .ok (s.modJob key j.id fun (y : Job) => { y with reads := y.reads.filter fun e => decide (e.1 < 2 + (hi - lo)) },
          some [lo, hi, t + 1, 0])
      else .ok (s.modJob key j.id fun (y : Job) => { y with reads := [] }, none)
    | left => .ok (← s.spRead key j left false, some [lo, hi, t, n + 1])
  | _ =>
    match j.unread (spFirst d i j.reads) with
    | [] =>
      let lo := FMap.get j.reads 0 0
      let hi := FMap.get j.reads 1 0
      if hi < lo then failWith (cause 0xA4)
      else do
        s.spCheck key j k f i lo hi
        if spCount k d lo hi = 0 then .ok (s.modJob key j.id fun (y : Job) => { y with reads := [] }, none)
        else .ok (s, some [lo, hi, 0, 0])
    | left => .ok (← s.spRead key j left true, some [part.headD 0 + 1])

/-- The scratchpad ranges a sparse command writes (R185). The outputs of an SDDMM run from the first row pointer to the
last, `lo` and `hi`. -/
def State.spLocks (s : State) (key : Nat) (k : SpKind) (d : SpDesc) (lo hi : Nat) : List (Nat × Nat) :=
  match k with
  | .spmv => s.lockRows key d.oaddr 0 (4 * d.rows) 1
  | .csr => s.lockRows key d.oaddr d.opitch (4 * d.ncol) d.rows
  | .bsr => s.lockRows key d.oaddr d.opitch (4 * d.ncol) (d.rows * d.bs)
  | .sddmm => s.lockRows key (d.oaddr + BitVec.ofNat 64 (4 * lo)) 0 (4 * (hi - lo)) 1

/-- The row pointers that fix the outputs of an SDDMM, read as the command begins (R185). -/
def spEnds (k : SpKind) (d : SpDesc) : List SpRead :=
  if k = .sddmm then [⟨0, d.rowptr, 0, 4⟩, ⟨1, d.rowptr, 4 * d.rows, 4⟩] else []

/-- A row pointer read as the command begins; 0 stands for one whose read fails, since the command then meets that cause at
the row. -/
def State.spEnd (s : State) (key : Nat) (j : Job) (r : SpRead) : M State :=
  match s.arrayRead key j r.base r.off r.len with
  | .ok (v, s) => .ok (s.modJob key j.id fun (y : Job) => { y with reads := FMap.put y.reads (2 ^ 32 + r.no) v })
  | .error (.cause _ _) => .ok (s.modJob key j.id fun (y : Job) => { y with reads := FMap.put y.reads (2 ^ 32 + r.no) 0 })
  | .error e => .error e

/-- The preparation of a sparse command: its descriptor read, then what fixes the range that it writes, which is locked. -/
def State.spPrep (key : Nat) (j : Job) (k : SpKind) (s : State) : M State :=
  let o := j.va.toNat
  if o % 16 ≠ 0 then failWith { code := 0x20, addr := j.va }
  else if spadBytes < o + 128 then failWith { code := 0x23, addr := j.va }
  else match s.localGather key j [(o, 128)] with
    | some r => r
    | none =>
      let ds := (j.gathered (o, 128) 0).map BitVec.toNat
      let d := spDesc ds
      let bad := spBad k ds
      match if bad then [] else (spEnds k d).filter fun r => (FMap.find? j.reads (2 ^ 32 + r.no)).isNone with
      | r :: _ => s.spEnd key j r
      | [] =>
        let at_ := fun n => FMap.get j.reads (2 ^ 32 + n) 0
        .ok (s.modJob key j.id fun (x : Job) => { x with
          aux := ds, reads := [], locks := if bad then [] else s.spLocks key k d (at_ 0) (at_ 1) })

/-- The elements of a sparse command: its rows, once the descriptor is read. -/
def State.sparsePlan (key : Nat) (j : Job) (k : SpKind) (f : Rrr) : Plan :=
  { prep := if j.aux.isEmpty then some (State.spPrep key j k) else none
    check := if spBad k j.aux then some { code := 0xA4, addr := j.va } else none
    count := (spDesc j.aux).rows
    elem := fun i part s => State.spRow key j k f i part s }

/-- The issue of a sparse word. -/
def sparseWord (f : Rrr) (i : Instr) (s : State) : Result :=
  runWord f.hdr f.w1.isSome false (fun s => seqM do
    s.queueRoom 8
    let (a, s) ← s.src f.a (litVal f.ty.toNat f.w1)
    .ok (s.accept { s.newJob f.hdr i with va := a })) s

/-- SPMM.CSR (R283). -/
def execSpmmCsr (f : Rrr) (s : State) : Result := sparseWord f (.spmmCsr f) s
/-- SPMM.BSR. -/
def execSpmmBsr (f : Rrr) (s : State) : Result := sparseWord f (.spmmBsr f) s
/-- SDDMM. -/
def execSddmm (f : Rrr) (s : State) : Result := sparseWord f (.sddmm f) s
/-- SPMV. -/
def execSpmv (f : Rrr) (s : State) : Result := sparseWord f (.spmv f) s

end Sys2Proof.Machine
end

