-- ==== Sys2Proof/Machine/Jobs.lean ====
section
/-! DEFINITION. Accepted commands at work (R181 to R185, R262, R277, R281): the next element, completion, commits and
tokens; tiles applied at a peer (R272), pushes that wait (R289, R290), and messages performed (R311). -/

namespace Sys2Proof.Machine

/-- How a job's elements are performed. -/
def State.plan (s : State) (key : Nat) (j : Job) : Plan :=
  match j.ins with
  | .copy f => s.copyPlan key j f
  | .copyThIn f => s.copyThPlan key j f false
  | .copyThOut f => s.copyThPlan key j f true
  | .copym f => s.copymPlan key j f
  | .gather f => State.gatherPlan key j f
  | .scatter f => State.scatterPlan key j f
  | .prefetch f => State.prefetchPlan key j f
  | .mgo f => State.mgoPlan key j f
  | .mdrainSpad f => s.drainPlan key j f true false
  | .mdrainGlob f => s.drainPlan key j f false false
  | .mdrainGlobAdd f => s.drainPlan key j f false true
  | .mdrainPeer f => s.peerPlan key j f
  | .rgoMax _ => State.rgoPlan key j 0
  | .rgoExpsum _ => State.rgoPlan key j 1
  | .rgoScale _ => State.rgoPlan key j 2
  | .rgoNorm _ => State.rgoPlan key j 3
  | .sort f => State.sortPlan key j (.sort f) f
  | .segsort f => State.sortPlan key j (.segsort f) f
  | .merge f => State.sortPlan key j (.merge f) f
  | .topk f => State.sortPlan key j (.topk f) f
  | .ksel f => State.sortPlan key j (.ksel f) f
  | .uniq f => State.sortPlan key j (.uniq f) f
  | .spmmCsr f => State.sparsePlan key j .csr f
  | .spmmBsr f => State.sparsePlan key j .bsr f
  | .sddmm f => State.sparsePlan key j .sddmm f
  | .spmv f => State.sparsePlan key j .spmv f
  | _ => { count := 0, elem := fun _ _ s => .ok (s, none) }

/-- The region of a drain holds an element that an MGO updates (R262). -/
def drainMeets (d m : Job) : Bool :=
  match d.ins with
  | .mdrainSpad f | .mdrainGlob f | .mdrainGlobAdd f | .mdrainPeer f =>
    let r := drainB d.vb
    m.points.any fun n => n / 32768 == f.d.toNat && decide (r.row0 ≤ n % 32768 / 256 ∧ n % 32768 / 256 < r.row0 + r.nrows)
      && decide (r.col0 ≤ n % 256 ∧ n % 256 < r.col0 + r.ncols)
  | _ => false

/-- A job of A runs beside others; M keeps its accumulators in program order (R262), W and K take their commands one
at a time (R277, R281). -/
def Cell.mayPerform (c : Cell) (j : Job) : Bool :=
  let earlier := c.jobs.filter fun x => decide (x.id < j.id) && x.eng == j.eng && !x.finished
  match j.eng, j.ins with
  | .a, _ => true
  | .m, .mgo _ => earlier.all fun x => x.sent || (!Instr.isMgo x.ins && !drainMeets x j)
  | .m, _ => earlier.all fun x => !(Instr.isMgo x.ins && drainMeets j x)
  | _, _ => earlier.isEmpty

/-! ## Completion -/

/-- A job met a cause at its next element (R184). -/
def State.jobCause (s : State) (key : Nat) (j : Job) (r : Raise) : State :=
  let t := { r.at_ j.eng j.pc j.pos with celem := some (r.celem.getD j.next) }
  s.setCell key ((s.cell key).takeCause (chipClass (keyChip key)) s.tick t (s.cWait key))

/-- COPYM and SCATTER perform no element above the one that faults (R184). -/
def inOrder : Instr → Bool
  | .copym _ | .scatter _ => true
  | _ => false

/-- Watchpoint counts after a step of an element, under the watchpoints that have counted the element before: each
counts it once (R418). -/
def clampWatch (hit : Nat) (old new : List WatchPt) : List WatchPt :=
  new.zipIdx.map fun e =>
    let was := (nthD old e.2 WatchPt.zero).cnt
    { e.1 with cnt := if hit.testBit e.2 then was else min e.1.cnt (was + 1) }

/-- The watchpoints whose count a step has moved. -/
def hitMask (old new : List WatchPt) : Nat :=
  (List.range 8).foldl (fun a i =>
    a + (if (nthD old i WatchPt.zero).cnt ≠ (nthD new i WatchPt.zero).cnt then 2 ^ i else 0)) 0

/-- An element performed to its end from what of it is performed, within a number of steps, where nothing stops it; `hit`
marks the watchpoints that have counted it. -/
def runElem (p : Plan) (key k : Nat) : Nat → Nat → List Nat → State → State
  | 0, _, _, s => s
  | n + 1, hit, part, s =>
    match p.elem k part s with
    | .ok (t, rest) =>
      let watch := clampWatch hit (s.cell key).watch (t.cell key).watch
      let t := t.setCell key { t.cell key with watch := watch }
      match rest with
      | some q => runElem p key k n (hit ||| hitMask (s.cell key).watch watch) q t
      | none => t
    | .error _ => s

/-- Elements above one that faults, of which some may have been performed (R184; log entry 29). -/
def State.laterElems (s : State) (key : Nat) (j : Job) (p : Plan) : State :=
  if inOrder j.ins || j.eng != .a then s
  else
    let (x, s) := s.draw
    ((List.range p.count).filter fun k => decide (j.next < k) && Config.partialElems x k).foldl
      (fun (s : State) k => runElem p key k (2 ^ 24) 0 [] s) s

/-- A job's element did not finish. -/
def State.jobStop (s : State) (key : Nat) (j : Job) : Stop → State
  | .block _ | .wait _ _ => s
  | .bank k => s.modJob key j.id fun (x : Job) => { x with bank := some (k, (s.cell k).serial) }
  | .cause r after => ((after.getD s).laterElems key j (s.plan key j)).jobCause key j r
  | .tile id i w fetch =>
    (if fetch then s.startFetch id i (match j.ins with | .prefetch f => if f.fl.getLsbD 0 then spxOf key else none | _ => none) else s).hold id i w
  | .page ctx page w addr =>
    let t := Raise.at_ { code := 0x24, addr := addr, celem := some j.next } j.eng j.pc j.pos
    let node := (s.cell key).node
    s.askPage ⟨ctx, page, w, key, j.eng, some j.id, addr, false⟩ t (keyChip key) (keyCell key) node (s.nodeQueue node)

/-- The commit of a job whose elements are performed (R167): applied when no earlier commit of its ring is pending. -/
def State.jobCommit (s : State) (key : Nat) (j : Job) : State :=
  match j.cmt with
  | none => s
  | some n =>
    let c := s.cell key
    if c.jobs.any (fun x => decide (x.id < j.id) && x.cmt == some n) then s
    else
      let r := c.ring n
      match s.watchRing key r.barrier 8 with
      | .ok s =>
        match s.ownOff key r.barrier with
        | some off => (s.commitRing key n off).modJob key j.id fun (x : Job) => { x with cmt := none }
        | none => s
      | .error e => s.jobStop key j e

/-- The completion token of a job (R85, R290), which brings T0 of M's next stamp its acceptance tick (R441). -/
def State.jobToken (s : State) (key : Nat) (j : Job) : State :=
  let c := s.cell key
  let drop := fun (c : Cell) => { c with jobs := c.jobs.filter fun x => x.id != j.id, pollSince := s.tick }
  match j.sig with
  | none => s.setCell key (drop c)
  | some p =>
    match c.completeTok p (some j.accTick) with
    | none => s
    | some c => s.setCell key (drop c)

/-- What is left of a job whose elements are performed: its commit, the stamp of its tile, its token. -/
def State.jobDone (s : State) (key id : Nat) : State :=
  match (s.cell key).job? id with
  | none => s
  | some j =>
    if !j.finished || j.dead (s.cell key) then s
    else
      let s := s.jobCommit key j
      match (s.cell key).job? id with
      | none => s
      | some j =>
        if j.cmt.isSome then s
        else
          let c := s.cell key
          let close := fun (x : Stamp) =>
            if x.drain == some id && x.out.isNone then { x with out := some s.tick } else x
          let s := s.setCell key { c with stamps := c.stamps.map close }
          let s := s.produceStamps key
          -- R440: under STALL the token waits for the record; else it does not
          if (s.cell key).stamps.any (fun (x : Stamp) => x.drain == some id && x.due.isSome && x.stall) then s
          else s.jobToken key j

/-! ## Elements -/

/-- What a step of an element leaves: the counts, and how far the job has come. -/
def State.jobMoved (s : State) (key : Nat) (j : Job) (t : State) (part : Option (List Nat)) : State :=
  let c := t.cell key
  let watch := clampWatch j.hit (s.cell key).watch c.watch
  (t.setCell key { c with watch := watch }).modJob key j.id fun (x : Job) =>
    match part with
    | some p => { x with part := p, hit := x.hit ||| hitMask (s.cell key).watch watch, bank := none }
    | none => { x with next := x.next + 1, part := [], hit := 0, bank := none }

/-- The next step of a job's next element, or what follows the last one. -/
def State.jobElem (s : State) (key : Nat) (j : Job) (p : Plan) : State :=
  if j.next < p.count then
    match p.elem j.next j.part s with
    | .ok (t, part) => s.jobMoved key j t part
    | .error e => s.jobStop key j e
  else if j.sent then s
  else
    match p.finish s with
    | .ok t => (t.modJob key j.id fun (x : Job) => { x with finished := true }).jobDone key j.id
    | .error e => s.jobStop key j e

/-- One more step of a job: its preparation, a step of its next element, or what follows the last. A cause found before
is met at its element. -/
def State.jobStep (s : State) (key : Nat) (j : Job) : State :=
  let p := s.plan key j
  match p.prep with
  | some f => (match f s with | .ok t => t.leaveTiles (s.jobWaiter key j.id) none | .error e => s.jobStop key j e)
  | none =>
    match (if j.next = 0 ∧ j.part = [] then p.check else none), j.late with
    | some r, _ => s.jobCause key j r
    | none, some (k, t) =>
      -- an MGO has then applied the groups below to every output point (R264)
      if (if Instr.isMgo j.ins then decide (p.count ≤ j.next) else k == j.next) then
        let s := s.laterElems key j p
        s.setCell key ((s.cell key).takeCause (chipClass (keyChip key)) s.tick { t with celem := some k } (s.cWait key))
      else s.jobElem key j p
    | none, none => s.jobElem key j p

/-- A page request of a job was answered with KILL (R391): the access raises 0x24 at its element, for a mask of COPYM at
the first row whose bit it would have read (R184, R190). -/
def State.jobKilled (s : State) (key : Nat) (j : Job) (q : FaultReq) : State :=
  let s := { s with faults := s.faults.filter fun r => r != q }
  let r : Raise := { code := 0x24, addr := q.addr }
  match j.ins, j.aux with
  | .copym _, [] =>
    let k := 8 * ((addrVa q.addr + 2 ^ 57 - addrVa j.va) % 2 ^ 57)
    s.modJob key j.id fun (x : Job) => { x with late := some (k, r.at_ j.eng j.pc j.pos) }
  | .mgo _, _ =>
    if !j.started then s.jobCause key j r
    else (s.nestCause key j (j.part.headD 0) r).modJob key j.id fun (x : Job) => { x with next := x.next + 1, part := [] }
  | _, _ => (s.laterElems key j (s.plan key j)).jobCause key j r

/-- A job's next step, where it may take one: its shard runs, or its node is discarded
and the job stands within an element, at whose end it stops, or an access of it waits at the home (R392, steps 2 and 3);
its engine's order admits it, no cause and no page request of its own holds it. -/
def State.jobTurn (s : State) (key id : Nat) : State :=
  let c := s.cell key
  match c.job? id with
  | none => s
  | some j =>
    if !(c.phase == .running || c.phase == .halted || (c.phase == .halting && (!j.part.isEmpty || s.jobHeld key id))) || j.dead c then s
    else if j.finished then s.jobDone key id
    else match s.faults.find? fun r => r.cell == key && r.job == some id with
      | some q => if q.killed then s.jobKilled key j q else s
      | none =>
        if !c.mayPerform j then s
        else match j.early with
          | some t =>
            s.setCell key (c.takeCause (chipClass (keyChip key)) s.tick { t with celem := some 0 } (s.cWait key))
          | none => s.jobStep key j

/-- The same, the job being the one whose accesses are performed. -/
def State.jobNext (s : State) (key id : Nat) : State :=
  { { s with actor := some (.job key id 0 []) }.jobTurn key id with actor := s.actor }

/-- Steps of a job, one after another. -/
def State.jobRun (key id : Nat) : Nat → State → State
  | 0, s => s
  | n + 1, s =>
    let t := s.jobNext key id
    if (t.cell key).job? id = (s.cell key).job? id ∨ ((t.cell key).job? id).isNone then t else State.jobRun key id n t

/-- ASYNC_COMPLETION (R182, R290): what is left of a command is performed, in as many steps as it takes, and it
completes; where something holds it, it stands where it came to. -/
def execAsyncCompletion (cell job : Nat) (s : State) : Result := event (State.jobRun cell job (2 ^ 40) s)

/-- COMPLETION_QUEUE_APPLY (R290): an entry that no earlier one of its counter precedes, when the counter takes it. -/
def execCompletionQueueApply (cell : Nat) (e : EngTag) (idx : Nat) (s : State) : Result :=
  event (
    let c := s.cell cell
    let g := c.eng e
    match g.cq[idx]? with
    | none => s
    | some n =>
      if (g.cq.take idx).contains n || g.counter n.toNat == 255 then s
      else s.setCell cell ((c.setEng e { g.setCounter n.toNat (g.counter n.toNat + 1) with cq := g.cq.eraseIdx idx }).noteCq e n 1))

/-- HELD_PUSH_ACCEPT (R289): the push an engine holds is accepted. -/
def execHeldPushAccept (cell : Nat) (e : EngTag) (s : State) : Result :=
  event (
    let c := s.cell cell
    match (c.eng e).held with
    | none => s
    | some p =>
      match c.retireTok e p with
      | none => s
      | some c => s.setCell cell { c.setEng e { c.eng e with held := none, reason := 0 } with stalledSince := none })

/-- A tile of a peer changed. -/
def Cell.setTileIn (c : Cell) (idx : Nat) (t : PeerTile) : Cell := { c with peerIn := setNth c.peerIn idx t }

/-- The tokens of a tile all of whose elements are added, at the peer and at the source (R272, R290). -/
def State.tileTokens (s : State) (cell idx : Nat) (t : PeerTile) : State :=
  let c := s.cell cell
  match (match t.push with | none => some c | some p => c.completeTok p none) with
  | none => s
  | some c =>
    let s := s.setCell cell { c with peerIn := c.peerIn.eraseIdx idx }
    (s.modJob t.src t.job fun (x : Job) => { x with finished := true }).jobDone t.src t.job

/-- PEER_TILE_APPLY (R272): the next element of a tile added into its accumulator; after the last one the round goes
on, and the tokens of both cells are pushed. -/
def execPeerTileApply (cell idx : Nat) (s : State) : Result :=
  event (
    let c := s.cell cell
    match c.peerIn[idx]? with
    | none => s
    | some t =>
      if t.done then s.tileTokens cell idx t
      else if !c.serves || !c.tileMayGo idx t then s
      else match t.elems with
        | e :: es => s.setCell cell ((c.addElem t e).setTileIn idx { t with elems := es })
        | [] =>
          let t := { t with done := true }
          (s.setCell cell ((c.setTileIn idx t).closeRound t)).tileTokens cell idx t)

/-- A message of a die performed at its home or bank, where the order of R308, R311 and R313 lets it be next. -/
def State.performMessage (s : State) (chip idx : Nat) : State :=
  let d := s.die chip
  match d.out[idx]? with
  | none => s
  | some m =>
    if !mayGo (d.out.take idx) m then s
    else match s.perform chip m with
      | .ok s => s.dropMsg chip m
      | .error (.tile id i w fetch) => (if fetch then s.startFetch id i none else s).hold id i w
      | .error _ => s

/-- ACCESS_PERFORMED (R311). -/
def execAccessPerformed (t : PerfTarget) (s : State) : Result :=
  event (match t with
    | .message chip idx => s.performMessage chip idx
    | .element cell job => s.jobNext cell job)

end Sys2Proof.Machine
end

