-- ==== Sys2Proof/Machine/CellEvents.lean ====
section
/-! DEFINITION. What happens in a cell beside its words: trap entry, stalls and stops, the scratchpad clear, timed
start, retirement, L1 evictions, waits that end (R60, R61, R132, R137, R146, R305, R309, R354, R408, R440). -/

namespace Sys2Proof.Machine

/-- TRAP_ENTRY (R146): once no other engine stands in a word that has issued and waits outside the cell, C enters
the handler; a fatal cause raised before that takes precedence (R149). -/
def execTrapEntry (cell : Nat) (s : State) : Result :=
  event (
    let c := s.cell cell
    match c.pendTrap with
    | none => s
    | some t =>
      if !c.fatals.isEmpty then s.setCell cell { c with pendTrap := none }
      else if (c.live (chipClass (keyChip cell))).all fun e => e == t.eng || !(c.eng e).outside then
        s.setCell cell (c.trapEntry t (s.cWait cell))
      else s)

/-- The shard of a cell has nothing in flight but its engines (R305), and no record of it waits for room (R440). -/
def State.quiet (s : State) (key : Nat) : Bool :=
  let c := s.cell key
  c.jobs.isEmpty && c.stamps.all (fun x => x.due.isNone) && EngTag.all.all (fun e => (c.eng e).cq.isEmpty)
    && !((s.die (keyChip key)).out.any fun m => m.cell == keyCell key) && !(s.faults.any fun r => r.cell == key)
    && c.pendTrap.isNone && c.fatals.isEmpty && c.handler.isNone && c.phase == .running

/-- A reason code of R304 that only the shard's own cell can end. -/
def internalReason (r : Nat) : Bool := decide (1 ≤ r ∧ r ≤ 11)

/-- The cause of a stalled shard (R305, R413): the two lowest-tagged live engines, and every reason code. -/
def Cell.stallCause (c : Cell) (cls : DieClass) : Option Cause :=
  match c.live cls with
  | [] => none
  | e :: es =>
    let g := c.eng e
    let pc2 := es.head?.map fun (x : EngTag) => ((c.eng x).pc, x)
    some (Raise.at_ { code := 0x81, aux := BitVec.ofNat 64 (c.reasons cls), pc2 := pc2 } e g.pc g.pos)

/-- ENGINE_STALL (R305): the first time it notes the tick, and asks every engine that has not issued to show its
reason again; when none has passed a word for 2^18 ticks and every live engine is blocked inside the cell, the
shard stops. -/
def execEngineStall (cell : Nat) (s : State) : Result :=
  event (
    let c := s.cell cell
    let cls := chipClass (keyChip cell)
    if !s.quiet cell || (c.live cls).isEmpty then s.setCell cell { c with stalledSince := none }
    else match c.stalledSince with
      | none =>
        let c := EngTag.all.foldl (fun (c : Cell) e =>
          let g := c.eng e
          if g.issued then c else c.setEng e { g with reason := 0 }) c
        s.setCell cell { c with stalledSince := some s.tick }
      | some t =>
        if s.tick < t + 2 ^ 18 || !((c.live cls).all fun e => internalReason (c.eng e).reason) then s
        else match c.stallCause cls with
          | some x => s.setCell cell { c with fatals := (s.tick, x) :: c.fatals }
          | none => s)

/-- SHARD_STOP (R408): the node of a cell that has recorded a fatal cause stops; a context-class cause terminates
the context (R428), also one that a prologue or the GSD met for it (keys from 2^21 on). -/
def execShardStop (cell : Nat) (s : State) : Result := event (s.stopFor cell)

/-- SCRATCHPAD_CLEAR_DONE (R61): the shard's words may issue, or it is held for its start tick (R354). -/
def execScratchpadClearDone (cell : Nat) (s : State) : Result :=
  event (
    let c := s.cell cell
    if c.phase ≠ .clearing then s
    else s.setCell cell { c with phase := if s.tick < c.startTick then .timed else .running, pollSince := s.tick })

/-- TIMED_START (R354). -/
def execTimedStart (cell : Nat) (s : State) : Result :=
  event (
    let c := s.cell cell
    if c.phase = .timed ∧ c.startTick ≤ s.tick then
      s.setCell cell { c with phase := .running, pollSince := s.tick }
    else s)

/-- SHARD_RETIRE (R132): every present engine is at END and all asynchronous work has completed. The cell's writes
reach their homes (R316), its restart record stays with the node (R394), the identities of its last region go (R299, R300), and the cell is free; the node's last
shard takes it to RETIRING (R340). -/
def execShardRetire (cell : Nat) (s : State) : Result :=
  event (
    let s := s.produceStamps cell
    let c := s.cell cell
    let cls := chipClass (keyChip cell)
    if c.phase ≠ .running || !(c.live cls).isEmpty || !c.jobs.isEmpty || !c.stamps.isEmpty || !c.peerIn.isEmpty
        || !c.fatals.isEmpty || c.pendTrap.isSome || c.handler.isSome then s
    else
      let t := s.drainCell cell (s.cellPart cell)
      -- R324: bytes that no path leads home terminate the context; the shard does not retire
      if t.condemnedOf (t.nodeCtx c.node) != s.condemnedOf (s.nodeCtx c.node) then t
      else
        let s := (t.dropKept c.node c.flatC c.flatD c.rinst).freeCell cell
        let s := s.modNode c.node fun (d : Node) => { d with records := FMap.put d.records (256 * c.flatD + c.flatC) c.record }
        if (s.nodeCells c.node).isEmpty then s.arrive c.node .retiring else s)

/-- The instruction at C's program counter. -/
def State.cInstr (s : State) (key : Nat) : Option Instr :=
  let c := s.cell key
  match s.sectionOf key c with
  | some x => c.instrAt (chipClass (keyChip key)) x.words (c.engC.pc / 8)
  | none => none

/-- WAITTICK_END (R137): the word at which C waits ends once its tick has come. -/
def execWaittickEnd (cell : Nat) (s : State) : Result :=
  if !(s.cell cell).engC.issued || (FMap.find? s.cells cell).isNone then event s
  else match s.cInstr cell with
    | some (.waittick f) => execWaittick f { s with cur := .cell cell .c }
    | _ => event s

/-- TRACE_RETRY (R440): a stamp, and with it the token of its drain, or a mark that waits for room is tried again. -/
def execTraceRetry (cell : Nat) (s : State) : Result :=
  if (FMap.find? s.cells cell).isNone then event s
  else
    let s := s.produceStamps cell
    let s := (s.cell cell).jobs.foldl (fun (s : State) j =>
      if j.finished && j.eng == .m then s.jobDone cell j.id else s) s
    match (s.cell cell).engC.issued, s.cInstr cell with
    | true, some (.mark f) => execMark f { s with cur := .cell cell .c }
    | _, _ => event s

/-- R306, R139: a line that the L1 does not hold leaves the other caches that may hold a clean copy of it: the RDC of
the cell's die, by the line's location, and the cell's instruction cache, by the line's offset in the section. -/
def State.replaced (s : State) (cell line : Nat) : State :=
  (s.setDie (keyChip cell) ((s.die (keyChip cell)).rdcDrop line)).setCell cell ((s.cell cell).icDrop line 64)

/-- L1_EVICTION (R309): a line leaves the L1, its dirty bytes going to the die level. A line that the L1 does not hold
leaves the RDC and the instruction cache by replacement (R306). -/
def execL1Eviction (cell line : Nat) (s : State) : Result :=
  event (if (s.cell cell).l1Holds (lineOf line) then
      match s.l1Evict cell (s.cellPart cell) (lineOf line) true with
      | .ok t => t
      | .error _ => s
    else s.replaced cell (lineOf line))

end Sys2Proof.Machine
end

