-- ==== Sys2Proof/Machine/Residency.lean ====
section
/-! DEFINITION. What ends a tile's move, the hit counters of row lines, lost links, scrubbing (R324, R363 to R366, R376,
R379, R414, R425 to R427). -/

namespace Sys2Proof.Machine

/-! ## Moves (R363, R365, R376) -/

/-- TILE_FETCH_COMPLETE (R363, R365, R376). -/
def execTileFetchComplete (buf tile : Nat) (s : State) : Result := event ((s.fetchDone buf tile).lateFree buf)

/-- TILE_EVICT_COMPLETE (R363, R414). -/
def execTileEvictComplete (buf tile : Nat) (s : State) : Result := event ((s.evictDone buf tile).lateFree buf)

/-- ROW_COUNTER_HALVE (R379). -/
def execRowCounterHalve (chip : Nat) (s : State) : Result := event (s.halve chip)

/-! ## Lost links (R324) -/

/-- The messages of a die to homes that no path reaches: the message and its home. -/
def State.lostMessages (s : State) (chip : Nat) : List (Msg × Nat) :=
  (s.die chip).out.filterMap fun m =>
    if s.reaches chip m.cell m.dest then none else some (m, s.destChip chip m.cell m.dest)

/-- The messages of a die that cannot be delivered dropped, and their contexts terminated. -/
def State.dropLost (s : State) (chip : Nat) : State :=
  let lost := s.lostMessages chip
  let ctxOf := fun (m : Msg) => s.nodeCtx (s.cell (cellKey chip m.cell)).node
  let named := lost.map fun x => (ctxOf x.1, x.2)
  let gone := lost.map fun x => (x.1.home, x.1.seq)
  let d := s.die chip
  let s := s.setDie chip { d with out := d.out.filter fun m => !gone.contains (m.home, m.seq) }
  named.foldl (fun (s : State) x => s.terminateFor x.1 0xE2 x.2) s

/-- LINK_FAILURE (R324): messages go by another path with their numbers, so that each is applied once; with no path
left, the contexts with a message outstanding are terminated. -/
def execLinkFailure (chipA chipB : Nat) (s : State) : Result :=
  event (
    let here := s.links.any fun l => l == (chipA, chipB) || l == (chipB, chipA)
    let known := s.deadLinks.contains (chipA, chipB) || s.deadLinks.contains (chipB, chipA)
    if !here || known then s
    else (List.range 44).foldl State.dropLost { s with deadLinks := s.deadLinks ++ [(min chipA chipB, max chipA chipB)] })

/-! ## Scrubbing (R425 to R427) -/

/-- The error counters of a chiplet (R426): CE, UE, KIND, PADDR. -/
def State.errOf (s : State) (chip : Nat) : Nat × Nat × Nat × Nat := FMap.get s.errs chip (0, 0, 0, 0)

/-- A corrected error counted. -/
def State.countCe (s : State) (chip : Nat) : State :=
  let e := s.errOf chip
  { s with errs := FMap.put s.errs chip (min (e.1 + 1) (2 ^ 32 - 1), e.2) }

/-- An uncorrectable error counted and told to the host (R426, R427, R457). -/
def State.countUe (s : State) (chip kind addr source : Nat) : State :=
  let e := s.errOf chip
  let s := { s with errs := FMap.put s.errs chip (e.1, min (e.2.1 + 1) (2 ^ 32 - 1), kind, addr % 2 ^ 48) }
  s.postEvent 5 (s.die chip).part 0 [(8, 1, chip), (9, 1, kind), (10, 1, source), (16, 8, addr)] []

/-- Write-backs that met an uncorrectable error: each is counted and told to the host (R427, R457). The error is counted
at the chiplet of the granule. -/
def State.writeBackErrors (s : State) : State :=
  s.ueFound.foldl (fun (s : State) p => s.countUe (if p < 2 ^ 40 then memDie p else p % 2 ^ 40 / 2 ^ 28) (placeKind p) (placeAddr p) 1)
    { s with ueFound := [] }

/-- What a scrub of a chiplet reads at a place. -/
inductive Scrubbed where
  /-- the granule of a location -/
  | data (loc : Nat)
  /-- a copy of a line of which a good copy lies elsewhere -/
  | copy (line : Nat)
  /-- a line of a die cache that HBM does not hold yet -/
  | dirty (loc : Nat)
  /-- a line of a die cache that HBM holds too -/
  | cached (line : Nat)
  /-- a line of a cell's L1 -/
  | l1 (key line : Nat)
  /-- an entry of the die TLB -/
  | dieTlb (page : Nat)
  /-- an entry of a cell's L1 TLB -/
  | cellTlb (key page : Nat)
  /-- a restart record of a shard of a context -/
  | record (ctx : Nat)
  /-- state of the GSD that contexts share -/
  | shared
  /-- the state of a queue -/
  | queue (q : Nat)
  /-- the entry or a silt log of a buffer -/
  | buffer (id : Nat)
  /-- nothing that is scrubbed -/
  | nothing
  deriving DecidableEq, Repr

/-- The MEM die whose table shard holds the entry of a buffer id: number b mod m of the m that are present (R336). -/
def State.tableDie (s : State) (id : Nat) : Option Nat :=
  let mems := (List.range 44).filter fun i => chipClass i == .mem && s.present i
  if 2 ^ 24 ≤ id then none else mems[id % mems.length]?

/-- A MEM die keeps residency records and silt logs of a buffer: it is the memory die of one of its tiles (R360). -/
def State.logDie (s : State) (id chip : Nat) : Bool :=
  match s.buf? id with | some b => b.tiled && b.front.any (fun l => memDie l == chip) | none => false

/-- The places of a chiplet with cells beside those of its data (R425, R427): from 2^100 on the lines of its die cache;
from 2 * 2^100 on those of its cells' L1 caches, 2^90 for each cell; from 3 * 2^100 on the entries of its die TLB, and from
3 * 2^100 + 2^90 on those of its cells' L1 TLBs, 2^90 for each; from 4 * 2^100 on the restart records in its cells, and
from 5 * 2^100 on those that the shadow stores or the GSD hold, 2^16 for each node. -/
def State.scrubbedCore (s : State) (chip place : Nat) : Scrubbed :=
  let k := place / 2 ^ 100
  let x := place % 2 ^ 100
  let key := cellKey chip (x / 2 ^ 90 % 32)
  let y := x % 2 ^ 90
  if k = 1 then
    match FMap.find? (s.die chip).dcache (lineOf x) with
    | some true => .dirty (lineOf x)
    | some false => .cached (lineOf x)
    | none => .nothing
  else if k = 2 then (if (s.cell key).l1Holds (lineOf y) then .l1 key (lineOf y) else .nothing)
  else if k = 3 then
    (if x < 2 ^ 90 then .dieTlb y else .cellTlb (cellKey chip ((x / 2 ^ 90 - 1) % 32)) y)
  else if k = 4 then
    (let n := (s.cell (cellKey chip (x % 32))).node
     if (FMap.find? s.cells (cellKey chip (x % 32))).isSome then .record (s.nodeCtx n) else .nothing)
  else
    match s.node? (x / 2 ^ 16) with
    | some n => if (FMap.find? n.records (x % 2 ^ 16)).isSome then .record n.ctx else .nothing
    | none => .nothing

/-- The places of a chiplet (R425): of the GSD its own state, then the queues; of a MEM die its HBM, and from 2^44 on
the entries of its buffer table shard, from 2^45 on the silt logs by buffer; of a TIER layer the tarn; of an ARITH layer the copies in its caches; of an SPX die
its tile frames, and from 2^44 on its row lines; from 2^100 on what every chiplet with cells holds. An ECC finding of an
ordinary read is an event of the same kind: a corrected error is counted whoever meets it, and a copy that is dropped is
fetched again by the read (DEDUCED, log entry 153). -/
def State.scrubbed (s : State) (chip place : Nat) : Scrubbed :=
  if 2 ^ 100 ≤ place ∧ ((chipClass chip = .dmx ∧ (s.die chip).role = 0) ∨ chipClass chip = .spx) then s.scrubbedCore chip place
  else match chipClass chip with
  | .gsd => if place = 0 then .shared else if place ≤ 4096 then .queue (place - 1) else .nothing
  | .mem =>
    if 2 ^ 45 ≤ place then (if s.logDie (place - 2 ^ 45) chip then .buffer (place - 2 ^ 45) else .nothing)
    else if 2 ^ 44 ≤ place then (if s.tableDie (place - 2 ^ 44) = some chip then .buffer (place - 2 ^ 44) else .nothing)
    else if memDie place = chip ∧ s.frameInService (place / pageBytes) then .data place else .nothing
  | .dmx =>
    if (s.die chip).role = 1 then (if place < tarnBytes then .data (tarnLoc chip place) else .nothing)
    else if (s.die chip).role = 0 then .copy (lineOf place) else .nothing
  | .spx =>
    if 2 ^ 44 ≤ place then .copy (lineOf (place - 2 ^ 44))
    else if place < 2 ^ 27 then .data (spxLoc chip place) else .nothing
  | _ => .nothing

/-- A clean copy of a line dropped by a die (R425). -/
def Die.dropLine (d : Die) (line : Nat) : Die :=
  { d.rdcDrop line with rows := FMap.erase d.rows line }

/-- A line of a cell's L1 dropped where each of its bytes has a good copy elsewhere; with a dirty byte, the read that
meets the error terminates the context (R425, R427). -/
def State.l1Ue (s : State) (chip key line : Nat) : State :=
  let c := s.cell key
  if c.l1.any fun e => lineOf e.1 == line && e.2.dirty then
    s.terminateFor (s.nodeCtx c.node) 0xE1 (line % 2 ^ 48 + 2 * 2 ^ 56)
  else (s.setCell key { c with l1 := c.l1.filter fun e => lineOf e.1 != line, l1Tag := FMap.erase c.l1Tag line }).countCe chip

/-- An uncorrectable error that a scrub or a read finds (R425, R427). -/
def State.scrubUe (s : State) (chip place : Nat) : State :=
  match s.scrubbed chip place with
  | .nothing => s
  | .copy line => (s.setDie chip ((s.die chip).dropLine line)).countCe chip
  | .cached line =>
    let d := s.die chip
    (s.setDie chip { d with dcache := FMap.erase d.dcache line }).countCe chip
  | .dirty loc =>
    ({ s with bad := FMap.put s.bad (loc / 64) true }).countUe chip 2 (placeAddr loc) 0
  | .l1 key line => s.l1Ue chip key line
  | .dieTlb page =>
    let d := s.die chip
    (s.setDie chip { d with tlb := FMap.erase d.tlb page }).countCe chip
  | .cellTlb key page =>
    let c := s.cell key
    (s.setCell key { c with tlb := FMap.erase c.tlb page }).countCe chip
  | .record ctx => s.terminateFor ctx 0xE1 (3 * 2 ^ 56)
  | .data loc =>
    ({ s with bad := FMap.put s.bad (loc / 64) true }).countUe chip (placeKind loc) (placeAddr loc) 0
  | .shared => (s.countUe chip 3 place 0).terminateAll
  | .queue q => (s.countUe chip 3 place 0).terminateFor (s.queue q).ctx 0xE1 (place + 3 * 2 ^ 56)
  | .buffer id =>
    let s := s.countUe chip 3 place 0
    match s.buf? id with
    | some b => s.terminateFor b.ctx 0xE1 (place % 2 ^ 48 + 3 * 2 ^ 56)
    | none => s

/-- The bad check bits that a place keeps (R427). -/
def State.knownBad (s : State) (chip place : Nat) : Bool :=
  match s.scrubbed chip place with
  | .data loc | .dirty loc => FMap.get s.bad (loc / 64) false
  | _ => false

/-- SCRUB (R425, R427): one location of a chiplet is read, corrected and rewritten. -/
def execScrub (chip place : Nat) (found : EccFinding) (s : State) : Result :=
  event (
    if s.knownBad chip place then s.scrubUe chip place
    else match found with
      | .clean => s
      | .correctable => if s.scrubbed chip place = .nothing then s else s.countCe chip
      | .uncorrectable => s.scrubUe chip place)

end Sys2Proof.Machine
end

