-- ==== Sys2Proof/Machine/Dumps.lean ====
section
/-! DEFINITION. Core dumps (R420 to R424, R393, R408). -/

namespace Sys2Proof.Machine

/-! ## The parts of a dump (R393, R422) -/

/-- Registers 1 to 63 of a file. -/
def regBytes (m : FMap Word) : List Byte := (List.range 63).flatMap fun i => leBytes 8 (FMap.get m (i + 1) 0).toNat

/-- A restart record in its layout (R393). -/
def Record.bytes (r : Record) : List Byte :=
  leBytes 8 r.rpc ++ leBytes 8 r.obj ++ leBytes 8 r.shcoord.toNat ++ leBytes 8 r.rinst
  ++ leBytes 4 r.barDie ++ leBytes 4 r.barNode ++ leBytes 8 (r.fpstat.toNat + r.mstat.toNat * 2 ^ 8)
  ++ leBytes 8 r.win ++ leBytes 8 (r.padval.toNat + (if r.ordwatch then 2 ^ 32 else 0))
  ++ regBytes r.x ++ regBytes r.a
  ++ ((List.range 16).flatMap fun i => leBytes 4 (FMap.get r.lc i 0).toNat) ++ List.replicate 16 0

/-- 32-bit elements by number, as bytes. -/
def elemBytes (m : FMap (BitVec 32)) : Memory := m.flatMap fun e => FMap.number 0 (4 * e.1) (leBytes 4 e.2.toNat)

/-- Full-empty bits packed, bit g for granule g. -/
def feBytes (fe : FMap Bool) : Memory :=
  fe.foldl (fun (m : Memory) e =>
    if e.2 then Memory.write m (e.1 / 8) (Memory.read m (e.1 / 8) ||| BitVec.ofNat 8 (2 ^ (e.1 % 8))) else m) []

/-- The fixed part of a shard section (R422). -/
def State.shardBytes (s : State) (key size : Nat) : List Byte :=
  let c := s.cell key
  let cls := chipClass (keyChip key)
  let t := { s with cur := .cell key .c }
  let csr := fun (n : Nat) => leBytes 8 (t.csrRead n).toNat
  leBytes 1 (keyChip key) ++ leBytes 1 (keyCell key) ++ leBytes 1 c.flatC ++ leBytes 1 c.flatD ++ List.replicate 4 0
  ++ leBytes 8 size ++ List.replicate 16 0 ++ c.record.bytes
  ++ (EngTag.all.flatMap fun e => leBytes 8 (if cls.has e then (c.eng e).pc else 0))
  ++ leBytes 8 (c.reasons cls) ++ ((List.range 6).flatMap fun i => leBytes 8 (c.tokmap cls i)) ++ csr 0x015
  ++ regBytes c.x ++ regBytes c.a
  ++ ([0x001, 0x002, 0x014, 0x040, 0x180, 0x181, 0x182, 0x011, 0x012, 0x013, 0x010, 0x183].flatMap csr)
  ++ List.replicate 32 0 ++ ((List.range 32).flatMap fun i => csr (0x1C0 + i))

/-- The large parts of a shard section that PARTS selects (R422): their sizes and bytes, in order. -/
def Cell.bulk (c : Cell) (parts : Nat) : List (Nat × Memory) :=
  (if parts.testBit 0 then [(2 ^ 20, elemBytes c.v)] else [])
  ++ (if parts.testBit 1 then [(2 ^ 20, elemBytes c.acc)] else [])
  ++ (if parts.testBit 2 then [(spadBytes, c.spad), (2 ^ 16, feBytes c.fe)] else [])

/-- Bytes as a sparse memory from 0 on. -/
def sparse (bs : List Byte) : Memory := FMap.number 0 0 bs

/-- An item of a dump: its length, and its bytes from 0 on. -/
abbrev Item := Nat × Memory

/-- Items joined into one. -/
def joinItems (xs : List Item) : Item :=
  xs.foldl (fun (a : Item) x => (a.1 + x.1, a.2 ++ x.2.map fun e => (e.1 + a.1, e.2))) (0, [])

/-- A shard section (R422). -/
def State.shardItem (s : State) (parts key : Nat) : Item :=
  let bulk := (s.cell key).bulk parts
  let size := 0xA80 + (bulk.map fun x => x.1).foldl (· + ·) 0
  joinItems ((0xA80, sparse (s.shardBytes key size)) :: bulk)

/-- A silt-log entry (R369). -/
def LogEnt.bytes (e : LogEnt) : List Byte := leBytes 8 (e.off + e.op * 2 ^ 16 + e.ty.toNat * 2 ^ 20) ++ leBytes 8 e.value.toNat

/-- The silt section (R422): one item for each log of the context's buffers. -/
def State.siltItems (s : State) (ctx : Nat) : List Item :=
  (s.buffers.filter fun e => e.2.live && e.2.ctx == ctx).flatMap fun e =>
    (e.2.tiles.filter fun t => !t.2.log.isEmpty).map fun t =>
      (16 + 16 * t.2.log.length,
       sparse (leBytes 4 e.1 ++ leBytes 4 t.1 ++ leBytes 4 t.2.log.length ++ leBytes 4 0 ++ t.2.log.flatMap LogEnt.bytes))

/-- Items from an offset on, as far as whole ones fit: what was taken, how many, and the end (R421). -/
def fitItems (limit : Nat) : Nat → List Item → Memory × Nat × Nat
  | at_, [] => ([], 0, at_)
  | at_, x :: xs =>
    if limit < at_ + x.1 then ([], 0, at_)
    else
      let r := fitItems limit (at_ + x.1) xs
      (x.2.map (fun e => (e.1 + at_, e.2)) ++ r.1, r.2.1 + 1, r.2.2)

/-- The header of a dump (R422). -/
def dumpHeader (ctx nrec nlost nshard parts start stop len : Nat) : List Byte :=
  leBytes 4 0x504D444B ++ leBytes 2 1 ++ leBytes 2 ctx ++ leBytes 2 nrec ++ leBytes 2 nlost ++ leBytes 2 nshard
  ++ leBytes 2 parts ++ leBytes 8 start ++ leBytes 8 stop ++ leBytes 8 len ++ List.replicate 24 0

/-- The cells of a dump in flat index order: flat C, then flat D. -/
def State.dumpCells (s : State) (d : Dump) : List Nat :=
  d.cells.foldl (fun (l : List Nat) k => insertBy (fun (a b : Nat) =>
    let x := s.cell a
    let y := s.cell b
    decide (x.flatC < y.flatC ∨ (x.flatC = y.flatC ∧ x.flatD < y.flatD))) k l) []

/-- A dump of at most a number of bytes (R421, R422): its bytes and length. -/
def State.dumpImage (s : State) (d : Dump) (limit parts : Nat) : Item :=
  let recs : List Item := (d.records.take 64).map fun r => (64, sparse r.bytes)
  let shards := (s.dumpCells d).map fun k => s.shardItem parts k
  let silt := if parts.testBit 3 then s.siltItems d.ctx else []
  let all := recs ++ shards ++ silt
  let (body, n, stop) := fitItems limit 64 all
  let nrec := min n recs.length
  let nshard := min (n - nrec) shards.length
  let flags := parts + (if n < all.length then 2 ^ 15 else 0)
  (stop, sparse (dumpHeader d.ctx nrec (d.records.length - 64) nshard flags d.start s.tick stop) ++ body)

/-! ## The dump engine (R408, R420, R421, R423) -/

/-- The first dump of the queue is done with: its cells are released, and the next one begins (R408, step 5). -/
def State.nextDump (s : State) (d : Dump) : State :=
  let s := d.cells.foldl (fun (s : State) k => if (s.cell k).phase = .stopped then s.freeCell k else s) s
  let rest := match s.dumps.tail with
    | [] => []
    | e :: es => { e with start := s.tick } :: es
  { s with dumps := rest }

/-- DUMP_WRITE (R420 to R424). -/
def execDumpWrite (s : State) : Result :=
  event (match s.dumps with
    | [] => s
    | d :: _ =>
      match (s.ctx? d.ctx).bind fun c => c.dump with
      | none => ({ s with noArea := min (s.noArea + 1) (2 ^ 32 - 1) }).nextDump d
      | some (addr, len, parts) =>
        let img := s.dumpImage d len parts
        let s := { s with
          host := img.2.foldl (fun (m : Memory) (e : Nat × Byte) => Memory.write m (addr + e.1) e.2) (FMap.clearRange s.host addr img.1)
          ctxs := FMap.modify s.ctxs d.ctx fun (c : Ctx) => { c with dump := none } }
        s.nextDump d)

end Sys2Proof.Machine
end

