-- ==== Sys2Proof/Machine/Packets.lean ====
section
/-! DEFINITION. The packets of the host queues: launches, signals, waits, buffers, barriers, timed starts (R330 to R332,
R337, R346 to R350, R354, R435). -/

namespace Sys2Proof.Machine

/-! ## Parts of a packet -/

/-- A packet's work, or the state in which the packet has ended or waits. -/
abbrev PM (α : Type) := Except State α

/-- The packet ends with a status. -/
def State.ends {α : Type} (s : State) (p : Pkt) (status : Nat) : PM α := .error (s.admitDone p status)

/-- The packet ends with a status unless a condition holds. -/
def State.need (s : State) (p : Pkt) (ok : Bool) (status : Nat) : PM Unit := if ok then .ok () else s.ends p status

/-- The context of a packet. -/
def State.pktCtx (s : State) (p : Pkt) : Nat := (s.queue p.queue).ctx

/-- Bytes that the GSD reads for a packet: a failing check ends it with BAD_FIELD (R415), an uncorrectable error
terminates the context (R427). -/
def State.pktRead (s : State) (p : Pkt) (addr : Word) (n : Nat) : PM (List Byte) :=
  match s.gsdRead (s.pktCtx p) addr (n / 64 + 2) n with
  | .ok bs => .ok bs
  | .error c =>
    if contextClass c then .error (s.condemnAt (s.pktCtx p) p.queue p.idx addr (n / 64 + 2)) else s.ends p 0x11

/-- A packet of an active queue handled. -/
def packet (p : Pkt) (f : State → PM State) (s : State) : Result :=
  event (s.packet p fun s => match f s with | .ok t => t | .error t => t)

/-- `n` bytes at an offset of a list as a number. -/
def fieldAt (bs : List Byte) (off n : Nat) : Nat := leNat ((bs.drop off).take n)

/-! ## Graph descriptors (R330) -/

/-- A node record, or a launch block in its place, with its CAPLIST entries: capability and MODE by slot. -/
structure NodeRec where
  kobj : Nat
  prio : Nat
  cls : Nat
  trips : List Nat
  capList : Word
  caps : List (Cap × Nat)
  zero : Bool
  deriving DecidableEq, Repr

/-- An edge record. -/
structure EdgeRec where
  src : Nat
  dst : Nat
  mode : Nat
  srcSlot : Nat
  dstSlot : Nat
  rmask : Nat
  zero : Bool
  deriving DecidableEq, Repr

/-- Six n32 trips at an offset. -/
def tripsAt (bs : List Byte) (off : Nat) : List Nat := (List.range 6).map fun i => fieldAt bs (off + 4 * i) 4

/-- A node record from its 64 bytes. -/
def nodeRecOf (bs : List Byte) : NodeRec :=
  { kobj := fieldAt bs 0 8, prio := fieldAt bs 8 1, cls := fieldAt bs 9 1, trips := tripsAt bs 0x10
    capList := BitVec.ofNat 64 (fieldAt bs 0x28 8), caps := []
    zero := fieldAt bs 0x0A 6 == 0 && fieldAt bs 0x30 16 == 0 }

/-- An edge record from its 16 bytes. -/
def edgeRecOf (bs : List Byte) : EdgeRec :=
  { src := fieldAt bs 0 4, dst := fieldAt bs 4 4, mode := fieldAt bs 8 1, srcSlot := fieldAt bs 9 1 / 16
    dstSlot := fieldAt bs 9 1 % 16, rmask := fieldAt bs 10 1 % 16
    zero := decide (fieldAt bs 10 1 < 16) && fieldAt bs 11 5 == 0 }

/-- A node record with its CAPLIST read; entries with a reserved byte or a MODE above 2 are refused (R332). -/
def State.withCaps (s : State) (p : Pkt) (r : NodeRec) : PM NodeRec := do
  if r.capList = 0 then .ok r
  else
    let bs ← s.pktRead p r.capList 256
    let es := chunks 16 16 bs
    s.need p (es.all fun e => decide (fieldAt e 8 1 ≤ 2) && fieldAt e 9 7 == 0) 0x11
    .ok { r with caps := es.map fun e => (BitVec.ofNat 64 (fieldAt e 0 8), fieldAt e 8 1) }

/-! ## The checks of R332 -/

/-- The object a node record names, when it is loaded in the context. -/
def State.objIn (s : State) (ctx h : Nat) : Option CodeObj :=
  match FMap.find? s.objects h with
  | some o => if o.ctx = ctx ∧ !o.gone then some o else none
  | none => none

/-- The object of a record exists and has a section for its class. -/
def State.recOk (s : State) (ctx : Nat) (r : NodeRec) : Bool :=
  match s.objIn ctx r.kobj with
  | some o => r.cls == 0 || (o.sect? r.cls).isSome
  | none => false

/-- No edge path returns to where it began: edges that no other edge leads into are taken away until none is left. -/
def acyclic : Nat → List EdgeRec → Bool
  | 0, es => es.isEmpty
  | n + 1, es =>
    let rest := es.filter fun e => es.any fun x => x.dst == e.src
    es.isEmpty || (rest.length != es.length && acyclic n rest)

/-- A list of pairs has no entry twice. -/
def noRepeat : List (Nat × Nat) → Bool
  | [] => true
  | x :: xs => !xs.contains x && noRepeat xs

/-- Slots that a record fills from its CAPLIST. -/
def NodeRec.filled (r : NodeRec) : List Nat := (r.caps.zipIdx.filter fun e => e.1.2 != 0).map fun e => e.2

/-- The slots that an object declares as `tiles` or `data`. -/
def State.declared (s : State) (r : NodeRec) : List Nat :=
  match FMap.find? s.objects r.kobj with | some o => o.capKinds.map fun e => e.1 | none => []

/-- The transfers of a graph do not conflict (R332). -/
def State.transfersOk (s : State) (recs : List NodeRec) (es : List EdgeRec) : Bool :=
  let xs := es.filter fun e => e.mode != 0
  noRepeat (xs.map fun e => (e.dst, e.dstSlot))
    && noRepeat ((xs.filter fun e => e.mode == 1).map fun e => (e.src, e.srcSlot))
    && recs.zipIdx.all fun r =>
      let into := (xs.filter fun e => e.dst == r.2).map fun e => e.dstSlot
      let decl := s.declared r.1
      into.all (fun m => !r.1.filled.contains m) && (into ++ r.1.filled).all fun m => !decl.contains m

/-- Overflow blocks that a number of successors takes (R340). -/
def blocksOf (succs : Nat) : Nat := (succs - 16 + 31) / 32

/-- Overflow blocks of a graph. -/
def graphBlocks (n : Nat) (es : List EdgeRec) : Nat :=
  (List.range n).foldl (fun a i => a + blocksOf (es.filter fun e => e.src == i).length) 0

/-- The CAPLIST capabilities pass R196, and the copies keep every count within 2^32 - 1. -/
def State.capsOk (s : State) (ctx : Nat) (recs : List NodeRec) : Bool :=
  let used := recs.flatMap fun r => r.caps.filter fun c => c.2 != 0
  used.all (fun c => c.1 != 0 && (s.capCheck ctx c.1 0).isNone)
    && used.all fun c =>
      let copies := (used.filter fun d => d.2 == 2 && capId d.1 == capId c.1).length
      match s.buf? (capId c.1) with | some b => decide (b.refs + copies ≤ 2 ^ 32 - 1) || copies == 0 | none => false

/-! ## Entries (R340, R349, R350) -/

/-- Queues blocked on a WAIT; each holds one of the first 61,440 entries. -/
def State.waits (s : State) : Nat := (s.queues.filter fun e => e.2.wait.isSome).length

/-- Free entries among the first 61,440. -/
def State.lowFree (s : State) : Nat := 61440 - (s.nodes.filter fun e => decide (e.1 < 61440)).length - s.waits

/-- The table has entries and overflow blocks for a launch. -/
def State.roomFor (s : State) (n blocks : Nat) : Bool :=
  let used := s.nodes.foldl (fun a e => a + blocksOf e.2.succs.length) 0
  decide (s.nodes.length + s.waits + n ≤ 65536) && decide (used + blocks ≤ 16384)

/-- A free entry, from a number on, with at most `low` of the first 61,440 to be taken. -/
def pickEntry (taken : FMap Bool) (low : Nat) : Nat → Nat → Nat
  | 0, i => i
  | f + 1, i =>
    if 65536 ≤ i then pickEntry taken low f 0
    else if i < 61440 ∧ low = 0 then pickEntry taken low f 61440
    else if (FMap.find? taken i).isSome then pickEntry taken low f (i + 1)
    else i

/-- Free entries for `n` nodes, each a free choice of its own (R471). -/
def allocEntries : Nat → FMap Bool → Nat → Nat → List Nat
  | 0, _, _, _ => []
  | n + 1, taken, low, draw =>
    let e := pickEntry taken low (taken.length + 4) (Config.pick draw % 65536)
    e :: allocEntries n (FMap.put taken e true) (if e < 61440 then low - 1 else low) (draw + 1)

/-! ## Admission of a launch -/

/-- A node of a launch as it enters the table. -/
def State.newNode (s : State) (p : Pkt) (prol : Nat) (param : Word) (start lattol : Nat) (entries : List Nat)
    (es : List EdgeRec) (r : NodeRec) (i : Nat) : Node :=
  let cls := if r.cls ≠ 0 then r.cls
    else match (FMap.find? s.objects r.kobj).bind fun o => o.sections.head? with | some x => x.cls | none => 1
  let into := es.filter fun e => e.dst == i
  { st := .pending, kobj := r.kobj, prolObj := prol, param := param, prio := r.prio, pktPrio := r.prio, cls := cls
    clsSince := s.tick, shapeFail := false, trips2 := r.trips, trips := none, pendingCnt := into.length
    succs := (es.filter fun e => e.src == i).map fun e =>
      { succ := nthD entries e.dst 0, mode := e.mode, src := e.srcSlot, dst := e.dstSlot, rmask := e.rmask }
    caps := r.caps.zipIdx.foldl (fun (m : FMap Cap) c => if c.1.2 = 0 then m else FMap.put m c.2 c.1.1) []
    capsIn := [], reserved := (into.filter fun e => e.mode != 0).map fun e => e.dstSlot
    queue := p.queue, pkt := p.idx, ctx := s.pktCtx p, order := s.nextOrder + i, arrival := 0, firstRunnable := none, runnableAt := 0, starved := 0
    placedAt := 0, lcount := 0, budget := none, lastPend := .go, ltrip := [], lcap := [], start := start
    lattol := lattol, discarding := false, preempts := [], cancelled := false, records := [] }

/-- A launch admitted, once the table has room for all its nodes (R349): until then the queue waits. -/
def State.admitLaunch (s : State) (p : Pkt) (prol : Nat) (param : Word) (recs : List NodeRec) (es : List EdgeRec) : State :=
  let n := recs.length
  if !s.roomFor n (graphBlocks n es) then s
  else
    let q := s.queue p.queue
    let start := if p.start ≠ 0 then p.start else q.timed.getD 0
    let lattol := if p.lattol ≠ 0 then p.lattol else q.lattol * 256
    let taken := s.nodes.map fun e => (e.1, true)
    let entries := allocEntries n taken s.lowFree s.drawn
    let news := (recs.zipIdx.zip entries).map fun e => (e.2, s.newNode p prol param start lattol entries es e.1.1 e.1.2)
    let copies := recs.flatMap fun r => (r.caps.filter fun c => c.2 == 2).map fun c => capId c.1
    let s := copies.foldl (fun (s : State) id => s.addRef id) s
    let s := if p.start = 0 then s.modQueue p.queue fun (q : Queue) => { q with timed := none } else s
    let s := { s.takeIn p n with
      nodes := news.foldl (fun (m : FMap Node) e => FMap.put m e.1 e.2) s.nodes
      nextOrder := s.nextOrder + n
      drawn := s.drawn + n }
    (news.filter fun e => e.2.pendingCnt == 0).foldl (fun (s : State) e => s.nodeReady e.1) s

/-- The checks of R332 that follow those of the records' fields, and admission. -/
def State.launchChecked (s : State) (p : Pkt) (prol : Nat) (param : Word) (recs : List NodeRec) (es : List EdgeRec) :
    PM State := do
  let ctx := s.pktCtx p
  s.need p (recs.all fun r => s.recOk ctx r) 0x11
  s.need p (acyclic (es.length + 1) es) 0x12
  s.need p (s.transfersOk recs es) 0x12
  s.need p (decide (graphBlocks recs.length es ≤ 16384)) 0x12
  s.need p (s.capsOk ctx recs) 0x13
  .ok (s.admitLaunch p prol param recs es)

/-- The fields of a node record are in range (R332). -/
def NodeRec.ok (r : NodeRec) : Bool := r.zero && decide (r.prio ≤ 7) && decide (r.cls ≤ 4)

/-- GRAPH_LAUNCH (R330 to R332, R347, R349). -/
def execGraphLaunch (p : Pkt) (s : State) : Result :=
  packet p (fun s => do
    s.need p (p.b1 == 0 && p.b2 == 0 && p.b3 == 0) 0x11
    let h ← s.pktRead p p.b0 32
    let nn := fieldAt h 0 4
    let ne := fieldAt h 4 4
    s.need p (fieldAt h 0x18 8 == 0 && decide (1 ≤ nn ∧ nn ≤ 65536) && decide (ne ≤ 1048576)) 0x11
    let nb ← s.pktRead p (p.b0 + BitVec.ofNat 64 (fieldAt h 8 8)) (64 * nn)
    let eb ← s.pktRead p (p.b0 + BitVec.ofNat 64 (fieldAt h 0x10 8)) (16 * ne)
    let recs := (chunks 64 nn nb).map nodeRecOf
    let es := (chunks 16 ne eb).map edgeRecOf
    s.need p (recs.all NodeRec.ok) 0x11
    s.need p (es.all fun e => e.zero && decide (e.src < nn) && decide (e.dst < nn) && decide (e.mode ≤ 2)) 0x11
    let recs ← recs.mapM (s.withCaps p)
    let touch := fun (s : State) (a : Word) (n : Nat) => s.gsdTouch (s.pktCtx p) ((n + 63) / 64) a
    let s := touch (touch (touch s p.b0 32) (p.b0 + BitVec.ofNat 64 (fieldAt h 8 8)) (64 * nn))
      (p.b0 + BitVec.ofNat 64 (fieldAt h 0x10 8)) (16 * ne)
    let s := recs.foldl (fun (s : State) r => if r.capList = 0 then s else touch s r.capList 256) s
    s.launchChecked p 0 0 recs es) s

/-- The launch block of a NODE_LAUNCH without a prologue (R348). -/
def State.launchBlock (s : State) (p : Pkt) (r : NodeRec) (addr : Word) : PM NodeRec := do
  if addr = 0 then .ok r
  else
    let bs ← s.pktRead p addr 64
    s.need p (fieldAt bs 0x18 8 == 0 && fieldAt bs 0x28 24 == 0) 0x11
    s.withCaps p { r with trips := tripsAt bs 0, capList := BitVec.ofNat 64 (fieldAt bs 0x20 8) }

/-- NODE_LAUNCH (R347, R348). -/
def execNodeLaunch (p : Pkt) (s : State) : Result :=
  packet p (fun s => do
    let prol := p.b1.toNat
    let r : NodeRec := { kobj := p.b0.toNat, prio := natBits p.b3.toNat 0 8, cls := natBits p.b3.toNat 8 8,
                         trips := List.replicate 6 0, capList := 0, caps := [], zero := natBits p.b3.toNat 16 48 == 0 }
    s.need p r.ok 0x11
    if prol ≠ 0 then do
      s.need p (s.objIn (s.pktCtx p) prol).isSome 0x11
      s.launchChecked p prol p.b2 [r] []
    else do
      let r ← s.launchBlock p r p.b2
      let s := if p.b2 = 0 then s else s.gsdTouch (s.pktCtx p) 1 p.b2
      let s := if r.capList = 0 then s else s.gsdTouch (s.pktCtx p) 4 r.capList
      s.launchChecked p 0 p.b2 [r] []) s

/-! ## SIGNAL, WAIT, BARRIER, TIMED -/

/-- SIGNAL (R347, R349). -/
def execSignal (p : Pkt) (s : State) : Result :=
  packet p (fun s => do
    let sig := natBits p.b0.toNat 0 32
    let op := natBits p.b0.toNat 32 8
    s.need p (decide (sig < 16384) && decide (op ≤ 1) && natBits p.b0.toNat 40 24 == 0 && p.b2 == 0 && p.b3 == 0) 0x11
    let v := if op = 0 then p.b1 else FMap.get s.signals sig 0 + p.b1
    .ok ((s.changeSignal sig v).admitDone p 0x01)) s

/-- WAIT (R347, R349, R350): done at once when its condition holds, else it holds the queue, in an entry of its own. -/
def execWait (p : Pkt) (s : State) : Result :=
  packet p (fun s => do
    let sig := natBits p.b0.toNat 0 32
    let cond := natBits p.b0.toNat 32 8
    s.need p (decide (sig < 16384) && decide (cond ≤ 3) && natBits p.b0.toNat 40 24 == 0 && p.b2 == 0 && p.b3 == 0) 0x11
    if waitHolds cond (FMap.get s.signals sig 0) p.b1 then .ok (s.admitDone p 0x01)
    else if s.lowFree = 0 ∨ 65536 ≤ s.nodes.length + s.waits then .ok s
    else .ok ((s.takeIn p 0).modQueue p.queue fun (q : Queue) => { q with st := 2, wait := some (sig, cond, p.b1) })) s

/-- BARRIER (R349): admitted once every earlier packet of the queue has completed. -/
def execBarrier (p : Pkt) (s : State) : Result :=
  packet p (fun s => do
    s.need p (p.b0 == 0 && p.b1 == 0 && p.b2 == 0 && p.b3 == 0) 0x11
    if s.openIn p.queue then .ok s else .ok (s.admitDone p 0x01)) s

/-- TB at a tick (R431). -/
def TimeBase.at_ (t : TimeBase) (k : Nat) : Nat := t.ans + ((k - t.ak) * t.inc + t.afrac) / 2 ^ 32

/-- The least tick, not before now, at which TB has reached a time (R435). -/
def TimeBase.tickOf (t : TimeBase) (now time : Nat) : Nat :=
  if time ≤ t.at_ now then now
  else max now (t.ak + ((time - t.ans) * 2 ^ 32 - t.afrac + t.inc - 1) / max 1 t.inc)

/-- TIMED (R347, R354, R435). -/
def execTimed (p : Pkt) (s : State) : Result :=
  packet p (fun s => do
    s.need p (p.b1 == 0 && p.b2 == 0 && p.b3 == 0) 0x11
    let k := s.timeBase.tickOf s.tick p.b0.toNat
    .ok ((s.modQueue p.queue fun (q : Queue) => { q with timed := some k }).admitDone p 0x01)) s

/-! ## BUFFER (R337, R360) -/

/-- Bytes 2 to 7 of a BUFFER packet's body are zero. -/
def bufferZero (p : Pkt) : Bool := natBits p.b0.toNat 16 48 == 0

/-- RESULT may be written: in host memory, or at a GLOBAL address that passes the checks (R337, step 2). -/
def State.resultOk (s : State) (p : Pkt) : PM Unit :=
  let q := s.queue p.queue
  if p.b3 = 0 then .ok ()
  else if p.b3.toNat % 8 ≠ 0 then s.ends p 0x11
  else if q.hostMem then .ok ()
  else match s.gsdAccess q.ctx p.b3 8 8 true with
    | .ok _ => .ok ()
    | .error c => if contextClass c then .error (s.condemnAt q.ctx p.queue p.idx p.b3 1) else s.ends p 0x11

/-- The capability of a new buffer written to RESULT. -/
def State.putResult (s : State) (p : Pkt) (c : Cap) : State :=
  let q := s.queue p.queue
  if p.b3 = 0 then s
  else if q.hostMem then s.hostWrite p.b3.toNat (leBytes 8 c.toNat)
  else match s.gsdWrite q.ctx p.b3 (leBytes 8 c.toNat) with | .ok t => t | .error _ => s

/-- BUFFER create (R337, R360). -/
def execBufferCreate (p : Pkt) (s : State) : Result :=
  packet p (fun s => do
    let attr := natBits p.b0.toNat 8 8
    let bit := fun i => attr.testBit i
    let unit := if bit 1 then 65536 else pageBytes
    let len := (p.b1.toNat + unit - 1) / unit * unit
    s.need p (bufferZero p && p.b1 != 0) 0x11
    s.resultOk p
    s.need p (!(bit 1 && (bit 0 || bit 2))) 0x11
    let ctx := s.pktCtx p
    let frames := len / pageBytes * (if bit 0 then 2 else 1)
    s.need p (decide (len < 2 ^ 48) && decide (frames ≤ s.quotaLeft (s.ctxPart ctx))) 0x14
    match s.createBuffer ctx len (bit 0) (bit 1) (bit 2) (bit 3) (attr / 16) true with
    | none => s.ends p 0x14
    | some (id, t) =>
      match t.buf? id with
      | none => s.ends p 0x14
      | some b => .ok ((t.putResult p (mkCap id 0xF b.tag b.gen)).admitDone p 0x01)) s

/-- The capability of a BUFFER packet, checked under R196 for the rights an operation needs. -/
def State.pktCap (s : State) (p : Pkt) (rights : BitVec 4) : PM Nat := do
  s.need p (bufferZero p) 0x11
  s.need p (p.b2 != 0 && (s.capCheck (s.pktCtx p) p.b2 rights).isNone) 0x13
  .ok (capId p.b2)

/-- BUFFER drop (R337, R200). -/
def execBufferDrop (p : Pkt) (s : State) : Result :=
  packet p (fun s => do
    let id ← s.pktCap p 0
    .ok ((s.dropRef id).admitDone p 0x01)) s

/-- BUFFER publish (R337, R180): a buffer without DOUBLE ends it as a missing right does. -/
def execBufferPublish (p : Pkt) (s : State) : Result :=
  packet p (fun s => do
    let id ← s.pktCap p 1
    s.need p (match s.buf? id with | some b => b.double | none => false) 0x13
    .ok (((s.publishBuffer id).noteExchange id 0 none).admitDone p 0x01)) s

end Sys2Proof.Machine
end

