-- ==== Sys2Proof/Machine/Time.lean ====
section
/-! DEFINITION. The time base, the loading of the tick, the stop on tick (R429 to R436). -/

namespace Sys2Proof.Machine

/-- An anchor at a tick that gives the same time there (R431). -/
def TimeBase.anchorAt (t : TimeBase) (k : Nat) : TimeBase :=
  let x := (k - t.ak) * t.inc + t.afrac
  { t with ak := k, ans := t.ans + x / 2 ^ 32, afrac := x % 2 ^ 32 }

/-- INC kept within 500 ppm of nominal (R431). -/
def clampInc (n : Nat) : Nat := min (max n (0x1AAAAAAAB - 0x1AAAAAAAB / 2000)) (0x1AAAAAAAB + 0x1AAAAAAAB / 2000)

/-- The nominal INC (R431). -/
def nominalInc : Nat := 0x1AAAAAAAB

/-- The anchor in force replaced. Firmware rewrites the registers over some time, in which UPD is set and they may still
show the anchor before (R434). -/
def State.setAnchor (s : State) (t : TimeBase) : State := { s with timeBase := t, tbShown := some s.timeBase }

/-- The source of the time base chosen (R433, R434): 3 stores 0. A new source is not locked; free-running, INC goes
back to its nominal value. -/
def State.setTimeSource (s : State) (src link : Nat) : State :=
  let t := s.timeBase
  let src := if src = 3 then 0 else src
  let same := src == t.src && (link == t.link || src != 2)
  let of := fun (u : TimeBase) => { u with src := src, link := link, lock := t.lock && same }
  if src = 0 ∧ t.src ≠ 0 then s.setAnchor (of { t.anchorAt s.tick with inc := nominalInc })
  else { s with timeBase := of t }

/-- A step of the rewriting: some of the three registers show the new anchor, or all do and UPD is clear; which is
free (R434). -/
def State.timeTurn (s : State) : State :=
  match s.tbShown with
  | none => s
  | some o =>
    let (x, s) := s.draw
    if x.testBit 3 then { s with tbShown := none }
    else
      let n := s.timeBase
      { s with tbShown := some { o with
          ak := if x.testBit 0 then n.ak else o.ak
          ans := if x.testBit 1 then n.ans else o.ans
          afrac := if x.testBit 2 then n.afrac else o.afrac
          inc := if x.testBit 2 then n.inc else o.inc } }

/-- TB_CORRECTION (R431, R432): an offset of up to 2^20 ns is corrected by a new INC at an anchor that keeps the time;
a larger one is a step, told to the host. A package without a locked source measures none; a PTM measurement shows
its lock. -/
def execTbCorrection (offset : Int) (newInc : Nat) (s : State) : Result :=
  event (
    let t := s.timeBase
    if !s.ready || t.src = 0 || (t.src = 2 && !t.lock) then s
    else
      let a := { t.anchorAt s.tick with lock := true }
      if offset.natAbs ≤ 2 ^ 20 then s.setAnchor { a with inc := clampInc newInc }
      else
        let ns := (Int.ofNat a.ans + offset).toNat % 2 ^ 64
        let s := s.setAnchor { a with ans := ns }
        s.postEvent 4 0 0 [(16, 8, s.tick), (24, 8, wrapNat 64 offset)] [])

/-- NYERN_LINK_LOCK (R430, R433): the first lock loads the tick, before any context is created; a later one changes
nothing. -/
def execNyernLinkLock (tick : Nat) (s : State) : Result :=
  event (
    if !s.ready || s.timeBase.src ≠ 2 || s.tickKept then s
    else { s with tick := tick % 2 ^ 64, tickKept := true, timeBase := { s.timeBase with lock := true } })

/-- STOP_ON_TICK (R436): every clock domain is gated once the tick has come. -/
def execStopOnTick (s : State) : Result :=
  event (match s.stopAt with | some x => if x ≤ s.tick then { s with stopped := true } else s | none => s)

end Sys2Proof.Machine
end

