-- ==== Sys2Proof/Machine/HostWindow.lean ====
section
/-! DEFINITION. The host window and the memory window: what registers read as, what writes do (R14, R344, R345, R347,
R358, R424, R426, R434, R451 to R456). -/

namespace Sys2Proof.Machine

/-! ## Queue registers (R345) -/

/-- QCFG as it reads. -/
def Queue.cfg (q : Queue) : Nat :=
  q.ctx * 2 ^ 48 + q.lattol * 2 ^ 32 + q.log2 * 2 ^ 20 + q.rev * 2 ^ 16 + (if q.hostMem then 16 else 0)
    + (if q.en then 1 else 0)

/-- The fields of a QCFG value, with EN, STATE and the rest as they stand. -/
def Queue.withCfg (q : Queue) (w : Word) : Queue :=
  { q with ctx := natBits w.toNat 48 16, lattol := natBits w.toNat 32 16, log2 := natBits w.toNat 20 5
           rev := natBits w.toNat 16 2, hostMem := w.getLsbD 4 }

/-- A QCFG value with which a queue may run: REV and LOG2SIZE in range, a context that exists and is not terminated
(R345, R428). -/
def State.cfgOk (s : State) (w : Word) : Bool :=
  let rev := natBits w.toNat 16 2
  let l := natBits w.toNat 20 5
  (rev == 2 || rev == 3) && decide (4 ≤ l ∧ l ≤ 16)
    && (match s.ctx? (natBits w.toNat 48 16) with | some c => !c.terminated | none => false)

/-- QCFG written (R345). -/
def State.writeQcfg (s : State) (n : Nat) (w : Word) : State :=
  s.modQueue n fun (q : Queue) =>
    let on := w.getLsbD 0
    if q.en then
      if !on then { q with en := false, st := 0 }
      else if q.st = 3 ∧ s.cfgOk w then { q with st := 1, cause := 0 } else q
    else
      let q := q.withCfg w
      if on && s.cfgOk w then { q with en := true, st := 1, cause := 0 } else q


/-! ## Writes (R452 to R455) -/

/-- BAR2CTL written (R453): ERR is cleared by writing one. -/
def State.writeBar2Ctl (s : State) (w : Word) : State :=
  { s with bar2ctx := natBits w.toNat 48 16, bar2tag := w.extractLsb' 44 4, bar2va := natBits w.toNat 1 36
           bar2err := s.bar2err && !w.getLsbD 0 }

/-- A register of a partition number written, whether or not the partition exists (R358, R452). -/
def State.writePartReg (s : State) (r : Nat) (w : Word) : State :=
  let v := w.toNat % 2 ^ 32
  if r % 2 = 0 then { s with fbwaits := FMap.set s.fbwaits (r / 2 + 1) v (2 ^ 20) }
  else { s with dltimes := FMap.set s.dltimes (r / 2 + 1) (max 1 v) (2 ^ 26) }

/-- A ring register written (R455). -/
def State.writeRing (s : State) (r : Nat) (w : Word) : State :=
  let v := w.toNat % 2 ^ 32
  let l := w.toNat % 32
  match r with
  | 0 => { s with mcBase := w }
  | 1 => { s with mcLog2 := min (max l 4) 12 }
  | 2 => { s with mcWr := v, mcBells := s.mcBells ++ [(v, s.tick)] }
  | 4 => { s with evBase := w }
  | 5 => { s with evLog2 := min (max l 4) 14 }
  | 7 => { s with evRd := v }
  | 8 => { s with evLost := v }
  | _ => s

/-- A doorbell event of a queue: it merges into one that is pending (R355). -/
def State.ringBell (s : State) (n : Nat) : State :=
  if (s.queue n).bell.isSome then s
  else { s with nextArrival := s.nextArrival + 1 }.modQueue n fun (q : Queue) => { q with bell := some s.nextArrival }

/-- A queue register written (R345). -/
def State.writeQueueReg (s : State) (n r : Nat) (w : Word) : State :=
  match r with
  | 0 => s.modQueue n fun (q : Queue) => if q.en then q else { q with base := w }
  | 1 => s.writeQcfg n w
  | 2 => (s.ringBell n).modQueue n fun (q : Queue) => { q with wr := w.toNat % 2 ^ 32 }
  | _ => s

/-- A write of 8 bytes at an offset of the host window; what is read-only or not assigned ignores it. -/
def State.windowWrite (s : State) (off : Nat) (w : Word) : State :=
  if off % 8 ≠ 0 then s
  else if off = 0x10 then s.writeBar2Ctl w
  else if off = 0x1000 then s.setTimeSource (w.toNat % 4) (natBits w.toNat 4 4)
  else if 0x2000 ≤ off ∧ off < 0x2080 then s.writePartReg ((off - 0x2000) / 8) w
  else if off = 0x2100 then { s with noArea := w.toNat / 2 ^ 32, qFull := w.toNat % 2 ^ 32 }
  else if 0x3000 ≤ off ∧ off < 0x3000 + 16 * 44 ∧ off % 16 = 0 then
    let i := (off - 0x3000) / 16
    let e := FMap.get s.errs i (0, 0, 0, 0)
    { s with errs := FMap.put s.errs i (w.toNat % 2 ^ 32, w.toNat / 2 ^ 32, e.2.2) }
  else if 0x4000 ≤ off ∧ off < 0x4048 then s.writeRing ((off - 0x4000) / 8) w
  else if 0x40000 ≤ off ∧ off < 0x60000 then s.changeSignal ((off - 0x40000) / 8) w
  else if 0x100000 ≤ off ∧ off < 0x140000 then s.writeQueueReg ((off - 0x100000) / 64) (off % 64 / 8) w
  else s

/-- A host access in its turn: one that arrives while others wait, waits behind them (R454). -/
def State.hostTurn (s : State) (op : HostOp) (f : State → State) : State :=
  if s.hostOps.isEmpty then f s else { s with hostOps := s.hostOps ++ [op] }

/-- REGISTER_WRITE (R14, R452 to R455, R459): until READY every write is ignored. -/
def execRegisterWrite (off : Nat) (value : Word) (s : State) : Result :=
  event (if s.ready then s.hostTurn (.reg off value) fun s => s.windowWrite off value else s)

/-- QCFG_WRITE (R345). -/
def execQcfgWrite (q : Nat) (value : Word) (s : State) : Result :=
  event (if s.ready && decide (q < 4096) then s.hostTurn (.reg (0x100008 + 64 * q) value) fun s => s.writeQcfg q value else s)

/-- SIGNAL_WRITE (R347, R452). -/
def execSignalWrite (sig : Nat) (value : Word) (s : State) : Result :=
  event (if s.ready && decide (sig < 16384) then s.hostTurn (.reg (0x40000 + 8 * sig) value) fun s => s.changeSignal sig value
    else s)

/-! ## Reads (R344, R452 to R455) -/

/-- Engines and units of a chiplet by its class and role: FEAT (R344, R3). -/
def State.feat (s : State) (i : Nat) : Nat :=
  match chipClass i, (s.die i).role with
  | .dmx, 0 => 0x03
  | .dmx, 1 => 0x40
  | .vec, 2 => 0x10
  | .spx, 2 => 0x28
  | .srt, 2 => 0x04
  | _, _ => 0

/-- The instance number of a chiplet within its class (R77). -/
def instOf (i : Nat) : Nat :=
  match chipClass i with | .dmx => i - 1 | .vec => i - 33 | .spx => i - 35 | .mem => i - 38 | _ => 0

/-- The 96 bytes of a chiplet's discovery entry (R344). -/
def State.discEntry (s : State) (i : Nat) : List Byte :=
  let stack := if isLayer i then stackOf i else 0xFF
  let layer := if isLayer i then (i - 1) % 4 else 0xFF
  leBytes 1 (classNum (chipClass i)) ++ leBytes 1 (instOf i) ++ leBytes 1 (classCells (chipClass i))
  ++ leBytes 1 (s.die i).role ++ leBytes 1 stack ++ leBytes 1 layer ++ leBytes 2 0 ++ leBytes 8 (s.feat i)
  ++ ((List.range 64).flatMap fun j => leBytes 1 (if j < 44 then s.hops i j else 0xFF)) ++ List.replicate 16 0

/-- The discovery table (R344). -/
def State.discovery (s : State) : List Byte :=
  leBytes 8 (s.version + if s.reenum.isSome then 2 ^ 63 else 0) ++ leBytes 4 44 ++ List.replicate 52 0 ++ (List.range 44).flatMap s.discEntry

/-- DEVSTAT (R453). -/
def State.devstat (s : State) : Nat :=
  s.fail * 2 ^ 16 + s.boots % 256 * 2 ^ 8 + s.bootStep * 2 ^ 4 + s.cool * 4 + (if s.recov then 2 else 0)
    + (if s.ready then 1 else 0)

/-- BAR2CTL as it reads (R453). -/
def State.bar2Word (s : State) : Nat :=
  s.bar2ctx * 2 ^ 48 + s.bar2tag.toNat * 2 ^ 44 + s.bar2va * 2 + (if s.bar2err then 1 else 0)

/-- A time-base register (R434). -/
def State.readTime (s : State) (r : Nat) : Nat :=
  let t := s.timeBase
  let a := s.tbShown.getD t
  match r with
  | 0 => (if s.tbShown.isSome then 2 ^ 15 else 0) + (if t.lock then 2 ^ 14 else 0) + t.link * 16 + t.src
  | 1 => a.ak
  | 2 => a.ans
  | 3 => a.afrac * 2 ^ 32 + a.inc % 2 ^ 32
  | _ => t.at_ s.tick % 2 ^ 64

/-- A ring register (R455). -/
def State.readRing (s : State) (r : Nat) : Nat :=
  match r with
  | 0 => s.mcBase.toNat | 1 => s.mcLog2 | 2 => s.mcWr | 3 => s.mcRd | 4 => s.evBase.toNat
  | 5 => s.evLog2 | 6 => s.evWr | 7 => s.evRd | _ => s.evLost

/-- A queue register (R345). -/
def State.readQueueReg (s : State) (n r : Nat) : Nat :=
  let q := s.queue n
  match r with
  | 0 => q.base.toNat | 1 => q.cfg | 2 => q.wr | 3 => q.rd
  | 4 => q.fidx + q.cause.toNat * 2 ^ 32 + q.st * 2 ^ 40 | _ => 0

/-- What 8 bytes at an offset of the host window read as (R452 to R455); until READY only DEVSTAT, HBMMAP and the
measurements (R459). -/
def State.windowRead (s : State) (off : Nat) : Word :=
  let word := fun (bs : List Byte) (o : Nat) => leNat ((bs.drop o).take 8)
  let always : Option Nat :=
    if off = 0 then some s.devstat
    else if off = 8 then some s.hbmmap.toNat
    else if 0x400 ≤ off ∧ off < 0x580 then some (word (s.meas.flatMap measBytes) (off - 0x400)) else none
  let v := match always with
    | some v => v
    | none =>
      if !s.ready then 0
      else if off = 0x10 then s.bar2Word
      else if 0x1000 ≤ off ∧ off < 0x1028 then s.readTime ((off - 0x1000) / 8)
      else if 0x2000 ≤ off ∧ off < 0x2080 then
        (let p := (off - 0x2000) / 16 + 1
         if off % 16 = 0 then s.fbwait p else s.dltime p)
      else if off = 0x2100 then s.noArea * 2 ^ 32 + s.qFull
      else if 0x3000 ≤ off ∧ off < 0x3000 + 16 * 44 then
        let e := FMap.get s.errs ((off - 0x3000) / 16) (0, 0, 0, 0)
        if off % 16 = 0 then e.2.1 * 2 ^ 32 + e.1 else e.2.2.1 * 2 ^ 56 + e.2.2.2
      else if 0x4000 ≤ off ∧ off < 0x4048 then s.readRing ((off - 0x4000) / 8)
      else if 0x20000 ≤ off ∧ off < 0x20000 + 64 + 96 * 44 then word s.discovery (off - 0x20000)
      else if 0x40000 ≤ off ∧ off < 0x60000 then (FMap.get s.signals ((off - 0x40000) / 8) 0).toNat
      else if 0x100000 ≤ off ∧ off < 0x140000 then s.readQueueReg ((off - 0x100000) / 64) (off % 64 / 8)
      else 0
  BitVec.ofNat 64 v

/-! ## The memory window (R454) -/

/-- Bytes of the memory window. -/
def bar2Bytes : Nat := 2 ^ 36

/-- Pieces of a window access checked: the location of each, its length, and the offset of its bytes. -/
def State.bar2Check (s : State) (write : Bool) : Nat → List (Word × Nat) → Except (BitVec 8) (List (Nat × Nat × Nat))
  | _, [] => .ok []
  | at_, p :: ps =>
    match s.gsdAccess s.bar2ctx p.1 p.2 1 write with
    | .error c => .error c
    | .ok loc =>
      if !write && FMap.get s.bad (s.place loc / 64) false then .error 0xE1
      else match s.bar2Check write (at_ + p.2) ps with
        | .error c => .error c
        | .ok rest => .ok ((loc, p.2, at_) :: rest)

/-- A byte range cut at the 64-byte granules: first address and length of each piece. -/
def granulePieces : Nat → Word → Nat → List (Word × Nat)
  | 0, _, _ => []
  | fuel + 1, a, n =>
    if n = 0 then []
    else
      let k := min n (64 - a.toNat % 64)
      (a, k) :: granulePieces fuel (a + BitVec.ofNat 64 k) (n - k)

/-- The granule pieces of a window access. -/
def State.bar2Places (s : State) (off n : Nat) (write : Bool) : Except (BitVec 8) (List (Nat × Nat × Nat)) :=
  let va := s.bar2va * 2 ^ 21 + off
  if 2 ^ 57 < va + n then .error 0x21
  else s.bar2Check write 0 (granulePieces (n / 64 + 2) (BitVec.ofNat 64 (s.bar2tag.toNat * 2 ^ 60 + va)) n)

/-- A window access that fails a check: a read returns all ones, and ERR is set (R454). -/
def State.bar2Fails (s : State) (n : Nat) (read : Bool) : State :=
  { s with bar2err := true, bar2Data := if read then List.replicate n 0xFF else s.bar2Data }

/-- The tile that a write through the window must wait for: COLD, of a partition with a pool. -/
def State.bar2Tile (s : State) (ps : List (Nat × Nat × Nat)) : Option (Nat × Nat) :=
  ps.findSome? fun p => match s.tileOf p.1 with
    | some (id, i, _) => if (s.tile id i).st = .cold ∧ !(s.pool (s.bufPart id)).isEmpty then some (id, i) else none
    | none => none

/-- Bytes that a window access names. -/
def windowLen (len : Nat) (data : Option (List Byte)) : Nat := match data with | some bs => bs.length | none => len

/-- A window access performed, or failed; none while a tile's move, or an access that arrived there before, holds it
(R364, R454). -/
def State.bar2Perform (s : State) (off len : Nat) (data : Option (List Byte)) : Option State :=
  let n := windowLen len data
  match s.bar2Places off n data.isSome with
  | .error _ => some (s.bar2Fails n data.isNone)
  | .ok ps =>
    if ps.any fun p => (s.heldBy p.1 .window).isSome then none
    else match data with
      | none => some { ps.foldl (fun (s : State) p => s.touchTile p.1) s with
          bar2Data := ps.flatMap fun p => s.homeRead p.1 p.2.1 }
      | some bs =>
        if (s.bar2Tile ps).isSome then none
        else some (ps.foldl (fun (s : State) p => s.homePut p.1 (writesOf p.1 ((bs.drop p.2.2).take p.2.1))) s)

/-- A window access held where it waits, in the order of arrival (R364); else the fetch of a COLD tile that it writes
begins (R366). -/
def State.bar2Hold (s : State) (off len : Nat) (data : Option (List Byte)) : State :=
  match s.bar2Places off (windowLen len data) data.isSome with
  | .ok ps =>
    match ps.findSome? fun p => s.heldBy p.1 .window with
    | some (id, i) => s.hold id i .window
    | none =>
      if data.isNone then s
      else match s.bar2Tile ps with
        | some (id, i) => (s.startFetch id i none).hold id i .window
        | none => s
  | .error _ => s

/-- BAR2_ACCESS (R454): an access to a moving tile is held until the move has ended, and the host's later accesses wait
behind it. -/
def execBar2Access (off len : Nat) (data : Option (List Byte)) (s : State) : Result :=
  event (
    let n := windowLen len data
    if !s.ready || n = 0 || decide (bar2Bytes < off + n) then s
    else s.hostTurn (.window off len data) fun s =>
      match s.bar2Perform off len data with
      | some t => t
      | none => { s with hostOps := [.window off len data] }.bar2Hold off len data)

/-- Host accesses that wait, performed in order as far as nothing holds them (R454). -/
def State.hostRun : Nat → State → State
  | 0, s => s
  | n + 1, s =>
    match s.hostOps with
    | [] => s
    | .reg off value :: ops => State.hostRun n ({ s with hostOps := ops }.windowWrite off value)
    | .window off len data :: ops =>
      match s.bar2Perform off len data with
      | some t => State.hostRun n { t.leaveTiles .window none with hostOps := ops }
      | none => s.bar2Hold off len data

/-! ## The event ring (R456) -/

/-- EVENT_RING_POST (R456). -/
def execEventRingPost (s : State) : Result := event (s.flushKept s.evKept)

end Sys2Proof.Machine
end

