-- ==== Sys2Proof/Machine/Objects.lean ====
section
/-! DEFINITION. Code objects: checks and loading, patches, unloading (R108 to R113, R186, R397 to R399). -/

namespace Sys2Proof.Machine

/-! ## Load statuses (R112) -/

def ldMagic : Nat := 0x0A
def ldEncrev : Nat := 0x0B
def ldLayout : Nat := 0x0C
def ldLoops : Nat := 0x0D
def ldSlot : Nat := 0x0E

/-- The work of a check, or the load status of the first check that fails. -/
abbrev LM (α : Type) := Except Nat α

/-- A status unless a condition holds. -/
def chk (ok : Bool) (status : Nat) : LM Unit := if ok then .ok () else .error status

/-! ## The layout (R108 to R111) -/

/-- The header (R108). -/
structure ObjHdr where
  dataLen : Nat
  nSect : Nat
  nSlot : Nat
  sectOff : Nat
  slotOff : Nat
  loopOff : Nat
  bufOff : Nat
  tileOff : Nat
  regOff : Nat
  deriving DecidableEq, Repr

/-- The fields of a header. -/
def hdrOf (bs : List Byte) : ObjHdr :=
  { dataLen := fieldAt bs 0x08 4, nSect := fieldAt bs 0x0C 2, nSlot := fieldAt bs 0x0E 2, sectOff := fieldAt bs 0x10 8
    slotOff := fieldAt bs 0x18 8, loopOff := fieldAt bs 0x20 8, bufOff := fieldAt bs 0x28 8, tileOff := fieldAt bs 0x30 8
    regOff := fieldAt bs 0x38 8 }

/-- `n` pieces of `k` bytes from an offset on. -/
def tableAt (bs : List Byte) (off k n : Nat) : List (List Byte) := chunks k n (bs.drop off)

/-- The W0 indices of a section, in order: a wide word takes the one after it too. The last may lack its W1. -/
def walkWords : Nat → Nat → List Word → List Nat
  | 0, _, _ => []
  | _, _, [] => []
  | n + 1, i, w :: ws => i :: (if fWide w then walkWords n (i + 2) ws.tail else walkWords n (i + 1) ws)

/-- The last code word is a W0 with WIDE = 1 (R112). -/
def endsWide (ws : List Word) : Bool :=
  match (walkWords ws.length 0 ws).getLast? with
  | some i => i + 1 == ws.length && (match ws[i]? with | some w => fWide w | none => false)
  | none => false

/-- A section entry checked, with where its code lies (R109, R112). -/
def sectionIn (bs : List Byte) (e : List Byte) : LM (Section × Nat × Nat) := do
  let off := fieldAt e 8 8
  let n := fieldAt e 16 4
  let entry := fieldAt e 20 4
  let trap := fieldAt e 24 4
  chk (decide (1 ≤ fieldAt e 0 1 ∧ fieldAt e 0 1 ≤ 4) && fieldAt e 1 7 == 0 && fieldAt e 28 4 == 0 && off % 8 == 0
    && decide (off + 8 * n ≤ bs.length) && decide (entry < n) && (trap == 2 ^ 32 - 1 || decide (trap < n))) ldLayout
  let words := (tableAt bs off 8 n).map fun w => BitVec.ofNat 64 (leNat w)
  chk (!endsWide words) ldLayout
  .ok ({ cls := fieldAt e 0 1, entry := entry, trap := if trap = 2 ^ 32 - 1 then none else some trap, words := words },
       off, off + 8 * n)

/-- Ranges share no byte. -/
def disjoint : List (Nat × Nat) → Bool
  | [] => true
  | r :: rs => rs.all (fun q => decide (r.2 ≤ q.1 ∨ q.2 ≤ r.1)) && disjoint rs

/-- The numbers of a list rise strictly. -/
def rising : List Nat → Bool
  | [] => true
  | [_] => true
  | a :: b :: l => decide (a < b) && rising (b :: l)

/-- A launch-loop entry (R109). -/
def levelOfEntry (e : List Byte) : Level :=
  let x := leNat e
  { trip := natBits x 0 32, kind := natBits x 32 2, tsrc := natBits x 34 2, slot := natBits x 36 12 }

/-- A slot entry (R111). -/
def slotOfEntry (e : List Byte) : Slot :=
  { ty := fieldAt e 0 1, sect := fieldAt e 1 1, target := fieldAt e 4 4, value := BitVec.ofNat 64 (fieldAt e 8 8) }

/-- Everything of an object that the loader keeps. -/
structure Image where
  sections : List Section
  slots : List Slot
  levels : List Level
  capKinds : List (Nat × Nat)
  tiles : List (Nat × List Byte)
  data : List Byte
  deriving DecidableEq, Repr

/-- The layout checks (R108 to R112, BAD_MAGIC to BAD_LAYOUT). DESIGN CHOICE: a capability slot whose KIND is 1 or 2 is
declared whatever its USED says (log entry 124). -/
def imageOf (bs : List Byte) : LM Image := do
  let n := bs.length
  chk (decide (8 ≤ n) && fieldAt bs 0 4 == 0x4154494B && fieldAt bs 6 2 == 64) ldMagic
  chk (fieldAt bs 4 2 == 1) ldEncrev
  chk (decide (64 ≤ n)) ldLayout
  let h := hdrOf bs
  chk (decide (1 ≤ h.nSect ∧ h.nSect ≤ 4) && decide (h.nSlot ≤ 4096) && h.dataLen % 8 == 0 && decide (h.dataLen ≤ n)) ldLayout
  chk (decide (h.sectOff + 32 * h.nSect ≤ n) && decide (h.slotOff + 16 * h.nSlot ≤ n) && decide (h.loopOff + 48 ≤ n)
    && decide (h.bufOff + 256 ≤ n) && decide (h.tileOff + 8 ≤ n) && decide (h.regOff + 8 ≤ n)) ldLayout
  let nt := fieldAt bs h.tileOff 8
  let nr := fieldAt bs h.regOff 8
  chk (decide (h.tileOff + 8 + 80 * nt ≤ n) && decide (h.regOff + 8 + 8 * nr ≤ n)) ldLayout
  let sects ← (tableAt bs h.sectOff 32 h.nSect).mapM (sectionIn bs)
  let dataAt := n - h.dataLen
  chk (disjoint ((sects.map fun s => s.2) ++ (if h.dataLen = 0 then [] else [(dataAt, n)]))) ldLayout
  chk (noRepeat (sects.map fun s => (s.1.cls, 0))) ldLayout
  let slotB := tableAt bs h.slotOff 16 h.nSlot
  chk (slotB.all fun e => fieldAt e 2 2 == 0) ldLayout
  let loopB := tableAt bs h.loopOff 8 6
  chk (loopB.all fun e => natBits (leNat e) 48 16 == 0 && (natBits (leNat e) 34 2 == 1 || natBits (leNat e) 36 12 == 0)) ldLayout
  let capB := tableAt bs h.bufOff 16 16
  chk (capB.all fun e => decide (fieldAt e 0 1 ≤ 1) && decide (fieldAt e 1 1 < 16) && decide (fieldAt e 2 1 ≤ 2)
    && fieldAt e 3 5 == 0) ldLayout
  let kinds := (capB.zipIdx.map fun e => (e.2, fieldAt e.1 2 1)).filter fun e => e.2 != 0
  chk (decide ((kinds.filter fun e => e.2 == 1).length ≤ 1) && decide ((kinds.filter fun e => e.2 == 2).length ≤ 1)
    && (h.dataLen != 0 || kinds.all fun e => e.2 == 1)) ldLayout
  let tileB := tableAt bs (h.tileOff + 8) 80 nt
  chk (rising (tileB.map fun e => fieldAt e 0 2)
    && tileB.all fun e => fieldAt e 2 14 == 0 && fieldAt e 0x2C 4 == 1 && fieldAt e 0x38 24 == 0) ldLayout
  let regB := tableAt bs (h.regOff + 8) 8 nr
  let lenOf := fun (i : Nat) => match sects[i]? with | some s => s.1.words.length | none => 0
  chk (regB.all fun e => fieldAt e 1 3 == 0 && decide (fieldAt e 4 4 < lenOf (fieldAt e 0 1))) ldLayout
  .ok { sections := sects.map fun s => s.1, slots := slotB.map slotOfEntry, levels := loopB.map levelOfEntry
        capKinds := kinds, tiles := tileB.map fun e => (fieldAt e 0 2, e.drop 16), data := bs.drop dataAt }

/-! ## Loops and slots (R110, R112) -/

/-- The value a LOOPTRIP slot or the TRIP field gives a level at load. -/
def loadTrip (im : Image) (l : Level) : Nat :=
  if l.tsrc = 1 then (match im.slots[l.slot]? with | some x => x.value.toNat % 2 ^ 32 | none => l.trip) else l.trip

/-- The checks of BAD_LOOPS, on every one of the six levels, used or not. A trip that a prologue or a launch gives takes
no part in the C-trip product. -/
def loopsOk (im : Image) : Bool :=
  let used := im.levels.takeWhile fun l => l.kind != 3
  let c := (used.filter fun l => l.kind == 1 && l.tsrc != 2).foldl (fun a l => a * loadTrip im l) 1
  (im.levels.drop used.length).all (fun l => l.kind == 3) && decide (c ≤ 32) && im.levels.all (fun l => l.tsrc != 3)
    && im.levels.zipIdx.all (fun e => e.1.tsrc != 1 || (match im.slots[e.1.slot]? with
        | some x => x.ty == 3 && x.target == e.2 | none => false))
    && im.slots.all fun x => x.ty != 3 || (match im.levels[x.target]? with | some l => l.tsrc == 1 | none => false)

/-- The word of a section at which a slot aims. -/
def slotWord (im : List Section) (x : Slot) : Option (Section × Word) :=
  match im[x.sect]? with
  | some s => (match s.words[x.target]? with | some w => some (s, w) | none => none)
  | none => none

/-- An AS word that carries a tile handle (R90, R110). -/
def carriesHandle : Instr → Bool
  | .copyThIn _ | .copyThOut _ | .copym _ | .gather _ | .scatter _ | .thfence _ => true
  | .prefetch f => f.fl.getLsbD 1
  | _ => false

/-- The instruction that a word's tag and opcode name, with no check of its fields. -/
def opcodeOf (s : Section) (w : Word) : Option Instr :=
  match classOf s.cls with | some c => opOf c w ⟨0, none, w.extractLsb' 45 3⟩ none | none => none

/-- A value fits a slot, and its target has the format that its type needs (R110, R112). -/
def slotOk (im : List Section) (x : Slot) (v : Nat) : Bool :=
  if x.ty = 3 then decide (v < 2 ^ 32)
  else match slotWord im x with
    | none => false
    | some (s, w) =>
      match x.ty with
      | 1 => decide (v < 2 ^ 20) && (match (opcodeOf s w).map Instr.body with | some (.ri _) => true | _ => false)
      | 2 => decide (v < 2 ^ 32) && fWide w
      | 4 => decide (v < 2 ^ 16) && fWide w && (match opcodeOf s w with | some i => carriesHandle i | none => false)
      | _ => false

/-- Bits [lo + n - 1 : lo] of a word replaced. -/
def putBits (w : Word) (lo n v : Nat) : Word :=
  BitVec.ofNat 64 (w.toNat - natBits w.toNat lo n * 2 ^ lo + v % 2 ^ n * 2 ^ lo)

/-- A slot's value written into its target bits (R110). A LOOPTRIP value is read through the slot itself. -/
def patchWords (im : List Section) (x : Slot) (v : Nat) : List Section :=
  im.zipIdx.map fun e =>
    if e.2 ≠ x.sect then e.1
    else
      let at_ := if x.ty = 1 then x.target else x.target + 1
      let f := fun (w : Word) => match x.ty with
        | 1 => putBits w 0 20 v | 2 => putBits w 32 32 v | 4 => putBits w 0 16 v | _ => w
      { e.1 with words := e.1.words.zipIdx.map fun w => if w.2 = at_ then f w.1 else w.1 }

/-- An object from its bytes: checked, with the slots' default values written (R110, R112). -/
def loadImage (bs : List Byte) : LM Image := do
  let im ← imageOf bs
  chk (loopsOk im) ldLoops
  chk (im.slots.all fun x => slotOk im.sections x x.value.toNat) ldSlot
  .ok { im with sections := im.slots.foldl (fun ss x => patchWords ss x x.value.toNat) im.sections }

/-! ## OBJ_LOAD (R111, R186, R387) -/

/-- Entries of the tile table: the highest handle plus one, at least one. -/
def tileEntries (ts : List (Nat × List Byte)) : Nat :=
  match ts.getLast? with | some t => t.1 + 1 | none => 1

/-- A length in whole pages. -/
def pageRound (n : Nat) : Nat := (n + pageBytes - 1) / pageBytes * pageBytes

/-- The object's tile table (R186). -/
def State.buildTiles (s : State) (ctx : Nat) (ts : List (Nat × List Byte)) : Option (Nat × State) :=
  let len := pageRound (64 * tileEntries ts)
  if s.quotaLeft (s.ctxPart ctx) < len / pageBytes then none
  else match s.createBuffer ctx len false false false false 0 true with
    | some (id, s) => some (id, ts.foldl (fun (s : State) t => s.fillBuffer id (64 * t.1) t.2) s)
    | none => none

/-- The object's data buffer, whose pages no store may write (R111). -/
def State.buildData (s : State) (ctx : Nat) (data : List Byte) : Option (Option Nat × State) :=
  if data.isEmpty then some (none, s)
  else
    let len := pageRound data.length
    if s.quotaLeft (s.ctxPart ctx) < len / pageBytes then none
    else match s.createBuffer ctx len false false false false 0 false with
      | some (id, s) => some (some id, s.fillBuffer id 0 data)
      | none => none

/-- OBJ_LOAD (R108 to R112, R186, R387). -/
def execObjLoad (c : Cmd) (s : State) : Result :=
  command c (fun s => do
    s.must c (zeros [c.w3, c.w4, c.w5] && c.w1.toNat % 8 == 0) stBadArg
    let ctx := c.w0.toNat
    let _ ← s.cmdCtx c ctx
    match loadImage (s.hostRead c.w1.toNat c.w2.toNat) with
    | .error st => s.fails c st
    | .ok im =>
      match (s.buildTiles ctx im.tiles).bind fun t => (t.2.buildData ctx im.data).map fun d => (t.1, d.1, d.2) with
      | none => s.fails c stNoResource
      | some (tileBuf, dataBuf, t) =>
        let o : CodeObj := { ctx := ctx, sections := im.sections, slots := im.slots, levels := im.levels
                             capKinds := im.capKinds, tileBuf := tileBuf, tileCount := tileEntries im.tiles
                             dataBuf := dataBuf, used := false, gone := false }
        .ok ({ t with objects := FMap.put t.objects s.nextHandle o, nextHandle := s.nextHandle + 1 }.cmdDone c stOk
          s.nextHandle)) s

/-! ## OBJ_PATCH (R397) -/

/-- Instruction-cache lines of a range dropped in every cell that runs a context on a partition. -/
def State.icinvCtx (s : State) (ctx lo len : Nat) : State :=
  { s with cells := s.cells.map fun (e : Nat × Cell) =>
      if s.nodeCtx e.2.node = ctx then (e.1, e.2.icDrop lo len) else e }

/-- OBJ_PATCH (R110, R113, R397). -/
def execObjPatch (c : Cmd) (s : State) : Result :=
  command c (fun s => do
    s.must c (zeros [c.w3, c.w4, c.w5]) stBadArg
    let h := c.w0.toNat
    match FMap.find? s.objects h with
    | none => s.fails c stNotFound
    | some o => do
      s.must c (!o.gone) stNotFound
      let _ ← s.cmdCtx c o.ctx
      match o.slots[c.w1.toNat]? with
      | none => s.fails c ldSlot
      | some x => do
        s.must c (slotOk o.sections x c.w2.toNat) ldSlot
        let o2 := { o with sections := patchWords o.sections x c.w2.toNat
                           slots := setNth o.slots c.w1.toNat { x with value := c.w2 } }
        let active : Bool := match s.part? (s.ctxPart o.ctx) with | some p => p.activeCtx == o.ctx | none => false
        let s := { s with objects := FMap.put s.objects h o2 }
        let s := if x.ty != 3 && o.used && active then
            s.icinvCtx o.ctx (8 * x.target) (if x.ty = 1 then 8 else 16) else s
        .ok (s.cmdDone c stOk 0)) s

/-! ## OBJ_UNLOAD (R398, R399) -/

/-- Something refers to an object: an entry, a shard, or a record of a cell held for a dump. -/
def State.refersTo (s : State) (h : Nat) : Bool :=
  s.nodes.any (fun e => e.2.kobj == h || e.2.prolObj == h)
    || s.cells.any fun e => e.2.phase != .idle && e.2.record.obj == h

/-- An object's own references dropped (R111, R338). -/
def State.dropObject (s : State) (o : CodeObj) : State :=
  let s := s.dropRef o.tileBuf
  match o.dataBuf with | some id => s.dropRef id | none => s

/-- OBJ_UNLOAD (R398, R399). -/
def execObjUnload (c : Cmd) (s : State) : Result :=
  command c (fun s => do
    s.must c (below c.w1 1 && zeros [c.w2, c.w3, c.w4, c.w5]) stBadArg
    let h := c.w0.toNat
    match FMap.find? s.objects h with
    | none => s.fails c stNotFound
    | some o => do
      s.must c (!o.gone) stNotFound
      let _ ← s.cmdCtx c o.ctx
      if c.w1 = 0 then do
        s.must c (!s.refersTo h) stBusy
        let s := s.dropObject o
        .ok ({ s with objects := FMap.erase s.objects h }.cmdDone c stOk 0)
      else
        let s := (s.runningNodes fun d => d.kobj == h).foldl (fun (s : State) n => s.discardNode n) s
        let s := s.dropObject o
        let named := s.nodes.any fun e => e.2.kobj == h || e.2.prolObj == h
        let o2 := { o with gone := true, sections := o.sections.map fun (x : Section) => { x with words := [] } }
        let s := { s with objects := if named then FMap.put s.objects h o2 else FMap.erase s.objects h }
        .ok (s.cmdDone c stOk 0)) s

end Sys2Proof.Machine
end

