-- ==== Sys2Proof/Machine/Predicates.lean ====
section
/-! DEFINITION. Geometric predicates (R217, R233 to R241): the two floating stages, the exact stage, symbolic
perturbation. -/

namespace Sys2Proof.Machine

/-! ## One expansion over any arithmetic (R234, R238) -/

/-- The operations an expansion uses. -/
structure Arith (α : Type) where
  add : α → α → α
  sub : α → α → α
  mul : α → α → α
  abs : α → α
  zero : α

/-- The terms of a cofactor expansion added left to right, with alternating signs. -/
def altSum {α : Type} (r : Arith α) (neg : Bool) (acc : α) : List α → α
  | [] => acc
  | t :: ts => altSum r (!neg) (if neg then r.sub acc t else r.add acc t) ts

/-- The determinant of n rows by cofactors of the first column (R238). -/
def detOf {α : Type} (r : Arith α) : Nat → List (List α) → α
  | 0, _ => r.zero
  | 1, rows => (rows.headD []).headD r.zero
  | 2, [[p, q], [s, t]] => r.sub (r.mul p t) (r.mul q s)
  | n + 1, rows =>
    let terms := rows.zipIdx.map fun e =>
      r.mul (e.1.headD r.zero) (detOf r n ((rows.eraseIdx e.2).map List.tail))
    match terms with
    | [] => r.zero
    | t :: ts => altSum r true t ts

/-- The same expansion over absolute values, with every subtraction an addition (R238). -/
def permOf {α : Type} (r : Arith α) (n : Nat) (rows : List (List α)) : α :=
  detOf { r with sub := fun a b => r.add a b } n (rows.map fun x => x.map r.abs)

/-- The rows of a form's determinant: differences from the last point, and for the lifted forms the sum of their
squares (R234). -/
def predRows {α : Type} (r : Arith α) (lifted : Bool) (pts : List (List α)) : List (List α) :=
  let ref := pts.getLastD []
  pts.dropLast.map fun p =>
    let ds := List.zipWith r.sub p ref
    if lifted then
      let sq := ds.map fun d => r.mul d d
      ds ++ [match sq with | [] => r.zero | x :: xs => xs.foldl r.add x]
    else ds

/-! ## The arithmetics -/

/-- Stage A: round_rne to the format at every operation. -/
def fmtArith (t : FFmt) : Arith Val where
  add a b := t.decode (t.add 0 a b).1
  sub a b := t.decode (t.add 0 a b.negate).1
  mul a b := t.decode (t.mul 0 a b).1
  abs | .fin _ m e => .fin false m e | .inf _ => .inf false | v => v
  zero := .fin false 0 0

/-- A dyadic number rounded to nearest even at `p` significant bits, the exponent unbounded. -/
def Dy.roundTo (p : Nat) (a : Dy) : Dy :=
  let m := a.num.natAbs
  if m < 2 ^ p then a
  else
    let q := quantum m 1 a.exp p
    let k := (roundAt 0 (a.num < 0) m 1 a.exp q).1
    ⟨if a.num < 0 then -(k : Int) else k, q⟩

/-- Stage B (R239): `p` significant bits. -/
def wideArith (p : Nat) : Arith Dy where
  add a b := (a.add b).roundTo p
  sub a b := (a.sub b).roundTo p
  mul a b := (a.mul b).roundTo p
  abs := Dy.abs
  zero := ⟨0, 0⟩

/-- Stage C: exact. -/
def exactArith : Arith Dy := { add := Dy.add, sub := Dy.sub, mul := Dy.mul, abs := Dy.abs, zero := ⟨0, 0⟩ }

/-- A polynomial in ε: coefficients by rising exponent. -/
abbrev Poly := List (Nat × Dy)

/-- The sum of two polynomials. -/
def Poly.add (p q : Poly) : Poly :=
  q.foldl (fun (a : Poly) t =>
    match FMap.find? a t.1 with
    | some c => FMap.put a t.1 (Dy.add c t.2)
    | none => FMap.put a t.1 t.2) p

/-- The negation of a polynomial. -/
def Poly.neg (p : Poly) : Poly := p.map fun t => (t.1, t.2.neg)

/-- The product of two polynomials. -/
def Poly.mul (p q : Poly) : Poly :=
  p.foldl (fun (a : Poly) t => Poly.add a (q.map fun u => (t.1 + u.1, t.2.mul u.2))) []

/-- The sign of a polynomial as ε tends to 0 from above (R236). -/
def Poly.sign (p : Poly) : Int := match p.find? fun t => t.2.num != 0 with | some t => t.2.sign | none => 0

/-- Exact arithmetic on polynomials. -/
def polyArith : Arith Poly :=
  { add := Poly.add, sub := fun p q => Poly.add p (Poly.neg q), mul := Poly.mul, abs := id, zero := [] }

/-! ## Orientation signs by stage -/

/-- What a form has: coordinates per point, points, and whether it lifts (R233). -/
structure PredForm where
  d : Nat
  pts : Nat
  lifted : Bool
  /-- -log2 of c_A for f64 and for f32 -/
  cA64 : Nat
  cA32 : Nat
  deriving DecidableEq, Repr

def orient2Form : PredForm := ⟨2, 3, false, 50, 21⟩
def orient3Form : PredForm := ⟨3, 4, false, 49, 20⟩
def incircleForm : PredForm := ⟨2, 4, true, 48, 19⟩
def insphereForm : PredForm := ⟨3, 5, true, 46, 17⟩

/-- Rows of the determinant. -/
def PredForm.n (p : PredForm) : Nat := p.pts - 1

/-- Stage A's decision (R238). -/
def PredForm.stageA (p : PredForm) (f64_ : Bool) (pts : List (List Val)) : Option Int :=
  let r := fmtArith (if f64_ then f64 else f32)
  let rows := predRows r p.lifted pts
  match detOf r p.n rows, permOf r p.n rows with
  | .fin nd md ed, .fin _ mp ep =>
    let c := if f64_ then p.cA64 else p.cA32
    let m : Dy := ⟨1, if f64_ then -900 else -100⟩
    let perm : Dy := ⟨mp, ep⟩
    if Dy.lt ⟨mp, ep - c⟩ ⟨md, ed⟩ ∧ !Dy.lt perm m then some (if md = 0 then 0 else if nd then -1 else 1) else none
  | _, _ => none

/-- Stage B's decision (R239). -/
def PredForm.stageB (p : PredForm) (f64_ : Bool) (pts : List (List Val)) : Option Int :=
  let r := wideArith (if f64_ then 106 else 48)
  let rows := predRows r p.lifted (pts.map fun q => q.map Val.dy)
  let det := detOf r p.n rows
  let perm := permOf r p.n rows
  if Dy.lt ⟨perm.num, perm.exp - (if f64_ then 97 else 39)⟩ det.abs then some det.sign else none

/-- The exact sign of the determinant. -/
def PredForm.exact (p : PredForm) (pts : List (List Val)) : Int :=
  (detOf exactArith p.n (predRows exactArith p.lifted (pts.map fun q => q.map Val.dy))).sign

/-- The rank of a point by its index, 1 for the smallest (R236). -/
def rankOf (ix : List Int) (i : Nat) : Nat := (ix.filter fun x => decide (x < ix.getD i 0)).length + 1

/-- The sign under symbolic perturbation (R236). -/
def PredForm.perturbed (p : PredForm) (pts : List (List Val)) (ranks : List Nat) : Int :=
  let coords := (pts.zip ranks).map fun e => e.1.zipIdx.map fun c =>
    ([(0, c.1.dy), (2 ^ (e.2 * p.d - (c.2 + 1)), ⟨1, 0⟩)] : Poly)
  (detOf polyArith p.n (predRows polyArith p.lifted coords)).sign

/-- A lane's sign and the stage that decides it. -/
def PredForm.decide_ (p : PredForm) (f64_ : Bool) (pts : List (List Val)) (ix : Option (List Int)) : Int × Nat :=
  match p.stageA f64_ pts with
  | some z => (z, 1)
  | none =>
    match p.stageB f64_ pts with
    | some z => (z, 2)
    | none =>
      let z := p.exact pts
      match z, ix with
      | 0, some ix => (p.perturbed pts ((List.range ix.length).map (rankOf ix)), 3)
      | _, _ => (z, 3)

/-! ## SEGCROSS (R235) -/

/-- The exact order of two coordinates. -/
def leV (a b : Val) : Bool := !Dy.lt b.dy a.dy

/-- A point within the bounding box of a segment. -/
def inBox (x a b : List Val) : Bool :=
  (List.zip x (List.zip a b)).all fun e =>
    (leV e.2.1 e.1 && leV e.1 e.2.2) || (leV e.2.2 e.1 && leV e.1 e.2.1)

/-- The intersection of two collinear segments: 0 empty, 2 one point, 3 more. -/
def collinear (p0 p1 q0 q1 : List Val) : Int :=
  let touch := inBox q0 p0 p1 || inBox q1 p0 p1 || inBox p0 q0 q1
  if !touch then 0
  else
    -- the ends of either segment that lie in both: one place, or more
    let ends := ([p0, p1].filter fun x => inBox x q0 q1) ++ ([q0, q1].filter fun x => inBox x p0 p1)
    match ends with
    | [] => 0
    | x :: xs => if xs.all fun y => (List.zip x y).all fun e => leV e.1 e.2 && leV e.2 e.1 then 2 else 3

/-- The class from the four orientations (R235). -/
def segClass (p0 p1 q0 q1 : List Val) (o1 o2 o3 o4 : Int) : Int :=
  if o1 = 0 ∧ o2 = 0 ∧ o3 = 0 ∧ o4 = 0 then collinear p0 p1 q0 q1
  else if o1 * o2 < 0 ∧ o3 * o4 < 0 then 1
  else if (o1 = 0 ∧ inBox q0 p0 p1) ∨ (o2 = 0 ∧ inBox q1 p0 p1) ∨ (o3 = 0 ∧ inBox p0 q0 q1)
    ∨ (o4 = 0 ∧ inBox p1 q0 q1) then 2
  else 0

/-- SEGCROSS of a lane: its class and the stage that decides it. -/
def segDecide (f64_ : Bool) (pts : List (List Val)) (ix : Option (List Int)) : Int × Nat :=
  let at_ := fun i => pts.getD i []
  let tri := [[0, 1, 2], [0, 1, 3], [2, 3, 0], [2, 3, 1]]
  let sub := fun (t : List Nat) => t.map at_
  let fin := fun (os : List Int) => segClass (at_ 0) (at_ 1) (at_ 2) (at_ 3) (os.getD 0 0) (os.getD 1 0) (os.getD 2 0)
    (os.getD 3 0)
  let stage := fun (g : List (List Val) → Option Int) => tri.mapM fun t => g (sub t)
  match stage (orient2Form.stageA f64_) with
  | some os => (fin os, 1)
  | none =>
    match stage (orient2Form.stageB f64_) with
    | some os => (fin os, 2)
    | none =>
      (fin (tri.map fun t =>
        let z := orient2Form.exact (sub t)
        match z, ix with
        | 0, some ix => orient2Form.perturbed (sub t) (t.map fun i => rankOf ix i)
        | _, _ => z), 3)

/-! ## The words (R233, R237, R241) -/

/-- A lane's outcome: a cause, or the result and the stage; stage 0 for a non-finite lane under `.nfq`. -/
def predLane (dec : Bool → List (List Val) → Option (List Int) → Int × Nat) (f64_ sos nfq : Bool)
    (pts : List (List Val)) (ix : List Int) : Except (BitVec 8) (Int × Nat) :=
  if pts.any fun p => p.any fun v => !v.isFin then (if nfq then .ok (-128, 0) else .error 0x65)
  else if sos && !decide ix.Nodup then .error 0x66
  else .ok (dec f64_ pts (if sos then some ix else none))

/-- Lane `i` of a list of registers' elements. -/
def laneOf (regs : List (Array Nat)) (i : Nat) : List Nat := regs.map fun r => r.getD i 0

/-- A predicate word over a form with `d` coordinates and `pts` points. -/
def predWord (d pts : Nat) (dec : Bool → List (List Val) → Option (List Int) → Int × Nat) (f : Rrr) (s : State) :
    Result :=
  vecWord f (fun s => do
    s.stageFree f.b.toNat
    let c := s.core
    let ty := f.ty.toNat
    let w := typeBits ty
    let t := fmtOf ty
    let sos := f.rs.getLsbD 0
    let reg := fun k => (c.velems w (c.vphys (f.a.toNat + k))).toArray
    let coords := (List.range (d * pts)).map reg
    let idx := if sos then (List.range pts).map fun i => reg (d * pts + i) else []
    let m := maskBits w (c.kreg f.fl.toNat)
    let lanes : List (Option (Except (BitVec 8) (Int × Nat))) := m.zipIdx.map fun e =>
      if e.1 then
        some (predLane dec (w == 64) sos (f.rs.getLsbD 1) (chunks d pts ((laneOf coords e.2).map t.decode))
          ((laneOf idx e.2).map (toSigned w)))
      else none
    match lanes.zipIdx.findSome? fun e => match e.1 with | some (.error x) => some (x, e.2) | _ => none with
    | some (code, i) =>
      .error (.cause { code := code, view := viewCode w, row := i / rowElems w, elem := i % rowElems w } none)
    | none =>
      let rs := lanes.map fun e => match e with | some (.ok r) => r | _ => (0, 0)
      let stg := rs.foldl (fun a r => max a r.2) 0
      let perLane := rs.flatMap fun r => List.replicate (if w = 64 then 2 else 1) (r.2 == 3)
      let c := c.writeV f.d w f.fl.toNat (rs.map fun r => wrapNat w r.1)
      let c := c.setK f.b.toNat (maskOf w ((m.zip rs).map fun e => e.1 && e.2.1 != 0))
      .ok (s.setCore { c with
        pstg := stg, pnc := (perLane.filter id).length
        pslane := BitVec.ofNat 1024 (perLane.foldr (fun b (a : Nat) => 2 * a + (if b then 1 else 0)) 0) })) s

/-- A predicate by the sign of its determinant. -/
def signWord (p : PredForm) (f : Rrr) (s : State) : Result := predWord p.d p.pts p.decide_ f s

/-- ORIENT2 (R234). -/
def execOrient2 (f : Rrr) (s : State) : Result := signWord orient2Form f s
/-- ORIENT3 (R234). -/
def execOrient3 (f : Rrr) (s : State) : Result := signWord orient3Form f s
/-- INCIRCLE (R234). -/
def execIncircle (f : Rrr) (s : State) : Result := signWord incircleForm f s
/-- INSPHERE (R234). -/
def execInsphere (f : Rrr) (s : State) : Result := signWord insphereForm f s
/-- SEGCROSS (R235). -/
def execSegcross (f : Rrr) (s : State) : Result := predWord 2 4 segDecide f s

end Sys2Proof.Machine
end

