-- ==== Sys2Proof/Machine/Roles.lean ====
section
/-! DEFINITION. Layer roles and power states (R443 to R450, R465 to R467). -/

namespace Sys2Proof.Machine

/-! ## ROLE_SET (R446 to R449) -/

/-- Cells of dies that hold a halted shard, or are held for a dump. -/
def State.heldOn (s : State) (dies : List Nat) : Bool :=
  s.cells.any fun e => dies.contains (keyChip e.1) && (e.2.phase == .halted || e.2.phase == .stopped)

/-- Step 2: moves of a partition's tiles ended one after another. -/
def State.endMoves (s : State) (part : Nat) : State :=
  let mine := fun (t : Nat × Nat × Tile) => s.bufPart t.1 == part
  let out := s.allTiles.filter fun t => mine t && t.2.2.st == .evicting
  let s := out.foldl (fun (s : State) t => s.evictDone t.1 t.2.1) s
  let in_ := s.allTiles.filter fun t => s.bufPart t.1 == part && t.2.2.st == .fetching
  in_.foldl (fun (s : State) t => s.fetchDone t.1 t.2.1) s

/-- Step 2: as long as a tile moves. A tile that waited for a frame takes one, or the frame of a victim. -/
def State.settleTiles : Nat → State → Nat → State
  | 0, s, _ => s
  | n + 1, s, part =>
    if s.allTiles.any fun t => s.bufPart t.1 == part && (t.2.2.st == .fetching || t.2.2.st == .evicting) then
      State.settleTiles n (s.endMoves part) part
    else s

/-- Step 2: a tile of the pool evicted, and its frame written zero with tag 0. -/
def State.expel (s : State) (id i frame : Nat) : State :=
  let s := (s.setTile id i { s.tile id i with st := .evicting }).evictDone id i
  { s with mem := FMap.clearRange s.mem frame 65536, bad := FMap.clearRange s.bad (frame / 64) 1024 }

/-- Step 2: the tarn pool of a partition emptied. -/
def State.emptyPool (s : State) (part : Nat) : State :=
  let pool := s.pool part
  s.allTiles.foldl (fun (s : State) t =>
    match t.2.2.frame with
    | some f => if t.2.2.st = .resident ∧ pool.contains f then s.expel t.1 t.2.1 f else s
    | none => s) s

/-- R448: the bytes and tags of a leaving layer copied into frames mapped at a VA. -/
def State.evacuate (s : State) (part ctx va chip : Nat) (frames : List Nat) : State :=
  let t := s.mapPages part ctx va 0 0 true 0 frames
  -- the mapping belongs to no buffer
  let s := { t with buffers := s.buffers, loose := (pagesOf va (pageBytes * frames.length)).map (fun p => (ctx, p)) ++ s.loose }
  frames.zipIdx.foldl (fun (s : State) e =>
    (s.noteBad (s.badIn (tarnLoc chip (pageBytes * e.2)) pageBytes)).movePlace (tarnLoc chip (pageBytes * e.2)) (e.1 * pageBytes)
      pageBytes) s

/-- The number of frames of an evacuated layer. -/
def layerFrames : Nat := tarnBytes / pageBytes

/-- Step 3: what a die drops; its die cache's dirty lines stand in HBM, where the model keeps their bytes. -/
def Die.flushed (d : Die) : Die := { d.emptied with dcache := [] }

/-- Steps 1 to 4 of a role change (R447), and step 5 up to the change of the layer's entry. -/
def State.changeRole (s : State) (part chip role ctx va : Nat) (frames : List Nat) : State :=
  let active := match s.part? part with | some p => p.activeCtx | none => 0
  let s := (s.runningNodes fun d => d.ctx == active).foldl (fun (s : State) n => s.discardNode n) s
  let s := State.settleTiles (2 * s.allTiles.length + 2) s part
  let s := s.emptyPool part
  let s := (s.partDies part).foldl (fun (s : State) i => s.setDie i (s.die i).flushed) s
  let s := if va = 0 then s else s.evacuate part ctx va chip frames
  (s.zeroTarn chip).setRole chip role

/-- An evacuation target that a ROLE_SET may name (R446). -/
def State.evacOk (s : State) (part ctx va : Nat) : Bool :=
  (match s.ctx? ctx with | some x => x.part == part | none => ctx == 0 && va == 0)
    && va % pageBytes == 0 && (va == 0 || (decide (va + tarnBytes ≤ 2 ^ 57) && !s.leafIn ctx va tarnBytes))

/-- ROLE_SET (R443 to R450). -/
def execRoleSet (c : Cmd) (s : State) : Result :=
  command c (fun s => do
    let part := c.w0.toNat
    let chip := c.w1.toNat
    let role := c.w2.toNat
    let ctx := c.w3.toNat
    let va := c.w4.toNat
    let old := (s.die chip).role
    s.must c (decide (role ≤ 1) && zeros [c.w5]) stBadArg
    let _ ← s.cmdPart c part
    s.must c (ctx == 0 || (s.ctx? ctx).isSome) stNotFound
    s.must c (isLayer chip && decide (old ≤ 1) && (s.die chip).part == part) stBadArg
    s.must c (role != 1 || old == 1 || decide (2 ≤ (s.arith part).length)) stBadArg
    s.must c (s.evacOk part ctx va && ((old == 1 && role == 0) || (ctx == 0 && va == 0))) stBadArg
    let _ ← if ctx = 0 then .ok () else (s.cmdCtx c ctx).map fun _ => ()
    if role = old then .ok (s.cmdDone c stOk 0)
    else do
      let roles := fun (i : Nat) => if i = chip then role else (s.die i).role
      s.must c (decide (stackWatts roles (stackOf chip) ≤ s.stackLimit)) stThermal
      let frames := if va = 0 then some [] else
        if s.quotaLeft part < layerFrames then none else s.findFrames (fun _ => true) layerFrames
      match frames with
      | none => s.fails c stNoResource
      | some fs => do
        s.must c (!s.heldOn (s.partDies part)) stBusy
        .ok ((s.changeRole part chip role ctx va fs).beginReenum ⟨part, some (chip, old, role), c, 0⟩)) s

/-! ## POWER_SET (R465, R466) -/

/-- The dies of a domain: TIER layers belong to none. -/
def State.domainDies (s : State) (part cls : Nat) : List Nat := s.classDies part cls

/-- POWER_SET (R463, R465, R466); an unknown partition gives NOT_FOUND (R387). -/
def execPowerSet (c : Cmd) (s : State) : Result :=
  command c (fun s => do
    let part := c.w0.toNat
    let cls := c.w1.toNat
    let st := c.w2.toNat
    let awake := c.w3.toNat
    s.must c (decide (1 ≤ cls ∧ cls ≤ 4) && decide (st ≤ 6) && decide (awake ≤ 2) && zeros [c.w4, c.w5]) stBadArg
    let _ ← s.cmdPart c part
    s.must c (!s.heldOn (s.domainDies part cls)) stBusy
    let old := match s.part? part with | some p => (nthD p.power (cls - 1) (0, 0)).1 | none => 0
    let s := if 3 ≤ st ∧ st ≤ 5 then
        (s.runningNodes fun d => d.cls == cls && s.ctxPart d.ctx == part).foldl (fun (s : State) n => s.discardNode n) s
      else s
    let s := s.modPart part fun (p : Part) => { p with power := setNth p.power (cls - 1) (st, awake) }
    let s := s.postEvent 8 part 0 [(8, 1, cls), (9, 1, old), (10, 1, st), (11, 1, awake), (16, 8, s.tick)] []
    .ok (s.cmdDone c stOk 0)) s

end Sys2Proof.Machine
end

