-- ==== Sys2Proof/Machine/Scalar.lean ====
section
/-! DEFINITION. Scalar arithmetic of C and A (R114 to R123). -/

namespace Sys2Proof.Machine

/-- The integer type of a scalar word. -/
def Rrr.ity (f : Rrr) : ITy := ITy.ofCode f.ty.toNat

/-- An RRR word that reads A and B and writes D (R114). -/
def scalarRrr (f : Rrr) (fn : ITy → Word → Word → Word) (s : State) : Result :=
  runWord f.hdr f.w1.isSome (f.hdr.eng == 0) (fun s => seqM do
    let lit := litVal f.ty.toNat f.w1
    let (a, s) ← s.src f.a lit
    let (b, s) ← s.src f.b lit
    s.dst f.d (fn (Rrr.ity f) a b)) s

/-- An RI word: its RRR form with TYPE 0 and B := IMM20 sign-extended (R114). -/
def scalarRi (f : Ri) (fn : ITy → Word → Word → Word) (s : State) : Result :=
  runWord f.hdr f.w1.isSome (f.hdr.eng == 0) (fun s => seqM do
    let (a, s) ← s.src f.a (litVal 0 f.w1)
    s.dst f.d (fn (ITy.ofCode 0) a (f.imm.signExtend 64))) s

/-- An RRR word that reads A alone. -/
def scalarUn (f : Rrr) (fn : State → ITy → Word → Word) (s : State) : Result :=
  runWord f.hdr f.w1.isSome (f.hdr.eng == 0) (fun s => seqM do
    let (a, s) ← s.src f.a (litVal f.ty.toNat f.w1)
    s.dst f.d (fn s (Rrr.ity f) a)) s

/-! ## The functions (R115 to R118) -/

/-- A function of exact integers, read and written in the type (R114). -/
def intFn (g : Int → Int → Int) (t : ITy) (a b : Word) : Word := t.write (g (t.read a.toNat) (t.read b.toNat))
/-- A comparison: 1 or 0 as a 64-bit value. -/
def cmpFn (g : Int → Int → Bool) (t : ITy) (a b : Word) : Word := if g (t.read a.toNat) (t.read b.toNat) then 1 else 0
/-- A bitwise function of the low w bits, extended per the type. -/
def bitFn (g : Nat → Nat → Nat) (t : ITy) (a b : Word) : Word :=
  t.write (g (a.toNat % 2 ^ t.w) (b.toNat % 2 ^ t.w) : Nat)

/-- DIV (R116). -/
def divInt (t : ITy) (a b : Int) : Int :=
  if b = 0 then (2 ^ t.w : Nat) - 1 else if t.signed ∧ a = t.lo ∧ b = -1 then t.lo else Int.tdiv a b
/-- REM (R116). -/
def remInt (t : ITy) (a b : Int) : Int := if b = 0 then a else a - b * divInt t a b

def divFn (t : ITy) (a b : Word) : Word := t.write (divInt t (t.read a.toNat) (t.read b.toNat))
def remFn (t : ITy) (a b : Word) : Word := t.write (remInt t (t.read a.toNat) (t.read b.toNat))
def mulhFn (t : ITy) (a b : Word) : Word := t.write (Int.fdiv (t.read a.toNat * t.read b.toNat) (2 ^ t.w : Nat))

/-- The shift count: B[k-1:0] with k = log2 w (R117). -/
def shiftCount (t : ITy) (b : Word) : Nat := b.toNat % t.w
def shlFn (t : ITy) (a b : Word) : Word := t.write ((a.toNat % 2 ^ t.w * 2 ^ shiftCount t b : Nat) : Int)
def shrFn (t : ITy) (a b : Word) : Word := t.write ((a.toNat % 2 ^ t.w / 2 ^ shiftCount t b : Nat) : Int)
def shraFn (t : ITy) (a b : Word) : Word := t.write (Int.fdiv (toSigned t.w a.toNat) (2 ^ shiftCount t b : Nat))

/-- Leading zeros of a w-bit number (R117). -/
def clzNat (w x : Nat) : Nat := if x % 2 ^ w = 0 then w else w - 1 - Nat.log2 (x % 2 ^ w)
/-- Ones in a w-bit number (R117). -/
def popcNat (w x : Nat) : Nat := ((List.range w).filter fun i => x.testBit i).length

/-- BFX's field (R118): bits p to p + n - 1 of A, zero above bit 63. -/
def bfxFn (sgn : Bool) (a b : Word) : Word :=
  let p := b.toNat % 64
  let n := min (b.toNat / 256 % 128) 64
  let x := natBits a.toNat p n
  if n = 0 then 0 else if sgn then BitVec.ofInt 64 (toSigned n x) else BitVec.ofNat 64 x

/-- BFI (R118). -/
def bfiFn (old a b : Word) : Word :=
  let p := b.toNat % 64
  let n := min (b.toNat / 256 % 128) 64
  let mask : Word := BitVec.ofNat 64 ((2 ^ n - 1) * 2 ^ p)
  (old &&& ~~~mask) ||| (BitVec.ofNat 64 (a.toNat * 2 ^ p) &&& mask)

/-- ADDSC (R119). -/
def addscFn (s : Nat) (a b : Word) : Word :=
  BitVec.ofNat 64 (a.toNat / 2 ^ 60 * 2 ^ 60 + (a.toNat % 2 ^ 60 + b.toNat * 2 ^ s) % 2 ^ 60)

/-- `cvta.tow` (R120). -/
def cvtaTow (apers : List Word) (w : Nat) (a : Word) : Word :=
  match windowOf apers (addrVa a) with
  | some (i, off) => if canonical a ∧ i = w then BitVec.ofNat 64 off else BitVec.allOnes 64
  | none => BitVec.allOnes 64

/-- `cvta.tog` (R120). -/
def cvtaTog (apers : List Word) (w : Nat) (a b : Word) : Word :=
  match apers[w]?.bind aperRange with
  | some (base, sz) =>
    if a.toNat < sz then BitVec.ofNat 64 (b.toNat % 16 * 2 ^ 60 + (base + a.toNat)) else BitVec.allOnes 64
  | none => BitVec.allOnes 64

/-- APTEST (R121). -/
def aptestVal (s : State) (a : Word) : Word :=
  match windowOf s.curApers (addrVa a) with
  | some (i, off) =>
    if canonical a then
      BitVec.ofNat 64 (i + (if s.beyond (keyChip s.curKey) (s.ctxPart (s.nodeCtx s.curNode)) i off then 16 else 0))
    else 0xF
  | none => 0xF

/-! ## The instructions -/

/-- ADD (R115). -/
def execAdd (f : Rrr) (s : State) : Result := scalarRrr f (intFn (· + ·)) s
/-- ADD with IMM20 (R97). -/
def execAddRi (f : Ri) (s : State) : Result := scalarRi f (intFn (· + ·)) s
/-- SUB (R115). -/
def execSub (f : Rrr) (s : State) : Result := scalarRrr f (intFn (· - ·)) s
/-- MUL (R115). -/
def execMul (f : Rrr) (s : State) : Result := scalarRrr f (intFn (· * ·)) s
/-- MULH (R115). -/
def execMulh (f : Rrr) (s : State) : Result := scalarRrr f mulhFn s
/-- DIV (R116). -/
def execDiv (f : Rrr) (s : State) : Result := scalarRrr f divFn s
/-- REM (R116). -/
def execRem (f : Rrr) (s : State) : Result := scalarRrr f remFn s
/-- AND (R115). -/
def execAnd (f : Rrr) (s : State) : Result := scalarRrr f (bitFn (· &&& ·)) s
/-- AND with IMM20 (R97). -/
def execAndRi (f : Ri) (s : State) : Result := scalarRi f (bitFn (· &&& ·)) s
/-- OR (R115). -/
def execOr (f : Rrr) (s : State) : Result := scalarRrr f (bitFn (· ||| ·)) s
/-- OR with IMM20 (R97). -/
def execOrRi (f : Ri) (s : State) : Result := scalarRi f (bitFn (· ||| ·)) s
/-- XOR (R115). -/
def execXor (f : Rrr) (s : State) : Result := scalarRrr f (bitFn (· ^^^ ·)) s
/-- ANDN (R115). -/
def execAndn (f : Rrr) (s : State) : Result := scalarRrr f (bitFn fun x y => x ^^^ (x &&& y)) s
/-- SHL (R117). -/
def execShl (f : Rrr) (s : State) : Result := scalarRrr f shlFn s
/-- SHL with IMM20 (R97). -/
def execShlRi (f : Ri) (s : State) : Result := scalarRi f shlFn s
/-- SHR (R117). -/
def execShr (f : Rrr) (s : State) : Result := scalarRrr f shrFn s
/-- SHR with IMM20 (R97). -/
def execShrRi (f : Ri) (s : State) : Result := scalarRi f shrFn s
/-- SHRA (R117). -/
def execShra (f : Rrr) (s : State) : Result := scalarRrr f shraFn s
/-- MIN (R115). -/
def execMin (f : Rrr) (s : State) : Result := scalarRrr f (intFn min) s
/-- MAX (R115). -/
def execMax (f : Rrr) (s : State) : Result := scalarRrr f (intFn max) s
/-- SETEQ (R115). -/
def execSeteq (f : Rrr) (s : State) : Result := scalarRrr f (cmpFn fun x y => decide (x = y)) s
/-- SETNE (R115). -/
def execSetne (f : Rrr) (s : State) : Result := scalarRrr f (cmpFn fun x y => decide (x ≠ y)) s
/-- SETLT (R115). -/
def execSetlt (f : Rrr) (s : State) : Result := scalarRrr f (cmpFn fun x y => decide (x < y)) s
/-- SETLT with IMM20 (R97). -/
def execSetltRi (f : Ri) (s : State) : Result := scalarRi f (cmpFn fun x y => decide (x < y)) s
/-- SETLE (R115). -/
def execSetle (f : Rrr) (s : State) : Result := scalarRrr f (cmpFn fun x y => decide (x ≤ y)) s

/-- SEL (R118): D is its condition. -/
def execSel (f : Rrr) (s : State) : Result :=
  runWord f.hdr f.w1.isSome (f.hdr.eng == 0) (fun s => seqM do
    let old ← s.readReg f.d.toNat
    let lit := litVal 0 f.w1
    let (a, s) ← s.src f.a lit
    let (b, s) ← s.src f.b lit
    s.dst f.d (if old ≠ 0 then a else b)) s

/-- CLZ (R117). -/
def execClz (f : Rrr) (s : State) : Result :=
  scalarUn f (fun _ t a => BitVec.ofNat 64 (clzNat t.w (a.toNat % 2 ^ t.w))) s
/-- POPC (R117). -/
def execPopc (f : Rrr) (s : State) : Result :=
  scalarUn f (fun _ t a => BitVec.ofNat 64 (popcNat t.w (a.toNat % 2 ^ t.w))) s
/-- BFX (R118). -/
def execBfx (f : Rrr) (s : State) : Result := scalarRrr f (fun _ a b => bfxFn (f.fl.getLsbD 0) a b) s

/-- BFI (R118). -/
def execBfi (f : Rrr) (s : State) : Result :=
  runWord f.hdr f.w1.isSome (f.hdr.eng == 0) (fun s => seqM do
    let old ← s.readReg f.d.toNat
    let lit := litVal 0 f.w1
    let (a, s) ← s.src f.a lit
    let (b, s) ← s.src f.b lit
    s.dst f.d (bfiFn old a b)) s

/-- ADDSC (R119). -/
def execAddsc (f : Rrr) (s : State) : Result := scalarRrr f (fun _ a b => addscFn f.fl.toNat a b) s

/-- CVTA (R120). -/
def execCvta (f : Rrr) (s : State) : Result :=
  runWord f.hdr f.w1.isSome (f.hdr.eng == 0) (fun s => seqM do
    let lit := litVal 0 f.w1
    let (a, s) ← s.src f.a lit
    if f.fl.getLsbD 0 then do
      let (b, s) ← s.src f.b lit
      s.dst f.d (cvtaTog s.curApers f.rs.toNat a b)
    else s.dst f.d (cvtaTow s.curApers f.rs.toNat a)) s

/-- APTEST (R121). -/
def execAptest (f : Rrr) (s : State) : Result := scalarUn f (fun s _ a => aptestVal s a) s

/-- The value LCSET stores: A as i64, clamped to 0 to 2^32 - 1 (R122). -/
def lcVal (a : Word) : Word := BitVec.ofNat 64 (min (max a.toInt 0) (2 ^ 32 - 1)).toNat

/-- LCSET (R122). -/
def execLcset (f : Rrr) (s : State) : Result :=
  runWord f.hdr f.w1.isSome (f.hdr.eng == 0) (fun s => seqM do
    let (a, s) ← s.src f.a (litVal 0 f.w1)
    s.writeLc f.d.toNat (lcVal a)) s

/-- LI (R115). -/
def execLi (f : Ri) (s : State) : Result :=
  runWord f.hdr f.w1.isSome (f.hdr.eng == 0) (fun s => seqM (s.dst f.d (f.imm.signExtend 64))) s

end Sys2Proof.Machine
end

