-- ==== Sys2Proof/Machine/Scheduler.lean ====
section
/-! DEFINITION. What the GSD does of itself: retirement, placement, fallback, starvation, deadlock reports, prologue
runs, halted nodes (R341 to R343, R351 to R357, R359, R392, R399). -/

namespace Sys2Proof.Machine

/-- The event that took a node to PROLOGUE or RETIRING runs: a core is idle, no prologue holds the queue's ordering lock,
and no event of the queue that arrived before is pending (R355). -/
def State.queueTurn (s : State) (d : Node) : Bool := s.coreIdle && !s.lockHeld d.queue && s.oldest d.queue d.arrival

/-- NODE_RETIRE (R339, R341, R355). -/
def execNodeRetire (node : Nat) (s : State) : Result :=
  event (match s.node? node with
    | some d => if d.st = .retiring ∧ s.queueTurn d then s.retireNode node else s
    | none => s)

/-- NODE_PLACE (R333 to R335, R342, R343, R354, R394, R399). -/
def execNodePlace (part : Nat) (s : State) : Result := event (s.placeAll part)

/-- A node fits on its class now (R335). -/
def State.fits (s : State) (d : Node) (o : CodeObj) : Bool :=
  let ts := nodeTrips d o
  (s.fit (s.ctxPart d.ctx) d.cls ((kindTrips o ts 1).foldl (· * ·) 1) ((kindTrips o ts 2).foldl (· * ·) 1)
    (o.levels.any fun (l : Level) => l.kind == 1)).isSome

/-- FALLBACK_TIMEOUT (R343): FBWAIT ticks on its class without fitting take a node to the next class, if there is
one; a node that fits, and waits for its start tick or its class's wake-up, stays. -/
def execFallbackTimeout (node : Nat) (s : State) : Result :=
  event (match s.node? node with
    | none => s
    | some d =>
      match FMap.find? s.objects d.kobj with
      | some o =>
        if d.st = .runnable ∧ d.placedAt = 0 ∧ d.clsSince + s.fbwait (s.ctxPart d.ctx) ≤ s.tick
            ∧ s.eventTurn d.queue ∧ !s.fits d o then
          match nextClass o d.cls with
          | some c => State.chooseClass 4 (s.modNode node fun (d : Node) => { d with cls := c, clsSince := s.tick }) node
          | none => s
        else s
      | none => s)

/-- LATENCY_TOLERANCE_EXPIRY (R359): a RUNNABLE node's tolerance has run out, so placements of its class are no longer
deferred: the nodes are placed in the order of R342. -/
def execLatencyToleranceExpiry (node : Nat) (s : State) : Result :=
  event (match s.node? node with
    | some d => if d.st = .runnable ∧ d.runnableAt + d.lattol ≤ s.tick then s.placeAll (s.ctxPart d.ctx) else s
    | none => s)

/-- TIMED_PLACEMENT_OPEN (R354): 2^16 ticks before its start tick a node competes for a place, in the order of R342. -/
def execTimedPlacementOpen (node : Nat) (s : State) : Result :=
  event (match s.node? node with
    | some d => if d.st = .runnable ∧ d.start ≤ s.tick + 2 ^ 16 then s.placeAll (s.ctxPart d.ctx) else s
    | none => s)

/-- NODE_HALTED (R392, R400): every cell of a node under discard has halted; a PREEMPT of a node that will not run
has nothing to wait for. -/
def execNodeHalted (node : Nat) (s : State) : Result :=
  event (match s.node? node with
    | some d =>
      if d.st = .running ∧ d.discarding then s.haltDone node
      else if d.st = .faulted ∨ d.st = .retiring then s.releasePreempts node
      else s
    | none => s)

/-! ## Slot starvation (R303, R357) -/

/-- A shard has been polling for a number of ticks: in them none of its engines had an asynchronous command accepted,
which none is now. -/
def Cell.pollsFor (c : Cell) (now ticks : Nat) : Bool :=
  (c.phase == .running || c.phase == .halted) && c.jobs.isEmpty && decide (c.pollSince + ticks ≤ now)

/-- A running node spins: each of its shards has been polling throughout. -/
def State.spinning (s : State) (ticks n : Nat) : Bool :=
  match s.node? n with
  | some d => d.st == .running && (s.nodeCells n).all fun e => e.2.pollsFor s.tick ticks
  | none => false

/-- The cells that a node could use on its class (R335): those of every die, the first ones for a C level. -/
def State.usable (s : State) (d : Node) (o : CodeObj) : List Nat :=
  let cp := (kindTrips o (nodeTrips d o) 1).foldl (· * ·) 1
  let hasC := o.levels.any fun (l : Level) => l.kind == 1
  let cells := match classOf d.cls with | some c => classCells c | none => 0
  (s.classDies (s.ctxPart d.ctx) d.cls).flatMap fun i =>
    (List.range (if hasC then min cp cells else cells)).map fun j => cellKey i j

/-- The spinning node of a class placed last. -/
def State.lastSpinning (s : State) (part ticks cls : Nat) : Option Nat :=
  let ns := s.nodes.filter fun e => e.2.cls == cls && s.ctxPart e.2.ctx == part && s.spinning ticks e.1
  match ns with
  | [] => none
  | x :: xs => some (xs.foldl (fun (m : Nat × Node) y =>
      if m.2.placedAt < y.2.placedAt ∨ (m.2.placedAt = y.2.placedAt ∧ m.2.order < y.2.order) then y else m) x).1

/-- SLOT_STARVATION (R357): a node that has not fitted for DLTIME ticks, while spinning nodes hold every cell it could
use, costs the last placed of them its place, or, the fourth time, its life. -/
def execSlotStarvation (node : Nat) (s : State) : Result :=
  event (match s.node? node with
    | none => s
    | some d =>
      let part := s.ctxPart d.ctx
      match FMap.find? s.objects d.kobj with
      | some o =>
        let heldBySpinner := fun (k : Nat) =>
          match FMap.find? s.cells k with
          | some c => c.phase != .idle && c.phase != .stopped && s.spinning (s.dltime part) c.node
          | none => false
        if d.st ≠ .runnable ∨ s.tick < d.clsSince + s.dltime part ∨ !(s.candidates part).contains node
            ∨ !(s.usable d o).all heldBySpinner ∨ !s.eventTurn d.queue ∨ !s.eventRoom then s
        else match s.lastSpinning part (s.dltime part) d.cls with
          | none => s
          | some v =>
            match s.node? v with
            | none => s
            | some w =>
              let s := s.discardNode v
              if w.starved < 3 then
                (s.modNode v fun (w : Node) => { w with starved := w.starved + 1 }).placeBut part (some v)
              else
                ((s.markFaulted w.queue w.pkt).modNode v fun (w : Node) => { w with st := .faulted }).faultQueue w.queue
                  w.pkt 0xC4 |>.gsdFault v w.queue w.pkt w.ctx 0xC4
      | none => s)

/-! ## Deadlock of queues (R356) -/

/-- A packet names a signal as SIG or SIGID. -/
def namesSignal (bs : List Byte) (sig : Nat) : Bool :=
  let kind := fieldAt bs 0 1
  let body := if fieldAt bs 1 1 = 3 then 32 else 16
  fieldAt bs 4 4 == sig || ((kind == 3 || kind == 4) && fieldAt bs body 4 == sig)

/-- A queue holds, between RD and RD + 255, a packet that names a signal. -/
def State.holdsSignal (s : State) (q : Queue) (sig : Nat) : Bool :=
  let n := (q.wr + 2 ^ 32 - q.rd) % 2 ^ 32
  q.en && (List.range (min (min n (2 ^ q.log2)) 256)).any fun i =>
    match s.packetBytes q ((q.rd + i) % 2 ^ 32) with
    | .ok bs => namesSignal bs sig
    | .error _ => false

/-- The signal on which a queue is blocked. -/
def Queue.blockedOn (q : Queue) : Option Nat :=
  if q.st = 2 then (match q.wait with | some w => some w.1 | none => none) else none

/-- The queues on which a queue waits. -/
def State.waitsOn (s : State) (q : Nat) : List Nat :=
  match (s.queue q).blockedOn with
  | some sig => (s.queues.filter fun e => s.holdsSignal e.2 sig).map fun e => e.1
  | none => []

/-- A path of waits from a queue back to `goal`, in order: the queues passed, `goal` left out at the end. -/
def State.cycleFrom (s : State) (goal : Nat) : Nat → List Nat → Nat → Option (List Nat)
  | 0, _, _ => none
  | n + 1, seen, q =>
    let next := s.waitsOn q
    if next.contains goal then some [q]
    else next.findSome? fun r =>
      if seen.contains r then none else (s.cycleFrom goal n (r :: seen) r).map fun c => q :: c

/-- QUEUE_DEADLOCK (R356, R457): the cycle through a queue is reported once, when for DLTIME ticks no queue of it has
admitted a packet and no signal of it has changed. -/
def execQueueDeadlock (q : Nat) (s : State) : Result :=
  event (match s.cycleFrom q (s.queues.length + 1) [q] q with
    | none => s
    | some c =>
      let ctx := (s.queue q).ctx
      let dl := s.dltime (s.ctxPart ctx)
      let sigOf := fun (x : Nat) => ((s.queue x).blockedOn).getD 0
      let still := c.all fun x => decide ((s.queue x).lastAdmit + dl ≤ s.tick)
        && decide (FMap.get s.sigTick (sigOf x) 0 + dl ≤ s.tick)
      let told := s.reported.any fun r => r.length == c.length && r.all fun x => c.contains x
      if !still || told || !s.coreIdle || !s.eventRoom then s
      else
        let pairs := (c.take 12).zipIdx.flatMap fun x =>
          [(16 + 4 * x.2, 2, x.1), (18 + 4 * x.2, 2, sigOf x.1)]
        { s with reported := c :: s.reported }.postEvent 6 (s.ctxPart ctx) ctx
          ((8, 2, c.length) :: (10, 1, if 12 < c.length then 1 else 0) :: pairs)
          (s.gsdRecord 0xFFFF q (((s.queue q).rd + 2 ^ 32 - 1) % 2 ^ 32) ctx 0xC5).bytes)

/-! ## Prologues (R351, R352, R399) -/

/-- LTRIP as a node's first run finds it (R352). -/
def firstTrips (o : CodeObj) : List Nat :=
  (List.range 6).map fun i => match o.levels[i]? with
    | some l => if l.tsrc = 2 then 0
      else if l.tsrc = 1 then (match o.slots[l.slot]? with | some x => x.value.toNat % 2 ^ 32 | none => l.trip)
      else l.trip
    | none => 0

/-- PROLOGUE_RUN (R351, R352, R355): one of the twelve firmware cores starts the prologue of a node in PROLOGUE, when its
context is ACTIVE, and holds the queue's ordering lock until the run ends; the turns of engine key 2^20 + node execute its words. A prologue that is gone faults the queue (R399). -/
def execPrologueRun (node : Nat) (s : State) : Result :=
  event (match s.node? node with
    | none => s
    | some d =>
      if d.st ≠ .prologue ∨ !s.canPrologue d ∨ !s.queueTurn d then s
      else match FMap.find? s.objects d.prolObj, FMap.find? s.objects d.kobj with
        | some o, some k =>
          let pc := match o.sections.head? with | some x => 8 * x.entry | none => 0
          if o.gone then s.prologueFault node (Raise.at_ { code := 0x2A } .c pc 0)
          else
            let none_ : Eng := { Eng.fresh with done := true }
            let core : Cell := { Cell.fresh with phase := .running, node := node, engC := { Eng.fresh with pc := pc }
                                                 engA := none_, engX := none_, engM := none_, engW := none_, engK := none_ }
            let s := s.modNode node fun (d : Node) => { d with
              prio := d.pktPrio, ltrip := if d.ltrip.isEmpty then firstTrips k else d.ltrip }
            { s with
              prols := FMap.put s.prols node { core := core, count := 0, lthn := 0 }
              objects := FMap.modify s.objects d.prolObj fun (o : CodeObj) => { o with used := true } }
        | _, _ => s)

/-- LTHB_WRITE (R352): BASE of the tile record LTHN stored for the prologue of a node. -/
def execLthbWrite (node : Nat) (value : Word) (s : State) : Result :=
  event (if (FMap.find? s.prols node).isNone then s
    else match s.writeLthb node value with
      | .ok t => t
      | .error (.cause r _) => { s with cur := .prologue node }.deliver r
      | .error _ => s)

end Sys2Proof.Machine
end

