-- ==== Sys2Proof/Machine/Dispatch.lean ====
section
/-! DEFINITION. Which meaning each instruction has: one arm per constructor. -/

namespace Sys2Proof.Machine

def exec (i : Instr) (s : State) : Host.Outcome State Fault Refusal :=
  match i with
  | .add f => Sys2Proof.Machine.execAdd f s
  | .addRi f => Sys2Proof.Machine.execAddRi f s
  | .sub f => Sys2Proof.Machine.execSub f s
  | .mul f => Sys2Proof.Machine.execMul f s
  | .mulh f => Sys2Proof.Machine.execMulh f s
  | .div f => Sys2Proof.Machine.execDiv f s
  | .rem f => Sys2Proof.Machine.execRem f s
  | .and f => Sys2Proof.Machine.execAnd f s
  | .andRi f => Sys2Proof.Machine.execAndRi f s
  | .or f => Sys2Proof.Machine.execOr f s
  | .orRi f => Sys2Proof.Machine.execOrRi f s
  | .xor f => Sys2Proof.Machine.execXor f s
  | .andn f => Sys2Proof.Machine.execAndn f s
  | .shl f => Sys2Proof.Machine.execShl f s
  | .shlRi f => Sys2Proof.Machine.execShlRi f s
  | .shr f => Sys2Proof.Machine.execShr f s
  | .shrRi f => Sys2Proof.Machine.execShrRi f s
  | .shra f => Sys2Proof.Machine.execShra f s
  | .min f => Sys2Proof.Machine.execMin f s
  | .max f => Sys2Proof.Machine.execMax f s
  | .seteq f => Sys2Proof.Machine.execSeteq f s
  | .setne f => Sys2Proof.Machine.execSetne f s
  | .setlt f => Sys2Proof.Machine.execSetlt f s
  | .setltRi f => Sys2Proof.Machine.execSetltRi f s
  | .setle f => Sys2Proof.Machine.execSetle f s
  | .sel f => Sys2Proof.Machine.execSel f s
  | .clz f => Sys2Proof.Machine.execClz f s
  | .popc f => Sys2Proof.Machine.execPopc f s
  | .bfx f => Sys2Proof.Machine.execBfx f s
  | .bfi f => Sys2Proof.Machine.execBfi f s
  | .addsc f => Sys2Proof.Machine.execAddsc f s
  | .cvta f => Sys2Proof.Machine.execCvta f s
  | .aptest f => Sys2Proof.Machine.execAptest f s
  | .lcset f => Sys2Proof.Machine.execLcset f s
  | .li f => Sys2Proof.Machine.execLi f s
  | .trap f => Sys2Proof.Machine.execTrap f s
  | .bkpt f => Sys2Proof.Machine.execBkpt f s
  | .eret f => Sys2Proof.Machine.execEret f s
  | .csrr f => Sys2Proof.Machine.execCsrr f s
  | .csrw f => Sys2Proof.Machine.execCsrw f s
  | .csrs f => Sys2Proof.Machine.execCsrs f s
  | .csrc f => Sys2Proof.Machine.execCsrc f s
  | .tick f => Sys2Proof.Machine.execTick f s
  | .waittick f => Sys2Proof.Machine.execWaittick f s
  | .halt f => Sys2Proof.Machine.execHalt f s
  | .icinv f => Sys2Proof.Machine.execIcinv f s
  | .tlbinv f => Sys2Proof.Machine.execTlbinv f s
  | .watch f => Sys2Proof.Machine.execWatch f s
  | .pendGo f => Sys2Proof.Machine.execPendGo f s
  | .pendCancel f => Sys2Proof.Machine.execPendCancel f s
  | .pendRepeat f => Sys2Proof.Machine.execPendRepeat f s
  | .echo f => Sys2Proof.Machine.execEcho f s
  | .discver f => Sys2Proof.Machine.execDiscver f s
  | .mark f => Sys2Proof.Machine.execMark f s
  | .fwsvcUndefined f => Sys2Proof.Machine.execFwsvcUndefined f s
  | .out f => Sys2Proof.Machine.execOut f s
  | .mset f => Sys2Proof.Machine.execMset f s
  | .mopd f => Sys2Proof.Machine.execMopd f s
  | .mscale f => Sys2Proof.Machine.execMscale f s
  | .rtt f => Sys2Proof.Machine.execRtt f s
  | .ld f => Sys2Proof.Machine.execLd f s
  | .st f => Sys2Proof.Machine.execSt f s
  | .lds f => Sys2Proof.Machine.execLds f s
  | .sts f => Sys2Proof.Machine.execSts f s
  | .rclaimCfg f => Sys2Proof.Machine.execRclaimCfg f s
  | .rclaim f => Sys2Proof.Machine.execRclaim f s
  | .rcommit f => Sys2Proof.Machine.execRcommit f s
  | .rtake f => Sys2Proof.Machine.execRtake f s
  | .rdone f => Sys2Proof.Machine.execRdone f s
  | .waitfill f => Sys2Proof.Machine.execWaitfill f s
  | .waitfree f => Sys2Proof.Machine.execWaitfree f s
  | .atomAdd f => Sys2Proof.Machine.execAtomAdd f s
  | .atomAnd f => Sys2Proof.Machine.execAtomAnd f s
  | .atomOr f => Sys2Proof.Machine.execAtomOr f s
  | .atomXor f => Sys2Proof.Machine.execAtomXor f s
  | .atomMin f => Sys2Proof.Machine.execAtomMin f s
  | .atomMax f => Sys2Proof.Machine.execAtomMax f s
  | .atomExch f => Sys2Proof.Machine.execAtomExch f s
  | .atomCas f => Sys2Proof.Machine.execAtomCas f s
  | .atomIncw f => Sys2Proof.Machine.execAtomIncw f s
  | .atomDecw f => Sys2Proof.Machine.execAtomDecw f s
  | .atomFaddb f => Sys2Proof.Machine.execAtomFaddb f s
  | .phase f => Sys2Proof.Machine.execPhase f s
  | .rel f => Sys2Proof.Machine.execRel f s
  | .acq f => Sys2Proof.Machine.execAcq f s
  | .barDie f => Sys2Proof.Machine.execBarDie f s
  | .barNode f => Sys2Proof.Machine.execBarNode f s
  | .publish f => Sys2Proof.Machine.execPublish f s
  | .copy f => Sys2Proof.Machine.execCopy f s
  | .copyThIn f => Sys2Proof.Machine.execCopyThIn f s
  | .copyThOut f => Sys2Proof.Machine.execCopyThOut f s
  | .copym f => Sys2Proof.Machine.execCopym f s
  | .gather f => Sys2Proof.Machine.execGather f s
  | .scatter f => Sys2Proof.Machine.execScatter f s
  | .prefetch f => Sys2Proof.Machine.execPrefetch f s
  | .thfence f => Sys2Proof.Machine.execThfence f s
  | .capopen f => Sys2Proof.Machine.execCapopen f s
  | .capgive f => Sys2Proof.Machine.execCapgive f s
  | .capdup f => Sys2Proof.Machine.execCapdup f s
  | .capdrop f => Sys2Proof.Machine.execCapdrop f s
  | .fenceEng f => Sys2Proof.Machine.execFenceEng f s
  | .fenceEngAsync f => Sys2Proof.Machine.execFenceEngAsync f s
  | .fadd f => Sys2Proof.Machine.execFadd f s
  | .fsub f => Sys2Proof.Machine.execFsub f s
  | .fmul f => Sys2Proof.Machine.execFmul f s
  | .fdiv f => Sys2Proof.Machine.execFdiv f s
  | .fsqrt f => Sys2Proof.Machine.execFsqrt f s
  | .fma f => Sys2Proof.Machine.execFma f s
  | .fms f => Sys2Proof.Machine.execFms f s
  | .fmin f => Sys2Proof.Machine.execFmin f s
  | .fmax f => Sys2Proof.Machine.execFmax f s
  | .fabs f => Sys2Proof.Machine.execFabs f s
  | .fneg f => Sys2Proof.Machine.execFneg f s
  | .fcmp f => Sys2Proof.Machine.execFcmp f s
  | .iadd f => Sys2Proof.Machine.execIadd f s
  | .isub f => Sys2Proof.Machine.execIsub f s
  | .imul f => Sys2Proof.Machine.execImul f s
  | .imulh f => Sys2Proof.Machine.execImulh f s
  | .imin f => Sys2Proof.Machine.execImin f s
  | .imax f => Sys2Proof.Machine.execImax f s
  | .iand f => Sys2Proof.Machine.execIand f s
  | .ior f => Sys2Proof.Machine.execIor f s
  | .ixor f => Sys2Proof.Machine.execIxor f s
  | .ishl f => Sys2Proof.Machine.execIshl f s
  | .ishr f => Sys2Proof.Machine.execIshr f s
  | .ishra f => Sys2Proof.Machine.execIshra f s
  | .icmp f => Sys2Proof.Machine.execIcmp f s
  | .iabs f => Sys2Proof.Machine.execIabs f s
  | .vsel f => Sys2Proof.Machine.execVsel f s
  | .kand f => Sys2Proof.Machine.execKand f s
  | .kor f => Sys2Proof.Machine.execKor f s
  | .kxor f => Sys2Proof.Machine.execKxor f s
  | .knot f => Sys2Proof.Machine.execKnot f s
  | .movV f => Sys2Proof.Machine.execMovV f s
  | .rotr f => Sys2Proof.Machine.execRotr f s
  | .rotc f => Sys2Proof.Machine.execRotc f s
  | .bcr f => Sys2Proof.Machine.execBcr f s
  | .bcc f => Sys2Proof.Machine.execBcc f s
  | .redr f => Sys2Proof.Machine.execRedr f s
  | .redc f => Sys2Proof.Machine.execRedc f s
  | .trb f => Sys2Proof.Machine.execTrb f s
  | .unpk f => Sys2Proof.Machine.execUnpk f s
  | .pack f => Sys2Proof.Machine.execPack f s
  | .cvt f => Sys2Proof.Machine.execCvt f s
  | .exp2 f => Sys2Proof.Machine.execExp2 f s
  | .log2 f => Sys2Proof.Machine.execLog2 f s
  | .rcp f => Sys2Proof.Machine.execRcp f s
  | .rsq f => Sys2Proof.Machine.execRsq f s
  | .sin f => Sys2Proof.Machine.execSin f s
  | .cos f => Sys2Proof.Machine.execCos f s
  | .tanh f => Sys2Proof.Machine.execTanh f s
  | .rotBase f => Sys2Proof.Machine.execRotBase f s
  | .rotBaseOff f => Sys2Proof.Machine.execRotBaseOff f s
  | .orient2 f => Sys2Proof.Machine.execOrient2 f s
  | .orient3 f => Sys2Proof.Machine.execOrient3 f s
  | .incircle f => Sys2Proof.Machine.execIncircle f s
  | .insphere f => Sys2Proof.Machine.execInsphere f s
  | .segcross f => Sys2Proof.Machine.execSegcross f s
  | .vld f => Sys2Proof.Machine.execVld f s
  | .vst f => Sys2Proof.Machine.execVst f s
  | .mzero f => Sys2Proof.Machine.execMzero f s
  | .mload f => Sys2Proof.Machine.execMload f s
  | .mgo f => Sys2Proof.Machine.execMgo f s
  | .mdrainSpad f => Sys2Proof.Machine.execMdrainSpad f s
  | .mdrainGlob f => Sys2Proof.Machine.execMdrainGlob f s
  | .mdrainGlobAdd f => Sys2Proof.Machine.execMdrainGlobAdd f s
  | .mdrainPeer f => Sys2Proof.Machine.execMdrainPeer f s
  | .rgoMax f => Sys2Proof.Machine.execRgoMax f s
  | .rgoExpsum f => Sys2Proof.Machine.execRgoExpsum f s
  | .rgoScale f => Sys2Proof.Machine.execRgoScale f s
  | .rgoNorm f => Sys2Proof.Machine.execRgoNorm f s
  | .sort f => Sys2Proof.Machine.execSort f s
  | .segsort f => Sys2Proof.Machine.execSegsort f s
  | .merge f => Sys2Proof.Machine.execMerge f s
  | .topk f => Sys2Proof.Machine.execTopk f s
  | .ksel f => Sys2Proof.Machine.execKsel f s
  | .uniq f => Sys2Proof.Machine.execUniq f s
  | .spmmCsr f => Sys2Proof.Machine.execSpmmCsr f s
  | .spmmBsr f => Sys2Proof.Machine.execSpmmBsr f s
  | .sddmm f => Sys2Proof.Machine.execSddmm f s
  | .spmv f => Sys2Proof.Machine.execSpmv f s
  | .br f => Sys2Proof.Machine.execBr f s
  | .jmpi f => Sys2Proof.Machine.execJmpi f s
  | .call f => Sys2Proof.Machine.execCall f s
  | .calli f => Sys2Proof.Machine.execCalli f s
  | .ret f => Sys2Proof.Machine.execRet f s
  | .loop f => Sys2Proof.Machine.execLoop f s
  | .break_ f => Sys2Proof.Machine.execBreak f s
  | .follow f => Sys2Proof.Machine.execFollow f s
  | .region f => Sys2Proof.Machine.execRegion f s
  | .end_ f => Sys2Proof.Machine.execEnd f s
  | .nop f => Sys2Proof.Machine.execNop f s
  | .peerTileApply cell idx => Sys2Proof.Machine.execPeerTileApply cell idx s
  | .asyncCompletion cell job => Sys2Proof.Machine.execAsyncCompletion cell job s
  | .completionQueueApply cell e idx => Sys2Proof.Machine.execCompletionQueueApply cell e idx s
  | .heldPushAccept cell e => Sys2Proof.Machine.execHeldPushAccept cell e s
  | .trapEntry cell => Sys2Proof.Machine.execTrapEntry cell s
  | .engineStall cell => Sys2Proof.Machine.execEngineStall cell s
  | .shardStop cell => Sys2Proof.Machine.execShardStop cell s
  | .scratchpadClearDone cell => Sys2Proof.Machine.execScratchpadClearDone cell s
  | .shardRetire cell => Sys2Proof.Machine.execShardRetire cell s
  | .nodeRetire node => Sys2Proof.Machine.execNodeRetire node s
  | .nodePlace part => Sys2Proof.Machine.execNodePlace part s
  | .fallbackTimeout node => Sys2Proof.Machine.execFallbackTimeout node s
  | .slotStarvation node => Sys2Proof.Machine.execSlotStarvation node s
  | .queueDeadlock q => Sys2Proof.Machine.execQueueDeadlock q s
  | .prologueRun node => Sys2Proof.Machine.execPrologueRun node s
  | .lthbWrite node value => Sys2Proof.Machine.execLthbWrite node value s
  | .timedStart cell => Sys2Proof.Machine.execTimedStart cell s
  | .nodeHalted node => Sys2Proof.Machine.execNodeHalted node s
  | .graphLaunch p => Sys2Proof.Machine.execGraphLaunch p s
  | .nodeLaunch p => Sys2Proof.Machine.execNodeLaunch p s
  | .signal p => Sys2Proof.Machine.execSignal p s
  | .wait p => Sys2Proof.Machine.execWait p s
  | .bufferCreate p => Sys2Proof.Machine.execBufferCreate p s
  | .bufferDrop p => Sys2Proof.Machine.execBufferDrop p s
  | .bufferPublish p => Sys2Proof.Machine.execBufferPublish p s
  | .barrier p => Sys2Proof.Machine.execBarrier p s
  | .timed p => Sys2Proof.Machine.execTimed p s
  | .qcfgWrite q value => Sys2Proof.Machine.execQcfgWrite q value s
  | .signalWrite sig value => Sys2Proof.Machine.execSignalWrite sig value s
  | .registerWrite off value => Sys2Proof.Machine.execRegisterWrite off value s
  | .partCreate c => Sys2Proof.Machine.execPartCreate c s
  | .partDestroy c => Sys2Proof.Machine.execPartDestroy c s
  | .ctxCreate c => Sys2Proof.Machine.execCtxCreate c s
  | .ctxDestroy c => Sys2Proof.Machine.execCtxDestroy c s
  | .ctxSwitch c => Sys2Proof.Machine.execCtxSwitch c s
  | .preempt c => Sys2Proof.Machine.execPreempt c s
  | .map c => Sys2Proof.Machine.execMap c s
  | .unmap c => Sys2Proof.Machine.execUnmap c s
  | .faultReply c => Sys2Proof.Machine.execFaultReply c s
  | .objLoad c => Sys2Proof.Machine.execObjLoad c s
  | .objPatch c => Sys2Proof.Machine.execObjPatch c s
  | .objUnload c => Sys2Proof.Machine.execObjUnload c s
  | .graphCancel c => Sys2Proof.Machine.execGraphCancel c s
  | .haltResume c => Sys2Proof.Machine.execHaltResume c s
  | .haltDiscard c => Sys2Proof.Machine.execHaltDiscard c s
  | .dumpArea c => Sys2Proof.Machine.execDumpArea c s
  | .watchDefaults c => Sys2Proof.Machine.execWatchDefaults c s
  | .traceDefaults c => Sys2Proof.Machine.execTraceDefaults c s
  | .stopAt c => Sys2Proof.Machine.execStopAt c s
  | .roleSet c => Sys2Proof.Machine.execRoleSet c s
  | .powerSet c => Sys2Proof.Machine.execPowerSet c s
  | .attest c => Sys2Proof.Machine.execAttest c s
  | .fwStage c => Sys2Proof.Machine.execFwStage c s
  | .journalClear c => Sys2Proof.Machine.execJournalClear c s
  | .tileFetchComplete buf tile => Sys2Proof.Machine.execTileFetchComplete buf tile s
  | .tileEvictComplete buf tile => Sys2Proof.Machine.execTileEvictComplete buf tile s
  | .rowCounterHalve chip => Sys2Proof.Machine.execRowCounterHalve chip s
  | .linkFailure chipA chipB => Sys2Proof.Machine.execLinkFailure chipA chipB s
  | .dumpWrite => Sys2Proof.Machine.execDumpWrite s
  | .scrub chip place found => Sys2Proof.Machine.execScrub chip place found s
  | .thermalTrip chip => Sys2Proof.Machine.execThermalTrip chip s
  | .pcieReset => Sys2Proof.Machine.execPcieReset s
  | .powerGood b => Sys2Proof.Machine.execPowerGood b s
  | .nyernLinkLock tick => Sys2Proof.Machine.execNyernLinkLock tick s
  | .tbCorrection offset newInc => Sys2Proof.Machine.execTbCorrection offset newInc s
  | .stopOnTick => Sys2Proof.Machine.execStopOnTick s
  | .traceRetry cell => Sys2Proof.Machine.execTraceRetry cell s
  | .eventRingPost => Sys2Proof.Machine.execEventRingPost s
  | .bar2Access off len data => Sys2Proof.Machine.execBar2Access off len data s
  | .i3cMctpMessage entry => Sys2Proof.Machine.execI3cMctpMessage entry s
  | .accessPerformed t => Sys2Proof.Machine.execAccessPerformed t s
  | .l1Eviction cell line => Sys2Proof.Machine.execL1Eviction cell line s
  | .waittickEnd cell => Sys2Proof.Machine.execWaittickEnd cell s
  | .latencyToleranceExpiry node => Sys2Proof.Machine.execLatencyToleranceExpiry node s
  | .timedPlacementOpen node => Sys2Proof.Machine.execTimedPlacementOpen node s
  | .powerLoss tornEntry => Sys2Proof.Machine.execPowerLoss tornEntry s

end Sys2Proof.Machine
end

