-- ==== Sys2Proof/Machine/Turns.lean ====
section
/-! DEFINITION. Turns: which agent acts next, what the machine owes before it does, and what its turn executes (R285, R311,
R355, R429, R436). -/

namespace Sys2Proof.Machine

/-- The next turn: the head of the agenda, or a free choice (R285, R311, R355). -/
def State.nextTurn (s : State) : Turn × State :=
  match s.agenda with
  | t :: ts => (t, { s with agenda := ts })
  | [] => (Config.nextTurn s.drawn, { s with drawn := s.drawn + 1 })

/-- What can still act: without power only its return (R451), in a stop on tick only a reset and the thermal trip, which is
hardware and removes power (R436, R462). -/
def State.canAct (s : State) (a : Act) : Bool :=
  match a with
  | .event (.powerGood _) => true
  | .event (.powerLoss _) => s.powered
  | .event .pcieReset => s.powered
  | .event (.thermalTrip _) => s.powered
  | _ => s.powered && !s.stopped

/-- Ticks that pass before a turn, in a count of 64 bits (R4, R429); every clock is gated once the tick reaches an armed stop (R436). -/
def State.passTicks (s : State) (n : Nat) : State :=
  let t := s.tick + n
  let hit := match s.stopAt with | some x => decide (x ≤ t) | none => false
  if s.powered then
    { s with tick := t % 2 ^ 64, stopped := s.stopped || hit
             cells := if n = 0 then s.cells else s.cells.map fun e => (e.1, e.2.newTick) }
  else s

/-- The accesses of a cell that a peer turned back raise 0x23 at the word that issued them, or at the element of its
command (R469). -/
def State.turnBacks (s : State) : State :=
  (s.cells.filter fun e => !e.2.rejects.isEmpty).foldl (fun (s : State) e =>
    let c := e.2.rejects.foldl (fun (c : Cell) (b : Sender) =>
      c.takeCause (chipClass (keyChip e.1)) s.tick
        { Raise.at_ { code := 0x23, addr := b.addr } b.eng b.pc b.pos with celem := b.celem } (s.cWait e.1))
      { e.2 with rejects := [] }
    s.setCell e.1 c) s

/-- What the machine owes from the turns before, done as the next turn begins: host accesses that no longer wait (R454),
frees that no longer wait (R363), accesses turned back (R469), HALT events (R138), the end of a re-enumeration (R344) and
of the rewriting of the time base (R434), a step of a boot (R459), causes of queues that can be posted (R456), errors that
write-backs met (R427), commands from I3C in their order (R468). In a stop on tick nothing of it is done: every clock is gated (R436, R450). -/
def State.owedDone (s : State) : State :=
  if s.stopped then s
  else
    let s := (State.hostRun s.hostOps.length s).lateFrees.turnBacks.haltReports.reenumTurn.timeTurn.bootTurn
    let s := s.lateFaultTurn.writeBackErrors
    State.i3cTurn s.i3cWait.length s

/-- The nodes whose shards an event stops (R357, R392, R408, R410, R427). -/
def State.eventStops (s : State) : Instr → List Nat
  | .nodeHalted n => [n]
  | .shardStop k =>
    if 2 ^ 21 ≤ k then s.runningNodes fun d => d.ctx == k - 2 ^ 21
    else
      let n := (s.cell k).node
      if (s.contextRecords n).isEmpty then [n] else s.runningNodes fun d => d.ctx == s.nodeCtx n
  | .slotStarvation n =>
    match s.node? n with
    | some d => (s.lastSpinning (s.ctxPart d.ctx) (s.dltime (s.ctxPart d.ctx)) d.cls).toList
    | none => []
  | .linkFailure _ _ | .scrub _ _ .uncorrectable => s.runningNodes fun _ => true
  | _ => []

/-- An event waits for what the shards of the nodes it stops must complete first (R392, steps 2 to 4; R408, steps 2 and 3);
a shard that retires, for the accesses that stand before its writes (R316, R364). -/
def State.eventWaits (s : State) (i : Instr) : Bool :=
  (s.eventStops i).any s.nodeBusy || (match i with | .shardRetire k => !s.drainReady k | _ => false)

/-- What an agent's turn executes. -/
def State.fetchAct (s : State) (a : Act) : Fetched :=
  if !s.canAct a then .done s
  else match a with
    | .engine key e => s.fetchEngine key e
    | .command => s.fetchCommand
    | .packet q => s.fetchPacket q
    | .event i => if s.eventWaits i then .done s else .run i s

/-- The next turn's instruction. -/
def State.fetchNext (s : State) : Fetched :=
  let (t, s) := s.nextTurn
  (s.passTicks t.ticks).owedDone.fetchAct t.act

end Sys2Proof.Machine
end

