-- ==== Sys2Proof/Machine/Step.lean ====
section
/-! DEFINITION. One step of the package: the next turn's agent finds its instruction and executes it. -/

namespace Sys2Proof.Machine

/-- One step. -/
def step (s : State) : Host.Outcome State Fault Refusal :=
  match s.fetchNext with
  | .run i t => exec i t
  | .done t => .next t

/-- The state with an instruction's words placed where the next step fetches them: the code of a shard that runs
on a die whose class has the word, with the turn of the word's engine next. A launch from a host queue puts a
program there; this stands for it (notes/assumptions). -/
def State.withFetchWord (s : State) (_nbits w : Nat) : State :=
  s.placeWords (BitVec.ofNat 64 w) (BitVec.ofNat 64 (w >>> 64))

end Sys2Proof.Machine
end

