-- ==== Sys2Proof/Safety.lean ====
section
/-! DEFINITION. What a safe run is, and the terms in which statements speak of an engine that may issue its word. -/

namespace Sys2Proof

/-- `n` steps from a state, if every one answers a next state. -/
def runSteps : Nat → Machine.State → Option Machine.State
  | 0, s => some s
  | n + 1, s => match Machine.step s with | .next t => runSteps n t | _ => none

/-- Every step from a state on answers a next state. -/
def Safe (s : Machine.State) : Prop := ∀ n, (runSteps n s).isSome = true

namespace Machine

/-- An engine of a cell executes and may issue a word with this header, which it has not issued yet: the shard runs,
no stop, trap or page request holds the engine, it holds no push (R289), the slip window admits its position (R287),
and every counter that WAIT selects is non-zero (R84) without the pushes of the present cycle (R288). -/
structure Issues (s : State) (key : Nat) (e : EngTag) (h : Hdr) : Prop where
  cur : s.cur = .cell key e
  here : (FMap.find? s.cells key).isSome = true
  runs : s.core.mayRun e = true
  free : (s.core.eng e).held = none
  calm : s.myFault = none
  fresh : (s.core.eng e).issued = false
  window : s.core.slipOk s.curClass e = true
  tokens : s.core.waitOk s.curEng h.wait = true

/-- A prologue core executes and may issue a word with this header (R351): its budget is not spent, WAIT and SIGNAL
are zero, and no page request holds it. -/
structure IssuesAlone (s : State) (node : Nat) (p : Prologue) (h : Hdr) : Prop where
  cur : s.cur = .prologue node
  here : FMap.find? s.prols node = some p
  budget : p.count < 4096
  wait : h.wait = 0
  sig : h.sig = none
  calm : s.myFault = none

/-- The state in which a word's body starts: the counters that WAIT selects are decremented (R84). -/
def State.waited (s : State) (h : Hdr) : State := s.modEng fun g => g.takeWait h.wait

/-- An instruction word may issue on an engine of a cell, and its body starts in a state. -/
def Starts (i : Instr) (s : State) (key : Nat) (e : EngTag) (s0 : State) : Prop :=
  ∃ h, i.body.hdr = some h ∧ Issues s key e h ∧ s0 = s.waited h

/-- An instruction word ends in a state and retires to where `n` names. -/
def Ends (i : Instr) (s t : State) (n : Next) : Prop :=
  ∃ h, i.body.hdr = some h ∧ exec i s = .next (t.retire h i.body.w1.isSome n)

/-- An instruction word has no effect but a cause, taken as R145 to R149 say. -/
def Raises (i : Instr) (s : State) (r : Raise) : Prop := exec i s = .next (s.deliver r)

/-- An instruction word that has issued waits, in a state, for a reason of R304; it keeps the watchpoints that are armed
at its issue (R141). -/
def Waits (i : Instr) (s t : State) (reason : Nat) : Prop :=
  exec i s = .next (t.modEng fun g =>
    { g with issued := true, reason := reason, wps := if g.issued then g.wps else t.core.watch })

/-- A word of the prologue core counted against its budget (R351). -/
def State.counted (s : State) (node : Nat) : State :=
  { s with prols := FMap.modify s.prols node fun (p : Prologue) => { p with count := p.count + 1 } }

/-- Two scalar sources read in order (R59): A, then B. -/
def ReadsTwo (s : State) (ca cb : BitVec 8) (lit a b : Word) (t : State) : Prop :=
  ∃ s1, s.src ca lit = .ok (a, s1) ∧ s1.src cb lit = .ok (b, t)

/-- Two vector sources read in order. -/
def VReadsTwo (s : State) (ca cb : BitVec 8) (w : Nat) (lit : Word) (a b : List Nat) (t : State) : Prop :=
  ∃ s1, s.vsrc ca w lit = .ok (a, s1) ∧ s1.vsrc cb w lit = .ok (b, t)

/-- Two states that differ in nothing but one cell. -/
def SameButCell (s t : State) (key : Nat) : Prop :=
  { t with cells := s.cells } = s ∧ ∀ k, k ≠ key → FMap.find? t.cells k = FMap.find? s.cells k

end Machine

end Sys2Proof
end

