-- ==== Sys2Proof/Certificates/Slice0/Obligations.lean ====
section
/-! DEFINITION. The statements about this model that the provers are asked to prove. -/

open Sys2Proof Sys2Proof.Machine

/-! ## Terms of the statements -/

namespace Sys2Proof.Claims

/-- A scalar word of two sources, where it may issue, its sources can be read and its destination taken, completes:
D receives the value the function gives, and the word retires. -/
def Binary (i : Rrr → Instr) (v : Rrr → Word → Word → Word) : Prop :=
  ∀ f s key e a b s2 t, Issues s key e f.hdr →
    ReadsTwo (s.waited f.hdr) f.a f.b (litVal f.ty.toNat f.w1) a b s2 → s2.dst f.d (v f a b) = .ok t →
    exec (i f) s = .next (t.retire f.hdr f.w1.isSome .seq)

/-- The same for the RI form of a word: B is IMM20 sign-extended (R114). -/
def Immediate (i : Ri → Instr) (v : Word → Word → Word) : Prop :=
  ∀ f s key e a s1 t, Issues s key e f.hdr → (s.waited f.hdr).src f.a (litVal 0 f.w1) = .ok (a, s1) →
    s1.dst f.d (v a (f.imm.signExtend 64)) = .ok t → exec (i f) s = .next (t.retire f.hdr f.w1.isSome .seq)

/-- The integer type that a word's TYPE names (R88, R114). -/
def ity (f : Rrr) : ITy := ITy.ofCode f.ty.toNat

/-- int_write of an exact function of two int_reads (R114, R115). -/
def exact (g : Int → Int → Int) (T : ITy) (a b : Word) : Word := T.write (g (T.read a.toNat) (T.read b.toNat))

/-- 1 when a comparison of two int_reads holds, else 0 (R115). -/
def holds (g : Int → Int → Prop) [∀ x y, Decidable (g x y)] (T : ITy) (a b : Word) : Word :=
  if g (T.read a.toNat) (T.read b.toNat) then 1 else 0

/-- An engine that has moved on by one position to an address, and has not issued its next word. -/
def MovedOn (g g' : Eng) (pc : Nat) : Prop := g'.pc = pc ∧ g'.pos = g.pos + 1 ∧ g'.issued = false

/-- The watchpoints after a WATCH word: IMM20[3] arms or disarms IMM20[2:0], or all of them with IMM20[4] (R141). -/
def armed (f : Ri) (c : Cell) : List WatchPt :=
  (List.range 8).map fun i =>
    if f.imm.getLsbD 4 = true ∨ i = f.imm.toNat % 8 then
      { c.wp i with ctl := if f.imm.getLsbD 3 then (c.wp i).ctl ||| 0x100 else (c.wp i).ctl &&& ~~~(0x100 : Word) }
    else c.wp i

/-- Watchpoint `i` is the first that faults on an access (R417, R418): armed, with COUNT 0, and it matches. -/
def Fires (s : State) (key : Nat) (w : Watched) (i : Nat) : Prop :=
  let faults := fun (p : WatchPt) => p.ctl.getLsbD 8 = true ∧ p.ctl.getLsbD 9 = false ∧ p.hits w = true
  (∃ p, (s.watchOf key)[i]? = some p ∧ faults p) ∧ ∀ j p, j < i → (s.watchOf key)[j]? = some p → ¬ faults p

/-- Check 9 of R154 on an access that has passed the others in a state: where it goes, or 0x48 with the watchpoint in AUX. -/
def Watching (s : State) (key : Nat) (q : Acc) (s1 : State) (p : Place) (scope : Nat) : Prop :=
  (q.watch = false → s.access key q = .ok (p, s1))
  ∧ (∀ i, q.watch = true → Fires s1 key ⟨addrVa q.addr, q.size, q.kind, scope⟩ i →
      s.access key q = .error (.cause { code := 0x48, addr := q.addr, aux := BitVec.ofNat 64 i } none))
  ∧ (q.watch = true → (∀ i, ¬ Fires s1 key ⟨addrVa q.addr, q.size, q.kind, scope⟩ i) →
      ∃ t, s.access key q = .ok (p, t) ∧ SameButCell s1 t key)

/-- Check 8 of R154 on an access to a location of TARN or GLOBAL, and check 9 behind it; a write ends polling (R357). -/
def Tagged (s : State) (key part : Nat) (q : Acc) (s1 : State) (loc : Nat) : Prop :=
  let tag := s1.tagServed key part loc (levelOf loc q.scope) q.row
  (tag ≠ addrTag q.addr →
    s.access key q = .error (.cause { code := 0x40, addr := q.addr, tags := some (addrTag q.addr, tag) } none))
  ∧ (tag = addrTag q.addr →
    Watching s key q (if q.write || q.atomic then s1.setCell key { s1.cell key with pollSince := s1.tick } else s1) (.line loc)
      (q.element.getD q.scope))

/-- The place and the length of a bit field that B names (R118). -/
def fieldPos (b : Word) : Nat := b.toNat % 64
def fieldLen (b : Word) : Nat := min (b.toNat / 256 % 128) 64

end Sys2Proof.Claims

open Sys2Proof.Claims

/-! ## The machine: turns, fetch, encodings, memory, reset -/

/-- R80, R86, R88, R139, R285: where the next turn is an engine's, the engine may run and its PC lies in its section, the
turn puts the words around the PC into the instruction cache, each word reading as before or as its section holds it;
where the word at the PC is then its own or has tag 7 and decodes, and no rotating loop makes it wait (R232), a step is
exec of that instruction, in that state.
Log entry it touches (notes/assumptions): 1.
Log entry it touches (notes/assumptions): 1. -/
def Obligations.StepRunsTheDecodedWord : Prop :=
  ∀ (s s1 : State) (n key : Nat) (e : EngTag) (x : Section),
    s.nextTurn = (⟨n, .engine key e⟩, s1) → key < 2 ^ 20 → (s1.passTicks n).owedDone.canAct (.engine key e) = true →
    ∀ s2, s2 = { (s1.passTicks n).owedDone with cur := .cell key e, actor := none } → s2.curClass.has e = true →
    s2.core.mayRun e = true → s2.sectionOf key s2.core = some x → (s2.core.eng e).pc % 8 = 0 →
    (s2.core.eng e).pc / 8 < x.words.length → (s2.core.eng e).held = none →
    ((s2.core.eng e).issued = true ∨ s2.core.slipOk s2.curClass e = true) →
    ∃ ic, (∀ j, ({ s2.core with icache := ic } : Cell).wordAt x.words j = s2.core.wordAt x.words j
        ∨ ({ s2.core with icache := ic } : Cell).wordAt x.words j = x.words[j]?)
      ∧ ∀ s3, s3 = s2.draw.2.setCore { s2.core with icache := ic } →
        ∀ (w : Word) (i : Instr), s3.core.wordAt x.words ((s2.core.eng e).pc / 8) = some w → (fEng w = e.num ∨ fEng w = 7) →
          s3.rotateWaits x.words ((s2.core.eng e).pc / 8) = false →
          (fWide w = true → (s2.core.eng e).pc / 8 + 1 < x.words.length) →
          decode s3.curClass w (s3.core.wordAt x.words ((s2.core.eng e).pc / 8 + 1)) = .ok i → step s = exec i s3

/-- R351: the same for a prologue core: where its budget is not spent and its word is one it executes and decodes,
a step is exec of it. -/
def Sys2Proof.Claims.StepRunsAPrologueWord : Prop :=
  ∀ (s s1 : State) (n node : Nat) (e : EngTag) (p : Prologue) (x : Section) (w : Word) (i : Instr),
    s.nextTurn = (⟨n, .engine (2 ^ 20 + node) e⟩, s1) →
    (s1.passTicks n).owedDone.canAct (.engine (2 ^ 20 + node) e) = true →
    ∀ s2, s2 = { (s1.passTicks n).owedDone with cur := .prologue node, actor := none } → FMap.find? s2.prols node = some p → p.count < 4096 →
    s2.prolSection node = some x → p.core.engC.pc % 8 = 0 → x.words[p.core.engC.pc / 8]? = some w →
    (fWide w = true → p.core.engC.pc / 8 + 1 < x.words.length) →
    decodePrologue w x.words[p.core.engC.pc / 8 + 1]? = .ok i → step s = exec i s2

/-- R346, R349, R355, R392, R408, R456: a turn of an event is exec of it, unless a shard of a node that it stops still
completes what it may not leave half done (log entry 140); a turn of the GSD's command interface takes the next entry of
the ring, moves MCRD on and is exec of the command its CODE names, unless it waits for an earlier one (R387, R446), or completes the entry with BAD_ARG
where no command has that code; a turn of a queue whose ordering lock is free, with a firmware core idle and no event of the
queue pending that arrived before (R355), is exec of the packet its next entry holds, and without them changes nothing. -/
def Sys2Proof.Claims.StepRunsEventsCommandsAndPackets : Prop :=
  ∀ (s s1 : State) (n : Nat) (a : Act), s.nextTurn = (⟨n, a⟩, s1) → ∀ s2, s2 = (s1.passTicks n).owedDone → s2.canAct a = true →
    (∀ i, a = .event i → s2.eventWaits i = false → step s = exec i s2)
    ∧ (∀ i, a = .event i → s2.eventWaits i = true → step s = .next s2)
    ∧ (∀ entry s3 c, a = .command → s2.ready = true → s2.mcRd ≠ s2.mcWr → s2.reenum = none →
        entry = s2.mcBase.toNat + 64 * (s2.mcRd % 2 ^ s2.mcLog2) →
        s3 = { s2 with mcRd := (s2.mcRd + 1) % 2 ^ 32, mcBells :=
          (s2.mcBells.dropWhile fun b => b.1 == s2.mcRd).filter fun b => b.1 != (s2.mcRd + 1) % 2 ^ 32 } →
        c = cmdAt s2.host entry false s2.bellTick →
        (∀ i, cmdOf (Memory.read s2.host entry).toNat c = some i → s2.cmdWaits i = false → step s = exec i s3)
        ∧ (∀ i, cmdOf (Memory.read s2.host entry).toNat c = some i → s2.cmdWaits i = true → step s = .next s2)
        ∧ (cmdOf (Memory.read s2.host entry).toNat c = none → step s = .next (s3.cmdDone c stBadArg 0)))
    ∧ (∀ q x s3 bs i, a = .packet q → x = s2.queue q → s2.ready = true → s2.shut = false → x.en = true → x.st = 1 →
        x.wait = none → x.rd ≠ x.wr → s2.coreIdle = true → s2.lockHeld q = false → s2.oldest q (x.bell.getD s2.nextArrival) = true →
        s3 = s2.modQueue q (fun y => { y with bell := none }) → s3.eventRoom = true → s3.packetBytes x x.rd = .ok bs →
        bytesNat bs 1 1 = x.rev → packetInstr (bytesNat bs 0 1) (packetOf q x.rd bs) = .ok i →
        step s = exec i (if x.hostMem then s3 else s3.gsdTouch x.ctx 1 (x.packetAt x.rd)))
    ∧ (∀ q x, a = .packet q → x = s2.queue q →
        (s2.coreIdle = false ∨ s2.lockHeld q = true ∨ s2.oldest q (x.bell.getD s2.nextArrival) = false) → step s = .next s2)

/-- R86: an engine passes a word of another present engine's tag, and its W1 with it, and reads nothing of it but ENG
and WIDE: it counts no word and raises nothing. -/
def Sys2Proof.Claims.WordsOfOtherEnginesArePassed : Prop :=
  ∀ (s : State) (code : List Word) (w : Word) (i : Nat) (key : Nat) (e f : EngTag), s.cur = .cell key e →
    EngTag.ofNum (fEng w) = some f → s.curClass.has f = true → f ≠ e → s.rotateWaits code i = false →
    s.atWord code w i = .done (s.setCore (s.core.advance s.curClass e .seq (fWide w) false))

/-- R86, R346, R349, R351, R387, R392, R408, R446, R456: what a step does at every other turn: a prologue core's word, an event, a command, a packet,
and a word of another engine.
Log entries it touches (notes/assumptions): 1, 55, 140. -/
def Obligations.StepRunsOtherTurns : Prop := StepRunsAPrologueWord ∧ StepRunsEventsCommandsAndPackets ∧ WordsOfOtherEnginesArePassed

/-- R96: the causes of the checks, in their order. -/
def Obligations.DecodingChecksInOrder : Prop :=
  ∀ (cls : DieClass) (w : Word) (v : Option Word),
    let h : Hdr := ⟨w.extractLsb' 56 8, (sigOf w).getD none, w.extractLsb' 45 3⟩
    let op := opOf cls w h (if fWide w then some (w1Of (v.getD 0)) else none)
    (fEng w = 6 → decode cls w v = .error 0x03)
    ∧ (∀ e, EngTag.ofNum (fEng w) = some e → cls.has e = false → decode cls w v = .error 0x04)
    ∧ (fEng w ≠ 6 → (∀ e, EngTag.ofNum (fEng w) = some e → cls.has e = true) →
      (op = none → decode cls w v = .error 0x01)
      ∧ (∀ i f, op = some i → i.form = some f →
        (missingW1 f i.body = true → decode cls w v = .error 0x06)
        ∧ (missingW1 f i.body = false → sigOf w = none → decode cls w v = .error 0x02)
        ∧ (missingW1 f i.body = false → sigOf w ≠ none →
          (∀ g, h.sig = some g → cls.has g.eng = false → decode cls w v = .error 0x04)
          ∧ (∀ g, h.sig = some g → cls.has g.eng = true → g.done = true → f.async = false → decode cls w v = .error 0x02)
          ∧ (sigCause f cls h = none →
            (reservedOk f i.body = false → decode cls w v = .error 0x02)
            ∧ (reservedOk f i.body = true → reachOk f i.body = false → decode cls w v = .error 0x05)
            ∧ (reservedOk f i.body = true → reachOk f i.body = true → scopeOk f i.body = false → decode cls w v = .error 0x07)
            ∧ (reservedOk f i.body = true → reachOk f i.body = true → scopeOk f i.body = true → decode cls w v = .ok i)))))

/-- Every well-formed instruction word is the decoding of its encoding, at every value of every operand. -/
def Obligations.EncodedInstructionsDecode : Prop :=
  ∀ (cls : DieClass) (i : Instr), i.form.isSome = true → i.wf cls = true → decodeWords cls (encode i) = .ok i

/-- A word that decodes is the encoding of what it decodes to: the decoder drops no bit of W0, nor of the W1 that a
wide word has. -/
def Sys2Proof.Claims.DecodedWordsEncode : Prop :=
  ∀ (cls : DieClass) (w v : Word) (i : Instr), decode cls w (some v) = .ok i →
    encode i = w :: (if fWide w then [v] else [])

/-- What decodes for a class of die that has engines is well formed for it, and is an instruction word. -/
def Sys2Proof.Claims.DecodedInstructionsAreWellFormed : Prop :=
  ∀ (cls : DieClass) (w : Word) (v : Option Word) (i : Instr), cls.has .c = true → decode cls w v = .ok i →
    i.form.isSome = true ∧ i.wf cls = true

/-- What decodes is well formed, and encodes to the very words it was decoded from. -/
def Obligations.DecodedWordsEncodeBack : Prop := DecodedWordsEncode ∧ DecodedInstructionsAreWellFormed

/-- Memories in canonical form that read alike are equal, and a write of several bytes keeps the form, gives its bytes
back and leaves every other byte alone.
Log entry it touches (notes/assumptions): 3. -/
def Obligations.MemoryReadsWhatWasWritten : Prop :=
  ∀ (m : Memory) (a : Nat) (bs : List Byte), Memory.wf m = true →
    Memory.wf (Memory.writeN m a bs) = true ∧ Memory.readN (Memory.writeN m a bs) a bs.length = bs
    ∧ (∀ k, k < bs.length → Memory.read (Memory.writeN m a bs) (a + k) = bs.getD k 0)
    ∧ (∀ c, c < a ∨ a + bs.length ≤ c → Memory.read (Memory.writeN m a bs) c = Memory.read m c)
    ∧ (∀ m', Memory.wf m' = true → (∀ c, Memory.read m c = Memory.read m' c) → m = m')

/-- R68, R75, R344, R345, R347, R429, R434, R453, R455, R459: what the machine holds at reset, and what a cell holds
where no shard has run: the values the rules give.
Log entry it touches (notes/assumptions): 8. -/
def Obligations.ResetValues : Prop :=
  State.reset.tick = 0 ∧ State.reset.mem = [] ∧ State.reset.version = 0
  ∧ (∀ q, (State.reset.queue q).en = false ∧ (State.reset.queue q).base = 0 ∧ (State.reset.queue q).wr = 0
      ∧ (State.reset.queue q).rd = 0 ∧ (State.reset.queue q).st = 0 ∧ (State.reset.queue q).cause = 0)
  ∧ (∀ g, FMap.get State.reset.signals g 0 = 0) ∧ (∀ a, Memory.read State.reset.mem a = 0)
  ∧ State.reset.timeBase.src = 0 ∧ State.reset.timeBase.link = 0 ∧ State.reset.timeBase.lock = false
  ∧ State.reset.timeBase.ak = 0 ∧ State.reset.timeBase.ans = 0 ∧ State.reset.timeBase.afrac = 0
  ∧ State.reset.timeBase.inc = 0x1AAAAAAAB
  ∧ State.reset.ready = false ∧ State.reset.recov = false ∧ State.reset.fail = 0 ∧ State.reset.bootStep = 0 ∧ State.reset.booting = none
  ∧ State.reset.hbmmap = 0 ∧ State.reset.bar2ctx = 0 ∧ State.reset.bar2tag = 0 ∧ State.reset.bar2va = 0
  ∧ State.reset.bar2err = false ∧ State.reset.mcBase = 0 ∧ State.reset.mcLog2 = 0 ∧ State.reset.mcWr = 0
  ∧ State.reset.mcRd = 0 ∧ State.reset.evBase = 0 ∧ State.reset.evLog2 = 0 ∧ State.reset.evWr = 0
  ∧ State.reset.evRd = 0 ∧ State.reset.evLost = 0 ∧ State.reset.meas = List.replicate 8 0
  ∧ (∀ k, (State.reset.cell k).winslip = 256 ∧ (State.reset.cell k).ordwatch = false ∧ (State.reset.cell k).padval = 0
      ∧ (State.reset.cell k).fpstat = 0 ∧ (State.reset.cell k).mstat = 0 ∧ ∀ a, Memory.read (State.reset.cell k).spad a = 0)

/-- Words of every family, written out from the encodings of R80 to R103, decode to the instructions they stand for. -/
def Obligations.WordsDecodeAsTheTablesSay : Prop :=
  decode .dmx 0x0000000030102000 none = .ok (.add ⟨⟨0, none, 0⟩, 3, 1, 2, 0, 0, 0, none⟩)
  ∧ decode .vec 0x02A620105FF01000 (some 0x8000000100000000)
      = .ok (.add ⟨⟨2, some ⟨.x, 3, false⟩, 1⟩, 5, 0xFF, 1, 0, 0, 0, some ⟨0x80000001, 0⟩⟩)
  ∧ decode .dmx 0x00002C0000406300 none = .ok (.ld ⟨⟨0, none, 1⟩, 0, 4, 6, 3, 0, 0, none⟩)
  ∧ decode .srt 0x00002D6000000050 none = .ok (.rdone ⟨⟨0, none, 1⟩, 0, 0, 0, 0, 5, 0, none⟩)
  ∧ decode .dmx 0x0000400010203904 none = .ok (.fadd ⟨⟨0, none, 2⟩, 1, 2, 3, 9, 0, 4, none⟩)
  ∧ decode .vec 0x0000442010203000 none = .ok (.kand ⟨⟨0, none, 2⟩, 1, 2, 3, 0, 0, 0, none⟩)
  ∧ decode .dmx 0x0000600030000000 none = .ok (.mzero ⟨⟨0, none, 3⟩, 3, 0, 0, 0, 0, 0, none⟩)
  ∧ decode .dmx 0x0000800000000000 none = .ok (.rgoMax ⟨⟨0, none, 4⟩, 0, 0, 0, 0, 0, 0, none⟩)
  ∧ decode .spx 0x0000A27000400900 (some 0) = .ok (.spmv ⟨⟨0, none, 5⟩, 0, 4, 0, 9, 0, 0, some ⟨0, 0⟩⟩)
  ∧ decode .dmx 0x0000E00200000010 none = .ok (.br ⟨⟨0, none, 7⟩, 2, false, 0, 16, none⟩)
  ∧ decode .vec 0x0000E12000000000 none = .ok (.end_ ⟨⟨0, none, 7⟩, 0, 0, 0, 0, 0, 0, none⟩)
  ∧ decode .dmx 0x0000C00000000000 none = .error 0x03 ∧ decode .vec 0x0000A00000000000 none = .error 0x04
  ∧ decode .dmx 0x00001FE000000000 none = .error 0x01

/-! ## Words: operands, issue, retirement, causes -/

/-- R49: x0 and a0 read as zero on every engine, and a write to either changes nothing and raises nothing. -/
def Obligations.RegisterZeroIsHardWired : Prop :=
  ∀ (s : State) (w : Word), s.readX 0 = .ok 0 ∧ s.readReg 0 = .ok 0 ∧ s.writeX 0 w = .ok s ∧ s.writeReg 0 w = .ok s

/-- R94: what a scalar source code reads, by the tag of the word's engine: a register, the engine's inbound queue,
the literal; a pop of an empty queue waits (R59), and a code from 0x40 to 0xFD is no operand. -/
def Sys2Proof.Claims.ScalarSourcesRead : Prop :=
  ∀ (s : State) (key : Nat) (e : EngTag) (code : BitVec 8) (lit w : Word) (q : List Word), s.cur = .cell key e →
    (code = 0xFF → s.src code lit = .ok (lit, s))
    ∧ (64 ≤ code.toNat → code.toNat ≤ 0xFD → s.src code lit = raise 0x05)
    ∧ (e = .a → code.toNat < 64 → code ≠ 0 → s.src code lit = .ok (FMap.get s.core.a code.toNat 0, s))
    ∧ (e = .c → code.toNat < 64 → code ≠ 0 → s.src code lit = .ok (FMap.get s.core.x code.toNat 0, s))
    ∧ (e = .c → code = 0xFE → s.core.qc = w :: q → s.src code lit = .ok (w, s.setCore { s.core with qc := q }))
    ∧ (e = .a → code = 0xFE → s.core.qa = w :: q → s.src code lit = .ok (w, s.setCore { s.core with qa := q }))
    ∧ (e = .x → code = 0xFE → s.core.qx = w :: q → s.src code lit = .ok (w, s.setCore { s.core with qx := q }))
    ∧ (e = .c → code = 0xFE → s.core.qc = [] → s.src code lit = blocked 2)
    ∧ (e = .a → code = 0xFE → s.core.qa = [] → s.src code lit = blocked 2)
    ∧ (e = .x → code = 0xFE → s.core.qx = [] → s.src code lit = blocked 2)

/-- R94: what a scalar destination code does with the result: a register of the engine, or a push that waits while
the queue is full (R59) and is discarded when the engine that pops it has executed END (R132). -/
def Sys2Proof.Claims.ScalarDestinationsWrite : Prop :=
  ∀ (s : State) (key : Nat) (e : EngTag) (code : BitVec 8) (w : Word), s.cur = .cell key e →
    (e = .a → code.toNat < 64 → code ≠ 0 →
      s.dst code w = .ok (s.setCore { s.core with a := FMap.set s.core.a code.toNat w 0 }))
    ∧ (e = .c → code.toNat < 64 → code ≠ 0 → s.core.handler = none →
      (∀ v ∈ s.core.xVer, v.reg ≠ code.toNat) → ∃ xv, s.dst code w =
        .ok (s.setCore { s.core with x := FMap.set s.core.x code.toNat w 0, xVer := xv }))
    ∧ (e = .c → code = 0xFE → s.core.engA.done = false → s.core.qa.length < 32 →
      s.dst code w = .ok (s.setCore { s.core with qa := s.core.qa ++ [w] }))
    ∧ (e = .a → code = 0xFE → s.core.engX.done = false → s.core.qx.length < 64 →
      s.dst code w = .ok (s.setCore { s.core with qx := s.core.qx ++ [w] }))
    ∧ (e = .a → code = 0xFF → s.core.engC.done = false → s.core.qc.length < 32 →
      s.dst code w = .ok (s.setCore { s.core with qc := s.core.qc ++ [w] }))
    ∧ (e = .c → code = 0xFE → s.core.engA.done = false → 32 ≤ s.core.qa.length → s.dst code w = blocked 3)
    ∧ (e = .a → code = 0xFE → s.core.engX.done = false → 64 ≤ s.core.qx.length → s.dst code w = blocked 3)
    ∧ (e = .c → code = 0xFE → s.core.engA.done = true → s.dst code w = .ok s)
    ∧ (e = .a → code = 0xFE → s.core.engX.done = true → s.dst code w = .ok s)
    ∧ (64 ≤ code.toNat → code.toNat ≤ 0xFD → s.dst code w = raise 0x05)
    ∧ (e = .c → code = 0xFF → s.dst code w = raise 0x05)

/-- R94: the scalar operand codes, as sources and as a destination. -/
def Obligations.ScalarOperands : Prop := ScalarSourcesRead ∧ ScalarDestinationsWrite

/-- R84, R287, R289: a word of any form does not issue while its engine holds a push, while the slip window does not
admit its position, or while a counter that WAIT selects is zero but for the pushes of the present cycle (R288): the state
stays as it is but for the reason the engine shows (R304). -/
def Sys2Proof.Claims.WordsWaitToIssue : Prop :=
  ∀ (i : Instr) (h : Hdr) (s : State) (key : Nat) (e : EngTag), i.body.hdr = some h → s.cur = .cell key e →
    (FMap.find? s.cells key).isSome = true → s.core.mayRun e = true →
    ((s.core.eng e).held.isSome = true → exec i s = .next (s.modEng fun g => { g with reason := 7 }))
    ∧ ((s.core.eng e).held = none → s.myFault = none → (s.core.eng e).issued = false →
        s.core.slipOk s.curClass e = false → exec i s = .next (s.modEng fun g => { g with reason := 6 }))
    ∧ ((s.core.eng e).held = none → s.myFault = none → (s.core.eng e).issued = false →
        s.core.slipOk s.curClass e = true → (∃ k, k < 8 ∧ h.wait.getLsbD k = true ∧ ((s.core.eng e).counter k).toNat ≤ s.core.pushedNow e k) →
        exec i s = .next (s.modEng fun g => { g with reason := 1 }))

/-- R84: at issue each counter that WAIT selects is decremented by one, and no other counter of any engine changes. -/
def Sys2Proof.Claims.WaitDecrementsCounters : Prop :=
  ∀ (s : State) (key : Nat) (e : EngTag) (h : Hdr), Issues s key e h →
    (∀ k, k < 8 → ((s.waited h).core.eng e).counter k
      = if h.wait.getLsbD k then (s.core.eng e).counter k - 1 else (s.core.eng e).counter k)
    ∧ (∀ g, g ≠ e → (s.waited h).core.eng g = s.core.eng g)

/-- R84, R287, R289: what keeps a word from issuing, and what its issue takes. -/
def Obligations.IssueWaitsAndTakesTokens : Prop := WordsWaitToIssue ∧ WaitDecrementsCounters

/-- R86, R128, R285: a word that retires outside handler mode and outside every loop moves its engine on by 8 bytes,
16 when it is wide, or to its target, and by one position; of another engine nothing changes, but for entries held back
that enter its outcome queue (R125). -/
def Sys2Proof.Claims.RetirementMovesTheEngineOn : Prop :=
  ∀ (s : State) (key : Nat) (e : EngTag) (h : Hdr) (wide : Bool) (target : Nat), s.cur = .cell key e → h.sig = none →
    s.core.handler = none → (s.core.eng e).lstack = [] →
    MovedOn (s.core.eng e) ((s.retire h wide .seq).core.eng e) ((s.core.eng e).pc + (if wide then 16 else 8))
    ∧ MovedOn (s.core.eng e) ((s.retire h wide (.goto target)).core.eng e) target
    ∧ (∀ g, g ≠ e → (∃ q, (s.retire h wide .seq).core.eng g = { s.core.eng g with bq := q })
        ∧ ∃ q, (s.retire h wide (.goto target)).core.eng g = { s.core.eng g with bq := q })
    ∧ (∀ g, g ≠ e → s.core.bqHeld = [] → (s.retire h wide .seq).core.eng g = s.core.eng g
        ∧ (s.retire h wide (.goto target)).core.eng g = s.core.eng g)

/-- R58, R85, R288, R289: a SIGNAL without WHEN increments the counter it names when the word retires, after the entries
of the receiver's completion queue for it; at 255 the engine holds the push instead, unless a push of an engine that ranks
behind was accepted in the same cycle, which then gives way and is held, where that engine has issued no word since; a push to an engine that has executed END is
discarded (R132). -/
def Sys2Proof.Claims.SignalPushesAToken : Prop :=
  ∀ (s : State) (key : Nat) (e : EngTag) (h : Hdr) (g : Sig) (wide : Bool), s.cur = .cell key e → h.sig = some g →
    g.done = false → h.eng ≠ 7 → g.eng ≠ e → s.core.handler = none → (s.core.eng e).lstack = [] →
    let t := s.retire h wide .seq
    let v := ((s.core.eng g.eng).applyCq g.cnt).counter g.cnt.toNat
    ((s.core.eng g.eng).done = false → v ≠ 255 → (t.core.eng g.eng).counter g.cnt.toNat = v + 1
      ∧ (t.core.eng e).held = (s.core.eng e).held)
    ∧ ((s.core.eng g.eng).done = false → v = 255 → (∀ x ∈ s.core.nowTok, x.1 ≤ e.num ∨ x.2 ≠ ⟨g.eng, g.cnt⟩) →
      (t.core.eng g.eng).counter g.cnt.toNat = (s.core.eng g.eng).counter g.cnt.toNat
      ∧ (t.core.eng e).held = some ⟨g.eng, g.cnt⟩)
    ∧ (∀ e', (s.core.eng g.eng).done = false → v = 255 → s.core.nowTok = [(e'.num, ⟨g.eng, g.cnt⟩)] → e.num < e'.num →
      (t.core.eng g.eng).counter g.cnt.toNat = (s.core.eng g.eng).counter g.cnt.toNat
      ∧ ((s.core.eng e').held = none → (s.core.eng e').issued = false →
          (t.core.eng e').held = some ⟨g.eng, g.cnt⟩ ∧ (t.core.eng e).held = (s.core.eng e).held)
      ∧ ((s.core.eng e').issued = true → (t.core.eng e).held = some ⟨g.eng, g.cnt⟩))
    ∧ ((s.core.eng g.eng).done = true → t.core.eng g.eng = s.core.eng g.eng)

/-- R58, R85, R86, R289: retirement: where the engine goes, and the token SIGNAL pushes. -/
def Obligations.RetirementMovesOnAndSignals : Prop := RetirementMovesTheEngineOn ∧ SignalPushesAToken

/-! ## Scalar arithmetic -/

/-- R114: int_read and int_write, for the eight integer TYPE codes: bits [w-1:0] read as a signed or natural
integer; an integer taken modulo 2^w and sign- or zero-extended to 64 bits. -/
def Obligations.IntegerReadAndWrite : Prop :=
  ∀ (a : Word) (z : Int),
    (ITy.ofCode 0).read a.toNat = a.toInt ∧ (ITy.ofCode 1).read a.toNat = a.toNat
    ∧ (ITy.ofCode 2).read a.toNat = (a.setWidth 32).toInt ∧ (ITy.ofCode 3).read a.toNat = (a.setWidth 32).toNat
    ∧ (ITy.ofCode 4).read a.toNat = (a.setWidth 16).toInt ∧ (ITy.ofCode 5).read a.toNat = (a.setWidth 16).toNat
    ∧ (ITy.ofCode 6).read a.toNat = (a.setWidth 8).toInt ∧ (ITy.ofCode 7).read a.toNat = (a.setWidth 8).toNat
    ∧ (ITy.ofCode 0).write z = BitVec.ofInt 64 z ∧ (ITy.ofCode 1).write z = BitVec.ofInt 64 z
    ∧ (ITy.ofCode 2).write z = (BitVec.ofInt 32 z).signExtend 64 ∧ (ITy.ofCode 3).write z = (BitVec.ofInt 32 z).setWidth 64
    ∧ (ITy.ofCode 4).write z = (BitVec.ofInt 16 z).signExtend 64 ∧ (ITy.ofCode 5).write z = (BitVec.ofInt 16 z).setWidth 64
    ∧ (ITy.ofCode 6).write z = (BitVec.ofInt 8 z).signExtend 64 ∧ (ITy.ofCode 7).write z = (BitVec.ofInt 8 z).setWidth 64

/-- R115: the words that write an exact integer function, the comparisons, and LI, each with its RI form. -/
def Sys2Proof.Claims.ArithmeticWordsComplete : Prop :=
  Binary .add (fun f => exact (fun x y => x + y) (ity f))
  ∧ Binary .sub (fun f => exact (fun x y => x - y) (ity f))
  ∧ Binary .mul (fun f => exact (fun x y => x * y) (ity f))
  ∧ Binary .mulh (fun f => exact (fun x y => Int.fdiv (x * y) (2 ^ (ity f).w)) (ity f))
  ∧ Binary .min (fun f => exact (fun x y => min x y) (ity f))
  ∧ Binary .max (fun f => exact (fun x y => max x y) (ity f))
  ∧ Binary .seteq (fun f => holds (fun x y => x = y) (ity f))
  ∧ Binary .setne (fun f => holds (fun x y => x ≠ y) (ity f))
  ∧ Binary .setlt (fun f => holds (fun x y => x < y) (ity f))
  ∧ Binary .setle (fun f => holds (fun x y => x ≤ y) (ity f))
  ∧ Immediate .addRi (fun a b => a + b)
  ∧ Immediate .setltRi (fun a b => if a.toInt < b.toInt then 1 else 0)
  ∧ (∀ f s key e t, Issues s key e f.hdr → (s.waited f.hdr).dst f.d (f.imm.signExtend 64) = .ok t →
      exec (.li f) s = .next (t.retire f.hdr f.w1.isSome .seq))

/-- R116: DIV truncates toward zero, REM is A - B × DIV(A, B), with the results of the table for B = 0 and for the
least number over -1; neither word faults, so each completes for every A and B. -/
def Sys2Proof.Claims.DivideWordsComplete : Prop :=
  let div := fun (T : ITy) (x y : Int) =>
    if y = 0 then (if T.signed then -1 else 2 ^ T.w - 1)
    else if T.signed ∧ x = -(2 ^ (T.w - 1)) ∧ y = -1 then -(2 ^ (T.w - 1)) else Int.tdiv x y
  Binary .div (fun f => exact (div (ity f)) (ity f))
  ∧ Binary .rem (fun f => exact (fun x y =>
      if y = 0 then x else if (ity f).signed ∧ x = -(2 ^ ((ity f).w - 1)) ∧ y = -1 then 0
      else x - y * Int.tdiv x y) (ity f))

/-- R114 to R116: the arithmetic words, division and remainder with them. -/
def Obligations.ArithmeticAndDivisionComplete : Prop := ArithmeticWordsComplete ∧ DivideWordsComplete

/-- R115, R117: the bitwise words on the low w bits, extended as in int_write; the shifts by B[k-1:0] with
k = log2 w; CLZ and POPC. -/
def Sys2Proof.Claims.BitWordsComplete : Prop :=
  let low := fun (T : ITy) (a : Word) => a.toNat % 2 ^ T.w
  let nat := fun (T : ITy) (x : Nat) => T.write (x : Int)
  let sh := fun (T : ITy) (b : Word) => b.toNat % T.w
  Binary .and (fun f a b => nat (ity f) (low (ity f) a &&& low (ity f) b))
  ∧ Binary .or (fun f a b => nat (ity f) (low (ity f) a ||| low (ity f) b))
  ∧ Binary .xor (fun f a b => nat (ity f) (low (ity f) a ^^^ low (ity f) b))
  ∧ Binary .andn (fun f a b => nat (ity f) (a &&& ~~~b).toNat)
  ∧ Binary .shl (fun f a b => nat (ity f) (low (ity f) a * 2 ^ sh (ity f) b))
  ∧ Binary .shr (fun f a b => nat (ity f) (low (ity f) a / 2 ^ sh (ity f) b))
  ∧ Binary .shra (fun f a b => nat (ity f) ((a.setWidth (ity f).w).sshiftRight (sh (ity f) b)).toNat)
  ∧ Immediate .andRi (fun a b => a &&& b) ∧ Immediate .orRi (fun a b => a ||| b)
  ∧ Immediate .shlRi (fun a b => a <<< (b.toNat % 64)) ∧ Immediate .shrRi (fun a b => a >>> (b.toNat % 64))
  ∧ (∀ f s key e a s1 n t, Issues s key e f.hdr → (s.waited f.hdr).src f.a (litVal f.ty.toNat f.w1) = .ok (a, s1) →
      n ≤ (ity f).w → (∀ i, (ity f).w - n ≤ i → i < (ity f).w → a.getLsbD i = false) →
      (n < (ity f).w → a.getLsbD ((ity f).w - 1 - n) = true) → s1.dst f.d (BitVec.ofNat 64 n) = .ok t →
      exec (.clz f) s = .next (t.retire f.hdr f.w1.isSome .seq))
  ∧ (∀ f s key e a s1 t, Issues s key e f.hdr → (s.waited f.hdr).src f.a (litVal f.ty.toNat f.w1) = .ok (a, s1) →
      s1.dst f.d (BitVec.ofNat 64 ((List.range (ity f).w).filter fun i => a.getLsbD i).length) = .ok t →
      exec (.popc f) s = .next (t.retire f.hdr f.w1.isSome .seq))

/-- R118: SEL chooses by the old D; BFX takes bits p to p + n - 1 of A, zero above bit 63, extended by FL[0]; BFI
replaces bits p to min (p + n, 64) - 1 of the old D. -/
def Sys2Proof.Claims.FieldWordsComplete : Prop :=
  (∀ f s key e old a b s2 t, Issues s key e f.hdr → (s.waited f.hdr).readReg f.d.toNat = .ok old →
      ReadsTwo (s.waited f.hdr) f.a f.b (litVal 0 f.w1) a b s2 → s2.dst f.d (if old = 0 then b else a) = .ok t →
      exec (.sel f) s = .next (t.retire f.hdr f.w1.isSome .seq))
  ∧ (∀ f s key e a b s2 y t, Issues s key e f.hdr → ReadsTwo (s.waited f.hdr) f.a f.b (litVal f.ty.toNat f.w1) a b s2 →
      (∀ i, i < 64 → y.getLsbD i = if i < fieldLen b then a.getLsbD (fieldPos b + i)
        else f.fl.getLsbD 0 && decide (0 < fieldLen b) && a.getLsbD (fieldPos b + (fieldLen b - 1))) →
      s2.dst f.d y = .ok t → exec (.bfx f) s = .next (t.retire f.hdr f.w1.isSome .seq))
  ∧ (∀ f s key e old a b s2 y t, Issues s key e f.hdr → (s.waited f.hdr).readReg f.d.toNat = .ok old →
      ReadsTwo (s.waited f.hdr) f.a f.b (litVal 0 f.w1) a b s2 →
      (∀ i, i < 64 → y.getLsbD i = if fieldPos b ≤ i ∧ i < fieldPos b + fieldLen b then a.getLsbD (i - fieldPos b) else old.getLsbD i) →
      s2.dst f.d y = .ok t → exec (.bfi f) s = .next (t.retire f.hdr f.w1.isSome .seq))

/-- R119: ADDSC is A[63:60] followed by (A[59:0] + B × 2^s) mod 2^60, with s in FL: the tag passes through, a carry
out of bit 59 is lost, and no canonical check is made. -/
def Sys2Proof.Claims.AddScaledCompletes : Prop :=
  Binary .addsc (fun f a b =>
    BitVec.ofNat 64 (a.toNat / 2 ^ 60 * 2 ^ 60 + (a.toNat % 2 ^ 60 + b.toNat * 2 ^ f.fl.toNat) % 2 ^ 60))

/-- R117 to R119: shifts, counts, fields, selection and the scaled sum. -/
def Obligations.BitAndFieldWordsComplete : Prop := BitWordsComplete ∧ FieldWordsComplete ∧ AddScaledCompletes

/-- R120 to R122: CVTA to a window-relative address, and back to a generic one; APTEST; LCSET with its clamp. -/
def Obligations.AddressWordsComplete : Prop :=
  (∀ f s key e a s1 y t, Issues s key e f.hdr → f.fl.getLsbD 0 = false →
      (s.waited f.hdr).src f.a (litVal 0 f.w1) = .ok (a, s1) →
      ((∃ off, windowOf s1.curApers (addrVa a) = some (f.rs.toNat, off) ∧ canonical a = true ∧ y = BitVec.ofNat 64 off)
        ∨ ((canonical a = false ∨ ∀ off, windowOf s1.curApers (addrVa a) ≠ some (f.rs.toNat, off)) ∧ y = BitVec.allOnes 64)) →
      s1.dst f.d y = .ok t → exec (.cvta f) s = .next (t.retire f.hdr f.w1.isSome .seq))
  ∧ (∀ f s key e a b s2 y t, Issues s key e f.hdr → f.fl.getLsbD 0 = true →
      ReadsTwo (s.waited f.hdr) f.a f.b (litVal 0 f.w1) a b s2 →
      ((∃ w base size, s2.curApers[f.rs.toNat]? = some w ∧ aperRange w = some (base, size) ∧ a.toNat < size
          ∧ y = BitVec.ofNat 64 (b.toNat % 16 * 2 ^ 60 + (base + a.toNat)))
        ∨ ((∀ w base size, s2.curApers[f.rs.toNat]? = some w → aperRange w = some (base, size) → size ≤ a.toNat)
          ∧ y = BitVec.allOnes 64)) →
      s2.dst f.d y = .ok t → exec (.cvta f) s = .next (t.retire f.hdr f.w1.isSome .seq))
  ∧ (∀ f s key e a s1 y t, Issues s key e f.hdr → (s.waited f.hdr).src f.a (litVal f.ty.toNat f.w1) = .ok (a, s1) →
      ((∃ i off, windowOf s1.curApers (addrVa a) = some (i, off) ∧ canonical a = true ∧ y = BitVec.ofNat 64 (i +
          (if s1.beyond (keyChip s1.curKey) (s1.ctxPart (s1.nodeCtx s1.curNode)) i off then 16 else 0)))
        ∨ ((windowOf s1.curApers (addrVa a) = none ∨ canonical a = false) ∧ y = 0xF)) →
      s1.dst f.d y = .ok t → exec (.aptest f) s = .next (t.retire f.hdr f.w1.isSome .seq))
  ∧ (∀ f s key e a s1 t, Issues s key e f.hdr → (s.waited f.hdr).src f.a (litVal 0 f.w1) = .ok (a, s1) →
      s1.writeLc f.d.toNat (if a.toInt < 0 then 0 else if 2 ^ 32 ≤ a.toInt then 0xFFFFFFFF else a) = .ok t →
      exec (.lcset f) s = .next (t.retire f.hdr f.w1.isSome .seq))

/-! ## Control flow (R125 to R134, R178) -/

/-- R133: NOP has no effect beyond its WAIT and SIGNAL. -/
def Sys2Proof.Claims.NopHasNoEffect : Prop :=
  ∀ f s key e s0, Starts (.nop f) s key e s0 → Ends (.nop f) s s0 .seq

/-- R91, R126: BR with COND 0 goes to PC + OFF24 × 8; with another COND the producer tests its register, pushes the
outcome to every other engine and follows it, and another engine pops the outcome and follows it. -/
def Sys2Proof.Claims.BranchesComplete : Prop :=
  ∀ f s key e s0, Starts (.br f) s key e s0 →
    (f.cond = 0 → Ends (.br f) s s0 (.goto (offTarget s0.curPc f.off)))
    ∧ (∀ v b t, f.cond ≠ 0 → s.core.handler = none → e = (if f.prod then .a else .c) →
        s0.readReg f.reg.toNat = .ok v → b = condTaken f.cond.toNat v →
        s0.pushBq ⟨.outcome, if b then 1 else 0, s0.curPc, (s0.core.eng e).pos⟩ = .ok t →
        Ends (.br f) s t (if b then .goto (offTarget s0.curPc f.off) else .seq))
    ∧ (∀ v pos, f.cond ≠ 0 → s.core.handler = none → e ≠ (if f.prod then .a else .c) →
        s0.headBq = .ok ⟨.outcome, v, s0.curPc, pos⟩ →
        Ends (.br f) s (s0.modEng fun g => { g with bq := g.bq.tail })
          (if v ≠ 0 then .goto (offTarget s0.curPc f.off) else .seq))
    ∧ (∀ v, f.cond ≠ 0 → s.core.handler.isSome = true → f.prod = false → e = .c → s0.readReg f.reg.toNat = .ok v →
        Ends (.br f) s s0 (if condTaken f.cond.toNat v then .goto (offTarget s0.curPc f.off) else .seq))

/-- R91: the conditions of BR, on the 64-bit register as a signed integer. -/
def Sys2Proof.Claims.BranchConditions : Prop :=
  ∀ v : Word, (condTaken 0 v = true) ∧ (condTaken 1 v = true ↔ v.toInt = 0) ∧ (condTaken 2 v = true ↔ v.toInt ≠ 0)
    ∧ (condTaken 3 v = true ↔ v.toInt < 0) ∧ (condTaken 4 v = true ↔ 0 ≤ v.toInt) ∧ (condTaken 5 v = true ↔ v.toInt ≤ 0)
    ∧ (condTaken 6 v = true ↔ 0 < v.toInt) ∧ (condTaken 7 v = true ↔ v.toInt % 2 = 1)

/-- R91, R124, R126: the branches and their conditions. -/
def Obligations.BranchesAndConditions : Prop := BranchesComplete ∧ BranchConditions

/-- R125, R130: an entry is pushed at the end of the queue of every live engine but its producer, an OUT's to every live
engine, or to none while one of those queues holds 64 entries; behind an earlier producing word that has not pushed yet it
is held back while its producer goes on, and no queue changes, until it may enter: the model's choice (log entry 132). An engine whose head entry is not of its word's kind and PC raises
0x8B with the entry's PC in AUX, and pops nothing.
Log entry it touches (notes/assumptions): 132. -/
def Obligations.OutcomesAreExchanged : Prop :=
  (∀ (s : State) (key : Nat) (e : EngTag) (x : BqEnt), s.cur = .cell key e →
    let takes := fun (g : EngTag) => g ∈ s.core.live s.curClass ∧ (g ≠ e ∨ x.kind = .out)
    (s.core.bqEarly s.curClass s.curCode x.pos = false → (∀ y ∈ s.core.bqHeld, x.pos ≤ y.2.pos) →
      ((∀ g, takes g → (s.core.eng g).bq.length < 64) → ∃ t, s.pushBq x = .ok t ∧ SameButCell s t key
        ∧ (∀ g, takes g → t.core.eng g = { s.core.eng g with bq := (s.core.eng g).bq ++ [x] })
        ∧ ∀ g, ¬ takes g → t.core.eng g = s.core.eng g)
      ∧ ((∃ g, takes g ∧ 64 ≤ (s.core.eng g).bq.length) → s.pushBq x = blocked 5))
    ∧ (s.core.bqEarly s.curClass s.curCode x.pos = true → ∃ t, s.pushBq x = .ok t ∧ SameButCell s t key
        ∧ (e, x) ∈ t.core.bqHeld ∧ ∀ g, t.core.eng g = s.core.eng g))
  ∧ (∀ (cls : DieClass) (code : List Word) (p : EngTag) (x : BqEnt) (c d : Cell), d = Cell.bqEnter cls code [(p, x)] c →
    let takes := fun (g : EngTag) => g ∈ c.live cls ∧ (g ≠ p ∨ x.kind = .out)
    (c.bqEarly cls code x.pos = false → (∀ g, takes g → (c.eng g).bq.length < 64) → d.bqHeld = []
      ∧ ∀ g, takes g → d.eng g = { c.eng g with bq := (c.eng g).bq ++ [x] })
    ∧ (c.bqEarly cls code x.pos = true → d = c))
  ∧ (∀ f s key e s0 x, Starts (.br f) s key e s0 → f.cond ≠ 0 → s.core.handler = none →
      e ≠ (if f.prod then .a else .c) → s0.headBq = .ok x → (x.kind ≠ .outcome ∨ x.pc ≠ s0.curPc) →
      Raises (.br f) s { code := 0x8B, aux := BitVec.ofNat 64 x.pc })
  ∧ (∀ f s key e s0, Starts (.follow f) s key e s0 → s.core.handler = none → (s0.core.eng e).bq = [] →
      exec (.follow f) s = .next (s.modEng fun g => { g with reason := 4 }))

/-- R127: CALL, CALLI and RET with their return stack of 16 entries, and JMPI: the engine goes to the target or to the
address popped; a 17th push or a pop of an empty stack raises 0x8A at C, in a handler whatever CALLI's PROD is (the model's
choice, log entry 154); a target with bits [2:0] set or outside the section raises 0x08 at its producer, which pushes nothing;
an engine that is not the producer of JMPI and CALLI pops the target. -/
def Sys2Proof.Claims.CallsAndJumpsComplete : Prop :=
  (∀ f s key e s0, Starts (.call f) s key e s0 →
    ((s0.core.eng e).rstack.length < 16 →
      Ends (.call f) s (s0.modEng fun g => { g with rstack := (g.pc + (if f.w1.isSome then 16 else 8)) :: g.rstack })
        (.goto (offTarget s0.curPc f.off)))
    ∧ (16 ≤ (s0.core.eng e).rstack.length → e = .c → Raises (.call f) s { code := 0x8A }))
  ∧ (∀ f s key e s0, Starts (.ret f) s key e s0 →
    (∀ r rs, (s0.core.eng e).rstack = r :: rs → Ends (.ret f) s (s0.modEng fun g => { g with rstack := rs }) (.goto r))
    ∧ ((s0.core.eng e).rstack = [] → e = .c → Raises (.ret f) s { code := 0x8A }))
  ∧ (∀ f s key e s0 v, Starts (.jmpi f) s key e s0 → s.core.handler = none → e = (if f.prod then .a else .c) →
      s0.readReg f.reg.toNat = .ok v →
    (∀ t, v.toNat % 8 = 0 → v.toNat < 8 * s0.curCode.length →
      s0.pushBq ⟨.target, v, s0.curPc, (s0.core.eng e).pos⟩ = .ok t → Ends (.jmpi f) s t (.goto v.toNat))
    ∧ ((v.toNat % 8 ≠ 0 ∨ 8 * s0.curCode.length ≤ v.toNat) → Raises (.jmpi f) s { code := 0x08 }))
  ∧ (∀ f s key e s0 v pos, Starts (.jmpi f) s key e s0 → s.core.handler = none → e ≠ (if f.prod then .a else .c) →
      s0.headBq = .ok ⟨.target, v, s0.curPc, pos⟩ →
      Ends (.jmpi f) s (s0.modEng fun g => { g with bq := g.bq.tail }) (.goto v.toNat))
  ∧ (∀ f s key e s0 s1 v t, Starts (.calli f) s key e s0 → s.core.handler = none → e = (if f.prod then .a else .c) →
      (s0.core.eng e).rstack.length < 16 →
      s1 = (s0.modEng fun g => { g with rstack := (g.pc + (if f.w1.isSome then 16 else 8)) :: g.rstack }) →
      s1.readReg f.reg.toNat = .ok v → v.toNat % 8 = 0 → v.toNat < 8 * s1.curCode.length →
      s1.pushBq ⟨.target, v, s0.curPc, (s0.core.eng e).pos⟩ = .ok t → Ends (.calli f) s t (.goto v.toNat))
  ∧ (∀ f s key e s0 s1 v, Starts (.calli f) s key e s0 → s.core.handler = none → (s0.core.eng e).rstack.length < 16 →
      s1 = (s0.modEng fun g => { g with rstack := (g.pc + (if f.w1.isSome then 16 else 8)) :: g.rstack }) →
      (e = (if f.prod then .a else .c) → s1.readReg f.reg.toNat = .ok v →
        (v.toNat % 8 ≠ 0 ∨ 8 * s1.curCode.length ≤ v.toNat) → Raises (.calli f) s { code := 0x08 })
      ∧ (∀ pos, e ≠ (if f.prod then .a else .c) → s1.headBq = .ok ⟨.target, v, s0.curPc, pos⟩ →
        Ends (.calli f) s (s1.modEng fun g => { g with bq := g.bq.tail }) (.goto v.toNat)))
  ∧ (∀ f s key s0, Starts (.calli f) s key .c s0 → 16 ≤ (s0.core.eng .c).rstack.length → Raises (.calli f) s { code := 0x8A })

/-- R128: LOOP goes to E when its iteration count is zero; otherwise it opens the loop and goes on behind itself, and
with ROT X drives the stage predicates from there; a ninth entry raises 0x8D at C. R129: BREAK with COND 0 closes the
innermost loop and goes to its target with no loop-end test; on an empty loop stack it raises 0x8D at C. -/
def Sys2Proof.Claims.LoopsOpenAndBreak : Prop :=
  (∀ f s key e s0 n, Starts (.loop f) s key e s0 → s0.readLc f.lc.toNat = .ok n →
    (n = 0 → Ends (.loop f) s s0 (.goto (offTarget s0.curPc f.off)))
    ∧ (∀ l t, n ≠ 0 → (s0.core.eng e).lstack.length < 8 →
        l = { endPc := offTarget s0.curPc f.off, startPc := s0.curPc + (if f.w1.isSome then 16 else 8),
              left := if f.rot then n + f.stg.toNat else n, rot := f.rot, n := n, stg := f.stg.toNat, iter := 0 } →
        t = (s0.modEng fun g => { g with lstack := l :: g.lstack }) →
        ((f.rot = false ∨ e ≠ .x) → Ends (.loop f) s t .seq)
        ∧ (f.rot = true → e = .x →
            Ends (.loop f) s (t.setCore { t.core.setStages n f.stg.toNat 0 with stageOpen := true }) .seq))
    ∧ (n ≠ 0 → 8 ≤ (s0.core.eng e).lstack.length → e = .c → Raises (.loop f) s { code := 0x8D }))
  ∧ (∀ f s key e s0, Starts (.break_ f) s key e s0 →
    ((s0.core.eng e).lstack ≠ [] → f.cond = 0 → Ends (.break_ f) s s0.popLoop (.jump (offTarget s0.curPc f.off)))
    ∧ ((s0.core.eng e).lstack = [] → e = .c → Raises (.break_ f) s { code := 0x8D }))
  ∧ (∀ f s key e s0 v b t, Starts (.break_ f) s key e s0 → (s0.core.eng e).lstack ≠ [] → f.cond ≠ 0 →
      s.core.handler = none → e = (if f.prod then .a else .c) → s0.readReg f.reg.toNat = .ok v →
      b = condTaken f.cond.toNat v →
      s0.pushBq ⟨.outcome, if b then 1 else 0, s0.curPc, (s0.core.eng e).pos⟩ = .ok t →
      Ends (.break_ f) s (if b then t.popLoop else t) (if b then .jump (offTarget s0.curPc f.off) else .seq))

/-- R128: the loop end: at the E of the innermost entry its count goes down by one; while it stays above zero the
engine goes to the first word of the body, else the entry is popped and the next one is tested; away from E nothing
happens; a body of OFF24 = 1 completes its iterations at once. -/
def Sys2Proof.Claims.LoopEndsIterateOrLeave : Prop :=
  ∀ (l : LoopEnt) (ls : List LoopEnt) (pc : Nat),
    loopEnd [] pc = (pc, [], [])
    ∧ (pc ≠ l.endPc → loopEnd (l :: ls) pc = (pc, l :: ls, []))
    ∧ (pc = l.endPc → l.startPc ≠ l.endPc → 1 < l.left →
        loopEnd (l :: ls) pc = (l.startPc, { l with left := l.left - 1, iter := l.iter + 1 } :: ls, [(l, 1, true)]))
    ∧ (pc = l.endPc → (l.left ≤ 1 ∨ l.startPc = l.endPc) →
        (loopEnd (l :: ls) pc).1 = (loopEnd ls pc).1 ∧ (loopEnd (l :: ls) pc).2.1 = (loopEnd ls pc).2.1)

/-- R128, R129: loops. -/
def Obligations.LoopsOpenIterateAndLeave : Prop := LoopsOpenAndBreak ∧ LoopEndsIterateOrLeave

/-- R130: OUT pushes whether A is not zero to every engine; FOLLOW pops one such entry and goes to its target on
COND 1 when the entry is 0, on COND 2 when it is 1. -/
def Sys2Proof.Claims.OutAndFollowComplete : Prop :=
  (∀ f s key s0 a s1 t, Starts (.out f) s key .c s0 → s.core.handler = none → s0.src f.a (litVal 0 f.w1) = .ok (a, s1) →
    s1.pushBq ⟨.out, if a = 0 then 0 else 1, s1.curPc, (s1.core.eng .c).pos⟩ = .ok t →
    Ends (.out f) s t .seq)
  ∧ (∀ f s key e s0 v pc pos, Starts (.follow f) s key e s0 → s.core.handler = none →
      s0.headBq = .ok ⟨.out, v, pc, pos⟩ → (f.cond = 1 ∨ f.cond = 2) →
      Ends (.follow f) s (s0.modEng fun g => { g with bq := g.bq.tail })
        (if (v = 0 ↔ f.cond = 1) then .goto (offTarget s0.curPc f.off) else .seq))

/-- R125 to R127, R130: calls, returns, jumps, OUT and FOLLOW.
Log entry it touches (notes/assumptions): 154. -/
def Obligations.TransfersOfControlComplete : Prop := CallsAndJumpsComplete ∧ OutAndFollowComplete

/-- R131, R178: REGION and FENCE.ENG: an engine other than C waits; C waits while another live engine has not reached
the word, or, at REGION and FENCE.ENG .async, while the shard has asynchronous work; then every live engine goes on.
REGION first raises 0x8C for an open call or loop and 0x8E for a live queue, resets every token counter and, outside a
restart, writes the restart record with the registers and flags as they are. -/
def Sys2Proof.Claims.RegionsAndFencesComplete : Prop :=
  (∀ f s key e s0 i, i ∈ [Instr.region f, .fenceEng f, .fenceEngAsync f] → Starts i s key e s0 → s.core.handler = none →
    (e ≠ .c → Waits i s s0 10) ∧ (e = .c → s0.allHere = false → Waits i s s0 10)
    ∧ (e = .c → i ≠ .fenceEng f → s0.core.jobs ≠ [] → Waits i s s0 10))
  ∧ (∀ f s key s0, Starts (.fenceEng f) s key .c s0 → s.core.handler = none → s0.allHere = true →
      Ends (.fenceEng f) s (s0.releaseOthers f.w1.isSome) .seq)
  ∧ (∀ f s key s0, Starts (.fenceEngAsync f) s key .c s0 → s.core.handler = none → s0.allHere = true → s0.core.jobs = [] →
      Ends (.fenceEngAsync f) s (s0.releaseOthers f.w1.isSome) .seq)
  ∧ (∀ f s key s0, Starts (.region f) s key .c s0 → s.core.handler = none → s0.allHere = true → s0.core.jobs = [] →
      (∀ g ∈ s0.core.live s0.curClass, (s0.core.eng g).rstack = [] ∧ (s0.core.eng g).lstack = []) →
      (∀ g ∈ s0.core.live s0.curClass, (s0.core.eng g).bq = [] ∧ (s0.core.eng g).cq = []) →
      s0.core.qx = [] → s0.core.qc = [] → s0.core.qa = [] → s0.core.bqHeld = [] →
      ∃ t : State, Ends (.region f) s (t.releaseOthers f.w1.isSome) .seq ∧ (∀ g k, (t.core.eng g).counter k = 0)
        ∧ (s0.core.restarting = true → t.core.record = s0.core.record ∧ t.core.rinst = s0.core.rinst)
        ∧ (s0.core.restarting = false → t.core.rinst = s0.core.rinst + 1 ∧ t.core.record.rinst = s0.core.rinst + 1
            ∧ t.core.record.rpc = s0.curPc ∧ t.core.record.x = s0.core.x ∧ t.core.record.a = s0.core.a
            ∧ t.core.record.fpstat = s0.core.fpstat ∧ t.core.record.mstat = s0.core.mstat
            ∧ t.core.record.win = s0.core.winslip ∧ t.core.record.padval = s0.core.padval
            ∧ t.core.record.ordwatch = s0.core.ordwatch))
  ∧ (∀ f s key s0 g, Starts (.region f) s key .c s0 → s.core.handler = none → s0.allHere = true → s0.core.jobs = [] →
      g ∈ s0.core.live s0.curClass → ((s0.core.eng g).rstack ≠ [] ∨ (s0.core.eng g).lstack ≠ []) →
      Raises (.region f) s { code := 0x8C })
  ∧ (∀ f s key s0, Starts (.region f) s key .c s0 → s.core.handler = none → s0.allHere = true → s0.core.jobs = [] →
      (∀ g ∈ s0.core.live s0.curClass, (s0.core.eng g).rstack = [] ∧ (s0.core.eng g).lstack = []) →
      ((∃ g ∈ s0.core.live s0.curClass, (s0.core.eng g).bq ≠ [] ∨ (s0.core.eng g).cq ≠ [])
        ∨ s0.core.qx ≠ [] ∨ s0.core.qc ≠ [] ∨ s0.core.qa ≠ [] ∨ s0.core.bqHeld ≠ []) → Raises (.region f) s { code := 0x8E })

/-- R132: END: the engine issues no further word; its open calls and loops and its queue entries are discarded. -/
def Sys2Proof.Claims.EndStopsTheEngine : Prop :=
  ∀ f s key e s0, Starts (.end_ f) s key e s0 → s.core.handler = none →
    ∃ t : State, Ends (.end_ f) s t .seq ∧ SameButCell s t key
      ∧ (t.core.eng e).done = true ∧ (t.core.eng e).lstack = [] ∧ (t.core.eng e).rstack = [] ∧ (t.core.eng e).bq = []
      ∧ (t.core.eng e).cq = [] ∧ (∀ g, g ≠ e → t.core.eng g = s0.core.eng g)
      ∧ (∀ c h wide n, c = (t.retire h wide n).core → h.sig = none → c.mayRun e = false)

/-- R131 to R133, R178: NOP, REGION, FENCE.ENG and END. -/
def Obligations.RegionsFencesNopAndEndComplete : Prop := RegionsAndFencesComplete ∧ NopHasNoEffect ∧ EndStopsTheEngine

/-! ## Traps and the system words of C (R135 to R149) -/

/-- R145, R146: where a cause of the trap class meets TVEC ≠ 0 outside handler mode, no fatal cause stands, none is
pending and no other engine's issued word has still to complete, C enters the handler: EPC holds the word's PC, ECAUSE
the cause with its engine, EADDR the address, C's PC is TVEC, its stacks are kept apart, and the other engines stand
where they stopped. -/
def Sys2Proof.Claims.TrapEntrySavesAndEnters : Prop :=
  ∀ (s : State) (key : Nat) (e : EngTag) (r : Raise), s.cur = .cell key e → trapClass r.code = true →
    s.core.tvec ≠ 0 → s.core.handler = none → s.core.fatals = [] → s.core.pendTrap = none →
    (∀ g ∈ s.core.live s.curClass, g ≠ e → (s.core.eng g).outside = false) →
    SameButCell s (s.deliver r) key ∧
    ∀ c, c = (s.deliver r).core →
      c.epc.toNat = (s.core.eng e).pc % 2 ^ 57 / 8 * 8
      ∧ c.ecause.toNat = (r.code.toNat + e.num * 2 ^ 8 + r.row * 2 ^ 16 + r.elem * 2 ^ 20 + r.view * 2 ^ 28) % 2 ^ 64
      ∧ c.eaddr = r.addr ∧ c.engC.pc = s.core.tvec.toNat ∧ c.engC.rstack = [] ∧ c.engC.lstack = []
      ∧ c.engC.done = false
      ∧ c.handler = some ⟨e, (s.core.eng e).pc, s.core.engC.pc, s.core.engC.rstack, s.core.engC.lstack, s.core.engC.done⟩
      ∧ (∀ g, g ≠ .c → c.eng g = s.core.eng g)
      ∧ c.x = s.core.x ∧ c.a = s.core.a ∧ c.v = s.core.v ∧ c.k = s.core.k ∧ c.spad = s.core.spad ∧ c.lc = s.core.lc
      ∧ c.jobs = s.core.jobs ∧ c.fpstat = s.core.fpstat ∧ c.mstat = s.core.mstat

/-- R145, R149, R409: in every other case on a cell a cause is a fatal one: it is recorded with its tick and its word's
place, the engine issues nothing more, and nothing else of the machine changes; a trap that meets a fatal cause that
stands gives way to it, and is not recorded. -/
def Sys2Proof.Claims.OtherCausesAreFatal : Prop :=
  ∀ (s : State) (key : Nat) (e : EngTag) (r : Raise), s.cur = .cell key e →
    ((trapClass r.code = false ∨ s.core.tvec = 0 ∨ s.core.handler.isSome = true) →
      s.deliver r = s.setCore { s.core with fatals := (s.tick, r.at_ e (s.core.eng e).pc (s.core.eng e).pos) :: s.core.fatals }
      ∧ (s.deliver r).core.mayRun e = false)
    ∧ (trapClass r.code = true → s.core.tvec ≠ 0 → s.core.handler = none → s.core.fatals ≠ [] →
      s.deliver r = s.setCore s.core)

/-- R145: the causes a handler may take are 0x60 to 0x7F and 0x49. -/
def Sys2Proof.Claims.TrapClassCodes : Prop :=
  ∀ c : BitVec 8, trapClass c = true ↔ (0x60 ≤ c.toNat ∧ c.toNat ≤ 0x7F) ∨ c = 0x49

/-- R145, R146, R409: which causes a handler takes, what its entry saves, and what becomes of the others.
Log entries it touches (notes/assumptions): 12, 14. -/
def Obligations.CausesAreTaken : Prop := TrapEntrySavesAndEnters ∧ OtherCausesAreFatal ∧ TrapClassCodes

/-- R140: TRAP raises 0x7E with EADDR := A + IMM20 sign-extended, wrapping at 64 bits; BKPT raises 0x49 with EADDR :=
IMM20 sign-extended. -/
def Sys2Proof.Claims.TrapAndBreakpointWords : Prop :=
  (∀ f s key e s0 a s1, Starts (.trap f) s key e s0 → s0.src f.a (litVal 0 f.w1) = .ok (a, s1) →
    Raises (.trap f) s { code := 0x7E, addr := a + f.imm.signExtend 64 })
  ∧ (∀ f s key e s0, Starts (.bkpt f) s key e s0 → Raises (.bkpt f) s { code := 0x49, addr := f.imm.signExtend 64 })

/-- R148: ERET outside handler mode raises 0x8F. In handler mode it discards the handler's stacks; the trapped engine
resumes at EPC, at its word's position when EPC is that word's PC and one further otherwise; every other engine resumes
where it stopped. -/
def Sys2Proof.Claims.TrapReturnRestores : Prop :=
  (∀ f s key e s0, Starts (.eret f) s key e s0 → s.core.handler = none → Raises (.eret f) s { code := 0x8F })
  ∧ (∀ f s key s0 h, Starts (.eret f) s key .c s0 → s.core.handler = some h →
      ∃ t : State, Ends (.eret f) s t .stay ∧ SameButCell s0 t key ∧ t.core.handler = none
        ∧ (t.core.eng h.trapEng).pc = s.core.epc.toNat
        ∧ (h.trapEng ≠ .c → (t.core.eng h.trapEng).pos
            = (s.core.eng h.trapEng).pos + (if s.core.epc.toNat = h.trapPc then 0 else 1)
            ∧ t.core.engC.pc = h.cStop)
        ∧ t.core.engC.rstack = h.cRstack ∧ t.core.engC.lstack = h.cLstack ∧ t.core.engC.done = h.cDone
        ∧ (∀ g, g ≠ .c → g ≠ h.trapEng → t.core.eng g = s.core.eng g)
        ∧ t.core.x = s.core.x ∧ t.core.a = s.core.a ∧ t.core.spad = s.core.spad ∧ t.core.epc = s.core.epc)

/-- R140, R148: TRAP, BKPT and ERET.
Log entry it touches (notes/assumptions): 14. -/
def Obligations.TrapWordsAndReturn : Prop := TrapAndBreakpointWords ∧ TrapReturnRestores

/-- R136: CSRR gives the register's value; CSRW, CSRS and CSRC give the old value to D and store A, the value with A's
bits set, or the value with A's bits cleared; the trace and tag registers wait for the MGOs before the word (R437). -/
def Sys2Proof.Claims.CsrWordsComplete : Prop :=
  (∀ f s key e s0 t, Starts (.csrr f) s key e s0 → s0.dst f.d (s0.csrRead (f.imm.toNat % 4096)) = .ok t →
    Ends (.csrr f) s t .seq)
  ∧ (∀ f s key e i s0 a old v s1 s2 t, (i = .csrw f ∧ v = a ∨ i = .csrs f ∧ v = old ||| a ∨ i = .csrc f ∧ v = old &&& ~~~a) →
      Starts i s key e s0 → (0x200 ≤ f.imm.toNat % 4096 → 0x202 < f.imm.toNat % 4096 ∨ s0.owes .m Instr.isMgo = false) →
      s0.src f.a (litVal 0 f.w1) = .ok (a, s1) → old = s1.csrRead (f.imm.toNat % 4096) →
      s1.csrWrite (f.imm.toNat % 4096) v = .ok s2 → s2.dst f.d old = .ok t → Ends i s t .seq)

/-- R25, R64 to R71, R417: what a write of each special register of a cell stores, and that reading it gives that value: the
flags alone of FPSTAT and MSTAT, with those that a word of the same cycle has raised, WIN clamped to 16 to 4,096, EN, PAD, EPC's word address bits, the watchpoints, and
nothing of a read-only register. -/
def Sys2Proof.Claims.SpecialRegistersStore : Prop :=
  ∀ (s : State) (key : Nat) (e : EngTag) (w : Word), s.cur = .cell key e →
    (∀ t, s.csrWrite 0x001 w = .ok t → t = s.setCore { s.core with fpstat := w.setWidth 6 ||| s.core.nowFp }
        ∧ t.csrRead 0x001 = (w ||| s.core.nowFp.setWidth 64) &&& 0x3F)
    ∧ (∀ t, s.csrWrite 0x002 w = .ok t → t = s.setCore { s.core with mstat := w.setWidth 3 ||| s.core.nowM }
        ∧ (t.csrRead 0x002).toNat % 8 = (w ||| s.core.nowM.setWidth 64).toNat % 8 ∧ (t.csrRead 0x002).toNat / 8 = (s.csrRead 0x002).toNat / 8)
    ∧ (∀ t, s.csrWrite 0x011 w = .ok t → t = s.setCore { s.core with winslip := min (max (w.toNat % 2 ^ 13) 16) 4096 }
        ∧ (t.csrRead 0x011).toNat = min (max (w.toNat % 2 ^ 13) 16) 4096)
    ∧ (∀ t, s.csrWrite 0x012 w = .ok t → t.csrRead 0x012 = w &&& 1
        ∧ (s.core.handler = none → t = s.setCore { s.core with ordwatch := w.getLsbD 0 })
        ∧ (s.core.handler.isSome = true → ∀ n, t.core.ordAt n = w.getLsbD 0))
    ∧ (∀ t, s.csrWrite 0x013 w = .ok t → t = s.setCore { s.core with padval := w.setWidth 32 }
        ∧ t.csrRead 0x013 = w &&& 0xFFFFFFFF)
    ∧ (∀ t, s.csrWrite 0x180 w = .ok t → t.csrRead 0x180 = w &&& 0x01FFFFFFFFFFFFF8)
    ∧ (∀ i t, i < 8 → s.csrWrite (0x1C0 + 4 * i) w = .ok t → t.csrRead (0x1C0 + 4 * i) = BitVec.ofNat 64 (addrVa w)
        ∧ ∀ n, 0x1C0 ≤ n → n ≤ 0x1DF → n ≠ 0x1C0 + 4 * i → t.csrRead n = s.csrRead n)
    ∧ (∀ t, s.csrWrite 0x200 w = .ok t → t.csrRead 0x200 = w &&& 3)
    ∧ (∀ t, s.csrWrite 0x201 w = .ok t → t.csrRead 0x201 = w)
    ∧ (∀ t, s.csrWrite 0x202 w = .ok t → t.csrRead 0x202 = w &&& 0xFFFFFFFF)
    ∧ (∀ n, n ∈ [0x010, 0x015, 0x018, 0x01D, 0x040, 0x060, 0x07F, 0x100, 0x110, 0x181, 0x182, 0x183, 0x203] →
        s.csrWrite n w = .ok s)

/-- R69: a VROT write with BASE + SIZE above 256 raises 0x02; otherwise, in handler mode or where X has passed the
word, the fields are the word's and OFF is reduced modulo SIZE, and reading VROT gives them back. -/
def Sys2Proof.Claims.VrotStores : Prop :=
  ∀ (s : State) (key : Nat) (e : EngTag) (w : Word), s.cur = .cell key e →
    (256 < w.toNat % 2 ^ 8 + w.toNat / 2 ^ 8 % 2 ^ 9 → s.csrWrite 0x014 w = raise 0x02)
    ∧ (w.toNat % 2 ^ 8 + w.toNat / 2 ^ 8 % 2 ^ 9 ≤ 256 → (s.core.handler.isSome = true ∨
          (s.core.vrotPend = [] ∧ (s.core.engX.done = true ∨ s.core.engC.pos < s.core.engX.pos))) →
        ∃ t, s.csrWrite 0x014 w = .ok t ∧ t.core.vrotBase = w.toNat % 2 ^ 8 ∧ t.core.vrotSize = w.toNat / 2 ^ 8 % 2 ^ 9
          ∧ t.core.vrotOff = (if w.toNat / 2 ^ 8 % 2 ^ 9 = 0 then 0 else w.toNat / 2 ^ 24 % 2 ^ 8 % (w.toNat / 2 ^ 8 % 2 ^ 9))
          ∧ (t.csrRead 0x014).toNat = t.core.vrotBase + t.core.vrotSize * 2 ^ 8 + t.core.vrotOff * 2 ^ 24)

/-- R14, R25, R62 to R71, R136, R417, R437: CSRR and CSRW, and what each special register stores. -/
def Obligations.SpecialRegisterWords : Prop := CsrWordsComplete ∧ SpecialRegistersStore ∧ VrotStores

/-- R137: TICK gives the tick; WAITTICK ends once the tick has reached A, unsigned, and waits until then, having taken
A at issue. R138: HALT halts the shard; its event goes to the host once no issued word of another engine and no
asynchronous work of the shard is left, and not before; an engine that waits for the others at a tag-7 word has not executed
it. -/
def Sys2Proof.Claims.TimeWordsComplete : Prop :=
  (∀ f s key e s0 t, Starts (.tick f) s key e s0 → s0.dst f.d (BitVec.ofNat 64 s.tick) = .ok t → Ends (.tick f) s t .seq)
  ∧ (∀ f s key e s0 v s1, Starts (.waittick f) s key e s0 → (s0.core.eng e).waitVal = none →
      s0.src f.a (litVal 0 f.w1) = .ok (v, s1) →
      (v.toNat ≤ s.tick → Ends (.waittick f) s (s1.modEng fun g => { g with waitVal := some v }) .seq)
      ∧ (s.tick < v.toNat → Waits (.waittick f) s (s1.modEng fun g => { g with waitVal := some v }) 12))
  ∧ (∀ f s key e s0, Starts (.halt f) s key e s0 →
      Ends (.halt f) s (s0.setCore { s0.core with
        phase := .halted, haltPc := some (s0.curPc + (if f.w1.isSome then 16 else 8)) }) .seq)
  ∧ (∀ (s : State) (key pc : Nat) (c : Cell), (s.cells.filter fun x => x.2.haltPc.isSome) = [(key, c)] → c.haltPc = some pc →
      (c.phase = .halted ∧ c.jobs = [] ∧ (∀ e, (c.eng e).done = true ∨ (c.eng e).issued = false ∨ (c.eng e).reason = 10) →
        s.haltReports = (s.setCell key { c with haltPc := none }).haltEvent key pc)
      ∧ ((c.jobs ≠ [] ∨ ∃ e, (c.eng e).done = false ∧ (c.eng e).issued = true ∧ (c.eng e).reason ≠ 10) → s.haltReports = s))

/-- R139: ICINV drops the cached instruction words of the lines that overlap the range, in the own cell, or in the cells
of the context on the die or the partition; TLBINV drops the translations of the pages that overlap it. B = 0 covers all. -/
def Sys2Proof.Claims.InvalidationsComplete : Prop :=
  (∀ f s key e s0 a b s1 lo len, Starts (.icinv f) s key e s0 → ReadsTwo s0 f.a f.b (litVal 0 f.w1) a b s1 →
    (lo, len) = (if b = 0 then (0, 2 ^ 57) else (addrVa a, min b.toNat (2 ^ 57 - addrVa a))) →
    ∃ t : State, Ends (.icinv f) s t .seq ∧ { t with cells := s1.cells } = s1
      ∧ t.cells = s1.cells.map (fun x =>
          if (f.rs = 0 ∧ x.1 = key ∨ f.rs ≠ 0 ∧ keyChip x.1 ∈ s1.scopeChips f.rs.toNat)
              ∧ s1.nodeCtx x.2.node = s1.nodeCtx s1.curNode
          then (x.1, { x.2 with icache := x.2.icache.filter fun w =>
            !(decide (w.1 / 8 * 64 < lo + len) && decide (lo < w.1 / 8 * 64 + 64)) })
          else x))
  ∧ (∀ f s key e s0 a b s1 lo len, Starts (.tlbinv f) s key e s0 → ReadsTwo s0 f.a f.b (litVal 0 f.w1) a b s1 →
    (lo, len) = (if b = 0 then (0, 2 ^ 57) else (addrVa a, min b.toNat (2 ^ 57 - addrVa a))) →
    ∃ t : State, Ends (.tlbinv f) s t .seq
      ∧ (f.rs = 0 → t = s1.mapCells (fun k => k == key) fun c => { c with tlb := c.tlb.filter fun x =>
          !(decide (x.1 * pageBytes < lo + len) && decide (lo < (x.1 + 1) * pageBytes)) })
      ∧ (f.rs ≠ 0 → t = s1.tlbInv (s1.scopeChips f.rs.toNat) (s1.nodeCtx s1.curNode) lo len))

/-- R141: WATCH gives the old arm bits to D and arms or disarms the watchpoint IMM20[2:0], or all of them, and changes
no other bit of a watchpoint. R143: FWSVC ECHO gives A back, DISCVER the discovery VERSION, and an undefined service all
ones. -/
def Sys2Proof.Claims.WatchAndFwsvcComplete : Prop :=
  (∀ f s key e s0 t, Starts (.watch f) s key e s0 →
    (s0.setCore { s0.core with watch := armed f s0.core }).dst f.d
      (BitVec.ofNat 64 ((List.range 8).map fun i => if (s0.core.wp i).ctl.getLsbD 8 then 2 ^ i else 0).sum) = .ok t →
    Ends (.watch f) s t .seq)
  ∧ (∀ f s key e s0 a s1 t v i, Starts i s key e s0 → s0.src f.a (litVal 0 f.w1) = .ok (a, s1) →
      (i = .echo f ∧ v = a ∨ i = .discver f ∧ v = BitVec.ofNat 64 s.version ∨ i = .fwsvcUndefined f ∧ v = BitVec.allOnes 64) →
      s1.dst f.d v = .ok t → Ends i s t .seq)

/-- R143, R438, R439, R442: MARK takes A, writes it as a mark record of 32 bytes with the tick into the next slot of the
trace ring that TRBASE names, counts the record in WR, and gives the tick to D: where the header and the record pass the
checks, NREC is 4 to 24 and the ring has room. Without a ring, and where the record is lost or dropped, D receives all
ones; while the ring is full and STALL is 1, C waits, with A as it was at issue. -/
def Sys2Proof.Claims.MarksAreWritten : Prop :=
  ∀ f s key e s0 a s1 s2, Starts (.mark f) s key e s0 →
    ((s0.core.eng e).waitVal = none ∧ s0.src f.a (litVal 0 f.w1) = .ok (a, s1)
        ∧ s2 = (s1.modEng fun g => { g with waitVal := some a })
      ∨ (s0.core.eng e).waitVal = some a ∧ s2 = s0) →
    (∀ h s3 s4 n wr rd r s5 t, s2.core.trbase ≠ 0 →
        s2.access key { addr := s2.core.trbase, size := 64, write := true, align := 64, scope := 2, watch := false } = .ok (h, s3) →
        s3.traceTurn key h = .ok s4 →
        n = s4.placeWord h 0x10 → 4 ≤ n → n ≤ 24 → wr = s4.placeWord h 0 → rd = s4.placeWord h 8 →
        (wr + 2 ^ 64 - rd) % 2 ^ 64 < 2 ^ n →
        s4.access key { addr := s2.core.trbase + BitVec.ofNat 64 (64 + 32 * (wr % 2 ^ n)), size := 32, write := true,
                        align := 32, scope := 2, watch := false } = .ok (r, s5) →
        ((s5.placePut (keyChip key) h (leBytes 8 (wr + 1))).tracePut key r (leBytes 8 s.tick ++ leBytes 8 a.toNat
            ++ List.replicate 12 0 ++ leBytes 1 (keyChip key) ++ leBytes 1 (keyCell key) ++ [0, 2])).dst f.d
              (BitVec.ofNat 64 s.tick) = .ok t →
        Ends (.mark f) s t .seq)
    ∧ (∀ t, s2.core.trbase = 0 → s2.dst f.d (BitVec.allOnes 64) = .ok t → Ends (.mark f) s t .seq)
    ∧ (∀ x s3, s2.core.trbase ≠ 0 →
        s2.traceWrite key s2.core.trbase (s2.core.trctl.getLsbD 1) s.tick (markBytes s.tick a key) = (x, s3) →
        (∀ t, x = .lost ∨ x = .dropped → s3.dst f.d (BitVec.allOnes 64) = .ok t → Ends (.mark f) s t .seq)
        ∧ (x = .full → Waits (.mark f) s s3 12)
        ∧ (∀ id i w g, x = .held id i w g → Waits (.mark f) s (s3.traceHold id i w g) 12))

/-- R137 to R139, R141, R143, R438, R439, R442: time, cache, watch and firmware words, and the marks they write. -/
def Obligations.TimeCacheAndWatchWords : Prop := TimeWordsComplete ∧ InvalidationsComplete ∧ WatchAndFwsvcComplete ∧ MarksAreWritten

/-- R142, R351: on a prologue core the PEND words and END end the run with their decision, REPEAT with A as a signed
number clamped to 0 to 65,535, of which 0 is GO; the other words of a prologue core complete as on a cell; on a cell a
PEND raises 0xC7.
Log entry it touches (notes/assumptions): 62. -/
def Obligations.PrologueWordsComplete : Prop :=
  (∀ f s node p, IssuesAlone s node p f.hdr →
    exec (.pendGo f) s = .next (((s.prologueEnd node .go).counted node).retire f.hdr f.w1.isSome .seq)
    ∧ exec (.pendCancel f) s = .next (((s.prologueEnd node .cancel).counted node).retire f.hdr f.w1.isSome .seq)
    ∧ (∀ a s1, s.src f.a (litVal 0 f.w1) = .ok (a, s1) →
        (a.toInt ≤ 0 → exec (.pendRepeat f) s = .next (((s1.prologueEnd node .go).counted node).retire f.hdr f.w1.isSome .seq))
        ∧ (0 < a.toInt → exec (.pendRepeat f) s = .next (((s1.prologueEnd node (.again (min a.toNat 65535))).counted node).retire
            f.hdr f.w1.isSome .seq))))
  ∧ (∀ f s node p, IssuesAlone s node p f.hdr →
      exec (.end_ f) s = .next (((s.prologueEnd node .go).counted node).retire f.hdr f.w1.isSome .seq))
  ∧ (∀ f s node p t, IssuesAlone s node p f.hdr → launchReg (f.imm.toNat % 4096) = true →
      s.dst f.d (s.launchRead node (f.imm.toNat % 4096)) = .ok t →
      exec (.csrr f) s = .next ((t.counted node).retire f.hdr f.w1.isSome .seq))
  ∧ (∀ f s key e s0 i, Starts i s key e s0 → i ∈ [Instr.pendGo f, .pendCancel f, .pendRepeat f] → Raises i s { code := 0xC7 })

/-! ## Memory words of A (R153 to R201) -/

/-- R154, R413, R418, R469: the checks on an access of a cell, in their order: canonical form, window, range, a peer that does not
serve (its place among the checks is the model's choice, log entry 143), scratchpad alone, scope, alignment; in GLOBAL the
translation, which the host's path serves at a PAGEABLE entry, and write permission; in TARN and GLOBAL the granule tag of
the copy that serves the access (R414); then the watchpoints. Where none fails the access is placed.
Log entry it touches (notes/assumptions): 143. -/
def Obligations.AccessChecksInOrder : Prop :=
  ∀ (s : State) (key : Nat) (q : Acc),
    let ctx := s.nodeCtx (s.cell key).node
    let part := s.ctxPart ctx
    (canonical q.addr = false → s.access key q = raiseAt 0x21 q.addr)
    ∧ (canonical q.addr = true →
      (windowOf (s.apers ctx) (addrVa q.addr) = none → s.access key q = raiseAt 0x22 q.addr)
      ∧ (∀ win off, windowOf (s.apers ctx) (addrVa q.addr) = some (win, off) →
        let peer := cellKey (keyChip key) (off / spadBytes)
        (s.beyond (keyChip key) part win off = true → s.access key q = raiseAt 0x23 q.addr)
        ∧ (s.beyond (keyChip key) part win off = false →
          (win = 1 → (s.cell peer).serves = false → s.access key q = raiseAt 0x23 q.addr)
          ∧ (2 ≤ win → q.spadOnly = true → s.access key q = raiseAt 0x23 q.addr)
          ∧ ((win = 0 ∨ win = 1 ∧ (s.cell peer).serves = true) → (q.atomic = true ∨ q.scopeRule = true) →
              2 ≤ q.atomScope → s.access key q = raiseAt 0x28 q.addr)
          ∧ ((win = 1 → (s.cell peer).serves = true) → (2 ≤ win → q.spadOnly = false) →
              (win ≤ 1 → (q.atomic = false ∧ q.scopeRule = false) ∨ q.atomScope < 2) →
            (q.addr.toNat % q.align ≠ 0 → s.access key q = raiseAt 0x20 q.addr)
            ∧ (q.addr.toNat % q.align = 0 →
              (win = 0 → Watching s key q s (.spad key off) (q.element.getD 0))
              ∧ (win = 1 → Watching s key q s (.spad peer (off % spadBytes)) (q.element.getD (if peer = key then 0 else 1)))
              ∧ (win = 2 → ∀ loc, s.tarnAt part off = some loc → Tagged s key part q s loc)
              ∧ (win = 3 →
                (∀ s1, s.tlbLookup key ctx (addrVa q.addr) = (.invalid false, s1) → s.access key q = raiseAt 0x24 q.addr)
                ∧ (∀ s1, s.tlbLookup key ctx (addrVa q.addr) = (.invalid true, s1) →
                    s.access key q = .error (.page ctx (addrVa q.addr / 16384) (q.write || q.atomic) q.addr))
                ∧ (∀ p s1, s.tlbLookup key ctx (addrVa q.addr) = (.ue p, s1) →
                    s.access key q = .error (.cause { code := 0xE1, addr := q.addr, aux := ueAux p } none))
                ∧ (∀ t s1, s.tlbLookup key ctx (addrVa q.addr) = (.leaf t, s1) →
                  ((q.write = true ∨ q.atomic = true) → t.w = false → s.access key q = raiseAt 0x25 q.addr)
                  ∧ ((q.write = false ∧ q.atomic = false) ∨ t.w = true →
                      Tagged s key part q s1 (s1.locOf t ctx (addrVa q.addr) q.shadow)))))))))

/-- R60, R160 to R162: bytes of the own scratchpad: a read gives them and leaves them; a write stores them and no other
byte, and sets the full-empty bits it names; both wait while the range touches a locked granule or the clear runs, and a store waits
while it is not known whether a read that it passes is watched (the model's choice, log entry 148).
Log entry it touches (notes/assumptions): 148. -/
def Obligations.ScratchpadReadsAndWrites : Prop :=
  ∀ (s : State) (key : Nat) (e : EngTag) (off n : Nat) (bs : List Byte) (fill : List Nat) (addr : Word), s.cur = .cell key e →
    (((s.cell key).phase = .clearing ∨ (s.cell key).locked off n = true) → s.spadLoad key key off n addr = blocked 12)
    ∧ ((s.cell key).phase ≠ .clearing → (s.cell key).locked off n = false → ∃ t,
        s.spadLoad key key off n addr = .ok (Memory.readN (s.cell key).spad off n, t)
        ∧ ∃ r, t = s.setCell key { s.cell key with reads := r })
    ∧ ((s.cell key).phase ≠ .clearing → (s.cell key).locked off bs.length = false →
        s.ordWaits key .a (s.cell key).engA.pos off bs.length = true → s.spadStore key key off bs fill addr = blocked 8)
    ∧ ((s.cell key).phase ≠ .clearing → (s.cell key).locked off bs.length = false →
        s.ordWaits key .a (s.cell key).engA.pos off bs.length = false →
        (s.cell key).ordAt (s.cell key).engA.pos = false → ∃ t, s.spadStore key key off bs fill addr = .ok t ∧ SameButCell s t key
          ∧ (∀ a, a < off ∨ off + bs.length ≤ a → Memory.read (t.cell key).spad a = Memory.read (s.cell key).spad a)
          ∧ (∀ i, i < bs.length → Memory.read (t.cell key).spad (off + i) = bs.getD i 0)
          ∧ (∀ g, FMap.get (t.cell key).fe g false = (fill.contains g || FMap.get (s.cell key).fe g false))
          ∧ (t.cell key).x = (s.cell key).x ∧ (t.cell key).a = (s.cell key).a ∧ (t.cell key).rings = (s.cell key).rings)

/-- R155 to R157: LD reads the bytes at A + B and writes D with their value; ST writes D's value at A + B. -/
def Sys2Proof.Claims.LoadsAndStoresComplete : Prop :=
  (∀ f s key e s0 addr s1 p s2 bs s3 t, Starts (.ld f) s key e s0 → s0.memAddr f = .ok (addr, s1) →
    s1.access key { addr := addr, size := typeBytes f.ty.toNat, align := typeBytes f.ty.toNat,
                    shadow := f.fl.getLsbD 1, scope := f.rs.toNat } = .ok (p, s2) →
    ((∃ k off, p = .spad k off ∧ s2.spadLoad key k off (typeBytes f.ty.toNat) addr = .ok (bs, s3))
      ∨ ∃ loc, p = .line loc ∧ s2.loadLine key (s2.ctxPart (s2.nodeCtx s2.curNode)) loc (typeBytes f.ty.toNat)
          f.rs.toNat (f.fl.getLsbD 0) = .ok (bs, s3)) →
    s3.putLoaded f.d f.ty.toNat bs = .ok t → Ends (.ld f) s t .seq)
  ∧ (∀ f s key e s0 lo hi s1 addr s2 p s3 t, Starts (.st f) s key e s0 →
    s0.dataSrc f.d (litVal f.ty.toNat f.w1) (f.ty == 12) = .ok (lo, hi, s1) → s1.memAddr f = .ok (addr, s2) →
    s2.access key { addr := addr, size := typeBytes f.ty.toNat, write := true, align := typeBytes f.ty.toNat,
                    shadow := f.fl.getLsbD 1, scope := f.rs.toNat } = .ok (p, s3) →
    ((∃ k off, p = .spad k off ∧ s3.spadStore key k off (storeBytes f.ty.toNat lo hi) [] addr = .ok t)
      ∨ ∃ loc, p = .line loc ∧ s3.storeLine key (s3.ctxPart (s3.nodeCtx s3.curNode)) loc (storeBytes f.ty.toNat lo hi)
          f.rs.toNat (f.fl.getLsbD 0) = .ok t) →
    Ends (.st f) s t .seq)

/-- R156, R157: the value a load writes: the bytes, little-endian, sign- or zero-extended per the type, or both halves
of a `.b128`; and the bytes a store writes. -/
def Sys2Proof.Claims.LoadedAndStoredValues : Prop :=
  ∀ (s : State) (d : BitVec 8) (bs : List Byte) (lo hi : Word),
    s.putLoaded d 0 bs = s.dst d (BitVec.ofNat 64 (leNat bs)) ∧ s.putLoaded d 1 bs = s.dst d (BitVec.ofNat 64 (leNat bs))
    ∧ s.putLoaded d 2 bs = s.dst d ((BitVec.ofNat 32 (leNat bs)).signExtend 64)
    ∧ s.putLoaded d 3 bs = s.dst d ((BitVec.ofNat 32 (leNat bs)).setWidth 64)
    ∧ s.putLoaded d 4 bs = s.dst d ((BitVec.ofNat 16 (leNat bs)).signExtend 64)
    ∧ s.putLoaded d 5 bs = s.dst d ((BitVec.ofNat 16 (leNat bs)).setWidth 64)
    ∧ s.putLoaded d 6 bs = s.dst d ((BitVec.ofNat 8 (leNat bs)).signExtend 64)
    ∧ s.putLoaded d 7 bs = s.dst d ((BitVec.ofNat 8 (leNat bs)).setWidth 64)
    ∧ (d.toNat < 64 → s.putLoaded d 12 bs = (s.writeReg d.toNat (BitVec.ofNat 64 (leNat (bs.take 8)))).bind
        fun t => t.writeReg (d.toNat + 1) (BitVec.ofNat 64 (leNat (bs.drop 8))))
    ∧ leNat (storeBytes 0 lo hi) = lo.toNat ∧ leNat (storeBytes 2 lo hi) = lo.toNat % 2 ^ 32
    ∧ leNat (storeBytes 4 lo hi) = lo.toNat % 2 ^ 16 ∧ leNat (storeBytes 6 lo hi) = lo.toNat % 2 ^ 8
    ∧ leNat (storeBytes 12 lo hi) = lo.toNat + 2 ^ 64 * hi.toNat

/-- R155 to R157: LD and ST, and the values they move. -/
def Obligations.LoadsAndStoresWithValues : Prop := LoadsAndStoresComplete ∧ LoadedAndStoredValues

/-- R160, R161: LDS and STS reach a scratchpad; a qualified one waits at its bank until the granule's bit is as it needs
and no earlier request stands before it; LDS may clear the bit, STS set it.
Log entry it touches (notes/assumptions): 50. -/
def Obligations.QualifiedAccessesComplete : Prop :=
  (∀ f s key e s0 addr s1 k off s2 bs s3, Starts (.lds f) s key e s0 → s0.memAddr f = .ok (addr, s1) →
    s1.access key { addr := addr, size := typeBytes f.ty.toNat, align := typeBytes f.ty.toNat, spadOnly := true }
      = .ok (.spad k off, s2) →
    s2.spadLoad key k off (typeBytes f.ty.toNat) addr = .ok (bs, s3) →
    (f.fl.getLsbD 0 = true → (s3.cell k).bankTurn key .a (off / 16) true = false →
      Waits (.lds f) s (s0.holdAt key k (off / 16) true) (if k = key then 9 else 12))
    ∧ (∀ s4 s5 t, (f.fl.getLsbD 0 = true → (s3.cell k).bankTurn key .a (off / 16) true = true) →
      s4 = (if f.fl.getLsbD 0 then s3.unhold key k else s3) →
      s5 = (if f.fl.getLsbD 1 then s4.setCell k { s4.cell k with fe := FMap.erase (s4.cell k).fe (off / 16) } else s4) →
      s5.putLoaded f.d f.ty.toNat bs = .ok t → Ends (.lds f) s t .seq))
  ∧ (∀ f s key e s0 lo hi s1 addr s2 k off s3 bs fill, Starts (.sts f) s key e s0 →
    s0.dataSrc f.d (litVal f.ty.toNat f.w1) (f.ty == 12) = .ok (lo, hi, s1) → s1.memAddr f = .ok (addr, s2) →
    s2.access key { addr := addr, size := typeBytes f.ty.toNat, write := true, align := typeBytes f.ty.toNat, spadOnly := true }
      = .ok (.spad k off, s3) →
    bs = storeBytes f.ty.toNat lo hi → fill = (if f.fl.getLsbD 0 then [off / 16] else []) →
    (∀ t, f.fl.getLsbD 1 = false → s3.spadStore key k off bs fill addr = .ok t → Ends (.sts f) s t .seq)
    ∧ (∀ s4, f.fl.getLsbD 1 = true → s3.bankReady key k addr = .ok () → s3.flushPeer key k = .ok s4 →
      ((s4.cell k).bankTurn key .a (off / 16) false = false →
        Waits (.sts f) s (s0.holdAt key k (off / 16) false) (if k = key then 9 else 12))
      ∧ (∀ t, (s4.cell k).bankTurn key .a (off / 16) false = true → k = key →
        (s4.unhold key key).spadStore key key off bs fill addr = .ok t → Ends (.sts f) s t .seq)
      ∧ (∀ s5, (s4.cell k).bankTurn key .a (off / 16) false = true → k ≠ key → s5 = s4.unhold key k →
        Ends (.sts f) s (s5.setCell k ((s5.cell k).spadPut (writesOf off bs) fill)) .seq)))

/-- R165 to R168: the ring words: RCLAIM gives a free slot's address, RTAKE the oldest filled one's, each all ones when
there is none; RCOMMIT fills the oldest claimed slot; RDONE frees the oldest taken one and empties its granules;
WAITFILL and WAITFREE wait until the count reaches A; a ring that is not configured raises 0x26. -/
def Sys2Proof.Claims.RingWordsComplete : Prop :=
  (∀ f s key e s0 i, i ∈ [Instr.rclaim f, .rcommit f, .rtake f, .rdone f, .waitfill f, .waitfree f] → Starts i s key e s0 →
    (s0.core.ring f.rs.toNat).cnt = 0 → Raises i s { code := 0x26 })
  ∧ (∀ f s key e s0 r t, Starts (.rclaim f) s key e s0 → r = s0.core.ring f.rs.toNat → r.cnt ≠ 0 →
    (r.free = 0 → s0.dst f.d (BitVec.allOnes 64) = .ok t → Ends (.rclaim f) s t .seq)
    ∧ (r.free ≠ 0 → (s0.setCore (s0.core.setRing f.rs.toNat { r with tail := (r.tail + 1) % r.cnt, claimed := r.claimed + 1 })).dst
        f.d (BitVec.ofNat 64 (r.base + r.tail * r.size)) = .ok t → Ends (.rclaim f) s t .seq))
  ∧ (∀ f s key e s0 r t, Starts (.rtake f) s key e s0 → r = s0.core.ring f.rs.toNat → r.cnt ≠ 0 →
    (r.filled = 0 → s0.dst f.d (BitVec.allOnes 64) = .ok t → Ends (.rtake f) s t .seq)
    ∧ (r.filled ≠ 0 → (s0.setCore (s0.core.setRing f.rs.toNat { r with taken := r.taken + 1, filled := r.filled - 1 })).dst
        f.d (BitVec.ofNat 64 (r.base + (r.head + r.taken) % r.cnt * r.size)) = .ok t → Ends (.rtake f) s t .seq))
  ∧ (∀ f s key e s0 r, Starts (.rdone f) s key e s0 → r = s0.core.ring f.rs.toNat → r.cnt ≠ 0 →
    (r.taken = 0 → Raises (.rdone f) s { code := 0x26 })
    ∧ (r.taken ≠ 0 → Ends (.rdone f) s (s0.setCore
        ((s0.core.setRing f.rs.toNat { r with head := (r.head + 1) % r.cnt, taken := r.taken - 1 }).feClear
          (s0.localOff (r.slotAddr r.head)) r.size)) .seq))
  ∧ (∀ f s key e s0 r, Starts (.rcommit f) s key e s0 → r = s0.core.ring f.rs.toNat → r.cnt ≠ 0 →
    s0.core.pendingCommits f.rs.toNat = 0 →
    (r.claimed = 0 → Raises (.rcommit f) s { code := 0x26 })
    ∧ (∀ s1, r.claimed ≠ 0 → s0.spadReady key key (s0.localOff r.barrier) 8 = .ok () → s0.watchRing key r.barrier 8 = .ok s1 →
        Ends (.rcommit f) s (s1.commitRing key f.rs.toNat (s0.localOff r.barrier)) .seq))
  ∧ (∀ f s key e s0 r a s1 i have_, (i = .waitfill f ∧ have_ = r.filled ∨ i = .waitfree f ∧ have_ = r.free) →
    Starts i s key e s0 → r = s0.core.ring f.rs.toNat → r.cnt ≠ 0 → (s0.core.eng e).waitVal = none →
    s0.src f.a (litVal 0 f.w1) = .ok (a, s1) →
    (a.toNat ≤ have_ → a.toNat ≤ r.cnt → Ends i s (s1.modEng fun g => { g with waitVal := some a }) .seq)
    ∧ (have_ < a.toNat → a.toNat ≤ r.cnt → Waits i s (s1.modEng fun g => { g with waitVal := some a }) 9)
    ∧ (r.cnt < a.toNat → Raises i s { code := 0x26 }))

/-- R165: RCLAIM .cfg configures an idle ring in the own scratchpad and zeroes its barrier granule; any other operand,
or a ring in use, raises 0x26. -/
def Sys2Proof.Claims.RingConfiguration : Prop :=
  ∀ f s key e s0 a b s1 off cnt units, Starts (.rclaimCfg f) s key e s0 → ReadsTwo s0 f.a f.b (litVal 0 f.w1) a b s1 →
    cnt = b.toNat % 2 ^ 16 → units = b.toNat / 2 ^ 32 % 2 ^ 16 → windowOf s1.curApers (addrVa a) = some (0, off) →
    let old := s1.core.ring f.rs.toNat
    let ok := canonical a = true ∧ a.toNat % 16 = 0 ∧ b.toNat / 2 ^ 16 % 2 ^ 16 = 0 ∧ b.toNat / 2 ^ 48 = 0 ∧ 1 ≤ cnt
      ∧ cnt ≤ 4096 ∧ 1 ≤ units ∧ off + cnt * (16 * units) + 32 ≤ spadBytes ∧ old.taken = 0 ∧ old.filled = 0
      ∧ old.claimed = 0 ∧ s1.core.pendingCommits f.rs.toNat = 0
    (¬ ok → Raises (.rclaimCfg f) s { code := 0x26, addr := a })
    ∧ (∀ s2, ok → s1.spadReady key key (off + cnt * (16 * units)) 32 = .ok () →
        s1.watchRing key (BitVec.ofNat 64 (a.toNat + cnt * (16 * units))) 32 = .ok s2 →
        Ends (.rclaimCfg f) s (s2.setCell key ((((s2.cell key).setRing f.rs.toNat
          ⟨a.toNat, 16 * units, cnt, 0, 0, 0, 0, 0⟩).spadPut (writesOf (off + cnt * (16 * units)) (List.replicate 32 0)) []).feClear
            (off + cnt * (16 * units)) 32)) .seq)

/-- R164 to R168: the ring words and RCLAIM.cfg. -/
def Obligations.RingWordsAndConfiguration : Prop := RingWordsComplete ∧ RingConfiguration

/-- R169, R170: what each atomic operation writes, given the old value and its operands in the type, and the flag of
FADDB. -/
def Sys2Proof.Claims.AtomicFunctions : Prop :=
  ∀ (ty old v v2 : Nat), isFloatType ty = false →
    AtomOp.new ⟨0, ty, v, v2⟩ old = (some ((old + v) % 2 ^ typeBits ty), true)
    ∧ AtomOp.new ⟨1, ty, v, v2⟩ old = (some (old &&& v), true) ∧ AtomOp.new ⟨2, ty, v, v2⟩ old = (some (old ||| v), true)
    ∧ AtomOp.new ⟨3, ty, v, v2⟩ old = (some (old ^^^ v), true)
    ∧ (∃ x, AtomOp.new ⟨4, ty, v, v2⟩ old = (some x, true) ∧ (x = old ∨ x = v)
        ∧ (ITy.ofCode ty).read x = min ((ITy.ofCode ty).read old) ((ITy.ofCode ty).read v))
    ∧ (∃ x, AtomOp.new ⟨5, ty, v, v2⟩ old = (some x, true) ∧ (x = old ∨ x = v)
        ∧ (ITy.ofCode ty).read x = max ((ITy.ofCode ty).read old) ((ITy.ofCode ty).read v))
    ∧ AtomOp.new ⟨6, ty, v, v2⟩ old = (some v, true)
    ∧ AtomOp.new ⟨7, ty, v, v2⟩ old = (if old = v then some v2 else none, true)
    ∧ AtomOp.new ⟨8, ty, v, v2⟩ old = (some (if v ≤ old then 0 else old + 1), true)
    ∧ AtomOp.new ⟨9, ty, v, v2⟩ old = (some (if old = 0 ∨ v < old then v else old - 1), true)
    ∧ (old + v < 2 ^ typeBits ty → old + v ≤ v2 → AtomOp.new ⟨10, ty, v, v2⟩ old = (some (old + v), true))
    ∧ ((2 ^ typeBits ty ≤ old + v ∨ v2 < old + v) → AtomOp.new ⟨10, ty, v, v2⟩ old = (none, false))

/-- R169 to R174: an atomic reads its operand registers, releases first when FL says so, performs read and write as one
step in a scratchpad or at the level its scope selects, acquires when FL says so, and writes the old value, extended,
to D, FADDB its flag to D + 1. -/
def Sys2Proof.Claims.AtomicsComplete : Prop :=
  ∀ f i op pair s key e s0 v v2 addr s1 p s2 a s3 old s4 s5 t,
    (i, op, pair) ∈ [(Instr.atomAdd f, 0, false), (.atomAnd f, 1, false), (.atomOr f, 2, false), (.atomXor f, 3, false),
      (.atomMin f, 4, false), (.atomMax f, 5, false), (.atomExch f, 6, false), (.atomCas f, 7, true), (.atomIncw f, 8, false),
      (.atomDecw f, 9, false), (.atomFaddb f, 10, true)] →
    Starts i s key e s0 → s0.readReg f.d.toNat = .ok v → (if pair then s0.readReg (f.d.toNat + 1) else .ok 0) = .ok v2 →
    s0.memAddr f = .ok (addr, s1) →
    s1.access key { addr := addr, size := typeBytes f.ty.toNat, write := true, atomic := true, atomScope := f.rs.toNat,
                    align := typeBytes f.ty.toNat, scope := f.rs.toNat } = .ok (p, s2) →
    a = ⟨op, f.ty.toNat, v.toNat % 2 ^ (8 * typeBytes f.ty.toNat), v2.toNat % 2 ^ (8 * typeBytes f.ty.toNat)⟩ →
    (if f.fl.getLsbD 1 then s2.release key s0.curPart f.rs.toNat else .ok s2) = .ok s3 →
    ((∃ k off, p = .spad k off ∧ s3.spadAtomic key k off a addr = .ok (old, s4))
      ∨ ∃ loc, p = .line loc ∧ s3.lineAtomic key s0.curPart loc f.rs.toNat a (s3.identOf 0) = .ok (old, s4)) →
    (if f.fl.getLsbD 0 then s4.acquire key s0.curPart f.rs.toNat else s4).writeReg f.d.toNat
      (loadWord (if isFloatType f.ty.toNat then (if f.ty = 8 then 1 else 3) else f.ty.toNat)
        (leBytes (typeBytes f.ty.toNat) old)) = .ok s5 →
    (if op = 10 then s5.writeReg (f.d.toNat + 1) (if (a.new old).2 then 1 else 0) else .ok s5) = .ok t →
    Ends i s t .seq

/-- R171: an atomic on the own scratchpad gives the old value and stores the new one in the bytes it names, if it
writes, and no other byte. -/
def Sys2Proof.Claims.ScratchpadAtomics : Prop :=
  ∀ (s : State) (key off : Nat) (a : AtomOp) (addr : Word), (s.cell key).phase ≠ .clearing →
    (s.cell key).locked off (typeBytes a.ty) = false →
    ∃ t, s.spadAtomic key key off a addr = .ok (leNat (Memory.readN (s.cell key).spad off (typeBytes a.ty)), t)
      ∧ SameButCell s t key
      ∧ (∀ b, b < off ∨ off + typeBytes a.ty ≤ b → Memory.read (t.cell key).spad b = Memory.read (s.cell key).spad b)
      ∧ (∀ x, (a.new (leNat (Memory.readN (s.cell key).spad off (typeBytes a.ty)))).1 = some x →
          ∀ i, i < typeBytes a.ty → Memory.read (t.cell key).spad (off + i) = BitVec.ofNat 8 (x / 256 ^ i))
      ∧ ((a.new (leNat (Memory.readN (s.cell key).spad off (typeBytes a.ty)))).1 = none → t = s)

/-- R169 to R171: the atomics, their functions, and the atomics of a scratchpad.
Log entry it touches (notes/assumptions): 23. -/
def Obligations.AtomicWords : Prop := AtomicsComplete ∧ AtomicFunctions ∧ ScratchpadAtomics

/-- R176, R177: REL releases at its scope, ACQ acquires, PHASE does both; BAR releases and arrives, waits until every
participant has arrived as often or has executed END on A, and acquires. -/
def Sys2Proof.Claims.OrderingWordsComplete : Prop :=
  (∀ f s key e s0 t, Starts (.rel f) s key e s0 → s0.release key s0.curPart f.rs.toNat = .ok t → Ends (.rel f) s t .seq)
  ∧ (∀ f s key e s0, Starts (.acq f) s key e s0 → Ends (.acq f) s (s0.acquire key s0.curPart f.rs.toNat) .seq)
  ∧ (∀ f s key e s0 s1, Starts (.phase f) s key e s0 → s0.release key s0.curPart f.rs.toNat = .ok s1 →
      Ends (.phase f) s (s1.acquire key s1.curPart f.rs.toNat) .seq)
  ∧ (∀ f s key e s0 s1 s2 i node k, (i = .barDie f ∧ node = false ∨ i = .barNode f ∧ node = true) → Starts i s key e s0 →
      (s0.core.eng e).waitVal = none → s0.release key s0.curPart f.rs.toNat = .ok s1 → k = s1.core.barCount node + 1 →
      s2 = (s1.setCore (if node then { s1.core with barNode := k } else { s1.core with barDie := k })).modEng
        (fun g => { g with waitVal := some (BitVec.ofNat 64 k) }) →
      ((∀ x ∈ s2.participants node, x.2.engA.done = true ∨ k ≤ x.2.barCount node) →
        Ends i s (s2.acquire key s2.curPart f.rs.toNat) .seq)
      ∧ ((∃ x ∈ s2.participants node, x.2.engA.done = false ∧ x.2.barCount node < k) → Waits i s s2 12))

/-- R176: after an acquire at scope 1 or wider the cell's L1 holds dirty bytes only, and at scope 2 or wider the die's
copies of lines homed within the scope are gone; nothing else changes. -/
def Sys2Proof.Claims.AcquireDropsCopies : Prop :=
  ∀ (s : State) (key part scope : Nat) (t : State), t = s.acquire key part scope →
    t.mem = s.mem ∧ (∀ k, k ≠ key → FMap.find? t.cells k = FMap.find? s.cells k)
    ∧ (scope = 0 → t = s)
    ∧ (1 ≤ scope → (t.cell key).l1 = (s.cell key).l1.filter fun x => x.2.dirty)
    ∧ (t.cell key).spad = (s.cell key).spad ∧ (t.cell key).x = (s.cell key).x
    ∧ (∀ chip, chip ≠ keyChip key → t.die chip = s.die chip)
    ∧ (2 ≤ scope → ∀ loc, s.dropsLine (s.cell key) part scope loc = true → FMap.find? (t.die (keyChip key)).rdc loc = none)

/-- R176, R177, R309, R317: REL, ACQ, PHASE and BAR, and the copies an acquire drops. -/
def Obligations.OrderingWords : Prop := OrderingWordsComplete ∧ AcquireDropsCopies

/-- R196 to R200: the capability words: CAPOPEN gives the address of the slot's buffer; CAPGIVE moves the slot's
capability to a free slot of a successor, CAPDUP copies it with fewer rights and counts a reference, unless the count is
at its limit (0x44), CAPDROP empties the slot and takes a reference back, the last one's free waiting for the end of the
region instance; each keeps its identity (R300), by which a repetition in its region does nothing. -/
def Sys2Proof.Claims.CapabilityWordsComplete : Prop :=
  (∀ f s key e s0, Starts (.capopen f) s key e s0 →
    (∀ c t, s0.slot f.rs.toNat ≠ 0 → s0.checkSlot f.rs.toNat f.fl = .ok c → s0.dst f.d (s0.capAddr c) = .ok t →
      Ends (.capopen f) s t .seq)
    ∧ (s0.slot f.rs.toNat = 0 → (∀ k ∈ s0.myKept, k.slot = f.rs.toNat → k.emptied = false) →
        Raises (.capopen f) s { code := 0x43, aux := BitVec.ofNat 64 f.rs.toNat }))
  ∧ (∀ f s key e s0 a s1, Starts (.capgive f) s key e s0 → s0.src f.a (litVal 0 f.w1) = .ok (a, s1) →
    (s1.repeated = true → Ends (.capgive f) s s1 .seq)
    ∧ (∀ c d x y, s1.repeated = false → s1.checkSlot f.rs.toNat 2 = .ok c → s1.node? s1.curNode = some d →
        d.succs[a.toNat]? = some x → s1.node? x.succ = some y → FMap.get y.caps f.fl.toNat 0 = 0 →
        FMap.get y.capsIn f.fl.toNat 0 = 0 → f.fl.toNat ∉ y.reserved →
        Ends (.capgive f) s (((s1.modNode x.succ fun (z : Node) => { z with capsIn := FMap.set z.capsIn f.fl.toNat c 0 }).setSlot
          s1.curNode f.rs.toNat 0).keep f.rs.toNat c true false) .seq))
  ∧ (∀ f s key e s0 a s1, Starts (.capdup f) s key e s0 → s0.src f.a (litVal 0 f.w1) = .ok (a, s1) →
    (s1.repeated = true → Ends (.capdup f) s s1 .seq)
    ∧ (∀ c b, s1.repeated = false → s1.checkSlot f.rs.toNat 0 = .ok c → s1.slot f.fl.toNat = 0 → s1.buf? (capId c) = some b →
        b.refs ≠ 2 ^ 32 - 1 →
        Ends (.capdup f) s (((s1.setSlot s1.curNode f.fl.toNat (capStrip c (a.setWidth 4))).addRef (capId c)).keep
          f.rs.toNat c false false) .seq)
    ∧ (∀ c, s1.repeated = false → s1.checkSlot f.rs.toNat 0 = .ok c → s1.slot f.fl.toNat ≠ 0 →
        Raises (.capdup f) s { code := 0x45, aux := BitVec.ofNat 64 f.rs.toNat })
    ∧ (∀ c b, s1.repeated = false → s1.checkSlot f.rs.toNat 0 = .ok c → s1.slot f.fl.toNat = 0 → s1.buf? (capId c) = some b →
        b.refs = 2 ^ 32 - 1 → Raises (.capdup f) s { code := 0x44, aux := BitVec.ofNat 64 f.rs.toNat }))
  ∧ (∀ f s key e s0, Starts (.capdrop f) s key e s0 →
    (s0.repeated = true → Ends (.capdrop f) s s0 .seq)
    ∧ (∀ c s1 b, s0.repeated = false → s0.checkSlot f.rs.toNat 0 = .ok c → s1 = s0.setSlot s0.curNode f.rs.toNat 0 →
        s1.buf? (capId c) = some b →
        ((b.refs ≤ 1 ∧ s1.myKept.length < 256) → Ends (.capdrop f) s
          ((s1.modBuf (capId c) fun (z : Buffer) => { z with refs := 0 }).keep f.rs.toNat c true true) .seq)
        ∧ (∀ t, b.refs ≤ 1 → 256 ≤ s1.myKept.length → t = s1.modBuf (capId c) (fun z => { z with refs := 0 }) →
            Ends (.capdrop f) s { t with heldFrees := (t.identOf 0, capId c) :: t.heldFrees } .seq)
        ∧ (2 ≤ b.refs → Ends (.capdrop f) s ((s1.dropRef (capId c)).keep f.rs.toNat c true false) .seq)))

/-- R196: what a capability word checks on its slot, in this order: an empty one raises 0x43, missing rights 0x41, another
generation than the buffer's 0x42, each with the slot in AUX. -/
def Sys2Proof.Claims.SlotsAreChecked : Prop :=
  ∀ (s : State) (n : Nat) (rights : BitVec 4),
    (s.slot n = 0 → s.checkSlot n rights = raiseSlot 0x43 n)
    ∧ (s.slot n ≠ 0 → capRights (s.slot n) &&& rights ≠ rights → s.checkSlot n rights = raiseSlot 0x41 n)
    ∧ (∀ b, s.slot n ≠ 0 → capRights (s.slot n) &&& rights = rights → s.buf? (capId (s.slot n)) = some b →
        b.gen ≠ capGen (s.slot n) → s.checkSlot n rights = raiseSlot 0x42 n)
    ∧ (∀ c, s.checkSlot n rights = .ok c → c = s.slot n ∧ c ≠ 0 ∧ capRights c &&& rights = rights
        ∧ ∃ b, s.buf? (capId c) = some b ∧ b.gen = capGen c ∧ b.ctx = s.nodeCtx s.curNode)

/-- R196 to R200, R300: the words on capability slots and their checks.
Log entry it touches (notes/assumptions): 105. -/
def Obligations.CapabilitiesAndSlots : Prop := CapabilityWordsComplete ∧ SlotsAreChecked

/-- R180, R300: PUBLISH on a buffer with two backings releases at GLOBAL and exchanges them; on another buffer it raises
0x41; performed again in its region instance it releases and exchanges nothing.
Log entry it touches (notes/assumptions): 105. -/
def Obligations.PublishCompletes : Prop :=
  (∀ f s key e s0 c b, Starts (.publish f) s key e s0 → s0.repeated = false → s0.checkSlot f.rs.toNat 1 = .ok c →
    s0.buf? (capId c) = some b →
    (b.double = false → Raises (.publish f) s { code := 0x41, aux := BitVec.ofNat 64 f.rs.toNat })
    ∧ (∀ s1, b.double = true → s0.release key s0.curPart 5 = .ok s1 →
        Ends (.publish f) s (((s1.publishBuffer (capId c)).noteExchange (capId c) (keyChip key) (some key)).keep
          f.rs.toNat c false false) .seq))
  ∧ (∀ f s key e s0 s1 k b, Starts (.publish f) s key e s0 → s0.repeated = true → s0.release key s0.curPart 5 = .ok s1 →
    s1.myKept.find? (fun x => x.id == s1.identOf 0) = some k → s1.buf? (capId k.cap) = some b →
    Ends (.publish f) s (s1.tlbInv allChips b.ctx b.va b.len) .seq)

/-- R181, R182, R185: an asynchronous command of A waits while 64 are accepted and not complete; otherwise it reads D, A
and B, claims the slot of the ring it will commit to, takes its tile record, and is accepted: a job with those operands
and no element performed, behind the others, while A goes on. -/
def Sys2Proof.Claims.AsyncWordsAreAccepted : Prop :=
  ∀ f i th s key e s0, (i, th) ∈ [(Instr.copy f, false), (.copyThIn f, true), (.copyThOut f, true), (.copym f, true),
      (.gather f, true), (.scatter f, true), (.prefetch f, f.fl.getLsbD 1)] → Starts i s key e s0 →
    (64 ≤ (s0.core.jobsOf e).length → exec i s = .next (s.modEng fun g => { g with reason := 12 }))
    ∧ (∀ d a b s1 s2 s3 j j0, (s0.core.jobsOf e).length < 64 → s0.src f.d (litVal f.ty.toNat f.w1) = .ok (d, s1) →
        s1.src f.a (litVal f.ty.toNat f.w1) = .ok (a, s2) → s2.src f.b (litVal f.ty.toNat f.w1) = .ok (b, s3) →
        j = { s3.newJob f.hdr i with vd := d, va := a, vb := b } →
        (extCmt (extOf f.w1) = none ∧ j0 = j ∨ ∃ n w, extCmt (extOf f.w1) = some n ∧ s3.owedSlot n = .ok w
          ∧ j0 = { j with cmt := some n, slot := w.toNat }) →
        (th = false → ∃ l, Ends i s (s3.accept { j0 with locks := l }) .seq)
        ∧ (∀ j1 s4, th = true → s3.takeRecord key j0 (extTh (extOf f.w1)) = .ok (j1, s4) →
            ∃ l, Ends i s (s4.accept { j1 with locks := l }) .seq))
    ∧ (∀ j, (s0.accept j).core.jobs = s0.core.jobs ++ [j])

/-- R194, R290: THFENCE releases and drops the records of the object, of one handle or of all, from the caches of the dies
in its scope, and completes at issue; its completion token goes to the counter or the completion queue, and while neither
takes it the word waits with everything else done. -/
def Sys2Proof.Claims.ThfenceCompletes : Prop :=
  ∀ f s key e s0 s1 obj, Starts (.thfence f) s key e s0 → (s0.core.jobsOf e).length < 64 →
    s0.release key s0.curPart (if f.rs = 5 then 5 else 1) = .ok s1 →
    obj = (match s1.node? s1.curNode with | some d => d.kobj | none => 0) →
    ∃ t : State, { t with dies := s1.dies } = s1
      ∧ (∀ chip, (t.die chip).tileCache = if chip ∈ s1.scopeChips f.rs.toNat then
          (s1.die chip).tileCache.filter fun x => !(x.1 == obj && (f.fl.getLsbD 0 || x.2.1 == extTh (extOf f.w1)))
        else (s1.die chip).tileCache)
      ∧ ((∀ g, f.hdr.sig = some g → g.done = false) → Ends (.thfence f) s t .seq)
      ∧ (∀ g, f.hdr.sig = some g → g.done = true →
          (∀ c, t.core.completeTok ⟨g.eng, g.cnt⟩ (some s.tick) = some c → Ends (.thfence f) s (t.setCore c) .seq)
          ∧ (t.core.completeTok ⟨g.eng, g.cnt⟩ (some s.tick) = none →
              Waits (.thfence f) s (t.modEng fun x => { x with waitVal := some 1 }) 12))

/-- R181, R182, R185, R186, R194: asynchronous words are accepted, and THFENCE.
Log entry it touches (notes/assumptions): 27. -/
def Obligations.AsyncWordsAndFence : Prop := AsyncWordsAreAccepted ∧ ThfenceCompletes

/-- R184, R264, R311: a turn of a job performs the next step of its next element: where its shard runs, its engine's order
admits it and neither a cause nor a page request holds it, the step's effect happens and the job notes how far it came; a
cause becomes a fault of the element, below which every element is performed; behind the last element the job is
finished. -/
def Sys2Proof.Claims.ElementsArePerformed : Prop :=
  (∀ (s u : State) (key id : Nat) (j : Job) (p : Plan), (s.cell key).job? id = some j →
    ((s.cell key).phase = .running ∨ (s.cell key).phase = .halted) → j.dead (s.cell key) = false → j.finished = false →
    (s.faults.find? fun r => r.cell == key && r.job == some id) = none → (s.cell key).mayPerform j = true →
    j.early = none → j.late = none → u = { s with actor := some (.job key id 0 []) } → p = u.plan key j → p.prep.isNone = true →
    (∀ r, j.next = 0 → j.part = [] → p.check = some r →
      exec (.accessPerformed (.element key id)) s = .next { u.jobCause key j r with actor := s.actor })
    ∧ ((j.next ≠ 0 ∨ j.part ≠ [] ∨ p.check.isNone = true) →
      (∀ t q, j.next < p.count → p.elem j.next j.part u = .ok (t, q) →
        exec (.accessPerformed (.element key id)) s = .next { u.jobMoved key j t q with actor := s.actor })
      ∧ (∀ r, j.next < p.count → p.elem j.next j.part u = .error (.cause r none) →
        exec (.accessPerformed (.element key id)) s = .next { (u.laterElems key j p).jobCause key j r with actor := s.actor })
      ∧ (∀ t, p.count ≤ j.next → j.sent = false → p.finish u = .ok t →
        exec (.accessPerformed (.element key id)) s = .next
          { (t.modJob key j.id fun (x : Job) => { x with finished := true }).jobDone key j.id with actor := s.actor })))
  ∧ (∀ (s t : State) (key : Nat) (j : Job),
      ((s.jobMoved key j t none).cell key).jobs = (t.cell key).jobs.map (fun x =>
        if x.id = j.id then { x with next := x.next + 1, part := [], hit := 0, bank := none } else x)
      ∧ (∀ q, ∀ x ∈ ((s.jobMoved key j t (some q)).cell key).jobs, x.id = j.id → x.part = q)
      ∧ (inOrder j.ins = true → s.laterElems key j (s.plan key j) = s)
      ∧ ∀ r, trapClass r.code = false → s.jobCause key j r = s.setCell key { s.cell key with
          fatals := (s.tick, { r.at_ j.eng j.pc j.pos with celem := some (r.celem.getD j.next) }) :: (s.cell key).fatals })

/-- R188: an element of a COPY is the part of a 64-byte granule of the source that the range covers: its bytes go to the
same distance from D; a range above 2^32 bytes, or one that overlaps its destination, raises 0xA2 at element 0: a range is cut
where another window takes it, and LOCAL and DIE pieces are compared by the scratchpads they reach. -/
def Sys2Proof.Claims.CopyPlan : Prop :=
  (∀ (s : State) (key : Nat) (j : Job) (f : Rrr) (k lo hi : Nat) (q : List Nat),
    lo = (if k = 0 then 0 else 64 * k - j.va.toNat % 64) → hi = min j.vb.toNat (64 * (k + 1) - j.va.toNat % 64) →
    (s.copyPlan key j f).elem k q s = ((s.jobRead key j false (f.fl.getLsbD 1) (j.va + BitVec.ofNat 64 lo) (hi - lo)).bind
        (fun x => x.2.jobWrite key j .element (f.fl.getLsbD 1) (j.vd + BitVec.ofNat 64 lo) x.1)).map (fun t => (t, none))
    ∧ (∀ b, b < j.vb.toNat → ∃ k', k' < (s.copyPlan key j f).count
        ∧ (if k' = 0 then 0 else 64 * k' - j.va.toNat % 64) ≤ b ∧ b < 64 * (k' + 1) - j.va.toNat % 64)
    ∧ (2 ^ 32 < j.vb.toNat → ∃ r, (s.copyPlan key j f).check = some r ∧ r.code = 0xA2)
    ∧ (j.vb.toNat ≤ 2 ^ 32 → ((∃ r, (s.copyPlan key j f).check = some r ∧ r.code = 0xA2) ↔
        ∃ x ∈ s.reached key j.va j.vb.toNat, ∃ y ∈ s.reached key j.vd j.vb.toNat, x.1 = y.1 ∧ x.2.1 < y.2.2 ∧ y.2.1 < x.2.2)))
  ∧ (∀ (s : State) (key n off : Nat) (a : Word) (ws : List Word), ws = s.apers (s.nodeCtx (s.cell key).node) → n ≠ 0 →
      addrVa a + n ≤ nextEdge ws (addrVa a) →
      (windowOf ws (addrVa a) = some (0, off) → off + n ≤ spadBytes →
        s.reached key a n = [(0, keyCell key * spadBytes + off, keyCell key * spadBytes + off + n)])
      ∧ (windowOf ws (addrVa a) = some (1, off) → s.reached key a n = [(0, off, off + n)])
      ∧ (windowOf ws (addrVa a) = some (2, off) → s.reached key a n = [(2, off, off + n)])
      ∧ (windowOf ws (addrVa a) = some (3, off) → s.reached key a n = [(3, addrVa a, addrVa a + n)]))
  ∧ (∀ (s : State) (key n : Nat) (a : Word) (ws : List Word), ws = s.apers (s.nodeCtx (s.cell key).node) →
      nextEdge ws (addrVa a) < addrVa a + n → addrVa a < nextEdge ws (addrVa a) →
      ∃ rest, s.reached key a n
        = spanReach key (addrVa a, nextEdge ws (addrVa a) - addrVa a, windowOf ws (addrVa a)) :: rest ∧ rest ≠ [])

/-- R184, R188, R311: what performs the elements of asynchronous work, and what a copy moves. -/
def Obligations.ElementsAndCopies : Prop := ElementsArePerformed ∧ CopyPlan

/-! ## Vector words of X (R202 to R241) -/

namespace Sys2Proof.Claims

/-- The TYPE codes that an X form has a view for (R203). -/
abbrev VType (ty : BitVec 4) : Prop := ty.toNat ≤ 5 ∨ 8 ≤ ty.toNat ∧ ty.toNat ≤ 11
/-- Those of the integer words, and those of the floating words (R203, R208, R212). -/
abbrev IType (ty : BitVec 4) : Prop := ty.toNat ≤ 5
abbrev FType (ty : BitVec 4) : Prop := 8 ≤ ty.toNat ∧ ty.toNat ≤ 11

/-- An X word may issue and starts in a state: no write of VROT by C is owed before it (R232). -/
def StartsX (i : Instr) (s : State) (key : Nat) (s0 : State) : Prop :=
  Starts i s key .x s0 ∧ s0.owes .c Instr.writesVrot = false

/-- The bits of an element of the word's TYPE, and the elements of a row. -/
def ebits (f : Rrr) : Nat := typeBits f.ty.toNat
def erow (f : Rrr) : Nat := 2048 / ebits f

/-- The IEEE format of the word's TYPE. -/
def ffmt (f : Rrr) : FFmt := fmtOf f.ty.toNat

/-- The mask bit of element `i` of a view of `w`-bit elements: that of the first 16-bit element it covers (R54). -/
def masked (c : Cell) (k w i : Nat) : Bool := (c.kreg k).getLsbD (i * (w / 16))

/-- A form on A, B and the old D: reading both, it writes the function of each triple of elements under the mask. -/
def VTernary (ok : BitVec 4 → Prop) (i : Rrr → Instr) (fn : Rrr → Nat → Nat → Nat → Nat × Flags) : Prop :=
  ∀ f s key s0 a b t rs, StartsX (i f) s key s0 → ok f.ty →
    VReadsTwo s0 f.a f.b (ebits f) (litVal f.ty.toNat f.w1) a b t → rs.length = elemCount (ebits f) →
    (∀ j, j < elemCount (ebits f) → rs.getD j (0, 0)
      = fn f (a.getD j 0) (b.getD j 0) ((t.core.velems (ebits f) (t.core.vphys f.d.toNat)).getD j 0)) →
    Ends (i f) s (t.putV f (ebits f) rs) .seq

/-- A form on A alone. -/
def VUnary (ok : BitVec 4 → Prop) (i : Rrr → Instr) (fn : Rrr → Nat → Nat × Flags) : Prop :=
  ∀ f s key s0 a t, StartsX (i f) s key s0 → ok f.ty →
    s0.vsrc f.a (ebits f) (litVal f.ty.toNat f.w1) = .ok (a, t) →
    Ends (i f) s (t.putV f (ebits f) (a.map (fn f))) .seq

/-- A comparison into mask D: the bits an element covers are set where it is active and the condition holds, and
clear elsewhere; a write of k0 is discarded (R54, R210). -/
def VCompare (ok : BitVec 4 → Prop) (i : Rrr → Instr) (fn : Rrr → Nat → Nat → Bool × Flags) : Prop :=
  ∀ f s key s0 a b t bits, StartsX (i f) s key s0 → ok f.ty →
    (s0.core.stageOpen = true → f.d.toNat < 8) →
    VReadsTwo s0 f.a f.b (ebits f) (litVal f.ty.toNat f.w1) a b t →
    (∀ j, j < 2048 → bits.getLsbD j = (masked t.core f.fl.toNat (ebits f) (j / (ebits f / 16))
      && (fn f (a.getD (j / (ebits f / 16)) 0) (b.getD (j / (ebits f / 16)) 0)).1)) →
    ∃ fl, Ends (i f) s (t.setCore ((t.core.setK f.d.toNat bits).raiseFp fl)) .seq
      ∧ ∀ n, n < 6 → (fl.getLsbD n = true ↔ ∃ j, j < elemCount (ebits f) ∧ masked t.core f.fl.toNat (ebits f) j = true
          ∧ (fn f (a.getD j 0) (b.getD j 0)).2.getLsbD n = true)

/-- A mask form: all 2,048 bits (R215). -/
def VMask (i : Rrr → Instr) (fn : Bool → Bool → Bool) : Prop :=
  ∀ f s key s0 bits, Starts (i f) s key .x s0 →
    ((s0.core.stageOpen = true → f.d.toNat < 8) →
      (∀ j, j < 2048 → bits.getLsbD j = fn ((s0.core.kreg f.a.toNat).getLsbD j) ((s0.core.kreg f.b.toNat).getLsbD j)) →
      Ends (i f) s (s0.setCore (s0.core.setK f.d.toNat bits)) .seq)
    ∧ (s0.core.stageOpen = true → 8 ≤ f.d.toNat → Raises (i f) s { code := 0x05 })

/-- An axis move with a count: element (row, e) of D comes from the element of A that `fn` names (R218). -/
def VMove (i : Rrr → Instr) (fn : Nat → Nat → Nat → Nat → Nat × Nat) : Prop :=
  ∀ f s key s0 a s1 c t rs, StartsX (i f) s key s0 → VType f.ty →
    s0.vsrc f.a (ebits f) (litVal f.ty.toNat f.w1) = .ok (a, s1) → s1.src f.b (litZ f.w1) = .ok (c, t) →
    rs.length = 16 * erow f →
    (∀ row e, row < 16 → e < erow f → rs.getD (row * erow f + e) (0, 0)
      = (a.getD ((fn (erow f) c.toNat row e).1 * erow f + (fn (erow f) c.toNat row e).2) 0, 0)) →
    Ends (i f) s (t.putV f (ebits f) rs) .seq

/-- The active elements of a row, or of a column, of a register. -/
def line (f : Rrr) (c : Cell) (a : List Nat) (rows : Bool) (k : Nat) : List Nat :=
  ((List.range (16 * erow f)).filter fun i =>
    masked c f.fl.toNat (ebits f) i && (if rows then i / erow f == k else i % erow f == k)).map fun i => a.getD i 0

/-- A reduction: every element of D along the line takes the reduction of the line's active elements (R219). -/
def VReduce (i : Rrr → Instr) (rows : Bool) : Prop :=
  ∀ f s key s0 a t rs fl (red : List Nat → Nat × Flags), StartsX (i f) s key s0 → VType f.ty →
    s0.vsrc f.a (ebits f) (litVal f.ty.toNat f.w1) = .ok (a, t) →
    red = (fun xs => if isFloatType f.ty.toNat then (fmtOf f.ty.toNat).reduce f.rs.toNat xs
      else ((ITy.ofCode f.ty.toNat).reduce f.rs.toNat xs, 0)) →
    rs.length = 16 * erow f →
    (∀ row e, row < 16 → e < erow f →
      rs.getD (row * erow f + e) 0 = (red (line f t.core a rows (if rows then row else e))).1) →
    fl = ((List.range (if rows then 16 else erow f)).map fun k => (red (line f t.core a rows k)).2).foldl (· ||| ·) 0 →
    Ends (i f) s (t.setCore ((t.core.writeV f.d (ebits f) 0 rs).raiseFp fl)) .seq

/-- The points of lane `i` of a predicate: register A + d × k + j holds coordinate j of point k (R233). -/
def points (f : Rrr) (c : Cell) (d pts i : Nat) : List (List Val) :=
  (List.range pts).map fun k => (List.range d).map fun j =>
    (fmtOf f.ty.toNat).decode ((c.velems (ebits f) (c.vphys (f.a.toNat + d * k + j))).getD i 0)

/-- The indices of the points of lane `i`, behind the points (R233). -/
def indices (f : Rrr) (c : Cell) (d pts i : Nat) : List Int :=
  (List.range pts).map fun k => toSigned (ebits f) ((c.velems (ebits f) (c.vphys (f.a.toNat + d * pts + k))).getD i 0)

/-- Every coordinate of a lane is finite. -/
def Finite (pts : List (List Val)) : Prop := ∀ p ∈ pts, ∀ v ∈ p, v.isFin = true

/-- The mask B after a predicate: set where an active lane's result is non-zero. -/
def nonZeroMap (f : Rrr) (c : Cell) (rs : List (Int × Nat)) : BitVec 2048 :=
  maskOf (ebits f) ((List.range (elemCount (ebits f))).map fun i => masked c f.fl.toNat (ebits f) i && (rs.getD i (0, 0)).1 != 0)

/-- A predicate word (R233, R237, R241): where every active lane can be decided, D takes each active lane's result, B
the non-zero map, PSTAGE and PSLANE the stages; a non-finite coordinate of an active lane raises 0x65 without .nfq, and
equal indices under .sos 0x66, with the first such lane's place. -/
def VPredicate (i : Rrr → Instr) (d pts : Nat) (dec : Bool → List (List Val) → Option (List Int) → Int × Nat) : Prop :=
  ∀ f s key s0, StartsX (i f) s key s0 → (f.ty = 8 ∨ f.ty = 9) → (s0.core.stageOpen = true → f.b.toNat < 8) →
    (∀ rs : List (Int × Nat), rs.length = elemCount (ebits f) →
      (∀ l, l < elemCount (ebits f) →
        (masked s0.core f.fl.toNat (ebits f) l = false → rs.getD l (0, 0) = (0, 0))
        ∧ (masked s0.core f.fl.toNat (ebits f) l = true →
          (Finite (points f s0.core d pts l) ∧ (f.rs.getLsbD 0 = true → (indices f s0.core d pts l).Nodup)
            ∧ rs.getD l (0, 0) = dec (f.ty == 8) (points f s0.core d pts l)
                (if f.rs.getLsbD 0 then some (indices f s0.core d pts l) else none))
          ∨ (¬ Finite (points f s0.core d pts l) ∧ f.rs.getLsbD 1 = true ∧ rs.getD l (0, 0) = (-128, 0)))) →
      ∃ t : State, Ends (i f) s t .seq ∧ SameButCell s0 t key
        ∧ (∃ st n pl, t.core = { ((s0.core.writeV f.d (ebits f) f.fl.toNat (rs.map fun r => wrapNat (ebits f) r.1)).setK
              f.b.toNat (nonZeroMap f s0.core rs)) with pstg := st, pnc := n, pslane := pl })
        ∧ (∀ r ∈ rs, r.2 ≤ t.core.pstg) ∧ (t.core.pstg = 0 ∨ ∃ r ∈ rs, r.2 = t.core.pstg)
        ∧ (∀ j, j < 1024 → t.core.pslane.getLsbD j = ((rs.getD (j / (ebits f / 32)) (0, 0)).2 == 3))
        ∧ t.core.pnc = ((List.range 1024).filter fun j => t.core.pslane.getLsbD j).length)
    ∧ (∀ l, l < elemCount (ebits f) → masked s0.core f.fl.toNat (ebits f) l = true →
      (∀ j, j < l → masked s0.core f.fl.toNat (ebits f) j = true → Finite (points f s0.core d pts j)
        ∧ (f.rs.getLsbD 0 = true → (indices f s0.core d pts j).Nodup)) →
      (¬ Finite (points f s0.core d pts l) → f.rs.getLsbD 1 = false → Raises (i f) s
        { code := 0x65, view := viewCode (ebits f), row := l / erow f, elem := l % erow f })
      ∧ (Finite (points f s0.core d pts l) → f.rs.getLsbD 0 = true → ¬ (indices f s0.core d pts l).Nodup → Raises (i f) s
        { code := 0x66, view := viewCode (ebits f), row := l / erow f, elem := l % erow f }))

end Sys2Proof.Claims

/-- R53: the register that an operand code names under a rotating window, and how advancing OFF shifts the names. -/
def Sys2Proof.Claims.WindowsRotate : Prop :=
  ∀ (c : Cell) (n : Nat),
    ((c.vrotSize = 0 ∨ n < c.vrotBase ∨ c.vrotBase + c.vrotSize ≤ n) → c.vphys n = n)
    ∧ (c.vrotSize ≠ 0 → c.vrotBase ≤ n → n < c.vrotBase + c.vrotSize →
      (c.vphys n : Int) = c.vrotBase + ((n - c.vrotBase - c.vrotOff : Int) % (c.vrotSize : Int))
      ∧ (n + 1 < c.vrotBase + c.vrotSize → ({ c with vrotOff := c.vrotOff + 1 } : Cell).vphys (n + 1) = c.vphys n))

/-- R51 to R54, R205: results under a mask: an active element of D takes its result, an inactive one keeps its old bits,
no other vector register and nothing else changes, and FPSTAT takes up the flags of the active elements and no other. -/
def Obligations.VectorResultsUnderMask : Prop :=
  WindowsRotate ∧ ∀ (s : State) (key : Nat) (f : Rrr) (rs : List (Nat × Flags)) (q : Nat) (t : State), s.cur = .cell key .x →
    VType f.ty → rs.length = elemCount (ebits f) → (∀ r ∈ rs, r.1 < 2 ^ ebits f) →
    q = s.core.vphys f.d.toNat → t = s.putV f (ebits f) rs →
    (∀ i, i < elemCount (ebits f) → (t.core.velems (ebits f) q).getD i 0
      = if masked s.core f.fl.toNat (ebits f) i then (rs.getD i (0, 0)).1 else (s.core.velems (ebits f) q).getD i 0)
    ∧ (∀ p, p ≠ q → t.core.vlanes p = s.core.vlanes p)
    ∧ (∀ n, n < 6 → (t.core.fpstat.getLsbD n = true ↔ s.core.fpstat.getLsbD n = true
        ∨ ∃ i, i < elemCount (ebits f) ∧ masked s.core f.fl.toNat (ebits f) i = true ∧ (rs.getD i (0, 0)).2.getLsbD n = true))
    ∧ (∃ v fp now, t = s.setCore { s.core with v := v, fpstat := fp, nowFp := now })

/-- R208, R209: the floating words: the exact result of the elements, read in TYPE, rounded once under RS. -/
def Sys2Proof.Claims.FloatWordsComplete : Prop :=
  VTernary FType .fadd (fun f a b _ => (ffmt f).add f.rs.toNat ((ffmt f).decode a) ((ffmt f).decode b))
  ∧ VTernary FType .fsub (fun f a b _ => (ffmt f).add f.rs.toNat ((ffmt f).decode a) ((ffmt f).decode b).negate)
  ∧ VTernary FType .fmul (fun f a b _ => (ffmt f).mul f.rs.toNat ((ffmt f).decode a) ((ffmt f).decode b))
  ∧ VTernary FType .fdiv (fun f a b _ => (ffmt f).div f.rs.toNat ((ffmt f).decode a) ((ffmt f).decode b))
  ∧ VTernary FType .fma (fun f a b d => (ffmt f).fma f.rs.toNat ((ffmt f).decode a) ((ffmt f).decode b) ((ffmt f).decode d))
  ∧ VTernary FType .fms (fun f a b d => (ffmt f).fma f.rs.toNat ((ffmt f).decode a) ((ffmt f).decode b) ((ffmt f).decode d).negate)
  ∧ VTernary FType .fmin (fun f a b _ => ((ffmt f).minMax false a b, snanFlag ((ffmt f).decode a) ((ffmt f).decode b)))
  ∧ VTernary FType .fmax (fun f a b _ => ((ffmt f).minMax true a b, snanFlag ((ffmt f).decode a) ((ffmt f).decode b)))
  ∧ VUnary FType .fsqrt (fun f a => (ffmt f).sqrt f.rs.toNat ((ffmt f).decode a))
  ∧ VUnary FType .fabs (fun f a => (a % 2 ^ (ebits f - 1), 0))
  ∧ VUnary FType .fneg (fun f a => (a ^^^ 2 ^ (ebits f - 1), 0))
  ∧ VCompare FType .fcmp (fun f a b => floatCmp f.rs.toNat ((ffmt f).decode a) ((ffmt f).decode b))

/-- R20 to R24, R208: rounding a positive number num / den × 2^sh to a multiple of one under each attribute, and the
exceptional operands of the floating words: invalid ones give qnan and NV, a finite number over zero an infinity and DZ,
the root of -0 is -0. -/
def Sys2Proof.Claims.RoundingAndExceptions : Prop :=
  (∀ mode neg num den k nx, 0 < den → roundAt mode neg num den 0 0 = (k, nx) →
    (nx = true ↔ num % den ≠ 0)
    ∧ (mode = 1 → k = num / den)
    ∧ (mode = 2 → neg = false → k = num / den) ∧ (mode = 3 → neg = true → k = num / den)
    ∧ (mode = 2 → neg = true → k = (num + (den - 1)) / den) ∧ (mode = 3 → neg = false → k = (num + (den - 1)) / den)
    ∧ (mode = 0 → 2 * k * den ≤ 2 * num + den ∧ 2 * num ≤ 2 * k * den + den
        ∧ ((2 * k * den = 2 * num + den ∨ 2 * num = 2 * k * den + den) → k % 2 = 0))
    ∧ (mode = 4 → 2 * k * den ≤ 2 * num + den ∧ 2 * num < 2 * k * den + den))
  ∧ ∀ (t : FFmt) (mode : Nat) (na nb : Bool) (ma mb : Nat) (ea eb : Int) (v : Val),
    t.add mode (.inf na) (.inf (!na)) = (t.qnan, flagNV) ∧ t.add mode (.inf na) (.inf na) = (t.inf na, 0)
    ∧ t.mul mode (.fin na 0 ea) (.inf nb) = (t.qnan, flagNV) ∧ t.mul mode (.inf na) (.fin nb 0 eb) = (t.qnan, flagNV)
    ∧ t.div mode (.fin na 0 ea) (.fin nb 0 eb) = (t.qnan, flagNV) ∧ t.div mode (.inf na) (.inf nb) = (t.qnan, flagNV)
    ∧ (ma ≠ 0 → t.div mode (.fin na ma ea) (.fin nb 0 eb) = (t.inf (na != nb), flagDZ))
    ∧ t.sqrt mode (.fin na 0 ea) = (t.zero na, 0) ∧ (ma ≠ 0 → t.sqrt mode (.fin true ma ea) = (t.qnan, flagNV))
    ∧ t.sqrt mode (.inf true) = (t.qnan, flagNV)
    ∧ t.fma mode (.fin na 0 ea) (.inf nb) v = (t.qnan, flagNV)
    ∧ t.add mode (.nan true) (.fin nb mb eb) = (t.qnan, flagNV) ∧ t.add mode (.nan false) (.fin nb mb eb) = (t.qnan, 0)
    ∧ t.mul mode (.nan true) (.fin nb mb eb) = (t.qnan, flagNV) ∧ t.mul mode (.nan false) (.fin nb mb eb) = (t.qnan, 0)

/-- R20 to R24, R208, R209: the floating words, rounding, and the exceptional operands. -/
def Obligations.FloatWordsAndRounding : Prop := FloatWordsComplete ∧ RoundingAndExceptions

/-- An element read as an integer in TYPE, and an integer as an element (R114). -/
def Sys2Proof.Claims.rd (f : Rrr) (a : Nat) : Int := (ity f).read a
def Sys2Proof.Claims.md (f : Rrr) (z : Int) : Nat := (z % (2 : Int) ^ (ity f).w).toNat

/-- The integer comparisons by RS (R213). -/
def Sys2Proof.Claims.compared (f : Rrr) (a b : Int) : Bool :=
  match f.rs.toNat with
  | 0 => decide (a = b) | 1 => decide (a ≠ b) | 2 => decide (a < b) | 3 => decide (a ≤ b) | 4 => decide (b < a)
  | _ => decide (b ≤ a)

/-- R212, R213: the integer words, per element of w bits: the exact function of the elements read in TYPE, modulo 2^w;
the bitwise words; the shifts by the element of B modulo w; the comparisons by RS. They set no flag. -/
def Obligations.IntegerVectorWordsComplete : Prop :=
  VTernary IType .iadd (fun f a b _ => (md f (rd f a + rd f b), 0)) ∧ VTernary IType .isub (fun f a b _ => (md f (rd f a - rd f b), 0))
  ∧ VTernary IType .imul (fun f a b _ => (md f (rd f a * rd f b), 0))
  ∧ VTernary IType .imulh (fun f a b _ => (md f (Int.fdiv (rd f a * rd f b) ((2 : Int) ^ (ity f).w)), 0))
  ∧ VTernary IType .imin (fun f a b _ => (md f (min (rd f a) (rd f b)), 0))
  ∧ VTernary IType .imax (fun f a b _ => (md f (max (rd f a) (rd f b)), 0))
  ∧ VTernary IType .iand (fun _ a b _ => (a &&& b, 0)) ∧ VTernary IType .ior (fun _ a b _ => (a ||| b, 0))
  ∧ VTernary IType .ixor (fun _ a b _ => (a ^^^ b, 0))
  ∧ VTernary IType .ishl (fun f a b _ => (a * 2 ^ (b % (ity f).w) % 2 ^ (ity f).w, 0))
  ∧ VTernary IType .ishr (fun f a b _ => (a / 2 ^ (b % (ity f).w), 0))
  ∧ VTernary IType .ishra (fun f a b _ => (md f (Int.fdiv (toSigned (ity f).w a) ((2 : Int) ^ (b % (ity f).w))), 0))
  ∧ VUnary IType .iabs (fun f a => (md f ((rd f a).natAbs : Int), 0))
  ∧ VCompare IType .icmp (fun f a b => (compared f (rd f a) (rd f b), 0))

/-- R214 to R220, R230: selection, the mask words, of which k0 reads as all ones and keeps it, moves along the axes,
reductions, the transposition and ROT.BASE. -/
def Obligations.MasksAndMovesComplete : Prop :=
  (∀ f s key s0 a b t es, StartsX (.vsel f) s key s0 → VType f.ty →
      VReadsTwo s0 f.a f.b (ebits f) (litVal f.ty.toNat f.w1) a b t → es.length = elemCount (ebits f) →
      (∀ i, i < elemCount (ebits f) → es.getD i 0
        = if masked t.core f.fl.toNat (ebits f) i then a.getD i 0 else b.getD i 0) →
      Ends (.vsel f) s (t.setCore (t.core.writeV f.d (ebits f) 0 es)) .seq)
  ∧ VMask .kand (fun a b => a && b) ∧ VMask .kor (fun a b => a || b) ∧ VMask .kxor (fun a b => a != b)
  ∧ VMask .knot (fun a _ => !a)
  ∧ (∀ (c : Cell) (b : BitVec 2048), c.kreg 0 = BitVec.allOnes 2048 ∧ c.setK 0 b = c)
  ∧ (∀ f s key s0 i, i ∈ [Instr.kand f, .kor f, .kxor f, .knot f] → Starts i s key .x s0 → f.d.toNat = 0 →
      Ends i s (s0.setCore s0.core) .seq)
  ∧ (∀ f s key s0, Starts (.kand f) s key .x s0 → f.a.toNat = 0 → (s0.core.stageOpen = true → f.d.toNat < 8) →
      Ends (.kand f) s (s0.setCore (s0.core.setK f.d.toNat (s0.core.kreg f.b.toNat))) .seq)
  ∧ (∀ f s key s0 a t, StartsX (.movV f) s key s0 → VType f.ty →
      (f.rs.getLsbD 1 = false → s0.vsrc f.a (ebits f) (litVal f.ty.toNat f.w1) = .ok (a, t)) →
      (f.rs.getLsbD 1 = true → a = s0.core.velems (ebits f) (s0.core.vphys f.a.toNat) ∧ t = s0) →
      Ends (.movV f) s (t.putV f (ebits f) (a.map fun x => (x, 0))) .seq)
  ∧ VMove .rotr (fun n c row e => (row, ((e - c : Int) % n).toNat)) ∧ VMove .bcr (fun n c row _ => (row, c % n))
  ∧ VMove .rotc (fun _ c row e => (((row - c : Int) % 16).toNat, e)) ∧ VMove .bcc (fun _ c _ e => (c % 16, e))
  ∧ (∀ f s key s0 a t rs, StartsX (.trb f) s key s0 → s0.vsrc f.a 32 (litVal f.ty.toNat f.w1) = .ok (a, t) →
      rs.length = 1024 →
      (∀ row q j, row < 16 → q < 4 → j < 16 → rs.getD (row * 64 + (16 * q + j)) (0, 0) = (a.getD (j * 64 + (16 * q + row)) 0, 0)) →
      Ends (.trb f) s (t.putV f 32 rs) .seq)
  ∧ VReduce .redr true ∧ VReduce .redc false
  ∧ (∀ f s key s0, StartsX (.rotBase f) s key s0 → Ends (.rotBase f) s
      (s0.setCore { s0.core with vrotBase := f.d.toNat, vrotSize := f.a.toNat + 1, vrotOff := 0 }) .seq)
  ∧ (∀ f s key s0, StartsX (.rotBaseOff f) s key s0 → Ends (.rotBaseOff f) s
      (s0.setCore { s0.core with vrotSize := 0, vrotOff := 0 }) .seq)

/-- R219: what a reduction gives: the sum modulo 2^w, the least, the greatest, the bitwise words, each with its value for
no contribution; the exact sum of finite numbers rounded once, whatever their order, and NV for NaN or unlike infinities. -/
def Sys2Proof.Claims.Reductions : Prop :=
  (∀ (t : ITy) (xs : List Nat), t.reduce 0 xs = xs.sum % 2 ^ t.w
    ∧ (∀ x ∈ xs, t.read (t.reduce 1 xs) ≤ t.read x) ∧ (xs ≠ [] → t.reduce 1 xs ∈ xs ∧ t.reduce 2 xs ∈ xs)
    ∧ (∀ x ∈ xs, t.read x ≤ t.read (t.reduce 2 xs))
    ∧ t.reduce 1 [] = (t.hi % (2 : Int) ^ t.w).toNat ∧ t.reduce 2 [] = (t.lo % (2 : Int) ^ t.w).toNat
    ∧ t.reduce 3 [] = 2 ^ t.w - 1 ∧ t.reduce 4 [] = 0 ∧ t.reduce 5 [] = 0)
  ∧ (∀ (t : FFmt) (xs ys : List Nat), xs.Perm ys → (t.reduce 0 xs).1 = (t.reduce 0 ys).1)
  ∧ (∀ (t : FFmt) (xs : List Nat), (∃ x ∈ xs, (t.decode x).isNan = true) → t.reduce 0 xs = (t.qnan, flagNV))
  ∧ (∀ (t : FFmt), t.reduce 0 [] = (0, 0) ∧ t.reduce 1 [] = (t.inf false, 0) ∧ t.reduce 2 [] = (t.inf true, 0))

/-- R223: the places of a conversion: where the destination has as many elements in a row, or more, source (row, e) goes
to (row, e + ns × p) and the others keep their bits; else (row, e) comes from (row, e + nd × p). -/
def Sys2Proof.Claims.Places (ns nd p : Nat) (old a : List Nat) (conv : Nat → Nat × Flags) (rs : List (Nat × Flags)) : Prop :=
  (ns ≤ nd → ∀ row e, row < 16 → e < nd →
    (∀ k, k < ns → e = k + ns * p → rs.getD (row * nd + e) (0, 0) = conv (a.getD (row * ns + k) 0))
    ∧ ((∀ k, k < ns → e ≠ k + ns * p) → rs.getD (row * nd + e) (0, 0) = (old.getD (row * nd + e) 0, 0)))
  ∧ (nd < ns → ∀ row e, row < 16 → e < nd → rs.getD (row * nd + e) (0, 0) = conv (a.getD (row * ns + (e + nd * p)) 0))

/-- R219, R223 to R226: reductions; conversions between TYPE codes; narrow elements of a part unpacked into the elements
of the wide view, and elements packed into the part's active fields, every other bit of D kept. That UNPK reads a broadcast source in TYPE's view is
the model's choice (log entry 114).
Log entry it touches (notes/assumptions): 114. -/
def Obligations.ConversionsComplete : Prop :=
  Reductions
  ∧ (∀ f s key s0 a t rs ws p, StartsX (.cvt f) s key s0 → VType f.ty → VType (f.b.setWidth 4) →
      ws = typeBits (f.b.toNat % 16) → p = f.b.toNat / 16 % 4 →
      s0.vsrc f.a ws (litVal (f.b.toNat % 16) f.w1) = .ok (a, t) → rs.length = elemCount (ebits f) →
      Places (2048 / ws) (erow f) p (t.core.velems (ebits f) (t.core.vphys f.d.toNat)) a
        (cvtElem (f.b.toNat % 16) f.ty.toNat f.rs.toNat) rs →
      Ends (.cvt f) s (t.putV f (ebits f) rs) .seq)
  ∧ (∀ f s key s0 a t rs nb, StartsX (.unpk f) s key s0 → VType f.ty → s0.vsrc f.a (ebits f) (litVal f.ty.toNat f.w1) = .ok (a, t) →
      nb = Machine.narrowBits f.rs.toNat → rs.length = elemCount (ebits f) →
      (∀ i v fl, i < elemCount (ebits f) → narrowVal f.rs.toNat
          (lanesNat (lanesOf (ebits f) a) / 2 ^ (8 * (f.b.toNat * (elemCount (ebits f) * nb / 8)) + i * nb) % 2 ^ nb) = (v, fl) →
        (isFloatType f.ty.toNat = true → rs.getD i (0, 0) = (((ffmt f).roundVal 0 v).1, fl))
        ∧ (∀ n m, isFloatType f.ty.toNat = false → v = .fin n m 0 →
            rs.getD i (0, 0) = (md f (if n then -(m : Int) else m), fl))) →
      (isFloatType f.ty.toNat = false → 5 ≤ f.rs.toNat) →
      Ends (.unpk f) s (t.putV f (ebits f) rs) .seq)
  ∧ (∀ f s key s0 a t nb base new, StartsX (.pack f) s key s0 → VType f.ty →
      s0.vsrc f.a (ebits f) (litVal f.ty.toNat f.w1) = .ok (a, t) → nb = Machine.narrowBits f.rs.toNat →
      base = 8 * (f.b.toNat * (elemCount (ebits f) * nb / 8)) → new.length = 1024 →
      (∀ j, j < 32768 → (lanesNat new).testBit j =
        if base ≤ j ∧ j < base + elemCount (ebits f) * nb ∧ masked t.core f.fl.toNat (ebits f) ((j - base) / nb) = true then
          (if isFloatType f.ty.toNat then narrowOf f.rs.toNat ((ffmt f).decode (a.getD ((j - base) / nb) 0))
            else narrowOfInt f.rs.toNat (rd f (a.getD ((j - base) / nb) 0))).1.testBit ((j - base) % nb)
        else (lanesNat (t.core.vlanes (t.core.vphys f.d.toNat))).testBit j) →
      ∃ fl, Ends (.pack f) s (t.setCore ((t.core.setVlanes (t.core.vphys f.d.toNat) new).raiseFp fl)) .seq)

/-- A word goes on: it may issue, and its body starts in a state, or it has issued before and stands where it waited. -/
def Sys2Proof.Claims.Goes (i : Instr) (s : State) (key : Nat) (e : EngTag) (s0 : State) : Prop :=
  Starts i s key e s0 ∨ ∃ h, i.body.hdr = some h ∧ s.cur = .cell key e ∧ (FMap.find? s.cells key).isSome = true
    ∧ s.core.mayRun e = true ∧ (s.core.eng e).held = none ∧ s.myFault = none ∧ (s.core.eng e).issued = true ∧ s0 = s

/-- R222, R294: VLD and VST move a register's bytes, in lane order, between D and the own scratchpad at A + B, granule by
granule in increasing order, each element under the mask; a VST fills the granules it writes; a VLD with `.wait` takes each
granule once it is full; the address must be aligned to 16 and the range inside. Behind its last granule the word ends. -/
def Sys2Proof.Claims.VectorTransfers : Prop :=
  (∀ f s key s0 a s1 b s2 o g q lm, Goes (.vld f) s key .x s0 → s0.owes .c Instr.writesVrot = false → VType f.ty →
    s0.src f.a (litZ f.w1) = .ok (a, s1) → s1.src f.b (litZ f.w1) = .ok (b, s2) → o = (a.toNat + b.toNat) % 2 ^ 64 →
    g = s0.partsDone → g ≤ 255 → q = s0.core.vphys f.d.toNat → lm = laneMask (ebits f) (s0.core.kreg f.fl.toNat) →
    (Starts (.vld f) s key .x s0 → o % 16 ≠ 0 → Raises (.vld f) s { code := 0x20 })
    ∧ (Starts (.vld f) s key .x s0 → o % 16 = 0 → 2 ^ 23 < o + 4096 → Raises (.vld f) s { code := 0x23 })
    ∧ (∀ s3, o % 16 = 0 → o + 4096 ≤ 2 ^ 23 → s2.spadReady key key (o + 16 * g) 16 = .ok () →
        s2.watchLocal key o 4096 false = .ok s3 →
        ((f.rs.getLsbD 0 = false ∨ (s3.cell key).bankTurn key .x (o / 16 + g) true = true) →
          (g < 255 → Waits (.vld f) s ((s0.vldGranule key o q g (f.rs.getLsbD 1) lm).modEng fun x =>
            { x with waitVal := some (BitVec.ofNat 64 (g + 1)) }) 0)
          ∧ (g = 255 → Ends (.vld f) s (s3.vldGranule key o q g (f.rs.getLsbD 1) lm) .seq))
        ∧ (f.rs.getLsbD 0 = true → (s3.cell key).bankTurn key .x (o / 16 + g) true = false →
          Waits (.vld f) s ((s0.holdAt key key (o / 16 + g) true).modEng fun x =>
            { x with waitVal := some (BitVec.ofNat 64 g) }) 9)))
  ∧ (∀ (s t : State) (key o q g : Nat) (take : Bool) (lm : List (BitVec 32)), s.cur = .cell key .x →
    t = s.vldGranule key o q g take lm → g ≤ 255 → o % 16 = 0 → lm.length = 1024 → FMap.wf (s.cell key).v 0 = true →
    Memory.wf (s.cell key).spad = true →
    SameButCell s t key ∧ (t.cell key).spad = (s.cell key).spad
    ∧ (∀ i, i < 1024 → ((t.cell key).vlanes q).getD i 0 = if 4 * g ≤ i ∧ i < 4 * g + 4 then
          (BitVec.ofNat 32 (leNat (Memory.readN (s.cell key).spad (o + 4 * i) 4)) &&& lm.getD i 0)
            ||| (((s.cell key).vlanes q).getD i 0 &&& ~~~(lm.getD i 0))
        else ((s.cell key).vlanes q).getD i 0)
    ∧ (∀ p, p ≠ q → (t.cell key).vlanes p = (s.cell key).vlanes p)
    ∧ (∀ x, FMap.get (t.cell key).fe x false = if take = true ∧ x = o / 16 + g then false else FMap.get (s.cell key).fe x false))
  ∧ (∀ f s key s0 es s1 a s2 b s3 o g, Goes (.vst f) s key .x s0 → s0.owes .c Instr.writesVrot = false → VType f.ty →
    s0.vsrc f.d (ebits f) (litVal f.ty.toNat f.w1) = .ok (es, s1) → s1.src f.a (litZ f.w1) = .ok (a, s2) →
    s2.src f.b (litZ f.w1) = .ok (b, s3) → o = (a.toNat + b.toNat) % 2 ^ 64 → g = s0.partsDone → g ≤ 255 →
    (Starts (.vst f) s key .x s0 → o % 16 ≠ 0 → Raises (.vst f) s { code := 0x20 })
    ∧ (Starts (.vst f) s key .x s0 → o % 16 = 0 → 2 ^ 23 < o + 4096 → Raises (.vst f) s { code := 0x23 })
    ∧ (∀ s4 s5, o % 16 = 0 → o + 4096 ≤ 2 ^ 23 → s3.spadReady key key (o + 16 * g) 16 = .ok () →
        s3.watchLocal key o 4096 true = .ok s4 → s5 = (if g = 255 then s4 else s0) → s5.core.ordAt s5.core.engX.pos = false →
        (∀ j, o + 16 * g ≤ j → j < o + 16 * g + 16 → s5.ordWaits key .x s5.core.engX.pos j 1 = false) →
        ∃ t : State, (g < 255 → Waits (.vst f) s (t.modEng fun x => { x with waitVal := some (BitVec.ofNat 64 (g + 1)) }) 0)
          ∧ (g = 255 → Ends (.vst f) s t .seq) ∧ SameButCell s5 t key
          ∧ (∀ j, Memory.read t.core.spad j =
              if o + 16 * g ≤ j ∧ j < o + 16 * g + 16 ∧ masked s5.core f.fl.toNat (ebits f) ((j - o) / (ebits f / 8)) = true
              then BitVec.ofNat 8 (es.getD ((j - o) / (ebits f / 8)) 0 / 256 ^ ((j - o) % (ebits f / 8)))
              else Memory.read s5.core.spad j)
          ∧ (∀ x, FMap.get t.core.fe x false = (FMap.get s5.core.fe x false || (decide (x = o / 16 + g)
              && (List.range 16).any fun k => masked s5.core f.fl.toNat (ebits f) ((16 * g + k) / (ebits f / 8)))))))

/-- R228, R229: the special functions act on each element of A, with the stated results for the special inputs; what they
give elsewhere is within the bound of R228 and otherwise open (the model's free value, see the assumption log). -/
def Sys2Proof.Claims.SpecialInputs : Prop :=
  ∀ (ty : Nat) (t : FFmt), t = fmtOf ty → ty ∈ [9, 10, 11] →
    (∀ fn x, fn ≤ 6 → t.decode x = .nan false → specialFn ty fn x = (t.qnan, 0))
    ∧ (∀ fn x, fn ≤ 6 → t.decode x = .nan true → specialFn ty fn x = (t.qnan, flagNV))
    ∧ (∀ x neg m e, t.decode x = .fin neg m e → m = 0 →
      specialFn ty 0 x = ((t.roundVal 0 (.fin false 1 0)).1, 0) ∧ specialFn ty 1 x = (t.inf true, flagDZ)
      ∧ specialFn ty 2 x = (t.inf neg, flagDZ) ∧ specialFn ty 3 x = (t.inf neg, flagDZ) ∧ specialFn ty 4 x = (t.zero neg, 0)
      ∧ specialFn ty 5 x = ((t.roundVal 0 (.fin false 1 0)).1, 0) ∧ specialFn ty 6 x = (t.zero neg, 0))
    ∧ (∀ x neg, t.decode x = .inf neg → specialFn ty 0 x = (if neg then 0 else t.inf false, 0)
      ∧ specialFn ty 1 x = (if neg then (t.qnan, flagNV) else (t.inf false, 0)) ∧ specialFn ty 2 x = (t.zero neg, 0)
      ∧ specialFn ty 3 x = (if neg then (t.qnan, flagNV) else (0, 0)) ∧ specialFn ty 4 x = (t.qnan, flagNV)
      ∧ specialFn ty 5 x = (t.qnan, flagNV)
      ∧ specialFn ty 6 x = ((t.roundVal 0 (.fin neg 1 0)).1, 0))
    ∧ (∀ x m e, t.decode x = .fin true m e → m ≠ 0 → specialFn ty 1 x = (t.qnan, flagNV) ∧ specialFn ty 3 x = (t.qnan, flagNV))

/-- R222, R228, R229, R233 to R241: scratchpad transfers, special functions and geometric predicates; with integer
coordinates an orientation that the exact stage decides is the sign of the determinant of differences.
Log entries it touches (notes/assumptions): 44, 45. -/
def Obligations.TransfersSpecialFunctionsAndPredicatesComplete : Prop :=
  VectorTransfers ∧ SpecialInputs
  ∧ VUnary FType .exp2 (fun f => specialFn f.ty.toNat 0) ∧ VUnary FType .log2 (fun f => specialFn f.ty.toNat 1)
  ∧ VUnary FType .rcp (fun f => specialFn f.ty.toNat 2) ∧ VUnary FType .rsq (fun f => specialFn f.ty.toNat 3)
  ∧ VUnary FType .sin (fun f => specialFn f.ty.toNat 4) ∧ VUnary FType .cos (fun f => specialFn f.ty.toNat 5)
  ∧ VUnary FType .tanh (fun f => specialFn f.ty.toNat 6)
  ∧ VPredicate .orient2 2 3 orient2Form.decide_ ∧ VPredicate .orient3 3 4 orient3Form.decide_
  ∧ VPredicate .incircle 2 4 incircleForm.decide_ ∧ VPredicate .insphere 3 5 insphereForm.decide_
  ∧ VPredicate .segcross 2 4 segDecide
  ∧ (∀ ax ay bx bz cx cy : Int, orient2Form.exact [[intVal ax, intVal ay], [intVal bx, intVal bz], [intVal cx, intVal cy]]
      = ((ax - cx) * (bz - cy) - (ay - cy) * (bx - cx)).sign)
  ∧ (∀ (p : PredForm) f64_ pts, p.stageA f64_ pts = none → p.stageB f64_ pts = none →
      p.decide_ f64_ pts none = (p.exact pts, 3))

/-! ## Matrix, row, sort and sparse words (R243 to R283) -/

namespace Sys2Proof.Claims

/-- A word of C that writes the shadow table: it waits for the MGOs before it in the kernel's order, and marks the
table as holding an unlaunched change (R244, R246). -/
def TableWord (i : Rrr → Instr) (w : Rrr → Nest → Word → Word → Nest) : Prop :=
  ∀ f s key e s0, Starts (i f) s key e s0 →
    (∀ a b t, s0.afterTakers .m Instr.isMgo = .ok () → ReadsTwo s0 f.a f.b (litVal 0 f.w1) a b t →
      Ends (i f) s (t.setCore { t.core with shadow := w f t.core.shadow a b, shv := true }) .seq)
    ∧ (s0.core.handler = none → s0.owes .m Instr.isMgo = true → exec (i f) s = .next (s.modEng fun g => { g with reason := 11 }))

/-- The job of an accepted MGO: the table as it stood, and the trips it takes. -/
def mgoJob (f : Rrr) (s : State) (lcs : List Nat) : Job :=
  { s.newJob f.hdr (.mgo f) with nest := s.core.shadow, aux := lcs }

/-- A tile record is taken where an operand is a tile (R255). -/
def recordOf (key : Nat) (o : Opd) (j : Job) (s : State) : M (Job × State) :=
  if o.kind = 2 then s.takeRecord key j (o.wa.toNat % 2 ^ 16) else .ok (j, s)

end Sys2Proof.Claims

/-- R247, R252, R256, R275: MSET writes the field D of the shadow table, MOPD an operand descriptor, MSCALE a scale
descriptor, RTT a timetable field; each waits with reason 11 while earlier words that read the table have not taken it. -/
def Obligations.TableWordsComplete : Prop :=
  TableWord .mset (fun f t a _ => { t with fields := FMap.set t.fields f.d.toNat a 0 })
  ∧ TableWord .mopd (fun f t a b => if f.d.getLsbD 0 then { t with opdB := ⟨f.d.toNat / 2, a, b⟩ }
      else { t with opdA := ⟨f.d.toNat / 2, a, b⟩ })
  ∧ TableWord .mscale (fun f t a b => if f.d.getLsbD 0 then { t with sclB := (a, b) } else { t with sclA := (a, b) })
  ∧ (∀ f s key e s0 a t, Starts (.rtt f) s key e s0 → s0.afterTakers .w Instr.isRgo = .ok () →
      s0.src f.a (litVal 0 f.w1) = .ok (a, t) →
      Ends (.rtt f) s (t.setCore { t.core with timetable := FMap.set t.core.timetable f.d.toNat a 0 }) .seq)
  ∧ (∀ f s key e s0, Starts (.rtt f) s key e s0 → s.core.handler = none → s0.owes .w Instr.isRgo = true →
      exec (.rtt f) s = .next (s.modEng fun g => { g with reason := 11 }))

/-- R244, R250, R259 to R263: an MGO waits for the table words before it; a semiring above 3 raises 0x61, a combination
outside the table 0x60, a bad table 0x62; else it takes a copy of the table and becomes a job. When the job starts it takes
PADVAL and its tile records (R255, R258). MZERO writes a whole accumulator, beside a row command that works in it element by
element in any order (R277), and MLOAD one, granule by granule of the scratchpad; both clear its void marks, and wait while
an earlier command still uses it. -/
def Sys2Proof.Claims.MatrixWordsComplete : Prop :=
  (∀ f s key e s0, Starts (.mgo f) s key e s0 →
    (s0.owes .c Instr.writesNest = true → exec (.mgo f) s = .next (s.modEng fun g => { g with reason := 11 }))
    ∧ (s0.owes .c Instr.writesNest = false →
      (4 ≤ (mgoF f).sr → Raises (.mgo f) s { code := 0x61 })
      ∧ ((mgoF f).sr < 4 →
        (mgoCombination (mgoF f).fa (mgoF f).fb (mgoF f).sr (mgoF f).scaled = false → Raises (.mgo f) s { code := 0x60 })
        ∧ (mgoCombination (mgoF f).fa (mgoF f).fb (mgoF f).sr (mgoF f).scaled = true → ∀ lcs,
            s0.nestTrips s0.core.shadow [0, 1, 2, 3, 4, 5] = .ok lcs →
            (s0.core.shadow.ok (mgoF f).fa (mgoF f).fb (mgoF f).conv (mgoF f).scaled (s0.core.shadow.levels lcs) = false →
              Raises (.mgo f) s { code := 0x62 })
            ∧ (s0.core.shadow.ok (mgoF f).fa (mgoF f).fb (mgoF f).conv (mgoF f).scaled (s0.core.shadow.levels lcs) = true →
              ∃ st, Ends (.mgo f) s (((s0.setCore
                { s0.core with active := s0.core.shadow, shv := false, stampT0 := none, stamps := st }).accept
                  (mgoJob f s0 lcs)).produceStamps key) .seq)))))
  ∧ (∀ (key : Nat) (j : Job) (f : Rrr), j.started = false → ∃ p, (State.mgoPlan key j f).prep = some p
      ∧ ∀ s j1 s1 j2 s2, recordOf key j.nest.opdA j s = .ok (j1, s1) → recordOf key j.nest.opdB j1 s1 = .ok (j2, s2) →
        p s = .ok (s2.modJob key j.id fun x =>
          { x with started := true, pad := (s2.cell key).padval, trecs := j2.trecs, early := j2.early }))
  ∧ (∀ f s key e s0, Starts (.mzero f) s key e s0 →
    (s0.core.accBusy f.d.toNat = true → exec (.mzero f) s = .next (s.modEng fun g => { g with reason := 12 }))
    ∧ (s0.core.accBusy f.d.toNat = false → s0.core.rowsAt f.d.toNat = false → s0.core.zeroed = 0 →
        Ends (.mzero f) s (s0.setCore (s0.core.accFill f.d.toNat
          (List.replicate 32768 (if f.rs = 1 then 0x7F800000 else if f.rs = 2 then 0xFF800000 else 0)))) .seq))
  ∧ (∀ f s key e s0 v, Goes (.mzero f) s key e s0 → s0.core.accBusy f.d.toNat = false →
      v = (if f.rs = 1 then 0x7F800000 else if f.rs = 2 then 0xFF800000 else 0) →
      (s0.core.rowsAt f.d.toNat = true ∨ s0.core.zeroed ≠ 0) →
      (∀ t, s0.zeroStep f.d.toNat v = .ok t → Ends (.mzero f) s t .seq)
      ∧ (∀ t, s0.zeroStep f.d.toNat v = .error (.wait t 0) → Waits (.mzero f) s t 0))
  ∧ (∀ (s : State) (key m : Nat) (v : BitVec 32), s.cur = .cell key .m → ∃ t,
      (s.zeroStep m v = .ok t ∨ s.zeroStep m v = .error (.wait t 0))
      ∧ { t with cells := s.cells, drawn := s.drawn } = s ∧ (∀ k, k ≠ key → FMap.find? t.cells k = FMap.find? s.cells k)
      ∧ (∀ n, t.core.accGet n = s.core.accGet n ∨ (32768 * m ≤ n ∧ n < 32768 * (m + 1) ∧ t.core.accGet n = v))
      ∧ (s.zeroStep m v = .ok t → ∀ n, n < 32768 → s.core.zeroed.testBit n = false → t.core.accGet (32768 * m + n) = v))
  ∧ (∀ f s key e s0 a t g, Goes (.mload f) s key e s0 → s0.src f.a (litVal 0 f.w1) = .ok (a, t) → g = s0.partsDone →
    g ≤ 8191 →
    (Starts (.mload f) s key e s0 → a.toNat % 16 ≠ 0 → Raises (.mload f) s { code := 0x20, addr := a })
    ∧ (Starts (.mload f) s key e s0 → a.toNat % 16 = 0 → 2 ^ 23 < a.toNat + 131072 →
        Raises (.mload f) s { code := 0x23, addr := a })
    ∧ (∀ t1 t2 bs t3, a.toNat % 16 = 0 → a.toNat + 131072 ≤ 2 ^ 23 → t.core.accBusy f.d.toNat = false →
        t.watchLocal key a.toNat 131072 false = .ok t1 → t2 = (if g = 8191 then t1 else s0) →
        t2.spadLoad key key (a.toNat + 16 * g) 16 a = .ok (bs, t3) →
        (g < 8191 → Waits (.mload f) s ((t3.setCore (t3.core.accPart (32768 * f.d.toNat + 4 * g) (wordsOf bs))).modEng
          fun x => { x with waitVal := some (BitVec.ofNat 64 (g + 1)) }) 0)
        ∧ (g = 8191 → Ends (.mload f) s (t3.setCore (t3.core.accPart (32768 * f.d.toNat + 4 * g) (wordsOf bs))) .seq)))
  ∧ (∀ (c : Cell) (n : Nat) (vs : List (BitVec 32)),
      (∀ i, i < vs.length → (c.accPart n vs).accGet (n + i) = vs.getD i 0
        ∧ FMap.get (c.accPart n vs).void (n + i) false = false)
      ∧ (∀ i, i < n ∨ n + vs.length ≤ i → (c.accPart n vs).accGet i = c.accGet i
        ∧ FMap.get (c.accPart n vs).void i false = FMap.get c.void i false))
  ∧ (∀ (c : Cell) (m : Nat) (vs : List (BitVec 32)), vs.length = 32768 →
      (∀ n, n < 32768 → (c.accFill m vs).accGet (32768 * m + n) = vs.getD n 0
        ∧ FMap.get (c.accFill m vs).void (32768 * m + n) false = false)
      ∧ (∀ n, n < 32768 * m ∨ 32768 * (m + 1) ≤ n → (c.accFill m vs).accGet n = c.accGet n
        ∧ FMap.get (c.accFill m vs).void n false = FMap.get c.void n false))

/-- R41 to R44, R46: within a group the order of the products has no effect; what group_value gives for unscalable,
infinite and zero sums; the saturating sum of the integer formats. -/
def Sys2Proof.Claims.GroupSums : Prop :=
  (∀ fa fb sr c (ps qs : List (Nat × Nat)) sa sb, sr = 0 ∨ sr = 3 → ps.Perm qs →
    groupUpdate fa fb sr c ps sa sb = groupUpdate fa fb sr c qs sa sb)
  ∧ (∀ v sa sb, sa = 0xFF ∨ sb = 0xFF → groupValue v sa sb = (0x7FC00000, 0))
  ∧ (∀ sa sb q n, sa ≠ 0xFF → sb ≠ 0xFF → groupValue (.nan q) sa sb = (0x7FC00000, 0)
    ∧ groupValue (.inf n) sa sb = (if n then 0xFF800000 else 0x7F800000, 0)
    ∧ ∀ e, groupValue (.fin n 0 e) sa sb = (0, 0))
  ∧ (∀ (n : Bool) (m : Nat) (e : Int) (sa sb : Nat), sa ≠ 0xFF → sb ≠ 0xFF → m ≠ 0 → e + sa + sb < 254 - 149 →
      m < 2 ^ (254 - 149 - (e + sa + sb)).toNat → groupValue (.fin n m e) sa sb = (0, 2))
  ∧ (∀ c (z : Int), (toSigned 32 (accAddInt c z).1 = max (-(2 ^ 31)) (min (2 ^ 31 - 1) (toSigned 32 c + z)))
    ∧ ((accAddInt c z).2 = 1 ↔ toSigned 32 c + z < -(2 ^ 31) ∨ 2 ^ 31 ≤ toSigned 32 c + z))

/-- R41 to R46, R244, R250, R259 to R261, R266, R267: the matrix words and the sums they form.
Log entries it touches (notes/assumptions): 33, 37. -/
def Obligations.MatrixWordsAndSums : Prop := MatrixWordsComplete ∧ GroupSums

/-- R268 to R271, R275: a drain reads A and B and becomes a job; an RGO waits for the RTTs before it, raises 0x63 for a bad
timetable, and else takes a copy of it; the bytes a drain writes for an accumulator element, by its types. -/
def Sys2Proof.Claims.DrainsAndRowWordsComplete : Prop :=
  (∀ f i s key e s0 a b t, i ∈ [Instr.mdrainSpad f, .mdrainGlob f, .mdrainGlobAdd f, .mdrainPeer f] → Starts i s key e s0 →
    ReadsTwo s0 f.a f.b (litVal f.ty.toNat f.w1) a b t → ∃ st l, Ends i s ((t.setCore { t.core with stamps := st }).accept
      { t.newJob f.hdr i with va := a, vb := b, locks := l }) .seq)
  ∧ (∀ f i s key e s0 ws, i ∈ [Instr.rgoMax f, .rgoExpsum f, .rgoScale f, .rgoNorm f] → Starts i s key e s0 →
    ws = (List.range 4).map (fun n => FMap.get s0.core.timetable n 0) →
    (s0.owes .c Instr.writesTimetable = true → exec i s = .next (s.modEng fun g => { g with reason := 11 }))
    ∧ (s0.owes .c Instr.writesTimetable = false → (rttOf ws).ok = false → Raises i s { code := 0x63 })
    ∧ (s0.owes .c Instr.writesTimetable = false → (rttOf ws).ok = true →
        Ends i s (s0.accept { s0.newJob f.hdr i with timetable := ws }) .seq))
  ∧ (∀ f (v : BitVec 32), ((f.ty = 9 ∨ f.ty = 2) → drainBytes f v = leBytes 4 v.toNat)
    ∧ (f.ty = 4 → drainBytes f v = leBytes 2 ((max (-(2 ^ 15)) (min (2 ^ 15 - 1) v.toInt)) % 2 ^ 16).toNat)
    ∧ (f.ty = 6 → drainBytes f v = leBytes 1 ((max (-(2 ^ 7)) (min (2 ^ 7 - 1) v.toInt)) % 2 ^ 8).toNat)
    ∧ (f.ty = 10 → drainBytes f v = leBytes 2 (bf16.roundVal f.rs.toNat (f32.decode v.toNat)).1)
    ∧ (f.ty = 11 → drainBytes f v = leBytes 2 (f16.roundVal f.rs.toNat (f32.decode v.toNat)).1))

/-- R276: the passes of a row: MAX leaves the elements and gives the largest live one; EXPSUM gives 2 to ((x - MX) × s) and
their sum; SCALE multiplies by the reciprocal of SM; NORM subtracts the mean and scales; a masked element becomes 0. A
step of a row writes at most one element of its region, with what the pass gives for it, and no MX or SM but the row's. -/
def Sys2Proof.Claims.RowPasses : Prop :=
  (∀ t r mx sm xs, rowPass 0 t r mx sm xs = (xs, (rowPass 0 t r mx sm xs).2.1, sm)
    ∧ ((∀ i, i < xs.length → t.masked r (t.col0 + i) = true) → (rowPass 0 t r mx sm xs).2.1 = 0xFF800000))
  ∧ (∀ k t r mx sm xs, k < 4 → (rowPass k t r mx sm xs).1.length = xs.length
    ∧ (k ≠ 0 → ∀ i, i < xs.length → t.masked r (t.col0 + i) = true → (rowPass k t r mx sm xs).1.getD i 0 = 0))
  ∧ (∀ t r mx sm xs i, i < xs.length → t.masked r (t.col0 + i) = false →
    (mx ≠ 0xFF800000 → (rowPass 1 t r mx sm xs).1.getD i 0 = exp2f (mulF (subF (xs.getD i 0) mx) t.s))
    ∧ (mx = 0xFF800000 → (rowPass 1 t r mx sm xs).1.getD i 0 = 0)
    ∧ (sm ≠ 0 → (rowPass 2 t r mx sm xs).1.getD i 0 = mulF (xs.getD i 0) (rcpf sm))
    ∧ (sm = 0 → (rowPass 2 t r mx sm xs).1.getD i 0 = 0)
    ∧ (rowPass 3 t r mx sm xs).1.getD i 0 = mulF (subF (xs.getD i 0) (rowPass 3 t r mx sm xs).2.1) (rowPass 3 t r mx sm xs).2.2
    ∧ (t.rms = true → (rowPass 3 t r mx sm xs).2.1 = 0))
  ∧ (∀ (s : State) key j kind i part t u q, t = rttOf j.timetable → t.en = false →
    (State.rgoPlan key j kind).elem i part s = .ok (u, q) →
    { u with cells := s.cells, drawn := s.drawn } = s ∧ (∀ k, k ≠ key → FMap.find? u.cells k = FMap.find? s.cells k)
    ∧ (∀ n, (u.cell key).accGet n ≠ (s.cell key).accGet n → ∃ k, k < t.ncols
        ∧ n = 32768 * t.acc + 256 * (t.row0 + i) + t.col0 + k
        ∧ (u.cell key).accGet n = BitVec.ofNat 32 (FMap.get j.reads k 0))
    ∧ (∀ r, r ≠ t.row0 + i → FMap.get (u.cell key).mx r 0 = FMap.get (s.cell key).mx r 0
        ∧ FMap.get (u.cell key).sm r 0 = FMap.get (s.cell key).sm r 0)
    ∧ (u.cell key).spad = (s.cell key).spad)

/-- R268 to R271, R275, R276: drains, row words, and the passes over a row.
Log entry it touches (notes/assumptions): 38. -/
def Obligations.DrainsRowWordsAndPasses : Prop := DrainsAndRowWordsComplete ∧ RowPasses

/-- R279 to R283: a sort or sparse word waits while eight commands of its engine are not complete; else it reads its
operands and becomes a job. SORT is a stable sort of its records, MERGE keeps two sorted runs sorted with the first run's
records before equal ones of the second, UNIQ keeps the first of equal neighbours.
Log entries it touches (notes/assumptions): 39, 40. -/
def Obligations.SortAndSparseWordsComplete : Prop :=
  (∀ f i s key e s0, i ∈ [Instr.sort f, .segsort f, .merge f, .topk f, .ksel f, .uniq f] → Starts i s key e s0 →
    (8 ≤ (s0.core.jobsOf e).length → exec i s = .next (s.modEng fun g => { g with reason := 12 }))
    ∧ (∀ d a b s1 s2 t, (s0.core.jobsOf e).length < 8 → s0.src f.d (litVal f.ty.toNat f.w1) = .ok (d, s1) →
        s1.src f.a (litVal f.ty.toNat f.w1) = .ok (a, s2) → s2.src f.b (litVal f.ty.toNat f.w1) = .ok (b, t) →
        ∃ l, Ends i s (t.accept { t.newJob f.hdr i with vd := d, va := a, vb := b, locks := l }) .seq))
  ∧ (∀ f i s key e s0, i ∈ [Instr.spmmCsr f, .spmmBsr f, .sddmm f, .spmv f] → Starts i s key e s0 →
    (8 ≤ (s0.core.jobsOf e).length → exec i s = .next (s.modEng fun g => { g with reason := 12 }))
    ∧ (∀ a t, (s0.core.jobsOf e).length < 8 → s0.src f.a (litVal f.ty.toNat f.w1) = .ok (a, t) →
        Ends i s (t.accept { t.newJob f.hdr i with va := a }) .seq))
  ∧ (∀ desc (xs : List KRec), (sortRecs desc xs).Perm xs
    ∧ (sortRecs desc xs).Pairwise (fun x y => if desc then y.rank ≤ x.rank else x.rank ≤ y.rank)
    ∧ ∀ k, (sortRecs desc xs).filter (fun x => x.rank == k) = xs.filter fun x => x.rank == k)
  ∧ (∀ desc (xs ys : List KRec) zs, zs = mergeRecs desc (xs.length + ys.length) xs ys → zs.Perm (xs ++ ys)
    ∧ (xs.Pairwise (fun x y => if desc then y.rank ≤ x.rank else x.rank ≤ y.rank) →
       ys.Pairwise (fun x y => if desc then y.rank ≤ x.rank else x.rank ≤ y.rank) →
       zs.Pairwise (fun x y => if desc then y.rank ≤ x.rank else x.rank ≤ y.rank)
       ∧ ∀ k, zs.filter (fun x => x.rank == k) = (xs.filter fun x => x.rank == k) ++ ys.filter fun x => x.rank == k))
  ∧ (∀ (xs zs : List KRec), zs = uniqRecs none xs → zs.Sublist xs
    ∧ (∀ i x y, zs[i]? = some x → zs[i + 1]? = some y → x.key ≠ y.key)
    ∧ ∀ x ∈ xs, ∃ y ∈ zs, y.key = x.key)

/-! ## Events of a cell -/

/-- R61, R137, R146, R289, R290, R309, R354: what an event of a cell does where its condition holds, and that it does
nothing where it does not: the scratchpad clear ends, a timed shard starts, C enters the handler, a wait of C ends, a
held push is accepted, and where the counter is full takes the place of one that ranks behind it and whose engine has issued
no word since, an entry of a completion queue is applied, a line leaves the L1.
Log entries it touches (notes/assumptions): 10, 18. -/
def Obligations.CellEventsComplete : Prop :=
  (∀ (s : State) k c, c = s.cell k →
    (c.phase = .clearing → exec (.scratchpadClearDone k) s = .next (s.setCell k
      { c with phase := if s.tick < c.startTick then .timed else .running, pollSince := s.tick }))
    ∧ (c.phase ≠ .clearing → exec (.scratchpadClearDone k) s = .next s)
    ∧ (c.phase = .timed → c.startTick ≤ s.tick →
        exec (.timedStart k) s = .next (s.setCell k { c with phase := .running, pollSince := s.tick }))
    ∧ ((c.phase ≠ .timed ∨ s.tick < c.startTick) → exec (.timedStart k) s = .next s))
  ∧ (∀ (s : State) k c x, c = s.cell k → c.pendTrap = some x →
    (c.fatals ≠ [] → exec (.trapEntry k) s = .next (s.setCell k { c with pendTrap := none }))
    ∧ (c.fatals = [] → (∃ e ∈ c.live (chipClass (keyChip k)), e ≠ x.eng ∧ (c.eng e).outside = true) →
        exec (.trapEntry k) s = .next s)
    ∧ (c.fatals = [] → (∀ e ∈ c.live (chipClass (keyChip k)), e ≠ x.eng → (c.eng e).outside = false) →
        ∃ t : State, exec (.trapEntry k) s = .next t ∧ SameButCell s t k ∧ (t.cell k).pendTrap = none
          ∧ (t.cell k).epc.toNat = x.pc % 2 ^ 57 / 8 * 8 ∧ (t.cell k).eaddr = x.addr ∧ (t.cell k).engC.pc = c.tvec.toNat
          ∧ (∃ h, (t.cell k).handler = some h ∧ h.trapEng = x.eng ∧ h.trapPc = x.pc ∧ h.cStop = c.engC.pc)
          ∧ (t.cell k).x = c.x ∧ (t.cell k).a = c.a ∧ (t.cell k).spad = c.spad ∧ ∀ e, e ≠ .c → (t.cell k).eng e = c.eng e))
  ∧ (∀ (s : State) k f v, (FMap.find? s.cells k).isSome = true → (s.cell k).mayRun .c = true → (s.cell k).engC.held = none →
      ({ s with cur := .cell k .c } : State).myFault = none → (s.cell k).engC.issued = true →
      (s.cell k).engC.waitVal = some v → s.cInstr k = some (.waittick f) →
      (v.toNat ≤ s.tick → exec (.waittickEnd k) s = .next (({ s with cur := .cell k .c } : State).retire f.hdr f.w1.isSome .seq)))
  ∧ (∀ (s : State) k e p v, ((s.cell k).eng e).held = some p →
      v = (((s.cell k).eng p.eng).applyCq p.cnt).counter p.cnt.toNat →
      (((s.cell k).eng p.eng).done = true → ∃ t : State, exec (.heldPushAccept k e) s = .next t
        ∧ ((t.cell k).eng e).held = none ∧ ∀ g, g ≠ e → (t.cell k).eng g = (s.cell k).eng g)
      ∧ (((s.cell k).eng p.eng).done = false → v ≠ 255 →
          ∃ t : State, exec (.heldPushAccept k e) s = .next t ∧ ((t.cell k).eng e).held = none
            ∧ ((t.cell k).eng p.eng).counter p.cnt.toNat = v + 1)
      ∧ (((s.cell k).eng p.eng).done = false → v = 255 → (∀ x ∈ (s.cell k).nowTok, x.1 ≤ e.num ∨ x.2 ≠ p) →
          exec (.heldPushAccept k e) s = .next s)
      ∧ (∀ e', ((s.cell k).eng p.eng).done = false → v = 255 → (s.cell k).nowTok = [(e'.num, p)] → e.num < e'.num →
          ((s.cell k).eng e').held = none → ((s.cell k).eng e').issued = false → ∃ t : State, exec (.heldPushAccept k e) s = .next t
            ∧ ((t.cell k).eng e).held = none ∧ ((t.cell k).eng e').held = some p
            ∧ ((t.cell k).eng p.eng).counter p.cnt.toNat = ((s.cell k).eng p.eng).counter p.cnt.toNat))
  ∧ (∀ (s : State) k e i n g, g = (s.cell k).eng e → g.cq[i]? = some n →
      ((n ∈ g.cq.take i ∨ g.counter n.toNat = 255) → exec (.completionQueueApply k e i) s = .next s)
      ∧ (n ∉ g.cq.take i → g.counter n.toNat ≠ 255 → exec (.completionQueueApply k e i) s = .next (s.setCell k
          (((s.cell k).setEng e { g.setCounter n.toNat (g.counter n.toNat + 1) with cq := g.cq.eraseIdx i }).noteCq e n 1))))
  ∧ (∀ (s t : State) k line, (s.cell k).l1Holds (lineOf line) = true → s.l1Evict k (s.cellPart k) (lineOf line) true = .ok t →
      exec (.l1Eviction k line) s = .next t)
  ∧ (∀ (s : State) k line, (s.cell k).l1Holds (lineOf line) = false →
      exec (.l1Eviction k line) s = .next (s.replaced k (lineOf line)))

/-- R132, R272, R304, R305, R311, R316, R408, R440: a shard retires when every engine is at END and nothing of it is
left: its restart record stays with its node, and where dirty bytes have no path home its context is condemned instead; that
a tile of a peer not yet added keeps it is the model's choice (log 36). A shard whose engines all wait for each other is
stopped after 2^18 ticks; a cell with a fatal cause stops its node, and a context that is condemned goes with every record;
tiles, messages and commands that wait are performed.
Log entries it touches (notes/assumptions): 10, 36, 49. -/
def Obligations.ShardEventsComplete : Prop :=
  (∀ (s s1 : State) k c, s1 = s.produceStamps k → c = s1.cell k →
    ((c.phase ≠ .running ∨ c.live (chipClass (keyChip k)) ≠ [] ∨ c.jobs ≠ [] ∨ c.stamps ≠ [] ∨ c.peerIn ≠ [] ∨ c.fatals ≠ []
      ∨ c.pendTrap.isSome = true ∨ c.handler.isSome = true) → exec (.shardRetire k) s = .next s1)
    ∧ (c.phase = .running → c.live (chipClass (keyChip k)) = [] → c.jobs = [] → c.stamps = [] → c.peerIn = [] → c.fatals = [] →
        c.pendTrap = none → c.handler = none → ∀ d ctx, d = s1.drainCell k (s1.cellPart k) → ctx = d.nodeCtx c.node →
        (d.condemnedOf ctx ≠ s1.condemnedOf (s1.nodeCtx c.node) → exec (.shardRetire k) s = .next d)
        ∧ (d.condemnedOf ctx = s1.condemnedOf (s1.nodeCtx c.node) →
          ∀ t, t = (((d.dropKept c.node c.flatC c.flatD c.rinst).freeCell k).modNode c.node fun (n : Node) =>
            { n with records := FMap.put n.records (256 * c.flatD + c.flatC) c.record }) → (t.cell k).phase = .idle
          ∧ (∀ n, t.node? c.node = some n → FMap.find? n.records (256 * c.flatD + c.flatC) = some c.record)
          ∧ (t.nodeCells c.node ≠ [] → exec (.shardRetire k) s = .next t)
          ∧ (t.nodeCells c.node = [] → exec (.shardRetire k) s = .next (t.arrive c.node .retiring)))))
  ∧ (∀ (s : State) k, ((s.freeCell k).cell k).phase = .idle ∧ ((s.freeCell k).cell k).acc = (s.cell k).acc
      ∧ ((s.freeCell k).cell k).spad = (s.cell k).spad ∧ ((s.freeCell k).cell k).fe = (s.cell k).fe)
  ∧ (∀ (s : State) k c x, c = s.cell k →
    ((s.quiet k = false ∨ c.live (chipClass (keyChip k)) = []) →
      exec (.engineStall k) s = .next (s.setCell k { c with stalledSince := none }))
    ∧ (∀ t0, s.quiet k = true → c.live (chipClass (keyChip k)) ≠ [] → c.stalledSince = some t0 →
      ((s.tick < t0 + 2 ^ 18 ∨ ∃ e ∈ c.live (chipClass (keyChip k)), (c.eng e).reason = 0 ∨ 12 ≤ (c.eng e).reason) →
        exec (.engineStall k) s = .next s)
      ∧ (t0 + 2 ^ 18 ≤ s.tick → (∀ e ∈ c.live (chipClass (keyChip k)), 1 ≤ (c.eng e).reason ∧ (c.eng e).reason ≤ 11) →
          c.stallCause (chipClass (keyChip k)) = some x → x.code = 0x81
            ∧ exec (.engineStall k) s = .next (s.setCell k { c with fatals := [(s.tick, x)] }))))
  ∧ (∀ (s : State) k, k < 2 ^ 21 →
    (((s.cell k).fatals = [] ∨ (s.cell k).phase = .stopped ∨ (s.cell k).phase = .idle ∨ s.eventRoom = false) →
      exec (.shardStop k) s = .next s)
    ∧ ((s.cell k).fatals ≠ [] → (s.cell k).phase ≠ .stopped → (s.cell k).phase ≠ .idle → s.eventRoom = true →
        (s.contextRecords (s.cell k).node = [] → exec (.shardStop k) s = .next (s.stopNode (s.cell k).node))
        ∧ (∀ r rs, s.contextRecords (s.cell k).node = r :: rs →
            exec (.shardStop k) s = .next (s.terminateCtx (s.nodeCtx (s.cell k).node)
              (r :: rs ++ (s.condemnedOf (s.nodeCtx (s.cell k).node)).map fun (x : FaultRec) => { x with nested := true })))))
  ∧ (∀ (s : State) ctx, (s.condemnedOf ctx = [] → exec (.shardStop (2 ^ 21 + ctx)) s = .next s)
      ∧ (∀ r rs, s.eventRoom = true → s.condemnedOf ctx = r :: rs → exec (.shardStop (2 ^ 21 + ctx)) s = .next (s.terminateCtx ctx
          (r :: (rs.map fun (x : FaultRec) => { x with nested := true }) ++ s.otherRecords ctx none))))
  ∧ (∀ (s : State) k i x, (s.cell k).peerIn[i]? = some x → x.done = false →
    (((s.cell k).serves = false ∨ (s.cell k).tileMayGo i x = false) → exec (.peerTileApply k i) s = .next s)
    ∧ (∀ e es, (s.cell k).serves = true → (s.cell k).tileMayGo i x = true → x.elems = e :: es →
        exec (.peerTileApply k i) s
          = .next (s.setCell k (((s.cell k).addElem x e).setTileIn i { x with elems := es })))
    ∧ (∀ c, (s.cell k).serves = true → (s.cell k).tileMayGo i x = true → x.elems = [] → x.push = none →
        c = (((s.cell k).setTileIn i { x with done := true }).closeRound { x with done := true }) →
        exec (.peerTileApply k i) s = .next ((((s.setCell k c).setCell k
          { c with peerIn := c.peerIn.eraseIdx i }).modJob x.src x.job
            fun (j : Job) => { j with finished := true }).jobDone x.src x.job)))
  ∧ (∀ (c : Cell) x e, let old := (c.accGet (32768 * x.acc + e.1)).toNat
      let r := if x.isF32 then accAdd old e.2.toNat else accAddInt old (toSigned 32 e.2.toNat)
      (c.addElem x e).accGet (32768 * x.acc + e.1) = BitVec.ofNat 32 r.1 ∧ (c.addElem x e).mstat = c.mstat ||| r.2
        ∧ ∀ n, n ≠ 32768 * x.acc + e.1 → (c.addElem x e).accGet n = c.accGet n)
  ∧ (∀ (s : State) k j, ((s.cell k).job? j = none → exec (.asyncCompletion k j) s = .next s)
      ∧ ∀ x, (s.cell k).job? j = some x → ((s.jobNext k j).cell k).job? j = none →
          exec (.asyncCompletion k j) s = .next (s.jobNext k j))
  ∧ (∀ (s : State) k j x, (s.cell k).job? j = some x → ((s.jobNext k j).cell k).job? j = some x →
      exec (.asyncCompletion k j) s = .next (s.jobNext k j))
  ∧ (∀ (s : State) k j x y, (s.cell k).job? j = some x → ((s.jobNext k j).cell k).job? j = some y → x ≠ y →
      exec (.asyncCompletion k j) s = .next (State.jobRun k j (2 ^ 40 - 1) (s.jobNext k j)))
  ∧ (∀ (s : State) chip i m, (s.die chip).out[i]? = some m →
      (mayGo ((s.die chip).out.take i) m = false → exec (.accessPerformed (.message chip i)) s = .next s)
      ∧ (∀ t, mayGo ((s.die chip).out.take i) m = true → s.perform chip m = .ok t →
          exec (.accessPerformed (.message chip i)) s = .next
            (t.setDie chip { t.die chip with out := (t.die chip).out.filter fun x => !(x.home == m.home && x.seq == m.seq) }))
      ∧ (∀ id j w, mayGo ((s.die chip).out.take i) m = true →
          (s.perform chip m = .error (.tile id j w false) → exec (.accessPerformed (.message chip i)) s = .next (s.hold id j w))
          ∧ (s.perform chip m = .error (.tile id j w true) →
              exec (.accessPerformed (.message chip i)) s = .next ((s.startFetch id j none).hold id j w))))
  ∧ (∀ (s : State) k, (FMap.find? s.cells k).isNone = true → exec (.traceRetry k) s = .next s)
  ∧ (∀ (s : State) k t, (FMap.find? s.cells k).isSome = true → t = s.produceStamps k →
      (∀ j ∈ (t.cell k).jobs, j.finished = false ∨ j.eng ≠ .m) →
      ((t.cell k).engC.issued = false → exec (.traceRetry k) s = .next t)
      ∧ (∀ f, (t.cell k).engC.issued = true → t.cInstr k = some (.mark f) →
          exec (.traceRetry k) s = exec (.mark f) { t with cur := .cell k .c }))

/-! ## Graphs, packets, commands -/

namespace Sys2Proof.Claims

/-- The nodes of a partition placed as far as they fit, in the order of R342, one of them perhaps left out: each of them
tried in turn. Classes whose placement firmware defers are left out, which it may do in BATCHED alone, and for no class
of a node whose latency tolerance has run out (R359; which classes those are is free). -/
def Placed (s t : State) (part : Nat) (gone : Option Nat) : Prop :=
  ∃ late : List Nat, t = ((s.candidates part).filter fun n => some n != gone).foldl
      (fun (u : State) n => u.tryPlace part n late gone) { s with drawn := s.drawn + 1 }
    ∧ (∀ p, s.part? part = some p → (∀ x ∈ p.power, x.1 ≠ 6) → late = [])
    ∧ (∀ n d, n ∈ s.candidates part → s.node? n = some d → d.runnableAt + d.lattol ≤ s.tick → d.cls ∉ late)

end Sys2Proof.Claims

/-- R339 to R343, R351, R352, R354, R355, R357, R359, R392: the events of nodes: what each does where its condition holds,
and that it does nothing where it does not. An event of a queue runs once a firmware core is idle and none that arrived
before it is pending. That a prologue starts with no scalar register written (log 51), and which classes firmware defers
(log 139), are the model's choices.
Log entries it touches (notes/assumptions): 10, 51, 57, 59, 139. -/
def Obligations.NodeEventsComplete : Prop :=
  (∀ (s : State) n d, s.node? n = some d →
    (d.st = .retiring → s.queueTurn d = true → exec (.nodeRetire n) s = .next (s.retireNode n))
    ∧ (d.st ≠ .retiring → exec (.nodeRetire n) s = .next s)
    ∧ ((s.lockHeld d.queue = true ∨ 12 ≤ s.prols.length) → exec (.nodeRetire n) s = .next s)
    ∧ (∀ m e, s.node? m = some e → m ≠ n → e.queue = d.queue → e.st = .retiring → e.arrival < d.arrival →
        exec (.nodeRetire n) s = .next s)
    ∧ (∀ b, (s.queue d.queue).bell = some b → b < d.arrival → exec (.nodeRetire n) s = .next s))
  ∧ (∀ (s : State) p, ∃ t : State, exec (.nodePlace p) s = .next t ∧ Placed s t p none)
  ∧ (∀ (s : State) n d, s.node? n = some d →
    (d.st = .runnable → d.start ≤ s.tick + 2 ^ 16 →
      ∃ t : State, exec (.timedPlacementOpen n) s = .next t ∧ Placed s t (s.ctxPart d.ctx) none)
    ∧ ((d.st ≠ .runnable ∨ s.tick + 2 ^ 16 < d.start) → exec (.timedPlacementOpen n) s = .next s)
    ∧ (d.st = .runnable → d.runnableAt + d.lattol ≤ s.tick →
        ∃ t : State, exec (.latencyToleranceExpiry n) s = .next t ∧ Placed s t (s.ctxPart d.ctx) none)
    ∧ ((d.st ≠ .runnable ∨ s.tick < d.runnableAt + d.lattol) → exec (.latencyToleranceExpiry n) s = .next s))
  ∧ (∀ (s : State) n d o, s.node? n = some d → FMap.find? s.objects d.kobj = some o →
    ((d.st ≠ .runnable ∨ d.placedAt ≠ 0 ∨ s.tick < d.clsSince + s.fbwait (s.ctxPart d.ctx) ∨ nextClass o d.cls = none
        ∨ s.fits d o = true ∨ s.eventTurn d.queue = false) → exec (.fallbackTimeout n) s = .next s)
    ∧ ∀ c, d.st = .runnable → d.placedAt = 0 → d.clsSince + s.fbwait (s.ctxPart d.ctx) ≤ s.tick → nextClass o d.cls = some c →
        s.fits d o = false → s.eventTurn d.queue = true →
        exec (.fallbackTimeout n) s = .next (State.chooseClass 4
          (s.modNode n fun (d : Node) => { d with cls := c, clsSince := s.tick }) n))
  ∧ (∀ (s : State) n d, s.node? n = some d → (d.st = .running → d.discarding = true → exec (.nodeHalted n) s = .next (s.haltDone n))
    ∧ ((d.st = .faulted ∨ d.st = .retiring) → exec (.nodeHalted n) s = .next (s.releasePreempts n)))
  ∧ (∀ (s : State) n d, s.node? n = some d → d.st ≠ .runnable → exec (.slotStarvation n) s = .next s)
  ∧ (∀ (s : State) n d o part v w, s.node? n = some d → FMap.find? s.objects d.kobj = some o → part = s.ctxPart d.ctx →
      d.st = .runnable → d.clsSince + s.dltime part ≤ s.tick → n ∈ s.candidates part →
      (∀ k ∈ s.usable d o, ∃ c, FMap.find? s.cells k = some c ∧ c.phase ≠ .idle ∧ c.phase ≠ .stopped
        ∧ s.spinning (s.dltime part) c.node = true) →
      s.eventTurn d.queue = true → s.eventRoom = true → s.lastSpinning part (s.dltime part) d.cls = some v → s.node? v = some w →
      (w.starved < 3 → ∃ t : State, exec (.slotStarvation n) s = .next t ∧ Placed ((s.discardNode v).modNode v
        fun (w : Node) => { w with starved := w.starved + 1 }) t part (some v))
      ∧ (3 ≤ w.starved → exec (.slotStarvation n) s = .next (((((s.discardNode v).markFaulted w.queue w.pkt).modNode v fun (w : Node) =>
        { w with st := .faulted }).faultQueue w.queue w.pkt 0xC4).gsdFault v w.queue w.pkt w.ctx 0xC4)))
  ∧ (∀ (s : State) n d p o k c, s.node? n = some d → d.st = .prologue → s.part? (s.ctxPart d.ctx) = some p →
      p.activeCtx = d.ctx → s.ctx? d.ctx = some c → c.terminated = false → c.condemned = [] →
      s.queueTurn d = true → FMap.find? s.objects d.prolObj = some o →
      FMap.find? s.objects d.kobj = some k →
      o.gone = false → ∃ t : State, exec (.prologueRun n) s = .next t ∧ t.mem = s.mem ∧ t.cells = s.cells
        ∧ t.lockHeld d.queue = true
        ∧ ∃ q, FMap.find? t.prols n = some q ∧ q.count = 0 ∧ q.core.phase = .running ∧ q.core.node = n
          ∧ q.core.engC.pc = (match o.sections.head? with | some x => 8 * x.entry | none => 0) ∧ q.core.x = [])
  ∧ (∀ (s : State) n d, s.node? n = some d → (s.lockHeld d.queue = true ∨ 12 ≤ s.prols.length) →
      exec (.prologueRun n) s = .next s)
  ∧ (∀ (s t : State) n v, (FMap.find? s.prols n = none → exec (.lthbWrite n v) s = .next s)
      ∧ ((FMap.find? s.prols n).isSome = true → s.writeLthb n v = .ok t → exec (.lthbWrite n v) s = .next t))
  ∧ (∀ (s : State) q, (s.queue q).blockedOn = none → exec (.queueDeadlock q) s = .next s)
  ∧ (∀ (s : State) q c dl, s.cycleFrom q (s.queues.length + 1) [q] q = some c → dl = s.dltime (s.ctxPart (s.queue q).ctx) →
      ((∃ x ∈ c, s.tick < (s.queue x).lastAdmit + dl) → exec (.queueDeadlock q) s = .next s)
      ∧ ((∀ x ∈ c, (s.queue x).lastAdmit + dl ≤ s.tick
            ∧ FMap.get s.sigTick (((s.queue x).blockedOn).getD 0) 0 + dl ≤ s.tick) → s.reported = [] → s.coreIdle = true →
            s.eventRoom = true →
          ∃ t : State, exec (.queueDeadlock q) s = .next t ∧ t.reported = [c] ∧ t.queues = s.queues ∧ t.nodes = s.nodes))

namespace Sys2Proof.Claims

/-- A packet may be handled: its queue is active, its FENCE is met, its header is well formed (R346, R349). -/
def Admissible (s : State) (p : Pkt) : Prop :=
  (s.queue p.queue).st = 1 ∧ (p.fence = true → s.openIn p.queue = false) ∧ p.resv = false
    ∧ (p.sigid < 16384 ∨ p.sigid = 2 ^ 32 - 1)

/-- The packet constructors. -/
def packets (p : Pkt) : List Instr :=
  [.graphLaunch p, .nodeLaunch p, .signal p, .wait p, .bufferCreate p, .bufferDrop p, .bufferPublish p, .barrier p, .timed p]

/-- A state that differs from another in what reads at the home leave: moves of tiles that are ended, the last accesses
of tiles and the die caches. -/
def Touched (s t : State) : Prop :=
  { t with mem := s.mem, tags := s.tags, bad := s.bad, buffers := s.buffers, dies := s.dies, drawn := s.drawn } = s

/-- A SIGID and an OP, or a condition, as b0 holds them. -/
def pktSig (p : Pkt) : Nat := p.b0.toNat % 2 ^ 32
def pktOp (p : Pkt) : Nat := p.b0.toNat / 2 ^ 32

end Sys2Proof.Claims

/-- R332, R347 to R350, R354: what each packet of a queue does: none of a queue that is not active or whose FENCE is not
met; BAD_FIELD for a malformed one; SIGNAL stores or adds; WAIT completes or holds the queue; BARRIER waits for the earlier
packets; TIMED keeps a start tick; a launch is admitted once every check of R332 holds and the table has room. -/
def Sys2Proof.Claims.QueuePacketsComplete : Prop :=
  (∀ (s : State) p i, i ∈ packets p → ((s.queue p.queue).st ≠ 1 → exec i s = .next s)
    ∧ (p.fence = true → s.openIn p.queue = true → exec i s = .next s)
    ∧ ((s.queue p.queue).st = 1 → (p.fence = true → s.openIn p.queue = false) →
        (p.resv = true ∨ (16384 ≤ p.sigid ∧ p.sigid ≠ 2 ^ 32 - 1)) → exec i s = .next (s.admitDone p 0x11)))
  ∧ (∀ (s : State) p, Admissible s p →
    ((pktSig p < 16384 ∧ pktOp p ≤ 1 ∧ p.b2 = 0 ∧ p.b3 = 0) → exec (.signal p) s = .next ((s.changeSignal (pktSig p)
        (if pktOp p = 0 then p.b1 else FMap.get s.signals (pktSig p) 0 + p.b1)).admitDone p 0x01))
    ∧ (¬ (pktSig p < 16384 ∧ pktOp p ≤ 1 ∧ p.b2 = 0 ∧ p.b3 = 0) → exec (.signal p) s = .next (s.admitDone p 0x11))
    ∧ (¬ (pktSig p < 16384 ∧ pktOp p ≤ 3 ∧ p.b2 = 0 ∧ p.b3 = 0) → exec (.wait p) s = .next (s.admitDone p 0x11))
    ∧ ((pktSig p < 16384 ∧ pktOp p ≤ 3 ∧ p.b2 = 0 ∧ p.b3 = 0) →
        (waitHolds (pktOp p) (FMap.get s.signals (pktSig p) 0) p.b1 = true → exec (.wait p) s = .next (s.admitDone p 0x01))
        ∧ (waitHolds (pktOp p) (FMap.get s.signals (pktSig p) 0) p.b1 = false → s.lowFree ≠ 0 →
            s.nodes.length + s.waits < 65536 → exec (.wait p) s = .next ((s.takeIn p 0).modQueue p.queue
              fun (q : Queue) => { q with st := 2, wait := some (pktSig p, pktOp p, p.b1) })))
    ∧ ((p.b0 = 0 ∧ p.b1 = 0 ∧ p.b2 = 0 ∧ p.b3 = 0) →
        (s.openIn p.queue = true → exec (.barrier p) s = .next s)
        ∧ (s.openIn p.queue = false → exec (.barrier p) s = .next (s.admitDone p 0x01)))
    ∧ ((p.b1 = 0 ∧ p.b2 = 0 ∧ p.b3 = 0) → exec (.timed p) s = .next ((s.modQueue p.queue fun (q : Queue) =>
        { q with timed := some (s.timeBase.tickOf s.tick p.b0.toNat) }).admitDone p 0x01)))
  ∧ (∀ (s : State) p prol param recs es,
    ((∃ r ∈ recs, s.recOk (s.pktCtx p) r = false) → s.launchChecked p prol param recs es = .error (s.admitDone p 0x11))
    ∧ ((∀ r ∈ recs, s.recOk (s.pktCtx p) r = true) →
      ((acyclic (es.length + 1) es = false ∨ s.transfersOk recs es = false ∨ 16384 < graphBlocks recs.length es) →
        s.launchChecked p prol param recs es = .error (s.admitDone p 0x12))
      ∧ (acyclic (es.length + 1) es = true → s.transfersOk recs es = true → graphBlocks recs.length es ≤ 16384 →
        (s.capsOk (s.pktCtx p) recs = false → s.launchChecked p prol param recs es = .error (s.admitDone p 0x13))
        ∧ (s.capsOk (s.pktCtx p) recs = true →
            s.launchChecked p prol param recs es = .ok (s.admitLaunch p prol param recs es)))))
  ∧ (∀ (s : State) p prol param recs es, (s.roomFor recs.length (graphBlocks recs.length es) = false →
      s.admitLaunch p prol param recs es = s)
    ∧ (s.roomFor recs.length (graphBlocks recs.length es) = true →
      (s.admitLaunch p prol param recs es).opens = s.opens ++ [{ s.openOf p with left := recs.length }]
      ∧ ((s.admitLaunch p prol param recs es).queue p.queue).rd = ((s.queue p.queue).rd + 1) % 2 ^ 32))
  ∧ (∀ (s : State) p, Admissible s p → p.b1 ≠ 0 → (s.objIn (s.pktCtx p) p.b1.toNat).isSome = true →
      p.b3.toNat % 2 ^ 8 ≤ 7 → p.b3.toNat / 2 ^ 8 ≤ 4 → ∃ r, r.kobj = p.b0.toNat ∧ r.prio = p.b3.toNat % 2 ^ 8
        ∧ r.cls = p.b3.toNat / 2 ^ 8 ∧ r.caps = [] ∧ exec (.nodeLaunch p) s = .next
          (match s.launchChecked p p.b1.toNat p.b2 [r] [] with | .ok t => t | .error t => t))
  ∧ (∀ (s : State) p h nn ne nb eb recs, Admissible s p → p.b1 = 0 → p.b2 = 0 → p.b3 = 0 → s.pktRead p p.b0 32 = .ok h →
      nn = fieldAt h 0 4 → ne = fieldAt h 4 4 → fieldAt h 0x18 8 = 0 → 1 ≤ nn → nn ≤ 65536 → ne ≤ 1048576 →
      s.pktRead p (p.b0 + BitVec.ofNat 64 (fieldAt h 8 8)) (64 * nn) = .ok nb →
      s.pktRead p (p.b0 + BitVec.ofNat 64 (fieldAt h 0x10 8)) (16 * ne) = .ok eb →
      recs = (chunks 64 nn nb).map nodeRecOf → (∀ r ∈ recs, r.ok = true ∧ r.capList = 0) →
      (∀ e ∈ (chunks 16 ne eb).map edgeRecOf, e.zero = true ∧ e.src < nn ∧ e.dst < nn ∧ e.mode ≤ 2) →
      ∃ t : State, Touched s t ∧ exec (.graphLaunch p) s = .next
        (match t.launchChecked p 0 0 recs ((chunks 16 ne eb).map edgeRecOf) with | .ok u => u | .error u => u))

/-- R180, R196, R200, R337, R360: the BUFFER packets: create makes a buffer of whole pages and writes its capability to
RESULT, drop takes a reference back, publish exchanges the two backings of a DOUBLE buffer. -/
def Sys2Proof.Claims.BufferPackets : Prop :=
  (∀ (s : State) p, Admissible s p → p.b0.toNat < 2 ^ 16 → p.b2 ≠ 0 →
    (s.capCheck (s.pktCtx p) p.b2 0 = none → exec (.bufferDrop p) s = .next ((s.dropRef (capId p.b2)).admitDone p 0x01))
    ∧ (∀ c, s.capCheck (s.pktCtx p) p.b2 0 = some c → exec (.bufferDrop p) s = .next (s.admitDone p 0x13))
    ∧ (∀ c, s.capCheck (s.pktCtx p) p.b2 1 = some c → exec (.bufferPublish p) s = .next (s.admitDone p 0x13))
    ∧ (∀ b, s.capCheck (s.pktCtx p) p.b2 1 = none → s.buf? (capId p.b2) = some b →
        (b.double = true → exec (.bufferPublish p) s
            = .next (((s.publishBuffer (capId p.b2)).noteExchange (capId p.b2) 0 none).admitDone p 0x01))
        ∧ (b.double = false → exec (.bufferPublish p) s = .next (s.admitDone p 0x13))))
  ∧ (∀ (s : State) p unit len id t b, Admissible s p → p.b0.toNat < 2 ^ 16 → p.b1 ≠ 0 → s.resultOk p = .ok () →
      unit = (if p.b0.getLsbD 9 then 65536 else 16384) → len = (p.b1.toNat + unit - 1) / unit * unit →
      (p.b0.getLsbD 9 = true → (p.b0.getLsbD 8 = true ∨ p.b0.getLsbD 10 = true) →
        exec (.bufferCreate p) s = .next (s.admitDone p 0x11))
      ∧ ((p.b0.getLsbD 9 = false ∨ p.b0.getLsbD 8 = false ∧ p.b0.getLsbD 10 = false) →
        ((2 ^ 48 ≤ len ∨ s.quotaLeft (s.ctxPart (s.pktCtx p)) < len / 16384 * (if p.b0.getLsbD 8 then 2 else 1)) →
          exec (.bufferCreate p) s = .next (s.admitDone p 0x14))
        ∧ (len < 2 ^ 48 → len / 16384 * (if p.b0.getLsbD 8 then 2 else 1) ≤ s.quotaLeft (s.ctxPart (s.pktCtx p)) →
          s.createBuffer (s.pktCtx p) len (p.b0.getLsbD 8) (p.b0.getLsbD 9) (p.b0.getLsbD 10) (p.b0.getLsbD 11)
            (p.b0.toNat / 2 ^ 12) true = some (id, t) → t.buf? id = some b →
          exec (.bufferCreate p) s = .next ((t.putResult p (mkCap id 0xF b.tag b.gen)).admitDone p 0x01))))

/-- R332, R337, R347 to R350, R354: what each packet of a queue does.
Log entries it touches (notes/assumptions): 53, 56, 58. -/
def Obligations.PacketsComplete : Prop := QueuePacketsComplete ∧ BufferPackets

namespace Sys2Proof.Claims

/-- A command completes with OK and a RESULT, in a state; or with another status and no effect. -/
def Done (i : Cmd → Instr) (c : Cmd) (s t : State) (result : Nat) : Prop := exec (i c) s = .next (t.cmdDone c 0 result)
def Refused (i : Cmd → Instr) (c : Cmd) (s : State) (status : Nat) : Prop := exec (i c) s = .next (s.cmdDone c status 0)

/-- The commands that only the command ring takes. -/
def ringCommands (c : Cmd) : List Instr :=
  [.partCreate c, .partDestroy c, .ctxCreate c, .ctxDestroy c, .ctxSwitch c, .preempt c, .map c, .unmap c, .faultReply c,
   .objLoad c, .objPatch c, .objUnload c, .graphCancel c, .haltResume c, .haltDiscard c, .dumpArea c, .watchDefaults c,
   .traceDefaults c, .stopAt c, .roleSet c, .powerSet c]

/-- A context that a command may name: it exists and is not terminated (R387, R428). -/
def Named (s : State) (ctx : Nat) (x : Ctx) : Prop := s.ctx? ctx = some x ∧ x.terminated = false

/-- The partition that PART_CREATE makes (R384, R387), at a version of the discovery table. -/
def newPart (c : Cmd) (ver : Nat) (others : List Nat) : Part :=
  { ver := ver, stackMask := c.w0.toNat % 2 ^ 8, dies := others, hbmFrames := c.w2.toNat * 65536, usedFrames := 0
    respool := c.w3.toNat, activeCtx := 0
    power := [(0, 0), (0, 0), (0, 0), (0, 0)] }

/-- A command of the ring that may be handled: the device is READY. -/
def Taken (s : State) (c : Cmd) : Prop := s.ready = true ∧ c.i3c = false

end Sys2Proof.Claims

/-- R384 to R388, R391, R396, R458: the commands on partitions, contexts and translation: what each does once its checks
hold, and the status of a check that fails; before READY a command of the ring does nothing.
Log entries it touches (notes/assumptions): 55, 65, 68, 73. -/
def Obligations.ContextCommandsComplete : Prop :=
  (∀ (s : State) c i, i ∈ ringCommands c → s.ready = false → exec i s = .next s)
  ∧ (∀ (s : State) c p, Taken s c → s.part? c.w0.toNat = some p → c.w1 = 0 → c.w2 = 0 → c.w3 = 0 → c.w4 = 0 → c.w5 = 0 →
    ((∃ e ∈ s.ctxs, e.2.part = c.w0.toNat) → Refused .partDestroy c s 0x20)
    ∧ ((∀ e ∈ s.ctxs, e.2.part ≠ c.w0.toNat) → ∃ t : State, Done .partDestroy c s t 0 ∧ t.part? c.w0.toNat = none
        ∧ (∀ i, (t.die i).part = if (s.die i).part = c.w0.toNat then 0 else (s.die i).part)
        ∧ { t with dies := s.dies, parts := s.parts } = s))
  ∧ (∀ (s : State) c, Taken s c → 2 ^ 40 ≤ c.w0.toNat → Refused .partCreate c s 0x21)
  ∧ (∀ (s : State) c (role : Nat → Nat) layers others id, Taken s c → c.w0.toNat < 2 ^ 40 → c.w4 = 0 → c.w5 = 0 →
      role = (fun i => if (s.die i).role = 3 then 3 else if c.w0.toNat.testBit (8 + (i - 1)) then 1 else 0) →
      layers = layersIn (c.w0.toNat % 2 ^ 8) → others = (List.range 64).filter (fun i => c.w1.getLsbD i) →
      (∀ i, 1 ≤ i → i ≤ 32 → c.w0.toNat.testBit (8 + (i - 1)) = true → i ∈ layers) →
      (∀ i ∈ others, 33 ≤ i ∧ i ≤ 37 ∧ (s.die i).role ≠ 3) → (∃ i ∈ layers, s.present i = true ∧ role i = 0) →
      (∀ i ∈ layers ++ others, (s.die i).part = 0) →
      (∀ k, k < 8 → c.w0.toNat.testBit k = true → stackWatts role k ≤ s.stackLimit) → s.parts.length < 8 →
      c.w2.toNat + s.parts.foldl (fun a e => a + e.2.hbmFrames / 65536) 0 ≤ s.hbmGiB →
      1 ≤ id → id ≤ 8 → s.part? id = none → (∀ j, 1 ≤ j → j < id → (s.part? j).isSome = true) →
      ∃ t : State, ((∀ i ∈ layers, role i = (s.die i).role) → Done .partCreate c s t id)
        ∧ ((∃ i ∈ layers, role i ≠ (s.die i).role) →
            exec (.partCreate c) s = .next { t with reenum := some ⟨id, none, c, id⟩ })
        ∧ t.part? id = some (newPart c s.version others)
        ∧ (∀ i ∈ layers, (t.die i).part = id ∧ (t.die i).role = role i) ∧ (∀ i ∈ others, (t.die i).part = id)
        ∧ (∀ i, i ∉ layers → i ∉ others → t.die i = s.die i))
  ∧ (∀ (s : State) c p, Taken s c → c.w1.toNat < 2 ^ 16 → s.part? c.w0.toNat = some p →
    ((c.w1 = 0 ∨ (s.ctx? c.w1.toNat).isSome = true ∨ ∃ w ∈ [c.w2, c.w3, c.w4, c.w5], aperOk w = false) →
      Refused .ctxCreate c s 0x21)
    ∧ (c.w1 ≠ 0 → s.ctx? c.w1.toNat = none → (∀ w ∈ [c.w2, c.w3, c.w4, c.w5], aperOk w = true) →
      (16 ≤ (s.ctxs.filter fun e => e.2.part == c.w0.toNat).length → Refused .ctxCreate c s 0x23)
      ∧ (∀ f fs, (s.ctxs.filter fun e => e.2.part == c.w0.toNat).length < 16 → s.findFrames (fun _ => true) 1 = some (f :: fs) →
          ∃ t : State, Done .ctxCreate c s t 0 ∧ t.tickKept = true
            ∧ t.ctx? c.w1.toNat = some (Ctx.fresh c.w0.toNat (f * 16384) [c.w2, c.w3, c.w4, c.w5]))))
  ∧ (∀ (s : State) c x, Taken s c → s.ctx? c.w0.toNat = some x → c.w1 = 0 → c.w2 = 0 → c.w3 = 0 → c.w4 = 0 → c.w5 = 0 →
    (s.ctxIdle c.w0.toNat = false → Refused .ctxDestroy c s 0x20)
    ∧ (s.ctxIdle c.w0.toNat = true → Done .ctxDestroy c s (s.destroyCtx c.w0.toNat x) 0))
  ∧ (∀ (s : State) c p x, Taken s c → s.part? c.w0.toNat = some p → Named s c.w1.toNat x → x.part = c.w0.toNat →
      c.w2 = 0 → c.w3 = 0 → c.w4 = 0 → c.w5 = 0 → (p.activeCtx = c.w1.toNat → Done .ctxSwitch c s s 0)
      ∧ (p.activeCtx ≠ c.w1.toNat → Done .ctxSwitch c s (s.switchTo c.w0.toNat c.w1.toNat) 0))
  ∧ (∀ (s : State) c, Taken s c → c.w2 = 0 → c.w3 = 0 → c.w4 = 0 → c.w5 = 0 →
      (∀ d, c.w0 = 0 → c.w1.toNat < 2 ^ 16 → s.node? c.w1.toNat = some d → d.st ≠ .running → d.st ≠ .prologue → Done .preempt c s s 0)
      ∧ (∀ d p, c.w0 = 0 → c.w1.toNat < 2 ^ 16 → s.node? c.w1.toNat = some d → d.st = .prologue →
          s.part? (s.ctxPart d.ctx) = some p → p.activeCtx ≠ d.ctx → Done .preempt c s s 0)
      ∧ (c.w0 = 0 → c.w1.toNat < 2 ^ 16 → s.node? c.w1.toNat = none → Refused .preempt c s 0x24)
      ∧ (∀ d, c.w0 = 0 → c.w1.toNat < 2 ^ 16 → s.node? c.w1.toNat = some d → d.st = .running →
          exec (.preempt c) s = .next ((s.modNode c.w1.toNat fun (d : Node) => { d with preempts := c :: d.preempts }).haltNode
            c.w1.toNat)))
  ∧ (∀ (s : State) c x size unit blocks, Taken s c → Named s c.w0.toNat x → size = c.w3.toNat / 2 ^ 8 → size ≤ 2 →
      c.w3.toNat % 2 ^ 8 ≤ 1 → c.w5 = 0 → c.w4.toNat % 8 = 0 → unit = sizeBytes size → c.w1.toNat % unit = 0 → c.w2.toNat % unit = 0 →
      c.w1.toNat + c.w2.toNat ≤ 2 ^ 57 → s.leafIn c.w0.toNat c.w1.toNat c.w2.toNat = false →
      s.buffersIn c.w0.toNat c.w1.toNat c.w2.toNat = [] →
      (s.quotaLeft x.part < c.w2.toNat / 16384 → Refused .map c s 0x23)
      ∧ (c.w2.toNat / 16384 ≤ s.quotaLeft x.part → s.findBlocks (Nat.log2 (unit / 16384)) (c.w2.toNat / unit) = some blocks →
          ∀ t, t = s.mapPages x.part c.w0.toNat c.w1.toNat size c.w4.toNat (c.w3.getLsbD 0) 0 blocks →
            (t.mapped c.w0.toNat c.w1.toNat c.w2.toNat = false → Refused .map c s 0x23)
            ∧ (t.mapped c.w0.toNat c.w1.toNat c.w2.toNat = true →
                Done .map c s (t.tlbInv allChips c.w0.toNat c.w1.toNat c.w2.toNat) 0)))
  ∧ (∀ (s : State) c x, Taken s c → Named s c.w0.toNat x → c.w3 = 0 → c.w4 = 0 → c.w5 = 0 → c.w1.toNat % 16384 = 0 →
      c.w2.toNat % 16384 = 0 → c.w1.toNat + c.w2.toNat ≤ 2 ^ 57 → s.buffersIn c.w0.toNat c.w1.toNat c.w2.toNat = [] →
      ((∃ l ∈ (s.ctxTree c.w0.toNat).2, l.1 < c.w1.toNat + c.w2.toNat ∧ c.w1.toNat < l.1 + 2 ^ l.2.2
          ∧ (l.1 < c.w1.toNat ∨ c.w1.toNat + c.w2.toNat < l.1 + 2 ^ l.2.2)) → Refused .unmap c s 0x21)
      ∧ ((∀ l ∈ (s.ctxTree c.w0.toNat).2, l.1 < c.w1.toNat + c.w2.toNat → c.w1.toNat < l.1 + 2 ^ l.2.2 →
          c.w1.toNat ≤ l.1 ∧ l.1 + 2 ^ l.2.2 ≤ c.w1.toNat + c.w2.toNat) →
        ∃ other : List Nat, Done .unmap c s ((other.foldl (fun (t : State) p => t.setPage c.w0.toNat p 0 0)
          (((s.ctxTree c.w0.toNat).2.filter fun l => decide (l.1 < c.w1.toNat + c.w2.toNat)
              && decide (c.w1.toNat < l.1 + 2 ^ l.2.2)).foldl
            (fun (t : State) l => t.unmapLeaf x.part c.w0.toNat false l) s)).tlbInv allChips c.w0.toNat c.w1.toNat c.w2.toNat) 0))
  ∧ (∀ (s : State) c x, Taken s c → Named s c.w0.toNat x → c.w1.toNat % 16384 = 0 → c.w2.toNat ≤ 1 → c.w3 = 0 → c.w4 = 0 →
      c.w5 = 0 →
      ((∀ r ∈ s.faults, r.ctx = c.w0.toNat → r.page = c.w1.toNat / 16384 → r.killed = true) → Refused .faultReply c s 0x24)
      ∧ ((∃ r ∈ s.faults, r.ctx = c.w0.toNat ∧ r.page = c.w1.toNat / 16384 ∧ r.killed = false) →
        ∃ fs, Done .faultReply c s { s with faults := fs } 0
          ∧ (c.w2 = 0 → ∀ r, r ∈ fs ↔ r ∈ s.faults ∧ ¬ (r.ctx = c.w0.toNat ∧ r.page = c.w1.toNat / 16384 ∧ r.killed = false))
          ∧ (c.w2 = 1 → ∀ r ∈ fs, r.ctx = c.w0.toNat → r.page = c.w1.toNat / 16384 → r.killed = true)))

/-- R110 to R113, R138, R397, R398, R411, R417, R420, R436, R437, R443 to R450, R458, R463 to R466: the commands on
objects, halted work, defaults, roles, power and firmware; STOP_AT compares with the tick at which the command arrived. That
WATCH_DEFAULTS masks the reserved bits of its triples (log 69), and that a ROLE_SET that changes a role ends in a second step,
the re-enumeration (log 73), are the model's reading of the rules.
Log entries it touches (notes/assumptions): 5, 55, 69, 71, 73, 74, 75, 94, 97. -/
def Obligations.ObjectAndDeviceCommandsComplete : Prop :=
  (∀ (s : State) c x, Taken s c → Named s c.w0.toNat x → c.w1.toNat % 8 = 0 → c.w3 = 0 → c.w4 = 0 → c.w5 = 0 →
    (∀ st, loadImage (s.hostRead c.w1.toNat c.w2.toNat) = .error st → Refused .objLoad c s st)
    ∧ (∀ im tb u db t, loadImage (s.hostRead c.w1.toNat c.w2.toNat) = .ok im → s.buildTiles c.w0.toNat im.tiles = some (tb, u) →
        u.buildData c.w0.toNat im.data = some (db, t) → ∃ o : CodeObj, o.ctx = c.w0.toNat ∧ o.sections = im.sections
          ∧ o.slots = im.slots ∧ o.levels = im.levels ∧ o.tileBuf = tb ∧ o.dataBuf = db ∧ o.gone = false
          ∧ Done .objLoad c s { t with objects := FMap.put t.objects s.nextHandle o, nextHandle := s.nextHandle + 1 } s.nextHandle))
  ∧ (∀ (s : State) c o x, Taken s c → FMap.find? s.objects c.w0.toNat = some o → o.gone = false → Named s o.ctx x → c.w3 = 0 →
      c.w4 = 0 → c.w5 = 0 →
      (o.slots[c.w1.toNat]? = none → Refused .objPatch c s 0x0E)
      ∧ (∀ y, o.slots[c.w1.toNat]? = some y → slotOk o.sections y c.w2.toNat = false → Refused .objPatch c s 0x0E)
      ∧ (∀ y, o.slots[c.w1.toNat]? = some y → slotOk o.sections y c.w2.toNat = true → ∃ t : State, Done .objPatch c s t 0
          ∧ FMap.find? t.objects c.w0.toNat = some { o with sections := patchWords o.sections y c.w2.toNat, slots := setNth o.slots c.w1.toNat { y with value := c.w2 } }
          ∧ t.mem = s.mem ∧ t.nodes = s.nodes))
  ∧ (∀ (s : State) c o x, Taken s c → FMap.find? s.objects c.w0.toNat = some o → o.gone = false → Named s o.ctx x → c.w1 = 0 →
      c.w2 = 0 → c.w3 = 0 → c.w4 = 0 → c.w5 = 0 → (s.refersTo c.w0.toNat = true → Refused .objUnload c s 0x20)
      ∧ (s.refersTo c.w0.toNat = false → ∃ t : State, Done .objUnload c s t 0 ∧ FMap.find? t.objects c.w0.toNat = none))
  ∧ (∀ (s : State) c, Taken s c → c.w2 = 0 → c.w3 = 0 → c.w4 = 0 → c.w5 = 0 →
      (s.opens.find? (fun (o : Open) => o.queue == c.w0.toNat && o.idx == c.w1.toNat && o.left != 0) = none →
        Refused .graphCancel c s 0x24)
      ∧ (∀ o ns, s.opens.find? (fun (o : Open) => o.queue == c.w0.toNat && o.idx == c.w1.toNat && o.left != 0) = some o →
          ns = s.entriesOf (fun d => d.queue == c.w0.toNat && d.pkt == c.w1.toNat) →
          Done .graphCancel c s (((ns.foldl (fun (s : State) n => s.discardNode n) s).freeEntries ns).complete o
            (if o.faulted then 0x03 else 0x02)) 0))
  ∧ (∀ (s : State) c d, Taken s c → c.w0.toNat < 2 ^ 16 → s.node? c.w0.toNat = some d → c.w1 = 0 → c.w2 = 0 → c.w3 = 0 →
      c.w4 = 0 → c.w5 = 0 → (s.haltedCells c.w0.toNat = [] → Refused .haltResume c s 0x21 ∧ Refused .haltDiscard c s 0x21)
      ∧ (s.haltedCells c.w0.toNat ≠ [] → Done .haltDiscard c s (s.discardNode c.w0.toNat) 0
          ∧ ∃ t : State, Done .haltResume c s t 0 ∧ (∀ k ∈ s.haltedCells c.w0.toNat, (t.cell k).phase = .running)
            ∧ (∀ k, k ∉ s.haltedCells c.w0.toNat → t.cell k = s.cell k)))
  ∧ (∀ (s : State) c x, Taken s c → s.ctx? c.w0.toNat = some x → c.w3.toNat < 16 → c.w4 = 0 → c.w5 = 0 → c.w1.toNat % 64 = 0 →
      4096 ≤ c.w2.toNat → Done .dumpArea c s (s.modCtx c.w0.toNat fun (x : Ctx) =>
        { x with dump := some (c.w1.toNat, c.w2.toNat, c.w3.toNat) }) 0)
  ∧ (∀ (s : State) c x, Taken s c → Named s c.w0.toNat x →
      (c.w5.toNat % 8 = 0 → Done .watchDefaults c s (s.modCtx c.w0.toNat fun (x : Ctx) =>
        { x with watch := watchTriples ([c.w1, c.w2, c.w3, c.w4] ++ (List.range 20).map fun i =>
            BitVec.ofNat 64 (s.hostWord (c.w5.toNat + 8 * i))) }) 0)
      ∧ (c.w1.toNat < 4 → c.w3 = 0 → c.w4 = 0 → c.w5 = 0 → Done .traceDefaults c s
          (s.modCtx c.w0.toNat fun (x : Ctx) => { x with trctl := c.w1.setWidth 2, trbase := c.w2 }) 0))
  ∧ (∀ (s : State) c, Taken s c → c.w1 = 0 → c.w2 = 0 → c.w3 = 0 → c.w4 = 0 → c.w5 = 0 →
      (c.tick + 2 ^ 16 ≤ c.w0.toNat → s.stopAt = none → Done .stopAt c s { s with stopAt := some c.w0.toNat } 0)
      ∧ ((c.w0.toNat < c.tick + 2 ^ 16 ∨ s.stopAt.isSome = true) → Refused .stopAt c s 0x21))
  ∧ (∀ (s : State) c, Taken s c → s.part? c.w0.toNat = none → (c.w2.toNat ≤ 1 → c.w5 = 0 → Refused .roleSet c s 0x24)
      ∧ (1 ≤ c.w1.toNat → c.w1.toNat ≤ 4 → c.w2.toNat ≤ 6 → c.w3.toNat ≤ 2 → c.w4 = 0 → c.w5 = 0 → Refused .powerSet c s 0x24))
  ∧ (∀ (s : State) chip role, ((s.setRole chip role).die chip).dcache = [] ∧ ((s.setRole chip role).die chip).rdc = [])
  ∧ (∀ (s : State) c p, Taken s c → c.w0 ≠ 0 → s.part? c.w0.toNat = some p → isLayer c.w1.toNat = true → c.w2.toNat ≤ 1 →
      (s.die c.w1.toNat).part = c.w0.toNat → (s.die c.w1.toNat).role ≤ 1 → c.w3 = 0 → c.w4 = 0 → c.w5 = 0 → s.ctx? 0 = none →
      (c.w2 = 1 → (s.die c.w1.toNat).role = 0 → (s.arith c.w0.toNat).length < 2 → Refused .roleSet c s 0x21)
      ∧ ((s.die c.w1.toNat).role = c.w2.toNat → (c.w2 = 0 ∨ (s.die c.w1.toNat).role = 1 ∨ 2 ≤ (s.arith c.w0.toNat).length) →
          Done .roleSet c s s 0)
      ∧ ((s.die c.w1.toNat).role ≠ c.w2.toNat → (c.w2 = 0 ∨ 2 ≤ (s.arith c.w0.toNat).length) →
          (s.stackLimit < stackWatts (fun i => if i = c.w1.toNat then c.w2.toNat else (s.die i).role) (stackOf c.w1.toNat) →
            Refused .roleSet c s 0x22)
          ∧ (stackWatts (fun i => if i = c.w1.toNat then c.w2.toNat else (s.die i).role) (stackOf c.w1.toNat) ≤ s.stackLimit →
            (s.heldOn (s.partDies c.w0.toNat) = true → Refused .roleSet c s 0x20)
            ∧ (s.heldOn (s.partDies c.w0.toNat) = false →
                exec (.roleSet c) s = .next { s.changeRole c.w0.toNat c.w1.toNat c.w2.toNat 0 0 [] with
                  reenum := some ⟨c.w0.toNat, some (c.w1.toNat, (s.die c.w1.toNat).role, c.w2.toNat), c, 0⟩ }))))
  ∧ (∀ (s : State) r p, s.reenum = some r → s.part? r.part = some p → (s.endReenum).reenum = none
      ∧ (s.endReenum).version = (s.version + 1) % 2 ^ 63
      ∧ (s.endReenum).part? r.part = some { p with ver := (s.version + 1) % 2 ^ 63 }
      ∧ (r.change = none → s.endReenum = { s with
            reenum := none, version := (s.version + 1) % 2 ^ 63
            parts := FMap.modify s.parts r.part fun (p : Part) => { p with ver := (s.version + 1) % 2 ^ 63 } }.cmdDone
          r.cmd 0 r.result))
  ∧ (∀ (s : State) c p old, Taken s c → s.part? c.w0.toNat = some p → 1 ≤ c.w1.toNat → c.w1.toNat ≤ 4 → c.w2.toNat ≤ 2 →
      c.w3.toNat ≤ 2 → c.w4 = 0 → c.w5 = 0 → old = (p.power.getD (c.w1.toNat - 1) (0, 0)).1 →
      (s.heldOn (s.domainDies c.w0.toNat c.w1.toNat) = true → Refused .powerSet c s 0x20)
      ∧ (s.heldOn (s.domainDies c.w0.toNat c.w1.toNat) = false → Done .powerSet c s
          ((s.modPart c.w0.toNat fun (p : Part) => { p with power := setNth p.power (c.w1.toNat - 1) (c.w2.toNat, c.w3.toNat) }).postEvent
            8 c.w0.toNat 0 [(8, 1, c.w1.toNat), (9, 1, old), (10, 1, c.w2.toNat), (11, 1, c.w3.toNat), (16, 8, s.tick)] []) 0))
  ∧ (∀ (s : State) c, c.i3c = false → c.w2 = 0 → c.w3 = 0 → c.w4 = 0 → c.w5 = 0 →
      (s.ready = true → c.w0.toNat % 8 = 0 → c.w1.toNat % 8 = 0 → Done .attest c s
        (({ s with drawn := s.drawn + 64 } : State).cmdWrite c c.w1.toNat (s.reportBody (s.hostRead c.w0.toNat 32)
          ++ beBytes 48 (deviceSign s.drawn (s.reportBody (s.hostRead c.w0.toNat 32))).1
          ++ beBytes 48 (deviceSign s.drawn (s.reportBody (s.hostRead c.w0.toNat 32))).2)) 0)
      ∧ ((s.ready = true ∨ s.recov = true) → c.w0.toNat % 8 = 0 →
          exec (.fwStage c) s = .next (if imageOk (s.hostRead c.w0.toNat c.w1.toNat) = true then
            (({ s with fwSlots := setNth s.fwSlots (1 - s.fwActive) (s.hostRead c.w0.toNat c.w1.toNat), fwNext := 1 - s.fwActive } : State).cmdDone
              c 0 0) else s.cmdDone c 0x21 0))
      ∧ ((s.ready = true ∨ s.recov = true) → c.w0 = 0 → c.w1 = 0 → Done .journalClear c s
          { s with journalClear := (match s.journal with | e :: _ => e.seq | [] => 2 ^ 32) } 0))

/-! ## Host registers, time, memory, bring-up -/

/-- R345, R347, R430 to R436, R451 to R456, R459: the host's writes and accesses, and the events of the time base.
Log entries it touches (notes/assumptions): 77, 79, 100, 103. -/
def Obligations.HostRegistersAndTimeComplete : Prop :=
  (∀ (s : State) q w, (s.ready = false ∨ 4096 ≤ q → exec (.qcfgWrite q w) s = .next s)
    ∧ (s.ready = true → q < 4096 → s.hostOps ≠ [] → exec (.qcfgWrite q w) s
        = .next { s with hostOps := s.hostOps ++ [.reg (0x100008 + 64 * q) w] })
    ∧ (s.ready = true → q < 4096 → s.hostOps = [] →
      ∃ t : State, exec (.qcfgWrite q w) s = .next t ∧ (∀ n, n ≠ q → t.queue n = s.queue n)
      ∧ { t with queues := s.queues } = s
      ∧ ((s.queue q).en = false → w.getLsbD 0 = true → s.cfgOk w = true → (t.queue q).en = true ∧ (t.queue q).st = 1
          ∧ (t.queue q).log2 = w.toNat / 2 ^ 20 % 32 ∧ (t.queue q).ctx = w.toNat / 2 ^ 48 ∧ (t.queue q).hostMem = w.getLsbD 4)
      ∧ ((s.queue q).en = false → (w.getLsbD 0 = false ∨ s.cfgOk w = false) → (t.queue q).en = false)
      ∧ ((s.queue q).en = true → w.getLsbD 0 = false → t.queue q = { s.queue q with en := false, st := 0 })
      ∧ ((s.queue q).en = true → w.getLsbD 0 = true → (s.queue q).st = 3 → s.cfgOk w = true →
          t.queue q = { s.queue q with st := 1, cause := 0 })))
  ∧ (∀ (s : State) sig w, (s.ready = true → sig < 16384 → s.hostOps = [] →
        exec (.signalWrite sig w) s = .next (s.changeSignal sig w))
      ∧ (s.ready = true → sig < 16384 → s.hostOps ≠ [] → exec (.signalWrite sig w) s
          = .next { s with hostOps := s.hostOps ++ [.reg (0x40000 + 8 * sig) w] })
      ∧ ((s.ready = false ∨ 16384 ≤ sig) → exec (.signalWrite sig w) s = .next s))
  ∧ (∀ (s : State) w, (s.ready = false → ∀ off, exec (.registerWrite off w) s = .next s)
      ∧ (s.ready = true → s.hostOps ≠ [] → ∀ off, exec (.registerWrite off w) s
          = .next { s with hostOps := s.hostOps ++ [.reg off w] })
      ∧ (s.ready = true → s.hostOps = [] → (∀ off, off % 8 ≠ 0 → exec (.registerWrite off w) s = .next s)
        ∧ exec (.registerWrite 0 w) s = .next s ∧ exec (.registerWrite 8 w) s = .next s
        ∧ exec (.registerWrite 0x4000 w) s = .next { s with mcBase := w } ∧ exec (.registerWrite 0x4020 w) s = .next { s with evBase := w }
        ∧ exec (.registerWrite 0x4010 w) s = .next { s with
            mcWr := w.toNat % 2 ^ 32, mcBells := s.mcBells ++ [(w.toNat % 2 ^ 32, s.tick)] }
        ∧ (∀ p, p < 8 → exec (.registerWrite (0x2000 + 16 * p) w) s = .next { s with
            fbwaits := FMap.set s.fbwaits (p + 1) (w.toNat % 2 ^ 32) (2 ^ 20) })
        ∧ (∀ p, p < 8 → exec (.registerWrite (0x2008 + 16 * p) w) s = .next { s with
            dltimes := FMap.set s.dltimes (p + 1) (max 1 (w.toNat % 2 ^ 32)) (2 ^ 26) })
        ∧ (∀ sig, sig < 16384 → exec (.registerWrite (0x40000 + 8 * sig) w) s = .next (s.changeSignal sig w))
        ∧ (∀ q, q < 4096 → ((s.queue q).bell.isSome = true → exec (.registerWrite (0x100000 + 64 * q + 16) w) s
              = .next (s.modQueue q fun (x : Queue) => { x with wr := w.toNat % 2 ^ 32 }))
          ∧ ((s.queue q).bell = none → ∃ t : State, exec (.registerWrite (0x100000 + 64 * q + 16) w) s = .next t
              ∧ t.queue q = { s.queue q with wr := w.toNat % 2 ^ 32, bell := some s.nextArrival }
              ∧ { t with queues := s.queues, nextArrival := s.nextArrival } = s))))
  ∧ (∀ (s : State) off n, s.ready = true → n ≠ 0 → off + n ≤ 2 ^ 36 →
      (s.hostOps ≠ [] → exec (.bar2Access off n none) s = .next { s with hostOps := s.hostOps ++ [.window off n none] })
      ∧ (∀ c, s.hostOps = [] → s.bar2Places off n false = .error c → exec (.bar2Access off n none) s
        = .next { s with bar2err := true, bar2Data := List.replicate n 0xFF })
      ∧ (∀ ps, s.hostOps = [] → s.bar2Places off n false = .ok ps → (∀ p ∈ ps, s.heldBy p.1 .window = none) →
          ∃ t : State, exec (.bar2Access off n none) s = .next t ∧ t.bar2Data = ps.flatMap (fun p => s.homeRead p.1 p.2.1)
            ∧ t.mem = s.mem)
      ∧ (∀ ps, s.hostOps = [] → s.bar2Places off n false = .ok ps → (∃ p ∈ ps, (s.heldBy p.1 .window).isSome = true) →
          ∃ t : State, exec (.bar2Access off n none) s = .next t ∧ t.hostOps = [.window off n none]
            ∧ { t with hostOps := s.hostOps, buffers := s.buffers } = s))
  ∧ (∀ (s : State) off bs ps, s.ready = true → s.hostOps = [] → bs ≠ [] → off + bs.length ≤ 2 ^ 36 →
      s.bar2Places off bs.length true = .ok ps → (∀ p ∈ ps, s.heldBy p.1 .window = none) →
      (s.bar2Tile ps = none → exec (.bar2Access off 0 (some bs)) s
        = .next (ps.foldl (fun (s : State) p => s.homePut p.1 (writesOf p.1 ((bs.drop p.2.2).take p.2.1))) s))
      ∧ (∀ id i, s.bar2Tile ps = some (id, i) → exec (.bar2Access off 0 (some bs)) s
          = .next ((({ s with hostOps := [.window off 0 (some bs)] } : State).startFetch id i none).hold id i .window)))
  ∧ (∀ (s : State), (s.evKept = [] ∨ s.ringRoom = false → exec .eventRingPost s = .next s)
      ∧ (∀ b, s.evKept = [b] → s.ringRoom = true → exec .eventRingPost s = .next { s.ringPut b with evKept := [] }))
  ∧ (∀ (s : State) off n, ((s.ready = false ∨ s.timeBase.src = 0) → exec (.tbCorrection off n) s = .next s)
      ∧ (s.ready = true → s.timeBase.src = 1 → off.natAbs ≤ 2 ^ 20 → ∃ t : State, exec (.tbCorrection off n) s = .next t
        ∧ { t with timeBase := s.timeBase, tbShown := s.tbShown } = s ∧ t.tbShown = some s.timeBase
        ∧ t.timeBase.inc = clampInc n ∧ t.timeBase.lock = true
        ∧ (s.timeBase.ak ≤ s.tick → t.timeBase.at_ s.tick = s.timeBase.at_ s.tick)))
  ∧ (∀ (s : State) k, (s.ready = true → s.timeBase.src = 2 → s.tickKept = false → exec (.nyernLinkLock k) s
        = .next { s with tick := k % 2 ^ 64, tickKept := true, timeBase := { s.timeBase with lock := true } })
      ∧ ((s.ready = false ∨ s.timeBase.src ≠ 2 ∨ s.tickKept = true) → exec (.nyernLinkLock k) s = .next s))
  ∧ (∀ (s : State), (∀ x, s.stopAt = some x → x ≤ s.tick → exec .stopOnTick s = .next { s with stopped := true })
      ∧ ((s.stopAt = none ∨ ∃ x, s.stopAt = some x ∧ s.tick < x) → exec .stopOnTick s = .next s))

/-- R324, R363, R365, R376, R379, R414, R425 to R427: moves that end, hit counters, lost links, scrubbing, dumps. A write-back
that meets bad check bits is counted with SOURCE 1. That an ECC finding of an ordinary read is an event of the same kind, and
how places that hold no data are numbered, are the model's reading (log 153).
Log entries it touches (notes/assumptions): 81, 85, 86, 87, 89, 153. -/
def Obligations.MemoryEventsComplete : Prop :=
  (∀ (s : State) id i, ((s.tile id i).st ≠ .fetching → exec (.tileFetchComplete id i) s = .next (s.lateFree id))
    ∧ ((s.tile id i).st = .fetching → (s.tile id i).frame = none →
        exec (.tileFetchComplete id i) s = .next ((s.claimFrame id i (s.tile id i)).lateFree id))
    ∧ (∀ f, (s.tile id i).st = .fetching → (s.tile id i).frame = some f → (s.leaver f).isSome = true →
        exec (.tileFetchComplete id i) s = .next (s.lateFree id))
    ∧ (∀ f t, (s.tile id i).st = .fetching → (s.tile id i).frame = some f → s.leaver f = none →
        t = (List.range 4).foldl (fun (u : State) j => u.movePlace (u.tileHbm id i (pageBytes * j)) (f + pageBytes * j) pageBytes)
          (s.applyInPlace id i) →
        exec (.tileFetchComplete id i) s = .next ((t.setTile id i
          { s.tile id i with st := .resident, log := [], slot := false, lastAccess := t.tick }).lateFree id)))
  ∧ (∀ (s : State) id, (∀ b, s.buf? id = some b → (b.freeing = false ∨ s.movesBuf b = true) → s.lateFree id = s)
      ∧ (∀ b, s.buf? id = some b → b.freeing = true → s.movesBuf b = false → s.lateFree id = s.freeBuffer id))
  ∧ (∀ (s : State) id i, ((s.tile id i).st ≠ .evicting → exec (.tileEvictComplete id i) s = .next (s.lateFree id))
    ∧ (∀ f t, (s.tile id i).st = .evicting → (s.tile id i).frame = some f →
        t = (List.range 4).foldl (fun (u : State) j => u.movePlace (f + pageBytes * j) (u.tileHbm id i (pageBytes * j)) pageBytes)
          { s with ueFound := s.ueFound ++ s.badIn f 65536 } →
        exec (.tileEvictComplete id i) s = .next ((({ t with tags := FMap.clearRange t.tags (f / 64) 1024 } : State).setTile id i
          { Tile.cold with held := (s.tile id i).held }).lateFree id)))
  ∧ (∀ (s : State) place n p, place % 64 = 0 → n % 64 = 0 →
      (p ∈ s.badIn place n ↔ p % 64 = 0 ∧ place ≤ p ∧ p < place + n ∧ (p / 64, true) ∈ s.bad))
  ∧ (∀ (s : State) p, p < 2 ^ 40 → s.ueFound = [p] → s.writeBackErrors
      = ({ s with ueFound := [] } : State).countUe (memDie p) (placeKind p) (placeAddr p) 1)
  ∧ (∀ (s : State) src dst n, n % 64 = 0 → src % 64 = 0 → dst % 64 = 0 →
      (∀ a, a < n → Memory.read (s.movePlace src dst n).mem (dst + a) = Memory.read s.mem (src + a))
      ∧ (∀ a, a < dst ∨ dst + n ≤ a → Memory.read (s.movePlace src dst n).mem a = Memory.read s.mem a))
  ∧ (∀ (s : State) chip, exec (.rowCounterHalve chip) s = .next (s.setDie chip ((s.die chip).halveTo (s.tick / 2 ^ 24))))
  ∧ (∀ (s : State) a b, ((s.links.any fun l => l == (a, b) || l == (b, a)) = false → exec (.linkFailure a b) s = .next s)
      ∧ ((s.links.any fun l => l == (a, b) || l == (b, a)) = true → (a, b) ∉ s.deadLinks → (b, a) ∉ s.deadLinks →
          exec (.linkFailure a b) s
            = .next ((List.range 44).foldl State.dropLost { s with deadLinks := s.deadLinks ++ [(min a b, max a b)] })))
  ∧ (∀ (s : State) chip place, s.knownBad chip place = false →
      exec (.scrub chip place .clean) s = .next s
      ∧ (s.scrubbed chip place ≠ .nothing → exec (.scrub chip place .correctable) s = .next (s.countCe chip))
      ∧ (∀ loc, s.scrubbed chip place = .data loc → ∃ t : State, exec (.scrub chip place .uncorrectable) s = .next t
          ∧ t.mem = s.mem ∧ FMap.get t.bad (loc / 64) false = true
          ∧ (t.errOf chip).2.1 = min ((s.errOf chip).2.1 + 1) (2 ^ 32 - 1) ∧ (t.errOf chip).1 = (s.errOf chip).1)
      ∧ (∀ line, s.scrubbed chip place = .copy line → exec (.scrub chip place .uncorrectable) s
          = .next ((s.setDie chip ((s.die chip).dropLine line)).countCe chip))
      ∧ (∀ line, s.scrubbed chip place = .cached line → exec (.scrub chip place .uncorrectable) s = .next
          ((s.setDie chip { s.die chip with dcache := FMap.erase (s.die chip).dcache line }).countCe chip))
      ∧ (∀ loc, s.scrubbed chip place = .dirty loc → ∃ t : State, exec (.scrub chip place .uncorrectable) s = .next t
          ∧ t.mem = s.mem ∧ FMap.get t.bad (loc / 64) false = true)
      ∧ (∀ key line, s.scrubbed chip place = .l1 key line →
          ((∀ e ∈ (s.cell key).l1, lineOf e.1 = line → e.2.dirty = false) →
            exec (.scrub chip place .uncorrectable) s = .next ((s.setCell key { s.cell key with
              l1 := (s.cell key).l1.filter fun e => lineOf e.1 != line, l1Tag := FMap.erase (s.cell key).l1Tag line }).countCe chip))
          ∧ ((∃ e ∈ (s.cell key).l1, lineOf e.1 = line ∧ e.2.dirty = true) → exec (.scrub chip place .uncorrectable) s
            = .next (s.terminateFor (s.nodeCtx (s.cell key).node) 0xE1 (line % 2 ^ 48 + 2 * 2 ^ 56))))
      ∧ (∀ page, s.scrubbed chip place = .dieTlb page → exec (.scrub chip place .uncorrectable) s = .next
          ((s.setDie chip { s.die chip with tlb := FMap.erase (s.die chip).tlb page }).countCe chip))
      ∧ (∀ key page, s.scrubbed chip place = .cellTlb key page → exec (.scrub chip place .uncorrectable) s = .next
          ((s.setCell key { s.cell key with tlb := FMap.erase (s.cell key).tlb page }).countCe chip))
      ∧ (∀ ctx, s.scrubbed chip place = .record ctx →
          exec (.scrub chip place .uncorrectable) s = .next (s.terminateFor ctx 0xE1 (3 * 2 ^ 56))))
  ∧ (∀ (s : State), (s.dumps = [] → exec .dumpWrite s = .next s)
      ∧ ∀ d ds x, s.dumps = d :: ds → s.ctx? d.ctx = some x →
        (x.dump = none → exec .dumpWrite s = .next (({ s with noArea := min (s.noArea + 1) (2 ^ 32 - 1) } : State).nextDump d))
        ∧ (∀ a n parts h, x.dump = some (a, n, parts) → h = (s.dumpImage d n parts).2.foldl
              (fun (m : Memory) (e : Nat × Byte) => Memory.write m (a + e.1) e.2) (FMap.clearRange s.host a (s.dumpImage d n parts).1) →
            exec .dumpWrite s = .next ((({ s with host := h } : State).modCtx d.ctx fun (x : Ctx) => { x with dump := none }).nextDump d)))

/-- R451, R459 to R462, R468: power-good begins the boot of a package that waits for it; the boot goes through its steps,
one entry of the journal after another, to READY or to recovery; a reset or a loss of power returns to step 0 and keeps the
journal, the firmware slots and host memory; a loss while an entry is written cuts the write of its two copies, of which a
reader takes the good one with the higher SEQ; a command that comes over I3C waits for the ring's commands that arrived before
it. That the other slot becomes the active one as an image fails (log 98), that a write is cut at any byte (log 155), and that
a message's bytes beyond the entry stand in the I3C buffer (log 145) are the model's choices.
Log entries it touches (notes/assumptions): 55, 93, 94, 98, 99, 102, 145, 155. -/
def Obligations.BringUpComplete : Prop :=
  (∀ (s : State) b, (s.bootPending = false → exec (.powerGood b) s = .next s)
    ∧ (s.bootPending = true → exec (.powerGood b) s = .next { s with
        powered := true, tick := 0, cool := strapCool b.strap, boots := (s.boots + 1) % 2 ^ 32
        fail := if s.tripped.isSome then 3 else 0, booting := some ⟨b, false, 0⟩ }))
  ∧ (∀ (s : State) b, s.booting = some b →
      (s.bootTurn = (s.draw).2 ∨ s.bootTurn = ((s.draw).2).bootDo b)
      ∧ (s.bootStep = 0 → s.tripped = none → (s.bootDo b).bootStep = 1
          ∧ (s.bootDo b).boots = (bootsOf s.readStore + 1) % 2 ^ 32 ∧ (s.bootDo b).journal.head?.map (fun e => (e.step, e.outcome)) = some (0, 0))
      ∧ (s.bootStep = 1 → (s.bootDo b).bootStep = 2)
      ∧ (s.bootStep = 2 → ∀ ok, ok = imageOk (nthD s.fwSlots s.fwActive []) →
          (s.bootDo b).bootStep = (if ok then 3 else if b.second then 2 else 1)
          ∧ (s.bootDo b).fwActive = (if ok || b.second then s.fwActive else 1 - s.fwActive)
          ∧ (s.bootDo b).recov = (s.recov || (!ok && b.second)) ∧ (s.bootDo b).fail = (if !ok && b.second then 1 else s.fail))
      ∧ (s.bootStep = 3 → (s.bootDo b).bootStep = 4)
      ∧ (s.bootStep = 4 → ∀ o, bootObjects[b.trained]? = some o → (s.bootDo b).booting = some { b with trained := b.trained + 1 }
          ∧ (s.bootDo b).journal.head?.map (fun e => (e.step, e.obj)) = some (4, o))
      ∧ (s.bootStep = 4 → bootObjects[b.trained]? = none →
          (b.found.minPaths = false → (s.bootDo b).recov = true ∧ (s.bootDo b).fail = 2)
          ∧ (b.found.minPaths = true → s.enough = true → (s.bootDo b).bootStep = 5 ∧ (s.bootDo b).timeBase.lock = b.found.lock))
      ∧ (s.bootStep = 5 → (s.bootDo b).bootStep = 6 ∧ (s.bootDo b).version = 1 ∧ (s.bootDo b).mem = []
          ∧ (s.bootDo b).tags = [] ∧ (s.bootDo b).bad = [] ∧ (s.bootDo b).shut = false)
      ∧ (s.bootStep = 6 → (s.bootDo b).ready = true ∧ (s.bootDo b).booting = none)
      ∧ (s.powered = true → ∃ t : State, exec (.powerLoss true) s = .next t ∧ t.powered = false ∧ t.journal = s.journal
          ∧ ∃ k, k ≤ 64 ∧ ∀ e es, (((s.draw).2).bootDo b).journal = e :: es → t.jstore = FMap.put s.jstore (e.seq % 256)
              (tornCopies k (s.copiesAt e.seq) ((((s.draw).2).bootDo b).copiesAt e.seq))))
  ∧ (∀ (s : State) a b c e es, (s.log a b c).journal = e :: es → (s.log a b c).copiesAt e.seq = (e.bytes, e.bytes))
  ∧ (∀ x y, (copyGood x = false → copyGood y = false → readCopies x y = none)
      ∧ (copyGood x = true → copyGood y = false → readCopies x y = some x)
      ∧ (copyGood x = false → copyGood y = true → readCopies x y = some y)
      ∧ (copyGood x = true → copyGood y = true → fieldAt y 0x10 4 ≤ fieldAt x 0x10 4 → readCopies x y = some x)
      ∧ (copyGood x = true → copyGood y = true → fieldAt x 0x10 4 < fieldAt y 0x10 4 → readCopies x y = some y))
  ∧ (∀ (s : State), (s.powered = false → exec .pcieReset s = .next s ∧ ∀ x, exec (.powerLoss x) s = .next s)
      ∧ (s.powered = true → ∃ t : State, exec .pcieReset s = .next t ∧ t.ready = false ∧ t.bootStep = 0 ∧ t.cells = [] ∧ t.nodes = []
          ∧ t.mem = [] ∧ t.host = s.host ∧ t.journal = s.journal ∧ t.jstore = s.jstore ∧ t.fwSlots = s.fwSlots ∧ t.fwActive = s.fwNext)
      ∧ (s.powered = true → ∃ t : State, exec (.powerLoss false) s = .next t ∧ t.powered = false ∧ t.ready = false ∧ t.mem = []
          ∧ t.cells = [] ∧ t.host = s.host ∧ t.journal = s.journal ∧ t.jstore = s.jstore ∧ t.fwSlots = s.fwSlots)
      ∧ (∀ chip, s.powered = true → ∃ t : State, exec (.thermalTrip chip) s = .next t ∧ t.powered = false ∧ t.tripped = some chip
          ∧ t.journal = s.journal)
      ∧ (∀ chip, s.powered = false → exec (.thermalTrip chip) s = .next s))
  ∧ (∀ (s : State) e, ((e.length < 64 ∨ (s.ready = false ∧ s.recov = false)) → exec (.i3cMctpMessage e) s = .next s)
      ∧ (64 ≤ e.length → s.ready = true → (s.i3cWait ≠ [] ∨ s.mcRd ≠ s.mcWr) → exec (.i3cMctpMessage e) s = .next { s with
          i3c := Memory.writeN s.i3c 0 ((e.drop 64).take 65536), i3cWait := s.i3cWait ++ [(e.take 64, s.mcWr)] })
      ∧ (64 ≤ e.length → (s.ready = true ∨ s.recov = true) → s.i3cWait = [] → (s.mcRd = s.mcWr ∨ s.ready = false) →
          (e.getD 0 0 = 0x18 → (∀ i, 8 ≤ i → i < 56 → e.getD i 0 = 0) →
            ∃ t : State, exec (.i3cMctpMessage e) s = .next t
              ∧ t.journalClear = (match s.journal with | x :: _ => x.seq | [] => 2 ^ 32)
              ∧ t.mem = s.mem ∧ t.host = s.host ∧ t.cells = s.cells)
          ∧ (e.getD 0 0 = 0 → ∃ t : State, exec (.i3cMctpMessage e) s = .next t ∧ Memory.read t.i3c (0x10000 + 1) = 0x21
              ∧ t.mem = s.mem)))

/-! ## Frames -/

namespace Sys2Proof.Claims

/-- The RRR words that write a scalar destination from scalar sources (R114 to R121). -/
def rrrWords (f : Rrr) : List Instr :=
  [.add f, .sub f, .mul f, .mulh f, .div f, .rem f, .and f, .or f, .xor f, .andn f, .shl f, .shr f, .shra f, .min f,
   .max f, .seteq f, .setne f, .setlt f, .setle f, .sel f, .clz f, .popc f, .bfx f, .bfi f, .addsc f, .cvta f, .aptest f]

/-- The RI words that do (R97, R114). -/
def riWords (f : Ri) : List Instr := [.addRi f, .andRi f, .orRi f, .shlRi f, .shrRi f, .setltRi f, .li f]

/-- A scalar word of an engine, and its destination code. -/
def ScalarWord (i : Instr) (e : EngTag) (d : BitVec 8) : Prop :=
  (∃ f, i ∈ rrrWords f ∧ f.hdr.eng.toNat = e.num ∧ d = f.d) ∨ (∃ f, i ∈ riWords f ∧ f.hdr.eng.toNat = e.num ∧ d = f.d)

/-- A cell that differs from another in no more than its engines, scalar and loop registers with their versions, its
path, its queues, VROT, the pushes accepted at this tick and the tick since which it stalls: vector, mask and accumulator
registers, scratchpad, full-empty bits, rings, tables, every special and exception register, watchpoints, work and caches are
the same. What it keeps of M's tokens for its stamps changes only with an entry of M's completion queue (R441). -/
def SameBeyondScalars (c d : Cell) : Prop :=
  (c.engM.cq = [] → c.nowTok = [] → d.stampT0 = c.stampT0 ∧ d.cqTicks = c.cqTicks)
  ∧ d = { c with engC := d.engC, engA := d.engA, engX := d.engX, engM := d.engM, engW := d.engW, engK := d.engK, x := d.x,
                 a := d.a, lc := d.lc, xVer := d.xVer, lcVer := d.lcVer, path := d.path, pathBase := d.pathBase, qx := d.qx,
                 qc := d.qc, qa := d.qa, vrotOff := d.vrotOff, vrotSize := d.vrotSize, vrotBase := d.vrotBase,
                 vrotPend := d.vrotPend, bqHeld := d.bqHeld, nowTok := d.nowTok, stalledSince := d.stalledSince, stampT0 := d.stampT0,
                 cqTicks := d.cqTicks }

/-- What a retiring word of a cell leaves of the queues that its token may reach (R125, R288): no entry enters a bq where
none is held back, no push gives way where none was accepted at this tick, and a completion queue then only loses what its
counter takes. -/
def KeepsQueues (c : Cell) (g g' : Eng) : Prop :=
  (c.bqHeld = [] → g'.bq = g.bq) ∧ (c.nowTok = [] → g'.held = g.held ∧ g'.cq.Sublist g.cq)

/-- An engine of another word's cell that has received no more than a token, or an entry held back. -/
def SameButTokens (c : Cell) (g g' : Eng) : Prop :=
  { g' with tok := g.tok, cq := g.cq, bq := g.bq, held := g.held } = g ∧ KeepsQueues c g g'

/-- What every word of an engine leaves of its own engine's queues and stacks. -/
def KeepsStacks (c : Cell) (g g' : Eng) : Prop :=
  g'.rstack = g.rstack ∧ g'.done = g.done ∧ (c.bqHeld = [] → g'.bq = g.bq) ∧ (c.nowTok = [] → g'.cq.Sublist g.cq)

/-- A step of a word of a cell outside handler mode that took no cause. -/
def Quiet (i : Instr) (s t : State) (key : Nat) (e : EngTag) : Prop :=
  s.cur = .cell key e ∧ s.core.handler = none ∧ s.myFault = none ∧ exec i s = .next t ∧ t.core.fatals = s.core.fatals
  ∧ t.core.pendTrap = s.core.pendTrap ∧ t.core.handler = none

end Sys2Proof.Claims

/-- The frame of the scalar words, on C and on A: of the whole state only the executing cell changes; there only D, the
queue D names or a source pops, and the engine's own progress; loop registers and VROT change only by writes that
earlier words left pending (R50, R232), and another engine only by the token of SIGNAL (R85). -/
def Sys2Proof.Claims.ScalarWordsKeepTheRest : Prop :=
  ∀ (i : Instr) (s t : State) (key : Nat) (e : EngTag) (d : BitVec 8), ScalarWord i e d → (e = .c ∨ e = .a) →
    Quiet i s t key e →
    SameButCell s t key ∧ SameBeyondScalars s.core t.core
    ∧ (e = .c → t.core.a = s.core.a ∧ t.core.qx = s.core.qx ∧ (d ≠ 0xFE → t.core.qa = s.core.qa)
        ∧ ∀ r, r ≠ d.toNat → FMap.get t.core.x r 0 = FMap.get s.core.x r 0)
    ∧ (e = .a → t.core.x = s.core.x ∧ (d ≠ 0xFE → t.core.qx = s.core.qx) ∧ (d ≠ 0xFF → t.core.qc = s.core.qc)
        ∧ ∀ r, r ≠ d.toNat → FMap.get t.core.a r 0 = FMap.get s.core.a r 0)
    ∧ (s.core.lcVer = [] → t.core.lc = s.core.lc) ∧ (s.core.vrotPend = [] → t.core.vrotOff = s.core.vrotOff
        ∧ t.core.vrotSize = s.core.vrotSize ∧ t.core.vrotBase = s.core.vrotBase)
    ∧ (∀ g, g ≠ e → SameButTokens s.core (s.core.eng g) (t.core.eng g)) ∧ KeepsStacks s.core (s.core.eng e) (t.core.eng e)

/-- The frame of LCSET: it writes lc D and no other register. -/
def Sys2Proof.Claims.LoopWritesKeepTheRest : Prop :=
  ∀ (f : Rrr) (s t : State) (key : Nat) (e : EngTag), f.hdr.eng.toNat = e.num → (e = .c ∨ e = .a) →
    Quiet (.lcset f) s t key e →
    SameButCell s t key ∧ SameBeyondScalars s.core t.core ∧ t.core.x = s.core.x ∧ t.core.a = s.core.a
    ∧ t.core.qx = s.core.qx
    ∧ (s.core.lcVer = [] → ∀ r, r ≠ f.d.toNat → FMap.get t.core.lc r 0 = FMap.get s.core.lc r 0)
    ∧ (∀ g, g ≠ e → SameButTokens s.core (s.core.eng g) (t.core.eng g)) ∧ KeepsStacks s.core (s.core.eng e) (t.core.eng e)

/-- The frame of the scalar words and of LCSET. -/
def Obligations.ScalarWordsFrame : Prop := ScalarWordsKeepTheRest ∧ LoopWritesKeepTheRest

/-- The frame of a store: the address is A + B, the bytes those of the form's width from it on. In the own scratchpad
every other byte, every full-empty bit and every register but those the sources pop keeps its value, and no other
memory changes. In a line no byte of memory changes; outside the stored bytes no byte of the L1 changes, but that another
line may leave it (R309), and none of the RDC, but by the dirty bytes of that line; and a message sent carries stored
bytes or those dirty bytes only. -/
def Obligations.StoresFrame : Prop :=
  (∀ (f : Rrr) (s t s0 s1 s2 : State) (key : Nat) (e : EngTag) (lo hi addr : Word) (off : Nat),
    Starts (.st f) s key e s0 → s0.dataSrc f.d (litVal f.ty.toNat f.w1) (f.ty == 12) = .ok (lo, hi, s1) →
    s1.memAddr f = .ok (addr, s2) → windowOf (s2.apers (s2.nodeCtx (s2.cell key).node)) (addrVa addr) = some (0, off) →
    f.hdr.eng.toNat = e.num → e = .a → Quiet (.st f) s t key e →
    SameButCell s t key
    ∧ (∀ a, a < off ∨ off + typeBytes f.ty.toNat ≤ a → Memory.read t.core.spad a = Memory.read s.core.spad a)
    ∧ (∃ m ws, SameBeyondScalars { s.core with spad := m, watch := ws } t.core) ∧ t.core.x = s.core.x ∧ t.core.a = s.core.a
    ∧ (s.core.lcVer = [] → t.core.lc = s.core.lc)
    ∧ (∀ g, g ≠ e → SameButTokens s.core (s.core.eng g) (t.core.eng g)) ∧ KeepsStacks s.core (s.core.eng e) (t.core.eng e))
  ∧ ∀ (s t : State) (key part loc : Nat) (bs : List Byte) (scope : Nat) (na : Bool),
    s.storeLine key part loc bs scope na = .ok t →
    t.mem = s.mem ∧ (∀ k, k ≠ key → FMap.find? t.cells k = FMap.find? s.cells k)
    ∧ (∀ c, c ≠ keyChip key → FMap.find? t.dies c = FMap.find? s.dies c)
    ∧ (∀ a, a < loc ∨ loc + bs.length ≤ a → FMap.find? (t.cell key).l1 a = FMap.find? (s.cell key).l1 a
        ∨ (lineOf a ≠ lineOf loc ∧ FMap.find? (t.cell key).l1 a = none))
    ∧ (∀ a, a < loc ∨ loc + bs.length ≤ a → FMap.get (t.die (keyChip key)).rdcHas a false = true →
        Memory.read (t.die (keyChip key)).rdc a = Memory.read (s.die (keyChip key)).rdc a
        ∨ (a, ⟨Memory.read (t.die (keyChip key)).rdc a, true⟩) ∈ (s.cell key).l1)
    ∧ (∃ ms, (t.die (keyChip key)).out = (s.die (keyChip key)).out ++ ms ∧ ∀ m ∈ ms, m.cell = keyCell key
        ∧ ∀ w ∈ m.writes, w ∈ writesOf loc bs ∨ (w.at_, ⟨w.val, true⟩) ∈ (s.cell key).l1)


/-! ## The canonical form of memory -/

/-- Every step, of a word, a packet, a command or an event, keeps memory and host memory in their one canonical form:
addresses strictly rising, and no entry that equals what an unlisted address reads as (assumption 3).
Log entry it touches (notes/assumptions): 3. -/
def Obligations.MemoryStaysCanonical : Prop :=
  ∀ s t : State, Memory.wf s.mem = true → Memory.wf s.host = true → step s = .next t → Memory.wf t.mem = true ∧ Memory.wf t.host = true

/-- The memories after reset have that form.
Log entry it touches (notes/assumptions): 3. -/
def Obligations.MemoryIsCanonicalAtReset : Prop := Memory.wf State.reset.mem = true ∧ Memory.wf State.reset.host = true
end

