-- ==== Sys2Proof/Laws/Map.lean ====
section
/-! SUPPORT. Sparse maps and byte memories: a read after a write gives the value written, a write leaves every other
place alone, and every operation keeps the canonical form. -/

namespace Sys2Proof.Machine

variable {α : Type}

/-! ## What an entry holds after a change -/

@[simp] theorem FMap.find?_put_same (m : FMap α) (i : Nat) (x : α) : FMap.find? (FMap.put m i x) i = some x := by
  induction m with
  | nil => simp [FMap.put, FMap.find?]
  | cons e m ih => simp only [FMap.put]; split <;> [simp [FMap.find?]; split <;> simp_all [FMap.find?]]

theorem FMap.find?_put_ne (m : FMap α) {i j : Nat} (x : α) (h : j ≠ i) :
    FMap.find? (FMap.put m i x) j = FMap.find? m j := by
  induction m with
  | nil => simp [FMap.put, FMap.find?, h]
  | cons e m ih => simp only [FMap.put]; split <;> [simp [FMap.find?, h]; split <;> simp_all [FMap.find?]]

theorem FMap.find?_erase_ne (m : FMap α) {i j : Nat} (h : j ≠ i) :
    FMap.find? (FMap.erase m i) j = FMap.find? m j := by
  induction m with
  | nil => rfl
  | cons e m ih =>
    simp only [FMap.erase, List.filter_cons] at ih ⊢
    by_cases he : e.1 = i
    · have : j ≠ e.1 := by omega
      simp [he, ih, FMap.find?, h]
    · simp [he, ih, FMap.find?]

/-- An erased key is not listed. -/
@[simp] theorem FMap.find?_erase_same (m : FMap α) (i : Nat) : FMap.find? (FMap.erase m i) i = none := by
  induction m with
  | nil => rfl
  | cons e m ih =>
    simp only [FMap.erase, List.filter_cons] at ih ⊢
    by_cases he : e.1 = i
    · simp [he, ih]
    · have : i ≠ e.1 := fun h => he h.symm
      simp [he, ih, FMap.find?, this]

@[simp] theorem FMap.get_put_same (m : FMap α) (i : Nat) (x d : α) : FMap.get (FMap.put m i x) i d = x := by
  simp [FMap.get]

theorem FMap.get_put_ne (m : FMap α) {i j : Nat} (x d : α) (h : j ≠ i) :
    FMap.get (FMap.put m i x) j d = FMap.get m j d := by
  simp [FMap.get, FMap.find?_put_ne m x h]

theorem FMap.get_set_ne [DecidableEq α] (m : FMap α) {i j : Nat} (x d : α) (h : j ≠ i) :
    FMap.get (FMap.set m i x d) j d = FMap.get m j d := by
  unfold FMap.set; split <;> simp [FMap.get, FMap.find?_put_ne m x h, FMap.find?_erase_ne m h]

@[simp] theorem FMap.get_set_same [DecidableEq α] (m : FMap α) (i : Nat) (x d : α) :
    FMap.get (FMap.set m i x d) i d = x := by
  unfold FMap.set; split
  · rename_i hx; subst hx; simp [FMap.get]
  · simp

theorem FMap.find?_modify (m : FMap α) (i j : Nat) (f : α → α) :
    FMap.find? (FMap.modify m i f) j = if j = i then (FMap.find? m j).map f else FMap.find? m j := by
  induction m with
  | nil => simp [FMap.modify, FMap.find?]
  | cons e m ih =>
    simp only [FMap.modify, List.map_cons] at ih ⊢
    by_cases h : e.1 = i <;> by_cases hj : j = e.1 <;> by_cases hi : j = i <;> simp_all [FMap.find?]

/-! ## The canonical form: keys strictly rising, no default listed -/

/-- Every key of a map lies above a bound. -/
def FMap.above (m : FMap α) (k : Nat) : Prop := ∀ e ∈ m, k < e.1

theorem FMap.sorted_cons (e : Nat × α) (m : FMap α) : FMap.sorted (e :: m) = true ↔ FMap.above m e.1 ∧ FMap.sorted m = true := by
  induction m generalizing e with
  | nil => simp [FMap.sorted, FMap.above]
  | cons f m ih =>
    simp only [FMap.sorted, Bool.and_eq_true, decide_eq_true_eq, ih, FMap.above, List.mem_cons, forall_eq_or_imp]
    constructor
    · rintro ⟨a, b, c⟩; exact ⟨⟨a, fun x hx => lt_trans a (b x hx)⟩, b, c⟩
    · rintro ⟨⟨a, _⟩, b, c⟩; exact ⟨a, b, c⟩

theorem FMap.sorted_filter {m : FMap α} (p : Nat × α → Bool) (h : FMap.sorted m = true) :
    FMap.sorted (m.filter p) = true := by
  induction m with
  | nil => simpa using h
  | cons e m ih =>
    rw [FMap.sorted_cons] at h
    simp only [List.filter_cons]
    split
    · rw [FMap.sorted_cons]
      exact ⟨fun x hx => h.1 x (List.mem_filter.1 hx).1, ih h.2⟩
    · exact ih h.2

theorem FMap.mem_put {m : FMap α} {i : Nat} {x : α} {e : Nat × α} (h : e ∈ FMap.put m i x) : e = (i, x) ∨ e ∈ m := by
  induction m with
  | nil => simp [FMap.put] at h; exact .inl h
  | cons f m ih =>
    simp only [FMap.put] at h
    split at h
    · simpa using h
    · split at h
      · simp only [List.mem_cons] at h ⊢; tauto
      · simp only [List.mem_cons] at h ⊢
        rcases h with h | h
        · tauto
        · rcases ih h with h | h <;> tauto

theorem FMap.mem_erase {m : FMap α} {i : Nat} {e : Nat × α} (h : e ∈ FMap.erase m i) : e ∈ m :=
  (List.mem_filter.1 h).1

theorem FMap.sorted_put {m : FMap α} (i : Nat) (x : α) (h : FMap.sorted m = true) : FMap.sorted (FMap.put m i x) = true := by
  induction m with
  | nil => rfl
  | cons f m ih =>
    have h' := (FMap.sorted_cons _ _).1 h
    simp only [FMap.put]
    split
    · rename_i hi
      rw [FMap.sorted_cons]
      refine ⟨?_, h⟩
      intro e he
      rcases List.mem_cons.1 he with rfl | he
      · exact hi
      · exact lt_trans hi (h'.1 e he)
    · split
      · rename_i hi; subst hi; rw [FMap.sorted_cons]; exact h'
      · rw [FMap.sorted_cons]
        refine ⟨?_, ih h'.2⟩
        intro e he
        rcases FMap.mem_put he with rfl | he
        · simp only; omega
        · exact h'.1 e he

theorem FMap.sorted_erase {m : FMap α} (i : Nat) (h : FMap.sorted m = true) : FMap.sorted (FMap.erase m i) = true :=
  FMap.sorted_filter _ h

theorem FMap.wf_iff [DecidableEq α] (m : FMap α) (d : α) :
    FMap.wf m d = true ↔ FMap.sorted m = true ∧ ∀ e ∈ m, e.2 ≠ d := by
  simp [FMap.wf, List.all_eq_true]

theorem FMap.wf_erase [DecidableEq α] {m : FMap α} {d : α} (i : Nat) (h : FMap.wf m d = true) :
    FMap.wf (FMap.erase m i) d = true := by
  rw [FMap.wf_iff] at *
  exact ⟨FMap.sorted_erase i h.1, fun e he => h.2 e (FMap.mem_erase he)⟩

theorem FMap.wf_set [DecidableEq α] {m : FMap α} {d : α} (i : Nat) (x : α) (h : FMap.wf m d = true) :
    FMap.wf (FMap.set m i x d) d = true := by
  unfold FMap.set; split
  · exact FMap.wf_erase i h
  · rename_i hx
    rw [FMap.wf_iff] at *
    refine ⟨FMap.sorted_put i x h.1, fun e he => ?_⟩
    rcases FMap.mem_put he with rfl | he
    · exact hx
    · exact h.2 e he

theorem FMap.wf_filter [DecidableEq α] {m : FMap α} {d : α} (p : Nat × α → Bool) (h : FMap.wf m d = true) :
    FMap.wf (m.filter p) d = true := by
  rw [FMap.wf_iff] at *
  exact ⟨FMap.sorted_filter p h.1, fun e he => h.2 e (List.mem_filter.1 he).1⟩

theorem FMap.wf_clearRange [DecidableEq α] {m : FMap α} {d : α} (b n : Nat) (h : FMap.wf m d = true) :
    FMap.wf (FMap.clearRange m b n) d = true := FMap.wf_filter _ h

theorem FMap.number_spec [DecidableEq α] (d : α) (xs : List α) (b : Nat) :
    FMap.wf (FMap.number d b xs) d = true ∧ ∀ e ∈ FMap.number d b xs, b ≤ e.1 ∧ e.1 < b + xs.length := by
  induction xs generalizing b with
  | nil => simp [FMap.number, FMap.wf, FMap.sorted]
  | cons x xs ih =>
    obtain ⟨h1, h2⟩ := ih (b + 1)
    simp only [FMap.number]
    split
    · exact ⟨h1, fun e he => by have := h2 e he; simp only [List.length_cons]; omega⟩
    · rename_i hx
      refine ⟨?_, ?_⟩
      · rw [FMap.wf_iff] at *
        refine ⟨(FMap.sorted_cons _ _).2 ⟨fun e he => by have := h2 e he; simp only; omega, h1.1⟩, ?_⟩
        intro e he
        rcases List.mem_cons.1 he with rfl | he
        · exact hx
        · exact h1.2 e he
      · intro e he
        rcases List.mem_cons.1 he with rfl | he
        · simp
        · have := h2 e he; simp only [List.length_cons]; omega

theorem FMap.sorted_append {m n : FMap α} (hm : FMap.sorted m = true) (hn : FMap.sorted n = true)
    (h : ∀ e ∈ m, ∀ f ∈ n, e.1 < f.1) : FMap.sorted (m ++ n) = true := by
  induction m with
  | nil => exact hn
  | cons e m ih =>
    rw [FMap.sorted_cons] at hm
    rw [List.cons_append, FMap.sorted_cons]
    refine ⟨fun f hf => ?_, ih hm.2 fun a ha => h a (List.mem_cons_of_mem _ ha)⟩
    rcases List.mem_append.1 hf with hf | hf
    · exact hm.1 f hf
    · exact h e (by simp) f hf

theorem FMap.wf_append [DecidableEq α] {m n : FMap α} {d : α} (hm : FMap.wf m d = true) (hn : FMap.wf n d = true)
    (h : ∀ e ∈ m, ∀ f ∈ n, e.1 < f.1) : FMap.wf (m ++ n) d = true := by
  rw [FMap.wf_iff] at *
  refine ⟨FMap.sorted_append hm.1 hn.1 h, fun e he => ?_⟩
  rcases List.mem_append.1 he with he | he
  · exact hm.2 e he
  · exact hn.2 e he

theorem FMap.wf_setRange [DecidableEq α] {m : FMap α} {d : α} (b : Nat) (xs : List α) (h : FMap.wf m d = true) :
    FMap.wf (FMap.setRange m b xs d) d = true := by
  obtain ⟨h1, h2⟩ := FMap.number_spec d xs b
  refine FMap.wf_append (FMap.wf_append (FMap.wf_filter _ h) h1 ?_) (FMap.wf_filter _ h) ?_
  · intro e he f hf
    have := (List.mem_filter.1 he).2
    have := h2 f hf
    simp at *; omega
  · intro e he f hf
    have hf' := (List.mem_filter.1 hf).2
    rcases List.mem_append.1 he with he | he
    · have := (List.mem_filter.1 he).2
      simp at *; omega
    · have := h2 e he
      simp at *; omega

/-- A map whose keys are moved up by an amount keeps its form. -/
theorem FMap.wf_shift [DecidableEq α] {m : FMap α} {d : α} (k : Nat) (h : FMap.wf m d = true) :
    FMap.wf (m.map fun e => (e.1 + k, e.2)) d = true := by
  rw [FMap.wf_iff] at *
  refine ⟨?_, fun e he => ?_⟩
  · have hs := h.1
    clear h
    induction m with
    | nil => rfl
    | cons e m ih =>
      rw [FMap.sorted_cons] at hs
      rw [List.map_cons, FMap.sorted_cons]
      refine ⟨fun x hx => ?_, ih hs.2⟩
      obtain ⟨y, hy, rfl⟩ := List.mem_map.1 hx
      exact Nat.add_lt_add_right (hs.1 y hy) k
  · obtain ⟨y, hy, rfl⟩ := List.mem_map.1 he
    exact h.2 y hy

/-- A slice keeps the form of its map, and its keys lie below its length. -/
theorem FMap.wf_slice [DecidableEq α] {m : FMap α} {d : α} (b n : Nat) (h : FMap.wf m d = true) :
    FMap.wf (FMap.slice m b n) d = true ∧ ∀ e ∈ FMap.slice m b n, e.1 < n := by
  have hf := FMap.wf_filter (fun e => decide (b ≤ e.1) && decide (e.1 < b + n)) h
  have hk : ∀ e ∈ m.filter fun e => decide (b ≤ e.1) && decide (e.1 < b + n), b ≤ e.1 ∧ e.1 < b + n := by
    intro e he
    simpa using (List.mem_filter.1 he).2
  unfold FMap.slice
  generalize m.filter (fun e => decide (b ≤ e.1) && decide (e.1 < b + n)) = l at hf hk ⊢
  refine ⟨?_, fun e he => ?_⟩
  · rw [FMap.wf_iff] at *
    refine ⟨?_, fun e he => ?_⟩
    · have hs := hf.1
      clear hf h
      induction l with
      | nil => rfl
      | cons e l ih =>
        rw [FMap.sorted_cons] at hs
        rw [List.map_cons, FMap.sorted_cons]
        refine ⟨fun x hx => ?_, ih (fun y hy => hk y (List.mem_cons_of_mem _ hy)) hs.2⟩
        obtain ⟨y, hy, rfl⟩ := List.mem_map.1 hx
        have h1 := hs.1 y hy
        have h2 := hk e (by simp)
        simp only
        omega
    · obtain ⟨y, hy, rfl⟩ := List.mem_map.1 he
      exact hf.2 y hy
  · obtain ⟨y, hy, rfl⟩ := List.mem_map.1 he
    have := hk y hy
    simp only
    omega

/-- A block copy keeps the form when the block lies within its length. -/
theorem FMap.wf_blit [DecidableEq α] {m sl : FMap α} {d : α} (dst n : Nat) (h : FMap.wf m d = true) (hs : FMap.wf sl d = true)
    (hn : ∀ e ∈ sl, e.1 < n) : FMap.wf (FMap.blit m dst n sl) d = true := by
  refine FMap.wf_append (FMap.wf_append (FMap.wf_filter _ h) (FMap.wf_shift dst hs) ?_) (FMap.wf_filter _ h) ?_
  · intro e he f hf
    obtain ⟨y, hy, rfl⟩ := List.mem_map.1 hf
    have := (List.mem_filter.1 he).2
    simp at *; omega
  · intro e he f hf
    have hf' := (List.mem_filter.1 hf).2
    rcases List.mem_append.1 he with he | he
    · have := (List.mem_filter.1 he).2
      simp at *; omega
    · obtain ⟨y, hy, rfl⟩ := List.mem_map.1 he
      have := hn y hy
      simp at *; omega

theorem FMap.sorted_modify {m : FMap α} (i : Nat) (f : α → α) (h : FMap.sorted m = true) :
    FMap.sorted (FMap.modify m i f) = true := by
  induction m with
  | nil => rfl
  | cons e m ih =>
    rw [FMap.sorted_cons] at h
    have ih := ih h.2
    simp only [FMap.modify, List.map_cons] at ih ⊢
    rw [FMap.sorted_cons]
    refine ⟨fun x hx => ?_, ih⟩
    obtain ⟨y, hy, rfl⟩ := List.mem_map.1 hx
    have := h.1 y hy
    split <;> split <;> simpa using this

/-! ## Bytes -/

/-- A read of the byte written gives it. -/
@[simp] theorem Memory.read_write_same (m : Memory) (a : Nat) (b : Byte) : Memory.read (Memory.write m a b) a = b :=
  FMap.get_set_same m a b _

/-- A write leaves every other byte alone. -/
theorem Memory.read_write_ne (m : Memory) {a c : Nat} (b : Byte) (h : c ≠ a) :
    Memory.read (Memory.write m a b) c = Memory.read m c := FMap.get_set_ne m b _ h

/-- Every write keeps the canonical form. -/
theorem Memory.wf_write {m : Memory} (a : Nat) (b : Byte) (h : Memory.wf m = true) :
    Memory.wf (Memory.write m a b) = true := FMap.wf_set a b h

theorem Memory.wf_writeN {m : Memory} (a : Nat) (bs : List Byte) (h : Memory.wf m = true) :
    Memory.wf (Memory.writeN m a bs) = true := FMap.wf_setRange a bs h

theorem Memory.wf_clearRange {m : Memory} (a n : Nat) (h : Memory.wf m = true) :
    Memory.wf (FMap.clearRange m a n) = true := FMap.wf_clearRange a n h

theorem Memory.wf_blit {m sl : Memory} (dst n : Nat) (h : Memory.wf m = true) (hs : Memory.wf sl = true) (hn : ∀ e ∈ sl, e.1 < n) :
    Memory.wf (FMap.blit m dst n sl) = true := FMap.wf_blit dst n h hs hn

/-- Writes one after another keep the form. -/
theorem Memory.wf_foldl {β : Type} (at_ : β → Nat) (val : β → Byte) (ws : List β) {m : Memory} (h : Memory.wf m = true) :
    Memory.wf (ws.foldl (fun m w => Memory.write m (at_ w) (val w)) m) = true := by
  induction ws generalizing m with
  | nil => exact h
  | cons w ws ih => exact ih (Memory.wf_write _ _ h)

/-! ## Ranges read back -/

theorem FMap.toList_above (d : α) (n i : Nat) (m : FMap α) (h : ∀ e ∈ m, i < e.1) :
    FMap.toList d (n + 1) i m = d :: FMap.toList d n (i + 1) m := by
  cases m with
  | nil => rfl
  | cons e m =>
    have := h e (by simp)
    simp only [FMap.toList]
    rw [if_neg (by omega)]

theorem FMap.toList_number [DecidableEq α] (d : α) (xs : List α) (i : Nat) :
    FMap.toList d xs.length i (FMap.number d i xs) = xs := by
  induction xs generalizing i with
  | nil => rfl
  | cons x xs ih =>
    simp only [FMap.number, List.length_cons]
    split
    · next h =>
      rw [FMap.toList_above _ _ _ _ fun e he => by have := (FMap.number_spec d xs (i + 1)).2 e he; omega, ih, h]
    · simp only [FMap.toList, if_true, ih]

theorem FMap.number_shift [DecidableEq α] (d : α) (xs : List α) (a i : Nat) :
    (FMap.number d (a + i) xs).map (fun e => (e.1 - a, e.2)) = FMap.number d i xs := by
  induction xs generalizing i with
  | nil => rfl
  | cons x xs ih =>
    have := ih (i + 1)
    simp only [FMap.number, ← Nat.add_assoc] at *
    split
    · exact this
    · simp [this]

/-- A read of the entries written gives them. -/
theorem FMap.getRange_setRange_same [DecidableEq α] (m : FMap α) (a : Nat) (xs : List α) (d : α) :
    FMap.getRange (FMap.setRange m a xs d) a xs.length d = xs := by
  have h1 : (m.filter fun e => decide (e.1 < a)).filter (fun e => decide (a ≤ e.1) && decide (e.1 < a + xs.length)) = [] := by
    rw [List.filter_filter, List.filter_eq_nil_iff]
    intro e _
    simp only [Bool.and_eq_true, decide_eq_true_eq]
    omega
  have h2 : (m.filter fun e => decide (a + xs.length ≤ e.1)).filter
      (fun e => decide (a ≤ e.1) && decide (e.1 < a + xs.length)) = [] := by
    rw [List.filter_filter, List.filter_eq_nil_iff]
    intro e _
    simp only [Bool.and_eq_true, decide_eq_true_eq]
    omega
  have h3 : (FMap.number d a xs).filter (fun e => decide (a ≤ e.1) && decide (e.1 < a + xs.length)) = FMap.number d a xs := by
    rw [List.filter_eq_self]
    intro e he
    have := (FMap.number_spec d xs a).2 e he
    simp only [Bool.and_eq_true, decide_eq_true_eq]
    omega
  have := FMap.number_shift d xs a 0
  rw [Nat.add_zero] at this
  rw [FMap.getRange, FMap.slice, FMap.setRange, List.filter_append, List.filter_append, h1, h2, h3, List.nil_append, List.append_nil,
    this, FMap.toList_number]

/-- A write of entries leaves every range that they do not touch alone. -/
theorem FMap.getRange_setRange_ne [DecidableEq α] (m : FMap α) (a : Nat) (xs : List α) (d : α) (c n : Nat)
    (h : c + n ≤ a ∨ a + xs.length ≤ c) : FMap.getRange (FMap.setRange m a xs d) c n d = FMap.getRange m c n d := by
  have h3 : (FMap.number d a xs).filter (fun e => decide (c ≤ e.1) && decide (e.1 < c + n)) = [] := by
    rw [List.filter_eq_nil_iff]
    intro e he
    have := (FMap.number_spec d xs a).2 e he
    simp only [Bool.and_eq_true, decide_eq_true_eq]
    omega
  simp only [FMap.getRange, FMap.slice, FMap.setRange, List.filter_append, h3, List.append_nil, List.filter_filter]
  congr 2
  rcases h with h | h
  · have h1 : ∀ e ∈ m, ((decide (c ≤ e.1) && decide (e.1 < c + n)) && decide (e.1 < a)) = (decide (c ≤ e.1) && decide (e.1 < c + n)) := by
      intro e _
      rw [Bool.eq_iff_iff]
      simp only [Bool.and_eq_true, decide_eq_true_eq]
      omega
    have h2 : ∀ e ∈ m, ((decide (c ≤ e.1) && decide (e.1 < c + n)) && decide (a + xs.length ≤ e.1)) = false := by
      intro e _
      rw [Bool.eq_false_iff]
      simp only [ne_eq, Bool.and_eq_true, decide_eq_true_eq]
      omega
    rw [List.filter_congr h1, List.filter_congr h2]
    simp
  · have h1 : ∀ e ∈ m, ((decide (c ≤ e.1) && decide (e.1 < c + n)) && decide (a + xs.length ≤ e.1)) = (decide (c ≤ e.1) && decide (e.1 < c + n)) := by
      intro e _
      rw [Bool.eq_iff_iff]
      simp only [Bool.and_eq_true, decide_eq_true_eq]
      omega
    have h2 : ∀ e ∈ m, ((decide (c ≤ e.1) && decide (e.1 < c + n)) && decide (e.1 < a)) = false := by
      intro e _
      rw [Bool.eq_false_iff]
      simp only [ne_eq, Bool.and_eq_true, decide_eq_true_eq]
      omega
    rw [List.filter_congr h1, List.filter_congr h2]
    simp

theorem leBytes_length (n x : Nat) : (leBytes n x).length = n := by
  induction n generalizing x with
  | zero => rfl
  | succ n ih => simp [leBytes, ih]

theorem leNat_leBytes (n x : Nat) : leNat (leBytes n x) = x % 256 ^ n := by
  induction n generalizing x with
  | zero => simp [leBytes, leNat, Nat.mod_one]
  | succ n ih =>
    have := Nat.mod_mul (x := x) (a := 256) (b := 256 ^ n)
    rw [leBytes, leNat, ih, BitVec.toNat_ofNat, Nat.pow_succ' (m := 256), this]

/-- A 64-bit value written is read back, and no other is changed. -/
theorem Memory.read64_writeN_same (m : Memory) (a v : Nat) :
    (Memory.read64 (Memory.writeN m a (leBytes 8 v)) a).toNat = v % 2 ^ 64 := by
  have := FMap.getRange_setRange_same m a (leBytes 8 v) Memory.default
  rw [leBytes_length] at this
  rw [Memory.read64, Memory.readN, Memory.writeN, this, leNat_leBytes, BitVec.toNat_ofNat]
  omega

theorem Memory.read64_writeN_ne (m : Memory) (a c : Nat) (bs : List Byte) (h : c + 8 ≤ a ∨ a + bs.length ≤ c) :
    Memory.read64 (Memory.writeN m a bs) c = Memory.read64 m c := by
  rw [Memory.read64, Memory.readN, Memory.writeN, FMap.getRange_setRange_ne _ _ _ _ _ _ h]
  rfl

end Sys2Proof.Machine
end

