-- ==== Sys2Proof/Laws/State.lean ====
section
/-! SUPPORT. What each update of the state leaves alone, one lemma per field and update. -/

namespace Sys2Proof.Machine

/-! ## A cell replaced -/

@[simp] theorem State.cell_setCell_same (s : State) (k : Nat) (c : Cell) : (s.setCell k c).cell k = c := by
  simp [State.cell, State.setCell]

theorem State.cell_setCell_ne (s : State) {k j : Nat} (c : Cell) (h : j ≠ k) : (s.setCell k c).cell j = s.cell j := by
  simp [State.cell, State.setCell, FMap.get_put_ne _ _ _ h]

theorem State.find?_setCell_ne (s : State) {k j : Nat} (c : Cell) (h : j ≠ k) :
    FMap.find? (s.setCell k c).cells j = FMap.find? s.cells j := FMap.find?_put_ne _ _ h

@[simp] theorem State.setCell_tick (s : State) (k : Nat) (c : Cell) : (s.setCell k c).tick = s.tick := rfl
@[simp] theorem State.setCell_drawn (s : State) (k : Nat) (c : Cell) : (s.setCell k c).drawn = s.drawn := rfl
@[simp] theorem State.setCell_agenda (s : State) (k : Nat) (c : Cell) : (s.setCell k c).agenda = s.agenda := rfl
@[simp] theorem State.setCell_cur (s : State) (k : Nat) (c : Cell) : (s.setCell k c).cur = s.cur := rfl
@[simp] theorem State.setCell_actor (s : State) (k : Nat) (c : Cell) : (s.setCell k c).actor = s.actor := rfl
@[simp] theorem State.setCell_nextShard (s : State) (k : Nat) (c : Cell) :
    (s.setCell k c).nextShard = s.nextShard := rfl
@[simp] theorem State.setCell_prols (s : State) (k : Nat) (c : Cell) : (s.setCell k c).prols = s.prols := rfl
@[simp] theorem State.setCell_dies (s : State) (k : Nat) (c : Cell) : (s.setCell k c).dies = s.dies := rfl
@[simp] theorem State.setCell_mem (s : State) (k : Nat) (c : Cell) : (s.setCell k c).mem = s.mem := rfl
@[simp] theorem State.setCell_tags (s : State) (k : Nat) (c : Cell) : (s.setCell k c).tags = s.tags := rfl
@[simp] theorem State.setCell_lastTag (s : State) (k : Nat) (c : Cell) : (s.setCell k c).lastTag = s.lastTag := rfl
@[simp] theorem State.setCell_frames (s : State) (k : Nat) (c : Cell) : (s.setCell k c).frames = s.frames := rfl
@[simp] theorem State.setCell_bad (s : State) (k : Nat) (c : Cell) : (s.setCell k c).bad = s.bad := rfl
@[simp] theorem State.setCell_host (s : State) (k : Nat) (c : Cell) : (s.setCell k c).host = s.host := rfl
@[simp] theorem State.setCell_buffers (s : State) (k : Nat) (c : Cell) : (s.setCell k c).buffers = s.buffers := rfl
@[simp] theorem State.setCell_kept (s : State) (k : Nat) (c : Cell) : (s.setCell k c).kept = s.kept := rfl
@[simp] theorem State.setCell_keptCaps (s : State) (k : Nat) (c : Cell) : (s.setCell k c).keptCaps = s.keptCaps := rfl
@[simp] theorem State.setCell_objects (s : State) (k : Nat) (c : Cell) : (s.setCell k c).objects = s.objects := rfl
@[simp] theorem State.setCell_nextHandle (s : State) (k : Nat) (c : Cell) :
    (s.setCell k c).nextHandle = s.nextHandle := rfl
@[simp] theorem State.setCell_nodes (s : State) (k : Nat) (c : Cell) : (s.setCell k c).nodes = s.nodes := rfl
@[simp] theorem State.setCell_nextOrder (s : State) (k : Nat) (c : Cell) :
    (s.setCell k c).nextOrder = s.nextOrder := rfl
@[simp] theorem State.setCell_nextArrival (s : State) (k : Nat) (c : Cell) :
    (s.setCell k c).nextArrival = s.nextArrival := rfl
@[simp] theorem State.setCell_queues (s : State) (k : Nat) (c : Cell) : (s.setCell k c).queues = s.queues := rfl
@[simp] theorem State.setCell_signals (s : State) (k : Nat) (c : Cell) : (s.setCell k c).signals = s.signals := rfl
@[simp] theorem State.setCell_sigTick (s : State) (k : Nat) (c : Cell) : (s.setCell k c).sigTick = s.sigTick := rfl
@[simp] theorem State.setCell_opens (s : State) (k : Nat) (c : Cell) : (s.setCell k c).opens = s.opens := rfl
@[simp] theorem State.setCell_reported (s : State) (k : Nat) (c : Cell) : (s.setCell k c).reported = s.reported := rfl
@[simp] theorem State.setCell_parts (s : State) (k : Nat) (c : Cell) : (s.setCell k c).parts = s.parts := rfl
@[simp] theorem State.setCell_fbwaits (s : State) (k : Nat) (c : Cell) : (s.setCell k c).fbwaits = s.fbwaits := rfl
@[simp] theorem State.setCell_dltimes (s : State) (k : Nat) (c : Cell) : (s.setCell k c).dltimes = s.dltimes := rfl
@[simp] theorem State.setCell_ctxs (s : State) (k : Nat) (c : Cell) : (s.setCell k c).ctxs = s.ctxs := rfl
@[simp] theorem State.setCell_version (s : State) (k : Nat) (c : Cell) : (s.setCell k c).version = s.version := rfl
@[simp] theorem State.setCell_reenum (s : State) (k : Nat) (c : Cell) : (s.setCell k c).reenum = s.reenum := rfl
@[simp] theorem State.setCell_deadLinks (s : State) (k : Nat) (c : Cell) :
    (s.setCell k c).deadLinks = s.deadLinks := rfl
@[simp] theorem State.setCell_faults (s : State) (k : Nat) (c : Cell) : (s.setCell k c).faults = s.faults := rfl
@[simp] theorem State.setCell_dumps (s : State) (k : Nat) (c : Cell) : (s.setCell k c).dumps = s.dumps := rfl
@[simp] theorem State.setCell_noArea (s : State) (k : Nat) (c : Cell) : (s.setCell k c).noArea = s.noArea := rfl
@[simp] theorem State.setCell_qFull (s : State) (k : Nat) (c : Cell) : (s.setCell k c).qFull = s.qFull := rfl
@[simp] theorem State.setCell_errs (s : State) (k : Nat) (c : Cell) : (s.setCell k c).errs = s.errs := rfl
@[simp] theorem State.setCell_timeBase (s : State) (k : Nat) (c : Cell) : (s.setCell k c).timeBase = s.timeBase := rfl
@[simp] theorem State.setCell_stopAt (s : State) (k : Nat) (c : Cell) : (s.setCell k c).stopAt = s.stopAt := rfl
@[simp] theorem State.setCell_stopped (s : State) (k : Nat) (c : Cell) : (s.setCell k c).stopped = s.stopped := rfl
@[simp] theorem State.setCell_ready (s : State) (k : Nat) (c : Cell) : (s.setCell k c).ready = s.ready := rfl
@[simp] theorem State.setCell_recov (s : State) (k : Nat) (c : Cell) : (s.setCell k c).recov = s.recov := rfl
@[simp] theorem State.setCell_fail (s : State) (k : Nat) (c : Cell) : (s.setCell k c).fail = s.fail := rfl
@[simp] theorem State.setCell_bootStep (s : State) (k : Nat) (c : Cell) : (s.setCell k c).bootStep = s.bootStep := rfl
@[simp] theorem State.setCell_booting (s : State) (k : Nat) (c : Cell) : (s.setCell k c).booting = s.booting := rfl
@[simp] theorem State.setCell_cool (s : State) (k : Nat) (c : Cell) : (s.setCell k c).cool = s.cool := rfl
@[simp] theorem State.setCell_powered (s : State) (k : Nat) (c : Cell) : (s.setCell k c).powered = s.powered := rfl
@[simp] theorem State.setCell_hbmmap (s : State) (k : Nat) (c : Cell) : (s.setCell k c).hbmmap = s.hbmmap := rfl
@[simp] theorem State.setCell_bar2ctx (s : State) (k : Nat) (c : Cell) : (s.setCell k c).bar2ctx = s.bar2ctx := rfl
@[simp] theorem State.setCell_bar2tag (s : State) (k : Nat) (c : Cell) : (s.setCell k c).bar2tag = s.bar2tag := rfl
@[simp] theorem State.setCell_bar2va (s : State) (k : Nat) (c : Cell) : (s.setCell k c).bar2va = s.bar2va := rfl
@[simp] theorem State.setCell_bar2err (s : State) (k : Nat) (c : Cell) : (s.setCell k c).bar2err = s.bar2err := rfl
@[simp] theorem State.setCell_mcBase (s : State) (k : Nat) (c : Cell) : (s.setCell k c).mcBase = s.mcBase := rfl
@[simp] theorem State.setCell_mcLog2 (s : State) (k : Nat) (c : Cell) : (s.setCell k c).mcLog2 = s.mcLog2 := rfl
@[simp] theorem State.setCell_mcWr (s : State) (k : Nat) (c : Cell) : (s.setCell k c).mcWr = s.mcWr := rfl
@[simp] theorem State.setCell_mcRd (s : State) (k : Nat) (c : Cell) : (s.setCell k c).mcRd = s.mcRd := rfl
@[simp] theorem State.setCell_evBase (s : State) (k : Nat) (c : Cell) : (s.setCell k c).evBase = s.evBase := rfl
@[simp] theorem State.setCell_evLog2 (s : State) (k : Nat) (c : Cell) : (s.setCell k c).evLog2 = s.evLog2 := rfl
@[simp] theorem State.setCell_evWr (s : State) (k : Nat) (c : Cell) : (s.setCell k c).evWr = s.evWr := rfl
@[simp] theorem State.setCell_evRd (s : State) (k : Nat) (c : Cell) : (s.setCell k c).evRd = s.evRd := rfl
@[simp] theorem State.setCell_evLost (s : State) (k : Nat) (c : Cell) : (s.setCell k c).evLost = s.evLost := rfl
@[simp] theorem State.setCell_evKept (s : State) (k : Nat) (c : Cell) : (s.setCell k c).evKept = s.evKept := rfl
@[simp] theorem State.setCell_meas (s : State) (k : Nat) (c : Cell) : (s.setCell k c).meas = s.meas := rfl
@[simp] theorem State.setCell_journal (s : State) (k : Nat) (c : Cell) : (s.setCell k c).journal = s.journal := rfl
@[simp] theorem State.setCell_boots (s : State) (k : Nat) (c : Cell) : (s.setCell k c).boots = s.boots := rfl
@[simp] theorem State.setCell_journalClear (s : State) (k : Nat) (c : Cell) :
    (s.setCell k c).journalClear = s.journalClear := rfl
@[simp] theorem State.setCell_fwSlots (s : State) (k : Nat) (c : Cell) : (s.setCell k c).fwSlots = s.fwSlots := rfl
@[simp] theorem State.setCell_fwActive (s : State) (k : Nat) (c : Cell) : (s.setCell k c).fwActive = s.fwActive := rfl
@[simp] theorem State.setCell_fwNext (s : State) (k : Nat) (c : Cell) : (s.setCell k c).fwNext = s.fwNext := rfl
@[simp] theorem State.setCell_shut (s : State) (k : Nat) (c : Cell) : (s.setCell k c).shut = s.shut := rfl
@[simp] theorem State.setCell_tripped (s : State) (k : Nat) (c : Cell) : (s.setCell k c).tripped = s.tripped := rfl
@[simp] theorem State.setCell_i3c (s : State) (k : Nat) (c : Cell) : (s.setCell k c).i3c = s.i3c := rfl
@[simp] theorem State.setCell_bar2Data (s : State) (k : Nat) (c : Cell) : (s.setCell k c).bar2Data = s.bar2Data := rfl
@[simp] theorem State.setCell_heldFrees (s : State) (k : Nat) (c : Cell) : (s.setCell k c).heldFrees = s.heldFrees := rfl
@[simp] theorem State.setCell_loose (s : State) (k : Nat) (c : Cell) : (s.setCell k c).loose = s.loose := rfl
@[simp] theorem State.setCell_mcBells (s : State) (k : Nat) (c : Cell) : (s.setCell k c).mcBells = s.mcBells := rfl
@[simp] theorem State.setCell_lateFaults (s : State) (k : Nat) (c : Cell) : (s.setCell k c).lateFaults = s.lateFaults := rfl
@[simp] theorem State.setCell_ueFound (s : State) (k : Nat) (c : Cell) : (s.setCell k c).ueFound = s.ueFound := rfl
@[simp] theorem State.setCell_jstore (s : State) (k : Nat) (c : Cell) : (s.setCell k c).jstore = s.jstore := rfl
@[simp] theorem State.setCell_i3cWait (s : State) (k : Nat) (c : Cell) : (s.setCell k c).i3cWait = s.i3cWait := rfl
@[simp] theorem State.setCell_hostOps (s : State) (k : Nat) (c : Cell) : (s.setCell k c).hostOps = s.hostOps := rfl
@[simp] theorem State.setCell_tbShown (s : State) (k : Nat) (c : Cell) : (s.setCell k c).tbShown = s.tbShown := rfl
@[simp] theorem State.setCell_tickKept (s : State) (k : Nat) (c : Cell) : (s.setCell k c).tickKept = s.tickKept := rfl
@[simp] theorem State.setCell_msix (s : State) (k : Nat) (c : Cell) : (s.setCell k c).msix = s.msix := rfl

/-! ## The executing core replaced -/

theorem State.setCore_cell {s : State} {k : Nat} {e : EngTag} (h : s.cur = .cell k e) (c : Cell) :
    s.setCore c = s.setCell k c := by simp [State.setCore, h]

theorem State.core_cell {s : State} {k : Nat} {e : EngTag} (h : s.cur = .cell k e) : s.core = s.cell k := by
  simp [State.core, h]

theorem State.curEng_cell {s : State} {k : Nat} {e : EngTag} (h : s.cur = .cell k e) : s.curEng = e := by
  simp [State.curEng, h]

theorem State.curKey_cell {s : State} {k : Nat} {e : EngTag} (h : s.cur = .cell k e) : s.curKey = k := by
  simp [State.curKey, h]

/-- On a cell, the core read back is the one put. -/
theorem State.core_setCore {s : State} {k : Nat} {e : EngTag} (h : s.cur = .cell k e) (c : Cell) :
    (s.setCore c).core = c := by simp [State.setCore, State.core, h]

@[simp] theorem State.setCore_tick (s : State) (c : Cell) :
    (s.setCore c).tick = s.tick := by unfold State.setCore; split <;> rfl
@[simp] theorem State.setCore_drawn (s : State) (c : Cell) :
    (s.setCore c).drawn = s.drawn := by unfold State.setCore; split <;> rfl
@[simp] theorem State.setCore_agenda (s : State) (c : Cell) :
    (s.setCore c).agenda = s.agenda := by unfold State.setCore; split <;> rfl
@[simp] theorem State.setCore_cur (s : State) (c : Cell) :
    (s.setCore c).cur = s.cur := by unfold State.setCore; split <;> rfl
@[simp] theorem State.setCore_actor (s : State) (c : Cell) :
    (s.setCore c).actor = s.actor := by unfold State.setCore; split <;> rfl
@[simp] theorem State.setCore_nextShard (s : State) (c : Cell) :
    (s.setCore c).nextShard = s.nextShard := by unfold State.setCore; split <;> rfl
@[simp] theorem State.setCore_dies (s : State) (c : Cell) :
    (s.setCore c).dies = s.dies := by unfold State.setCore; split <;> rfl
@[simp] theorem State.setCore_mem (s : State) (c : Cell) :
    (s.setCore c).mem = s.mem := by unfold State.setCore; split <;> rfl
@[simp] theorem State.setCore_tags (s : State) (c : Cell) :
    (s.setCore c).tags = s.tags := by unfold State.setCore; split <;> rfl
@[simp] theorem State.setCore_lastTag (s : State) (c : Cell) :
    (s.setCore c).lastTag = s.lastTag := by unfold State.setCore; split <;> rfl
@[simp] theorem State.setCore_frames (s : State) (c : Cell) :
    (s.setCore c).frames = s.frames := by unfold State.setCore; split <;> rfl
@[simp] theorem State.setCore_bad (s : State) (c : Cell) :
    (s.setCore c).bad = s.bad := by unfold State.setCore; split <;> rfl
@[simp] theorem State.setCore_host (s : State) (c : Cell) :
    (s.setCore c).host = s.host := by unfold State.setCore; split <;> rfl
@[simp] theorem State.setCore_buffers (s : State) (c : Cell) :
    (s.setCore c).buffers = s.buffers := by unfold State.setCore; split <;> rfl
@[simp] theorem State.setCore_kept (s : State) (c : Cell) :
    (s.setCore c).kept = s.kept := by unfold State.setCore; split <;> rfl
@[simp] theorem State.setCore_keptCaps (s : State) (c : Cell) :
    (s.setCore c).keptCaps = s.keptCaps := by unfold State.setCore; split <;> rfl
@[simp] theorem State.setCore_objects (s : State) (c : Cell) :
    (s.setCore c).objects = s.objects := by unfold State.setCore; split <;> rfl
@[simp] theorem State.setCore_nextHandle (s : State) (c : Cell) :
    (s.setCore c).nextHandle = s.nextHandle := by unfold State.setCore; split <;> rfl
@[simp] theorem State.setCore_nodes (s : State) (c : Cell) :
    (s.setCore c).nodes = s.nodes := by unfold State.setCore; split <;> rfl
@[simp] theorem State.setCore_nextOrder (s : State) (c : Cell) :
    (s.setCore c).nextOrder = s.nextOrder := by unfold State.setCore; split <;> rfl
@[simp] theorem State.setCore_nextArrival (s : State) (c : Cell) :
    (s.setCore c).nextArrival = s.nextArrival := by unfold State.setCore; split <;> rfl
@[simp] theorem State.setCore_queues (s : State) (c : Cell) :
    (s.setCore c).queues = s.queues := by unfold State.setCore; split <;> rfl
@[simp] theorem State.setCore_signals (s : State) (c : Cell) :
    (s.setCore c).signals = s.signals := by unfold State.setCore; split <;> rfl
@[simp] theorem State.setCore_sigTick (s : State) (c : Cell) :
    (s.setCore c).sigTick = s.sigTick := by unfold State.setCore; split <;> rfl
@[simp] theorem State.setCore_opens (s : State) (c : Cell) :
    (s.setCore c).opens = s.opens := by unfold State.setCore; split <;> rfl
@[simp] theorem State.setCore_reported (s : State) (c : Cell) :
    (s.setCore c).reported = s.reported := by unfold State.setCore; split <;> rfl
@[simp] theorem State.setCore_parts (s : State) (c : Cell) :
    (s.setCore c).parts = s.parts := by unfold State.setCore; split <;> rfl
@[simp] theorem State.setCore_fbwaits (s : State) (c : Cell) :
    (s.setCore c).fbwaits = s.fbwaits := by unfold State.setCore; split <;> rfl
@[simp] theorem State.setCore_dltimes (s : State) (c : Cell) :
    (s.setCore c).dltimes = s.dltimes := by unfold State.setCore; split <;> rfl
@[simp] theorem State.setCore_ctxs (s : State) (c : Cell) :
    (s.setCore c).ctxs = s.ctxs := by unfold State.setCore; split <;> rfl
@[simp] theorem State.setCore_version (s : State) (c : Cell) :
    (s.setCore c).version = s.version := by unfold State.setCore; split <;> rfl
@[simp] theorem State.setCore_reenum (s : State) (c : Cell) :
    (s.setCore c).reenum = s.reenum := by unfold State.setCore; split <;> rfl
@[simp] theorem State.setCore_deadLinks (s : State) (c : Cell) :
    (s.setCore c).deadLinks = s.deadLinks := by unfold State.setCore; split <;> rfl
@[simp] theorem State.setCore_faults (s : State) (c : Cell) :
    (s.setCore c).faults = s.faults := by unfold State.setCore; split <;> rfl
@[simp] theorem State.setCore_dumps (s : State) (c : Cell) :
    (s.setCore c).dumps = s.dumps := by unfold State.setCore; split <;> rfl
@[simp] theorem State.setCore_noArea (s : State) (c : Cell) :
    (s.setCore c).noArea = s.noArea := by unfold State.setCore; split <;> rfl
@[simp] theorem State.setCore_qFull (s : State) (c : Cell) :
    (s.setCore c).qFull = s.qFull := by unfold State.setCore; split <;> rfl
@[simp] theorem State.setCore_errs (s : State) (c : Cell) :
    (s.setCore c).errs = s.errs := by unfold State.setCore; split <;> rfl
@[simp] theorem State.setCore_timeBase (s : State) (c : Cell) :
    (s.setCore c).timeBase = s.timeBase := by unfold State.setCore; split <;> rfl
@[simp] theorem State.setCore_stopAt (s : State) (c : Cell) :
    (s.setCore c).stopAt = s.stopAt := by unfold State.setCore; split <;> rfl
@[simp] theorem State.setCore_stopped (s : State) (c : Cell) :
    (s.setCore c).stopped = s.stopped := by unfold State.setCore; split <;> rfl
@[simp] theorem State.setCore_ready (s : State) (c : Cell) :
    (s.setCore c).ready = s.ready := by unfold State.setCore; split <;> rfl
@[simp] theorem State.setCore_recov (s : State) (c : Cell) :
    (s.setCore c).recov = s.recov := by unfold State.setCore; split <;> rfl
@[simp] theorem State.setCore_fail (s : State) (c : Cell) :
    (s.setCore c).fail = s.fail := by unfold State.setCore; split <;> rfl
@[simp] theorem State.setCore_bootStep (s : State) (c : Cell) :
    (s.setCore c).bootStep = s.bootStep := by unfold State.setCore; split <;> rfl
@[simp] theorem State.setCore_booting (s : State) (c : Cell) :
    (s.setCore c).booting = s.booting := by unfold State.setCore; split <;> rfl
@[simp] theorem State.setCore_cool (s : State) (c : Cell) :
    (s.setCore c).cool = s.cool := by unfold State.setCore; split <;> rfl
@[simp] theorem State.setCore_powered (s : State) (c : Cell) :
    (s.setCore c).powered = s.powered := by unfold State.setCore; split <;> rfl
@[simp] theorem State.setCore_hbmmap (s : State) (c : Cell) :
    (s.setCore c).hbmmap = s.hbmmap := by unfold State.setCore; split <;> rfl
@[simp] theorem State.setCore_bar2ctx (s : State) (c : Cell) :
    (s.setCore c).bar2ctx = s.bar2ctx := by unfold State.setCore; split <;> rfl
@[simp] theorem State.setCore_bar2tag (s : State) (c : Cell) :
    (s.setCore c).bar2tag = s.bar2tag := by unfold State.setCore; split <;> rfl
@[simp] theorem State.setCore_bar2va (s : State) (c : Cell) :
    (s.setCore c).bar2va = s.bar2va := by unfold State.setCore; split <;> rfl
@[simp] theorem State.setCore_bar2err (s : State) (c : Cell) :
    (s.setCore c).bar2err = s.bar2err := by unfold State.setCore; split <;> rfl
@[simp] theorem State.setCore_mcBase (s : State) (c : Cell) :
    (s.setCore c).mcBase = s.mcBase := by unfold State.setCore; split <;> rfl
@[simp] theorem State.setCore_mcLog2 (s : State) (c : Cell) :
    (s.setCore c).mcLog2 = s.mcLog2 := by unfold State.setCore; split <;> rfl
@[simp] theorem State.setCore_mcWr (s : State) (c : Cell) :
    (s.setCore c).mcWr = s.mcWr := by unfold State.setCore; split <;> rfl
@[simp] theorem State.setCore_mcRd (s : State) (c : Cell) :
    (s.setCore c).mcRd = s.mcRd := by unfold State.setCore; split <;> rfl
@[simp] theorem State.setCore_evBase (s : State) (c : Cell) :
    (s.setCore c).evBase = s.evBase := by unfold State.setCore; split <;> rfl
@[simp] theorem State.setCore_evLog2 (s : State) (c : Cell) :
    (s.setCore c).evLog2 = s.evLog2 := by unfold State.setCore; split <;> rfl
@[simp] theorem State.setCore_evWr (s : State) (c : Cell) :
    (s.setCore c).evWr = s.evWr := by unfold State.setCore; split <;> rfl
@[simp] theorem State.setCore_evRd (s : State) (c : Cell) :
    (s.setCore c).evRd = s.evRd := by unfold State.setCore; split <;> rfl
@[simp] theorem State.setCore_evLost (s : State) (c : Cell) :
    (s.setCore c).evLost = s.evLost := by unfold State.setCore; split <;> rfl
@[simp] theorem State.setCore_evKept (s : State) (c : Cell) :
    (s.setCore c).evKept = s.evKept := by unfold State.setCore; split <;> rfl
@[simp] theorem State.setCore_meas (s : State) (c : Cell) :
    (s.setCore c).meas = s.meas := by unfold State.setCore; split <;> rfl
@[simp] theorem State.setCore_journal (s : State) (c : Cell) :
    (s.setCore c).journal = s.journal := by unfold State.setCore; split <;> rfl
@[simp] theorem State.setCore_boots (s : State) (c : Cell) :
    (s.setCore c).boots = s.boots := by unfold State.setCore; split <;> rfl
@[simp] theorem State.setCore_journalClear (s : State) (c : Cell) :
    (s.setCore c).journalClear = s.journalClear := by unfold State.setCore; split <;> rfl
@[simp] theorem State.setCore_fwSlots (s : State) (c : Cell) :
    (s.setCore c).fwSlots = s.fwSlots := by unfold State.setCore; split <;> rfl
@[simp] theorem State.setCore_fwActive (s : State) (c : Cell) :
    (s.setCore c).fwActive = s.fwActive := by unfold State.setCore; split <;> rfl
@[simp] theorem State.setCore_fwNext (s : State) (c : Cell) :
    (s.setCore c).fwNext = s.fwNext := by unfold State.setCore; split <;> rfl
@[simp] theorem State.setCore_shut (s : State) (c : Cell) :
    (s.setCore c).shut = s.shut := by unfold State.setCore; split <;> rfl
@[simp] theorem State.setCore_tripped (s : State) (c : Cell) :
    (s.setCore c).tripped = s.tripped := by unfold State.setCore; split <;> rfl
@[simp] theorem State.setCore_i3c (s : State) (c : Cell) :
    (s.setCore c).i3c = s.i3c := by unfold State.setCore; split <;> rfl
@[simp] theorem State.setCore_bar2Data (s : State) (c : Cell) :
    (s.setCore c).bar2Data = s.bar2Data := by unfold State.setCore; split <;> rfl
@[simp] theorem State.setCore_heldFrees (s : State) (c : Cell) :
    (s.setCore c).heldFrees = s.heldFrees := by unfold State.setCore; split <;> rfl
@[simp] theorem State.setCore_loose (s : State) (c : Cell) :
    (s.setCore c).loose = s.loose := by unfold State.setCore; split <;> rfl
@[simp] theorem State.setCore_mcBells (s : State) (c : Cell) :
    (s.setCore c).mcBells = s.mcBells := by unfold State.setCore; split <;> rfl
@[simp] theorem State.setCore_lateFaults (s : State) (c : Cell) :
    (s.setCore c).lateFaults = s.lateFaults := by unfold State.setCore; split <;> rfl
@[simp] theorem State.setCore_ueFound (s : State) (c : Cell) :
    (s.setCore c).ueFound = s.ueFound := by unfold State.setCore; split <;> rfl
@[simp] theorem State.setCore_jstore (s : State) (c : Cell) :
    (s.setCore c).jstore = s.jstore := by unfold State.setCore; split <;> rfl
@[simp] theorem State.setCore_i3cWait (s : State) (c : Cell) :
    (s.setCore c).i3cWait = s.i3cWait := by unfold State.setCore; split <;> rfl
@[simp] theorem State.setCore_hostOps (s : State) (c : Cell) :
    (s.setCore c).hostOps = s.hostOps := by unfold State.setCore; split <;> rfl
@[simp] theorem State.setCore_tbShown (s : State) (c : Cell) :
    (s.setCore c).tbShown = s.tbShown := by unfold State.setCore; split <;> rfl
@[simp] theorem State.setCore_tickKept (s : State) (c : Cell) :
    (s.setCore c).tickKept = s.tickKept := by unfold State.setCore; split <;> rfl
@[simp] theorem State.setCore_msix (s : State) (c : Cell) :
    (s.setCore c).msix = s.msix := by unfold State.setCore; split <;> rfl

@[simp] theorem State.setCore_curEng (s : State) (c : Cell) :
    (s.setCore c).curEng = s.curEng := by simp [State.curEng]
@[simp] theorem State.setCore_curKey (s : State) (c : Cell) :
    (s.setCore c).curKey = s.curKey := by simp [State.curKey]
@[simp] theorem State.setCore_curClass (s : State) (c : Cell) : (s.setCore c).curClass = s.curClass := by
  simp [State.curClass]

/-! ## The executing engine changed -/

@[simp] theorem State.modEng_tick (s : State) (f : Eng → Eng) : (s.modEng f).tick = s.tick := s.setCore_tick _
@[simp] theorem State.modEng_drawn (s : State) (f : Eng → Eng) : (s.modEng f).drawn = s.drawn := s.setCore_drawn _
@[simp] theorem State.modEng_agenda (s : State) (f : Eng → Eng) : (s.modEng f).agenda = s.agenda := s.setCore_agenda _
@[simp] theorem State.modEng_cur (s : State) (f : Eng → Eng) : (s.modEng f).cur = s.cur := s.setCore_cur _
@[simp] theorem State.modEng_actor (s : State) (f : Eng → Eng) : (s.modEng f).actor = s.actor := s.setCore_actor _
@[simp] theorem State.modEng_nextShard (s : State) (f : Eng → Eng) :
    (s.modEng f).nextShard = s.nextShard := s.setCore_nextShard _
@[simp] theorem State.modEng_dies (s : State) (f : Eng → Eng) : (s.modEng f).dies = s.dies := s.setCore_dies _
@[simp] theorem State.modEng_mem (s : State) (f : Eng → Eng) : (s.modEng f).mem = s.mem := s.setCore_mem _
@[simp] theorem State.modEng_tags (s : State) (f : Eng → Eng) : (s.modEng f).tags = s.tags := s.setCore_tags _
@[simp] theorem State.modEng_lastTag (s : State) (f : Eng → Eng) :
    (s.modEng f).lastTag = s.lastTag := s.setCore_lastTag _
@[simp] theorem State.modEng_frames (s : State) (f : Eng → Eng) : (s.modEng f).frames = s.frames := s.setCore_frames _
@[simp] theorem State.modEng_bad (s : State) (f : Eng → Eng) : (s.modEng f).bad = s.bad := s.setCore_bad _
@[simp] theorem State.modEng_host (s : State) (f : Eng → Eng) : (s.modEng f).host = s.host := s.setCore_host _
@[simp] theorem State.modEng_buffers (s : State) (f : Eng → Eng) :
    (s.modEng f).buffers = s.buffers := s.setCore_buffers _
@[simp] theorem State.modEng_kept (s : State) (f : Eng → Eng) : (s.modEng f).kept = s.kept := s.setCore_kept _
@[simp] theorem State.modEng_keptCaps (s : State) (f : Eng → Eng) :
    (s.modEng f).keptCaps = s.keptCaps := s.setCore_keptCaps _
@[simp] theorem State.modEng_objects (s : State) (f : Eng → Eng) :
    (s.modEng f).objects = s.objects := s.setCore_objects _
@[simp] theorem State.modEng_nextHandle (s : State) (f : Eng → Eng) :
    (s.modEng f).nextHandle = s.nextHandle := s.setCore_nextHandle _
@[simp] theorem State.modEng_nodes (s : State) (f : Eng → Eng) : (s.modEng f).nodes = s.nodes := s.setCore_nodes _
@[simp] theorem State.modEng_nextOrder (s : State) (f : Eng → Eng) :
    (s.modEng f).nextOrder = s.nextOrder := s.setCore_nextOrder _
@[simp] theorem State.modEng_nextArrival (s : State) (f : Eng → Eng) :
    (s.modEng f).nextArrival = s.nextArrival := s.setCore_nextArrival _
@[simp] theorem State.modEng_queues (s : State) (f : Eng → Eng) : (s.modEng f).queues = s.queues := s.setCore_queues _
@[simp] theorem State.modEng_signals (s : State) (f : Eng → Eng) :
    (s.modEng f).signals = s.signals := s.setCore_signals _
@[simp] theorem State.modEng_sigTick (s : State) (f : Eng → Eng) :
    (s.modEng f).sigTick = s.sigTick := s.setCore_sigTick _
@[simp] theorem State.modEng_opens (s : State) (f : Eng → Eng) : (s.modEng f).opens = s.opens := s.setCore_opens _
@[simp] theorem State.modEng_reported (s : State) (f : Eng → Eng) :
    (s.modEng f).reported = s.reported := s.setCore_reported _
@[simp] theorem State.modEng_parts (s : State) (f : Eng → Eng) : (s.modEng f).parts = s.parts := s.setCore_parts _
@[simp] theorem State.modEng_fbwaits (s : State) (f : Eng → Eng) :
    (s.modEng f).fbwaits = s.fbwaits := s.setCore_fbwaits _
@[simp] theorem State.modEng_dltimes (s : State) (f : Eng → Eng) :
    (s.modEng f).dltimes = s.dltimes := s.setCore_dltimes _
@[simp] theorem State.modEng_ctxs (s : State) (f : Eng → Eng) : (s.modEng f).ctxs = s.ctxs := s.setCore_ctxs _
@[simp] theorem State.modEng_version (s : State) (f : Eng → Eng) :
    (s.modEng f).version = s.version := s.setCore_version _
@[simp] theorem State.modEng_reenum (s : State) (f : Eng → Eng) : (s.modEng f).reenum = s.reenum := s.setCore_reenum _
@[simp] theorem State.modEng_deadLinks (s : State) (f : Eng → Eng) :
    (s.modEng f).deadLinks = s.deadLinks := s.setCore_deadLinks _
@[simp] theorem State.modEng_faults (s : State) (f : Eng → Eng) : (s.modEng f).faults = s.faults := s.setCore_faults _
@[simp] theorem State.modEng_dumps (s : State) (f : Eng → Eng) : (s.modEng f).dumps = s.dumps := s.setCore_dumps _
@[simp] theorem State.modEng_noArea (s : State) (f : Eng → Eng) : (s.modEng f).noArea = s.noArea := s.setCore_noArea _
@[simp] theorem State.modEng_qFull (s : State) (f : Eng → Eng) : (s.modEng f).qFull = s.qFull := s.setCore_qFull _
@[simp] theorem State.modEng_errs (s : State) (f : Eng → Eng) : (s.modEng f).errs = s.errs := s.setCore_errs _
@[simp] theorem State.modEng_timeBase (s : State) (f : Eng → Eng) :
    (s.modEng f).timeBase = s.timeBase := s.setCore_timeBase _
@[simp] theorem State.modEng_stopAt (s : State) (f : Eng → Eng) : (s.modEng f).stopAt = s.stopAt := s.setCore_stopAt _
@[simp] theorem State.modEng_stopped (s : State) (f : Eng → Eng) :
    (s.modEng f).stopped = s.stopped := s.setCore_stopped _
@[simp] theorem State.modEng_ready (s : State) (f : Eng → Eng) : (s.modEng f).ready = s.ready := s.setCore_ready _
@[simp] theorem State.modEng_recov (s : State) (f : Eng → Eng) : (s.modEng f).recov = s.recov := s.setCore_recov _
@[simp] theorem State.modEng_fail (s : State) (f : Eng → Eng) : (s.modEng f).fail = s.fail := s.setCore_fail _
@[simp] theorem State.modEng_bootStep (s : State) (f : Eng → Eng) :
    (s.modEng f).bootStep = s.bootStep := s.setCore_bootStep _
@[simp] theorem State.modEng_booting (s : State) (f : Eng → Eng) :
    (s.modEng f).booting = s.booting := s.setCore_booting _
@[simp] theorem State.modEng_cool (s : State) (f : Eng → Eng) : (s.modEng f).cool = s.cool := s.setCore_cool _
@[simp] theorem State.modEng_powered (s : State) (f : Eng → Eng) :
    (s.modEng f).powered = s.powered := s.setCore_powered _
@[simp] theorem State.modEng_hbmmap (s : State) (f : Eng → Eng) : (s.modEng f).hbmmap = s.hbmmap := s.setCore_hbmmap _
@[simp] theorem State.modEng_bar2ctx (s : State) (f : Eng → Eng) :
    (s.modEng f).bar2ctx = s.bar2ctx := s.setCore_bar2ctx _
@[simp] theorem State.modEng_bar2tag (s : State) (f : Eng → Eng) :
    (s.modEng f).bar2tag = s.bar2tag := s.setCore_bar2tag _
@[simp] theorem State.modEng_bar2va (s : State) (f : Eng → Eng) : (s.modEng f).bar2va = s.bar2va := s.setCore_bar2va _
@[simp] theorem State.modEng_bar2err (s : State) (f : Eng → Eng) :
    (s.modEng f).bar2err = s.bar2err := s.setCore_bar2err _
@[simp] theorem State.modEng_mcBase (s : State) (f : Eng → Eng) : (s.modEng f).mcBase = s.mcBase := s.setCore_mcBase _
@[simp] theorem State.modEng_mcLog2 (s : State) (f : Eng → Eng) : (s.modEng f).mcLog2 = s.mcLog2 := s.setCore_mcLog2 _
@[simp] theorem State.modEng_mcWr (s : State) (f : Eng → Eng) : (s.modEng f).mcWr = s.mcWr := s.setCore_mcWr _
@[simp] theorem State.modEng_mcRd (s : State) (f : Eng → Eng) : (s.modEng f).mcRd = s.mcRd := s.setCore_mcRd _
@[simp] theorem State.modEng_evBase (s : State) (f : Eng → Eng) : (s.modEng f).evBase = s.evBase := s.setCore_evBase _
@[simp] theorem State.modEng_evLog2 (s : State) (f : Eng → Eng) : (s.modEng f).evLog2 = s.evLog2 := s.setCore_evLog2 _
@[simp] theorem State.modEng_evWr (s : State) (f : Eng → Eng) : (s.modEng f).evWr = s.evWr := s.setCore_evWr _
@[simp] theorem State.modEng_evRd (s : State) (f : Eng → Eng) : (s.modEng f).evRd = s.evRd := s.setCore_evRd _
@[simp] theorem State.modEng_evLost (s : State) (f : Eng → Eng) : (s.modEng f).evLost = s.evLost := s.setCore_evLost _
@[simp] theorem State.modEng_evKept (s : State) (f : Eng → Eng) : (s.modEng f).evKept = s.evKept := s.setCore_evKept _
@[simp] theorem State.modEng_meas (s : State) (f : Eng → Eng) : (s.modEng f).meas = s.meas := s.setCore_meas _
@[simp] theorem State.modEng_journal (s : State) (f : Eng → Eng) :
    (s.modEng f).journal = s.journal := s.setCore_journal _
@[simp] theorem State.modEng_boots (s : State) (f : Eng → Eng) : (s.modEng f).boots = s.boots := s.setCore_boots _
@[simp] theorem State.modEng_journalClear (s : State) (f : Eng → Eng) :
    (s.modEng f).journalClear = s.journalClear := s.setCore_journalClear _
@[simp] theorem State.modEng_fwSlots (s : State) (f : Eng → Eng) :
    (s.modEng f).fwSlots = s.fwSlots := s.setCore_fwSlots _
@[simp] theorem State.modEng_fwActive (s : State) (f : Eng → Eng) :
    (s.modEng f).fwActive = s.fwActive := s.setCore_fwActive _
@[simp] theorem State.modEng_fwNext (s : State) (f : Eng → Eng) : (s.modEng f).fwNext = s.fwNext := s.setCore_fwNext _
@[simp] theorem State.modEng_shut (s : State) (f : Eng → Eng) : (s.modEng f).shut = s.shut := s.setCore_shut _
@[simp] theorem State.modEng_tripped (s : State) (f : Eng → Eng) :
    (s.modEng f).tripped = s.tripped := s.setCore_tripped _
@[simp] theorem State.modEng_i3c (s : State) (f : Eng → Eng) : (s.modEng f).i3c = s.i3c := s.setCore_i3c _
@[simp] theorem State.modEng_bar2Data (s : State) (f : Eng → Eng) :
    (s.modEng f).bar2Data = s.bar2Data := s.setCore_bar2Data _
@[simp] theorem State.modEng_heldFrees (s : State) (f : Eng → Eng) :
    (s.modEng f).heldFrees = s.heldFrees := s.setCore_heldFrees _
@[simp] theorem State.modEng_loose (s : State) (f : Eng → Eng) :
    (s.modEng f).loose = s.loose := s.setCore_loose _
@[simp] theorem State.modEng_mcBells (s : State) (f : Eng → Eng) :
    (s.modEng f).mcBells = s.mcBells := s.setCore_mcBells _
@[simp] theorem State.modEng_lateFaults (s : State) (f : Eng → Eng) :
    (s.modEng f).lateFaults = s.lateFaults := s.setCore_lateFaults _
@[simp] theorem State.modEng_ueFound (s : State) (f : Eng → Eng) :
    (s.modEng f).ueFound = s.ueFound := s.setCore_ueFound _
@[simp] theorem State.modEng_jstore (s : State) (f : Eng → Eng) :
    (s.modEng f).jstore = s.jstore := s.setCore_jstore _
@[simp] theorem State.modEng_i3cWait (s : State) (f : Eng → Eng) :
    (s.modEng f).i3cWait = s.i3cWait := s.setCore_i3cWait _
@[simp] theorem State.modEng_hostOps (s : State) (f : Eng → Eng) :
    (s.modEng f).hostOps = s.hostOps := s.setCore_hostOps _
@[simp] theorem State.modEng_tbShown (s : State) (f : Eng → Eng) :
    (s.modEng f).tbShown = s.tbShown := s.setCore_tbShown _
@[simp] theorem State.modEng_tickKept (s : State) (f : Eng → Eng) :
    (s.modEng f).tickKept = s.tickKept := s.setCore_tickKept _
@[simp] theorem State.modEng_msix (s : State) (f : Eng → Eng) : (s.modEng f).msix = s.msix := s.setCore_msix _

/-! ## A die or an entry of the dependency table replaced -/

@[simp] theorem State.setDie_tick (s : State) (k : Nat) (d : Die) : (s.setDie k d).tick = s.tick := rfl
@[simp] theorem State.setDie_drawn (s : State) (k : Nat) (d : Die) : (s.setDie k d).drawn = s.drawn := rfl
@[simp] theorem State.setDie_agenda (s : State) (k : Nat) (d : Die) : (s.setDie k d).agenda = s.agenda := rfl
@[simp] theorem State.setDie_cur (s : State) (k : Nat) (d : Die) : (s.setDie k d).cur = s.cur := rfl
@[simp] theorem State.setDie_actor (s : State) (k : Nat) (d : Die) : (s.setDie k d).actor = s.actor := rfl
@[simp] theorem State.setDie_nextShard (s : State) (k : Nat) (d : Die) : (s.setDie k d).nextShard = s.nextShard := rfl
@[simp] theorem State.setDie_prols (s : State) (k : Nat) (d : Die) : (s.setDie k d).prols = s.prols := rfl
@[simp] theorem State.setDie_cells (s : State) (k : Nat) (d : Die) : (s.setDie k d).cells = s.cells := rfl
@[simp] theorem State.setDie_mem (s : State) (k : Nat) (d : Die) : (s.setDie k d).mem = s.mem := rfl
@[simp] theorem State.setDie_tags (s : State) (k : Nat) (d : Die) : (s.setDie k d).tags = s.tags := rfl
@[simp] theorem State.setDie_lastTag (s : State) (k : Nat) (d : Die) : (s.setDie k d).lastTag = s.lastTag := rfl
@[simp] theorem State.setDie_frames (s : State) (k : Nat) (d : Die) : (s.setDie k d).frames = s.frames := rfl
@[simp] theorem State.setDie_bad (s : State) (k : Nat) (d : Die) : (s.setDie k d).bad = s.bad := rfl
@[simp] theorem State.setDie_host (s : State) (k : Nat) (d : Die) : (s.setDie k d).host = s.host := rfl
@[simp] theorem State.setDie_buffers (s : State) (k : Nat) (d : Die) : (s.setDie k d).buffers = s.buffers := rfl
@[simp] theorem State.setDie_kept (s : State) (k : Nat) (d : Die) : (s.setDie k d).kept = s.kept := rfl
@[simp] theorem State.setDie_keptCaps (s : State) (k : Nat) (d : Die) : (s.setDie k d).keptCaps = s.keptCaps := rfl
@[simp] theorem State.setDie_objects (s : State) (k : Nat) (d : Die) : (s.setDie k d).objects = s.objects := rfl
@[simp] theorem State.setDie_nextHandle (s : State) (k : Nat) (d : Die) :
    (s.setDie k d).nextHandle = s.nextHandle := rfl
@[simp] theorem State.setDie_nodes (s : State) (k : Nat) (d : Die) : (s.setDie k d).nodes = s.nodes := rfl
@[simp] theorem State.setDie_nextOrder (s : State) (k : Nat) (d : Die) : (s.setDie k d).nextOrder = s.nextOrder := rfl
@[simp] theorem State.setDie_nextArrival (s : State) (k : Nat) (d : Die) :
    (s.setDie k d).nextArrival = s.nextArrival := rfl
@[simp] theorem State.setDie_queues (s : State) (k : Nat) (d : Die) : (s.setDie k d).queues = s.queues := rfl
@[simp] theorem State.setDie_signals (s : State) (k : Nat) (d : Die) : (s.setDie k d).signals = s.signals := rfl
@[simp] theorem State.setDie_sigTick (s : State) (k : Nat) (d : Die) : (s.setDie k d).sigTick = s.sigTick := rfl
@[simp] theorem State.setDie_opens (s : State) (k : Nat) (d : Die) : (s.setDie k d).opens = s.opens := rfl
@[simp] theorem State.setDie_reported (s : State) (k : Nat) (d : Die) : (s.setDie k d).reported = s.reported := rfl
@[simp] theorem State.setDie_parts (s : State) (k : Nat) (d : Die) : (s.setDie k d).parts = s.parts := rfl
@[simp] theorem State.setDie_fbwaits (s : State) (k : Nat) (d : Die) : (s.setDie k d).fbwaits = s.fbwaits := rfl
@[simp] theorem State.setDie_dltimes (s : State) (k : Nat) (d : Die) : (s.setDie k d).dltimes = s.dltimes := rfl
@[simp] theorem State.setDie_ctxs (s : State) (k : Nat) (d : Die) : (s.setDie k d).ctxs = s.ctxs := rfl
@[simp] theorem State.setDie_version (s : State) (k : Nat) (d : Die) : (s.setDie k d).version = s.version := rfl
@[simp] theorem State.setDie_reenum (s : State) (k : Nat) (d : Die) : (s.setDie k d).reenum = s.reenum := rfl
@[simp] theorem State.setDie_deadLinks (s : State) (k : Nat) (d : Die) : (s.setDie k d).deadLinks = s.deadLinks := rfl
@[simp] theorem State.setDie_faults (s : State) (k : Nat) (d : Die) : (s.setDie k d).faults = s.faults := rfl
@[simp] theorem State.setDie_dumps (s : State) (k : Nat) (d : Die) : (s.setDie k d).dumps = s.dumps := rfl
@[simp] theorem State.setDie_noArea (s : State) (k : Nat) (d : Die) : (s.setDie k d).noArea = s.noArea := rfl
@[simp] theorem State.setDie_qFull (s : State) (k : Nat) (d : Die) : (s.setDie k d).qFull = s.qFull := rfl
@[simp] theorem State.setDie_errs (s : State) (k : Nat) (d : Die) : (s.setDie k d).errs = s.errs := rfl
@[simp] theorem State.setDie_timeBase (s : State) (k : Nat) (d : Die) : (s.setDie k d).timeBase = s.timeBase := rfl
@[simp] theorem State.setDie_stopAt (s : State) (k : Nat) (d : Die) : (s.setDie k d).stopAt = s.stopAt := rfl
@[simp] theorem State.setDie_stopped (s : State) (k : Nat) (d : Die) : (s.setDie k d).stopped = s.stopped := rfl
@[simp] theorem State.setDie_ready (s : State) (k : Nat) (d : Die) : (s.setDie k d).ready = s.ready := rfl
@[simp] theorem State.setDie_recov (s : State) (k : Nat) (d : Die) : (s.setDie k d).recov = s.recov := rfl
@[simp] theorem State.setDie_fail (s : State) (k : Nat) (d : Die) : (s.setDie k d).fail = s.fail := rfl
@[simp] theorem State.setDie_bootStep (s : State) (k : Nat) (d : Die) : (s.setDie k d).bootStep = s.bootStep := rfl
@[simp] theorem State.setDie_booting (s : State) (k : Nat) (d : Die) : (s.setDie k d).booting = s.booting := rfl
@[simp] theorem State.setDie_cool (s : State) (k : Nat) (d : Die) : (s.setDie k d).cool = s.cool := rfl
@[simp] theorem State.setDie_powered (s : State) (k : Nat) (d : Die) : (s.setDie k d).powered = s.powered := rfl
@[simp] theorem State.setDie_hbmmap (s : State) (k : Nat) (d : Die) : (s.setDie k d).hbmmap = s.hbmmap := rfl
@[simp] theorem State.setDie_bar2ctx (s : State) (k : Nat) (d : Die) : (s.setDie k d).bar2ctx = s.bar2ctx := rfl
@[simp] theorem State.setDie_bar2tag (s : State) (k : Nat) (d : Die) : (s.setDie k d).bar2tag = s.bar2tag := rfl
@[simp] theorem State.setDie_bar2va (s : State) (k : Nat) (d : Die) : (s.setDie k d).bar2va = s.bar2va := rfl
@[simp] theorem State.setDie_bar2err (s : State) (k : Nat) (d : Die) : (s.setDie k d).bar2err = s.bar2err := rfl
@[simp] theorem State.setDie_mcBase (s : State) (k : Nat) (d : Die) : (s.setDie k d).mcBase = s.mcBase := rfl
@[simp] theorem State.setDie_mcLog2 (s : State) (k : Nat) (d : Die) : (s.setDie k d).mcLog2 = s.mcLog2 := rfl
@[simp] theorem State.setDie_mcWr (s : State) (k : Nat) (d : Die) : (s.setDie k d).mcWr = s.mcWr := rfl
@[simp] theorem State.setDie_mcRd (s : State) (k : Nat) (d : Die) : (s.setDie k d).mcRd = s.mcRd := rfl
@[simp] theorem State.setDie_evBase (s : State) (k : Nat) (d : Die) : (s.setDie k d).evBase = s.evBase := rfl
@[simp] theorem State.setDie_evLog2 (s : State) (k : Nat) (d : Die) : (s.setDie k d).evLog2 = s.evLog2 := rfl
@[simp] theorem State.setDie_evWr (s : State) (k : Nat) (d : Die) : (s.setDie k d).evWr = s.evWr := rfl
@[simp] theorem State.setDie_evRd (s : State) (k : Nat) (d : Die) : (s.setDie k d).evRd = s.evRd := rfl
@[simp] theorem State.setDie_evLost (s : State) (k : Nat) (d : Die) : (s.setDie k d).evLost = s.evLost := rfl
@[simp] theorem State.setDie_evKept (s : State) (k : Nat) (d : Die) : (s.setDie k d).evKept = s.evKept := rfl
@[simp] theorem State.setDie_meas (s : State) (k : Nat) (d : Die) : (s.setDie k d).meas = s.meas := rfl
@[simp] theorem State.setDie_journal (s : State) (k : Nat) (d : Die) : (s.setDie k d).journal = s.journal := rfl
@[simp] theorem State.setDie_boots (s : State) (k : Nat) (d : Die) : (s.setDie k d).boots = s.boots := rfl
@[simp] theorem State.setDie_journalClear (s : State) (k : Nat) (d : Die) :
    (s.setDie k d).journalClear = s.journalClear := rfl
@[simp] theorem State.setDie_fwSlots (s : State) (k : Nat) (d : Die) : (s.setDie k d).fwSlots = s.fwSlots := rfl
@[simp] theorem State.setDie_fwActive (s : State) (k : Nat) (d : Die) : (s.setDie k d).fwActive = s.fwActive := rfl
@[simp] theorem State.setDie_fwNext (s : State) (k : Nat) (d : Die) : (s.setDie k d).fwNext = s.fwNext := rfl
@[simp] theorem State.setDie_shut (s : State) (k : Nat) (d : Die) : (s.setDie k d).shut = s.shut := rfl
@[simp] theorem State.setDie_tripped (s : State) (k : Nat) (d : Die) : (s.setDie k d).tripped = s.tripped := rfl
@[simp] theorem State.setDie_i3c (s : State) (k : Nat) (d : Die) : (s.setDie k d).i3c = s.i3c := rfl
@[simp] theorem State.setDie_bar2Data (s : State) (k : Nat) (d : Die) : (s.setDie k d).bar2Data = s.bar2Data := rfl
@[simp] theorem State.setDie_heldFrees (s : State) (k : Nat) (d : Die) : (s.setDie k d).heldFrees = s.heldFrees := rfl
@[simp] theorem State.setDie_loose (s : State) (k : Nat) (d : Die) : (s.setDie k d).loose = s.loose := rfl
@[simp] theorem State.setDie_mcBells (s : State) (k : Nat) (d : Die) : (s.setDie k d).mcBells = s.mcBells := rfl
@[simp] theorem State.setDie_lateFaults (s : State) (k : Nat) (d : Die) : (s.setDie k d).lateFaults = s.lateFaults := rfl
@[simp] theorem State.setDie_ueFound (s : State) (k : Nat) (d : Die) : (s.setDie k d).ueFound = s.ueFound := rfl
@[simp] theorem State.setDie_jstore (s : State) (k : Nat) (d : Die) : (s.setDie k d).jstore = s.jstore := rfl
@[simp] theorem State.setDie_i3cWait (s : State) (k : Nat) (d : Die) : (s.setDie k d).i3cWait = s.i3cWait := rfl
@[simp] theorem State.setDie_hostOps (s : State) (k : Nat) (d : Die) : (s.setDie k d).hostOps = s.hostOps := rfl
@[simp] theorem State.setDie_tbShown (s : State) (k : Nat) (d : Die) : (s.setDie k d).tbShown = s.tbShown := rfl
@[simp] theorem State.setDie_tickKept (s : State) (k : Nat) (d : Die) : (s.setDie k d).tickKept = s.tickKept := rfl
@[simp] theorem State.setDie_msix (s : State) (k : Nat) (d : Die) : (s.setDie k d).msix = s.msix := rfl
@[simp] theorem State.modNode_tick (s : State) (n : Nat) (f : Node → Node) : (s.modNode n f).tick = s.tick := rfl
@[simp] theorem State.modNode_drawn (s : State) (n : Nat) (f : Node → Node) : (s.modNode n f).drawn = s.drawn := rfl
@[simp] theorem State.modNode_agenda (s : State) (n : Nat) (f : Node → Node) :
    (s.modNode n f).agenda = s.agenda := rfl
@[simp] theorem State.modNode_cur (s : State) (n : Nat) (f : Node → Node) : (s.modNode n f).cur = s.cur := rfl
@[simp] theorem State.modNode_actor (s : State) (n : Nat) (f : Node → Node) : (s.modNode n f).actor = s.actor := rfl
@[simp] theorem State.modNode_nextShard (s : State) (n : Nat) (f : Node → Node) :
    (s.modNode n f).nextShard = s.nextShard := rfl
@[simp] theorem State.modNode_prols (s : State) (n : Nat) (f : Node → Node) : (s.modNode n f).prols = s.prols := rfl
@[simp] theorem State.modNode_cells (s : State) (n : Nat) (f : Node → Node) : (s.modNode n f).cells = s.cells := rfl
@[simp] theorem State.modNode_dies (s : State) (n : Nat) (f : Node → Node) : (s.modNode n f).dies = s.dies := rfl
@[simp] theorem State.modNode_mem (s : State) (n : Nat) (f : Node → Node) : (s.modNode n f).mem = s.mem := rfl
@[simp] theorem State.modNode_tags (s : State) (n : Nat) (f : Node → Node) : (s.modNode n f).tags = s.tags := rfl
@[simp] theorem State.modNode_lastTag (s : State) (n : Nat) (f : Node → Node) :
    (s.modNode n f).lastTag = s.lastTag := rfl
@[simp] theorem State.modNode_frames (s : State) (n : Nat) (f : Node → Node) :
    (s.modNode n f).frames = s.frames := rfl
@[simp] theorem State.modNode_bad (s : State) (n : Nat) (f : Node → Node) : (s.modNode n f).bad = s.bad := rfl
@[simp] theorem State.modNode_host (s : State) (n : Nat) (f : Node → Node) : (s.modNode n f).host = s.host := rfl
@[simp] theorem State.modNode_buffers (s : State) (n : Nat) (f : Node → Node) :
    (s.modNode n f).buffers = s.buffers := rfl
@[simp] theorem State.modNode_kept (s : State) (n : Nat) (f : Node → Node) : (s.modNode n f).kept = s.kept := rfl
@[simp] theorem State.modNode_keptCaps (s : State) (n : Nat) (f : Node → Node) :
    (s.modNode n f).keptCaps = s.keptCaps := rfl
@[simp] theorem State.modNode_objects (s : State) (n : Nat) (f : Node → Node) :
    (s.modNode n f).objects = s.objects := rfl
@[simp] theorem State.modNode_nextHandle (s : State) (n : Nat) (f : Node → Node) :
    (s.modNode n f).nextHandle = s.nextHandle := rfl
@[simp] theorem State.modNode_nextOrder (s : State) (n : Nat) (f : Node → Node) :
    (s.modNode n f).nextOrder = s.nextOrder := rfl
@[simp] theorem State.modNode_nextArrival (s : State) (n : Nat) (f : Node → Node) :
    (s.modNode n f).nextArrival = s.nextArrival := rfl
@[simp] theorem State.modNode_queues (s : State) (n : Nat) (f : Node → Node) :
    (s.modNode n f).queues = s.queues := rfl
@[simp] theorem State.modNode_signals (s : State) (n : Nat) (f : Node → Node) :
    (s.modNode n f).signals = s.signals := rfl
@[simp] theorem State.modNode_sigTick (s : State) (n : Nat) (f : Node → Node) :
    (s.modNode n f).sigTick = s.sigTick := rfl
@[simp] theorem State.modNode_opens (s : State) (n : Nat) (f : Node → Node) : (s.modNode n f).opens = s.opens := rfl
@[simp] theorem State.modNode_reported (s : State) (n : Nat) (f : Node → Node) :
    (s.modNode n f).reported = s.reported := rfl
@[simp] theorem State.modNode_parts (s : State) (n : Nat) (f : Node → Node) : (s.modNode n f).parts = s.parts := rfl
@[simp] theorem State.modNode_fbwaits (s : State) (n : Nat) (f : Node → Node) :
    (s.modNode n f).fbwaits = s.fbwaits := rfl
@[simp] theorem State.modNode_dltimes (s : State) (n : Nat) (f : Node → Node) :
    (s.modNode n f).dltimes = s.dltimes := rfl
@[simp] theorem State.modNode_ctxs (s : State) (n : Nat) (f : Node → Node) : (s.modNode n f).ctxs = s.ctxs := rfl
@[simp] theorem State.modNode_version (s : State) (n : Nat) (f : Node → Node) :
    (s.modNode n f).version = s.version := rfl
@[simp] theorem State.modNode_reenum (s : State) (n : Nat) (f : Node → Node) :
    (s.modNode n f).reenum = s.reenum := rfl
@[simp] theorem State.modNode_deadLinks (s : State) (n : Nat) (f : Node → Node) :
    (s.modNode n f).deadLinks = s.deadLinks := rfl
@[simp] theorem State.modNode_faults (s : State) (n : Nat) (f : Node → Node) :
    (s.modNode n f).faults = s.faults := rfl
@[simp] theorem State.modNode_dumps (s : State) (n : Nat) (f : Node → Node) : (s.modNode n f).dumps = s.dumps := rfl
@[simp] theorem State.modNode_noArea (s : State) (n : Nat) (f : Node → Node) :
    (s.modNode n f).noArea = s.noArea := rfl
@[simp] theorem State.modNode_qFull (s : State) (n : Nat) (f : Node → Node) : (s.modNode n f).qFull = s.qFull := rfl
@[simp] theorem State.modNode_errs (s : State) (n : Nat) (f : Node → Node) : (s.modNode n f).errs = s.errs := rfl
@[simp] theorem State.modNode_timeBase (s : State) (n : Nat) (f : Node → Node) :
    (s.modNode n f).timeBase = s.timeBase := rfl
@[simp] theorem State.modNode_stopAt (s : State) (n : Nat) (f : Node → Node) :
    (s.modNode n f).stopAt = s.stopAt := rfl
@[simp] theorem State.modNode_stopped (s : State) (n : Nat) (f : Node → Node) :
    (s.modNode n f).stopped = s.stopped := rfl
@[simp] theorem State.modNode_ready (s : State) (n : Nat) (f : Node → Node) : (s.modNode n f).ready = s.ready := rfl
@[simp] theorem State.modNode_recov (s : State) (n : Nat) (f : Node → Node) : (s.modNode n f).recov = s.recov := rfl
@[simp] theorem State.modNode_fail (s : State) (n : Nat) (f : Node → Node) : (s.modNode n f).fail = s.fail := rfl
@[simp] theorem State.modNode_bootStep (s : State) (n : Nat) (f : Node → Node) :
    (s.modNode n f).bootStep = s.bootStep := rfl
@[simp] theorem State.modNode_booting (s : State) (n : Nat) (f : Node → Node) :
    (s.modNode n f).booting = s.booting := rfl
@[simp] theorem State.modNode_cool (s : State) (n : Nat) (f : Node → Node) : (s.modNode n f).cool = s.cool := rfl
@[simp] theorem State.modNode_powered (s : State) (n : Nat) (f : Node → Node) :
    (s.modNode n f).powered = s.powered := rfl
@[simp] theorem State.modNode_hbmmap (s : State) (n : Nat) (f : Node → Node) :
    (s.modNode n f).hbmmap = s.hbmmap := rfl
@[simp] theorem State.modNode_bar2ctx (s : State) (n : Nat) (f : Node → Node) :
    (s.modNode n f).bar2ctx = s.bar2ctx := rfl
@[simp] theorem State.modNode_bar2tag (s : State) (n : Nat) (f : Node → Node) :
    (s.modNode n f).bar2tag = s.bar2tag := rfl
@[simp] theorem State.modNode_bar2va (s : State) (n : Nat) (f : Node → Node) :
    (s.modNode n f).bar2va = s.bar2va := rfl
@[simp] theorem State.modNode_bar2err (s : State) (n : Nat) (f : Node → Node) :
    (s.modNode n f).bar2err = s.bar2err := rfl
@[simp] theorem State.modNode_mcBase (s : State) (n : Nat) (f : Node → Node) :
    (s.modNode n f).mcBase = s.mcBase := rfl
@[simp] theorem State.modNode_mcLog2 (s : State) (n : Nat) (f : Node → Node) :
    (s.modNode n f).mcLog2 = s.mcLog2 := rfl
@[simp] theorem State.modNode_mcWr (s : State) (n : Nat) (f : Node → Node) : (s.modNode n f).mcWr = s.mcWr := rfl
@[simp] theorem State.modNode_mcRd (s : State) (n : Nat) (f : Node → Node) : (s.modNode n f).mcRd = s.mcRd := rfl
@[simp] theorem State.modNode_evBase (s : State) (n : Nat) (f : Node → Node) :
    (s.modNode n f).evBase = s.evBase := rfl
@[simp] theorem State.modNode_evLog2 (s : State) (n : Nat) (f : Node → Node) :
    (s.modNode n f).evLog2 = s.evLog2 := rfl
@[simp] theorem State.modNode_evWr (s : State) (n : Nat) (f : Node → Node) : (s.modNode n f).evWr = s.evWr := rfl
@[simp] theorem State.modNode_evRd (s : State) (n : Nat) (f : Node → Node) : (s.modNode n f).evRd = s.evRd := rfl
@[simp] theorem State.modNode_evLost (s : State) (n : Nat) (f : Node → Node) :
    (s.modNode n f).evLost = s.evLost := rfl
@[simp] theorem State.modNode_evKept (s : State) (n : Nat) (f : Node → Node) :
    (s.modNode n f).evKept = s.evKept := rfl
@[simp] theorem State.modNode_meas (s : State) (n : Nat) (f : Node → Node) : (s.modNode n f).meas = s.meas := rfl
@[simp] theorem State.modNode_journal (s : State) (n : Nat) (f : Node → Node) :
    (s.modNode n f).journal = s.journal := rfl
@[simp] theorem State.modNode_boots (s : State) (n : Nat) (f : Node → Node) : (s.modNode n f).boots = s.boots := rfl
@[simp] theorem State.modNode_journalClear (s : State) (n : Nat) (f : Node → Node) :
    (s.modNode n f).journalClear = s.journalClear := rfl
@[simp] theorem State.modNode_fwSlots (s : State) (n : Nat) (f : Node → Node) :
    (s.modNode n f).fwSlots = s.fwSlots := rfl
@[simp] theorem State.modNode_fwActive (s : State) (n : Nat) (f : Node → Node) :
    (s.modNode n f).fwActive = s.fwActive := rfl
@[simp] theorem State.modNode_fwNext (s : State) (n : Nat) (f : Node → Node) :
    (s.modNode n f).fwNext = s.fwNext := rfl
@[simp] theorem State.modNode_shut (s : State) (n : Nat) (f : Node → Node) : (s.modNode n f).shut = s.shut := rfl
@[simp] theorem State.modNode_tripped (s : State) (n : Nat) (f : Node → Node) :
    (s.modNode n f).tripped = s.tripped := rfl
@[simp] theorem State.modNode_i3c (s : State) (n : Nat) (f : Node → Node) : (s.modNode n f).i3c = s.i3c := rfl
@[simp] theorem State.modNode_bar2Data (s : State) (n : Nat) (f : Node → Node) :
    (s.modNode n f).bar2Data = s.bar2Data := rfl
@[simp] theorem State.modNode_heldFrees (s : State) (n : Nat) (f : Node → Node) :
    (s.modNode n f).heldFrees = s.heldFrees := rfl
@[simp] theorem State.modNode_loose (s : State) (n : Nat) (f : Node → Node) :
    (s.modNode n f).loose = s.loose := rfl
@[simp] theorem State.modNode_mcBells (s : State) (n : Nat) (f : Node → Node) :
    (s.modNode n f).mcBells = s.mcBells := rfl
@[simp] theorem State.modNode_lateFaults (s : State) (n : Nat) (f : Node → Node) :
    (s.modNode n f).lateFaults = s.lateFaults := rfl
@[simp] theorem State.modNode_ueFound (s : State) (n : Nat) (f : Node → Node) :
    (s.modNode n f).ueFound = s.ueFound := rfl
@[simp] theorem State.modNode_jstore (s : State) (n : Nat) (f : Node → Node) :
    (s.modNode n f).jstore = s.jstore := rfl
@[simp] theorem State.modNode_i3cWait (s : State) (n : Nat) (f : Node → Node) :
    (s.modNode n f).i3cWait = s.i3cWait := rfl
@[simp] theorem State.modNode_hostOps (s : State) (n : Nat) (f : Node → Node) :
    (s.modNode n f).hostOps = s.hostOps := rfl
@[simp] theorem State.modNode_tbShown (s : State) (n : Nat) (f : Node → Node) :
    (s.modNode n f).tbShown = s.tbShown := rfl
@[simp] theorem State.modNode_tickKept (s : State) (n : Nat) (f : Node → Node) :
    (s.modNode n f).tickKept = s.tickKept := rfl
@[simp] theorem State.modNode_msix (s : State) (n : Nat) (f : Node → Node) : (s.modNode n f).msix = s.msix := rfl

/-! ## An engine of a cell replaced -/

@[simp] theorem Cell.eng_setEng_same (c : Cell) (e : EngTag) (g : Eng) :
    (c.setEng e g).eng e = g := by cases e <;> rfl

theorem Cell.eng_setEng_ne (c : Cell) {e f : EngTag} (g : Eng) (h : f ≠ e) : (c.setEng e g).eng f = c.eng f := by
  cases e <;> cases f <;> first | rfl | exact absurd rfl h

@[simp] theorem Cell.setEng_serial (c : Cell) (e : EngTag) (g : Eng) :
    (c.setEng e g).serial = c.serial := by cases e <;> rfl
@[simp] theorem Cell.setEng_phase (c : Cell) (e : EngTag) (g : Eng) :
    (c.setEng e g).phase = c.phase := by cases e <;> rfl
@[simp] theorem Cell.setEng_node (c : Cell) (e : EngTag) (g : Eng) :
    (c.setEng e g).node = c.node := by cases e <;> rfl
@[simp] theorem Cell.setEng_flatC (c : Cell) (e : EngTag) (g : Eng) :
    (c.setEng e g).flatC = c.flatC := by cases e <;> rfl
@[simp] theorem Cell.setEng_flatD (c : Cell) (e : EngTag) (g : Eng) :
    (c.setEng e g).flatD = c.flatD := by cases e <;> rfl
@[simp] theorem Cell.setEng_x (c : Cell) (e : EngTag) (g : Eng) : (c.setEng e g).x = c.x := by cases e <;> rfl
@[simp] theorem Cell.setEng_a (c : Cell) (e : EngTag) (g : Eng) : (c.setEng e g).a = c.a := by cases e <;> rfl
@[simp] theorem Cell.setEng_lc (c : Cell) (e : EngTag) (g : Eng) : (c.setEng e g).lc = c.lc := by cases e <;> rfl
@[simp] theorem Cell.setEng_xVer (c : Cell) (e : EngTag) (g : Eng) :
    (c.setEng e g).xVer = c.xVer := by cases e <;> rfl
@[simp] theorem Cell.setEng_lcVer (c : Cell) (e : EngTag) (g : Eng) :
    (c.setEng e g).lcVer = c.lcVer := by cases e <;> rfl
@[simp] theorem Cell.setEng_path (c : Cell) (e : EngTag) (g : Eng) :
    (c.setEng e g).path = c.path := by cases e <;> rfl
@[simp] theorem Cell.setEng_pathBase (c : Cell) (e : EngTag) (g : Eng) :
    (c.setEng e g).pathBase = c.pathBase := by cases e <;> rfl
@[simp] theorem Cell.setEng_bqHeld (c : Cell) (e : EngTag) (g : Eng) :
    (c.setEng e g).bqHeld = c.bqHeld := by cases e <;> rfl
@[simp] theorem Cell.setEng_haltPc (c : Cell) (e : EngTag) (g : Eng) :
    (c.setEng e g).haltPc = c.haltPc := by cases e <;> rfl
@[simp] theorem Cell.setEng_v (c : Cell) (e : EngTag) (g : Eng) : (c.setEng e g).v = c.v := by cases e <;> rfl
@[simp] theorem Cell.setEng_k (c : Cell) (e : EngTag) (g : Eng) : (c.setEng e g).k = c.k := by cases e <;> rfl
@[simp] theorem Cell.setEng_stageOpen (c : Cell) (e : EngTag) (g : Eng) :
    (c.setEng e g).stageOpen = c.stageOpen := by cases e <;> rfl
@[simp] theorem Cell.setEng_acc (c : Cell) (e : EngTag) (g : Eng) : (c.setEng e g).acc = c.acc := by cases e <;> rfl
@[simp] theorem Cell.setEng_void (c : Cell) (e : EngTag) (g : Eng) :
    (c.setEng e g).void = c.void := by cases e <;> rfl
@[simp] theorem Cell.setEng_qx (c : Cell) (e : EngTag) (g : Eng) : (c.setEng e g).qx = c.qx := by cases e <;> rfl
@[simp] theorem Cell.setEng_qc (c : Cell) (e : EngTag) (g : Eng) : (c.setEng e g).qc = c.qc := by cases e <;> rfl
@[simp] theorem Cell.setEng_qa (c : Cell) (e : EngTag) (g : Eng) : (c.setEng e g).qa = c.qa := by cases e <;> rfl
@[simp] theorem Cell.setEng_fpstat (c : Cell) (e : EngTag) (g : Eng) :
    (c.setEng e g).fpstat = c.fpstat := by cases e <;> rfl
@[simp] theorem Cell.setEng_mstat (c : Cell) (e : EngTag) (g : Eng) :
    (c.setEng e g).mstat = c.mstat := by cases e <;> rfl
@[simp] theorem Cell.setEng_nowFp (c : Cell) (e : EngTag) (g : Eng) :
    (c.setEng e g).nowFp = c.nowFp := by cases e <;> rfl
@[simp] theorem Cell.setEng_nowM (c : Cell) (e : EngTag) (g : Eng) :
    (c.setEng e g).nowM = c.nowM := by cases e <;> rfl
@[simp] theorem Cell.setEng_nowTok (c : Cell) (e : EngTag) (g : Eng) :
    (c.setEng e g).nowTok = c.nowTok := by cases e <;> rfl
@[simp] theorem Cell.setEng_shv (c : Cell) (e : EngTag) (g : Eng) : (c.setEng e g).shv = c.shv := by cases e <;> rfl
@[simp] theorem Cell.setEng_shcoord (c : Cell) (e : EngTag) (g : Eng) :
    (c.setEng e g).shcoord = c.shcoord := by cases e <;> rfl
@[simp] theorem Cell.setEng_winslip (c : Cell) (e : EngTag) (g : Eng) :
    (c.setEng e g).winslip = c.winslip := by cases e <;> rfl
@[simp] theorem Cell.setEng_ordwatch (c : Cell) (e : EngTag) (g : Eng) :
    (c.setEng e g).ordwatch = c.ordwatch := by cases e <;> rfl
@[simp] theorem Cell.setEng_ordActive (c : Cell) (e : EngTag) (g : Eng) :
    (c.setEng e g).ordActive = c.ordActive := by cases e <;> rfl
@[simp] theorem Cell.setEng_ordLog (c : Cell) (e : EngTag) (g : Eng) :
    (c.setEng e g).ordLog = c.ordLog := by cases e <;> rfl
@[simp] theorem Cell.setEng_padval (c : Cell) (e : EngTag) (g : Eng) :
    (c.setEng e g).padval = c.padval := by cases e <;> rfl
@[simp] theorem Cell.setEng_vrotOff (c : Cell) (e : EngTag) (g : Eng) :
    (c.setEng e g).vrotOff = c.vrotOff := by cases e <;> rfl
@[simp] theorem Cell.setEng_vrotSize (c : Cell) (e : EngTag) (g : Eng) :
    (c.setEng e g).vrotSize = c.vrotSize := by cases e <;> rfl
@[simp] theorem Cell.setEng_vrotBase (c : Cell) (e : EngTag) (g : Eng) :
    (c.setEng e g).vrotBase = c.vrotBase := by cases e <;> rfl
@[simp] theorem Cell.setEng_vrotPend (c : Cell) (e : EngTag) (g : Eng) :
    (c.setEng e g).vrotPend = c.vrotPend := by cases e <;> rfl
@[simp] theorem Cell.setEng_pstg (c : Cell) (e : EngTag) (g : Eng) :
    (c.setEng e g).pstg = c.pstg := by cases e <;> rfl
@[simp] theorem Cell.setEng_pnc (c : Cell) (e : EngTag) (g : Eng) : (c.setEng e g).pnc = c.pnc := by cases e <;> rfl
@[simp] theorem Cell.setEng_pslane (c : Cell) (e : EngTag) (g : Eng) :
    (c.setEng e g).pslane = c.pslane := by cases e <;> rfl
@[simp] theorem Cell.setEng_epc (c : Cell) (e : EngTag) (g : Eng) : (c.setEng e g).epc = c.epc := by cases e <;> rfl
@[simp] theorem Cell.setEng_ecause (c : Cell) (e : EngTag) (g : Eng) :
    (c.setEng e g).ecause = c.ecause := by cases e <;> rfl
@[simp] theorem Cell.setEng_eaddr (c : Cell) (e : EngTag) (g : Eng) :
    (c.setEng e g).eaddr = c.eaddr := by cases e <;> rfl
@[simp] theorem Cell.setEng_tvec (c : Cell) (e : EngTag) (g : Eng) :
    (c.setEng e g).tvec = c.tvec := by cases e <;> rfl
@[simp] theorem Cell.setEng_scopetab (c : Cell) (e : EngTag) (g : Eng) :
    (c.setEng e g).scopetab = c.scopetab := by cases e <;> rfl
@[simp] theorem Cell.setEng_scopem (c : Cell) (e : EngTag) (g : Eng) :
    (c.setEng e g).scopem = c.scopem := by cases e <;> rfl
@[simp] theorem Cell.setEng_watch (c : Cell) (e : EngTag) (g : Eng) :
    (c.setEng e g).watch = c.watch := by cases e <;> rfl
@[simp] theorem Cell.setEng_trctl (c : Cell) (e : EngTag) (g : Eng) :
    (c.setEng e g).trctl = c.trctl := by cases e <;> rfl
@[simp] theorem Cell.setEng_trbase (c : Cell) (e : EngTag) (g : Eng) :
    (c.setEng e g).trbase = c.trbase := by cases e <;> rfl
@[simp] theorem Cell.setEng_sttile (c : Cell) (e : EngTag) (g : Eng) :
    (c.setEng e g).sttile = c.sttile := by cases e <;> rfl
@[simp] theorem Cell.setEng_trdrop (c : Cell) (e : EngTag) (g : Eng) :
    (c.setEng e g).trdrop = c.trdrop := by cases e <;> rfl
@[simp] theorem Cell.setEng_spad (c : Cell) (e : EngTag) (g : Eng) :
    (c.setEng e g).spad = c.spad := by cases e <;> rfl
@[simp] theorem Cell.setEng_fe (c : Cell) (e : EngTag) (g : Eng) : (c.setEng e g).fe = c.fe := by cases e <;> rfl
@[simp] theorem Cell.setEng_rings (c : Cell) (e : EngTag) (g : Eng) :
    (c.setEng e g).rings = c.rings := by cases e <;> rfl
@[simp] theorem Cell.setEng_bankHeld (c : Cell) (e : EngTag) (g : Eng) :
    (c.setEng e g).bankHeld = c.bankHeld := by cases e <;> rfl
@[simp] theorem Cell.setEng_shadow (c : Cell) (e : EngTag) (g : Eng) :
    (c.setEng e g).shadow = c.shadow := by cases e <;> rfl
@[simp] theorem Cell.setEng_active (c : Cell) (e : EngTag) (g : Eng) :
    (c.setEng e g).active = c.active := by cases e <;> rfl
@[simp] theorem Cell.setEng_timetable (c : Cell) (e : EngTag) (g : Eng) :
    (c.setEng e g).timetable = c.timetable := by cases e <;> rfl
@[simp] theorem Cell.setEng_mx (c : Cell) (e : EngTag) (g : Eng) : (c.setEng e g).mx = c.mx := by cases e <;> rfl
@[simp] theorem Cell.setEng_sm (c : Cell) (e : EngTag) (g : Eng) : (c.setEng e g).sm = c.sm := by cases e <;> rfl
@[simp] theorem Cell.setEng_jobs (c : Cell) (e : EngTag) (g : Eng) :
    (c.setEng e g).jobs = c.jobs := by cases e <;> rfl
@[simp] theorem Cell.setEng_nextJob (c : Cell) (e : EngTag) (g : Eng) :
    (c.setEng e g).nextJob = c.nextJob := by cases e <;> rfl
@[simp] theorem Cell.setEng_peerIn (c : Cell) (e : EngTag) (g : Eng) :
    (c.setEng e g).peerIn = c.peerIn := by cases e <;> rfl
@[simp] theorem Cell.setEng_rounds (c : Cell) (e : EngTag) (g : Eng) :
    (c.setEng e g).rounds = c.rounds := by cases e <;> rfl
@[simp] theorem Cell.setEng_l1 (c : Cell) (e : EngTag) (g : Eng) : (c.setEng e g).l1 = c.l1 := by cases e <;> rfl
@[simp] theorem Cell.setEng_l1Tag (c : Cell) (e : EngTag) (g : Eng) :
    (c.setEng e g).l1Tag = c.l1Tag := by cases e <;> rfl
@[simp] theorem Cell.setEng_oldView (c : Cell) (e : EngTag) (g : Eng) :
    (c.setEng e g).oldView = c.oldView := by cases e <;> rfl
@[simp] theorem Cell.setEng_rejects (c : Cell) (e : EngTag) (g : Eng) :
    (c.setEng e g).rejects = c.rejects := by cases e <;> rfl
@[simp] theorem Cell.setEng_icache (c : Cell) (e : EngTag) (g : Eng) :
    (c.setEng e g).icache = c.icache := by cases e <;> rfl
@[simp] theorem Cell.setEng_tlb (c : Cell) (e : EngTag) (g : Eng) : (c.setEng e g).tlb = c.tlb := by cases e <;> rfl
@[simp] theorem Cell.setEng_handler (c : Cell) (e : EngTag) (g : Eng) :
    (c.setEng e g).handler = c.handler := by cases e <;> rfl
@[simp] theorem Cell.setEng_fatals (c : Cell) (e : EngTag) (g : Eng) :
    (c.setEng e g).fatals = c.fatals := by cases e <;> rfl
@[simp] theorem Cell.setEng_pendTrap (c : Cell) (e : EngTag) (g : Eng) :
    (c.setEng e g).pendTrap = c.pendTrap := by cases e <;> rfl
@[simp] theorem Cell.setEng_reads (c : Cell) (e : EngTag) (g : Eng) :
    (c.setEng e g).reads = c.reads := by cases e <;> rfl
@[simp] theorem Cell.setEng_record (c : Cell) (e : EngTag) (g : Eng) :
    (c.setEng e g).record = c.record := by cases e <;> rfl
@[simp] theorem Cell.setEng_restarting (c : Cell) (e : EngTag) (g : Eng) :
    (c.setEng e g).restarting = c.restarting := by cases e <;> rfl
@[simp] theorem Cell.setEng_rinst (c : Cell) (e : EngTag) (g : Eng) :
    (c.setEng e g).rinst = c.rinst := by cases e <;> rfl
@[simp] theorem Cell.setEng_barDie (c : Cell) (e : EngTag) (g : Eng) :
    (c.setEng e g).barDie = c.barDie := by cases e <;> rfl
@[simp] theorem Cell.setEng_barNode (c : Cell) (e : EngTag) (g : Eng) :
    (c.setEng e g).barNode = c.barNode := by cases e <;> rfl
@[simp] theorem Cell.setEng_clearEnd (c : Cell) (e : EngTag) (g : Eng) :
    (c.setEng e g).clearEnd = c.clearEnd := by cases e <;> rfl
@[simp] theorem Cell.setEng_startTick (c : Cell) (e : EngTag) (g : Eng) :
    (c.setEng e g).startTick = c.startTick := by cases e <;> rfl
@[simp] theorem Cell.setEng_stalledSince (c : Cell) (e : EngTag) (g : Eng) :
    (c.setEng e g).stalledSince = c.stalledSince := by cases e <;> rfl
@[simp] theorem Cell.setEng_pollSince (c : Cell) (e : EngTag) (g : Eng) :
    (c.setEng e g).pollSince = c.pollSince := by cases e <;> rfl
@[simp] theorem Cell.setEng_stampT0 (c : Cell) (e : EngTag) (g : Eng) :
    (c.setEng e g).stampT0 = c.stampT0 := by cases e <;> rfl
@[simp] theorem Cell.setEng_stamps (c : Cell) (e : EngTag) (g : Eng) :
    (c.setEng e g).stamps = c.stamps := by cases e <;> rfl

/-! ## Frames of updates of one cell -/

/-- A cell replaced changes nothing but that cell. -/
theorem State.setCell_frame (s : State) (k : Nat) (c : Cell) :
    { s.setCell k c with cells := s.cells } = s ∧ ∀ j, j ≠ k → FMap.find? (s.setCell k c).cells j = FMap.find? s.cells j :=
  ⟨rfl, fun _ h => FMap.find?_put_ne _ _ h⟩

end Sys2Proof.Machine
end

