-- ==== Sys2Proof/Laws/Retire.lean ====
section
/-! SUPPORT. What retirement does to the engines of a cell (R84 to R86, R128, R285): the operations that move an
engine on, each with the engines it leaves alone. -/

namespace Sys2Proof.Machine

/-! ## Operations that touch no engine -/

theorem Cell.foldl_eng {β : Type} (f : Cell → β → Cell) (h : ∀ c b e, (f c b).eng e = c.eng e) (l : List β) (c : Cell)
    (e : EngTag) : (l.foldl f c).eng e = c.eng e := by
  induction l generalizing c with
  | nil => rfl
  | cons x l ih => rw [List.foldl_cons, ih, h]

theorem Cell.foldl_handler {β : Type} (f : Cell → β → Cell) (h : ∀ c b, (f c b).handler = c.handler) (l : List β)
    (c : Cell) : (l.foldl f c).handler = c.handler := by
  induction l generalizing c with
  | nil => rfl
  | cons x l ih => rw [List.foldl_cons, ih, h]

@[simp] theorem Cell.prune_eng (c : Cell) (cls : DieClass) (e : EngTag) : (c.prune cls).eng e = c.eng e := by
  cases e <;> rfl

@[simp] theorem Cell.settleVrot_eng (c : Cell) (n : Nat) (e : EngTag) : (c.settleVrot n).eng e = c.eng e := by
  have h : (c.settleVrot n).eng e = ((c.vrotPend.filter fun p => c.engX.done || decide (p.1 < n)).foldl
      (fun (c : Cell) p => c.setVrot p.2) c).eng e := by cases e <;> rfl
  rw [h, Cell.foldl_eng]
  intro c b e; cases e <;> rfl

@[simp] theorem Cell.settleVrot_handler (c : Cell) (n : Nat) : (c.settleVrot n).handler = c.handler := by
  have h : (c.settleVrot n).handler = ((c.vrotPend.filter fun p => c.engX.done || decide (p.1 < n)).foldl
      (fun (c : Cell) p => c.setVrot p.2) c).handler := rfl
  rw [h, Cell.foldl_handler]
  intro c b; rfl

@[simp] theorem Cell.setStages_eng (c : Cell) (n stg i : Nat) (e : EngTag) : (c.setStages n stg i).eng e = c.eng e := by
  unfold Cell.setStages
  rw [Cell.foldl_eng]; intro c b e; cases e <;> rfl

@[simp] theorem Cell.noteOrd_eng (c : Cell) (e : EngTag) : c.noteOrd.eng e = c.eng e := by
  unfold Cell.noteOrd; split <;> cases e <;> rfl

@[simp] theorem Cell.noteOrd_handler (c : Cell) : c.noteOrd.handler = c.handler := by
  unfold Cell.noteOrd; split <;> rfl

theorem Cell.bqHeld_eng (c : Cell) (l : List (EngTag × BqEnt)) (e : EngTag) :
    ({ c with bqHeld := l } : Cell).eng e = c.eng e := by cases e <;> rfl

/-- An entry entering the bqs changes nothing of an engine but its bq. -/
theorem Cell.bqPut_eng (c : Cell) (cls : DieClass) (p : EngTag) (x : BqEnt) (e : EngTag) :
    ∃ q, (c.bqPut cls p x).eng e = { c.eng e with bq := q } := by
  unfold Cell.bqPut
  generalize c.bqTakers cls p x = l
  induction l generalizing c with
  | nil => exact ⟨_, rfl⟩
  | cons g l ih =>
    obtain ⟨q, h⟩ := ih (c.setEng g { c.eng g with bq := (c.eng g).bq ++ [x] })
    by_cases hg : e = g
    · subst hg; exact ⟨q, by rw [List.foldl_cons, h, Cell.eng_setEng_same]⟩
    · exact ⟨q, by rw [List.foldl_cons, h, Cell.eng_setEng_ne _ _ hg]⟩

/-- Entries held back that enter the bqs change nothing of an engine but its bq. -/
theorem Cell.bqEnter_eng (cls : DieClass) (code : List Word) (l : List (EngTag × BqEnt)) (c : Cell) (e : EngTag) :
    ∃ q, (Cell.bqEnter cls code l c).eng e = { c.eng e with bq := q } := by
  induction l generalizing c with
  | nil => exact ⟨_, rfl⟩
  | cons y ys ih =>
    unfold Cell.bqEnter
    split
    · exact ⟨_, rfl⟩
    · obtain ⟨q, h⟩ := ih { c.bqPut cls y.1 y.2 with bqHeld := ys }
      obtain ⟨q', h'⟩ := c.bqPut_eng cls y.1 y.2 e
      exact ⟨q, by rw [h, Cell.bqHeld_eng, h']⟩

theorem Cell.path_eng (c : Cell) (p : List Nat) (e : EngTag) : ({ c with path := p } : Cell).eng e = c.eng e := by
  cases e <;> rfl

theorem Cell.stalledSince_eng (c : Cell) (x : Option Nat) (e : EngTag) :
    ({ c with stalledSince := x } : Cell).eng e = c.eng e := by cases e <;> rfl

theorem Cell.setEng_lstack (c : Cell) (e : EngTag) : c.setEng e { c.eng e with lstack := (c.eng e).lstack } = c := by
  cases e <;> rfl

/-! ## Passing a word -/

/-- An engine that has passed the word at its position. -/
def Eng.passed (g : Eng) (pc : Nat) (own : Bool) : Eng :=
  { g with pc := pc, pos := g.pos + 1, issued := false, waitVal := none, reason := 0,
           ordinal := if own then g.ordinal + 1 else g.ordinal }

theorem Cell.pass_eng_same (c : Cell) (cls : DieClass) (e : EngTag) (pc : Nat) (own : Bool) (h : c.handler = none) :
    (c.pass cls e pc own).eng e = (c.eng e).passed pc own := by
  unfold Cell.pass Eng.passed
  simp only [h, Option.isSome_none, Bool.false_eq_true, if_false, Cell.prune_eng, Cell.settleVrot_eng,
    Cell.eng_setEng_same]

theorem Cell.pass_eng_ne (c : Cell) (cls : DieClass) {e f : EngTag} (pc : Nat) (own : Bool) (hf : f ≠ e) :
    (c.pass cls e pc own).eng f = c.eng f := by
  have h1 := Cell.stalledSince_eng c none f
  unfold Cell.pass
  dsimp only
  by_cases h : c.handler.isSome = true
  · rw [if_pos h, Cell.eng_setEng_ne _ _ hf]; exact h1
  · rw [if_neg h, Cell.prune_eng, Cell.settleVrot_eng, Cell.eng_setEng_ne _ _ hf]
    split <;> cases f <;> rfl

/-- Outside handler mode and every loop, an engine goes to the address that `n` names; no other engine changes. -/
theorem Cell.advance_eng {c : Cell} {e : EngTag} (cls : DieClass) (wide own : Bool) {n : Next} {pc : Nat}
    (hn : n = .seq ∧ pc = (c.eng e).pc + (if wide then 16 else 8) ∨ n = .goto pc) (hh : c.handler = none)
    (hl : (c.eng e).lstack = []) :
    (c.advance cls e n wide own).eng e = (c.eng e).passed pc own
    ∧ ∀ f, f ≠ e → (c.advance cls e n wide own).eng f = c.eng f := by
  have main : ∀ d : Cell, (∀ f, d.eng f = c.eng f) → d.handler = none →
      (d.pass cls e pc own).eng e = (c.eng e).passed pc own ∧ ∀ f, f ≠ e → (d.pass cls e pc own).eng f = c.eng f :=
    fun d hd hdh => ⟨by rw [Cell.pass_eng_same _ _ _ _ _ hdh, hd], fun f hf => by rw [Cell.pass_eng_ne _ _ _ _ hf, hd]⟩
  have e0 : c.setEng e { c.eng e with lstack := [] } = c := by rw [← hl]; exact c.setEng_lstack e
  rcases hn with ⟨rfl, rfl⟩ | rfl <;>
  · simp only [Cell.advance, hl, loopEnd]
    rw [e0]
    split
    · exact main _ (fun f => Cell.settleVrot_eng _ _ _) ((Cell.settleVrot_handler _ _).trans hh)
    · exact main _ (fun _ => rfl) hh

/-- The cell after the retirement of a word without a SIGNAL. -/
theorem State.retire_core {s : State} {key : Nat} {e : EngTag} {h : Hdr} (wide : Bool) (n : Next)
    (hc : s.cur = .cell key e) (hs : h.sig = none) :
    (s.retire h wide n).core =
      let c := (if h.eng = 7 ∧ e = .c then s.core.noteOrd else s.core).advance s.curClass e n wide true
      let c := if e = .m then { c with reachM := s.tick } else c
      Cell.bqEnter s.curClass s.curCode c.bqHeld c := by
  simp only [State.retire, hs, State.curEng_cell hc]
  exact State.core_setCore hc _

/-- Retirement changes nothing but the executing cell. -/
theorem State.retire_frame {s : State} {key : Nat} {e : EngTag} (h : Hdr) (wide : Bool) (n : Next)
    (hc : s.cur = .cell key e) : ∃ c, s.retire h wide n = s.setCell key c := by
  simp only [State.retire]
  split
  · split
    · split <;> exact ⟨_, State.setCore_cell hc _⟩
    · exact ⟨_, State.setCore_cell hc _⟩
  · exact ⟨_, State.setCore_cell hc _⟩

end Sys2Proof.Machine
end

