-- ==== Sys2Proof/Laws/Words.lean ====
section
/-! SUPPORT. What a word that may issue comes to: its body, then its retirement (R84 to R86, R351). -/

namespace Sys2Proof.Machine

/-- A word that may issue is settled by what its body gives. -/
theorem runWord_issues {s : State} {key : Nat} {e : EngTag} {h : Hdr} {wide onP : Bool}
    {body : State → M (State × Next)} (i : Issues s key e h) :
    runWord h wide onP body s = .next (s.settle h wide (body (s.waited h))) := by
  obtain ⟨cur, here, runs, free, calm, fresh, window, tokens⟩ := i
  have hc : s.curEng = e := by simp [State.curEng, cur]
  rw [hc] at tokens
  simp only [runWord, cur, here, if_true, State.runCell, hc, runs, free, calm, fresh, window, tokens]
  simp [State.waited]

/-- A word whose body ends goes on to its retirement. -/
theorem runWord_ok {s t : State} {key : Nat} {e : EngTag} {h : Hdr} {wide onP : Bool} {n : Next}
    {body : State → M (State × Next)} (i : Issues s key e h) (b : body (s.waited h) = .ok (t, n)) :
    runWord h wide onP body s = .next (t.retire h wide n) := by
  rw [runWord_issues i, b]; rfl

/-- A word whose body raises a cause before it has any effect delivers the cause. -/
theorem runWord_cause {s : State} {key : Nat} {e : EngTag} {h : Hdr} {wide onP : Bool} {r : Raise}
    {body : State → M (State × Next)} (i : Issues s key e h) (b : body (s.waited h) = .error (.cause r none)) :
    runWord h wide onP body s = .next (s.deliver r) := by
  have hc : s.curEng = e := by simp [State.curEng, i.cur]
  rw [runWord_issues i, b]; simp [State.settle, hc, i.fresh]

/-- A word that cannot go on before it has issued leaves the state, but for the reason its engine shows. -/
theorem runWord_block {s : State} {key : Nat} {e : EngTag} {h : Hdr} {wide onP : Bool} {r : Nat}
    {body : State → M (State × Next)} (i : Issues s key e h) (b : body (s.waited h) = .error (.block r)) :
    runWord h wide onP body s = .next (s.modEng fun g => { g with reason := r }) := by
  rw [runWord_issues i, b]; rfl

/-- A word of a prologue core that may issue. -/
theorem runWord_alone {s t : State} {node : Nat} {p : Prologue} {h : Hdr} {wide : Bool} {n : Next}
    {body : State → M (State × Next)} (i : IssuesAlone s node p h) (b : body s = .ok (t, n)) :
    runWord h wide true body s = .next ((t.counted node).retire h wide n) := by
  obtain ⟨cur, here, budget, wait, sig, calm⟩ := i
  simp [runWord, cur, here, State.runPrologue, Nat.not_le.mpr budget, wait, sig, calm, b, State.settle, State.counted]

/-- The word after a body that only changes the state. -/
theorem seqM_ok {r : M State} {t : State} (h : r = .ok t) : seqM r = .ok (t, .seq) := by rw [h]; rfl

/-- Every instruction word is issued and settled by `runWord`. -/
theorem exec_runWord (i : Instr) (h : Hdr) (hh : i.body.hdr = some h) :
    ∃ wide onP body, ∀ s, exec i s = runWord h wide onP body s := by
  cases i <;> first
    | (simp [Instr.body, Body.hdr] at hh; done)
    | (simp only [Instr.body, Body.hdr, Option.some.injEq] at hh; subst hh; exact ⟨_, _, _, fun _ => rfl⟩)

/-! ## Words that start, and what they come to -/

/-- A word whose body ends, ends so. -/
theorem ends_of {i : Instr} {s s0 t : State} {key : Nat} {e : EngTag} {h : Hdr} {wide onP : Bool} {n : Next}
    {body : State → M (State × Next)} (st : Starts i s key e s0) (hh : i.body.hdr = some h)
    (hw : i.body.w1.isSome = wide) (hx : ∀ s, exec i s = runWord h wide onP body s) (b : body s0 = .ok (t, n)) :
    Ends i s t n := by
  obtain ⟨h', h1, h2, rfl⟩ := st
  rw [hh] at h1; cases h1
  exact ⟨h, hh, by rw [hx, hw]; exact runWord_ok h2 b⟩

/-- A word whose body raises a cause, raises it. -/
theorem raises_of {i : Instr} {s s0 : State} {key : Nat} {e : EngTag} {h : Hdr} {wide onP : Bool} {r : Raise}
    {body : State → M (State × Next)} (st : Starts i s key e s0) (hh : i.body.hdr = some h)
    (hx : ∀ s, exec i s = runWord h wide onP body s) (b : body s0 = .error (.cause r none)) : Raises i s r := by
  obtain ⟨h', h1, h2, rfl⟩ := st
  rw [hh] at h1; cases h1
  rw [Raises, hx]; exact runWord_cause h2 b

/-- A word whose body waits, waits. -/
theorem waits_of {i : Instr} {s s0 t : State} {key : Nat} {e : EngTag} {h : Hdr} {wide onP : Bool} {r : Nat}
    {body : State → M (State × Next)} (st : Starts i s key e s0) (hh : i.body.hdr = some h)
    (hx : ∀ s, exec i s = runWord h wide onP body s) (b : body s0 = .error (.wait t r)) : Waits i s t r := by
  obtain ⟨h', h1, h2, rfl⟩ := st
  rw [hh] at h1; cases h1
  rw [Waits, hx, runWord_issues h2, b]; rfl

/-- A word whose body cannot go on leaves the state, but for the reason shown. -/
theorem blocks_of {i : Instr} {s s0 : State} {key : Nat} {e : EngTag} {h : Hdr} {wide onP : Bool} {r : Nat}
    {body : State → M (State × Next)} (st : Starts i s key e s0) (hh : i.body.hdr = some h)
    (hx : ∀ s, exec i s = runWord h wide onP body s) (b : body s0 = .error (.block r)) :
    exec i s = .next (s.modEng fun g => { g with reason := r }) := by
  obtain ⟨h', h1, h2, rfl⟩ := st
  rw [hh] at h1; cases h1
  rw [hx]; exact runWord_block h2 b

section
variable {i : Instr} {s s0 : State} {key : Nat} {e : EngTag}

theorem Starts.cur (st : Starts i s key e s0) : s0.cur = .cell key e := by
  obtain ⟨h, _, h2, rfl⟩ := st; simp [State.waited, h2.cur]
theorem Starts.curEng (st : Starts i s key e s0) : s0.curEng = e := State.curEng_cell (Starts.cur st)
theorem Starts.curKey (st : Starts i s key e s0) : s0.curKey = key := State.curKey_cell (Starts.cur st)
/-- Issue changes nothing of the cell but the counters of the engine. -/
theorem Starts.core (st : Starts i s key e s0) : ∃ g, s0.core = s.core.setEng e g := by
  obtain ⟨h, _, h2, rfl⟩ := st
  refine ⟨(s.core.eng e).takeWait h.wait, ?_⟩
  simp only [State.waited, State.modEng, State.curEng_cell h2.cur]
  exact State.core_setCore h2.cur _
theorem Starts.handler (st : Starts i s key e s0) : s0.core.handler = s.core.handler := by
  obtain ⟨g, h⟩ := Starts.core st; simp [h]
theorem Starts.alone (st : Starts i s key e s0) (hh : s.core.handler = none) : s0.alone = false := by
  simp [State.alone, Starts.cur st, Starts.handler st, hh]
theorem Starts.notInHandler (st : Starts i s key e s0) (hh : s.core.handler = none) : notInHandler s0 = .ok () := by
  simp [Machine.notInHandler, Starts.handler st, hh]
end

end Sys2Proof.Machine
end

