-- ==== Sys2Proof/Laws/Access.lean ====
section
/-! SUPPORT. What the checks of an access (R154) answer where they all hold, and what its parts leave alone. -/

namespace Sys2Proof.Machine

/-- Check 9 without watchpoints in force faults nowhere and counts nothing. -/
theorem watchCheck_none (now : List WatchPt) (q : Watched) : watchCheck [] now q = .ok now := by
  have hz : WatchPt.zero.ctl.getLsbD 8 = false := by decide
  simp only [watchCheck, nthD, List.getD_nil, hz, List.zipIdx_nil, List.find?_nil, Bool.false_and, Bool.false_eq_true, if_false,
    List.zipIdx_map_fst]

/-- Without watchpoints in force check 9 passes and counts nothing. -/
theorem State.watchAt_none {s : State} {key : Nat} (q : Acc) (w : Nat) (h : s.watchOf key = []) :
    s.watchAt key q w = .ok s := by
  unfold State.watchAt; split
  · rfl
  · simp [h, watchCheck_none]

/-- The tick of a cell's last write changes no watchpoint in force. -/
@[simp] theorem State.watchOf_poll (s : State) (key : Nat) (n : Nat) :
    (s.setCell key { s.cell key with pollSince := n }).watchOf key = s.watchOf key := by
  have he : (s.setCell key { s.cell key with pollSince := n }).core.eng s.curEng = s.core.eng s.curEng := by
    unfold State.core
    cases hc : s.cur with
    | cell k e =>
      simp only [show (s.setCell key { s.cell key with pollSince := n }).cur = .cell k e from hc]
      by_cases hk : k = key
      · subst hk; rw [State.cell_setCell_same]; cases s.curEng <;> rfl
      · rw [State.cell_setCell_ne _ _ hk]
    | prologue m =>
      simp only [show (s.setCell key { s.cell key with pollSince := n }).cur = .prologue m from hc]
      rfl
  unfold State.watchOf
  rw [State.cell_setCell_same]
  simp only [show (s.setCell key { s.cell key with pollSince := n }).actor = s.actor from rfl,
    show (s.setCell key { s.cell key with pollSince := n }).curEng = s.curEng from rfl, he]

/-- An access of the own scratchpad that passes checks 1 to 8. -/
theorem State.access_own {s : State} {key off : Nat} {q : Acc} (hc : canonical q.addr = true)
    (hw : windowOf (s.apers (s.nodeCtx (s.cell key).node)) (addrVa q.addr) = some (0, off))
    (hb : s.beyond (keyChip key) (s.ctxPart (s.nodeCtx (s.cell key).node)) 0 off = false)
    (hs : q.atomic = false ∧ q.scopeRule = false ∨ q.atomScope < 2) (ha : q.addr.toNat % q.align = 0)
    (hn : s.watchOf key = []) : s.access key q = .ok (.spad key off, s) := by
  have h1 : ¬ (0 ≤ 1 ∧ (q.atomic || q.scopeRule) = true ∧ 2 ≤ q.atomScope) := by
    rcases hs with ⟨h, h'⟩ | h
    · simp [h, h']
    · omega
  unfold State.access
  have h2 : ¬ ((q.atomic = true ∨ q.scopeRule = true) ∧ 2 ≤ q.atomScope) := by simpa using h1
  simp [hc, hw, hb, ha, State.watchAt_none _ _ hn, if_neg h2, bind, Except.bind]

/-- An access of the scratchpad of a cell of the die whose shard serves it. -/
theorem State.access_peer {s : State} {key off : Nat} {q : Acc} (hc : canonical q.addr = true)
    (hw : windowOf (s.apers (s.nodeCtx (s.cell key).node)) (addrVa q.addr) = some (1, off))
    (hb : s.beyond (keyChip key) (s.ctxPart (s.nodeCtx (s.cell key).node)) 1 off = false)
    (hv : (s.cell (cellKey (keyChip key) (off / spadBytes))).serves = true)
    (hs : q.atomic = false ∧ q.scopeRule = false ∨ q.atomScope < 2) (ha : q.addr.toNat % q.align = 0)
    (hn : s.watchOf key = []) :
    s.access key q = .ok (.spad (cellKey (keyChip key) (off / spadBytes)) (off % spadBytes), s) := by
  have h1 : ¬ ((q.atomic = true ∨ q.scopeRule = true) ∧ 2 ≤ q.atomScope) := by
    rcases hs with ⟨h, h'⟩ | h
    · simp [h, h']
    · omega
  unfold State.access
  simp [hc, hw, hb, hv, ha, State.watchAt_none _ _ hn, if_neg h1, bind, Except.bind]

/-- An access of a GLOBAL page that the L1 TLB translates, of a buffer that is not DOUBLE, with the tag that the copy serving it carries. -/
theorem State.access_tlb {s : State} {key off loc : Nat} {q : Acc} {t : TlbEnt} (hc : canonical q.addr = true)
    (hw : windowOf (s.apers (s.nodeCtx (s.cell key).node)) (addrVa q.addr) = some (3, off)) (hq : q.spadOnly = false)
    (ha : q.addr.toNat % q.align = 0) (ht : FMap.find? (s.cell key).tlb (addrVa q.addr / 16384) = some t)
    (hp : (q.write || q.atomic) = true → t.w = true)
    (hl : s.locOf t (s.nodeCtx (s.cell key).node) (addrVa q.addr) q.shadow = loc)
    (hg : s.tagServed key (s.ctxPart (s.nodeCtx (s.cell key).node)) loc (levelOf loc q.scope) q.row = addrTag q.addr)
    (hn : s.watchOf key = []) :
    s.access key q = .ok (.line loc,
      if (q.write || q.atomic) = true then s.setCell key { s.cell key with pollSince := s.tick } else s) := by
  have hb : s.beyond (keyChip key) (s.ctxPart (s.nodeCtx (s.cell key).node)) 3 off = false := rfl
  have h2 : s.tlbLookup key (s.nodeCtx (s.cell key).node) (addrVa q.addr) = (.leaf t, s) := by
    simp [State.tlbLookup, ht]
  unfold State.access
  simp only [hc, hw, hb, hq, ha, h2, hl, hg]
  by_cases hx : (q.write || q.atomic) = true
  · have h3 : (s.setCell key { s.cell key with pollSince := s.tick }).watchOf key = [] := by simpa using hn
    simp [hx, hp hx, State.watchAt_none _ _ h3, bind, Except.bind]
  · simp [hx, State.watchAt_none _ _ hn, bind, Except.bind]

/-- A walk reads memory, bad check bits and the owners of frames alone. -/
theorem State.walk_congr {s t : State} (hm : t.mem = s.mem) (hb : t.bad = s.bad) (hf : t.frames = s.frames) (part va : Nat)
    (cached : Nat → Option Nat) (ls : List (Nat × Nat × Bool × Bool)) (table : Nat) :
    t.walk part va cached table ls = s.walk part va cached table ls := by
  induction ls generalizing table with
  | nil => rfl
  | cons l ls ih => simp only [State.walk, hm, hb, hf, ih]

/-- A page that no TLB holds, of whose tables no walk cache has an entry, ends as the walk of the page table does. -/
theorem State.tlbLookup_invalid {s : State} {key ctx va : Nat} {c : Ctx} {g : Bool}
    (hl : FMap.find? (s.cell key).tlb (va / 16384) = none)
    (hd : FMap.find? (s.die (keyChip key)).tlb (ctx * 2 ^ 43 + va / 16384) = none) (hc : s.ctx? ctx = some c)
    (hw : (s.die (keyChip key)).walkc = []) (h : s.walk c.part va (fun _ => none) c.root walkLevels = .invalid g) :
    (s.tlbLookup key ctx va).1 = .invalid g := by
  have hx : ∀ x : Nat, (fun lo => if x.testBit lo then FMap.find? (s.draw.2.die (keyChip key)).walkc (walkKey ctx lo va) else none)
      = fun _ => none := by
    intro x; funext lo
    rw [show s.draw.2.die (keyChip key) = s.die (keyChip key) from rfl, hw]; simp [FMap.find?]
  have hs : s.draw.2.walk c.part va (fun _ => none) c.root walkLevels = .invalid g :=
    (State.walk_congr rfl rfl rfl _ _ _ _ _).trans h
  simp only [State.tlbLookup, hl, hd, State.dieWalk, hc]
  rw [hx]; simp only [hs]

end Sys2Proof.Machine
end

