-- ==== Sys2Proof/Laws/Boot.lean ====
section
/-! SUPPORT. What the steps of a boot (R459 to R461) and the holding of an access (R364) leave alone: the bytes at the homes and host memory. -/

namespace Sys2Proof.Machine

@[simp] theorem State.log_mem (s : State) (a b c : Nat) : (s.log a b c).mem = s.mem := rfl
@[simp] theorem State.log_host (s : State) (a b c : Nat) : (s.log a b c).host = s.host := rfl
@[simp] theorem State.recover_mem (s : State) (n : Nat) : (s.recover n).mem = s.mem := rfl
@[simp] theorem State.recover_host (s : State) (n : Nat) : (s.recover n).host = s.host := rfl
@[simp] theorem State.extend_mem (s : State) (i : Nat) (d : List Byte) : (s.extend i d).mem = s.mem := by unfold State.extend; rfl
@[simp] theorem State.extend_host (s : State) (i : Nat) (d : List Byte) : (s.extend i d).host = s.host := by
  unfold State.extend; rfl
@[simp] theorem State.measureAll_mem (s : State) : s.measureAll.mem = s.mem := by simp only [State.measureAll, State.log_mem, State.extend_mem]
@[simp] theorem State.measureAll_host (s : State) : s.measureAll.host = s.host := by
  simp only [State.measureAll, State.log_host, State.extend_host]

/-- Dies changed one after another leave memory and host memory alone. -/
theorem State.setDies_mem_host (f : State → Nat → Die) (is : List Nat) (s : State) :
    (is.foldl (fun (s : State) i => s.setDie i (f s i)) s).mem = s.mem
      ∧ (is.foldl (fun (s : State) i => s.setDie i (f s i)) s).host = s.host := by
  induction is generalizing s with
  | nil => exact ⟨rfl, rfl⟩
  | cons i is ih => exact ih (s.setDie i (f s i))

@[simp] theorem State.mapOut_mem (s : State) (chip : Nat) : (s.mapOut chip).mem = s.mem :=
  (State.setDies_mem_host (fun s i => { s.die i with role := 3 }) _ s).1
@[simp] theorem State.mapOut_host (s : State) (chip : Nat) : (s.mapOut chip).host = s.host :=
  (State.setDies_mem_host (fun s i => { s.die i with role := 3 }) _ s).2

@[simp] theorem State.trainObj_mem (s : State) (o : Nat) (x : Bool) : (s.trainObj o x).mem = s.mem := by
  unfold State.trainObj; dsimp only; split <;> split <;> simp
@[simp] theorem State.trainObj_host (s : State) (o : Nat) (x : Bool) : (s.trainObj o x).host = s.host := by
  unfold State.trainObj; dsimp only; split <;> split <;> simp

@[simp] theorem State.readJournal_mem (s : State) : s.readJournal.mem = s.mem := rfl
@[simp] theorem State.readJournal_host (s : State) : s.readJournal.host = s.host := rfl
@[simp] theorem State.initMemory_mem (s : State) : s.initMemory.mem = [] := rfl
@[simp] theorem State.initMemory_host (s : State) : s.initMemory.host = s.host := rfl

/-- A step of a boot leaves host memory alone, and memory but at step 5, which clears it. -/
theorem State.bootDo_mem_host (s : State) (b : Boot) :
    (s.bootDo b).mem = (if s.bootStep = 5 then [] else s.mem) ∧ (s.bootDo b).host = s.host := by
  unfold State.bootDo; dsimp only
  repeat' split
  all_goals simp_all

/-- A turn of a boot leaves host memory alone, and memory but at step 5, which clears it. -/
theorem State.bootTurn_mem_host (s : State) :
    (s.bootTurn.mem = s.mem ∨ s.bootStep = 5 ∧ s.bootTurn.mem = []) ∧ s.bootTurn.host = s.host := by
  unfold State.bootTurn
  split
  · exact ⟨.inl rfl, rfl⟩
  · next b _ =>
    by_cases h : Config.pick s.drawn % 2 = 0
    · simp only [State.draw, h, if_true]
      obtain ⟨hm, hh⟩ := State.bootDo_mem_host { s with drawn := s.drawn + 1 } b
      refine ⟨?_, hh⟩
      by_cases h5 : s.bootStep = 5
      · exact .inr ⟨h5, hm.trans (if_pos h5)⟩
      · exact .inl (hm.trans (if_neg h5))
    · simp [State.draw, h]

/-- A tile changed changes nothing at the homes. -/
theorem State.setTile_mem_host (s : State) (id i : Nat) (t : Tile) :
    (s.setTile id i t).mem = s.mem ∧ (s.setTile id i t).host = s.host := by unfold State.setTile; constructor <;> rfl

/-- An access that leaves the tiles where it waits changes nothing at the homes (R364). -/
theorem State.leaveTiles_mem_host (s : State) (w : Waiter) (at_ : Option (Nat × Nat)) :
    (s.leaveTiles w at_).mem = s.mem ∧ (s.leaveTiles w at_).host = s.host := by
  unfold State.leaveTiles
  generalize s.allTiles = ts
  induction ts generalizing s with
  | nil => exact ⟨rfl, rfl⟩
  | cons t ts ih =>
    rw [List.foldl_cons]
    split
    · obtain ⟨h1, h2⟩ := ih (s.setTile t.1 t.2.1 { s.tile t.1 t.2.1 with held := t.2.2.held.filter fun v => v != w })
      exact ⟨h1.trans (State.setTile_mem_host ..).1, h2.trans (State.setTile_mem_host ..).2⟩
    · exact ih s

/-- An access held at a tile changes what that tile holds and nothing at the homes (R364). -/
theorem State.hold_mem_host (s : State) (id i : Nat) (w : Waiter) :
    (s.hold id i w).mem = s.mem ∧ (s.hold id i w).host = s.host := by
  obtain ⟨h1, h2⟩ := s.leaveTiles_mem_host w (some (id, i))
  unfold State.hold; dsimp only
  split
  · exact ⟨h1, h2⟩
  · exact ⟨(State.setTile_mem_host ..).1.trans h1, (State.setTile_mem_host ..).2.trans h2⟩

end Sys2Proof.Machine
end

