-- ==== Sys2Proof/Laws/Control.lean ====
section
/-! SUPPORT. The exchange of outcomes and targets between the engines (R125). -/

namespace Sys2Proof.Machine

/-- The producer of a word computes the value and pushes it to every other engine. -/
theorem State.exchange_producer {s0 : State} {key : Nat} {e : EngTag} {p : Bool} {kind : BqKind} {fn : State → M Word}
    {v : Word} (hc : s0.cur = .cell key e) (ha : s0.alone = false) (he : e = (if p then .a else .c)) (hv : fn s0 = .ok v) :
    s0.exchange kind p fn
      = (s0.pushBq ⟨kind, v, s0.curPc, (s0.core.eng e).pos⟩).map fun t => (v, t) := by
  have h1 := State.curEng_cell hc
  have h2 : s0.exchange kind p fn = (do
      let v ← fn s0
      .ok (v, ← s0.pushBq ⟨kind, v, (s0.core.eng e).pc, (s0.core.eng e).pos⟩)) := by
    unfold State.exchange; simp only [ha, h1, ← he]; rfl
  rw [h2, hv]
  simp only [bind, Except.bind, State.curPc, h1]
  cases s0.pushBq _ <;> rfl

/-- Another engine pops the value. -/
theorem State.exchange_consumer {s0 : State} {key : Nat} {e : EngTag} {p : Bool} {kind : BqKind} {fn : State → M Word}
    (hc : s0.cur = .cell key e) (ha : s0.alone = false) (he : e ≠ (if p then .a else .c)) :
    s0.exchange kind p fn = s0.popBq fun x => x.kind == kind && x.pc == s0.curPc := by
  have h1 := State.curEng_cell hc
  unfold State.exchange; simp only [ha, h1, State.curPc, if_neg he]; rfl

/-- The outcome of a conditional word at its producer. -/
theorem State.outcome_producer {s0 t : State} {key : Nat} {e : EngTag} {f : Br} {v : Word} (hc : s0.cur = .cell key e)
    (ha : s0.alone = false) (he : e = (if f.prod then .a else .c)) (hv : s0.readReg f.reg.toNat = .ok v)
    (ht : s0.pushBq
      ⟨.outcome, if condTaken f.cond.toNat v then 1 else 0, s0.curPc, (s0.core.eng e).pos⟩ = .ok t) :
    s0.outcome f = .ok (condTaken f.cond.toNat v, t) := by
  unfold State.outcome
  rw [State.exchange_producer hc ha he (v := if condTaken f.cond.toNat v then 1 else 0)
    (by simp [hv, bind, Except.bind]), ht]
  cases condTaken f.cond.toNat v <;> rfl

/-- The target of a word at its producer. -/
theorem State.target_producer {s0 t : State} {key : Nat} {e : EngTag} {f : Br} {v : Word} (hc : s0.cur = .cell key e)
    (ha : s0.alone = false) (he : e = (if f.prod then .a else .c)) (hv : s0.readReg f.reg.toNat = .ok v)
    (h1 : v.toNat % 8 = 0) (h2 : v.toNat < 8 * s0.curCode.length)
    (ht : s0.pushBq ⟨.target, v, s0.curPc, (s0.core.eng e).pos⟩ = .ok t) :
    s0.target f = .ok (v.toNat, t) := by
  unfold State.target
  rw [State.exchange_producer hc ha he (v := v) (by
    rw [hv]; simp only [bind, Except.bind]; rw [if_neg (by omega)]), ht]
  rfl

/-- An entry put at the end of the queues of distinct engines. -/
theorem Cell.foldl_bqPut (x : BqEnt) (l : List EngTag) (c : Cell) (hn : l.Nodup) (g : EngTag) :
    (l.foldl (fun (c : Cell) e => c.setEng e { c.eng e with bq := (c.eng e).bq ++ [x] }) c).eng g
      = if g ∈ l then { c.eng g with bq := (c.eng g).bq ++ [x] } else c.eng g := by
  induction l generalizing c with
  | nil => simp
  | cons a l ih =>
    rw [List.foldl_cons, ih _ (List.nodup_cons.1 hn).2]
    by_cases h : g = a
    · subst h; simp [(List.nodup_cons.1 hn).1]
    · simp [h, Cell.eng_setEng_ne _ _ h]

/-- The engines of a class, each once. -/
theorem engines_nodup (cls : DieClass) : cls.engines.Nodup := by cases cls <;> decide

/-- The bqs after an entry has entered them: it stands at the end of those that take it. -/
theorem Cell.bqPut_bq (c : Cell) (cls : DieClass) (p : EngTag) (x : BqEnt) (g : EngTag) :
    (c.bqPut cls p x).eng g = if g ∈ c.bqTakers cls p x then { c.eng g with bq := (c.eng g).bq ++ [x] } else c.eng g :=
  Cell.foldl_bqPut x _ c (((engines_nodup cls).filter _).filter _) g

end Sys2Proof.Machine
end

