-- ==== Sys2Proof/Laws/PerInstr.lean ====
section
/-! SUPPORT. The word of each instruction: the tag, the opcode and the selecting field that R97 to R103 give a row name
that row and no other, with the operand area read as its format says. One lemma per constructor. -/

namespace Sys2Proof.Laws.ItsWord

open Sys2Proof

/-- A body with the operand area of a word in place of its own. -/
def area (w : Word) : Body → Body
  | .rrr f => .rrr (rrrOf w f.hdr f.w1)
  | .ri f => .ri (riOf w f.hdr f.w1)
  | .br f => .br (brOf w f.hdr f.w1)
  | .lp f => .lp (lpOf w f.hdr f.w1)
  | .event => .event

/-- A word that carries an instruction's opcode, tag and operand area, on a class that has its engine. -/
def Names (i : Instr) (cls : DieClass) (w : Word) (form : Form) (h : Hdr) : Prop :=
  i.form = some form ∧ i.body.hdr = some h ∧ fOpc w = form.opc.toNat ∧ form.tags.ok (fEng w) = true
  ∧ form.tags.classOk cls = true ∧ area w i.body = i.body ∧ reservedOk form i.body = true

/-- Such a word names the instruction. -/
def Statement (i : Instr) : Prop := ∀ cls w form h, Names i cls w form h → opOf cls w h i.body.w1 = some i

theorem rrr_eq {w : Word} {f : Rrr} (h : area w (.rrr f) = .rrr f) : rrrOf w f.hdr f.w1 = f := Body.rrr.inj h
theorem ri_eq {w : Word} {f : Ri} (h : area w (.ri f) = .ri f) : riOf w f.hdr f.w1 = f := Body.ri.inj h
theorem br_eq {w : Word} {f : Br} (h : area w (.br f) = .br f) : brOf w f.hdr f.w1 = f := Body.br.inj h
theorem lp_eq {w : Word} {f : Lp} (h : area w (.lp f) = .lp f) : lpOf w f.hdr f.w1 = f := Body.lp.inj h
theorem sel_rrr {form : Form} {f : Rrr} (h : reservedOk form (.rrr f) = true) : form.sel.rrrOk f = true := by
  simp only [reservedOk, Bool.and_eq_true] at h; exact h.1.1.2
theorem sel_ri {form : Form} {f : Ri} (h : reservedOk form (.ri f) = true) : form.sel.riOk f = true := by
  simp only [reservedOk, Bool.and_eq_true] at h; exact h.1.1.2

/-- What the table of an engine answers for an instruction's opcode. -/
def Found (tbl : Nat → Word → Hdr → Option W1 → Option Instr) (i : Instr) (form : Form) (h : Hdr) : Prop :=
  ∀ w, area w i.body = i.body → reservedOk form i.body = true → tbl form.opc.toNat w h i.body.w1 = some i

variable {i : Instr} {form : Form} {h : Hdr}

theorem of_none (hn : i.form = none) : Statement i := by
  rintro cls w form h ⟨h1, -⟩
  rw [hn] at h1; cases h1
theorem of_scalar (hf : i.form = some form) (hh : i.body.hdr = some h) (ht : form.tags = .scalar) (ho : form.opc.toNat < 0x60)
    (hs : Found scalarOp i form h) : Statement i := by
  rintro cls w form' h' ⟨h1, h2, h3, h4, -, h6, h7⟩
  rw [hf] at h1; cases h1; rw [hh] at h2; cases h2
  rw [ht] at h4
  simp only [Tags.ok, Bool.or_eq_true, beq_iff_eq] at h4
  unfold opOf
  rcases h4 with h4 | h4 <;> (rw [h4, h3]; simp only [if_pos ho]; exact hs w h6 h7)
theorem of_c (hf : i.form = some form) (hh : i.body.hdr = some h) (ht : form.tags = .one 0) (ho : ¬ form.opc.toNat < 0x60)
    (hs : Found cOp i form h) : Statement i := by
  rintro cls w form' h' ⟨h1, h2, h3, h4, -, h6, h7⟩
  rw [hf] at h1; cases h1; rw [hh] at h2; cases h2
  rw [ht] at h4
  simp only [Tags.ok, beq_iff_eq] at h4
  unfold opOf
  rw [h4, h3]; simp only [if_neg ho]; exact hs w h6 h7
theorem of_a (hf : i.form = some form) (hh : i.body.hdr = some h) (ht : form.tags = .one 1) (ho : ¬ form.opc.toNat < 0x60)
    (hs : Found aOp i form h) : Statement i := by
  rintro cls w form' h' ⟨h1, h2, h3, h4, -, h6, h7⟩
  rw [hf] at h1; cases h1; rw [hh] at h2; cases h2
  rw [ht] at h4
  simp only [Tags.ok, beq_iff_eq] at h4
  unfold opOf
  rw [h4, h3]; simp only [if_neg ho]; exact hs w h6 h7
theorem of_x (hf : i.form = some form) (hh : i.body.hdr = some h) (ht : form.tags = .one 2) (hs : Found xOp i form h) : Statement i := by
  rintro cls w form' h' ⟨h1, h2, h3, h4, -, h6, h7⟩
  rw [hf] at h1; cases h1; rw [hh] at h2; cases h2
  rw [ht] at h4
  simp only [Tags.ok, beq_iff_eq] at h4
  unfold opOf
  rw [h4, h3]; exact hs w h6 h7
theorem of_m (hf : i.form = some form) (hh : i.body.hdr = some h) (ht : form.tags = .one 3) (hs : Found mOp i form h) : Statement i := by
  rintro cls w form' h' ⟨h1, h2, h3, h4, -, h6, h7⟩
  rw [hf] at h1; cases h1; rw [hh] at h2; cases h2
  rw [ht] at h4
  simp only [Tags.ok, beq_iff_eq] at h4
  unfold opOf
  rw [h4, h3]; exact hs w h6 h7
theorem of_w (hf : i.form = some form) (hh : i.body.hdr = some h) (ht : form.tags = .one 4) (hs : Found wOp i form h) : Statement i := by
  rintro cls w form' h' ⟨h1, h2, h3, h4, -, h6, h7⟩
  rw [hf] at h1; cases h1; rw [hh] at h2; cases h2
  rw [ht] at h4
  simp only [Tags.ok, beq_iff_eq] at h4
  unfold opOf
  rw [h4, h3]; exact hs w h6 h7
theorem of_all (hf : i.form = some form) (hh : i.body.hdr = some h) (ht : form.tags = .all) (hs : Found allOp i form h) : Statement i := by
  rintro cls w form' h' ⟨h1, h2, h3, h4, -, h6, h7⟩
  rw [hf] at h1; cases h1; rw [hh] at h2; cases h2
  rw [ht] at h4
  simp only [Tags.ok, beq_iff_eq] at h4
  unfold opOf
  rw [h4, h3]; exact hs w h6 h7
theorem of_sort (hf : i.form = some form) (hh : i.body.hdr = some h) (ht : form.tags = .kSort) (hs : Found sortOp i form h) :
    Statement i := by
  rintro cls w form' h' ⟨h1, h2, h3, h4, h5, h6, h7⟩
  rw [hf] at h1; cases h1; rw [hh] at h2; cases h2
  rw [ht] at h4 h5
  simp only [Tags.ok, Tags.classOk, beq_iff_eq] at h4 h5
  unfold opOf
  rw [h4, h3, h5]; exact hs w h6 h7
theorem of_sparse (hf : i.form = some form) (hh : i.body.hdr = some h) (ht : form.tags = .kSparse) (hs : Found sparseOp i form h) :
    Statement i := by
  rintro cls w form' h' ⟨h1, h2, h3, h4, h5, h6, h7⟩
  rw [hf] at h1; cases h1; rw [hh] at h2; cases h2
  rw [ht] at h4 h5
  simp only [Tags.ok, Tags.classOk, beq_iff_eq] at h4 h5
  unfold opOf
  rw [h4, h3, h5]; exact hs w h6 h7

theorem add (f : Rrr) : Statement (.add f) :=
  of_scalar rfl rfl rfl (by decide) fun _ h _ => congrArg (fun x => some (Instr.add x)) (rrr_eq h)
theorem addRi (f : Ri) : Statement (.addRi f) :=
  of_scalar rfl rfl rfl (by decide) fun _ h _ => congrArg (fun x => some (Instr.addRi x)) (ri_eq h)
theorem sub (f : Rrr) : Statement (.sub f) :=
  of_scalar rfl rfl rfl (by decide) fun _ h _ => congrArg (fun x => some (Instr.sub x)) (rrr_eq h)
theorem mul (f : Rrr) : Statement (.mul f) :=
  of_scalar rfl rfl rfl (by decide) fun _ h _ => congrArg (fun x => some (Instr.mul x)) (rrr_eq h)
theorem mulh (f : Rrr) : Statement (.mulh f) :=
  of_scalar rfl rfl rfl (by decide) fun _ h _ => congrArg (fun x => some (Instr.mulh x)) (rrr_eq h)
theorem div (f : Rrr) : Statement (.div f) :=
  of_scalar rfl rfl rfl (by decide) fun _ h _ => congrArg (fun x => some (Instr.div x)) (rrr_eq h)
theorem rem (f : Rrr) : Statement (.rem f) :=
  of_scalar rfl rfl rfl (by decide) fun _ h _ => congrArg (fun x => some (Instr.rem x)) (rrr_eq h)
theorem and (f : Rrr) : Statement (.and f) :=
  of_scalar rfl rfl rfl (by decide) fun _ h _ => congrArg (fun x => some (Instr.and x)) (rrr_eq h)
theorem andRi (f : Ri) : Statement (.andRi f) :=
  of_scalar rfl rfl rfl (by decide) fun _ h _ => congrArg (fun x => some (Instr.andRi x)) (ri_eq h)
theorem or (f : Rrr) : Statement (.or f) :=
  of_scalar rfl rfl rfl (by decide) fun _ h _ => congrArg (fun x => some (Instr.or x)) (rrr_eq h)
theorem orRi (f : Ri) : Statement (.orRi f) :=
  of_scalar rfl rfl rfl (by decide) fun _ h _ => congrArg (fun x => some (Instr.orRi x)) (ri_eq h)
theorem xor (f : Rrr) : Statement (.xor f) :=
  of_scalar rfl rfl rfl (by decide) fun _ h _ => congrArg (fun x => some (Instr.xor x)) (rrr_eq h)
theorem andn (f : Rrr) : Statement (.andn f) :=
  of_scalar rfl rfl rfl (by decide) fun _ h _ => congrArg (fun x => some (Instr.andn x)) (rrr_eq h)
theorem shl (f : Rrr) : Statement (.shl f) :=
  of_scalar rfl rfl rfl (by decide) fun _ h _ => congrArg (fun x => some (Instr.shl x)) (rrr_eq h)
theorem shlRi (f : Ri) : Statement (.shlRi f) :=
  of_scalar rfl rfl rfl (by decide) fun _ h _ => congrArg (fun x => some (Instr.shlRi x)) (ri_eq h)
theorem shr (f : Rrr) : Statement (.shr f) :=
  of_scalar rfl rfl rfl (by decide) fun _ h _ => congrArg (fun x => some (Instr.shr x)) (rrr_eq h)
theorem shrRi (f : Ri) : Statement (.shrRi f) :=
  of_scalar rfl rfl rfl (by decide) fun _ h _ => congrArg (fun x => some (Instr.shrRi x)) (ri_eq h)
theorem shra (f : Rrr) : Statement (.shra f) :=
  of_scalar rfl rfl rfl (by decide) fun _ h _ => congrArg (fun x => some (Instr.shra x)) (rrr_eq h)
theorem min (f : Rrr) : Statement (.min f) :=
  of_scalar rfl rfl rfl (by decide) fun _ h _ => congrArg (fun x => some (Instr.min x)) (rrr_eq h)
theorem max (f : Rrr) : Statement (.max f) :=
  of_scalar rfl rfl rfl (by decide) fun _ h _ => congrArg (fun x => some (Instr.max x)) (rrr_eq h)
theorem seteq (f : Rrr) : Statement (.seteq f) :=
  of_scalar rfl rfl rfl (by decide) fun _ h _ => congrArg (fun x => some (Instr.seteq x)) (rrr_eq h)
theorem setne (f : Rrr) : Statement (.setne f) :=
  of_scalar rfl rfl rfl (by decide) fun _ h _ => congrArg (fun x => some (Instr.setne x)) (rrr_eq h)
theorem setlt (f : Rrr) : Statement (.setlt f) :=
  of_scalar rfl rfl rfl (by decide) fun _ h _ => congrArg (fun x => some (Instr.setlt x)) (rrr_eq h)
theorem setltRi (f : Ri) : Statement (.setltRi f) :=
  of_scalar rfl rfl rfl (by decide) fun _ h _ => congrArg (fun x => some (Instr.setltRi x)) (ri_eq h)
theorem setle (f : Rrr) : Statement (.setle f) :=
  of_scalar rfl rfl rfl (by decide) fun _ h _ => congrArg (fun x => some (Instr.setle x)) (rrr_eq h)
theorem sel (f : Rrr) : Statement (.sel f) :=
  of_scalar rfl rfl rfl (by decide) fun _ h _ => congrArg (fun x => some (Instr.sel x)) (rrr_eq h)
theorem clz (f : Rrr) : Statement (.clz f) :=
  of_scalar rfl rfl rfl (by decide) fun _ h _ => congrArg (fun x => some (Instr.clz x)) (rrr_eq h)
theorem popc (f : Rrr) : Statement (.popc f) :=
  of_scalar rfl rfl rfl (by decide) fun _ h _ => congrArg (fun x => some (Instr.popc x)) (rrr_eq h)
theorem bfx (f : Rrr) : Statement (.bfx f) :=
  of_scalar rfl rfl rfl (by decide) fun _ h _ => congrArg (fun x => some (Instr.bfx x)) (rrr_eq h)
theorem bfi (f : Rrr) : Statement (.bfi f) :=
  of_scalar rfl rfl rfl (by decide) fun _ h _ => congrArg (fun x => some (Instr.bfi x)) (rrr_eq h)
theorem addsc (f : Rrr) : Statement (.addsc f) :=
  of_scalar rfl rfl rfl (by decide) fun _ h _ => congrArg (fun x => some (Instr.addsc x)) (rrr_eq h)
theorem cvta (f : Rrr) : Statement (.cvta f) :=
  of_scalar rfl rfl rfl (by decide) fun _ h _ => congrArg (fun x => some (Instr.cvta x)) (rrr_eq h)
theorem aptest (f : Rrr) : Statement (.aptest f) :=
  of_scalar rfl rfl rfl (by decide) fun _ h _ => congrArg (fun x => some (Instr.aptest x)) (rrr_eq h)
theorem lcset (f : Rrr) : Statement (.lcset f) :=
  of_scalar rfl rfl rfl (by decide) fun _ h _ => congrArg (fun x => some (Instr.lcset x)) (rrr_eq h)
theorem li (f : Ri) : Statement (.li f) :=
  of_scalar rfl rfl rfl (by decide) fun _ h _ => congrArg (fun x => some (Instr.li x)) (ri_eq h)
theorem trap (f : Ri) : Statement (.trap f) :=
  of_c rfl rfl rfl (by decide) fun _ h _ => congrArg (fun x => some (Instr.trap x)) (ri_eq h)
theorem bkpt (f : Ri) : Statement (.bkpt f) :=
  of_c rfl rfl rfl (by decide) fun _ h _ => congrArg (fun x => some (Instr.bkpt x)) (ri_eq h)
theorem eret (f : Ri) : Statement (.eret f) :=
  of_c rfl rfl rfl (by decide) fun _ h _ => congrArg (fun x => some (Instr.eret x)) (ri_eq h)
theorem csrr (f : Ri) : Statement (.csrr f) :=
  of_c rfl rfl rfl (by decide) fun _ h _ => congrArg (fun x => some (Instr.csrr x)) (ri_eq h)
theorem csrw (f : Ri) : Statement (.csrw f) :=
  of_c rfl rfl rfl (by decide) fun _ h _ => congrArg (fun x => some (Instr.csrw x)) (ri_eq h)
theorem csrs (f : Ri) : Statement (.csrs f) :=
  of_c rfl rfl rfl (by decide) fun _ h _ => congrArg (fun x => some (Instr.csrs x)) (ri_eq h)
theorem csrc (f : Ri) : Statement (.csrc f) :=
  of_c rfl rfl rfl (by decide) fun _ h _ => congrArg (fun x => some (Instr.csrc x)) (ri_eq h)
theorem tick (f : Rrr) : Statement (.tick f) :=
  of_c rfl rfl rfl (by decide) fun _ h _ => congrArg (fun x => some (Instr.tick x)) (rrr_eq h)
theorem waittick (f : Rrr) : Statement (.waittick f) :=
  of_c rfl rfl rfl (by decide) fun _ h _ => congrArg (fun x => some (Instr.waittick x)) (rrr_eq h)
theorem halt (f : Rrr) : Statement (.halt f) :=
  of_c rfl rfl rfl (by decide) fun _ h _ => congrArg (fun x => some (Instr.halt x)) (rrr_eq h)
theorem icinv (f : Rrr) : Statement (.icinv f) :=
  of_c rfl rfl rfl (by decide) fun _ h _ => congrArg (fun x => some (Instr.icinv x)) (rrr_eq h)
theorem tlbinv (f : Rrr) : Statement (.tlbinv f) :=
  of_c rfl rfl rfl (by decide) fun _ h _ => congrArg (fun x => some (Instr.tlbinv x)) (rrr_eq h)
theorem watch (f : Ri) : Statement (.watch f) :=
  of_c rfl rfl rfl (by decide) fun _ h _ => congrArg (fun x => some (Instr.watch x)) (ri_eq h)
theorem pendGo (f : Ri) : Statement (.pendGo f) :=
  of_c rfl rfl rfl (by decide) fun w h hr => by
    have hs := sel_ri hr
    have hx : fImm w = f.imm.toNat := congrArg (fun (x : Ri) => x.imm.toNat) (ri_eq h)
    have he := ri_eq h
    simp_all [cOp, Sel.riOk, Instr.body, Body.w1]
theorem pendCancel (f : Ri) : Statement (.pendCancel f) :=
  of_c rfl rfl rfl (by decide) fun w h hr => by
    have hs := sel_ri hr
    have hx : fImm w = f.imm.toNat := congrArg (fun (x : Ri) => x.imm.toNat) (ri_eq h)
    have he := ri_eq h
    simp_all [cOp, Sel.riOk, Instr.body, Body.w1]
theorem pendRepeat (f : Ri) : Statement (.pendRepeat f) :=
  of_c rfl rfl rfl (by decide) fun w h hr => by
    have hs := sel_ri hr
    have hx : fImm w = f.imm.toNat := congrArg (fun (x : Ri) => x.imm.toNat) (ri_eq h)
    have he := ri_eq h
    simp_all [cOp, Sel.riOk, Instr.body, Body.w1]
theorem echo (f : Ri) : Statement (.echo f) :=
  of_c rfl rfl rfl (by decide) fun w h hr => by
    have hs := sel_ri hr
    have hx : fImm w = f.imm.toNat := congrArg (fun (x : Ri) => x.imm.toNat) (ri_eq h)
    have he := ri_eq h
    simp_all [cOp, Sel.riOk, Instr.body, Body.w1]
theorem discver (f : Ri) : Statement (.discver f) :=
  of_c rfl rfl rfl (by decide) fun w h hr => by
    have hs := sel_ri hr
    have hx : fImm w = f.imm.toNat := congrArg (fun (x : Ri) => x.imm.toNat) (ri_eq h)
    have he := ri_eq h
    simp_all [cOp, Sel.riOk, Instr.body, Body.w1]
theorem mark (f : Ri) : Statement (.mark f) :=
  of_c rfl rfl rfl (by decide) fun w h hr => by
    have hs := sel_ri hr
    have hx : fImm w = f.imm.toNat := congrArg (fun (x : Ri) => x.imm.toNat) (ri_eq h)
    have he := ri_eq h
    simp_all [cOp, Sel.riOk, Instr.body, Body.w1]
theorem fwsvcUndefined (f : Ri) : Statement (.fwsvcUndefined f) :=
  of_c rfl rfl rfl (by decide) fun w h hr => by
    have hs := sel_ri hr
    have hx : fImm w = f.imm.toNat := congrArg (fun (x : Ri) => x.imm.toNat) (ri_eq h)
    have he := ri_eq h
    simp_all [cOp, Sel.riOk, Instr.body, Body.w1]
    rw [if_neg (by omega), if_neg (by omega)]
theorem out (f : Rrr) : Statement (.out f) :=
  of_c rfl rfl rfl (by decide) fun _ h _ => congrArg (fun x => some (Instr.out x)) (rrr_eq h)
theorem mset (f : Rrr) : Statement (.mset f) :=
  of_c rfl rfl rfl (by decide) fun _ h _ => congrArg (fun x => some (Instr.mset x)) (rrr_eq h)
theorem mopd (f : Rrr) : Statement (.mopd f) :=
  of_c rfl rfl rfl (by decide) fun _ h _ => congrArg (fun x => some (Instr.mopd x)) (rrr_eq h)
theorem mscale (f : Rrr) : Statement (.mscale f) :=
  of_c rfl rfl rfl (by decide) fun _ h _ => congrArg (fun x => some (Instr.mscale x)) (rrr_eq h)
theorem rtt (f : Rrr) : Statement (.rtt f) :=
  of_c rfl rfl rfl (by decide) fun _ h _ => congrArg (fun x => some (Instr.rtt x)) (rrr_eq h)
theorem ld (f : Rrr) : Statement (.ld f) :=
  of_a rfl rfl rfl (by decide) fun _ h _ => congrArg (fun x => some (Instr.ld x)) (rrr_eq h)
theorem st (f : Rrr) : Statement (.st f) :=
  of_a rfl rfl rfl (by decide) fun _ h _ => congrArg (fun x => some (Instr.st x)) (rrr_eq h)
theorem lds (f : Rrr) : Statement (.lds f) :=
  of_a rfl rfl rfl (by decide) fun _ h _ => congrArg (fun x => some (Instr.lds x)) (rrr_eq h)
theorem sts (f : Rrr) : Statement (.sts f) :=
  of_a rfl rfl rfl (by decide) fun _ h _ => congrArg (fun x => some (Instr.sts x)) (rrr_eq h)
theorem rclaimCfg (f : Rrr) : Statement (.rclaimCfg f) :=
  of_a rfl rfl rfl (by decide) fun w h hr => by
    have hs := sel_rrr hr
    have hx : fFl w = f.fl.toNat := congrArg (fun (x : Rrr) => x.fl.toNat) (rrr_eq h)
    have he := rrr_eq h
    simp_all [aOp, Sel.rrrOk, Instr.body, Body.w1]
theorem rclaim (f : Rrr) : Statement (.rclaim f) :=
  of_a rfl rfl rfl (by decide) fun w h hr => by
    have hs := sel_rrr hr
    have hx : fFl w = f.fl.toNat := congrArg (fun (x : Rrr) => x.fl.toNat) (rrr_eq h)
    have he := rrr_eq h
    simp_all [aOp, Sel.rrrOk, Instr.body, Body.w1]
theorem rcommit (f : Rrr) : Statement (.rcommit f) :=
  of_a rfl rfl rfl (by decide) fun _ h _ => congrArg (fun x => some (Instr.rcommit x)) (rrr_eq h)
theorem rtake (f : Rrr) : Statement (.rtake f) :=
  of_a rfl rfl rfl (by decide) fun _ h _ => congrArg (fun x => some (Instr.rtake x)) (rrr_eq h)
theorem rdone (f : Rrr) : Statement (.rdone f) :=
  of_a rfl rfl rfl (by decide) fun _ h _ => congrArg (fun x => some (Instr.rdone x)) (rrr_eq h)
theorem waitfill (f : Rrr) : Statement (.waitfill f) :=
  of_a rfl rfl rfl (by decide) fun _ h _ => congrArg (fun x => some (Instr.waitfill x)) (rrr_eq h)
theorem waitfree (f : Rrr) : Statement (.waitfree f) :=
  of_a rfl rfl rfl (by decide) fun _ h _ => congrArg (fun x => some (Instr.waitfree x)) (rrr_eq h)
theorem atomAdd (f : Rrr) : Statement (.atomAdd f) :=
  of_a rfl rfl rfl (by decide) fun _ h _ => congrArg (fun x => some (Instr.atomAdd x)) (rrr_eq h)
theorem atomAnd (f : Rrr) : Statement (.atomAnd f) :=
  of_a rfl rfl rfl (by decide) fun _ h _ => congrArg (fun x => some (Instr.atomAnd x)) (rrr_eq h)
theorem atomOr (f : Rrr) : Statement (.atomOr f) :=
  of_a rfl rfl rfl (by decide) fun _ h _ => congrArg (fun x => some (Instr.atomOr x)) (rrr_eq h)
theorem atomXor (f : Rrr) : Statement (.atomXor f) :=
  of_a rfl rfl rfl (by decide) fun _ h _ => congrArg (fun x => some (Instr.atomXor x)) (rrr_eq h)
theorem atomMin (f : Rrr) : Statement (.atomMin f) :=
  of_a rfl rfl rfl (by decide) fun _ h _ => congrArg (fun x => some (Instr.atomMin x)) (rrr_eq h)
theorem atomMax (f : Rrr) : Statement (.atomMax f) :=
  of_a rfl rfl rfl (by decide) fun _ h _ => congrArg (fun x => some (Instr.atomMax x)) (rrr_eq h)
theorem atomExch (f : Rrr) : Statement (.atomExch f) :=
  of_a rfl rfl rfl (by decide) fun _ h _ => congrArg (fun x => some (Instr.atomExch x)) (rrr_eq h)
theorem atomCas (f : Rrr) : Statement (.atomCas f) :=
  of_a rfl rfl rfl (by decide) fun _ h _ => congrArg (fun x => some (Instr.atomCas x)) (rrr_eq h)
theorem atomIncw (f : Rrr) : Statement (.atomIncw f) :=
  of_a rfl rfl rfl (by decide) fun _ h _ => congrArg (fun x => some (Instr.atomIncw x)) (rrr_eq h)
theorem atomDecw (f : Rrr) : Statement (.atomDecw f) :=
  of_a rfl rfl rfl (by decide) fun _ h _ => congrArg (fun x => some (Instr.atomDecw x)) (rrr_eq h)
theorem atomFaddb (f : Rrr) : Statement (.atomFaddb f) :=
  of_a rfl rfl rfl (by decide) fun _ h _ => congrArg (fun x => some (Instr.atomFaddb x)) (rrr_eq h)
theorem phase (f : Rrr) : Statement (.phase f) :=
  of_a rfl rfl rfl (by decide) fun _ h _ => congrArg (fun x => some (Instr.phase x)) (rrr_eq h)
theorem rel (f : Rrr) : Statement (.rel f) :=
  of_a rfl rfl rfl (by decide) fun _ h _ => congrArg (fun x => some (Instr.rel x)) (rrr_eq h)
theorem acq (f : Rrr) : Statement (.acq f) :=
  of_a rfl rfl rfl (by decide) fun _ h _ => congrArg (fun x => some (Instr.acq x)) (rrr_eq h)
theorem barDie (f : Rrr) : Statement (.barDie f) :=
  of_a rfl rfl rfl (by decide) fun w h hr => by
    have hs := sel_rrr hr
    have hx : fFl w = f.fl.toNat := congrArg (fun (x : Rrr) => x.fl.toNat) (rrr_eq h)
    have he := rrr_eq h
    simp_all [aOp, Sel.rrrOk, Instr.body, Body.w1]
theorem barNode (f : Rrr) : Statement (.barNode f) :=
  of_a rfl rfl rfl (by decide) fun w h hr => by
    have hs := sel_rrr hr
    have hx : fFl w = f.fl.toNat := congrArg (fun (x : Rrr) => x.fl.toNat) (rrr_eq h)
    have he := rrr_eq h
    simp_all [aOp, Sel.rrrOk, Instr.body, Body.w1]
theorem publish (f : Rrr) : Statement (.publish f) :=
  of_a rfl rfl rfl (by decide) fun _ h _ => congrArg (fun x => some (Instr.publish x)) (rrr_eq h)
theorem copy (f : Rrr) : Statement (.copy f) :=
  of_a rfl rfl rfl (by decide) fun _ h _ => congrArg (fun x => some (Instr.copy x)) (rrr_eq h)
theorem copyThIn (f : Rrr) : Statement (.copyThIn f) :=
  of_a rfl rfl rfl (by decide) fun w h hr => by
    have hs := sel_rrr hr
    have hx : fFl w = f.fl.toNat := congrArg (fun (x : Rrr) => x.fl.toNat) (rrr_eq h)
    have he := rrr_eq h
    simp_all [aOp, Sel.rrrOk, Instr.body, Body.w1]
theorem copyThOut (f : Rrr) : Statement (.copyThOut f) :=
  of_a rfl rfl rfl (by decide) fun w h hr => by
    have hs := sel_rrr hr
    have hx : fFl w = f.fl.toNat := congrArg (fun (x : Rrr) => x.fl.toNat) (rrr_eq h)
    have he := rrr_eq h
    simp_all [aOp, Sel.rrrOk, Instr.body, Body.w1]
theorem copym (f : Rrr) : Statement (.copym f) :=
  of_a rfl rfl rfl (by decide) fun _ h _ => congrArg (fun x => some (Instr.copym x)) (rrr_eq h)
theorem gather (f : Rrr) : Statement (.gather f) :=
  of_a rfl rfl rfl (by decide) fun _ h _ => congrArg (fun x => some (Instr.gather x)) (rrr_eq h)
theorem scatter (f : Rrr) : Statement (.scatter f) :=
  of_a rfl rfl rfl (by decide) fun _ h _ => congrArg (fun x => some (Instr.scatter x)) (rrr_eq h)
theorem prefetch (f : Rrr) : Statement (.prefetch f) :=
  of_a rfl rfl rfl (by decide) fun _ h _ => congrArg (fun x => some (Instr.prefetch x)) (rrr_eq h)
theorem thfence (f : Rrr) : Statement (.thfence f) :=
  of_a rfl rfl rfl (by decide) fun _ h _ => congrArg (fun x => some (Instr.thfence x)) (rrr_eq h)
theorem capopen (f : Rrr) : Statement (.capopen f) :=
  of_a rfl rfl rfl (by decide) fun _ h _ => congrArg (fun x => some (Instr.capopen x)) (rrr_eq h)
theorem capgive (f : Rrr) : Statement (.capgive f) :=
  of_a rfl rfl rfl (by decide) fun _ h _ => congrArg (fun x => some (Instr.capgive x)) (rrr_eq h)
theorem capdup (f : Rrr) : Statement (.capdup f) :=
  of_a rfl rfl rfl (by decide) fun _ h _ => congrArg (fun x => some (Instr.capdup x)) (rrr_eq h)
theorem capdrop (f : Rrr) : Statement (.capdrop f) :=
  of_a rfl rfl rfl (by decide) fun _ h _ => congrArg (fun x => some (Instr.capdrop x)) (rrr_eq h)
theorem fenceEng (f : Rrr) : Statement (.fenceEng f) :=
  of_all rfl rfl rfl fun w h hr => by
    have hs := sel_rrr hr
    have hx : fFl w = f.fl.toNat := congrArg (fun (x : Rrr) => x.fl.toNat) (rrr_eq h)
    have he := rrr_eq h
    simp_all [allOp, Sel.rrrOk, Instr.body, Body.w1]
theorem fenceEngAsync (f : Rrr) : Statement (.fenceEngAsync f) :=
  of_all rfl rfl rfl fun w h hr => by
    have hs := sel_rrr hr
    have hx : fFl w = f.fl.toNat := congrArg (fun (x : Rrr) => x.fl.toNat) (rrr_eq h)
    have he := rrr_eq h
    simp_all [allOp, Sel.rrrOk, Instr.body, Body.w1]
theorem fadd (f : Rrr) : Statement (.fadd f) :=
  of_x rfl rfl rfl fun _ h _ => congrArg (fun x => some (Instr.fadd x)) (rrr_eq h)
theorem fsub (f : Rrr) : Statement (.fsub f) :=
  of_x rfl rfl rfl fun _ h _ => congrArg (fun x => some (Instr.fsub x)) (rrr_eq h)
theorem fmul (f : Rrr) : Statement (.fmul f) :=
  of_x rfl rfl rfl fun _ h _ => congrArg (fun x => some (Instr.fmul x)) (rrr_eq h)
theorem fdiv (f : Rrr) : Statement (.fdiv f) :=
  of_x rfl rfl rfl fun _ h _ => congrArg (fun x => some (Instr.fdiv x)) (rrr_eq h)
theorem fsqrt (f : Rrr) : Statement (.fsqrt f) :=
  of_x rfl rfl rfl fun _ h _ => congrArg (fun x => some (Instr.fsqrt x)) (rrr_eq h)
theorem fma (f : Rrr) : Statement (.fma f) :=
  of_x rfl rfl rfl fun _ h _ => congrArg (fun x => some (Instr.fma x)) (rrr_eq h)
theorem fms (f : Rrr) : Statement (.fms f) :=
  of_x rfl rfl rfl fun _ h _ => congrArg (fun x => some (Instr.fms x)) (rrr_eq h)
theorem fmin (f : Rrr) : Statement (.fmin f) :=
  of_x rfl rfl rfl fun _ h _ => congrArg (fun x => some (Instr.fmin x)) (rrr_eq h)
theorem fmax (f : Rrr) : Statement (.fmax f) :=
  of_x rfl rfl rfl fun _ h _ => congrArg (fun x => some (Instr.fmax x)) (rrr_eq h)
theorem fabs (f : Rrr) : Statement (.fabs f) :=
  of_x rfl rfl rfl fun _ h _ => congrArg (fun x => some (Instr.fabs x)) (rrr_eq h)
theorem fneg (f : Rrr) : Statement (.fneg f) :=
  of_x rfl rfl rfl fun _ h _ => congrArg (fun x => some (Instr.fneg x)) (rrr_eq h)
theorem fcmp (f : Rrr) : Statement (.fcmp f) :=
  of_x rfl rfl rfl fun _ h _ => congrArg (fun x => some (Instr.fcmp x)) (rrr_eq h)
theorem iadd (f : Rrr) : Statement (.iadd f) :=
  of_x rfl rfl rfl fun _ h _ => congrArg (fun x => some (Instr.iadd x)) (rrr_eq h)
theorem isub (f : Rrr) : Statement (.isub f) :=
  of_x rfl rfl rfl fun _ h _ => congrArg (fun x => some (Instr.isub x)) (rrr_eq h)
theorem imul (f : Rrr) : Statement (.imul f) :=
  of_x rfl rfl rfl fun _ h _ => congrArg (fun x => some (Instr.imul x)) (rrr_eq h)
theorem imulh (f : Rrr) : Statement (.imulh f) :=
  of_x rfl rfl rfl fun _ h _ => congrArg (fun x => some (Instr.imulh x)) (rrr_eq h)
theorem imin (f : Rrr) : Statement (.imin f) :=
  of_x rfl rfl rfl fun _ h _ => congrArg (fun x => some (Instr.imin x)) (rrr_eq h)
theorem imax (f : Rrr) : Statement (.imax f) :=
  of_x rfl rfl rfl fun _ h _ => congrArg (fun x => some (Instr.imax x)) (rrr_eq h)
theorem iand (f : Rrr) : Statement (.iand f) :=
  of_x rfl rfl rfl fun _ h _ => congrArg (fun x => some (Instr.iand x)) (rrr_eq h)
theorem ior (f : Rrr) : Statement (.ior f) :=
  of_x rfl rfl rfl fun _ h _ => congrArg (fun x => some (Instr.ior x)) (rrr_eq h)
theorem ixor (f : Rrr) : Statement (.ixor f) :=
  of_x rfl rfl rfl fun _ h _ => congrArg (fun x => some (Instr.ixor x)) (rrr_eq h)
theorem ishl (f : Rrr) : Statement (.ishl f) :=
  of_x rfl rfl rfl fun _ h _ => congrArg (fun x => some (Instr.ishl x)) (rrr_eq h)
theorem ishr (f : Rrr) : Statement (.ishr f) :=
  of_x rfl rfl rfl fun _ h _ => congrArg (fun x => some (Instr.ishr x)) (rrr_eq h)
theorem ishra (f : Rrr) : Statement (.ishra f) :=
  of_x rfl rfl rfl fun _ h _ => congrArg (fun x => some (Instr.ishra x)) (rrr_eq h)
theorem icmp (f : Rrr) : Statement (.icmp f) :=
  of_x rfl rfl rfl fun _ h _ => congrArg (fun x => some (Instr.icmp x)) (rrr_eq h)
theorem iabs (f : Rrr) : Statement (.iabs f) :=
  of_x rfl rfl rfl fun _ h _ => congrArg (fun x => some (Instr.iabs x)) (rrr_eq h)
theorem vsel (f : Rrr) : Statement (.vsel f) :=
  of_x rfl rfl rfl fun _ h _ => congrArg (fun x => some (Instr.vsel x)) (rrr_eq h)
theorem kand (f : Rrr) : Statement (.kand f) :=
  of_x rfl rfl rfl fun _ h _ => congrArg (fun x => some (Instr.kand x)) (rrr_eq h)
theorem kor (f : Rrr) : Statement (.kor f) :=
  of_x rfl rfl rfl fun _ h _ => congrArg (fun x => some (Instr.kor x)) (rrr_eq h)
theorem kxor (f : Rrr) : Statement (.kxor f) :=
  of_x rfl rfl rfl fun _ h _ => congrArg (fun x => some (Instr.kxor x)) (rrr_eq h)
theorem knot (f : Rrr) : Statement (.knot f) :=
  of_x rfl rfl rfl fun _ h _ => congrArg (fun x => some (Instr.knot x)) (rrr_eq h)
theorem movV (f : Rrr) : Statement (.movV f) :=
  of_x rfl rfl rfl fun _ h _ => congrArg (fun x => some (Instr.movV x)) (rrr_eq h)
theorem rotr (f : Rrr) : Statement (.rotr f) :=
  of_x rfl rfl rfl fun _ h _ => congrArg (fun x => some (Instr.rotr x)) (rrr_eq h)
theorem rotc (f : Rrr) : Statement (.rotc f) :=
  of_x rfl rfl rfl fun _ h _ => congrArg (fun x => some (Instr.rotc x)) (rrr_eq h)
theorem bcr (f : Rrr) : Statement (.bcr f) :=
  of_x rfl rfl rfl fun _ h _ => congrArg (fun x => some (Instr.bcr x)) (rrr_eq h)
theorem bcc (f : Rrr) : Statement (.bcc f) :=
  of_x rfl rfl rfl fun _ h _ => congrArg (fun x => some (Instr.bcc x)) (rrr_eq h)
theorem redr (f : Rrr) : Statement (.redr f) :=
  of_x rfl rfl rfl fun _ h _ => congrArg (fun x => some (Instr.redr x)) (rrr_eq h)
theorem redc (f : Rrr) : Statement (.redc f) :=
  of_x rfl rfl rfl fun _ h _ => congrArg (fun x => some (Instr.redc x)) (rrr_eq h)
theorem trb (f : Rrr) : Statement (.trb f) :=
  of_x rfl rfl rfl fun _ h _ => congrArg (fun x => some (Instr.trb x)) (rrr_eq h)
theorem unpk (f : Rrr) : Statement (.unpk f) :=
  of_x rfl rfl rfl fun _ h _ => congrArg (fun x => some (Instr.unpk x)) (rrr_eq h)
theorem pack (f : Rrr) : Statement (.pack f) :=
  of_x rfl rfl rfl fun _ h _ => congrArg (fun x => some (Instr.pack x)) (rrr_eq h)
theorem cvt (f : Rrr) : Statement (.cvt f) :=
  of_x rfl rfl rfl fun _ h _ => congrArg (fun x => some (Instr.cvt x)) (rrr_eq h)
theorem exp2 (f : Rrr) : Statement (.exp2 f) :=
  of_x rfl rfl rfl fun _ h _ => congrArg (fun x => some (Instr.exp2 x)) (rrr_eq h)
theorem log2 (f : Rrr) : Statement (.log2 f) :=
  of_x rfl rfl rfl fun _ h _ => congrArg (fun x => some (Instr.log2 x)) (rrr_eq h)
theorem rcp (f : Rrr) : Statement (.rcp f) :=
  of_x rfl rfl rfl fun _ h _ => congrArg (fun x => some (Instr.rcp x)) (rrr_eq h)
theorem rsq (f : Rrr) : Statement (.rsq f) :=
  of_x rfl rfl rfl fun _ h _ => congrArg (fun x => some (Instr.rsq x)) (rrr_eq h)
theorem sin (f : Rrr) : Statement (.sin f) :=
  of_x rfl rfl rfl fun _ h _ => congrArg (fun x => some (Instr.sin x)) (rrr_eq h)
theorem cos (f : Rrr) : Statement (.cos f) :=
  of_x rfl rfl rfl fun _ h _ => congrArg (fun x => some (Instr.cos x)) (rrr_eq h)
theorem tanh (f : Rrr) : Statement (.tanh f) :=
  of_x rfl rfl rfl fun _ h _ => congrArg (fun x => some (Instr.tanh x)) (rrr_eq h)
theorem rotBase (f : Rrr) : Statement (.rotBase f) :=
  of_x rfl rfl rfl fun w h hr => by
    have hs := sel_rrr hr
    have hx : fRs w = f.rs.toNat := congrArg (fun (x : Rrr) => x.rs.toNat) (rrr_eq h)
    have he := rrr_eq h
    simp_all [xOp, Sel.rrrOk, Instr.body, Body.w1]
theorem rotBaseOff (f : Rrr) : Statement (.rotBaseOff f) :=
  of_x rfl rfl rfl fun w h hr => by
    have hs := sel_rrr hr
    have hx : fRs w = f.rs.toNat := congrArg (fun (x : Rrr) => x.rs.toNat) (rrr_eq h)
    have he := rrr_eq h
    simp_all [xOp, Sel.rrrOk, Instr.body, Body.w1]
theorem orient2 (f : Rrr) : Statement (.orient2 f) :=
  of_x rfl rfl rfl fun _ h _ => congrArg (fun x => some (Instr.orient2 x)) (rrr_eq h)
theorem orient3 (f : Rrr) : Statement (.orient3 f) :=
  of_x rfl rfl rfl fun _ h _ => congrArg (fun x => some (Instr.orient3 x)) (rrr_eq h)
theorem incircle (f : Rrr) : Statement (.incircle f) :=
  of_x rfl rfl rfl fun _ h _ => congrArg (fun x => some (Instr.incircle x)) (rrr_eq h)
theorem insphere (f : Rrr) : Statement (.insphere f) :=
  of_x rfl rfl rfl fun _ h _ => congrArg (fun x => some (Instr.insphere x)) (rrr_eq h)
theorem segcross (f : Rrr) : Statement (.segcross f) :=
  of_x rfl rfl rfl fun _ h _ => congrArg (fun x => some (Instr.segcross x)) (rrr_eq h)
theorem vld (f : Rrr) : Statement (.vld f) :=
  of_x rfl rfl rfl fun _ h _ => congrArg (fun x => some (Instr.vld x)) (rrr_eq h)
theorem vst (f : Rrr) : Statement (.vst f) :=
  of_x rfl rfl rfl fun _ h _ => congrArg (fun x => some (Instr.vst x)) (rrr_eq h)
theorem mzero (f : Rrr) : Statement (.mzero f) :=
  of_m rfl rfl rfl fun _ h _ => congrArg (fun x => some (Instr.mzero x)) (rrr_eq h)
theorem mload (f : Rrr) : Statement (.mload f) :=
  of_m rfl rfl rfl fun _ h _ => congrArg (fun x => some (Instr.mload x)) (rrr_eq h)
theorem mgo (f : Rrr) : Statement (.mgo f) :=
  of_m rfl rfl rfl fun _ h _ => congrArg (fun x => some (Instr.mgo x)) (rrr_eq h)
theorem mdrainSpad (f : Rrr) : Statement (.mdrainSpad f) :=
  of_m rfl rfl rfl fun w h hr => by
    have hs := sel_rrr hr
    have hx : fFl w = f.fl.toNat := congrArg (fun (x : Rrr) => x.fl.toNat) (rrr_eq h)
    have he := rrr_eq h
    simp_all [mOp, Sel.rrrOk, Instr.body, Body.w1]
theorem mdrainGlob (f : Rrr) : Statement (.mdrainGlob f) :=
  of_m rfl rfl rfl fun w h hr => by
    have hs := sel_rrr hr
    have hx : fFl w = f.fl.toNat := congrArg (fun (x : Rrr) => x.fl.toNat) (rrr_eq h)
    have he := rrr_eq h
    simp_all [mOp, Sel.rrrOk, Instr.body, Body.w1]
theorem mdrainGlobAdd (f : Rrr) : Statement (.mdrainGlobAdd f) :=
  of_m rfl rfl rfl fun w h hr => by
    have hs := sel_rrr hr
    have hx : fFl w = f.fl.toNat := congrArg (fun (x : Rrr) => x.fl.toNat) (rrr_eq h)
    have he := rrr_eq h
    simp_all [mOp, Sel.rrrOk, Instr.body, Body.w1]
theorem mdrainPeer (f : Rrr) : Statement (.mdrainPeer f) :=
  of_m rfl rfl rfl fun w h hr => by
    have hs := sel_rrr hr
    have hx : fFl w = f.fl.toNat := congrArg (fun (x : Rrr) => x.fl.toNat) (rrr_eq h)
    have he := rrr_eq h
    simp_all [mOp, Sel.rrrOk, Instr.body, Body.w1]
theorem rgoMax (f : Rrr) : Statement (.rgoMax f) :=
  of_w rfl rfl rfl fun _ h _ => congrArg (fun x => some (Instr.rgoMax x)) (rrr_eq h)
theorem rgoExpsum (f : Rrr) : Statement (.rgoExpsum f) :=
  of_w rfl rfl rfl fun _ h _ => congrArg (fun x => some (Instr.rgoExpsum x)) (rrr_eq h)
theorem rgoScale (f : Rrr) : Statement (.rgoScale f) :=
  of_w rfl rfl rfl fun _ h _ => congrArg (fun x => some (Instr.rgoScale x)) (rrr_eq h)
theorem rgoNorm (f : Rrr) : Statement (.rgoNorm f) :=
  of_w rfl rfl rfl fun _ h _ => congrArg (fun x => some (Instr.rgoNorm x)) (rrr_eq h)
theorem sort (f : Rrr) : Statement (.sort f) :=
  of_sort rfl rfl rfl fun _ h _ => congrArg (fun x => some (Instr.sort x)) (rrr_eq h)
theorem segsort (f : Rrr) : Statement (.segsort f) :=
  of_sort rfl rfl rfl fun _ h _ => congrArg (fun x => some (Instr.segsort x)) (rrr_eq h)
theorem merge (f : Rrr) : Statement (.merge f) :=
  of_sort rfl rfl rfl fun _ h _ => congrArg (fun x => some (Instr.merge x)) (rrr_eq h)
theorem topk (f : Rrr) : Statement (.topk f) :=
  of_sort rfl rfl rfl fun _ h _ => congrArg (fun x => some (Instr.topk x)) (rrr_eq h)
theorem ksel (f : Rrr) : Statement (.ksel f) :=
  of_sort rfl rfl rfl fun _ h _ => congrArg (fun x => some (Instr.ksel x)) (rrr_eq h)
theorem uniq (f : Rrr) : Statement (.uniq f) :=
  of_sort rfl rfl rfl fun _ h _ => congrArg (fun x => some (Instr.uniq x)) (rrr_eq h)
theorem spmmCsr (f : Rrr) : Statement (.spmmCsr f) :=
  of_sparse rfl rfl rfl fun _ h _ => congrArg (fun x => some (Instr.spmmCsr x)) (rrr_eq h)
theorem spmmBsr (f : Rrr) : Statement (.spmmBsr f) :=
  of_sparse rfl rfl rfl fun _ h _ => congrArg (fun x => some (Instr.spmmBsr x)) (rrr_eq h)
theorem sddmm (f : Rrr) : Statement (.sddmm f) :=
  of_sparse rfl rfl rfl fun _ h _ => congrArg (fun x => some (Instr.sddmm x)) (rrr_eq h)
theorem spmv (f : Rrr) : Statement (.spmv f) :=
  of_sparse rfl rfl rfl fun _ h _ => congrArg (fun x => some (Instr.spmv x)) (rrr_eq h)
theorem br (f : Br) : Statement (.br f) :=
  of_all rfl rfl rfl fun _ h _ => congrArg (fun x => some (Instr.br x)) (br_eq h)
theorem jmpi (f : Br) : Statement (.jmpi f) :=
  of_all rfl rfl rfl fun _ h _ => congrArg (fun x => some (Instr.jmpi x)) (br_eq h)
theorem call (f : Br) : Statement (.call f) :=
  of_all rfl rfl rfl fun _ h _ => congrArg (fun x => some (Instr.call x)) (br_eq h)
theorem calli (f : Br) : Statement (.calli f) :=
  of_all rfl rfl rfl fun _ h _ => congrArg (fun x => some (Instr.calli x)) (br_eq h)
theorem ret (f : Br) : Statement (.ret f) :=
  of_all rfl rfl rfl fun _ h _ => congrArg (fun x => some (Instr.ret x)) (br_eq h)
theorem loop (f : Lp) : Statement (.loop f) :=
  of_all rfl rfl rfl fun _ h _ => congrArg (fun x => some (Instr.loop x)) (lp_eq h)
theorem break_ (f : Br) : Statement (.break_ f) :=
  of_all rfl rfl rfl fun _ h _ => congrArg (fun x => some (Instr.break_ x)) (br_eq h)
theorem follow (f : Br) : Statement (.follow f) :=
  of_all rfl rfl rfl fun _ h _ => congrArg (fun x => some (Instr.follow x)) (br_eq h)
theorem region (f : Rrr) : Statement (.region f) :=
  of_all rfl rfl rfl fun _ h _ => congrArg (fun x => some (Instr.region x)) (rrr_eq h)
theorem end_ (f : Rrr) : Statement (.end_ f) :=
  of_all rfl rfl rfl fun _ h _ => congrArg (fun x => some (Instr.end_ x)) (rrr_eq h)
theorem nop (f : Rrr) : Statement (.nop f) :=
  of_all rfl rfl rfl fun _ h _ => congrArg (fun x => some (Instr.nop x)) (rrr_eq h)
theorem peerTileApply (cell idx : Nat) : Statement (.peerTileApply cell idx) := of_none rfl
theorem asyncCompletion (cell job : Nat) : Statement (.asyncCompletion cell job) := of_none rfl
theorem completionQueueApply (cell : Nat) (e : EngTag) (idx : Nat) : Statement (.completionQueueApply cell e idx) := of_none rfl
theorem heldPushAccept (cell : Nat) (e : EngTag) : Statement (.heldPushAccept cell e) := of_none rfl
theorem trapEntry (cell : Nat) : Statement (.trapEntry cell) := of_none rfl
theorem engineStall (cell : Nat) : Statement (.engineStall cell) := of_none rfl
theorem shardStop (cell : Nat) : Statement (.shardStop cell) := of_none rfl
theorem scratchpadClearDone (cell : Nat) : Statement (.scratchpadClearDone cell) := of_none rfl
theorem shardRetire (cell : Nat) : Statement (.shardRetire cell) := of_none rfl
theorem nodeRetire (node : Nat) : Statement (.nodeRetire node) := of_none rfl
theorem nodePlace (part : Nat) : Statement (.nodePlace part) := of_none rfl
theorem fallbackTimeout (node : Nat) : Statement (.fallbackTimeout node) := of_none rfl
theorem slotStarvation (node : Nat) : Statement (.slotStarvation node) := of_none rfl
theorem queueDeadlock (q : Nat) : Statement (.queueDeadlock q) := of_none rfl
theorem prologueRun (node : Nat) : Statement (.prologueRun node) := of_none rfl
theorem lthbWrite (node : Nat) (value : Word) : Statement (.lthbWrite node value) := of_none rfl
theorem timedStart (cell : Nat) : Statement (.timedStart cell) := of_none rfl
theorem nodeHalted (node : Nat) : Statement (.nodeHalted node) := of_none rfl
theorem graphLaunch (p : Pkt) : Statement (.graphLaunch p) := of_none rfl
theorem nodeLaunch (p : Pkt) : Statement (.nodeLaunch p) := of_none rfl
theorem signal (p : Pkt) : Statement (.signal p) := of_none rfl
theorem wait (p : Pkt) : Statement (.wait p) := of_none rfl
theorem bufferCreate (p : Pkt) : Statement (.bufferCreate p) := of_none rfl
theorem bufferDrop (p : Pkt) : Statement (.bufferDrop p) := of_none rfl
theorem bufferPublish (p : Pkt) : Statement (.bufferPublish p) := of_none rfl
theorem barrier (p : Pkt) : Statement (.barrier p) := of_none rfl
theorem timed (p : Pkt) : Statement (.timed p) := of_none rfl
theorem qcfgWrite (q : Nat) (value : Word) : Statement (.qcfgWrite q value) := of_none rfl
theorem signalWrite (sig : Nat) (value : Word) : Statement (.signalWrite sig value) := of_none rfl
theorem registerWrite (off : Nat) (value : Word) : Statement (.registerWrite off value) := of_none rfl
theorem partCreate (c : Cmd) : Statement (.partCreate c) := of_none rfl
theorem partDestroy (c : Cmd) : Statement (.partDestroy c) := of_none rfl
theorem ctxCreate (c : Cmd) : Statement (.ctxCreate c) := of_none rfl
theorem ctxDestroy (c : Cmd) : Statement (.ctxDestroy c) := of_none rfl
theorem ctxSwitch (c : Cmd) : Statement (.ctxSwitch c) := of_none rfl
theorem preempt (c : Cmd) : Statement (.preempt c) := of_none rfl
theorem map (c : Cmd) : Statement (.map c) := of_none rfl
theorem unmap (c : Cmd) : Statement (.unmap c) := of_none rfl
theorem faultReply (c : Cmd) : Statement (.faultReply c) := of_none rfl
theorem objLoad (c : Cmd) : Statement (.objLoad c) := of_none rfl
theorem objPatch (c : Cmd) : Statement (.objPatch c) := of_none rfl
theorem objUnload (c : Cmd) : Statement (.objUnload c) := of_none rfl
theorem graphCancel (c : Cmd) : Statement (.graphCancel c) := of_none rfl
theorem haltResume (c : Cmd) : Statement (.haltResume c) := of_none rfl
theorem haltDiscard (c : Cmd) : Statement (.haltDiscard c) := of_none rfl
theorem dumpArea (c : Cmd) : Statement (.dumpArea c) := of_none rfl
theorem watchDefaults (c : Cmd) : Statement (.watchDefaults c) := of_none rfl
theorem traceDefaults (c : Cmd) : Statement (.traceDefaults c) := of_none rfl
theorem stopAt (c : Cmd) : Statement (.stopAt c) := of_none rfl
theorem roleSet (c : Cmd) : Statement (.roleSet c) := of_none rfl
theorem powerSet (c : Cmd) : Statement (.powerSet c) := of_none rfl
theorem attest (c : Cmd) : Statement (.attest c) := of_none rfl
theorem fwStage (c : Cmd) : Statement (.fwStage c) := of_none rfl
theorem journalClear (c : Cmd) : Statement (.journalClear c) := of_none rfl
theorem tileFetchComplete (buf tile : Nat) : Statement (.tileFetchComplete buf tile) := of_none rfl
theorem tileEvictComplete (buf tile : Nat) : Statement (.tileEvictComplete buf tile) := of_none rfl
theorem rowCounterHalve (chip : Nat) : Statement (.rowCounterHalve chip) := of_none rfl
theorem linkFailure (chipA chipB : Nat) : Statement (.linkFailure chipA chipB) := of_none rfl
theorem dumpWrite : Statement .dumpWrite := of_none rfl
theorem scrub (chip place : Nat) (found : EccFinding) : Statement (.scrub chip place found) := of_none rfl
theorem thermalTrip (chip : Nat) : Statement (.thermalTrip chip) := of_none rfl
theorem pcieReset : Statement .pcieReset := of_none rfl
theorem powerGood (b : BootInputs) : Statement (.powerGood b) := of_none rfl
theorem nyernLinkLock (tick : Nat) : Statement (.nyernLinkLock tick) := of_none rfl
theorem tbCorrection (offset : Int) (newInc : Nat) : Statement (.tbCorrection offset newInc) := of_none rfl
theorem stopOnTick : Statement .stopOnTick := of_none rfl
theorem traceRetry (cell : Nat) : Statement (.traceRetry cell) := of_none rfl
theorem eventRingPost : Statement .eventRingPost := of_none rfl
theorem bar2Access (off len : Nat) (data : Option (List Byte)) : Statement (.bar2Access off len data) := of_none rfl
theorem i3cMctpMessage (entry : List Byte) : Statement (.i3cMctpMessage entry) := of_none rfl
theorem accessPerformed (t : PerfTarget) : Statement (.accessPerformed t) := of_none rfl
theorem l1Eviction (cell line : Nat) : Statement (.l1Eviction cell line) := of_none rfl
theorem waittickEnd (cell : Nat) : Statement (.waittickEnd cell) := of_none rfl
theorem latencyToleranceExpiry (node : Nat) : Statement (.latencyToleranceExpiry node) := of_none rfl
theorem timedPlacementOpen (node : Nat) : Statement (.timedPlacementOpen node) := of_none rfl
theorem powerLoss (tornEntry : Bool) : Statement (.powerLoss tornEntry) := of_none rfl
end Sys2Proof.Laws.ItsWord
end

