-- ==== Sys2Proof/Tests/Slice0.lean ====
section
/-! SUPPORT. Tests: decoding, well-formedness, and a witness for the hypotheses of each statement. -/

namespace Sys2Proof.Tests

open Sys2Proof Sys2Proof.Machine Sys2Proof.Claims

/-! ## Decoding: one word of every instruction, its fields laid out as R80 and R89 number them -/

/-- W0: WAIT and SIGNAL, ENG, OPC, WIDE, the operand area (R80). -/
def word (waitSig : BitVec 16) (eng : BitVec 3) (opc : BitVec 8) (wide : Bool) (area : BitVec 36) : Word :=
  waitSig ++ eng ++ opc ++ BitVec.ofBool wide ++ area
/-- The operand areas of the formats RRR and AS, RI, BR and LP (R89, R92, R93). -/
def rrrArea (d a b : BitVec 8) (ty rs fl : BitVec 4) : BitVec 36 := d ++ a ++ b ++ ty ++ rs ++ fl
def riArea (d a : BitVec 8) (imm : BitVec 20) : BitVec 36 := d ++ a ++ imm
def brArea (cond : BitVec 4) (prod : BitVec 1) (reg : BitVec 7) (off : BitVec 24) : BitVec 36 := cond ++ prod ++ reg ++ off
def lpArea (lc z : BitVec 4) (stg : BitVec 3) (rot : BitVec 1) (off : BitVec 24) : BitVec 36 := lc ++ z ++ stg ++ rot ++ off

/-- A word, its W1, and the instruction they stand for. -/
structure Row where
  w0 : Word
  w1 : Option Word
  i : Instr

/-- Every row decodes to its instruction, and the instruction is well formed and encodes to the row's words. -/
def Row.good (cls : DieClass) (r : Row) : Prop :=
  decode cls r.w0 r.w1 = .ok r.i ∧ r.i.wf cls = true ∧ encode r.i = r.w0 :: r.w1.toList

/-- R97. -/
def scalarRows1 : List Row := [
  ⟨word 0 0 0x0 false (rrrArea 0x3 0x1 0x2 0x3 0x0 0x0), none, .add ⟨⟨0, none, 0⟩, 0x3, 0x1, 0x2, 0x3, 0x0, 0x0, none⟩⟩,
  ⟨word 0 0 0x1 false (rrrArea 0x3 0x1 0x2 0x3 0x0 0x0), none, .sub ⟨⟨0, none, 0⟩, 0x3, 0x1, 0x2, 0x3, 0x0, 0x0, none⟩⟩,
  ⟨word 0 0 0x2 false (rrrArea 0x3 0x1 0x2 0x3 0x0 0x0), none, .mul ⟨⟨0, none, 0⟩, 0x3, 0x1, 0x2, 0x3, 0x0, 0x0, none⟩⟩,
  ⟨word 0 0 0x3 false (rrrArea 0x3 0x1 0x2 0x3 0x0 0x0), none, .mulh ⟨⟨0, none, 0⟩, 0x3, 0x1, 0x2, 0x3, 0x0, 0x0, none⟩⟩,
  ⟨word 0 0 0x4 false (rrrArea 0x3 0x1 0x2 0x3 0x0 0x0), none, .div ⟨⟨0, none, 0⟩, 0x3, 0x1, 0x2, 0x3, 0x0, 0x0, none⟩⟩,
  ⟨word 0 0 0x5 false (rrrArea 0x3 0x1 0x2 0x3 0x0 0x0), none, .rem ⟨⟨0, none, 0⟩, 0x3, 0x1, 0x2, 0x3, 0x0, 0x0, none⟩⟩,
  ⟨word 0 0 0x6 false (rrrArea 0x3 0x1 0x2 0x3 0x0 0x0), none, .and ⟨⟨0, none, 0⟩, 0x3, 0x1, 0x2, 0x3, 0x0, 0x0, none⟩⟩,
  ⟨word 0 0 0x7 false (rrrArea 0x3 0x1 0x2 0x3 0x0 0x0), none, .or ⟨⟨0, none, 0⟩, 0x3, 0x1, 0x2, 0x3, 0x0, 0x0, none⟩⟩,
  ⟨word 0 0 0x8 false (rrrArea 0x3 0x1 0x2 0x3 0x0 0x0), none, .xor ⟨⟨0, none, 0⟩, 0x3, 0x1, 0x2, 0x3, 0x0, 0x0, none⟩⟩,
  ⟨word 0 0 0x9 false (rrrArea 0x3 0x1 0x2 0x3 0x0 0x0), none, .andn ⟨⟨0, none, 0⟩, 0x3, 0x1, 0x2, 0x3, 0x0, 0x0, none⟩⟩,
  ⟨word 0 0 0xa false (rrrArea 0x3 0x1 0x2 0x3 0x0 0x0), none, .shl ⟨⟨0, none, 0⟩, 0x3, 0x1, 0x2, 0x3, 0x0, 0x0, none⟩⟩,
  ⟨word 0 0 0xb false (rrrArea 0x3 0x1 0x2 0x3 0x0 0x0), none, .shr ⟨⟨0, none, 0⟩, 0x3, 0x1, 0x2, 0x3, 0x0, 0x0, none⟩⟩,
  ⟨word 0 0 0xc false (rrrArea 0x3 0x1 0x2 0x3 0x0 0x0), none, .shra ⟨⟨0, none, 0⟩, 0x3, 0x1, 0x2, 0x3, 0x0, 0x0, none⟩⟩,
  ⟨word 0 0 0xd false (rrrArea 0x3 0x1 0x2 0x3 0x0 0x0), none, .min ⟨⟨0, none, 0⟩, 0x3, 0x1, 0x2, 0x3, 0x0, 0x0, none⟩⟩,
  ⟨word 0 0 0xe false (rrrArea 0x3 0x1 0x2 0x3 0x0 0x0), none, .max ⟨⟨0, none, 0⟩, 0x3, 0x1, 0x2, 0x3, 0x0, 0x0, none⟩⟩,
  ⟨word 0 0 0xf false (rrrArea 0x3 0x1 0x2 0x3 0x0 0x0), none, .seteq ⟨⟨0, none, 0⟩, 0x3, 0x1, 0x2, 0x3, 0x0, 0x0, none⟩⟩,
  ⟨word 0 0 0x10 false (rrrArea 0x3 0x1 0x2 0x3 0x0 0x0), none, .setne ⟨⟨0, none, 0⟩, 0x3, 0x1, 0x2, 0x3, 0x0, 0x0, none⟩⟩,
  ⟨word 0 0 0x11 false (rrrArea 0x3 0x1 0x2 0x3 0x0 0x0), none, .setlt ⟨⟨0, none, 0⟩, 0x3, 0x1, 0x2, 0x3, 0x0, 0x0, none⟩⟩,
  ⟨word 0 0 0x12 false (rrrArea 0x3 0x1 0x2 0x3 0x0 0x0), none, .setle ⟨⟨0, none, 0⟩, 0x3, 0x1, 0x2, 0x3, 0x0, 0x0, none⟩⟩,
  ⟨word 0 1 0x13 false (rrrArea 0x3 0x1 0x2 0x0 0x0 0x0), none, .sel ⟨⟨0, none, 1⟩, 0x3, 0x1, 0x2, 0x0, 0x0, 0x0, none⟩⟩,
  ⟨word 0 0 0x14 false (rrrArea 0x3 0x1 0x0 0x5 0x0 0x0), none, .clz ⟨⟨0, none, 0⟩, 0x3, 0x1, 0x0, 0x5, 0x0, 0x0, none⟩⟩,
  ⟨word 0 0 0x15 false (rrrArea 0x3 0x1 0x0 0x5 0x0 0x0), none, .popc ⟨⟨0, none, 0⟩, 0x3, 0x1, 0x0, 0x5, 0x0, 0x0, none⟩⟩,
  ⟨word 0 1 0x16 false (rrrArea 0x3 0x1 0x2 0x0 0x0 0x0), none, .bfx ⟨⟨0, none, 1⟩, 0x3, 0x1, 0x2, 0x0, 0x0, 0x0, none⟩⟩,
  ⟨word 0 1 0x17 false (rrrArea 0x3 0x1 0x2 0x0 0x0 0x0), none, .bfi ⟨⟨0, none, 1⟩, 0x3, 0x1, 0x2, 0x0, 0x0, 0x0, none⟩⟩,
  ⟨word 0 1 0x18 false (rrrArea 0x3 0x1 0x2 0x0 0x0 0x0), none, .addsc ⟨⟨0, none, 1⟩, 0x3, 0x1, 0x2, 0x0, 0x0, 0x0, none⟩⟩,
  ⟨word 0 0 0x19 false (rrrArea 0x3 0x1 0x2 0x0 0x2 0x1), none, .cvta ⟨⟨0, none, 0⟩, 0x3, 0x1, 0x2, 0x0, 0x2, 0x1, none⟩⟩,
  ⟨word 0 0 0x1a false (rrrArea 0x3 0x1 0x0 0x0 0x0 0x0), none, .aptest ⟨⟨0, none, 0⟩, 0x3, 0x1, 0x0, 0x0, 0x0, 0x0, none⟩⟩,
  ⟨word 0 0 0x1b false (rrrArea 0x3 0x1 0x0 0x0 0x0 0x0), none, .lcset ⟨⟨0, none, 0⟩, 0x3, 0x1, 0x0, 0x0, 0x0, 0x0, none⟩⟩]

theorem test_scalarRows1 : ∀ r ∈ scalarRows1, Row.good .dmx r := by simp only [scalarRows1, List.forall_mem_cons, List.not_mem_nil, false_implies, implies_true, and_true]; exact ⟨⟨rfl, rfl, rfl⟩, ⟨rfl, rfl, rfl⟩, ⟨rfl, rfl, rfl⟩, ⟨rfl, rfl, rfl⟩, ⟨rfl, rfl, rfl⟩, ⟨rfl, rfl, rfl⟩, ⟨rfl, rfl, rfl⟩, ⟨rfl, rfl, rfl⟩, ⟨rfl, rfl, rfl⟩, ⟨rfl, rfl, rfl⟩, ⟨rfl, rfl, rfl⟩, ⟨rfl, rfl, rfl⟩, ⟨rfl, rfl, rfl⟩, ⟨rfl, rfl, rfl⟩, ⟨rfl, rfl, rfl⟩, ⟨rfl, rfl, rfl⟩, ⟨rfl, rfl, rfl⟩, ⟨rfl, rfl, rfl⟩, ⟨rfl, rfl, rfl⟩, ⟨rfl, rfl, rfl⟩, ⟨rfl, rfl, rfl⟩, ⟨rfl, rfl, rfl⟩, ⟨rfl, rfl, rfl⟩, ⟨rfl, rfl, rfl⟩, ⟨rfl, rfl, rfl⟩, ⟨rfl, rfl, rfl⟩, ⟨rfl, rfl, rfl⟩, ⟨rfl, rfl, rfl⟩⟩

/-- R97. -/
def scalarRows2 : List Row := [
  ⟨word 0 1 0x40 false (riArea 0x3 0x1 0x12345), none, .addRi ⟨⟨0, none, 1⟩, 0x3, 0x1, 0x12345, none⟩⟩,
  ⟨word 0 1 0x46 false (riArea 0x3 0x1 0x12345), none, .andRi ⟨⟨0, none, 1⟩, 0x3, 0x1, 0x12345, none⟩⟩,
  ⟨word 0 1 0x47 false (riArea 0x3 0x1 0x12345), none, .orRi ⟨⟨0, none, 1⟩, 0x3, 0x1, 0x12345, none⟩⟩,
  ⟨word 0 1 0x4a false (riArea 0x3 0x1 0x12345), none, .shlRi ⟨⟨0, none, 1⟩, 0x3, 0x1, 0x12345, none⟩⟩,
  ⟨word 0 1 0x4b false (riArea 0x3 0x1 0x12345), none, .shrRi ⟨⟨0, none, 1⟩, 0x3, 0x1, 0x12345, none⟩⟩,
  ⟨word 0 1 0x51 false (riArea 0x3 0x1 0x12345), none, .setltRi ⟨⟨0, none, 1⟩, 0x3, 0x1, 0x12345, none⟩⟩,
  ⟨word 0 0 0x5f false (riArea 0x3 0x0 0x12345), none, .li ⟨⟨0, none, 0⟩, 0x3, 0x0, 0x12345, none⟩⟩]

theorem test_scalarRows2 : ∀ r ∈ scalarRows2, Row.good .dmx r := by simp only [scalarRows2, List.forall_mem_cons, List.not_mem_nil, false_implies, implies_true, and_true]; exact ⟨⟨rfl, rfl, rfl⟩, ⟨rfl, rfl, rfl⟩, ⟨rfl, rfl, rfl⟩, ⟨rfl, rfl, rfl⟩, ⟨rfl, rfl, rfl⟩, ⟨rfl, rfl, rfl⟩, ⟨rfl, rfl, rfl⟩⟩

/-- R98. -/
def controlRows : List Row := [
  ⟨word 0 0 0x80 false (riArea 0x0 0x1 0x12345), none, .trap ⟨⟨0, none, 0⟩, 0x0, 0x1, 0x12345, none⟩⟩,
  ⟨word 0 0 0x81 false (riArea 0x0 0x0 0x0), none, .eret ⟨⟨0, none, 0⟩, 0x0, 0x0, 0x0, none⟩⟩,
  ⟨word 0 0 0x82 false (riArea 0x3 0x0 0x1), none, .csrr ⟨⟨0, none, 0⟩, 0x3, 0x0, 0x1, none⟩⟩,
  ⟨word 0 0 0x83 false (riArea 0x3 0x1 0x11), none, .csrw ⟨⟨0, none, 0⟩, 0x3, 0x1, 0x11, none⟩⟩,
  ⟨word 0 0 0x84 false (riArea 0x3 0x1 0x11), none, .csrs ⟨⟨0, none, 0⟩, 0x3, 0x1, 0x11, none⟩⟩,
  ⟨word 0 0 0x85 false (riArea 0x3 0x1 0x11), none, .csrc ⟨⟨0, none, 0⟩, 0x3, 0x1, 0x11, none⟩⟩,
  ⟨word 0 0 0x86 false (rrrArea 0x3 0x0 0x0 0x0 0x0 0x0), none, .tick ⟨⟨0, none, 0⟩, 0x3, 0x0, 0x0, 0x0, 0x0, 0x0, none⟩⟩,
  ⟨word 0 0 0x87 false (rrrArea 0x0 0x1 0x0 0x0 0x0 0x0), none, .waittick ⟨⟨0, none, 0⟩, 0x0, 0x1, 0x0, 0x0, 0x0, 0x0, none⟩⟩,
  ⟨word 0 0 0x88 false (rrrArea 0x0 0x0 0x0 0x0 0x0 0x0), none, .halt ⟨⟨0, none, 0⟩, 0x0, 0x0, 0x0, 0x0, 0x0, 0x0, none⟩⟩,
  ⟨word 0 0 0x89 false (rrrArea 0x0 0x1 0x2 0x0 0x0 0x0), none, .icinv ⟨⟨0, none, 0⟩, 0x0, 0x1, 0x2, 0x0, 0x0, 0x0, none⟩⟩,
  ⟨word 0 0 0x8a false (rrrArea 0x0 0x1 0x2 0x0 0x0 0x0), none, .tlbinv ⟨⟨0, none, 0⟩, 0x0, 0x1, 0x2, 0x0, 0x0, 0x0, none⟩⟩,
  ⟨word 0 0 0x8b false (riArea 0x0 0x0 0x12345), none, .bkpt ⟨⟨0, none, 0⟩, 0x0, 0x0, 0x12345, none⟩⟩,
  ⟨word 0 0 0x8c false (riArea 0x3 0x0 0x1f), none, .watch ⟨⟨0, none, 0⟩, 0x3, 0x0, 0x1f, none⟩⟩,
  ⟨word 0 0 0x8d false (riArea 0x0 0x0 0x0), none, .pendGo ⟨⟨0, none, 0⟩, 0x0, 0x0, 0x0, none⟩⟩,
  ⟨word 0 0 0x8d false (riArea 0x0 0x0 0x1), none, .pendCancel ⟨⟨0, none, 0⟩, 0x0, 0x0, 0x1, none⟩⟩,
  ⟨word 0 0 0x8d false (riArea 0x0 0x1 0x2), none, .pendRepeat ⟨⟨0, none, 0⟩, 0x0, 0x1, 0x2, none⟩⟩,
  ⟨word 0 0 0x8e false (riArea 0x3 0x1 0x0), none, .echo ⟨⟨0, none, 0⟩, 0x3, 0x1, 0x0, none⟩⟩,
  ⟨word 0 0 0x8e false (riArea 0x3 0x1 0x1), none, .discver ⟨⟨0, none, 0⟩, 0x3, 0x1, 0x1, none⟩⟩,
  ⟨word 0 0 0x8e false (riArea 0x3 0x1 0x2), none, .mark ⟨⟨0, none, 0⟩, 0x3, 0x1, 0x2, none⟩⟩,
  ⟨word 0 0 0x8e false (riArea 0x3 0x1 0xff), none, .fwsvcUndefined ⟨⟨0, none, 0⟩, 0x3, 0x1, 0xff, none⟩⟩,
  ⟨word 0 0 0x8f false (rrrArea 0x0 0x1 0x0 0x0 0x0 0x0), none, .out ⟨⟨0, none, 0⟩, 0x0, 0x1, 0x0, 0x0, 0x0, 0x0, none⟩⟩,
  ⟨word 0 0 0xc0 false (rrrArea 0x0 0x1 0x0 0x0 0x0 0x0), none, .mset ⟨⟨0, none, 0⟩, 0x0, 0x1, 0x0, 0x0, 0x0, 0x0, none⟩⟩,
  ⟨word 0 0 0xc1 false (rrrArea 0x0 0x1 0x2 0x0 0x0 0x0), none, .mopd ⟨⟨0, none, 0⟩, 0x0, 0x1, 0x2, 0x0, 0x0, 0x0, none⟩⟩,
  ⟨word 0 0 0xc2 false (rrrArea 0x0 0x1 0x2 0x0 0x0 0x0), none, .mscale ⟨⟨0, none, 0⟩, 0x0, 0x1, 0x2, 0x0, 0x0, 0x0, none⟩⟩,
  ⟨word 0 0 0xc3 false (rrrArea 0x0 0x1 0x0 0x0 0x0 0x0), none, .rtt ⟨⟨0, none, 0⟩, 0x0, 0x1, 0x0, 0x0, 0x0, 0x0, none⟩⟩]

theorem test_controlRows : ∀ r ∈ controlRows, Row.good .dmx r := by simp only [controlRows, List.forall_mem_cons, List.not_mem_nil, false_implies, implies_true, and_true]; exact ⟨⟨rfl, rfl, rfl⟩, ⟨rfl, rfl, rfl⟩, ⟨rfl, rfl, rfl⟩, ⟨rfl, rfl, rfl⟩, ⟨rfl, rfl, rfl⟩, ⟨rfl, rfl, rfl⟩, ⟨rfl, rfl, rfl⟩, ⟨rfl, rfl, rfl⟩, ⟨rfl, rfl, rfl⟩, ⟨rfl, rfl, rfl⟩, ⟨rfl, rfl, rfl⟩, ⟨rfl, rfl, rfl⟩, ⟨rfl, rfl, rfl⟩, ⟨rfl, rfl, rfl⟩, ⟨rfl, rfl, rfl⟩, ⟨rfl, rfl, rfl⟩, ⟨rfl, rfl, rfl⟩, ⟨rfl, rfl, rfl⟩, ⟨rfl, rfl, rfl⟩, ⟨rfl, rfl, rfl⟩, ⟨rfl, rfl, rfl⟩, ⟨rfl, rfl, rfl⟩, ⟨rfl, rfl, rfl⟩, ⟨rfl, rfl, rfl⟩, ⟨rfl, rfl, rfl⟩⟩

/-- R99: accesses, rings, atomics, ordering. -/
def memoryRows : List Row := [
  ⟨word 0 1 0x60 false (rrrArea 0x3 0x1 0x2 0x2 0x4 0x1), none, .ld ⟨⟨0, none, 1⟩, 0x3, 0x1, 0x2, 0x2, 0x4, 0x1, none⟩⟩,
  ⟨word 0 1 0x61 false (rrrArea 0x3 0x1 0x2 0x2 0x4 0x1), none, .st ⟨⟨0, none, 1⟩, 0x3, 0x1, 0x2, 0x2, 0x4, 0x1, none⟩⟩,
  ⟨word 0 1 0x62 false (rrrArea 0x3 0x1 0x2 0x2 0x0 0x1), none, .lds ⟨⟨0, none, 1⟩, 0x3, 0x1, 0x2, 0x2, 0x0, 0x1, none⟩⟩,
  ⟨word 0 1 0x63 false (rrrArea 0x3 0x1 0x2 0x2 0x0 0x1), none, .sts ⟨⟨0, none, 1⟩, 0x3, 0x1, 0x2, 0x2, 0x0, 0x1, none⟩⟩,
  ⟨word 0 1 0x68 false (rrrArea 0x0 0x1 0x2 0x0 0x5 0x1), none, .rclaimCfg ⟨⟨0, none, 1⟩, 0x0, 0x1, 0x2, 0x0, 0x5, 0x1, none⟩⟩,
  ⟨word 0 1 0x68 false (rrrArea 0x3 0x0 0x0 0x0 0x5 0x0), none, .rclaim ⟨⟨0, none, 1⟩, 0x3, 0x0, 0x0, 0x0, 0x5, 0x0, none⟩⟩,
  ⟨word 0 1 0x69 false (rrrArea 0x0 0x0 0x0 0x0 0x5 0x0), none, .rcommit ⟨⟨0, none, 1⟩, 0x0, 0x0, 0x0, 0x0, 0x5, 0x0, none⟩⟩,
  ⟨word 0 1 0x6b false (rrrArea 0x0 0x0 0x0 0x0 0x5 0x0), none, .rdone ⟨⟨0, none, 1⟩, 0x0, 0x0, 0x0, 0x0, 0x5, 0x0, none⟩⟩,
  ⟨word 0 1 0x6a false (rrrArea 0x3 0x0 0x0 0x0 0x5 0x0), none, .rtake ⟨⟨0, none, 1⟩, 0x3, 0x0, 0x0, 0x0, 0x5, 0x0, none⟩⟩,
  ⟨word 0 1 0x6c false (rrrArea 0x0 0x1 0x0 0x0 0x5 0x0), none, .waitfill ⟨⟨0, none, 1⟩, 0x0, 0x1, 0x0, 0x0, 0x5, 0x0, none⟩⟩,
  ⟨word 0 1 0x6d false (rrrArea 0x0 0x1 0x0 0x0 0x5 0x0), none, .waitfree ⟨⟨0, none, 1⟩, 0x0, 0x1, 0x0, 0x0, 0x5, 0x0, none⟩⟩,
  ⟨word 0 1 0x70 false (rrrArea 0x3 0x1 0x2 0x2 0x2 0x2), none, .atomAdd ⟨⟨0, none, 1⟩, 0x3, 0x1, 0x2, 0x2, 0x2, 0x2, none⟩⟩,
  ⟨word 0 1 0x71 false (rrrArea 0x3 0x1 0x2 0x2 0x2 0x2), none, .atomAnd ⟨⟨0, none, 1⟩, 0x3, 0x1, 0x2, 0x2, 0x2, 0x2, none⟩⟩,
  ⟨word 0 1 0x72 false (rrrArea 0x3 0x1 0x2 0x2 0x2 0x2), none, .atomOr ⟨⟨0, none, 1⟩, 0x3, 0x1, 0x2, 0x2, 0x2, 0x2, none⟩⟩,
  ⟨word 0 1 0x73 false (rrrArea 0x3 0x1 0x2 0x2 0x2 0x2), none, .atomXor ⟨⟨0, none, 1⟩, 0x3, 0x1, 0x2, 0x2, 0x2, 0x2, none⟩⟩,
  ⟨word 0 1 0x74 false (rrrArea 0x3 0x1 0x2 0x2 0x2 0x2), none, .atomMin ⟨⟨0, none, 1⟩, 0x3, 0x1, 0x2, 0x2, 0x2, 0x2, none⟩⟩,
  ⟨word 0 1 0x75 false (rrrArea 0x3 0x1 0x2 0x2 0x2 0x2), none, .atomMax ⟨⟨0, none, 1⟩, 0x3, 0x1, 0x2, 0x2, 0x2, 0x2, none⟩⟩,
  ⟨word 0 1 0x76 false (rrrArea 0x3 0x1 0x2 0x2 0x2 0x2), none, .atomExch ⟨⟨0, none, 1⟩, 0x3, 0x1, 0x2, 0x2, 0x2, 0x2, none⟩⟩,
  ⟨word 0 1 0x77 false (rrrArea 0x4 0x1 0x2 0x2 0x2 0x0), none, .atomCas ⟨⟨0, none, 1⟩, 0x4, 0x1, 0x2, 0x2, 0x2, 0x0, none⟩⟩,
  ⟨word 0 1 0x78 false (rrrArea 0x4 0x1 0x2 0x3 0x2 0x0), none, .atomIncw ⟨⟨0, none, 1⟩, 0x4, 0x1, 0x2, 0x3, 0x2, 0x0, none⟩⟩,
  ⟨word 0 1 0x79 false (rrrArea 0x4 0x1 0x2 0x3 0x2 0x0), none, .atomDecw ⟨⟨0, none, 1⟩, 0x4, 0x1, 0x2, 0x3, 0x2, 0x0, none⟩⟩,
  ⟨word 0 1 0x7a false (rrrArea 0x4 0x1 0x2 0x3 0x2 0x0), none, .atomFaddb ⟨⟨0, none, 1⟩, 0x4, 0x1, 0x2, 0x3, 0x2, 0x0, none⟩⟩,
  ⟨word 0 1 0x80 false (rrrArea 0x0 0x0 0x0 0x0 0x4 0x0), none, .phase ⟨⟨0, none, 1⟩, 0x0, 0x0, 0x0, 0x0, 0x4, 0x0, none⟩⟩,
  ⟨word 0 1 0x81 false (rrrArea 0x0 0x0 0x0 0x0 0x4 0x0), none, .rel ⟨⟨0, none, 1⟩, 0x0, 0x0, 0x0, 0x0, 0x4, 0x0, none⟩⟩,
  ⟨word 0 1 0x82 false (rrrArea 0x0 0x0 0x0 0x0 0x4 0x0), none, .acq ⟨⟨0, none, 1⟩, 0x0, 0x0, 0x0, 0x0, 0x4, 0x0, none⟩⟩,
  ⟨word 0 1 0x83 false (rrrArea 0x0 0x0 0x0 0x0 0x1 0x0), none, .barDie ⟨⟨0, none, 1⟩, 0x0, 0x0, 0x0, 0x0, 0x1, 0x0, none⟩⟩,
  ⟨word 0 1 0x83 false (rrrArea 0x0 0x0 0x0 0x0 0x5 0x1), none, .barNode ⟨⟨0, none, 1⟩, 0x0, 0x0, 0x0, 0x0, 0x5, 0x1, none⟩⟩,
  ⟨word 0 1 0x84 false (rrrArea 0x0 0x0 0x0 0x0 0x6 0x0), none, .publish ⟨⟨0, none, 1⟩, 0x0, 0x0, 0x0, 0x0, 0x6, 0x0, none⟩⟩]

theorem test_memoryRows : ∀ r ∈ memoryRows, Row.good .dmx r := by simp only [memoryRows, List.forall_mem_cons, List.not_mem_nil, false_implies, implies_true, and_true]; exact ⟨⟨rfl, rfl, rfl⟩, ⟨rfl, rfl, rfl⟩, ⟨rfl, rfl, rfl⟩, ⟨rfl, rfl, rfl⟩, ⟨rfl, rfl, rfl⟩, ⟨rfl, rfl, rfl⟩, ⟨rfl, rfl, rfl⟩, ⟨rfl, rfl, rfl⟩, ⟨rfl, rfl, rfl⟩, ⟨rfl, rfl, rfl⟩, ⟨rfl, rfl, rfl⟩, ⟨rfl, rfl, rfl⟩, ⟨rfl, rfl, rfl⟩, ⟨rfl, rfl, rfl⟩, ⟨rfl, rfl, rfl⟩, ⟨rfl, rfl, rfl⟩, ⟨rfl, rfl, rfl⟩, ⟨rfl, rfl, rfl⟩, ⟨rfl, rfl, rfl⟩, ⟨rfl, rfl, rfl⟩, ⟨rfl, rfl, rfl⟩, ⟨rfl, rfl, rfl⟩, ⟨rfl, rfl, rfl⟩, ⟨rfl, rfl, rfl⟩, ⟨rfl, rfl, rfl⟩, ⟨rfl, rfl, rfl⟩, ⟨rfl, rfl, rfl⟩, ⟨rfl, rfl, rfl⟩⟩

/-- R99: asynchronous and capability words. -/
def asyncRows : List Row := [
  ⟨word 0 1 0x90 true (rrrArea 0x3 0x1 0x2 0x0 0x0 0x0), some 0x0, .copy ⟨⟨0, none, 1⟩, 0x3, 0x1, 0x2, 0x0, 0x0, 0x0, (some ⟨0x0, 0x0⟩)⟩⟩,
  ⟨word 0 1 0x91 true (rrrArea 0x3 0x1 0x2 0x0 0x0 0x0), some 0x0, .copyThIn ⟨⟨0, none, 1⟩, 0x3, 0x1, 0x2, 0x0, 0x0, 0x0, (some ⟨0x0, 0x0⟩)⟩⟩,
  ⟨word 0 1 0x91 true (rrrArea 0x3 0x1 0x2 0x0 0x0 0x8), some 0x0, .copyThOut ⟨⟨0, none, 1⟩, 0x3, 0x1, 0x2, 0x0, 0x0, 0x8, (some ⟨0x0, 0x0⟩)⟩⟩,
  ⟨word 0 1 0x92 true (rrrArea 0x0 0x1 0x0 0x0 0x0 0x0), some 0x98000007, .copym ⟨⟨0, none, 1⟩, 0x0, 0x1, 0x0, 0x0, 0x0, 0x0, (some ⟨0x0, 0x98000007⟩)⟩⟩,
  ⟨word 0 1 0x93 true (rrrArea 0x3 0x1 0x2 0x3 0x0 0x0), some 0x0, .gather ⟨⟨0, none, 1⟩, 0x3, 0x1, 0x2, 0x3, 0x0, 0x0, (some ⟨0x0, 0x0⟩)⟩⟩,
  ⟨word 0 1 0x94 true (rrrArea 0x3 0x1 0x2 0x2 0x2 0x1), some 0x0, .scatter ⟨⟨0, none, 1⟩, 0x3, 0x1, 0x2, 0x2, 0x2, 0x1, (some ⟨0x0, 0x0⟩)⟩⟩,
  ⟨word 0 1 0x95 true (rrrArea 0x0 0x1 0x2 0x0 0x1 0x0), some 0x0, .prefetch ⟨⟨0, none, 1⟩, 0x0, 0x1, 0x2, 0x0, 0x1, 0x0, (some ⟨0x0, 0x0⟩)⟩⟩,
  ⟨word 0 1 0x96 true (rrrArea 0x0 0x0 0x0 0x0 0x1 0x0), some 0x0, .thfence ⟨⟨0, none, 1⟩, 0x0, 0x0, 0x0, 0x0, 0x1, 0x0, (some ⟨0x0, 0x0⟩)⟩⟩,
  ⟨word 0 1 0xa0 false (rrrArea 0x3 0x0 0x0 0x0 0x7 0x3), none, .capopen ⟨⟨0, none, 1⟩, 0x3, 0x0, 0x0, 0x0, 0x7, 0x3, none⟩⟩,
  ⟨word 0 1 0xa1 false (rrrArea 0x0 0x1 0x0 0x0 0x7 0x3), none, .capgive ⟨⟨0, none, 1⟩, 0x0, 0x1, 0x0, 0x0, 0x7, 0x3, none⟩⟩,
  ⟨word 0 1 0xa2 false (rrrArea 0x0 0x1 0x0 0x0 0x7 0x3), none, .capdup ⟨⟨0, none, 1⟩, 0x0, 0x1, 0x0, 0x0, 0x7, 0x3, none⟩⟩,
  ⟨word 0 1 0xa3 false (rrrArea 0x0 0x0 0x0 0x0 0x7 0x0), none, .capdrop ⟨⟨0, none, 1⟩, 0x0, 0x0, 0x0, 0x0, 0x7, 0x0, none⟩⟩]

theorem test_asyncRows : ∀ r ∈ asyncRows, Row.good .dmx r := by simp only [asyncRows, List.forall_mem_cons, List.not_mem_nil, false_implies, implies_true, and_true]; exact ⟨⟨rfl, rfl, rfl⟩, ⟨rfl, rfl, rfl⟩, ⟨rfl, rfl, rfl⟩, ⟨rfl, rfl, rfl⟩, ⟨rfl, rfl, rfl⟩, ⟨rfl, rfl, rfl⟩, ⟨rfl, rfl, rfl⟩, ⟨rfl, rfl, rfl⟩, ⟨rfl, rfl, rfl⟩, ⟨rfl, rfl, rfl⟩, ⟨rfl, rfl, rfl⟩, ⟨rfl, rfl, rfl⟩⟩

/-- R100. -/
def vectorRows1 : List Row := [
  ⟨word 0 2 0x0 false (rrrArea 0x3 0x1 0x2 0x9 0x4 0x7), none, .fadd ⟨⟨0, none, 2⟩, 0x3, 0x1, 0x2, 0x9, 0x4, 0x7, none⟩⟩,
  ⟨word 0 2 0x1 false (rrrArea 0x3 0x1 0x2 0x9 0x4 0x7), none, .fsub ⟨⟨0, none, 2⟩, 0x3, 0x1, 0x2, 0x9, 0x4, 0x7, none⟩⟩,
  ⟨word 0 2 0x2 false (rrrArea 0x3 0x1 0x2 0x9 0x4 0x7), none, .fmul ⟨⟨0, none, 2⟩, 0x3, 0x1, 0x2, 0x9, 0x4, 0x7, none⟩⟩,
  ⟨word 0 2 0x3 false (rrrArea 0x3 0x1 0x2 0x9 0x4 0x7), none, .fdiv ⟨⟨0, none, 2⟩, 0x3, 0x1, 0x2, 0x9, 0x4, 0x7, none⟩⟩,
  ⟨word 0 2 0x4 false (rrrArea 0x3 0x1 0x0 0x9 0x4 0x7), none, .fsqrt ⟨⟨0, none, 2⟩, 0x3, 0x1, 0x0, 0x9, 0x4, 0x7, none⟩⟩,
  ⟨word 0 2 0x5 false (rrrArea 0x3 0x1 0x2 0x9 0x3 0x7), none, .fma ⟨⟨0, none, 2⟩, 0x3, 0x1, 0x2, 0x9, 0x3, 0x7, none⟩⟩,
  ⟨word 0 2 0x6 false (rrrArea 0x3 0x1 0x2 0x9 0x3 0x7), none, .fms ⟨⟨0, none, 2⟩, 0x3, 0x1, 0x2, 0x9, 0x3, 0x7, none⟩⟩,
  ⟨word 0 2 0x7 false (rrrArea 0x3 0x1 0x2 0x8 0x0 0x7), none, .fmin ⟨⟨0, none, 2⟩, 0x3, 0x1, 0x2, 0x8, 0x0, 0x7, none⟩⟩,
  ⟨word 0 2 0x8 false (rrrArea 0x3 0x1 0x2 0x8 0x0 0x7), none, .fmax ⟨⟨0, none, 2⟩, 0x3, 0x1, 0x2, 0x8, 0x0, 0x7, none⟩⟩,
  ⟨word 0 2 0x9 false (rrrArea 0x3 0x1 0x0 0xb 0x0 0x7), none, .fabs ⟨⟨0, none, 2⟩, 0x3, 0x1, 0x0, 0xb, 0x0, 0x7, none⟩⟩,
  ⟨word 0 2 0xa false (rrrArea 0x3 0x1 0x0 0xb 0x0 0x7), none, .fneg ⟨⟨0, none, 2⟩, 0x3, 0x1, 0x0, 0xb, 0x0, 0x7, none⟩⟩,
  ⟨word 0 2 0xb false (rrrArea 0x3 0x1 0x2 0x9 0x5 0x7), none, .fcmp ⟨⟨0, none, 2⟩, 0x3, 0x1, 0x2, 0x9, 0x5, 0x7, none⟩⟩,
  ⟨word 0 2 0x10 false (rrrArea 0x3 0x1 0x2 0x4 0x0 0x1), none, .iadd ⟨⟨0, none, 2⟩, 0x3, 0x1, 0x2, 0x4, 0x0, 0x1, none⟩⟩,
  ⟨word 0 2 0x11 false (rrrArea 0x3 0x1 0x2 0x4 0x0 0x1), none, .isub ⟨⟨0, none, 2⟩, 0x3, 0x1, 0x2, 0x4, 0x0, 0x1, none⟩⟩,
  ⟨word 0 2 0x12 false (rrrArea 0x3 0x1 0x2 0x4 0x0 0x1), none, .imul ⟨⟨0, none, 2⟩, 0x3, 0x1, 0x2, 0x4, 0x0, 0x1, none⟩⟩,
  ⟨word 0 2 0x13 false (rrrArea 0x3 0x1 0x2 0x4 0x0 0x1), none, .imulh ⟨⟨0, none, 2⟩, 0x3, 0x1, 0x2, 0x4, 0x0, 0x1, none⟩⟩,
  ⟨word 0 2 0x14 false (rrrArea 0x3 0x1 0x2 0x4 0x0 0x1), none, .imin ⟨⟨0, none, 2⟩, 0x3, 0x1, 0x2, 0x4, 0x0, 0x1, none⟩⟩,
  ⟨word 0 2 0x15 false (rrrArea 0x3 0x1 0x2 0x4 0x0 0x1), none, .imax ⟨⟨0, none, 2⟩, 0x3, 0x1, 0x2, 0x4, 0x0, 0x1, none⟩⟩,
  ⟨word 0 2 0x16 false (rrrArea 0x3 0x1 0x2 0x4 0x0 0x1), none, .iand ⟨⟨0, none, 2⟩, 0x3, 0x1, 0x2, 0x4, 0x0, 0x1, none⟩⟩,
  ⟨word 0 2 0x17 false (rrrArea 0x3 0x1 0x2 0x4 0x0 0x1), none, .ior ⟨⟨0, none, 2⟩, 0x3, 0x1, 0x2, 0x4, 0x0, 0x1, none⟩⟩,
  ⟨word 0 2 0x18 false (rrrArea 0x3 0x1 0x2 0x4 0x0 0x1), none, .ixor ⟨⟨0, none, 2⟩, 0x3, 0x1, 0x2, 0x4, 0x0, 0x1, none⟩⟩,
  ⟨word 0 2 0x19 false (rrrArea 0x3 0x1 0x2 0x4 0x0 0x1), none, .ishl ⟨⟨0, none, 2⟩, 0x3, 0x1, 0x2, 0x4, 0x0, 0x1, none⟩⟩,
  ⟨word 0 2 0x1a false (rrrArea 0x3 0x1 0x2 0x4 0x0 0x1), none, .ishr ⟨⟨0, none, 2⟩, 0x3, 0x1, 0x2, 0x4, 0x0, 0x1, none⟩⟩,
  ⟨word 0 2 0x1b false (rrrArea 0x3 0x1 0x2 0x4 0x0 0x1), none, .ishra ⟨⟨0, none, 2⟩, 0x3, 0x1, 0x2, 0x4, 0x0, 0x1, none⟩⟩,
  ⟨word 0 2 0x1c false (rrrArea 0x3 0x1 0x2 0x4 0x5 0x1), none, .icmp ⟨⟨0, none, 2⟩, 0x3, 0x1, 0x2, 0x4, 0x5, 0x1, none⟩⟩,
  ⟨word 0 2 0x1d false (rrrArea 0x3 0x1 0x0 0x4 0x0 0x1), none, .iabs ⟨⟨0, none, 2⟩, 0x3, 0x1, 0x0, 0x4, 0x0, 0x1, none⟩⟩,
  ⟨word 0 2 0x20 false (rrrArea 0x3 0x1 0x2 0x2 0x0 0x9), none, .vsel ⟨⟨0, none, 2⟩, 0x3, 0x1, 0x2, 0x2, 0x0, 0x9, none⟩⟩,
  ⟨word 0 2 0x21 false (rrrArea 0x3 0x1 0x2 0x0 0x0 0x0), none, .kand ⟨⟨0, none, 2⟩, 0x3, 0x1, 0x2, 0x0, 0x0, 0x0, none⟩⟩]

theorem test_vectorRows1 : ∀ r ∈ vectorRows1, Row.good .vec r := by simp only [vectorRows1, List.forall_mem_cons, List.not_mem_nil, false_implies, implies_true, and_true]; exact ⟨⟨rfl, rfl, rfl⟩, ⟨rfl, rfl, rfl⟩, ⟨rfl, rfl, rfl⟩, ⟨rfl, rfl, rfl⟩, ⟨rfl, rfl, rfl⟩, ⟨rfl, rfl, rfl⟩, ⟨rfl, rfl, rfl⟩, ⟨rfl, rfl, rfl⟩, ⟨rfl, rfl, rfl⟩, ⟨rfl, rfl, rfl⟩, ⟨rfl, rfl, rfl⟩, ⟨rfl, rfl, rfl⟩, ⟨rfl, rfl, rfl⟩, ⟨rfl, rfl, rfl⟩, ⟨rfl, rfl, rfl⟩, ⟨rfl, rfl, rfl⟩, ⟨rfl, rfl, rfl⟩, ⟨rfl, rfl, rfl⟩, ⟨rfl, rfl, rfl⟩, ⟨rfl, rfl, rfl⟩, ⟨rfl, rfl, rfl⟩, ⟨rfl, rfl, rfl⟩, ⟨rfl, rfl, rfl⟩, ⟨rfl, rfl, rfl⟩, ⟨rfl, rfl, rfl⟩, ⟨rfl, rfl, rfl⟩, ⟨rfl, rfl, rfl⟩, ⟨rfl, rfl, rfl⟩⟩

/-- R100. -/
def vectorRows2 : List Row := [
  ⟨word 0 2 0x22 false (rrrArea 0x3 0x1 0x2 0x0 0x0 0x0), none, .kor ⟨⟨0, none, 2⟩, 0x3, 0x1, 0x2, 0x0, 0x0, 0x0, none⟩⟩,
  ⟨word 0 2 0x23 false (rrrArea 0x3 0x1 0x2 0x0 0x0 0x0), none, .kxor ⟨⟨0, none, 2⟩, 0x3, 0x1, 0x2, 0x0, 0x0, 0x0, none⟩⟩,
  ⟨word 0 2 0x24 false (rrrArea 0x3 0x1 0x0 0x0 0x0 0x0), none, .knot ⟨⟨0, none, 2⟩, 0x3, 0x1, 0x0, 0x0, 0x0, 0x0, none⟩⟩,
  ⟨word 0 2 0x25 false (rrrArea 0x3 0x1 0x0 0x2 0x0 0x1), none, .movV ⟨⟨0, none, 2⟩, 0x3, 0x1, 0x0, 0x2, 0x0, 0x1, none⟩⟩,
  ⟨word 0 2 0x28 false (rrrArea 0x3 0x1 0x2 0x2 0x0 0x1), none, .rotr ⟨⟨0, none, 2⟩, 0x3, 0x1, 0x2, 0x2, 0x0, 0x1, none⟩⟩,
  ⟨word 0 2 0x29 false (rrrArea 0x3 0x1 0x2 0x2 0x0 0x1), none, .rotc ⟨⟨0, none, 2⟩, 0x3, 0x1, 0x2, 0x2, 0x0, 0x1, none⟩⟩,
  ⟨word 0 2 0x2a false (rrrArea 0x3 0x1 0x2 0x2 0x0 0x1), none, .bcr ⟨⟨0, none, 2⟩, 0x3, 0x1, 0x2, 0x2, 0x0, 0x1, none⟩⟩,
  ⟨word 0 2 0x2b false (rrrArea 0x3 0x1 0x2 0x2 0x0 0x1), none, .bcc ⟨⟨0, none, 2⟩, 0x3, 0x1, 0x2, 0x2, 0x0, 0x1, none⟩⟩,
  ⟨word 0 2 0x2c false (rrrArea 0x3 0x1 0x0 0x2 0x1 0x1), none, .redr ⟨⟨0, none, 2⟩, 0x3, 0x1, 0x0, 0x2, 0x1, 0x1, none⟩⟩,
  ⟨word 0 2 0x2d false (rrrArea 0x3 0x1 0x0 0x2 0x1 0x1), none, .redc ⟨⟨0, none, 2⟩, 0x3, 0x1, 0x0, 0x2, 0x1, 0x1, none⟩⟩,
  ⟨word 0 2 0x2e false (rrrArea 0x3 0x1 0x0 0x2 0x0 0x1), none, .trb ⟨⟨0, none, 2⟩, 0x3, 0x1, 0x0, 0x2, 0x0, 0x1, none⟩⟩,
  ⟨word 0 2 0x30 false (rrrArea 0x3 0x1 0x0 0x9 0x1 0x1), none, .unpk ⟨⟨0, none, 2⟩, 0x3, 0x1, 0x0, 0x9, 0x1, 0x1, none⟩⟩,
  ⟨word 0 2 0x31 false (rrrArea 0x3 0x1 0x0 0x9 0x1 0x1), none, .pack ⟨⟨0, none, 2⟩, 0x3, 0x1, 0x0, 0x9, 0x1, 0x1, none⟩⟩,
  ⟨word 0 2 0x32 false (rrrArea 0x3 0x1 0x2 0x9 0x1 0x1), none, .cvt ⟨⟨0, none, 2⟩, 0x3, 0x1, 0x2, 0x9, 0x1, 0x1, none⟩⟩,
  ⟨word 0 2 0x38 false (rrrArea 0x3 0x1 0x0 0x9 0x0 0x1), none, .exp2 ⟨⟨0, none, 2⟩, 0x3, 0x1, 0x0, 0x9, 0x0, 0x1, none⟩⟩,
  ⟨word 0 2 0x39 false (rrrArea 0x3 0x1 0x0 0x9 0x0 0x1), none, .log2 ⟨⟨0, none, 2⟩, 0x3, 0x1, 0x0, 0x9, 0x0, 0x1, none⟩⟩,
  ⟨word 0 2 0x3a false (rrrArea 0x3 0x1 0x0 0x9 0x0 0x1), none, .rcp ⟨⟨0, none, 2⟩, 0x3, 0x1, 0x0, 0x9, 0x0, 0x1, none⟩⟩,
  ⟨word 0 2 0x3b false (rrrArea 0x3 0x1 0x0 0x9 0x0 0x1), none, .rsq ⟨⟨0, none, 2⟩, 0x3, 0x1, 0x0, 0x9, 0x0, 0x1, none⟩⟩,
  ⟨word 0 2 0x3c false (rrrArea 0x3 0x1 0x0 0x9 0x0 0x1), none, .sin ⟨⟨0, none, 2⟩, 0x3, 0x1, 0x0, 0x9, 0x0, 0x1, none⟩⟩,
  ⟨word 0 2 0x3d false (rrrArea 0x3 0x1 0x0 0x9 0x0 0x1), none, .cos ⟨⟨0, none, 2⟩, 0x3, 0x1, 0x0, 0x9, 0x0, 0x1, none⟩⟩,
  ⟨word 0 2 0x3e false (rrrArea 0x3 0x1 0x0 0x9 0x0 0x1), none, .tanh ⟨⟨0, none, 2⟩, 0x3, 0x1, 0x0, 0x9, 0x0, 0x1, none⟩⟩,
  ⟨word 0 2 0x40 false (rrrArea 0x3 0x1 0x0 0x0 0x0 0x0), none, .rotBase ⟨⟨0, none, 2⟩, 0x3, 0x1, 0x0, 0x0, 0x0, 0x0, none⟩⟩,
  ⟨word 0 2 0x40 false (rrrArea 0x0 0x0 0x0 0x0 0x1 0x0), none, .rotBaseOff ⟨⟨0, none, 2⟩, 0x0, 0x0, 0x0, 0x0, 0x1, 0x0, none⟩⟩,
  ⟨word 0 2 0x48 false (rrrArea 0x64 0x8 0x3 0x8 0x1 0x2), none, .orient2 ⟨⟨0, none, 2⟩, 0x64, 0x8, 0x3, 0x8, 0x1, 0x2, none⟩⟩,
  ⟨word 0 2 0x49 false (rrrArea 0x64 0x8 0x3 0x8 0x1 0x2), none, .orient3 ⟨⟨0, none, 2⟩, 0x64, 0x8, 0x3, 0x8, 0x1, 0x2, none⟩⟩,
  ⟨word 0 2 0x4a false (rrrArea 0x64 0x8 0x3 0x8 0x1 0x2), none, .incircle ⟨⟨0, none, 2⟩, 0x64, 0x8, 0x3, 0x8, 0x1, 0x2, none⟩⟩,
  ⟨word 0 2 0x4b false (rrrArea 0x64 0x8 0x3 0x8 0x1 0x2), none, .insphere ⟨⟨0, none, 2⟩, 0x64, 0x8, 0x3, 0x8, 0x1, 0x2, none⟩⟩,
  ⟨word 0 2 0x4c false (rrrArea 0x64 0x8 0x3 0x8 0x1 0x2), none, .segcross ⟨⟨0, none, 2⟩, 0x64, 0x8, 0x3, 0x8, 0x1, 0x2, none⟩⟩]

theorem test_vectorRows2 : ∀ r ∈ vectorRows2, Row.good .vec r := by simp only [vectorRows2, List.forall_mem_cons, List.not_mem_nil, false_implies, implies_true, and_true]; exact ⟨⟨rfl, rfl, rfl⟩, ⟨rfl, rfl, rfl⟩, ⟨rfl, rfl, rfl⟩, ⟨rfl, rfl, rfl⟩, ⟨rfl, rfl, rfl⟩, ⟨rfl, rfl, rfl⟩, ⟨rfl, rfl, rfl⟩, ⟨rfl, rfl, rfl⟩, ⟨rfl, rfl, rfl⟩, ⟨rfl, rfl, rfl⟩, ⟨rfl, rfl, rfl⟩, ⟨rfl, rfl, rfl⟩, ⟨rfl, rfl, rfl⟩, ⟨rfl, rfl, rfl⟩, ⟨rfl, rfl, rfl⟩, ⟨rfl, rfl, rfl⟩, ⟨rfl, rfl, rfl⟩, ⟨rfl, rfl, rfl⟩, ⟨rfl, rfl, rfl⟩, ⟨rfl, rfl, rfl⟩, ⟨rfl, rfl, rfl⟩, ⟨rfl, rfl, rfl⟩, ⟨rfl, rfl, rfl⟩, ⟨rfl, rfl, rfl⟩, ⟨rfl, rfl, rfl⟩, ⟨rfl, rfl, rfl⟩, ⟨rfl, rfl, rfl⟩, ⟨rfl, rfl, rfl⟩⟩

/-- R100. -/
def vectorRows3 : List Row := [
  ⟨word 0 2 0x50 false (rrrArea 0x3 0x1 0x2 0x2 0x0 0x1), none, .vld ⟨⟨0, none, 2⟩, 0x3, 0x1, 0x2, 0x2, 0x0, 0x1, none⟩⟩,
  ⟨word 0 2 0x51 false (rrrArea 0x3 0x1 0x2 0x2 0x0 0x1), none, .vst ⟨⟨0, none, 2⟩, 0x3, 0x1, 0x2, 0x2, 0x0, 0x1, none⟩⟩]

theorem test_vectorRows3 : ∀ r ∈ vectorRows3, Row.good .vec r := by simp only [vectorRows3, List.forall_mem_cons, List.not_mem_nil, false_implies, implies_true, and_true]; exact ⟨⟨rfl, rfl, rfl⟩, ⟨rfl, rfl, rfl⟩⟩

/-- R101. -/
def matrixRows : List Row := [
  ⟨word 0 3 0x0 false (rrrArea 0x3 0x0 0x0 0x0 0x1 0x0), none, .mzero ⟨⟨0, none, 3⟩, 0x3, 0x0, 0x0, 0x0, 0x1, 0x0, none⟩⟩,
  ⟨word 0 3 0x1 false (rrrArea 0x3 0x1 0x0 0x0 0x0 0x0), none, .mload ⟨⟨0, none, 3⟩, 0x3, 0x1, 0x0, 0x0, 0x0, 0x0, none⟩⟩,
  ⟨word 0 3 0x2 true (rrrArea 0x0 0x0 0x0 0x0 0x0 0x0), some 0x0, .mgo ⟨⟨0, none, 3⟩, 0x0, 0x0, 0x0, 0x0, 0x0, 0x0, (some ⟨0x0, 0x0⟩)⟩⟩,
  ⟨word 0 3 0x3 true (rrrArea 0x3 0x1 0x2 0x9 0x0 0x0), some 0x0, .mdrainSpad ⟨⟨0, none, 3⟩, 0x3, 0x1, 0x2, 0x9, 0x0, 0x0, (some ⟨0x0, 0x0⟩)⟩⟩,
  ⟨word 0 3 0x3 true (rrrArea 0x3 0x1 0x2 0x9 0x0 0x1), some 0x0, .mdrainGlob ⟨⟨0, none, 3⟩, 0x3, 0x1, 0x2, 0x9, 0x0, 0x1, (some ⟨0x0, 0x0⟩)⟩⟩,
  ⟨word 0 3 0x3 true (rrrArea 0x3 0x1 0x2 0x9 0x0 0x9), some 0x0, .mdrainGlobAdd ⟨⟨0, none, 3⟩, 0x3, 0x1, 0x2, 0x9, 0x0, 0x9, (some ⟨0x0, 0x0⟩)⟩⟩,
  ⟨word 0 3 0x3 true (rrrArea 0x3 0x1 0x2 0x9 0x0 0x2), some 0x0, .mdrainPeer ⟨⟨0, none, 3⟩, 0x3, 0x1, 0x2, 0x9, 0x0, 0x2, (some ⟨0x0, 0x0⟩)⟩⟩,
  ⟨word 0 4 0x0 false (rrrArea 0x0 0x0 0x0 0x0 0x0 0x0), none, .rgoMax ⟨⟨0, none, 4⟩, 0x0, 0x0, 0x0, 0x0, 0x0, 0x0, none⟩⟩,
  ⟨word 0 4 0x1 false (rrrArea 0x0 0x0 0x0 0x0 0x0 0x0), none, .rgoExpsum ⟨⟨0, none, 4⟩, 0x0, 0x0, 0x0, 0x0, 0x0, 0x0, none⟩⟩,
  ⟨word 0 4 0x2 false (rrrArea 0x0 0x0 0x0 0x0 0x0 0x0), none, .rgoScale ⟨⟨0, none, 4⟩, 0x0, 0x0, 0x0, 0x0, 0x0, 0x0, none⟩⟩,
  ⟨word 0 4 0x3 false (rrrArea 0x0 0x0 0x0 0x0 0x0 0x0), none, .rgoNorm ⟨⟨0, none, 4⟩, 0x0, 0x0, 0x0, 0x0, 0x0, 0x0, none⟩⟩]

theorem test_matrixRows : ∀ r ∈ matrixRows, Row.good .dmx r := by simp only [matrixRows, List.forall_mem_cons, List.not_mem_nil, false_implies, implies_true, and_true]; exact ⟨⟨rfl, rfl, rfl⟩, ⟨rfl, rfl, rfl⟩, ⟨rfl, rfl, rfl⟩, ⟨rfl, rfl, rfl⟩, ⟨rfl, rfl, rfl⟩, ⟨rfl, rfl, rfl⟩, ⟨rfl, rfl, rfl⟩, ⟨rfl, rfl, rfl⟩, ⟨rfl, rfl, rfl⟩, ⟨rfl, rfl, rfl⟩, ⟨rfl, rfl, rfl⟩⟩

/-- R102, SRT. -/
def sortRows : List Row := [
  ⟨word 0 5 0x0 true (rrrArea 0x3 0x1 0x2 0x2 0x1 0x0), some 0x0, .sort ⟨⟨0, none, 5⟩, 0x3, 0x1, 0x2, 0x2, 0x1, 0x0, (some ⟨0x0, 0x0⟩)⟩⟩,
  ⟨word 0 5 0x1 true (rrrArea 0x3 0x1 0x2 0x2 0x1 0x0), some 0x0, .segsort ⟨⟨0, none, 5⟩, 0x3, 0x1, 0x2, 0x2, 0x1, 0x0, (some ⟨0x0, 0x0⟩)⟩⟩,
  ⟨word 0 5 0x2 true (rrrArea 0x3 0x1 0x2 0x2 0x1 0x0), some 0x0, .merge ⟨⟨0, none, 5⟩, 0x3, 0x1, 0x2, 0x2, 0x1, 0x0, (some ⟨0x0, 0x0⟩)⟩⟩,
  ⟨word 0 5 0x3 true (rrrArea 0x3 0x1 0x2 0x2 0x1 0x0), some 0x0, .topk ⟨⟨0, none, 5⟩, 0x3, 0x1, 0x2, 0x2, 0x1, 0x0, (some ⟨0x0, 0x0⟩)⟩⟩,
  ⟨word 0 5 0x4 true (rrrArea 0x3 0x1 0x2 0x2 0x1 0x0), some 0x0, .ksel ⟨⟨0, none, 5⟩, 0x3, 0x1, 0x2, 0x2, 0x1, 0x0, (some ⟨0x0, 0x0⟩)⟩⟩,
  ⟨word 0 5 0x5 true (rrrArea 0x3 0x1 0x2 0x2 0x2 0x0), some 0x0, .uniq ⟨⟨0, none, 5⟩, 0x3, 0x1, 0x2, 0x2, 0x2, 0x0, (some ⟨0x0, 0x0⟩)⟩⟩]

theorem test_sortRows : ∀ r ∈ sortRows, Row.good .srt r := by simp only [sortRows, List.forall_mem_cons, List.not_mem_nil, false_implies, implies_true, and_true]; exact ⟨⟨rfl, rfl, rfl⟩, ⟨rfl, rfl, rfl⟩, ⟨rfl, rfl, rfl⟩, ⟨rfl, rfl, rfl⟩, ⟨rfl, rfl, rfl⟩, ⟨rfl, rfl, rfl⟩⟩

/-- R102, SPX. -/
def sparseRows : List Row := [
  ⟨word 0 5 0x10 true (rrrArea 0x0 0x1 0x0 0x9 0x1 0x0), some 0x0, .spmmCsr ⟨⟨0, none, 5⟩, 0x0, 0x1, 0x0, 0x9, 0x1, 0x0, (some ⟨0x0, 0x0⟩)⟩⟩,
  ⟨word 0 5 0x11 true (rrrArea 0x0 0x1 0x0 0x9 0x1 0x0), some 0x0, .spmmBsr ⟨⟨0, none, 5⟩, 0x0, 0x1, 0x0, 0x9, 0x1, 0x0, (some ⟨0x0, 0x0⟩)⟩⟩,
  ⟨word 0 5 0x12 true (rrrArea 0x0 0x1 0x0 0x9 0x0 0x0), some 0x0, .sddmm ⟨⟨0, none, 5⟩, 0x0, 0x1, 0x0, 0x9, 0x0, 0x0, (some ⟨0x0, 0x0⟩)⟩⟩,
  ⟨word 0 5 0x13 true (rrrArea 0x0 0x1 0x0 0x9 0x1 0x0), some 0x0, .spmv ⟨⟨0, none, 5⟩, 0x0, 0x1, 0x0, 0x9, 0x1, 0x0, (some ⟨0x0, 0x0⟩)⟩⟩]

theorem test_sparseRows : ∀ r ∈ sparseRows, Row.good .spx r := by simp only [sparseRows, List.forall_mem_cons, List.not_mem_nil, false_implies, implies_true, and_true]; exact ⟨⟨rfl, rfl, rfl⟩, ⟨rfl, rfl, rfl⟩, ⟨rfl, rfl, rfl⟩, ⟨rfl, rfl, rfl⟩⟩

/-- R103. -/
def allRows : List Row := [
  ⟨word 0 7 0x0 false (brArea 2 0 9 0xfffffd), none, .br ⟨⟨0, none, 7⟩, 2, false, 9, 0xfffffd, none⟩⟩,
  ⟨word 0 7 0x1 false (brArea 0 1 9 0x0), none, .jmpi ⟨⟨0, none, 7⟩, 0, true, 9, 0x0, none⟩⟩,
  ⟨word 0 7 0x3 false (brArea 0 1 9 0x0), none, .calli ⟨⟨0, none, 7⟩, 0, true, 9, 0x0, none⟩⟩,
  ⟨word 0 7 0x2 false (brArea 0 0 0 0x10), none, .call ⟨⟨0, none, 7⟩, 0, false, 0, 0x10, none⟩⟩,
  ⟨word 0 7 0x4 false (brArea 0 0 0 0x0), none, .ret ⟨⟨0, none, 7⟩, 0, false, 0, 0x0, none⟩⟩,
  ⟨word 0 7 0x5 false (lpArea 3 0 2 1 0x4), none, .loop ⟨⟨0, none, 7⟩, 3, 0, 2, true, 0x4, none⟩⟩,
  ⟨word 0 7 0x6 false (brArea 2 1 9 0xfffffd), none, .break_ ⟨⟨0, none, 7⟩, 2, true, 9, 0xfffffd, none⟩⟩,
  ⟨word 0 7 0x7 false (brArea 1 0 0 0x7fffff), none, .follow ⟨⟨0, none, 7⟩, 1, false, 0, 0x7fffff, none⟩⟩,
  ⟨word 0 7 0x8 false (rrrArea 0x0 0x0 0x0 0x0 0x0 0x0), none, .region ⟨⟨0, none, 7⟩, 0x0, 0x0, 0x0, 0x0, 0x0, 0x0, none⟩⟩,
  ⟨word 0 7 0x9 false (rrrArea 0x0 0x0 0x0 0x0 0x0 0x0), none, .end_ ⟨⟨0, none, 7⟩, 0x0, 0x0, 0x0, 0x0, 0x0, 0x0, none⟩⟩,
  ⟨word 0 7 0xb false (rrrArea 0x0 0x0 0x0 0x0 0x0 0x0), none, .nop ⟨⟨0, none, 7⟩, 0x0, 0x0, 0x0, 0x0, 0x0, 0x0, none⟩⟩,
  ⟨word 0 7 0xa false (rrrArea 0x0 0x0 0x0 0x0 0x0 0x0), none, .fenceEng ⟨⟨0, none, 7⟩, 0x0, 0x0, 0x0, 0x0, 0x0, 0x0, none⟩⟩,
  ⟨word 0 7 0xa false (rrrArea 0x0 0x0 0x0 0x0 0x0 0x1), none, .fenceEngAsync ⟨⟨0, none, 7⟩, 0x0, 0x0, 0x0, 0x0, 0x0, 0x1, none⟩⟩]

theorem test_allRows : ∀ r ∈ allRows, Row.good .dmx r := by simp only [allRows, List.forall_mem_cons, List.not_mem_nil, false_implies, implies_true, and_true]; exact ⟨⟨rfl, rfl, rfl⟩, ⟨rfl, rfl, rfl⟩, ⟨rfl, rfl, rfl⟩, ⟨rfl, rfl, rfl⟩, ⟨rfl, rfl, rfl⟩, ⟨rfl, rfl, rfl⟩, ⟨rfl, rfl, rfl⟩, ⟨rfl, rfl, rfl⟩, ⟨rfl, rfl, rfl⟩, ⟨rfl, rfl, rfl⟩, ⟨rfl, rfl, rfl⟩, ⟨rfl, rfl, rfl⟩, ⟨rfl, rfl, rfl⟩⟩

/-! ## Worked encodings and fates (R96 and the tables after it) -/

theorem test_worked_add : decode .dmx 0x0000080050500040 none = .ok (.addRi ⟨⟨0, none, 0⟩, 5, 5, 0x40, none⟩) := rfl
theorem test_worked_ld : decode .dmx 0x01A42C10705FF300 (some 0x0000004000000000)
    = .ok (.ld ⟨⟨1, some ⟨.x, 2, false⟩, 1⟩, 7, 5, 0xFF, 3, 0, 0, some ⟨0x40, 0⟩⟩) := rfl
theorem test_worked_br : decode .dmx 0x0000E00209FFFFFD none = .ok (.br ⟨⟨0, none, 7⟩, 2, false, 9, 0xFFFFFD, none⟩) := rfl
theorem test_fate_reserved_tag : decode .dmx 0x0000C00000000000 none = .error 0x03 := rfl
theorem test_fate_absent_engine : decode .dmx 0x0000A00000000000 none = .error 0x04 := rfl
theorem test_fate_illegal_opcode : decode .dmx 0x00004FE000000000 none = .error 0x01 := rfl
theorem test_fate_signal : decode .dmx 0x0001080050500040 none = .error 0x02 := rfl
theorem test_fate_operand : decode .dmx 0x0000000014000000 none = .error 0x05 := rfl
theorem test_fate_missing_w1 : decode .dmx 0x000000001FF00000 none = .error 0x06 := rfl
theorem test_fate_scope : decode .dmx 0x00002C0070500070 none = .error 0x07 := rfl
/-- R102: a SORT word is no word of an SPX die, nor SPMV one of an SRT die. -/
theorem test_fate_other_k : decode .spx (word 0 5 0 true (rrrArea 3 1 2 3 1 0)) (some 0) = .error 0x01
    ∧ decode .srt (word 0 5 0x13 true (rrrArea 0 1 0 9 1 0)) (some 0) = .error 0x01 := ⟨rfl, rfl⟩

/-! ## Well-formedness: an ill-formed term for each check, with the cause it refuses it with -/

/-- Checks 4 and 5 of R96: W1 and SIGNAL. -/
theorem test_refused_w1_signal : ∀ r ∈ ([
    (.dmx, .copy ⟨⟨0, none, 1⟩, 1, 2, 3, 0, 0, 0, none⟩, 0x06), (.dmx, .add ⟨⟨0, none, 0⟩, 1, 0xFF, 3, 0, 0, 0, none⟩, 0x06),
    (.dmx, .addRi ⟨⟨0, none, 0⟩, 1, 0xFF, 3, none⟩, 0x06), (.vec, .add ⟨⟨0, some ⟨.m, 1, false⟩, 0⟩, 1, 2, 3, 0, 0, 0, none⟩, 0x04),
    (.dmx, .add ⟨⟨0, some ⟨.x, 1, true⟩, 0⟩, 1, 2, 3, 0, 0, 0, none⟩, 0x02)] : List (DieClass × Instr × BitVec 8)),
    encodingCause r.1 r.2.1 = some r.2.2 ∧ r.2.1.wf r.1 = false := by decide

/-- Check 6: TYPE, RS, FL and fields that must be zero. -/
theorem test_refused_mod : ∀ r ∈ ([
    .add ⟨⟨0, none, 0⟩, 1, 2, 3, 8, 0, 0, none⟩, .add ⟨⟨0, none, 0⟩, 1, 2, 3, 0, 1, 0, none⟩,
    .add ⟨⟨0, none, 0⟩, 1, 2, 3, 0, 0, 1, none⟩, .sel ⟨⟨0, none, 0⟩, 1, 2, 3, 1, 0, 0, none⟩,
    .clz ⟨⟨0, none, 0⟩, 1, 2, 3, 0, 0, 0, none⟩, .li ⟨⟨0, none, 0⟩, 1, 2, 3, none⟩, .halt ⟨⟨0, none, 0⟩, 1, 0, 0, 0, 0, 0, none⟩,
    .bfx ⟨⟨0, none, 0⟩, 1, 2, 3, 0, 0, 2, none⟩, .cvta ⟨⟨0, none, 0⟩, 1, 2, 0, 0, 4, 0, none⟩,
    .cvta ⟨⟨0, none, 0⟩, 1, 2, 3, 0, 0, 0, none⟩, .icinv ⟨⟨0, none, 0⟩, 0, 2, 3, 0, 2, 0, none⟩,
    .ld ⟨⟨0, none, 1⟩, 1, 2, 3, 8, 0, 0, none⟩, .ld ⟨⟨0, none, 1⟩, 1, 2, 3, 0, 8, 0, none⟩,
    .ld ⟨⟨0, none, 1⟩, 1, 2, 3, 0, 0, 4, none⟩, .lds ⟨⟨0, none, 1⟩, 1, 2, 3, 0, 0, 2, none⟩,
    .atomAnd ⟨⟨0, none, 1⟩, 1, 2, 3, 9, 0, 0, none⟩, .atomAdd ⟨⟨0, none, 1⟩, 1, 2, 3, 4, 0, 0, none⟩,
    .atomIncw ⟨⟨0, none, 1⟩, 1, 2, 3, 0, 0, 0, none⟩, .barDie ⟨⟨0, none, 1⟩, 0, 0, 0, 0, 0, 0, none⟩,
    .barNode ⟨⟨0, none, 1⟩, 0, 0, 0, 0, 4, 1, none⟩, .barNode ⟨⟨0, none, 1⟩, 0, 0, 0, 0, 5, 0, none⟩] : List Instr),
    encodingCause .dmx r = some 0x02 ∧ r.wf .dmx = false := by decide

/-- Check 6: EXT32, immediates, fields of single forms, BR and LP fields. -/
theorem test_refused_fields : ∀ r ∈ ([
    .copy ⟨⟨0, none, 1⟩, 1, 2, 3, 0, 0, 0, some ⟨0, 1⟩⟩, .copy ⟨⟨0, none, 1⟩, 1, 2, 3, 0, 0, 0, some ⟨0, 0x10000⟩⟩,
    .copy ⟨⟨0, none, 1⟩, 1, 2, 3, 0, 0, 0, some ⟨0, 0x08000000⟩⟩, .copy ⟨⟨0, none, 1⟩, 1, 2, 3, 0, 0, 0, some ⟨7, 0⟩⟩,
    .copyThIn ⟨⟨0, none, 1⟩, 1, 2, 3, 0, 0, 8, some ⟨0, 0⟩⟩, .copyThIn ⟨⟨0, none, 1⟩, 1, 2, 3, 0, 0, 4, some ⟨0, 0⟩⟩,
    .thfence ⟨⟨0, none, 1⟩, 0, 0, 0, 0, 2, 0, some ⟨0, 0⟩⟩, .gather ⟨⟨0, none, 1⟩, 1, 2, 3, 2, 0, 0, some ⟨0, 0⟩⟩,
    .scatter ⟨⟨0, none, 1⟩, 1, 2, 3, 2, 2, 0, some ⟨0, 0⟩⟩, .prefetch ⟨⟨0, none, 1⟩, 0, 2, 3, 0, 1, 2, some ⟨0, 5⟩⟩,
    .eret ⟨⟨0, none, 0⟩, 0, 0, 1, none⟩, .csrr ⟨⟨0, none, 0⟩, 1, 0, 0x204, none⟩, .csrw ⟨⟨0, none, 0⟩, 1, 2, 0x010, none⟩,
    .watch ⟨⟨0, none, 0⟩, 1, 0, 0x20, none⟩, .pendGo ⟨⟨0, none, 0⟩, 0, 0, 4, none⟩, .pendGo ⟨⟨0, none, 0⟩, 0, 0, 1, none⟩,
    .echo ⟨⟨0, none, 0⟩, 1, 2, 0x100, none⟩, .fwsvcUndefined ⟨⟨0, none, 0⟩, 1, 2, 2, none⟩,
    .mset ⟨⟨0, none, 0⟩, 6, 2, 0, 0, 0, 0, none⟩, .mopd ⟨⟨0, none, 0⟩, 6, 2, 3, 0, 0, 0, none⟩,
    .mscale ⟨⟨0, none, 0⟩, 2, 2, 3, 0, 0, 0, none⟩, .rtt ⟨⟨0, none, 0⟩, 4, 2, 0, 0, 0, 0, none⟩,
    .mgo ⟨⟨0, none, 3⟩, 0, 0, 0, 0, 0, 0, some ⟨0, 1⟩⟩, .mzero ⟨⟨0, none, 3⟩, 1, 0, 0, 0, 3, 0, none⟩,
    .mdrainSpad ⟨⟨0, none, 3⟩, 1, 2, 3, 8, 0, 0, some ⟨0, 0⟩⟩, .mdrainGlobAdd ⟨⟨0, none, 3⟩, 1, 2, 3, 10, 0, 9, some ⟨0, 0⟩⟩,
    .mdrainPeer ⟨⟨0, none, 3⟩, 1, 2, 3, 9, 0, 2, some ⟨0, 1⟩⟩, .mdrainSpad ⟨⟨0, none, 3⟩, 1, 2, 3, 9, 0, 1, some ⟨0, 0⟩⟩,
    .region ⟨⟨1, none, 7⟩, 0, 0, 0, 0, 0, 0, none⟩, .br ⟨⟨0, none, 7⟩, 8, false, 1, 1, none⟩,
    .br ⟨⟨0, none, 7⟩, 0, false, 1, 1, none⟩, .jmpi ⟨⟨0, none, 7⟩, 0, false, 1, 1, none⟩, .call ⟨⟨0, none, 7⟩, 0, true, 0, 1, none⟩,
    .ret ⟨⟨0, none, 7⟩, 0, false, 0, 1, none⟩, .follow ⟨⟨0, none, 7⟩, 0, false, 0, 1, none⟩,
    .loop ⟨⟨0, none, 7⟩, 1, 0, 1, false, 4, none⟩, .loop ⟨⟨0, none, 7⟩, 1, 0, 0, false, 0, none⟩,
    .loop ⟨⟨0, none, 7⟩, 1, 1, 0, false, 4, none⟩, .br ⟨⟨0, none, 7⟩, 0, false, 0, 1, some ⟨1, 0⟩⟩] : List Instr),
    encodingCause .dmx r = some 0x02 ∧ r.wf .dmx = false := by decide

/-- Check 6 on the words of other dies. -/
theorem test_refused_other_dies : ∀ r ∈ ([
    (.vec, .fadd ⟨⟨0, none, 2⟩, 1, 2, 3, 9, 5, 0, none⟩), (.vec, .fadd ⟨⟨0, none, 2⟩, 1, 2, 3, 2, 0, 0, none⟩),
    (.vec, .iadd ⟨⟨0, none, 2⟩, 1, 2, 3, 6, 0, 0, none⟩), (.vec, .fcmp ⟨⟨0, none, 2⟩, 1, 2, 3, 9, 8, 0, none⟩),
    (.vec, .icmp ⟨⟨0, none, 2⟩, 1, 2, 3, 2, 6, 0, none⟩), (.vec, .movV ⟨⟨0, none, 2⟩, 1, 2, 0, 2, 1, 0, none⟩),
    (.vec, .redr ⟨⟨0, none, 2⟩, 1, 2, 0, 9, 3, 0, none⟩), (.vec, .trb ⟨⟨0, none, 2⟩, 1, 2, 0, 4, 0, 0, none⟩),
    (.vec, .unpk ⟨⟨0, none, 2⟩, 1, 2, 4, 9, 3, 0, none⟩), (.vec, .pack ⟨⟨0, none, 2⟩, 1, 2, 0, 8, 0, 0, none⟩),
    (.vec, .cvt ⟨⟨0, none, 2⟩, 1, 2, 6, 9, 0, 0, none⟩), (.vec, .exp2 ⟨⟨0, none, 2⟩, 1, 2, 0, 8, 0, 0, none⟩),
    (.vec, .rotBase ⟨⟨0, none, 2⟩, 0xFF, 1, 0, 0, 0, 0, none⟩), (.vec, .rotBaseOff ⟨⟨0, none, 2⟩, 0, 0, 0, 0, 2, 0, none⟩),
    (.vec, .orient2 ⟨⟨0, none, 2⟩, 100, 1, 2, 11, 0, 0, none⟩), (.vec, .vld ⟨⟨0, none, 2⟩, 1, 2, 3, 2, 2, 0, none⟩),
    (.vec, .fadd ⟨⟨0, none, 2⟩, 1, 2, 0xFF, 11, 0, 0, some ⟨0x10000, 0⟩⟩), (.srt, .sort ⟨⟨0, none, 5⟩, 1, 2, 3, 4, 0, 0, some ⟨0, 0⟩⟩),
    (.srt, .segsort ⟨⟨0, none, 5⟩, 1, 2, 3, 2, 0, 0, some ⟨0, 0x800000⟩⟩), (.srt, .uniq ⟨⟨0, none, 5⟩, 1, 2, 3, 2, 1, 0, some ⟨0, 0⟩⟩),
    (.spx, .spmv ⟨⟨0, none, 5⟩, 0, 2, 0, 8, 0, 0, some ⟨0, 0⟩⟩), (.spx, .sddmm ⟨⟨0, none, 5⟩, 0, 2, 0, 9, 1, 0, some ⟨0, 0⟩⟩),
    (.spx, .spmv ⟨⟨0, none, 5⟩, 0, 2, 0, 9, 0, 0, some ⟨0, 1⟩⟩)] : List (DieClass × Instr)),
    encodingCause r.1 r.2 = some 0x02 ∧ r.2.wf r.1 = false := by decide

/-- Checks 7 and 8: operand codes outside their reach, and scope 7. -/
theorem test_refused_reach_scope : ∀ r ∈ ([
    (.dmx, .add ⟨⟨0, none, 0⟩, 0x40, 2, 3, 0, 0, 0, none⟩, 0x05), (.dmx, .add ⟨⟨0, none, 0⟩, 1, 0x40, 3, 0, 0, 0, none⟩, 0x05),
    (.dmx, .add ⟨⟨0, none, 0⟩, 0xFF, 2, 3, 0, 0, 0, none⟩, 0x05), (.dmx, .sel ⟨⟨0, none, 0⟩, 0xFE, 2, 3, 0, 0, 0, none⟩, 0x05),
    (.dmx, .lcset ⟨⟨0, none, 0⟩, 16, 2, 0, 0, 0, 0, none⟩, 0x05), (.dmx, .mload ⟨⟨0, none, 3⟩, 8, 2, 0, 0, 0, 0, none⟩, 0x05),
    (.dmx, .mload ⟨⟨0, none, 3⟩, 1, 0xFE, 0, 0, 0, 0, none⟩, 0x05), (.vec, .kand ⟨⟨0, none, 2⟩, 16, 2, 3, 0, 0, 0, none⟩, 0x05),
    (.vec, .fadd ⟨⟨0, none, 2⟩, 0xFE, 2, 3, 9, 0, 0, none⟩, 0x05), (.vec, .vst ⟨⟨0, none, 2⟩, 0xFE, 2, 3, 2, 0, 0, none⟩, 0x05),
    (.vec, .orient2 ⟨⟨0, none, 2⟩, 100, 0xFE, 2, 8, 0, 0, none⟩, 0x05), (.dmx, .copy ⟨⟨0, none, 1⟩, 0xFF, 2, 3, 0, 0, 0, some ⟨0, 0⟩⟩, 0x05),
    (.dmx, .st ⟨⟨0, none, 1⟩, 0x40, 2, 3, 0, 0, 0, none⟩, 0x05), (.dmx, .ld ⟨⟨0, none, 1⟩, 5, 2, 3, 12, 0, 0, none⟩, 0x05),
    (.dmx, .lds ⟨⟨0, none, 1⟩, 5, 2, 3, 12, 0, 0, none⟩, 0x05), (.dmx, .sts ⟨⟨0, none, 1⟩, 5, 2, 3, 12, 0, 0, none⟩, 0x05),
    (.dmx, .atomCas ⟨⟨0, none, 1⟩, 3, 2, 3, 0, 0, 0, none⟩, 0x05), (.dmx, .br ⟨⟨0, none, 7⟩, 1, false, 64, 1, none⟩, 0x05),
    (.dmx, .ld ⟨⟨0, none, 1⟩, 5, 2, 3, 0, 7, 0, none⟩, 0x07), (.dmx, .tlbinv ⟨⟨0, none, 0⟩, 0, 2, 3, 0, 7, 0, none⟩, 0x07),
    (.dmx, .barDie ⟨⟨0, none, 1⟩, 0, 0, 0, 0, 7, 0, none⟩, 0x07), (.dmx, .barNode ⟨⟨0, none, 1⟩, 0, 0, 0, 0, 7, 1, none⟩, 0x07),
    (.dmx, .mdrainGlobAdd ⟨⟨0, none, 3⟩, 1, 2, 3, 9, 7, 9, some ⟨0, 0⟩⟩, 0x07)] : List (DieClass × Instr × BitVec 8)),
    encodingCause r.1 r.2.1 = some r.2.2 ∧ r.2.1.wf r.1 = false := by decide

/-- The tag and the class of die that a form stands under. -/
theorem test_refused_tag : ∀ r ∈ ([(.dmx, .ld ⟨⟨0, none, 0⟩, 5, 2, 3, 0, 0, 0, none⟩), (.dmx, .add ⟨⟨0, none, 2⟩, 5, 2, 3, 0, 0, 0, none⟩),
    (.spx, .sort ⟨⟨0, none, 5⟩, 1, 2, 3, 3, 0, 0, some ⟨0, 0⟩⟩), (.vec, .mzero ⟨⟨0, none, 3⟩, 1, 0, 0, 0, 0, 0, none⟩),
    (.gsd, .nop ⟨⟨0, none, 7⟩, 0, 0, 0, 0, 0, 0, none⟩)] : List (DieClass × Instr)), r.2.wf r.1 = false := by decide

/-! ## Witnesses: states and operands that meet the hypotheses of the statements -/

/-- A cell whose shard runs. -/
def runner : Cell := { Cell.fresh with phase := .running }
/-- An engine of a cell next, in a package that holds that cell alone. -/
def demo (key : Nat) (e : EngTag) (c : Cell) : State := { State.reset with cur := .cell key e, cells := [(key, c)] }
/-- The same with code: one node whose shard runs the words. -/
def coded (key : Nat) (e : EngTag) (c : Cell) (ws : List Word) : State :=
  { demo key e c with
    nodes := [(0, Node.runningOn 1 (classNum (chipClass (keyChip key))))]
    objects := [(1, { ctx := 1, sections := [⟨classNum (chipClass (keyChip key)), 0, none, ws⟩], slots := [], levels := [],
                      capKinds := [], tileBuf := 0, tileCount := 0, dataBuf := none, used := true, gone := false })] }
/-- Headers without WAIT and SIGNAL, and with both. -/
def hd (e : BitVec 3) : Hdr := ⟨0, none, e⟩
/-- RRR, RI, BR and LP operand areas. -/
def r3 (e : BitVec 3) (d a b : BitVec 8) (ty rs fl : BitVec 4) : Rrr := ⟨hd e, d, a, b, ty, rs, fl, none⟩
def ri (e : BitVec 3) (d a : BitVec 8) (imm : BitVec 20) : Ri := ⟨hd e, d, a, imm, none⟩
def bf (cond : BitVec 4) (prod : Bool) (reg : BitVec 7) (off : BitVec 24) : Br := ⟨hd 7, cond, prod, reg, off, none⟩

/-- The conditions of `Issues` as one check. -/
def mayIssue (s : State) (key : Nat) (e : EngTag) (h : Hdr) : Bool :=
  (FMap.find? s.cells key).isSome && s.core.mayRun e && (s.core.eng e).held.isNone && s.myFault.isNone
  && !(s.core.eng e).issued && s.core.slipOk s.curClass e && s.core.waitOk e h.wait

theorem issues_of {s : State} {key : Nat} {e : EngTag} {h : Hdr} (hc : s.cur = .cell key e)
    (hm : mayIssue s key e h = true) : Issues s key e h := by
  simp only [mayIssue, Bool.and_eq_true, Option.isNone_iff_eq_none, Bool.not_eq_true'] at hm
  obtain ⟨⟨⟨⟨⟨⟨h1, h2⟩, h3⟩, h4⟩, h5⟩, h6⟩, h7⟩ := hm
  exact ⟨hc, h1, h2, h3, h4, h5, h6, by rw [State.curEng_cell hc]; exact h7⟩

theorem starts_of {i : Instr} {s : State} {key : Nat} {e : EngTag} {h : Hdr} (hh : i.body.hdr = some h)
    (hc : s.cur = .cell key e) (hm : mayIssue s key e h = true) : Starts i s key e (s.waited h) :=
  ⟨h, hh, issues_of hc hm, rfl⟩

/-- A word that reads a register and pops qc, and pushes to qa: the hypotheses of the two-source words. -/
theorem witness_Binary : ∃ (f : Rrr) (s : State) (key : Nat) (e : EngTag) (a b : Word) (s2 t : State), Issues s key e f.hdr
    ∧ ReadsTwo (s.waited f.hdr) f.a f.b (litVal f.ty.toNat f.w1) a b s2 ∧ s2.dst f.d 7 = .ok t := by
  refine ⟨r3 0 0xFE 5 0xFE 3 0 0, demo 32 .c { runner with x := [(5, 9)], qc := [4] }, 32, .c, 9, 4, _, _, issues_of rfl ?_, ⟨_, rfl, rfl⟩, rfl⟩
  decide
/-- The same on A with a literal and a negative immediate. -/
theorem witness_Immediate : ∃ (f : Ri) (s : State) (key : Nat) (e : EngTag) (a : Word) (s1 t : State), Issues s key e f.hdr
    ∧ (s.waited f.hdr).src f.a (litVal 0 f.w1) = .ok (a, s1) ∧ s1.dst f.d (a + f.imm.signExtend 64) = .ok t := by
  refine ⟨⟨hd 1, 3, 0xFF, 0xFFFFF, some ⟨0x80000000, 0⟩⟩, demo 32 .a runner, 32, .a, 0xFFFFFFFF80000000, _, _, issues_of rfl ?_, rfl, rfl⟩
  decide

/-! ### Turns, encodings, memory -/

/-- ADD x3, x1, x2 placed where the next step fetches. -/
def placed : State := State.reset.withFetchWord 64 0x0000000030102000

theorem witness_StepRunsTheDecodedWord : ∃ (s s1 : State) (n key : Nat) (e : EngTag) (x : Section),
    s.nextTurn = (⟨n, .engine key e⟩, s1) ∧ key < 2 ^ 20 ∧ (s1.passTicks n).owedDone.canAct (.engine key e) = true
    ∧ ∃ s2 : State, s2 = { (s1.passTicks n).owedDone with cur := .cell key e, actor := none } ∧ s2.curClass.has e = true
    ∧ s2.core.mayRun e = true ∧ s2.sectionOf key s2.core = some x ∧ (s2.core.eng e).pc % 8 = 0
    ∧ (s2.core.eng e).pc / 8 < x.words.length ∧ (s2.core.eng e).held = none
    ∧ ((s2.core.eng e).issued = true ∨ s2.core.slipOk s2.curClass e = true)
    ∧ ∃ (ic : FMap Word) (s3 : State) (w : Word) (i : Instr), s3 = s2.draw.2.setCore { s2.core with icache := ic }
    ∧ s3.core.wordAt x.words ((s2.core.eng e).pc / 8) = some w ∧ (fEng w = e.num ∨ fEng w = 7)
    ∧ s3.rotateWaits x.words ((s2.core.eng e).pc / 8) = false
    ∧ (fWide w = true → (s2.core.eng e).pc / 8 + 1 < x.words.length)
    ∧ decode s3.curClass w (s3.core.wordAt x.words ((s2.core.eng e).pc / 8 + 1)) = .ok i :=
  ⟨placed, _, 0, 32, .c, ⟨1, 0, none, [0x0000000030102000, 0]⟩, rfl, by decide, by decide, _, rfl, rfl, by decide, rfl, rfl,
    by decide, rfl, .inr (by decide), [(0, 0x0000000030102000)], _, 0x0000000030102000, .add (r3 0 3 1 2 0 0 0), rfl, rfl, .inl rfl,
    rfl, by decide, rfl⟩
/-- The step of that state is the word's meaning. -/
theorem test_step_runs_placed_word : (match step placed with
    | .next t => FMap.get t.core.x 3 0 == 0 && t.core.engC.pc == 8 | _ => false) = true := by decide

/-- A prologue core whose node's prologue object holds one word. -/
def prologued (ws : List Word) : State :=
  { State.reset with
    powered := true, agenda := [⟨0, .engine (2 ^ 20) .c⟩], cur := .prologue 0
    prols := [(0, ⟨Cell.fresh, 0, 0⟩)], nodes := [(0, { Node.runningOn 1 1 with st := .prologue, prolObj := 1 })]
    objects := [(1, { ctx := 1, sections := [⟨1, 0, none, ws⟩], slots := [], levels := [], capKinds := [], tileBuf := 0,
                      tileCount := 0, dataBuf := none, used := true, gone := false })] }

theorem witness_StepRunsAPrologueWord : ∃ (s s1 : State) (n node : Nat) (e : EngTag) (p : Prologue) (x : Section) (w : Word)
    (i : Instr), s.nextTurn = (⟨n, .engine (2 ^ 20 + node) e⟩, s1) ∧ (s1.passTicks n).owedDone.canAct (.engine (2 ^ 20 + node) e) = true
    ∧ ∃ s2 : State, s2 = { (s1.passTicks n).owedDone with cur := .prologue node, actor := none } ∧ FMap.find? s2.prols node = some p ∧ p.count < 4096
    ∧ s2.prolSection node = some x ∧ p.core.engC.pc % 8 = 0 ∧ x.words[p.core.engC.pc / 8]? = some w
    ∧ (fWide w = true → p.core.engC.pc / 8 + 1 < x.words.length)
    ∧ decodePrologue w x.words[p.core.engC.pc / 8 + 1]? = .ok i :=
  ⟨prologued [0x0000000030102000], _, 0, 0, .c, ⟨Cell.fresh, 0, 0⟩, ⟨1, 0, none, [0x0000000030102000]⟩, 0x0000000030102000,
    .add (r3 0 3 1 2 0 0 0), rfl, by decide, _, rfl, rfl, by decide, rfl, rfl, rfl, by decide, rfl⟩

/-- A package out of boot with one command at the head of its ring, and one packet in a queue. -/
def hosted : State :=
  { State.reset with
    powered := true, ready := true, mcBase := 0x1000, mcLog2 := 4, mcWr := 1
    host := Memory.writeN (Memory.writeN [] 0x1000 [0x01]) 0x8000 [0x03, 0x01]
    queues := [(0, { (State.reset.queue 0) with en := true, st := 1, base := 0x8000, hostMem := true, log2 := 4, wr := 1, rev := 1 })] }

theorem witness_StepRunsEvents : ∃ (s s1 : State) (n : Nat) (a : Act) (i : Instr), s.nextTurn = (⟨n, a⟩, s1)
    ∧ (s1.passTicks n).owedDone.canAct a = true ∧ a = .event i ∧ (s1.passTicks n).owedDone.eventWaits i = false :=
  ⟨{ hosted with agenda := [⟨5, .event (.engineStall 32)⟩] }, _, 5, _, _, rfl, by decide, rfl, by decide⟩
/-- A running package in which a word of A, in the shard of node 0 on cell 32, waits for a tile's fetch. -/
def holding : State :=
  { demo 32 .a { runner with engA := { Eng.fresh with issued := true, reason := 12 } } with
    powered := true
    buffers := [(7, { ctx := 1, va := 0, len := 65536, double := false, tiled := true, pageable := false, reassoc := false,
                      format := 0, tag := 0, refs := 1, gen := 0, front := [], shadowPages := [], live := true, freeing := false,
                      tiles := [(0, { Tile.cold with st := .fetching, held := [.word 32 .a 0 0] })] })] }

/-- A discard of node 0, of whose shard on cell 32 A's word waits for a fetch. -/
theorem witness_StepHoldsEvents : ∃ (s s1 : State) (n : Nat) (i : Instr), s.nextTurn = (⟨n, .event i⟩, s1)
    ∧ (s1.passTicks n).owedDone.canAct (.event i) = true ∧ (s1.passTicks n).owedDone.eventWaits i = true :=
  ⟨{ holding with agenda := [⟨0, .event (.nodeHalted 0)⟩] }, _, 0, _, rfl, by decide, by decide⟩
theorem witness_StepRunsCommands : ∃ (s s1 : State) (n : Nat) (a : Act), s.nextTurn = (⟨n, a⟩, s1)
    ∧ ∃ s2 : State, s2 = (s1.passTicks n).owedDone ∧ s2.canAct a = true ∧ a = .command ∧ s2.ready = true ∧ s2.mcRd ≠ s2.mcWr
    ∧ s2.reenum = none
    ∧ ∃ i, cmdOf (Memory.read s2.host 0x1000).toNat (cmdAt s2.host 0x1000 false s2.bellTick) = some i ∧ s2.cmdWaits i = false :=
  ⟨{ hosted with agenda := [⟨0, .command⟩] }, _, 0, .command, rfl, _, rfl, by decide, rfl, rfl, by decide, rfl, _, rfl, by decide⟩
theorem witness_StepRefusesCommands : ∃ (s s1 : State) (n : Nat), s.nextTurn = (⟨n, .command⟩, s1)
    ∧ ∃ s2 : State, s2 = (s1.passTicks n).owedDone ∧ s2.canAct .command = true ∧ s2.ready = true ∧ s2.mcRd ≠ s2.mcWr
    ∧ s2.reenum = none
    ∧ cmdOf (Memory.read s2.host 0x1000).toNat (cmdAt s2.host 0x1000 false s2.bellTick) = none :=
  ⟨{ hosted with agenda := [⟨0, .command⟩], host := Memory.writeN [] 0x1000 [0xEE] }, _, 0, rfl, _, rfl, by decide, rfl,
    by decide, rfl, rfl⟩
theorem witness_StepRunsPackets : ∃ (s s1 : State) (n : Nat), s.nextTurn = (⟨n, .packet 0⟩, s1)
    ∧ ∃ (s2 : State) (x : Queue) (bs : List Byte) (i : Instr), s2 = (s1.passTicks n).owedDone ∧ s2.canAct (.packet 0) = true
    ∧ x = s2.queue 0 ∧ s2.ready = true ∧ s2.shut = false ∧ x.en = true ∧ x.st = 1 ∧ x.wait = none ∧ x.rd ≠ x.wr
    ∧ s2.coreIdle = true ∧ s2.lockHeld 0 = false ∧ s2.oldest 0 (x.bell.getD s2.nextArrival) = true
    ∧ (s2.modQueue 0 fun y => { y with bell := none }).eventRoom = true
    ∧ (s2.modQueue 0 fun y => { y with bell := none }).packetBytes x x.rd = .ok bs ∧ bytesNat bs 1 1 = x.rev
    ∧ packetInstr (bytesNat bs 0 1) (packetOf 0 x.rd bs) = .ok i :=
  ⟨{ hosted with agenda := [⟨0, .packet 0⟩] }, _, 0, rfl, _, _, _, _, rfl, by decide, rfl, rfl, rfl, rfl, rfl, rfl, by decide,
    by decide, rfl, by decide, by decide, rfl, by decide, rfl⟩

/-- C at a word of A: ADD a3, a1, a2. -/
theorem witness_WordsOfOtherEnginesArePassed : ∃ (s : State) (w : Word) (key : Nat) (e f : EngTag), s.cur = .cell key e
    ∧ EngTag.ofNum (fEng w) = some f ∧ s.curClass.has f = true ∧ f ≠ e ∧ s.rotateWaits [w] 0 = false :=
  ⟨demo 32 .c runner, 0x0000200030102000, 32, .c, .a, rfl, rfl, rfl, by decide, rfl⟩
theorem witness_EncodedInstructionsDecode : ∃ (cls : DieClass) (i : Instr), i.form.isSome = true ∧ i.wf cls = true :=
  ⟨.vec, .fadd ⟨⟨0xFF, some ⟨.a, 7, false⟩, 2⟩, 0xFD, 0xFF, 0xFE, 8, 4, 15, some ⟨1, 0⟩⟩, rfl, rfl⟩
theorem witness_DecodedWordsEncodeBack : ∃ (cls : DieClass) (w v : Word) (i : Instr), cls.has .c = true ∧ decode cls w (some v) = .ok i :=
  ⟨.dmx, 0x0000080050500040, 0, _, rfl, rfl⟩
theorem witness_MemoryReadsWhatWasWritten : ∃ m : Memory, Memory.wf m = true ∧ m ≠ [] := ⟨[(3, 7), (9, 1)], rfl, by decide⟩

/-! ### Operands, issue, retirement -/

theorem witness_ScalarSourcesRead : ∃ (s : State) (key : Nat) (e : EngTag) (w : Word) (q : List Word), s.cur = .cell key e ∧ e = .c
    ∧ s.core.qc = w :: q := ⟨demo 32 .c { runner with qc := [4] }, 32, .c, 4, [], rfl, rfl, rfl⟩
theorem witness_ScalarSourcesReadA : ∃ (s : State) (key : Nat) (e : EngTag) (w : Word) (q : List Word), s.cur = .cell key e ∧ e = .a
    ∧ s.core.qa = w :: q ∧ s.core.qc = [] := ⟨demo 32 .a { runner with qa := [4] }, 32, .a, 4, [], rfl, rfl, rfl, rfl⟩
theorem witness_ScalarSourcesReadX : ∃ (s : State) (key : Nat) (e : EngTag) (w : Word) (q : List Word), s.cur = .cell key e ∧ e = .x
    ∧ s.core.qx = w :: q := ⟨demo 32 .x { runner with qx := [4] }, 32, .x, 4, [], rfl, rfl, rfl⟩
theorem witness_ScalarDestinationsWrite : ∃ (s : State) (key : Nat) (e : EngTag) (code : BitVec 8), s.cur = .cell key e ∧ e = .c
    ∧ code.toNat < 64 ∧ code ≠ 0 ∧ s.core.handler = none ∧ (∀ v ∈ s.core.xVer, v.reg ≠ code.toNat) :=
  ⟨demo 32 .c runner, 32, .c, 63, rfl, rfl, by decide, by decide, rfl, by decide⟩
theorem witness_ScalarDestinationsPush : ∃ (s : State) (key : Nat), s.cur = .cell key .a ∧ s.core.engX.done = false
    ∧ s.core.qx.length = 63 ∧ s.core.engC.done = false ∧ s.core.qc.length = 31 :=
  ⟨demo 32 .a { runner with qx := List.replicate 63 1, qc := List.replicate 31 1 }, 32, rfl, rfl, rfl, rfl, rfl⟩
theorem witness_ScalarDestinationsFull : ∃ (s : State) (key : Nat), s.cur = .cell key .c ∧ s.core.engA.done = false
    ∧ s.core.qa.length = 32 := ⟨demo 32 .c { runner with qa := List.replicate 32 1 }, 32, rfl, rfl, rfl⟩
theorem witness_ScalarDestinationsDiscard : ∃ (s : State) (key : Nat), s.cur = .cell key .c ∧ s.core.engA.done = true :=
  ⟨demo 32 .c { runner with engA := { Eng.fresh with done := true } }, 32, rfl, rfl⟩

/-- NOP waits for a held push, for the slip window, for a token. -/
theorem witness_WordsWaitToIssue : ∃ (i : Instr) (h : Hdr) (s : State) (key : Nat) (e : EngTag), i.body.hdr = some h
    ∧ s.cur = .cell key e ∧ (FMap.find? s.cells key).isSome = true ∧ s.core.mayRun e = true ∧ (s.core.eng e).held.isSome = true :=
  ⟨.nop (r3 7 0 0 0 0 0 0), _, demo 32 .c { runner with engC := { Eng.fresh with held := some ⟨.a, 1⟩ } }, 32, .c, rfl, rfl, rfl, by decide, rfl⟩
theorem witness_WordsWaitForTheWindow : ∃ (s : State) (key : Nat) (e : EngTag), s.cur = .cell key e ∧ s.core.mayRun e = true
    ∧ (s.core.eng e).held = none ∧ s.myFault = none ∧ (s.core.eng e).issued = false ∧ s.core.slipOk s.curClass e = false :=
  ⟨demo 32 .c { runner with engC := { Eng.fresh with pos := 256 } }, 32, .c, rfl, by decide, rfl, rfl, rfl, by decide⟩
theorem witness_WordsWaitForTokens : ∃ (s : State) (key : Nat) (e : EngTag) (w : BitVec 8), s.cur = .cell key e
    ∧ s.core.mayRun e = true ∧ (s.core.eng e).held = none ∧ s.myFault = none ∧ (s.core.eng e).issued = false
    ∧ s.core.slipOk s.curClass e = true ∧ ∃ k, k < 8 ∧ w.getLsbD k = true ∧ ((s.core.eng e).counter k).toNat ≤ s.core.pushedNow e k
    ∧ (s.core.eng e).counter k = 1 :=
  ⟨demo 32 .c { runner with engC := { Eng.fresh with tok := [(7, 1)] }, nowTok := [(2, ⟨.c, 7⟩)] }, 32, .c, 0x80, rfl, by decide, rfl, rfl, rfl, by decide, 7, by decide, by decide,
    by decide, by decide⟩
/-- A word that takes two tokens. -/
theorem witness_WaitDecrementsCounters : ∃ (s : State) (key : Nat) (e : EngTag) (h : Hdr), Issues s key e h ∧ h.wait = 0x81 :=
  ⟨demo 32 .a { runner with engA := { Eng.fresh with tok := [(0, 1), (7, 255)] } }, 32, .a, ⟨0x81, none, 1⟩,
    issues_of rfl (by decide), rfl⟩
theorem witness_RetirementMovesTheEngineOn : ∃ (s : State) (key : Nat) (e : EngTag) (h : Hdr), s.cur = .cell key e ∧ h.sig = none
    ∧ s.core.handler = none ∧ (s.core.eng e).lstack = [] := ⟨demo 32 .c runner, 32, .c, hd 0, rfl, rfl, rfl, rfl⟩
theorem witness_SignalPushesAToken : ∃ (s : State) (key : Nat) (e : EngTag) (h : Hdr) (g : Sig), s.cur = .cell key e ∧ h.sig = some g
    ∧ g.done = false ∧ h.eng ≠ 7 ∧ g.eng ≠ e ∧ s.core.handler = none ∧ (s.core.eng e).lstack = []
    ∧ (s.core.eng g.eng).done = false ∧ ((s.core.eng g.eng).applyCq g.cnt).counter g.cnt.toNat = 255
    ∧ ∀ x ∈ s.core.nowTok, x.1 ≤ e.num ∨ x.2 ≠ ⟨g.eng, g.cnt⟩ :=
  ⟨demo 32 .c { runner with engA := { Eng.fresh with tok := [(7, 254)], cq := [7] } }, 32, .c, ⟨0, some ⟨.a, 7, false⟩, 0⟩, _, rfl, rfl, rfl,
    by decide, by decide, rfl, rfl, rfl, by decide, by decide⟩
/-- A push of X to a full counter, which A's of the same cycle reached first. -/
theorem witness_SignalTakesTheTurn : ∃ (s : State) (e e' : EngTag) (g : Sig), (s.core.eng g.eng).done = false
    ∧ ((s.core.eng g.eng).applyCq g.cnt).counter g.cnt.toNat = 255 ∧ s.core.nowTok = [(e'.num, ⟨g.eng, g.cnt⟩)] ∧ e.num < e'.num
    ∧ (s.core.eng e').held = none ∧ (s.core.eng e').issued = false ∧ s.cur = .cell 32 e :=
  ⟨demo 32 .a { runner with engM := { Eng.fresh with tok := [(7, 255)] }, nowTok := [(2, ⟨.m, 7⟩)] }, .a, .x, ⟨.m, 7, false⟩, rfl,
    by decide, rfl, by decide, rfl, rfl, rfl⟩
/-- The same where X has issued its next word since. -/
theorem witness_SignalComesTooLate : ∃ (s : State) (e e' : EngTag) (g : Sig), ((s.core.eng g.eng).applyCq g.cnt).counter g.cnt.toNat = 255
    ∧ s.core.nowTok = [(e'.num, ⟨g.eng, g.cnt⟩)] ∧ e.num < e'.num ∧ (s.core.eng e').issued = true :=
  ⟨demo 32 .a { runner with engM := { Eng.fresh with tok := [(7, 255)] }, engX := { Eng.fresh with issued := true }, nowTok := [(2, ⟨.m, 7⟩)] },
    .a, .x, ⟨.m, 7, false⟩, by decide, rfl, by decide, rfl⟩

/-! ### Scalar words -/

/-- LI, CLZ of 1, SEL, BFX of the top nibble signed, BFI, on C and A. -/
theorem witness_Li : ∃ (f : Ri) (s : State) (key : Nat) (e : EngTag) (t : State), Issues s key e f.hdr
    ∧ (s.waited f.hdr).dst f.d (f.imm.signExtend 64) = .ok t :=
  ⟨ri 0 0xFE 0 0x80000, demo 32 .c runner, 32, .c, _, issues_of rfl (by decide), rfl⟩
theorem witness_Clz : ∃ (f : Rrr) (s : State) (key : Nat) (e : EngTag) (a : Word) (s1 : State) (n : Nat) (t : State),
    Issues s key e f.hdr ∧ (s.waited f.hdr).src f.a (litVal f.ty.toNat f.w1) = .ok (a, s1) ∧ n ≤ (ity f).w
    ∧ (∀ i, (ity f).w - n ≤ i → i < (ity f).w → a.getLsbD i = false)
    ∧ (n < (ity f).w → a.getLsbD ((ity f).w - 1 - n) = true) ∧ s1.dst f.d (BitVec.ofNat 64 n) = .ok t := by
  refine ⟨r3 1 3 5 0 5 0 0, demo 32 .a { runner with a := [(5, 0xFFF0001)] }, 32, .a, 0xFFF0001, _, 15, _, issues_of rfl (by decide),
    rfl, by decide, ?_, fun _ => rfl, rfl⟩
  intro i h1 h2
  have hw : (ity (r3 1 3 5 0 5 0 0)).w = 16 := rfl
  rw [hw] at h1 h2
  have : ∀ i, 1 ≤ i → i < 16 → (0xFFF0001 : Word).getLsbD i = false := by decide
  exact this i (by omega) h2
theorem witness_Sel : ∃ (f : Rrr) (s : State) (key : Nat) (e : EngTag) (old a b : Word) (s2 t : State), Issues s key e f.hdr
    ∧ (s.waited f.hdr).readReg f.d.toNat = .ok old ∧ ReadsTwo (s.waited f.hdr) f.a f.b (litVal 0 f.w1) a b s2
    ∧ s2.dst f.d (if old = 0 then b else a) = .ok t ∧ old ≠ 0 :=
  ⟨r3 1 3 5 6 0 0 0, demo 32 .a { runner with a := [(3, 1), (5, 9)] }, 32, .a, 1, 9, 0, _, _, issues_of rfl (by decide), rfl,
    ⟨_, rfl, rfl⟩, rfl, by decide⟩
theorem witness_Bfx : ∃ (f : Rrr) (s : State) (key : Nat) (e : EngTag) (a b : Word) (s2 : State) (y : Word) (t : State),
    Issues s key e f.hdr ∧ ReadsTwo (s.waited f.hdr) f.a f.b (litVal f.ty.toNat f.w1) a b s2
    ∧ (∀ i, i < 64 → y.getLsbD i = if i < fieldLen b then a.getLsbD (fieldPos b + i)
        else f.fl.getLsbD 0 && decide (0 < fieldLen b) && a.getLsbD (fieldPos b + (fieldLen b - 1))) ∧ s2.dst f.d y = .ok t :=
  ⟨r3 1 3 5 6 0 0 1, demo 32 .a { runner with a := [(5, 0xA000000000000000), (6, 0x43C)] }, 32, .a, 0xA000000000000000, 0x43C, _,
    0xFFFFFFFFFFFFFFFA, _, issues_of rfl (by decide), ⟨_, rfl, rfl⟩, by decide, rfl⟩
theorem witness_Bfi : ∃ (f : Rrr) (s : State) (key : Nat) (e : EngTag) (old a b : Word) (s2 : State) (y : Word) (t : State),
    Issues s key e f.hdr ∧ (s.waited f.hdr).readReg f.d.toNat = .ok old ∧ ReadsTwo (s.waited f.hdr) f.a f.b (litVal 0 f.w1) a b s2
    ∧ (∀ i, i < 64 → y.getLsbD i = if fieldPos b ≤ i ∧ i < fieldPos b + fieldLen b then a.getLsbD (i - fieldPos b) else old.getLsbD i)
    ∧ s2.dst f.d y = .ok t :=
  ⟨r3 1 3 5 6 0 0 0, demo 32 .a { runner with a := [(3, 0xFFFF), (5, 0x5), (6, 0x404)] }, 32, .a, 0xFFFF, 5, 0x404, _,
    0xFF5F, _, issues_of rfl (by decide), rfl, ⟨_, rfl, rfl⟩, by decide, rfl⟩

/-- A context of partition 1 with its four windows: SELF of 16 MiB at 2^24, DIE of 128 MiB at 2^32, TARN at 2^36, GLOBAL
at 2^44. -/
def ctx1 : Ctx :=
  { part := 1, root := 0, aper := [0x1180001, 0x1001B0001, 0x10001E0001, 0x100000280001], watch := [], trctl := 0, trbase := 0,
    dump := none, terminated := false, condemned := [], savedTlb := [] }
/-- Partition 1: stack 0, whose second layer is a TIER. -/
def part1 : Part :=
  { ver := 1, stackMask := 1, dies := [1, 2, 3, 4], hbmFrames := 16, usedFrames := 0, respool := 0, activeCtx := 1,
    power := [] }
/-- A ROLE_SET behind a PREEMPT of a context of its partition that is still open. -/
theorem witness_CommandsWait : ∃ (s : State) (i : Instr), s.cmdWaits i = true :=
  ⟨{ hosted with ctxs := [(1, ctx1)], nodes := [(0, { Node.runningOn 1 1 with preempts := [⟨0x1000, false, 0, 1, 1, 0, 0, 0, 0⟩] })] },
    .roleSet ⟨0x1040, false, 0, 1, 2, 0, 0, 0, 0⟩, by decide⟩
/-- An engine of a running shard of context 1 on chiplet 1; its first GLOBAL page is translated to HBM frame 0. -/
def world (e : EngTag) (c : Cell) : State :=
  { coded 32 e { c with tlb := [(2 ^ 30, ⟨0, 14, true⟩)] } [0, 0, 0, 0] with
    ctxs := [(1, ctx1)], parts := [(1, part1)], dies := [(2, { Die.reset 2 with role := 1 })] }

theorem witness_CvtaTow : ∃ (f : Rrr) (s : State) (key : Nat) (e : EngTag) (a : Word) (s1 : State) (off : Nat) (t : State),
    Issues s key e f.hdr ∧ f.fl.getLsbD 0 = false ∧ (s.waited f.hdr).src f.a (litVal 0 f.w1) = .ok (a, s1)
    ∧ windowOf s1.curApers (addrVa a) = some (f.rs.toNat, off) ∧ canonical a = true ∧ s1.dst f.d (BitVec.ofNat 64 off) = .ok t :=
  ⟨r3 1 3 5 0 0 0 0, world .a { runner with a := [(5, 0xF0000000017FFFFF)] }, 32, .a, 0xF0000000017FFFFF, _, 0x7FFFFF, _,
    issues_of rfl (by decide), rfl, rfl, by decide, rfl, rfl⟩
theorem witness_CvtaTowOutside : ∃ (f : Rrr) (s : State) (key : Nat) (e : EngTag) (a : Word) (s1 t : State),
    Issues s key e f.hdr ∧ f.fl.getLsbD 0 = false ∧ (s.waited f.hdr).src f.a (litVal 0 f.w1) = .ok (a, s1)
    ∧ (canonical a = false ∨ ∀ off, windowOf s1.curApers (addrVa a) ≠ some (f.rs.toNat, off))
    ∧ s1.dst f.d (BitVec.allOnes 64) = .ok t :=
  ⟨r3 1 3 5 0 0 0 0, world .a { runner with a := [(5, 0x0200000001000000)] }, 32, .a, 0x0200000001000000, _, _,
    issues_of rfl (by decide), rfl, rfl, .inl rfl, rfl⟩
theorem witness_CvtaTog : ∃ (f : Rrr) (s : State) (key : Nat) (e : EngTag) (a b : Word) (s2 : State) (w : Word) (base size : Nat)
    (t : State), Issues s key e f.hdr ∧ f.fl.getLsbD 0 = true ∧ ReadsTwo (s.waited f.hdr) f.a f.b (litVal 0 f.w1) a b s2
    ∧ s2.curApers[f.rs.toNat]? = some w ∧ aperRange w = some (base, size) ∧ a.toNat < size
    ∧ s2.dst f.d (BitVec.ofNat 64 (b.toNat % 16 * 2 ^ 60 + (base + a.toNat))) = .ok t :=
  ⟨r3 1 3 5 6 0 0 1, world .a { runner with a := [(5, 0xFFFFFF), (6, 0x1F)] }, 32, .a, 0xFFFFFF, 0x1F, _, 0x1180001, 2 ^ 24, 2 ^ 24, _,
    issues_of rfl (by decide), rfl, ⟨_, rfl, rfl⟩, rfl, rfl, by decide, rfl⟩
theorem witness_CvtaTogBeyond : ∃ (f : Rrr) (s : State) (key : Nat) (e : EngTag) (a b : Word) (s2 t : State),
    Issues s key e f.hdr ∧ f.fl.getLsbD 0 = true ∧ ReadsTwo (s.waited f.hdr) f.a f.b (litVal 0 f.w1) a b s2
    ∧ (∀ w base size, s2.curApers[f.rs.toNat]? = some w → aperRange w = some (base, size) → size ≤ a.toNat)
    ∧ s2.dst f.d (BitVec.allOnes 64) = .ok t := by
  refine ⟨r3 1 3 5 6 0 0 1, world .a { runner with a := [(5, 0x1000000)] }, 32, .a, 0x1000000, 0, _, _, issues_of rfl (by decide), rfl,
    ⟨_, rfl, rfl⟩, ?_, rfl⟩
  intro w base size h1 h2
  have h3 : (world .a { runner with a := [(5, 0x1000000)] }).curApers[0]? = some 0x1180001 := by decide
  have h4 : w = 0x1180001 := Option.some.inj (h1.symm.trans h3)
  subst h4
  have h5 : (2 ^ 24, 2 ^ 24) = (base, size) := Option.some.inj ((by decide : some (2 ^ 24, 2 ^ 24) = aperRange 0x1180001).trans h2)
  cases h5; decide
theorem witness_Aptest : ∃ (f : Rrr) (s : State) (key : Nat) (e : EngTag) (a : Word) (s1 : State) (i off : Nat) (t : State),
    Issues s key e f.hdr ∧ (s.waited f.hdr).src f.a (litVal f.ty.toNat f.w1) = .ok (a, s1)
    ∧ windowOf s1.curApers (addrVa a) = some (i, off) ∧ canonical a = true
    ∧ s1.beyond (keyChip s1.curKey) (s1.ctxPart (s1.nodeCtx s1.curNode)) i off = true
    ∧ s1.dst f.d (BitVec.ofNat 64 (i + 16)) = .ok t :=
  ⟨r3 0 3 5 0 0 0 0, world .c { runner with x := [(5, 0x100C000000)] }, 32, .c, 0x100C000000, _, 2, 0xC000000, _,
    issues_of rfl (by decide), rfl, by decide, rfl, by decide, rfl⟩
theorem witness_AptestOutside : ∃ (f : Rrr) (s : State) (key : Nat) (e : EngTag) (a : Word) (s1 t : State),
    Issues s key e f.hdr ∧ (s.waited f.hdr).src f.a (litVal f.ty.toNat f.w1) = .ok (a, s1)
    ∧ windowOf s1.curApers (addrVa a) = none ∧ s1.dst f.d 0xF = .ok t :=
  ⟨r3 0 3 5 0 0 0 0, world .c { runner with x := [(5, 0xFFFFFF)] }, 32, .c, 0xFFFFFF, _, _, issues_of rfl (by decide), rfl, by decide, rfl⟩
theorem witness_Lcset : ∃ (f : Rrr) (s : State) (key : Nat) (e : EngTag) (a : Word) (s1 t : State), Issues s key e f.hdr
    ∧ (s.waited f.hdr).src f.a (litVal 0 f.w1) = .ok (a, s1) ∧ a.toInt < 0 ∧ s1.writeLc f.d.toNat 0 = .ok t :=
  ⟨r3 1 15 5 0 0 0 0, demo 32 .a { runner with a := [(5, 0xFFFFFFFFFFFFFFFF)] }, 32, .a, 0xFFFFFFFFFFFFFFFF, _, _,
    issues_of rfl (by decide), rfl, by decide, rfl⟩

/-! ### Control flow -/

/-- The words that need no more than to start. -/
theorem witness_Nop : ∃ (f : Rrr) (s : State) (key : Nat) (e : EngTag) (s0 : State), Starts (.nop f) s key e s0 ∧ f.hdr.wait ≠ 0 :=
  ⟨⟨⟨1, none, 7⟩, 0, 0, 0, 0, 0, 0, none⟩, demo 32 .m { runner with engM := { Eng.fresh with tok := [(0, 1)] } }, 32, .m, _,
    starts_of rfl rfl (by decide), by decide⟩
theorem witness_BrAlways : ∃ (f : Br) (s : State) (key : Nat) (e : EngTag) (s0 : State), Starts (.br f) s key e s0 ∧ f.cond = 0 :=
  ⟨bf 0 false 0 2, demo 32 .x runner, 32, .x, _, starts_of rfl rfl (by decide), rfl⟩
theorem witness_BrProducer : ∃ (f : Br) (s : State) (key : Nat) (e : EngTag) (s0 : State) (v : Word) (t : State),
    Starts (.br f) s key e s0 ∧ f.cond ≠ 0 ∧ s.core.handler = none ∧ e = (if f.prod then .a else .c)
    ∧ s0.readReg f.reg.toNat = .ok v ∧ condTaken f.cond.toNat v = true
    ∧ s0.pushBq ⟨.outcome, 1, s0.curPc, (s0.core.eng e).pos⟩ = .ok t :=
  ⟨bf 3 true 5 0xFFFFFF, demo 32 .a { runner with a := [(5, 0x8000000000000000)] }, 32, .a, _, 0x8000000000000000, _,
    starts_of rfl rfl (by decide), by decide, rfl, rfl, rfl, by decide, rfl⟩
theorem witness_BrConsumer : ∃ (f : Br) (s : State) (key : Nat) (e : EngTag) (s0 : State) (v : Word) (pos : Nat),
    Starts (.br f) s key e s0 ∧ f.cond ≠ 0 ∧ s.core.handler = none ∧ e ≠ (if f.prod then .a else .c)
    ∧ s0.headBq = .ok ⟨.outcome, v, s0.curPc, pos⟩ :=
  ⟨bf 2 false 9 4, demo 32 .x { runner with engX := { Eng.fresh with bq := [⟨.outcome, 1, 0, 0⟩] } }, 32, .x, _, 1, 0,
    starts_of rfl rfl (by decide), by decide, rfl, by decide, rfl⟩
/-- A handler that C runs. -/
def handling : Handler := { trapEng := .a, trapPc := 8, cStop := 16, cRstack := [], cLstack := [], cDone := false }
theorem witness_BrHandler : ∃ (f : Br) (s : State) (key : Nat) (e : EngTag) (s0 : State) (v : Word), Starts (.br f) s key e s0
    ∧ f.cond ≠ 0 ∧ s.core.handler.isSome = true ∧ f.prod = false ∧ e = .c ∧ s0.readReg f.reg.toNat = .ok v :=
  ⟨bf 1 false 9 4, demo 32 .c { runner with handler := some handling }, 32, .c, _, 0, starts_of rfl rfl (by decide), by decide, rfl,
    rfl, rfl, rfl⟩
theorem witness_OutcomesAreExchanged : ∃ (s : State) (key : Nat) (e : EngTag) (to_ : List EngTag), s.cur = .cell key e ∧ to_.Nodup
    ∧ (∀ g ∈ to_, (s.core.eng g).done = true ∨ (s.core.eng g).bq.length < 64) ∧ (s.core.eng .x).bq.length = 63 :=
  ⟨demo 32 .c { runner with engX := { Eng.fresh with bq := List.replicate 63 ⟨.out, 0, 0, 0⟩ } }, 32, .c, [.a, .x], rfl, by decide,
    by decide, rfl⟩
theorem witness_OutcomeQueuesFull : ∃ (s : State) (key : Nat) (e : EngTag) (to_ : List EngTag), s.cur = .cell key e ∧ to_.Nodup
    ∧ ∃ g ∈ to_, (s.core.eng g).done = false ∧ 64 ≤ (s.core.eng g).bq.length :=
  ⟨demo 32 .c { runner with engX := { Eng.fresh with bq := List.replicate 64 ⟨.out, 0, 0, 0⟩ } }, 32, .c, [.a, .x], rfl, by decide,
    .x, by decide, rfl, by decide⟩
theorem witness_OutcomeMismatch : ∃ (f : Br) (s : State) (key : Nat) (e : EngTag) (s0 : State) (x : BqEnt), Starts (.br f) s key e s0
    ∧ f.cond ≠ 0 ∧ s.core.handler = none ∧ e ≠ (if f.prod then .a else .c) ∧ s0.headBq = .ok x ∧ x.pc ≠ s0.curPc :=
  ⟨bf 2 false 9 4, demo 32 .x { runner with engX := { Eng.fresh with bq := [⟨.outcome, 1, 8, 1⟩] } }, 32, .x, _, ⟨.outcome, 1, 8, 1⟩,
    starts_of rfl rfl (by decide), by decide, rfl, by decide, rfl, by decide⟩
theorem witness_FollowWaits : ∃ (f : Br) (s : State) (key : Nat) (e : EngTag) (s0 : State), Starts (.follow f) s key e s0
    ∧ s.core.handler = none ∧ (s0.core.eng e).bq = [] :=
  ⟨bf 2 false 0 4, demo 32 .x runner, 32, .x, _, starts_of rfl rfl (by decide), rfl, rfl⟩
theorem witness_Call : ∃ (f : Br) (s : State) (key : Nat) (e : EngTag) (s0 : State), Starts (.call f) s key e s0
    ∧ (s0.core.eng e).rstack.length = 15 :=
  ⟨bf 0 false 0 4, demo 32 .x { runner with engX := { Eng.fresh with rstack := List.replicate 15 8 } }, 32, .x, _,
    starts_of rfl rfl (by decide), rfl⟩
theorem witness_CallFull : ∃ (f : Br) (s : State) (key : Nat) (e : EngTag) (s0 : State), Starts (.call f) s key e s0
    ∧ 16 ≤ (s0.core.eng e).rstack.length ∧ e = .c :=
  ⟨bf 0 false 0 4, demo 32 .c { runner with engC := { Eng.fresh with rstack := List.replicate 16 8 } }, 32, .c, _,
    starts_of rfl rfl (by decide), by decide, rfl⟩
theorem witness_Ret : ∃ (f : Br) (s : State) (key : Nat) (e : EngTag) (s0 : State) (r : Nat) (rs : List Nat), Starts (.ret f) s key e s0
    ∧ (s0.core.eng e).rstack = r :: rs :=
  ⟨bf 0 false 0 0, demo 32 .x { runner with engX := { Eng.fresh with rstack := [8] } }, 32, .x, _, 8, [],
    starts_of rfl rfl (by decide), rfl⟩
theorem witness_RetEmpty : ∃ (f : Br) (s : State) (key : Nat) (e : EngTag) (s0 : State), Starts (.ret f) s key e s0
    ∧ (s0.core.eng e).rstack = [] ∧ e = .c := ⟨bf 0 false 0 0, demo 32 .c runner, 32, .c, _, starts_of rfl rfl (by decide), rfl, rfl⟩
theorem witness_Jmpi : ∃ (f : Br) (s : State) (key : Nat) (e : EngTag) (s0 : State) (v : Word) (t : State), Starts (.jmpi f) s key e s0
    ∧ s.core.handler = none ∧ e = (if f.prod then .a else .c) ∧ s0.readReg f.reg.toNat = .ok v ∧ v.toNat % 8 = 0
    ∧ v.toNat < 8 * s0.curCode.length ∧ s0.pushBq ⟨.target, v, s0.curPc, (s0.core.eng e).pos⟩ = .ok t :=
  ⟨bf 0 false 5 0, coded 32 .c { runner with x := [(5, 24)] } [0, 0, 0, 0], 32, .c, _, 24, _, starts_of rfl rfl (by decide), rfl, rfl, rfl,
    rfl, by decide, rfl⟩
theorem witness_JmpiOutside : ∃ (f : Br) (s : State) (key : Nat) (e : EngTag) (s0 : State) (v : Word), Starts (.jmpi f) s key e s0
    ∧ s.core.handler = none ∧ e = (if f.prod then .a else .c) ∧ s0.readReg f.reg.toNat = .ok v ∧ 8 * s0.curCode.length ≤ v.toNat :=
  ⟨bf 0 false 5 0, coded 32 .c { runner with x := [(5, 32)] } [0, 0, 0, 0], 32, .c, _, 32, starts_of rfl rfl (by decide), rfl, rfl, rfl,
    by decide⟩
theorem witness_JmpiConsumer : ∃ (f : Br) (s : State) (key : Nat) (e : EngTag) (s0 : State) (v : Word) (pos : Nat),
    Starts (.jmpi f) s key e s0 ∧ s.core.handler = none ∧ e ≠ (if f.prod then .a else .c)
    ∧ s0.headBq = .ok ⟨.target, v, s0.curPc, pos⟩ :=
  ⟨bf 0 false 5 0, demo 32 .x { runner with engX := { Eng.fresh with bq := [⟨.target, 24, 0, 0⟩] } }, 32, .x, _, 24, 0,
    starts_of rfl rfl (by decide), rfl, by decide, rfl⟩
theorem witness_Calli : ∃ (f : Br) (s : State) (key : Nat) (e : EngTag) (s0 s1 : State) (v : Word) (t : State),
    Starts (.calli f) s key e s0 ∧ s.core.handler = none ∧ e = (if f.prod then .a else .c) ∧ (s0.core.eng e).rstack.length < 16
    ∧ s1 = (s0.modEng fun g => { g with rstack := (g.pc + (if f.w1.isSome then 16 else 8)) :: g.rstack })
    ∧ s1.readReg f.reg.toNat = .ok v ∧ v.toNat % 8 = 0 ∧ v.toNat < 8 * s1.curCode.length
    ∧ s1.pushBq ⟨.target, v, s0.curPc, (s0.core.eng e).pos⟩ = .ok t :=
  ⟨bf 0 true 5 0, coded 32 .a { runner with a := [(5, 24)] } [0, 0, 0, 0], 32, .a, _, _, 24, _, starts_of rfl rfl (by decide), rfl, rfl,
    by decide, rfl, rfl, rfl, by decide, rfl⟩
theorem witness_LoopOpens : ∃ (f : Lp) (s : State) (key : Nat) (e : EngTag) (s0 : State) (n : Nat), Starts (.loop f) s key e s0
    ∧ s0.readLc f.lc.toNat = .ok n ∧ n ≠ 0 ∧ (s0.core.eng e).lstack.length < 8 ∧ f.rot = true ∧ e = .x :=
  ⟨⟨hd 7, 15, 0, 7, true, 4, none⟩, demo 32 .x { runner with lc := [(15, 3)] }, 32, .x, _, 3, starts_of rfl rfl (by decide), rfl,
    by decide, by decide, rfl, rfl⟩
theorem witness_LoopSkips : ∃ (f : Lp) (s : State) (key : Nat) (e : EngTag) (s0 : State) (n : Nat), Starts (.loop f) s key e s0
    ∧ s0.readLc f.lc.toNat = .ok n ∧ n = 0 :=
  ⟨⟨hd 7, 0, 0, 0, false, 4, none⟩, demo 32 .c runner, 32, .c, _, 0, starts_of rfl rfl (by decide), rfl, rfl⟩
/-- A loop of three words. -/
def looping : LoopEnt := { endPc := 32, startPc := 8, left := 2, rot := false, n := 2, stg := 0, iter := 0 }
theorem witness_LoopFull : ∃ (f : Lp) (s : State) (key : Nat) (e : EngTag) (s0 : State) (n : Nat), Starts (.loop f) s key e s0
    ∧ s0.readLc f.lc.toNat = .ok n ∧ n ≠ 0 ∧ 8 ≤ (s0.core.eng e).lstack.length ∧ e = .c :=
  ⟨⟨hd 7, 0, 0, 0, false, 4, none⟩, demo 32 .c { runner with lc := [(0, 1)], engC := { Eng.fresh with lstack := List.replicate 8 looping } },
    32, .c, _, 1, starts_of rfl rfl (by decide), rfl, by decide, by decide, rfl⟩
theorem witness_Break : ∃ (f : Br) (s : State) (key : Nat) (e : EngTag) (s0 : State), Starts (.break_ f) s key e s0
    ∧ (s0.core.eng e).lstack ≠ [] ∧ f.cond = 0 :=
  ⟨bf 0 false 0 4, demo 32 .x { runner with engX := { Eng.fresh with lstack := [looping] } }, 32, .x, _, starts_of rfl rfl (by decide),
    by decide, rfl⟩
theorem witness_BreakEmpty : ∃ (f : Br) (s : State) (key : Nat) (e : EngTag) (s0 : State), Starts (.break_ f) s key e s0
    ∧ (s0.core.eng e).lstack = [] ∧ e = .c := ⟨bf 0 false 0 4, demo 32 .c runner, 32, .c, _, starts_of rfl rfl (by decide), rfl, rfl⟩
theorem witness_BreakIf : ∃ (f : Br) (s : State) (key : Nat) (e : EngTag) (s0 : State) (v : Word) (t : State),
    Starts (.break_ f) s key e s0 ∧ (s0.core.eng e).lstack ≠ [] ∧ f.cond ≠ 0 ∧ s.core.handler = none
    ∧ e = (if f.prod then .a else .c) ∧ s0.readReg f.reg.toNat = .ok v ∧ condTaken f.cond.toNat v = true
    ∧ s0.pushBq ⟨.outcome, 1, s0.curPc, (s0.core.eng e).pos⟩ = .ok t :=
  ⟨bf 7 false 5 4, demo 32 .c { runner with x := [(5, 1)], engC := { Eng.fresh with lstack := [looping] } }, 32, .c, _, 1, _,
    starts_of rfl rfl (by decide), by decide, by decide, rfl, rfl, rfl, by decide, rfl⟩
/-- The loop end: it iterates at 2 left, it leaves at 1. -/
theorem witness_LoopEnds : ∃ l : LoopEnt, l.startPc ≠ l.endPc ∧ 1 < l.left ∧ l.endPc = 32 := ⟨looping, by decide, by decide, rfl⟩
theorem witness_Out : ∃ (f : Rrr) (s : State) (key : Nat) (s0 : State) (a : Word) (s1 t : State), Starts (.out f) s key .c s0
    ∧ s.core.handler = none ∧ s0.src f.a (litVal 0 f.w1) = .ok (a, s1)
    ∧ s1.pushBq ⟨.out, if a = 0 then 0 else 1, s1.curPc, (s1.core.eng .c).pos⟩ = .ok t :=
  ⟨r3 0 0 5 0 0 0 0, demo 32 .c { runner with x := [(5, 2)] }, 32, _, 2, _, _, starts_of rfl rfl (by decide), rfl, rfl, rfl⟩
theorem witness_Follow : ∃ (f : Br) (s : State) (key : Nat) (e : EngTag) (s0 : State) (v : Word) (pc pos : Nat),
    Starts (.follow f) s key e s0 ∧ s.core.handler = none ∧ s0.headBq = .ok ⟨.out, v, pc, pos⟩ ∧ f.cond = 1 :=
  ⟨bf 1 false 0 4, demo 32 .m { runner with engM := { Eng.fresh with bq := [⟨.out, 0, 8, 1⟩] } }, 32, .m, _, 0, 8, 1,
    starts_of rfl rfl (by decide), rfl, rfl, rfl⟩

/-- At REGION: an engine that waits, C that waits, C that completes, an open loop. -/
theorem witness_RegionWaits : ∃ (f : Rrr) (s : State) (key : Nat) (e : EngTag) (s0 : State), Starts (.region f) s key e s0
    ∧ s.core.handler = none ∧ e = .c ∧ s0.allHere = false :=
  ⟨r3 7 0 0 0 0 0 0, demo 1056 .c { runner with engC := { Eng.fresh with pos := 1 } }, 1056, .c, _, starts_of rfl rfl (by decide), rfl, rfl,
    by decide⟩
theorem witness_FenceWaits : ∃ (f : Rrr) (s : State) (key : Nat) (e : EngTag) (s0 : State), Starts (.fenceEng f) s key e s0
    ∧ s.core.handler = none ∧ e ≠ .c :=
  ⟨r3 7 0 0 0 0 0 0, demo 1056 .x runner, 1056, .x, _, starts_of rfl rfl (by decide), rfl, by decide⟩
theorem witness_Region : ∃ (f : Rrr) (s : State) (key : Nat) (s0 : State), Starts (.region f) s key .c s0 ∧ s.core.handler = none
    ∧ s0.allHere = true ∧ s0.core.jobs = []
    ∧ (∀ g ∈ s0.core.live s0.curClass, (s0.core.eng g).rstack = [] ∧ (s0.core.eng g).lstack = [])
    ∧ (∀ g ∈ s0.core.live s0.curClass, (s0.core.eng g).bq = [] ∧ (s0.core.eng g).cq = [])
    ∧ s0.core.qx = [] ∧ s0.core.qc = [] ∧ s0.core.qa = [] ∧ s0.core.restarting = false :=
  ⟨r3 7 0 0 0 0 0 0, demo 1056 .c { runner with engA := { Eng.fresh with issued := true }, engX := { Eng.fresh with issued := true } }, 1056,
    _, starts_of rfl rfl (by decide), rfl, by decide, rfl, by decide, by decide, rfl, rfl, rfl, rfl⟩
theorem witness_RegionOpen : ∃ (f : Rrr) (s : State) (key : Nat) (s0 : State) (g : EngTag), Starts (.region f) s key .c s0
    ∧ s.core.handler = none ∧ s0.allHere = true ∧ s0.core.jobs = [] ∧ g ∈ s0.core.live s0.curClass ∧ (s0.core.eng g).lstack ≠ [] :=
  ⟨r3 7 0 0 0 0 0 0, demo 1056 .c { runner with engA := { Eng.fresh with issued := true }, engX := { Eng.fresh with issued := true, lstack := [looping] } }, 1056,
    _, .x, starts_of rfl rfl (by decide), rfl, by decide, rfl, by decide, by decide⟩
theorem witness_End : ∃ (f : Rrr) (s : State) (key : Nat) (e : EngTag) (s0 : State), Starts (.end_ f) s key e s0 ∧ s.core.handler = none
    ∧ (s0.core.eng e).lstack ≠ [] :=
  ⟨r3 7 0 0 0 0 0 0, demo 32 .w { runner with engW := { Eng.fresh with lstack := [looping] } }, 32, .w, _, starts_of rfl rfl (by decide),
    rfl, by decide⟩

/-! ### Traps and system words -/

theorem witness_TrapEntrySavesAndEnters : ∃ (s : State) (key : Nat) (e : EngTag) (r : Raise), s.cur = .cell key e
    ∧ trapClass r.code = true ∧ s.core.tvec ≠ 0 ∧ s.core.handler = none ∧ s.core.fatals = [] ∧ s.core.pendTrap = none
    ∧ ∀ g ∈ s.core.live s.curClass, g ≠ e → (s.core.eng g).outside = false :=
  ⟨demo 32 .x { runner with tvec := 64, engX := { Eng.fresh with pc := 24 } }, 32, .x, { code := 0x7F, addr := 9 }, rfl, rfl, by decide,
    rfl, rfl, rfl, by decide⟩
theorem witness_OtherCausesAreFatal : ∃ (s : State) (key : Nat) (e : EngTag) (r : Raise), s.cur = .cell key e
    ∧ (trapClass r.code = false ∨ s.core.tvec = 0 ∨ s.core.handler.isSome = true) :=
  ⟨demo 32 .a { runner with tvec := 64 }, 32, .a, { code := 0x80 }, rfl, .inl rfl⟩
theorem witness_FatalInHandler : ∃ (s : State) (key : Nat) (e : EngTag) (r : Raise), s.cur = .cell key e
    ∧ trapClass r.code = true ∧ s.core.handler.isSome = true :=
  ⟨demo 32 .c { runner with tvec := 64, handler := some handling }, 32, .c, { code := 0x60 }, rfl, rfl, rfl⟩
/-- The edges of the trap class. -/
theorem test_trap_class : trapClass 0x60 = true ∧ trapClass 0x7F = true ∧ trapClass 0x49 = true ∧ trapClass 0x5F = false
    ∧ trapClass 0x80 = false ∧ trapClass 0x48 = false := by decide
theorem witness_Trap : ∃ (f : Ri) (s : State) (key : Nat) (e : EngTag) (s0 : State) (a : Word) (s1 : State), Starts (.trap f) s key e s0
    ∧ s0.src f.a (litVal 0 f.w1) = .ok (a, s1) :=
  ⟨ri 0 0 5 0xFFFFF, demo 32 .c { runner with tvec := 64 }, 32, .c, _, 0, _, starts_of rfl rfl (by decide), rfl⟩
theorem witness_Bkpt : ∃ (f : Ri) (s : State) (key : Nat) (e : EngTag) (s0 : State), Starts (.bkpt f) s key e s0 :=
  ⟨ri 0 0 0 0x80000, demo 32 .c runner, 32, .c, _, starts_of rfl rfl (by decide)⟩
/-- TRAP with a handler: its entry's registers (R140, R146). -/
theorem test_trap_enters : (match exec (.trap (ri 0 0 0 0xFFFFF)) (demo 32 .c { runner with tvec := 64, engC := { Eng.fresh with pc := 16 } }) with
    | .next t => t.core.epc == 16 && t.core.ecause == 0x3000007E && t.core.eaddr == 0xFFFFFFFFFFFFFFFF && t.core.engC.pc == 64
        && t.core.handler.isSome | _ => false) = true := by decide
theorem witness_EretOutside : ∃ (f : Ri) (s : State) (key : Nat) (e : EngTag) (s0 : State), Starts (.eret f) s key e s0
    ∧ s.core.handler = none := ⟨ri 0 0 0 0, demo 32 .c runner, 32, .c, _, starts_of rfl rfl (by decide), rfl⟩
theorem witness_Eret : ∃ (f : Ri) (s : State) (key : Nat) (s0 : State) (h : Handler), Starts (.eret f) s key .c s0
    ∧ s.core.handler = some h ∧ h.trapEng ≠ .c ∧ s.core.epc.toNat = h.trapPc :=
  ⟨ri 0 0 0 0, demo 32 .c { runner with handler := some handling, epc := 8 }, 32, _, handling, starts_of rfl rfl (by decide), rfl,
    by decide, rfl⟩
theorem test_eret_resumes : (match exec (.eret (ri 0 0 0 0)) (demo 32 .c { runner with handler := some handling, epc := 16 }) with
    | .next t => t.core.engA.pc == 16 && t.core.engA.pos == 1 && t.core.engC.pc == 16 && t.core.handler.isNone | _ => false) = true := by
  decide
theorem witness_Csrr : ∃ (f : Ri) (s : State) (key : Nat) (e : EngTag) (s0 t : State), Starts (.csrr f) s key e s0
    ∧ s0.dst f.d (s0.csrRead (f.imm.toNat % 4096)) = .ok t :=
  ⟨ri 0 5 0 0x011, demo 32 .c runner, 32, .c, _, _, starts_of rfl rfl (by decide), rfl⟩
theorem witness_Csrs : ∃ (f : Ri) (s : State) (key : Nat) (e : EngTag) (s0 : State) (a old : Word) (s1 s2 t : State),
    Starts (.csrs f) s key e s0 ∧ (0x200 ≤ f.imm.toNat % 4096 → 0x202 < f.imm.toNat % 4096 ∨ s0.owes .m Instr.isMgo = false)
    ∧ s0.src f.a (litVal 0 f.w1) = .ok (a, s1) ∧ old = s1.csrRead (f.imm.toNat % 4096)
    ∧ s1.csrWrite (f.imm.toNat % 4096) (old ||| a) = .ok s2 ∧ s2.dst f.d old = .ok t :=
  ⟨ri 0 5 6 0x202, demo 32 .c { runner with x := [(6, 0xF0)], sttile := 3 }, 32, .c, _, 0xF0, 3, _, _, _,
    starts_of rfl rfl (by decide), fun _ => .inr (by decide), rfl, rfl, rfl, rfl⟩
/-- WINSLIP clamps, EPC keeps its word address, a read-only register keeps its value. -/
theorem witness_SpecialRegistersStore : ∃ (s : State) (key : Nat) (e : EngTag) (t : State), s.cur = .cell key e
    ∧ s.csrWrite 0x011 0xFFFF = .ok t ∧ (t.csrRead 0x011).toNat = 4096 := ⟨demo 32 .c runner, 32, .c, _, rfl, rfl, rfl⟩
theorem witness_EpcStores : ∃ (s : State) (key : Nat) (e : EngTag) (t : State), s.cur = .cell key e
    ∧ s.csrWrite 0x180 0xFFFFFFFFFFFFFFFF = .ok t ∧ t.csrRead 0x180 = 0x01FFFFFFFFFFFFF8 :=
  ⟨demo 32 .c runner, 32, .c, _, rfl, rfl, by decide⟩
theorem witness_VrotRefused : ∃ (s : State) (key : Nat) (e : EngTag) (w : Word), s.cur = .cell key e
    ∧ 256 < w.toNat % 2 ^ 8 + w.toNat / 2 ^ 8 % 2 ^ 9 := ⟨demo 32 .c runner, 32, .c, 0x10001, rfl, by decide⟩
theorem witness_VrotStores : ∃ (s : State) (key : Nat) (e : EngTag) (w : Word), s.cur = .cell key e
    ∧ w.toNat % 2 ^ 8 + w.toNat / 2 ^ 8 % 2 ^ 9 ≤ 256 ∧ s.core.handler = none ∧ s.core.vrotPend = []
    ∧ s.core.engC.pos < s.core.engX.pos :=
  ⟨demo 32 .c { runner with engX := { Eng.fresh with pos := 1 } }, 32, .c, 0x00000000FF00F010, rfl, by decide, rfl, rfl, by decide⟩
theorem witness_Tick : ∃ (f : Rrr) (s : State) (key : Nat) (e : EngTag) (s0 t : State), Starts (.tick f) s key e s0
    ∧ s0.dst f.d (BitVec.ofNat 64 s.tick) = .ok t :=
  ⟨r3 0 5 0 0 0 0 0, { demo 32 .c runner with tick := 77 }, 32, .c, _, _, starts_of rfl rfl (by decide), rfl⟩
theorem witness_WaittickEnds : ∃ (f : Rrr) (s : State) (key : Nat) (e : EngTag) (s0 : State) (v : Word) (s1 : State),
    Starts (.waittick f) s key e s0 ∧ (s0.core.eng e).waitVal = none ∧ s0.src f.a (litVal 0 f.w1) = .ok (v, s1) ∧ v.toNat ≤ s.tick :=
  ⟨r3 0 0 5 0 0 0 0, { demo 32 .c { runner with x := [(5, 77)] } with tick := 77 }, 32, .c, _, 77, _, starts_of rfl rfl (by decide), rfl,
    rfl, by decide⟩
theorem witness_WaittickWaits : ∃ (f : Rrr) (s : State) (key : Nat) (e : EngTag) (s0 : State) (v : Word) (s1 : State),
    Starts (.waittick f) s key e s0 ∧ (s0.core.eng e).waitVal = none ∧ s0.src f.a (litVal 0 f.w1) = .ok (v, s1) ∧ s.tick < v.toNat :=
  ⟨r3 0 0 5 0 0 0 0, { demo 32 .c { runner with x := [(5, 78)] } with tick := 77 }, 32, .c, _, 78, _, starts_of rfl rfl (by decide), rfl,
    rfl, by decide⟩
theorem witness_Halt : ∃ (f : Rrr) (s : State) (key : Nat) (e : EngTag) (s0 : State), Starts (.halt f) s key e s0 :=
  ⟨r3 0 0 0 0 0 0 0, demo 32 .c runner, 32, .c, _, starts_of rfl rfl (by decide)⟩
theorem witness_Icinv : ∃ (f : Rrr) (s : State) (key : Nat) (e : EngTag) (s0 : State) (a b : Word) (s1 : State) (lo len : Nat),
    Starts (.icinv f) s key e s0 ∧ ReadsTwo s0 f.a f.b (litVal 0 f.w1) a b s1
    ∧ (lo, len) = (if b = 0 then (0, 2 ^ 57) else (addrVa a, min b.toNat (2 ^ 57 - addrVa a))) ∧ b ≠ 0 :=
  ⟨r3 0 0 5 6 0 0 0, demo 32 .c { runner with x := [(5, 64), (6, 1)], icache := [(8, 1)] }, 32, .c, _, 64, 1, _, 64, 1,
    starts_of rfl rfl (by decide), ⟨_, rfl, rfl⟩, by decide, by decide⟩
theorem witness_Tlbinv : ∃ (f : Rrr) (s : State) (key : Nat) (e : EngTag) (s0 : State) (a b : Word) (s1 : State) (lo len : Nat),
    Starts (.tlbinv f) s key e s0 ∧ ReadsTwo s0 f.a f.b (litVal 0 f.w1) a b s1
    ∧ (lo, len) = (if b = 0 then (0, 2 ^ 57) else (addrVa a, min b.toNat (2 ^ 57 - addrVa a))) ∧ f.rs ≠ 0 :=
  ⟨r3 0 0 5 6 0 5 0, world .c runner, 32, .c, _, 0, 0, _, 0, 2 ^ 57, starts_of rfl rfl (by decide), ⟨_, rfl, rfl⟩, by decide, by decide⟩
theorem witness_Watch : ∃ (f : Ri) (s : State) (key : Nat) (e : EngTag) (s0 t : State), Starts (.watch f) s key e s0
    ∧ (s0.setCore { s0.core with watch := armed f s0.core }).dst f.d
      (BitVec.ofNat 64 ((List.range 8).map fun i => if (s0.core.wp i).ctl.getLsbD 8 then 2 ^ i else 0).sum) = .ok t :=
  ⟨ri 0 5 0 0xF, demo 32 .c runner, 32, .c, _, _, starts_of rfl rfl (by decide), rfl⟩
theorem witness_Fwsvc : ∃ (f : Ri) (s : State) (key : Nat) (e : EngTag) (s0 : State) (a : Word) (s1 t : State), Starts (.echo f) s key e s0
    ∧ s0.src f.a (litVal 0 f.w1) = .ok (a, s1) ∧ s1.dst f.d a = .ok t :=
  ⟨ri 0 5 6 0, demo 32 .c { runner with x := [(6, 9)] }, 32, .c, _, 9, _, _, starts_of rfl rfl (by decide), rfl, rfl⟩
theorem witness_Mark : ∃ (f : Ri) (s : State) (key : Nat) (e : EngTag) (s0 : State) (a : Word) (s1 t : State), Starts (.mark f) s key e s0
    ∧ (s0.core.eng e).waitVal = none ∧ s0.src f.a (litVal 0 f.w1) = .ok (a, s1) ∧ s0.core.trbase = 0
    ∧ (s1.modEng fun g => { g with waitVal := some a }).dst f.d (BitVec.allOnes 64) = .ok t :=
  ⟨ri 0 5 6 2, demo 32 .c { runner with x := [(6, 9)] }, 32, .c, _, 9, _, _, starts_of rfl rfl (by decide), rfl, rfl, rfl, rfl⟩

theorem alone_of {s : State} {node : Nat} {p : Prologue} {h : Hdr} (hc : s.cur = .prologue node)
    (hf : FMap.find? s.prols node = some p) (hm : p.count < 4096 ∧ h.wait = 0 ∧ h.sig = none ∧ s.myFault = none) :
    IssuesAlone s node p h := ⟨hc, hf, hm.1, hm.2.1, hm.2.2.1, hm.2.2.2⟩
/-- The last word within a prologue core's budget. -/
theorem witness_Pend : ∃ (f : Ri) (s : State) (node : Nat) (p : Prologue) (a : Word) (s1 : State), IssuesAlone s node p f.hdr
    ∧ s.src f.a (litVal 0 f.w1) = .ok (a, s1) ∧ 0 < a.toInt :=
  ⟨ri 0 0 5 2, { prologued [0] with prols := [(0, ⟨{ Cell.fresh with x := [(5, 0x7FFFFFFFFFFFFFFF)] }, 4095, 0⟩)] }, 0, _,
    0x7FFFFFFFFFFFFFFF, _, alone_of rfl rfl (by decide), rfl, by decide⟩
theorem witness_PrologueEnd : ∃ (f : Rrr) (s : State) (node : Nat) (p : Prologue), IssuesAlone s node p f.hdr :=
  ⟨r3 7 0 0 0 0 0 0, prologued [0], 0, _, alone_of rfl rfl (by decide)⟩
theorem witness_PrologueCsrr : ∃ (f : Ri) (s : State) (node : Nat) (p : Prologue) (t : State), IssuesAlone s node p f.hdr
    ∧ launchReg (f.imm.toNat % 4096) = true ∧ s.dst f.d (s.launchRead node (f.imm.toNat % 4096)) = .ok t :=
  ⟨ri 0 5 0 0x332, prologued [0], 0, _, _, alone_of rfl rfl (by decide), rfl, rfl⟩
theorem witness_PendOnACell : ∃ (f : Ri) (s : State) (key : Nat) (e : EngTag) (s0 : State), Starts (.pendRepeat f) s key e s0 :=
  ⟨ri 0 0 5 2, demo 32 .c runner, 32, .c, _, starts_of rfl rfl (by decide)⟩

/-! ### Memory words -/

theorem witness_AccessCanonical : ∃ (s : State) (key : Nat) (q : Acc), canonical q.addr = true
    ∧ windowOf (s.apers (s.nodeCtx (s.cell key).node)) (addrVa q.addr) = none :=
  ⟨world .a runner, 32, { addr := 0x1FFFFFFFFFFFFFF, size := 8 }, by decide, by decide⟩
theorem witness_AccessBeyond : ∃ (s : State) (key : Nat) (q : Acc) (win off : Nat), canonical q.addr = true
    ∧ windowOf (s.apers (s.nodeCtx (s.cell key).node)) (addrVa q.addr) = some (win, off)
    ∧ s.beyond (keyChip key) (s.ctxPart (s.nodeCtx (s.cell key).node)) win off = true :=
  ⟨world .a runner, 32, { addr := 0x1800000, size := 8 }, 0, 0x800000, by decide, by decide, by decide⟩
/-- Inside the backing, and misaligned so that the access ends past it: the alignment is what it fails. -/
theorem witness_AccessMisaligned : ∃ (s : State) (key : Nat) (q : Acc) (off : Nat), canonical q.addr = true
    ∧ windowOf (s.apers (s.nodeCtx (s.cell key).node)) (addrVa q.addr) = some (0, off)
    ∧ s.beyond (keyChip key) (s.ctxPart (s.nodeCtx (s.cell key).node)) 0 off = false ∧ spadBytes < off + q.size
    ∧ q.atomic = false ∧ q.scopeRule = false ∧ q.addr.toNat % q.align ≠ 0 :=
  ⟨world .a runner, 32, { addr := 0x17FFFFC, size := 8, align := 8 }, 0x7FFFFC, by decide, by decide, by decide, by decide, rfl, rfl, by decide⟩
theorem witness_AccessIdlePeer : ∃ (s : State) (key : Nat) (q : Acc) (win off : Nat), canonical q.addr = true
    ∧ windowOf (s.apers (s.nodeCtx (s.cell key).node)) (addrVa q.addr) = some (win, off)
    ∧ s.beyond (keyChip key) (s.ctxPart (s.nodeCtx (s.cell key).node)) win off = false ∧ win = 1
    ∧ (s.cell (cellKey (keyChip key) (off / spadBytes))).serves = false :=
  ⟨world .a runner, 32, { addr := 0x100800000, size := 8 }, 1, 0x800000, by decide, by decide, by decide, rfl, by decide⟩
theorem witness_AccessServedPeer : ∃ (s : State) (key : Nat) (q : Acc) (win off : Nat), canonical q.addr = true
    ∧ windowOf (s.apers (s.nodeCtx (s.cell key).node)) (addrVa q.addr) = some (win, off)
    ∧ s.beyond (keyChip key) (s.ctxPart (s.nodeCtx (s.cell key).node)) win off = false ∧ win = 1
    ∧ (s.cell (cellKey (keyChip key) (off / spadBytes))).serves = true ∧ q.atomic = true ∧ 2 ≤ q.atomScope :=
  ⟨world .a runner, 32, { addr := 0x1007FFFF8, size := 8, atomic := true, atomScope := 2 }, 1, 0x7FFFF8, by decide, by decide, by decide,
    rfl, by decide, rfl, by decide⟩
theorem witness_AccessOwn : ∃ (s : State) (key : Nat) (q : Acc) (off : Nat), canonical q.addr = true
    ∧ windowOf (s.apers (s.nodeCtx (s.cell key).node)) (addrVa q.addr) = some (0, off)
    ∧ s.beyond (keyChip key) (s.ctxPart (s.nodeCtx (s.cell key).node)) 0 off = false
    ∧ q.atomic = false ∧ q.scopeRule = false ∧ q.addr.toNat % q.align = 0 ∧ q.watch = false :=
  ⟨world .a runner, 32, { addr := 0x17FFFF8, size := 8, align := 8, watch := false }, 0x7FFFF8, by decide, by decide, by decide, rfl, rfl,
    by decide, rfl⟩
theorem witness_AccessTarn : ∃ (s : State) (key : Nat) (q : Acc) (off loc : Nat), canonical q.addr = true
    ∧ windowOf (s.apers (s.nodeCtx (s.cell key).node)) (addrVa q.addr) = some (2, off)
    ∧ s.beyond (keyChip key) (s.ctxPart (s.nodeCtx (s.cell key).node)) 2 off = false ∧ q.spadOnly = false
    ∧ q.addr.toNat % q.align = 0 ∧ s.tarnAt (s.ctxPart (s.nodeCtx (s.cell key).node)) off = some loc
    ∧ s.tagServed key (s.ctxPart (s.nodeCtx (s.cell key).node)) loc (levelOf loc q.scope) q.row = addrTag q.addr ∧ q.write = false ∧ q.atomic = false ∧ q.watch = false :=
  ⟨world .a runner, 32, { addr := 0x100BFFFFF8, size := 8, align := 8, watch := false }, 0xBFFFFF8, 2 ^ 40 + 2 * 2 ^ 28 + 0xBFFFFF8,
    by decide, by decide, by decide, rfl, by decide, by decide, by decide, rfl, rfl, rfl⟩
theorem witness_AccessTagMismatch : ∃ (s : State) (key : Nat) (q : Acc) (loc : Nat),
    s.tarnAt (s.ctxPart (s.nodeCtx (s.cell key).node)) 0 = some loc
    ∧ s.tagServed key (s.ctxPart (s.nodeCtx (s.cell key).node)) loc (levelOf loc q.scope) q.row ≠ addrTag q.addr
    ∧ canonical q.addr = true ∧ q.addr.toNat % q.align = 0 ∧ q.spadOnly = false
    ∧ windowOf (s.apers (s.nodeCtx (s.cell key).node)) (addrVa q.addr) = some (2, 0) :=
  ⟨world .a runner, 32, { addr := 0x5000001000000000, size := 8 }, 2 ^ 40 + 2 * 2 ^ 28, by decide, by decide, by decide, by decide, rfl, by decide⟩

theorem witness_ScratchpadReadsAndWrites : ∃ (s : State) (key : Nat) (e : EngTag) (off n : Nat), s.cur = .cell key e
    ∧ (s.cell key).phase ≠ .clearing ∧ (s.cell key).locked off n = false ∧ (s.cell key).ordAt (s.cell key).engA.pos = false ∧ n = 8 :=
  ⟨world .a runner, 32, .a, 0x7FFFF8, 8, rfl, by decide, by decide, rfl, rfl⟩
theorem witness_ScratchpadClears : ∃ (s : State) (key : Nat) (e : EngTag), s.cur = .cell key e ∧ (s.cell key).phase = .clearing :=
  ⟨demo 32 .a { runner with phase := .clearing }, 32, .a, rfl, rfl⟩

/-- LD from the own scratchpad, and from a GLOBAL line that the L1 holds. -/
theorem witness_LdSpad : ∃ (f : Rrr) (s : State) (key : Nat) (e : EngTag) (s0 : State) (addr : Word) (s1 s2 s3 t : State)
    (k off : Nat) (bs : List Byte), Starts (.ld f) s key e s0 ∧ s0.memAddr f = .ok (addr, s1)
    ∧ s1.access key { addr := addr, size := typeBytes f.ty.toNat, align := typeBytes f.ty.toNat, shadow := f.fl.getLsbD 1, scope := f.rs.toNat }
      = .ok (.spad k off, s2) ∧ s2.spadLoad key k off (typeBytes f.ty.toNat) addr = .ok (bs, s3) ∧ s3.putLoaded f.d f.ty.toNat bs = .ok t :=
  ⟨r3 1 3 5 0 2 0 0, world .a { runner with a := [(5, 0x1000010)], spad := [(16, 0x80), (19, 0xFF)] }, 32, .a, _, 0x1000010, _, _, _, _, 32, 16,
    [0x80, 0, 0, 0xFF], starts_of rfl rfl (by decide), rfl, 
    State.access_own (by decide) (by decide) (by decide) (.inl ⟨rfl, rfl⟩) (by decide) rfl, rfl, rfl⟩
theorem test_ld_sign_extends : (match exec (.ld (r3 1 3 5 0 2 0 0)) (world .a { runner with a := [(5, 0x1000010)], spad := [(16, 0x80), (19, 0xFF)] }) with
    | .next t => FMap.get t.core.a 3 0 == 0xFFFFFFFFFF000080 | _ => false) = true := by decide
theorem witness_LdLine : ∃ (f : Rrr) (s : State) (key : Nat) (e : EngTag) (s0 : State) (addr : Word) (s1 s2 s3 t : State)
    (loc : Nat) (bs : List Byte), Starts (.ld f) s key e s0 ∧ s0.memAddr f = .ok (addr, s1)
    ∧ s1.access key { addr := addr, size := typeBytes f.ty.toNat, align := typeBytes f.ty.toNat, shadow := f.fl.getLsbD 1, scope := f.rs.toNat }
      = .ok (.line loc, s2)
    ∧ s2.loadLine key (s2.ctxPart (s2.nodeCtx s2.curNode)) loc (typeBytes f.ty.toNat) f.rs.toNat (f.fl.getLsbD 0) = .ok (bs, s3)
    ∧ s3.putLoaded f.d f.ty.toNat bs = .ok t :=
  ⟨r3 1 3 5 0 7 0 0, world .a { runner with a := [(5, 0x100000000041)], l1 := [(0x41, ⟨9, true⟩)], l1Tag := [(0x40, 0)] }, 32, .a, _, 0x100000000041, _, _, _, _,
    0x41, [9], starts_of rfl rfl (by decide), rfl, 
    State.access_tlb (off := 0x41) (t := ⟨0, 14, true⟩) (by decide) (by decide) rfl (by decide) (by decide) (fun _ => rfl) (by decide) (by decide) rfl, rfl, rfl⟩
theorem witness_StSpad : ∃ (f : Rrr) (s : State) (key : Nat) (e : EngTag) (s0 : State) (lo hi addr : Word) (s1 s2 s3 t : State) (k off : Nat),
    Starts (.st f) s key e s0 ∧ s0.dataSrc f.d (litVal f.ty.toNat f.w1) (f.ty == 12) = .ok (lo, hi, s1) ∧ s1.memAddr f = .ok (addr, s2)
    ∧ s2.access key { addr := addr, size := typeBytes f.ty.toNat, write := true, align := typeBytes f.ty.toNat, shadow := f.fl.getLsbD 1, scope := f.rs.toNat } = .ok (.spad k off, s3)
    ∧ (s3.cell k).phase ≠ .clearing ∧ s3.spadStore key k off (storeBytes f.ty.toNat lo hi) [] addr = .ok t :=
  ⟨r3 1 2 5 0 12 0 0, world .a { runner with a := [(2, 1), (3, 2), (5, 0x17FFFF0)] }, 32, .a, _, 1, 2, 0x17FFFF0, _, _, _, _, 32, 0x7FFFF0,
    starts_of rfl rfl (by decide), rfl, rfl, 
    State.access_own (by decide) (by decide) (by decide) (.inl ⟨rfl, rfl⟩) (by decide) rfl, by decide, rfl⟩
theorem witness_StLine : ∃ (f : Rrr) (s : State) (key : Nat) (e : EngTag) (s0 : State) (lo hi addr : Word) (s1 s2 s3 t : State) (loc : Nat),
    Starts (.st f) s key e s0 ∧ s0.dataSrc f.d (litVal f.ty.toNat f.w1) (f.ty == 12) = .ok (lo, hi, s1) ∧ s1.memAddr f = .ok (addr, s2)
    ∧ s2.access key { addr := addr, size := typeBytes f.ty.toNat, write := true, align := typeBytes f.ty.toNat, shadow := f.fl.getLsbD 1, scope := f.rs.toNat } = .ok (.line loc, s3)
    ∧ s3.storeLine key (s3.ctxPart (s3.nodeCtx s3.curNode)) loc (storeBytes f.ty.toNat lo hi) f.rs.toNat (f.fl.getLsbD 0) = .ok t :=
  ⟨r3 1 0xFE 5 0 2 0 0, world .a { runner with a := [(5, 0x100000003FFC)], qa := [7], l1Tag := [(0x3FC0, 0)] }, 32, .a, _, 7, 0, 0x100000003FFC, _, _, _, _, 0x3FFC,
    starts_of rfl rfl (by decide), rfl, rfl, 
    State.access_tlb (off := 0x3FFC) (t := ⟨0, 14, true⟩) (by decide) (by decide) rfl (by decide) (by decide) (fun _ => rfl) (by decide) (by decide) rfl, rfl⟩
theorem test_loads_of_every_type : loadWord 0 [1, 2, 3, 4, 5, 6, 7, 0x88] = 0x8807060504030201 ∧ loadWord 4 [0, 0x80] = 0xFFFFFFFFFFFF8000
    ∧ loadWord 5 [0, 0x80] = 0x8000 ∧ loadWord 6 [0x80] = 0xFFFFFFFFFFFFFF80 ∧ loadWord 7 [0x80] = 0x80 := by decide

/-- Qualified accesses of a granule that is full, and that is empty. -/
theorem witness_LdsWaits : ∃ (f : Rrr) (s : State) (key : Nat) (e : EngTag) (s0 : State) (addr : Word) (s1 s2 s3 : State) (k off : Nat)
    (bs : List Byte), Starts (.lds f) s key e s0 ∧ s0.memAddr f = .ok (addr, s1)
    ∧ s1.access key { addr := addr, size := typeBytes f.ty.toNat, align := typeBytes f.ty.toNat, spadOnly := true } = .ok (.spad k off, s2)
    ∧ s2.spadLoad key k off (typeBytes f.ty.toNat) addr = .ok (bs, s3) ∧ f.fl.getLsbD 0 = true
    ∧ (s3.cell k).bankTurn key .a (off / 16) true = false :=
  ⟨r3 1 3 5 0 0 0 1, world .a { runner with a := [(5, 0x1000000)] }, 32, .a, _, 0x1000000, _, _, _, 32, 0, [0, 0, 0, 0, 0, 0, 0, 0],
    starts_of rfl rfl (by decide), rfl, 
    State.access_own (by decide) (by decide) (by decide) (.inl ⟨rfl, rfl⟩) (by decide) rfl, rfl, rfl, by decide⟩
theorem witness_LdsTakes : ∃ (f : Rrr) (s : State) (key : Nat) (e : EngTag) (s0 : State) (addr : Word) (s1 s2 s3 s4 s5 t : State)
    (k off : Nat) (bs : List Byte), Starts (.lds f) s key e s0 ∧ s0.memAddr f = .ok (addr, s1)
    ∧ s1.access key { addr := addr, size := typeBytes f.ty.toNat, align := typeBytes f.ty.toNat, spadOnly := true } = .ok (.spad k off, s2)
    ∧ s2.spadLoad key k off (typeBytes f.ty.toNat) addr = .ok (bs, s3)
    ∧ (f.fl.getLsbD 0 = true → (s3.cell k).bankTurn key .a (off / 16) true = true)
    ∧ s4 = (if f.fl.getLsbD 0 then s3.unhold key k else s3)
    ∧ s5 = (if f.fl.getLsbD 1 then s4.setCell k { s4.cell k with fe := FMap.erase (s4.cell k).fe (off / 16) } else s4)
    ∧ s5.putLoaded f.d f.ty.toNat bs = .ok t :=
  ⟨r3 1 3 5 0 7 0 3, world .a { runner with a := [(5, 0x100000F)], fe := [(0, true)], spad := [(15, 4)] }, 32, .a, _, 0x100000F, _, _, _, _, _, _,
    32, 15, [4], starts_of rfl rfl (by decide), rfl, 
    State.access_own (by decide) (by decide) (by decide) (.inl ⟨rfl, rfl⟩) (by decide) rfl, rfl, fun _ => by decide, rfl, rfl, rfl⟩
theorem witness_StsWaits : ∃ (f : Rrr) (s : State) (key : Nat) (e : EngTag) (s0 : State) (lo hi addr : Word) (s1 s2 s3 s4 : State) (k off : Nat),
    Starts (.sts f) s key e s0 ∧ s0.dataSrc f.d (litVal f.ty.toNat f.w1) (f.ty == 12) = .ok (lo, hi, s1) ∧ s1.memAddr f = .ok (addr, s2)
    ∧ s2.access key { addr := addr, size := typeBytes f.ty.toNat, write := true, align := typeBytes f.ty.toNat, spadOnly := true }
      = .ok (.spad k off, s3) ∧ f.fl.getLsbD 1 = true ∧ s3.bankReady key k addr = .ok () ∧ s3.flushPeer key k = .ok s4
    ∧ (s4.cell k).bankTurn key .a (off / 16) false = false :=
  ⟨r3 1 3 5 0 7 0 2, world .a { runner with a := [(5, 0x100000F)], fe := [(0, true)] }, 32, .a, _, 0, 0, 0x100000F, _, _, _, _, 32, 15,
    starts_of rfl rfl (by decide), rfl, rfl, 
    State.access_own (by decide) (by decide) (by decide) (.inl ⟨rfl, rfl⟩) (by decide) rfl, rfl, rfl, rfl, by decide⟩
theorem witness_StsFills : ∃ (f : Rrr) (s : State) (key : Nat) (e : EngTag) (s0 : State) (lo hi addr : Word) (s1 s2 s3 s4 t : State) (off : Nat),
    Starts (.sts f) s key e s0 ∧ s0.dataSrc f.d (litVal f.ty.toNat f.w1) (f.ty == 12) = .ok (lo, hi, s1) ∧ s1.memAddr f = .ok (addr, s2)
    ∧ s2.access key { addr := addr, size := typeBytes f.ty.toNat, write := true, align := typeBytes f.ty.toNat, spadOnly := true }
      = .ok (.spad key off, s3) ∧ f.fl.getLsbD 1 = true ∧ s3.bankReady key key addr = .ok () ∧ s3.flushPeer key key = .ok s4
    ∧ (s4.cell key).bankTurn key .a (off / 16) false = true
    ∧ (s4.unhold key key).spadStore key key off (storeBytes f.ty.toNat lo hi) (if f.fl.getLsbD 0 then [off / 16] else []) addr = .ok t :=
  ⟨r3 1 3 5 0 7 0 3, world .a { runner with a := [(5, 0x100000F)] }, 32, .a, _, 0, 0, 0x100000F, _, _, _, _, _, 15,
    starts_of rfl rfl (by decide), rfl, rfl, 
    State.access_own (by decide) (by decide) (by decide) (.inl ⟨rfl, rfl⟩) (by decide) rfl, rfl, rfl, rfl, by decide, rfl⟩
/-- A qualified store to an empty granule of the cell beside, through the DIE window. -/
theorem witness_StsPeer : ∃ (f : Rrr) (s : State) (key : Nat) (e : EngTag) (s0 : State) (lo hi addr : Word) (s1 s2 s3 s4 : State) (k off : Nat),
    Starts (.sts f) s key e s0 ∧ s0.dataSrc f.d (litVal f.ty.toNat f.w1) (f.ty == 12) = .ok (lo, hi, s1) ∧ s1.memAddr f = .ok (addr, s2)
    ∧ s2.access key { addr := addr, size := typeBytes f.ty.toNat, write := true, align := typeBytes f.ty.toNat, spadOnly := true }
      = .ok (.spad k off, s3) ∧ f.fl.getLsbD 1 = true ∧ s3.bankReady key k addr = .ok () ∧ s3.flushPeer key k = .ok s4
    ∧ (s4.cell k).bankTurn key .a (off / 16) false = true ∧ k ≠ key :=
  ⟨r3 1 3 5 0 7 0 2, { world .a { runner with a := [(5, 0x10080000F)] } with
      cells := [(32, { runner with a := [(5, 0x10080000F)] }), (33, runner)] }, 32, .a, _, 0, 0, 0x10080000F, _, _, _, _, 33, 15,
    starts_of rfl rfl (by decide), rfl, rfl,
    State.access_peer (off := 0x80000F) (by decide) (by decide) (by decide) (by decide) (.inl ⟨rfl, rfl⟩) (by decide) rfl,
    rfl, rfl, rfl, by decide, by decide⟩
theorem witness_StsPlain : ∃ (f : Rrr) (s : State) (key : Nat) (e : EngTag) (s0 : State) (lo hi addr : Word) (s1 s2 s3 t : State) (off : Nat),
    Starts (.sts f) s key e s0 ∧ s0.dataSrc f.d (litVal f.ty.toNat f.w1) (f.ty == 12) = .ok (lo, hi, s1) ∧ s1.memAddr f = .ok (addr, s2)
    ∧ s2.access key { addr := addr, size := typeBytes f.ty.toNat, write := true, align := typeBytes f.ty.toNat, spadOnly := true }
      = .ok (.spad key off, s3) ∧ f.fl.getLsbD 1 = false
    ∧ s3.spadStore key key off (storeBytes f.ty.toNat lo hi) (if f.fl.getLsbD 0 then [off / 16] else []) addr = .ok t :=
  ⟨r3 1 3 5 0 7 0 1, world .a { runner with a := [(5, 0x100000F)] }, 32, .a, _, 0, 0, 0x100000F, _, _, _, _, 15,
    starts_of rfl rfl (by decide), rfl, rfl, 
    State.access_own (by decide) (by decide) (by decide) (.inl ⟨rfl, rfl⟩) (by decide) rfl, rfl, rfl⟩

/-- Ring 5: two slots of 32 bytes at the start of SELF; one claimed, and one filled. -/
def ringed (claimed filled taken : Nat) : Cell :=
  { runner with rings := [(5, ⟨0x1000000, 32, 2, 0, (claimed + filled + taken) % 2, taken, filled, claimed⟩)] }
theorem witness_RingNotConfigured : ∃ (f : Rrr) (s : State) (key : Nat) (e : EngTag) (s0 : State), Starts (.rtake f) s key e s0
    ∧ (s0.core.ring f.rs.toNat).cnt = 0 := ⟨r3 1 3 0 0 0 5 0, demo 32 .a runner, 32, .a, _, starts_of rfl rfl (by decide), rfl⟩
theorem witness_Rclaim : ∃ (f : Rrr) (s : State) (key : Nat) (e : EngTag) (s0 t : State) (r : Ring), Starts (.rclaim f) s key e s0
    ∧ r = s0.core.ring f.rs.toNat ∧ r.cnt ≠ 0 ∧ r.free ≠ 0
    ∧ (s0.setCore (s0.core.setRing f.rs.toNat { r with tail := (r.tail + 1) % r.cnt, claimed := r.claimed + 1 })).dst
        f.d (BitVec.ofNat 64 (r.base + r.tail * r.size)) = .ok t :=
  ⟨r3 1 3 0 0 0 5 0, demo 32 .a (ringed 0 1 0), 32, .a, _, _, _, starts_of rfl rfl (by decide), rfl, by decide, by decide, rfl⟩
theorem witness_RclaimNone : ∃ (f : Rrr) (s : State) (key : Nat) (e : EngTag) (s0 t : State) (r : Ring), Starts (.rclaim f) s key e s0
    ∧ r = s0.core.ring f.rs.toNat ∧ r.cnt ≠ 0 ∧ r.free = 0 ∧ s0.dst f.d (BitVec.allOnes 64) = .ok t :=
  ⟨r3 1 3 0 0 0 5 0, demo 32 .a (ringed 1 1 0), 32, .a, _, _, _, starts_of rfl rfl (by decide), rfl, by decide, by decide, rfl⟩
theorem witness_Rtake : ∃ (f : Rrr) (s : State) (key : Nat) (e : EngTag) (s0 t : State) (r : Ring), Starts (.rtake f) s key e s0
    ∧ r = s0.core.ring f.rs.toNat ∧ r.cnt ≠ 0 ∧ r.filled ≠ 0
    ∧ (s0.setCore (s0.core.setRing f.rs.toNat { r with taken := r.taken + 1, filled := r.filled - 1 })).dst
        f.d (BitVec.ofNat 64 (r.base + (r.head + r.taken) % r.cnt * r.size)) = .ok t :=
  ⟨r3 1 3 0 0 0 5 0, demo 32 .a (ringed 0 1 1), 32, .a, _, _, _, starts_of rfl rfl (by decide), rfl, by decide, by decide, rfl⟩
theorem witness_RtakeNone : ∃ (f : Rrr) (s : State) (key : Nat) (e : EngTag) (s0 t : State) (r : Ring), Starts (.rtake f) s key e s0
    ∧ r = s0.core.ring f.rs.toNat ∧ r.cnt ≠ 0 ∧ r.filled = 0 ∧ s0.dst f.d (BitVec.allOnes 64) = .ok t :=
  ⟨r3 1 3 0 0 0 5 0, demo 32 .a (ringed 1 0 1), 32, .a, _, _, _, starts_of rfl rfl (by decide), rfl, by decide, by decide, rfl⟩
theorem witness_Rdone : ∃ (f : Rrr) (s : State) (key : Nat) (e : EngTag) (s0 : State) (r : Ring), Starts (.rdone f) s key e s0
    ∧ r = s0.core.ring f.rs.toNat ∧ r.cnt ≠ 0 ∧ r.taken ≠ 0 :=
  ⟨r3 1 0 0 0 0 5 0, demo 32 .a (ringed 0 0 1), 32, .a, _, _, starts_of rfl rfl (by decide), rfl, by decide, by decide⟩
theorem witness_RdoneNone : ∃ (f : Rrr) (s : State) (key : Nat) (e : EngTag) (s0 : State) (r : Ring), Starts (.rdone f) s key e s0
    ∧ r = s0.core.ring f.rs.toNat ∧ r.cnt ≠ 0 ∧ r.taken = 0 :=
  ⟨r3 1 0 0 0 0 5 0, demo 32 .a (ringed 0 1 0), 32, .a, _, _, starts_of rfl rfl (by decide), rfl, by decide, by decide⟩
theorem witness_Rcommit : ∃ (f : Rrr) (s : State) (key : Nat) (e : EngTag) (s0 s1 : State) (r : Ring), Starts (.rcommit f) s key e s0
    ∧ r = s0.core.ring f.rs.toNat ∧ r.cnt ≠ 0 ∧ s0.core.pendingCommits f.rs.toNat = 0 ∧ r.claimed ≠ 0
    ∧ s0.spadReady key key (s0.localOff r.barrier) 8 = .ok () ∧ s0.watchRing key r.barrier 8 = .ok s1 :=
  ⟨r3 1 0 0 0 0 5 0, world .a (ringed 1 1 0), 32, .a, _, _, _, starts_of rfl rfl (by decide), rfl, by decide, by decide, by decide, rfl, rfl⟩
theorem witness_RcommitNone : ∃ (f : Rrr) (s : State) (key : Nat) (e : EngTag) (s0 : State) (r : Ring), Starts (.rcommit f) s key e s0
    ∧ r = s0.core.ring f.rs.toNat ∧ r.cnt ≠ 0 ∧ s0.core.pendingCommits f.rs.toNat = 0 ∧ r.claimed = 0 :=
  ⟨r3 1 0 0 0 0 5 0, world .a (ringed 0 1 0), 32, .a, _, _, starts_of rfl rfl (by decide), rfl, by decide, by decide, by decide⟩
theorem witness_Waitfill : ∃ (f : Rrr) (s : State) (key : Nat) (e : EngTag) (s0 : State) (r : Ring) (a : Word) (s1 : State),
    Starts (.waitfill f) s key e s0 ∧ r = s0.core.ring f.rs.toNat ∧ r.cnt ≠ 0 ∧ (s0.core.eng e).waitVal = none
    ∧ s0.src f.a (litVal 0 f.w1) = .ok (a, s1) ∧ r.filled < a.toNat ∧ a.toNat ≤ r.cnt :=
  ⟨r3 1 0 6 0 0 5 0, demo 32 .a { ringed 0 1 0 with a := [(6, 2)] }, 32, .a, _, _, 2, _, starts_of rfl rfl (by decide), rfl, by decide, rfl,
    rfl, by decide, by decide⟩
theorem witness_Waitfree : ∃ (f : Rrr) (s : State) (key : Nat) (e : EngTag) (s0 : State) (r : Ring) (a : Word) (s1 : State),
    Starts (.waitfree f) s key e s0 ∧ r = s0.core.ring f.rs.toNat ∧ r.cnt ≠ 0 ∧ (s0.core.eng e).waitVal = none
    ∧ s0.src f.a (litVal 0 f.w1) = .ok (a, s1) ∧ a.toNat ≤ r.free ∧ a.toNat ≤ r.cnt :=
  ⟨r3 1 0 6 0 0 5 0, demo 32 .a { ringed 0 1 0 with a := [(6, 1)] }, 32, .a, _, _, 1, _, starts_of rfl rfl (by decide), rfl, by decide, rfl,
    rfl, by decide, by decide⟩
theorem witness_WaitBeyond : ∃ (f : Rrr) (s : State) (key : Nat) (e : EngTag) (s0 : State) (r : Ring) (a : Word) (s1 : State),
    Starts (.waitfree f) s key e s0 ∧ r = s0.core.ring f.rs.toNat ∧ r.cnt ≠ 0 ∧ (s0.core.eng e).waitVal = none
    ∧ s0.src f.a (litVal 0 f.w1) = .ok (a, s1) ∧ r.cnt < a.toNat :=
  ⟨r3 1 0 6 0 0 5 0, demo 32 .a { ringed 0 1 0 with a := [(6, 3)] }, 32, .a, _, _, 3, _, starts_of rfl rfl (by decide), rfl, by decide, rfl,
    rfl, by decide⟩
/-- RCLAIM .cfg of two slots of two units, and of none. -/
theorem witness_RingConfiguration : ∃ (f : Rrr) (s : State) (key : Nat) (e : EngTag) (s0 : State) (a b : Word) (s1 s2 : State)
    (off cnt units : Nat), Starts (.rclaimCfg f) s key e s0 ∧ ReadsTwo s0 f.a f.b (litVal 0 f.w1) a b s1 ∧ cnt = b.toNat % 2 ^ 16
    ∧ units = b.toNat / 2 ^ 32 % 2 ^ 16 ∧ windowOf s1.curApers (addrVa a) = some (0, off) ∧ canonical a = true ∧ a.toNat % 16 = 0
    ∧ b.toNat / 2 ^ 16 % 2 ^ 16 = 0 ∧ b.toNat / 2 ^ 48 = 0 ∧ 1 ≤ cnt ∧ cnt ≤ 4096 ∧ 1 ≤ units
    ∧ off + cnt * (16 * units) + 32 ≤ spadBytes ∧ s1.core.pendingCommits f.rs.toNat = 0
    ∧ s1.spadReady key key (off + cnt * (16 * units)) 32 = .ok ()
    ∧ s1.watchRing key (BitVec.ofNat 64 (a.toNat + cnt * (16 * units))) 32 = .ok s2 :=
  ⟨r3 1 0 5 6 0 5 1, world .a { runner with a := [(5, 0x17FFFA0), (6, 0x200000002)] }, 32, .a, _, 0x17FFFA0, 0x200000002, _, _, 0x7FFFA0, 2, 2,
    starts_of rfl rfl (by decide), ⟨_, rfl, rfl⟩, by decide, by decide, by decide, by decide, by decide, by decide, by decide, by decide,
    by decide, by decide, by decide, by decide, rfl, rfl⟩
theorem witness_RingMisconfiguration : ∃ (f : Rrr) (s : State) (key : Nat) (e : EngTag) (s0 : State) (a b : Word) (s1 : State) (off : Nat),
    Starts (.rclaimCfg f) s key e s0 ∧ ReadsTwo s0 f.a f.b (litVal 0 f.w1) a b s1 ∧ windowOf s1.curApers (addrVa a) = some (0, off)
    ∧ a.toNat % 16 ≠ 0 :=
  ⟨r3 1 0 5 6 0 5 1, world .a { runner with a := [(5, 0x1000008), (6, 0x200000002)] }, 32, .a, _, 0x1000008, 0x200000002, _, 8,
    starts_of rfl rfl (by decide), ⟨_, rfl, rfl⟩, by decide, by decide⟩

theorem test_atomic_functions : AtomOp.new ⟨8, 1, 5, 0⟩ 5 = (some 0, true) ∧ AtomOp.new ⟨9, 1, 5, 0⟩ 6 = (some 5, true)
    ∧ AtomOp.new ⟨10, 3, 1, 0xFFFFFFFF⟩ 0xFFFFFFFF = (none, false) ∧ AtomOp.new ⟨4, 2, 1, 0⟩ 0x80000000 = (some 0x80000000, true) := by
  decide +kernel
/-- ATOM.CAS on the own scratchpad with release and acquire. -/
theorem witness_Atomics : ∃ (f : Rrr) (s : State) (key : Nat) (e : EngTag) (s0 : State) (v v2 addr : Word) (s1 s2 s3 s4 s5 t : State)
    (k off old : Nat) (a : AtomOp), Starts (.atomCas f) s key e s0 ∧ s0.readReg f.d.toNat = .ok v ∧ s0.readReg (f.d.toNat + 1) = .ok v2
    ∧ s0.memAddr f = .ok (addr, s1)
    ∧ s1.access key { addr := addr, size := typeBytes f.ty.toNat, write := true, atomic := true, atomScope := f.rs.toNat, align := typeBytes f.ty.toNat, scope := f.rs.toNat } = .ok (.spad k off, s2)
    ∧ a = ⟨7, f.ty.toNat, v.toNat % 2 ^ (8 * typeBytes f.ty.toNat), v2.toNat % 2 ^ (8 * typeBytes f.ty.toNat)⟩
    ∧ s2.release key s0.curPart f.rs.toNat = .ok s3 ∧ s3.spadAtomic key k off a addr = .ok (old, s4)
    ∧ (s4.acquire key s0.curPart f.rs.toNat).writeReg f.d.toNat (loadWord f.ty.toNat (leBytes (typeBytes f.ty.toNat) old)) = .ok s5
    ∧ t = s5 :=
  ⟨r3 1 2 5 0 2 1 3, world .a { runner with a := [(3, 9), (5, 0x1000004)] }, 32, .a, _, 0, 9, 0x1000004, _, _, _, _, _, _, 32, 4, 0, _,
    starts_of rfl rfl (by decide), rfl, rfl, rfl, 
    State.access_own (by decide) (by decide) (by decide) (.inr (by decide)) (by decide) rfl, rfl, rfl, rfl, rfl, rfl⟩
theorem witness_ScratchpadAtomics : ∃ (s : State) (key off : Nat) (a : AtomOp), (s.cell key).phase ≠ .clearing
    ∧ (s.cell key).locked off (typeBytes a.ty) = false ∧ (a.new 7).1 = some 8 := ⟨demo 32 .a runner, 32, 0, ⟨0, 0, 1, 0⟩, by decide, by decide, by decide⟩
theorem witness_Rel : ∃ (f : Rrr) (s : State) (key : Nat) (e : EngTag) (s0 t : State), Starts (.rel f) s key e s0
    ∧ s0.release key s0.curPart f.rs.toNat = .ok t :=
  ⟨r3 1 0 0 0 0 6 0, world .a runner, 32, .a, _, _, starts_of rfl rfl (by decide), rfl⟩
theorem witness_Acq : ∃ (f : Rrr) (s : State) (key : Nat) (e : EngTag) (s0 : State), Starts (.acq f) s key e s0
    ∧ ∃ t, Starts (.phase f) s key e t ∧ (t.release key t.curPart f.rs.toNat).isOk = true :=
  ⟨r3 1 0 0 0 0 2 0, world .a runner, 32, .a, _, starts_of rfl rfl (by decide), _, starts_of rfl rfl (by decide), rfl⟩
theorem witness_Bar : ∃ (f : Rrr) (s : State) (key : Nat) (e : EngTag) (s0 s1 s2 : State) (k : Nat), Starts (.barDie f) s key e s0
    ∧ (s0.core.eng e).waitVal = none ∧ s0.release key s0.curPart f.rs.toNat = .ok s1 ∧ k = s1.core.barCount false + 1
    ∧ s2 = (s1.setCore { s1.core with barDie := k }).modEng (fun g => { g with waitVal := some (BitVec.ofNat 64 k) })
    ∧ (∃ x, x ∈ s2.participants false) ∧ ∀ x ∈ s2.participants false, x.2.engA.done = true ∨ k ≤ x.2.barCount false :=
  ⟨r3 1 0 0 0 0 1 0, world .a runner, 32, .a, _, _, _, 1, starts_of rfl rfl (by decide), rfl, rfl, rfl, rfl, ⟨_, List.mem_cons_self⟩, by decide⟩
theorem witness_BarWaits : ∃ (f : Rrr) (s : State) (key : Nat) (e : EngTag) (s0 s1 s2 : State) (k : Nat), Starts (.barNode f) s key e s0
    ∧ (s0.core.eng e).waitVal = none ∧ s0.release key s0.curPart f.rs.toNat = .ok s1 ∧ k = s1.core.barCount true + 1
    ∧ s2 = (s1.setCore { s1.core with barNode := k }).modEng (fun g => { g with waitVal := some (BitVec.ofNat 64 k) })
    ∧ ∃ x ∈ s2.participants true, x.2.engA.done = false ∧ x.2.barCount true < k :=
  ⟨r3 1 0 0 0 0 5 1, { world .a runner with cells := [(32, runner), (33, runner)] }, 32, .a, _, _, _, 1, starts_of rfl rfl (by decide), rfl,
    rfl, rfl, rfl, (33, runner), .tail _ (.head _), rfl, by decide⟩
theorem witness_AcquireDropsCopies : ∃ (s : State) (key part scope loc : Nat), 2 ≤ scope
    ∧ s.dropsLine (s.cell key) part scope loc = true ∧ FMap.find? (s.die (keyChip key)).rdc loc = some 7 :=
  ⟨{ world .a runner with dies := [(1, { Die.reset 1 with rdc := [(2 ^ 40 + 2 * 2 ^ 28, 7)] })] }, 32, 1, 5, 2 ^ 40 + 2 * 2 ^ 28, by decide,
    by decide, by decide⟩

/-! ### Capabilities, asynchronous work -/

/-- A buffer of context 1 of one page, with references. -/
def page1 (double : Bool) (refs : Nat) : Buffer :=
  { ctx := 1, va := 2 ^ 44, len := 16384, double := double, tiled := false, pageable := false, reassoc := false, format := 0,
    tag := 5, refs := refs, gen := 9, front := [0], shadowPages := if double then [16384] else [], tiles := [], live := true,
    freeing := false }
/-- A node with a capability of buffer 7 in slot 15, with some rights, whose first successor is node 1. -/
def holder (e : EngTag) (c : Cell) (double : Bool) (refs : Nat) (rights : BitVec 4) : State :=
  { world e c with
    nodes := [(0, { Node.runningOn 1 1 with caps := [(15, mkCap 7 rights 5 9)], succs := [⟨1, 0, 0, 0, 0⟩] }), (1, Node.runningOn 1 1)]
    buffers := [(7, page1 double refs)] }

theorem witness_Capopen : ∃ (f : Rrr) (s : State) (key : Nat) (e : EngTag) (s0 : State) (c : Cap) (t : State), Starts (.capopen f) s key e s0
    ∧ s0.slot f.rs.toNat ≠ 0 ∧ s0.checkSlot f.rs.toNat f.fl = .ok c ∧ s0.dst f.d (s0.capAddr c) = .ok t :=
  ⟨r3 1 3 0 0 0 15 3, holder .a runner false 2 3, 32, .a, _, mkCap 7 3 5 9, _, starts_of rfl rfl (by decide), by decide, rfl, rfl⟩
theorem witness_CapopenEmpty : ∃ (f : Rrr) (s : State) (key : Nat) (e : EngTag) (s0 : State), Starts (.capopen f) s key e s0
    ∧ s0.slot f.rs.toNat = 0 ∧ ∀ k ∈ s0.myKept, k.slot = f.rs.toNat → k.emptied = false :=
  ⟨r3 1 3 0 0 0 14 3, holder .a runner false 2 3, 32, .a, _, starts_of rfl rfl (by decide), by decide, by decide⟩
theorem witness_Capgive : ∃ (f : Rrr) (s : State) (key : Nat) (e : EngTag) (s0 : State) (a : Word) (s1 : State) (c : Cap) (d : Node)
    (x : Xfer) (y : Node), Starts (.capgive f) s key e s0 ∧ s0.src f.a (litVal 0 f.w1) = .ok (a, s1) ∧ s1.repeated = false
    ∧ s1.checkSlot f.rs.toNat 2 = .ok c ∧ s1.node? s1.curNode = some d ∧ d.succs[a.toNat]? = some x ∧ s1.node? x.succ = some y
    ∧ FMap.get y.caps f.fl.toNat 0 = 0 ∧ FMap.get y.capsIn f.fl.toNat 0 = 0 ∧ f.fl.toNat ∉ y.reserved :=
  ⟨r3 1 0 0 0 0 15 15, holder .a runner false 2 3, 32, .a, _, 0, _, mkCap 7 3 5 9, _, _, _, starts_of rfl rfl (by decide), rfl, by decide,
    rfl, rfl, rfl, rfl, rfl, rfl, by decide⟩
/-- The same word repeated in its region instance. -/
theorem witness_CapRepeated : ∃ (f : Rrr) (s : State) (key : Nat) (e : EngTag) (s0 : State) (a : Word) (s1 : State),
    Starts (.capgive f) s key e s0 ∧ s0.src f.a (litVal 0 f.w1) = .ok (a, s1) ∧ s1.repeated = true :=
  ⟨r3 1 0 0 0 0 15 15, { holder .a runner false 2 3 with keptCaps := [⟨⟨0, 0, 0, 0, .a, 0, 0⟩, 15, 1, true, false⟩] }, 32, .a, _, 0, _,
    starts_of rfl rfl (by decide), rfl, by decide⟩
theorem witness_Capdup : ∃ (f : Rrr) (s : State) (key : Nat) (e : EngTag) (s0 : State) (a : Word) (s1 : State) (c : Cap) (b : Buffer),
    Starts (.capdup f) s key e s0 ∧ s0.src f.a (litVal 0 f.w1) = .ok (a, s1) ∧ s1.repeated = false ∧ s1.checkSlot f.rs.toNat 0 = .ok c
    ∧ s1.slot f.fl.toNat = 0 ∧ s1.buf? (capId c) = some b ∧ b.refs ≠ 2 ^ 32 - 1 :=
  ⟨r3 1 0 5 0 0 15 0, holder .a { runner with a := [(5, 2)] } false (2 ^ 32 - 2) 3, 32, .a, _, 2, _, mkCap 7 3 5 9, _,
    starts_of rfl rfl (by decide), rfl, by decide, rfl, by decide, rfl, by decide⟩
theorem witness_CapdupTaken : ∃ (f : Rrr) (s : State) (key : Nat) (e : EngTag) (s0 : State) (a : Word) (s1 : State) (c : Cap),
    Starts (.capdup f) s key e s0 ∧ s0.src f.a (litVal 0 f.w1) = .ok (a, s1) ∧ s1.repeated = false ∧ s1.checkSlot f.rs.toNat 0 = .ok c
    ∧ s1.slot f.fl.toNat ≠ 0 :=
  ⟨r3 1 0 5 0 0 15 15, holder .a runner false 2 3, 32, .a, _, 0, _, mkCap 7 3 5 9, starts_of rfl rfl (by decide), rfl, by decide, rfl, by decide⟩
/-- The count at its limit (0x44), and a CAPDUP and a CAPDROP repeated. -/
theorem witness_CapdupFull : ∃ (f : Rrr) (s : State) (key : Nat) (e : EngTag) (s0 : State) (a : Word) (s1 : State) (c : Cap) (b : Buffer),
    Starts (.capdup f) s key e s0 ∧ s0.src f.a (litVal 0 f.w1) = .ok (a, s1) ∧ s1.repeated = false ∧ s1.checkSlot f.rs.toNat 0 = .ok c
    ∧ s1.slot f.fl.toNat = 0 ∧ s1.buf? (capId c) = some b ∧ b.refs = 2 ^ 32 - 1 :=
  ⟨r3 1 0 5 0 0 15 0, holder .a { runner with a := [(5, 2)] } false (2 ^ 32 - 1) 3, 32, .a, _, 2, _, mkCap 7 3 5 9, _,
    starts_of rfl rfl (by decide), rfl, by decide, rfl, by decide, rfl, by decide⟩
theorem witness_CapdupRepeated : ∃ (f : Rrr) (s : State) (key : Nat) (e : EngTag) (s0 : State) (a : Word) (s1 : State),
    Starts (.capdup f) s key e s0 ∧ s0.src f.a (litVal 0 f.w1) = .ok (a, s1) ∧ s1.repeated = true ∧ Starts (.capdrop f) s key e s0
    ∧ s0.repeated = true :=
  ⟨r3 1 0 0 0 0 15 0, { holder .a runner false 2 3 with keptCaps := [⟨⟨0, 0, 0, 0, .a, 0, 0⟩, 15, 1, true, false⟩] }, 32, .a, _, 0, _,
    starts_of rfl rfl (by decide), rfl, by decide, starts_of rfl rfl (by decide), by decide⟩
theorem witness_Capdrop : ∃ (f : Rrr) (s : State) (key : Nat) (e : EngTag) (s0 : State) (c : Cap) (s1 : State) (b : Buffer),
    Starts (.capdrop f) s key e s0 ∧ s0.repeated = false ∧ s0.checkSlot f.rs.toNat 0 = .ok c ∧ s1 = s0.setSlot s0.curNode f.rs.toNat 0
    ∧ s1.buf? (capId c) = some b ∧ b.refs ≤ 1 ∧ s1.myKept.length < 256 :=
  ⟨r3 1 0 0 0 0 15 0, holder .a runner false 1 3, 32, .a, _, mkCap 7 3 5 9, _, _, starts_of rfl rfl (by decide), by decide, rfl, rfl, rfl,
    by decide, by decide⟩
theorem witness_CapdropShared : ∃ (f : Rrr) (s : State) (key : Nat) (e : EngTag) (s0 : State) (c : Cap) (s1 : State) (b : Buffer),
    Starts (.capdrop f) s key e s0 ∧ s0.repeated = false ∧ s0.checkSlot f.rs.toNat 0 = .ok c ∧ s1 = s0.setSlot s0.curNode f.rs.toNat 0
    ∧ s1.buf? (capId c) = some b ∧ 2 ≤ b.refs :=
  ⟨r3 1 0 0 0 0 15 0, holder .a runner false 2 3, 32, .a, _, mkCap 7 3 5 9, _, _, starts_of rfl rfl (by decide), by decide, rfl, rfl, rfl,
    by decide⟩
theorem witness_SlotsAreChecked : ∃ (s : State) (n : Nat) (rights : BitVec 4), s.slot n ≠ 0
    ∧ capRights (s.slot n) &&& rights ≠ rights := ⟨holder .a runner false 2 3, 15, 4, by decide, by decide⟩
theorem witness_SlotOfAnotherGeneration : ∃ (s : State) (n : Nat) (rights : BitVec 4) (b : Buffer), s.slot n ≠ 0
    ∧ capRights (s.slot n) &&& rights = rights ∧ s.buf? (capId (s.slot n)) = some b ∧ b.gen ≠ capGen (s.slot n) :=
  ⟨{ holder .a runner false 2 3 with buffers := [(7, { page1 false 1 with gen := 10 })] }, 15, 3, _, by decide, by decide, rfl, by decide⟩
theorem witness_SlotPasses : ∃ (s : State) (n : Nat) (rights : BitVec 4) (c : Cap), s.checkSlot n rights = .ok c :=
  ⟨holder .a runner false 2 3, 15, 3, _, rfl⟩
theorem witness_Publish : ∃ (f : Rrr) (s : State) (key : Nat) (e : EngTag) (s0 : State) (c : Cap) (b : Buffer) (s1 : State),
    Starts (.publish f) s key e s0 ∧ s0.repeated = false ∧ s0.checkSlot f.rs.toNat 1 = .ok c ∧ s0.buf? (capId c) = some b
    ∧ b.double = true ∧ s0.release key s0.curPart 5 = .ok s1 :=
  ⟨r3 1 0 0 0 0 15 0, holder .a runner true 2 3, 32, .a, _, mkCap 7 3 5 9, _, _, starts_of rfl rfl (by decide), by decide, rfl, rfl, rfl, rfl⟩
theorem witness_PublishSingle : ∃ (f : Rrr) (s : State) (key : Nat) (e : EngTag) (s0 : State) (c : Cap) (b : Buffer),
    Starts (.publish f) s key e s0 ∧ s0.repeated = false ∧ s0.checkSlot f.rs.toNat 1 = .ok c ∧ s0.buf? (capId c) = some b ∧ b.double = false :=
  ⟨r3 1 0 0 0 0 15 0, holder .a runner false 2 3, 32, .a, _, mkCap 7 3 5 9, _, starts_of rfl rfl (by decide), by decide, rfl, rfl, rfl⟩

theorem witness_PublishRepeated : ∃ (f : Rrr) (s : State) (key : Nat) (e : EngTag) (s0 s1 : State) (k : KeptCap) (b : Buffer),
    Starts (.publish f) s key e s0 ∧ s0.repeated = true ∧ s0.release key s0.curPart 5 = .ok s1
    ∧ s1.myKept.find? (fun x => x.id == s1.identOf 0) = some k ∧ s1.buf? (capId k.cap) = some b :=
  ⟨r3 1 0 0 0 0 15 0, { holder .a runner true 2 3 with keptCaps := [⟨⟨0, 0, 0, 0, .a, 0, 0⟩, 15, mkCap 7 3 5 9, false, false⟩] }, 32, .a, _, _,
    _, _, starts_of rfl rfl (by decide), by decide, rfl, rfl, rfl⟩

/-- A COPY of 70 bytes from SELF + 8 to SELF + 4096, which commits ring 5. -/
def copying : Rrr := ⟨hd 1, 1, 2, 3, 0, 0, 0, some ⟨0, 0xA8000000⟩⟩
def copier : Cell := { ringed 1 0 0 with a := [(1, 0x1001000), (2, 0x1000008), (3, 70)] }
/-- The job that word makes. -/
def copyJob : Job :=
  { id := 0, ins := .copy copying, eng := .a, pc := 0, pos := 0, ordinal := 0, vd := 0x1001000, va := 0x1000008, vb := 70,
    nest := Nest.zero, aux := [], timetable := [], pad := 0, trecs := [], early := none, locks := [], sig := none, cmt := some 5,
    slot := 0x1000000, next := 0, part := [], hit := 0, bank := none, late := none, started := false, reads := [], finished := false,
    sent := false, accTick := 0, oldView := [], wps := [] }
theorem witness_Async : ∃ (f : Rrr) (s : State) (key : Nat) (e : EngTag) (s0 : State) (d a b : Word) (s1 s2 s3 : State) (j j0 : Job)
    (n : Nat) (w : Word), Starts (.copy f) s key e s0 ∧ (s0.core.jobsOf e).length < 64 ∧ s0.src f.d (litVal f.ty.toNat f.w1) = .ok (d, s1)
    ∧ s1.src f.a (litVal f.ty.toNat f.w1) = .ok (a, s2) ∧ s2.src f.b (litVal f.ty.toNat f.w1) = .ok (b, s3)
    ∧ j = { s3.newJob f.hdr (.copy f) with vd := d, va := a, vb := b } ∧ extCmt (extOf f.w1) = some n ∧ s3.owedSlot n = .ok w
    ∧ j0 = { j with cmt := some n, slot := w.toNat } :=
  ⟨copying, world .a copier, 32, .a, _, 0x1001000, 0x1000008, 70, _, _, _, _, _, 5, 0x1000000, starts_of rfl rfl (by decide), by decide,
    rfl, rfl, rfl, rfl, rfl, rfl, rfl⟩
theorem witness_AsyncFull : ∃ (f : Rrr) (s : State) (key : Nat) (e : EngTag) (s0 : State), Starts (.copy f) s key e s0
    ∧ 64 ≤ (s0.core.jobsOf e).length :=
  ⟨copying, world .a { copier with jobs := List.replicate 64 copyJob }, 32, .a, _, starts_of rfl rfl (by decide), by decide⟩
/-- A command whose tile record is read at issue; this one's handle names none, which its element 0 will meet. -/
theorem witness_AsyncRecord : ∃ (s3 : State) (j0 j1 : Job) (s4 : State), s3.takeRecord 32 j0 3 = .ok (j1, s4) :=
  ⟨world .a copier, copyJob, _, _, rfl⟩
theorem witness_Thfence : ∃ (f : Rrr) (s : State) (key : Nat) (e : EngTag) (s0 s1 : State), Starts (.thfence f) s key e s0
    ∧ (s0.core.jobsOf e).length < 64 ∧ s0.release key s0.curPart (if f.rs = 5 then 5 else 1) = .ok s1
    ∧ ∀ g, f.hdr.sig = some g → g.done = false :=
  ⟨⟨hd 1, 0, 0, 0, 0, 5, 0, some ⟨0, 3⟩⟩, world .a runner, 32, .a, _, _, starts_of rfl rfl (by decide), by decide, rfl,
    fun _ h => nomatch h⟩
/-- The hypotheses on a job and its turn. -/
def JobTurn (s u : State) (key id : Nat) (j : Job) (p : Plan) : Prop :=
  (s.cell key).job? id = some j ∧ ((s.cell key).phase = .running ∨ (s.cell key).phase = .halted) ∧ j.dead (s.cell key) = false
  ∧ j.finished = false ∧ (s.faults.find? fun r => r.cell == key && r.job == some id) = none ∧ (s.cell key).mayPerform j = true
  ∧ j.early = none ∧ j.late = none ∧ u = { s with actor := some (.job key id 0 []) } ∧ p = u.plan key j ∧ p.prep.isNone = true
/-- A job with an element to perform, one whose check refuses it, one whose element meets a cause, and one behind its last
element. -/
theorem witness_ElementsArePerformed : ∃ (s u : State) (key id : Nat) (j : Job) (p : Plan) (t : State) (q : Option (List Nat)),
    JobTurn s u key id j p ∧ p.check.isNone = true ∧ j.next < p.count ∧ p.elem j.next j.part u = .ok (t, q) :=
  ⟨world .a { copier with jobs := [copyJob] }, _, 32, 0, copyJob, _, _, _,
    ⟨rfl, .inl rfl, rfl, rfl, rfl, by decide, rfl, rfl, rfl, rfl, rfl⟩, by decide, by decide, rfl⟩
theorem witness_ElementsRefused : ∃ (s u : State) (key id : Nat) (j : Job) (p : Plan) (r : Raise),
    JobTurn s u key id j p ∧ j.next = 0 ∧ j.part = [] ∧ p.check = some r :=
  ⟨world .a { copier with jobs := [{ copyJob with vd := 0x1000010 }] }, _, 32, 0, { copyJob with vd := 0x1000010 }, _, _,
    ⟨rfl, .inl rfl, rfl, rfl, rfl, by decide, rfl, rfl, rfl, rfl, rfl⟩, rfl, rfl, rfl⟩
theorem witness_ElementsFault : ∃ (s u : State) (key id : Nat) (j : Job) (p : Plan) (r : Raise),
    JobTurn s u key id j p ∧ p.check.isNone = true ∧ j.next < p.count ∧ p.elem j.next j.part u = .error (.cause r none) :=
  ⟨world .a { copier with jobs := [{ copyJob with va := 0x2000000 }] }, _, 32, 0, { copyJob with va := 0x2000000 }, _, _,
    ⟨rfl, .inl rfl, rfl, rfl, rfl, by decide, rfl, rfl, rfl, rfl, rfl⟩, by decide, by decide, rfl⟩
theorem witness_ElementsFinished : ∃ (s u : State) (key id : Nat) (j : Job) (p : Plan) (t : State),
    JobTurn s u key id j p ∧ j.next ≠ 0 ∧ p.count ≤ j.next ∧ j.sent = false ∧ p.finish u = .ok t :=
  ⟨world .a { copier with jobs := [{ copyJob with next := 2 }] }, _, 32, 0, { copyJob with next := 2 }, _, _,
    ⟨rfl, .inl rfl, rfl, rfl, rfl, by decide, rfl, rfl, rfl, rfl, rfl⟩, by decide, by decide, rfl, rfl⟩
theorem witness_LaterElements : inOrder (.copym copying) = true ∧ trapClass 0x23 = false := by decide
/-- SELF to SELF, apart and overlapping. -/
theorem witness_CopyPlan : ∃ (s : State) (key : Nat) (j : Job) (kind a0 a1 d0 d1 : Nat), s.reached key j.va j.vb.toNat = [(kind, a0, a1)]
    ∧ s.reached key j.vd j.vb.toNat = [(kind, d0, d1)] ∧ j.vb.toNat ≤ 2 ^ 32 ∧ j.vb ≠ 0 ∧ ¬ (a0 < d1 ∧ d0 < a1) :=
  ⟨world .a copier, 32, copyJob, 0, 8, 78, 4096, 4166, by decide, by decide, by decide, by decide, by decide⟩
theorem witness_CopyPlanOverlaps : ∃ (s : State) (key : Nat) (j : Job) (kind a0 a1 d0 d1 : Nat), s.reached key j.va j.vb.toNat = [(kind, a0, a1)]
    ∧ s.reached key j.vd j.vb.toNat = [(kind, d0, d1)] ∧ j.vb.toNat ≤ 2 ^ 32 ∧ j.vb ≠ 0 ∧ a0 < d1 ∧ d0 < a1 :=
  ⟨world .a copier, 32, { copyJob with vd := 0x1000010 }, 0, 8, 78, 16, 86, by decide, by decide, by decide, by decide, by decide,
    by decide⟩
theorem witness_ReachOfTheWindows : ∃ (s : State) (key n off off1 : Nat) (a b : Word),
    windowOf (s.apers (s.nodeCtx (s.cell key).node)) (addrVa a) = some (0, off) ∧ off + n ≤ spadBytes
    ∧ windowOf (s.apers (s.nodeCtx (s.cell key).node)) (addrVa b) = some (1, off1) :=
  ⟨world .a runner, 32, 8, 0x7FFFF8, 0x7FFFF8, 0x17FFFF8, 0x1007FFFF8, by decide, by decide, by decide⟩

/-! ### Vector words -/

/-- X of a VEC cell. -/
def vec (c : Cell) : State := demo 1056 .x c
/-- Bits given by a function. -/
theorem bits_of (n : Nat) (p : Nat → Bool) : ∃ b : BitVec n, ∀ j, j < n → b.getLsbD j = p j := by
  induction n with
  | zero => exact ⟨0, fun j h => absurd h (Nat.not_lt_zero j)⟩
  | succ n ih =>
    obtain ⟨b, hb⟩ := ih
    refine ⟨BitVec.cons (p n) b, fun j hj => ?_⟩
    rw [BitVec.getLsbD_cons]
    split
    · next h => subst h; rfl
    · next h => exact hb j (by omega)
/-- Elements given by a function. -/
theorem elems_of {α : Type} (n : Nat) (d : α) (p : Nat → α) : ∃ l : List α, l.length = n ∧ ∀ j, j < n → l.getD j d = p j :=
  ⟨(List.range n).map p, by simp, fun j hj => by simp [List.getD, hj]⟩

theorem witness_VTernary (fn : Rrr → Nat → Nat → Nat → Nat × Flags) : ∃ (f : Rrr) (s : State) (key : Nat) (s0 : State) (a b : List Nat)
    (t : State) (rs : List (Nat × Flags)), StartsX (.fma f) s key s0 ∧ FType f.ty
    ∧ VReadsTwo s0 f.a f.b (ebits f) (litVal f.ty.toNat f.w1) a b t ∧ rs.length = elemCount (ebits f)
    ∧ ∀ j, j < elemCount (ebits f) → rs.getD j (0, 0)
      = fn f (a.getD j 0) (b.getD j 0) ((t.core.velems (ebits f) (t.core.vphys f.d.toNat)).getD j 0) := by
  obtain ⟨rs, h1, h2⟩ := elems_of (elemCount 64) ((0, 0) : Nat × Flags) fun j => fn (r3 2 1 2 0xFE 8 0 3)
    (((vec { runner with qx := [5] }).core.velems 64 2).getD j 0) ((List.replicate 512 5).getD j 0)
    (((vec { runner with qx := [] }).core.velems 64 1).getD j 0)
  exact ⟨r3 2 1 2 0xFE 8 0 3, vec { runner with qx := [5] }, 1056, _, _, _, _, rs, ⟨starts_of rfl rfl (by decide), by decide⟩, by decide,
    ⟨_, rfl, rfl⟩, h1, h2⟩
theorem witness_VUnary : ∃ (f : Rrr) (s : State) (key : Nat) (s0 : State) (a : List Nat) (t : State), StartsX (.fneg f) s key s0
    ∧ FType f.ty ∧ s0.vsrc f.a (ebits f) (litVal f.ty.toNat f.w1) = .ok (a, t) :=
  ⟨r3 2 1 0xFF 0 11 0 3, vec runner, 1056, _, _, _, ⟨starts_of rfl rfl (by decide), by decide⟩, by decide, rfl⟩
theorem witness_VCompare (fn : Rrr → Nat → Nat → Bool × Flags) : ∃ (f : Rrr) (s : State) (key : Nat) (s0 : State) (a b : List Nat)
    (t : State) (bits : BitVec 2048), StartsX (.fcmp f) s key s0 ∧ FType f.ty ∧ (s0.core.stageOpen = true → f.d.toNat < 8)
    ∧ VReadsTwo s0 f.a f.b (ebits f) (litVal f.ty.toNat f.w1) a b t
    ∧ ∀ j, j < 2048 → bits.getLsbD j = (masked t.core f.fl.toNat (ebits f) (j / (ebits f / 16))
      && (fn f (a.getD (j / (ebits f / 16)) 0) (b.getD (j / (ebits f / 16)) 0)).1) := by
  obtain ⟨bits, h⟩ := bits_of 2048 fun j => masked (vec { runner with stageOpen := true }).core 3 32 (j / 2)
    && (fn (r3 2 7 2 4 9 5 3) (((vec runner).core.velems 32 2).getD (j / 2) 0) (((vec runner).core.velems 32 4).getD (j / 2) 0)).1
  exact ⟨r3 2 7 2 4 9 5 3, vec { runner with stageOpen := true }, 1056, _, _, _, _, bits, ⟨starts_of rfl rfl (by decide), by decide⟩,
    by decide, fun _ => by decide, ⟨_, rfl, rfl⟩, h⟩
theorem witness_VTernaryInt (fn : Rrr → Nat → Nat → Nat → Nat × Flags) : ∃ (f : Rrr) (s : State) (key : Nat) (s0 : State) (a b : List Nat)
    (t : State) (rs : List (Nat × Flags)), StartsX (.iadd f) s key s0 ∧ IType f.ty
    ∧ VReadsTwo s0 f.a f.b (ebits f) (litVal f.ty.toNat f.w1) a b t ∧ rs.length = elemCount (ebits f)
    ∧ ∀ j, j < elemCount (ebits f) → rs.getD j (0, 0)
      = fn f (a.getD j 0) (b.getD j 0) ((t.core.velems (ebits f) (t.core.vphys f.d.toNat)).getD j 0) := by
  obtain ⟨rs, h1, h2⟩ := elems_of (elemCount 64) ((0, 0) : Nat × Flags) fun j => fn (r3 2 1 2 0xFE 0 0 3)
    (((vec { runner with qx := [5] }).core.velems 64 2).getD j 0) ((List.replicate 512 5).getD j 0)
    (((vec { runner with qx := [] }).core.velems 64 1).getD j 0)
  exact ⟨r3 2 1 2 0xFE 0 0 3, vec { runner with qx := [5] }, 1056, _, _, _, _, rs, ⟨starts_of rfl rfl (by decide), by decide⟩, by decide,
    ⟨_, rfl, rfl⟩, h1, h2⟩
theorem witness_VUnaryInt : ∃ (f : Rrr) (s : State) (key : Nat) (s0 : State) (a : List Nat) (t : State), StartsX (.iabs f) s key s0
    ∧ IType f.ty ∧ s0.vsrc f.a (ebits f) (litVal f.ty.toNat f.w1) = .ok (a, t) :=
  ⟨r3 2 1 0xFF 0 4 0 3, vec runner, 1056, _, _, _, ⟨starts_of rfl rfl (by decide), by decide⟩, by decide, rfl⟩
theorem witness_VCompareInt (fn : Rrr → Nat → Nat → Bool × Flags) : ∃ (f : Rrr) (s : State) (key : Nat) (s0 : State) (a b : List Nat)
    (t : State) (bits : BitVec 2048), StartsX (.icmp f) s key s0 ∧ IType f.ty ∧ (s0.core.stageOpen = true → f.d.toNat < 8)
    ∧ VReadsTwo s0 f.a f.b (ebits f) (litVal f.ty.toNat f.w1) a b t
    ∧ ∀ j, j < 2048 → bits.getLsbD j = (masked t.core f.fl.toNat (ebits f) (j / (ebits f / 16))
      && (fn f (a.getD (j / (ebits f / 16)) 0) (b.getD (j / (ebits f / 16)) 0)).1) := by
  obtain ⟨bits, h⟩ := bits_of 2048 fun j => masked (vec { runner with stageOpen := true }).core 3 32 (j / 2)
    && (fn (r3 2 7 2 4 3 5 3) (((vec runner).core.velems 32 2).getD (j / 2) 0) (((vec runner).core.velems 32 4).getD (j / 2) 0)).1
  exact ⟨r3 2 7 2 4 3 5 3, vec { runner with stageOpen := true }, 1056, _, _, _, _, bits, ⟨starts_of rfl rfl (by decide), by decide⟩,
    by decide, fun _ => by decide, ⟨_, rfl, rfl⟩, h⟩
theorem witness_VMask : ∃ (f : Rrr) (s : State) (key : Nat) (s0 : State) (bits : BitVec 2048), Starts (.kxor f) s key .x s0
    ∧ (s0.core.stageOpen = true → f.d.toNat < 8)
    ∧ ∀ j, j < 2048 → bits.getLsbD j = ((s0.core.kreg f.a.toNat).getLsbD j != (s0.core.kreg f.b.toNat).getLsbD j) := by
  obtain ⟨bits, h⟩ := bits_of 2048 fun j => (((vec runner).core.kreg 0).getLsbD j != ((vec runner).core.kreg 2).getLsbD j)
  exact ⟨r3 2 9 0 2 0 0 0, vec runner, 1056, _, bits, starts_of rfl rfl (by decide), by decide, h⟩
theorem witness_VMaskDriven : ∃ (f : Rrr) (s : State) (key : Nat) (s0 : State), Starts (.knot f) s key .x s0 ∧ s0.core.stageOpen = true
    ∧ 8 ≤ f.d.toNat := ⟨r3 2 8 0 0 0 0 0, vec { runner with stageOpen := true }, 1056, _, starts_of rfl rfl (by decide), rfl, by decide⟩
theorem witness_VMove (fn : Nat → Nat → Nat → Nat → Nat × Nat) : ∃ (f : Rrr) (s : State) (key : Nat) (s0 : State) (a : List Nat) (s1 : State)
    (c : Word) (t : State) (rs : List (Nat × Flags)), StartsX (.rotr f) s key s0 ∧ VType f.ty
    ∧ s0.vsrc f.a (ebits f) (litVal f.ty.toNat f.w1) = .ok (a, s1) ∧ s1.src f.b (litZ f.w1) = .ok (c, t) ∧ rs.length = 16 * erow f
    ∧ ∀ row e, row < 16 → e < erow f → rs.getD (row * erow f + e) (0, 0)
      = (a.getD ((fn (erow f) c.toNat row e).1 * erow f + (fn (erow f) c.toNat row e).2) 0, 0) := by
  have hr : erow (r3 2 1 2 5 2 0 0) = 64 := rfl
  obtain ⟨rs, h1, h2⟩ := elems_of 1024 ((0, 0) : Nat × Flags) fun i =>
    (((vec runner).core.velems 32 2).getD ((fn 64 65 (i / 64) (i % 64)).1 * 64 + (fn 64 65 (i / 64) (i % 64)).2) 0, 0)
  refine ⟨r3 2 1 2 5 2 0 0, vec { runner with x := [(5, 65)] }, 1056, _, _, _, 65, _, rs, ⟨starts_of rfl rfl (by decide), by decide⟩,
    by decide, rfl, rfl, by rw [h1, hr], ?_⟩
  intro row e h3 h4
  rw [hr] at h4 ⊢
  rw [h2 _ (by omega), show (row * 64 + e) / 64 = row from by omega, show (row * 64 + e) % 64 = e from by omega]
  rfl
theorem witness_VReduce : ∃ (f : Rrr) (s : State) (key : Nat) (s0 : State) (a : List Nat) (t : State), StartsX (.redr f) s key s0
    ∧ VType f.ty ∧ s0.vsrc f.a (ebits f) (litVal f.ty.toNat f.w1) = .ok (a, t) :=
  ⟨r3 2 1 2 0 9 0 3, vec runner, 1056, _, _, _, ⟨starts_of rfl rfl (by decide), by decide⟩, by decide, rfl⟩
theorem witness_WindowsRotate : ∃ (c : Cell) (n : Nat), c.vrotSize ≠ 0 ∧ c.vrotBase ≤ n ∧ n + 1 < c.vrotBase + c.vrotSize :=
  ⟨{ runner with vrotBase := 16, vrotSize := 240, vrotOff := 239 }, 254, by decide, by decide, by decide⟩
theorem test_windows_rotate : ({ runner with vrotBase := 16, vrotSize := 8, vrotOff := 3 } : Cell).vphys 17 = 22
    ∧ ({ runner with vrotBase := 16, vrotSize := 8, vrotOff := 3 } : Cell).vphys 24 = 24 := by decide
theorem witness_VectorResultsUnderMask : ∃ (s : State) (key : Nat) (f : Rrr) (rs : List (Nat × Flags)), s.cur = .cell key .x ∧ VType f.ty
    ∧ rs.length = elemCount (ebits f) ∧ ∀ r ∈ rs, r.1 < 2 ^ ebits f :=
  ⟨vec { runner with k := [(3, 1)] }, 1056, r3 2 1 2 3 2 0 3, List.replicate 1024 (7, 5), rfl, by decide,
    List.length_replicate, fun r hr => by rw [List.eq_of_mem_replicate hr]; exact Nat.lt_of_sub_ne_zero (by decide)⟩
theorem witness_RoundingAndExceptions : ∃ (mode : Nat) (neg : Bool) (num den k : Nat) (nx : Bool), 0 < den
    ∧ roundAt mode neg num den 0 0 = (k, nx) ∧ mode = 0 ∧ 2 * num = 2 * k * den + den := ⟨0, false, 5, 2, 2, true, by decide, by decide, rfl, rfl⟩
theorem witness_Vsel : ∃ (f : Rrr) (s : State) (key : Nat) (s0 : State) (a b : List Nat) (t : State), StartsX (.vsel f) s key s0 ∧ VType f.ty
    ∧ VReadsTwo s0 f.a f.b (ebits f) (litVal f.ty.toNat f.w1) a b t :=
  ⟨r3 2 1 2 3 4 0 3, vec runner, 1056, _, _, _, _, ⟨starts_of rfl rfl (by decide), by decide⟩, by decide, ⟨_, rfl, rfl⟩⟩
theorem witness_MovV : ∃ (f : Rrr) (s : State) (key : Nat) (s0 : State) (a : List Nat) (t : State), StartsX (.movV f) s key s0 ∧ VType f.ty
    ∧ f.rs.getLsbD 1 = true ∧ a = s0.core.velems (ebits f) (s0.core.vphys f.a.toNat) ∧ t = s0 :=
  ⟨r3 2 1 0xFF 0 2 2 3, vec runner, 1056, _, _, _, ⟨starts_of rfl rfl (by decide), by decide⟩, by decide, rfl, rfl, rfl⟩
theorem witness_Trb : ∃ (f : Rrr) (s : State) (key : Nat) (s0 : State) (a : List Nat) (t : State), StartsX (.trb f) s key s0
    ∧ s0.vsrc f.a 32 (litVal f.ty.toNat f.w1) = .ok (a, t) :=
  ⟨r3 2 1 2 0 2 0 3, vec runner, 1056, _, _, _, ⟨starts_of rfl rfl (by decide), by decide⟩, rfl⟩
theorem witness_RotBase : ∃ (f : Rrr) (s : State) (key : Nat) (s0 : State), StartsX (.rotBase f) s key s0 :=
  ⟨r3 2 1 0xFE 0 0 0 0, vec runner, 1056, _, ⟨starts_of rfl rfl (by decide), by decide⟩⟩
theorem witness_RotBaseOff : ∃ (f : Rrr) (s : State) (key : Nat) (s0 : State), StartsX (.rotBaseOff f) s key s0 :=
  ⟨r3 2 0 0 0 0 1 0, vec runner, 1056, _, ⟨starts_of rfl rfl (by decide), by decide⟩⟩
theorem test_reductions : (ITy.ofCode 6).reduce 0 [200, 100] = 44 ∧ (ITy.ofCode 6).reduce 1 [200, 100] = 200
    ∧ (ITy.ofCode 7).reduce 1 [200, 100] = 100 ∧ (ITy.ofCode 6).reduce 2 [] = 128 := by decide
/-- The places of a conversion that widens, and of one that narrows. -/
theorem witness_Places (conv : Nat → Nat × Flags) (old a : List Nat) : ∃ rs, rs.length = 512 ∧ Places 64 32 1 old a conv rs := by
  obtain ⟨rs, h1, h2⟩ := elems_of 512 ((0, 0) : Nat × Flags) fun i => conv (a.getD (i / 32 * 64 + (i % 32 + 32 * 1)) 0)
  refine ⟨rs, h1, fun h => absurd h (by omega), fun _ row e h3 h4 => ?_⟩
  rw [h2 _ (by omega), show (row * 32 + e) / 32 = row from by omega, show (row * 32 + e) % 32 = e from by omega]
theorem witness_Cvt : ∃ (f : Rrr) (s : State) (key : Nat) (s0 : State) (a : List Nat) (t : State) (ws p : Nat), StartsX (.cvt f) s key s0
    ∧ VType f.ty ∧ VType (f.b.setWidth 4) ∧ ws = typeBits (f.b.toNat % 16) ∧ p = f.b.toNat / 16 % 4
    ∧ s0.vsrc f.a ws (litVal (f.b.toNat % 16) f.w1) = .ok (a, t) ∧ 2048 / ws = 64 ∧ erow f = 32 ∧ p = 1 :=
  ⟨r3 2 1 2 0x19 8 0 3, vec runner, 1056, _, _, _, 32, 1, ⟨starts_of rfl rfl (by decide), by decide⟩, by decide, by decide, rfl, rfl, rfl,
    rfl, rfl, rfl⟩
theorem witness_UnpkPack : ∃ (f : Rrr) (s : State) (key : Nat) (s0 : State) (a : List Nat) (t : State), StartsX (.unpk f) s key s0 ∧ VType f.ty
    ∧ s0.vsrc f.a (ebits f) (litVal f.ty.toNat f.w1) = .ok (a, t) ∧ isFloatType f.ty.toNat = false ∧ 5 ≤ f.rs.toNat :=
  ⟨r3 2 1 2 0 4 6 3, vec runner, 1056, _, _, _, ⟨starts_of rfl rfl (by decide), by decide⟩, by decide, rfl, rfl, by decide⟩
theorem witness_Pack : ∃ (f : Rrr) (s : State) (key : Nat) (s0 : State) (a : List Nat) (t : State), StartsX (.pack f) s key s0 ∧ VType f.ty
    ∧ s0.vsrc f.a (ebits f) (litVal f.ty.toNat f.w1) = .ok (a, t) :=
  ⟨r3 2 1 2 0 9 0 3, vec runner, 1056, _, _, _, ⟨starts_of rfl rfl (by decide), by decide⟩, by decide, rfl⟩
/-- X in the middle of a transfer: it has issued and moved 255 granules. -/
def midMove (c : Cell) : State := vec { c with engX := { Eng.fresh with issued := true, waitVal := some 255 } }
/-- A VLD that starts, one that takes its last granule, and one whose granule is empty. -/
theorem witness_Vld : ∃ (f : Rrr) (s : State) (key : Nat) (s0 : State) (a : Word) (s1 : State) (b : Word) (s2 : State) (o : Nat) (s3 : State),
    Starts (.vld f) s key .x s0 ∧ s0.owes .c Instr.writesVrot = false ∧ VType f.ty ∧ f.rs = 0 ∧ s0.src f.a (litZ f.w1) = .ok (a, s1)
    ∧ s1.src f.b (litZ f.w1) = .ok (b, s2) ∧ o = (a.toNat + b.toNat) % 2 ^ 64 ∧ o % 16 = 0 ∧ o + 4096 ≤ 2 ^ 23 ∧ s0.partsDone = 0
    ∧ s2.spadReady key key o 16 = .ok () ∧ s2.watchLocal key o 4096 false = .ok s3 :=
  ⟨r3 2 1 5 6 2 0 3, vec { runner with x := [(5, 0x7FF010), (6, 0xFFFFFFFFFFFFFFF0)] }, 1056, _, 0x7FF010, _, 0xFFFFFFFFFFFFFFF0, _, 0x7FF000, _,
    starts_of rfl rfl (by decide), by decide, by decide, rfl, rfl, rfl, by decide, by decide, by decide, rfl, rfl, rfl⟩
theorem witness_VldLast : ∃ (f : Rrr) (s : State) (key : Nat) (s0 : State) (a : Word) (s1 : State) (b : Word) (s2 : State) (o : Nat) (s3 : State),
    Goes (.vld f) s key .x s0 ∧ s0.owes .c Instr.writesVrot = false ∧ VType f.ty ∧ f.rs.getLsbD 0 = true
    ∧ s0.src f.a (litZ f.w1) = .ok (a, s1) ∧ s1.src f.b (litZ f.w1) = .ok (b, s2) ∧ o = (a.toNat + b.toNat) % 2 ^ 64 ∧ o % 16 = 0
    ∧ o + 4096 ≤ 2 ^ 23 ∧ s0.partsDone = 255 ∧ s2.spadReady key key (o + 16 * 255) 16 = .ok () ∧ s2.watchLocal key o 4096 false = .ok s3
    ∧ (s3.cell key).bankTurn key .x (o / 16 + 255) true = true :=
  ⟨r3 2 1 5 6 2 3 3, midMove { runner with x := [(5, 0x7FF000)], fe := [(0x7FFFF, true)] }, 1056, _, 0x7FF000, _, 0, _, 0x7FF000, _,
    .inr ⟨_, rfl, rfl, rfl, rfl, rfl, rfl, rfl, rfl⟩, by decide, by decide, by decide, rfl, rfl, by decide, by decide, by decide, rfl, rfl, rfl,
    by decide⟩
theorem witness_VldWaits : ∃ (f : Rrr) (s : State) (key : Nat) (s0 : State) (a : Word) (s1 : State) (b : Word) (s2 : State) (o : Nat) (s3 : State),
    Starts (.vld f) s key .x s0 ∧ s0.owes .c Instr.writesVrot = false ∧ VType f.ty ∧ f.rs.getLsbD 0 = true
    ∧ s0.src f.a (litZ f.w1) = .ok (a, s1) ∧ s1.src f.b (litZ f.w1) = .ok (b, s2) ∧ o = (a.toNat + b.toNat) % 2 ^ 64 ∧ o % 16 = 0
    ∧ o + 4096 ≤ 2 ^ 23 ∧ s0.partsDone = 0 ∧ s2.spadReady key key o 16 = .ok () ∧ s2.watchLocal key o 4096 false = .ok s3
    ∧ (s3.cell key).bankTurn key .x (o / 16) true = false :=
  ⟨r3 2 1 5 6 2 1 3, vec { runner with x := [(5, 0x1000)] }, 1056, _, 0x1000, _, 0, _, 0x1000, _,
    starts_of rfl rfl (by decide), by decide, by decide, by decide, rfl, rfl, by decide, by decide, by decide, rfl, rfl, rfl, by decide⟩
theorem witness_VldGranule : ∃ (s t : State) (key o q g : Nat) (lm : List (BitVec 32)), s.cur = .cell key .x ∧ t = s.vldGranule key o q g true lm
    ∧ g ≤ 255 ∧ o % 16 = 0 ∧ lm.length = 1024 ∧ FMap.wf (s.cell key).v 0 = true ∧ Memory.wf (s.cell key).spad = true :=
  ⟨vec { runner with v := [(5, 7)], spad := [(16, 1)] }, _, 1056, 16, 0, 255, List.replicate 1024 0xFFFF, rfl, rfl, by decide, by decide,
    List.length_replicate, by decide, by decide⟩
theorem witness_VldMisaligned : ∃ (f : Rrr) (s : State) (key : Nat) (s0 : State) (a : Word) (s1 : State) (b : Word) (s2 : State),
    Starts (.vld f) s key .x s0 ∧ s0.owes .c Instr.writesVrot = false ∧ VType f.ty ∧ s0.src f.a (litZ f.w1) = .ok (a, s1)
    ∧ s1.src f.b (litZ f.w1) = .ok (b, s2) ∧ s0.partsDone = 0 ∧ (a.toNat + b.toNat) % 2 ^ 64 % 16 ≠ 0 :=
  ⟨r3 2 1 5 6 2 0 3, vec { runner with x := [(5, 8)] }, 1056, _, 8, _, 0, _, starts_of rfl rfl (by decide), by decide, by decide, rfl, rfl,
    rfl, by decide⟩
theorem witness_VldBeyond : ∃ (f : Rrr) (s : State) (key : Nat) (s0 : State) (a : Word) (s1 : State) (b : Word) (s2 : State),
    Starts (.vld f) s key .x s0 ∧ s0.owes .c Instr.writesVrot = false ∧ VType f.ty ∧ s0.src f.a (litZ f.w1) = .ok (a, s1)
    ∧ s1.src f.b (litZ f.w1) = .ok (b, s2) ∧ s0.partsDone = 0 ∧ (a.toNat + b.toNat) % 2 ^ 64 % 16 = 0
    ∧ 2 ^ 23 < (a.toNat + b.toNat) % 2 ^ 64 + 4096 :=
  ⟨r3 2 1 5 6 2 0 3, vec { runner with x := [(5, 0x7FF010)] }, 1056, _, 0x7FF010, _, 0, _, starts_of rfl rfl (by decide), by decide, by decide, rfl,
    rfl, rfl, by decide, by decide⟩
/-- A VST that starts, and one that moves its last granule. -/
theorem witness_Vst : ∃ (f : Rrr) (s : State) (key : Nat) (s0 : State) (es : List Nat) (s1 : State) (a : Word) (s2 : State) (b : Word)
    (s3 : State) (o : Nat) (s4 : State), Starts (.vst f) s key .x s0 ∧ s0.owes .c Instr.writesVrot = false ∧ VType f.ty
    ∧ s0.vsrc f.d (ebits f) (litVal f.ty.toNat f.w1) = .ok (es, s1) ∧ s1.src f.a (litZ f.w1) = .ok (a, s2)
    ∧ s2.src f.b (litZ f.w1) = .ok (b, s3) ∧ o = (a.toNat + b.toNat) % 2 ^ 64 ∧ o % 16 = 0 ∧ o + 4096 ≤ 2 ^ 23 ∧ s0.partsDone = 0
    ∧ s3.spadReady key key o 16 = .ok () ∧ s3.watchLocal key o 4096 true = .ok s4 ∧ s0.core.ordAt s0.core.engX.pos = false
    ∧ s0.ordWaits key .x s0.core.engX.pos o 16 = false :=
  ⟨r3 2 1 5 6 2 0 3, vec { runner with x := [(5, 0x1000)] }, 1056, _, _, _, 0x1000, _, 0, _, 0x1000, _,
    starts_of rfl rfl (by decide), by decide, by decide, rfl, rfl, rfl, by decide, by decide, by decide, rfl, rfl, rfl, rfl, by decide⟩
theorem witness_VstLast : ∃ (f : Rrr) (s : State) (key : Nat) (s0 : State) (es : List Nat) (s1 : State) (a : Word) (s2 : State) (b : Word)
    (s3 : State) (o : Nat) (s4 : State), Goes (.vst f) s key .x s0 ∧ s0.owes .c Instr.writesVrot = false ∧ VType f.ty
    ∧ s0.vsrc f.d (ebits f) (litVal f.ty.toNat f.w1) = .ok (es, s1) ∧ s1.src f.a (litZ f.w1) = .ok (a, s2)
    ∧ s2.src f.b (litZ f.w1) = .ok (b, s3) ∧ o = (a.toNat + b.toNat) % 2 ^ 64 ∧ o % 16 = 0 ∧ o + 4096 ≤ 2 ^ 23 ∧ s0.partsDone = 255
    ∧ s3.spadReady key key (o + 16 * 255) 16 = .ok () ∧ s3.watchLocal key o 4096 true = .ok s4 ∧ s4.core.ordAt s4.core.engX.pos = false :=
  ⟨r3 2 1 5 6 2 0 3, midMove { runner with x := [(5, 0x7FF000)] }, 1056, _, _, _, 0x7FF000, _, 0, _, 0x7FF000, _,
    .inr ⟨_, rfl, rfl, rfl, rfl, rfl, rfl, rfl, rfl⟩, by decide, by decide, rfl, rfl, rfl, by decide, by decide, by decide, rfl, rfl, rfl, rfl⟩
theorem witness_SpecialInputs : ∃ (ty : Nat) (t : FFmt) (x : Nat) (m : Nat) (e : Int), t = fmtOf ty ∧ ty ∈ [9, 10, 11]
    ∧ t.decode x = .fin true m e ∧ m = 0 := ⟨9, f32, 0x80000000, 0, -149, rfl, by decide, by decide, rfl⟩
theorem witness_SpecialNan : ∃ (ty : Nat) (t : FFmt) (x : Nat), t = fmtOf ty ∧ ty ∈ [9, 10, 11] ∧ t.decode x = .nan true :=
  ⟨11, f16, 0x7C01, rfl, by decide, rfl⟩
/-- A predicate whose lanes are all masked off, and one with an infinite coordinate at lane 0. -/
theorem witness_VPredicate : ∃ (f : Rrr) (s : State) (key : Nat) (s0 : State) (rs : List (Int × Nat)), StartsX (.orient2 f) s key s0
    ∧ (f.ty = 8 ∨ f.ty = 9) ∧ (s0.core.stageOpen = true → f.b.toNat < 8) ∧ rs.length = elemCount (ebits f)
    ∧ ∀ l, l < elemCount (ebits f) → masked s0.core f.fl.toNat (ebits f) l = false ∧ rs.getD l (0, 0) = (0, 0) :=
  ⟨r3 2 100 8 3 8 1 2, vec runner, 1056, _, List.replicate 512 (0, 0), ⟨starts_of rfl rfl (by decide), by decide⟩, by decide, by decide,
    List.length_replicate, fun l hl => ⟨by
      have hk : (vec runner).core.kreg 2 = 0 := rfl
      show ((vec runner).core.kreg 2).getLsbD (l * 4) = false
      rw [hk]; simp, by
      have h : l < 512 := hl
      rw [List.getD_eq_getElem?_getD, List.getElem?_replicate, if_pos h]
      rfl⟩⟩
theorem witness_PredicateInfinite : ∃ (f : Rrr) (s : State) (key : Nat) (s0 : State) (l : Nat), StartsX (.orient2 f) s key s0
    ∧ (f.ty = 8 ∨ f.ty = 9) ∧ l < elemCount (ebits f) ∧ masked s0.core f.fl.toNat (ebits f) l = true ∧ l = 0
    ∧ ¬ Finite (points f s0.core 2 3 l) ∧ f.rs.getLsbD 1 = false := by
  refine ⟨r3 2 100 8 3 9 0 0, vec { runner with v := [(1024 * 8, 0x7F800000)] }, 1056, _, 0, ⟨starts_of rfl rfl (by decide), by decide⟩,
    by decide, by decide, by
      show (BitVec.allOnes 2048).getLsbD 0 = true
      simp, rfl, fun h => ?_, rfl⟩
  have h1 : points (r3 2 100 8 3 9 0 0) (vec { runner with v := [(1024 * 8, 0x7F800000)] }).core 2 3 0
      = [[.inf false, .fin false 0 (-149)], [.fin false 0 (-149), .fin false 0 (-149)], [.fin false 0 (-149), .fin false 0 (-149)]] := by
    decide +kernel
  have := h [.inf false, .fin false 0 (-149)] (by
    show _ ∈ points (r3 2 100 8 3 9 0 0) (vec { runner with v := [(1024 * 8, 0x7F800000)] }).core 2 3 0
    rw [h1]; simp) (.inf false) (by simp)
  simp [Val.isFin] at this

/-! ### Matrix, row, sort and sparse words -/

/-- An engine of a DMX cell. -/
def dmx (e : EngTag) (c : Cell) : State := demo 32 e c
/-- An MGO of two int8 operands, with a plain sum. -/
def mgoPlain : Rrr := ⟨hd 3, 0, 0, 0, 0, 0, 0, some ⟨0, 0x77000000⟩⟩
/-- An MGO that the engine has not finished. -/
def mgoWork : Job := { copyJob with ins := .mgo mgoPlain, eng := .m }
/-- A nest with one K level of four steps, its operands in the scratchpad. -/
def nestOfFour : Nest := { Nest.zero with fields := [(5, 0x8000000000000004), (13, 1), (21, 1)] }
theorem witness_TableWord : ∃ (f : Rrr) (s : State) (key : Nat) (e : EngTag) (s0 : State) (a b : Word) (t : State),
    Starts (.mset f) s key e s0 ∧ s0.afterTakers .m Instr.isMgo = .ok () ∧ ReadsTwo s0 f.a f.b (litVal 0 f.w1) a b t :=
  ⟨r3 0 5 3 0xFE 0 0 0, dmx .c { runner with x := [(3, 4)], qc := [7] }, 32, .c, _, 4, 7, _, starts_of rfl rfl (by decide), rfl, ⟨_, rfl, rfl⟩⟩
/-- M has not yet issued an MGO that stands before the word: the pass is one MGO ahead of it. -/
theorem witness_TableWordWaits : ∃ (f : Rrr) (s : State) (key : Nat) (e : EngTag) (s0 : State), Starts (.mset f) s key e s0
    ∧ s0.core.handler = none ∧ s0.owes .m Instr.isMgo = true :=
  ⟨r3 0 5 3 0 0 0 0, coded 32 .c { runner with engC := { Eng.fresh with pos := 1, pc := 16 }, path := [0, 16] }
      (encode (.mgo mgoPlain) ++ encode (.mset (r3 0 5 3 0 0 0 0))), 32, .c, _, starts_of rfl rfl (by decide), rfl, by decide⟩
theorem witness_Rtt : ∃ (f : Rrr) (s : State) (key : Nat) (e : EngTag) (s0 : State) (a : Word) (t : State), Starts (.rtt f) s key e s0
    ∧ s0.afterTakers .w Instr.isRgo = .ok () ∧ s0.src f.a (litVal 0 f.w1) = .ok (a, t) :=
  ⟨r3 0 3 3 0 0 0 0, dmx .c { runner with x := [(3, 4)] }, 32, .c, _, 4, _, starts_of rfl rfl (by decide), rfl, rfl⟩
theorem witness_Mgo : ∃ (f : Rrr) (s : State) (key : Nat) (e : EngTag) (s0 : State) (lcs : List Nat),
    Starts (.mgo f) s key e s0 ∧ s0.owes .c Instr.writesNest = false ∧ (mgoF f).sr < 4
    ∧ mgoCombination (mgoF f).fa (mgoF f).fb (mgoF f).sr (mgoF f).scaled = true
    ∧ s0.nestTrips s0.core.shadow [0, 1, 2, 3, 4, 5] = .ok lcs
    ∧ s0.core.shadow.ok (mgoF f).fa (mgoF f).fb (mgoF f).conv (mgoF f).scaled (s0.core.shadow.levels lcs) = true :=
  ⟨mgoPlain, dmx .m { runner with shadow := nestOfFour }, 32, .m, _, [0, 0, 0, 0, 0, 0], starts_of rfl rfl (by decide), by decide,
    by decide, by decide, rfl, by decide⟩
/-- The job starts: it takes PADVAL and its tile records, of which this one has none. -/
theorem witness_MgoStarts : ∃ (s : State) (key : Nat) (j j1 j2 : Job) (s1 s2 : State), j.started = false
    ∧ recordOf key j.nest.opdA j s = .ok (j1, s1) ∧ recordOf key j.nest.opdB j1 s1 = .ok (j2, s2) :=
  ⟨dmx .m { runner with jobs := [mgoWork] }, 32, mgoWork, _, _, _, _, rfl, rfl, rfl⟩
theorem witness_MgoTable : ∃ (f : Rrr) (s : State) (key : Nat) (e : EngTag) (s0 : State) (lcs : List Nat),
    Starts (.mgo f) s key e s0 ∧ s0.owes .c Instr.writesNest = false ∧ (mgoF f).sr < 4
    ∧ mgoCombination (mgoF f).fa (mgoF f).fb (mgoF f).sr (mgoF f).scaled = true
    ∧ s0.nestTrips s0.core.shadow [0, 1, 2, 3, 4, 5] = .ok lcs
    ∧ s0.core.shadow.ok (mgoF f).fa (mgoF f).fb (mgoF f).conv (mgoF f).scaled (s0.core.shadow.levels lcs) = false :=
  ⟨mgoPlain, dmx .m { runner with shadow := { nestOfFour with opdA := ⟨0, 0x7FFFFD, 0⟩ } }, 32, .m, _, [0, 0, 0, 0, 0, 0],
    starts_of rfl rfl (by decide), by decide, by decide, by decide, rfl, by decide⟩
theorem witness_MgoSemiring : ∃ (f : Rrr), 4 ≤ (mgoF f).sr := ⟨{ mgoPlain with w1 := some ⟨0, 0x77800000⟩ }, by decide⟩
theorem witness_MgoCombination : ∃ (f : Rrr), (mgoF f).sr < 4
    ∧ mgoCombination (mgoF f).fa (mgoF f).fb (mgoF f).sr (mgoF f).scaled = false :=
  ⟨{ mgoPlain with w1 := some ⟨0, 0x77600000⟩ }, by decide, by decide⟩
/-- C still has an MSET before the MGO to issue. -/
theorem witness_MgoWaits : ∃ (f : Rrr) (s : State) (key : Nat) (e : EngTag) (s0 : State), Starts (.mgo f) s key e s0
    ∧ s0.owes .c Instr.writesNest = true :=
  ⟨mgoPlain, coded 32 .m { runner with engM := { Eng.fresh with pos := 1, pc := 8 }, path := [0, 8] }
      (encode (.mset (r3 0 5 3 0 0 0 0)) ++ encode (.mgo mgoPlain)), 32, .m, _, starts_of rfl rfl (by decide), by decide⟩
theorem witness_Mzero : ∃ (f : Rrr) (s : State) (key : Nat) (e : EngTag) (s0 : State), Starts (.mzero f) s key e s0
    ∧ s0.core.accBusy f.d.toNat = false ∧ s0.core.rowsAt f.d.toNat = false ∧ s0.core.zeroed = 0 :=
  ⟨r3 3 7 0 0 0 2 0, dmx .m runner, 32, .m, _, starts_of rfl rfl (by decide), by decide, by decide, rfl⟩
theorem witness_MzeroWaits : ∃ (f : Rrr) (s : State) (key : Nat) (e : EngTag) (s0 : State), Starts (.mzero f) s key e s0
    ∧ s0.core.accBusy f.d.toNat = true :=
  ⟨r3 3 0 0 0 0 2 0, dmx .m { runner with jobs := [{ mgoWork with nest := nestOfFour, aux := [0, 0, 0, 0, 0, 0] }] }, 32, .m, _,
    starts_of rfl rfl (by decide), by decide⟩
theorem witness_MloadChecks : ∃ (f : Rrr) (s s' : State) (key : Nat) (e : EngTag) (s0 s0' : State) (a b : Word) (t t' : State),
    Starts (.mload f) s key e s0 ∧ s0.src f.a (litVal 0 f.w1) = .ok (a, t) ∧ s0.partsDone = 0 ∧ a.toNat % 16 ≠ 0
    ∧ Starts (.mload f) s' key e s0' ∧ s0'.src f.a (litVal 0 f.w1) = .ok (b, t') ∧ s0'.partsDone = 0 ∧ b.toNat % 16 = 0
    ∧ 2 ^ 23 < b.toNat + 131072 :=
  ⟨r3 3 7 5 0 0 0 0, dmx .m { runner with x := [(5, 8)] }, dmx .m { runner with x := [(5, 0x7E0010)] }, 32, .m, _, _, 8, 0x7E0010, _, _,
    starts_of rfl rfl (by decide), rfl, rfl, by decide, starts_of rfl rfl (by decide), rfl, rfl, by decide, by decide⟩
/-- An MLOAD that starts, and one that takes its last granule. -/
theorem witness_Mload : ∃ (f : Rrr) (s : State) (key : Nat) (e : EngTag) (s0 : State) (a : Word) (t t1 : State) (bs : List Byte) (t3 : State),
    Starts (.mload f) s key e s0 ∧ s0.src f.a (litVal 0 f.w1) = .ok (a, t) ∧ s0.partsDone = 0 ∧ a.toNat % 16 = 0
    ∧ a.toNat + 131072 ≤ 2 ^ 23 ∧ t.core.accBusy f.d.toNat = false ∧ t.watchLocal key a.toNat 131072 false = .ok t1
    ∧ s0.spadLoad key key (a.toNat + 16 * 0) 16 a = .ok (bs, t3) :=
  ⟨r3 3 7 5 0 0 0 0, dmx .m { runner with x := [(5, 0x7E0000)] }, 32, .m, _, 0x7E0000, _, _, _, _, starts_of rfl rfl (by decide), rfl, rfl,
    by decide, by decide, by decide, rfl, rfl⟩
theorem witness_MloadLast : ∃ (f : Rrr) (s : State) (key : Nat) (e : EngTag) (s0 : State) (a : Word) (t t1 : State) (bs : List Byte) (t3 : State),
    Goes (.mload f) s key e s0 ∧ s0.src f.a (litVal 0 f.w1) = .ok (a, t) ∧ s0.partsDone = 8191 ∧ a.toNat % 16 = 0
    ∧ a.toNat + 131072 ≤ 2 ^ 23 ∧ t.core.accBusy f.d.toNat = false ∧ t.watchLocal key a.toNat 131072 false = .ok t1
    ∧ t1.spadLoad key key (a.toNat + 16 * 8191) 16 a = .ok (bs, t3) :=
  ⟨r3 3 7 5 0 0 0 0, dmx .m { runner with x := [(5, 0x7E0000)], engM := { Eng.fresh with issued := true, waitVal := some 8191 } }, 32, .m, _,
    0x7E0000, _, _, _, _, .inr ⟨_, rfl, rfl, rfl, rfl, rfl, rfl, rfl, rfl⟩, rfl, rfl, by decide, by decide, by decide, rfl, rfl⟩
theorem witness_Accumulators : ∃ vs : List (BitVec 32), vs.length = 32768 := ⟨List.replicate 32768 1, List.length_replicate⟩
theorem witness_Drain : ∃ (f : Rrr) (i : Instr) (s : State) (key : Nat) (e : EngTag) (s0 : State) (a b : Word) (t : State),
    i ∈ [Instr.mdrainSpad f, .mdrainGlob f, .mdrainGlobAdd f, .mdrainPeer f] ∧ Starts i s key e s0
    ∧ ReadsTwo s0 f.a f.b (litVal f.ty.toNat f.w1) a b t :=
  ⟨r3 3 1 5 6 9 0 0, .mdrainGlobAdd (r3 3 1 5 6 9 0 0), dmx .m { runner with x := [(5, 0x40), (6, 0x101)] }, 32, .m, _, 0x40, 0x101, _,
    by decide, starts_of rfl rfl (by decide), ⟨_, rfl, rfl⟩⟩
/-- A timetable of one row of two elements. -/
def oneRow : List Word := [0x20000010000, 0x3F800000, 0, 0]
theorem witness_Rgo : ∃ (f : Rrr) (i : Instr) (s : State) (key : Nat) (e : EngTag) (s0 : State) (ws : List Word),
    i ∈ [Instr.rgoMax f, .rgoExpsum f, .rgoScale f, .rgoNorm f] ∧ Starts i s key e s0
    ∧ ws = (List.range 4).map (fun n => FMap.get s0.core.timetable n 0) ∧ s0.owes .c Instr.writesTimetable = false
    ∧ (rttOf ws).ok = true :=
  ⟨r3 4 0 0 0 0 0 0, .rgoNorm (r3 4 0 0 0 0 0 0), dmx .w { runner with timetable := [(0, 0x20000010000), (1, 0x3F800000)] }, 32, .w, _, oneRow,
    by decide, starts_of rfl rfl (by decide), rfl, by decide, by decide⟩
theorem witness_RgoEmpty : ∃ (f : Rrr) (i : Instr) (s : State) (key : Nat) (e : EngTag) (s0 : State) (ws : List Word),
    i ∈ [Instr.rgoMax f, .rgoExpsum f, .rgoScale f, .rgoNorm f] ∧ Starts i s key e s0
    ∧ ws = (List.range 4).map (fun n => FMap.get s0.core.timetable n 0) ∧ s0.owes .c Instr.writesTimetable = false
    ∧ (rttOf ws).ok = false :=
  ⟨r3 4 0 0 0 0 0 0, .rgoMax (r3 4 0 0 0 0 0 0), dmx .w runner, 32, .w, _, [0, 0, 0, 0], by decide, starts_of rfl rfl (by decide), rfl,
    by decide, by decide⟩
theorem witness_RgoWaits : ∃ (f : Rrr) (s : State) (key : Nat) (e : EngTag) (s0 : State), Starts (.rgoMax f) s key e s0
    ∧ s0.owes .c Instr.writesTimetable = true :=
  ⟨r3 4 0 0 0 0 0 0, coded 32 .w { runner with engW := { Eng.fresh with pos := 1, pc := 8 }, path := [0, 8] }
      (encode (.rtt (r3 0 3 3 0 0 0 0)) ++ encode (.rgoMax (r3 4 0 0 0 0 0 0))), 32, .w, _, starts_of rfl rfl (by decide), by decide⟩
/-- A row whose second element is masked: column 1 behind the diagonal 0 of row 0; and one without live elements. -/
theorem witness_RowPasses : ∃ (t : Rtt) (xs : List Nat), xs.length = 2 ∧ t.masked 0 (t.col0 + 0) = false ∧ t.masked 0 (t.col0 + 1) = true :=
  ⟨rttOf [0x20000010000, 0x3F800000, 0, 1], [0x40000000, 0x7FC00000], by decide, by decide, by decide⟩
theorem witness_RowAllMasked : ∃ (t : Rtt) (xs : List Nat), xs.length = 2 ∧ ∀ i, i < xs.length → t.masked 0 (t.col0 + i) = true :=
  ⟨rttOf [0x20000010000, 0x3F800000, 0, 0xFFFF0001], [0x40000000, 0x7FC00000], by decide, by decide⟩
theorem witness_RowTurn : ∃ (s : State) (key : Nat) (j : Job) (kind i : Nat) (part : List Nat) (t : Rtt) (u : State)
    (q : Option (List Nat)), t = rttOf j.timetable ∧ t.en = false ∧ (State.rgoPlan key j kind).elem i part s = .ok (u, q) :=
  ⟨dmx .w { runner with acc := [(0, 0x40000000), (1, 0x3F800000)] }, 32, { copyJob with timetable := oneRow }, 0, 0, [], _, _, _, rfl,
    by decide, rfl⟩
theorem witness_GroupSums : ∃ ps qs : List (Nat × Nat), ps.Perm qs ∧ ps ≠ qs := ⟨[(1, 2), (3, 4)], [(3, 4), (1, 2)], .swap _ _ _, by decide⟩
theorem witness_GroupUnderflow : ∃ (m : Nat) (e : Int) (sa sb : Nat), sa ≠ 0xFF ∧ sb ≠ 0xFF ∧ m ≠ 0 ∧ e + sa + sb < 254 - 149
    ∧ m < 2 ^ (254 - 149 - (e + sa + sb)).toNat := ⟨3, -12, 100, 15, by decide, by decide, by decide, by decide, by decide⟩
theorem test_group_value : groupValue (.fin true 3 (-12)) 100 15 = (0, 2) ∧ groupValue (.fin true 1 (-12)) 120 134 = (0xB9800000, 0)
    ∧ groupValue (.fin false 1 149) 127 127 = (0x7F7FFFFF, 1) := by decide
theorem witness_SortWord : ∃ (f : Rrr) (i : Instr) (s : State) (key : Nat) (e : EngTag) (s0 : State) (d a b : Word) (s1 s2 t : State),
    i ∈ [Instr.sort f, .segsort f, .merge f, .topk f, .ksel f, .uniq f] ∧ Starts i s key e s0 ∧ (s0.core.jobsOf e).length < 8
    ∧ s0.src f.d (litVal f.ty.toNat f.w1) = .ok (d, s1) ∧ s1.src f.a (litVal f.ty.toNat f.w1) = .ok (a, s2)
    ∧ s2.src f.b (litVal f.ty.toNat f.w1) = .ok (b, t) :=
  ⟨r3 5 4 5 6 2 0 0, .merge (r3 5 4 5 6 2 0 0), demo 1184 .k { runner with x := [(4, 0x2000), (5, 0x1000), (6, 3)], jobs := List.replicate 7 { copyJob with eng := .k } }, 1184, .k, _, 0x2000, 0x1000, 3, _, _, _, by decide,
    starts_of rfl rfl (by decide), by decide, rfl, rfl, rfl⟩
theorem witness_SortFull : ∃ (f : Rrr) (i : Instr) (s : State) (key : Nat) (e : EngTag) (s0 : State),
    i ∈ [Instr.sort f, .segsort f, .merge f, .topk f, .ksel f, .uniq f] ∧ Starts i s key e s0 ∧ 8 ≤ (s0.core.jobsOf e).length :=
  ⟨r3 5 4 5 6 2 0 0, .sort (r3 5 4 5 6 2 0 0), demo 1184 .k { runner with jobs := List.replicate 8 { copyJob with eng := .k } }, 1184, .k, _,
    by decide, starts_of rfl rfl (by decide), by decide⟩
theorem witness_SparseWord : ∃ (f : Rrr) (i : Instr) (s : State) (key : Nat) (e : EngTag) (s0 : State) (a : Word) (t : State),
    i ∈ [Instr.spmmCsr f, .spmmBsr f, .sddmm f, .spmv f] ∧ Starts i s key e s0 ∧ (s0.core.jobsOf e).length < 8
    ∧ s0.src f.a (litVal f.ty.toNat f.w1) = .ok (a, t) :=
  ⟨r3 5 0 5 0 2 0 0, .spmv (r3 5 0 5 0 2 0 0), demo 1120 .k { runner with x := [(5, 0x1000)] }, 1120, .k, _, 0x1000, _, by decide,
    starts_of rfl rfl (by decide), by decide, rfl⟩
theorem witness_SparseFull : ∃ (f : Rrr) (i : Instr) (s : State) (key : Nat) (e : EngTag) (s0 : State),
    i ∈ [Instr.spmmCsr f, .spmmBsr f, .sddmm f, .spmv f] ∧ Starts i s key e s0 ∧ 8 ≤ (s0.core.jobsOf e).length :=
  ⟨r3 5 0 5 0 2 0 0, .sddmm (r3 5 0 5 0 2 0 0), demo 1120 .k { runner with jobs := List.replicate 8 { copyJob with eng := .k } }, 1120, .k, _,
    by decide, starts_of rfl rfl (by decide), by decide⟩
theorem test_sort_is_stable : (sortRecs false [⟨2, 0, [1]⟩, ⟨1, 0, [2]⟩, ⟨2, 0, [3]⟩, ⟨1, 0, [4]⟩]).map KRec.bytes = [[2], [4], [1], [3]]
    ∧ (mergeRecs true 3 [⟨2, 0, [1]⟩, ⟨1, 0, [2]⟩] [⟨2, 0, [3]⟩]).map KRec.bytes = [[1], [3], [2]] := by decide
theorem witness_SortedRuns : ∃ xs ys : List KRec, xs.Pairwise (fun x y => x.rank ≤ y.rank) ∧ ys.Pairwise (fun x y => x.rank ≤ y.rank) :=
  ⟨[⟨1, 0, [2]⟩, ⟨2, 0, [1]⟩], [⟨2, 0, [3]⟩], by decide, by decide⟩
theorem witness_UniqNeighbours : ∃ (xs zs : List KRec) (i : Nat) (x y : KRec), zs = uniqRecs none xs ∧ zs[i]? = some x ∧ zs[i + 1]? = some y :=
  ⟨[⟨1, 1, []⟩, ⟨1, 1, []⟩, ⟨2, 2, []⟩, ⟨1, 1, []⟩], _, 1, _, _, rfl, rfl, rfl⟩

/-! ### Events -/

/-- A cause of A at word 1. -/
def someCause (code : BitVec 8) : Cause :=
  { code := code, eng := .a, pc := 8, pos := 1, addr := 0x100000000040, view := 0, row := 0, elem := 0, celem := none, tags := none,
    aux := 0, pc2 := none }
/-- An engine at END. -/
def ended : Eng := { Eng.fresh with done := true }
/-- A cell whose engines are all at END. -/
def endedCell : Cell := { runner with engC := ended, engA := ended, engX := ended, engM := ended, engW := ended, engK := ended }

theorem witness_ClearAndTimed : ∃ (s : State) (k : Nat), (s.cell k).phase = .clearing ∧ s.tick < (s.cell k).startTick :=
  ⟨demo 32 .c { runner with phase := .clearing, startTick := 5 }, 32, rfl, by decide⟩
theorem witness_TimedStart : ∃ (s : State) (k : Nat), (s.cell k).phase = .timed ∧ (s.cell k).startTick ≤ s.tick :=
  ⟨{ demo 32 .c { runner with phase := .timed, startTick := 5 } with tick := 5 }, 32, rfl, by decide⟩
theorem witness_TimedWaits : ∃ (s : State) (k : Nat), (s.cell k).phase = .timed ∧ s.tick < (s.cell k).startTick :=
  ⟨{ demo 32 .c { runner with phase := .timed, startTick := 5 } with tick := 4 }, 32, rfl, by decide⟩
theorem witness_TrapEntry : ∃ (s : State) (k : Nat) (x : Cause), (s.cell k).pendTrap = some x ∧ (s.cell k).fatals = []
    ∧ ∀ e ∈ (s.cell k).live (chipClass (keyChip k)), e ≠ x.eng → ((s.cell k).eng e).outside = false :=
  ⟨demo 32 .c { runner with pendTrap := some (someCause 0x71) }, 32, _, rfl, rfl, by decide⟩
theorem witness_TrapEntryWaits : ∃ (s : State) (k : Nat) (x : Cause), (s.cell k).pendTrap = some x ∧ (s.cell k).fatals = []
    ∧ ∃ e ∈ (s.cell k).live (chipClass (keyChip k)), e ≠ x.eng ∧ ((s.cell k).eng e).outside = true :=
  ⟨demo 32 .c { runner with pendTrap := some (someCause 0x71), engM := { Eng.fresh with issued := true, reason := 12 } }, 32, _, rfl, rfl,
    .m, by decide, by decide, by decide⟩
theorem witness_TrapEntryFatal : ∃ (s : State) (k : Nat) (x : Cause), (s.cell k).pendTrap = some x ∧ (s.cell k).fatals ≠ [] :=
  ⟨demo 32 .c { runner with pendTrap := some (someCause 0x71), fatals := [(0, someCause 0x20)] }, 32, _, rfl, by decide⟩
theorem witness_WaittickWordEnds : ∃ (s : State) (k : Nat) (f : Rrr) (v : Word), (FMap.find? s.cells k).isSome = true
    ∧ (s.cell k).mayRun .c = true ∧ (s.cell k).engC.held = none ∧ ({ s with cur := .cell k .c } : State).myFault = none
    ∧ (s.cell k).engC.issued = true ∧ (s.cell k).engC.waitVal = some v ∧ s.cInstr k = some (.waittick f) ∧ v.toNat ≤ s.tick :=
  ⟨{ coded 32 .c { runner with engC := { Eng.fresh with issued := true, waitVal := some 9 } } (encode (.waittick (r3 0 0 5 0 0 0 0))) with tick := 9 },
    32, r3 0 0 5 0 0 0 0, 9, rfl, by decide, rfl, rfl, rfl, rfl, by decide, by decide⟩
theorem witness_HeldPush : ∃ (s : State) (k : Nat) (e : EngTag) (p : Push), ((s.cell k).eng e).held = some p
    ∧ ((s.cell k).eng p.eng).done = false ∧ (((s.cell k).eng p.eng).applyCq p.cnt).counter p.cnt.toNat = 254 :=
  ⟨demo 32 .c { runner with engC := { Eng.fresh with held := some ⟨.a, 7⟩ }, engA := { Eng.fresh with tok := [(7, 253)], cq := [7] } }, 32, .c, _,
    rfl, rfl, by decide⟩
/-- A counter at its limit, at which no push of a later engine has arrived in this cycle. -/
theorem witness_HeldPushWaits : ∃ (s : State) (k : Nat) (e : EngTag) (p : Push), ((s.cell k).eng e).held = some p
    ∧ ((s.cell k).eng p.eng).done = false ∧ (((s.cell k).eng p.eng).applyCq p.cnt).counter p.cnt.toNat = 255
    ∧ (s.cell k).nowTok ≠ [] ∧ ∀ x ∈ (s.cell k).nowTok, x.1 ≤ e.num ∨ x.2 ≠ p :=
  ⟨demo 32 .c { runner with engX := { Eng.fresh with held := some ⟨.a, 7⟩ }, engA := { Eng.fresh with tok := [(7, 255)] }, nowTok := [(0, ⟨.a, 7⟩)] },
    32, .x, _, rfl, rfl, by decide, by decide, by decide⟩
/-- The last push came from M in this cycle: the place is given to C, and M's is held. -/
theorem witness_HeldPushGivesWay : ∃ (s : State) (k : Nat) (e e' : EngTag) (p : Push), ((s.cell k).eng e).held = some p
    ∧ ((s.cell k).eng p.eng).done = false ∧ (((s.cell k).eng p.eng).applyCq p.cnt).counter p.cnt.toNat = 255
    ∧ (s.cell k).nowTok = [(e'.num, p)] ∧ e.num < e'.num ∧ ((s.cell k).eng e').held = none ∧ ((s.cell k).eng e').issued = false :=
  ⟨demo 32 .c { runner with engC := { Eng.fresh with held := some ⟨.a, 7⟩ }, engA := { Eng.fresh with tok := [(7, 255)] }, nowTok := [(3, ⟨.a, 7⟩)] },
    32, .c, .m, _, rfl, rfl, by decide, rfl, by decide, rfl, rfl⟩
theorem witness_HeldPushDiscarded : ∃ (s : State) (k : Nat) (e : EngTag) (p : Push), ((s.cell k).eng e).held = some p
    ∧ ((s.cell k).eng p.eng).done = true := ⟨demo 32 .c { runner with engC := { Eng.fresh with held := some ⟨.a, 7⟩ }, engA := ended }, 32, .c, _, rfl, rfl⟩
theorem witness_CompletionQueue : ∃ (s : State) (k : Nat) (e : EngTag) (i : Nat) (n : BitVec 3), ((s.cell k).eng e).cq[i]? = some n
    ∧ n ∉ ((s.cell k).eng e).cq.take i ∧ ((s.cell k).eng e).counter n.toNat ≠ 255 ∧ i = 1 :=
  ⟨demo 32 .a { runner with engA := { Eng.fresh with cq := [3, 7, 3] } }, 32, .a, 1, 7, rfl, by decide, by decide, rfl⟩
theorem witness_CompletionQueueKeepsOrder : ∃ (s : State) (k : Nat) (e : EngTag) (i : Nat) (n : BitVec 3),
    ((s.cell k).eng e).cq[i]? = some n ∧ n ∈ ((s.cell k).eng e).cq.take i :=
  ⟨demo 32 .a { runner with engA := { Eng.fresh with cq := [3, 7, 3] } }, 32, .a, 2, 3, rfl, by decide⟩
theorem witness_ShardRetires : ∃ (s s1 : State) (k : Nat), s1 = s.produceStamps k ∧ (s1.cell k).phase = .running
    ∧ (s1.cell k).live (chipClass (keyChip k)) = [] ∧ (s1.cell k).jobs = [] ∧ (s1.cell k).stamps = [] ∧ (s1.cell k).peerIn = []
    ∧ (s1.cell k).fatals = [] ∧ (s1.cell k).pendTrap = none ∧ (s1.cell k).handler = none
    ∧ (s1.drainCell k (s1.cellPart k)).condemnedOf ((s1.drainCell k (s1.cellPart k)).nodeCtx (s1.cell k).node)
      = s1.condemnedOf (s1.nodeCtx (s1.cell k).node) :=
  ⟨world .c endedCell, _, 32, rfl, rfl, by decide, rfl, rfl, rfl, rfl, rfl, rfl, by decide⟩
theorem witness_ShardStays : ∃ (s : State) (k : Nat), ((s.produceStamps k).cell k).live (chipClass (keyChip k)) ≠ [] :=
  ⟨world .c { endedCell with engA := Eng.fresh }, 32, by decide⟩
/-- Every live engine stands blocked inside the cell since tick 0, and 2^18 ticks have passed. -/
theorem witness_EngineStall : ∃ (s : State) (k : Nat) (t0 : Nat) (x : Cause), s.quiet k = true
    ∧ (s.cell k).live (chipClass (keyChip k)) ≠ [] ∧ (s.cell k).stalledSince = some t0 ∧ t0 + 2 ^ 18 ≤ s.tick
    ∧ (∀ e ∈ (s.cell k).live (chipClass (keyChip k)), 1 ≤ ((s.cell k).eng e).reason ∧ ((s.cell k).eng e).reason ≤ 11)
    ∧ (s.cell k).stallCause (chipClass (keyChip k)) = some x :=
  ⟨{ demo 32 .c { endedCell with engA := { Eng.fresh with reason := 1 }, engX := { Eng.fresh with reason := 11 }, stalledSince := some 3 } with
      tick := 262147 }, 32, 3, _, by decide, by decide, rfl, by decide, by decide, rfl⟩
theorem witness_EngineStallEarly : ∃ (s : State) (k : Nat) (t0 : Nat), s.quiet k = true ∧ (s.cell k).live (chipClass (keyChip k)) ≠ []
    ∧ (s.cell k).stalledSince = some t0 ∧ s.tick < t0 + 2 ^ 18 :=
  ⟨{ demo 32 .c { endedCell with engA := { Eng.fresh with reason := 1 }, stalledSince := some 3 } with tick := 262146 }, 32, 3, by decide, by decide,
    rfl, by decide⟩
theorem witness_EngineStallOutside : ∃ (s : State) (k : Nat) (t0 : Nat), s.quiet k = true ∧ (s.cell k).live (chipClass (keyChip k)) ≠ []
    ∧ (s.cell k).stalledSince = some t0 ∧ ∃ e ∈ (s.cell k).live (chipClass (keyChip k)), 12 ≤ ((s.cell k).eng e).reason :=
  ⟨demo 32 .c { endedCell with engA := { Eng.fresh with reason := 12 }, stalledSince := some 3 }, 32, 3, by decide, by decide,
    rfl, .a, by decide, by decide⟩
theorem witness_ShardStop : ∃ (s : State) (k : Nat), k < 2 ^ 21 ∧ (s.cell k).fatals ≠ [] ∧ (s.cell k).phase ≠ .stopped
    ∧ (s.cell k).phase ≠ .idle ∧ s.eventRoom = true ∧ s.contextRecords (s.cell k).node = [] :=
  ⟨world .a { runner with fatals := [(0, someCause 0x20)] }, 32, by decide, by decide, by decide, by decide, by decide, by decide⟩
theorem witness_ShardStopContext : ∃ (s : State) (k : Nat) (r : FaultRec) (rs : List FaultRec), (s.cell k).fatals ≠ []
    ∧ (s.cell k).phase ≠ .stopped ∧ (s.cell k).phase ≠ .idle ∧ s.contextRecords (s.cell k).node = r :: rs :=
  ⟨world .a { runner with fatals := [(0, someCause 0xE1)] }, 32, _, _, by decide, by decide, by decide, rfl⟩
/-- A tile with an element to add, one behind its last element, and one whose round has not come. -/
theorem witness_PeerTile : ∃ (s : State) (k i : Nat) (x : PeerTile) (e : Nat × BitVec 32) (es : List (Nat × BitVec 32)),
    (s.cell k).peerIn[i]? = some x ∧ x.done = false ∧ (s.cell k).serves = true ∧ (s.cell k).tileMayGo i x = true ∧ x.elems = e :: es :=
  ⟨demo 32 .c { runner with peerIn := [⟨2, none, [(5, 0x3F800000)], true, 33, 0, none, false⟩] }, 32, 0, _, _, _, rfl, rfl, by decide, by decide,
    rfl⟩
theorem witness_PeerTileAdded : ∃ (s : State) (k i : Nat) (x : PeerTile), (s.cell k).peerIn[i]? = some x ∧ x.done = false
    ∧ (s.cell k).serves = true ∧ (s.cell k).tileMayGo i x = true ∧ x.elems = [] ∧ x.push = none :=
  ⟨demo 32 .c { runner with peerIn := [⟨2, none, [], true, 33, 0, none, false⟩] }, 32, 0, _, rfl, rfl, by decide, by decide, rfl, rfl⟩
theorem witness_PeerTileWaits : ∃ (s : State) (k i : Nat) (x : PeerTile), (s.cell k).peerIn[i]? = some x ∧ x.done = false
    ∧ (s.cell k).tileMayGo i x = false :=
  ⟨demo 32 .c { runner with peerIn := [⟨2, some (2, 1), [(5, 0x3F800000)], true, 33, 0, none, false⟩], rounds := [(2, (2, 0))] }, 32, 0, _, rfl, rfl,
    by decide⟩
theorem witness_CompletionOfAFinishedCommand : ∃ (s : State) (k j : Nat) (x : Job), (s.cell k).job? j = some x
    ∧ ((s.jobNext k j).cell k).job? j = none :=
  ⟨world .a { copier with jobs := [{ copyJob with finished := true, sent := true, cmt := none }] }, 32, 0, _, rfl, by decide⟩
/-- A command that a turn moves on, and one that it does not. -/
theorem witness_CompletionOfARunningCommand : ∃ (s : State) (k j : Nat) (x y : Job), (s.cell k).job? j = some x
    ∧ ((s.jobNext k j).cell k).job? j = some y ∧ x.next = 0 ∧ y.next = 1 :=
  ⟨world .a { copier with jobs := [copyJob] }, 32, 0, _, _, rfl, rfl, rfl, rfl⟩
theorem witness_CompletionOfAStandingCommand : ∃ (s : State) (k j : Nat) (x : Job), (s.cell k).job? j = some x
    ∧ ((s.jobNext k j).cell k).job? j = some x ∧ x.next = 1 :=
  ⟨world .a { copier with jobs := [{ copyJob with next := 1 }], phase := .stopped }, 32, 0, _, rfl, rfl, rfl⟩
/-- A store message of cell 0 of chiplet 1 to the line of HBM frame 0. -/
def lineMsg (seq : Nat) : Msg := ⟨0, seq, 0, 0, false, [⟨3, 7⟩], [], 0, none⟩
theorem witness_MessagePerformed : ∃ (s t : State) (chip i : Nat) (m : Msg), (s.die chip).out[i]? = some m
    ∧ mayGo ((s.die chip).out.take i) m = true ∧ s.perform chip m = .ok t :=
  ⟨{ world .a runner with dies := [(1, { Die.reset 1 with out := [lineMsg 0] })] }, _, 1, 0, _, rfl, rfl, rfl⟩
theorem witness_MessageWaits : ∃ (s : State) (chip i : Nat) (m : Msg), (s.die chip).out[i]? = some m
    ∧ mayGo ((s.die chip).out.take i) m = false :=
  ⟨{ world .a runner with dies := [(1, { Die.reset 1 with out := [lineMsg 0, lineMsg 1] })] }, 1, 1, _, rfl, by decide⟩
theorem witness_TraceRetry : ∃ (s : State) (k : Nat), (FMap.find? s.cells k).isSome = true ∧ ((s.produceStamps k).cell k).jobs = []
    ∧ ((s.produceStamps k).cell k).engC.issued = false := ⟨demo 32 .c runner, 32, rfl, rfl, rfl⟩

/-- Partition 1 with one context, and a runnable node of an object that has code for the DMX class. -/
def runnable (d : Node) : State :=
  { world .c runner with cells := [], nodes := [(0, d)] }
def readyNode : Node := { Node.runningOn 1 1 with st := .runnable, placedAt := 0 }
/-- A node that retires in its queue's turn, one behind an earlier event of its queue, and one whose queue's lock is held. -/
theorem witness_NodeRetire : ∃ (s : State) (n : Nat) (d : Node), s.node? n = some d ∧ d.st = .retiring ∧ s.queueTurn d = true :=
  ⟨runnable { readyNode with st := .retiring }, 0, _, rfl, rfl, by decide⟩
theorem witness_NodeRetireLater : ∃ (s : State) (n m : Nat) (d e : Node), s.node? n = some d ∧ d.st = .retiring ∧ s.node? m = some e ∧ m ≠ n
    ∧ e.queue = d.queue ∧ e.st = .retiring ∧ e.arrival < d.arrival :=
  ⟨{ runnable readyNode with nodes := [(0, { readyNode with st := .retiring, arrival := 7 }), (1, { readyNode with st := .retiring, arrival := 6 })] },
    0, 1, _, _, rfl, rfl, rfl, by decide, rfl, rfl, by decide⟩
theorem witness_LockHeld : ∃ (s : State) (n : Nat) (d : Node), s.node? n = some d ∧ s.lockHeld d.queue = true :=
  ⟨prologued [], 0, _, rfl, by decide⟩
/-- A node that may be placed; one whose tolerance has run out and one within it; one whose start is near and one too early. -/
theorem witness_Placement : ∃ (s : State) (n : Nat) (d : Node) (p : Part), s.node? n = some d ∧ n ∈ s.candidates (s.ctxPart d.ctx)
    ∧ s.part? (s.ctxPart d.ctx) = some p ∧ (∀ x ∈ p.power, x.1 ≠ 6) ∧ d.runnableAt + d.lattol ≤ s.tick :=
  ⟨{ runnable { readyNode with runnableAt := 3, lattol := 4 } with tick := 7 }, 0, _, _, rfl, by decide, rfl, by decide, by decide⟩
theorem witness_ToleranceRunsOut : ∃ (s : State) (n : Nat) (d : Node), s.node? n = some d ∧ d.st = .runnable
    ∧ d.runnableAt + d.lattol ≤ s.tick ∧ d.start ≤ s.tick + 2 ^ 16 :=
  ⟨{ runnable { readyNode with runnableAt := 3, lattol := 4, start := 65543 } with tick := 7 }, 0, _, rfl, rfl, by decide, by decide⟩
theorem witness_PlacementTolerates : ∃ (s : State) (n : Nat) (d : Node), s.node? n = some d ∧ d.st = .runnable
    ∧ s.tick < d.runnableAt + d.lattol ∧ s.tick + 2 ^ 16 < d.start :=
  ⟨{ runnable { readyNode with runnableAt := 3, lattol := 4, start := 65543 } with tick := 6 }, 0, _, rfl, rfl, by decide, by decide⟩
/-- An object with code for two classes. -/
def twoClasses : CodeObj :=
  { ctx := 1, sections := [⟨1, 0, none, [0]⟩, ⟨2, 0, none, [0]⟩], slots := [], levels := [], capKinds := [], tileBuf := 0, tileCount := 0,
    dataBuf := none, used := true, gone := false }
theorem witness_Fallback : ∃ (s : State) (n : Nat) (d : Node) (o : CodeObj) (c : Nat), s.node? n = some d
    ∧ FMap.find? s.objects d.kobj = some o ∧ d.st = .runnable ∧ d.placedAt = 0
    ∧ d.clsSince + s.fbwait (s.ctxPart d.ctx) ≤ s.tick ∧ nextClass o d.cls = some c ∧ s.fits d o = false ∧ s.eventTurn d.queue = true :=
  ⟨{ runnable { readyNode with cls := 2 } with objects := [(1, twoClasses)], fbwaits := [(1, 9)], tick := 9 }, 0, _, _, 1, rfl, rfl, rfl, rfl,
    by decide, by decide, by decide, by decide⟩
theorem witness_FallbackNone : ∃ (s : State) (n : Nat) (d : Node) (o : CodeObj), s.node? n = some d
    ∧ FMap.find? s.objects d.kobj = some o ∧ nextClass o d.cls = none :=
  ⟨runnable readyNode, 0, _, _, rfl, rfl, by decide⟩
theorem witness_Halted : ∃ (s : State) (n : Nat) (d : Node), s.node? n = some d ∧ d.st = .running ∧ d.discarding = true :=
  ⟨runnable { readyNode with st := .running, discarding := true }, 0, _, rfl, rfl, rfl⟩
theorem witness_HaltedFaulted : ∃ (s : State) (n : Nat) (d : Node), s.node? n = some d ∧ (d.st = .faulted ∨ d.st = .retiring) :=
  ⟨runnable { readyNode with st := .faulted }, 0, _, rfl, .inl rfl⟩
/-- Node 0 waits for a place; the one cell it may use is held by node 1, which has polled for 2^26 ticks. -/
def starving (n : Nat) : State :=
  { runnable readyNode with
    tick := 2 ^ 26, cells := [(32, { runner with node := 1, pollSince := 0 })], dies := [(1, { Die.reset 1 with part := 1 })]
    nodes := [(0, readyNode), (1, { Node.runningOn 1 1 with starved := n })]
    objects := [(1, { twoClasses with levels := [⟨1, 1, 0, 0⟩] })] }
theorem witness_Starvation : ∃ (m : Nat) (s : State) (n : Nat) (d : Node) (o : CodeObj) (part v : Nat) (w : Node), s.node? n = some d
    ∧ FMap.find? s.objects d.kobj = some o ∧ part = s.ctxPart d.ctx ∧ d.st = .runnable ∧ d.clsSince + s.dltime part ≤ s.tick
    ∧ n ∈ s.candidates part ∧ s.usable d o = [32]
    ∧ (∀ k ∈ s.usable d o, ∃ c, FMap.find? s.cells k = some c ∧ c.phase ≠ .idle ∧ c.phase ≠ .stopped
      ∧ s.spinning (s.dltime part) c.node = true)
    ∧ s.lastSpinning part (s.dltime part) d.cls = some v ∧ s.node? v = some w ∧ w.starved = m ∧ m = 2
    ∧ s.eventTurn d.queue = true ∧ s.eventRoom = true := by
  have h : (starving 2).usable readyNode { twoClasses with levels := [⟨1, 1, 0, 0⟩] } = [32] := by decide
  refine ⟨2, starving 2, 0, readyNode, _, 1, 1, _, rfl, rfl, rfl, rfl, by decide, by decide, h, ?_, rfl, rfl, rfl, rfl, by decide, by decide⟩
  rw [h]
  intro k hk
  rw [List.mem_singleton.1 hk]
  exact ⟨_, rfl, by decide, by decide, rfl⟩
theorem witness_StarvationTheFourthTime : ∃ (s : State) (v : Nat) (w : Node), s.lastSpinning 1 (s.dltime 1) 1 = some v ∧ s.node? v = some w
    ∧ 3 ≤ w.starved := ⟨starving 3, 1, _, rfl, rfl, by decide⟩
theorem witness_PrologueRun : ∃ (s : State) (n : Nat) (d : Node) (p : Part) (o k : CodeObj) (c : Ctx), s.node? n = some d ∧ d.st = .prologue
    ∧ s.part? (s.ctxPart d.ctx) = some p ∧ p.activeCtx = d.ctx ∧ s.ctx? d.ctx = some c ∧ c.terminated = false ∧ c.condemned = []
    ∧ s.queueTurn d = true ∧ FMap.find? s.objects d.prolObj = some o ∧ FMap.find? s.objects d.kobj = some k
    ∧ o.gone = false :=
  ⟨runnable { readyNode with st := .prologue, prolObj := 1 }, 0, _, _, _, _, _, rfl, rfl, rfl, rfl, rfl, rfl, rfl, by decide, rfl, rfl, rfl⟩
/-- Twelve prologues run: every core of the GSD is taken (R355). -/
theorem witness_PrologueCoresTaken : ∃ (s : State) (n : Nat) (d : Node), s.node? n = some d ∧ d.st = .prologue ∧ 12 ≤ s.prols.length :=
  ⟨{ runnable { readyNode with st := .prologue, prolObj := 1 } with prols := (List.range 12).map fun i => (100 + i, ⟨Cell.fresh, 0, 0⟩) }, 0, _,
    rfl, rfl, by decide⟩
/-- Queues 0 and 1 wait for signals 5 and 6, each for the one that the other's next packet names. -/
def crossed : State :=
  { world .c runner with
    host := Memory.writeN (Memory.writeN [] 0x8000 [3, 1, 0, 0, 6]) 0x9000 [3, 1, 0, 0, 5]
    queues := [(0, { Queue.reset with en := true, st := 2, base := 0x8000, hostMem := true, log2 := 4, wr := 1, rev := 1, ctx := 1, wait := some (5, 0, 1) }),
               (1, { Queue.reset with en := true, st := 2, base := 0x9000, hostMem := true, log2 := 4, wr := 1, rev := 1, ctx := 1, wait := some (6, 0, 1) })] }
theorem witness_QueueDeadlock : ∃ (s : State) (q : Nat) (c : List Nat) (dl : Nat), s.cycleFrom q (s.queues.length + 1) [q] q = some c
    ∧ dl = s.dltime (s.ctxPart (s.queue q).ctx) ∧ (∀ x ∈ c, (s.queue x).lastAdmit + dl ≤ s.tick
      ∧ FMap.get s.sigTick (((s.queue x).blockedOn).getD 0) 0 + dl ≤ s.tick) ∧ s.reported = [] ∧ c = [0, 1] ∧ dl = 5
      ∧ s.coreIdle = true ∧ s.eventRoom = true :=
  ⟨{ crossed with dltimes := [(1, 5)], tick := 5 }, 0, [0, 1], 5, by decide, rfl, by decide, rfl, rfl, rfl, by decide, by decide⟩
theorem witness_QueueDeadlockEarly : ∃ (s : State) (q : Nat) (c : List Nat) (dl : Nat), s.cycleFrom q (s.queues.length + 1) [q] q = some c
    ∧ dl = s.dltime (s.ctxPart (s.queue q).ctx) ∧ ∃ x ∈ c, s.tick < (s.queue x).lastAdmit + dl :=
  ⟨{ crossed with dltimes := [(1, 5)], tick := 4 }, 0, [0, 1], 5, by decide, rfl, 1, by decide, by decide⟩
theorem witness_LthbWrite : ∃ (s t : State) (n : Nat) (v : Word), (FMap.find? s.prols n).isSome = true ∧ s.writeLthb n v = .ok t :=
  ⟨{ prologued [] with objects := [(1, { twoClasses with tileCount := 1 })] }, _, 0, 9, rfl, rfl⟩

theorem witness_L1Eviction : ∃ (s t : State) (k line : Nat), (s.cell k).l1Holds (lineOf line) = true
    ∧ s.l1Evict k (s.cellPart k) (lineOf line) true = .ok t :=
  ⟨world .a { runner with l1 := [(0x80, ⟨7, false⟩)], l1Tag := [(0x80, 0)] }, _, 32, 0x85, by decide, rfl⟩
theorem witness_OtherEviction : ∃ (s : State) (k line : Nat), (s.cell k).l1Holds (lineOf line) = false :=
  ⟨demo 32 .c runner, 32, 0x85, by decide⟩

/-! ### Packets -/

/-- A code object of one section of one NOP. -/
def image : List Byte :=
  [0x4B, 0x49, 0x54, 0x41, 1, 0, 64, 0, 0, 0, 0, 0, 1, 0, 0, 0] ++ leBytes 8 64 ++ leBytes 8 96 ++ leBytes 8 96 ++ leBytes 8 144
    ++ leBytes 8 400 ++ leBytes 8 408
    ++ ([1, 0, 0, 0, 0, 0, 0, 0] ++ leBytes 8 416 ++ leBytes 4 1 ++ leBytes 4 0 ++ leBytes 4 0xFFFFFFFF ++ leBytes 4 0)
    ++ (List.range 6).flatMap (fun _ => leBytes 8 0x300000000) ++ List.replicate 256 0 ++ leBytes 8 0 ++ leBytes 8 0
    ++ leBytes 8 ((encode (.nop (r3 7 0 0 0 0 0 0))).headD 0).toNat
theorem test_image_loads : (match loadImage image with | .ok im => im.sections.length == 1 && im.data.isEmpty && im.tiles.isEmpty | .error _ => false)
    = true := by decide +kernel
theorem test_image_magic : (match loadImage (0x4C :: image.drop 1) with | .error e => e == ldMagic | .ok _ => false) = true := by decide +kernel
/-- A package out of boot: partition 1 of stack 0 with context 1, its queue 0 and an image in host memory, one object. -/
def device : State :=
  { hosted with
    host := Memory.writeN hosted.host 0x20000 image
    hbmmap := 1, ctxs := [(1, ctx1)], parts := [(1, part1)]
    dies := (List.range 44).map fun i => (i, { Die.reset i with part := if 1 ≤ i ∧ i ≤ 4 then 1 else 0 })
    objects := [(1, { twoClasses with sections := [⟨1, 0, none, [0]⟩] })]
    queues := [(0, { Queue.reset with en := true, st := 1, base := 0x8000, hostMem := true, log2 := 4, wr := 1, rev := 1, ctx := 1 })] }
/-- A packet of queue 0. -/
def pkt (b0 b1 b2 b3 : Word) : Pkt :=
  { queue := 0, idx := 0, fence := false, notify := false, sigid := 2 ^ 32 - 1, sigval := 0, start := 0, lattol := 0, b0 := b0, b1 := b1,
    b2 := b2, b3 := b3, resv := false }
/-- One open packet of queue 0. -/
def opened : Open :=
  { queue := 0, idx := 3, ctx := 1, sigid := 2 ^ 32 - 1, sigval := 0, notify := false, statusAt := 0, host := true, left := 1, faulted := false,
    cancelled := false }
theorem witness_PacketFenced : ∃ (s : State) (p : Pkt), (s.queue p.queue).st = 1 ∧ p.fence = true ∧ s.openIn p.queue = true :=
  ⟨{ device with opens := [opened] }, { pkt 0 0 0 0 with fence := true }, rfl, rfl, rfl⟩
theorem witness_PacketMalformed : ∃ (s : State) (p : Pkt), (s.queue p.queue).st = 1 ∧ (p.fence = true → s.openIn p.queue = false)
    ∧ 16384 ≤ p.sigid ∧ p.sigid ≠ 2 ^ 32 - 1 := ⟨device, { pkt 0 0 0 0 with sigid := 16384, fence := true }, rfl, fun _ => rfl, by decide, by decide⟩
theorem witness_Signal : ∃ (s : State) (p : Pkt), Admissible s p ∧ pktSig p < 16384 ∧ pktOp p ≤ 1 ∧ p.b2 = 0 ∧ p.b3 = 0 ∧ pktOp p = 1 :=
  ⟨device, pkt 0x100003FFF 7 0 0, ⟨rfl, fun _ => rfl, rfl, .inr rfl⟩, by decide, by decide, rfl, rfl, by decide⟩
theorem witness_SignalMalformed : ∃ (s : State) (p : Pkt), Admissible s p ∧ ¬ (pktSig p < 16384 ∧ pktOp p ≤ 1 ∧ p.b2 = 0 ∧ p.b3 = 0) :=
  ⟨device, pkt 0x200000000 7 0 0, ⟨rfl, fun _ => rfl, rfl, .inr rfl⟩, by decide⟩
theorem witness_WaitHolds : ∃ (s : State) (p : Pkt), Admissible s p ∧ pktSig p < 16384 ∧ pktOp p ≤ 3 ∧ p.b2 = 0 ∧ p.b3 = 0
    ∧ waitHolds (pktOp p) (FMap.get s.signals (pktSig p) 0) p.b1 = false ∧ s.lowFree ≠ 0 ∧ s.nodes.length + s.waits < 65536 :=
  ⟨device, pkt 5 1 0 0, ⟨rfl, fun _ => rfl, rfl, .inr rfl⟩, by decide, by decide, rfl, rfl, by decide, by decide, by decide⟩
theorem witness_WaitPasses : ∃ (s : State) (p : Pkt), Admissible s p ∧ pktSig p < 16384 ∧ pktOp p ≤ 3 ∧ p.b2 = 0 ∧ p.b3 = 0
    ∧ waitHolds (pktOp p) (FMap.get s.signals (pktSig p) 0) p.b1 = true :=
  ⟨{ device with signals := [(5, 1)] }, pkt 5 1 0 0, ⟨rfl, fun _ => rfl, rfl, .inr rfl⟩, by decide, by decide, rfl, rfl, by decide⟩
theorem witness_BarrierWaits : ∃ (s : State) (p : Pkt), Admissible s p ∧ p.b0 = 0 ∧ p.b1 = 0 ∧ p.b2 = 0 ∧ p.b3 = 0 ∧ s.openIn p.queue = true :=
  ⟨{ device with opens := [opened] }, pkt 0 0 0 0, ⟨rfl, fun h => Bool.noConfusion h, rfl, .inr rfl⟩, rfl, rfl, rfl, rfl, rfl⟩
theorem witness_Timed : ∃ (s : State) (p : Pkt), Admissible s p ∧ p.b1 = 0 ∧ p.b2 = 0 ∧ p.b3 = 0 ∧ s.openIn p.queue = false :=
  ⟨device, pkt 0x1234 0 0 0, ⟨rfl, fun _ => rfl, rfl, .inr rfl⟩, rfl, rfl, rfl, rfl⟩
/-- A record of a node of object 1 of the DMX class. -/
def nodeOne : NodeRec := { kobj := 1, prio := 3, cls := 1, trips := [0, 0, 0, 0, 0, 0], capList := 0, caps := [], zero := true }
theorem witness_LaunchAccepted : ∃ (s : State) (p : Pkt) (recs : List NodeRec) (es : List EdgeRec),
    (∀ r ∈ recs, s.recOk (s.pktCtx p) r = true) ∧ acyclic (es.length + 1) es = true ∧ s.transfersOk recs es = true
    ∧ graphBlocks recs.length es ≤ 16384 ∧ s.capsOk (s.pktCtx p) recs = true ∧ s.roomFor recs.length (graphBlocks recs.length es) = true
    ∧ recs ≠ [] := ⟨device, pkt 0 0 0 0, [nodeOne], [], by decide, by decide, by decide, by decide, by decide, by decide, by decide⟩
theorem witness_LaunchOfNoObject : ∃ (s : State) (p : Pkt) (recs : List NodeRec), ∃ r ∈ recs, s.recOk (s.pktCtx p) r = false :=
  ⟨device, pkt 0 0 0 0, [{ nodeOne with kobj := 2 }], _, List.mem_singleton.2 rfl, rfl⟩
/-- Node 0 leads to node 1 and back. -/
theorem witness_LaunchOfACycle : ∃ (s : State) (p : Pkt) (recs : List NodeRec) (es : List EdgeRec),
    (∀ r ∈ recs, s.recOk (s.pktCtx p) r = true) ∧ acyclic (es.length + 1) es = false :=
  ⟨device, pkt 0 0 0 0, [nodeOne, nodeOne], [⟨0, 1, 0, 0, 0, 0, true⟩, ⟨1, 0, 0, 0, 0, 0, true⟩], by decide, by decide⟩
theorem witness_LaunchOfAStaleCapability : ∃ (s : State) (p : Pkt) (recs : List NodeRec) (es : List EdgeRec),
    (∀ r ∈ recs, s.recOk (s.pktCtx p) r = true) ∧ acyclic (es.length + 1) es = true ∧ s.transfersOk recs es = true
    ∧ graphBlocks recs.length es ≤ 16384 ∧ s.capsOk (s.pktCtx p) recs = false :=
  ⟨device, pkt 0 0 0 0, [{ nodeOne with caps := [(mkCap 7 3 5 9, 1)] }], [], by decide, by decide, by decide, by decide, by decide⟩
theorem witness_NoRoom : ∃ (s : State) (recs : List NodeRec) (es : List EdgeRec), s.roomFor recs.length (graphBlocks recs.length es) = false :=
  ⟨device, List.replicate 65537 nodeOne, [], by rw [List.length_replicate]; decide⟩
theorem witness_NodeLaunch : ∃ (s : State) (p : Pkt), Admissible s p ∧ p.b1 ≠ 0 ∧ (s.objIn (s.pktCtx p) p.b1.toNat).isSome = true
    ∧ p.b3.toNat % 2 ^ 8 ≤ 7 ∧ p.b3.toNat / 2 ^ 8 ≤ 4 :=
  ⟨device, pkt 1 1 0 0x407, ⟨rfl, fun _ => rfl, rfl, .inr rfl⟩, by decide, rfl, by decide, by decide⟩
/-- A page table: tables in frames 0 to 3, which map the page at 2^44 to frame 4. -/
def tables : Memory :=
  Memory.writeN (Memory.writeN (Memory.writeN (Memory.writeN [] 0 [1, 0x40]) 0x4800 [1, 0x80]) 0x8000 [1, 0xC0]) 0xC000 [0xD, 0, 1]
/-- A descriptor of one node in that page: its header at the start, the record 64 bytes behind. -/
def graphed : State :=
  { device with
    frames := (List.range 5).map fun f => (f, 1)
    mem := Memory.writeN (Memory.writeN tables 0x10000 [1, 0, 0, 0, 0, 0, 0, 0, 64]) 0x10040 [1, 0, 0, 0, 3, 1] }
theorem witness_GraphLaunch : ∃ (s : State) (p : Pkt) (h nb eb : List Byte) (nn ne : Nat) (recs : List NodeRec), Admissible s p ∧ p.b1 = 0
    ∧ p.b2 = 0 ∧ p.b3 = 0 ∧ s.pktRead p p.b0 32 = .ok h ∧ nn = fieldAt h 0 4 ∧ ne = fieldAt h 4 4 ∧ fieldAt h 0x18 8 = 0 ∧ 1 ≤ nn ∧ nn ≤ 65536
    ∧ ne ≤ 1048576 ∧ s.pktRead p (p.b0 + BitVec.ofNat 64 (fieldAt h 8 8)) (64 * nn) = .ok nb
    ∧ s.pktRead p (p.b0 + BitVec.ofNat 64 (fieldAt h 0x10 8)) (16 * ne) = .ok eb ∧ recs = (chunks 64 nn nb).map nodeRecOf
    ∧ (∀ r ∈ recs, r.ok = true ∧ r.capList = 0)
    ∧ (∀ e ∈ (chunks 16 ne eb).map edgeRecOf, e.zero = true ∧ e.src < nn ∧ e.dst < nn ∧ e.mode ≤ 2) ∧ nn = 1 := by
  refine ⟨graphed, pkt 0x100000000000 0 0 0, [1, 0, 0, 0, 0, 0, 0, 0, 64, 0, 0, 0, 0, 0, 0, 0, 0, 0, 0, 0, 0, 0, 0, 0, 0, 0, 0, 0, 0, 0, 0, 0],
    [1, 0, 0, 0, 3, 1] ++ List.replicate 58 0, [], 1, 0, _, ⟨rfl, fun _ => rfl, rfl, .inr rfl⟩, rfl, rfl, rfl, by decide, by decide, by decide,
    by decide, by decide, by decide, by decide, by decide, rfl, rfl, by decide, by decide, rfl⟩
/-- Buffer 7, double or not, of context 1. -/
def stored (double : Bool) : State := { device with buffers := [(7, page1 double 2)] }
theorem witness_BufferPackets : ∃ (s : State) (p : Pkt) (b : Buffer), Admissible s p ∧ p.b0.toNat < 2 ^ 16 ∧ p.b2 ≠ 0
    ∧ s.capCheck (s.pktCtx p) p.b2 0 = none ∧ s.capCheck (s.pktCtx p) p.b2 1 = none ∧ s.buf? (capId p.b2) = some b ∧ b.double = true :=
  ⟨stored true, pkt 0 0 (mkCap 7 3 5 9) 0, _, ⟨rfl, fun _ => rfl, rfl, .inr rfl⟩, by decide, by decide, by decide, by decide, rfl, rfl⟩
theorem witness_BufferPacketsSingle : ∃ (s : State) (p : Pkt) (b : Buffer), Admissible s p ∧ p.b0.toNat < 2 ^ 16 ∧ p.b2 ≠ 0
    ∧ s.capCheck (s.pktCtx p) p.b2 1 = none ∧ s.buf? (capId p.b2) = some b ∧ b.double = false :=
  ⟨stored false, pkt 0 0 (mkCap 7 3 5 9) 0, _, ⟨rfl, fun _ => rfl, rfl, .inr rfl⟩, by decide, by decide, by decide, rfl, rfl⟩
theorem witness_BufferPacketsRefused : ∃ (s : State) (p : Pkt) (c e : BitVec 8), Admissible s p ∧ p.b0.toNat < 2 ^ 16 ∧ p.b2 ≠ 0
    ∧ s.capCheck (s.pktCtx p) p.b2 0 = some c ∧ s.capCheck (s.pktCtx p) p.b2 1 = some e :=
  ⟨stored true, pkt 0 0 (mkCap 7 0 5 8) 0, _, _, ⟨rfl, fun _ => rfl, rfl, .inr rfl⟩, by decide, by decide, rfl, rfl⟩

/-- A free frame is found wherever the search begins. -/
theorem device_frames : ∃ f fs, device.findFrames (fun _ => true) 1 = some (f :: fs) := by
  unfold State.findFrames
  dsimp only
  split
  · next h => exact match hx : device.takeFrames (fun _ => true) (device.frameFuel 1) device.frameStart 1, h with
      | f :: fs, _ => ⟨f, fs, rfl⟩
  · exact ⟨0, [], by decide⟩

/-- The tables alone, of frames that a partition holds, and a GLOBAL window of one page. -/
def bareTables : Memory := Memory.writeN (Memory.writeN (Memory.writeN [] 0 [1, 0x40]) 0x4800 [1, 0x80]) 0x8000 [1, 0xC0]
def ready (own : Nat) : State :=
  { device with
    mem := bareTables, frames := (List.range 4).map fun f => (f, own)
    ctxs := [(1, { ctx1 with aper := [0x1180001, 0x1001B0001, 0x10001E0001, 0x1000000E0001] })] }

/-- A frame taken is free and on a stack in service. -/
theorem takeFrames_free (s : State) (ok : Nat → Bool) (fuel f n g : Nat) (h : g ∈ s.takeFrames ok fuel f n) :
    s.frameInService g = true ∧ FMap.find? s.frames g = none := by
  induction fuel generalizing f n with
  | zero => simp [State.takeFrames] at h
  | succ fuel ih =>
    simp only [State.takeFrames] at h
    split at h
    · simp at h
    · split at h
      · split at h
        · simp at h
        · exact ih _ _ h
      · next hs =>
        split at h
        · next hf =>
          rcases List.mem_cons.1 h with rfl | h
          · simp only [Bool.not_eq_true', Bool.not_eq_false] at hs
            simp only [Bool.and_eq_true, Option.isNone_iff_eq_none] at hf
            exact ⟨hs, hf.1⟩
          · exact ih _ _ h
        · exact ih _ _ h
/-- A frame found in `ready` is none of the tables, and below 2^22. -/
theorem ready_frame {own : Nat} {ok : Nat → Bool} {fs : List Nat} (h : (ready own).findFrames ok 1 = some fs) :
    ∃ f, fs = [f] ∧ 4 ≤ f ∧ f < 2 ^ 22 := by
  have key : ∀ st l, (ready own).takeFrames ok ((ready own).frameFuel 1) st 1 = l → l.length = 1 → ∃ f, l = [f] ∧ 4 ≤ f ∧ f < 2 ^ 22 := by
    intro st l hl h1
    obtain ⟨f, rfl⟩ := List.length_eq_one_iff.1 h1
    have := takeFrames_free _ _ _ _ _ f (hl ▸ List.mem_singleton.2 rfl)
    refine ⟨f, rfl, ?_, ?_⟩
    · by_contra hlt
      have : f = 0 ∨ f = 1 ∨ f = 2 ∨ f = 3 := by omega
      rcases this with rfl | rfl | rfl | rfl <;> simp_all [ready, FMap.find?, List.range, List.range.loop]
    · have h2 := this.1
      simp only [State.frameInService, Bool.and_eq_true, decide_eq_true_eq] at h2
      by_contra hge
      have h3 : 1 ≤ f / 2 ^ 22 := by omega
      have h4 : ∀ i, i < 12 → 1 ≤ i → (1 : BitVec 12).getLsbD i = false := by decide
      have := h4 _ h2.1 h3
      have h5 : (ready own).hbmmap.getLsbD (f / 2 ^ 22) = true := h2.2
      exact absurd (this.symm.trans h5) (by decide)
  unfold State.findFrames at h
  dsimp only at h
  split at h
  · next hl => obtain rfl := Option.some.inj h; exact key _ _ rfl hl
  · split at h
    · next hl => obtain rfl := Option.some.inj h; exact key _ _ rfl hl
    · exact absurd h (by simp)
theorem ready_frames (own : Nat) (ok : Nat → Bool) (h : ∀ f, 4 ≤ f → f < 64 → ok f = true) :
    ∃ fs, (ready own).findFrames ok 1 = some fs := by
  have h0 : (ready own).takeFrames ok ((ready own).frameFuel 1) 0 1 = [4] := by
    simp [State.takeFrames, State.frameFuel, ready, device, hosted, State.frameInService, FMap.find?, List.range, List.range.loop,
      h 4 (by decide) (by decide)]
  unfold State.findFrames
  dsimp only
  split
  · exact ⟨_, rfl⟩
  · rw [h0]
    exact ⟨_, rfl⟩

/-- The leaf of frame `f`, writable. -/
theorem leaf_entry {f : Nat} (h : f < 2 ^ 22) : pteV (f * 16384 + 13) = true ∧ pteLeaf (f * 16384 + 13) = true
    ∧ pteClean (f * 16384 + 13) = true ∧ pteFrame (f * 16384 + 13) = f * 16384 := by
  refine ⟨?_, ?_, ?_, ?_⟩
  · simp only [pteV, Nat.testBit_zero]; simp; omega
  · simp only [pteLeaf, Nat.testBit_succ, Nat.testBit_zero]; simp; omega
  · simp only [pteClean, ptePgbl, natBits, Nat.shiftRight_eq_div_pow, Nat.testBit_succ, Nat.testBit_zero]
    simp; omega
  · simp only [pteFrame, natBits, Nat.shiftRight_eq_div_pow]; omega

/-- What the page's write leaves of memory, and what a walk then finds. -/
theorem ready_walk {s : State} {f : Nat} (own : Nat) (h4 : 4 ≤ f) (h : f < 2 ^ 22) (hm : s.mem = Memory.writeN bareTables 0xC000 (leBytes 8 (f * 16384 + 13)))
    (hb : s.bad = []) (hf : s.frames = FMap.put (ready own).frames f 1) (hc : s.ctxs = (ready own).ctxs) :
    s.mapped 1 0x100000000000 16384 = decide (own = 1) := by
  have hctx : s.ctx? 1 = (ready own).ctx? 1 := by rw [State.ctx?, hc]; rfl
  have e0 : (Memory.read64 s.mem 0).toNat = 0x4001 := by rw [hm, Memory.read64_writeN_ne _ _ _ _ (.inl (by decide))]; decide
  have e1 : (Memory.read64 s.mem 0x4800).toNat = 0x8001 := by rw [hm, Memory.read64_writeN_ne _ _ _ _ (.inl (by decide))]; decide
  have e2 : (Memory.read64 s.mem 0x8000).toNat = 0xC001 := by rw [hm, Memory.read64_writeN_ne _ _ _ _ (.inl (by decide))]; decide
  have e3 : (Memory.read64 s.mem 0xC000).toNat = f * 16384 + 13 := by rw [hm, Memory.read64_writeN_same]; omega
  obtain ⟨l1, l2, l3, l4⟩ := leaf_entry h
  have w : ∀ n, 1 ≤ n → n < 4 → FMap.get s.frames n 0 = own := by
    intro n h1 h2
    rw [hf, FMap.get_put_ne _ _ _ (by omega)]
    have : n = 1 ∨ n = 2 ∨ n = 3 := by omega
    rcases this with rfl | rfl | rfl <;> rfl
  have wf : FMap.get s.frames f 0 = 1 := by rw [hf, FMap.get_put_same]
  have hp : pagesOf 0x100000000000 16384 = [0x100000000000] := by decide
  simp only [State.mapped, hp, List.all_cons, List.all_nil, Bool.and_true, State.leafAt, State.walkCtx, hctx]
  show (match s.walk 1 0x100000000000 (fun _ => none) 0 walkLevels with | .leaf t => some t | .invalid _ | .ue _ => none : Option TlbEnt).isSome = _
  have hbad : ∀ n, FMap.get s.bad n false = false := fun n => by rw [hb]; rfl
  have a0 : 0 + 8 * natBits 0x100000000000 47 10 = 0 := by decide
  have a1 : pteFrame 0x4001 + 8 * natBits 0x100000000000 36 11 = 0x4800 := by decide
  have a2 : pteFrame 0x8001 + 8 * natBits 0x100000000000 25 11 = 0x8000 := by decide
  have a3 : pteFrame 0xC001 + 8 * natBits 0x100000000000 14 11 = 0xC000 := by decide
  have n1 : pteV 0x4001 = true ∧ pteClean 0x4001 = true ∧ pteLeaf 0x4001 = false ∧ pteFrame 0x4001 / 16384 = 1 := by decide
  have n2 : pteV 0x8001 = true ∧ pteClean 0x8001 = true ∧ pteLeaf 0x8001 = false ∧ pteFrame 0x8001 / 16384 = 2 := by decide
  have n3 : pteV 0xC001 = true ∧ pteClean 0xC001 = true ∧ pteLeaf 0xC001 = false ∧ pteFrame 0xC001 / 16384 = 3 := by decide
  have d1 : f * 16384 / 16384 = f := by omega
  have d2 : f * 16384 % 2 ^ 14 = 0 := by omega
  by_cases ho : own = 1
  · simp [walkLevels, State.walk, hbad, a0, a1, a2, a3, e0, e1, e2, e3, n1, n2, n3, l1, l2, l3, l4, w, wf, d1, ho]
  · simp [walkLevels, State.walk, hbad, a0, e0, n1, w, ho]
/-- The page's leaf written: the tables are there. -/
theorem ready_set {s : State} {f own : Nat} (hm : s.mem = bareTables) (hc : s.ctxs = (ready own).ctxs) :
    s.setPage 1 0x100000000000 0 (leafPte (f * 16384) true)
      = { s with mem := Memory.writeN bareTables 0xC000 (leBytes 8 (f * 16384 + 13)) } := by
  have hctx : s.ctx? 1 = (ready own).ctx? 1 := by rw [State.ctx?, hc]; rfl
  have e0 : (Memory.read64 bareTables 0).toNat = 0x4001 := by decide
  have e1 : (Memory.read64 bareTables 0x4800).toNat = 0x8001 := by decide
  have e2 : (Memory.read64 bareTables 0x8000).toNat = 0xC001 := by decide
  have e3 : (Memory.read64 bareTables 0xC000).toNat = 0 := by decide
  have a0 : 0 + 8 * natBits 0x100000000000 47 10 = 0 := by decide
  have a1 : pteFrame 0x4001 + 8 * natBits 0x100000000000 36 11 = 0x4800 := by decide
  have a2 : pteFrame 0x8001 + 8 * natBits 0x100000000000 25 11 = 0x8000 := by decide
  have a3 : pteFrame 0xC001 + 8 * natBits 0x100000000000 14 11 = 0xC000 := by decide
  have n1 : pteV 0x4001 = true ∧ pteV 0x8001 = true ∧ pteV 0xC001 = true ∧ pteV 0 = false := by decide
  have hp : ptPath 0 = [(47, 10), (36, 11), (25, 11), (14, 11)] := rfl
  rw [State.setPage, hctx]
  show s.ptWrite 1 0x100000000000 _ 0 (ptPath 0) = _
  simp [hp, State.ptWrite, a0, a1, a2, a3, e0, e1, e2, e3, n1, State.putPte, hm, leafPte]
/-- A frame given leaves the tables as they are. -/
theorem bare_clear {f : Nat} (h : 4 ≤ f) : FMap.clearRange bareTables (f * pageBytes) pageBytes = bareTables := by
  have : bareTables = [(0, 1), (1, 0x40), (0x4800, 1), (0x4801, 0x80), (0x8000, 1), (0x8001, 0xC0)] := by decide
  rw [this, FMap.clearRange, List.filter_eq_self]
  intro e he
  have hk : e.1 < 0xC000 := by
    simp only [List.mem_cons, List.not_mem_nil, or_false] at he
    rcases he with rfl | rfl | rfl | rfl | rfl | rfl <;> decide
  show (decide (e.1 < f * 16384) || _) = true
  rw [decide_eq_true (show e.1 < f * 16384 by omega), Bool.true_or]
theorem ready_backing (tag : BitVec 4) (h : tag ≠ 0) : ((ready 1).backing false tag 1).isSome = true := by
  obtain ⟨fs, h⟩ := ready_frames 1 (fun f => FMap.get (ready 1).lastTag f 0 != tag) fun f _ _ => by
    show ((0 : BitVec 4) != tag) = true
    simpa using fun hh => h hh.symm
  rw [State.backing]
  simp only [Bool.not_false, if_true]
  rw [h]; rfl
/-- A buffer of one page is created, whatever its free choices are. -/
theorem ready_creates (pg : Bool) : ∃ id t b, (ready 1).createBuffer 1 16384 false false pg false 0 true = some (id, t) ∧ t.buf? id = some b := by
  have h1 : ∃ id, (ready 1).freeId = some id := by
    unfold State.freeId
    dsimp only
    split
    · exact ⟨_, rfl⟩
    · exact ⟨0, by decide⟩
  have hv : ((ready 1).vaTries 1 16384).find? (fun v => (ready 1).vaOk 1 v 16384) = some 0x100000000000 := by
    have hok : (ready 1).vaOk 1 0x100000000000 16384 = true := by decide
    have ha : ((ready 1).apers 1)[3]?.bind aperRange = some (0x100000000000, 16384) := by decide
    unfold State.vaTries
    simp only [ha]
    rw [show max 1 (16384 / 16384) = 1 from rfl, Nat.mod_one, Nat.zero_mul, Nat.add_zero]
    exact List.find?_cons_of_pos hok
  have h3 : ((ready 1).tagOrder.findSome? fun t => ((ready 1).backing false t 1).map fun fs => (t, fs)).isSome = true := by
    rw [List.findSome?_isSome_iff]
    refine ⟨1, .tail _ (show (1 : BitVec 4) ∈ (List.range 15).map fun i => BitVec.ofNat 4 (i + 1) by decide), ?_⟩
    have := ready_backing 1 (by decide)
    cases h : (ready 1).backing false 1 1 <;> simp_all
  obtain ⟨id, h1⟩ := h1
  obtain ⟨⟨tag, fs⟩, h3⟩ := Option.isSome_iff_exists.1 h3
  obtain ⟨f, rfl, h5, h6⟩ : ∃ f, fs = [f] ∧ 4 ≤ f ∧ f < 2 ^ 22 := by
    obtain ⟨t, -, ht⟩ := List.exists_of_findSome?_eq_some h3
    cases hb : (ready 1).backing false t 1 with
    | none => rw [hb] at ht; exact absurd ht (by simp)
    | some gs =>
      rw [hb] at ht
      have := Option.some.inj ht
      injection this with _ h
      subst h
      exact ready_frame (own := 1) (by simpa [State.backing] using hb)
  have h4 : ¬ (ready 1).quotaLeft ((ready 1).ctxPart 1) < 16384 / pageBytes := by decide
  refine ⟨id, ?_⟩
  unfold State.createBuffer
  dsimp only [Bool.false_eq_true, if_false]
  rw [h1]
  erw [hv]
  dsimp only
  erw [if_neg h4, h3]
  dsimp only
  have hm := ready_set (own := 1) (f := f) (s := ((((ready 1).giveFrames 1 [f]).tagFrames [f] tag).useQuota 1 1)) (bare_clear h5) rfl
  have hw := ready_walk 1 h5 h6 (s := ((((ready 1).giveFrames 1 [f]).tagFrames [f] tag).useQuota 1 1).setPage 1 0x100000000000 0
    (leafPte (f * 16384) true)) (by rw [hm]) (by rw [hm]; rfl) (by rw [hm]; rfl) (by rw [hm]; rfl)
  erw [if_pos hw]
  exact ⟨_, _, rfl, FMap.find?_put_same _ _ _⟩
theorem ready_creates_plain : ∃ id t b, (ready 1).createBuffer 1 16384 false false false false 0 true = some (id, t) ∧ t.buf? id = some b :=
  ready_creates false
theorem witness_BufferCreate : ∃ (s : State) (p : Pkt) (unit len id : Nat) (t : State) (b : Buffer), Admissible s p ∧ p.b0.toNat < 2 ^ 16
    ∧ p.b1 ≠ 0 ∧ s.resultOk p = .ok () ∧ unit = (if p.b0.getLsbD 9 then 65536 else 16384)
    ∧ len = (p.b1.toNat + unit - 1) / unit * unit ∧ p.b0.getLsbD 9 = false ∧ len < 2 ^ 48
    ∧ len / 16384 * (if p.b0.getLsbD 8 then 2 else 1) ≤ s.quotaLeft (s.ctxPart (s.pktCtx p))
    ∧ s.createBuffer (s.pktCtx p) len (p.b0.getLsbD 8) (p.b0.getLsbD 9) (p.b0.getLsbD 10) (p.b0.getLsbD 11)
        (p.b0.toNat / 2 ^ 12) true = some (id, t) ∧ t.buf? id = some b := by
  obtain ⟨id, t, b, h1, h2⟩ := ready_creates true
  exact ⟨ready 1, pkt 0x400 1 0 0x100, 16384, 16384, id, t, b, ⟨rfl, fun _ => rfl, rfl, .inr rfl⟩, by decide, by decide, rfl, rfl, by decide, rfl,
    by decide, by decide, h1, h2⟩
theorem witness_BufferCreateQuota : ∃ (s : State) (p : Pkt), Admissible s p ∧ p.b0.toNat < 2 ^ 16 ∧ p.b1 ≠ 0 ∧ s.resultOk p = .ok ()
    ∧ p.b0.getLsbD 9 = false ∧ s.quotaLeft (s.ctxPart (s.pktCtx p)) < (p.b1.toNat + 16384 - 1) / 16384 * 16384 / 16384 :=
  ⟨device, pkt 0 0x40001 0 0, ⟨rfl, fun _ => rfl, rfl, .inr rfl⟩, by decide, by decide, rfl, rfl, by decide⟩
theorem witness_BufferCreateMalformed : ∃ (s : State) (p : Pkt), Admissible s p ∧ p.b0.toNat < 2 ^ 16 ∧ p.b1 ≠ 0 ∧ s.resultOk p = .ok ()
    ∧ p.b0.getLsbD 9 = true ∧ p.b0.getLsbD 8 = true := ⟨device, pkt 0x300 1 0 0, ⟨rfl, fun _ => rfl, rfl, .inr rfl⟩, by decide, by decide, rfl, rfl, rfl⟩

/-! ### Commands -/

/-- A command of the ring. -/
def cmd (w0 w1 w2 w3 w4 w5 : Word) : Cmd := { entry := 0, i3c := false, w0 := w0, w1 := w1, w2 := w2, w3 := w3, w4 := w4, w5 := w5 }
theorem witness_PartDestroy : ∃ (s : State) (c : Cmd) (p : Part), Taken s c ∧ s.part? c.w0.toNat = some p ∧ c.w1 = 0 ∧ c.w2 = 0 ∧ c.w3 = 0
    ∧ c.w4 = 0 ∧ c.w5 = 0 ∧ ∀ e ∈ s.ctxs, e.2.part ≠ c.w0.toNat :=
  ⟨{ device with ctxs := [] }, cmd 1 0 0 0 0 0, _, ⟨rfl, rfl⟩, rfl, rfl, rfl, rfl, rfl, rfl, by decide⟩
theorem witness_PartDestroyBusy : ∃ (s : State) (c : Cmd) (p : Part), Taken s c ∧ s.part? c.w0.toNat = some p ∧ c.w1 = 0
    ∧ ∃ e ∈ s.ctxs, e.2.part = c.w0.toNat := ⟨device, cmd 1 0 0 0 0 0, _, ⟨rfl, rfl⟩, rfl, rfl, (1, ctx1), by decide, rfl⟩
/-- Stack 0 with layers 2 and 3 as TIER (192 W), chiplet 33, and 64 GiB. -/
theorem witness_PartCreate : ∃ (s : State) (c : Cmd) (role : Nat → Nat) (layers others : List Nat) (id : Nat), Taken s c ∧ c.w0.toNat < 2 ^ 40
    ∧ c.w4 = 0 ∧ c.w5 = 0
    ∧ role = (fun i => if (s.die i).role = 3 then 3 else if c.w0.toNat.testBit (8 + (i - 1)) then 1 else 0)
    ∧ layers = layersIn (c.w0.toNat % 2 ^ 8) ∧ others = (List.range 64).filter (fun i => c.w1.getLsbD i)
    ∧ (∀ i, 1 ≤ i → i ≤ 32 → c.w0.toNat.testBit (8 + (i - 1)) = true → i ∈ layers)
    ∧ (∀ i ∈ others, 33 ≤ i ∧ i ≤ 37 ∧ (s.die i).role ≠ 3) ∧ (∃ i ∈ layers, s.present i = true ∧ role i = 0)
    ∧ (∀ i ∈ layers ++ others, (s.die i).part = 0)
    ∧ (∀ k, k < 8 → c.w0.toNat.testBit k = true → stackWatts role k ≤ s.stackLimit) ∧ s.parts.length < 8
    ∧ c.w2.toNat + s.parts.foldl (fun a e => a + e.2.hbmFrames / 65536) 0 ≤ s.hbmGiB
    ∧ 1 ≤ id ∧ id ≤ 8 ∧ s.part? id = none ∧ (∀ j, 1 ≤ j → j < id → (s.part? j).isSome = true) := by
  refine ⟨{ hosted with hbmmap := 1 }, cmd 0x601 0x200000000 64 0 0 0, _, _, _, 1, ⟨rfl, rfl⟩, by decide, rfl, rfl, rfl, rfl, rfl, ?_,
    by decide, by decide, by decide, by decide, by decide, by decide, by decide, by decide, rfl, ?_⟩
  · intro i h1 h2 h3
    have h : ∀ i, i < 33 → (0x601 : Nat).testBit (8 + (i - 1)) = true → 1 ≤ i → i ∈ layersIn (0x601 % 2 ^ 8) := by decide
    exact h i (by omega) h3 h1
  · intro j h1 h2
    omega
/-- The same without a change of role, and with one. -/
theorem witness_PartCreateRoles : ∃ (s t : State) (c : Cmd) (role : Nat → Nat) (layers : List Nat),
    role = (fun i => if (s.die i).role = 3 then 3 else if c.w0.toNat.testBit (8 + (i - 1)) then 1 else 0)
    ∧ layers = layersIn (c.w0.toNat % 2 ^ 8) ∧ (∀ i ∈ layers, role i = (s.die i).role) ∧ ∃ i ∈ layers, role i ≠ (t.die i).role :=
  ⟨{ hosted with hbmmap := 1, dies := [(2, { Die.reset 2 with role := 1 }), (3, { Die.reset 3 with role := 1 })] }, { hosted with hbmmap := 1 },
    cmd 0x601 0x200000000 64 0 0 0, _, _, rfl, rfl, by decide, 2, by decide, by decide⟩
/-- A re-enumeration that ends: one of PART_CREATE, whose dies have their roles already. -/
theorem witness_Reenumeration : ∃ (s : State) (r : Reenum) (p : Part), s.reenum = some r ∧ s.part? r.part = some p ∧ r.change = none :=
  ⟨{ device with reenum := some ⟨1, none, cmd 0x601 0 64 0 0 0, 1⟩ }, _, _, rfl, rfl, rfl⟩
theorem witness_CtxCreate : ∃ (s : State) (c : Cmd) (p : Part) (f : Nat) (fs : List Nat), Taken s c ∧ c.w1.toNat < 2 ^ 16
    ∧ s.part? c.w0.toNat = some p ∧ c.w1 ≠ 0 ∧ s.ctx? c.w1.toNat = none ∧ (∀ w ∈ [c.w2, c.w3, c.w4, c.w5], aperOk w = true)
    ∧ (s.ctxs.filter fun e => e.2.part == c.w0.toNat).length < 16 ∧ s.findFrames (fun _ => true) 1 = some (f :: fs) := by
  obtain ⟨f, fs, h⟩ := device_frames
  exact ⟨device, cmd 1 2 0x1180001 0 0 0x100000280001, _, f, fs, ⟨rfl, rfl⟩, by decide, rfl, by decide, rfl, by
    show ∀ w ∈ ([0x1180001, 0, 0, 0x100000280001] : List Word), aperOk w = true
    intro w hw
    simp only [List.mem_cons, List.not_mem_nil, or_false] at hw
    obtain rfl | rfl | rfl | rfl := hw <;> decide, by decide, h⟩
theorem witness_CtxCreateFull : ∃ (s : State) (c : Cmd), 16 ≤ (s.ctxs.filter fun e => e.2.part == c.w0.toNat).length
    ∧ (s.ctx? c.w1.toNat).isNone = true ∧ Taken s c :=
  ⟨{ device with ctxs := (List.range 16).map fun i => (i + 1, ctx1) }, cmd 1 17 0 0 0 0, by decide +kernel, by decide +kernel, rfl, rfl⟩
theorem witness_CtxCreateBadAperture : ∃ (s : State) (c : Cmd) (p : Part), Taken s c ∧ c.w1.toNat < 2 ^ 16 ∧ s.part? c.w0.toNat = some p
    ∧ ∃ w ∈ [c.w2, c.w3, c.w4, c.w5], aperOk w = false :=
  ⟨device, cmd 1 2 0x1180001 0 0 0x1280001, _, ⟨rfl, rfl⟩, by decide, rfl, 0x1280001, by decide, by decide⟩
theorem witness_CtxDestroy : ∃ (s : State) (c : Cmd) (x : Ctx), Taken s c ∧ s.ctx? c.w0.toNat = some x ∧ c.w1 = 0 ∧ c.w2 = 0 ∧ c.w3 = 0
    ∧ c.w4 = 0 ∧ c.w5 = 0 ∧ s.ctxIdle c.w0.toNat = true :=
  ⟨{ device with queues := [] }, cmd 1 0 0 0 0 0, _, ⟨rfl, rfl⟩, rfl, rfl, rfl, rfl, rfl, rfl, by decide⟩
theorem witness_CtxDestroyBusy : ∃ (s : State) (c : Cmd) (x : Ctx), Taken s c ∧ s.ctx? c.w0.toNat = some x ∧ s.ctxIdle c.w0.toNat = false :=
  ⟨device, cmd 1 0 0 0 0 0, _, ⟨rfl, rfl⟩, rfl, by decide⟩
theorem witness_CtxSwitch : ∃ (s : State) (c : Cmd) (p : Part) (x : Ctx), Taken s c ∧ s.part? c.w0.toNat = some p ∧ Named s c.w1.toNat x
    ∧ x.part = c.w0.toNat ∧ c.w2 = 0 ∧ c.w3 = 0 ∧ c.w4 = 0 ∧ c.w5 = 0 ∧ p.activeCtx ≠ c.w1.toNat :=
  ⟨{ device with ctxs := [(1, ctx1), (2, ctx1)] }, cmd 1 2 0 0 0 0, _, _, ⟨rfl, rfl⟩, rfl, ⟨rfl, rfl⟩, rfl, rfl, rfl, rfl, rfl, by decide⟩
theorem witness_CtxSwitchToItself : ∃ (s : State) (c : Cmd) (p : Part) (x : Ctx), Taken s c ∧ s.part? c.w0.toNat = some p
    ∧ Named s c.w1.toNat x ∧ x.part = c.w0.toNat ∧ p.activeCtx = c.w1.toNat :=
  ⟨device, cmd 1 1 0 0 0 0, _, _, ⟨rfl, rfl⟩, rfl, ⟨rfl, rfl⟩, rfl, rfl⟩
theorem witness_Preempt : ∃ (s : State) (c : Cmd) (d : Node), Taken s c ∧ c.w2 = 0 ∧ c.w3 = 0 ∧ c.w4 = 0 ∧ c.w5 = 0 ∧ c.w0 = 0
    ∧ c.w1.toNat < 2 ^ 16 ∧ s.node? c.w1.toNat = some d ∧ d.st = .running :=
  ⟨{ device with nodes := [(9, Node.runningOn 1 1)] }, cmd 0 9 0 0 0 0, _, ⟨rfl, rfl⟩, rfl, rfl, rfl, rfl, rfl, by decide, rfl, rfl⟩
theorem witness_PreemptOther : ∃ (s : State) (c : Cmd) (d : Node), Taken s c ∧ c.w0 = 0 ∧ s.node? c.w1.toNat = some d ∧ d.st ≠ .running
    ∧ d.st ≠ .prologue := ⟨{ device with nodes := [(9, readyNode)] }, cmd 0 9 0 0 0 0, _, ⟨rfl, rfl⟩, rfl, rfl, by decide, by decide⟩
theorem witness_PreemptMissing : ∃ (s : State) (c : Cmd), Taken s c ∧ c.w0 = 0 ∧ c.w1.toNat < 2 ^ 16 ∧ s.node? c.w1.toNat = none :=
  ⟨device, cmd 0 65535 0 0 0 0, ⟨rfl, rfl⟩, rfl, by decide, rfl⟩
/-- A page mapped in `ready`: a walk finds it where the tables are the partition's, and nothing where they are another's. -/
theorem ready_maps (own : Nat) : ∃ f, (ready own).findBlocks 0 1 = some [f]
    ∧ ((ready own).mapPages 1 1 0x100000000000 0 0 true 0 [f]).mapped 1 0x100000000000 16384 = decide (own = 1) := by
  obtain ⟨fs, h⟩ := ready_frames own (fun _ => true) fun _ _ _ => rfl
  obtain ⟨f, rfl, h4, h5⟩ := ready_frame h
  refine ⟨f, by rw [State.findBlocks, if_pos rfl]; exact h, ?_⟩
  have hm := ready_set (own := own) (f := f) (s := ((((ready own).giveFrames 1 [f]).tagFrames [f] 0).useQuota 1 1)) (bare_clear h4) rfl
  exact ready_walk own h4 h5 (s := ((((ready own).giveFrames 1 [f]).tagFrames [f] 0).useQuota 1 1).setPage 1 0x100000000000 0
    (leafPte (f * 16384) true)) (by rw [hm]) (by rw [hm]; rfl) (by rw [hm]; rfl) (by rw [hm]; rfl)
/-- The checks of MAP, and what the pages written leave. -/
def MapChecked (s : State) (c : Cmd) (x : Ctx) (size unit : Nat) (blocks : List Nat) : Prop :=
  Taken s c ∧ Named s c.w0.toNat x
    ∧ size = c.w3.toNat / 2 ^ 8 ∧ size ≤ 2 ∧ c.w3.toNat % 2 ^ 8 ≤ 1 ∧ c.w5 = 0 ∧ c.w4.toNat % 8 = 0 ∧ unit = sizeBytes size
    ∧ c.w1.toNat % unit = 0 ∧ c.w2.toNat % unit = 0 ∧ c.w1.toNat + c.w2.toNat ≤ 2 ^ 57 ∧ s.leafIn c.w0.toNat c.w1.toNat c.w2.toNat = false
    ∧ s.buffersIn c.w0.toNat c.w1.toNat c.w2.toNat = [] ∧ c.w2.toNat / 16384 ≤ s.quotaLeft x.part
    ∧ s.findBlocks (Nat.log2 (unit / 16384)) (c.w2.toNat / unit) = some blocks
theorem ready_mapChecked {own f : Nat} (hl : (ready own).leafIn 1 0x100000000000 16384 = false) (h : (ready own).findBlocks 0 1 = some [f]) :
    ∃ x, MapChecked (ready own) (cmd 1 0x100000000000 16384 1 0 0) x 0 16384 [f] ∧ x.part = 1 := by
  have h2 : Nat.log2 (16384 / 16384) = 0 := by decide
  have h3 : (cmd 1 0x100000000000 16384 1 0 0).w2.toNat / 16384 = 1 := by decide
  have h4 : 1 ≤ (ready 0).quotaLeft 1 := by decide
  refine ⟨_, ⟨⟨rfl, rfl⟩, ⟨rfl, rfl⟩, by decide, by decide, by decide, rfl, by decide, rfl, by decide, by decide, by decide, hl, rfl, h4, ?_⟩,
    rfl⟩
  rw [h2, h3]
  exact h
theorem witness_Map : ∃ (s : State) (c : Cmd) (x : Ctx) (size unit : Nat) (blocks : List Nat) (t : State), MapChecked s c x size unit blocks
    ∧ t = s.mapPages x.part c.w0.toNat c.w1.toNat size c.w4.toNat (c.w3.getLsbD 0) 0 blocks
    ∧ t.mapped c.w0.toNat c.w1.toNat c.w2.toNat = true := by
  obtain ⟨f, h1, h2⟩ := ready_maps 1
  obtain ⟨x, h3, h4⟩ := ready_mapChecked (own := 1) (by decide) h1
  exact ⟨_, _, _, _, _, _, _, h3, rfl, by rw [h4]; exact h2⟩
theorem witness_MapWithoutTables : ∃ (s : State) (c : Cmd) (x : Ctx) (size unit : Nat) (blocks : List Nat) (t : State),
    MapChecked s c x size unit blocks ∧ t = s.mapPages x.part c.w0.toNat c.w1.toNat size c.w4.toNat (c.w3.getLsbD 0) 0 blocks
    ∧ t.mapped c.w0.toNat c.w1.toNat c.w2.toNat = false := by
  obtain ⟨f, h1, h2⟩ := ready_maps 2
  obtain ⟨x, h3, h4⟩ := ready_mapChecked (own := 2) (by decide) h1
  exact ⟨_, _, _, _, _, _, _, h3, rfl, by rw [h4]; exact h2⟩
theorem witness_MapQuota : ∃ (s : State) (c : Cmd) (x : Ctx), Taken s c ∧ Named s c.w0.toNat x ∧ c.w3.toNat / 2 ^ 8 = 1
    ∧ c.w1.toNat % sizeBytes 1 = 0 ∧ c.w2.toNat % sizeBytes 1 = 0 ∧ s.leafIn c.w0.toNat c.w1.toNat c.w2.toNat = false
    ∧ s.quotaLeft x.part < c.w2.toNat / 16384 :=
  ⟨device, cmd 1 0x100000000000 0x2000000 0x101 0 0, _, ⟨rfl, rfl⟩, ⟨rfl, rfl⟩, by decide, by decide, by decide, by decide, by decide⟩
/-- The page at 2^44 of `graphed` and the one behind it. -/
theorem witness_Unmap : ∃ (s : State) (c : Cmd) (x : Ctx), Taken s c ∧ Named s c.w0.toNat x ∧ c.w3 = 0 ∧ c.w4 = 0 ∧ c.w5 = 0
    ∧ c.w1.toNat % 16384 = 0 ∧ c.w2.toNat % 16384 = 0 ∧ c.w1.toNat + c.w2.toNat ≤ 2 ^ 57 ∧ s.buffersIn c.w0.toNat c.w1.toNat c.w2.toNat = []
    ∧ (∀ l ∈ (s.ctxTree c.w0.toNat).2, l.1 < c.w1.toNat + c.w2.toNat → c.w1.toNat < l.1 + 2 ^ l.2.2 →
          c.w1.toNat ≤ l.1 ∧ l.1 + 2 ^ l.2.2 ≤ c.w1.toNat + c.w2.toNat) :=
  ⟨graphed, cmd 1 0x100000000000 0x8000 0 0 0, _, ⟨rfl, rfl⟩, ⟨rfl, rfl⟩, rfl, rfl, rfl, by decide, by decide, by decide, rfl, by decide⟩
/-- A leaf of 32 MiB of which one page of 16 KiB is named. -/
theorem witness_UnmapPart : ∃ (s : State) (c : Cmd), Taken s c ∧ ∃ l ∈ (s.ctxTree c.w0.toNat).2, l.1 < c.w1.toNat + c.w2.toNat
    ∧ c.w1.toNat < l.1 + 2 ^ l.2.2 ∧ (l.1 < c.w1.toNat ∨ c.w1.toNat + c.w2.toNat < l.1 + 2 ^ l.2.2) :=
  ⟨{ graphed with mem := Memory.writeN tables 0x8000 [0xD, 0, 0, 2], frames := (List.range 3).map fun f => (f, 1) },
    cmd 1 0x100000004000 0x4000 0 0 0, ⟨rfl, rfl⟩, (0x100000000000, 0x2000000, 25), by decide, by decide, by decide, by decide⟩
/-- A record of a load that waits for page 2^30 of context 1. -/
def asked : FaultReq :=
  { ctx := 1, page := 2 ^ 30, write := false, cell := 32, eng := .a, job := none, addr := 0x100000000000, killed := false }
theorem witness_FaultReply : ∃ (s : State) (c : Cmd) (x : Ctx), Taken s c ∧ Named s c.w0.toNat x ∧ c.w1.toNat % 16384 = 0 ∧ c.w2.toNat ≤ 1
    ∧ c.w3 = 0 ∧ c.w4 = 0 ∧ c.w5 = 0 ∧ ∃ r ∈ s.faults, r.ctx = c.w0.toNat ∧ r.page = c.w1.toNat / 16384 ∧ r.killed = false :=
  ⟨{ device with faults := [asked] }, cmd 1 0x100000000000 1 0 0 0, _, ⟨rfl, rfl⟩, ⟨rfl, rfl⟩, by decide, by decide, rfl, rfl, rfl, asked,
    by decide, by decide, by decide, by decide⟩
theorem witness_FaultReplyUnknown : ∃ (s : State) (c : Cmd) (x : Ctx), Taken s c ∧ Named s c.w0.toNat x ∧ c.w1.toNat % 16384 = 0
    ∧ ∀ r ∈ s.faults, r.ctx = c.w0.toNat → r.page = c.w1.toNat / 16384 → r.killed = true :=
  ⟨{ device with faults := [asked] }, cmd 1 0x100000004000 1 0 0 0, _, ⟨rfl, rfl⟩, ⟨rfl, rfl⟩, by decide, by decide⟩

theorem witness_ObjLoad : ∃ (s : State) (c : Cmd) (x : Ctx) (im : Image) (tb : Nat) (u : State) (db : Option Nat) (t : State), Taken s c
    ∧ Named s c.w0.toNat x ∧ c.w1.toNat % 8 = 0 ∧ c.w3 = 0 ∧ c.w4 = 0 ∧ c.w5 = 0
    ∧ loadImage (s.hostRead c.w1.toNat c.w2.toNat) = .ok im ∧ s.buildTiles c.w0.toNat im.tiles = some (tb, u)
    ∧ u.buildData c.w0.toNat im.data = some (db, t) := by
  have h : (match loadImage ((ready 1).hostRead 0x20000 424) with | .ok im => im.tiles.isEmpty && im.data.isEmpty | .error _ => false)
      = true := by decide +kernel
  cases hl : loadImage ((ready 1).hostRead 0x20000 424) with
  | error e => rw [hl] at h; exact Bool.noConfusion h
  | ok im =>
    rw [hl] at h
    simp only [Bool.and_eq_true, List.isEmpty_iff] at h
    obtain ⟨id, u, b, hc, -⟩ := ready_creates_plain
    refine ⟨ready 1, cmd 1 0x20000 424 0 0 0, _, im, id, u, none, u, ⟨rfl, rfl⟩, ⟨rfl, rfl⟩, by decide, rfl, rfl, rfl, hl, ?_, ?_⟩
    · rw [h.1]
      unfold State.buildTiles
      dsimp only
      rw [if_neg (by decide)]
      erw [hc]
      rfl
    · rw [h.2]
      rfl
theorem witness_ObjLoadBad : ∃ (s : State) (c : Cmd) (x : Ctx) (st : Nat), Taken s c ∧ Named s c.w0.toNat x ∧ c.w1.toNat % 8 = 0
    ∧ loadImage (s.hostRead c.w1.toNat c.w2.toNat) = .error st := by
  have h : (match loadImage (device.hostRead 0x30000 8) with | .ok _ => false | .error _ => true) = true := by decide +kernel
  cases hl : loadImage (device.hostRead 0x30000 8) with
  | error e => exact ⟨device, cmd 1 0x30000 8 0 0 0, _, e, ⟨rfl, rfl⟩, ⟨rfl, rfl⟩, by decide, hl⟩
  | ok im => rw [hl] at h; exact Bool.noConfusion h
/-- Object 1 with a LOOPTRIP slot for its one level. -/
def slotted : State := { device with objects := [(1, { twoClasses with slots := [⟨3, 0, 0, 7⟩], levels := [⟨0, 0, 1, 0⟩] })] }
theorem witness_ObjPatch : ∃ (s : State) (c : Cmd) (o : CodeObj) (x : Ctx) (y : Slot), Taken s c ∧ FMap.find? s.objects c.w0.toNat = some o
    ∧ o.gone = false ∧ Named s o.ctx x ∧ c.w3 = 0 ∧ c.w4 = 0 ∧ c.w5 = 0 ∧ o.slots[c.w1.toNat]? = some y
    ∧ slotOk o.sections y c.w2.toNat = true :=
  ⟨slotted, cmd 1 0 0xFFFFFFFF 0 0 0, _, _, _, ⟨rfl, rfl⟩, rfl, rfl, ⟨rfl, rfl⟩, rfl, rfl, rfl, rfl, by decide⟩
theorem witness_ObjPatchWide : ∃ (s : State) (c : Cmd) (o : CodeObj) (x : Ctx) (y : Slot), Taken s c
    ∧ FMap.find? s.objects c.w0.toNat = some o ∧ Named s o.ctx x ∧ o.slots[c.w1.toNat]? = some y
    ∧ slotOk o.sections y c.w2.toNat = false :=
  ⟨slotted, cmd 1 0 0x100000000 0 0 0, _, _, _, ⟨rfl, rfl⟩, rfl, ⟨rfl, rfl⟩, rfl, by decide⟩
theorem witness_ObjPatchBeyond : ∃ (s : State) (c : Cmd) (o : CodeObj) (x : Ctx), Taken s c ∧ FMap.find? s.objects c.w0.toNat = some o
    ∧ Named s o.ctx x ∧ o.slots[c.w1.toNat]? = none := ⟨slotted, cmd 1 1 0 0 0 0, _, _, ⟨rfl, rfl⟩, rfl, ⟨rfl, rfl⟩, rfl⟩
theorem witness_ObjUnload : ∃ (s : State) (c : Cmd) (o : CodeObj) (x : Ctx), Taken s c ∧ FMap.find? s.objects c.w0.toNat = some o
    ∧ o.gone = false ∧ Named s o.ctx x ∧ c.w1 = 0 ∧ c.w2 = 0 ∧ c.w3 = 0 ∧ c.w4 = 0 ∧ c.w5 = 0 ∧ s.refersTo c.w0.toNat = false :=
  ⟨device, cmd 1 0 0 0 0 0, _, _, ⟨rfl, rfl⟩, rfl, rfl, ⟨rfl, rfl⟩, rfl, rfl, rfl, rfl, rfl, by decide⟩
theorem witness_ObjUnloadBusy : ∃ (s : State) (c : Cmd), Taken s c ∧ s.refersTo c.w0.toNat = true :=
  ⟨{ device with nodes := [(9, readyNode)] }, cmd 1 0 0 0 0 0, ⟨rfl, rfl⟩, by decide⟩
theorem witness_GraphCancel : ∃ (s : State) (c : Cmd) (o : Open), Taken s c ∧ c.w2 = 0 ∧ c.w3 = 0 ∧ c.w4 = 0 ∧ c.w5 = 0
    ∧ s.opens.find? (fun (o : Open) => o.queue == c.w0.toNat && o.idx == c.w1.toNat && o.left != 0) = some o :=
  ⟨{ device with opens := [opened] }, cmd 0 3 0 0 0 0, _, ⟨rfl, rfl⟩, rfl, rfl, rfl, rfl, rfl⟩
theorem witness_GraphCancelMissing : ∃ (s : State) (c : Cmd), Taken s c
    ∧ s.opens.find? (fun (o : Open) => o.queue == c.w0.toNat && o.idx == c.w1.toNat && o.left != 0) = none :=
  ⟨{ device with opens := [{ opened with left := 0 }] }, cmd 0 3 0 0 0 0, ⟨rfl, rfl⟩, rfl⟩
theorem witness_HaltResume : ∃ (s : State) (c : Cmd) (d : Node), Taken s c ∧ c.w0.toNat < 2 ^ 16 ∧ s.node? c.w0.toNat = some d ∧ c.w1 = 0
    ∧ c.w2 = 0 ∧ c.w3 = 0 ∧ c.w4 = 0 ∧ c.w5 = 0 ∧ s.haltedCells c.w0.toNat ≠ [] :=
  ⟨{ device with nodes := [(9, Node.runningOn 1 1)], cells := [(32, { runner with node := 9, phase := .halted })] }, cmd 9 0 0 0 0 0, _,
    ⟨rfl, rfl⟩, by decide, rfl, rfl, rfl, rfl, rfl, rfl, by decide⟩
theorem witness_HaltResumeRunning : ∃ (s : State) (c : Cmd) (d : Node), Taken s c ∧ s.node? c.w0.toNat = some d
    ∧ s.haltedCells c.w0.toNat = [] := ⟨{ device with nodes := [(9, Node.runningOn 1 1)] }, cmd 9 0 0 0 0 0, _, ⟨rfl, rfl⟩, rfl, by decide⟩
theorem witness_DumpArea : ∃ (s : State) (c : Cmd) (x : Ctx), Taken s c ∧ s.ctx? c.w0.toNat = some x ∧ c.w3.toNat < 16 ∧ c.w4 = 0 ∧ c.w5 = 0
    ∧ c.w1.toNat % 64 = 0 ∧ 4096 ≤ c.w2.toNat := ⟨device, cmd 1 0x40 4096 15 0 0, _, ⟨rfl, rfl⟩, rfl, by decide, rfl, rfl, by decide, by decide⟩
theorem witness_Defaults : ∃ (s : State) (c : Cmd) (x : Ctx), Taken s c ∧ Named s c.w0.toNat x ∧ c.w5.toNat % 8 = 0 ∧ c.w1.toNat < 4
    ∧ c.w3 = 0 ∧ c.w4 = 0 ∧ c.w5 = 0 := ⟨device, cmd 1 3 0x1000 0 0 0, _, ⟨rfl, rfl⟩, ⟨rfl, rfl⟩, by decide, by decide, rfl, rfl, rfl⟩
theorem witness_StopAt : ∃ (s : State) (c : Cmd), Taken s c ∧ c.w1 = 0 ∧ c.w2 = 0 ∧ c.w3 = 0 ∧ c.w4 = 0 ∧ c.w5 = 0
    ∧ c.tick + 2 ^ 16 ≤ c.w0.toNat ∧ s.stopAt = none := ⟨device, cmd 65536 0 0 0 0 0, ⟨rfl, rfl⟩, rfl, rfl, rfl, rfl, rfl, by decide, rfl⟩
theorem witness_StopAtNear : ∃ (s : State) (c : Cmd), Taken s c ∧ c.w0.toNat < c.tick + 2 ^ 16 ∧ s.tick = 0 :=
  ⟨device, { cmd 65536 0 0 0 0 0 with tick := 1 }, ⟨rfl, rfl⟩, by decide, rfl⟩
/-- Layer 1 becomes TIER: 260 W remain in the stack; a second one back to ARITH makes 328. -/
theorem witness_RoleSet : ∃ (s : State) (c : Cmd) (p : Part), Taken s c ∧ c.w0 ≠ 0 ∧ s.part? c.w0.toNat = some p ∧ isLayer c.w1.toNat = true
    ∧ c.w2.toNat ≤ 1 ∧ (s.die c.w1.toNat).part = c.w0.toNat ∧ (s.die c.w1.toNat).role ≤ 1 ∧ c.w3 = 0 ∧ c.w4 = 0 ∧ c.w5 = 0 ∧ s.ctx? 0 = none
    ∧ (s.die c.w1.toNat).role ≠ c.w2.toNat ∧ 2 ≤ (s.arith c.w0.toNat).length
    ∧ stackWatts (fun i => if i = c.w1.toNat then c.w2.toNat else (s.die i).role) (stackOf c.w1.toNat) ≤ s.stackLimit
    ∧ s.heldOn (s.partDies c.w0.toNat) = false :=
  ⟨device, cmd 1 1 1 0 0 0, _, ⟨rfl, rfl⟩, by decide, rfl, rfl, by decide, rfl, by decide, rfl, rfl, rfl, rfl, by decide, by decide, by decide,
    by decide⟩
theorem witness_RoleSetTooWarm : ∃ (s : State) (c : Cmd), (s.die c.w1.toNat).role ≠ c.w2.toNat ∧ c.w2 = 0
    ∧ s.stackLimit < stackWatts (fun i => if i = c.w1.toNat then c.w2.toNat else (s.die i).role) (stackOf c.w1.toNat) :=
  ⟨{ device with dies := [(1, { Die.reset 1 with part := 1, role := 1 }), (2, Die.reset 2), (3, Die.reset 3), (4, Die.reset 4)] }, cmd 1 1 0 0 0 0,
    by decide, rfl, by decide⟩
theorem witness_RoleSetLast : ∃ (s : State) (c : Cmd), c.w2 = 1 ∧ (s.die c.w1.toNat).role = 0 ∧ (s.arith c.w0.toNat).length < 2 :=
  ⟨{ device with dies := (List.range 44).map fun i => (i, { Die.reset i with part := 1, role := if i = 1 then 0 else 1 }) }, cmd 1 1 1 0 0 0, rfl,
    by decide, by decide⟩
theorem witness_PowerSet : ∃ (s : State) (c : Cmd) (p : Part) (old : Nat), Taken s c ∧ s.part? c.w0.toNat = some p ∧ 1 ≤ c.w1.toNat
    ∧ c.w1.toNat ≤ 4 ∧ c.w2.toNat ≤ 2 ∧ c.w3.toNat ≤ 2 ∧ c.w4 = 0 ∧ c.w5 = 0 ∧ old = (p.power.getD (c.w1.toNat - 1) (0, 0)).1
    ∧ s.heldOn (s.domainDies c.w0.toNat c.w1.toNat) = false :=
  ⟨device, cmd 1 4 2 1 0 0, _, _, ⟨rfl, rfl⟩, rfl, by decide, by decide, by decide, by decide, rfl, rfl, rfl, by decide⟩
theorem witness_PowerSetHeld : ∃ (s : State) (c : Cmd), s.heldOn (s.domainDies c.w0.toNat c.w1.toNat) = true :=
  ⟨{ device with cells := [(32, { runner with phase := .halted })] }, cmd 1 1 2 1 0 0, by decide⟩
theorem witness_Attest : ∃ (s : State) (c : Cmd), c.i3c = false ∧ c.w2 = 0 ∧ c.w3 = 0 ∧ c.w4 = 0 ∧ c.w5 = 0 ∧ s.ready = true
    ∧ c.w0.toNat % 8 = 0 ∧ c.w1.toNat % 8 = 0 := ⟨device, cmd 0x1000 0x2000 0 0 0 0, rfl, rfl, rfl, rfl, rfl, rfl, by decide, by decide⟩
theorem witness_FwStage : ∃ (s : State) (c : Cmd), c.i3c = false ∧ c.w2 = 0 ∧ c.w3 = 0 ∧ c.w4 = 0 ∧ c.w5 = 0 ∧ s.recov = true
    ∧ c.w0.toNat % 8 = 0 := ⟨{ State.reset with recov := true }, cmd 0x1000 64 0 0 0 0, rfl, rfl, rfl, rfl, rfl, rfl, by decide⟩
theorem witness_JournalClear : ∃ (s : State) (c : Cmd), c.i3c = false ∧ c.w2 = 0 ∧ c.w3 = 0 ∧ c.w4 = 0 ∧ c.w5 = 0 ∧ s.recov = true ∧ c.w0 = 0
    ∧ c.w1 = 0 := ⟨{ State.reset with recov := true }, cmd 0 0 0 0 0 0, rfl, rfl, rfl, rfl, rfl, rfl, rfl, rfl⟩

/-! ### Host registers, time, memory, bring-up -/

theorem witness_QcfgEnable : ∃ (s : State) (q : Nat) (w : Word), s.ready = true ∧ q < 4096 ∧ (s.queue q).en = false ∧ w.getLsbD 0 = true
    ∧ s.cfgOk w = true := ⟨device, 4095, 0x1000001020011, rfl, by decide, rfl, rfl, by decide⟩
theorem witness_QcfgBad : ∃ (s : State) (q : Nat) (w : Word), s.ready = true ∧ q < 4096 ∧ (s.queue q).en = false ∧ s.cfgOk w = false :=
  ⟨device, 4095, 0x1000001120011, rfl, by decide, rfl, by decide⟩
theorem witness_QcfgRestart : ∃ (s : State) (q : Nat) (w : Word), s.ready = true ∧ q < 4096 ∧ (s.queue q).en = true ∧ w.getLsbD 0 = true
    ∧ (s.queue q).st = 3 ∧ s.cfgOk w = true :=
  ⟨{ device with queues := [(0, { Queue.reset with en := true, st := 3 })] }, 0, 0x1000001020011, rfl, by decide, rfl, rfl, rfl, by decide⟩
theorem witness_QcfgDisable : ∃ (s : State) (q : Nat) (w : Word), s.ready = true ∧ q < 4096 ∧ (s.queue q).en = true ∧ w.getLsbD 0 = false :=
  ⟨device, 0, 0x1000001020010, rfl, by decide, rfl, rfl⟩
/-- An access that a move holds: the writes and accesses behind it wait for their turn. -/
theorem witness_HostOpsQueue : ∃ (s : State) (q sig off n : Nat), s.ready = true ∧ q < 4096 ∧ sig < 16384 ∧ n ≠ 0 ∧ off + n ≤ 2 ^ 36
    ∧ s.hostOps ≠ [] := ⟨{ device with hostOps := [.window 0 8 none] }, 4095, 16383, 2 ^ 36 - 8, 8, rfl, by decide, by decide, by decide, by decide,
  by decide⟩
theorem witness_RegisterWrites : ∃ (s : State) (off p : Nat), s.ready = true ∧ s.hostOps = [] ∧ off % 8 ≠ 0 ∧ p < 8 :=
  ⟨device, 0x2004, 7, rfl, rfl, by decide, by decide⟩
theorem witness_Bar2Reads : ∃ (s : State) (off n : Nat) (ps : List (Nat × Nat × Nat)), s.ready = true ∧ n ≠ 0 ∧ off + n ≤ 2 ^ 36
    ∧ s.bar2Places off n false = .ok ps ∧ ∀ p ∈ ps, s.heldBy p.1 .window = none :=
  ⟨{ graphed with bar2ctx := 1, bar2va := 2 ^ 23 }, 0x3C, 8, [(0x1003C, 4, 0), (0x10040, 4, 4)], rfl, by decide, by decide, by decide, by decide⟩
theorem witness_Bar2Fails : ∃ (s : State) (off n : Nat) (c : BitVec 8), s.ready = true ∧ n ≠ 0 ∧ off + n ≤ 2 ^ 36
    ∧ s.bar2Places off n false = .error c := ⟨{ graphed with bar2ctx := 1, bar2va := 2 ^ 23 }, 0x4000, 8, 0x24, rfl, by decide, by decide, by decide⟩
theorem witness_Bar2Writes : ∃ (s : State) (off : Nat) (bs : List Byte) (ps : List (Nat × Nat × Nat)), s.ready = true ∧ bs ≠ []
    ∧ off + bs.length ≤ 2 ^ 36 ∧ s.bar2Places off bs.length true = .ok ps ∧ (∀ p ∈ ps, s.heldBy p.1 .window = none) ∧ s.bar2Tile ps = none :=
  ⟨{ graphed with bar2ctx := 1, bar2va := 2 ^ 23 }, 0x3FFF, [7], [(0x13FFF, 1, 0)], rfl, by decide, by decide, by decide, by decide, by decide⟩
/-- A tile of buffer 7 on its way. -/
def moving (st : TileState) (frame : Option Nat) : State :=
  { device with
    buffers := [(7, { page1 false 1 with tiled := true, pageable := true, len := 65536, front := [0, 16384, 32768, 49152], tiles := [(0, ⟨st, frame, none, [], false, 0, []⟩)] })] }
/-- An access of the page at 2^44, which buffer 7 maps, while its tile 0 leaves the pool, and a write while it is COLD. -/
def windowed (s : State) : State :=
  { s with
    parts := [(1, { part1 with respool := 1 })], dies := (List.range 5).map fun i => (i, { Die.reset i with part := 1, role := if i = 4 then 1 else 0 })
    frames := (List.range 8).map fun f => (f, 1), bar2ctx := 1, bar2va := 2 ^ 23
    mem := Memory.writeN tables 0x10000 [1], buffers := s.buffers.map fun e => (e.1, { e.2 with front := [65536, 81920, 98304, 114688] }) }
theorem witness_Bar2Waits : ∃ (s : State) (off n : Nat) (ps : List (Nat × Nat × Nat)), s.ready = true ∧ n ≠ 0 ∧ off + n ≤ 2 ^ 36 ∧ s.hostOps = []
    ∧ s.bar2Places off n false = .ok ps ∧ ∃ p ∈ ps, (s.heldBy p.1 .window).isSome = true :=
  ⟨windowed (moving .evicting (some (2 ^ 40))), 8, 8, [(0x10008, 8, 0)], rfl, by decide, by decide, rfl, by decide, _, List.mem_singleton.2 rfl,
    by decide⟩
theorem witness_Bar2WritesACold : ∃ (s : State) (off : Nat) (bs : List Byte) (ps : List (Nat × Nat × Nat)) (id i : Nat), s.ready = true
    ∧ s.hostOps = [] ∧ bs ≠ [] ∧ off + bs.length ≤ 2 ^ 36 ∧ s.bar2Places off bs.length true = .ok ps ∧ (∀ p ∈ ps, s.heldBy p.1 .window = none)
    ∧ s.bar2Tile ps = some (id, i) :=
  ⟨windowed (moving .cold none), 8, [7], [(0x10008, 1, 0)], 7, 0, rfl, rfl, by decide, by decide, by decide, by decide, by decide⟩
theorem witness_EventRing : ∃ (s : State) (b : EventBytes), s.evKept = [b] ∧ s.ringRoom = true :=
  ⟨{ device with evKept := [[7]], evLog2 := 4 }, _, rfl, by decide⟩
theorem witness_EventRingFull : ∃ s : State, s.ringRoom = false ∧ s.evKept ≠ [] := ⟨{ device with evKept := [[7]] }, by decide, by decide⟩
theorem witness_TbCorrection : ∃ (s : State) (off : Int), s.ready = true ∧ s.timeBase.src = 1 ∧ off.natAbs ≤ 2 ^ 20 ∧ s.timeBase.ak ≤ s.tick :=
  ⟨{ device with timeBase := { TimeBase.reset with src := 1 } }, -(2 ^ 20), rfl, rfl, by decide, by decide⟩
theorem witness_NyernLock : ∃ (s : State), s.ready = true ∧ s.timeBase.src = 2 ∧ s.tickKept = false :=
  ⟨{ device with timeBase := { TimeBase.reset with src := 2 } }, rfl, rfl, rfl⟩
theorem witness_Stops : ∃ (s : State) (x : Nat), s.stopAt = some x ∧ x ≤ s.tick := ⟨{ device with stopAt := some 5, tick := 5 }, 5, rfl, by decide⟩
theorem witness_StopsLater : ∃ (s : State) (x : Nat), s.stopAt = some x ∧ s.tick < x := ⟨{ device with stopAt := some 6, tick := 5 }, 6, rfl, by decide⟩
theorem witness_TileFetch : ∃ (s : State) (id i f : Nat), (s.tile id i).st = .fetching ∧ (s.tile id i).frame = some f ∧ s.leaver f = none :=
  ⟨moving .fetching (some (2 ^ 40)), 7, 0, _, rfl, rfl, by decide⟩
theorem witness_TileFetchWaits : ∃ (s : State) (id i : Nat), (s.tile id i).st = .fetching ∧ (s.tile id i).frame = none :=
  ⟨moving .fetching none, 7, 0, rfl, rfl⟩
theorem witness_TileFetchOfALeavingFrame : ∃ (s : State) (id i f : Nat), (s.tile id i).st = .fetching ∧ (s.tile id i).frame = some f
    ∧ (s.leaver f).isSome = true :=
  ⟨{ device with buffers := [(7, { page1 false 1 with tiled := true, pageable := true, len := 131072, front := (List.range 8).map (16384 * ·), tiles := [(0, ⟨.fetching, some (2 ^ 40), none, [], false, 0, []⟩), (1, ⟨.evicting, some (2 ^ 40), none, [], false, 0, []⟩)] })] }, 7, 0, _, rfl, rfl,
    by decide⟩
theorem witness_TileEvict : ∃ (s : State) (id i f : Nat), (s.tile id i).st = .evicting ∧ (s.tile id i).frame = some f :=
  ⟨moving .evicting (some (2 ^ 40)), 7, 0, _, rfl, rfl⟩
theorem witness_LinkFailure : ∃ (s : State) (a b : Nat), (s.links.any fun l => l == (a, b) || l == (b, a)) = true ∧ (a, b) ∉ s.deadLinks
    ∧ (b, a) ∉ s.deadLinks := ⟨device, 33, 0, by decide, by decide, by decide⟩
theorem witness_NoLink : ∃ (s : State) (a b : Nat), (s.links.any fun l => l == (a, b) || l == (b, a)) = false := ⟨device, 33, 34, by decide⟩
theorem witness_Scrub : ∃ (s : State) (chip place loc : Nat), s.knownBad chip place = false ∧ s.scrubbed chip place = .data loc :=
  ⟨device, 38, 64, _, by decide, rfl⟩
theorem witness_ScrubCopy : ∃ (s : State) (chip place line : Nat), s.knownBad chip place = false ∧ s.scrubbed chip place = .copy line :=
  ⟨device, 1, 0x41, _, by decide, rfl⟩
theorem witness_Dump : ∃ (s : State) (d : Dump) (ds : List Dump) (x : Ctx) (a n parts : Nat), s.dumps = d :: ds ∧ s.ctx? d.ctx = some x
    ∧ x.dump = some (a, n, parts) :=
  ⟨{ device with ctxs := [(1, { ctx1 with dump := some (0x4000, 4096, 1) })], dumps := [⟨1, [], [], 0⟩] }, _, _, _, _, _, _, rfl, rfl, rfl⟩
theorem witness_DumpNoArea : ∃ (s : State) (d : Dump) (ds : List Dump) (x : Ctx), s.dumps = d :: ds ∧ s.ctx? d.ctx = some x ∧ x.dump = none :=
  ⟨{ device with dumps := [⟨1, [], [], 0⟩] }, _, _, _, rfl, rfl, rfl⟩
/-- A boot at a step, with a number of objects trained and every HBM stack in service. -/
def booting (step trained : Nat) (paths : Bool) : State :=
  { State.reset with bootStep := step, hbmmap := 0xFFF, booting := some ⟨⟨1, [], paths, true⟩, false, trained⟩ }
theorem witness_PowerGood : ∃ s : State, s.bootPending = true := ⟨State.reset, rfl⟩
theorem witness_PowerGoodAgain : ∃ s : State, s.bootPending = false := ⟨booting 4 55 true, rfl⟩
/-- Boots at each step, and at the two ends of the training. -/
theorem witness_BootSteps : ∀ n, n ≤ 6 → ∃ (s : State) (b : Boot), s.booting = some b ∧ s.bootStep = n ∧ s.tripped = none :=
  fun n _ => ⟨booting n 0 true, _, rfl, rfl, rfl⟩
theorem witness_BootTrains : bootObjects[54]? = some 75 ∧ bootObjects[55]? = none := ⟨rfl, rfl⟩
theorem witness_BootIsComplete : ∃ (s : State) (b : Boot), s.booting = some b ∧ s.bootStep = 4 ∧ bootObjects[b.trained]? = none
    ∧ b.found.minPaths = true ∧ s.enough = true := ⟨booting 4 55 true, _, rfl, rfl, rfl, rfl, by decide⟩
theorem witness_BootFindsNoPath : ∃ (s : State) (b : Boot), s.booting = some b ∧ s.bootStep = 4 ∧ bootObjects[b.trained]? = none
    ∧ b.found.minPaths = false := ⟨booting 4 55 false, _, rfl, rfl, rfl, rfl⟩
/-- Step 4 (R460): a layer that fails in a boot is out of service; its entry stands in the journal. -/
theorem test_failing_layer_out : (((booting 4 1 true).bootDo ⟨⟨1, [2], true, false⟩, false, 1⟩).die 2).role = 3 := by decide
theorem witness_Restart : ∃ s : State, s.powered = true ∧ s.mem ≠ [] := ⟨graphed, rfl, by decide⟩
theorem witness_I3c : ∃ (s : State) (e : List Byte), 64 ≤ e.length ∧ s.ready = true ∧ s.i3cWait = [] ∧ s.mcRd = s.mcWr ∧ e.getD 0 0 = 0x18 ∧ ∀ i, 8 ≤ i → i < 56 → e.getD i 0 = 0 := by
  refine ⟨{ device with mcWr := 0 }, 0x18 :: List.replicate 63 0, Nat.le_refl 64, rfl, rfl, rfl, rfl, ?_⟩
  intro i h1 h2
  cases i with
  | zero => omega
  | succ i => rw [List.getD_cons_succ, List.getD_eq_getElem?_getD, List.getElem?_replicate, if_pos (by omega)]; rfl
theorem witness_I3cUndefined : ∃ (s : State) (e : List Byte), 64 ≤ e.length ∧ s.recov = true ∧ s.i3cWait = [] ∧ s.ready = false ∧ e.getD 0 0 = 0 :=
  ⟨{ State.reset with recov := true }, List.replicate 64 0, Nat.le_refl 64, rfl, rfl, rfl, rfl⟩
theorem witness_I3cShort : ∃ e : List Byte, e.length < 64 := ⟨[], by decide⟩
/-- A message behind a command of the ring that has not started. -/
theorem witness_I3cWaits : ∃ (s : State) (e : List Byte), 64 ≤ e.length ∧ s.ready = true ∧ s.mcRd ≠ s.mcWr :=
  ⟨{ device with mcWr := 1 }, List.replicate 96 0, by decide, rfl, by decide⟩

/-! ### Frames -/

/-- ADD of C that pops qc and pushes qa; LCSET; a store of A to its own scratchpad: each a step that takes no cause. -/
theorem witness_ScalarFrame : ∃ (i : Instr) (s t : State) (key : Nat) (e : EngTag) (d : BitVec 8), ScalarWord i e d ∧ e = .c
    ∧ Quiet i s t key e :=
  ⟨_, demo 32 .c { runner with x := [(5, 9)], qc := [4] }, _, 32, .c, 0xFE, .inl ⟨r3 0 0xFE 5 0xFE 3 0 0, .head _, rfl, rfl⟩, rfl,
    rfl, rfl, rfl, rfl, rfl, rfl, rfl⟩
theorem witness_ScalarFrameOfA : ∃ (i : Instr) (s t : State) (key : Nat) (e : EngTag) (d : BitVec 8), ScalarWord i e d ∧ e = .a
    ∧ Quiet i s t key e :=
  ⟨_, demo 32 .a { runner with a := [(5, 9)] }, _, 32, .a, 3, .inr ⟨ri 1 3 5 0xFFFFF, .head _, rfl, rfl⟩, rfl, rfl, rfl, rfl, rfl, rfl, rfl, rfl⟩
theorem witness_LoopFrame : ∃ (f : Rrr) (s t : State) (key : Nat) (e : EngTag), f.hdr.eng.toNat = e.num ∧ e = .c ∧ Quiet (.lcset f) s t key e :=
  ⟨r3 0 15 5 0 0 0 0, demo 32 .c { runner with x := [(5, 9)] }, _, 32, .c, rfl, rfl, rfl, rfl, rfl, rfl, rfl, rfl, rfl⟩
theorem witness_StoreFrame : ∃ (f : Rrr) (s t s0 s1 s2 : State) (key : Nat) (e : EngTag) (lo hi addr : Word) (off : Nat), Starts (.st f) s key e s0
    ∧ s0.dataSrc f.d (litVal f.ty.toNat f.w1) (f.ty == 12) = .ok (lo, hi, s1) ∧ s1.memAddr f = .ok (addr, s2)
    ∧ windowOf (s2.apers (s2.nodeCtx (s2.cell key).node)) (addrVa addr) = some (0, off) ∧ f.hdr.eng.toNat = e.num ∧ e = .a
    ∧ Quiet (.st f) s t key e :=
  ⟨r3 1 2 5 0 2 0 0, world .a { runner with a := [(2, 0x44332211), (5, 0x17FFFFC)] }, _, _, _, _, 32, .a, 0x44332211, 0, 0x17FFFFC, 0x7FFFFC,
    starts_of rfl rfl (by decide), rfl, rfl, by decide, rfl, rfl, rfl, rfl, rfl, rfl, rfl, rfl, rfl⟩
theorem witness_StoreFrameOfLines : ∃ (s t : State) (key part loc : Nat) (bs : List Byte) (scope : Nat) (na : Bool),
    s.storeLine key part loc bs scope na = .ok t ∧ bs = [1, 2] ∧ na = false :=
  ⟨world .a { runner with l1Tag := [(0, 0)] }, _, 32, 1, 0x3E, [1, 2], 0, false, rfl, rfl, rfl⟩
theorem witness_MemoryStaysCanonical : ∃ s t : State, Memory.wf s.mem = true ∧ Memory.wf s.host = true ∧ step s = .next t :=
  ⟨placed, _, rfl, rfl, rfl⟩

/-! ### Further clauses: trace rings, HALT's report, held entries, tokens of commands -/

/-- An engine C of a cell whose trace ring lies at the start of its scratchpad: NREC n, WR w, RD 0. -/
def traced (w n : Nat) (ctl : BitVec 2) : State :=
  world .c { runner with x := [(6, 9)], trbase := 0x1000000, trctl := ctl, spad := [(0, BitVec.ofNat 8 w), (16, BitVec.ofNat 8 n)] }
/-- MARK has taken A. -/
def took (s : State) : State := s.modEng fun g => { g with waitVal := some 9 }
/-- The header of that ring, and a record of it. -/
def header (s : State) : M (Place × State) :=
  s.access 32 { addr := s.core.trbase, size := 64, write := true, align := 64, scope := 2, watch := false }
def record (s : State) (wr n : Nat) : M (Place × State) :=
  s.access 32 { addr := s.core.trbase + BitVec.ofNat 64 (64 + 32 * (wr % 2 ^ n)), size := 32, write := true, align := 32, scope := 2, watch := false }
/-- The last slot of a ring of 16 records: header, record and room are there. -/
theorem witness_MarkWritten : ∃ (f : Ri) (s : State) (e : EngTag) (s0 : State) (a : Word) (s1 s2 : State) (h : Place) (s3 s4 : State)
    (r : Place) (s5 : State), Starts (.mark f) s 32 e s0 ∧ (s0.core.eng e).waitVal = none
    ∧ s0.src f.a (litVal 0 f.w1) = .ok (a, s1) ∧ s2 = (s1.modEng fun g => { g with waitVal := some a }) ∧ s2.core.trbase ≠ 0
    ∧ header s2 = .ok (h, s3) ∧ s3.traceTurn 32 h = .ok s4 ∧ s4.placeWord h 0x10 = 4 ∧ s4.placeWord h 0 = 15 ∧ s4.placeWord h 8 = 0
    ∧ s4.access 32 { addr := s2.core.trbase + BitVec.ofNat 64 (64 + 32 * (15 % 2 ^ 4)), size := 32, write := true, align := 32, scope := 2,
                     watch := false } = .ok (r, s5) := by
  have h : (match header (took (traced 15 4 0)) with
      | .ok (.spad k off, s3) => s3.placeWord (.spad k off) 0x10 == 4 && s3.placeWord (.spad k off) 0 == 15
        && s3.placeWord (.spad k off) 8 == 0 && s3.core.trbase == (took (traced 15 4 0)).core.trbase
        && (match record s3 15 4 with | .ok _ => true | .error _ => false)
      | _ => false) = true := by decide +kernel
  split at h
  · rename_i k off s3 hh
    simp only [Bool.and_eq_true, beq_iff_eq] at h
    obtain ⟨⟨⟨⟨h1, h2⟩, h3⟩, h4⟩, h5⟩ := h
    split at h5
    · rename_i x hr
      unfold record at hr
      rw [h4] at hr
      exact ⟨ri 0 5 6 2, traced 15 4 0, .c, _, 9, _, took (traced 15 4 0), .spad k off, s3, s3, x.1, x.2, starts_of rfl rfl (by decide), rfl,
        rfl, rfl, by decide, hh, rfl, h1, h2, h3, hr⟩
    · exact Bool.noConfusion h5
  · exact Bool.noConfusion h
/-- How a record ends. -/
def ends (s : State) : TraceEnd :=
  (s.traceWrite 32 s.core.trbase (s.core.trctl.getLsbD 1) s.tick (markBytes s.tick 9 32)).1
/-- The ring full with STALL: MARK waits, and runs again with A as it was; without STALL the record is lost, and with NREC 3
dropped. -/
theorem witness_MarkFull : ∃ (f : Ri) (s : State) (e : EngTag) (s0 : State), Starts (.mark f) s 32 e s0
    ∧ (s0.core.eng e).waitVal = some 9 ∧ s0.core.trbase ≠ 0 ∧ ends s0 = .full := by
  refine ⟨ri 0 5 6 2, took (traced 16 4 2), .c, _, starts_of rfl rfl (by decide), rfl, by decide, ?_⟩
  decide +kernel
theorem witness_MarkLost : ∃ (f : Ri) (s : State) (e : EngTag) (s0 s1 : State), Starts (.mark f) s 32 e s0
    ∧ s0.src f.a (litVal 0 f.w1) = .ok (9, s1) ∧ ends (took s1) = .lost := by
  refine ⟨ri 0 5 6 2, traced 16 4 0, .c, _, _, starts_of rfl rfl (by decide), rfl, ?_⟩
  decide +kernel
theorem test_mark_dropped : ends (traced 16 3 0) = .dropped := by decide +kernel

/-- A halted shard with nothing left reports; with an accepted command it waits. -/
theorem witness_HaltReports : (∃ (s : State) (key pc : Nat) (c : Cell), (s.cells.filter fun x => x.2.haltPc.isSome) = [(key, c)]
    ∧ c.haltPc = some pc ∧ c.phase = .halted ∧ c.jobs = [] ∧ ∀ e, (c.eng e).done = true ∨ (c.eng e).issued = false)
    ∧ ∃ (s : State) (key pc : Nat) (c : Cell), (s.cells.filter fun x => x.2.haltPc.isSome) = [(key, c)]
      ∧ c.haltPc = some pc ∧ ∃ e, (c.eng e).done = false ∧ (c.eng e).issued = true :=
  ⟨⟨demo 32 .c { runner with phase := .halted, haltPc := some 8 }, 32, 8, _, rfl, rfl, rfl, rfl, fun e => .inr (by cases e <;> rfl)⟩,
    demo 32 .c { runner with phase := .halted, haltPc := some 8, engX := { Eng.fresh with issued := true } }, 32, 8, _, rfl, rfl, .x, rfl, rfl⟩
/-- A trap while a fatal cause stands. -/
theorem witness_TrapGivesWay : ∃ (s : State) (key : Nat) (e : EngTag) (r : Raise), s.cur = .cell key e ∧ trapClass r.code = true
    ∧ s.core.tvec ≠ 0 ∧ s.core.handler = none ∧ s.core.fatals ≠ [] :=
  ⟨demo 32 .a { runner with tvec := 64, fatals := [(0, someCause 0x80)] }, 32, .a, { code := 0x7F }, rfl, rfl, by decide, rfl, by decide⟩
/-- A write of FPSTAT in the cycle in which a word raised NX. -/
theorem witness_FlagsOfTheSameCycle : ∃ (s : State) (key : Nat) (e : EngTag) (t : State), s.cur = .cell key e ∧ s.core.nowFp ≠ 0
    ∧ s.csrWrite 0x001 0 = .ok t ∧ t.csrRead 0x001 = 0x10 :=
  ⟨demo 32 .c { runner with nowFp := 0x10 }, 32, .c, _, rfl, by decide, rfl, by decide⟩

/-- Word 0 is a BR of C, which stands before it; A, behind it, produces the entry of its own BR at position 1. -/
def behind (c : Cell) : State :=
  coded 32 .a { c with path := [0, 8], engA := { Eng.fresh with pc := 8, pos := 1 } } (encode (.br (bf 2 false 5 2)) ++ encode (.br (bf 2 true 5 1)) ++ [0, 0])
theorem witness_OutcomeHeldBack : ∃ (s : State) (key : Nat) (e : EngTag) (x : BqEnt), s.cur = .cell key e
    ∧ s.core.bqEarly s.curClass s.curCode x.pos = true ∧ (Cell.bqEarly s.core s.curClass s.curCode 0 = false) :=
  ⟨behind runner, 32, .a, ⟨.outcome, 1, 8, 1⟩, rfl, by decide, by decide⟩
theorem witness_OutcomeEnters : ∃ (s : State) (key : Nat) (e : EngTag) (x : BqEnt), s.cur = .cell key e
    ∧ s.core.bqEarly s.curClass s.curCode x.pos = false ∧ (∀ y ∈ s.core.bqHeld, x.pos ≤ y.2.pos)
    ∧ ∀ g, (g ∈ s.core.live s.curClass ∧ (g ≠ e ∨ x.kind = .out)) → (s.core.eng g).bq.length < 64 :=
  ⟨demo 32 .c { runner with engX := { Eng.fresh with bq := List.replicate 63 ⟨.out, 0, 0, 0⟩ } }, 32, .c, ⟨.outcome, 1, 0, 0⟩, rfl, by decide,
    by decide, fun g _ => by cases g <;> decide⟩
theorem witness_OutcomeWaits : ∃ (s : State) (key : Nat) (e : EngTag) (x : BqEnt), s.cur = .cell key e
    ∧ s.core.bqEarly s.curClass s.curCode x.pos = false
    ∧ ∃ g, (g ∈ s.core.live s.curClass ∧ (g ≠ e ∨ x.kind = .out)) ∧ 64 ≤ (s.core.eng g).bq.length :=
  ⟨demo 32 .c { runner with engX := { Eng.fresh with bq := List.replicate 64 ⟨.out, 0, 0, 0⟩ } }, 32, .c, ⟨.outcome, 1, 0, 0⟩, rfl, by decide,
    .x, by decide, by decide⟩
/-- THFENCE whose completion token goes to the counter, and one whose token neither takes. -/
theorem witness_ThfenceToken : (∃ (f : Rrr) (s : State) (key : Nat) (e : EngTag) (s0 s1 : State) (g : Sig) (c : Cell), Starts (.thfence f) s key e s0
    ∧ (s0.core.jobsOf e).length < 64 ∧ s0.release key s0.curPart 1 = .ok s1 ∧ f.rs ≠ 5 ∧ f.hdr.sig = some g ∧ g.done = true
    ∧ s1.core.completeTok ⟨g.eng, g.cnt⟩ (some s.tick) = some c)
    ∧ ∃ (f : Rrr) (s : State) (key : Nat) (e : EngTag) (s0 s1 : State) (g : Sig), Starts (.thfence f) s key e s0
      ∧ (s0.core.jobsOf e).length < 64 ∧ s0.release key s0.curPart 1 = .ok s1 ∧ f.rs ≠ 5 ∧ f.hdr.sig = some g ∧ g.done = true
      ∧ s1.core.completeTok ⟨g.eng, g.cnt⟩ (some s.tick) = none := by
  refine ⟨⟨⟨⟨0, some ⟨.c, 3, true⟩, 1⟩, 0, 0, 0, 0, 2, 1, none⟩, world .a runner, 32, .a, _, _, ⟨.c, 3, true⟩, _, starts_of rfl rfl (by decide), by decide,
      rfl, by decide, rfl, rfl, rfl⟩,
    ⟨⟨0, some ⟨.c, 3, true⟩, 1⟩, 0, 0, 0, 0, 2, 1, none⟩, world .a { runner with engC := { Eng.fresh with tok := [(3, 255)], cq := List.replicate 32 3 } }, 32, .a, _, _, ⟨.c, 3, true⟩, starts_of rfl rfl (by decide), by decide,
      rfl, by decide, rfl, rfl, by decide⟩
/-- A range under the locks of an MDRAIN, and one beside them. -/
theorem witness_ScratchpadLocked : ∃ (s : State) (key : Nat), (s.cell key).phase ≠ .clearing ∧ (s.cell key).locked 31 2 = true
    ∧ (s.cell key).locked 16 16 = false :=
  ⟨demo 32 .a { runner with jobs := [{ (demo 32 .a runner).newJob (hd 5) (.mzero (r3 5 0 0 0 0 0 0)) with locks := [(32, 1)] }] }, 32, by decide, by decide,
    by decide⟩
/-- The last move of a buffer whose freeing waits for it. -/
theorem witness_LateFree : (∃ (s : State) (id : Nat) (b : Buffer), s.buf? id = some b ∧ b.freeing = true ∧ s.movesBuf b = false)
    ∧ ∃ (s : State) (id : Nat) (b : Buffer), s.buf? id = some b ∧ b.freeing = true ∧ s.movesBuf b = true :=
  ⟨⟨{ device with buffers := [(7, { page1 false 0 with freeing := true })] }, 7, _, rfl, rfl, by decide⟩,
    { moving .fetching (some (2 ^ 40)) with buffers := (moving .fetching (some (2 ^ 40))).buffers.map fun e => (e.1, { e.2 with freeing := true }) },
    7, _, rfl, rfl, by decide⟩
/-- UNPK of floats. -/
theorem witness_UnpkFloats : ∃ (f : Rrr) (s : State) (key : Nat) (s0 : State) (a : List Nat) (t : State), StartsX (.unpk f) s key s0 ∧ VType f.ty
    ∧ s0.vsrc f.a (ebits f) (litVal f.ty.toNat f.w1) = .ok (a, t) ∧ isFloatType f.ty.toNat = true ∧ f.rs.toNat < 5 :=
  ⟨r3 2 1 2 0 9 4 3, vec runner, 1056, _, _, _, ⟨starts_of rfl rfl (by decide), by decide⟩, by decide, rfl, rfl, by decide⟩

/-! ### Further clauses: turns of queues, causes, checks of an access -/

/-- The doorbell event of queue 0 arrived after an event of a node of the queue that is still pending. -/
theorem witness_PacketsWaitTheirTurn : ∃ (s : State) (q : Nat), s.oldest q ((s.queue q).bell.getD s.nextArrival) = false
    ∧ s.coreIdle = true ∧ s.lockHeld q = false :=
  ⟨{ runnable { readyNode with st := .retiring, arrival := 4 } with queues := [(0, { Queue.reset with bell := some 5 })] }, 0, by decide,
    by decide, rfl⟩
theorem witness_RetireBehindADoorbell : ∃ (s : State) (n : Nat) (d : Node) (b : Nat), s.node? n = some d ∧ d.st = .retiring
    ∧ (s.queue d.queue).bell = some b ∧ b < d.arrival :=
  ⟨{ runnable { readyNode with st := .retiring, arrival := 6 } with queues := [(0, { Queue.reset with bell := some 5 })] }, 0, _, 5, rfl,
    rfl, rfl, by decide⟩
/-- A CALLI to a target outside the section, one that pops its target, and one with 16 open calls. -/
theorem witness_CalliOutside : ∃ (f : Br) (s : State) (key : Nat) (e : EngTag) (s0 s1 : State) (v : Word), Starts (.calli f) s key e s0
    ∧ s.core.handler = none ∧ (s0.core.eng e).rstack.length < 16
    ∧ s1 = (s0.modEng fun g => { g with rstack := (g.pc + (if f.w1.isSome then 16 else 8)) :: g.rstack })
    ∧ e = (if f.prod then .a else .c) ∧ s1.readReg f.reg.toNat = .ok v ∧ v.toNat % 8 = 0 ∧ 8 * s1.curCode.length ≤ v.toNat :=
  ⟨bf 0 true 5 0, coded 32 .a { runner with a := [(5, 32)] } [0, 0, 0, 0], 32, .a, _, _, 32, starts_of rfl rfl (by decide), rfl, by decide,
    rfl, rfl, rfl, rfl, by decide⟩
theorem witness_CalliPops : ∃ (f : Br) (s : State) (key : Nat) (e : EngTag) (s0 s1 : State) (v : Word) (pos : Nat), Starts (.calli f) s key e s0
    ∧ s.core.handler = none ∧ (s0.core.eng e).rstack.length < 16
    ∧ s1 = (s0.modEng fun g => { g with rstack := (g.pc + (if f.w1.isSome then 16 else 8)) :: g.rstack })
    ∧ e ≠ (if f.prod then .a else .c) ∧ s1.headBq = .ok ⟨.target, v, s0.curPc, pos⟩ :=
  ⟨bf 0 true 5 0, coded 32 .x { runner with engX := { Eng.fresh with bq := [⟨.target, 24, 0, 0⟩] } } [0, 0, 0, 0], 32, .x, _, _, 24, 0,
    starts_of rfl rfl (by decide), rfl, by decide, rfl, by decide, rfl⟩
theorem witness_CalliFull : ∃ (f : Br) (s : State) (key : Nat) (s0 : State), Starts (.calli f) s key .c s0
    ∧ (s0.core.eng .c).rstack.length = 16 ∧ s.core.handler.isSome = true ∧ f.prod = true :=
  ⟨bf 0 true 5 0, demo 32 .c { runner with engC := { Eng.fresh with rstack := List.replicate 16 8 }, handler := some handling }, 32, _,
    starts_of rfl rfl (by decide), rfl, rfl, rfl⟩
/-- A REGION while an entry of a queue is left. -/
theorem witness_RegionLive : ∃ (f : Rrr) (s : State) (key : Nat) (s0 : State), Starts (.region f) s key .c s0 ∧ s.core.handler = none
    ∧ s0.allHere = true ∧ s0.core.jobs = [] ∧ (∀ g ∈ s0.core.live s0.curClass, (s0.core.eng g).rstack = [] ∧ (s0.core.eng g).lstack = [])
    ∧ s0.core.qa ≠ [] :=
  ⟨r3 7 0 0 0 0 0 0, demo 1056 .c { runner with engA := { Eng.fresh with issued := true }, engX := { Eng.fresh with issued := true }, qa := [7] },
    1056, _, starts_of rfl rfl (by decide), rfl, by decide, rfl, by decide, by decide⟩
/-- C writes ORDWATCH in a handler. -/
theorem witness_OrdwatchInAHandler : ∃ (s : State) (key : Nat) (e : EngTag) (t : State), s.cur = .cell key e ∧ s.core.handler.isSome = true
    ∧ s.csrWrite 0x012 1 = .ok t := ⟨demo 32 .c { runner with handler := some handling, ordLog := [(3, true)] }, 32, .c, _, rfl, rfl, rfl⟩
/-- A halted shard whose X waits for the others at a tag-7 word beyond the HALT. -/
theorem witness_HaltReportsPastAWait : ∃ (s : State) (key : Nat) (c : Cell), (s.cells.filter fun x => x.2.haltPc.isSome) = [(key, c)]
    ∧ c.haltPc = some 8 ∧ c.phase = .halted ∧ c.jobs = [] ∧ (c.eng .x).issued = true
    ∧ ∀ e, (c.eng e).done = true ∨ (c.eng e).issued = false ∨ (c.eng e).reason = 10 :=
  ⟨demo 32 .c { runner with phase := .halted, haltPc := some 8, engX := { Eng.fresh with issued := true, reason := 10 } }, 32, _, rfl, rfl, rfl,
    rfl, rfl, fun e => by cases e <;> first | exact .inr (.inl rfl) | exact .inr (.inr rfl)⟩
/-- TRBASE in a tile that is on its way: MARK waits for the move. -/
theorem witness_MarkHeld : ∃ (s : State) (id i : Nat) (w : Waiter) (g : Bool), (s.traceWrite 32 s.core.trbase false s.tick (markBytes s.tick 9 32)).1
    = .held id i w g ∧ s.core.trbase ≠ 0 := by
  refine ⟨{ windowed (moving .evicting (some (2 ^ 40))) with
      cur := .cell 32 .c, nodes := [(0, Node.runningOn 1 1)]
      cells := [(32, { runner with trbase := 0x100000000000, tlb := [(2 ^ 30, ⟨65536, 14, true⟩)] })] }, 7, 0, .word 32 .c 0 0, false, ?_, by decide⟩
  decide +kernel
/-- Watchpoint 1 of two faults on a store; another access matches neither. -/
def watched : State :=
  world .a { runner with watch := [⟨0x1000000, 8, 0x0, 0⟩, ⟨0x17FFFF8, 8, 0x102, 0⟩] }
def watchedStore : Acc := { addr := 0x17FFFF8, size := 8, align := 8, write := true }
theorem witness_WatchFires : ∃ (s : State) (key : Nat) (q : Acc) (i : Nat), canonical q.addr = true
    ∧ windowOf (s.apers (s.nodeCtx (s.cell key).node)) (addrVa q.addr) = some (0, 0x7FFFF8) ∧ q.addr.toNat % q.align = 0 ∧ q.watch = true
    ∧ Fires s key ⟨addrVa q.addr, q.size, q.kind, q.element.getD 0⟩ i := by
  refine ⟨watched, 32, watchedStore, 1, by decide, by decide, by decide, rfl, ⟨_, rfl, by decide, by decide, by decide⟩, ?_⟩
  intro j p h1 h2
  have h3 : j = 0 := by omega
  subst h3
  have h4 : (⟨0x1000000, 8, 0x0, 0⟩ : WatchPt) = p := Option.some.inj h2
  subst h4; decide
theorem witness_WatchPasses : ∃ (s : State) (key : Nat) (q : Acc), q.watch = true ∧ s.watchOf key ≠ []
    ∧ ∀ i, ¬ Fires s key ⟨addrVa q.addr, q.size, q.kind, q.element.getD 0⟩ i := by
  refine ⟨watched, 32, { watchedStore with write := false }, rfl, by decide, ?_⟩
  rintro i ⟨⟨p, h1, h2, h3, h4⟩, -⟩
  match i, h1 with
  | 0, h1 =>
    have h5 : (⟨0x1000000, 8, 0x0, 0⟩ : WatchPt) = p := Option.some.inj h1
    subst h5; exact absurd h2 (by decide)
  | 1, h1 =>
    have h5 : (⟨0x17FFFF8, 8, 0x102, 0⟩ : WatchPt) = p := Option.some.inj h1
    subst h5; exact absurd h4 (by decide)
  | n + 2, h1 =>
    have h5 : (none : Option WatchPt) = some p := h1
    cases h5
/-- A write to TARN, and accesses of GLOBAL: a page that is not mapped, one that the host may map, one without write
permission, one that is translated. -/
theorem witness_TarnWrite : ∃ (s : State) (key : Nat) (q : Acc) (off loc : Nat), canonical q.addr = true
    ∧ windowOf (s.apers (s.nodeCtx (s.cell key).node)) (addrVa q.addr) = some (2, off)
    ∧ s.beyond (keyChip key) (s.ctxPart (s.nodeCtx (s.cell key).node)) 2 off = false ∧ q.spadOnly = false ∧ q.write = true
    ∧ q.addr.toNat % q.align = 0 ∧ s.tarnAt (s.ctxPart (s.nodeCtx (s.cell key).node)) off = some loc
    ∧ s.tagServed key (s.ctxPart (s.nodeCtx (s.cell key).node)) loc (levelOf loc q.scope) q.row = addrTag q.addr :=
  ⟨world .a runner, 32, { addr := 0x1000000008, size := 8, align := 8, write := true, watch := false }, 8, 2 ^ 40 + 2 * 2 ^ 28 + 8, by decide,
    by decide, by decide, rfl, rfl, by decide, by decide, by decide⟩
theorem witness_GlobalUnmapped : ∃ (s s1 : State) (key : Nat) (q : Acc) (off : Nat), canonical q.addr = true
    ∧ windowOf (s.apers (s.nodeCtx (s.cell key).node)) (addrVa q.addr) = some (3, off) ∧ q.spadOnly = false ∧ q.addr.toNat % q.align = 0
    ∧ s.tlbLookup key (s.nodeCtx (s.cell key).node) (addrVa q.addr) = (.invalid false, s1) :=
  ⟨world .a runner, _, 32, { addr := 0x100000004000, size := 8, align := 8 }, 0x4000, by decide, by decide, rfl, by decide,
    Prod.ext (State.tlbLookup_invalid (c := ctx1) (by decide) (by decide) rfl (by decide) (by decide)) rfl⟩
theorem witness_GlobalReadOnly : ∃ (s s1 : State) (key : Nat) (q : Acc) (t : TlbEnt), canonical q.addr = true ∧ q.write = true
    ∧ s.tlbLookup key (s.nodeCtx (s.cell key).node) (addrVa q.addr) = (.leaf t, s1) ∧ t.w = false :=
  ⟨{ world .a runner with cells := [(32, { runner with tlb := [(2 ^ 30 + 1, ⟨0, 14, false⟩)] })] }, _, 32, { addr := 0x100000004000, size := 8, align := 8, write := true }, _,
    by decide, rfl, rfl, rfl⟩
theorem witness_GlobalPlaced : ∃ (s s1 : State) (key : Nat) (q : Acc) (t : TlbEnt) (loc : Nat), canonical q.addr = true ∧ q.write = true
    ∧ s.tlbLookup key (s.nodeCtx (s.cell key).node) (addrVa q.addr) = (.leaf t, s1) ∧ t.w = true
    ∧ loc = s1.locOf t (s.nodeCtx (s.cell key).node) (addrVa q.addr) q.shadow
    ∧ s1.tagServed key (s.ctxPart (s.nodeCtx (s.cell key).node)) loc (levelOf loc q.scope) q.row = addrTag q.addr :=
  ⟨world .a { runner with l1Tag := [(0, 0)] }, _, 32, { addr := 0x100000000008, size := 8, align := 8, write := true }, _, 8, by decide, rfl,
    rfl, rfl, by decide, by decide⟩

/-! ### Further clauses: stores, capabilities, copies, commands, scrubs, the journal -/

/-- C's path ahead of A: a write of ORDWATCH, a tag-7 word, and a word of X whose read stands behind them. -/
def undecided : State :=
  coded 32 .a { runner with
      engC := { Eng.fresh with pos := 0 }, path := [0, 8, 16], reads := [⟨.x, 2, 16, 8, 16⟩] }
    (encode (.csrs (ri 0 0 5 0x12)) ++ encode (.nop (r3 7 0 0 0 0 0 0)) ++ encode (.nop (r3 2 0 0 0 0 0 0)))
theorem witness_StoreWaitsForOrdwatch : ∃ (s : State) (off n : Nat), (s.cell 32).phase ≠ .clearing ∧ (s.cell 32).locked off n = false
    ∧ s.cur = .cell 32 .a ∧ s.ordWaits 32 .a (s.cell 32).engA.pos off n = true :=
  ⟨undecided, 23, 2, by decide, by decide, rfl, by decide⟩
/-- A CAPDROP of the last reference when 256 identities of the shard are kept. -/
theorem witness_CapdropHeld : ∃ (f : Rrr) (s : State) (key : Nat) (e : EngTag) (s0 : State) (c : Cap) (s1 : State) (b : Buffer),
    Starts (.capdrop f) s key e s0 ∧ s0.repeated = false ∧ s0.checkSlot f.rs.toNat 0 = .ok c ∧ s1 = s0.setSlot s0.curNode f.rs.toNat 0
    ∧ s1.buf? (capId c) = some b ∧ b.refs ≤ 1 ∧ 256 ≤ s1.myKept.length :=
  ⟨r3 1 0 0 0 0 15 0, { holder .a runner false 1 3 with keptCaps := List.replicate 256 ⟨⟨0, 0, 0, 0, .a, 8, 0⟩, 15, 1, true, false⟩ }, 32, .a, _,
    mkCap 7 3 5 9, _, _, starts_of rfl rfl (by decide), by decide +kernel, rfl, rfl, rfl, by decide, by decide +kernel⟩
/-- Ranges of TARN and GLOBAL, and one that leaves SELF at its end. -/
theorem witness_ReachOfTarnAndGlobal : ∃ (s : State) (key n off off1 : Nat) (a b : Word) (ws : List Word),
    ws = s.apers (s.nodeCtx (s.cell key).node) ∧ n ≠ 0 ∧ windowOf ws (addrVa a) = some (2, off) ∧ addrVa a + n ≤ nextEdge ws (addrVa a)
    ∧ windowOf ws (addrVa b) = some (3, off1) ∧ addrVa b + n ≤ nextEdge ws (addrVa b) :=
  ⟨world .a runner, 32, 8, 16, 32, 0x1000000010, 0x100000000020, _, rfl, by decide, by decide, by decide, by decide, by decide⟩
theorem witness_ReachAcrossAnEdge : ∃ (s : State) (key n : Nat) (a : Word) (ws : List Word), ws = s.apers (s.nodeCtx (s.cell key).node)
    ∧ nextEdge ws (addrVa a) < addrVa a + n ∧ addrVa a < nextEdge ws (addrVa a) :=
  ⟨world .a runner, 32, 16, 0x1FFFFF8, _, rfl, by decide, by decide⟩
/-- KAND that writes k0, and one that reads it; the RTT behind an RGO that has not taken the table. -/
theorem witness_MaskZero : ∃ (f g : Rrr) (s : State) (key : Nat) (s0 : State), Starts (.kand f) s key .x s0 ∧ f.d.toNat = 0
    ∧ Starts (.kand g) s key .x s0 ∧ g.a.toNat = 0 ∧ s0.core.stageOpen = false :=
  ⟨r3 2 0 5 3 0 0 0, r3 2 5 0 3 0 0 0, vec runner, 1056, _, starts_of rfl rfl (by decide), rfl, starts_of rfl rfl (by decide), rfl, by decide⟩
theorem witness_RttWaits : ∃ (f : Rrr) (s : State) (key : Nat) (e : EngTag) (s0 : State), Starts (.rtt f) s key e s0
    ∧ s0.core.handler = none ∧ s0.owes .w Instr.isRgo = true :=
  ⟨r3 0 5 3 0 0 0 0, coded 32 .c { runner with engC := { Eng.fresh with pos := 1, pc := 8 }, path := [0, 8] }
      (encode (.rgoNorm (r3 4 0 0 0 0 0 0)) ++ encode (.rtt (r3 0 5 3 0 0 0 0))), 32, .c, _, starts_of rfl rfl (by decide), rfl, by decide⟩
/-- A MZERO of accumulator 1, of which a row command of W still works in it. -/
theorem witness_MzeroBesideRows : ∃ (f : Rrr) (s : State) (key : Nat) (e : EngTag) (s0 : State), Starts (.mzero f) s key e s0
    ∧ s0.core.accBusy f.d.toNat = false ∧ s0.core.rowsAt f.d.toNat = true :=
  ⟨r3 3 1 0 0 0 2 0, dmx .m { runner with jobs := [{ copyJob with ins := .rgoNorm (r3 4 0 0 0 0 0 0), eng := .w, timetable := [1] }] }, 32, .m, _,
    starts_of rfl rfl (by decide), by decide, by decide⟩
/-- A context with two records that stand; one with none; an event ring and 1,024 kept events that are full. -/
def recordOf (code : BitVec 8) : FaultRec :=
  { tick := 0, cause := someCause code, chip := 1, cell := 0, node := 0, queue := 0, pkt := 0, ctx := 1, flatC := 0, flatD := 0, nested := false }
theorem witness_Condemned : ∃ (s : State) (ctx : Nat) (r : FaultRec) (rs : List FaultRec), s.eventRoom = true ∧ s.condemnedOf ctx = r :: rs
    ∧ rs ≠ [] := ⟨{ world .c runner with ctxs := [(1, { ctx1 with condemned := [recordOf 0xE1, recordOf 0xE2] })] }, 1, _, _, by decide, rfl, by decide⟩
theorem witness_NotCondemned : ∃ (s : State) (ctx : Nat), s.condemnedOf ctx = [] := ⟨world .c runner, 1, rfl⟩
theorem witness_EventsFull : ∃ (s : State) (k : Nat), (s.cell k).fatals ≠ [] ∧ (s.cell k).phase = .running ∧ s.eventRoom = false :=
  ⟨{ world .c { runner with fatals := [(0, someCause 0x20)] } with evKept := List.replicate 1024 [] }, 32, by decide, rfl, by decide +kernel⟩
/-- A message to a line of a tile that leaves the pool. -/
theorem witness_MessageHeld : ∃ (s : State) (chip i id j : Nat) (m : Msg) (w : Waiter), (s.die chip).out[i]? = some m
    ∧ mayGo ((s.die chip).out.take i) m = true ∧ s.perform chip m = .error (.tile id j w false) := by
  refine ⟨{ windowed (moving .evicting (some (2 ^ 40))) with dies := [(1, { Die.reset 1 with out := [{ lineMsg 0 with dest := 65536, writes := [⟨65539, 7⟩] }] })] },
    1, 0, 7, 0, _, .message 1 0 0, rfl, rfl, ?_⟩
  rfl
/-- M's drain is not finished, and C waits at a MARK. -/
theorem witness_MarkIsRetried : ∃ (s : State) (k : Nat) (f : Ri), (FMap.find? s.cells k).isSome = true
    ∧ (∀ j ∈ ((s.produceStamps k).cell k).jobs, j.finished = false ∨ j.eng ≠ .m) ∧ ((s.produceStamps k).cell k).jobs ≠ []
    ∧ ((s.produceStamps k).cell k).engC.issued = true ∧ (s.produceStamps k).cInstr k = some (.mark f) :=
  ⟨coded 32 .c { runner with engC := { Eng.fresh with issued := true, reason := 12 }, jobs := [mgoWork] } (encode (.mark (ri 0 5 6 2))), 32,
    ri 0 5 6 2, rfl, by decide, by decide, by decide, by decide⟩
/-- A node whose class has room, past FBWAIT; a PREEMPT of a node in PROLOGUE of a context that is not active. -/
theorem witness_FallbackFits : ∃ (s : State) (n : Nat) (d : Node) (o : CodeObj), s.node? n = some d ∧ FMap.find? s.objects d.kobj = some o
    ∧ d.clsSince + s.fbwait (s.ctxPart d.ctx) ≤ s.tick ∧ s.fits d o = true :=
  ⟨{ starving 2 with cells := [], dies := [(1, { Die.reset 1 with part := 1 })], fbwaits := [(1, 9)] }, 0, _, _, rfl, rfl, by decide, by decide⟩
theorem witness_PreemptAPrologue : ∃ (s : State) (c : Cmd) (d : Node) (p : Part), Taken s c ∧ c.w0 = 0 ∧ c.w1.toNat < 2 ^ 16
    ∧ s.node? c.w1.toNat = some d ∧ d.st = .prologue ∧ s.part? (s.ctxPart d.ctx) = some p ∧ p.activeCtx ≠ d.ctx :=
  ⟨{ device with parts := [(1, { part1 with activeCtx := 2 })], nodes := [(9, { readyNode with st := .prologue })] }, cmd 0 9 0 0 0 0, _, _,
    ⟨rfl, rfl⟩, rfl, by decide, rfl, rfl, rfl, by decide⟩
theorem witness_UnknownPartition : ∃ (s : State) (c : Cmd), Taken s c ∧ s.part? c.w0.toNat = none ∧ c.w2.toNat ≤ 1 ∧ c.w5 = 0 ∧ 1 ≤ c.w1.toNat
    ∧ c.w1.toNat ≤ 4 ∧ c.w3.toNat ≤ 2 ∧ c.w4 = 0 := ⟨device, cmd 15 4 1 2 0 0, ⟨rfl, rfl⟩, rfl, by decide, rfl, by decide, by decide, by decide, rfl⟩
theorem witness_Doorbells : ∃ (s t : State) (q b : Nat), q < 4096 ∧ (s.queue q).bell = some b ∧ (t.queue q).bell = none :=
  ⟨{ device with queues := [(4095, { Queue.reset with bell := some 3 })] }, device, 4095, 3, by decide, rfl, rfl⟩
/-- Bad granules of HBM frame 0: the first and the last of a range, and the one behind it; one that a write-back met. -/
theorem witness_BadIn : ∃ (s : State) (place n : Nat), place % 64 = 0 ∧ n % 64 = 0 ∧ (place / 64, true) ∈ s.bad
    ∧ ((place + n - 64) / 64, true) ∈ s.bad ∧ ((place + n) / 64, true) ∈ s.bad ∧ (place + n) ∉ s.badIn place n
    ∧ place ∈ s.badIn place n :=
  ⟨{ device with bad := [(1, true), (2, true), (3, true)] }, 64, 128, by decide, by decide, by decide, by decide, by decide, by decide, by decide⟩
theorem witness_WriteBackError : ∃ (s : State) (p : Nat), p < 2 ^ 40 ∧ s.ueFound = [p] := ⟨{ device with ueFound := [64] }, 64, by decide, rfl⟩
/-- Places beyond data: a clean and a dirty line of a die cache, of an L1, an entry of each TLB, and a restart record. -/
def cached : State :=
  { device with
    dies := [(1, { Die.reset 1 with part := 1, dcache := [(64, false), (128, true)], tlb := [(2 ^ 30, ⟨0, 14, true⟩)] })]
    cells := [(32, { runner with l1 := [(64, ⟨1, false⟩), (128, ⟨2, true⟩)], l1Tag := [(64, 0), (128, 0)], tlb := [(2 ^ 30, ⟨0, 14, true⟩)] })]
    nodes := [(0, Node.runningOn 1 1)] }
theorem witness_ScrubCaches : cached.scrubbed 1 (2 ^ 100 + 64) = .cached 64 ∧ cached.scrubbed 1 (2 ^ 100 + 128) = .dirty 128
    ∧ cached.knownBad 1 (2 ^ 100 + 128) = false := by decide
theorem witness_ScrubL1 : cached.scrubbed 1 (2 * 2 ^ 100 + 64) = .l1 32 64 ∧ cached.scrubbed 1 (2 * 2 ^ 100 + 128) = .l1 32 128
    ∧ (∀ e ∈ (cached.cell 32).l1, lineOf e.1 = 64 → e.2.dirty = false)
    ∧ (∃ e ∈ (cached.cell 32).l1, lineOf e.1 = 128 ∧ e.2.dirty = true) := by decide
theorem witness_ScrubTlbs : cached.scrubbed 1 (3 * 2 ^ 100 + 7) = .dieTlb 7
    ∧ cached.scrubbed 1 (3 * 2 ^ 100 + 2 ^ 90 + 7) = .cellTlb 32 7 := by decide
theorem witness_ScrubRecord : cached.scrubbed 1 (4 * 2 ^ 100) = .record 1 ∧ cached.knownBad 1 (4 * 2 ^ 100) = false := by decide
/-- A loss of power while a boot logs; the copies of a slot of which one is cut short. -/
theorem witness_PowerLossMidBoot : ∃ s : State, s.booting.isSome = true ∧ ({ s with powered := true } : State).powered = true :=
  ⟨booting 1 0 true, rfl, rfl⟩
def entryOf (seq : Nat) : JEnt := ⟨1, 0, 0, 0, 0, seq⟩
theorem witness_CopiesOfTheJournal : copyGood (entryOf 3).bytes = true ∧ copyGood (entryOf 4).bytes = true
    ∧ fieldAt (entryOf 3).bytes 0x10 4 < fieldAt (entryOf 4).bytes 0x10 4
    ∧ copyGood ((entryOf 4).bytes.take 20 ++ (entryOf 3).bytes.drop 20) = false := by decide +kernel

end Sys2Proof.Tests
end

