-- ==== Sys2Proof/Proofs/MemoryRanges.lean ====
section
/-! SUPPORT. Canonical maps as functions: a range read entry by entry, and maps that read alike are equal. -/

namespace Sys2Proof.Machine

variable {α : Type}

theorem FMap.get_cons (k : Nat) (v : α) (m : FMap α) (i : Nat) (d : α) :
    FMap.get ((k, v) :: m) i d = if i = k then v else FMap.get m i d := by
  by_cases h : i = k <;> simp [FMap.get, FMap.find?, h]

/-- Below every key of a map nothing is listed. -/
theorem FMap.get_of_above {m : FMap α} {k i : Nat} (d : α) (h : FMap.above m k) (hi : i ≤ k) : FMap.get m i d = d := by
  induction m with
  | nil => rfl
  | cons e m ih =>
    have he : k < e.1 := h e (by simp)
    rw [FMap.get_cons, if_neg (by omega), ih fun x hx => h x (List.mem_cons_of_mem _ hx)]

/-! ## A range is read entry by entry -/

/-- A sorted map with no key below `i` begins with the key `i`, or lies above it. -/
theorem FMap.head_or_above {m : FMap α} {i : Nat} (hs : FMap.sorted m = true) (hi : ∀ e ∈ m, i ≤ e.1) :
    (∃ v n, m = (i, v) :: n ∧ FMap.above n i ∧ FMap.sorted n = true) ∨ FMap.above m i := by
  cases m with
  | nil => exact .inr (by simp [FMap.above])
  | cons e n =>
    obtain ⟨ha, hn⟩ := (FMap.sorted_cons e n).1 hs
    have hie : i ≤ e.1 := hi e (by simp)
    by_cases h : e.1 = i
    · subst h
      exact .inl ⟨e.2, n, rfl, ha, hn⟩
    · exact .inr (List.forall_mem_cons.2 ⟨by omega, fun x hx => Nat.lt_of_le_of_lt hie (ha x hx)⟩)

/-- What the list of a slice holds at a place: the entry under that number. -/
theorem FMap.toList_getD (d : α) (n i k : Nat) (m : FMap α) (hs : FMap.sorted m = true) (hi : ∀ e ∈ m, i ≤ e.1) (hk : k < n) :
    (FMap.toList d n i m).getD k d = FMap.get m (i + k) d := by
  induction n generalizing i k m with
  | zero => omega
  | succ n ih =>
    rcases FMap.head_or_above hs hi with ⟨v, t, rfl, ha, ht⟩ | ha
    · rw [FMap.toList, if_pos rfl, FMap.get_cons]
      cases k with
      | zero => simp
      | succ k =>
        rw [List.getD_cons_succ, ih (i + 1) k t ht ha (by omega), if_neg (by omega), Nat.add_right_comm, Nat.add_assoc]
    · rw [FMap.toList_above d n i m ha]
      cases k with
      | zero => rw [List.getD_cons_zero, Nat.add_zero, FMap.get_of_above d ha (Nat.le_refl i)]
      | succ k => rw [List.getD_cons_succ, ih (i + 1) k m hs ha (by omega), Nat.add_right_comm, Nat.add_assoc]

/-- A slice reads as its map does from the base on. -/
theorem FMap.get_slice (m : FMap α) (b n k : Nat) (d : α) (hk : k < n) :
    FMap.get (FMap.slice m b n) k d = FMap.get m (b + k) d := by
  induction m with
  | nil => rfl
  | cons e m ih =>
    unfold FMap.slice at ih ⊢
    rw [List.filter_cons, FMap.get_cons]
    split
    · next h =>
      have : b ≤ e.1 ∧ e.1 < b + n := by simpa using h
      rw [List.map_cons, FMap.get_cons, ih]
      by_cases hb : b + k = e.1
      · rw [if_pos hb, if_pos (by omega)]
      · rw [if_neg hb, if_neg (by omega)]
    · next h =>
      have : ¬ (b ≤ e.1 ∧ e.1 < b + n) := by simpa using h
      rw [ih, if_neg (by omega)]

/-- An entry of a range read from a canonical map. -/
theorem FMap.getRange_getD [DecidableEq α] {m : FMap α} {d : α} (b n k : Nat) (h : FMap.wf m d = true) (hk : k < n) :
    (FMap.getRange m b n d).getD k d = FMap.get m (b + k) d := by
  have hs := ((FMap.wf_iff _ _).1 (FMap.wf_slice b n h).1).1
  rw [FMap.getRange, FMap.toList_getD d n 0 k _ hs (by simp) hk, Nat.zero_add, FMap.get_slice m b n k d hk]

theorem Memory.readN_getD {m : Memory} (a n k : Nat) (h : Memory.wf m = true) (hk : k < n) :
    (Memory.readN m a n).getD k 0 = Memory.read m (a + k) := FMap.getRange_getD a n k h hk

/-! ## Bytes of a range written -/

/-- A byte of a range that has been written. -/
theorem Memory.read_writeN_same {m : Memory} (a : Nat) (bs : List Byte) {k : Nat} (h : Memory.wf m = true) (hk : k < bs.length) :
    Memory.read (Memory.writeN m a bs) (a + k) = bs.getD k 0 := by
  rw [← Memory.readN_getD a bs.length k (Memory.wf_writeN a bs h) hk]
  exact congrArg (fun l => List.getD l k 0) (FMap.getRange_setRange_same m a bs Memory.default)

/-- A write of a range leaves every other byte alone. -/
theorem Memory.read_writeN_ne {m : Memory} (a : Nat) (bs : List Byte) {c : Nat} (h : Memory.wf m = true)
    (hc : c < a ∨ a + bs.length ≤ c) : Memory.read (Memory.writeN m a bs) c = Memory.read m c := by
  have hr : Memory.readN (Memory.writeN m a bs) c 1 = Memory.readN m c 1 :=
    FMap.getRange_setRange_ne m a bs Memory.default c 1 (by omega)
  calc Memory.read (Memory.writeN m a bs) c
      = (Memory.readN (Memory.writeN m a bs) c 1).getD 0 0 := (Memory.readN_getD c 1 0 (Memory.wf_writeN a bs h) (by omega)).symm
    _ = (Memory.readN m c 1).getD 0 0 := by rw [hr]
    _ = Memory.read m c := Memory.readN_getD c 1 0 h (by omega)

/-! ## Canonical maps that read alike -/

/-- The canonical form of a map with a first entry. -/
theorem FMap.wf_cons [DecidableEq α] (e : Nat × α) (m : FMap α) (d : α) :
    FMap.wf (e :: m) d = true ↔ e.2 ≠ d ∧ FMap.above m e.1 ∧ FMap.wf m d = true := by
  simp only [FMap.wf_iff, FMap.sorted_cons, List.mem_cons, forall_eq_or_imp]
  tauto

/-- Two canonical maps with first entries that read alike have the same first key: the lower one would read as no default in
one map alone. -/
theorem FMap.key_le_of_get_eq [DecidableEq α] {e f : Nat × α} {m n : FMap α} {d : α} (he : FMap.wf (e :: m) d = true)
    (hf : FMap.wf (f :: n) d = true) (h : ∀ c, FMap.get (e :: m) c d = FMap.get (f :: n) c d) : f.1 ≤ e.1 := by
  obtain ⟨hv, -, -⟩ := (FMap.wf_cons e m d).1 he
  obtain ⟨-, ha, -⟩ := (FMap.wf_cons f n d).1 hf
  by_contra hlt
  have hx := h e.1
  rw [FMap.get_cons, FMap.get_cons, if_pos rfl, if_neg (by omega), FMap.get_of_above d ha (by omega)] at hx
  exact hv hx

theorem FMap.eq_of_get_eq [DecidableEq α] {m n : FMap α} {d : α} (hm : FMap.wf m d = true) (hn : FMap.wf n d = true)
    (h : ∀ c, FMap.get m c d = FMap.get n c d) : m = n := by
  induction m generalizing n with
  | nil =>
    cases n with
    | nil => rfl
    | cons f n =>
      have hf := h f.1
      rw [FMap.get_cons, if_pos rfl] at hf
      exact absurd hf.symm ((FMap.wf_cons f n d).1 hn).1
  | cons e m ih =>
    obtain ⟨he, hea, hm'⟩ := (FMap.wf_cons e m d).1 hm
    cases n with
    | nil =>
      have hx := h e.1
      rw [FMap.get_cons, if_pos rfl] at hx
      exact absurd hx he
    | cons f n =>
      obtain ⟨-, hfa, hn'⟩ := (FMap.wf_cons f n d).1 hn
      have hk : e.1 = f.1 :=
        Nat.le_antisymm (FMap.key_le_of_get_eq hn hm fun c => (h c).symm) (FMap.key_le_of_get_eq hm hn h)
      have hv : e.2 = f.2 := by
        have hx := h e.1
        rwa [FMap.get_cons, FMap.get_cons, if_pos rfl, if_pos hk] at hx
      have ht : ∀ c, FMap.get m c d = FMap.get n c d := by
        intro c
        by_cases hc : c = e.1
        · rw [FMap.get_of_above d hea (by omega), FMap.get_of_above d hfa (by omega)]
        · have hx := h c
          rwa [FMap.get_cons, FMap.get_cons, if_neg hc, if_neg (by omega)] at hx
      rw [ih hm' hn' ht, Prod.ext hk hv]

/-- Settles O6: the form and the bytes come from the laws of ranges, equality of memories from canonical maps being equal
where they read alike. -/
theorem memoryReadsWhatWasWritten : Obligations.MemoryReadsWhatWasWritten := by
  intro m a bs h
  exact ⟨Memory.wf_writeN a bs h, FMap.getRange_setRange_same m a bs Memory.default,
    fun _ hk => Memory.read_writeN_same a bs h hk, fun _ hc => Memory.read_writeN_ne a bs h hc,
    fun _ h' hr => FMap.eq_of_get_eq h h' hr⟩

end Sys2Proof.Machine
end

