-- ==== Sys2Proof/Proofs/SpecialRegisters.lean ====
section
/-! SUPPORT. The special registers of a cell (R62 to R71, R417, R437): what each stores, and what CSRR and the writing words
make of it (R136). -/

namespace Sys2Proof.Machine

variable {s : State} {key : Nat} {e : EngTag}

/-! ## The words: CSRR, CSRW, CSRS, CSRC -/

/-- A pop changes nothing of which engine executes. -/
theorem State.popQ_cur {s t : State} {w : Word} (h : s.popQ = .ok (w, t)) : t.cur = s.cur := by
  unfold State.popQ at h
  dsimp only at h
  split at h
  case h_4 => cases h
  all_goals
    split at h
    · cases h; exact State.setCore_cur s _
    · cases h

/-- Reading a scalar source changes nothing of which engine executes. -/
theorem State.src_cur {s t : State} {code : BitVec 8} {lit w : Word} (h : s.src code lit = .ok (w, t)) : t.cur = s.cur := by
  unfold State.src at h
  split at h
  · cases h; rfl
  · split at h
    · split at h
      · cases h
      · exact State.popQ_cur h
    · split at h
      · cases hr : s.readReg code.toNat with
        | error x => rw [hr] at h; cases h
        | ok v => rw [hr] at h; cases h; rfl
      · cases h

theorem State.csrOld_cell (hc : s.cur = .cell key e) (n : Nat) : s.csrOld n = .ok (s.csrRead n) := by
  simp only [State.csrOld, hc]

theorem State.afterTakers_ok {g : EngTag} {p : Instr → Bool} (h : s.owes g p = false) : s.afterTakers g p = .ok () := by
  simp [State.afterTakers, h]

/-- The body of a CSR word that writes: the register is written after its old value is taken. -/
def csrBody (f : Ri) (fn : Word → Word → Word) (s : State) : M (State × Next) := seqM do
  let n := Ri.csr f
  if 0x200 ≤ n ∧ n ≤ 0x202 then s.afterTakers .m Instr.isMgo
  let (a, s) ← s.src f.a (litVal 0 f.w1)
  let old ← s.csrOld n
  let s ← match s.cur with
    | .cell _ _ => s.csrWrite n (fn old a)
    | .prologue node => s.launchWrite node n (fn old a)
  s.dst f.d old

theorem csrForm_eq (onP : Bool) (f : Ri) (fn : Word → Word → Word) (s : State) :
    csrForm onP f fn s = runWord f.hdr f.w1.isSome onP (csrBody f fn) s := rfl

/-- On a cell the body ends once C need not wait for M (R437), its source is read, and the register and D take their values. -/
theorem csrBody_ok {f : Ri} {fn : Word → Word → Word} {s1 s2 t : State} {a old : Word} (hc : s.cur = .cell key e)
    (hm : 0x200 ≤ Ri.csr f → 0x202 < Ri.csr f ∨ s.owes .m Instr.isMgo = false) (ha : s.src f.a (litVal 0 f.w1) = .ok (a, s1))
    (ho : old = s1.csrRead (Ri.csr f)) (hw : s1.csrWrite (Ri.csr f) (fn old a) = .ok s2) (hd : s2.dst f.d old = .ok t) :
    csrBody f fn s = .ok (t, .seq) := by
  have hc1 : s1.cur = .cell key e := (State.src_cur ha).trans hc
  have hwait : 0x200 ≤ Ri.csr f ∧ Ri.csr f ≤ 0x202 → s.afterTakers .m Instr.isMgo = .ok () := fun h =>
    State.afterTakers_ok ((hm h.1).resolve_left (by omega))
  subst ho
  unfold csrBody
  by_cases h : 0x200 ≤ Ri.csr f ∧ Ri.csr f ≤ 0x202
  · simp [h, hwait h, ha, State.csrOld_cell hc1, hc1, hw, hd, seqM, bind, Except.bind]
  · simp [h, ha, State.csrOld_cell hc1, hc1, hw, hd, seqM, bind, Except.bind]

theorem csrWordsComplete : Claims.CsrWordsComplete := by
  refine ⟨fun f s key e s0 t st hd => ?_, fun f s key e i s0 a old v s1 s2 t hi st hm ha ho hw hd => ?_⟩
  · exact ends_of st rfl rfl (fun _ => rfl) (by
      simp [State.csrOld_cell st.cur, Ri.csr, hd, seqM, bind, Except.bind])
  · rcases hi with ⟨rfl, rfl⟩ | ⟨rfl, rfl⟩ | ⟨rfl, rfl⟩
    · exact ends_of st rfl rfl (csrForm_eq true f fun _ a => a) (csrBody_ok st.cur hm ha ho hw hd)
    · exact ends_of st rfl rfl (csrForm_eq false f fun old a => old ||| a) (csrBody_ok st.cur hm ha ho hw hd)
    · exact ends_of st rfl rfl (csrForm_eq false f fun old a => old &&& ~~~a) (csrBody_ok st.cur hm ha ho hw hd)

/-! ## What each register stores -/

/-- A word cut to its low bits, read back as a word. -/
theorem setWidth_word_eq_and (w : Word) (k : Nat) (hk : k ≤ 64) : (w.setWidth k).setWidth 64 = w &&& BitVec.ofNat 64 (2 ^ k - 1) := by
  have hp : 2 ^ k ≤ 2 ^ 64 := Nat.pow_le_pow_right (by omega) hk
  have hp0 : 0 < 2 ^ k := Nat.two_pow_pos k
  apply BitVec.eq_of_toNat_eq
  rw [BitVec.toNat_and, BitVec.toNat_ofNat, Nat.mod_eq_of_lt (by omega), Nat.and_two_pow_sub_one_eq_mod, BitVec.toNat_setWidth,
    BitVec.toNat_setWidth, Nat.mod_eq_of_lt (a := w.toNat % 2 ^ k) (Nat.lt_of_lt_of_le (Nat.mod_lt _ hp0) hp)]

/-- The flags of a word with those raised in the same cycle, cut to the register's width. -/
theorem setWidth_or_flags (w : Word) (k : Nat) (now : BitVec k) (hk : k ≤ 64) :
    w.setWidth k ||| now = (w ||| now.setWidth 64).setWidth k := by
  rw [BitVec.setWidth_or, BitVec.setWidth_setWidth_of_le now hk, BitVec.setWidth_eq]

/-- A register that is written by replacing the core reads as the new core shows it. -/
theorem csrRead_of_csrWrite {n : Nat} {w : Word} {c : Cell} {t : State} {r : Cell → Word} (hc : s.cur = .cell key e)
    (hr : ∀ t : State, t.csrRead n = r t.core) (hw : s.csrWrite n w = .ok (s.setCore c)) (h : s.csrWrite n w = .ok t) :
    t = s.setCore c ∧ t.csrRead n = r c := by
  obtain rfl : s.setCore c = t := Except.ok.inj (hw.symm.trans h)
  exact ⟨rfl, by rw [hr, State.core_setCore hc]⟩

/-- FPSTAT keeps the flags raised in the same cycle (R25). -/
theorem csrWrite_fpstat (hc : s.cur = .cell key e) (w : Word) (t : State) (h : s.csrWrite 0x001 w = .ok t) :
    t = s.setCore { s.core with fpstat := w.setWidth 6 ||| s.core.nowFp }
      ∧ t.csrRead 0x001 = (w ||| s.core.nowFp.setWidth 64) &&& 0x3F := by
  obtain ⟨ht, hr⟩ := csrRead_of_csrWrite hc (r := fun c => c.fpstat.setWidth 64) (fun _ => rfl) rfl h
  refine ⟨ht, hr.trans ?_⟩
  dsimp only
  rw [setWidth_or_flags _ _ _ (by omega)]
  exact setWidth_word_eq_and _ 6 (by omega)

/-- MSTAT's flags are its low three bits. -/
theorem Cell.mstatWord_mod (c : Cell) : c.mstatWord % 8 = c.mstat.toNat := by
  have := c.mstat.isLt
  simp only [Cell.mstatWord]
  split <;> split <;> omega

/-- MSTAT above its flags shows whether M works, and the validity of SHCOORD. -/
theorem Cell.mstatWord_div (c : Cell) :
    c.mstatWord / 8 = (if (c.jobs.any fun j => j.eng == .m) then 32 else 0) + (if c.shv then 64 else 0) := by
  have := c.mstat.isLt
  simp only [Cell.mstatWord]
  split <;> split <;> omega

theorem csrRead_mstat_toNat (t : State) : (t.csrRead 0x002).toNat = t.core.mstatWord := by
  have hlt : t.core.mstatWord < 2 ^ 64 := by
    have := t.core.mstatWord_div
    split at this <;> split at this <;> omega
  exact (BitVec.toNat_ofNat _ _).trans (Nat.mod_eq_of_lt hlt)

/-- MSTAT keeps the flags raised in the same cycle (R25); no write changes what stands above them. -/
theorem csrWrite_mstat (hc : s.cur = .cell key e) (w : Word) (t : State) (h : s.csrWrite 0x002 w = .ok t) :
    t = s.setCore { s.core with mstat := w.setWidth 3 ||| s.core.nowM }
      ∧ (t.csrRead 0x002).toNat % 8 = (w ||| s.core.nowM.setWidth 64).toNat % 8
      ∧ (t.csrRead 0x002).toNat / 8 = (s.csrRead 0x002).toNat / 8 := by
  cases h
  refine ⟨rfl, ?_, ?_⟩ <;> simp only [csrRead_mstat_toNat, State.core_setCore hc]
  · rw [Cell.mstatWord_mod]
    exact (congrArg BitVec.toNat (setWidth_or_flags w 3 s.core.nowM (by omega))).trans (BitVec.toNat_setWidth 3 _)
  · rw [Cell.mstatWord_div, Cell.mstatWord_div]

/-- WINSLIP is clamped (R68). -/
theorem csrWrite_winslip (hc : s.cur = .cell key e) (w : Word) (t : State) (h : s.csrWrite 0x011 w = .ok t) :
    t = s.setCore { s.core with winslip := min (max (w.toNat % 2 ^ 13) 16) 4096 }
      ∧ (t.csrRead 0x011).toNat = min (max (w.toNat % 2 ^ 13) 16) 4096 := by
  obtain ⟨ht, hr⟩ := csrRead_of_csrWrite hc (r := fun c => BitVec.ofNat 64 c.winslip) (fun _ => rfl) rfl h
  have hlt : winOf w < 2 ^ 64 := Nat.lt_of_le_of_lt (Nat.min_le_right _ 4096) (by omega)
  exact ⟨ht, by rw [hr]; exact (BitVec.toNat_ofNat _ _).trans (Nat.mod_eq_of_lt hlt)⟩

/-- In handler mode a write of ORDWATCH is in force at every position at once (R406; log entry 138). -/
theorem Cell.ordAt_handlerOrd (c : Cell) (on : Bool) (n : Nat) : (c.handlerOrd on).ordAt n = on := rfl

/-- ORDWATCH reads as its one stored bit. -/
theorem ordwatch_word (w : Word) : (if w.getLsbD 0 then 1 else 0 : Word) = w &&& 1 := by
  have hand : w &&& 1 = (BitVec.ofBool (w.getLsbD 0)).setWidth 64 := BitVec.and_one_eq_setWidth_ofBool_getLsbD
  rw [hand]
  cases w.getLsbD 0 <;> rfl

/-- ORDWATCH stores EN: for the words after it, or in handler mode for every position. -/
theorem csrWrite_ordwatch (hc : s.cur = .cell key e) (w : Word) (t : State) (h : s.csrWrite 0x012 w = .ok t) :
    t.csrRead 0x012 = w &&& 1
      ∧ (s.core.handler = none → t = s.setCore { s.core with ordwatch := w.getLsbD 0 })
      ∧ (s.core.handler.isSome = true → ∀ n, t.core.ordAt n = w.getLsbD 0) := by
  obtain ⟨ht, hr⟩ := csrRead_of_csrWrite hc (r := fun c => if c.ordwatch then 1 else 0) (fun _ => rfl) rfl h
  by_cases hh : s.core.handler.isSome = true
  · rw [if_pos hh] at ht hr
    refine ⟨hr.trans (ordwatch_word w), fun hn => ?_, fun _ n => ?_⟩
    · rw [hn] at hh; cases hh
    · rw [ht, State.core_setCore hc, Cell.ordAt_handlerOrd]
  · rw [if_neg hh] at ht hr
    exact ⟨hr.trans (ordwatch_word w), fun _ => ht, fun h' => absurd h' hh⟩

/-- PADVAL stores its 32 bits. -/
theorem csrWrite_padval (hc : s.cur = .cell key e) (w : Word) (t : State) (h : s.csrWrite 0x013 w = .ok t) :
    t = s.setCore { s.core with padval := w.setWidth 32 } ∧ t.csrRead 0x013 = w &&& 0xFFFFFFFF := by
  obtain ⟨ht, hr⟩ := csrRead_of_csrWrite hc (r := fun c => c.padval.setWidth 64) (fun _ => rfl) rfl h
  exact ⟨ht, hr.trans (setWidth_word_eq_and w 32 (by omega))⟩

/-- EPC stores the bits of a word address. -/
theorem csrWrite_epc (hc : s.cur = .cell key e) (w : Word) (t : State) (h : s.csrWrite 0x180 w = .ok t) :
    t.csrRead 0x180 = w &&& 0x01FFFFFFFFFFFFF8 :=
  (csrRead_of_csrWrite hc (r := fun c => c.epc) (fun _ => rfl) rfl h).2

/-- TRCTL stores its two bits (R437). -/
theorem csrWrite_trctl (hc : s.cur = .cell key e) (w : Word) (t : State) (h : s.csrWrite 0x200 w = .ok t) :
    t.csrRead 0x200 = w &&& 3 :=
  (csrRead_of_csrWrite hc (r := fun c => c.trctl.setWidth 64) (fun _ => rfl) rfl h).2.trans
    (setWidth_word_eq_and w 2 (by omega))

/-- TRBASE stores the word (R437). -/
theorem csrWrite_trbase (hc : s.cur = .cell key e) (w : Word) (t : State) (h : s.csrWrite 0x201 w = .ok t) :
    t.csrRead 0x201 = w :=
  (csrRead_of_csrWrite hc (r := fun c => c.trbase) (fun _ => rfl) rfl h).2

/-- STTILE stores its 32 bits (R437). -/
theorem csrWrite_sttile (hc : s.cur = .cell key e) (w : Word) (t : State) (h : s.csrWrite 0x202 w = .ok t) :
    t.csrRead 0x202 = w &&& 0xFFFFFFFF :=
  (csrRead_of_csrWrite hc (r := fun c => c.sttile.setWidth 64) (fun _ => rfl) rfl h).2.trans
    (setWidth_word_eq_and w 32 (by omega))

/-- A write of a read-only register changes nothing (R62 refuses the writing words at decode). -/
theorem csrWrite_readOnly (s : State) (w : Word) (n : Nat)
    (hn : n ∈ [0x010, 0x015, 0x018, 0x01D, 0x040, 0x060, 0x07F, 0x100, 0x110, 0x181, 0x182, 0x183, 0x203]) :
    s.csrWrite n w = .ok s := by
  simp only [List.mem_cons, List.not_mem_nil, or_false] at hn
  rcases hn with rfl | rfl | rfl | rfl | rfl | rfl | rfl | rfl | rfl | rfl | rfl | rfl | rfl <;> rfl

/-! ## Watchpoints (R417) -/

/-- A register of a watchpoint: WPBASE, WPLEN, WPCTL, WPCNT. -/
def WatchPt.reg (p : WatchPt) (r : Nat) : Word :=
  match r with
  | 0 => p.base
  | 1 => p.len
  | 2 => p.ctl
  | _ => BitVec.ofNat 64 p.cnt

/-- A write of WPBASE leaves the other registers of its watchpoint alone. -/
theorem WatchPt.reg_write_base_ne (p : WatchPt) (w : Word) {r : Nat} (hr : r ≠ 0) : (p.write 0 w).reg r = p.reg r := by
  match r, hr with
  | 1, _ => rfl
  | 2, _ => rfl
  | _ + 3, _ => rfl

/-- A register of one watchpoint of a cell written. -/
def Cell.writeWatch (c : Cell) (i r : Nat) (w : Word) : Cell :=
  { c with watch := (List.range 8).map fun j => if j = i then (c.wp j).write r w else c.wp j }

theorem Cell.wp_writeWatch (c : Cell) (i r : Nat) (w : Word) {j : Nat} (hj : j < 8) :
    (c.writeWatch i r w).wp j = if j = i then (c.wp j).write r w else c.wp j := by
  simp [Cell.wp, Cell.writeWatch, nthD, hj]

theorem csrRead_watch (t : State) {n : Nat} (h1 : 0x1C0 ≤ n) (h2 : n ≤ 0x1DF) :
    t.csrRead n = (t.core.wp ((n - 0x1C0) / 4)).reg (n % 4) := by
  simp (disch := omega) only [State.csrRead, WatchPt.reg, if_neg, if_pos] <;> rfl

theorem csrWrite_watch (s : State) (w : Word) {n : Nat} (h1 : 0x1C0 ≤ n) (h2 : n ≤ 0x1DF) :
    s.csrWrite n w = .ok (s.setCore (s.core.writeWatch ((n - 0x1C0) / 4) (n % 4) w)) := by
  simp (disch := omega) only [State.csrWrite, Cell.writeWatch, if_neg, if_pos]

/-- WPBASE stores an address, and leaves every other watchpoint register alone. -/
theorem csrWrite_wpbase (hc : s.cur = .cell key e) (w : Word) (i : Nat) (t : State) (hi : i < 8)
    (h : s.csrWrite (0x1C0 + 4 * i) w = .ok t) :
    t.csrRead (0x1C0 + 4 * i) = BitVec.ofNat 64 (addrVa w)
      ∧ ∀ n, 0x1C0 ≤ n → n ≤ 0x1DF → n ≠ 0x1C0 + 4 * i → t.csrRead n = s.csrRead n := by
  have hq : (0x1C0 + 4 * i - 0x1C0) / 4 = i := by omega
  have hm : (0x1C0 + 4 * i) % 4 = 0 := by omega
  have hw := csrWrite_watch s w (n := 0x1C0 + 4 * i) (by omega) (by omega)
  rw [hq, hm] at hw
  obtain rfl : s.setCore (s.core.writeWatch i 0 w) = t := Except.ok.inj (hw.symm.trans h)
  refine ⟨?_, fun n h1 h2 hn => ?_⟩
  · rw [csrRead_watch _ (by omega) (by omega), hq, hm, State.core_setCore hc, Cell.wp_writeWatch _ _ _ _ hi, if_pos rfl]
    rfl
  · rw [csrRead_watch _ h1 h2, csrRead_watch _ h1 h2, State.core_setCore hc, Cell.wp_writeWatch _ _ _ _ (by omega)]
    split
    · exact WatchPt.reg_write_base_ne _ _ (by omega)
    · rfl

theorem specialRegistersStore : Claims.SpecialRegistersStore := by
  intro s key e w hc
  exact ⟨csrWrite_fpstat hc w, csrWrite_mstat hc w, csrWrite_winslip hc w, csrWrite_ordwatch hc w, csrWrite_padval hc w,
    csrWrite_epc hc w, csrWrite_wpbase hc w, csrWrite_trctl hc w, csrWrite_trbase hc w, csrWrite_sttile hc w,
    csrWrite_readOnly s w⟩

/-! ## VROT (R69) -/

theorem natBits_eq (x lo n : Nat) : natBits x lo n = x / 2 ^ lo % 2 ^ n := by
  rw [natBits, Nat.shiftRight_eq_div_pow]

/-- A write of VROT that reaches beyond the registers raises 0x02. -/
theorem csrWrite_vrot_beyond (s : State) (w : Word) (h : 256 < w.toNat % 2 ^ 8 + w.toNat / 2 ^ 8 % 2 ^ 9) :
    s.csrWrite 0x014 w = raise 0x02 := by
  have hn : 256 < natBits w.toNat 0 8 + natBits w.toNat 8 9 := by simpa only [natBits_eq, pow_zero, Nat.div_one] using h
  exact if_pos hn

/-- A write of VROT that X need not wait for: the fields stand at once, and no write is pending. -/
theorem csrWrite_vrot_now (s : State) (w : Word) (h : w.toNat % 2 ^ 8 + w.toNat / 2 ^ 8 % 2 ^ 9 ≤ 256)
    (hx : s.core.handler.isSome = true ∨ (s.core.vrotPend = [] ∧ (s.core.engX.done = true ∨ s.core.engC.pos < s.core.engX.pos))) :
    s.csrWrite 0x014 w = .ok (s.setCore { s.core.setVrot w with vrotPend := [] }) := by
  have hn : ¬ 256 < natBits w.toNat 0 8 + natBits w.toNat 8 9 := by
    simpa only [natBits_eq, pow_zero, Nat.div_one, not_lt] using h
  change s.writeVrot w = _
  rw [State.writeVrot, if_neg hn]
  by_cases hh : s.core.handler.isSome = true
  · rw [if_pos hh]
  · obtain ⟨hp, hd⟩ := hx.resolve_left hh
    have hpass : (s.core.engX.done || decide (s.core.engC.pos < s.core.engX.pos) || !s.curClass.has .x) = true := by
      rcases hd with hd | hd <;> simp [hd]
    rw [if_neg hh, if_pos hpass, ← hp]
    rfl

/-- The fields of VROT as R69 gives them. -/
theorem Cell.setVrot_fields (c : Cell) (w : Word) :
    (c.setVrot w).vrotBase = w.toNat % 2 ^ 8 ∧ (c.setVrot w).vrotSize = w.toNat / 2 ^ 8 % 2 ^ 9
      ∧ (c.setVrot w).vrotOff
        = if w.toNat / 2 ^ 8 % 2 ^ 9 = 0 then 0 else w.toNat / 2 ^ 24 % 2 ^ 8 % (w.toNat / 2 ^ 8 % 2 ^ 9) := by
  simp only [Cell.setVrot, natBits_eq, pow_zero, Nat.div_one, and_self]

theorem vrotOff_lt (off size : Nat) : (if size = 0 then 0 else off % 2 ^ 8 % size) < 2 ^ 8 := by
  split
  · omega
  · exact Nat.lt_of_le_of_lt (Nat.mod_le _ _) (Nat.mod_lt _ (by omega))

/-- VROT reads as the sum of its fields where no write is pending. -/
theorem csrRead_vrot_toNat (t : State) (hp : t.core.vrotPend = []) (hb : t.core.vrotBase < 2 ^ 8) (hs : t.core.vrotSize < 2 ^ 9)
    (ho : t.core.vrotOff < 2 ^ 8) :
    (t.csrRead 0x014).toNat = t.core.vrotBase + t.core.vrotSize * 2 ^ 8 + t.core.vrotOff * 2 ^ 24 := by
  have hr : t.csrRead 0x014 = t.core.readVrot := rfl
  have hw : t.core.readVrot = t.core.vrotWord := by rw [Cell.readVrot, hp]; rfl
  rw [hr, hw, Cell.vrotWord, BitVec.toNat_ofNat, Nat.mod_eq_of_lt (by omega)]

theorem vrotStores : Claims.VrotStores := by
  intro s key e w hc
  refine ⟨csrWrite_vrot_beyond s w, fun h hx => ⟨_, csrWrite_vrot_now s w h hx, ?_⟩⟩
  obtain ⟨hb, hs, ho⟩ := s.core.setVrot_fields w
  have hread := csrRead_vrot_toNat (s.setCore { s.core.setVrot w with vrotPend := [] })
  rw [State.core_setCore hc] at hread ⊢
  refine ⟨hb, hs, ho, hread rfl ?_ ?_ ?_⟩
  · exact hb ▸ Nat.mod_lt _ (by omega)
  · exact hs ▸ Nat.mod_lt _ (by omega)
  · exact ho ▸ vrotOff_lt _ _

/-- Settles O24: the CSR words run their body, each register has the fields its rule gives, and VROT its checks. -/
theorem specialRegisterWords : Obligations.SpecialRegisterWords :=
  ⟨csrWordsComplete, specialRegistersStore, vrotStores⟩

end Sys2Proof.Machine
end

