-- ==== Sys2Proof/Proofs/VectorWords.lean ====
section
/-! SUPPORT. What a word of X makes of its sources element by element (R203 to R205): the elements of a register, the words that
read one, two or three of them, and the comparisons into a mask. -/

namespace Sys2Proof.Machine

open Claims

/-! ## The elements of a source -/

theorem FMap.toList_length {α : Type} (d : α) (n i : Nat) (m : FMap α) : (FMap.toList d n i m).length = n := by
  induction n generalizing i m with
  | zero => rfl
  | succ n ih =>
    cases m with
    | nil => rw [FMap.toList, List.length_cons, ih]
    | cons e m => rw [FMap.toList]; split <;> rw [List.length_cons, ih]

@[simp] theorem Cell.vlanes_length (c : Cell) (q : Nat) : (c.vlanes q).length = 1024 := FMap.toList_length _ _ _ _

theorem pairLanes_length : (ls : List (BitVec 32)) → (pairLanes ls).length = (ls.length + 1) / 2
  | [] => rfl
  | [_] => by simp [pairLanes]
  | a :: b :: ls => by
    rw [pairLanes, List.length_cons, pairLanes_length ls, List.length_cons, List.length_cons]
    omega

/-- The element widths of X (R51). -/
theorem typeBits_of_vType :
    ∀ ty : BitVec 4, VType ty → typeBits ty.toNat = 64 ∨ typeBits ty.toNat = 32 ∨ typeBits ty.toNat = 16 := by
  decide

theorem ebits_of_vType {f : Rrr} (h : VType f.ty) : ebits f = 64 ∨ ebits f = 32 ∨ ebits f = 16 := typeBits_of_vType f.ty h

/-- Every bit of a mask belongs to an element of the view. -/
theorem vector_bit_lt {w j : Nat} (hw : w = 64 ∨ w = 32 ∨ w = 16) (hj : j < 2048) : j / (w / 16) < elemCount w := by
  rcases hw with rfl | rfl | rfl <;> simp only [elemCount] <;> omega

theorem vector_width_pos {w : Nat} (hw : w = 64 ∨ w = 32 ∨ w = 16) : 0 < w / 16 := by omega

theorem elemsOf_length {w : Nat} (hw : w = 64 ∨ w = 32 ∨ w = 16) {ls : List (BitVec 32)} (h : ls.length = 1024) :
    (elemsOf w ls).length = elemCount w := by
  rcases hw with rfl | rfl | rfl
  · exact (pairLanes_length ls).trans (by rw [h]; rfl)
  · exact (List.length_map _).trans h
  · rw [elemsOf, if_neg (by decide), if_neg (by decide), List.length_flatMap]
    simp only [List.length_cons, List.length_nil, List.map_const', List.sum_replicate, h]
    rfl

theorem Cell.velems_length (c : Cell) {w : Nat} (q : Nat) (hw : w = 64 ∨ w = 32 ∨ w = 16) : (c.velems w q).length = elemCount w :=
  elemsOf_length hw (c.vlanes_length q)

/-- A vector source gives as many elements as its view has. -/
theorem State.vsrc_length {s t : State} {code : BitVec 8} {w : Nat} {lit : Word} {a : List Nat} (hw : w = 64 ∨ w = 32 ∨ w = 16)
    (h : s.vsrc code w lit = .ok (a, t)) : a.length = elemCount w := by
  unfold State.vsrc at h
  split at h
  · cases h; exact List.length_replicate
  · split at h
    · cases hp : s.popQ with
      | error x => rw [hp] at h; cases h
      | ok r => rw [hp] at h; cases h; exact List.length_replicate
    · cases h; exact s.core.velems_length _ hw

theorem maskBits_length (w : Nat) (k : BitVec 2048) : (maskBits w k).length = elemCount w := by simp [maskBits]

/-- The mask bit of an element is the one that `masked` names (R54). -/
theorem maskBits_getD (c : Cell) (k w : Nat) {j : Nat} (h : j < elemCount w) :
    (maskBits w (c.kreg k)).getD j false = masked c k w j := by simp [maskBits, masked, h]

/-! ## Lists of elements -/

theorem ext_getD {α : Type} (d : α) {xs ys : List α} (hl : xs.length = ys.length)
    (h : ∀ j, j < xs.length → xs.getD j d = ys.getD j d) : xs = ys :=
  List.ext_getElem hl fun j hx hy => by simpa [hx, hy] using h j hx

theorem map3_length {α : Type} (fn : Nat → Nat → Nat → α) (as bs ds : List Nat) :
    (map3 fn as bs ds).length = min as.length (min bs.length ds.length) := by
  fun_induction map3 fn as bs ds with
  | case1 a as b bs d ds ih => simp [ih]
  | case2 as bs ds h =>
    cases as with
    | nil => simp
    | cons a as =>
      cases bs with
      | nil => simp
      | cons b bs =>
        cases ds with
        | nil => simp
        | cons d ds => exact absurd rfl (h a as b bs d ds rfl rfl)

theorem map3_getD {α : Type} (x : α) (fn : Nat → Nat → Nat → α) (as bs ds : List Nat) {j : Nat}
    (ha : j < as.length) (hb : j < bs.length) (hd : j < ds.length) :
    (map3 fn as bs ds).getD j x = fn (as.getD j 0) (bs.getD j 0) (ds.getD j 0) := by
  induction as generalizing bs ds j with
  | nil => simp at ha
  | cons a as ih =>
    cases bs with
    | nil => simp at hb
    | cons b bs =>
      cases ds with
      | nil => simp at hd
      | cons d ds =>
        cases j with
        | zero => rfl
        | succ j =>
          simp only [map3, List.getD_cons_succ, List.length_cons, Nat.add_lt_add_iff_right] at *
          exact ih bs ds ha hb hd

theorem zip_map_getD {α β γ : Type} (g : α → β → γ) (as : List α) (bs : List β) (x : α) (y : β) (d : γ) {j : Nat}
    (ha : j < as.length) (hb : j < bs.length) :
    ((as.zip bs).map fun e => g e.1 e.2).getD j d = g (as.getD j x) (bs.getD j y) := by
  simp [ha, hb]

/-! ## Words that write a vector register -/

section
variable {i : Instr} {s s0 t : State} {key : Nat} {f : Rrr} {body : State → M State}

/-- An X word whose body ends, ends so: C owes no write of VROT before it (R232). -/
theorem ends_of_vecWord (st : StartsX i s key s0) (hi : i.body = .rrr f) (hx : ∀ s, exec i s = vecWord f body s)
    (b : body s0 = .ok t) : Ends i s t .seq := by
  have hv : s0.vrotReady = .ok () := by simp [State.vrotReady, st.2]
  exact ends_of st.1 (by rw [hi]; rfl) (by rw [hi]; rfl) hx (seqM_ok (by rw [hv]; exact b))

end

/-- A form that reads A, B and the old D gives D the function of each triple of elements. -/
theorem vTernary_of {ok : BitVec 4 → Prop} {i : Rrr → Instr} {fn : Rrr → Nat → Nat → Nat → Nat × Flags}
    (hok : ∀ ty, ok ty → VType ty) (hi : ∀ f, (i f).body = .rrr f) (hx : ∀ f s, exec (i f) s = vecTer f (fn f) s) :
    VTernary ok i fn := by
  rintro f s key s0 a b t rs st hty ⟨s1, ha, hb⟩ hl hrs
  have hw := ebits_of_vType (hok _ hty)
  have la := State.vsrc_length hw ha
  have lb := State.vsrc_length hw hb
  have ld : (t.oldV f (ebits f)).length = elemCount (ebits f) := t.core.velems_length _ hw
  have hm : map3 (fn f) a b (t.oldV f (ebits f)) = rs := by
    have hlen : (map3 (fn f) a b (t.oldV f (ebits f))).length = elemCount (ebits f) := by
      rw [map3_length, ld, la, lb, Nat.min_self, Nat.min_self]
    refine ext_getD (0, 0) (hlen.trans hl.symm) fun j hj => ?_
    rw [hlen] at hj
    rw [hrs j hj]
    exact map3_getD (0, 0) (fn f) a b _ (la.symm ▸ hj) (lb.symm ▸ hj) (ld.symm ▸ hj)
  refine ends_of_vecWord st (hi f) (hx f) ?_
  unfold ebits at ha hb hm ⊢
  simp [ha, hb, hm, bind, Except.bind]

/-- A form on A alone gives D the function of each element. -/
theorem vUnary_of {ok : BitVec 4 → Prop} {i : Rrr → Instr} {fn : Rrr → Nat → Nat × Flags} (hi : ∀ f, (i f).body = .rrr f)
    (hx : ∀ f s, ok f.ty → exec (i f) s = vecUn f (fn f) s) : VUnary ok i fn := by
  intro f s key s0 a t st hty ha
  refine ends_of_vecWord st (hi f) (fun s => hx f s hty) ?_
  unfold ebits at ha ⊢
  simp [ha, bind, Except.bind]

/-! ## Comparisons -/

/-- Bit `j` of the number that `maskOf` builds is that of the element which covers it (R54). -/
theorem testBit_foldr_mask (k : Nat) (hk : 0 < k) (bs : List Bool) (j : Nat) :
    (bs.foldr (fun b (acc : Nat) => acc * 2 ^ k + (if b then 2 ^ k - 1 else 0)) 0).testBit j = bs.getD (j / k) false := by
  induction bs generalizing j with
  | nil => simp
  | cons b bs ih =>
    have hlt : (if b then 2 ^ k - 1 else 0) < 2 ^ k := by
      have := Nat.two_pow_pos k
      split <;> omega
    rw [List.foldr_cons, Nat.mul_comm, Nat.testBit_two_pow_mul_add _ hlt]
    split
    · next h =>
      rw [Nat.div_eq_of_lt h, List.getD_cons_zero]
      cases b <;> simp [h]
    · next h =>
      have hd : j / k = (j - k) / k + 1 := by rw [← Nat.add_div_right _ hk, Nat.sub_add_cancel (Nat.le_of_not_lt h)]
      rw [ih, hd, List.getD_cons_succ]

theorem getLsbD_maskOf {w : Nat} (hw : 0 < w / 16) (bs : List Bool) {j : Nat} (hj : j < 2048) :
    (maskOf w bs).getLsbD j = bs.getD (j / (w / 16)) false := by
  rw [maskOf, BitVec.getLsbD_ofNat, testBit_foldr_mask _ hw]
  simp [hj]

/-- The flags of a result are those of its active elements (R205). -/
theorem getLsbD_flagsOf (m : List Bool) (rs : List (Nat × Flags)) (n : Nat) :
    (flagsOf m rs).getLsbD n = true
      ↔ ∃ j, j < m.length ∧ m.getD j false = true ∧ (rs.getD j (0, 0)).2.getLsbD n = true := by
  induction m generalizing rs with
  | nil => simp [flagsOf]
  | cons b m ih =>
    cases rs with
    | nil => simp [flagsOf]
    | cons r rs =>
      rw [flagsOf, BitVec.getLsbD_or, Bool.or_eq_true, ih]
      refine Iff.trans ?_ Nat.or_exists_add_one
      simp only [List.length_cons, List.getD_cons_zero, List.getD_cons_succ, Nat.add_lt_add_iff_right, Nat.zero_lt_succ, true_and]
      refine or_congr ?_ Iff.rfl
      cases b <;> simp

section
variable {c : Cell} {k w : Nat} {a b : List Nat} (g : Nat → Nat → Bool × Flags)

/-- The mask a comparison gives: an element's bits are set where it is active and the comparison holds. -/
theorem maskOf_compare (hw : w = 64 ∨ w = 32 ∨ w = 16) (la : a.length = elemCount w) (lb : b.length = elemCount w)
    {bits : BitVec 2048} (h : ∀ j, j < 2048 → bits.getLsbD j
      = (masked c k w (j / (w / 16)) && (g (a.getD (j / (w / 16)) 0) (b.getD (j / (w / 16)) 0)).1)) :
    maskOf w (((maskBits w (c.kreg k)).zip ((a.zip b).map fun e => g e.1 e.2)).map fun e => e.1 && e.2.1) = bits := by
  refine BitVec.eq_of_getLsbD_eq fun j hj => ?_
  have hq : j / (w / 16) < elemCount w := vector_bit_lt hw hj
  rw [getLsbD_maskOf (vector_width_pos hw) _ hj, h j hj,
    zip_map_getD (fun (x : Bool) (r : Bool × Flags) => x && r.1) _ _ false (false, 0) _ (by rwa [maskBits_length])
      (by simpa [la, lb] using hq),
    zip_map_getD g a b 0 0 _ (la.symm ▸ hq) (lb.symm ▸ hq), maskBits_getD _ _ _ hq]

/-- The flags a comparison raises. -/
theorem getLsbD_flagsOf_compare (la : a.length = elemCount w) (lb : b.length = elemCount w) (n : Nat) :
    (flagsOf (maskBits w (c.kreg k)) (((a.zip b).map fun e => g e.1 e.2).map fun r => (0, r.2))).getLsbD n = true
      ↔ ∃ j, j < elemCount w ∧ masked c k w j = true ∧ (g (a.getD j 0) (b.getD j 0)).2.getLsbD n = true := by
  rw [getLsbD_flagsOf, maskBits_length, List.map_map, Function.comp_def]
  refine exists_congr fun j => and_congr_right fun hj => ?_
  have he := zip_map_getD (fun x y => ((0 : Nat), (g x y).2)) a b 0 0 (0, 0) (la.symm ▸ hj) (lb.symm ▸ hj)
  rw [maskBits_getD _ _ _ hj, he]

end

/-- A comparison sets its mask, and raises the flags of its active elements. -/
theorem vCompare_of {ok : BitVec 4 → Prop} {i : Rrr → Instr} {fn : Rrr → Nat → Nat → Bool × Flags}
    (hok : ∀ ty, ok ty → VType ty) (hi : ∀ f, (i f).body = .rrr f) (hx : ∀ f s, exec (i f) s = vecCmp f (fn f) s) :
    VCompare ok i fn := by
  rintro f s key s0 a b t bits st hty hfree ⟨s1, ha, hb⟩ hbits
  have hw := ebits_of_vType (hok _ hty)
  have la := State.vsrc_length hw ha
  have lb := State.vsrc_length hw hb
  have hfr : s0.stageFree f.d.toNat = .ok () := by
    by_cases h : s0.core.stageOpen = true
    · simp [State.stageFree, h, hfree h]
    · simp [State.stageFree, h]
  refine ⟨_, ends_of_vecWord st (hi f) (hx f) ?_, fun n _ => getLsbD_flagsOf_compare (fn f) la lb n⟩
  rw [← maskOf_compare (fn f) hw la lb hbits]
  unfold ebits at ha hb ⊢
  simp only [hfr, ha, hb, bind, Except.bind]

end Sys2Proof.Machine
end

