-- ==== Sys2Proof/Proofs/FloatWords.lean ====
section
/-! SUPPORT. The floating words of X (R208 to R210), rounding to a multiple of one (R20, R21), and the exceptional operands
(R22, R23). -/

namespace Sys2Proof.Machine

open Claims

/-! ## The words -/

theorem vType_of_fType (ty : BitVec 4) (h : FType ty) : VType ty := .inr h

/-- The elements of a floating TYPE are as wide as its format. -/
theorem ebits_of_fType {f : Rrr} (h : FType f.ty) : ebits f = (ffmt f).width := if_pos h.1

theorem fTernary_of {i : Rrr → Instr} {fn : Rrr → Nat → Nat → Nat → Nat × Flags} (hi : ∀ f, (i f).body = .rrr f)
    (hx : ∀ f s, exec (i f) s = vecTer f (fn f) s) : VTernary FType i fn := vTernary_of vType_of_fType hi hx

theorem floatWordsComplete : FloatWordsComplete :=
  ⟨fTernary_of (fun _ => rfl) fun _ _ => rfl, fTernary_of (fun _ => rfl) fun _ _ => rfl,
    fTernary_of (fun _ => rfl) fun _ _ => rfl, fTernary_of (fun _ => rfl) fun _ _ => rfl,
    fTernary_of (fun _ => rfl) fun _ _ => rfl, fTernary_of (fun _ => rfl) fun _ _ => rfl,
    fTernary_of (fun _ => rfl) fun _ _ => rfl, fTernary_of (fun _ => rfl) fun _ _ => rfl,
    vUnary_of (fun _ => rfl) fun _ _ _ => rfl,
    vUnary_of (fun _ => rfl) fun f s h => by rw [ebits_of_fType h]; rfl,
    vUnary_of (fun _ => rfl) fun f s h => by rw [ebits_of_fType h]; rfl,
    vCompare_of vType_of_fType (fun _ => rfl) fun _ _ => rfl⟩

/-! ## Rounding to a multiple of one -/

/-- How a remainder stands against half a unit: below it, at it, above it (R21). -/
def halfCmp (r den : Nat) : Nat := if 2 * r < den then 0 else if 2 * r = den then 1 else 2

section
variable {mode num den k : Nat} {neg nx : Bool}

/-- Without a shift the quotient is kept or raised by one, and the result is inexact where a remainder is left. -/
theorem roundAt_zero (mode : Nat) (neg : Bool) (num den : Nat) : roundAt mode neg num den 0 0
    = (num / den + (roundsUp mode neg (num / den % 2 == 1) (halfCmp (num % den) den) (num % den != 0)).toNat, num % den != 0) := by
  simp only [roundAt, Int.sub_self, ge_iff_le, Int.le_refl, if_true, Int.toNat_zero, pow_zero, Nat.mul_one, halfCmp]
  cases roundsUp mode neg _ _ _ <;> rfl

/-- A quotient rounded up is the quotient, raised by one where a remainder is left. -/
theorem ceil_eq (num : Nat) (h : 0 < den) : (num + (den - 1)) / den = num / den + (num % den != 0).toNat := by
  have hd := Nat.div_add_mod' num den
  have hm := Nat.mod_lt num h
  rw [Nat.div_eq_iff h]
  by_cases hr : num % den = 0
  · simp only [hr, bne_self_eq_false, Bool.toNat_false, Nat.add_zero]
    omega
  · simp only [bne_iff_ne.2 hr, Bool.toNat_true, Nat.succ_mul]
    omega

theorem roundsUp_even (odd some_ : Bool) (r : Nat) :
    roundsUp 0 neg odd (halfCmp r den) some_ = true ↔ den < 2 * r ∨ 2 * r = den ∧ odd = true := by
  rcases Nat.lt_trichotomy (2 * r) den with h | h | h
  · rw [halfCmp, if_pos h]; simp [roundsUp]; omega
  · rw [halfCmp, if_neg (by omega), if_pos h]; simp [roundsUp, h]
  · rw [halfCmp, if_neg (by omega), if_neg (by omega)]; simp [roundsUp, h]

theorem roundsUp_away (odd some_ : Bool) (r : Nat) : roundsUp 4 neg odd (halfCmp r den) some_ = true ↔ den ≤ 2 * r := by
  rcases Nat.lt_trichotomy (2 * r) den with h | h | h
  · rw [halfCmp, if_pos h]; simp [roundsUp]; omega
  · rw [halfCmp, if_neg (by omega), if_pos h]; simp [roundsUp]; omega
  · rw [halfCmp, if_neg (by omega), if_neg (by omega)]; simp [roundsUp]; omega

/-- The quotient is raised by one exactly where a condition holds that says when the rounding mode rounds up. -/
theorem roundAt_quotient {p : Prop} (hr : roundAt mode neg num den 0 0 = (k, nx))
    (hp : roundsUp mode neg (num / den % 2 == 1) (halfCmp (num % den) den) (num % den != 0) = true ↔ p) :
    p ∧ k = num / den + 1 ∨ ¬ p ∧ k = num / den := by
  rw [roundAt_zero, Prod.mk.injEq] at hr
  obtain ⟨rfl, -⟩ := hr
  by_cases h : p
  · exact .inl ⟨h, by rw [hp.2 h]; rfl⟩
  · exact .inr ⟨h, by rw [Bool.eq_false_iff.2 (mt hp.1 h)]; rfl⟩

/-- To nearest, ties to even: at most half a unit off, and even where it is half a unit. -/
theorem roundAt_even (h : 0 < den) (hr : roundAt 0 neg num den 0 0 = (k, nx)) :
    2 * k * den ≤ 2 * num + den ∧ 2 * num ≤ 2 * k * den + den
    ∧ ((2 * k * den = 2 * num + den ∨ 2 * num = 2 * k * den + den) → k % 2 = 0) := by
  have hd := Nat.div_add_mod' num den
  have hm := Nat.mod_lt num h
  rw [Nat.mul_assoc]
  rcases roundAt_quotient hr (roundsUp_even _ _ _) with ⟨hp, rfl⟩ | ⟨hp, rfl⟩
  · rw [Nat.succ_mul (num / den)]
    simp only [beq_iff_eq] at hp
    omega
  · simp only [beq_iff_eq] at hp
    omega

/-- To nearest, ties away from zero. -/
theorem roundAt_away (h : 0 < den) (hr : roundAt 4 neg num den 0 0 = (k, nx)) :
    2 * k * den ≤ 2 * num + den ∧ 2 * num < 2 * k * den + den := by
  have hd := Nat.div_add_mod' num den
  have hm := Nat.mod_lt num h
  rw [Nat.mul_assoc]
  rcases roundAt_quotient hr (roundsUp_away _ _ _) with ⟨hp, rfl⟩ | ⟨hp, rfl⟩
  · rw [Nat.succ_mul (num / den)]; omega
  · omega

/-- Towards zero. -/
theorem roundAt_down (hm : mode = 1 ∨ mode = 2 ∧ neg = false ∨ mode = 3 ∧ neg = true)
    (hr : roundAt mode neg num den 0 0 = (k, nx)) : k = num / den := by
  rw [roundAt_zero, Prod.mk.injEq] at hr
  obtain ⟨rfl, -⟩ := hr
  rcases hm with rfl | ⟨rfl, rfl⟩ | ⟨rfl, rfl⟩ <;> rfl

/-- Away from zero. -/
theorem roundAt_up (h : 0 < den) (hm : mode = 2 ∧ neg = true ∨ mode = 3 ∧ neg = false)
    (hr : roundAt mode neg num den 0 0 = (k, nx)) : k = (num + (den - 1)) / den := by
  rw [roundAt_zero, Prod.mk.injEq] at hr
  obtain ⟨rfl, -⟩ := hr
  rw [ceil_eq num h]
  rcases hm with ⟨rfl, rfl⟩ | ⟨rfl, rfl⟩ <;> rfl

end

/-! ## The exceptional operands -/

section
variable (t : FFmt) (mode : Nat) (n : Bool) {m : Nat} (e : Int)

theorem FFmt.add_inf_inf (n' : Bool) : t.add mode (.inf n) (.inf n') = if n = n' then (t.inf n, 0) else (t.qnan, flagNV) := rfl

/-- A finite number other than zero over a zero is an infinity. -/
theorem FFmt.div_zero (n' : Bool) (e' : Int) (h : m ≠ 0) :
    t.div mode (.fin n m e) (.fin n' 0 e') = (t.inf (n != n'), flagDZ) := by
  rw [FFmt.div, if_pos rfl, if_neg h]

/-- A negative number other than zero has no root. -/
theorem FFmt.sqrt_neg (h : m ≠ 0) : t.sqrt mode (.fin true m e) = (t.qnan, flagNV) := by
  rw [FFmt.sqrt, if_neg h, if_pos rfl]

end

theorem roundingAndExceptions : RoundingAndExceptions := by
  refine ⟨fun mode neg num den k nx h hr => ⟨?_, fun h1 => ?_, fun h2 hn => ?_, fun h3 hn => ?_, fun h2 hn => ?_, fun h3 hn => ?_,
    fun h0 => ?_, fun h4 => ?_⟩, fun t mode na nb ma mb ea eb v => ?_⟩
  · rw [roundAt_zero, Prod.mk.injEq] at hr
    rw [← hr.2, bne_iff_ne]
  · exact roundAt_down (.inl h1) hr
  · exact roundAt_down (.inr (.inl ⟨h2, hn⟩)) hr
  · exact roundAt_down (.inr (.inr ⟨h3, hn⟩)) hr
  · exact roundAt_up h (.inl ⟨h2, hn⟩) hr
  · exact roundAt_up h (.inr ⟨h3, hn⟩) hr
  · exact roundAt_even h (h0 ▸ hr)
  · exact roundAt_away h (h4 ▸ hr)
  · have hopp : na ≠ !na := by cases na <;> decide
    exact ⟨(t.add_inf_inf mode na !na).trans (if_neg hopp), (t.add_inf_inf mode na na).trans (if_pos rfl), rfl, rfl, rfl, rfl,
      t.div_zero mode na ea nb eb, rfl, t.sqrt_neg mode ea, rfl, rfl, rfl, rfl, rfl, rfl⟩

/-- Settles O39: each floating word is its function applied element by element, and rounding and the exceptional operands
follow the branches of `roundAt` and of the arithmetic. -/
theorem floatWordsAndRounding : Obligations.FloatWordsAndRounding := ⟨floatWordsComplete, roundingAndExceptions⟩

end Sys2Proof.Machine
end

