-- ==== Sys2Proof/Proofs/GroupSums.lean ====
section
/-! SUPPORT. The sums of a group (R41 to R44, R46): the exact sum of dyadic numbers in any order, what a group's sum gives
under its scales, and the saturating sum. -/

namespace Sys2Proof.Machine

open Claims

/-! ## Exact sums in any order -/

/-- Scaling twice is scaling once, by the whole distance. -/
theorem scale_scale (z : Int) {x y w : Int} (hxy : y ≤ x) (hyw : w ≤ y) :
    z * 2 ^ (x - y).toNat * 2 ^ (y - w).toNat = z * 2 ^ (x - w).toNat := by
  rw [mul_assoc, ← pow_add, ← Int.toNat_add (by omega) (by omega)]
  congr 3
  omega

/-- The sum of three dyadic numbers, at the least of their exponents. -/
theorem Dy.add_add (d a b : Dy) : (d.add a).add b =
    ⟨d.num * 2 ^ (d.exp - min d.exp (min a.exp b.exp)).toNat + a.num * 2 ^ (a.exp - min d.exp (min a.exp b.exp)).toNat
      + b.num * 2 ^ (b.exp - min d.exp (min a.exp b.exp)).toNat, min d.exp (min a.exp b.exp)⟩ := by
  simp only [Dy.add, min_assoc, add_mul]
  rw [scale_scale _ (by omega) (by omega), scale_scale _ (by omega) (by omega)]

theorem Dy.add_right_comm (d a b : Dy) : (d.add a).add b = (d.add b).add a := by
  rw [Dy.add_add, Dy.add_add, min_comm a.exp, Int.add_right_comm]

/-- Values summed in any order give the same sum. -/
theorem foldl_dy_perm {vs us : List Val} (h : vs.Perm us) (d : Dy) :
    vs.foldl (fun (a : Dy) v => a.add v.dy) d = us.foldl (fun (a : Dy) v => a.add v.dy) d :=
  h.foldl_eq' (fun a _ b _ d => Dy.add_right_comm d a.dy b.dy) d

/-- What a list of infinities comes to, one of them or none, is the same in any order. -/
theorem allSame_perm {i j : Val} {is js : List Val} (h : (i :: is).Perm (j :: js)) (x : Val) :
    (if is.all fun y => y == i then i else x) = if js.all fun y => y == j then j else x := by
  have hsame : ∀ (k : Val) (ks : List Val), ks.all (fun y => y == k) = true ↔ ∀ y ∈ k :: ks, y = k := by simp
  have hgo : ∀ {k l : Val} {ks ls : List Val}, (k :: ks).Perm (l :: ls) → ks.all (fun y => y == k) = true →
      l = k ∧ ls.all (fun y => y == l) = true := by
    intro k l ks ls hp hk
    rw [hsame] at hk ⊢
    have hl : l = k := hk l (hp.mem_iff.2 List.mem_cons_self)
    exact ⟨hl, fun y hy => (hk y (hp.mem_iff.2 hy)).trans hl.symm⟩
  by_cases hi : is.all (fun y => y == i) = true
  · obtain ⟨rfl, hj⟩ := hgo h hi
    rw [if_pos hi, if_pos hj]
  · rw [if_neg hi, if_neg fun hj => hi (hgo h.symm hj).2]

/-- The exact sum of values does not depend on their order (R42). -/
theorem sumVals_perm {vs us : List Val} (h : vs.Perm us) : sumVals vs = sumVals us := by
  have hf := h.filter Val.isInf
  unfold sumVals
  rw [h.any_eq, h.all_eq, foldl_dy_perm h, h.isEmpty_eq]
  generalize vs.filter Val.isInf = is at hf
  generalize us.filter Val.isInf = js at hf
  cases is with
  | nil => rw [hf.nil_eq]
  | cons i is =>
    cases js with
    | nil => exact absurd hf.eq_nil (List.cons_ne_nil i is)
    | cons j js =>
      dsimp only
      rw [allSame_perm hf]

/-- The sum of integers does not depend on their order. -/
theorem foldl_int_perm {α : Type} {ps qs : List α} (h : ps.Perm qs) (g : α → Int) (z : Int) :
    ps.foldl (fun z p => z + g p) z = qs.foldl (fun z p => z + g p) z :=
  h.foldl_eq' (fun a _ b _ z => Int.add_right_comm z (g a) (g b)) z

/-- A plus-times or or-and group gives the same whatever the order of its products (R41). -/
theorem groupUpdate_perm (fa fb c sa sb : Nat) {sr : Nat} {ps qs : List (Nat × Nat)} (hsr : sr = 0 ∨ sr = 3) (h : ps.Perm qs) :
    groupUpdate fa fb sr c ps sa sb = groupUpdate fa fb sr c qs sa sb := by
  rcases hsr with rfl | rfl
  · by_cases hi : mgoIntAcc fa = true
    · simp only [groupUpdate, if_pos hi, h.any_eq, foldl_int_perm h]
    · by_cases hx : fa = 11
      · simp only [groupUpdate, if_neg hi, if_pos hx, sumVals_perm (h.flatMap_right _)]
      · simp only [groupUpdate, if_neg hi, if_neg hx, sumVals_perm (h.map _)]
  · simp only [groupUpdate, h.any_eq]

/-! ## The value of a group under its scales (R43) -/

section
variable {sa sb : Nat}

/-- A scale of 0xFF makes the group no number. -/
theorem groupValue_unscalable (v : Val) (h : sa = 0xFF ∨ sb = 0xFF) : groupValue v sa sb = (0x7FC00000, 0) := by
  rw [groupValue.eq_def, if_pos h]; rfl

theorem groupValue_nan (q : Bool) (ha : sa ≠ 0xFF) (hb : sb ≠ 0xFF) : groupValue (.nan q) sa sb = (0x7FC00000, 0) := by
  rw [groupValue, if_neg (by tauto)]; rfl

theorem groupValue_inf (n : Bool) (ha : sa ≠ 0xFF) (hb : sb ≠ 0xFF) :
    groupValue (.inf n) sa sb = (if n then 0xFF800000 else 0x7F800000, 0) := by
  rw [groupValue, if_neg (by tauto)]; cases n <;> rfl

theorem groupValue_zero (n : Bool) (e : Int) (ha : sa ≠ 0xFF) (hb : sb ≠ 0xFF) : groupValue (.fin n 0 e) sa sb = (0, 0) := by
  rw [groupValue, if_neg (by tauto)]; rfl

theorem log2Quot_one {m : Nat} (h : m ≠ 0) : log2Quot m 1 = Nat.log2 m := by
  have hle : 2 ^ Nat.log2 m ≤ m := Nat.log2_self_le h
  have h1 : Nat.log2 1 = 0 := by decide
  simp [log2Quot, h1, hle]

/-- A sum below the least magnitude of an f32 under its scales is zero, with underflow. -/
theorem groupValue_tiny (n : Bool) {m : Nat} {e : Int} (ha : sa ≠ 0xFF) (hb : sb ≠ 0xFF) (hm : m ≠ 0)
    (he : e + sa + sb < 254 - 149) (hlt : m < 2 ^ (254 - 149 - (e + sa + sb)).toNat) : groupValue (.fin n m e) sa sb = (0, 2) := by
  have hlog : Nat.log2 m < (254 - 149 - (e + sa + sb)).toNat := (Nat.log2_lt hm).2 hlt
  rw [groupValue, if_neg (by tauto)]
  simp only [if_neg hm, log2Quot_one hm]
  rw [if_pos (by omega)]

end

/-! ## The saturating sum (R46) -/

theorem toSigned_wrapNat_32 {z : Int} (hl : -(2 ^ 31) ≤ z) (hh : z ≤ 2 ^ 31 - 1) : toSigned 32 (wrapNat 32 z) = z := by
  simp only [toSigned, wrapNat]
  omega

theorem satInt_32 (z : Int) : satInt ⟨true, 32⟩ z = max (-(2 ^ 31)) (min (2 ^ 31 - 1) z) := rfl

/-- The sum is the exact one brought into the range of an i32. -/
theorem accAddInt_value (c : Nat) (z : Int) :
    toSigned 32 (accAddInt c z).1 = max (-(2 ^ 31)) (min (2 ^ 31 - 1) (toSigned 32 c + z)) := by
  rw [← satInt_32]
  exact toSigned_wrapNat_32 (by rw [satInt_32]; omega) (by rw [satInt_32]; omega)

/-- It overflows exactly where the exact sum is outside that range. -/
theorem accAddInt_overflow (c : Nat) (z : Int) :
    (accAddInt c z).2 = 1 ↔ toSigned 32 c + z < -(2 ^ 31) ∨ 2 ^ 31 ≤ toSigned 32 c + z := by
  rw [show (accAddInt c z).2 = if satInt ⟨true, 32⟩ (toSigned 32 c + z) = toSigned 32 c + z then 0 else 1 from rfl, satInt_32]
  split
  · exact iff_of_false (by decide) (by omega)
  · exact iff_of_true rfl (by omega)

theorem groupSums : GroupSums :=
  ⟨fun fa fb _ c _ _ sa sb hsr h => groupUpdate_perm fa fb c sa sb hsr h, fun v _ _ h => groupValue_unscalable v h,
    fun _ _ q n ha hb => ⟨groupValue_nan q ha hb, groupValue_inf n ha hb, fun e => groupValue_zero n e ha hb⟩,
    fun n _ _ _ _ ha hb hm he hlt => groupValue_tiny n ha hb hm he hlt, fun c z => ⟨accAddInt_value c z, accAddInt_overflow c z⟩⟩

end Sys2Proof.Machine
end

