-- ==== Sys2Proof/Proofs/Accumulators.lean ====
section
/-! SUPPORT. Accumulator elements written and their void marks cleared (R258, R266, R267): what each element holds afterwards, of a
map in whatever form. -/

namespace Sys2Proof.Machine

variable {α : Type}

/-! ## Ranges of a map in any form -/

theorem FMap.find?_filter (m : FMap α) (p : Nat → Bool) (i : Nat) :
    FMap.find? (m.filter fun e => p e.1) i = if p i then FMap.find? m i else none := by
  induction m with
  | nil => simp [FMap.find?]
  | cons e m ih =>
    rw [List.filter_cons]
    by_cases hi : i = e.1
    · subst hi
      by_cases hp : p e.1 = true
      · rw [if_pos hp, if_pos hp, FMap.find?, FMap.find?, if_pos rfl, if_pos rfl]
      · rw [if_neg hp, ih, if_neg hp, if_neg hp]
    · have hr : FMap.find? (e :: m) i = FMap.find? m i := by rw [FMap.find?, if_neg hi]
      by_cases hp : p e.1 = true
      · rw [if_pos hp, FMap.find?, if_neg hi, ih, hr]
      · rw [if_neg hp, ih, hr]

theorem FMap.get_filter (m : FMap α) (p : Nat → Bool) (i : Nat) (d : α) :
    FMap.get (m.filter fun e => p e.1) i d = if p i then FMap.get m i d else d := by
  rw [FMap.get, FMap.find?_filter]
  split <;> rfl

theorem FMap.find?_append (m n : FMap α) (i : Nat) : FMap.find? (m ++ n) i = (FMap.find? m i).or (FMap.find? n i) := by
  induction m with
  | nil => rfl
  | cons e m ih =>
    rw [List.cons_append, FMap.find?, FMap.find?]
    split
    · rfl
    · exact ih

/-- A map in front of another hides its entries; what neither lists reads as the default. -/
theorem FMap.get_append (m n : FMap α) (i : Nat) (d : α) :
    FMap.get (m ++ n) i d = (FMap.find? m i).getD (FMap.get n i d) := by
  rw [FMap.get, FMap.find?_append, Option.getD_or]
  rfl

theorem FMap.find?_eq_none {m : FMap α} {i : Nat} (h : ∀ e ∈ m, e.1 ≠ i) : FMap.find? m i = none := by
  induction m with
  | nil => rfl
  | cons e m ih =>
    rw [FMap.find?, if_neg fun hi => h e List.mem_cons_self hi.symm]
    exact ih fun x hx => h x (List.mem_cons_of_mem _ hx)

/-- Numbered entries list no number outside their range. -/
theorem FMap.find?_number_outside [DecidableEq α] (d : α) (xs : List α) {b i : Nat} (h : i < b ∨ b + xs.length ≤ i) :
    FMap.find? (FMap.number d b xs) i = none :=
  FMap.find?_eq_none fun e he => by
    have := (FMap.number_spec d xs b).2 e he
    omega

/-- Within their range they read as the list. -/
theorem FMap.get_number [DecidableEq α] (d : α) (xs : List α) {b i : Nat} (h : b ≤ i) :
    FMap.get (FMap.number d b xs) i d = xs.getD (i - b) d := by
  induction xs generalizing b with
  | nil => rfl
  | cons x xs ih =>
    rcases Nat.eq_or_lt_of_le h with rfl | hlt
    · rw [FMap.number, Nat.sub_self, List.getD_cons_zero]
      split
      · next hx => rw [FMap.get, FMap.find?_number_outside d xs (by omega), hx]; rfl
      · rw [FMap.get_cons, if_pos rfl]
    · have hs : i - b = i - (b + 1) + 1 := by omega
      rw [FMap.number, hs, List.getD_cons_succ, ← ih (b := b + 1) (by omega)]
      split
      · rfl
      · rw [FMap.get_cons, if_neg (by omega)]

/-- An entry after a write of consecutive entries. -/
theorem FMap.get_setRange [DecidableEq α] (m : FMap α) (b : Nat) (xs : List α) (d : α) (i : Nat) :
    FMap.get (FMap.setRange m b xs d) i d = if b ≤ i ∧ i < b + xs.length then xs.getD (i - b) d else FMap.get m i d := by
  have hlow := FMap.find?_filter m (fun k => decide (k < b)) i
  have hhigh := FMap.get_filter m (fun k => decide (b + xs.length ≤ k)) i d
  simp only [decide_eq_true_eq] at hlow hhigh
  rw [FMap.setRange, List.append_assoc, FMap.get_append, hlow]
  rcases Nat.lt_or_ge i b with hl | hl
  · rw [if_pos hl, if_neg (by omega), FMap.get_append, FMap.find?_number_outside d xs (.inl hl), hhigh, if_neg (by omega)]
    rfl
  · rw [if_neg (by omega), Option.getD_none, FMap.get_append, hhigh]
    rcases Nat.lt_or_ge i (b + xs.length) with hh | hh
    · rw [if_neg (by omega), if_pos ⟨hl, hh⟩, ← FMap.get_number d xs hl]
      rfl
    · rw [if_pos hh, if_neg (by omega), FMap.find?_number_outside d xs (.inr hh)]
      rfl

theorem FMap.get_clearRange (m : FMap α) (b n i : Nat) (d : α) :
    FMap.get (FMap.clearRange m b n) i d = if b ≤ i ∧ i < b + n then d else FMap.get m i d := by
  rw [FMap.clearRange, FMap.get_filter m (fun k => decide (k < b) || decide (b + n ≤ k))]
  by_cases h : b ≤ i ∧ i < b + n
  · rw [if_pos h, if_neg (by simp; omega)]
  · rw [if_neg h, if_pos (by simp; omega)]

/-! ## Accumulator elements -/

section
variable (c : Cell) (m n i : Nat) (vs : List (BitVec 32))

theorem Cell.accGet_accPart : (c.accPart n vs).accGet i = if n ≤ i ∧ i < n + vs.length then vs.getD (i - n) 0 else c.accGet i :=
  FMap.get_setRange c.acc n vs 0 i

theorem Cell.void_accPart : FMap.get (c.accPart n vs).void i false
    = if n ≤ i ∧ i < n + vs.length then false else FMap.get c.void i false := FMap.get_clearRange c.void n vs.length i false

/-- An accumulator written whole is its 32,768 elements written from its first one on. -/
theorem Cell.accFill_eq (h : vs.length = 32768) : c.accFill m vs = c.accPart (32768 * m) vs := by
  rw [Cell.accFill, Cell.accPart, h]

/-- Elements written hold what they were given, without a void mark. -/
theorem Cell.accPart_written (h : i < vs.length) :
    (c.accPart n vs).accGet (n + i) = vs.getD i 0 ∧ FMap.get (c.accPart n vs).void (n + i) false = false := by
  rw [Cell.accGet_accPart, Cell.void_accPart, if_pos (by omega), if_pos (by omega), Nat.add_sub_cancel_left]
  exact ⟨rfl, rfl⟩

/-- The others keep what they held. -/
theorem Cell.accPart_kept (h : i < n ∨ n + vs.length ≤ i) :
    (c.accPart n vs).accGet i = c.accGet i ∧ FMap.get (c.accPart n vs).void i false = FMap.get c.void i false := by
  rw [Cell.accGet_accPart, Cell.void_accPart, if_neg (by omega), if_neg (by omega)]
  exact ⟨rfl, rfl⟩

variable {vs}

theorem Cell.accFill_written (hl : vs.length = 32768) (h : n < 32768) : (c.accFill m vs).accGet (32768 * m + n) = vs.getD n 0
    ∧ FMap.get (c.accFill m vs).void (32768 * m + n) false = false := by
  rw [c.accFill_eq m vs hl]
  exact c.accPart_written (32768 * m) n vs (hl.symm ▸ h)

theorem Cell.accFill_kept (hl : vs.length = 32768) (h : n < 32768 * m ∨ 32768 * (m + 1) ≤ n) :
    (c.accFill m vs).accGet n = c.accGet n ∧ FMap.get (c.accFill m vs).void n false = FMap.get c.void n false := by
  rw [c.accFill_eq m vs hl]
  exact c.accPart_kept (32768 * m) n vs (by omega)

end

/-- Single elements of an accumulator written one after another. -/
theorem Cell.accGet_foldl_accPart (b : Nat) (v : BitVec 32) (ns : List Nat) (c : Cell) (i : Nat) :
    (ns.foldl (fun (c : Cell) n => c.accPart (b + n) [v]) c).accGet i = if ∃ n ∈ ns, i = b + n then v else c.accGet i := by
  induction ns generalizing c with
  | nil => simp
  | cons n ns ih =>
    rw [List.foldl_cons, ih, Cell.accGet_accPart]
    by_cases hs : ∃ k ∈ ns, i = b + k
    · rw [if_pos hs, if_pos (by simpa using .inr hs)]
    · rw [if_neg hs]
      by_cases hn : i = b + n
      · rw [if_pos (by simp; omega), if_pos ⟨n, List.mem_cons_self, hn⟩, hn]
        simp
      · rw [if_neg (by simp; omega), if_neg]
        rintro ⟨k, hk, rfl⟩
        rcases List.mem_cons.1 hk with rfl | hk
        · exact hn rfl
        · exact hs ⟨k, hk, rfl⟩

end Sys2Proof.Machine
end

