-- ==== Sys2Proof/Proofs/MatrixWords.lean ====
section
/-! SUPPORT. The matrix words (R244, R250, R258 to R261, R266, R267, R277): MGO's issue and start, MZERO and MLOAD. -/

namespace Sys2Proof.Machine

open Claims

/-! ## Words that go on -/

section
variable {i : Instr} {s s0 t : State} {key : Nat} {e : EngTag} {h : Hdr} {wide onP : Bool} {n : Next}
  {body : State → M (State × Next)}

theorem cur_of_goes (g : Goes i s key e s0) : s0.cur = .cell key e := by
  rcases g with st | ⟨_, _, hc, _, _, _, _, _, rfl⟩
  · exact Starts.cur st
  · exact hc

/-- A word that starts, or has issued and goes on, comes to what its body gives. -/
theorem exec_goes (g : Goes i s key e s0) (hh : i.body.hdr = some h) (hx : ∀ s, exec i s = runWord h wide onP body s) :
    exec i s = .next (s.settle h wide (body s0)) := by
  rw [hx]
  rcases g with ⟨h', h1, h2, rfl⟩ | ⟨h', h1, hc, here, runs, free, calm, issued, rfl⟩
  · rw [hh] at h1; cases h1
    exact runWord_issues h2
  · simp [runWord, hc, here, State.runCell, State.curEng_cell hc, runs, free, calm, issued]

theorem ends_of_goes (g : Goes i s key e s0) (hh : i.body.hdr = some h) (hw : i.body.w1.isSome = wide)
    (hx : ∀ s, exec i s = runWord h wide onP body s) (b : body s0 = .ok (t, n)) : Ends i s t n :=
  ⟨h, hh, by rw [exec_goes g hh hx, b, hw]; rfl⟩

theorem waits_of_goes {r : Nat} (g : Goes i s key e s0) (hh : i.body.hdr = some h)
    (hx : ∀ s, exec i s = runWord h wide onP body s) (b : body s0 = .error (.wait t r)) : Waits i s t r := by
  rw [Waits, exec_goes g hh hx, b]
  rfl

end

theorem seqM_error {r : M State} {x : Stop} (h : r = .error x) : seqM r = .error x := by rw [h]; rfl

/-! ## MZERO beside a row command (R277) -/

/-- The elements of an accumulator that a MZERO beside a row command has still to write. -/
def zeroLeft (c : Cell) : List Nat := (List.range 32768).filter fun n => !c.zeroed.testBit n

/-- Those that a step writes: the first, and any others, which the free value names. -/
def zeroNow (s : State) : List Nat :=
  (zeroLeft s.core).filter fun n => some n == (zeroLeft s.core).head? || s.draw.1.testBit n

/-- The cell after them. -/
def zeroCell (s : State) (m : Nat) (v : BitVec 32) : Cell :=
  (zeroNow s).foldl (fun (c : Cell) n => c.accPart (32768 * m + n) [v]) s.core

/-- The elements that are written, as the cell notes them. -/
def zeroMarks (s : State) (m : Nat) (v : BitVec 32) : Nat :=
  (zeroCell s m v).zeroed ||| (zeroNow s).foldl (fun m n => m + 2 ^ n) 0

theorem State.zeroStep_eq (s : State) (m : Nat) (v : BitVec 32) : s.zeroStep m v =
    if (zeroNow s).length = (zeroLeft s.core).length then .ok (s.draw.2.setCore { zeroCell s m v with zeroed := 0 })
    else .error (.wait ((s.draw.2.setCore { zeroCell s m v with zeroed := zeroMarks s m v }).modEng
      fun g => { g with waitVal := some 1 }) 0) := rfl

theorem zeroNow_lt {s : State} {n : Nat} (h : n ∈ zeroNow s) : n < 32768 :=
  List.mem_range.1 (List.mem_filter.1 (List.mem_filter.1 h).1).1

/-- A step that leaves none writes every element that was left. -/
theorem mem_zeroNow_of_all {s : State} {n : Nat} (h : (zeroNow s).length = (zeroLeft s.core).length) (hn : n < 32768)
    (hz : s.core.zeroed.testBit n = false) : n ∈ zeroNow s := by
  have hall : zeroNow s = zeroLeft s.core := List.filter_sublist.eq_of_length h
  rw [hall]
  exact List.mem_filter.2 ⟨List.mem_range.2 hn, by rw [hz]; rfl⟩

/-- An element after a step is as it was, or written. -/
theorem accGet_zeroCell (s : State) (m : Nat) (v : BitVec 32) (n : Nat) : (zeroCell s m v).accGet n = s.core.accGet n
    ∨ (32768 * m ≤ n ∧ n < 32768 * (m + 1) ∧ (zeroCell s m v).accGet n = v) := by
  rw [zeroCell, Cell.accGet_foldl_accPart]
  split
  · next h =>
    obtain ⟨k, hk, rfl⟩ := h
    have := zeroNow_lt hk
    exact .inr ⟨by omega, by omega, rfl⟩
  · exact .inl rfl

theorem accGet_zeroCell_now {s : State} (m : Nat) (v : BitVec 32) {n : Nat} (h : n ∈ zeroNow s) :
    (zeroCell s m v).accGet (32768 * m + n) = v := by
  rw [zeroCell, Cell.accGet_foldl_accPart, if_pos ⟨n, h, rfl⟩]

section
variable {s : State} {key : Nat} {e : EngTag} (m : Nat) (v : BitVec 32)

theorem SameButCell.trans {t u : State} (h : SameButCell s t key) (h' : SameButCell t u key) : SameButCell s u key :=
  ⟨(congrArg (fun x : State => { x with cells := s.cells }) h'.1).trans h.1, fun k hk => (h'.2 k hk).trans (h.2 k hk)⟩

theorem State.setCore_same (h : s.cur = .cell key e) (c : Cell) : SameButCell s (s.setCore c) key := by
  rw [State.setCore_cell h]
  exact s.setCell_frame key c

theorem State.modEng_same (h : s.cur = .cell key e) (f : Eng → Eng) : SameButCell s (s.modEng f) key :=
  State.setCore_same h _

/-- A change of the engine changes no accumulator element. -/
theorem State.accGet_modEng (h : s.cur = .cell key e) (f : Eng → Eng) (n : Nat) :
    (s.modEng f).core.accGet n = s.core.accGet n := by
  rw [State.modEng, State.core_setCore h, Cell.accGet, Cell.setEng_acc]
  rfl

theorem Cell.accGet_zeroed (c : Cell) (z n : Nat) : ({ c with zeroed := z } : Cell).accGet n = c.accGet n := rfl

/-- A step writes its elements, changes nothing else of the accumulators, and draws one free value. -/
theorem zeroStep_cases (hc : s.cur = .cell key e) : ∃ t,
    (s.zeroStep m v = .ok t ∧ (zeroNow s).length = (zeroLeft s.core).length ∨ s.zeroStep m v = .error (.wait t 0))
    ∧ SameButCell s.draw.2 t key ∧ ∀ n, t.core.accGet n = (zeroCell s m v).accGet n := by
  have hd : s.draw.2.cur = .cell key e := hc
  rw [State.zeroStep_eq]
  split
  · next hall =>
    exact ⟨_, .inl ⟨rfl, hall⟩, State.setCore_same hd _, fun n => by rw [State.core_setCore hd, Cell.accGet_zeroed]⟩
  · have hd' : ∀ c, (s.draw.2.setCore c).cur = .cell key e := fun c => (s.draw.2.setCore_cur c).trans hd
    refine ⟨_, .inr rfl, (State.setCore_same hd _).trans (State.modEng_same (hd' _) _), fun n => ?_⟩
    rw [State.accGet_modEng (hd' _), State.core_setCore hd, Cell.accGet_zeroed]

/-- A step of MZERO: elements of the accumulator take the value, and where it is the last every one that was left has taken it. -/
theorem zeroStep_spec (hc : s.cur = .cell key e) : ∃ t,
    (s.zeroStep m v = .ok t ∨ s.zeroStep m v = .error (.wait t 0))
    ∧ { t with cells := s.cells, drawn := s.drawn } = s ∧ (∀ k, k ≠ key → FMap.find? t.cells k = FMap.find? s.cells k)
    ∧ (∀ n, t.core.accGet n = s.core.accGet n ∨ (32768 * m ≤ n ∧ n < 32768 * (m + 1) ∧ t.core.accGet n = v))
    ∧ (s.zeroStep m v = .ok t → ∀ n, n < 32768 → s.core.zeroed.testBit n = false → t.core.accGet (32768 * m + n) = v) := by
  obtain ⟨t, hr, hsame, hacc⟩ := zeroStep_cases (m := m) (v := v) hc
  refine ⟨t, hr.imp_left And.left, congrArg (fun x : State => { x with drawn := s.drawn }) hsame.1, hsame.2, fun n => ?_,
    fun hok n hn hz => ?_⟩
  · rw [hacc]
    exact accGet_zeroCell s m v n
  · rw [hacc]
    rcases hr with ⟨-, hall⟩ | hwait
    · exact accGet_zeroCell_now m v (mem_zeroNow_of_all hall hn hz)
    · rw [hwait] at hok; cases hok

end

/-! ## MZERO (R266) -/

/-- The value that MZERO writes. -/
def zeroValue (f : Rrr) : BitVec 32 := if f.rs = 1 then 0x7F800000 else if f.rs = 2 then 0xFF800000 else 0

theorem zeroValue_eq (f : Rrr) :
    (match f.rs.toNat with | 1 => 0x7F800000 | 2 => 0xFF800000 | _ => 0) = zeroValue f := by
  have h : ∀ r : BitVec 4, (match r.toNat with | 1 => 0x7F800000 | 2 => 0xFF800000 | _ => 0)
      = if r = 1 then (0x7F800000 : BitVec 32) else if r = 2 then 0xFF800000 else 0 := by decide
  exact h f.rs

/-- The body of MZERO. -/
def zeroBody (f : Rrr) (s : State) : M (State × Next) := seqM (
  if s.core.accBusy f.d.toNat then blocked 12
  else if s.core.rowsAt f.d.toNat || decide (s.core.zeroed ≠ 0) then s.zeroStep f.d.toNat (zeroValue f)
  else .ok (s.setCore (s.core.accFill f.d.toNat (List.replicate 32768 (zeroValue f)))))

theorem exec_mzero (f : Rrr) (s : State) : exec (.mzero f) s = runWord f.hdr f.w1.isSome false (zeroBody f) s := by
  unfold zeroBody
  simp only [← zeroValue_eq]
  rfl

section
variable {f : Rrr} {s s0 t : State} {key : Nat} {e : EngTag}

/-- MZERO waits while an accepted command uses its accumulator (log entry 33). -/
theorem mzero_busy (st : Starts (.mzero f) s key e s0) (h : s0.core.accBusy f.d.toNat = true) :
    exec (.mzero f) s = .next (s.modEng fun g => { g with reason := 12 }) :=
  blocks_of st rfl (exec_mzero f) (by rw [zeroBody, if_pos h]; rfl)

/-- Without a row command beside it, MZERO writes its accumulator whole. -/
theorem mzero_whole (st : Starts (.mzero f) s key e s0) (h : s0.core.accBusy f.d.toNat = false)
    (hr : s0.core.rowsAt f.d.toNat = false) (hz : s0.core.zeroed = 0) :
    Ends (.mzero f) s (s0.setCore (s0.core.accFill f.d.toNat (List.replicate 32768 (zeroValue f)))) .seq :=
  ends_of st rfl rfl (exec_mzero f) (seqM_ok (by rw [h, hr, hz, if_neg (by decide), if_neg (by decide)]))

/-- Beside one, the body of MZERO is a step of it. -/
theorem zeroBody_beside (h : s0.core.accBusy f.d.toNat = false) (hb : s0.core.rowsAt f.d.toNat = true ∨ s0.core.zeroed ≠ 0) :
    zeroBody f s0 = seqM (s0.zeroStep f.d.toNat (zeroValue f)) := by
  rw [zeroBody, if_neg (by simp [h]), if_pos (by simpa using hb)]

theorem mzero_beside (g : Goes (.mzero f) s key e s0) (h : s0.core.accBusy f.d.toNat = false)
    (hb : s0.core.rowsAt f.d.toNat = true ∨ s0.core.zeroed ≠ 0) :
    (∀ t, s0.zeroStep f.d.toNat (zeroValue f) = .ok t → Ends (.mzero f) s t .seq)
    ∧ ∀ t, s0.zeroStep f.d.toNat (zeroValue f) = .error (.wait t 0) → Waits (.mzero f) s t 0 :=
  ⟨fun _ ht => ends_of_goes g rfl rfl (exec_mzero f) ((zeroBody_beside h hb).trans (seqM_ok ht)),
    fun _ ht => waits_of_goes g rfl (exec_mzero f) ((zeroBody_beside h hb).trans (seqM_error ht))⟩

end

/-! ## MLOAD (R267) -/

section
variable {f : Rrr} {s s0 t : State} {key : Nat} {e : EngTag} {a : Word}

/-- The body of MLOAD. -/
def loadBody (f : Rrr) (s0 : State) : M (State × Next) := seqM do
  let (a, s) ← s0.src f.a (litVal 0 f.w1)
  if a.toNat % 16 ≠ 0 then raiseAt 0x20 a
  else if spadBytes < a.toNat + 131072 then raiseAt 0x23 a
  else if s.core.accBusy f.d.toNat then blocked 12
  else do
    let s ← s.watchLocal s0.curKey a.toNat 131072 false
    let (bs, s) ← (if 8191 ≤ s0.partsDone then s else s0).spadLoad s0.curKey s0.curKey (a.toNat + 16 * s0.partsDone) 16 a
    (s.setCore (s.core.accPart (32768 * f.d.toNat + 4 * s0.partsDone) (wordsOf bs))).partsNext 8191 s0.partsDone

theorem exec_mload (f : Rrr) (s : State) : exec (.mload f) s = runWord f.hdr f.w1.isSome false (loadBody f) s := rfl

theorem mload_misaligned (st : Starts (.mload f) s key e s0) (ha : s0.src f.a (litVal 0 f.w1) = .ok (a, t))
    (h : a.toNat % 16 ≠ 0) : Raises (.mload f) s { code := 0x20, addr := a } :=
  raises_of st rfl (exec_mload f) (by simp [loadBody, ha, h, seqM, bind, Except.bind, raiseAt])

theorem mload_outside (st : Starts (.mload f) s key e s0) (ha : s0.src f.a (litVal 0 f.w1) = .ok (a, t))
    (h : a.toNat % 16 = 0) (ho : 2 ^ 23 < a.toNat + 131072) : Raises (.mload f) s { code := 0x23, addr := a } := by
  have hs : spadBytes < a.toNat + 131072 := ho
  exact raises_of st rfl (exec_mload f) (by simp [loadBody, ha, h, hs, seqM, bind, Except.bind, raiseAt])

/-- The body of MLOAD at a granule that can be read: the granule's elements are written, and the word goes on. -/
theorem loadBody_granule {g : Nat} {t1 t3 : State} {bs : List Byte} (hk : s0.curKey = key) (hg : g = s0.partsDone)
    (ha : s0.src f.a (litVal 0 f.w1) = .ok (a, t)) (h : a.toNat % 16 = 0) (ho : a.toNat + 131072 ≤ 2 ^ 23)
    (hb : t.core.accBusy f.d.toNat = false) (hw : t.watchLocal key a.toNat 131072 false = .ok t1)
    (hl : (if 8191 ≤ g then t1 else s0).spadLoad key key (a.toNat + 16 * g) 16 a = .ok (bs, t3)) :
    loadBody f s0 = seqM ((t3.setCore (t3.core.accPart (32768 * f.d.toNat + 4 * g) (wordsOf bs))).partsNext 8191 g) := by
  have hs : ¬ spadBytes < a.toNat + 131072 := Nat.not_lt.2 ho
  subst hg hk
  simp [loadBody, ha, h, hs, hb, hw, hl, bind, Except.bind]

/-- MLOAD writes a granule's elements, and waits for the next one or, behind the last, ends. -/
theorem mload_granule {g : Nat} {t1 t2 t3 : State} {bs : List Byte} (go : Goes (.mload f) s key e s0)
    (ha : s0.src f.a (litVal 0 f.w1) = .ok (a, t)) (hg : g = s0.partsDone) (hle : g ≤ 8191) (h : a.toNat % 16 = 0)
    (ho : a.toNat + 131072 ≤ 2 ^ 23) (hb : t.core.accBusy f.d.toNat = false)
    (hw : t.watchLocal key a.toNat 131072 false = .ok t1) (h2 : t2 = if g = 8191 then t1 else s0)
    (hl : t2.spadLoad key key (a.toNat + 16 * g) 16 a = .ok (bs, t3)) :
    (g < 8191 → Waits (.mload f) s ((t3.setCore (t3.core.accPart (32768 * f.d.toNat + 4 * g) (wordsOf bs))).modEng
      fun x => { x with waitVal := some (BitVec.ofNat 64 (g + 1)) }) 0)
    ∧ (g = 8191 → Ends (.mload f) s (t3.setCore (t3.core.accPart (32768 * f.d.toNat + 4 * g) (wordsOf bs))) .seq) := by
  have h2' : t2 = if 8191 ≤ g then t1 else s0 := h2.trans (if_congr (by omega) rfl rfl)
  have hbody := loadBody_granule (State.curKey_cell (cur_of_goes go)) hg ha h ho hb hw (h2' ▸ hl)
  exact ⟨fun hlt => waits_of_goes go rfl (exec_mload f) (hbody.trans (seqM_error (if_neg (by omega)))),
    fun heq => ends_of_goes go rfl rfl (exec_mload f) (hbody.trans (seqM_ok (if_pos (by omega))))⟩

end

/-! ## MGO (R244, R250, R259 to R261) -/

section
variable {f : Rrr} {s s0 : State} {key : Nat} {e : EngTag}

/-- MGO waits for the words of C before it that write the table (R244). -/
theorem mgo_early (st : Starts (.mgo f) s key e s0) (h : s0.owes .c Instr.writesNest = true) :
    exec (.mgo f) s = .next (s.modEng fun g => { g with reason := 11 }) :=
  blocks_of st rfl (fun _ => rfl) (seqM_error (if_pos h))

theorem mgo_noSemiring (st : Starts (.mgo f) s key e s0) (h : s0.owes .c Instr.writesNest = false) (hs : 4 ≤ (mgoF f).sr) :
    Raises (.mgo f) s { code := 0x61 } :=
  raises_of st rfl (fun _ => rfl) (seqM_error ((if_neg (by simp [h])).trans (if_pos hs)))

theorem mgo_noCombination (st : Starts (.mgo f) s key e s0) (h : s0.owes .c Instr.writesNest = false) (hs : (mgoF f).sr < 4)
    (hc : mgoCombination (mgoF f).fa (mgoF f).fb (mgoF f).sr (mgoF f).scaled = false) : Raises (.mgo f) s { code := 0x60 } :=
  raises_of st rfl (fun _ => rfl)
    (seqM_error ((if_neg (by simp [h])).trans ((if_neg (by omega)).trans (if_pos (by simp [hc])))))

theorem mgo_badTable {lcs : List Nat} (st : Starts (.mgo f) s key e s0) (h : s0.owes .c Instr.writesNest = false) (hs : (mgoF f).sr < 4)
    (hc : mgoCombination (mgoF f).fa (mgoF f).fb (mgoF f).sr (mgoF f).scaled = true)
    (hl : s0.nestTrips s0.core.shadow [0, 1, 2, 3, 4, 5] = .ok lcs)
    (ht : s0.core.shadow.ok (mgoF f).fa (mgoF f).fb (mgoF f).conv (mgoF f).scaled (s0.core.shadow.levels lcs) = false) :
    Raises (.mgo f) s { code := 0x62 } := by
  have hl' : s0.nestTrips s0.core.shadow (List.range 6) = .ok lcs := hl
  refine raises_of st rfl (fun _ => rfl)
    (seqM_error ((if_neg (by simp [h])).trans ((if_neg (by omega)).trans ((if_neg (by simp [hc])).trans ?_))))
  simp only [hl', bind, Except.bind]
  exact if_pos (by simp [ht])

theorem mgo_accepted {lcs : List Nat} (st : Starts (.mgo f) s key e s0) (h : s0.owes .c Instr.writesNest = false) (hs : (mgoF f).sr < 4)
    (hc : mgoCombination (mgoF f).fa (mgoF f).fb (mgoF f).sr (mgoF f).scaled = true)
    (hl : s0.nestTrips s0.core.shadow [0, 1, 2, 3, 4, 5] = .ok lcs)
    (ht : s0.core.shadow.ok (mgoF f).fa (mgoF f).fb (mgoF f).conv (mgoF f).scaled (s0.core.shadow.levels lcs) = true) :
    ∃ st, Ends (.mgo f) s (((s0.setCore
      { s0.core with active := s0.core.shadow, shv := false, stampT0 := none, stamps := st }).accept
        (mgoJob f s0 lcs)).produceStamps key) .seq := by
  have hl' : s0.nestTrips s0.core.shadow (List.range 6) = .ok lcs := hl
  apply Exists.intro
  refine ends_of st rfl rfl (fun _ => rfl)
    (seqM_ok ((if_neg (by simp [h])).trans ((if_neg (by omega)).trans ((if_neg (by simp [hc])).trans ?_))))
  simp only [hl', bind, Except.bind]
  refine (if_neg (by simp [ht])).trans ?_
  rw [Starts.curKey st]
  rfl

end

/-- A record taken leaves the job's number. -/
theorem State.takeRecord_id {s t : State} {key h : Nat} {j j' : Job} (hr : s.takeRecord key j h = .ok (j', t)) : j'.id = j.id := by
  rw [State.takeRecord] at hr
  cases hrec : s.tileRecord key h with
  | error x => rw [hrec] at hr; cases hr
  | ok p =>
    obtain ⟨r, s1⟩ := p
    rw [hrec] at hr
    cases r with
    | ok rec => cases hr; rfl
    | error x =>
      by_cases he : j.early.isSome = true
      · simp only [bind, Except.bind, if_pos he] at hr
        cases hr; rfl
      · simp only [bind, Except.bind, if_neg he] at hr
        cases hr; rfl

theorem recordOf_id {s t : State} {key : Nat} {o : Opd} {j j' : Job} (hr : recordOf key o j s = .ok (j', t)) : j'.id = j.id := by
  unfold recordOf at hr
  split at hr
  · exact State.takeRecord_id hr
  · cases hr; rfl

/-- What follows the record of an operand, if it is a tile, follows from it. -/
theorem recordOf_bind {β : Type} {s t : State} {key : Nat} {o : Opd} {j j' : Job} (hr : recordOf key o j s = .ok (j', t))
    (k : Job × State → M β) :
    (if o.kind = 2 then s.takeRecord key j (natBits o.wa.toNat 0 16) >>= k else k (j, s)) = k (j', t) := by
  unfold recordOf at hr
  split at hr
  · next hk =>
    have hr' : s.takeRecord key j (natBits o.wa.toNat 0 16) = .ok (j', t) := hr
    rw [if_pos hk, hr']; rfl
  · next hk => rw [if_neg hk]; cases hr; rfl

/-- An MGO that has not started takes the records of its tile operands, and the pad value (R255, R258). -/
theorem mgoPlan_prep (key : Nat) (j : Job) (f : Rrr) (h : j.started = false) : ∃ p, (State.mgoPlan key j f).prep = some p
    ∧ ∀ s j1 s1 j2 s2, recordOf key j.nest.opdA j s = .ok (j1, s1) → recordOf key j.nest.opdB j1 s1 = .ok (j2, s2) →
      p s = .ok (s2.modJob key j.id fun x =>
        { x with started := true, pad := (s2.cell key).padval, trecs := j2.trecs, early := j2.early }) := by
  refine ⟨_, if_neg (by simp [h]), fun s j1 s1 j2 s2 h1 h2 => ?_⟩
  rw [← (recordOf_id h2).trans (recordOf_id h1)]
  exact (recordOf_bind h1 _).trans (recordOf_bind h2 _)

theorem matrixWordsComplete : MatrixWordsComplete :=
  ⟨fun _ _ _ _ _ st => ⟨mgo_early st, fun ho => ⟨mgo_noSemiring st ho, fun hs => ⟨mgo_noCombination st ho hs,
      fun hc _ hl => ⟨mgo_badTable st ho hs hc hl, mgo_accepted st ho hs hc hl⟩⟩⟩⟩,
    mgoPlan_prep,
    fun _ _ _ _ _ st => ⟨mzero_busy st, mzero_whole st⟩,
    fun _ _ _ _ _ _ g hb hv h => hv ▸ mzero_beside g hb h,
    fun _ _ m v hc => zeroStep_spec m v hc,
    fun _ _ _ _ _ _ _ _ go ha hg hle => ⟨fun st => mload_misaligned st ha, fun st => mload_outside st ha,
      fun _ _ _ _ h ho hb hw h2 hl => mload_granule go ha hg hle h ho hb hw h2 hl⟩,
    fun c n vs => ⟨fun i => c.accPart_written n i vs, fun i => c.accPart_kept n i vs⟩,
    fun c m _ hl => ⟨fun n => c.accFill_written m n hl, fun n => c.accFill_kept m n hl⟩⟩

/-- Settles O45: each branch of MGO, MZERO and MLOAD is run, and the sums follow from exact addition being free of order. -/
theorem matrixWordsAndSums : Obligations.MatrixWordsAndSums := ⟨matrixWordsComplete, groupSums⟩

end Sys2Proof.Machine
end

