-- ==== Sys2Proof/Proofs/ScalarOperands.lean ====
section
/-! SUPPORT. The registers at reset, register zero (R49), the scalar operand codes (R59, R94, R132), and the address words
(R120 to R122). -/

namespace Sys2Proof.Machine

open Claims

/-! ## Registers -/

/-- Settles O7: each register reads as `State.reset` lists it, and what it does not list reads as its default. -/
theorem resetValues : Obligations.ResetValues := by
  refine ⟨rfl, rfl, rfl, fun _ => ⟨rfl, rfl, rfl, rfl, rfl, rfl⟩, fun _ => rfl, fun _ => rfl, ?_⟩
  refine ⟨rfl, rfl, rfl, rfl, rfl, rfl, rfl, rfl, rfl, rfl, rfl, rfl, rfl, rfl, rfl, rfl, rfl, rfl, rfl, rfl, rfl, rfl, rfl, rfl,
    rfl, rfl, rfl, ?_⟩
  exact fun _ => ⟨rfl, rfl, rfl, rfl, rfl, fun _ => rfl⟩

section
variable {s : State} {key n : Nat} {e : EngTag} (w : Word)

theorem State.readX_zero (s : State) : s.readX 0 = .ok 0 := rfl

theorem State.writeX_zero (s : State) : s.writeX 0 w = .ok s := rfl

/-- A scalar code below 64 names an a register on A, and an x register on every other engine (R94). -/
theorem State.readReg_eq (s : State) (n : Nat) :
    s.readReg n = if s.curEng = .a then .ok (if n = 0 then 0 else FMap.get s.core.a n 0) else s.readX n := by
  unfold State.readReg
  cases s.curEng <;> rfl

theorem State.writeReg_eq (s : State) (n : Nat) : s.writeReg n w
    = if s.curEng = .a then .ok (if n = 0 then s else s.setCore { s.core with a := FMap.set s.core.a n w 0 }) else s.writeX n w := by
  unfold State.writeReg
  cases s.curEng <;> rfl

/-- Settles O9: register 0 is the first case of each access to the registers. -/
theorem registerZeroIsHardWired : Obligations.RegisterZeroIsHardWired := by
  intro s w
  refine ⟨s.readX_zero, ?_, s.writeX_zero w, ?_⟩
  · rw [State.readReg_eq, s.readX_zero, if_pos rfl, ite_self]
  · rw [State.writeReg_eq, s.writeX_zero, if_pos rfl, ite_self]

theorem State.readReg_a (hc : s.cur = .cell key .a) (hn : n ≠ 0) : s.readReg n = .ok (FMap.get s.core.a n 0) := by
  rw [State.readReg_eq, if_pos (State.curEng_cell hc), if_neg hn]

theorem State.readReg_c (hc : s.cur = .cell key .c) (hn : n ≠ 0) : s.readReg n = .ok (FMap.get s.core.x n 0) := by
  rw [State.readReg_eq, State.curEng_cell hc, if_neg (by decide), State.readX, if_neg hn]
  simp only [State.curEng_cell hc]

theorem State.writeReg_a (hc : s.cur = .cell key .a) (hn : n ≠ 0) :
    s.writeReg n w = .ok (s.setCore { s.core with a := FMap.set s.core.a n w 0 }) := by
  rw [State.writeReg_eq, if_pos (State.curEng_cell hc), if_neg hn]

/-- C's write of a register of which no version is kept: three versions are never exceeded, and it does not wait (R50). -/
theorem State.writeReg_c (hc : s.cur = .cell key .c) (hn : n ≠ 0) (hh : s.core.handler = none) (hv : ∀ v ∈ s.core.xVer, v.reg ≠ n) :
    ∃ xv, s.writeReg n w = .ok (s.setCore { s.core with x := FMap.set s.core.x n w 0, xVer := xv }) := by
  have hnone : ((s.core.xVer.filter fun v => s.core.xNeeded s.curClass v.pos).filter fun v => v.reg == n) = [] := by
    rw [List.filter_eq_nil_iff]
    intro v hm
    rw [beq_iff_eq]
    exact hv v (List.mem_filter.1 hm).1
  rw [State.writeReg_eq, State.curEng_cell hc, if_neg (by decide), State.writeX, if_neg hn]
  simp only [hh, Option.isSome_none, Bool.false_eq_true, if_false, hnone, List.length_nil]
  exact ⟨_, if_neg (by simp)⟩

end

/-! ## Operand codes -/

section
variable {s : State} {key : Nat} {e : EngTag} {code : BitVec 8} (lit w : Word)

theorem operandCode_ne_zero (h : code ≠ 0) : code.toNat ≠ 0 := fun h0 => h (BitVec.eq_of_toNat_eq h0)

theorem operandCode_reserved (h1 : 64 ≤ code.toNat) (h2 : code.toNat ≤ 0xFD) : ¬ code.toNat < 64 ∧ code ≠ 0xFE ∧ code ≠ 0xFF := by
  refine ⟨by omega, ?_, ?_⟩ <;> rintro rfl <;> exact absurd h2 (by decide)

theorem State.src_literal (s : State) : s.src 0xFF lit = .ok (lit, s) := rfl

theorem State.src_reserved (s : State) (h1 : 64 ≤ code.toNat) (h2 : code.toNat ≤ 0xFD) : s.src code lit = raise 0x05 := by
  obtain ⟨h3, h4, h5⟩ := operandCode_reserved h1 h2
  rw [State.src, if_neg h5, if_neg h4, if_neg h3]

theorem State.src_register {v : Word} (h : code.toNat < 64) (hr : s.readReg code.toNat = .ok v) : s.src code lit = .ok (v, s) := by
  have h5 : code ≠ 0xFF := by rintro rfl; exact absurd h (by decide)
  have h4 : code ≠ 0xFE := by rintro rfl; exact absurd h (by decide)
  rw [State.src, if_neg h5, if_neg h4, if_pos h, hr]
  rfl

theorem State.src_queue (hc : s.cur = .cell key e) : s.src 0xFE lit = s.popQ := by
  rw [State.src, if_neg (by decide), if_pos rfl, hc]

theorem State.dst_reserved (hc : s.cur = .cell key e) (h1 : 64 ≤ code.toNat) (h2 : code.toNat ≤ 0xFD) :
    s.dst code w = raise 0x05 := by
  obtain ⟨h3, h4, h5⟩ := operandCode_reserved h1 h2
  rw [State.dst, if_neg h3, hc]
  simp only [if_neg h4, if_neg h5]

theorem State.dst_register (h : code.toNat < 64) : s.dst code w = s.writeReg code.toNat w := if_pos h

/-- C pushes to qa (R94). -/
theorem State.dst_queue_c (hc : s.cur = .cell key .c) : s.dst 0xFE w = s.pushQ .a w := by
  rw [State.dst, if_neg (by decide), hc]
  simp only [State.curEng_cell hc, if_true]

/-- A pushes to qx with code 0xFE, and to qc with 0xFF. -/
theorem State.dst_queue_a (hc : s.cur = .cell key .a) : s.dst 0xFE w = s.pushQ .x w ∧ s.dst 0xFF w = s.pushQ .c w := by
  constructor
  · rw [State.dst, if_neg (by decide), hc]
    simp only [State.curEng_cell hc, if_true]
  · rw [State.dst, if_neg (by decide), hc]
    simp only [State.curEng_cell hc]
    rfl

/-- 0xFF is a destination of A alone. -/
theorem State.dst_ff_c (hc : s.cur = .cell key .c) : s.dst 0xFF w = raise 0x05 := by
  rw [State.dst, if_neg (by decide), hc]
  simp only [State.curEng_cell hc]
  rfl

theorem State.pushQ_done {dest : EngTag} (h : (s.core.eng dest).done = true) : s.pushQ dest w = .ok s := if_pos h

theorem State.pushQ_c (h : s.core.engC.done = false) : s.pushQ .c w
    = if s.core.qc.length < 32 then .ok (s.setCore { s.core with qc := s.core.qc ++ [w] }) else blocked 3 :=
  if_neg (ne_true_of_eq_false h)

theorem State.pushQ_a (h : s.core.engA.done = false) : s.pushQ .a w
    = if s.core.qa.length < 32 then .ok (s.setCore { s.core with qa := s.core.qa ++ [w] }) else blocked 3 :=
  if_neg (ne_true_of_eq_false h)

theorem State.pushQ_x (h : s.core.engX.done = false) : s.pushQ .x w
    = if s.core.qx.length < 64 then .ok (s.setCore { s.core with qx := s.core.qx ++ [w] }) else blocked 3 :=
  if_neg (ne_true_of_eq_false h)

end

theorem scalarSourcesRead : ScalarSourcesRead := by
  intro s key e code lit w q hc
  refine ⟨?_, s.src_reserved lit, ?_, ?_, ?_, ?_, ?_, ?_, ?_, ?_⟩
  · rintro rfl; exact s.src_literal lit
  · rintro rfl hlt hne; exact State.src_register lit hlt (State.readReg_a hc (operandCode_ne_zero hne))
  · rintro rfl hlt hne; exact State.src_register lit hlt (State.readReg_c hc (operandCode_ne_zero hne))
  all_goals
    rintro rfl rfl hq
    rw [State.src_queue lit hc, State.popQ, State.curEng_cell hc]
    simp only [hq]

theorem scalarDestinationsWrite : ScalarDestinationsWrite := by
  intro s key e code w hc
  refine ⟨?_, ?_, ?_, ?_, ?_, ?_, ?_, ?_, ?_, State.dst_reserved w hc, ?_⟩
  · rintro rfl hlt hne
    rw [State.dst_register w hlt, State.writeReg_a w hc (operandCode_ne_zero hne)]
  · rintro rfl hlt hne hh hv
    rw [State.dst_register w hlt]
    exact State.writeReg_c w hc (operandCode_ne_zero hne) hh hv
  · rintro rfl rfl hd hl; rw [State.dst_queue_c w hc, State.pushQ_a w hd, if_pos hl]
  · rintro rfl rfl hd hl; rw [(State.dst_queue_a w hc).1, State.pushQ_x w hd, if_pos hl]
  · rintro rfl rfl hd hl; rw [(State.dst_queue_a w hc).2, State.pushQ_c w hd, if_pos hl]
  · rintro rfl rfl hd hl; rw [State.dst_queue_c w hc, State.pushQ_a w hd, if_neg (Nat.not_lt.2 hl)]
  · rintro rfl rfl hd hl; rw [(State.dst_queue_a w hc).1, State.pushQ_x w hd, if_neg (Nat.not_lt.2 hl)]
  · rintro rfl rfl hd; rw [State.dst_queue_c w hc, State.pushQ_done (dest := .a) w hd]
  · rintro rfl rfl hd; rw [(State.dst_queue_a w hc).1, State.pushQ_done (dest := .x) w hd]
  · rintro rfl rfl; exact State.dst_ff_c w hc

/-- Settles O10: each code is one case of a source or of a destination. -/
theorem scalarOperands : Obligations.ScalarOperands := ⟨scalarSourcesRead, scalarDestinationsWrite⟩

/-! ## Address words -/

section
variable {apers : List Word} {w : Nat} {a b : Word}

/-- The offset of a generic address in a window that takes it. -/
theorem cvtaTow_inside {off : Nat} (h : windowOf apers (addrVa a) = some (w, off)) (hc : canonical a = true) :
    cvtaTow apers w a = BitVec.ofNat 64 off := by
  rw [cvtaTow, h]
  exact if_pos ⟨hc, rfl⟩

/-- All ones for an address that the window does not take. -/
theorem cvtaTow_outside (h : canonical a = false ∨ ∀ off, windowOf apers (addrVa a) ≠ some (w, off)) :
    cvtaTow apers w a = BitVec.allOnes 64 := by
  unfold cvtaTow
  split
  · next i off hw =>
    refine if_neg fun ⟨hc, hi⟩ => ?_
    rcases h with h | h
    · rw [hc] at h; cases h
    · exact h off (hi ▸ hw)
  · rfl

/-- The generic address of an offset within a window. -/
theorem cvtaTog_inside {v : Word} {base size : Nat} (hv : apers[w]? = some v) (hr : aperRange v = some (base, size))
    (ha : a.toNat < size) : cvtaTog apers w a b = BitVec.ofNat 64 (b.toNat % 16 * 2 ^ 60 + (base + a.toNat)) := by
  rw [cvtaTog, hv, Option.bind_some, hr]
  exact if_pos ha

/-- All ones for an offset that no enabled window of that number holds. -/
theorem cvtaTog_outside (h : ∀ v base size, apers[w]? = some v → aperRange v = some (base, size) → size ≤ a.toNat) :
    cvtaTog apers w a b = BitVec.allOnes 64 := by
  unfold cvtaTog
  split
  · next base size hr =>
    obtain ⟨v, hv, hr⟩ := Option.bind_eq_some_iff.1 hr
    exact if_neg (Nat.not_lt.2 (h v base size hv hr))
  · rfl

end

section
variable {s : State} {a : Word}

theorem aptestVal_inside {i off : Nat} (h : windowOf s.curApers (addrVa a) = some (i, off)) (hc : canonical a = true) :
    aptestVal s a = BitVec.ofNat 64
      (i + (if s.beyond (keyChip s.curKey) (s.ctxPart (s.nodeCtx s.curNode)) i off then 16 else 0)) := by
  rw [aptestVal, h]
  exact if_pos hc

theorem aptestVal_outside (h : windowOf s.curApers (addrVa a) = none ∨ canonical a = false) : aptestVal s a = 0xF := by
  unfold aptestVal
  split
  · next hw =>
    rcases h with h | h
    · rw [hw] at h; cases h
    · rw [h]; rfl
  · rfl

end

/-- A as a signed number, clamped to 0 to 2^32 - 1 (R122). -/
theorem lcVal_eq (a : Word) : lcVal a = if a.toInt < 0 then 0 else if 2 ^ 32 ≤ a.toInt then 0xFFFFFFFF else a := by
  have ha := a.toInt_eq_toNat_cond
  have hlt := a.isLt
  unfold lcVal
  split
  · next h =>
    rw [Int.max_eq_right (by omega)]
    rfl
  · next h =>
    rw [Int.max_eq_left (by omega)]
    split
    · next h32 => rw [Int.min_eq_right (by omega)]; rfl
    · next h32 =>
      rw [Int.min_eq_left (by omega)]
      refine BitVec.eq_of_toNat_eq ?_
      rw [BitVec.toNat_ofNat]
      split at ha <;> omega

/-- Settles O16: each word's body ends with the value that its function gives, case by case. -/
theorem addressWordsComplete : Obligations.AddressWordsComplete := by
  refine ⟨fun f s key e a s1 y t st hfl ha hy ht => ?_, fun f s key e a b s2 y t st hfl hab hy ht => ?_,
    fun f s key e a s1 y t st ha hy ht => ?_, fun f s key e a s1 t st ha ht => ?_⟩
  · have hv : cvtaTow s1.curApers f.rs.toNat a = y := by
      rcases hy with ⟨off, hw, hc, rfl⟩ | ⟨ho, rfl⟩
      · exact cvtaTow_inside hw hc
      · exact cvtaTow_outside ho
    refine runWord_ok st (seqM_ok ?_)
    simp only [ha, bind, Except.bind, hfl, hv, ht, Bool.false_eq_true, if_false]
  · obtain ⟨s1, ha, hb⟩ := hab
    have hv : cvtaTog s2.curApers f.rs.toNat a b = y := by
      rcases hy with ⟨w, base, size, hw, hr, hlt, rfl⟩ | ⟨ho, rfl⟩
      · exact cvtaTog_inside hw hr hlt
      · exact cvtaTog_outside ho
    refine runWord_ok st (seqM_ok ?_)
    simp only [ha, hb, bind, Except.bind, hfl, hv, ht, if_true]
  · have hv : aptestVal s1 a = y := by
      rcases hy with ⟨i, off, hw, hc, rfl⟩ | ⟨ho, rfl⟩
      · exact aptestVal_inside hw hc
      · exact aptestVal_outside ho
    refine runWord_ok st (seqM_ok ?_)
    simp only [ha, bind, Except.bind, hv, ht]
  · refine runWord_ok st (seqM_ok ?_)
    simp only [ha, bind, Except.bind, lcVal_eq, ht]

end Sys2Proof.Machine
end

