-- ==== Sys2Proof/Proofs/Tokens.lean ====
section
/-! SUPPORT. Token pushes and the retirement that makes them (R58, R85, R125, R288 to R290): which counter a push reaches, which
push gives way, and what each leaves alone. -/

namespace Sys2Proof.Machine

open Claims

/-! ## Completion queues and counters -/

theorem Eng.counter_setCounter (g : Eng) (n : Nat) (v : BitVec 8) : (g.setCounter n v).counter n = v :=
  FMap.get_set_same g.tok n v 0

/-- What is noted of entries that left a completion queue changes no engine. -/
@[simp] theorem Cell.noteCq_eng (c : Cell) (e : EngTag) (n : BitVec 3) (k : Nat) (f : EngTag) :
    (c.noteCq e n k).eng f = c.eng f := by
  have hnow : ∀ l, ({ c with nowTok := l } : Cell).eng f = c.eng f := fun _ => by cases f <;> rfl
  unfold Cell.noteCq
  dsimp only
  split
  · rw [Cell.foldl_eng, hnow]
    intro d _ f
    split
    · next x _ =>
      cases x.2 <;> cases f <;> rfl
    · rfl
  · exact hnow _

@[simp] theorem Cell.noteTok_eng (c : Cell) (r : Nat) (p : Push) (f : EngTag) : (c.noteTok r p).eng f = c.eng f := by
  cases f <;> rfl

theorem Cell.applyCq_eng_same (c : Cell) (e : EngTag) (n : BitVec 3) : (c.applyCq e n).eng e = (c.eng e).applyCq n := by
  rw [Cell.applyCq, Cell.noteCq_eng, Cell.eng_setEng_same]

theorem Cell.applyCq_eng_ne (c : Cell) {e f : EngTag} (n : BitVec 3) (h : f ≠ e) : (c.applyCq e n).eng f = c.eng f := by
  rw [Cell.applyCq, Cell.noteCq_eng, Cell.eng_setEng_ne _ _ h]

/-! ## A push to a counter (R288) -/

section
variable {c : Cell} {p : Push}

/-- A push to an engine at END is discarded (R132). -/
theorem Cell.pushTok_done (h : (c.eng p.eng).done = true) : c.pushTok p = some c := if_pos h

/-- A counter at 255 takes no push. -/
theorem Cell.pushTok_full (hd : (c.eng p.eng).done = false)
    (hv : ((c.eng p.eng).applyCq p.cnt).counter p.cnt.toNat = 255) : c.pushTok p = none := by
  rw [Cell.pushTok, if_neg (ne_true_of_eq_false hd)]
  dsimp only
  rw [Cell.applyCq_eng_same, if_pos hv]

/-- Another counter takes it, after the entries of the completion queue. -/
theorem Cell.pushTok_taken (hd : (c.eng p.eng).done = false)
    (hv : ((c.eng p.eng).applyCq p.cnt).counter p.cnt.toNat ≠ 255) : c.pushTok p = some ((c.applyCq p.eng p.cnt).setEng p.eng
      (((c.eng p.eng).applyCq p.cnt).setCounter p.cnt.toNat (((c.eng p.eng).applyCq p.cnt).counter p.cnt.toNat + 1))) := by
  rw [Cell.pushTok, if_neg (ne_true_of_eq_false hd)]
  dsimp only
  rw [Cell.applyCq_eng_same, if_neg hv]

/-! ## A push that gives way (R288) -/

theorem EngTag.ofNum_num (e : EngTag) : EngTag.ofNum e.num = some e := by cases e <;> rfl

theorem EngTag.num_inj {e f : EngTag} (h : e.num = f.num) : e = f :=
  Option.some.inj ((EngTag.ofNum_num e).symm.trans ((congrArg EngTag.ofNum h).trans (EngTag.ofNum_num f)))

/-- No push of this cycle ranks behind one where each to the same counter ranks before it. -/
theorem Cell.laterTok_none {r : Nat} (h : ∀ x ∈ c.nowTok, x.1 ≤ r ∨ x.2 ≠ p) : c.laterTok r p = none := by
  unfold Cell.laterTok
  generalize c.nowTok = l at h ⊢
  induction l with
  | nil => rfl
  | cons x l ih =>
    rw [List.forall_mem_cons] at h
    rw [List.foldl_cons, if_neg]
    · exact ih h.2
    · have hx : ¬ (x.2 = p ∧ r < x.1) := by
        rintro ⟨h1, h2⟩
        rcases h.1 with h | h
        · omega
        · exact h h1
      simpa using hx

theorem Cell.laterTok_single {r r' : Nat} (h : c.nowTok = [(r', p)]) (hlt : r < r') : c.laterTok r p = some r' := by
  simp [Cell.laterTok, h, hlt]

/-- The push of an engine that has issued no word since gives way: the engine holds it again. -/
theorem Cell.giveWay_held {e : EngTag} (hh : (c.eng e).held = none) (hi : (c.eng e).issued = false) :
    ∃ d : Cell, (∀ f, d.eng f = c.eng f) ∧ c.giveWay e.num p = some (d.setEng e { c.eng e with held := some p }) := by
  have hd : ∀ f, ({ c with nowTok := c.nowTok.erase (e.num, p) } : Cell).eng f = c.eng f := fun f => by cases f <;> rfl
  refine ⟨_, hd, ?_⟩
  unfold Cell.giveWay
  dsimp only
  rw [EngTag.ofNum_num]
  dsimp only
  rw [if_pos (by simp [hh, hi]), hd e]

/-- The push of an engine that holds another, or has issued a further word, does not. -/
theorem Cell.giveWay_none {e : EngTag} (h : ¬ ((c.eng e).held = none ∧ (c.eng e).issued = false)) : c.giveWay e.num p = none := by
  unfold Cell.giveWay
  dsimp only
  rw [EngTag.ofNum_num]
  dsimp only
  rw [if_neg (by simpa using h)]

/-! ## The push of a retiring word -/

variable {e : EngTag}

theorem Cell.retireTok_done (h : (c.eng p.eng).done = true) : c.retireTok e p = some (c.noteTok e.num p) := by
  rw [Cell.retireTok, Cell.pushTok_done h]

/-- A push that is taken raises its counter by one and changes no other engine. -/
theorem Cell.retireTok_taken {v : BitVec 8} (hd : (c.eng p.eng).done = false)
    (hv : v = ((c.eng p.eng).applyCq p.cnt).counter p.cnt.toNat) (h255 : v ≠ 255) :
    ∃ d, c.retireTok e p = some d ∧ (d.eng p.eng).counter p.cnt.toNat = v + 1
      ∧ (d.eng p.eng).held = (c.eng p.eng).held ∧ ∀ f, f ≠ p.eng → d.eng f = c.eng f := by
  subst hv
  refine ⟨_, by rw [Cell.retireTok, Cell.pushTok_taken hd h255], ?_, ?_, fun f hf => ?_⟩
  · rw [Cell.noteTok_eng, Cell.eng_setEng_same, Eng.counter_setCounter]
  · rw [Cell.noteTok_eng, Cell.eng_setEng_same]
    rfl
  · rw [Cell.noteTok_eng, Cell.eng_setEng_ne _ _ hf, Cell.applyCq_eng_ne _ _ hf]

theorem Cell.retireTok_full (hd : (c.eng p.eng).done = false) (hv : ((c.eng p.eng).applyCq p.cnt).counter p.cnt.toNat = 255) :
    c.retireTok e p = (c.laterTok e.num p).bind fun r => (c.giveWay r p).map fun d => d.noteTok e.num p := by
  rw [Cell.retireTok, Cell.pushTok_full hd hv]

/-- At a full counter a push waits where none of this cycle ranks behind it. -/
theorem Cell.retireTok_none (hd : (c.eng p.eng).done = false) (hv : ((c.eng p.eng).applyCq p.cnt).counter p.cnt.toNat = 255)
    (h : ∀ x ∈ c.nowTok, x.1 ≤ e.num ∨ x.2 ≠ p) : c.retireTok e p = none := by
  rw [Cell.retireTok_full hd hv, Cell.laterTok_none h]
  rfl

/-- The same where the push that ranks behind does not give way. -/
theorem Cell.retireTok_stays {e' : EngTag} (hd : (c.eng p.eng).done = false)
    (hv : ((c.eng p.eng).applyCq p.cnt).counter p.cnt.toNat = 255) (hn : c.nowTok = [(e'.num, p)]) (hlt : e.num < e'.num)
    (h : ¬ ((c.eng e').held = none ∧ (c.eng e').issued = false)) : c.retireTok e p = none := by
  rw [Cell.retireTok_full hd hv, Cell.laterTok_single hn hlt, Option.bind_some, Cell.giveWay_none h]
  rfl

/-- Else the push takes the place of the one that ranks behind it, whose engine holds its own again. -/
theorem Cell.retireTok_giveWay {e' : EngTag} (hd : (c.eng p.eng).done = false)
    (hv : ((c.eng p.eng).applyCq p.cnt).counter p.cnt.toNat = 255) (hn : c.nowTok = [(e'.num, p)]) (hlt : e.num < e'.num)
    (hh : (c.eng e').held = none) (hi : (c.eng e').issued = false) :
    ∃ d, c.retireTok e p = some d ∧ d.eng e' = { c.eng e' with held := some p } ∧ ∀ f, f ≠ e' → d.eng f = c.eng f := by
  obtain ⟨d, hde, hg⟩ := Cell.giveWay_held (p := p) hh hi
  refine ⟨(d.setEng e' { c.eng e' with held := some p }).noteTok e.num p, ?_, ?_, fun f hf => ?_⟩
  · rw [Cell.retireTok_full hd hv, Cell.laterTok_single hn hlt, Option.bind_some, hg]
    rfl
  · rw [Cell.noteTok_eng, Cell.eng_setEng_same]
  · rw [Cell.noteTok_eng, Cell.eng_setEng_ne _ _ hf, hde]

end

/-! ## The cell when a word retires -/

/-- A pass notes that the pushes of the engine's earlier words give way no more (R288). -/
def Cell.pastPushes (c : Cell) (e : EngTag) : List (Nat × Push) :=
  c.nowTok.map fun (x : Nat × Push) => if x.1 = e.num then (0, x.2) else x

theorem Cell.settleVrot_bqHeld_nowTok (c : Cell) (n : Nat) :
    (c.settleVrot n).bqHeld = c.bqHeld ∧ (c.settleVrot n).nowTok = c.nowTok := by
  unfold Cell.settleVrot
  dsimp only
  generalize c.vrotPend.filter (fun p => c.engX.done || decide (p.1 < n)) = l
  induction l generalizing c with
  | nil => exact ⟨rfl, rfl⟩
  | cons p l ih => exact ih (c.setVrot p.2)

theorem Cell.pass_bqHeld_nowTok (c : Cell) (cls : DieClass) (e : EngTag) (pc : Nat) (own : Bool) :
    (c.pass cls e pc own).bqHeld = c.bqHeld ∧ (c.pass cls e pc own).nowTok = c.pastPushes e := by
  unfold Cell.pass
  dsimp only
  split
  · exact ⟨Cell.setEng_bqHeld _ _ _, Cell.setEng_nowTok _ _ _⟩
  · have hp : ∀ d : Cell, (d.prune cls).bqHeld = d.bqHeld ∧ (d.prune cls).nowTok = d.nowTok := fun _ => ⟨rfl, rfl⟩
    rw [(hp _).1, (hp _).2, (Cell.settleVrot_bqHeld_nowTok _ _).1, (Cell.settleVrot_bqHeld_nowTok _ _).2, Cell.setEng_bqHeld,
      Cell.setEng_nowTok]
    split <;> exact ⟨rfl, rfl⟩

/-- Outside every loop an engine that moves on leaves the entries held back, and notes the pushes of its earlier words. -/
theorem Cell.advance_bqHeld_nowTok {c : Cell} {e : EngTag} (cls : DieClass) (wide own : Bool) {n : Next} {pc : Nat}
    (hn : n = .seq ∨ n = .goto pc) (hl : (c.eng e).lstack = []) :
    (c.advance cls e n wide own).bqHeld = c.bqHeld ∧ (c.advance cls e n wide own).nowTok = c.pastPushes e := by
  have hs : c.setEng e { c.eng e with lstack := [] } = c := by rw [← hl]; exact c.setEng_lstack e
  rcases hn with rfl | rfl <;>
  · simp only [Cell.advance, hl, loopEnd]
    rw [hs, (Cell.pass_bqHeld_nowTok _ _ _ _ _).1, (Cell.pass_bqHeld_nowTok _ _ _ _ _).2, Cell.pastPushes]
    split
    · exact ⟨(Cell.settleVrot_bqHeld_nowTok _ _).1, congrArg _ (Cell.settleVrot_bqHeld_nowTok _ _).2⟩
    · exact ⟨rfl, rfl⟩

/-- Entries held back enter no bq of an engine at END. -/
theorem Cell.bqPut_eng_done (c : Cell) (cls : DieClass) (p : EngTag) (x : BqEnt) {g : EngTag} (h : (c.eng g).done = true) :
    (c.bqPut cls p x).eng g = c.eng g := by
  rw [Cell.bqPut_bq, if_neg]
  simp [Cell.bqTakers, Cell.live, h]

theorem Cell.bqPut_nowTok (c : Cell) (cls : DieClass) (p : EngTag) (x : BqEnt) : (c.bqPut cls p x).nowTok = c.nowTok := by
  unfold Cell.bqPut
  generalize c.bqTakers cls p x = l
  induction l generalizing c with
  | nil => rfl
  | cons g l ih => rw [List.foldl_cons, ih, Cell.setEng_nowTok]

theorem Cell.bqEnter_eng_done (cls : DieClass) (code : List Word) (l : List (EngTag × BqEnt)) {c : Cell} {g : EngTag}
    (h : (c.eng g).done = true) : (Cell.bqEnter cls code l c).eng g = c.eng g := by
  induction l generalizing c with
  | nil => rfl
  | cons y ys ih =>
    have hy : ({ c.bqPut cls y.1 y.2 with bqHeld := ys } : Cell).eng g = c.eng g :=
      (Cell.bqHeld_eng _ ys g).trans (c.bqPut_eng_done cls y.1 y.2 h)
    unfold Cell.bqEnter
    split
    · rfl
    · rw [ih (by rw [hy]; exact h), hy]

theorem Cell.bqEnter_nowTok (cls : DieClass) (code : List Word) (l : List (EngTag × BqEnt)) (c : Cell) :
    (Cell.bqEnter cls code l c).nowTok = c.nowTok := by
  induction l generalizing c with
  | nil => rfl
  | cons y ys ih =>
    unfold Cell.bqEnter
    split
    · rfl
    · rw [ih]
      exact c.bqPut_nowTok cls y.1 y.2

/-! ## Retirement -/

/-- The executing cell when its engine has moved on from a retiring word. -/
def State.movedOn (s : State) (h : Hdr) (wide : Bool) (n : Next) : Cell :=
  let e := s.curEng
  let c := (if h.eng = 7 ∧ e = .c then s.core.noteOrd else s.core).advance s.curClass e n wide true
  if e = .m then { c with reachM := s.tick } else c

/-- The same when entries held back have entered the bqs, before the word's token is pushed. -/
def State.retiring (s : State) (h : Hdr) (wide : Bool) (n : Next) : Cell :=
  Cell.bqEnter s.curClass s.curCode (s.movedOn h wide n).bqHeld (s.movedOn h wide n)

/-- The push of a token by an engine, which holds it where it is not accepted (R289). -/
def Cell.pushOrHold (c : Cell) (e : EngTag) (p : Push) : Cell :=
  (c.retireTok e p).getD (c.setEng e { c.eng e with held := some p })

section
variable {s : State} {key : Nat} {e : EngTag} {h : Hdr} {wide : Bool} {n : Next}

theorem State.retire_eq_retiring (hs : h.sig = none) : s.retire h wide n = s.setCore (s.retiring h wide n) := by
  simp only [State.retire, hs]
  rfl

theorem State.retire_eq_pushOrHold {g : Sig} (hs : h.sig = some g) (hd : g.done = false) (h7 : h.eng ≠ 7) :
    s.retire h wide n = s.setCore ((s.retiring h wide n).pushOrHold s.curEng ⟨g.eng, g.cnt⟩) := by
  have hp : (h.eng ≠ 7 ∨ s.core.handler.isSome = true ∨ s.core.lastAt s.curClass s.curEng = true) ∧ (!g.done) = true :=
    ⟨.inl h7, by rw [hd]; rfl⟩
  simp only [State.retire, hs, if_pos hp, Cell.pushOrHold, State.retiring, State.movedOn]
  split
  · next c hc => rw [hc]; rfl
  · next hc => rw [hc]; rfl

/-- Noting a write of ORDWATCH changes nothing that a retirement reads. -/
theorem Cell.noteOrd_bqHeld_nowTok (c : Cell) : c.noteOrd.bqHeld = c.bqHeld ∧ c.noteOrd.nowTok = c.nowTok := by
  unfold Cell.noteOrd
  split <;> exact ⟨rfl, rfl⟩

variable (hc : s.cur = .cell key e) (hh : s.core.handler = none) (hl : (s.core.eng e).lstack = [])
include hc hh hl

/-- Outside handler mode and every loop only the retiring word's engine moves on. -/
theorem State.movedOn_spec {pc : Nat} (hn : n = .seq ∧ pc = (s.core.eng e).pc + (if wide then 16 else 8) ∨ n = .goto pc) :
    (s.movedOn h wide n).eng e = (s.core.eng e).passed pc true
    ∧ (∀ f, f ≠ e → (s.movedOn h wide n).eng f = s.core.eng f)
    ∧ (s.movedOn h wide n).bqHeld = s.core.bqHeld ∧ (s.movedOn h wide n).nowTok = s.core.pastPushes e := by
  have hreach : ∀ (c : Cell) (f : EngTag), ({ c with reachM := s.tick } : Cell).eng f = c.eng f := fun c f => by cases f <;> rfl
  obtain ⟨c, hcc, he, hch, hb, ht⟩ : ∃ c : Cell, (if h.eng = 7 ∧ e = .c then s.core.noteOrd else s.core) = c
      ∧ (∀ f, c.eng f = s.core.eng f) ∧ c.handler = none ∧ c.bqHeld = s.core.bqHeld ∧ c.nowTok = s.core.nowTok := by
    refine ⟨_, rfl, ?_⟩
    split
    · exact ⟨s.core.noteOrd_eng, s.core.noteOrd_handler.trans hh, s.core.noteOrd_bqHeld_nowTok⟩
    · exact ⟨fun _ => rfl, hh, rfl, rfl⟩
  have hcl : (c.eng e).lstack = [] := (he e).symm ▸ hl
  obtain ⟨h1, h2⟩ := Cell.advance_eng s.curClass wide true (by rw [he e]; exact hn) hch hcl
  obtain ⟨h3, h4⟩ := Cell.advance_bqHeld_nowTok s.curClass wide true (hn.imp_left And.left) hcl
  have hadv : (c.advance s.curClass e n wide true).eng e = (s.core.eng e).passed pc true
      ∧ (∀ f, f ≠ e → (c.advance s.curClass e n wide true).eng f = s.core.eng f)
      ∧ (c.advance s.curClass e n wide true).bqHeld = s.core.bqHeld
      ∧ (c.advance s.curClass e n wide true).nowTok = s.core.pastPushes e :=
    ⟨h1.trans (by rw [he]), fun f hf => (h2 f hf).trans (he f), h3.trans hb, h4.trans (by rw [Cell.pastPushes, ht]; rfl)⟩
  simp only [State.movedOn, State.curEng_cell hc, hcc]
  by_cases hm : e = .m
  · simpa only [if_pos hm, hreach] using hadv
  · rw [if_neg hm]
    exact hadv

/-- Entries held back then enter the bqs of engines that are not at END. -/
theorem State.retiring_spec {pc : Nat} (hn : n = .seq ∧ pc = (s.core.eng e).pc + (if wide then 16 else 8) ∨ n = .goto pc) :
    (∃ q, (s.retiring h wide n).eng e = { (s.core.eng e).passed pc true with bq := q })
    ∧ (∀ f, f ≠ e → ∃ q, (s.retiring h wide n).eng f = { s.core.eng f with bq := q })
    ∧ (∀ f, f ≠ e → s.core.bqHeld = [] ∨ (s.core.eng f).done = true → (s.retiring h wide n).eng f = s.core.eng f)
    ∧ (s.retiring h wide n).nowTok = s.core.pastPushes e := by
  obtain ⟨h1, h2, h3, h4⟩ := State.movedOn_spec (h := h) hc hh hl hn
  refine ⟨?_, fun f hf => ?_, fun f hf ho => ?_, (Cell.bqEnter_nowTok _ _ _ _).trans h4⟩
  · rw [← h1]
    exact Cell.bqEnter_eng _ _ _ _ e
  · rw [← h2 f hf]
    exact Cell.bqEnter_eng _ _ _ _ f
  · rcases ho with ho | ho
    · rw [State.retiring, h3, ho]
      exact h2 f hf
    · rw [State.retiring, Cell.bqEnter_eng_done _ _ _ (by rw [h2 f hf]; exact ho), h2 f hf]

end

/-! ## A retiring word's token -/

section
variable {c : Cell} {e : EngTag} {p : Push}

theorem Cell.pastPushes_before (h : ∀ x ∈ c.nowTok, x.1 ≤ e.num ∨ x.2 ≠ p) : ∀ x ∈ c.pastPushes e, x.1 ≤ e.num ∨ x.2 ≠ p := by
  intro x hx
  obtain ⟨y, hy, rfl⟩ := List.mem_map.1 hx
  split
  · exact .inl (Nat.zero_le _)
  · exact h y hy

theorem Cell.pastPushes_behind {r : Nat} (h : c.nowTok = [(r, p)]) (hr : e.num < r) : c.pastPushes e = [(r, p)] := by
  rw [Cell.pastPushes, h, List.map_singleton, if_neg (by simp only; omega)]

theorem Cell.pushOrHold_some {d : Cell} (h : c.retireTok e p = some d) : c.pushOrHold e p = d := by rw [Cell.pushOrHold, h]; rfl

theorem Cell.pushOrHold_none (h : c.retireTok e p = none) :
    ((c.pushOrHold e p).eng e).held = some p ∧ ∀ f, f ≠ e → (c.pushOrHold e p).eng f = c.eng f := by
  rw [Cell.pushOrHold, h, Option.getD_none]
  exact ⟨by rw [Cell.eng_setEng_same], fun f hf => Cell.eng_setEng_ne _ _ hf⟩

end

theorem retirementMovesTheEngineOn : RetirementMovesTheEngineOn := by
  intro s key e h wide target hc hs hh hl
  have hseq := State.retiring_spec (h := h) (wide := wide) hc hh hl (.inl ⟨rfl, rfl⟩)
  have hgoto := State.retiring_spec (h := h) (wide := wide) (n := .goto target) hc hh hl (.inr rfl)
  simp only [State.retire_eq_retiring hs, State.core_setCore hc]
  obtain ⟨⟨q, hq⟩, hne, hsame, -⟩ := hseq
  obtain ⟨⟨q', hq'⟩, hne', hsame', -⟩ := hgoto
  refine ⟨?_, ?_, fun f hf => ⟨hne f hf, hne' f hf⟩, fun f hf hb => ⟨hsame f hf (.inl hb), hsame' f hf (.inl hb)⟩⟩
  · rw [hq]; exact ⟨rfl, rfl, rfl⟩
  · rw [hq']; exact ⟨rfl, rfl, rfl⟩

theorem signalPushesAToken : SignalPushesAToken := by
  intro s key e h g wide hc hs hgd h7 hge hh hl
  obtain ⟨⟨q, hown⟩, hne, hsame, hnow⟩ := State.retiring_spec (h := h) (wide := wide) hc hh hl (.inl ⟨rfl, rfl⟩)
  simp only [State.retire_eq_pushOrHold hs hgd h7, State.core_setCore hc, State.curEng_cell hc]
  generalize s.retiring h wide .seq = c at hown hne hsame hnow ⊢
  obtain ⟨qg, hg⟩ := hne g.eng hge
  have hdone : (c.eng g.eng).done = (s.core.eng g.eng).done := by rw [hg]
  have hcnt : (c.eng g.eng).counter g.cnt.toNat = (s.core.eng g.eng).counter g.cnt.toNat := by rw [hg]; rfl
  have hv : ((c.eng g.eng).applyCq g.cnt).counter g.cnt.toNat = ((s.core.eng g.eng).applyCq g.cnt).counter g.cnt.toNat := by
    rw [hg]; rfl
  have hheld : (c.eng e).held = (s.core.eng e).held := by rw [hown]; rfl
  refine ⟨fun hd h255 => ?_, fun hd h255 hx => ?_, fun e' hd h255 hx hlt => ?_, fun hd => ?_⟩
  · obtain ⟨d, hr, h1, -, h3⟩ := Cell.retireTok_taken (e := e) (p := ⟨g.eng, g.cnt⟩) (hdone.trans hd) hv.symm h255
    rw [Cell.pushOrHold_some hr]
    exact ⟨h1, by rw [h3 e hge.symm, hheld]⟩
  · have hr := Cell.retireTok_none (e := e) (p := ⟨g.eng, g.cnt⟩) (hdone.trans hd) (hv.trans h255)
      (by rw [hnow]; exact Cell.pastPushes_before hx)
    obtain ⟨h1, h2⟩ := Cell.pushOrHold_none hr
    exact ⟨by rw [h2 g.eng hge, hcnt], h1⟩
  · have hne' : e' ≠ e := by rintro rfl; omega
    obtain ⟨q', he'⟩ := hne e' hne'
    have hb : c.nowTok = [(e'.num, ⟨g.eng, g.cnt⟩)] := hnow.trans (Cell.pastPushes_behind hx hlt)
    by_cases hw : (c.eng e').held = none ∧ (c.eng e').issued = false
    · obtain ⟨d, hr, h1, h2⟩ := Cell.retireTok_giveWay (e := e) (p := ⟨g.eng, g.cnt⟩) (hdone.trans hd) (hv.trans h255) hb hlt hw.1 hw.2
      rw [Cell.pushOrHold_some hr]
      refine ⟨?_, fun _ _ => ⟨by rw [h1], by rw [h2 e hne'.symm, hheld]⟩, fun hi => ?_⟩
      · by_cases hge' : g.eng = e'
        · rw [hge', h1, ← hge']; exact hcnt
        · rw [h2 _ hge', hcnt]
      · rw [he'] at hw
        exact absurd hw.2 (by simp [hi])
    · have hr := Cell.retireTok_stays (e := e) (p := ⟨g.eng, g.cnt⟩) (hdone.trans hd) (hv.trans h255) hb hlt hw
      obtain ⟨h1, h2⟩ := Cell.pushOrHold_none hr
      refine ⟨by rw [h2 g.eng hge, hcnt], fun hh' hi => ?_, fun _ => h1⟩
      rw [he'] at hw
      exact absurd ⟨hh', hi⟩ hw
  · have hr := Cell.retireTok_done (e := e) (p := ⟨g.eng, g.cnt⟩) (hdone.trans hd)
    rw [Cell.pushOrHold_some hr, Cell.noteTok_eng]
    exact hsame g.eng hge (.inr hd)

/-- Settles O12: retirement moves on the engine alone, and the four clauses are the four ends of a push. -/
theorem retirementMovesOnAndSignals : Obligations.RetirementMovesOnAndSignals :=
  ⟨retirementMovesTheEngineOn, signalPushesAToken⟩

end Sys2Proof.Machine
end

