-- ==== Sys2Proof/Proofs/CellEvents.lean ====
section
/-! SUPPORT. The events of a cell (R61, R137, R146, R289, R290, R306, R309, R354), one lemma per event. -/

namespace Sys2Proof.Machine

open Claims

/-! ## The start of a shard and the end of a wait -/

section
variable {s : State} {k : Nat} {c : Cell}

theorem scratchpadClearDone_event (hc : c = s.cell k) :
    (c.phase = .clearing → exec (.scratchpadClearDone k) s = .next (s.setCell k
      { c with phase := if s.tick < c.startTick then .timed else .running, pollSince := s.tick }))
    ∧ (c.phase ≠ .clearing → exec (.scratchpadClearDone k) s = .next s) := by
  subst hc
  exact ⟨fun h => congrArg Host.Outcome.next (if_neg (not_not_intro h)), fun h => congrArg Host.Outcome.next (if_pos h)⟩

theorem timedStart_event (hc : c = s.cell k) :
    (c.phase = .timed → c.startTick ≤ s.tick →
      exec (.timedStart k) s = .next (s.setCell k { c with phase := .running, pollSince := s.tick }))
    ∧ ((c.phase ≠ .timed ∨ s.tick < c.startTick) → exec (.timedStart k) s = .next s) := by
  subst hc
  refine ⟨fun h ht => congrArg Host.Outcome.next (if_pos ⟨h, ht⟩), fun h => congrArg Host.Outcome.next (if_neg ?_)⟩
  rintro ⟨h1, h2⟩
  rcases h with h | h
  · exact h h1
  · omega

/-- A WAITTICK that has issued ends once its tick has come (R137). -/
theorem waittickEnd_event {f : Rrr} {v : Word} (hk : (FMap.find? s.cells k).isSome = true) (hr : (s.cell k).mayRun .c = true)
    (hh : (s.cell k).engC.held = none) (hm : ({ s with cur := .cell k .c } : State).myFault = none)
    (hi : (s.cell k).engC.issued = true) (hv : (s.cell k).engC.waitVal = some v) (hw : s.cInstr k = some (.waittick f))
    (ht : v.toNat ≤ s.tick) :
    exec (.waittickEnd k) s = .next (({ s with cur := .cell k .c } : State).retire f.hdr f.w1.isSome .seq) := by
  have hrun : exec (.waittickEnd k) s = execWaittick f { s with cur := .cell k .c } := by
    change execWaittickEnd k s = _
    rw [execWaittickEnd, if_neg (by simp [hi, Option.ne_none_iff_isSome.2 hk]), hw]
  have hgoes : Goes (.waittick f) { s with cur := .cell k .c } k .c { s with cur := .cell k .c } :=
    .inr ⟨f.hdr, rfl, rfl, hk, hr, hh, hm, hi, rfl⟩
  have hbody : ({ s with cur := .cell k .c } : State).heldOperand f.a (litVal 0 f.w1) = .ok (v, { s with cur := .cell k .c }) := by
    unfold State.heldOperand
    rw [show (({ s with cur := .cell k .c } : State).core.eng ({ s with cur := .cell k .c } : State).curEng).waitVal = some v from hv]
  rw [hrun]
  refine (exec_goes hgoes rfl (fun _ => rfl)).trans ?_
  simp only [hbody, bind, Except.bind, if_pos ht]
  rfl

end

/-! ## Trap entry (R146, R149) -/

section
variable {s : State} {k : Nat} {c : Cell} {x : Cause}

theorem execTrapEntry_eq (hc : c = s.cell k) (hx : c.pendTrap = some x) : execTrapEntry k s = .next (
    if !c.fatals.isEmpty then s.setCell k { c with pendTrap := none }
    else if (c.live (chipClass (keyChip k))).all fun e => e == x.eng || !(c.eng e).outside then
      s.setCell k (c.trapEntry x (s.cWait k))
    else s) := by
  subst hc
  unfold execTrapEntry event
  simp only [hx]

/-- A word's WAIT given back changes no address of its engine. -/
theorem Eng.giveWait_pc (g : Eng) (w : BitVec 8) : (g.giveWait w).pc = g.pc := by
  unfold Eng.giveWait
  generalize List.range 8 = l
  induction l generalizing g with
  | nil => rfl
  | cons i l ih =>
    rw [List.foldl_cons, ih]
    split <;> rfl

/-- What the handler finds on its entry: the trap's place, and every engine but C as it stood. -/
theorem Cell.trapEntry_spec (c : Cell) (x : Cause) (w : BitVec 8) :
    (c.trapEntry x w).pendTrap = none ∧ (c.trapEntry x w).epc.toNat = x.pc % 2 ^ 57 / 8 * 8 ∧ (c.trapEntry x w).eaddr = x.addr
    ∧ (c.trapEntry x w).engC.pc = c.tvec.toNat
    ∧ (∃ h, (c.trapEntry x w).handler = some h ∧ h.trapEng = x.eng ∧ h.trapPc = x.pc ∧ h.cStop = c.engC.pc)
    ∧ (c.trapEntry x w).x = c.x ∧ (c.trapEntry x w).a = c.a ∧ (c.trapEntry x w).spad = c.spad
    ∧ ∀ e, e ≠ .c → (c.trapEntry x w).eng e = c.eng e := by
  have hepc : (BitVec.ofNat 64 (x.pc % 2 ^ 57 / 8 * 8)).toNat = x.pc % 2 ^ 57 / 8 * 8 := by
    rw [BitVec.toNat_ofNat]
    omega
  unfold Cell.trapEntry
  dsimp only
  split
  · refine ⟨rfl, hepc, rfl, rfl, ⟨_, rfl, rfl, rfl, c.engC.giveWait_pc w⟩, rfl, rfl, rfl,
      fun e he => match e, he with | .a, _ | .x, _ | .m, _ | .w, _ | .k, _ => rfl⟩
  · refine ⟨rfl, hepc, rfl, rfl, ⟨_, rfl, rfl, rfl, rfl⟩, rfl, rfl, rfl,
      fun e he => match e, he with | .a, _ | .x, _ | .m, _ | .w, _ | .k, _ => rfl⟩

theorem trapEntry_event (hc : c = s.cell k) (hx : c.pendTrap = some x) :
    (c.fatals ≠ [] → exec (.trapEntry k) s = .next (s.setCell k { c with pendTrap := none }))
    ∧ (c.fatals = [] → (∃ e ∈ c.live (chipClass (keyChip k)), e ≠ x.eng ∧ (c.eng e).outside = true) →
        exec (.trapEntry k) s = .next s)
    ∧ (c.fatals = [] → (∀ e ∈ c.live (chipClass (keyChip k)), e ≠ x.eng → (c.eng e).outside = false) →
        exec (.trapEntry k) s = .next (s.setCell k (c.trapEntry x (s.cWait k)))) := by
  refine ⟨fun hf => ?_, fun hf ⟨e, he, hne, ho⟩ => ?_, fun hf ho => ?_⟩ <;> refine (execTrapEntry_eq hc hx).trans (congrArg _ ?_)
  · rw [if_pos (by simpa using hf)]
  · rw [if_neg (by simp [hf]), if_neg]
    rw [List.all_eq_true]
    intro hall
    have := hall e he
    simp [hne, ho] at this
  · rw [if_neg (by simp [hf]), if_pos]
    rw [List.all_eq_true]
    intro e he
    by_cases hne : e = x.eng
    · simp [hne]
    · simp [ho e he hne]

end

/-! ## Held pushes and completion queues (R288 to R290) -/

section
variable {s : State} {k : Nat} {e : EngTag} {p : Push}

/-- The cell when an engine's held push has been accepted. -/
def Cell.released (c : Cell) (e : EngTag) : Cell := { c.setEng e { c.eng e with held := none, reason := 0 } with stalledSince := none }

theorem Cell.released_eng (c : Cell) (e : EngTag) :
    (c.released e).eng e = { c.eng e with held := none, reason := 0 } ∧ ∀ f, f ≠ e → (c.released e).eng f = c.eng f := by
  refine ⟨?_, fun f hf => ?_⟩ <;> rw [Cell.released, Cell.stalledSince_eng]
  · rw [Cell.eng_setEng_same]
  · rw [Cell.eng_setEng_ne _ _ hf]

theorem Cell.released_counter (c : Cell) (e f : EngTag) (n : Nat) : ((c.released e).eng f).counter n = (c.eng f).counter n := by
  by_cases hf : f = e
  · rw [hf, (c.released_eng e).1]
    rfl
  · rw [(c.released_eng e).2 f hf]

theorem heldPushAccept_some {d : Cell} (hp : ((s.cell k).eng e).held = some p) (h : (s.cell k).retireTok e p = some d) :
    exec (.heldPushAccept k e) s = .next (s.setCell k (d.released e)) := by
  change execHeldPushAccept k e s = _
  unfold execHeldPushAccept
  simp only [hp, h]
  rfl

theorem heldPushAccept_none (hp : ((s.cell k).eng e).held = some p) (h : (s.cell k).retireTok e p = none) :
    exec (.heldPushAccept k e) s = .next s := by
  change execHeldPushAccept k e s = _
  unfold execHeldPushAccept
  simp only [hp, h]
  rfl

/-- A push to an engine at END is discarded, and the engine holds none any more. -/
theorem heldPushAccept_discarded (hp : ((s.cell k).eng e).held = some p) (hd : ((s.cell k).eng p.eng).done = true) :
    ∃ t : State, exec (.heldPushAccept k e) s = .next t
      ∧ ((t.cell k).eng e).held = none ∧ ∀ g, g ≠ e → (t.cell k).eng g = (s.cell k).eng g := by
  refine ⟨_, heldPushAccept_some hp (Cell.retireTok_done hd), ?_⟩
  obtain ⟨h1, h2⟩ := ((s.cell k).noteTok e.num p).released_eng e
  rw [State.cell_setCell_same, h1]
  exact ⟨rfl, fun g hg => (h2 g hg).trans (Cell.noteTok_eng _ _ _ g)⟩

/-- A push that its counter takes. -/
theorem heldPushAccept_taken {v : BitVec 8} (hp : ((s.cell k).eng e).held = some p) (hd : ((s.cell k).eng p.eng).done = false)
    (hv : v = (((s.cell k).eng p.eng).applyCq p.cnt).counter p.cnt.toNat) (h255 : v ≠ 255) :
    ∃ t : State, exec (.heldPushAccept k e) s = .next t ∧ ((t.cell k).eng e).held = none
      ∧ ((t.cell k).eng p.eng).counter p.cnt.toNat = v + 1 := by
  obtain ⟨d, hr, hcnt, -, -⟩ := Cell.retireTok_taken (e := e) hd hv h255
  refine ⟨_, heldPushAccept_some hp hr, ?_⟩
  rw [State.cell_setCell_same, (d.released_eng e).1, Cell.released_counter]
  exact ⟨rfl, hcnt⟩

/-- At a full counter, a push in whose place another engine holds its own again. -/
theorem heldPushAccept_givenWay {e' : EngTag} (hp : ((s.cell k).eng e).held = some p) (hd : ((s.cell k).eng p.eng).done = false)
    (hv : (((s.cell k).eng p.eng).applyCq p.cnt).counter p.cnt.toNat = 255) (hn : (s.cell k).nowTok = [(e'.num, p)])
    (hlt : e.num < e'.num) (hh : ((s.cell k).eng e').held = none) (hi : ((s.cell k).eng e').issued = false) :
    ∃ t : State, exec (.heldPushAccept k e) s = .next t ∧ ((t.cell k).eng e).held = none ∧ ((t.cell k).eng e').held = some p
      ∧ ((t.cell k).eng p.eng).counter p.cnt.toNat = ((s.cell k).eng p.eng).counter p.cnt.toNat := by
  obtain ⟨d, hr, h1, h2⟩ := Cell.retireTok_giveWay (e := e) hd hv hn hlt hh hi
  have hne : e' ≠ e := by rintro rfl; omega
  refine ⟨_, heldPushAccept_some hp hr, ?_⟩
  rw [State.cell_setCell_same, (d.released_eng e).1, (d.released_eng e).2 e' hne, h1, Cell.released_counter]
  refine ⟨rfl, rfl, ?_⟩
  by_cases hg : p.eng = e'
  · rw [hg, h1]
    rfl
  · rw [h2 _ hg]

theorem completionQueueApply_event {i : Nat} {n : BitVec 3} {g : Eng} (hg : g = (s.cell k).eng e) (hn : g.cq[i]? = some n) :
    ((n ∈ g.cq.take i ∨ g.counter n.toNat = 255) → exec (.completionQueueApply k e i) s = .next s)
    ∧ (n ∉ g.cq.take i → g.counter n.toNat ≠ 255 → exec (.completionQueueApply k e i) s = .next (s.setCell k
        (((s.cell k).setEng e { g.setCounter n.toNat (g.counter n.toNat + 1) with cq := g.cq.eraseIdx i }).noteCq e n 1))) := by
  subst hg
  have hx : exec (.completionQueueApply k e i) s = .next (
      if (((s.cell k).eng e).cq.take i).contains n || ((s.cell k).eng e).counter n.toNat == 255 then s
      else s.setCell k (((s.cell k).setEng e { ((s.cell k).eng e).setCounter n.toNat (((s.cell k).eng e).counter n.toNat + 1) with
        cq := ((s.cell k).eng e).cq.eraseIdx i }).noteCq e n 1)) := by
    change execCompletionQueueApply k e i s = _
    unfold execCompletionQueueApply
    simp only [hn]
    rfl
  rw [hx]
  exact ⟨fun h => congrArg _ (if_pos (by simpa using h)), fun h1 h2 => congrArg _ (if_neg (by simpa using ⟨h1, h2⟩))⟩

end

/-! ## Lines of the caches (R306, R309) -/

section
variable {s : State} {k line : Nat}

theorem l1Eviction_held {t : State} (hl : (s.cell k).l1Holds (lineOf line) = true)
    (ht : s.l1Evict k (s.cellPart k) (lineOf line) true = .ok t) : exec (.l1Eviction k line) s = .next t := by
  change execL1Eviction k line s = _
  rw [execL1Eviction, if_pos hl, ht]
  rfl

theorem l1Eviction_replaced (hl : (s.cell k).l1Holds (lineOf line) = false) :
    exec (.l1Eviction k line) s = .next (s.replaced k (lineOf line)) :=
  congrArg Host.Outcome.next (if_neg (ne_true_of_eq_false hl))

end

/-- Settles O48: one lemma for each event, of what it does where its condition holds and where it does not. -/
theorem cellEventsComplete : Obligations.CellEventsComplete := by
  refine ⟨fun s k c hc => ?_, fun s k c x hc hx => ?_, fun s k f v hk hr hh hm hi hv hw => waittickEnd_event hk hr hh hm hi hv hw,
    fun s k e p v hp hv => ?_, fun s k e i n g hg hn => completionQueueApply_event hg hn,
    fun s t k line hl ht => l1Eviction_held hl ht, fun s k line hl => l1Eviction_replaced hl⟩
  · exact ⟨(scratchpadClearDone_event hc).1, (scratchpadClearDone_event hc).2, timedStart_event hc⟩
  · obtain ⟨h1, h2, h3⟩ := trapEntry_event hc hx
    refine ⟨h1, h2, fun hf ho => ⟨_, h3 hf ho, s.setCell_frame k _, ?_⟩⟩
    rw [State.cell_setCell_same]
    exact c.trapEntry_spec x (s.cWait k)
  · exact ⟨fun hd => heldPushAccept_discarded hp hd, fun hd h255 => heldPushAccept_taken hp hd hv h255,
      fun hd h255 hx => heldPushAccept_none hp (Cell.retireTok_none hd (hv.symm.trans h255) hx),
      fun e' hd h255 hn hlt hh hi => heldPushAccept_givenWay hp hd (hv.symm.trans h255) hn hlt hh hi⟩

end Sys2Proof.Machine
end

