-- ==== Sys2Proof/Proofs/AccessChecks.lean ====
section
/-! SUPPORT. The checks of an access of a cell in their order (R72, R154, R414, R418, R469): one lemma per check, each where the
checks before it hold. -/

namespace Sys2Proof.Machine

open Claims

/-! ## Watchpoints (R417, R418) -/

/-- A watchpoint faults on an access: armed, with COUNT 0, and it matches. -/
def WatchPt.faultsOn (p : WatchPt) (w : Watched) : Bool := p.ctl.getLsbD 8 && p.hits w && !p.ctl.getLsbD 9

theorem WatchPt.faultsOn_iff (p : WatchPt) (w : Watched) :
    p.faultsOn w = true ↔ p.ctl.getLsbD 8 = true ∧ p.ctl.getLsbD 9 = false ∧ p.hits w = true := by
  simp only [WatchPt.faultsOn, Bool.and_eq_true, Bool.not_eq_true']
  tauto

section
variable {s : State} {key : Nat} {w : Watched}

/-- The first watchpoint that faults, as a search of the list finds it. -/
theorem fires_iff {i : Nat} :
    Fires s key w i ↔ ∃ p, (s.watchOf key).zipIdx.find? (fun e => e.1.faultsOn w) = some (p, i) := by
  simp only [Fires, ← WatchPt.faultsOn_iff, List.find?_eq_some_iff_getElem]
  constructor
  · rintro ⟨⟨p, hp, hf⟩, hmin⟩
    obtain ⟨hi, rfl⟩ := List.getElem?_eq_some_iff.1 hp
    refine ⟨_, hf, i, by simpa using hi, by simp, fun j hj => ?_⟩
    have := hmin j (s.watchOf key)[j] hj (List.getElem?_eq_getElem (by omega))
    simpa using this
  · rintro ⟨p, hf, j, hj, he, hmin⟩
    have hj' : j < (s.watchOf key).length := by simpa using hj
    simp only [List.getElem_zipIdx, Nat.zero_add, Prod.mk.injEq] at he
    obtain ⟨rfl, rfl⟩ := he
    refine ⟨⟨_, List.getElem?_eq_getElem hj', hf⟩, fun k p hk hp => ?_⟩
    obtain ⟨hk', rfl⟩ := List.getElem?_eq_some_iff.1 hp
    have := hmin k hk
    simpa using this

/-- Check 9 faults with the number of the first watchpoint that does. -/
theorem watchCheck_fires {i : Nat} (now : List WatchPt) (h : Fires s key w i) : watchCheck (s.watchOf key) now w = .error i := by
  obtain ⟨p, hp⟩ := fires_iff.1 h
  have hp' : (s.watchOf key).zipIdx.find? (fun e => e.1.ctl.getLsbD 8 && e.1.hits w && !e.1.ctl.getLsbD 9) = some (p, i) := hp
  simp only [watchCheck, hp']

theorem watchCheck_calm (now : List WatchPt) (h : ∀ i, ¬ Fires s key w i) : ∃ ps, watchCheck (s.watchOf key) now w = .ok ps := by
  have hp : (s.watchOf key).zipIdx.find? (fun e => e.1.ctl.getLsbD 8 && e.1.hits w && !e.1.ctl.getLsbD 9) = none := by
    rcases hf : (s.watchOf key).zipIdx.find? (fun e => e.1.faultsOn w) with _ | e
    · exact hf
    · exact absurd (fires_iff.2 ⟨e.1, hf⟩) (h e.2)
  simp only [watchCheck, hp]
  exact ⟨_, rfl⟩

end

section
variable {s s1 : State} {key : Nat} {q : Acc} {p : Place} {scope : Nat}

/-- An access that comes to check 9 in a state has the ends of that check. -/
theorem watching_of (h : s.access key q = do .ok (p, ← s1.watchAt key q scope)) : Watching s key q s1 p scope := by
  refine ⟨fun hw => ?_, fun i hw hf => ?_, fun hw hn => ?_⟩
  · rw [h, State.watchAt, hw]
    rfl
  · rw [h, State.watchAt, hw]
    simp only [Bool.not_true, Bool.false_eq_true, if_false, watchCheck_fires _ hf]
    rfl
  · obtain ⟨ps, hps⟩ := watchCheck_calm (s1.cell key).watch hn
    rw [h, State.watchAt, hw]
    simp only [Bool.not_true, Bool.false_eq_true, if_false, hps]
    refine ⟨_, rfl, ?_⟩
    split
    · exact ⟨rfl, fun _ _ => rfl⟩
    · exact s1.setCell_frame key _

end

/-! ## The granule tag (R414) -/

/-- Check 8 on an access to a location, and check 9 behind it; a write ends polling (R357). -/
def State.tagCheck (s : State) (key part : Nat) (q : Acc) (loc : Nat) : M (Place × State) :=
  let tag := s.tagServed key part loc (levelOf loc q.scope) q.row
  if tag ≠ addrTag q.addr then
    .error (.cause { code := 0x40, addr := q.addr, tags := some (addrTag q.addr, tag) } none)
  else do
    let s := if q.write || q.atomic then s.setCell key { s.cell key with pollSince := s.tick } else s
    .ok (.line loc, ← s.watchAt key q (q.element.getD q.scope))

theorem tagged_of {s s1 : State} {key part loc : Nat} {q : Acc} (h : s.access key q = s1.tagCheck key part q loc) :
    Tagged s key part q s1 loc := by
  rw [State.tagCheck] at h
  exact ⟨fun ht => h.trans (if_pos ht), fun ht => watching_of (h.trans (if_neg (not_not_intro ht)))⟩

/-! ## Where an access goes -/

/-- The part of an access that stands behind checks 1 to 7: its place by its window, with checks 8 and 9. -/
def State.placeAccess (s : State) (key : Nat) (q : Acc) (win off : Nat) : M (Place × State) :=
  let peer := cellKey (keyChip key) (off / spadBytes)
  let ctx := s.nodeCtx (s.cell key).node
  let part := s.ctxPart ctx
  match win with
  | 0 => do .ok (.spad key off, ← s.watchAt key q (q.element.getD 0))
  | 1 => do .ok (.spad peer (off % spadBytes), ← s.watchAt key q (q.element.getD (if peer = key then 0 else 1)))
  | 2 => match s.tarnAt part off with | some loc => s.tagCheck key part q loc | none => raiseAt 0x23 q.addr
  | _ =>
    match s.tlbLookup key ctx (addrVa q.addr) with
    | (.leaf t, s) =>
      if (q.write || q.atomic) && !t.w then raiseAt 0x25 q.addr
      else s.tagCheck key part q (s.locOf t ctx (addrVa q.addr) q.shadow)
    | (.invalid pgbl, _) =>
      if pgbl then .error (.page ctx (addrVa q.addr / 16384) (q.write || q.atomic) q.addr) else raiseAt 0x24 q.addr
    | (.ue p, _) => .error (.cause { code := 0xE1, addr := q.addr, aux := ueAux p } none)

section
variable {s : State} {key : Nat} {q : Acc}

theorem State.access_uncanonical (h : canonical q.addr = false) : s.access key q = raiseAt 0x21 q.addr := by
  simp only [State.access, h, Bool.not_false, if_true]

variable (hc : canonical q.addr = true)
include hc

theorem State.access_noWindow (h : windowOf (s.apers (s.nodeCtx (s.cell key).node)) (addrVa q.addr) = none) :
    s.access key q = raiseAt 0x22 q.addr := by
  simp only [State.access, hc, h, Bool.not_true, Bool.false_eq_true, if_false]

variable {win off : Nat} (hw : windowOf (s.apers (s.nodeCtx (s.cell key).node)) (addrVa q.addr) = some (win, off))
include hw

theorem State.access_beyond (h : s.beyond (keyChip key) (s.ctxPart (s.nodeCtx (s.cell key).node)) win off = true) :
    s.access key q = raiseAt 0x23 q.addr := by
  simp only [State.access, hc, hw, h, Bool.not_true, Bool.false_eq_true, if_false, if_true]

/-- Checks 3 to 7 of an access within the backing of its window, in their order (log entry 143). -/
theorem State.access_within (hb : s.beyond (keyChip key) (s.ctxPart (s.nodeCtx (s.cell key).node)) win off = false) :
    s.access key q =
      if win = 1 ∧ (!(s.cell (cellKey (keyChip key) (off / spadBytes))).serves) = true then raiseAt 0x23 q.addr
      else if 2 ≤ win ∧ q.spadOnly = true then raiseAt 0x23 q.addr
      else if win ≤ 1 ∧ (q.atomic || q.scopeRule) = true ∧ 2 ≤ q.atomScope then raiseAt 0x28 q.addr
      else if q.addr.toNat % q.align ≠ 0 then raiseAt 0x20 q.addr
      else s.placeAccess key q win off := by
  simp only [State.access, hc, hw, hb, Bool.not_true, Bool.false_eq_true, if_false]
  rfl

end

section
variable {s : State} {key off : Nat} {q : Acc}

/-- The ends of a GLOBAL access by what the translation answers (R388 to R391). -/
theorem State.placeAccess_global {s1 : State} {r : WalkEnd}
    (h : s.tlbLookup key (s.nodeCtx (s.cell key).node) (addrVa q.addr) = (r, s1)) :
    s.placeAccess key q 3 off = match r with
      | .leaf t =>
        if ((q.write || q.atomic) && !t.w) = true then raiseAt 0x25 q.addr
        else s1.tagCheck key (s.ctxPart (s.nodeCtx (s.cell key).node)) q
          (s1.locOf t (s.nodeCtx (s.cell key).node) (addrVa q.addr) q.shadow)
      | .invalid pgbl =>
        if pgbl then .error (.page (s.nodeCtx (s.cell key).node) (addrVa q.addr / 16384) (q.write || q.atomic) q.addr)
        else raiseAt 0x24 q.addr
      | .ue p => .error (.cause { code := 0xE1, addr := q.addr, aux := ueAux p } none) := by
  simp only [State.placeAccess, h]
  cases r <;> rfl

/-- A write, or an atomic, where the page admits none, and where it does. -/
theorem writes_refused_iff {t : TlbEnt} :
    ((q.write || q.atomic) && !t.w) = true ↔ (q.write = true ∨ q.atomic = true) ∧ t.w = false := by
  simp only [Bool.and_eq_true, Bool.or_eq_true, Bool.not_eq_true']

end

/-- Settles O27: each clause is one check of the chain, where those before it hold. -/
theorem accessChecksInOrder : Obligations.AccessChecksInOrder := by
  intro s key q ctx part
  refine ⟨State.access_uncanonical, fun hc => ⟨State.access_noWindow hc, fun win off hw => ?_⟩⟩
  intro peer
  refine ⟨State.access_beyond hc hw, fun hb => ?_⟩
  have hx := State.access_within hc hw hb
  refine ⟨fun h1 hs => hx.trans (if_pos ⟨h1, by rw [hs]; rfl⟩), fun h2 ho => ?_, fun hwin ha hs => ?_, fun hp ho hs => ?_⟩
  · rw [hx, if_neg (by omega), if_pos ⟨h2, ho⟩]
  · have h1 : win ≤ 1 := by omega
    have hserves : ¬ (win = 1 ∧ (!(s.cell peer).serves) = true) := by
      rintro ⟨rfl, hn⟩
      rcases hwin with h | ⟨-, h⟩
      · cases h
      · rw [h] at hn; cases hn
    rw [hx, if_neg hserves, if_neg (by omega), if_pos ⟨h1, by simpa using ha, hs⟩]
  · have hserves : ¬ (win = 1 ∧ (!(s.cell peer).serves) = true) := fun h => by
      rw [hp h.1] at h; cases h.2
    have hspad : ¬ (2 ≤ win ∧ q.spadOnly = true) := fun h => by
      rw [ho h.1] at h; cases h.2
    have hscope : ¬ (win ≤ 1 ∧ (q.atomic || q.scopeRule) = true ∧ 2 ≤ q.atomScope) := by
      rintro ⟨h1, h2, h3⟩
      rcases hs h1 with ⟨ha, hr⟩ | hlt
      · rw [ha, hr] at h2; cases h2
      · omega
    rw [if_neg hserves, if_neg hspad, if_neg hscope] at hx
    refine ⟨fun ha => hx.trans (if_pos ha), fun ha => ?_⟩
    rw [if_neg (not_not_intro ha)] at hx
    refine ⟨?_, ?_, ?_, ?_⟩
    · rintro rfl; exact watching_of hx
    · rintro rfl; exact watching_of hx
    · rintro rfl loc hl
      exact tagged_of (hx.trans (by simp only [State.placeAccess]; rw [hl]))
    · rintro rfl
      refine ⟨fun s1 ht => hx.trans (State.placeAccess_global ht), fun s1 ht => hx.trans (State.placeAccess_global ht),
        fun p s1 ht => hx.trans (State.placeAccess_global ht), fun t s1 ht => ⟨fun hwr hn => ?_, fun hn => ?_⟩⟩
      · exact (hx.trans (State.placeAccess_global ht)).trans (if_pos (writes_refused_iff.2 ⟨hwr, hn⟩))
      · refine tagged_of ((hx.trans (State.placeAccess_global ht)).trans (if_neg fun h => ?_))
        obtain ⟨hwr, hf⟩ := writes_refused_iff.1 h
        rcases hn with ⟨h1, h2⟩ | hn
        · rw [h1, h2] at hwr; simp at hwr
        · rw [hn] at hf; cases hf

end Sys2Proof.Machine
end

