-- ==== Sys2Proof/Proofs/Scratchpad.lean ====
section
/-! SUPPORT. The bytes of the own scratchpad (R60, R160 to R162, R185): what a read gives and what a write leaves, of a scratchpad
in whatever form. -/

namespace Sys2Proof.Machine

/-! ## Bytes written one after another -/

theorem Memory.read_write (m : Memory) (a c : Nat) (b : Byte) :
    Memory.read (Memory.write m a b) c = if c = a then b else Memory.read m c := by
  split
  · next h => rw [h, Memory.read_write_same]
  · next h => exact Memory.read_write_ne m b h

theorem Memory.read_writesOf (bs : List Byte) (off : Nat) (m : Memory) (a : Nat) :
    Memory.read ((writesOf off bs).foldl (fun m b => Memory.write m b.at_ b.val) m) a
      = if off ≤ a ∧ a < off + bs.length then bs.getD (a - off) 0 else Memory.read m a := by
  induction bs generalizing off m with
  | nil => rw [if_neg (by simp only [List.length_nil]; omega)]; rfl
  | cons b bs ih =>
    rw [writesOf, List.foldl_cons, ih, Memory.read_write, List.length_cons]
    dsimp only
    by_cases ha : a = off
    · subst ha
      rw [if_neg (by omega), if_pos rfl, if_pos (by omega), Nat.sub_self, List.getD_cons_zero]
    · rw [if_neg ha]
      by_cases hin : off + 1 ≤ a ∧ a < off + 1 + bs.length
      · rw [if_pos hin, if_pos (by omega), show a - off = a - (off + 1) + 1 by omega, List.getD_cons_succ]
      · rw [if_neg hin, if_neg (by omega)]

/-- Full-empty bits set one after another (R162). -/
theorem FMap.get_foldl_put_true (fill : List Nat) (m : FMap Bool) (g : Nat) :
    FMap.get (fill.foldl (fun f g => FMap.put f g true) m) g false = (fill.contains g || FMap.get m g false) := by
  induction fill generalizing m with
  | nil => rfl
  | cons a fill ih =>
    rw [List.foldl_cons, ih, List.contains_cons]
    by_cases h : g = a
    · subst h; simp
    · rw [FMap.get_put_ne m true false h, beq_eq_false_iff_ne.2 h, Bool.false_or]

/-! ## The accesses -/

section
variable {s : State} {key off n : Nat} {e : EngTag} {addr : Word}

theorem State.spadReady_waits (h : (s.cell key).phase = .clearing ∨ (s.cell key).locked off n = true) :
    s.spadReady key key off n = blocked 12 := by
  unfold State.spadReady
  by_cases hp : (s.cell key).phase = .clearing
  · exact if_pos hp
  · exact (if_neg hp).trans (if_pos ⟨rfl, h.resolve_left hp⟩)

theorem State.spadReady_ok (hp : (s.cell key).phase ≠ .clearing) (hl : (s.cell key).locked off n = false) :
    s.spadReady key key off n = .ok () :=
  (if_neg hp).trans (if_neg fun h => by rw [hl] at h; exact absurd h.2 (by decide))

theorem State.bankReady_own (s : State) (key : Nat) (addr : Word) : s.bankReady key key addr = .ok () := if_pos rfl

theorem State.flushPeer_own (s : State) (key : Nat) : s.flushPeer key key = .ok s := if_pos rfl

theorem State.spadLoad_waits (h : (s.cell key).phase = .clearing ∨ (s.cell key).locked off n = true) :
    s.spadLoad key key off n addr = blocked 12 := by
  rw [State.spadLoad, State.bankReady_own, State.spadReady_waits h]
  rfl

/-- A read gives the bytes and notes itself among the reads that stores may pass (R294). -/
theorem State.spadLoad_ok (hp : (s.cell key).phase ≠ .clearing) (hl : (s.cell key).locked off n = false) :
    s.spadLoad key key off n addr = .ok (Memory.readN (s.cell key).spad off n, s.setCell key ((s.cell key).noteRead s.curClass s.curEng
      (s.core.eng s.curEng).pos (s.core.eng s.curEng).pc off n)) := by
  rw [State.spadLoad, State.bankReady_own, State.spadReady_ok hp hl, State.flushPeer_own]
  simp only [bind, Except.bind, if_true]
  rfl

variable {bs : List Byte} {fill : List Nat}

theorem State.spadStore_undecided (hp : (s.cell key).phase ≠ .clearing) (hl : (s.cell key).locked off bs.length = false)
    (ho : s.ordWaits key .a (s.cell key).engA.pos off bs.length = true) : s.spadStore key key off bs fill addr = blocked 8 := by
  simp only [State.spadStore, if_true, State.spadReady_ok hp hl, bind, Except.bind, ho]

/-- A store is not watched where ORDWATCH is not in force at its position (R294, R295). -/
theorem Cell.passedRead_unwatched (c : Cell) {pos : Nat} (e : EngTag) (off n : Nat) (h : c.ordAt pos = false) :
    c.passedRead e pos off n = none := by
  have hnone : (c.readsPast e pos off n).filter (fun r => c.ordAt pos && c.ordAt r.pos) = [] := by
    rw [List.filter_eq_nil_iff]
    intro r _
    rw [h, Bool.false_and]
    exact Bool.false_ne_true
  simp only [Cell.passedRead, hnone, List.map_nil]

theorem State.spadStore_ok (hp : (s.cell key).phase ≠ .clearing) (hl : (s.cell key).locked off bs.length = false)
    (ho : s.ordWaits key .a (s.cell key).engA.pos off bs.length = false) (hw : (s.cell key).ordAt (s.cell key).engA.pos = false) :
    s.spadStore key key off bs fill addr = .ok (s.setCell key ((s.cell key).spadPut (writesOf off bs) fill)) := by
  simp only [State.spadStore, if_true, State.spadReady_ok hp hl, bind, Except.bind, ho, Bool.false_eq_true, if_false,
    Cell.passedRead_unwatched _ .a off bs.length hw]

end

/-- Settles O28: the waits are the checks before an access, and the bytes and bits are those of writes one after another. -/
theorem scratchpadReadsAndWrites : Obligations.ScratchpadReadsAndWrites := by
  intro s key e off n bs fill addr _
  refine ⟨State.spadLoad_waits, fun hp hl => ⟨_, State.spadLoad_ok hp hl, _, rfl⟩, State.spadStore_undecided, fun hp hl ho hw =>
    ⟨_, State.spadStore_ok hp hl ho hw, s.setCell_frame key _, ?_⟩⟩
  rw [State.cell_setCell_same]
  refine ⟨fun a ha => ?_, fun i hi => ?_, FMap.get_foldl_put_true fill _, rfl, rfl, rfl⟩
  · exact (Memory.read_writesOf bs off _ a).trans (if_neg (by omega))
  · refine (Memory.read_writesOf bs off _ _).trans ((if_pos (by omega)).trans ?_)
    rw [Nat.add_sub_cancel_left]

end Sys2Proof.Machine
end

