-- ==== Sys2Proof/Proofs/VectorResults.lean ====
section
/-! SUPPORT. Vector results under a mask (R51, R52, R54, R205): elements and lanes of a register, and what a write under a mask makes
of each element; and the register that a code names under a rotating window (R53). -/

namespace Sys2Proof.Machine

open Claims

/-! ## The rotating window (R53) -/

section
variable {c : Cell} {n : Nat}

theorem Cell.vphys_outside (h : c.vrotSize = 0 ∨ n < c.vrotBase ∨ c.vrotBase + c.vrotSize ≤ n) : c.vphys n = n :=
  if_neg (by omega)

/-- Within the window a name counts from its base, less the offset, modulo its size. -/
theorem Cell.vphys_inside (hs : c.vrotSize ≠ 0) (hb : c.vrotBase ≤ n) (ht : n < c.vrotBase + c.vrotSize) :
    (c.vphys n : Int) = c.vrotBase + ((n - c.vrotBase - c.vrotOff : Int) % (c.vrotSize : Int)) := by
  have hlt : c.vrotOff % c.vrotSize < c.vrotSize := Nat.mod_lt _ (Nat.pos_of_ne_zero hs)
  have hoff : (c.vrotSize : Int) * (c.vrotOff / c.vrotSize) + (c.vrotOff % c.vrotSize : Nat) = c.vrotOff := by
    rw [Int.natCast_mod]
    exact Int.mul_ediv_add_emod _ _
  have hcast : ((n - c.vrotBase + c.vrotSize - c.vrotOff % c.vrotSize : Nat) : Int)
      = (n - c.vrotBase - c.vrotOff : Int) + c.vrotSize * (c.vrotOff / c.vrotSize + 1) := by
    rw [mul_add]
    omega
  rw [Cell.vphys, if_pos ⟨hs, hb, ht⟩, Int.natCast_add, Int.natCast_mod, hcast, Int.add_mul_emod_self_left]

end

theorem windowsRotate : WindowsRotate := by
  refine fun c n => ⟨Cell.vphys_outside, fun hs hb ht => ⟨Cell.vphys_inside hs hb ht, fun ht' => ?_⟩⟩
  have h1 := Cell.vphys_inside hs hb ht
  have h2 := Cell.vphys_inside (c := { c with vrotOff := c.vrotOff + 1 }) (n := n + 1) hs (by dsimp only; omega) ht'
  have hsame : ((n + 1 : Nat) - c.vrotBase - (c.vrotOff + 1 : Nat) : Int) = n - c.vrotBase - c.vrotOff := by omega
  rw [hsame] at h2
  exact Int.natCast_inj.1 (h2.trans h1.symm)

/-! ## Elements and lanes (R51) -/

theorem pairLanes_flatMap (es : List Nat) (h : ∀ e ∈ es, e < 2 ^ 64) :
    pairLanes (es.flatMap fun e => [BitVec.ofNat 32 e, BitVec.ofNat 32 (e / 2 ^ 32)]) = es := by
  induction es with
  | nil => rfl
  | cons e es ih =>
    rw [List.forall_mem_cons] at h
    rw [List.flatMap_cons, List.cons_append, List.cons_append, List.nil_append, pairLanes, ih h.2, BitVec.toNat_ofNat,
      BitVec.toNat_ofNat]
    congr 1
    omega

theorem flatMap_joinHalves : (es : List Nat) → (∀ e ∈ es, e < 2 ^ 16) → es.length % 2 = 0 →
    (joinHalves es).flatMap (fun l => [l.toNat % 65536, l.toNat / 65536]) = es
  | [], _, _ => rfl
  | [_], _, hl => absurd hl (by simp)
  | a :: b :: es, h, hl => by
    rw [List.forall_mem_cons, List.forall_mem_cons] at h
    obtain ⟨ha, hb, hes⟩ := h
    rw [joinHalves, List.flatMap_cons, flatMap_joinHalves es hes (by rw [List.length_cons, List.length_cons] at hl; omega), BitVec.toNat_ofNat, List.cons_append,
      List.cons_append, List.nil_append]
    congr 2 <;> omega

theorem joinHalves_length : (es : List Nat) → (joinHalves es).length = (es.length + 1) / 2
  | [] => rfl
  | [_] => by simp [joinHalves]
  | a :: b :: es => by
    rw [joinHalves, List.length_cons, joinHalves_length es, List.length_cons, List.length_cons]
    omega

section
variable {w : Nat} (hw : w = 64 ∨ w = 32 ∨ w = 16)
include hw

theorem lanesOf_length {es : List Nat} (hl : es.length = elemCount w) : (lanesOf w es).length = 1024 := by
  rcases hw with rfl | rfl | rfl
  · rw [lanesOf, if_pos rfl, List.length_flatMap]
    simp only [List.length_cons, List.length_nil, List.map_const', List.sum_replicate, hl]
    rfl
  · rw [lanesOf, if_neg (by decide), if_pos rfl, List.length_map, hl]
    rfl
  · rw [lanesOf, if_neg (by decide), if_neg (by decide), joinHalves_length, hl]
    rfl

/-- Elements put into lanes and read back in the same view. -/
theorem elemsOf_lanesOf {es : List Nat} (hl : es.length = elemCount w) (h : ∀ e ∈ es, e < 2 ^ w) : elemsOf w (lanesOf w es) = es := by
  rcases hw with rfl | rfl | rfl
  · exact pairLanes_flatMap es h
  · rw [lanesOf, if_neg (by decide), if_pos rfl, elemsOf, if_neg (by decide), if_pos rfl, List.map_map]
    refine (List.map_congr_left fun e he => ?_).trans (List.map_id es)
    exact (BitVec.toNat_ofNat _ _).trans (Nat.mod_eq_of_lt (h e he))
  · rw [lanesOf, if_neg (by decide), if_neg (by decide), elemsOf, if_neg (by decide), if_neg (by decide)]
    exact flatMap_joinHalves es h (by rw [hl]; rfl)

end

theorem pairLanes_lt : (ls : List (BitVec 32)) → ∀ e ∈ pairLanes ls, e < 2 ^ 64
  | [] => by simp [pairLanes]
  | [a] => by
    have := a.isLt
    simp only [pairLanes, List.mem_singleton, forall_eq]
    omega
  | a :: b :: ls => by
    have := a.isLt
    have := b.isLt
    rw [pairLanes, List.forall_mem_cons]
    exact ⟨by omega, pairLanes_lt ls⟩

/-- An element as it stands fits its width. -/
theorem Cell.velems_lt (c : Cell) {w : Nat} (q : Nat) (hw : w = 64 ∨ w = 32 ∨ w = 16) : ∀ e ∈ c.velems w q, e < 2 ^ w := by
  rcases hw with rfl | rfl | rfl
  · exact pairLanes_lt _
  · intro e he
    obtain ⟨l, -, rfl⟩ := List.mem_map.1 he
    exact l.isLt
  · intro e he
    obtain ⟨l, -, hl⟩ := List.mem_flatMap.1 he
    have := l.isLt
    simp only [List.mem_cons, List.not_mem_nil, or_false] at hl
    omega

/-! ## Results under a mask (R54) -/

theorem selectMask_length (ms : List Bool) (ns os : List Nat) : (selectMask ms ns os).length = os.length := by
  fun_induction selectMask ms ns os with
  | case1 m ms n ns o os ih => simp [ih]
  | case2 => rfl

theorem selectMask_getD (ms : List Bool) (ns os : List Nat) {i : Nat} (hm : i < ms.length) (hn : i < ns.length) (ho : i < os.length) :
    (selectMask ms ns os).getD i 0 = if ms.getD i false then ns.getD i 0 else os.getD i 0 := by
  induction ms generalizing ns os i with
  | nil => simp at hm
  | cons m ms ih =>
    cases ns with
    | nil => simp at hn
    | cons n ns =>
      cases os with
      | nil => simp at ho
      | cons o os =>
        cases i with
        | zero => rfl
        | succ i =>
          simp only [selectMask, List.getD_cons_succ, List.length_cons, Nat.add_lt_add_iff_right] at *
          exact ih ns os hm hn ho

theorem mem_selectMask {ms : List Bool} {ns os : List Nat} {e : Nat} (h : e ∈ selectMask ms ns os) : e ∈ ns ∨ e ∈ os := by
  fun_induction selectMask ms ns os with
  | case1 m ms n ns o os ih =>
    rcases List.mem_cons.1 h with rfl | h
    · cases m <;> simp
    · exact (ih h).imp (List.mem_cons_of_mem _) (List.mem_cons_of_mem _)
  | case2 => exact .inr h

section
variable (c : Cell) (q p : Nat) {ls : List (BitVec 32)}

theorem Cell.vlanes_setVlanes_same (hl : ls.length = 1024) : (c.setVlanes q ls).vlanes q = ls := by
  have h := FMap.getRange_setRange_same c.v (1024 * q) ls 0
  rw [hl] at h
  rw [Cell.vlanes, Cell.setVlanes, List.take_of_length_le (Nat.le_of_eq hl)]
  exact h

theorem Cell.vlanes_setVlanes_ne (hl : ls.length = 1024) (h : p ≠ q) : (c.setVlanes q ls).vlanes p = c.vlanes p := by
  rw [Cell.vlanes, Cell.setVlanes, List.take_of_length_le (Nat.le_of_eq hl)]
  exact FMap.getRange_setRange_ne c.v (1024 * q) ls 0 (1024 * p) 1024 (by omega)

end

section
variable {c : Cell} {code : BitVec 8} {w k : Nat} {es : List Nat} (hw : w = 64 ∨ w = 32 ∨ w = 16) (hl : es.length = elemCount w)
  (hes : ∀ e ∈ es, e < 2 ^ w)
include hw

/-- The lanes that a result under a mask makes of a register. -/
theorem selected_lanes_length (q : Nat) :
    (lanesOf w (selectMask (maskBits w (c.kreg k)) es (c.velems w q))).length = 1024 :=
  lanesOf_length hw (by rw [selectMask_length, c.velems_length q hw])

include hl hes

/-- An active element of D takes its result, and an inactive one keeps its bits. -/
theorem Cell.writeV_element {i : Nat} (hi : i < elemCount w) : ((c.writeV code w k es).velems w (c.vphys code.toNat)).getD i 0
    = if masked c k w i then es.getD i 0 else (c.velems w (c.vphys code.toNat)).getD i 0 := by
  have hlen := c.velems_length (c.vphys code.toNat) hw
  have hfit : ∀ e ∈ selectMask (maskBits w (c.kreg k)) es (c.velems w (c.vphys code.toNat)), e < 2 ^ w := fun e he =>
    (mem_selectMask he).elim (hes e) (c.velems_lt _ hw e)
  rw [Cell.velems, Cell.writeV, Cell.vlanes_setVlanes_same _ _ (selected_lanes_length hw _),
    elemsOf_lanesOf hw (by rw [selectMask_length, hlen]) hfit,
    selectMask_getD _ _ _ (by rwa [maskBits_length]) (by rwa [hl]) (by rwa [hlen]), maskBits_getD c k w hi]

end

/-- Settles O38: the register is read back element by element from the lanes written, and the flags are those of `flagsOf`. -/
theorem vectorResultsUnderMask : Obligations.VectorResultsUnderMask := by
  refine ⟨windowsRotate, fun s key f rs q t hc hty hl hrs hq ht => ?_⟩
  subst hq ht
  have hw := ebits_of_vType hty
  have hcore : (s.putV f (ebits f) rs).core = (s.core.writeV f.d (ebits f) f.fl.toNat (rs.map fun r => r.1)).raiseFp
      (flagsOf (maskBits (ebits f) (s.core.kreg f.fl.toNat)) rs) := State.core_setCore hc _
  have hmap : (rs.map fun r => r.1).length = elemCount (ebits f) := (List.length_map _).trans hl
  have hfit : ∀ e ∈ rs.map (fun r => r.1), e < 2 ^ ebits f := fun e he => by
    obtain ⟨r, hr, rfl⟩ := List.mem_map.1 he
    exact hrs r hr
  rw [hcore]
  refine ⟨fun i hi => ?_, fun p hp => ?_, fun n _ => ?_, _, _, _, rfl⟩
  · refine (Cell.writeV_element hw hmap hfit hi).trans ?_
    have hget : (rs.map fun r => r.1).getD i 0 = (rs.getD i (0, 0)).1 := by simp [hl, hi]
    rw [hget]
  · exact Cell.vlanes_setVlanes_ne _ _ _ (selected_lanes_length hw _) hp
  · refine (iff_of_eq (congrArg (· = true) (BitVec.getLsbD_or))).trans ?_
    rw [Bool.or_eq_true, getLsbD_flagsOf, maskBits_length]
    refine or_congr Iff.rfl (exists_congr fun i => and_congr_right fun hi => ?_)
    rw [maskBits_getD _ _ _ hi]

end Sys2Proof.Machine
end

