-- ==== Sys2Proof/Proofs/CellFrames.lean ====
section
/-! SUPPORT. What the parts of a retirement leave of a cell (R50, R85, R125, R232, R284, R288): of its registers, queues and
loop registers, of the other engines, and of the engine's own queues and stacks. -/

namespace Sys2Proof.Machine

open Claims

/-! ## Cells that differ in a word's own progress -/

/-- A cell with the engines and the scalar state of another, in all that a scalar word may change. -/
def Cell.withScalars (c d : Cell) : Cell :=
  { c with engC := d.engC, engA := d.engA, engX := d.engX, engM := d.engM, engW := d.engW, engK := d.engK, x := d.x,
           a := d.a, lc := d.lc, xVer := d.xVer, lcVer := d.lcVer, path := d.path, pathBase := d.pathBase, qx := d.qx,
           qc := d.qc, qa := d.qa, vrotOff := d.vrotOff, vrotSize := d.vrotSize, vrotBase := d.vrotBase,
           vrotPend := d.vrotPend, bqHeld := d.bqHeld, nowTok := d.nowTok, stalledSince := d.stalledSince, stampT0 := d.stampT0,
           cqTicks := d.cqTicks }

/-- What a word of an engine leaves of its cell beside the registers it writes. -/
structure WordFrame (e : EngTag) (c d : Cell) : Prop where
  rest : d = c.withScalars d
  vrot : c.vrotPend = [] → d.vrotPend = [] ∧ d.vrotOff = c.vrotOff ∧ d.vrotSize = c.vrotSize ∧ d.vrotBase = c.vrotBase
  held : c.bqHeld = [] → d.bqHeld = []
  stamps : c.engM.cq = [] → c.nowTok = [] → d.stampT0 = c.stampT0 ∧ d.cqTicks = c.cqTicks
  others : ∀ g, g ≠ e → SameButTokens c (c.eng g) (d.eng g)
  own : KeepsStacks c (c.eng e) (d.eng e)

/-- Loop registers after writes that were pending have moved into them. -/
def settledLc (l : FMap Word) (vs : List RegVer) : FMap Word := vs.foldl (fun l v => FMap.set l v.reg v.value 0) l

/-- What leaves every scalar register and data queue alone, and moves no more than pending writes into loop registers. -/
structure KeepsScalars (c d : Cell) : Prop where
  x : d.x = c.x
  a : d.a = c.a
  qx : d.qx = c.qx
  qc : d.qc = c.qc
  qa : d.qa = c.qa
  lc : ∃ vs, vs ⊆ c.lcVer ∧ d.lc = settledLc c.lc vs
  lcVer : d.lcVer ⊆ c.lcVer

section
variable {e : EngTag} {c d f : Cell}

theorem settledLc_get (l : FMap Word) {vs : List RegVer} {r : Nat} (h : ∀ v ∈ vs, v.reg ≠ r) :
    FMap.get (settledLc l vs) r 0 = FMap.get l r 0 := by
  induction vs generalizing l with
  | nil => rfl
  | cons v vs ih =>
    rw [List.forall_mem_cons] at h
    exact (ih _ h.2).trans (FMap.get_set_ne l _ _ h.1.symm)

theorem KeepsScalars.refl (c : Cell) : KeepsScalars c c :=
  ⟨rfl, rfl, rfl, rfl, rfl, ⟨[], List.nil_subset _, rfl⟩, List.Subset.refl _⟩

theorem KeepsScalars.trans (h : KeepsScalars c d) (k : KeepsScalars d f) : KeepsScalars c f := by
  obtain ⟨vs, hvs, hl⟩ := h.lc
  obtain ⟨us, hus, hl'⟩ := k.lc
  exact ⟨k.x.trans h.x, k.a.trans h.a, k.qx.trans h.qx, k.qc.trans h.qc, k.qa.trans h.qa,
    ⟨vs ++ us, List.append_subset.2 ⟨hvs, fun _ hv => h.lcVer (hus hv)⟩, by
      rw [hl', hl, settledLc, settledLc, settledLc, List.foldl_append]⟩,
    fun _ hv => h.lcVer (k.lcVer hv)⟩

theorem withScalars_trans (h : d = c.withScalars d) (k : f = d.withScalars f) : f = c.withScalars f :=
  calc
    f = d.withScalars f := k
    _ = (c.withScalars d).withScalars f := congrArg (Cell.withScalars · f) h
    _ = c.withScalars f := rfl

theorem sameButTokens_trans {g g' g'' : Eng} (hb : c.bqHeld = [] → d.bqHeld = []) (hn : c.nowTok = [] → d.nowTok = [])
    (h : SameButTokens c g g') (k : SameButTokens d g' g'') : SameButTokens c g g'' := by
  obtain ⟨h1, h2, h3⟩ := h
  obtain ⟨k1, k2, k3⟩ := k
  refine ⟨?_, fun hc => (k2 (hb hc)).trans (h2 hc), fun hc => ⟨((k3 (hn hc)).1).trans (h3 hc).1, (k3 (hn hc)).2.trans (h3 hc).2⟩⟩
  exact (congrArg (fun x : Eng => { x with tok := g.tok, cq := g.cq, bq := g.bq, held := g.held }) k1).trans h1

theorem keepsStacks_trans {g g' g'' : Eng} (hb : c.bqHeld = [] → d.bqHeld = []) (hn : c.nowTok = [] → d.nowTok = [])
    (h : KeepsStacks c g g') (k : KeepsStacks d g' g'') : KeepsStacks c g g'' := by
  obtain ⟨h1, h2, h3, h4⟩ := h
  obtain ⟨k1, k2, k3, k4⟩ := k
  exact ⟨k1.trans h1, k2.trans h2, fun hc => (k3 (hb hc)).trans (h3 hc), fun hc => (k4 (hn hc)).trans (h4 hc)⟩

theorem sameButTokens_refl (c : Cell) (g : Eng) : SameButTokens c g g := ⟨rfl, fun _ => rfl, fun _ => ⟨rfl, List.Sublist.refl _⟩⟩

theorem keepsStacks_refl (c : Cell) (g : Eng) : KeepsStacks c g g := ⟨rfl, rfl, fun _ => rfl, fun _ => List.Sublist.refl _⟩

/-- Two parts of a word, the first of which accepts no push. -/
theorem WordFrame.trans (h : WordFrame e c d) (hn : c.nowTok = [] → d.nowTok = []) (k : WordFrame e d f) : WordFrame e c f := by
  refine ⟨withScalars_trans h.rest k.rest, fun hc => ?_, fun hc => k.held (h.held hc), fun hq hc => ?_,
    fun g hg => sameButTokens_trans h.held hn (h.others g hg) (k.others g hg), keepsStacks_trans h.held hn h.own k.own⟩
  · obtain ⟨hp, h1, h2, h3⟩ := h.vrot hc
    obtain ⟨kp, k1, k2, k3⟩ := k.vrot hp
    exact ⟨kp, k1.trans h1, k2.trans h2, k3.trans h3⟩
  · have hm : d.engM.cq = [] := by
      have hs : d.engM.cq.Sublist c.engM.cq := by
        by_cases he : e = .m
        · subst he
          obtain ⟨-, -, -, hcq⟩ := h.own
          exact hcq hc
        · obtain ⟨-, -, hcq⟩ := h.others .m (Ne.symm he)
          exact (hcq hc).2
      rw [hq] at hs
      exact List.sublist_nil.1 hs
    obtain ⟨h1, h2⟩ := h.stamps hq hc
    obtain ⟨k1, k2⟩ := k.stamps hm (hn hc)
    exact ⟨k1.trans h1, k2.trans h2⟩

theorem WordFrame.refl (e : EngTag) (c : Cell) : WordFrame e c c :=
  ⟨rfl, fun h => ⟨h, rfl, rfl, rfl⟩, id, fun _ _ => ⟨rfl, rfl⟩, fun _ _ => sameButTokens_refl _ _, keepsStacks_refl _ _⟩

/-- What a part of a word before its push does: it keeps the frame, and accepts no push. -/
structure Progress (e : EngTag) (c d : Cell) : Prop where
  frame : WordFrame e c d
  scalars : KeepsScalars c d
  quiet : c.nowTok = [] → d.nowTok = []

theorem Progress.trans (h : Progress e c d) (k : Progress e d f) : Progress e c f :=
  ⟨h.frame.trans h.quiet k.frame, h.scalars.trans k.scalars, fun hc => k.quiet (h.quiet hc)⟩

/-! ## Changes of engines and tokens alone -/

/-- A cell with the engines of another, and what it notes of their way, their entries held back and their pushes. -/
def Cell.withEngines (c d : Cell) : Cell :=
  { c with engC := d.engC, engA := d.engA, engX := d.engX, engM := d.engM, engW := d.engW, engK := d.engK, path := d.path,
           bqHeld := d.bqHeld, nowTok := d.nowTok, stalledSince := d.stalledSince, stampT0 := d.stampT0, cqTicks := d.cqTicks }

theorem withEngines_trans (h : d = c.withEngines d) (k : f = d.withEngines f) : f = c.withEngines f :=
  calc
    f = d.withEngines f := k
    _ = (c.withEngines d).withEngines f := congrArg (Cell.withEngines · f) h
    _ = c.withEngines f := rfl

theorem withEngines_setEng (c : Cell) (p : EngTag) (g : Eng) : c.setEng p g = c.withEngines (c.setEng p g) := by
  cases p <;> rfl

theorem KeepsScalars.of_engines (h : d = c.withEngines d) : KeepsScalars c d := by
  rw [h]
  exact ⟨rfl, rfl, rfl, rfl, rfl, ⟨[], List.nil_subset _, rfl⟩, List.Subset.refl _⟩

theorem WordFrame.of_engines (h : d = c.withEngines d) (hb : c.bqHeld = [] → d.bqHeld = [])
    (hs : c.engM.cq = [] → c.nowTok = [] → d.stampT0 = c.stampT0 ∧ d.cqTicks = c.cqTicks)
    (ho : ∀ g, g ≠ e → SameButTokens c (c.eng g) (d.eng g)) (hw : KeepsStacks c (c.eng e) (d.eng e)) : WordFrame e c d := by
  refine ⟨?_, ?_, hb, hs, ho, hw⟩
  · rw [h]; rfl
  · rw [h]; exact fun hv => ⟨hv, rfl, rfl, rfl⟩

/-- A change of the word's own engine that leaves its stacks and queues. -/
theorem Progress.setEng {g : Eng} (h : KeepsStacks c (c.eng e) g) : Progress e c (c.setEng e g) :=
  ⟨.of_engines (withEngines_setEng c e g) (fun hc => (c.setEng_bqHeld e g).trans hc)
    (fun _ _ => ⟨c.setEng_stampT0 e g, by cases e <;> rfl⟩)
    (fun p hp => by rw [Cell.eng_setEng_ne _ _ hp]; exact sameButTokens_refl _ _) (by rw [Cell.eng_setEng_same]; exact h),
   .of_engines (withEngines_setEng c e g), fun hc => (c.setEng_nowTok e g).trans hc⟩

/-- What holds of every engine with respect to tokens gives the frame. -/
theorem WordFrame.of_tokens (h : d = c.withEngines d) (hb : c.bqHeld = [] → d.bqHeld = [])
    (hs : c.engM.cq = [] → c.nowTok = [] → d.stampT0 = c.stampT0 ∧ d.cqTicks = c.cqTicks)
    (ho : ∀ g, SameButTokens c (c.eng g) (d.eng g)) : WordFrame e c d := by
  obtain ⟨h1, h2, h3⟩ := ho e
  refine .of_engines h hb hs (fun g _ => ho g) ⟨?_, ?_, h2, fun hc => (h3 hc).2⟩
  · rw [← h1]
  · rw [← h1]

/-! ## An engine that moves on -/

theorem setVrots_shape (l : List (Nat × Word)) (c : Cell) : ∃ o z b,
    l.foldl (fun (c : Cell) p => c.setVrot p.2) c = { c with vrotOff := o, vrotSize := z, vrotBase := b } := by
  induction l generalizing c with
  | nil => exact ⟨_, _, _, rfl⟩
  | cons p l ih =>
    obtain ⟨o, z, b, h⟩ := ih (c.setVrot p.2)
    exact ⟨o, z, b, h⟩

theorem settleVrot_nil (h : c.vrotPend = []) (n : Nat) : c.settleVrot n = c := by
  unfold Cell.settleVrot
  rw [h]
  exact congrArg (fun p => { c with vrotPend := p }) h.symm

theorem progress_settleVrot (e : EngTag) (c : Cell) (n : Nat) : Progress e c (c.settleVrot n) := by
  obtain ⟨o, z, b, h⟩ := setVrots_shape (c.vrotPend.filter fun p => c.engX.done || decide (p.1 < n)) c
  have hs : c.settleVrot n = { c with
      vrotOff := o, vrotSize := z, vrotBase := b
      vrotPend := c.vrotPend.filter fun p => !(c.engX.done || decide (p.1 < n)) } := by
    unfold Cell.settleVrot
    dsimp only
    rw [h]
  refine ⟨⟨?_, fun hv => ?_, fun hc => ?_, fun _ _ => ?_, fun g _ => ?_, ?_⟩, ?_, fun hc => ?_⟩
  · rw [hs]; rfl
  · rw [settleVrot_nil hv]; exact ⟨hv, rfl, rfl, rfl⟩
  · rw [hs]; exact hc
  · rw [hs]; exact ⟨rfl, rfl⟩
  · rw [Cell.settleVrot_eng]; exact sameButTokens_refl _ _
  · rw [Cell.settleVrot_eng]; exact keepsStacks_refl _ _
  · rw [hs]; exact ⟨rfl, rfl, rfl, rfl, rfl, ⟨[], List.nil_subset _, rfl⟩, List.Subset.refl _⟩
  · rw [hs]; exact hc

theorem progress_prune (e : EngTag) (c : Cell) (cls : DieClass) : Progress e c (c.prune cls) := by
  refine ⟨⟨rfl, fun hv => ⟨hv, rfl, rfl, rfl⟩, id, fun _ _ => ⟨rfl, rfl⟩, fun g _ => ?_, ?_⟩,
    ⟨rfl, rfl, rfl, rfl, rfl, ⟨(c.lcVer.filter fun v => decide (v.pos < c.minPos cls)).reverse, ?_, rfl⟩,
      List.filter_subset_self _⟩, id⟩
  · rw [Cell.prune_eng]; exact sameButTokens_refl _ _
  · rw [Cell.prune_eng]; exact keepsStacks_refl _ _
  · exact fun v hv => List.filter_subset_self _ (List.mem_reverse.1 hv)

/-- What an engine notes of its way before it moves on changes no engine. -/
theorem progress_path (e : EngTag) (c : Cell) (t : Option Nat) (p : List Nat) (l : List (Nat × Push)) (hl : c.nowTok = [] → l = []) :
    Progress e c { c with stalledSince := t, path := p, nowTok := l } := by
  have he : ∀ g, ({ c with stalledSince := t, path := p, nowTok := l } : Cell).eng g = c.eng g := fun g => by cases g <;> rfl
  refine ⟨.of_engines rfl id (fun _ _ => ⟨rfl, rfl⟩) (fun g _ => ?_) ?_, .of_engines rfl, hl⟩
  · rw [he]; exact sameButTokens_refl _ _
  · rw [he]; exact keepsStacks_refl _ _

theorem progress_pass (cls : DieClass) (e : EngTag) (pc : Nat) (own : Bool) (hh : c.handler = none) :
    Progress e c (c.pass cls e pc own) := by
  have hl : c.nowTok = [] → c.pastPushes e = [] := fun hc => by rw [Cell.pastPushes, hc]; rfl
  have hg : ∀ d : Cell, d.eng e = c.eng e → KeepsStacks d (d.eng e) ((c.eng e).passed pc own) := fun d hd => by
    rw [hd]
    exact ⟨rfl, rfl, fun _ => rfl, fun _ => List.Sublist.refl _⟩
  have hp : ∀ p n, Progress e c (((Cell.setEng { c with stalledSince := none, path := p, nowTok := c.pastPushes e } e
      ((c.eng e).passed pc own)).settleVrot n).prune cls) := fun p n =>
    (((progress_path e c none p _ hl).trans (.setEng (hg _ (by cases e <;> rfl)))).trans (progress_settleVrot _ _ _)).trans
      (progress_prune _ _ _)
  unfold Cell.pass
  rw [if_neg (by rw [hh]; exact Bool.false_ne_true)]
  split
  · exact hp _ _
  · exact hp c.path _

/-- An engine other than X that goes on after its word. -/
theorem progress_advance (cls : DieClass) (wide own : Bool) (he : e ≠ .x) (hh : c.handler = none) :
    Progress e c (c.advance cls e .seq wide own) := by
  have hp : ∀ ls pc, Progress e c ((c.setEng e { c.eng e with lstack := ls }).pass cls e pc own) := fun ls pc =>
    (Progress.setEng (g := { c.eng e with lstack := ls }) ⟨rfl, rfl, fun _ => rfl, fun _ => List.Sublist.refl _⟩).trans
      (progress_pass _ _ _ _ ((Cell.setEng_handler _ _ _).trans hh))
  unfold Cell.advance
  dsimp only
  rw [if_neg he]
  exact hp _ _

/-! ## Entries held back that enter the bqs -/

theorem withEngines_bqPut (c : Cell) (cls : DieClass) (p : EngTag) (x : BqEnt) : c.bqPut cls p x = c.withEngines (c.bqPut cls p x) := by
  unfold Cell.bqPut
  generalize c.bqTakers cls p x = l
  induction l generalizing c with
  | nil => rfl
  | cons g l ih => exact withEngines_trans (withEngines_setEng c g _) (ih _)

theorem bqPut_stamps (c : Cell) (cls : DieClass) (p : EngTag) (x : BqEnt) :
    (c.bqPut cls p x).stampT0 = c.stampT0 ∧ (c.bqPut cls p x).cqTicks = c.cqTicks := by
  unfold Cell.bqPut
  generalize c.bqTakers cls p x = l
  induction l generalizing c with
  | nil => exact ⟨rfl, rfl⟩
  | cons g l ih =>
    obtain ⟨h1, h2⟩ := ih (c.setEng g { c.eng g with bq := (c.eng g).bq ++ [x] })
    exact ⟨h1.trans (Cell.setEng_stampT0 _ _ _), h2.trans (by cases g <;> rfl)⟩

theorem progress_bqPut {cls : DieClass} {p : EngTag} {x : BqEnt} {ys : List (EngTag × BqEnt)} (hb : c.bqHeld ≠ [])
    (hd : d = { c.bqPut cls p x with bqHeld := ys }) : Progress e c d := by
  have hw : d = c.withEngines d := by
    refine withEngines_trans (withEngines_bqPut c cls p x) ?_
    rw [hd]
    rfl
  have ht : ∀ g, SameButTokens c (c.eng g) (d.eng g) := fun g => by
    obtain ⟨q, hq⟩ := c.bqPut_eng cls p x g
    have he : d.eng g = { c.eng g with bq := q } := by
      rw [hd]
      exact (Cell.bqHeld_eng (c.bqPut cls p x) ys g).trans hq
    rw [he]
    exact ⟨rfl, fun h => absurd h hb, fun _ => ⟨rfl, List.Sublist.refl _⟩⟩
  refine ⟨.of_tokens hw (fun h => absurd h hb) (fun _ _ => ?_) ht, .of_engines hw, fun hc => ?_⟩
  · rw [hd]
    exact bqPut_stamps c cls p x
  · rw [hd]
    exact (c.bqPut_nowTok cls p x).trans hc

theorem progress_bqEnter (e : EngTag) (cls : DieClass) (code : List Word) (l : List (EngTag × BqEnt)) (c : Cell)
    (hl : c.bqHeld = [] → l = []) : Progress e c (Cell.bqEnter cls code l c) := by
  induction l generalizing c with
  | nil => exact ⟨.refl e c, .refl c, id⟩
  | cons y ys ih =>
    unfold Cell.bqEnter
    split
    · exact ⟨.refl e c, .refl c, id⟩
    · exact (progress_bqPut (fun h => List.cons_ne_nil _ _ (hl h)) rfl).trans (ih _ id)

/-! ## The push of a token -/

theorem Eng.applyCq_shape (g : Eng) (n : BitVec 3) :
    ∃ t q, g.applyCq n = { g with tok := t, cq := q } ∧ q.Sublist g.cq := by
  refine ⟨_, _, rfl, ?_⟩
  generalize min (g.cq.count n) (255 - (g.counter n.toNat).toNat) = k
  generalize hq : g.cq = q
  generalize List.range k = l
  clear hq
  induction l generalizing q with
  | nil => exact List.Sublist.refl _
  | cons _ l ih => exact (ih _).trans List.erase_sublist

theorem reachT0s_shape (n : BitVec 3) (l : List Nat) (c : Cell) : ∃ t q,
    l.foldl (fun (c : Cell) _ => match c.cqTicks.find? fun x => x.1 == n with
      | some x => { c.reachT0 x.2 with cqTicks := c.cqTicks.erase x }
      | none => c) c = { c with stampT0 := t, cqTicks := q } := by
  induction l generalizing c with
  | nil => exact ⟨_, _, rfl⟩
  | cons _ l ih =>
    rw [List.foldl_cons]
    split
    · next x _ =>
      obtain ⟨t, q, h⟩ := ih { c.reachT0 x.2 with cqTicks := c.cqTicks.erase x }
      refine ⟨t, q, h.trans ?_⟩
      cases x.2 <;> rfl
    · exact ih c

/-- Entries that left a completion queue are noted in the pushes of this tick and, of M, in what its stamps read. -/
theorem noteCq_shape (c : Cell) (e : EngTag) (n : BitVec 3) (k : Nat) : ∃ l t q,
    c.noteCq e n k = { c with nowTok := l, stampT0 := t, cqTicks := q } ∧ ((e = .m → k = 0) → t = c.stampT0 ∧ q = c.cqTicks) := by
  unfold Cell.noteCq
  dsimp only
  split
  · next he =>
    by_cases hk : k = 0
    · subst hk
      exact ⟨_, _, _, rfl, fun _ => ⟨rfl, rfl⟩⟩
    · obtain ⟨t, q, h⟩ := reachT0s_shape n (List.range k) { c with nowTok := List.replicate k (0, ⟨e, n⟩) ++ c.nowTok }
      exact ⟨_, t, q, h, fun h0 => absurd (h0 he) hk⟩
  · exact ⟨_, _, _, rfl, fun _ => ⟨rfl, rfl⟩⟩

/-- What the parts of a push leave: every engine but for its tokens, and every scalar register. -/
structure PushFrame (c d : Cell) : Prop where
  shape : d = c.withEngines d
  held : d.bqHeld = c.bqHeld
  stamps : c.engM.cq = [] → c.nowTok = [] → d.stampT0 = c.stampT0 ∧ d.cqTicks = c.cqTicks
  tokens : ∀ g, SameButTokens c (c.eng g) (d.eng g)

theorem PushFrame.refl (c : Cell) : PushFrame c c := ⟨rfl, rfl, fun _ _ => ⟨rfl, rfl⟩, fun _ => sameButTokens_refl _ _⟩

theorem PushFrame.frame (h : PushFrame c d) (e : EngTag) : WordFrame e c d ∧ KeepsScalars c d :=
  ⟨.of_tokens h.shape (fun hc => h.held.trans hc) h.stamps h.tokens, .of_engines h.shape⟩

/-- A note of a push is about the cycle alone. -/
theorem PushFrame.noteTok (h : PushFrame c d) (r : Nat) (p : Push) : PushFrame c (d.noteTok r p) :=
  ⟨withEngines_trans h.shape rfl, h.held, h.stamps, fun g => by rw [Cell.noteTok_eng]; exact h.tokens g⟩

/-- The tokens of one engine replaced after what R288 and R441 note. -/
theorem PushFrame.setEng {g : Eng} {p : EngTag} (h : PushFrame c d) (ht : SameButTokens c (c.eng p) g) : PushFrame c (d.setEng p g) := by
  refine ⟨withEngines_trans h.shape (withEngines_setEng _ _ _), (d.setEng_bqHeld p g).trans h.held, fun hq hc => ?_, fun q => ?_⟩
  · obtain ⟨h1, h2⟩ := h.stamps hq hc
    exact ⟨(d.setEng_stampT0 p g).trans h1, Eq.trans (by cases p <;> rfl) h2⟩
  · by_cases hqp : q = p
    · subst hqp
      rw [Cell.eng_setEng_same]
      exact ht
    · rw [Cell.eng_setEng_ne _ _ hqp]
      exact h.tokens q

theorem pushFrame_applyCq (c : Cell) (p : EngTag) (n : BitVec 3) : PushFrame c (c.applyCq p n) := by
  obtain ⟨t, q, hg, hq⟩ := (c.eng p).applyCq_shape n
  have ht : SameButTokens c (c.eng p) ((c.eng p).applyCq n) := by
    rw [hg]
    exact ⟨rfl, fun _ => rfl, fun _ => ⟨rfl, hq⟩⟩
  obtain ⟨hs, hb, hst, hto⟩ := (PushFrame.refl c).setEng ht
  obtain ⟨l, t', q', hn, hk⟩ := noteCq_shape (c.setEng p ((c.eng p).applyCq n)) p n
    ((c.eng p).cq.length - ((c.eng p).applyCq n).cq.length)
  have he : ∀ g, (c.applyCq p n).eng g = (c.setEng p ((c.eng p).applyCq n)).eng g := fun g => Cell.noteCq_eng _ _ _ _ g
  unfold Cell.applyCq at he ⊢
  refine ⟨withEngines_trans hs ?_, ?_, fun hm hc => ?_, fun g => ?_⟩
  · rw [hn]
    rfl
  · rw [hn]
    exact hb
  · obtain ⟨h1, h2⟩ := hst hm hc
    obtain ⟨h3, h4⟩ := hk fun hp => by
      subst hp
      change c.engM.cq.length - _ = 0
      rw [hm]
      exact Nat.zero_sub _
    rw [hn]
    exact ⟨h3.trans h1, h4.trans h2⟩
  · rw [he]
    exact hto g

theorem pushFrame_pushTok {p : Push} (h : c.pushTok p = some d) : PushFrame c d := by
  cases hd : (c.eng p.eng).done with
  | true =>
    rw [Cell.pushTok_done hd] at h
    cases h
    exact .refl c
  | false =>
    by_cases hv : ((c.eng p.eng).applyCq p.cnt).counter p.cnt.toNat = 255
    · rw [Cell.pushTok_full hd hv] at h
      cases h
    · rw [Cell.pushTok_taken hd hv] at h
      cases h
      refine (pushFrame_applyCq c p.eng p.cnt).setEng ?_
      obtain ⟨t, q, hg, hq⟩ := (c.eng p.eng).applyCq_shape p.cnt
      rw [hg]
      exact ⟨rfl, fun _ => rfl, fun _ => ⟨rfl, hq⟩⟩

/-- A push of this tick that gives way: nothing of it happens where none was accepted. -/
theorem pushFrame_giveWay {r : Nat} {p : Push} (hn : c.nowTok ≠ []) (h : c.giveWay r p = some d) : PushFrame c d := by
  have hg : ∀ q, ({ c with nowTok := c.nowTok.erase (r, p) } : Cell).eng q = c.eng q := fun q => by cases q <;> rfl
  have he : PushFrame c { c with nowTok := c.nowTok.erase (r, p) } :=
    ⟨rfl, rfl, fun _ _ => ⟨rfl, rfl⟩, fun q => by rw [hg]; exact sameButTokens_refl _ _⟩
  unfold Cell.giveWay at h
  dsimp only at h
  split at h
  · next e _ =>
    split at h
    · cases h
      refine he.setEng ?_
      rw [hg]
      exact ⟨rfl, fun _ => rfl, fun hc => absurd hc hn⟩
    · cases h
  · rw [Option.map_eq_some_iff] at h
    obtain ⟨d', hq, rfl⟩ := h
    have hd : PushFrame c d' := by
      unfold Cell.queueTok at hq
      dsimp only at hq
      split at hq
      · cases hq
        refine he.setEng ?_
        rw [hg]
        exact ⟨rfl, fun _ => rfl, fun hc => absurd hc hn⟩
      · cases hq
    split
    · refine ⟨withEngines_trans hd.shape rfl, hd.held, fun _ hc => absurd hc hn, fun g => ?_⟩
      have hc : ∀ l, ({ d' with cqTicks := l } : Cell).eng g = d'.eng g := fun _ => by cases g <;> rfl
      rw [hc]
      exact hd.tokens g
    · exact hd

theorem laterTok_some {r r' : Nat} {p : Push} (h : c.laterTok r p = some r') : c.nowTok ≠ [] := by
  rintro hn
  rw [Cell.laterTok, hn] at h
  cases h

theorem pushFrame_retireTok {p : Push} (h : c.retireTok e p = some d) : PushFrame c d := by
  unfold Cell.retireTok at h
  split at h
  · next d' hd =>
    cases h
    exact (pushFrame_pushTok hd).noteTok _ _
  · cases hl : c.laterTok e.num p with
    | none => rw [hl] at h; cases h
    | some r =>
      rw [hl, Option.bind_some, Option.map_eq_some_iff] at h
      obtain ⟨d', hg, rfl⟩ := h
      exact (pushFrame_giveWay (laterTok_some hl) hg).noteTok _ _

/-- The push of a retiring word, accepted or held. -/
theorem frame_pushOrHold (c : Cell) (e : EngTag) (p : Push) :
    WordFrame e c (c.pushOrHold e p) ∧ KeepsScalars c (c.pushOrHold e p) := by
  unfold Cell.pushOrHold
  cases h : c.retireTok e p with
  | some d => exact (pushFrame_retireTok h).frame e
  | none =>
    have hp : Progress e c (c.setEng e { c.eng e with held := some p }) :=
      .setEng ⟨rfl, rfl, fun _ => rfl, fun _ => List.Sublist.refl _⟩
    exact ⟨hp.frame, hp.scalars⟩

end

/-! ## Retirement -/

section
variable {s : State} {key : Nat} {e : EngTag} {h : Hdr} {wide : Bool}

/-- A SIGNAL with WHEN 1 is pushed as the work of its word completes, not at retirement (R85). -/
theorem State.retire_eq_done {g : Sig} {n : Next} (hs : h.sig = some g) (hd : g.done = true) :
    s.retire h wide n = s.setCore (s.retiring h wide n) := by
  have hp : ¬ ((h.eng ≠ 7 ∨ s.core.handler.isSome = true ∨ s.core.lastAt s.curClass s.curEng = true) ∧ (!g.done) = true) := by
    rw [hd]
    exact fun hk => Bool.false_ne_true hk.2
  simp only [State.retire, hs, if_neg hp]
  rfl

/-- The retirement of a word of an engine other than X and M that goes on. -/
theorem progress_retiring (hc : s.cur = .cell key e) (hx : e ≠ .x) (hm : e ≠ .m) (h7 : h.eng ≠ 7) (hh : s.core.handler = none) :
    Progress e s.core (s.retiring h wide .seq) := by
  have he : s.curEng = e := State.curEng_cell hc
  have hp : Progress e s.core (s.movedOn h wide .seq) := by
    unfold State.movedOn
    dsimp only
    rw [he, if_neg hm, if_neg fun hk => h7 hk.1]
    exact progress_advance _ _ _ hx hh
  exact hp.trans (progress_bqEnter _ _ _ _ _ id)

/-- A retiring word leaves of its cell what the frame says, and of the rest everything. -/
theorem frame_retire (hc : s.cur = .cell key e) (hx : e ≠ .x) (hm : e ≠ .m) (h7 : h.eng ≠ 7) (hh : s.core.handler = none) :
    ∃ c, s.retire h wide .seq = s.setCore c ∧ WordFrame e s.core c ∧ KeepsScalars s.core c := by
  have hp := progress_retiring (wide := wide) hc hx hm h7 hh
  have plain : ∃ c, s.setCore (s.retiring h wide .seq) = s.setCore c ∧ WordFrame e s.core c ∧ KeepsScalars s.core c :=
    ⟨_, rfl, hp.frame, hp.scalars⟩
  cases hs : h.sig with
  | none => rw [State.retire_eq_retiring hs]; exact plain
  | some g =>
    cases hd : g.done with
    | false =>
      obtain ⟨hf, hk⟩ := frame_pushOrHold (s.retiring h wide .seq) e ⟨g.eng, g.cnt⟩
      rw [State.retire_eq_pushOrHold hs hd h7, State.curEng_cell hc]
      exact ⟨_, rfl, hp.frame.trans hp.quiet hf, hp.scalars.trans hk⟩
    | true => rw [State.retire_eq_done hs hd]; exact plain

end

end Sys2Proof.Machine
end

