-- ==== Sys2Proof/Proofs/ScalarFrame.lean ====
section
/-! SUPPORT. The frame of the scalar words of C and A and of LCSET (R49, R50, R94, R114, R122): what the operands of a word,
its issue and its retirement leave, and with them what a quiet step leaves. -/

namespace Sys2Proof.Machine

open Claims

/-! ## What a word writes -/

/-- A scalar word of an engine with destination `d` writes D, the queue that D names and the queue its sources pop. -/
structure ScalarWrites (e : EngTag) (d : BitVec 8) (c c' : Cell) : Prop where
  onC : e = .c → c'.a = c.a ∧ c'.qx = c.qx ∧ (d ≠ 0xFE → c'.qa = c.qa)
    ∧ ∀ r, r ≠ d.toNat → FMap.get c'.x r 0 = FMap.get c.x r 0
  onA : e = .a → c'.x = c.x ∧ (d ≠ 0xFE → c'.qx = c.qx) ∧ (d ≠ 0xFF → c'.qc = c.qc)
    ∧ ∀ r, r ≠ d.toNat → FMap.get c'.a r 0 = FMap.get c.a r 0
  lc : c.lcVer = [] → c'.lcVer = [] ∧ c'.lc = c.lc

/-- LCSET writes loop register `d`, at once or as a pending write. -/
structure LoopWrites (d : BitVec 8) (c c' : Cell) : Prop where
  x : c'.x = c.x
  a : c'.a = c.a
  qx : c'.qx = c.qx
  lc : (∀ v ∈ c.lcVer, v.reg = d.toNat) →
    (∀ v ∈ c'.lcVer, v.reg = d.toNat) ∧ ∀ r, r ≠ d.toNat → FMap.get c'.lc r 0 = FMap.get c.lc r 0

section
variable {e : EngTag} {d : BitVec 8} {c c' c'' : Cell}

theorem ScalarWrites.of_keeps (h : KeepsScalars c c') : ScalarWrites e d c c' := by
  refine ⟨fun _ => ⟨h.a, h.qx, fun _ => h.qa, fun _ _ => by rw [h.x]⟩,
    fun _ => ⟨h.x, fun _ => h.qx, fun _ => h.qc, fun _ _ => by rw [h.a]⟩, fun hl => ?_⟩
  obtain ⟨vs, hvs, hlc⟩ := h.lc
  have hv := h.lcVer
  rw [hl] at hvs hv
  rw [List.subset_nil.1 hvs] at hlc
  exact ⟨List.subset_nil.1 hv, hlc⟩

theorem ScalarWrites.trans (h : ScalarWrites e d c c') (k : ScalarWrites e d c' c'') : ScalarWrites e d c c'' := by
  refine ⟨fun he => ?_, fun he => ?_, fun hl => ?_⟩
  · obtain ⟨h1, h2, h3, h4⟩ := h.onC he
    obtain ⟨k1, k2, k3, k4⟩ := k.onC he
    exact ⟨k1.trans h1, k2.trans h2, fun hd => (k3 hd).trans (h3 hd), fun r hr => (k4 r hr).trans (h4 r hr)⟩
  · obtain ⟨h1, h2, h3, h4⟩ := h.onA he
    obtain ⟨k1, k2, k3, k4⟩ := k.onA he
    exact ⟨k1.trans h1, fun hd => (k2 hd).trans (h2 hd), fun hd => (k3 hd).trans (h3 hd), fun r hr => (k4 r hr).trans (h4 r hr)⟩
  · obtain ⟨h1, h2⟩ := h.lc hl
    obtain ⟨k1, k2⟩ := k.lc h1
    exact ⟨k1, k2.trans h2⟩

theorem LoopWrites.of_keeps (h : KeepsScalars c c') : LoopWrites d c c' := by
  refine ⟨h.x, h.a, h.qx, fun hl => ⟨fun v hv => hl v (h.lcVer hv), fun r hr => ?_⟩⟩
  obtain ⟨vs, hvs, hlc⟩ := h.lc
  rw [hlc]
  exact settledLc_get _ fun v hv => (hl v (hvs hv)).trans_ne hr.symm

theorem LoopWrites.trans (h : LoopWrites d c c') (k : LoopWrites d c' c'') : LoopWrites d c c'' := by
  refine ⟨k.x.trans h.x, k.a.trans h.a, k.qx.trans h.qx, fun hl => ?_⟩
  obtain ⟨h1, h2⟩ := h.lc hl
  obtain ⟨k1, k2⟩ := k.lc h1
  exact ⟨k1, fun r hr => (k2 r hr).trans (h2 r hr)⟩

end

/-! ## Parts of a word -/

/-- A part of a word of an engine: it changes its cell alone, within the frame, and there writes as `W` says. -/
structure WordPart (key : Nat) (e : EngTag) (W : Cell → Cell → Prop) (s t : State) : Prop where
  same : SameButCell s t key
  frame : WordFrame e s.core t.core
  quiet : s.core.nowTok = [] → t.core.nowTok = []
  writes : W s.core t.core

/-- A cell with the scalar registers and queues of another. -/
def Cell.withRegs (c d : Cell) : Cell :=
  { c with x := d.x, a := d.a, lc := d.lc, xVer := d.xVer, lcVer := d.lcVer, qx := d.qx, qc := d.qc, qa := d.qa }

theorem WordFrame.of_regs {e : EngTag} {c d : Cell} (h : d = c.withRegs d) : WordFrame e c d := by
  have he : ∀ g, d.eng g = c.eng g := fun g => by rw [h]; cases g <;> rfl
  refine ⟨?_, ?_, ?_, ?_, fun g _ => ?_, ?_⟩
  · rw [h]; rfl
  · rw [h]; exact fun hv => ⟨hv, rfl, rfl, rfl⟩
  · rw [h]; exact id
  · rw [h]; exact fun _ _ => ⟨rfl, rfl⟩
  · rw [he]; exact sameButTokens_refl _ _
  · rw [he]; exact keepsStacks_refl _ _

section
variable {s t u : State} {key : Nat} {e : EngTag} {W : Cell → Cell → Prop}

theorem SameButCell.cur_eq (h : SameButCell s t key) : t.cur = s.cur := by
  have hcur := congrArg State.cur h.1
  exact hcur

theorem WordPart.trans (hW : ∀ c c' c'', W c c' → W c' c'' → W c c'') (h : WordPart key e W s t) (k : WordPart key e W t u) :
    WordPart key e W s u :=
  ⟨SameButCell.trans h.same k.same, h.frame.trans h.quiet k.frame, fun hc => k.quiet (h.quiet hc), hW _ _ _ h.writes k.writes⟩

theorem WordPart.refl (hW : W s.core s.core) : WordPart key e W s s :=
  ⟨⟨rfl, fun _ _ => rfl⟩, .refl _ _, id, hW⟩

theorem WordPart.setCore {c : Cell} (hc : s.cur = .cell key e) (h : c = s.core.withRegs c) (hW : W s.core c) :
    WordPart key e W s (s.setCore c) := by
  have hcore := State.core_setCore hc c
  refine ⟨State.setCore_same hc c, ?_, ?_, ?_⟩
  · rw [hcore]; exact .of_regs h
  · rw [hcore, h]; exact id
  · rw [hcore]; exact hW

/-- A change of the engine that leaves its stacks and queues is a part of any word. -/
theorem WordPart.modEng {f : Eng → Eng} (hW : ∀ c c', KeepsScalars c c' → W c c') (hc : s.cur = .cell key e)
    (hf : ∀ g, KeepsStacks s.core g (f g)) : WordPart key e W s (s.modEng f) := by
  have hcore : (s.modEng f).core = s.core.setEng e (f (s.core.eng e)) := by
    rw [State.modEng, State.core_setCore hc, State.curEng_cell hc]
  have hp : Progress e s.core (s.core.setEng e (f (s.core.eng e))) := .setEng (hf _)
  exact ⟨State.modEng_same hc f, by rw [hcore]; exact hp.frame, by rw [hcore]; exact hp.quiet, by rw [hcore]; exact hW _ _ hp.scalars⟩

end

/-! ## How a body ends -/

/-- A body that ends in a state of which `P` holds, cannot go on, or raises 0x05. -/
def Yields {α : Type} (P : α → Prop) (r : M α) : Prop :=
  match r with
  | .ok a => P a
  | .error x => (∃ n, x = .block n) ∨ x = .cause { code := 0x05 } none

theorem Yields.bind {α β : Type} {P : α → Prop} {Q : β → Prop} {r : M α} {f : α → M β} (h : Yields P r)
    (k : ∀ a, P a → Yields Q (f a)) : Yields Q (r >>= f) := by
  cases r with
  | ok a => exact k a h
  | error x => exact h

theorem Yields.ite {α : Type} {P : α → Prop} {p : Prop} [Decidable p] {r r' : M α} (h : p → Yields P r) (h' : ¬ p → Yields P r') :
    Yields P (if p then r else r') := by
  split
  · next hp => exact h hp
  · next hp => exact h' hp

theorem yields_blocked {α : Type} {P : α → Prop} (n : Nat) : Yields P (blocked n : M α) := .inl ⟨n, rfl⟩

theorem yields_raise {α : Type} {P : α → Prop} : Yields P (raise 0x05 : M α) := .inr rfl

/-! ## The operands of a scalar word (R94) -/

section
variable {s : State} {key : Nat} {e : EngTag} {d : BitVec 8}

theorem yields_readReg (he : e = .c ∨ e = .a) (hc : s.cur = .cell key e) (n : Nat) : Yields (fun _ : Word => True) (s.readReg n) := by
  by_cases hn : n = 0
  · rw [hn, ((registerZeroIsHardWired s 0).2).1]
    trivial
  · rcases he with rfl | rfl
    · rw [State.readReg_c hc hn]
      trivial
    · rw [State.readReg_a hc hn]
      trivial

/-- A pop takes the first entry of the engine's own queue. -/
theorem yields_popQ {W : Cell → Cell → Prop} (hqc : e = .c → ∀ c q, W c { c with qc := q })
    (hqa : e = .a → ∀ c q, W c { c with qa := q }) (he : e = .c ∨ e = .a) (hc : s.cur = .cell key e) :
    Yields (fun p => WordPart key e W s p.2) s.popQ := by
  unfold State.popQ
  dsimp only
  rw [State.curEng_cell hc]
  rcases he with rfl | rfl
  · dsimp only
    split
    · exact WordPart.setCore hc rfl (hqc rfl _ _)
    · exact yields_blocked _
  · dsimp only
    split
    · exact WordPart.setCore hc rfl (hqa rfl _ _)
    · exact yields_blocked _

/-- A source pops the engine's own queue or changes nothing. -/
theorem yields_src {W : Cell → Cell → Prop} (hr : ∀ c, W c c) (hqc : e = .c → ∀ c q, W c { c with qc := q })
    (hqa : e = .a → ∀ c q, W c { c with qa := q }) (he : e = .c ∨ e = .a) (hc : s.cur = .cell key e) (code : BitVec 8) (lit : Word) :
    Yields (fun p => WordPart key e W s p.2) (s.src code lit) := by
  unfold State.src
  refine .ite (fun _ => .refl (hr _)) fun _ => .ite (fun _ => ?_) fun _ => .ite (fun _ => ?_) fun _ => yields_raise
  · rw [hc]
    exact yields_popQ hqc hqa he hc
  · exact (yields_readReg he hc _).bind fun v _ => WordPart.refl (hr _)

theorem scalarWrites_qc (he : e = .c) (c : Cell) (q : List Word) : ScalarWrites e d c { c with qc := q } :=
  ⟨fun _ => ⟨rfl, rfl, fun _ => rfl, fun _ _ => rfl⟩, fun ha => absurd (he.symm.trans ha) (by decide), fun hl => ⟨hl, rfl⟩⟩

theorem scalarWrites_qa (he : e = .a) (c : Cell) (q : List Word) : ScalarWrites e d c { c with qa := q } :=
  ⟨fun hc => absurd (he.symm.trans hc) (by decide),
    fun _ => ⟨rfl, fun _ => rfl, fun _ => rfl, fun _ _ => rfl⟩, fun hl => ⟨hl, rfl⟩⟩

theorem scalarSrc (he : e = .c ∨ e = .a) (hc : s.cur = .cell key e) (code : BitVec 8) (lit : Word) :
    Yields (fun p => WordPart key e (ScalarWrites e d) s p.2) (s.src code lit) :=
  yields_src (fun c => .of_keeps (.refl c)) scalarWrites_qc scalarWrites_qa he hc code lit

/-- A destination code below 64 names the register that is written. -/
theorem scalarWriteReg (he : e = .c ∨ e = .a) (hc : s.cur = .cell key e) (w : Word) :
    Yields (WordPart key e (ScalarWrites e d) s) (s.writeReg d.toNat w) := by
  have hself : WordPart key e (ScalarWrites e d) s s := .refl (.of_keeps (.refl _))
  rw [State.writeReg_eq, State.curEng_cell hc]
  rcases he with rfl | rfl
  · have hx : ∀ xv, WordPart key .c (ScalarWrites .c d) s
        (s.setCore { s.core with x := FMap.set s.core.x d.toNat w 0, xVer := xv }) := fun xv =>
      WordPart.setCore hc rfl
        ⟨fun _ => ⟨rfl, rfl, fun _ => rfl, fun r hr => FMap.get_set_ne _ _ _ hr⟩, nofun, fun hl => ⟨hl, rfl⟩⟩
    rw [if_neg (by decide)]
    unfold State.writeX
    dsimp only
    exact .ite (fun _ => hself) fun _ => .ite (fun _ => hx _) fun _ => .ite (fun _ => yields_blocked _) fun _ => hx _
  · rw [if_pos rfl]
    change WordPart key _ _ s (if _ then _ else _)
    split
    · exact hself
    · refine WordPart.setCore hc rfl ⟨nofun, fun _ => ⟨rfl, fun _ => rfl, fun _ => rfl, fun r hr => ?_⟩, fun hl => ⟨hl, rfl⟩⟩
      exact FMap.get_set_ne _ _ _ hr

/-- The codes 0xFE and 0xFF name the queues that the engine owns. -/
theorem scalarDst (he : e = .c ∨ e = .a) (hc : s.cur = .cell key e) (w : Word) :
    Yields (WordPart key e (ScalarWrites e d) s) (s.dst d w) := by
  have hself : WordPart key e (ScalarWrites e d) s s := .refl (.of_keeps (.refl _))
  have hpush : ∀ {c : Cell} {p : EngTag} {n : Nat} {q : Prop} [Decidable q], c = s.core.withRegs c → ScalarWrites e d s.core c →
      Yields (WordPart key e (ScalarWrites e d) s)
        (if (s.core.eng p).done = true then .ok s else if q then .ok (s.setCore c) else blocked n) := fun h hw =>
    .ite (fun _ => hself) fun _ => .ite (fun _ => WordPart.setCore hc h hw) fun _ => yields_blocked _
  unfold State.dst
  refine .ite (fun _ => scalarWriteReg he hc w) fun _ => ?_
  rw [hc]
  dsimp only
  rw [State.curEng_cell hc]
  refine .ite (fun hfe => ?_) fun hfe => .ite (fun hff => ?_) fun _ => yields_raise
  · rcases he with rfl | rfl
    · exact hpush rfl ⟨fun _ => ⟨rfl, rfl, fun h => absurd hfe h, fun _ _ => rfl⟩, nofun, fun hl => ⟨hl, rfl⟩⟩
    · exact hpush rfl ⟨nofun, fun _ => ⟨rfl, fun h => absurd hfe h, fun _ => rfl, fun _ _ => rfl⟩, fun hl => ⟨hl, rfl⟩⟩
  · rcases he with rfl | rfl
    · exact yields_raise
    · exact hpush rfl ⟨nofun, fun _ => ⟨rfl, fun _ => rfl, fun h => absurd hff h, fun _ _ => rfl⟩, fun hl => ⟨hl, rfl⟩⟩

theorem mem_insertVer {v u : RegVer} {l : List RegVer} (h : v ∈ insertVer u l) : v = u ∨ v ∈ l := by
  induction l with
  | nil => exact .inl (List.mem_singleton.1 h)
  | cons y l ih =>
    unfold insertVer at h
    split at h
    · exact List.mem_cons.1 h
    · rcases List.mem_cons.1 h with rfl | h
      · exact .inr List.mem_cons_self
      · exact (ih h).imp_right (List.mem_cons_of_mem _)

/-- The write of a loop register stands as pending beside those before it. -/
theorem loopWrite (hc : s.cur = .cell key e) (w : Word) : Yields (WordPart key e (LoopWrites d) s) (s.writeLc d.toNat w) := by
  unfold State.writeLc
  dsimp only
  refine .ite (fun _ => ?_) fun _ => .ite (fun _ => yields_blocked _) fun _ => ?_
  · refine WordPart.setCore hc rfl ⟨rfl, rfl, rfl, fun hl => ⟨fun v hv => hl v (List.mem_of_mem_filter hv), fun r hr => ?_⟩⟩
    exact FMap.get_set_ne _ _ _ hr
  · refine WordPart.setCore hc rfl ⟨rfl, rfl, rfl, fun hl => ⟨fun v hv => ?_, fun r hr => ?_⟩⟩
    · rcases mem_insertVer hv with rfl | hv
      · rfl
      · exact hl v (List.mem_of_mem_filter hv)
    · exact settledLc_get _ fun v hv => (hl v (List.mem_of_mem_filter (List.mem_reverse.1 hv))).trans_ne hr.symm

end

/-! ## The scalar words -/

/-- A word whose body is `b`, of header `h`. -/
def RunsBody (i : Instr) (h : Hdr) (b : State → M State) : Prop :=
  ∃ wide onP, ∀ s, exec i s = runWord h wide onP (fun s => seqM (b s)) s

/-- A word of C or A that writes a scalar destination. -/
def WritesScalar (i : Instr) (h : Hdr) (d : BitVec 8) : Prop :=
  ∃ b, RunsBody i h b ∧ ∀ s key e, e = .c ∨ e = .a → s.cur = .cell key e → Yields (WordPart key e (ScalarWrites e d) s) (b s)

section
variable {s t : State} {key : Nat} {e : EngTag} {d : BitVec 8}

/-- The parts of a body one after another. -/
theorem Yields.thenPart {α : Type} {W : Cell → Cell → Prop} {r : M α} {f : α → M State} {g : α → State}
    (hW : ∀ c c' c'', W c c' → W c' c'' → W c c'') (hc : s.cur = .cell key e) (h : Yields (fun p => WordPart key e W s (g p)) r)
    (k : ∀ p, (g p).cur = .cell key e → Yields (WordPart key e W (g p)) (f p)) : Yields (WordPart key e W s) (r >>= f) :=
  h.bind fun p hp => by
    have hk := k p ((SameButCell.cur_eq hp.same).trans hc)
    cases hf : f p with
    | ok u => rw [hf] at hk; exact hp.trans hW hk
    | error x => rw [hf] at hk; exact hk

theorem ScalarWrites.transitive (c c' c'' : Cell) (h : ScalarWrites e d c c') (k : ScalarWrites e d c' c'') : ScalarWrites e d c c'' :=
  h.trans k

/-- A source and then the rest of the body. -/
theorem scalarSrc_then (he : e = .c ∨ e = .a) (hc : s.cur = .cell key e) {code : BitVec 8} {lit : Word} {f : Word × State → M State}
    (k : ∀ a s', s'.cur = .cell key e → Yields (WordPart key e (ScalarWrites e d) s') (f (a, s'))) :
    Yields (WordPart key e (ScalarWrites e d) s) (s.src code lit >>= f) :=
  Yields.thenPart (g := Prod.snd) ScalarWrites.transitive hc (scalarSrc he hc code lit) fun p hp => k p.1 p.2 hp

end

theorem writesScalar_rrr {i : Instr} {f : Rrr} (fn : ITy → Word → Word → Word) (hx : ∀ s, exec i s = scalarRrr f fn s) :
    WritesScalar i f.hdr f.d :=
  ⟨_, ⟨_, _, hx⟩, fun _ _ _ he hc => scalarSrc_then he hc fun _ _ hc => scalarSrc_then he hc fun _ _ hc => scalarDst he hc _⟩

theorem writesScalar_un {i : Instr} {f : Rrr} (fn : State → ITy → Word → Word) (hx : ∀ s, exec i s = scalarUn f fn s) :
    WritesScalar i f.hdr f.d :=
  ⟨_, ⟨_, _, hx⟩, fun _ _ _ he hc => scalarSrc_then he hc fun _ _ hc => scalarDst he hc _⟩

theorem writesScalar_ri {i : Instr} {f : Ri} (fn : ITy → Word → Word → Word) (hx : ∀ s, exec i s = scalarRi f fn s) :
    WritesScalar i f.hdr f.d :=
  ⟨_, ⟨_, _, hx⟩, fun _ _ _ he hc => scalarSrc_then he hc fun _ _ hc => scalarDst he hc _⟩

/-- SEL and BFI read D before their sources. -/
theorem writesScalar_old {i : Instr} {f : Rrr} (fn : Word → Word → Word → Word)
    (hx : ∀ s, exec i s = runWord f.hdr f.w1.isSome (f.hdr.eng == 0) (fun s => seqM do
      let old ← s.readReg f.d.toNat
      let lit := litVal 0 f.w1
      let (a, s) ← s.src f.a lit
      let (b, s) ← s.src f.b lit
      s.dst f.d (fn old a b)) s) : WritesScalar i f.hdr f.d :=
  ⟨_, ⟨_, _, hx⟩, fun _ _ _ he hc => (yields_readReg he hc _).bind fun _ _ =>
    scalarSrc_then he hc fun _ _ hc => scalarSrc_then he hc fun _ _ hc => scalarDst he hc _⟩

theorem writesScalar_cvta (f : Rrr) : WritesScalar (.cvta f) f.hdr f.d :=
  ⟨_, ⟨_, _, fun _ => rfl⟩, fun _ _ _ he hc => scalarSrc_then he hc fun _ _ hc =>
    .ite (fun _ => scalarSrc_then he hc fun _ _ hc => scalarDst he hc _) fun _ => scalarDst he hc _⟩

theorem writesScalar_li (f : Ri) : WritesScalar (.li f) f.hdr f.d :=
  ⟨_, ⟨_, _, fun _ => rfl⟩, fun _ _ _ he hc => scalarDst he hc _⟩

theorem writesScalar_rrrWords (f : Rrr) : ∀ i ∈ rrrWords f, WritesScalar i f.hdr f.d := by
  have rrr {i : Instr} fn (hx : ∀ s, exec i s = scalarRrr f fn s) : WritesScalar i f.hdr f.d := writesScalar_rrr fn hx
  have un {i : Instr} fn (hx : ∀ s, exec i s = scalarUn f fn s) : WritesScalar i f.hdr f.d := writesScalar_un fn hx
  have clz := un (i := .clz f) (fun _ t a => BitVec.ofNat 64 (clzNat t.w (a.toNat % 2 ^ t.w))) fun _ => rfl
  have popc := un (i := .popc f) (fun _ t a => BitVec.ofNat 64 (popcNat t.w (a.toNat % 2 ^ t.w))) fun _ => rfl
  have bfx := rrr (i := .bfx f) (fun _ a b => bfxFn (f.fl.getLsbD 0) a b) fun _ => rfl
  have addsc := rrr (i := .addsc f) (fun _ a b => addscFn f.fl.toNat a b) fun _ => rfl
  have aptest := un (i := .aptest f) (fun s _ a => aptestVal s a) fun _ => rfl
  simp only [rrrWords, List.forall_mem_cons]
  exact ⟨rrr _ fun _ => rfl, rrr _ fun _ => rfl, rrr _ fun _ => rfl, rrr _ fun _ => rfl, rrr _ fun _ => rfl, rrr _ fun _ => rfl,
    rrr _ fun _ => rfl, rrr _ fun _ => rfl, rrr _ fun _ => rfl, rrr _ fun _ => rfl, rrr _ fun _ => rfl, rrr _ fun _ => rfl,
    rrr _ fun _ => rfl, rrr _ fun _ => rfl, rrr _ fun _ => rfl, rrr _ fun _ => rfl, rrr _ fun _ => rfl, rrr _ fun _ => rfl,
    rrr _ fun _ => rfl, writesScalar_old _ fun _ => rfl, clz, popc, bfx, writesScalar_old _ fun _ => rfl, addsc, writesScalar_cvta f,
    aptest, List.forall_mem_nil _⟩

theorem writesScalar_riWords (f : Ri) : ∀ i ∈ riWords f, WritesScalar i f.hdr f.d := by
  simp only [riWords, List.forall_mem_cons]
  have ri {i : Instr} fn (hx : ∀ s, exec i s = scalarRi f fn s) : WritesScalar i f.hdr f.d := writesScalar_ri fn hx
  exact ⟨ri _ fun _ => rfl, ri _ fun _ => rfl, ri _ fun _ => rfl, ri _ fun _ => rfl, ri _ fun _ => rfl, ri _ fun _ => rfl,
    writesScalar_li f, List.forall_mem_nil _⟩

/-! ## A quiet step -/

section
variable {s t : State} {key : Nat} {e : EngTag}

theorem Eng.takeWait_shape (g : Eng) (w : BitVec 8) : ∃ k, g.takeWait w = { g with tok := k } := by
  unfold Eng.takeWait
  generalize List.range 8 = l
  induction l generalizing g with
  | nil => exact ⟨_, rfl⟩
  | cons i l ih =>
    rw [List.foldl_cons]
    split
    · obtain ⟨k, h⟩ := ih (g.setCounter i (g.counter i - 1))
      exact ⟨k, h⟩
    · exact ih g

/-- The cause 0x05 enters no handler: it stands in the cell. -/
theorem fatals_deliver (hc : s.cur = .cell key e) :
    ∃ x, (s.deliver { code := 0x05 }).core.fatals = x :: s.core.fatals := by
  have hd : s.deliver { code := 0x05 } = s.setCell key ((s.cell key).takeCause (chipClass (keyChip key)) s.tick
      (Raise.at_ { code := 0x05 } e ((s.cell key).eng e).pc ((s.cell key).eng e).pos) (s.cWait key)) := by
    unfold State.deliver
    rw [hc]
  rw [hd, State.core_cell ((State.setCell_cur _ _ _).trans hc), State.cell_setCell_same, State.core_cell hc]
  refine ⟨(s.tick, Raise.at_ { code := 0x05 } e ((s.cell key).eng e).pc ((s.cell key).eng e).pos), ?_⟩
  unfold Cell.takeCause
  rw [if_neg fun ht => Bool.false_ne_true ht.1]

/-- What a body makes of a state in which no cause then stands. -/
theorem settle_cases {h : Hdr} {wide : Bool} {P : State → Prop} {r : M State} (hc : s.cur = .cell key e) (hr : Yields P r)
    (hf : (s.settle h wide (seqM r)).core.fatals = s.core.fatals) :
    (∃ n, s.settle h wide (seqM r) = s.modEng fun g => { g with reason := n })
    ∨ ∃ t, P t ∧ s.settle h wide (seqM r) = t.retire h wide .seq := by
  cases r with
  | ok t => exact .inr ⟨t, hr, rfl⟩
  | error x =>
    rcases hr with ⟨n, rfl⟩ | rfl
    · exact .inl ⟨n, rfl⟩
    · have calm : ∀ u : State, u.cur = .cell key e → u.core.fatals = s.core.fatals →
          (u.deliver { code := 0x05 }).core.fatals ≠ s.core.fatals := fun u hu hs => by
        obtain ⟨x, hx⟩ := fatals_deliver hu
        rw [hx, hs]
        exact List.cons_ne_self _ _
      refine absurd hf ?_
      simp only [seqM_error rfl, State.settle, Option.getD_none]
      split
      · refine calm _ ((SameButCell.cur_eq (State.modEng_same hc _)).trans hc) ?_
        rw [State.modEng, State.core_setCore hc, Cell.setEng_fatals]
      · exact calm s hc rfl

/-- A quiet step of a word leaves the state but for the reason shown, or is the end of the word. -/
theorem quiet_cases {i : Instr} {h : Hdr} {b : State → M State} {P : State → State → Prop} (hx : RunsBody i h b)
    (hb : ∀ s, s.cur = .cell key e → Yields (P s) (b s)) (hq : Quiet i s t key e) :
    t = s ∨ (∃ r, t = s.modEng fun g => { g with reason := r })
    ∨ ∃ s0 t0 wide, (s0 = s ∨ s0 = s.waited h) ∧ P s0 t0 ∧ t = t0.retire h wide .seq := by
  obtain ⟨wide, onP, hx⟩ := hx
  obtain ⟨hc, -, hm, ht, hf, -, -⟩ := hq
  have settled : ∀ s0, s0 = s ∨ s0 = s.waited h → t = s.settle h wide (seqM (b s0)) →
      (∃ r, t = s.modEng fun g => { g with reason := r })
      ∨ ∃ s0 t0 wide, (s0 = s ∨ s0 = s.waited h) ∧ P s0 t0 ∧ t = t0.retire h wide .seq := by
    rintro s0 h0 rfl
    have hc0 : s0.cur = .cell key e := by
      rcases h0 with rfl | rfl
      · exact hc
      · exact (SameButCell.cur_eq (State.modEng_same hc _)).trans hc
    rcases settle_cases hc (hb s0 hc0) hf with hr | ⟨t0, hp, hr⟩
    · exact .inl hr
    · exact .inr ⟨s0, t0, wide, h0, hp, hr⟩
  have hrun : t = s.runCell h wide fun s => seqM (b s) := by
    rw [hx, runWord, hc] at ht
    dsimp only at ht
    split at ht
    · exact (Host.Outcome.next.inj ht).symm
    · cases ht
  unfold State.runCell at hrun
  simp only [hm] at hrun
  split at hrun
  · exact .inl hrun
  · refine .inr ?_
    split at hrun
    · exact .inl ⟨_, hrun⟩
    · split at hrun
      · exact settled s (.inl rfl) hrun
      · split at hrun
        · exact .inl ⟨_, hrun⟩
        · split at hrun
          · exact .inl ⟨_, hrun⟩
          · exact settled (s.waited h) (.inr rfl) hrun

/-- A quiet step of a word of C or A whose body writes as `W` says, so that the rest of the word may do so too. -/
theorem quiet_part {i : Instr} {h : Hdr} {b : State → M State} {W : Cell → Cell → Prop} (hk : ∀ c c', KeepsScalars c c' → W c c')
    (hW : ∀ c c' c'', W c c' → W c' c'' → W c c'') (he : e = .c ∨ e = .a) (h7 : h.eng.toNat = e.num) (hx : RunsBody i h b)
    (hb : ∀ s, s.cur = .cell key e → Yields (WordPart key e W s) (b s)) (hq : Quiet i s t key e) :
    SameButCell s t key ∧ WordFrame e s.core t.core ∧ W s.core t.core := by
  have ⟨hc, hh, _⟩ := hq
  have hself : WordPart key e W s s := .refl (hk _ _ (.refl _))
  rcases quiet_cases hx hb hq with rfl | ⟨r, rfl⟩ | ⟨s0, t0, wide, h0, hp, rfl⟩
  · exact ⟨hself.same, hself.frame, hself.writes⟩
  · have hr : WordPart key e W s (s.modEng fun g => { g with reason := r }) :=
      .modEng hk hc fun _ => ⟨rfl, rfl, fun _ => rfl, fun _ => List.Sublist.refl _⟩
    exact ⟨hr.same, hr.frame, hr.writes⟩
  · have hs0 : WordPart key e W s s0 := by
      rcases h0 with rfl | rfl
      · exact hself
      · refine .modEng hk hc fun g => ?_
        obtain ⟨k, hg⟩ := g.takeWait_shape h.wait
        rw [hg]
        exact ⟨rfl, rfl, fun _ => rfl, fun _ => List.Sublist.refl _⟩
    have ht0 := hs0.trans hW hp
    have hc0 : t0.cur = .cell key e := (SameButCell.cur_eq ht0.same).trans hc
    have hh0 : t0.core.handler = none := by
      rw [ht0.frame.rest]
      exact hh
    have hne : h.eng ≠ 7 := by
      rintro h
      rw [h] at h7
      rcases he with rfl | rfl <;> exact absurd h7 (by decide)
    have hx : e ≠ .x ∧ e ≠ .m := by rcases he with rfl | rfl <;> decide
    obtain ⟨c, hr, hf, hkc⟩ := frame_retire (wide := wide) hc0 hx.1 hx.2 hne hh0
    rw [hr, State.core_setCore hc0]
    exact ⟨SameButCell.trans ht0.same (State.setCore_same hc0 c), ht0.frame.trans ht0.quiet hf, hW _ _ _ ht0.writes (hk _ _ hkc)⟩

end

/-! ## The obligation -/

theorem WordFrame.beyond {e : EngTag} {c d : Cell} (h : WordFrame e c d) : SameBeyondScalars c d := ⟨h.stamps, h.rest⟩

theorem ScalarWord.writes {i : Instr} {e : EngTag} {d : BitVec 8} (h : ScalarWord i e d) :
    ∃ hd : Hdr, hd.eng.toNat = e.num ∧ WritesScalar i hd d := by
  rcases h with ⟨f, hi, he, rfl⟩ | ⟨f, hi, he, rfl⟩
  · exact ⟨f.hdr, he, writesScalar_rrrWords f i hi⟩
  · exact ⟨f.hdr, he, writesScalar_riWords f i hi⟩

theorem scalarWordsKeepTheRest : ScalarWordsKeepTheRest := by
  intro i s t key e d hi he hq
  obtain ⟨h, hn, b, hx, hb⟩ := ScalarWord.writes hi
  obtain ⟨hs, hf, hw⟩ := quiet_part (fun _ _ => .of_keeps) ScalarWrites.transitive he hn hx (fun s hc => hb s key e he hc) hq
  exact ⟨hs, hf.beyond, hw.onC, hw.onA, fun hl => (hw.lc hl).2, fun hv => (hf.vrot hv).2, hf.others, hf.own⟩

theorem loopWritesKeepTheRest : LoopWritesKeepTheRest := by
  intro f s t key e hn he hq
  have hb : ∀ s, s.cur = .cell key e → Yields (WordPart key e (LoopWrites f.d) s)
      (s.src f.a (litVal 0 f.w1) >>= fun p => p.2.writeLc f.d.toNat (lcVal p.1)) := fun s hc =>
    Yields.thenPart (g := Prod.snd) (fun _ _ _ => LoopWrites.trans) hc
      (yields_src (fun c => .of_keeps (.refl c)) (fun _ _ _ => ⟨rfl, rfl, rfl, fun hl => ⟨hl, fun _ _ => rfl⟩⟩)
        (fun _ _ _ => ⟨rfl, rfl, rfl, fun hl => ⟨hl, fun _ _ => rfl⟩⟩) he hc _ _) fun _ hc => loopWrite hc _
  obtain ⟨hs, hf, hw⟩ := quiet_part (fun _ _ => .of_keeps) (fun _ _ _ => .trans) he hn ⟨_, _, fun _ => rfl⟩ hb hq
  exact ⟨hs, hf.beyond, hw.x, hw.a, hw.qx, fun hl => (hw.lc (by rw [hl]; exact nofun)).2, hf.others, hf.own⟩

/-- Settles O57: issue, operands and retirement of a word each keep the frame, and so do they together. -/
theorem scalarWordsFrame : Obligations.ScalarWordsFrame := ⟨scalarWordsKeepTheRest, loopWritesKeepTheRest⟩

end Sys2Proof.Machine
end

