-- ==== Sys2Proof/Proofs/Encoding.lean ====
section
/-! The encoder and the decoder agree: what a word's fields encode to, what the tables of R97 to R103 name, and the checks of R96. -/

namespace Sys2Proof

open Machine Claims Laws

variable {cls : DieClass} {w : Word} {h : Hdr} {v : Option W1} {i : Instr} {form : Form}

/-! ## The fields of a word and the numbers they encode -/

theorem extract_toNat (w : Word) (lo n : Nat) : (w.extractLsb' lo n).toNat = w.toNat / 2 ^ lo % 2 ^ n := by
  simp [Nat.shiftRight_eq_div_pow]

theorem getLsbD_eq_decide (w : Word) (k : Nat) : w.getLsbD k = decide (w.toNat / 2 ^ k % 2 = 1) := by
  simp [BitVec.getLsbD, Nat.testBit_eq_decide_div_mod_eq]

theorem fld_eq (w : Word) (lo n : Nat) : fld w lo n = w.toNat / 2 ^ lo % 2 ^ n := extract_toNat w lo n

theorem EngTag.ofNum_num (e : EngTag) : EngTag.ofNum e.num = some e := by cases e <;> rfl

theorem EngTag.num_lt (e : EngTag) : e.num < 6 := by cases e <;> decide

theorem EngTag.num_of_ofNum {n : Nat} {e : EngTag} (he : EngTag.ofNum n = some e) : e.num = n := by
  unfold EngTag.ofNum at he
  split at he <;> cases he <;> rfl

theorem encSig_lt (g : Option Sig) : encSig g < 256 := by
  cases g with
  | none => decide
  | some g =>
    have he := EngTag.num_lt g.eng
    have hc := g.cnt.isLt
    simp only [encSig]
    split <;> omega

/-- The SIGNAL byte of a word that holds a push's code is that push (R80, R85). -/
theorem sigOf_of_encSig (g : Option Sig) (hw : w.toNat / 2 ^ 48 % 256 = encSig g) : sigOf w = some g := by
  unfold sigOf
  rw [getLsbD_eq_decide, fld_eq, fld_eq]
  cases g with
  | none =>
    simp only [encSig] at hw
    rw [if_neg (by simp; omega), if_pos (by omega)]
  | some g =>
    obtain ⟨e, cnt, done⟩ := g
    have he := EngTag.num_lt e
    have hc := cnt.isLt
    simp only [encSig] at hw
    have h1 : w.toNat / 2 ^ 55 % 2 = 1 := by split at hw <;> omega
    have h2 : w.toNat / 2 ^ 52 % 2 ^ 3 = e.num := by split at hw <;> omega
    have h3 : w.extractLsb' 49 3 = cnt := BitVec.eq_of_toNat_eq (by rw [extract_toNat]; split at hw <;> omega)
    have h4 : w.getLsbD 48 = done := by rw [getLsbD_eq_decide]; cases done <;> simp at hw ⊢ <;> omega
    rw [if_pos (by simpa using h1), h2, EngTag.ofNum_num, h3, h4]

/-- A well-formed SIGNAL byte is the code of the push it is read as. -/
theorem encSig_of_sigOf {g : Option Sig} (hw : sigOf w = some g) : encSig g = w.toNat / 2 ^ 48 % 256 := by
  unfold sigOf at hw
  rw [getLsbD_eq_decide, fld_eq, fld_eq] at hw
  split at hw
  · next h1 =>
    split at hw
    · next e he =>
      cases hw
      have h1 := of_decide_eq_true h1
      have he := EngTag.num_of_ofNum he
      simp only [encSig, extract_toNat, getLsbD_eq_decide, he, decide_eq_true_eq]
      split <;> omega
    · cases hw
  · next h1 =>
    split at hw
    · cases hw
      simp only [decide_eq_true_eq] at h1
      simp only [encSig]
      omega
    · cases hw

theorem w1Of_encW1 (x : W1) : w1Of (encW1 x) = x := by
  obtain ⟨lit, ext⟩ := x
  have hl := lit.isLt
  have he := ext.isLt
  simp only [w1Of, encW1, W1.mk.injEq]
  constructor <;> (apply BitVec.eq_of_toNat_eq; rw [extract_toNat, BitVec.toNat_ofNat]; omega)

theorem encW1_w1Of (x : Word) : encW1 (w1Of x) = x := by
  have hx := x.isLt
  apply BitVec.eq_of_toNat_eq
  simp only [encW1, w1Of, BitVec.toNat_ofNat, extract_toNat]
  omega

/-! ## First words: the common fields and the operand area -/

theorem encArea_lt (b : Body) : encArea b < 2 ^ 36 := by
  cases b with
  | rrr f =>
    have h1 := f.d.isLt; have h2 := f.a.isLt; have h3 := f.b.isLt; have h4 := f.ty.isLt; have h5 := f.rs.isLt; have h6 := f.fl.isLt
    simp only [encArea]; omega
  | ri f =>
    have h1 := f.d.isLt; have h2 := f.a.isLt; have h3 := f.imm.isLt
    simp only [encArea]; omega
  | br f =>
    have h1 := f.cond.isLt; have h2 := f.reg.isLt; have h3 := f.off.isLt
    simp only [encArea]; split <;> omega
  | lp f =>
    have h1 := f.lc.isLt; have h2 := f.res.isLt; have h3 := f.stg.isLt; have h4 := f.off.isLt
    simp only [encArea]; split <;> omega
  | event => decide

/-- A word made of a head and an operand area has the fields of the head (R80). -/
theorem head_of_encHead {opc : BitVec 8} {wide : Bool} {area : Nat} (ha : area < 2 ^ 36)
    (hw : w = BitVec.ofNat 64 (encHead h opc wide + area)) :
    w.extractLsb' 56 8 = h.wait ∧ sigOf w = some h.sig ∧ w.extractLsb' 45 3 = h.eng ∧ fOpc w = opc.toNat ∧ fWide w = wide
      ∧ w.toNat % 2 ^ 36 = area := by
  have hwait := h.wait.isLt
  have hsig := encSig_lt h.sig
  have heng := h.eng.isLt
  have hopc := opc.isLt
  have hn : w.toNat = (encHead h opc wide + area) % 2 ^ 64 := by rw [hw, BitVec.toNat_ofNat]
  simp only [encHead] at hn
  refine ⟨BitVec.eq_of_toNat_eq ?_, sigOf_of_encSig _ ?_, BitVec.eq_of_toNat_eq ?_, ?_, ?_, ?_⟩
  · rw [extract_toNat]; split at hn <;> omega
  · split at hn <;> omega
  · rw [extract_toNat]; split at hn <;> omega
  · rw [fOpc, fld_eq]; split at hn <;> omega
  · rw [fWide, getLsbD_eq_decide]; cases wide <;> simp at hn ⊢ <;> omega
  · split at hn <;> omega

/-- A word whose low 36 bits encode an operand area holds that area (R89, R92, R93). -/
theorem area_of_encArea (b : Body) (hw : w.toNat % 2 ^ 36 = encArea b) : ItsWord.area w b = b := by
  cases b with
  | rrr f =>
    obtain ⟨hd, d, a, b, ty, rs, fl, v⟩ := f
    have h1 := d.isLt; have h2 := a.isLt; have h3 := b.isLt; have h4 := ty.isLt; have h5 := rs.isLt; have h6 := fl.isLt
    simp only [encArea] at hw
    simp only [ItsWord.area, rrrOf, Body.rrr.injEq, Rrr.mk.injEq, true_and, and_true]
    refine ⟨?_, ?_, ?_, ?_, ?_, ?_⟩ <;> (apply BitVec.eq_of_toNat_eq; rw [extract_toNat]; omega)
  | ri f =>
    obtain ⟨hd, d, a, imm, v⟩ := f
    have h1 := d.isLt; have h2 := a.isLt; have h3 := imm.isLt
    simp only [encArea] at hw
    simp only [ItsWord.area, riOf, Body.ri.injEq, Ri.mk.injEq, true_and, and_true]
    refine ⟨?_, ?_, ?_⟩ <;> (apply BitVec.eq_of_toNat_eq; rw [extract_toNat]; omega)
  | br f =>
    obtain ⟨hd, cond, prod, reg, off, v⟩ := f
    have h1 := cond.isLt; have h2 := reg.isLt; have h3 := off.isLt
    simp only [encArea] at hw
    simp only [ItsWord.area, brOf, Body.br.injEq, Br.mk.injEq, true_and, and_true]
    refine ⟨BitVec.eq_of_toNat_eq ?_, ?_, BitVec.eq_of_toNat_eq ?_, BitVec.eq_of_toNat_eq ?_⟩
    · rw [extract_toNat]; split at hw <;> omega
    · rw [getLsbD_eq_decide]; cases prod <;> simp at hw ⊢ <;> omega
    · rw [extract_toNat]; split at hw <;> omega
    · rw [extract_toNat]; split at hw <;> omega
  | lp f =>
    obtain ⟨hd, lc, res, stg, rot, off, v⟩ := f
    have h1 := lc.isLt; have h2 := res.isLt; have h3 := stg.isLt; have h4 := off.isLt
    simp only [encArea] at hw
    simp only [ItsWord.area, lpOf, Body.lp.injEq, Lp.mk.injEq, true_and, and_true]
    refine ⟨BitVec.eq_of_toNat_eq ?_, BitVec.eq_of_toNat_eq ?_, BitVec.eq_of_toNat_eq ?_, ?_, BitVec.eq_of_toNat_eq ?_⟩
    · rw [extract_toNat]; split at hw <;> omega
    · rw [extract_toNat]; split at hw <;> omega
    · rw [extract_toNat]; split at hw <;> omega
    · rw [getLsbD_eq_decide]; cases rot <;> simp at hw ⊢ <;> omega
    · rw [extract_toNat]; split at hw <;> omega
  | event => rfl

/-- An operand area read from a word encodes to the word's low 36 bits. -/
theorem encArea_of_area {b : Body} (hh : b.hdr = some h) (ha : ItsWord.area w b = b) : encArea b = w.toNat % 2 ^ 36 := by
  have hw := w.isLt
  rw [← ha]
  cases b with
  | rrr f => simp only [ItsWord.area, rrrOf, encArea, extract_toNat]; omega
  | ri f => simp only [ItsWord.area, riOf, encArea, extract_toNat]; omega
  | br f => simp only [ItsWord.area, brOf, encArea, extract_toNat, getLsbD_eq_decide, decide_eq_true_eq]; split <;> omega
  | lp f => simp only [ItsWord.area, lpOf, encArea, extract_toNat, getLsbD_eq_decide, decide_eq_true_eq]; split <;> omega
  | event => cases hh

/-- The head read from a word encodes to the word's other bits. -/
theorem encHead_of_word {g : Option Sig} {opc : BitVec 8} (hs : sigOf w = some g) (ho : opc.toNat = fOpc w) :
    encHead ⟨w.extractLsb' 56 8, g, w.extractLsb' 45 3⟩ opc (fWide w) + w.toNat % 2 ^ 36 = w.toNat := by
  have hw := w.isLt
  rw [fOpc, fld_eq] at ho
  simp only [encHead, encSig_of_sigOf hs, ho, extract_toNat, fWide, getLsbD_eq_decide, decide_eq_true_eq]
  split <;> omega

/-! ## What a word names -/

/-- An instruction whose form stands under these tags and this opcode, with its operand area, header and second word read. -/
def Read (tags : Tags) (opc : Nat) (w : Word) (h : Hdr) (v : Option W1) (i : Instr) : Prop :=
  ∃ form, i.form = some form ∧ form.tags = tags ∧ form.opc.toNat = opc ∧ i.body.hdr = some h ∧ i.body.w1 = v
    ∧ ItsWord.area w i.body = i.body

theorem read_scalarOp {opc : Nat} (ho : scalarOp opc w h v = some i) : Read .scalar opc w h v i := by
  unfold scalarOp at ho
  split at ho <;> cases ho <;> exact ⟨_, rfl, rfl, rfl, rfl, rfl, rfl⟩

theorem read_cOp {opc : Nat} (ho : cOp opc w h v = some i) : Read (.one 0) opc w h v i := by
  unfold cOp at ho
  split at ho <;> cases ho <;> (repeat' split) <;> exact ⟨_, rfl, rfl, rfl, rfl, rfl, rfl⟩

theorem read_aOp {opc : Nat} (ho : aOp opc w h v = some i) : Read (.one 1) opc w h v i := by
  unfold aOp at ho
  split at ho <;> cases ho <;> (repeat' split) <;> exact ⟨_, rfl, rfl, rfl, rfl, rfl, rfl⟩

theorem read_xOp {opc : Nat} (ho : xOp opc w h v = some i) : Read (.one 2) opc w h v i := by
  unfold xOp at ho
  split at ho <;> cases ho <;> (repeat' split) <;> exact ⟨_, rfl, rfl, rfl, rfl, rfl, rfl⟩

theorem read_mOp {opc : Nat} (ho : mOp opc w h v = some i) : Read (.one 3) opc w h v i := by
  unfold mOp at ho
  split at ho <;> cases ho <;> (repeat' split) <;> exact ⟨_, rfl, rfl, rfl, rfl, rfl, rfl⟩

theorem read_wOp {opc : Nat} (ho : wOp opc w h v = some i) : Read (.one 4) opc w h v i := by
  unfold wOp at ho
  split at ho <;> cases ho <;> exact ⟨_, rfl, rfl, rfl, rfl, rfl, rfl⟩

theorem read_sortOp {opc : Nat} (ho : sortOp opc w h v = some i) : Read .kSort opc w h v i := by
  unfold sortOp at ho
  split at ho <;> cases ho <;> exact ⟨_, rfl, rfl, rfl, rfl, rfl, rfl⟩

theorem read_sparseOp {opc : Nat} (ho : sparseOp opc w h v = some i) : Read .kSparse opc w h v i := by
  unfold sparseOp at ho
  split at ho <;> cases ho <;> exact ⟨_, rfl, rfl, rfl, rfl, rfl, rfl⟩

theorem read_allOp {opc : Nat} (ho : allOp opc w h v = some i) : Read .all opc w h v i := by
  unfold allOp at ho
  split at ho <;> cases ho <;> (repeat' split) <;> exact ⟨_, rfl, rfl, rfl, rfl, rfl, rfl⟩

/-- The word's tag stands under `tags`; a class that has C, and the engine that the tag names, has what the form needs. -/
def TagsStand (tags : Tags) (cls : DieClass) (n : Nat) : Prop :=
  tags.ok n = true ∧ (cls.has .c = true → (∀ e, EngTag.ofNum n = some e → cls.has e = true) → tags.classOk cls = true)

/-- What tag and opcode name carries the word's opcode and operand area, and stands under its tag (R97 to R103). -/
theorem read_opOf (ho : opOf cls w h v = some i) : ∃ tags, Read tags (fOpc w) w h v i ∧ TagsStand tags cls (fEng w) := by
  unfold opOf at ho
  dsimp only at ho
  split at ho
  case h_1 he =>
    rw [he]
    split at ho
    · exact ⟨_, read_scalarOp ho, rfl, fun hc _ => hc⟩
    · exact ⟨_, read_cOp ho, rfl, fun hc _ => hc⟩
  case h_2 he =>
    rw [he]
    split at ho
    · exact ⟨_, read_scalarOp ho, rfl, fun hc _ => hc⟩
    · exact ⟨_, read_aOp ho, rfl, fun _ hp => hp _ rfl⟩
  case h_3 he => rw [he]; exact ⟨_, read_xOp ho, rfl, fun _ hp => hp _ rfl⟩
  case h_4 he => rw [he]; exact ⟨_, read_mOp ho, rfl, fun _ hp => hp _ rfl⟩
  case h_5 he => rw [he]; exact ⟨_, read_wOp ho, rfl, fun _ hp => hp _ rfl⟩
  case h_6 he =>
    rw [he]
    split at ho
    · next hc => exact ⟨_, read_sortOp ho, rfl, fun _ _ => beq_iff_eq.2 hc⟩
    · split at ho
      · next hc => exact ⟨_, read_sparseOp ho, rfl, fun _ _ => beq_iff_eq.2 hc⟩
      · cases ho
  case h_7 he => rw [he]; exact ⟨_, read_allOp ho, rfl, fun hc _ => hc⟩
  case h_8 => cases ho

/-- Every instruction is what a word with its tag, opcode and operand area names. -/
theorem itsWord (i : Instr) : ItsWord.Statement i := by
  cases i with
  | add f => exact ItsWord.add f | addRi f => exact ItsWord.addRi f | sub f => exact ItsWord.sub f | mul f => exact ItsWord.mul f
  | mulh f => exact ItsWord.mulh f | div f => exact ItsWord.div f | rem f => exact ItsWord.rem f | and f => exact ItsWord.and f
  | andRi f => exact ItsWord.andRi f | or f => exact ItsWord.or f | orRi f => exact ItsWord.orRi f | xor f => exact ItsWord.xor f
  | andn f => exact ItsWord.andn f | shl f => exact ItsWord.shl f | shlRi f => exact ItsWord.shlRi f | shr f => exact ItsWord.shr f
  | shrRi f => exact ItsWord.shrRi f | shra f => exact ItsWord.shra f | min f => exact ItsWord.min f | max f => exact ItsWord.max f
  | seteq f => exact ItsWord.seteq f | setne f => exact ItsWord.setne f | setlt f => exact ItsWord.setlt f | setltRi f => exact ItsWord.setltRi f
  | setle f => exact ItsWord.setle f | sel f => exact ItsWord.sel f | clz f => exact ItsWord.clz f | popc f => exact ItsWord.popc f
  | bfx f => exact ItsWord.bfx f | bfi f => exact ItsWord.bfi f | addsc f => exact ItsWord.addsc f | cvta f => exact ItsWord.cvta f
  | aptest f => exact ItsWord.aptest f | lcset f => exact ItsWord.lcset f | li f => exact ItsWord.li f | trap f => exact ItsWord.trap f
  | bkpt f => exact ItsWord.bkpt f | eret f => exact ItsWord.eret f | csrr f => exact ItsWord.csrr f | csrw f => exact ItsWord.csrw f
  | csrs f => exact ItsWord.csrs f | csrc f => exact ItsWord.csrc f | tick f => exact ItsWord.tick f | waittick f => exact ItsWord.waittick f
  | halt f => exact ItsWord.halt f | icinv f => exact ItsWord.icinv f | tlbinv f => exact ItsWord.tlbinv f | watch f => exact ItsWord.watch f
  | pendGo f => exact ItsWord.pendGo f | pendCancel f => exact ItsWord.pendCancel f | pendRepeat f => exact ItsWord.pendRepeat f
  | echo f => exact ItsWord.echo f | discver f => exact ItsWord.discver f | mark f => exact ItsWord.mark f
  | fwsvcUndefined f => exact ItsWord.fwsvcUndefined f | out f => exact ItsWord.out f | mset f => exact ItsWord.mset f
  | mopd f => exact ItsWord.mopd f | mscale f => exact ItsWord.mscale f | rtt f => exact ItsWord.rtt f | ld f => exact ItsWord.ld f
  | st f => exact ItsWord.st f | lds f => exact ItsWord.lds f | sts f => exact ItsWord.sts f | rclaimCfg f => exact ItsWord.rclaimCfg f
  | rclaim f => exact ItsWord.rclaim f | rcommit f => exact ItsWord.rcommit f | rtake f => exact ItsWord.rtake f | rdone f => exact ItsWord.rdone f
  | waitfill f => exact ItsWord.waitfill f | waitfree f => exact ItsWord.waitfree f | atomAdd f => exact ItsWord.atomAdd f
  | atomAnd f => exact ItsWord.atomAnd f | atomOr f => exact ItsWord.atomOr f | atomXor f => exact ItsWord.atomXor f
  | atomMin f => exact ItsWord.atomMin f | atomMax f => exact ItsWord.atomMax f | atomExch f => exact ItsWord.atomExch f
  | atomCas f => exact ItsWord.atomCas f | atomIncw f => exact ItsWord.atomIncw f | atomDecw f => exact ItsWord.atomDecw f
  | atomFaddb f => exact ItsWord.atomFaddb f | phase f => exact ItsWord.phase f | rel f => exact ItsWord.rel f | acq f => exact ItsWord.acq f
  | barDie f => exact ItsWord.barDie f | barNode f => exact ItsWord.barNode f | publish f => exact ItsWord.publish f | copy f => exact ItsWord.copy f
  | copyThIn f => exact ItsWord.copyThIn f | copyThOut f => exact ItsWord.copyThOut f | copym f => exact ItsWord.copym f
  | gather f => exact ItsWord.gather f | scatter f => exact ItsWord.scatter f | prefetch f => exact ItsWord.prefetch f
  | thfence f => exact ItsWord.thfence f | capopen f => exact ItsWord.capopen f | capgive f => exact ItsWord.capgive f
  | capdup f => exact ItsWord.capdup f | capdrop f => exact ItsWord.capdrop f | fenceEng f => exact ItsWord.fenceEng f
  | fenceEngAsync f => exact ItsWord.fenceEngAsync f | fadd f => exact ItsWord.fadd f | fsub f => exact ItsWord.fsub f
  | fmul f => exact ItsWord.fmul f | fdiv f => exact ItsWord.fdiv f | fsqrt f => exact ItsWord.fsqrt f | fma f => exact ItsWord.fma f
  | fms f => exact ItsWord.fms f | fmin f => exact ItsWord.fmin f | fmax f => exact ItsWord.fmax f | fabs f => exact ItsWord.fabs f
  | fneg f => exact ItsWord.fneg f | fcmp f => exact ItsWord.fcmp f | iadd f => exact ItsWord.iadd f | isub f => exact ItsWord.isub f
  | imul f => exact ItsWord.imul f | imulh f => exact ItsWord.imulh f | imin f => exact ItsWord.imin f | imax f => exact ItsWord.imax f
  | iand f => exact ItsWord.iand f | ior f => exact ItsWord.ior f | ixor f => exact ItsWord.ixor f | ishl f => exact ItsWord.ishl f
  | ishr f => exact ItsWord.ishr f | ishra f => exact ItsWord.ishra f | icmp f => exact ItsWord.icmp f | iabs f => exact ItsWord.iabs f
  | vsel f => exact ItsWord.vsel f | kand f => exact ItsWord.kand f | kor f => exact ItsWord.kor f | kxor f => exact ItsWord.kxor f
  | knot f => exact ItsWord.knot f | movV f => exact ItsWord.movV f | rotr f => exact ItsWord.rotr f | rotc f => exact ItsWord.rotc f
  | bcr f => exact ItsWord.bcr f | bcc f => exact ItsWord.bcc f | redr f => exact ItsWord.redr f | redc f => exact ItsWord.redc f
  | trb f => exact ItsWord.trb f | unpk f => exact ItsWord.unpk f | pack f => exact ItsWord.pack f | cvt f => exact ItsWord.cvt f
  | exp2 f => exact ItsWord.exp2 f | log2 f => exact ItsWord.log2 f | rcp f => exact ItsWord.rcp f | rsq f => exact ItsWord.rsq f
  | sin f => exact ItsWord.sin f | cos f => exact ItsWord.cos f | tanh f => exact ItsWord.tanh f | rotBase f => exact ItsWord.rotBase f
  | rotBaseOff f => exact ItsWord.rotBaseOff f | orient2 f => exact ItsWord.orient2 f | orient3 f => exact ItsWord.orient3 f
  | incircle f => exact ItsWord.incircle f | insphere f => exact ItsWord.insphere f | segcross f => exact ItsWord.segcross f
  | vld f => exact ItsWord.vld f | vst f => exact ItsWord.vst f | mzero f => exact ItsWord.mzero f | mload f => exact ItsWord.mload f
  | mgo f => exact ItsWord.mgo f | mdrainSpad f => exact ItsWord.mdrainSpad f | mdrainGlob f => exact ItsWord.mdrainGlob f
  | mdrainGlobAdd f => exact ItsWord.mdrainGlobAdd f | mdrainPeer f => exact ItsWord.mdrainPeer f | rgoMax f => exact ItsWord.rgoMax f
  | rgoExpsum f => exact ItsWord.rgoExpsum f | rgoScale f => exact ItsWord.rgoScale f | rgoNorm f => exact ItsWord.rgoNorm f
  | sort f => exact ItsWord.sort f | segsort f => exact ItsWord.segsort f | merge f => exact ItsWord.merge f | topk f => exact ItsWord.topk f
  | ksel f => exact ItsWord.ksel f | uniq f => exact ItsWord.uniq f | spmmCsr f => exact ItsWord.spmmCsr f | spmmBsr f => exact ItsWord.spmmBsr f
  | sddmm f => exact ItsWord.sddmm f | spmv f => exact ItsWord.spmv f | br f => exact ItsWord.br f | jmpi f => exact ItsWord.jmpi f
  | call f => exact ItsWord.call f | calli f => exact ItsWord.calli f | ret f => exact ItsWord.ret f | loop f => exact ItsWord.loop f
  | break_ f => exact ItsWord.break_ f | follow f => exact ItsWord.follow f | region f => exact ItsWord.region f | end_ f => exact ItsWord.end_ f
  | nop f => exact ItsWord.nop f
  | _ => exact ItsWord.of_none rfl

/-! ## The checks of R96 -/

/-- The checks 4 to 8 of a word whose W1 is there, in their order. -/
theorem encodingCause_eq (hf : i.form = some form) (hh : i.body.hdr = some h) (hm : missingW1 form i.body = false) :
    encodingCause cls i = (sigCause form cls h).or
      (if reservedOk form i.body = false then some 0x02 else if reachOk form i.body = false then some 0x05
        else if scopeOk form i.body = false then some 0x07 else none) := by
  simp only [encodingCause, hf, hm, hh, Option.bind_some, Bool.not_eq_true']
  cases sigCause form cls h <;> rfl

theorem decode_eng6 (he : fEng w = 6) (x : Option Word) : decode cls w x = .error 0x03 := by
  simp [decode, he]

theorem decode_absent {e : EngTag} (he : EngTag.ofNum (fEng w) = some e) (hp : cls.has e = false) (x : Option Word) :
    decode cls w x = .error 0x04 := by
  have h6 : fEng w ≠ 6 := by intro h; rw [h] at he; cases he
  simp [decode, h6, he, hp]

/-- The header that the decoder reads: a SIGNAL byte that is malformed reads as no push. -/
def wordHdr (w : Word) : Hdr := ⟨w.extractLsb' 56 8, (sigOf w).getD none, w.extractLsb' 45 3⟩

/-- The second word that the decoder reads. -/
def wordW1 (w : Word) (x : Option Word) : Option W1 := if fWide w then some (w1Of (x.getD 0)) else none

/-- The tag of the word is not 6 and names no absent engine (checks 1 and 2 of R96). -/
def EngineStands (cls : DieClass) (w : Word) : Prop := fEng w ≠ 6 ∧ ∀ e, EngTag.ofNum (fEng w) = some e → cls.has e = true

theorem decode_noOp (hp : EngineStands cls w) (x : Option Word) (ho : opOf cls w (wordHdr w) (wordW1 w x) = none) :
    decode cls w x = .error 0x01 := by
  obtain ⟨h6, hp⟩ := hp
  rw [wordHdr, wordW1] at ho
  cases he : EngTag.ofNum (fEng w) with
  | none => simp only [decode, h6, he, ho, if_false, Bool.false_eq_true]
  | some e => simp only [decode, h6, he, ho, hp e he, if_false, Bool.false_eq_true, Bool.not_true]

/-- A word whose tag and opcode name an instruction: the checks 4 to 8 and then the instruction. -/
theorem decode_op (hp : EngineStands cls w) (x : Option Word) (ho : opOf cls w (wordHdr w) (wordW1 w x) = some i)
    (hf : i.form = some form) :
    decode cls w x = if missingW1 form i.body = true then .error 0x06 else if sigOf w = none then .error 0x02
      else (encodingCause cls i).elim (.ok i) .error := by
  obtain ⟨h6, hp⟩ := hp
  rw [wordHdr, wordW1] at ho
  have hd : decode cls w x = if missingW1 form i.body = true then .error 0x06 else if (sigOf w).isNone = true then .error 0x02
      else match encodingCause cls i with
        | some c => .error c
        | none => .ok i := by
    cases he : EngTag.ofNum (fEng w) with
    | none => simp only [decode, h6, he, ho, hf, if_false, Bool.false_eq_true] <;> rfl
    | some e => simp only [decode, h6, he, ho, hf, hp e he, if_false, Bool.false_eq_true, Bool.not_true] <;> rfl
  rw [hd]
  simp only [Option.isNone_iff_eq_none]
  cases encodingCause cls i <;> rfl

/-- What decodes has passed every check of R96. -/
theorem of_decode_ok {x : Option Word} (hd : decode cls w x = .ok i) :
    EngineStands cls w ∧ opOf cls w (wordHdr w) (wordW1 w x) = some i ∧ (sigOf w).isSome = true ∧ encodingCause cls i = none := by
  have h6 : fEng w ≠ 6 := fun he => by rw [decode_eng6 he] at hd; cases hd
  have hp : ∀ e, EngTag.ofNum (fEng w) = some e → cls.has e = true := fun e he => by
    by_contra hn
    rw [decode_absent he (by simpa using hn)] at hd; cases hd
  cases ho : opOf cls w (wordHdr w) (wordW1 w x) with
  | none => rw [decode_noOp ⟨h6, hp⟩ x ho] at hd; cases hd
  | some j =>
    obtain ⟨tags, ⟨form, hf, -⟩, -⟩ := read_opOf ho
    rw [decode_op ⟨h6, hp⟩ x ho hf] at hd
    split at hd
    · cases hd
    · split at hd
      · cases hd
      · next hs =>
        cases hc : encodingCause cls j with
        | none => rw [hc] at hd; cases hd; exact ⟨⟨h6, hp⟩, rfl, Option.isSome_iff_ne_none.2 hs, hc⟩
        | some c => rw [hc] at hd; cases hd

/-! ## The statements on encodings -/

/-- Settles O3: the decoder makes the checks one after another, and each cause is that of the first check that fails. -/
theorem decodingChecksInOrder : Obligations.DecodingChecksInOrder := by
  intro cls w x h op
  refine ⟨fun he => decode_eng6 he x, fun e he hp => decode_absent he hp x, fun h6 hp => ⟨decode_noOp ⟨h6, hp⟩ x, ?_⟩⟩
  intro i form ho hf
  obtain ⟨-, ⟨-, -, -, -, hh, -⟩, -⟩ := read_opOf ho
  have hd := decode_op ⟨h6, hp⟩ x ho hf
  refine ⟨fun hm => by rw [hd, if_pos hm], fun hm hs => by simp [hd, hm, hs], fun hm hs => ?_⟩
  rw [encodingCause_eq hf hh hm] at hd
  simp only [hm, hs, Bool.false_eq_true, if_false] at hd
  refine ⟨fun g hg hc => ?_, fun g hg hc hdone ha => ?_, fun hc => ⟨fun hr => ?_, fun hr hq => ?_, fun hr hq hz => ?_, fun hr hq hz => ?_⟩⟩
  · simp [hd, sigCause, hg, hc]
  · simp [hd, sigCause, hg, hc, hdone, ha]
  · simp [hd, hc, hr]
  · simp [hd, hc, hr, hq]
  · simp [hd, hc, hr, hq, hz]
  · simp [hd, hc, hr, hq, hz]

theorem DieClass.has_a (hc : cls.has .c = true) : cls.has .a = true := by
  revert hc
  cases cls <;> decide

/-- The tag of a form that a class has room for names an engine of it, or every engine. -/
theorem engineStands_of_tags {tags : Tags} {n : Nat} (ht : tags.ok n = true) (hc : tags.classOk cls = true) :
    n ≠ 6 ∧ ∀ e, EngTag.ofNum n = some e → cls.has e = true := by
  cases tags with
  | scalar =>
    simp only [Tags.ok, Bool.or_eq_true, beq_iff_eq] at ht
    simp only [Tags.classOk] at hc
    rcases ht with rfl | rfl <;> (refine ⟨by decide, ?_⟩; rintro e ⟨⟩)
    · exact hc
    · exact DieClass.has_a hc
  | one k =>
    simp only [Tags.ok, beq_iff_eq] at ht
    subst ht
    simp only [Tags.classOk] at hc
    refine ⟨?_, fun e he => ?_⟩
    · rintro rfl; cases hc
    · rw [he] at hc; exact hc
  | kSort =>
    simp only [Tags.ok, Tags.classOk, beq_iff_eq] at ht hc
    subst ht hc
    exact ⟨by decide, by rintro e ⟨⟩; rfl⟩
  | kSparse =>
    simp only [Tags.ok, Tags.classOk, beq_iff_eq] at ht hc
    subst ht hc
    exact ⟨by decide, by rintro e ⟨⟩; rfl⟩
  | all =>
    simp only [Tags.ok, beq_iff_eq] at ht
    subst ht
    exact ⟨by decide, by rintro e ⟨⟩⟩

/-- A well-formed instruction word stands on the class, carries a fitting tag and passes the checks. -/
theorem wf_iff (hf : i.form = some form) : i.wf cls = true ↔ form.tags.classOk cls = true
    ∧ (∃ h, i.body.hdr = some h ∧ form.tags.ok h.eng.toNat = true) ∧ encodingCause cls i = none := by
  simp only [Instr.wf, hf, Bool.and_eq_true, Option.isNone_iff_eq_none, and_assoc]
  cases i.body.hdr <;> simp

/-- What passes the checks is there with its W1, its SIGNAL and its reserved fields. -/
theorem of_encodingCause (hf : i.form = some form) (hh : i.body.hdr = some h) (hc : encodingCause cls i = none) :
    missingW1 form i.body = false ∧ reservedOk form i.body = true := by
  have hm : missingW1 form i.body = false := by
    by_contra hm
    simp only [encodingCause, hf] at hc
    rw [if_pos (by simpa using hm)] at hc
    cases hc
  rw [encodingCause_eq hf hh hm] at hc
  refine ⟨hm, ?_⟩
  by_contra hr
  rw [if_pos (by simpa using hr)] at hc
  simp at hc

theorem encode_eq (hf : i.form = some form) (hh : i.body.hdr = some h) :
    encode i = BitVec.ofNat 64 (encHead h form.opc i.body.w1.isSome + encArea i.body) :: (i.body.w1.map encW1).toList := by
  simp only [encode, hf, hh]
  cases i.body.w1 <;> rfl

/-- Settles O4: the first word holds every field, so that tag and opcode name the instruction with its operand area,
and a well-formed instruction passes the checks that follow. -/
theorem encodedInstructionsDecode : Obligations.EncodedInstructionsDecode := by
  intro cls i hform hwf
  obtain ⟨form, hf⟩ := Option.isSome_iff_exists.1 hform
  obtain ⟨hcls, ⟨h, hh, htag⟩, hcause⟩ := (wf_iff hf).1 hwf
  obtain ⟨hmissing, hreserved⟩ := of_encodingCause hf hh hcause
  rw [encode_eq hf hh]
  generalize hw : BitVec.ofNat 64 (encHead h form.opc i.body.w1.isSome + encArea i.body) = w
  obtain ⟨hwait, hsig, heng, hopc, hwide, harea⟩ := head_of_encHead (encArea_lt i.body) hw.symm
  have he : fEng w = h.eng.toNat := congrArg BitVec.toNat heng
  have hhdr : wordHdr w = h := by rw [wordHdr, hwait, hsig, heng]; rfl
  have hw1 : wordW1 w (i.body.w1.map encW1).toList.head? = i.body.w1 := by
    rw [wordW1, hwide]
    cases i.body.w1 with
    | none => rfl
    | some y => exact congrArg some (w1Of_encW1 y)
  have hop : opOf cls w (wordHdr w) (wordW1 w (i.body.w1.map encW1).toList.head?) = some i := by
    rw [hhdr, hw1]
    exact itsWord i cls w form h ⟨hf, hh, hopc, he ▸ htag, hcls, area_of_encArea _ harea, hreserved⟩
  change decode cls w _ = .ok i
  have hstands : EngineStands cls w := by rw [EngineStands, he]; exact engineStands_of_tags htag hcls
  rw [decode_op hstands _ hop hf]
  simp [hmissing, hsig, hcause]

/-- The decoder drops no bit: the fields read from the words encode to them. -/
theorem decodedWordsEncode : DecodedWordsEncode := by
  intro cls w x i hd
  obtain ⟨-, hop, hsig, -⟩ := of_decode_ok hd
  obtain ⟨g, hg⟩ := Option.isSome_iff_exists.1 hsig
  obtain ⟨-, ⟨form, hf, -, hopc, hh, hw1, harea⟩, -⟩ := read_opOf hop
  have hwide : i.body.w1.isSome = fWide w := by rw [hw1, wordW1]; cases fWide w <;> rfl
  rw [encode_eq hf hh, wordHdr, hg, Option.getD_some, hwide, encArea_of_area hh harea, encHead_of_word hg hopc,
    BitVec.ofNat_toNat, BitVec.setWidth_eq, hw1, wordW1]
  cases fWide w with
  | false => rfl
  | true => exact congrArg (fun y => [w, y]) (encW1_w1Of x)

/-- What decodes has a form whose tags stand on the class, and has passed the checks. -/
theorem decodedInstructionsAreWellFormed : DecodedInstructionsAreWellFormed := by
  intro cls w x i hc hd
  obtain ⟨hp, hop, -, hcause⟩ := of_decode_ok hd
  obtain ⟨tags, ⟨form, hf, rfl, -, hh, -⟩, hok, hcls⟩ := read_opOf hop
  exact ⟨Option.isSome_iff_exists.2 ⟨form, hf⟩, (wf_iff hf).2 ⟨hcls hc hp.2, ⟨_, hh, hok⟩, hcause⟩⟩

/-- Settles O5: every field that the decoder reads is encoded back, and every check of well-formedness was made. -/
theorem decodedWordsEncodeBack : Obligations.DecodedWordsEncodeBack := ⟨decodedWordsEncode, decodedInstructionsAreWellFormed⟩

/-- Settles O8: each of the words is closed, and the decoder computes what it stands for. -/
theorem wordsDecodeAsTheTablesSay : Obligations.WordsDecodeAsTheTablesSay := by
  unfold Obligations.WordsDecodeAsTheTablesSay
  decide

end Sys2Proof
end

