-- ==== Sys2Proof/Proofs/IssueAndBranches.lean ====
section
/-! SUPPORT. What keeps a word from issuing and what its issue takes (R84, R287, R289, R304), and the branch BR with its
conditions (R91, R125, R126). -/

namespace Sys2Proof.Machine

variable {s : State} {key : Nat} {e : EngTag}

/-! ## Words that may not issue -/

/-- A word of an engine that holds a push waits for it (R289). -/
theorem runWord_held {h : Hdr} {wide onP : Bool} {body : State → M (State × Next)} (hc : s.cur = .cell key e)
    (hk : (FMap.find? s.cells key).isSome = true) (hr : s.core.mayRun e = true) (hp : (s.core.eng e).held.isSome = true) :
    runWord h wide onP body s = .next (s.modEng fun g => { g with reason := 7 }) := by
  simp only [runWord, hc, hk, if_true, State.runCell, State.curEng_cell hc, hr, hp, Bool.not_true, Bool.false_eq_true, if_false]

/-- A word that has not issued does so where the slip window and the counters admit it. -/
theorem runWord_fresh {h : Hdr} {wide onP : Bool} {body : State → M (State × Next)} (hc : s.cur = .cell key e)
    (hk : (FMap.find? s.cells key).isSome = true) (hr : s.core.mayRun e = true) (hp : (s.core.eng e).held = none)
    (hf : s.myFault = none) (hi : (s.core.eng e).issued = false) :
    runWord h wide onP body s = .next
      (if s.core.slipOk s.curClass e = false then s.modEng fun g => { g with reason := 6 }
       else if s.core.waitOk e h.wait = false then s.modEng fun g => { g with reason := 1 }
       else s.settle h wide (body (s.waited h))) := by
  simp only [runWord, hc, hk, if_true, State.runCell, State.curEng_cell hc, hr, hp, hf, hi, Option.isSome_none, Bool.not_true,
    Bool.false_eq_true, if_false, Bool.not_eq_true', State.waited]

/-- A counter that WAIT selects and that only the pushes of the present cycle make non-zero keeps a word from issuing (R288). -/
theorem Cell.waitOk_false {c : Cell} {w : BitVec 8} {k : Nat} (hk : k < 8) (hw : w.getLsbD k = true)
    (hz : ((c.eng e).counter k).toNat ≤ c.pushedNow e k) : c.waitOk e w = false := by
  by_contra hn
  have hall := List.all_eq_true.1 (Bool.eq_true_of_not_eq_false hn) k (List.mem_range.2 hk)
  rw [hw, Bool.not_true, Bool.false_or, decide_eq_true_eq] at hall
  omega

theorem wordsWaitToIssue : Claims.WordsWaitToIssue := by
  intro i h s key e hh hc hk hr
  obtain ⟨wide, onP, body, hx⟩ := exec_runWord i h hh
  rw [hx]
  refine ⟨fun hp => runWord_held hc hk hr hp, fun hp hf hi hs => ?_, fun hp hf hi hs ⟨k, hlt, hw, hz⟩ => ?_⟩
  · rw [runWord_fresh hc hk hr hp hf hi, if_pos hs]
  · rw [runWord_fresh hc hk hr hp hf hi, if_neg (by simp [hs]), if_pos (Cell.waitOk_false hlt hw hz)]

/-! ## What issue takes -/

theorem Eng.counter_setCounter_ne (g : Eng) {n k : Nat} (v : BitVec 8) (h : k ≠ n) : (g.setCounter n v).counter k = g.counter k :=
  FMap.get_set_ne g.tok v 0 h

/-- Counters decremented one after another: each that the byte selects loses one. -/
theorem Eng.foldl_takeWait_counter (w : BitVec 8) (k : Nat) (l : List Nat) (hl : l.Nodup) (g : Eng) :
    (l.foldl (fun g i => if w.getLsbD i then g.setCounter i (g.counter i - 1) else g) g).counter k
      = if k ∈ l ∧ w.getLsbD k = true then g.counter k - 1 else g.counter k := by
  induction l generalizing g with
  | nil => simp
  | cons i l ih =>
    obtain ⟨hi, hl⟩ := List.nodup_cons.1 hl
    rw [List.foldl_cons, ih hl]
    by_cases hk : k = i
    · subst hk
      by_cases hw : w.getLsbD k = true
      · simp [hi, hw, Eng.counter_setCounter]
      · simp [hw]
    · have hg : (if w.getLsbD i = true then g.setCounter i (g.counter i - 1) else g).counter k = g.counter k := by
        split
        · exact Eng.counter_setCounter_ne g _ hk
        · rfl
      simp only [hg, List.mem_cons, hk, false_or]

theorem Eng.takeWait_counter (g : Eng) (w : BitVec 8) {k : Nat} (hk : k < 8) :
    (g.takeWait w).counter k = if w.getLsbD k then g.counter k - 1 else g.counter k := by
  have h := Eng.foldl_takeWait_counter w k (List.range 8) List.nodup_range g
  simp only [List.mem_range, hk, true_and] at h
  exact h

theorem State.core_waited (hc : s.cur = .cell key e) (h : Hdr) :
    (s.waited h).core = s.core.setEng e ((s.core.eng e).takeWait h.wait) := by
  simp only [State.waited, State.modEng, State.curEng_cell hc]
  exact State.core_setCore hc _

theorem waitDecrementsCounters : Claims.WaitDecrementsCounters := by
  intro s key e h hi
  rw [State.core_waited hi.cur]
  refine ⟨fun k hk => ?_, fun g hg => Cell.eng_setEng_ne _ _ hg⟩
  rw [Cell.eng_setEng_same]
  exact Eng.takeWait_counter _ _ hk

/-- Settles O11: a word that may not issue shows why, and issue takes one from each counter that WAIT selects. -/
theorem issueWaitsAndTakesTokens : Obligations.IssueWaitsAndTakesTokens := ⟨wordsWaitToIssue, waitDecrementsCounters⟩

/-! ## Branches -/

/-- C alone reads the outcome of a conditional word whose producer it is (R147). -/
theorem State.outcome_alone {s0 : State} {f : Br} {v : Word} (ha : s0.alone = true) (hp : f.prod = false)
    (hv : s0.readReg f.reg.toNat = .ok v) : s0.outcome f = .ok (condTaken f.cond.toNat v, s0) := by
  simp only [State.outcome, State.exchange, ha, hp, hv, Bool.false_and, Bool.false_eq_true, if_true, if_false, bind, Except.bind]
  cases condTaken f.cond.toNat v <;> rfl

/-- Another engine pops the outcome of a conditional word that its producer pushed for the same word (R125). -/
theorem State.outcome_consumer {s0 : State} {f : Br} {v : Word} {pos : Nat} (hc : s0.cur = .cell key e) (ha : s0.alone = false)
    (he : e ≠ (if f.prod then .a else .c)) (hb : s0.headBq = .ok ⟨.outcome, v, s0.curPc, pos⟩) :
    s0.outcome f = .ok (v != 0, s0.modEng fun g => { g with bq := g.bq.tail }) := by
  simp only [State.outcome, State.exchange_consumer hc ha he, State.popBq, hb, bind, Except.bind, beq_self_eq_true, Bool.and_self, if_true]

/-- BR with a condition ends with its outcome, in the state in which the engine has learned it. -/
theorem ends_br_outcome {f : Br} {s0 t : State} {b : Bool} (st : Starts (.br f) s key e s0) (hn : f.cond ≠ 0)
    (ho : s0.outcome f = .ok (b, t)) : Ends (.br f) s t (if b then .goto (offTarget s0.curPc f.off) else .seq) := by
  refine ends_of st rfl rfl (fun _ => rfl) ?_
  simp only [if_neg hn, ho, bind, Except.bind]

theorem branchesComplete : Claims.BranchesComplete := by
  intro f s key e s0 st
  have hc := Starts.cur st
  refine ⟨fun h0 => ends_of st rfl rfl (fun _ => rfl) (by simp only [if_pos h0]), ?_, ?_, ?_⟩
  · rintro v b t hn hh he hv rfl ht
    exact ends_br_outcome st hn (State.outcome_producer hc (Starts.alone st hh) he hv ht)
  · intro v pos hn hh he hb
    simpa using ends_br_outcome st hn (State.outcome_consumer hc (Starts.alone st hh) he hb)
  · rintro v hn hh hp rfl hv
    have ha : s0.alone = true := by simp [State.alone, hc, Starts.handler st, hh]
    exact ends_br_outcome st hn (State.outcome_alone ha hp hv)

theorem branchConditions : Claims.BranchConditions := by
  intro v
  have hz : v = 0#64 ↔ v.toInt = 0 := by rw [← BitVec.toInt_inj]; rfl
  refine ⟨rfl, by simp [condTaken, hz], by simp [condTaken, hz], by simp [condTaken], by simp [condTaken], by simp [condTaken],
    by simp [condTaken], ?_⟩
  have ht := BitVec.toInt_eq_toNat_bmod v
  simp only [condTaken, BitVec.getLsbD, Nat.testBit_zero, decide_eq_true_eq]
  rw [Int.bmod_def] at ht
  split at ht <;> omega

/-- Settles O17: each kind of engine learns the outcome of a conditional BR and follows it. -/
theorem branchesAndConditions : Obligations.BranchesAndConditions := ⟨branchesComplete, branchConditions⟩

end Sys2Proof.Machine
end

