-- ==== Sys2Proof/Proofs/Turns.lean ====
section
/-! SUPPORT. What a turn executes (R80 to R88, R139, R285, R346, R351, R456): the instruction cache around a word, and one lemma
per kind of turn. -/

namespace Sys2Proof.Machine

variable {s s1 s2 : State} {n : Nat} {a : Act}

/-! ## The instruction cache -/

/-- A cell whose instruction cache has changed, and holds of each word what it held or what the code holds (R139). -/
structure Refilled (code : List Word) (c d : Cell) : Prop where
  only : d = { c with icache := d.icache }
  reads : ∀ j, d.wordAt code j = c.wordAt code j ∨ d.wordAt code j = code[j]?

section
variable {code : List Word} {c d f : Cell}

theorem Refilled.refl (code : List Word) (c : Cell) : Refilled code c c := ⟨rfl, fun _ => .inl rfl⟩

theorem Refilled.trans (h : Refilled code c d) (k : Refilled code d f) : Refilled code c f := by
  refine ⟨?_, fun j => ?_⟩
  · rw [k.only, h.only]
  · rcases k.reads j with hk | hk
    · rw [hk]; exact h.reads j
    · exact .inr hk

theorem Cell.wordAt_of_find? {m : FMap Word} {j : Nat} (h : FMap.find? m j = FMap.find? c.icache j) :
    ({ c with icache := m } : Cell).wordAt code j = c.wordAt code j := by
  simp only [Cell.wordAt, h]

/-- A word that the cache does not hold is read from the code. -/
theorem Cell.wordAt_of_absent {j : Nat} (h : FMap.find? c.icache j = none) : c.wordAt code j = code[j]? := by
  simp only [Cell.wordAt, h]
  split
  · rfl
  · next hj => exact (List.getElem?_eq_none (Nat.le_of_not_lt hj)).symm

theorem Cell.wordAt_of_held {j : Nat} {w : Word} (h : FMap.find? c.icache j = some w) (hw : code[j]? = some w) :
    c.wordAt code j = code[j]? := by
  have hj : j < code.length := by
    by_contra hj
    rw [List.getElem?_eq_none (Nat.le_of_not_lt hj)] at hw; cases hw
  simp only [Cell.wordAt, h, if_pos hj, hw]

/-- A line that leaves the cache leaves its words to the code. -/
theorem refilled_icRoom (c : Cell) (i draw : Nat) : Refilled code c (c.icRoom i draw) := by
  unfold Cell.icRoom
  dsimp only
  split
  · exact .refl code c
  · split
    · next l _ =>
      refine ⟨rfl, fun j => ?_⟩
      have hf := FMap.find?_filter c.icache (fun k => k / 8 != l) j
      by_cases hl : (j / 8 != l) = true
      · exact .inl (Cell.wordAt_of_find? (hf.trans (if_pos hl)))
      · exact .inr (Cell.wordAt_of_absent (hf.trans (if_neg hl)))
    · exact .refl code c

/-- A word of the code put into the cache where it is not there. -/
def putWord (code : List Word) (m : FMap Word) (i : Nat) : FMap Word :=
  match FMap.find? m i, code[i]? with
  | none, some w => FMap.put m i w
  | _, _ => m

theorem refilled_putWord (c : Cell) (i : Nat) : Refilled code c { c with icache := putWord code c.icache i } := by
  refine ⟨rfl, fun j => ?_⟩
  unfold putWord
  split
  · next w hm hw =>
    by_cases hj : j = i
    · subst hj
      exact .inr (Cell.wordAt_of_held (FMap.find?_put_same ..) hw)
    · exact .inl (Cell.wordAt_of_find? (FMap.find?_put_ne _ _ hj))
  · exact .inl rfl

theorem refilled_putWords (lo : Nat) (l : List Nat) (c : Cell) :
    Refilled code c { c with icache := l.foldl (fun m d => putWord code m (lo + d)) c.icache } := by
  induction l generalizing c with
  | nil => exact .refl code c
  | cons d l ih => exact (refilled_putWord c (lo + d)).trans (ih { c with icache := putWord code c.icache (lo + d) })

theorem Cell.icFill_eq (c : Cell) (code : List Word) (i : Nat) :
    c.icFill code i = { c with icache := (List.range 8).foldl (fun m d => putWord code m (i / 8 * 8 + d)) c.icache } := rfl

theorem refilled_icFill (c : Cell) (i : Nat) : Refilled code c (c.icFill code i) := by
  rw [Cell.icFill_eq]
  exact refilled_putWords _ _ c

end

/-! ## The words that an engine passes or executes -/

theorem EngTag.ofNum_eq {k : Nat} {e : EngTag} (h : EngTag.ofNum k = some e) : k = e.num := (EngTag.num_of_ofNum h).symm

/-- A word of the engine's own tag, or of tag 7, is the instruction that it decodes to. -/
theorem State.atWord_run {code : List Word} {w : Word} {i : Nat} {x : Instr} (ht : fEng w = s.curEng.num ∨ fEng w = 7)
    (hr : s.rotateWaits code i = false) (hw : fWide w = true → i + 1 < code.length)
    (hd : decode s.curClass w (s.core.wordAt code (i + 1)) = .ok x) : s.atWord code w i = .run x s := by
  have hwide : (fWide w && decide (code.length ≤ i + 1)) = false := by
    rw [Bool.and_eq_false_imp]
    intro h
    exact decide_eq_false (Nat.not_le.2 (hw h))
  unfold State.atWord
  dsimp only
  rw [if_pos (ht.imp_right .inl), hwide, Bool.false_and, if_neg Bool.false_ne_true, hr, if_neg Bool.false_ne_true, hd]

theorem wordsOfOtherEnginesArePassed : Claims.WordsOfOtherEnginesArePassed := by
  intro s code w i key e f hc hf hp hne hr
  have hn := EngTag.ofNum_eq hf
  have h6 : (fEng w == 6) = false := by rw [hn]; cases f <;> rfl
  have hown : ¬ (fEng w = e.num ∨ fEng w = 7 ∨ (False ∧ e = .c)) := by
    rw [hn]
    revert hne
    cases e <;> cases f <;> decide
  unfold State.atWord
  simp only [State.curEng_cell hc, hf, hp, h6, Bool.not_true, Bool.or_self, if_neg hown, hr, Bool.false_eq_true, if_false]

/-! ## Turns -/

theorem step_run {i : Instr} {t : State} (hn : s.nextTurn = (⟨n, a⟩, s1)) (h : (s1.passTicks n).owedDone.fetchAct a = .run i t) :
    step s = exec i t := by
  simp only [step, State.fetchNext, hn, h]

theorem step_done {t : State} (hn : s.nextTurn = (⟨n, a⟩, s1)) (h : (s1.passTicks n).owedDone.fetchAct a = .done t) :
    step s = .next t := by
  simp only [step, State.fetchNext, hn, h]

theorem State.fetchAct_engine {key : Nat} {e : EngTag} (h : s.canAct (.engine key e) = true) :
    s.fetchAct (.engine key e) = s.fetchEngine key e := by
  simp [State.fetchAct, h]

theorem State.fetchAct_command (h : s.canAct .command = true) : s.fetchAct .command = s.fetchCommand := by
  simp [State.fetchAct, h]

theorem State.fetchAct_packet {q : Nat} (h : s.canAct (.packet q) = true) : s.fetchAct (.packet q) = s.fetchPacket q := by
  simp [State.fetchAct, h]

theorem State.fetchAct_event {i : Instr} (h : s.canAct (.event i) = true) :
    s.fetchAct (.event i) = if s.eventWaits i then .done s else .run i s := by
  simp [State.fetchAct, h]

/-- Settles O1: the fetch fills the instruction cache around the PC, and the word there is decoded. -/
theorem stepRunsTheDecodedWord : Obligations.StepRunsTheDecodedWord := by
  intro s s1 n key e x hn hkey hact s2 hs2 hhas hrun hsec hpc hin hheld hslip
  obtain ⟨d, s', hd⟩ : ∃ d s', s2.draw = (d, s') := ⟨_, _, rfl⟩
  have hfill := (((refilled_icRoom (code := x.words) s2.core ((s2.core.eng e).pc / 8) d).trans (refilled_icFill _ ((s2.core.eng e).pc / 8))).trans
    (refilled_icRoom _ ((s2.core.eng e).pc / 8 + 1) (d / 1024))).trans (refilled_icFill _ ((s2.core.eng e).pc / 8 + 1))
  generalize hcc : (((s2.core.icRoom ((s2.core.eng e).pc / 8) d).icFill x.words ((s2.core.eng e).pc / 8)).icRoom
    ((s2.core.eng e).pc / 8 + 1) (d / 1024)).icFill x.words ((s2.core.eng e).pc / 8 + 1) = c at hfill
  refine ⟨c.icache, fun j => by rw [← hfill.only]; exact hfill.reads j, ?_⟩
  intro s3 hs3 w i hw htag hrot hwide hdec
  rw [← hfill.only] at hs3
  have hcur : s3.curEng = e := by rw [hs3, State.setCore_curEng, hs2]; rfl
  have hcore : s3.core = c := by rw [hs3]; exact State.core_setCore (e := e) (k := key) (by rw [hs2]; rfl) c
  refine step_run hn ?_
  rw [State.fetchAct_engine hact, State.fetchEngine, if_neg (by omega), State.fetchCell]
  dsimp only
  rw [← hs2, hhas, hrun, hsec]
  have hslip' : ((!(s2.core.eng e).issued && !s2.core.slipOk s2.curClass e) = true) = False := by
    rcases hslip with h | h <;> simp [h]
  simp only [hpc, Nat.not_le.2 hin, hheld, hslip', hd, hcc, Bool.not_true, Bool.or_self, Bool.false_eq_true, if_false, ne_eq,
    not_true_eq_false, or_self, Option.isSome_none]
  rw [hd] at hs3
  rw [hcore] at hw
  rw [← hs3, hw]
  exact State.atWord_run (hcur.symm ▸ htag) hrot hwide hdec

theorem stepRunsAPrologueWord : Claims.StepRunsAPrologueWord := by
  intro s s1 n node e p x w i hn hact s2 hs2 hp hbudget hsec hpc hw hwide hdec
  have hwide' : (fWide w && decide (x.words.length ≤ p.core.engC.pc / 8 + 1)) = false := by
    rw [Bool.and_eq_false_imp]
    intro h
    exact decide_eq_false (Nat.not_le.2 (hwide h))
  have hp0 : FMap.find? (s1.passTicks n).owedDone.prols node = some p := by rw [hs2] at hp; exact hp
  refine step_run hn ?_
  rw [State.fetchAct_engine hact, State.fetchEngine, if_pos (Nat.le_add_right _ _), Nat.add_sub_cancel_left, State.fetchPrologue]
  dsimp only
  rw [← hs2]
  simp only [hp0, hsec, hpc, hw, hwide', hdec, Nat.not_le.2 hbudget, if_false, ne_eq, not_true_eq_false, Bool.false_eq_true]

/-- The GSD takes the next command of the ring, moves MCRD on and starts it, unless it waits (R387, R446, R456). -/
theorem State.fetchCommand_eq {entry : Nat} {c : Cmd} {s3 : State} (hr : s.ready = true) (hm : s.mcRd ≠ s.mcWr)
    (hv : s.reenum = none) (he : entry = s.mcBase.toNat + 64 * (s.mcRd % 2 ^ s.mcLog2))
    (h3 : s3 = { s with mcRd := (s.mcRd + 1) % 2 ^ 32, mcBells :=
      (s.mcBells.dropWhile fun b => b.1 == s.mcRd).filter fun b => b.1 != (s.mcRd + 1) % 2 ^ 32 })
    (hc : c = cmdAt s.host entry false s.bellTick) :
    s.fetchCommand = (cmdOf (Memory.read s.host entry).toNat c).elim (.done (s3.cmdDone c stBadArg 0))
      fun i => if s.cmdWaits i then .done s else .run i s3 := by
  subst he h3 hc
  simp only [State.fetchCommand, hr, hm, hv, Bool.not_true, decide_false, Bool.or_self, Option.isSome_none, Bool.false_eq_true, if_false]
  cases cmdOf _ _ <;> rfl

/-- A queue's turn takes the packet its next entry holds (R346). -/
theorem State.fetchPacket_run {q : Nat} {x : Queue} {s3 : State} {bs : List Byte} {i : Instr} (hx : x = s.queue q)
    (hr : s.ready = true) (hs : s.shut = false) (hen : x.en = true) (hst : x.st = 1) (hw : x.wait = none) (hne : x.rd ≠ x.wr)
    (hi : s.coreIdle = true) (hl : s.lockHeld q = false) (ho : s.oldest q (x.bell.getD s.nextArrival) = true)
    (h3 : s3 = s.modQueue q fun y => { y with bell := none }) (hroom : s3.eventRoom = true) (hb : s3.packetBytes x x.rd = .ok bs)
    (hrev : bytesNat bs 1 1 = x.rev) (hp : packetInstr (bytesNat bs 0 1) (packetOf q x.rd bs) = .ok i) :
    s.fetchPacket q = .run i (if x.hostMem then s3 else s3.gsdTouch x.ctx 1 (x.packetAt x.rd)) := by
  have hr3 : s3.ready = true := by rw [h3]; exact hr
  have hs3 : s3.shut = false := by rw [h3]; exact hs
  unfold State.fetchPacket
  dsimp only
  rw [← hx, ← h3]
  simp only [hi, hl, ho, hr3, hs3, hen, hst, hw, hne, hroom, hb, hrev, hp, Bool.not_true, Bool.or_self, Bool.false_eq_true, if_false,
    ne_eq, not_true_eq_false, Option.isSome_none, decide_false]

theorem State.fetchPacket_waits {q : Nat}
    (h : s.coreIdle = false ∨ s.lockHeld q = true ∨ s.oldest q ((s.queue q).bell.getD s.nextArrival) = false) :
    s.fetchPacket q = .done s := by
  unfold State.fetchPacket
  dsimp only
  rw [if_pos]
  rcases h with h | h | h <;> simp [h]

theorem stepRunsEventsCommandsAndPackets : Claims.StepRunsEventsCommandsAndPackets := by
  rintro s s1 n a hn s2 rfl hact
  refine ⟨?_, ?_, ?_, ?_, ?_⟩
  · rintro i rfl hw
    exact step_run hn (by rw [State.fetchAct_event hact, hw]; rfl)
  · rintro i rfl hw
    exact step_done hn (by rw [State.fetchAct_event hact, hw]; rfl)
  · rintro entry s3 c rfl hr hm hv he h3 hc
    have hf := (State.fetchAct_command hact).trans (State.fetchCommand_eq hr hm hv he h3 hc)
    refine ⟨fun i hi hw => step_run hn ?_, fun i hi hw => step_done hn ?_, fun hi => step_done hn ?_⟩
    · rw [hf, hi, Option.elim_some, hw]; rfl
    · rw [hf, hi, Option.elim_some, hw]; rfl
    · rw [hf, hi]; rfl
  · rintro q x s3 bs i rfl hx hr hs hen hst hw hne hi hl ho h3 hroom hb hrev hp
    exact step_run hn ((State.fetchAct_packet hact).trans (State.fetchPacket_run hx hr hs hen hst hw hne hi hl ho h3 hroom hb hrev hp))
  · rintro q x rfl rfl h
    exact step_done hn ((State.fetchAct_packet hact).trans (State.fetchPacket_waits h))

/-- Settles O2: each kind of turn fetches what its agent executes, or ends where the agent must wait. -/
theorem stepRunsOtherTurns : Obligations.StepRunsOtherTurns :=
  ⟨stepRunsAPrologueWord, stepRunsEventsCommandsAndPackets, wordsOfOtherEnginesArePassed⟩

end Sys2Proof.Machine
end

