-- ==== Sys2Proof/Proofs/DeviceCommands.lean ====
section
/-! SUPPORT. The commands on objects, halted work, defaults, roles, power and firmware (R110 to R113, R397, R411, R446, R447, R458,
R463 to R466): how a command's checks end it, then one lemma per command. -/

namespace Sys2Proof.Machine

open Claims

variable {s : State} {c : Cmd}

/-! ## How a command ends -/

/-- A command of the ring whose work ends in a state, with its effects or where a check has ended it. -/
theorem command_ends {f : State → CM State} {t : State} (ht : Taken s c) (h : f s = .ok t ∨ f s = .error t) :
    command c f s = .next t := by
  obtain ⟨hr, hi⟩ := ht
  rcases h with h | h <;> simp [command, event, hr, hi, h]

/-- A command of the ring whose work ends completes with OK. -/
theorem done_of {i : Cmd → Instr} {f : State → CM State} {t : State} {r : Nat} (ht : Taken s c)
    (hx : ∀ s, exec (i c) s = command c f s) (h : f s = .ok (t.cmdDone c 0 r)) : Done i c s t r :=
  (hx s).trans (command_ends ht (.inl h))

/-- A command of the ring one of whose checks fails completes with the status of that check. -/
theorem refused_of {i : Cmd → Instr} {f : State → CM State} {st : Nat} (ht : Taken s c)
    (hx : ∀ s, exec (i c) s = command c f s) (h : f s = .error (s.cmdDone c st 0)) : Refused i c s st :=
  (hx s).trans (command_ends ht (.inr h))

theorem State.must_ok {b : Bool} (st : Nat) (h : b = true) : s.must c b st = .ok () := if_pos h

theorem State.must_fails {b : Bool} (st : Nat) (h : b = false) : s.must c b st = .error (s.cmdDone c st 0) := by
  rw [State.must, h]; rfl

theorem State.cmdCtx_named {ctx : Nat} {x : Ctx} (h : Named s ctx x) : s.cmdCtx c ctx = .ok x := by
  obtain ⟨hx, ht⟩ := h
  simp only [State.cmdCtx, hx, ht, Bool.false_eq_true, if_false]

theorem State.cmdPart_found {p : Nat} {x : Part} (h : s.part? p = some x) : s.cmdPart c p = .ok x := by
  simp only [State.cmdPart, h]

theorem State.cmdPart_unknown {p : Nat} (h : s.part? p = none) : s.cmdPart c p = .error (s.cmdDone c 0x24 0) := by
  simp only [State.cmdPart, h]; rfl

/-- A check passed goes on to the rest of the command. -/
theorem CM.bind_ok {α β : Type} {r : CM α} {x : α} {f : α → CM β} (h : r = .ok x) : (r >>= f) = f x := by rw [h]; rfl

theorem CM.bind_error {α β : Type} {r : CM α} {t : State} {f : α → CM β} (h : r = .error t) : (r >>= f) = .error t := by rw [h]; rfl

/-! ## OBJ_LOAD, OBJ_PATCH, OBJ_UNLOAD (R110 to R113, R397, R398) -/

section
variable {x : Ctx}

theorem objLoad_fails {st : Nat} (ht : Taken s c) (hn : Named s c.w0.toNat x) (ha : c.w1.toNat % 8 = 0) (h3 : c.w3 = 0)
    (h4 : c.w4 = 0) (h5 : c.w5 = 0) (hl : loadImage (s.hostRead c.w1.toNat c.w2.toNat) = .error st) : Refused .objLoad c s st := by
  refine refused_of ht (fun _ => rfl) ?_
  rw [CM.bind_ok (State.must_ok _ (by simp [zeros, h3, h4, h5, ha])), CM.bind_ok (State.cmdCtx_named hn), hl]
  rfl

theorem objLoad_done {im : Image} {tb : Nat} {u t : State} {db : Option Nat} (ht : Taken s c) (hn : Named s c.w0.toNat x)
    (ha : c.w1.toNat % 8 = 0) (h3 : c.w3 = 0) (h4 : c.w4 = 0) (h5 : c.w5 = 0)
    (hl : loadImage (s.hostRead c.w1.toNat c.w2.toNat) = .ok im) (hb : s.buildTiles c.w0.toNat im.tiles = some (tb, u))
    (hd : u.buildData c.w0.toNat im.data = some (db, t)) :
    ∃ o : CodeObj, o.ctx = c.w0.toNat ∧ o.sections = im.sections ∧ o.slots = im.slots ∧ o.levels = im.levels ∧ o.tileBuf = tb
      ∧ o.dataBuf = db ∧ o.gone = false
      ∧ Done .objLoad c s { t with objects := FMap.put t.objects s.nextHandle o, nextHandle := s.nextHandle + 1 } s.nextHandle := by
  refine ⟨{ ctx := c.w0.toNat, sections := im.sections, slots := im.slots, levels := im.levels, capKinds := im.capKinds, tileBuf := tb,
            tileCount := tileEntries im.tiles, dataBuf := db, used := false, gone := false }, rfl, rfl, rfl, rfl, rfl, rfl, rfl, ?_⟩
  refine done_of ht (fun _ => rfl) ?_
  rw [CM.bind_ok (State.must_ok _ (by simp [zeros, h3, h4, h5, ha])), CM.bind_ok (State.cmdCtx_named hn), hl]
  dsimp only
  rw [hb, Option.bind_some, hd]
  rfl

/-- An object with the value of one of its slots written (R110). -/
def CodeObj.patched (o : CodeObj) (i : Nat) (y : Slot) (v : Word) : CodeObj :=
  { o with sections := patchWords o.sections y v.toNat, slots := setNth o.slots i { y with value := v } }

/-- What OBJ_PATCH leaves: the object patched, and the target's lines gone from the instruction caches of its ACTIVE context (R397). -/
def State.patched (s : State) (h : Nat) (o : CodeObj) (i : Nat) (y : Slot) (v : Word) : State :=
  let active : Bool := match s.part? (s.ctxPart o.ctx) with | some p => p.activeCtx == o.ctx | none => false
  let u : State := { s with objects := FMap.put s.objects h (o.patched i y v) }
  if y.ty != 3 && o.used && active then u.icinvCtx o.ctx (8 * y.target) (if y.ty = 1 then 8 else 16) else u

theorem icinvCtx_keeps (p : Prop) [Decidable p] (u : State) (ctx lo len : Nat) :
    (if p then u.icinvCtx ctx lo len else u).objects = u.objects ∧ (if p then u.icinvCtx ctx lo len else u).mem = u.mem
      ∧ (if p then u.icinvCtx ctx lo len else u).nodes = u.nodes := by
  split <;> exact ⟨rfl, rfl, rfl⟩

theorem patched_keeps (s : State) (h : Nat) (o : CodeObj) (i : Nat) (y : Slot) (v : Word) :
    (s.patched h o i y v).objects = FMap.put s.objects h (o.patched i y v) ∧ (s.patched h o i y v).mem = s.mem
      ∧ (s.patched h o i y v).nodes = s.nodes :=
  icinvCtx_keeps _ _ _ _ _

theorem objPatch_completes {o : CodeObj} (ht : Taken s c) (ho : FMap.find? s.objects c.w0.toNat = some o) (hg : o.gone = false)
    (hn : Named s o.ctx x) (h3 : c.w3 = 0) (h4 : c.w4 = 0) (h5 : c.w5 = 0) :
    (o.slots[c.w1.toNat]? = none → Refused .objPatch c s 0x0E)
    ∧ (∀ y, o.slots[c.w1.toNat]? = some y → slotOk o.sections y c.w2.toNat = false → Refused .objPatch c s 0x0E)
    ∧ (∀ y, o.slots[c.w1.toNat]? = some y → slotOk o.sections y c.w2.toNat = true → ∃ t : State, Done .objPatch c s t 0
        ∧ FMap.find? t.objects c.w0.toNat = some { o with sections := patchWords o.sections y c.w2.toNat, slots := setNth o.slots c.w1.toNat { y with value := c.w2 } }
        ∧ t.mem = s.mem ∧ t.nodes = s.nodes) := by
  have hz : zeros [c.w3, c.w4, c.w5] = true := by simp [zeros, h3, h4, h5]
  refine ⟨fun hy => refused_of ht (fun _ => rfl) ?_, fun y hy hk => refused_of ht (fun _ => rfl) ?_, fun y hy hk => ?_⟩
  · rw [CM.bind_ok (State.must_ok _ hz)]
    dsimp only
    rw [ho]
    dsimp only
    rw [CM.bind_ok (State.must_ok _ (by simp [hg])), CM.bind_ok (State.cmdCtx_named hn), hy]
    rfl
  · rw [CM.bind_ok (State.must_ok _ hz)]
    dsimp only
    rw [ho]
    dsimp only
    rw [CM.bind_ok (State.must_ok _ (by simp [hg])), CM.bind_ok (State.cmdCtx_named hn), hy]
    exact CM.bind_error (State.must_fails _ hk)
  · obtain ⟨hobj, hmem, hnodes⟩ := patched_keeps s c.w0.toNat o c.w1.toNat y c.w2
    refine ⟨s.patched c.w0.toNat o c.w1.toNat y c.w2, done_of ht (fun _ => rfl) ?_, ?_, hmem, hnodes⟩
    · rw [CM.bind_ok (State.must_ok _ hz)]
      dsimp only
      rw [ho]
      dsimp only
      rw [CM.bind_ok (State.must_ok _ (by simp [hg])), CM.bind_ok (State.cmdCtx_named hn), hy]
      dsimp only
      rw [CM.bind_ok (State.must_ok _ hk)]
      rfl
    · rw [hobj]
      exact FMap.find?_put_same ..

theorem objUnload_completes {o : CodeObj} (ht : Taken s c) (ho : FMap.find? s.objects c.w0.toNat = some o) (hg : o.gone = false)
    (hn : Named s o.ctx x) (h1 : c.w1 = 0) (h2 : c.w2 = 0) (h3 : c.w3 = 0) (h4 : c.w4 = 0) (h5 : c.w5 = 0) :
    (s.refersTo c.w0.toNat = true → Refused .objUnload c s 0x20)
    ∧ (s.refersTo c.w0.toNat = false → ∃ t : State, Done .objUnload c s t 0 ∧ FMap.find? t.objects c.w0.toNat = none) := by
  have hz : (below c.w1 1 && zeros [c.w2, c.w3, c.w4, c.w5]) = true := by simp [below, zeros, h1, h2, h3, h4, h5]
  refine ⟨fun hr => refused_of ht (fun _ => rfl) ?_, fun hr => ⟨{ s.dropObject o with
    objects := FMap.erase (s.dropObject o).objects c.w0.toNat }, done_of ht (fun _ => rfl) ?_, FMap.find?_erase_same ..⟩⟩
  · rw [CM.bind_ok (State.must_ok _ hz)]
    dsimp only
    rw [ho]
    dsimp only
    rw [CM.bind_ok (State.must_ok _ (by simp [hg])), CM.bind_ok (State.cmdCtx_named hn), if_pos h1]
    exact CM.bind_error (State.must_fails _ (by simp [hr]))
  · rw [CM.bind_ok (State.must_ok _ hz)]
    dsimp only
    rw [ho]
    dsimp only
    rw [CM.bind_ok (State.must_ok _ (by simp [hg])), CM.bind_ok (State.cmdCtx_named hn), if_pos h1,
      CM.bind_ok (State.must_ok _ (by simp [hr]))]
    rfl

end

/-! ## GRAPH_CANCEL, HALT_RESUME, HALT_DISCARD (R138, R338, R411) -/

theorem graphCancel_completes (ht : Taken s c) (h2 : c.w2 = 0) (h3 : c.w3 = 0) (h4 : c.w4 = 0) (h5 : c.w5 = 0) :
    (s.opens.find? (fun (o : Open) => o.queue == c.w0.toNat && o.idx == c.w1.toNat && o.left != 0) = none →
      Refused .graphCancel c s 0x24)
    ∧ (∀ o ns, s.opens.find? (fun (o : Open) => o.queue == c.w0.toNat && o.idx == c.w1.toNat && o.left != 0) = some o →
        ns = s.entriesOf (fun d => d.queue == c.w0.toNat && d.pkt == c.w1.toNat) →
        Done .graphCancel c s (((ns.foldl (fun (s : State) n => s.discardNode n) s).freeEntries ns).complete o
          (if o.faulted then 0x03 else 0x02)) 0) := by
  have hz : zeros [c.w2, c.w3, c.w4, c.w5] = true := by simp [zeros, h2, h3, h4, h5]
  refine ⟨fun ho => refused_of ht (fun _ => rfl) ?_, ?_⟩
  · rw [CM.bind_ok (State.must_ok _ hz)]
    dsimp only
    rw [ho]
    rfl
  · rintro o ns ho rfl
    refine done_of ht (fun _ => rfl) ?_
    rw [CM.bind_ok (State.must_ok _ hz)]
    dsimp only
    rw [ho]
    rfl

/-- Cells put into one phase one after another: those of the list have it, and no other cell changes. -/
theorem foldl_setPhase_cell (p : Phase) (ks : List Nat) (s : State) (k : Nat) :
    (k ∈ ks → ((ks.foldl (fun (s : State) k => s.setCell k { s.cell k with phase := p }) s).cell k).phase = p)
    ∧ (k ∉ ks → (ks.foldl (fun (s : State) k => s.setCell k { s.cell k with phase := p }) s).cell k = s.cell k) := by
  induction ks generalizing s with
  | nil => exact ⟨fun h => absurd h List.not_mem_nil, fun _ => rfl⟩
  | cons j ks ih =>
    obtain ⟨hin, hout⟩ := ih (s.setCell j { s.cell j with phase := p })
    rw [List.foldl_cons]
    refine ⟨fun h => ?_, fun h => ?_⟩
    · by_cases hk : k ∈ ks
      · exact hin hk
      · have hj : k = j := (List.mem_cons.1 h).resolve_right hk
        rw [hout hk, hj, State.cell_setCell_same]
    · rw [hout (fun hk => h (List.mem_cons_of_mem _ hk)), State.cell_setCell_ne _ _ (fun hj => h (by rw [hj]; exact List.mem_cons_self))]

theorem haltedWork_completes {d : Node} (ht : Taken s c) (h0 : c.w0.toNat < 2 ^ 16) (hd : s.node? c.w0.toNat = some d)
    (h1 : c.w1 = 0) (h2 : c.w2 = 0) (h3 : c.w3 = 0) (h4 : c.w4 = 0) (h5 : c.w5 = 0) :
    (s.haltedCells c.w0.toNat = [] → Refused .haltResume c s 0x21 ∧ Refused .haltDiscard c s 0x21)
    ∧ (s.haltedCells c.w0.toNat ≠ [] → Done .haltDiscard c s (s.discardNode c.w0.toNat) 0
        ∧ ∃ t : State, Done .haltResume c s t 0 ∧ (∀ k ∈ s.haltedCells c.w0.toNat, (t.cell k).phase = .running)
          ∧ (∀ k, k ∉ s.haltedCells c.w0.toNat → t.cell k = s.cell k)) := by
  have hz : (below c.w0 16 && zeros [c.w1, c.w2, c.w3, c.w4, c.w5]) = true := by
    simp only [below, h0, decide_true, Bool.true_and]
    simp [zeros, h1, h2, h3, h4, h5]
  have hnode : (s.node? c.w0.toNat).isSome = true := by rw [hd]; rfl
  refine ⟨fun he => ⟨refused_of ht (fun _ => rfl) ?_, refused_of ht (fun _ => rfl) ?_⟩,
    fun he => ⟨done_of ht (fun _ => rfl) ?_, _, done_of ht (fun _ => rfl) ?_,
      fun k hk => (foldl_setPhase_cell .running _ s k).1 hk, fun k hk => (foldl_setPhase_cell .running _ s k).2 hk⟩⟩
  · rw [CM.bind_ok (State.must_ok _ hz), CM.bind_ok (State.must_ok _ hnode)]
    exact CM.bind_error (State.must_fails _ (by simp [he]))
  · rw [CM.bind_ok (State.must_ok _ hz), CM.bind_ok (State.must_ok _ hnode)]
    exact CM.bind_error (State.must_fails _ (by simp [he]))
  · rw [CM.bind_ok (State.must_ok _ hz), CM.bind_ok (State.must_ok _ hnode), CM.bind_ok (State.must_ok _ (by simp [he]))]
    rfl
  · rw [CM.bind_ok (State.must_ok _ hz), CM.bind_ok (State.must_ok _ hnode), CM.bind_ok (State.must_ok _ (by simp [he]))]
    rfl

/-! ## The defaults of a context, the stop on tick (R411, R417, R420, R436, R437) -/

section
variable {x : Ctx}

theorem dumpArea_done (ht : Taken s c) (hx : s.ctx? c.w0.toNat = some x) (h3 : c.w3.toNat < 16) (h4 : c.w4 = 0) (h5 : c.w5 = 0)
    (ha : c.w1.toNat % 64 = 0) (hl : 4096 ≤ c.w2.toNat) :
    Done .dumpArea c s (s.modCtx c.w0.toNat fun (x : Ctx) => { x with dump := some (c.w1.toNat, c.w2.toNat, c.w3.toNat) }) 0 := by
  refine done_of ht (fun _ => rfl) ?_
  rw [CM.bind_ok (State.must_ok _ (by simp [below, zeros, h3, h4, h5, ha, hl])), CM.bind_ok (State.must_ok _ (by rw [hx]; rfl))]
  rfl

theorem watchDefaults_done (ht : Taken s c) (hn : Named s c.w0.toNat x) (h5 : c.w5.toNat % 8 = 0) :
    Done .watchDefaults c s (s.modCtx c.w0.toNat fun (x : Ctx) =>
      { x with watch := watchTriples ([c.w1, c.w2, c.w3, c.w4] ++ (List.range 20).map fun i =>
          BitVec.ofNat 64 (s.hostWord (c.w5.toNat + 8 * i))) }) 0 := by
  refine done_of ht (fun _ => rfl) ?_
  rw [CM.bind_ok (State.must_ok _ (by simp [h5])), CM.bind_ok (State.cmdCtx_named hn)]
  rfl

theorem traceDefaults_done (ht : Taken s c) (hn : Named s c.w0.toNat x) (h3 : c.w3 = 0) (h4 : c.w4 = 0) (h5 : c.w5 = 0) :
    Done .traceDefaults c s (s.modCtx c.w0.toNat fun (x : Ctx) => { x with trctl := c.w1.setWidth 2, trbase := c.w2 }) 0 := by
  refine done_of ht (fun _ => rfl) ?_
  rw [CM.bind_ok (State.must_ok _ (by simp [zeros, h3, h4, h5])), CM.bind_ok (State.cmdCtx_named hn)]
  rfl

end

theorem stopAt_completes (ht : Taken s c) (h1 : c.w1 = 0) (h2 : c.w2 = 0) (h3 : c.w3 = 0) (h4 : c.w4 = 0) (h5 : c.w5 = 0) :
    (c.tick + 2 ^ 16 ≤ c.w0.toNat → s.stopAt = none → Done .stopAt c s { s with stopAt := some c.w0.toNat } 0)
    ∧ ((c.w0.toNat < c.tick + 2 ^ 16 ∨ s.stopAt.isSome = true) → Refused .stopAt c s 0x21) := by
  have hz : zeros [c.w1, c.w2, c.w3, c.w4, c.w5] = true := by simp [zeros, h1, h2, h3, h4, h5]
  refine ⟨fun hk hs => done_of ht (fun _ => rfl) ?_, fun hk => refused_of ht (fun _ => rfl) ?_⟩
  · rw [CM.bind_ok (State.must_ok _ (by rw [hz, decide_eq_true hk, hs]; rfl))]
    rfl
  · refine CM.bind_error (State.must_fails _ ?_)
    rw [hz, Bool.true_and]
    rcases hk with hk | hk
    · rw [decide_eq_false (by omega), Bool.false_and]
    · rw [Option.isNone_eq_false_iff.2 hk, Bool.and_false]

/-! ## ROLE_SET and the re-enumeration (R344, R443 to R449) -/

theorem roleSet_unknown (ht : Taken s c) (hp : s.part? c.w0.toNat = none) (h2 : c.w2.toNat ≤ 1) (h5 : c.w5 = 0) :
    Refused .roleSet c s 0x24 := by
  refine refused_of ht (fun _ => rfl) ?_
  dsimp only
  rw [CM.bind_ok (State.must_ok _ (by simp [zeros, h2, h5]))]
  exact CM.bind_error (State.cmdPart_unknown hp)

/-- A role written drops what the die caches (R447). -/
theorem setRole_caches (s : State) (chip role : Nat) :
    ((s.setRole chip role).die chip).dcache = [] ∧ ((s.setRole chip role).die chip).rdc = [] := by
  have hd : ∃ d : Die, (s.setRole chip role).dies = FMap.put s.dies chip d ∧ d.dcache = [] ∧ d.rdc = [] := by
    unfold State.setRole
    dsimp only
    split <;> split <;> exact ⟨_, rfl, rfl, rfl⟩
  obtain ⟨d, hd, hc, hr⟩ := hd
  rw [State.die, hd, FMap.get_put_same]
  exact ⟨hc, hr⟩

/-- The checks that a ROLE_SET without an evacuation has passed (R446). -/
structure RoleNamed (s : State) (c : Cmd) (p : Part) : Prop where
  part : s.part? c.w0.toNat = some p
  layer : isLayer c.w1.toNat = true
  role : c.w2.toNat ≤ 1
  owned : (s.die c.w1.toNat).part = c.w0.toNat
  old : (s.die c.w1.toNat).role ≤ 1
  noCtx : c.w3 = 0
  noVa : c.w4 = 0
  rest : c.w5 = 0
  ctx0 : s.ctx? 0 = none

/-- What ROLE_SET does once its operands hold: nothing where the role stands, else the change, or the status of the check that fails. -/
def roleChange (s : State) (c : Cmd) : CM State :=
  if c.w2.toNat = (s.die c.w1.toNat).role then .ok (s.cmdDone c stOk 0)
  else do
    s.must c (decide (stackWatts (fun i => if i = c.w1.toNat then c.w2.toNat else (s.die i).role) (stackOf c.w1.toNat) ≤ s.stackLimit)) stThermal
    s.must c (!s.heldOn (s.partDies c.w0.toNat)) stBusy
    .ok ((s.changeRole c.w0.toNat c.w1.toNat c.w2.toNat 0 0 []).beginReenum
      ⟨c.w0.toNat, some (c.w1.toNat, (s.die c.w1.toNat).role, c.w2.toNat), c, 0⟩)

section
variable {p : Part}

/-- Where the operands hold, a layer may become a TIER layer only while another computes; then ROLE_SET changes the role. -/
theorem roleSet_eq (h : RoleNamed s c p) : ∃ f, (∀ s, exec (.roleSet c) s = command c f s)
    ∧ f s = (s.must c (c.w2.toNat != 1 || (s.die c.w1.toNat).role == 1 || decide (2 ≤ (s.arith c.w0.toNat).length)) stBadArg >>= fun _ => roleChange s c) := by
  refine ⟨_, fun _ => rfl, ?_⟩
  have h3 : c.w3.toNat = 0 := by rw [h.noCtx]; rfl
  have h4 : c.w4.toNat = 0 := by rw [h.noVa]; rfl
  have hev : (s.evacOk c.w0.toNat c.w3.toNat c.w4.toNat
      && (((s.die c.w1.toNat).role == 1 && c.w2.toNat == 0) || (c.w3.toNat == 0 && c.w4.toNat == 0))) = true := by
    simp [State.evacOk, h3, h4, h.ctx0]
  dsimp only
  rw [CM.bind_ok (State.must_ok _ (by simp [zeros, h.role, h.rest])), CM.bind_ok (State.cmdPart_found h.part),
    CM.bind_ok (State.must_ok _ (by simp [h3])), CM.bind_ok (State.must_ok _ (by simp [h.layer, h.old, h.owned]))]
  refine congrArg _ (funext fun _ => ?_)
  rw [CM.bind_ok (State.must_ok _ hev), h3, if_pos rfl, h4, if_pos rfl]
  rfl

theorem roleSet_fewLayers (ht : Taken s c) (h : RoleNamed s c p) (h2 : c.w2 = 1) (ho : (s.die c.w1.toNat).role = 0)
    (ha : (s.arith c.w0.toNat).length < 2) : Refused .roleSet c s 0x21 := by
  obtain ⟨f, hx, hf⟩ := roleSet_eq h
  refine refused_of ht hx (hf.trans (CM.bind_error (State.must_fails _ ?_)))
  rw [h2, ho, decide_eq_false (by omega)]
  rfl

/-- Where the layers suffice, ROLE_SET goes on to the role. -/
theorem roleSet_goesOn (ht : Taken s c) (h : RoleNamed s c p)
    (hl : c.w2.toNat = 0 ∨ (s.die c.w1.toNat).role = 1 ∨ 2 ≤ (s.arith c.w0.toNat).length) {t : State}
    (hr : roleChange s c = .ok t ∨ roleChange s c = .error t) : exec (.roleSet c) s = .next t := by
  obtain ⟨f, hx, hf⟩ := roleSet_eq h
  have hok : (c.w2.toNat != 1 || (s.die c.w1.toNat).role == 1 || decide (2 ≤ (s.arith c.w0.toNat).length)) = true := by
    rcases hl with hl | hl | hl <;> simp [hl]
  rw [CM.bind_ok (State.must_ok _ hok)] at hf
  exact (hx s).trans (command_ends ht (by rwa [hf]))

theorem roleSet_same (ht : Taken s c) (h : RoleNamed s c p)
    (hl : c.w2.toNat = 0 ∨ (s.die c.w1.toNat).role = 1 ∨ 2 ≤ (s.arith c.w0.toNat).length)
    (hr : (s.die c.w1.toNat).role = c.w2.toNat) : Done .roleSet c s s 0 :=
  roleSet_goesOn ht h hl (.inl (if_pos hr.symm))

theorem roleSet_changes (ht : Taken s c) (h : RoleNamed s c p) (hl : c.w2.toNat = 0 ∨ 2 ≤ (s.arith c.w0.toNat).length)
    (hr : (s.die c.w1.toNat).role ≠ c.w2.toNat) :
    (s.stackLimit < stackWatts (fun i => if i = c.w1.toNat then c.w2.toNat else (s.die i).role) (stackOf c.w1.toNat) →
      Refused .roleSet c s 0x22)
    ∧ (stackWatts (fun i => if i = c.w1.toNat then c.w2.toNat else (s.die i).role) (stackOf c.w1.toNat) ≤ s.stackLimit →
      (s.heldOn (s.partDies c.w0.toNat) = true → Refused .roleSet c s 0x20)
      ∧ (s.heldOn (s.partDies c.w0.toNat) = false →
          exec (.roleSet c) s = .next { s.changeRole c.w0.toNat c.w1.toNat c.w2.toNat 0 0 [] with
            reenum := some ⟨c.w0.toNat, some (c.w1.toNat, (s.die c.w1.toNat).role, c.w2.toNat), c, 0⟩ })) := by
  have hl' : c.w2.toNat = 0 ∨ (s.die c.w1.toNat).role = 1 ∨ 2 ≤ (s.arith c.w0.toNat).length := hl.imp_right .inr
  have hne : ¬ c.w2.toNat = (s.die c.w1.toNat).role := fun h => hr h.symm
  refine ⟨fun hw => roleSet_goesOn ht h hl' (.inr ?_), fun hw => ⟨fun hb => roleSet_goesOn ht h hl' (.inr ?_),
    fun hb => roleSet_goesOn ht h hl' (.inl ?_)⟩⟩
  · rw [roleChange, if_neg hne]
    exact CM.bind_error (State.must_fails _ (decide_eq_false (Nat.not_le.2 hw)))
  · rw [roleChange, if_neg hne, CM.bind_ok (State.must_ok _ (decide_eq_true hw))]
    exact CM.bind_error (State.must_fails _ (by rw [hb]; rfl))
  · rw [roleChange, if_neg hne, CM.bind_ok (State.must_ok _ (decide_eq_true hw)), CM.bind_ok (State.must_ok _ (by rw [hb]; rfl))]
    rfl

/-- What a posted event leaves of the discovery table and the partitions. -/
def SameParts (s t : State) : Prop := t.parts = s.parts ∧ t.version = s.version ∧ t.reenum = s.reenum

theorem flushKept_sameParts (l : List EventBytes) (s : State) : SameParts s (s.flushKept l) := by
  induction l generalizing s with
  | nil => exact ⟨rfl, rfl, rfl⟩
  | cons b l ih =>
    unfold State.flushKept
    split
    · exact ih (s.ringPut b)
    · exact ⟨rfl, rfl, rfl⟩

theorem postEvent_sameParts (s : State) (kind part ctx : Nat) (fields : List (Nat × Nat × Nat)) (rec_ : List Byte) :
    SameParts s (s.postEvent kind part ctx fields rec_) := by
  have h := flushKept_sameParts s.evKept s
  unfold State.postEvent
  dsimp only
  split
  · exact h
  · split <;> exact h

theorem cmdDone_sameParts (s : State) (c : Cmd) (status result : Nat) : SameParts s (s.cmdDone c status result) := by
  unfold State.cmdDone
  dsimp only
  split <;> exact ⟨rfl, rfl, rfl⟩

/-- The partition that a re-enumeration ends with (R79, R344). -/
theorem endReenum_completes {r : Reenum} (hr : s.reenum = some r) (hp : s.part? r.part = some p) :
    (s.endReenum).reenum = none ∧ (s.endReenum).version = (s.version + 1) % 2 ^ 63
    ∧ (s.endReenum).part? r.part = some { p with ver := (s.version + 1) % 2 ^ 63 }
    ∧ (r.change = none → s.endReenum = { s with
          reenum := none, version := (s.version + 1) % 2 ^ 63
          parts := FMap.modify s.parts r.part fun (p : Part) => { p with ver := (s.version + 1) % 2 ^ 63 } }.cmdDone
        r.cmd 0 r.result) := by
  obtain ⟨u, hu⟩ : ∃ u, u = ({ s with reenum := none, version := (s.version + 1) % 2 ^ 63
                                      parts := FMap.modify s.parts r.part fun (p : Part) => { p with ver := (s.version + 1) % 2 ^ 63 } } : State) :=
    ⟨_, rfl⟩
  have hend : ∃ t, SameParts u t ∧ s.endReenum = t.cmdDone r.cmd 0 r.result ∧ (r.change = none → t = u) := by
    unfold State.endReenum
    rw [hr]
    dsimp only
    cases hc : r.change with
    | none => exact ⟨u, ⟨rfl, rfl, rfl⟩, by rw [hu]; rfl, fun _ => rfl⟩
    | some x => exact ⟨_, postEvent_sameParts u 3 r.part 0 _ [], by rw [hu]; rfl, fun h => by cases h⟩
  obtain ⟨t, ⟨hparts, hver, hre⟩, he, hn⟩ := hend
  obtain ⟨dparts, dver, dre⟩ := cmdDone_sameParts t r.cmd 0 r.result
  refine ⟨?_, ?_, ?_, fun h => ?_⟩
  · rw [he, dre, hre, hu]
  · rw [he, dver, hver, hu]
  · have hpart : FMap.find? s.parts r.part = some p := hp
    rw [he, State.part?, dparts, hparts, hu]
    dsimp only
    rw [FMap.find?_modify, if_pos rfl, hpart]
    rfl
  · rw [he, hn h, hu]

/-! ## POWER_SET (R463, R465, R466) -/

theorem powerSet_unknown (ht : Taken s c) (hp : s.part? c.w0.toNat = none) (h1 : 1 ≤ c.w1.toNat) (h1' : c.w1.toNat ≤ 4)
    (h2 : c.w2.toNat ≤ 6) (h3 : c.w3.toNat ≤ 2) (h4 : c.w4 = 0) (h5 : c.w5 = 0) : Refused .powerSet c s 0x24 := by
  refine refused_of ht (fun _ => rfl) ?_
  dsimp only
  rw [CM.bind_ok (State.must_ok _ (by simp [zeros, h1, h1', h2, h3, h4, h5]))]
  exact CM.bind_error (State.cmdPart_unknown hp)

theorem powerSet_completes {old : Nat} (ht : Taken s c) (hp : s.part? c.w0.toNat = some p) (h1 : 1 ≤ c.w1.toNat) (h1' : c.w1.toNat ≤ 4)
    (h2 : c.w2.toNat ≤ 2) (h3 : c.w3.toNat ≤ 2) (h4 : c.w4 = 0) (h5 : c.w5 = 0) (ho : old = (p.power.getD (c.w1.toNat - 1) (0, 0)).1) :
    (s.heldOn (s.domainDies c.w0.toNat c.w1.toNat) = true → Refused .powerSet c s 0x20)
    ∧ (s.heldOn (s.domainDies c.w0.toNat c.w1.toNat) = false → Done .powerSet c s
        ((s.modPart c.w0.toNat fun (p : Part) => { p with power := setNth p.power (c.w1.toNat - 1) (c.w2.toNat, c.w3.toNat) }).postEvent
          8 c.w0.toNat 0 [(8, 1, c.w1.toNat), (9, 1, old), (10, 1, c.w2.toNat), (11, 1, c.w3.toNat), (16, 8, s.tick)] []) 0) := by
  have hz : (decide (1 ≤ c.w1.toNat ∧ c.w1.toNat ≤ 4) && decide (c.w2.toNat ≤ 6) && decide (c.w3.toNat ≤ 2) && zeros [c.w4, c.w5]) = true := by
    simp [zeros, h1, h1', h3, h4, h5, show c.w2.toNat ≤ 6 by omega]
  refine ⟨fun hb => refused_of ht (fun _ => rfl) ?_, fun hb => done_of ht (fun _ => rfl) ?_⟩
  · dsimp only
    rw [CM.bind_ok (State.must_ok _ hz), CM.bind_ok (State.cmdPart_found hp)]
    exact CM.bind_error (State.must_fails _ (by rw [hb]; rfl))
  · dsimp only
    rw [CM.bind_ok (State.must_ok _ hz), CM.bind_ok (State.cmdPart_found hp), CM.bind_ok (State.must_ok _ (by rw [hb]; rfl)),
      if_neg (by omega), hp, ho]
    rfl

end

/-! ## ATTEST, FW_STAGE, JOURNAL_CLEAR (R460, R463, R464) -/

/-- A command that I3C carries too is carried out once READY, or, where it may, in recovery. -/
theorem eitherPort_ends {i : Instr} {f : State → CM State} {t : State} (recovery : Bool)
    (hr : s.ready = true ∨ recovery = true ∧ s.recov = true) (hx : ∀ s, exec i s = eitherPort recovery c f s)
    (h : f s = .ok t ∨ f s = .error t) : exec i s = .next t := by
  have hc : (s.ready || (recovery && s.recov)) = true := by rcases hr with hr | ⟨hr, hv⟩ <;> simp [*]
  rw [hx, eitherPort, event, if_pos hc]
  rcases h with h | h <;> rw [h]

/-- A range of host memory is aligned, and in no buffer. -/
theorem cmdRange_host {a n : Nat} (hi : c.i3c = false) (ha : a % 8 = 0) : cmdRange c a n = true := by
  simp [cmdRange, hi, ha]

theorem cmdRead_host (hi : c.i3c = false) (a n : Nat) : s.cmdRead c a n = s.hostRead a n := by
  simp [State.cmdRead, State.hostRead, hi]

theorem attest_done (hi : c.i3c = false) (h2 : c.w2 = 0) (h3 : c.w3 = 0) (h4 : c.w4 = 0) (h5 : c.w5 = 0) (hr : s.ready = true)
    (h0 : c.w0.toNat % 8 = 0) (h1 : c.w1.toNat % 8 = 0) :
    Done .attest c s (({ s with drawn := s.drawn + 64 } : State).cmdWrite c c.w1.toNat (s.reportBody (s.hostRead c.w0.toNat 32)
      ++ beBytes 48 (deviceSign s.drawn (s.reportBody (s.hostRead c.w0.toNat 32))).1
      ++ beBytes 48 (deviceSign s.drawn (s.reportBody (s.hostRead c.w0.toNat 32))).2)) 0 := by
  refine eitherPort_ends false (.inl hr) (fun _ => rfl) (.inl ?_)
  have hz : (zeros [c.w2, c.w3, c.w4, c.w5] && cmdRange c c.w0.toNat 32 && cmdRange c c.w1.toNat 544) = true := by
    simp [zeros, h2, h3, h4, h5, cmdRange_host hi h0, cmdRange_host hi h1]
  rw [CM.bind_ok (State.must_ok _ hz), cmdRead_host hi]
  rfl

theorem fwStage_completes (hi : c.i3c = false) (h2 : c.w2 = 0) (h3 : c.w3 = 0) (h4 : c.w4 = 0) (h5 : c.w5 = 0)
    (hr : s.ready = true ∨ s.recov = true) (h0 : c.w0.toNat % 8 = 0) :
    exec (.fwStage c) s = .next (if imageOk (s.hostRead c.w0.toNat c.w1.toNat) = true then
      (({ s with fwSlots := setNth s.fwSlots (1 - s.fwActive) (s.hostRead c.w0.toNat c.w1.toNat), fwNext := 1 - s.fwActive } : State).cmdDone
        c 0 0) else s.cmdDone c 0x21 0) := by
  refine eitherPort_ends true (hr.imp_right fun h => ⟨rfl, h⟩) (fun _ => rfl) ?_
  have hz : (zeros [c.w2, c.w3, c.w4, c.w5] && cmdRange c c.w0.toNat c.w1.toNat) = true := by
    simp [zeros, h2, h3, h4, h5, cmdRange_host hi h0]
  rw [CM.bind_ok (State.must_ok _ hz), cmdRead_host hi]
  dsimp only
  by_cases hk : imageOk (s.hostRead c.w0.toNat c.w1.toNat) = true
  · rw [CM.bind_ok (State.must_ok _ hk), if_pos hk]
    exact .inl rfl
  · rw [CM.bind_error (State.must_fails _ (Bool.eq_false_of_not_eq_true hk)), if_neg hk]
    exact .inr rfl

theorem journalClear_done (h2 : c.w2 = 0) (h3 : c.w3 = 0) (h4 : c.w4 = 0) (h5 : c.w5 = 0)
    (hr : s.ready = true ∨ s.recov = true) (h0 : c.w0 = 0) (h1 : c.w1 = 0) :
    Done .journalClear c s { s with journalClear := (match s.journal with | e :: _ => e.seq | [] => 2 ^ 32) } 0 := by
  refine eitherPort_ends true (hr.imp_right fun h => ⟨rfl, h⟩) (fun _ => rfl) (.inl ?_)
  rw [CM.bind_ok (State.must_ok _ (by simp [zeros, h0, h1, h2, h3, h4, h5]))]
  rfl

/-! ## The obligation -/

/-- Settles O53: command by command, the checks that pass lead on to the effect, and the first that fails gives the status. -/
theorem objectAndDeviceCommandsComplete : Obligations.ObjectAndDeviceCommandsComplete := by
  refine ⟨fun s c x ht hn ha h3 h4 h5 => ⟨fun st hl => objLoad_fails ht hn ha h3 h4 h5 hl,
      fun im tb u db t hl hb hd => objLoad_done ht hn ha h3 h4 h5 hl hb hd⟩,
    fun s c o x ht ho hg hn h3 h4 h5 => objPatch_completes ht ho hg hn h3 h4 h5,
    fun s c o x ht ho hg hn h1 h2 h3 h4 h5 => objUnload_completes ht ho hg hn h1 h2 h3 h4 h5,
    fun s c ht h2 h3 h4 h5 => graphCancel_completes ht h2 h3 h4 h5,
    fun s c d ht h0 hd h1 h2 h3 h4 h5 => haltedWork_completes ht h0 hd h1 h2 h3 h4 h5,
    fun s c x ht hx h3 h4 h5 ha hl => dumpArea_done ht hx h3 h4 h5 ha hl,
    fun s c x ht hn => ⟨fun h5 => watchDefaults_done ht hn h5, fun _ h3 h4 h5 => traceDefaults_done ht hn h3 h4 h5⟩,
    fun s c ht h1 h2 h3 h4 h5 => stopAt_completes ht h1 h2 h3 h4 h5,
    fun s c ht hp => ⟨fun h2 h5 => roleSet_unknown ht hp h2 h5,
      fun h1 h1' h2 h3 h4 h5 => powerSet_unknown ht hp h1 h1' h2 h3 h4 h5⟩,
    setRole_caches, fun s c p ht _ hp hlayer hrole howned hold h3 h4 h5 hctx => ?_,
    fun s r p hr hp => endReenum_completes hr hp,
    fun s c p old ht hp h1 h1' h2 h3 h4 h5 ho => powerSet_completes ht hp h1 h1' h2 h3 h4 h5 ho,
    fun s c hi h2 h3 h4 h5 => ⟨fun hr h0 h1 => attest_done hi h2 h3 h4 h5 hr h0 h1,
      fun hr h0 => fwStage_completes hi h2 h3 h4 h5 hr h0, fun hr h0 h1 => journalClear_done h2 h3 h4 h5 hr h0 h1⟩⟩
  have h : RoleNamed s c p := ⟨hp, hlayer, hrole, howned, hold, h3, h4, h5, hctx⟩
  have hz : c.w2 = 0 → c.w2.toNat = 0 := fun h => by rw [h]; rfl
  exact ⟨fun h2 ho ha => roleSet_fewLayers ht h h2 ho ha, fun hr hl => roleSet_same ht h (hl.imp_left hz) hr,
    fun hr hl => roleSet_changes ht h (hl.imp_left hz) hr⟩

end Sys2Proof.Machine
end

