-- ==== Sys2Proof/Proofs/LineStores.lean ====
section
/-! SUPPORT. What a store of bytes of one line changes (R155, R308, R309): the die's copies and its messages at DIE level, then the
L1 with the line that may leave it. -/

namespace Sys2Proof.Machine

theorem State.die_setDie_same (s : State) (chip : Nat) (d : Die) : (s.setDie chip d).die chip = d := by
  simp only [State.die, State.setDie, FMap.get_put_same]

theorem State.find?_setDie_ne (s : State) {chip k : Nat} (d : Die) (h : k ≠ chip) :
    FMap.find? (s.setDie chip d).dies k = FMap.find? s.dies k :=
  FMap.find?_put_ne s.dies d h

/-! ## Writes folded over a map -/

/-- After some writes an address that one of them names holds a byte written to it, and another what it held. -/
theorem Memory.read_foldl_write (ws : List ByteWrite) (m : Memory) (a : Nat) :
    (Memory.read (ws.foldl (fun m b => Memory.write m b.at_ b.val) m) a = Memory.read m a ∧ ∀ w ∈ ws, w.at_ ≠ a)
    ∨ ⟨a, Memory.read (ws.foldl (fun m b => Memory.write m b.at_ b.val) m) a⟩ ∈ ws := by
  induction ws generalizing m with
  | nil => exact .inl ⟨rfl, fun w h => by cases h⟩
  | cons w ws ih =>
    rw [List.foldl_cons]
    rcases ih (Memory.write m w.at_ w.val) with ⟨h, hne⟩ | h
    · rw [h, Memory.read_write]
      by_cases ha : a = w.at_
      · subst ha; rw [if_pos rfl]; exact .inr List.mem_cons_self
      · rw [if_neg ha]; exact .inl ⟨rfl, List.forall_mem_cons.2 ⟨fun h => ha h.symm, hne⟩⟩
    · exact .inr (List.mem_cons_of_mem _ h)

/-- A key that no write names keeps its entry. -/
theorem FMap.find?_foldl_put {α : Type} (ws : List ByteWrite) (f : ByteWrite → α) (m : FMap α) (a : Nat)
    (h : ∀ w ∈ ws, w.at_ ≠ a) : FMap.find? (ws.foldl (fun m b => FMap.put m b.at_ (f b)) m) a = FMap.find? m a := by
  induction ws generalizing m with
  | nil => rfl
  | cons w ws ih =>
    obtain ⟨hw, hws⟩ := List.forall_mem_cons.1 h
    rw [List.foldl_cons, ih _ hws, FMap.find?_put_ne m _ hw.symm]

/-- The addresses that the writes of some bytes from a location on name. -/
theorem at_of_mem_writesOf {bs : List Byte} {loc : Nat} {w : ByteWrite} (h : w ∈ writesOf loc bs) :
    loc ≤ w.at_ ∧ w.at_ < loc + bs.length := by
  induction bs generalizing loc with
  | nil => cases h
  | cons b bs ih =>
    rw [List.length_cons]
    rcases List.mem_cons.1 h with rfl | h
    · dsimp only; omega
    · have := ih h; omega

/-! ## What a store to a line leaves -/

/-- An entry of a cell's L1 outside the stored bytes is as it was, or has left with another line. -/
def L1Kept (loc n : Nat) (c d : Cell) : Prop :=
  ∀ a, a < loc ∨ loc + n ≤ a →
    FMap.find? d.l1 a = FMap.find? c.l1 a ∨ (lineOf a ≠ lineOf loc ∧ FMap.find? d.l1 a = none)

/-- What a step of a store of `n` bytes to a location leaves of a state, for the cell that stores and the bytes `new` that may be
written below its L1: memory, the other cells and the other dies as they are, the L1 but for the stored bytes and a line that
leaves it, every byte that the RDC holds as it held it or as one of the new ones, and messages that carry new bytes only. -/
structure LineWrote (key loc n : Nat) (new : ByteWrite → Prop) (s t : State) : Prop where
  mem : t.mem = s.mem
  cells : ∀ k, k ≠ key → FMap.find? t.cells k = FMap.find? s.cells k
  l1 : L1Kept loc n (s.cell key) (t.cell key)
  dies : ∀ c, c ≠ keyChip key → FMap.find? t.dies c = FMap.find? s.dies c
  rdc : ∀ a, FMap.get (t.die (keyChip key)).rdcHas a false = true →
    (Memory.read (t.die (keyChip key)).rdc a = Memory.read (s.die (keyChip key)).rdc a
      ∧ FMap.get (s.die (keyChip key)).rdcHas a false = true)
    ∨ new ⟨a, Memory.read (t.die (keyChip key)).rdc a⟩
  out : ∃ ms, (t.die (keyChip key)).out = (s.die (keyChip key)).out ++ ms
    ∧ ∀ m ∈ ms, m.cell = keyCell key ∧ ∀ w ∈ m.writes, new w

variable {key loc n : Nat} {new : ByteWrite → Prop} {ws : List ByteWrite} {s t u : State}

/-- The cell itself changed, in its L1 as a store may change it. -/
theorem LineWrote.of_cells (hm : t.mem = s.mem) (hc : ∀ k, k ≠ key → FMap.find? t.cells k = FMap.find? s.cells k)
    (hl : L1Kept loc n (s.cell key) (t.cell key)) (hd : t.dies = s.dies) : LineWrote key loc n new s t := by
  have hdie : t.die (keyChip key) = s.die (keyChip key) := by simp only [State.die, hd]
  exact ⟨hm, hc, hl, fun _ _ => by rw [hd], fun _ h => .inl (hdie ▸ ⟨rfl, h⟩), [], by rw [hdie, List.append_nil],
    fun _ h => by cases h⟩

theorem LineWrote.refl (s : State) : LineWrote key loc n new s s :=
  .of_cells rfl (fun _ _ => rfl) (fun _ _ => .inl rfl) rfl

theorem LineWrote.setCell {c : Cell} (h : L1Kept loc n (s.cell key) c) : LineWrote key loc n new s (s.setCell key c) :=
  .of_cells rfl (fun _ hk => s.find?_setCell_ne c hk) (by rw [State.cell_setCell_same]; exact h) rfl

/-- The die's RDC and its messages changed, as a store may change them. -/
theorem LineWrote.setDie {d : Die} (hrdc : ∀ a, FMap.get d.rdcHas a false = true →
      (Memory.read d.rdc a = Memory.read (s.die (keyChip key)).rdc a
        ∧ FMap.get (s.die (keyChip key)).rdcHas a false = true)
      ∨ new ⟨a, Memory.read d.rdc a⟩)
    (hout : ∃ ms, d.out = (s.die (keyChip key)).out ++ ms ∧ ∀ m ∈ ms, m.cell = keyCell key ∧ ∀ w ∈ m.writes, new w) :
    LineWrote key loc n new s (s.setDie (keyChip key) d) where
  mem := rfl
  cells _ _ := rfl
  l1 _ _ := .inl rfl
  dies _ h := s.find?_setDie_ne d h
  rdc := by rw [State.die_setDie_same]; exact hrdc
  out := by rw [State.die_setDie_same]; exact hout

/-- The die's RDC alone changed. -/
theorem LineWrote.setRdc {d : Die} (hout : d.out = (s.die (keyChip key)).out)
    (hrdc : ∀ a, FMap.get d.rdcHas a false = true →
      (Memory.read d.rdc a = Memory.read (s.die (keyChip key)).rdc a
        ∧ FMap.get (s.die (keyChip key)).rdcHas a false = true)
      ∨ new ⟨a, Memory.read d.rdc a⟩) :
    LineWrote key loc n new s (s.setDie (keyChip key) d) :=
  .setDie hrdc ⟨[], by rw [hout, List.append_nil], fun _ h => by cases h⟩

theorem LineWrote.trans (h1 : LineWrote key loc n new s t) (h2 : LineWrote key loc n new t u) :
    LineWrote key loc n new s u where
  mem := h2.mem.trans h1.mem
  cells k h := (h2.cells k h).trans (h1.cells k h)
  l1 a ha := by
    rcases h2.l1 a ha with h | h
    · rw [h]; exact h1.l1 a ha
    · exact .inr h
  dies c h := (h2.dies c h).trans (h1.dies c h)
  rdc a ha := by
    rcases h2.rdc a ha with ⟨h, hh⟩ | h
    · rw [h]; exact h1.rdc a hh
    · exact .inr h
  out := by
    obtain ⟨ms, e1, p1⟩ := h1.out
    obtain ⟨ns, e2, p2⟩ := h2.out
    exact ⟨ms ++ ns, by rw [e2, e1, List.append_assoc], fun m hm => (List.mem_append.1 hm).elim (p1 m) (p2 m)⟩

/-! ## The die level -/

/-- A message sent changes the die's list of messages and its next numbers. -/
theorem State.post_wrote {dest : Nat} {wt : Bool} (hw : ∀ w ∈ ws, new w)
    (h : s.post (keyChip key) (keyCell key) dest wt ws = .ok t) : LineWrote key loc n new s t := by
  unfold State.post State.send at h
  dsimp only at h
  rcases hl : s.lost (keyChip key) (keyCell key) dest with r | r
  · rw [hl] at h; cases h
  · rw [hl] at h
    dsimp only [Except.bind] at h
    split at h
    · cases h
    · cases h
      refine .setDie (fun a ha => .inl ⟨rfl, ha⟩) ⟨_, rfl, fun m hm => ?_⟩
      rw [List.mem_singleton] at hm
      subst hm
      exact ⟨rfl, hw⟩

/-- A line dropped from the RDC takes its bytes with it. -/
theorem Die.rdcDrop_keeps (d : Die) (line a : Nat) (h : FMap.get (d.rdcDrop line).rdcHas a false = true) :
    Memory.read (d.rdcDrop line).rdc a = Memory.read d.rdc a ∧ FMap.get d.rdcHas a false = true := by
  simp only [Die.rdcDrop, Memory.read, FMap.get_clearRange] at h ⊢
  by_cases ha : line ≤ a ∧ a < line + 64
  · rw [if_pos ha] at h; cases h
  · rw [if_neg ha] at h ⊢; exact ⟨rfl, h⟩

theorem State.draw_wrote (s : State) : LineWrote key loc n new s s.draw.2 :=
  .of_cells rfl (fun _ _ => rfl) (fun _ _ => .inl rfl) rfl

/-- An allocation in the RDC changes no byte that it holds afterwards. -/
theorem State.rdcAlloc_wrote (s : State) (line : Nat) : LineWrote key loc n new s (s.rdcAlloc (keyChip key) line) := by
  unfold State.rdcAlloc
  dsimp only
  split
  · exact .refl s
  · split
    · exact .setRdc rfl fun _ h => .inl ⟨rfl, h⟩
    · refine s.draw_wrote.trans ?_
      split
      · exact .setRdc rfl fun a h => .inl (Die.rdcDrop_keeps (s.die (keyChip key)) _ a h)
      · exact .setRdc rfl fun _ h => .inl ⟨rfl, h⟩

/-- Bytes put into the RDC: the others as they are. -/
theorem State.rdcPut_wrote (s : State) (hw : ∀ w ∈ ws, new w) :
    LineWrote key loc n new s (s.setDie (keyChip key) ((s.die (keyChip key)).rdcPut ws)) := by
  refine .setRdc rfl fun a h => ?_
  rcases Memory.read_foldl_write ws (s.die (keyChip key)).rdc a with ⟨hr, hne⟩ | hmem
  · have hh : FMap.find? ((s.die (keyChip key)).rdcPut ws).rdcHas a = FMap.find? (s.die (keyChip key)).rdcHas a :=
      FMap.find?_foldl_put ws (fun _ => true) _ a hne
    rw [FMap.get, hh] at h
    exact .inl ⟨hr, h⟩
  · exact .inr (hw _ hmem)

/-- A write at DIE level: a message, behind the bytes put into the RDC where the line is in it or is allocated. -/
theorem State.dieWrite_wrote {part at_ : Nat} {alloc : Bool} (hw : ∀ w ∈ ws, new w)
    (h : s.dieWrite (keyChip key) (keyCell key) part at_ ws alloc = .ok t) : LineWrote key loc n new s t := by
  unfold State.dieWrite at h
  dsimp only at h
  split at h
  · split at h
    · exact ((s.rdcAlloc_wrote (lineOf at_)).trans (State.rdcPut_wrote _ hw)).trans (State.post_wrote hw h)
    · exact State.post_wrote hw h
  · exact State.post_wrote hw h

/-! ## The L1 -/

/-- The stored bytes put into the L1. -/
theorem Cell.l1Put_kept (c : Cell) (bs : List Byte) (dirty : Bool) :
    L1Kept loc bs.length c (c.l1Put (writesOf loc bs) dirty) := by
  intro a ha
  refine .inl (FMap.find?_foldl_put (writesOf loc bs) (fun w => (⟨w.val, dirty⟩ : L1Byte)) c.l1 a fun w hw heq => ?_)
  have := at_of_mem_writesOf hw
  omega

/-- Another line dropped from the L1, with its dirty bytes written below. -/
theorem State.l1Evict_wrote {part line : Nat} (hne : line ≠ lineOf loc)
    (hw : ∀ a v, (a, ⟨v, true⟩) ∈ (s.cell key).l1 → new ⟨a, v⟩) (h : s.l1Evict key part line true = .ok t) :
    LineWrote key loc n new s t := by
  unfold State.l1Evict at h
  dsimp only at h
  rw [if_pos rfl, if_pos rfl] at h
  have hl : L1Kept loc n (s.cell key)
      { s.cell key with l1 := (s.cell key).l1.filter fun e => lineOf e.1 != line,
                        l1Tag := FMap.erase (s.cell key).l1Tag line } := by
    intro a _
    have hf := FMap.find?_filter (s.cell key).l1 (fun k => lineOf k != line) a
    by_cases ha : lineOf a = line
    · exact .inr ⟨ha ▸ hne, hf.trans (if_neg (by simp [ha]))⟩
    · exact .inl (hf.trans (if_pos (by simp [ha])))
  refine (LineWrote.setCell hl).trans ?_
  split at h
  · cases h; exact .refl _
  · have hdirty : ∀ w ∈ ((s.cell key).l1.filter fun e => lineOf e.1 == line && e.2.dirty).map
        fun e => (⟨e.1, e.2.val⟩ : ByteWrite), new w := by
      intro w hm
      obtain ⟨⟨a, v, d⟩, he, rfl⟩ := List.mem_map.1 hm
      obtain ⟨hmem, hd⟩ := List.mem_filter.1 he
      obtain ⟨-, rfl⟩ := Bool.and_eq_true_iff.1 hd
      exact hw a v hmem
    split at h
    · refine LineWrote.trans ?_ (State.dieWrite_wrote hdirty h)
      exact .of_cells rfl (fun _ _ => rfl) (fun _ _ => .inl rfl) rfl
    · exact State.dieWrite_wrote hdirty h

/-- A listed key is found. -/
theorem FMap.find?_isSome_of_mem {α : Type} {m : FMap α} {e : Nat × α} (h : e ∈ m) : (FMap.find? m e.1).isSome = true := by
  induction m with
  | nil => cases h
  | cons f m ih =>
    obtain ⟨k, v⟩ := f
    rw [FMap.find?]
    split
    · rfl
    · next hk =>
      rcases List.mem_cons.1 h with rfl | h
      · exact absurd rfl hk
      · exact ih h

/-- A computation that succeeds after another succeeds from what that one gives. -/
theorem ok_of_bind {α β : Type} {r : M α} {f : α → M β} {b : β} (h : r >>= f = .ok b) : ∃ a, r = .ok a ∧ f a = .ok b := by
  cases r with
  | ok a => exact ⟨a, rfl, h⟩
  | error x => cases h

/-- The stored line allocated in the L1; another may leave it. -/
theorem State.l1Alloc_wrote {part : Nat} (hw : ∀ a v, (a, ⟨v, true⟩) ∈ (s.cell key).l1 → new ⟨a, v⟩)
    (h : s.l1Alloc key part (lineOf loc) = .ok t) : LineWrote key loc n new s t := by
  unfold State.l1Alloc at h
  split at h
  · cases h; exact .refl s
  · next hmiss =>
    obtain ⟨u, hu, ht⟩ := ok_of_bind h
    have htag : LineWrote key loc n new u t := by
      cases ht
      exact .setCell fun _ _ => .inl rfl
    refine LineWrote.trans ?_ htag
    split at hu
    · cases hu; exact .refl s
    · refine s.draw_wrote.trans ?_
      dsimp only [State.draw] at hu
      split at hu
      · next e he =>
        refine State.l1Evict_wrote (fun heq => hmiss ?_) hw hu
        rw [Cell.l1Holds, ← heq]
        exact FMap.find?_isSome_of_mem (List.mem_of_getElem? he)
      · cases hu; exact .refl _

/-- A store to a line, by its level. -/
theorem State.storeLine_wrote {part scope : Nat} {bs : List Byte} {na : Bool}
    (hw : ∀ a v, (a, ⟨v, true⟩) ∈ (s.cell key).l1 → new ⟨a, v⟩) (hs : ∀ w ∈ writesOf loc bs, new w)
    (h : s.storeLine key part loc bs scope na = .ok t) : LineWrote key loc bs.length new s t := by
  have hput : LineWrote key loc bs.length new s
      (if (s.cell key).l1Holds (lineOf loc) then s.setCell key ((s.cell key).l1Put (writesOf loc bs) false) else s) := by
    split
    · exact .setCell ((s.cell key).l1Put_kept bs false)
    · exact .refl s
  unfold State.storeLine at h
  dsimp only at h
  split at h
  · split at h
    · exact State.dieWrite_wrote hs h
    · rcases hu : s.l1Alloc key part (lineOf loc) with r | u
      · rw [hu] at h; cases h
      rw [hu] at h
      cases h
      exact (State.l1Alloc_wrote hw hu).trans (.setCell ((u.cell key).l1Put_kept bs true))
  · exact hput.trans (State.dieWrite_wrote hs h)
  · exact hput.trans (State.post_wrote hs h)

/-- The bytes that a store to a line may write below the L1: the stored ones and the dirty ones of the L1. -/
def Cell.below (c : Cell) (loc : Nat) (bs : List Byte) (w : ByteWrite) : Prop :=
  w ∈ writesOf loc bs ∨ (w.at_, ⟨w.val, true⟩) ∈ c.l1

/-- The frame of a store to a line. -/
theorem State.storeLine_frame {part scope : Nat} {bs : List Byte} {na : Bool}
    (h : s.storeLine key part loc bs scope na = .ok t) :
    LineWrote key loc bs.length ((s.cell key).below loc bs) s t :=
  State.storeLine_wrote (fun _ _ h => .inr h) (fun _ h => .inl h) h

end Sys2Proof.Machine
end

