-- ==== Sys2Proof/Proofs/StoresFrame.lean ====
section
/-! SUPPORT. The frame of a store of A to the own scratchpad (R155, R157): its checks, its bytes and the rest of its word, and
with the stores to a line the obligation on stores. -/

namespace Sys2Proof.Machine

open Claims

/-! ## How the body of a store ends -/

/-- A body that ends in a state of which `P` holds, cannot go on, or raises a cause that no handler takes. -/
def Finishes {α : Type} (P : α → Prop) (r : M α) : Prop :=
  match r with
  | .ok a => P a
  | .error x => (∃ n, x = .block n) ∨ ∃ c, x = .cause c none ∧ trapClass c.code = false

section
variable {α β : Type} {P : α → Prop} {Q : β → Prop}

theorem Finishes.bind {r : M α} {f : α → M β} (h : Finishes P r) (k : ∀ a, P a → Finishes Q (f a)) : Finishes Q (r >>= f) := by
  cases r with
  | ok a => exact k a h
  | error x => exact h

theorem Finishes.ite {p : Prop} [Decidable p] {r r' : M α} (h : Finishes P r) (h' : Finishes P r') :
    Finishes P (if p then r else r') := by
  split
  · exact h
  · exact h'

theorem finishes_blocked (n : Nat) : Finishes P (blocked n : M α) := .inl ⟨n, rfl⟩

theorem finishes_raiseAt {code : BitVec 8} (addr : Word) (h : trapClass code = false) : Finishes P (raiseAt code addr : M α) :=
  .inr ⟨_, rfl, h⟩

end

section
variable {s t : State} {key : Nat} {e : EngTag}

/-- A cause that no handler takes stands in the cell. -/
theorem fatals_deliver_of_class {r : Raise} (hc : s.cur = .cell key e) (hr : trapClass r.code = false) :
    ∃ x, (s.deliver r).core.fatals = x :: s.core.fatals := by
  have hd : s.deliver r = s.setCell key ((s.cell key).takeCause (chipClass (keyChip key)) s.tick
      (r.at_ e ((s.cell key).eng e).pc ((s.cell key).eng e).pos) (s.cWait key)) := by
    unfold State.deliver
    rw [hc]
  rw [hd, State.core_cell ((State.setCell_cur _ _ _).trans hc), State.cell_setCell_same, State.core_cell hc]
  refine ⟨(s.tick, r.at_ e ((s.cell key).eng e).pc ((s.cell key).eng e).pos), ?_⟩
  unfold Cell.takeCause
  rw [if_neg fun ht => Bool.false_ne_true (hr.symm.trans ht.1)]

/-- What the body of a word that has not issued makes of a state in which no cause then stands. -/
theorem settle_finishes {h : Hdr} {wide : Bool} {P : State → Prop} {r : M State} (hi : Issues s key e h) (hr : Finishes P r)
    (hf : (s.settle h wide (seqM r)).core.fatals = s.core.fatals) :
    (∃ n, s.settle h wide (seqM r) = s.modEng fun g => { g with reason := n })
    ∨ ∃ u, P u ∧ s.settle h wide (seqM r) = u.retire h wide .seq := by
  cases r with
  | ok u => exact .inr ⟨u, hr, rfl⟩
  | error x =>
    rcases hr with ⟨n, rfl⟩ | ⟨c, rfl, hcl⟩
    · exact .inl ⟨n, rfl⟩
    · have hs : s.settle h wide (seqM (.error (.cause c none))) = s.deliver c := by
        have hfresh : ¬ (s.core.eng s.curEng).issued = true := by
          rw [State.curEng_cell hi.cur, hi.fresh]; exact Bool.false_ne_true
        simp only [seqM_error rfl, State.settle, Option.getD_none, if_neg hfresh]
      obtain ⟨x, hx⟩ := fatals_deliver_of_class hi.cur hcl
      rw [hs, hx] at hf
      exact absurd hf (List.cons_ne_self _ _)

end

/-! ## What the operands of a store leave -/

/-- A part of a store leaves the scalar and loop registers; its sources may pop the engine's queue. -/
structure StoreKeeps (c c' : Cell) : Prop where
  x : c'.x = c.x
  a : c'.a = c.a
  lc : c.lcVer = [] → c'.lcVer = [] ∧ c'.lc = c.lc

theorem StoreKeeps.of_keeps (c c' : Cell) (h : KeepsScalars c c') : StoreKeeps c c' :=
  ⟨h.x, h.a, (ScalarWrites.of_keeps (e := .c) (d := 0) h).lc⟩

theorem StoreKeeps.trans (c c' c'' : Cell) (h : StoreKeeps c c') (k : StoreKeeps c' c'') : StoreKeeps c c'' :=
  ⟨k.x.trans h.x, k.a.trans h.a, fun hl => ⟨(k.lc (h.lc hl).1).1, (k.lc (h.lc hl).1).2.trans (h.lc hl).2⟩⟩

theorem StoreKeeps.of_eq {c c' : Cell} (hx : c'.x = c.x) (ha : c'.a = c.a) (hl : c'.lc = c.lc) (hv : c'.lcVer = c.lcVer) :
    StoreKeeps c c' := ⟨hx, ha, fun h => ⟨hv.trans h, hl⟩⟩

section
variable {s s1 s2 : State} {key : Nat} {e : EngTag}

/-- A source of a store. -/
theorem storeSrc {code : BitVec 8} {lit w : Word} (he : e = .c ∨ e = .a) (hc : s.cur = .cell key e)
    (h : s.src code lit = .ok (w, s1)) : WordPart key e StoreKeeps s s1 := by
  have hy : Yields (fun p => WordPart key e StoreKeeps s p.2) (s.src code lit) :=
    yields_src (fun _ => .of_eq rfl rfl rfl rfl) (fun _ _ _ => .of_eq rfl rfl rfl rfl) (fun _ _ _ => .of_eq rfl rfl rfl rfl)
      he hc code lit
  rw [h] at hy
  exact hy

theorem WordPart.cur {W : Cell → Cell → Prop} (h : WordPart key e W s s1) (hc : s.cur = .cell key e) : s1.cur = .cell key e :=
  (SameButCell.cur_eq h.same).trans hc

/-- The data of a store. -/
theorem storeData {code : BitVec 8} {lit lo hi : Word} {pair : Bool} (he : e = .c ∨ e = .a) (hc : s.cur = .cell key e)
    (h : s.dataSrc code lit pair = .ok (lo, hi, s1)) : WordPart key e StoreKeeps s s1 := by
  unfold State.dataSrc at h
  obtain ⟨⟨w, u⟩, hsrc, h⟩ := ok_of_bind h
  have hu := storeSrc he hc hsrc
  dsimp only at h
  split at h
  · cases h; exact hu
  · split at h
    · obtain ⟨⟨w', u'⟩, hsrc', h⟩ := ok_of_bind h
      cases h
      exact hu.trans StoreKeeps.trans (storeSrc he (hu.cur hc) hsrc')
    · obtain ⟨w', -, h⟩ := ok_of_bind h
      cases h
      exact hu

/-- The address of a store. -/
theorem storeAddr {f : Rrr} {addr : Word} (he : e = .c ∨ e = .a) (hc : s.cur = .cell key e)
    (h : s.memAddr f = .ok (addr, s1)) : WordPart key e StoreKeeps s s1 := by
  unfold State.memAddr at h
  dsimp only at h
  obtain ⟨⟨a, u⟩, ha, h⟩ := ok_of_bind h
  obtain ⟨⟨b, u'⟩, hb, h⟩ := ok_of_bind h
  cases h
  have hu := storeSrc he hc ha
  exact hu.trans StoreKeeps.trans (storeSrc he (hu.cur hc) hb)

end

/-! ## The checks and the bytes -/

/-- A cell with another scratchpad and other counts of its watchpoints. -/
def Cell.withStore (c : Cell) (m : Memory) (ws : List WatchPt) : Cell := { c with spad := m, watch := ws }

theorem Cell.withStore_eng (c : Cell) (m : Memory) (ws : List WatchPt) (g : EngTag) : (c.withStore m ws).eng g = c.eng g := by
  cases g <;> rfl

/-- The frame of a word says nothing of the scratchpad and the watchpoints but that they stay. -/
theorem WordFrame.withStore {e : EngTag} {c d : Cell} (h : WordFrame e c d) (m : Memory) (ws : List WatchPt) :
    WordFrame e (c.withStore m ws) (d.withStore m ws) where
  rest := by
    have hr := congrArg (Cell.withStore · m ws) h.rest
    exact hr
  vrot := h.vrot
  held := h.held
  stamps := h.stamps
  others g hg := by rw [Cell.withStore_eng, Cell.withStore_eng]; exact h.others g hg
  own := by rw [Cell.withStore_eng, Cell.withStore_eng]; exact h.own

section
variable {s t : State} {key off : Nat} {e : EngTag} {q : Acc}

/-- Check 9 leaves the cell but for the counts of its watchpoints. -/
theorem finishes_watchAt (s : State) (key : Nat) (q : Acc) (scope : Nat) :
    Finishes (fun t => ∃ ws, SameButCell s t key ∧ t.cell key = { s.cell key with watch := ws }) (s.watchAt key q scope) := by
  unfold State.watchAt
  refine .ite ⟨_, ⟨rfl, fun _ _ => rfl⟩, rfl⟩ ?_
  dsimp only
  split
  · exact .inr ⟨_, rfl, rfl⟩
  · next ws _ =>
    split
    · exact ⟨_, ⟨rfl, fun _ _ => rfl⟩, rfl⟩
    · exact ⟨ws, ⟨rfl, fun _ hk => s.find?_setCell_ne _ hk⟩, State.cell_setCell_same _ _ _⟩

/-- The checks of an access to the own scratchpad. -/
theorem finishes_access (hw : windowOf (s.apers (s.nodeCtx (s.cell key).node)) (addrVa q.addr) = some (0, off)) :
    Finishes (fun p => p.1 = .spad key off ∧ ∃ ws, SameButCell s p.2 key ∧ p.2.cell key = { s.cell key with watch := ws })
      (s.access key q) := by
  cases hc : canonical q.addr with
  | false => rw [State.access_uncanonical hc]; exact finishes_raiseAt _ rfl
  | true =>
    cases hb : s.beyond (keyChip key) (s.ctxPart (s.nodeCtx (s.cell key).node)) 0 off with
    | true => rw [State.access_beyond hc hw hb]; exact finishes_raiseAt _ rfl
    | false =>
      rw [State.access_within hc hw hb]
      refine .ite (finishes_raiseAt _ rfl) (.ite (finishes_raiseAt _ rfl) (.ite (finishes_raiseAt _ rfl)
        (.ite (finishes_raiseAt _ rfl) ?_)))
      exact (finishes_watchAt s key q _).bind fun t ht => ⟨rfl, ht⟩

/-- The bytes written to the own scratchpad. -/
theorem finishes_spadStore {P : State → Prop} (bs : List Byte) (fill : List Nat) (addr : Word)
    (h : P (s.setCell key ((s.cell key).spadPut (writesOf off bs) fill))) :
    Finishes P (s.spadStore key key off bs fill addr) := by
  unfold State.spadStore
  rw [if_pos rfl]
  refine Finishes.bind (P := fun _ => True) ?_ fun _ _ => ?_
  · exact .ite (finishes_blocked _) (.ite (finishes_blocked _) trivial)
  · refine .ite (finishes_blocked _) ?_
    split
    · exact .inr ⟨_, rfl, rfl⟩
    · exact h

end

/-! ## The store -/

/-- A store of A from its address on. -/
def State.storeAt (s : State) (f : Rrr) (key : Nat) (lo hi addr : Word) : M State := do
  let (p, s) ← s.access key
    { addr := addr, size := typeBytes f.ty.toNat, write := true, align := typeBytes f.ty.toNat, shadow := f.fl.getLsbD 1,
      scope := f.rs.toNat }
  match p with
  | .spad k off => s.spadStore key k off (storeBytes f.ty.toNat lo hi) [] addr
  | .line loc => s.storeLine key (s.ctxPart (s.nodeCtx s.curNode)) loc (storeBytes f.ty.toNat lo hi) f.rs.toNat (f.fl.getLsbD 0)

theorem storeBytes_length (ty : Nat) (lo hi : Word) : (storeBytes ty lo hi).length = typeBytes ty := by
  unfold storeBytes
  split
  · next h => subst h; rw [List.length_append, leBytes_length, leBytes_length]; rfl
  · exact leBytes_length _ _

/-- What a store to the own scratchpad leaves of the cell before its retirement: another scratchpad outside no stored byte,
other counts of watchpoints, and a cell that no longer stalls. -/
def Stored (key off n : Nat) (s t : State) : Prop :=
  ∃ m ws, (∀ a, a < off ∨ off + n ≤ a → Memory.read m a = Memory.read s.core.spad a) ∧ SameButCell s t key
    ∧ t.core = { s.core.withStore m ws with stalledSince := none }

theorem finishes_storeAt {s : State} {f : Rrr} {key off : Nat} {e : EngTag} {lo hi addr : Word} (hc : s.cur = .cell key e)
    (hw : windowOf (s.apers (s.nodeCtx (s.cell key).node)) (addrVa addr) = some (0, off)) :
    Finishes (Stored key off (typeBytes f.ty.toNat) s) (s.storeAt f key lo hi addr) := by
  refine (finishes_access hw).bind ?_
  rintro ⟨p, u⟩ ⟨rfl, ws, hsame, hcell⟩
  have hu : u.cur = .cell key e := (SameButCell.cur_eq hsame).trans hc
  refine finishes_spadStore _ _ _ ⟨(writesOf off (storeBytes f.ty.toNat lo hi)).foldl
    (fun m b => Memory.write m b.at_ b.val) s.core.spad, ws, fun a ha => ?_,
    SameButCell.trans hsame ⟨rfl, fun _ hk => u.find?_setCell_ne _ hk⟩, ?_⟩
  · rw [Memory.read_writesOf, storeBytes_length, if_neg (by omega)]
  · dsimp only at hcell ⊢
    rw [State.core_cell ((State.setCell_cur _ _ _).trans hu), State.cell_setCell_same, hcell, State.core_cell hc]
    rfl

/-- A store from its operands on. -/
theorem execSt_settle {s s1 s2 : State} {key : Nat} {e : EngTag} {f : Rrr} {lo hi addr : Word} (hi' : Issues s key e f.hdr)
    (hd : (s.waited f.hdr).dataSrc f.d (litVal f.ty.toNat f.w1) (f.ty == 12) = .ok (lo, hi, s1))
    (ha : s1.memAddr f = .ok (addr, s2)) :
    exec (.st f) s = .next (s.settle f.hdr f.w1.isSome (seqM (s2.storeAt f key lo hi addr))) := by
  have hk : (s.waited f.hdr).curKey = key := State.curKey_cell ((SameButCell.cur_eq (State.modEng_same hi'.cur _)).trans hi'.cur)
  have hpair : (f.ty.toNat == 12) = (f.ty == 12) := by
    rw [Bool.eq_iff_iff, beq_iff_eq, beq_iff_eq, ← BitVec.toNat_inj]
    rfl
  refine (runWord_issues hi').trans ?_
  dsimp only
  rw [hpair, hd, hk]
  change Host.Outcome.next (s.settle _ _ (seqM (s1.memAddr f >>= _))) = _
  rw [ha]
  rfl

/-- What a quiet store to the own scratchpad leaves of the state. -/
theorem quiet_store {s t s1 s2 : State} {key off : Nat} {e : EngTag} {f : Rrr} {lo hi addr : Word} (he : e = .c ∨ e = .a)
    (h7 : f.hdr.eng.toNat = e.num) (hiss : Issues s key e f.hdr)
    (hd : (s.waited f.hdr).dataSrc f.d (litVal f.ty.toNat f.w1) (f.ty == 12) = .ok (lo, hi, s1))
    (ha : s1.memAddr f = .ok (addr, s2))
    (hw : windowOf (s2.apers (s2.nodeCtx (s2.cell key).node)) (addrVa addr) = some (0, off))
    (hq : Quiet (.st f) s t key e) :
    ∃ m ws, (∀ a, a < off ∨ off + typeBytes f.ty.toNat ≤ a → Memory.read m a = Memory.read s.core.spad a)
      ∧ SameButCell s t key ∧ WordFrame e (s.core.withStore m ws) t.core ∧ StoreKeeps s.core t.core := by
  obtain ⟨hc, hh, -, ht, hf, -, -⟩ := hq
  have hs0 : WordPart key e StoreKeeps s (s.waited f.hdr) := by
    refine .modEng StoreKeeps.of_keeps hc fun g => ?_
    obtain ⟨k, hg⟩ := g.takeWait_shape f.hdr.wait
    rw [hg]
    exact ⟨rfl, rfl, fun _ => rfl, fun _ => List.Sublist.refl _⟩
  have hs1 := hs0.trans StoreKeeps.trans (storeData he (hs0.cur hc) hd)
  have hs2 := hs1.trans StoreKeeps.trans (storeAddr he (hs1.cur hc) ha)
  have hc2 := hs2.cur hc
  obtain rfl := Host.Outcome.next.inj ((execSt_settle hiss hd ha).symm.trans ht)
  rcases settle_finishes hiss (finishes_storeAt hc2 hw) hf with ⟨n, hr⟩ | ⟨u, ⟨m, ws, hm, hsame, hcore⟩, hr⟩ <;> rw [hr]
  · have hp : WordPart key e StoreKeeps s (s.modEng fun g => { g with reason := n }) :=
      .modEng StoreKeeps.of_keeps hc fun _ => ⟨rfl, rfl, fun _ => rfl, fun _ => List.Sublist.refl _⟩
    exact ⟨s.core.spad, s.core.watch, fun _ _ => rfl, hp.same, hp.frame, hp.writes⟩
  · have hcu : u.cur = .cell key e := (SameButCell.cur_eq hsame).trans hc2
    have hspad : s2.core.spad = s.core.spad := by rw [hs2.frame.rest]; rfl
    have hhand : u.core.handler = none := by
      rw [hcore, hs2.frame.rest]; exact hh
    have hne : f.hdr.eng ≠ 7 := by
      intro h
      rw [h] at h7
      rcases he with rfl | rfl <;> exact absurd h7 (by decide)
    have hxm : e ≠ .x ∧ e ≠ .m := by rcases he with rfl | rfl <;> decide
    obtain ⟨c, hret, hfr, hk⟩ := frame_retire (wide := f.w1.isSome) hcu hxm.1 hxm.2 hne hhand
    have hput : Progress e (s2.core.withStore m ws) u.core := by
      rw [hcore]
      exact progress_path e (s2.core.withStore m ws) none _ _ id
    have hkeep : StoreKeeps s2.core u.core := by rw [hcore]; exact .of_eq rfl rfl rfl rfl
    rw [hret, State.core_setCore hcu]
    refine ⟨m, ws, fun a ha => (hm a ha).trans (by rw [hspad]), ?_, ?_, ?_⟩
    · exact SameButCell.trans hs2.same (SameButCell.trans hsame (State.setCore_same hcu c))
    · exact (hs2.frame.withStore m ws).trans hs2.quiet (hput.frame.trans hput.quiet hfr)
    · exact .trans _ _ _ hs2.writes (.trans _ _ _ hkeep (.of_keeps _ _ hk))

/-! ## The obligation -/

/-- Settles O58: a quiet store is its operands, its checks, its bytes and its retirement, each with its frame; a store to a line
is a chain of changes of the L1, of the RDC and of the messages. -/
theorem storesFrame : Obligations.StoresFrame := by
  refine ⟨fun f s t s0 s1 s2 key e lo hi addr off hst hd ha hw h7 he hq => ?_, fun s t key part loc bs scope na h => ?_⟩
  · obtain ⟨h, hh, hiss, rfl⟩ := hst
    cases hh
    obtain ⟨m, ws, hm, hsame, hfr, hk⟩ := quiet_store (.inr he) h7 hiss hd ha hw hq
    have hspad : t.core.spad = m := congrArg Cell.spad hfr.rest
    refine ⟨hsame, fun a ha => by rw [hspad]; exact hm a ha, ⟨m, ws, hfr.beyond⟩, hk.x, hk.a, fun hl => (hk.lc hl).2,
      fun g hg => ?_, ?_⟩
    · have ho := hfr.others g hg
      rw [Cell.withStore_eng] at ho
      exact ho
    · have ho := hfr.own
      rw [Cell.withStore_eng] at ho
      exact ho
  · have hl := State.storeLine_frame h
    refine ⟨hl.mem, hl.cells, hl.dies, hl.l1, fun a ha hheld => ?_, hl.out⟩
    rcases hl.rdc a hheld with ⟨hr, -⟩ | hnew | hdirty
    · exact .inl hr
    · have := at_of_mem_writesOf hnew
      dsimp only at this
      omega
    · exact .inr hdirty

end Sys2Proof.Machine
end

