-- ==== Sys2Proof/Proofs/ScalarArithmetic.lean ====
section
/-! SUPPORT. The integers that a scalar word reads and writes (R114), and the words of arithmetic, bits and fields (R115 to
R119). -/

namespace Sys2Proof.Machine

open Claims

/-! ## Reading and writing integers (R114) -/

theorem toSigned_eq_toInt {w : Nat} (hw : 0 < w) (x : Nat) : toSigned w x = (BitVec.ofNat w x).toInt := by
  have h2 : 2 ^ w = 2 * 2 ^ (w - 1) := by rw [← Nat.pow_succ', Nat.succ_eq_add_one, Nat.sub_one_add_one hw.ne']
  rw [BitVec.toInt_eq_toNat_cond, BitVec.toNat_ofNat, toSigned]
  split <;> split <;> omega

theorem wrapNat_lt (w : Nat) (z : Int) : wrapNat w z < 2 ^ w := by
  have h0 : (0 : Int) < (2 ^ w : Nat) := by exact_mod_cast Nat.two_pow_pos w
  have h1 := Int.emod_nonneg z h0.ne'
  have h2 := Int.emod_lt_of_pos z h0
  rw [wrapNat]
  omega

theorem ofNat_wrapNat (w : Nat) (z : Int) : BitVec.ofNat w (wrapNat w z) = BitVec.ofInt w z := by
  refine BitVec.eq_of_toNat_eq ?_
  rw [BitVec.toNat_ofNat, Nat.mod_eq_of_lt (wrapNat_lt w z), BitVec.toNat_ofInt]
  rfl

section
variable {w : Nat}

/-- int_read of a signed type: the low bits as a signed number. -/
theorem ITy.read_signed (hw : 0 < w) (a : Word) : (⟨true, w⟩ : ITy).read a.toNat = (a.setWidth w).toInt := by
  rw [← BitVec.ofNat_toNat, ← toSigned_eq_toInt hw]
  rfl

/-- int_read of an unsigned type: the low bits as a natural number. -/
theorem ITy.read_unsigned (a : Word) : (⟨false, w⟩ : ITy).read a.toNat = (a.setWidth w).toNat := by
  rw [BitVec.toNat_setWidth]
  rfl

/-- int_write of a signed type: the integer modulo 2^w, sign-extended. -/
theorem ITy.write_signed (hw : 0 < w) (z : Int) : (⟨true, w⟩ : ITy).write z = (BitVec.ofInt w z).signExtend 64 := by
  have h : (⟨true, w⟩ : ITy).write z = BitVec.ofInt 64 (toSigned w (wrapNat w z)) := rfl
  rw [h, toSigned_eq_toInt hw, ofNat_wrapNat]
  rfl

/-- int_write of an unsigned type: the integer modulo 2^w, zero-extended. -/
theorem ITy.write_unsigned (z : Int) : (⟨false, w⟩ : ITy).write z = (BitVec.ofInt w z).setWidth 64 := by
  have h : (⟨false, w⟩ : ITy).write z = BitVec.ofInt 64 (wrapNat w z : Nat) := rfl
  rw [h, ← ofNat_wrapNat w z]
  refine BitVec.eq_of_toNat_eq ?_
  rw [BitVec.toNat_setWidth, BitVec.toNat_ofNat, Nat.mod_eq_of_lt (wrapNat_lt w z)]
  exact (congrArg BitVec.toNat (BitVec.ofInt_natCast 64 _)).trans (BitVec.toNat_ofNat ..)

end

theorem read_b64 (a : Word) : (ITy.ofCode 0).read a.toNat = a.toInt :=
  (ITy.read_signed (w := 64) (by decide) a).trans (by rw [BitVec.setWidth_eq])

theorem write_b64 (z : Int) : (ITy.ofCode 0).write z = BitVec.ofInt 64 z :=
  (ITy.write_signed (w := 64) (by decide) z).trans (BitVec.signExtend_eq _)

/-- Settles O13: each TYPE code is a signed or an unsigned type of its width. -/
theorem integerReadAndWrite : Obligations.IntegerReadAndWrite := by
  intro a z
  refine ⟨read_b64 a, ?_, ITy.read_signed (by decide) a, ITy.read_unsigned a, ITy.read_signed (by decide) a, ITy.read_unsigned a,
    ITy.read_signed (by decide) a, ITy.read_unsigned a, write_b64 z, ?_, ITy.write_signed (by decide) z, ITy.write_unsigned z,
    ITy.write_signed (by decide) z, ITy.write_unsigned z, ITy.write_signed (by decide) z, ITy.write_unsigned z⟩
  · exact (ITy.read_unsigned (w := 64) a).trans (by rw [BitVec.setWidth_eq])
  · exact (ITy.write_unsigned (w := 64) z).trans (BitVec.setWidth_eq _)

/-! ## Words of two sources -/

/-- An RRR word that may issue, whose sources can be read and whose destination takes its value, completes. -/
theorem binary_of {i : Rrr → Instr} {fn : Rrr → ITy → Word → Word → Word} {v : Rrr → Word → Word → Word}
    (hx : ∀ f s, exec (i f) s = scalarRrr f (fn f) s) (hv : ∀ f a b, fn f (ity f) a b = v f a b) : Binary i v := by
  rintro f s key e a b s2 t hi ⟨s1, ha, hb⟩ ht
  rw [hx]
  refine runWord_ok hi (seqM_ok ?_)
  rw [← hv] at ht
  simp only [ha, hb, bind, Except.bind]
  exact ht

/-- The same of an RI word. -/
theorem immediate_of {i : Ri → Instr} {fn : ITy → Word → Word → Word} {v : Word → Word → Word}
    (hx : ∀ f s, exec (i f) s = scalarRi f fn s) (hv : ∀ a b, fn (ITy.ofCode 0) a b = v a b) : Immediate i v := by
  intro f s key e a s1 t hi ha ht
  rw [hx]
  refine runWord_ok hi (seqM_ok ?_)
  rw [← hv] at ht
  simp only [ha, bind, Except.bind]
  exact ht

/-- The same of an RRR word of one source. -/
theorem unary_ends {i : Instr} {fn : State → ITy → Word → Word} {f : Rrr} {s s1 t : State} {key : Nat} {e : EngTag} {a : Word}
    (hx : exec i s = scalarUn f fn s) (hi : Issues s key e f.hdr)
    (ha : (s.waited f.hdr).src f.a (litVal f.ty.toNat f.w1) = .ok (a, s1)) (ht : s1.dst f.d (fn s1 (ity f) a) = .ok t) :
    exec i s = .next (t.retire f.hdr f.w1.isSome .seq) := by
  rw [hx]
  refine runWord_ok hi (seqM_ok ?_)
  simp only [ha, bind, Except.bind]
  exact ht

/-! ## Arithmetic (R115) -/

theorem ofCode_pos (n : Nat) : 0 < (ITy.ofCode n).w := by
  unfold ITy.ofCode
  dsimp only
  split <;> decide

/-- int_write takes an integer modulo 2^w. -/
theorem ITy.write_congr {T : ITy} {x y : Int} (h : x % 2 ^ T.w = y % 2 ^ T.w) : T.write x = T.write y := by
  have hw : wrapNat T.w x = wrapNat T.w y := by
    simp only [wrapNat, Nat.cast_pow, Nat.cast_ofNat, h]
  simp only [ITy.write, hw]

theorem cmpFn_eq (g : Int → Int → Prop) [∀ x y, Decidable (g x y)] (T : ITy) (a b : Word) :
    cmpFn (fun x y => decide (g x y)) T a b = holds g T a b := by
  simp only [cmpFn, holds, decide_eq_true_eq]

theorem mulhFn_eq (T : ITy) (a b : Word) : mulhFn T a b = exact (fun x y => Int.fdiv (x * y) (2 ^ T.w)) T a b := by
  simp only [mulhFn, exact, Nat.cast_pow, Nat.cast_ofNat]

theorem addRi_eq (a b : Word) : intFn (· + ·) (ITy.ofCode 0) a b = a + b := by
  rw [intFn, write_b64, read_b64, read_b64, BitVec.ofInt_add, BitVec.ofInt_toInt, BitVec.ofInt_toInt]

theorem setltRi_eq (a b : Word) :
    cmpFn (fun x y => decide (x < y)) (ITy.ofCode 0) a b = if a.toInt < b.toInt then 1 else 0 := by
  simp only [cmpFn, read_b64, decide_eq_true_eq]

theorem arithmeticWordsComplete : ArithmeticWordsComplete := by
  refine ⟨binary_of (fun _ _ => rfl) fun _ _ _ => rfl, binary_of (fun _ _ => rfl) fun _ _ _ => rfl,
    binary_of (fun _ _ => rfl) fun _ _ _ => rfl, binary_of (fun _ _ => rfl) fun _ _ _ => mulhFn_eq _ _ _,
    binary_of (fun _ _ => rfl) fun _ _ _ => rfl, binary_of (fun _ _ => rfl) fun _ _ _ => rfl,
    binary_of (fun _ _ => rfl) fun _ _ _ => cmpFn_eq _ _ _ _, binary_of (fun _ _ => rfl) fun _ _ _ => cmpFn_eq _ _ _ _,
    binary_of (fun _ _ => rfl) fun _ _ _ => cmpFn_eq _ _ _ _, binary_of (fun _ _ => rfl) fun _ _ _ => cmpFn_eq _ _ _ _,
    immediate_of (fun _ _ => rfl) addRi_eq, immediate_of (fun _ _ => rfl) setltRi_eq,
    fun f s key e t hi ht => runWord_ok hi (seqM_ok ht)⟩

/-! ## Division (R116) -/

theorem ITy.lo_signed {T : ITy} (h : T.signed = true) : T.lo = -(2 ^ (T.w - 1)) := by
  simp [ITy.lo, h]

/-- The quotient of the least number by -1 is the least number again, as its bits are. -/
theorem divInt_eq (T : ITy) (x y : Int) : divInt T x y =
    if y = 0 then 2 ^ T.w - 1
    else if T.signed = true ∧ x = -(2 ^ (T.w - 1)) ∧ y = -1 then -(2 ^ (T.w - 1)) else Int.tdiv x y := by
  unfold divInt
  cases hs : T.signed with
  | false => simp
  | true => simp [ITy.lo_signed hs]

/-- All ones is -1 of a signed type and the greatest number of an unsigned one. -/
theorem write_allOnes (T : ITy) : T.write (2 ^ T.w - 1) = T.write (if T.signed then -1 else 2 ^ T.w - 1) := by
  refine ITy.write_congr ?_
  split
  · rw [show (2 : Int) ^ T.w - 1 = -1 + 2 ^ T.w from by ring, Int.add_emod_right]
  · rfl

theorem divFn_eq (T : ITy) (a b : Word) : divFn T a b = exact (fun x y =>
    if y = 0 then (if T.signed then -1 else 2 ^ T.w - 1)
    else if T.signed ∧ x = -(2 ^ (T.w - 1)) ∧ y = -1 then -(2 ^ (T.w - 1)) else Int.tdiv x y) T a b := by
  unfold divFn exact
  dsimp only
  rw [divInt_eq]
  split
  · exact write_allOnes T
  · rfl

theorem remFn_eq {T : ITy} (hw : 0 < T.w) (a b : Word) : remFn T a b = exact (fun x y =>
    if y = 0 then x else if T.signed ∧ x = -(2 ^ (T.w - 1)) ∧ y = -1 then 0 else x - y * Int.tdiv x y) T a b := by
  unfold remFn exact remInt
  dsimp only
  rw [divInt_eq]
  split
  · rfl
  · next hy =>
    split
    · next h =>
      obtain ⟨-, hx, hy⟩ := h
      have h2 : (2 : Int) ^ T.w = 2 ^ (T.w - 1) * 2 := by rw [← pow_succ, Nat.sub_one_add_one hw.ne']
      refine ITy.write_congr ?_
      rw [hx, hy, show -(2 : Int) ^ (T.w - 1) - -1 * -2 ^ (T.w - 1) = 2 ^ T.w * (-1) from by rw [h2]; ring,
        Int.mul_emod_right, Int.zero_emod]
    · rfl

theorem divideWordsComplete : DivideWordsComplete :=
  ⟨binary_of (fun _ _ => rfl) fun _ _ _ => divFn_eq _ _ _, binary_of (fun _ _ => rfl) fun _ _ _ => remFn_eq (ofCode_pos _) _ _⟩

/-- Settles O14: each word is its function of the operands read and written as integers, division in each of its cases. -/
theorem arithmeticAndDivisionComplete : Obligations.ArithmeticAndDivisionComplete :=
  ⟨arithmeticWordsComplete, divideWordsComplete⟩

/-! ## Bits and shifts (R117) -/

/-- int_write of a natural number depends on its low bits alone. -/
theorem ITy.write_nat_congr {T : ITy} {m n : Nat} (h : m % 2 ^ T.w = n % 2 ^ T.w) : T.write (m : Int) = T.write (n : Int) :=
  ITy.write_congr (by exact_mod_cast congrArg (Nat.cast : Nat → Int) h)

/-- The bits of a number's remainder by a power of two are its low bits. -/
theorem testBit_low (w i : Nat) (a : Word) : (a.toNat % 2 ^ w).testBit i = (decide (i < w) && a.getLsbD i) :=
  Nat.testBit_mod_two_pow ..

theorem andnFn_eq {T : ITy} (hw : T.w ≤ 64) (a b : Word) :
    bitFn (fun x y => x ^^^ (x &&& y)) T a b = T.write ((a &&& ~~~b).toNat : Nat) := by
  refine ITy.write_nat_congr (Nat.eq_of_testBit_eq fun i => ?_)
  rw [testBit_low, Nat.testBit_mod_two_pow, Nat.testBit_xor, Nat.testBit_and, testBit_low, testBit_low, BitVec.getLsbD_and,
    BitVec.getLsbD_not]
  by_cases hi : i < T.w
  · have h64 : i < 64 := by omega
    cases a.getLsbD i <;> cases b.getLsbD i <;> simp [hi, h64]
  · simp [hi]

theorem ofCode_le (n : Nat) : (ITy.ofCode n).w ≤ 64 := by
  unfold ITy.ofCode
  dsimp only
  split <;> decide

/-- An arithmetic shift of the low bits is the division of the signed number, as its bits are. -/
theorem shraFn_eq {T : ITy} (hw : 0 < T.w) (a b : Word) :
    shraFn T a b = T.write (((a.setWidth T.w).sshiftRight (b.toNat % T.w)).toNat : Nat) := by
  have hd : Int.fdiv (toSigned T.w a.toNat) (2 ^ (b.toNat % T.w) : Nat) = ((a.setWidth T.w).sshiftRight (b.toNat % T.w)).toInt := by
    rw [BitVec.toInt_sshiftRight, Int.shiftRight_eq_div_pow, toSigned_eq_toInt hw, BitVec.ofNat_toNat,
      Int.fdiv_eq_ediv_of_nonneg _ (Int.natCast_nonneg _)]
  refine (congrArg T.write hd).trans (ITy.write_congr ?_)
  generalize (a.setWidth T.w).sshiftRight (b.toNat % T.w) = v
  have hm : ((2 ^ T.w : Nat) : Int) = 2 ^ T.w := by push_cast; rfl
  rw [BitVec.toInt_eq_toNat_bmod, ← hm, Int.bmod_emod]

/-! ### The RI forms -/

theorem low_b64 (a : Word) : a.toNat % 2 ^ (ITy.ofCode 0).w = a.toNat := Nat.mod_eq_of_lt a.isLt

theorem write_b64_nat (n : Nat) : (ITy.ofCode 0).write (n : Int) = BitVec.ofNat 64 n :=
  (write_b64 n).trans (BitVec.ofInt_natCast 64 n)

theorem andRi_eq (a b : Word) : bitFn (· &&& ·) (ITy.ofCode 0) a b = a &&& b := by
  rw [bitFn, write_b64_nat, low_b64, low_b64, ← BitVec.toNat_and, BitVec.ofNat_toNat, BitVec.setWidth_eq]

theorem orRi_eq (a b : Word) : bitFn (· ||| ·) (ITy.ofCode 0) a b = a ||| b := by
  rw [bitFn, write_b64_nat, low_b64, low_b64, ← BitVec.toNat_or, BitVec.ofNat_toNat, BitVec.setWidth_eq]

theorem shlRi_eq (a b : Word) : shlFn (ITy.ofCode 0) a b = a <<< (b.toNat % 64) := by
  rw [shlFn, write_b64_nat, low_b64]
  refine BitVec.eq_of_toNat_eq ?_
  rw [BitVec.toNat_ofNat, BitVec.toNat_shiftLeft, Nat.shiftLeft_eq]
  rfl

theorem shrRi_eq (a b : Word) : shrFn (ITy.ofCode 0) a b = a >>> (b.toNat % 64) := by
  rw [shrFn, write_b64_nat, low_b64]
  refine BitVec.eq_of_toNat_eq ?_
  rw [← Nat.shiftRight_eq_div_pow, show shiftCount (ITy.ofCode 0) b = b.toNat % 64 from rfl, ← BitVec.toNat_ushiftRight,
    BitVec.ofNat_toNat, BitVec.setWidth_eq]

/-! ### Counts -/

/-- The number of leading zeros is where the first one stands. -/
theorem clzNat_eq {w n : Nat} {a : Word} (hn : n ≤ w) (hz : ∀ i, w - n ≤ i → i < w → a.getLsbD i = false)
    (ho : n < w → a.getLsbD (w - 1 - n) = true) : clzNat w (a.toNat % 2 ^ w) = n := by
  have hbit := testBit_low w
  rw [clzNat, Nat.mod_mod]
  rcases Nat.lt_or_eq_of_le hn with hlt | rfl
  · have hone : (a.toNat % 2 ^ w).testBit (w - 1 - n) = true := by
      rw [hbit, ho hlt, decide_eq_true (by omega), Bool.and_true]
    have hlow : a.toNat % 2 ^ w < 2 ^ (w - 1 - n + 1) := by
      refine Nat.lt_pow_two_of_testBit _ fun i hi => ?_
      rw [hbit]
      by_cases hw : i < w
      · rw [hz i (by omega) hw, Bool.and_false]
      · rw [decide_eq_false hw, Bool.false_and]
    have hge := Nat.ge_two_pow_of_testBit hone
    have hne : a.toNat % 2 ^ w ≠ 0 := (lt_of_lt_of_le (Nat.two_pow_pos _) hge).ne'
    rw [if_neg hne, (Nat.log2_eq_iff hne).2 ⟨hge, hlow⟩]
    omega
  · refine if_pos (Nat.eq_of_testBit_eq fun i => ?_)
    rw [hbit, Nat.zero_testBit]
    by_cases hw : i < n
    · rw [hz i (by omega) hw, Bool.and_false]
    · rw [decide_eq_false hw, Bool.false_and]

theorem popcNat_eq (w : Nat) (a : Word) :
    popcNat w (a.toNat % 2 ^ w) = ((List.range w).filter fun i => a.getLsbD i).length := by
  rw [popcNat]
  congr 1
  refine List.filter_congr fun i hi => ?_
  rw [testBit_low, decide_eq_true (List.mem_range.1 hi), Bool.true_and]

theorem bitWordsComplete : BitWordsComplete := by
  refine ⟨binary_of (fun _ _ => rfl) fun _ _ _ => rfl, binary_of (fun _ _ => rfl) fun _ _ _ => rfl,
    binary_of (fun _ _ => rfl) fun _ _ _ => rfl, binary_of (fun _ _ => rfl) fun _ _ _ => andnFn_eq (ofCode_le _) _ _,
    binary_of (fun _ _ => rfl) fun _ _ _ => rfl, binary_of (fun _ _ => rfl) fun _ _ _ => rfl,
    binary_of (fun _ _ => rfl) fun _ _ _ => shraFn_eq (ofCode_pos _) _ _,
    immediate_of (fun _ _ => rfl) andRi_eq, immediate_of (fun _ _ => rfl) orRi_eq, immediate_of (fun _ _ => rfl) shlRi_eq,
    immediate_of (fun _ _ => rfl) shrRi_eq, fun f s key e a s1 n t hi ha hn hz ho ht => ?_, fun f s key e a s1 t hi ha ht => ?_⟩
  · refine unary_ends (fn := fun _ T a => BitVec.ofNat 64 (clzNat T.w (a.toNat % 2 ^ T.w))) rfl hi ha ?_
    rw [clzNat_eq hn hz ho]
    exact ht
  · refine unary_ends (fn := fun _ T a => BitVec.ofNat 64 (popcNat T.w (a.toNat % 2 ^ T.w))) rfl hi ha ?_
    rw [popcNat_eq]
    exact ht

/-! ## Fields (R118, R119) -/

/-- The bits of the field that B names, zero above bit 63 of A. -/
theorem testBit_field (a : Word) (p n i : Nat) : (natBits a.toNat p n).testBit i = (decide (i < n) && a.getLsbD (p + i)) := by
  rw [natBits, Nat.testBit_mod_two_pow, Nat.testBit_shiftRight]
  rfl

theorem bfxFn_eq {sgn : Bool} {a b y : Word} (h : ∀ i, i < 64 → y.getLsbD i = if i < fieldLen b then a.getLsbD (fieldPos b + i)
    else sgn && decide (0 < fieldLen b) && a.getLsbD (fieldPos b + (fieldLen b - 1))) : bfxFn sgn a b = y := by
  have hd : bfxFn sgn a b = if fieldLen b = 0 then 0
      else if sgn then BitVec.ofInt 64 (toSigned (fieldLen b) (natBits a.toNat (fieldPos b) (fieldLen b)))
      else BitVec.ofNat 64 (natBits a.toNat (fieldPos b) (fieldLen b)) := rfl
  rw [hd]
  generalize fieldLen b = n, fieldPos b = p at h ⊢
  refine BitVec.eq_of_getLsbD_eq fun i hi => ?_
  rw [h i hi]
  split
  · next h0 => simp [h0]
  · next h0 =>
    have hpos : 0 < n := Nat.pos_of_ne_zero h0
    cases sgn with
    | true =>
      rw [if_pos rfl, toSigned_eq_toInt hpos, ← BitVec.signExtend, BitVec.getLsbD_signExtend, BitVec.msb_eq_getLsbD_last,
        BitVec.getLsbD_ofNat, BitVec.getLsbD_ofNat, testBit_field, testBit_field]
      by_cases hn : i < n <;> simp [hn, hi, hpos]
    | false =>
      rw [if_neg Bool.false_ne_true, BitVec.getLsbD_ofNat, testBit_field]
      by_cases hn : i < n <;> simp [hn, hi]

theorem bfiFn_eq {old a b y : Word} (h : ∀ i, i < 64 → y.getLsbD i = if fieldPos b ≤ i ∧ i < fieldPos b + fieldLen b
    then a.getLsbD (i - fieldPos b) else old.getLsbD i) : bfiFn old a b = y := by
  have hd : bfiFn old a b = (old &&& ~~~(BitVec.ofNat 64 ((2 ^ fieldLen b - 1) * 2 ^ fieldPos b)))
      ||| (BitVec.ofNat 64 (a.toNat * 2 ^ fieldPos b) &&& BitVec.ofNat 64 ((2 ^ fieldLen b - 1) * 2 ^ fieldPos b)) := rfl
  rw [hd]
  generalize fieldLen b = n, fieldPos b = p at h ⊢
  refine BitVec.eq_of_getLsbD_eq fun i hi => ?_
  have ha : a.toNat.testBit (i - p) = a.getLsbD (i - p) := rfl
  rw [h i hi, BitVec.getLsbD_or, BitVec.getLsbD_and, BitVec.getLsbD_and, BitVec.getLsbD_not, BitVec.getLsbD_ofNat,
    BitVec.getLsbD_ofNat, Nat.testBit_mul_two_pow, Nat.testBit_mul_two_pow, Nat.testBit_two_pow_sub_one, ha]
  by_cases hp : p ≤ i
  · by_cases hn : i - p < n
    · simp [hi, hp, hn, show i < p + n by omega]
    · simp [hi, hn, show ¬ i < p + n by omega]
  · simp [hi, hp]

theorem fieldWordsComplete : FieldWordsComplete := by
  refine ⟨?_, ?_, ?_⟩
  · rintro f s key e old a b s2 t hi hr ⟨s1, ha, hb⟩ ht
    refine runWord_ok hi (seqM_ok ?_)
    simp only [hr, ha, hb, bind, Except.bind, ite_not]
    exact ht
  · intro f s key e a b s2 y t hi hab hy ht
    exact binary_of (fn := fun f _ a b => bfxFn (f.fl.getLsbD 0) a b) (fun _ _ => rfl) (fun _ _ _ => rfl) f s key e a b s2 t hi hab
      (by rw [bfxFn_eq hy]; exact ht)
  · rintro f s key e old a b s2 y t hi hr ⟨s1, ha, hb⟩ hy ht
    refine runWord_ok hi (seqM_ok ?_)
    simp only [hr, ha, hb, bind, Except.bind, bfiFn_eq hy]
    exact ht

theorem addScaledCompletes : AddScaledCompletes := by
  refine binary_of (fn := fun f _ a b => addscFn f.fl.toNat a b) (fun _ _ => rfl) fun f a b => rfl

/-- Settles O15: each word is the stated function of its operands' bits. -/
theorem bitAndFieldWordsComplete : Obligations.BitAndFieldWordsComplete :=
  ⟨bitWordsComplete, fieldWordsComplete, addScaledCompletes⟩

end Sys2Proof.Machine
end

