-- ==== Sys2Proof/Proofs/ControlTransfers.lean ====
section
/-! SUPPORT. Outcomes and how they are exchanged (R125), loops (R128, R129), calls, jumps, OUT and FOLLOW (R127, R130). -/

namespace Sys2Proof.Machine

open Claims

/-! ## Entries of the outcome queues (R125) -/

section
variable (c : Cell) (cls : DieClass) (code : List Word) (p g : EngTag) (x : BqEnt)

theorem Cell.mem_bqTakers : g ∈ c.bqTakers cls p x ↔ g ∈ c.live cls ∧ (g ≠ p ∨ x.kind = .out) := by
  simp only [Cell.bqTakers, List.mem_filter, Bool.or_eq_true, bne_iff_ne, beq_iff_eq]

theorem Cell.bqRoom_iff : c.bqRoom cls p x = true ↔ ∀ g ∈ c.bqTakers cls p x, (c.eng g).bq.length < 64 := by
  simp only [Cell.bqRoom, List.all_eq_true, decide_eq_true_eq]

theorem mem_insertHeld (y : EngTag × BqEnt) (l : List (EngTag × BqEnt)) : y ∈ insertHeld y l := by
  induction l with
  | nil => exact List.mem_singleton.2 rfl
  | cons z l ih =>
    unfold insertHeld
    split
    · exact List.mem_cons_self
    · exact List.mem_cons_of_mem _ ih

/-- One entry held back enters once no earlier word has still to push and every queue has room. -/
theorem Cell.bqEnter_one : Cell.bqEnter cls code [(p, x)] c
    = if c.bqEarly cls code x.pos || !c.bqRoom cls p x then c else { c.bqPut cls p x with bqHeld := [] } := rfl

end

section
variable {s : State} {key : Nat} {e : EngTag} {x : BqEnt}

/-- An entry that may be pushed, and for which every queue has room, stands at the end of the queues that take it. -/
theorem State.pushBq_room (hc : s.cur = .cell key e) (he : s.core.bqEarly s.curClass s.curCode x.pos = false)
    (hh : ∀ y ∈ s.core.bqHeld, x.pos ≤ y.2.pos) (hr : s.core.bqRoom s.curClass e x = true) :
    s.pushBq x = .ok (s.setCore (s.core.bqPut s.curClass e x)) := by
  have hany : s.core.bqHeld.any (fun y => decide (y.2.pos < x.pos)) = false := by
    rw [List.any_eq_false]
    intro y hy
    simpa using hh y hy
  simp only [State.pushBq, he, hany, State.curEng_cell hc, hr, Bool.not_true, Bool.or_self, Bool.false_eq_true, if_false]

/-- An entry for which a queue has no room enters none. -/
theorem State.pushBq_full (hc : s.cur = .cell key e) (he : s.core.bqEarly s.curClass s.curCode x.pos = false)
    (hr : s.core.bqRoom s.curClass e x = false) : s.pushBq x = blocked 5 := by
  simp only [State.pushBq, he, State.curEng_cell hc, hr, Bool.not_false, Bool.or_true, Bool.false_eq_true, if_false, if_true]

/-- An entry behind an earlier producing word is held back (log entry 132). -/
theorem State.pushBq_early (hc : s.cur = .cell key e) (he : s.core.bqEarly s.curClass s.curCode x.pos = true) :
    s.pushBq x = .ok (s.setCore { s.core with bqHeld := insertHeld (e, x) s.core.bqHeld }) := by
  simp only [State.pushBq, he, State.curEng_cell hc, if_true]

/-- A head entry that the engine's word does not expect raises 0x8B, and is not popped. -/
theorem State.popBq_mismatch {ok : BqEnt → Bool} (hb : s.headBq = .ok x) (hn : ok x = false) :
    s.popBq ok = .error (.cause { code := 0x8B, aux := BitVec.ofNat 64 x.pc } none) := by
  simp only [State.popBq, hb, bind, Except.bind, hn, Bool.false_eq_true, if_false]

theorem State.popBq_match {ok : BqEnt → Bool} (hb : s.headBq = .ok x) (hy : ok x = true) :
    s.popBq ok = .ok (x.value, s.modEng fun g => { g with bq := g.bq.tail }) := by
  simp only [State.popBq, hb, bind, Except.bind, hy, if_true]

theorem State.headBq_empty (hc : s.cur = .cell key e) (hb : (s.core.eng e).bq = []) : s.headBq = blocked 4 := by
  simp only [State.headBq, State.curEng_cell hc, hb]

end

/-- Settles O18: a push is one of three kinds, an entry held back enters by the same conditions, and a head entry is compared
before it is popped. -/
theorem outcomesAreExchanged : Obligations.OutcomesAreExchanged := by
  refine ⟨fun s key e x hc => ⟨fun he hh => ⟨fun hr => ?_, fun ⟨g, hg, hlen⟩ => ?_⟩, fun he => ?_⟩, fun cls code p x c d hd => ?_,
    fun f s key e s0 x st hn hh he hb hx => ?_, fun f s key e s0 st hh hb => ?_⟩
  · have hroom : s.core.bqRoom s.curClass e x = true :=
      (s.core.bqRoom_iff _ _ _).2 fun g hg => hr g ((s.core.mem_bqTakers _ _ _ _).1 hg)
    refine ⟨_, State.pushBq_room hc he hh hroom, State.setCore_same hc _, ?_⟩
    rw [State.core_setCore hc]
    exact ⟨fun g hg => by rw [Cell.bqPut_bq, if_pos ((s.core.mem_bqTakers _ _ _ _).2 hg)],
      fun g hg => by rw [Cell.bqPut_bq, if_neg (mt (s.core.mem_bqTakers _ _ _ _).1 hg)]⟩
  · refine State.pushBq_full hc he (Bool.eq_false_iff.2 fun hroom => ?_)
    have := (s.core.bqRoom_iff _ _ _).1 hroom g ((s.core.mem_bqTakers _ _ _ _).2 hg)
    omega
  · refine ⟨_, State.pushBq_early hc he, State.setCore_same hc _, ?_⟩
    rw [State.core_setCore hc]
    exact ⟨mem_insertHeld _ _, fun g => Cell.bqHeld_eng _ _ g⟩
  · subst hd
    rw [Cell.bqEnter_one]
    refine ⟨fun he hr => ?_, fun he => by rw [he, Bool.true_or, if_pos rfl]⟩
    have hroom : c.bqRoom cls p x = true := (c.bqRoom_iff _ _ _).2 fun g hg => hr g ((c.mem_bqTakers _ _ _ _).1 hg)
    rw [he, hroom, Bool.not_true, Bool.or_self, if_neg Bool.false_ne_true]
    exact ⟨rfl, fun g hg => by rw [Cell.bqHeld_eng, Cell.bqPut_bq, if_pos ((c.mem_bqTakers _ _ _ _).2 hg)]⟩
  · have hc := Starts.cur st
    have hne : (x.kind == .outcome && x.pc == s0.curPc) = false := by
      rw [Bool.and_eq_false_iff, beq_eq_false_iff_ne, beq_eq_false_iff_ne]
      exact hx
    have hp := State.popBq_mismatch (ok := fun x => x.kind == .outcome && x.pc == s0.curPc) hb hne
    refine raises_of st rfl (fun _ => rfl) ?_
    simp only [if_neg hn, State.outcome, State.exchange_consumer hc (Starts.alone st hh) he, hp, bind, Except.bind]
  · have hc := Starts.cur st
    refine blocks_of st rfl (fun _ => rfl) ?_
    simp only [Starts.notInHandler st hh, State.popBq, State.headBq_empty hc hb, bind, Except.bind]
    rfl

/-! ## Loops (R128, R129) -/

section
variable {s0 : State} {key : Nat} {e : EngTag}

/-- A cause for all engines is C's to raise (R127 to R129). -/
theorem State.raiseAtC_c {α : Type} (hc : s0.cur = .cell key .c) (code : BitVec 8) :
    (s0.raiseAtC code : M α) = .error (.cause { code := code } none) := if_pos (State.curEng_cell hc)

theorem loopCount_eq {n : Nat} (h : n ≠ 0) (stg : Nat) (rot : Bool) : loopCount n stg rot = if rot then n + stg else n := if_neg h

theorem loopCount_ne_zero {n : Nat} (h : n ≠ 0) (stg : Nat) (rot : Bool) : loopCount n stg rot ≠ 0 := by
  rw [loopCount_eq h]
  split <;> omega

/-- The entry that a LOOP opens. -/
def openedLoop (f : Lp) (pc n : Nat) : LoopEnt :=
  { endPc := offTarget pc f.off, startPc := pc + (if f.w1.isSome then 16 else 8),
    left := if f.rot then n + f.stg.toNat else n, rot := f.rot, n := n, stg := f.stg.toNat, iter := 0 }

/-- A LOOP of no iterations goes to its end. -/
theorem loop_none {f : Lp} {s : State} (st : Starts (.loop f) s key e s0) (hn : s0.readLc f.lc.toNat = .ok 0) :
    Ends (.loop f) s s0 (.goto (offTarget s0.curPc f.off)) := by
  refine ends_of st rfl rfl (fun _ => rfl) ?_
  simp only [hn, bind, Except.bind]
  rfl

/-- A LOOP that opens: X drives the stage predicates of a rotating one. -/
theorem loop_opens {f : Lp} {s t : State} {n : Nat} (st : Starts (.loop f) s key e s0) (hn : s0.readLc f.lc.toNat = .ok n)
    (h0 : n ≠ 0) (hl : (s0.core.eng e).lstack.length < 8)
    (ht : t = s0.modEng fun g => { g with lstack := openedLoop f s0.curPc n :: g.lstack }) :
    Ends (.loop f) s (if f.rot = true ∧ e = .x then t.setCore { t.core.setStages n f.stg.toNat 0 with stageOpen := true } else t) .seq := by
  subst ht
  have hc := Starts.cur st
  have hcur : (s0.modEng fun g => { g with lstack := openedLoop f s0.curPc n :: g.lstack }).curEng = e := by
    simp only [State.modEng, State.curEng, State.setCore_cur, hc]
  have hi := loopCount_ne_zero h0 f.stg.toNat f.rot
  refine ends_of st rfl rfl (fun _ => rfl) ?_
  rw [loopCount_eq h0] at hi
  simp only [hn, bind, Except.bind, loopCount_eq h0, if_neg hi, Starts.curEng st, if_neg (Nat.not_le.2 hl)]
  rw [← openedLoop, hcur]

/-- A ninth open loop raises 0x8D at C. -/
theorem loop_overflows {f : Lp} {s : State} {n : Nat} (st : Starts (.loop f) s key .c s0) (hn : s0.readLc f.lc.toNat = .ok n)
    (h0 : n ≠ 0) (hl : 8 ≤ (s0.core.eng .c).lstack.length) : Raises (.loop f) s { code := 0x8D } := by
  refine raises_of st rfl (fun _ => rfl) ?_
  simp only [hn, bind, Except.bind, if_neg (loopCount_ne_zero h0 _ _), Starts.curEng st, if_pos hl, State.raiseAtC_c (Starts.cur st)]

theorem break_always {f : Br} {s : State} (st : Starts (.break_ f) s key e s0) (hl : (s0.core.eng e).lstack ≠ []) (h0 : f.cond = 0) :
    Ends (.break_ f) s s0.popLoop (.jump (offTarget s0.curPc f.off)) := by
  refine ends_of st rfl rfl (fun _ => rfl) ?_
  simp only [Starts.curEng st, List.isEmpty_iff, if_neg hl, if_pos h0]

theorem break_empty {f : Br} {s : State} (st : Starts (.break_ f) s key .c s0) (hl : (s0.core.eng .c).lstack = []) :
    Raises (.break_ f) s { code := 0x8D } := by
  refine raises_of st rfl (fun _ => rfl) ?_
  simp only [Starts.curEng st, List.isEmpty_iff, if_pos hl, State.raiseAtC_c (Starts.cur st)]

/-- A conditional BREAK closes the loop where its outcome is true. -/
theorem break_outcome {f : Br} {s t : State} {b : Bool} (st : Starts (.break_ f) s key e s0) (hl : (s0.core.eng e).lstack ≠ [])
    (h0 : f.cond ≠ 0) (ho : s0.outcome f = .ok (b, t)) :
    Ends (.break_ f) s (if b then t.popLoop else t) (if b then .jump (offTarget s0.curPc f.off) else .seq) := by
  refine ends_of st rfl rfl (fun _ => rfl) ?_
  simp only [Starts.curEng st, List.isEmpty_iff, if_neg hl, if_neg h0, ho, bind, Except.bind]
  cases b <;> rfl

end

theorem loopsOpenAndBreak : LoopsOpenAndBreak := by
  refine ⟨fun f s key e s0 n st hn => ⟨?_, ?_, ?_⟩, fun f s key e s0 st => ⟨break_always st, ?_⟩, ?_⟩
  · rintro rfl
    exact loop_none st hn
  · rintro l t h0 hl rfl ht
    have hends := loop_opens st hn h0 hl ht
    refine ⟨fun hx => ?_, fun hr hx => ?_⟩
    · rwa [if_neg (by rintro ⟨hr, he⟩; rcases hx with hx | hx; exacts [by simp [hx] at hr, hx he])] at hends
    · rwa [if_pos ⟨hr, hx⟩] at hends
  · rintro h0 hl rfl
    exact loop_overflows st hn h0 hl
  · rintro hl rfl
    exact break_empty st hl
  · rintro f s key e s0 v b t st hl h0 hh he hv rfl ht
    exact break_outcome st hl h0 (State.outcome_producer (Starts.cur st) (Starts.alone st hh) he hv ht)

theorem loopEndsIterateOrLeave : LoopEndsIterateOrLeave := by
  intro l ls pc
  refine ⟨rfl, fun h => if_neg h, fun h hne hl => (if_pos h).trans (if_pos ⟨hne, hl⟩), fun h hl => ?_⟩
  have hstop : ¬ (l.startPc ≠ l.endPc ∧ 1 < l.left) := by
    rintro ⟨hne, hlt⟩
    rcases hl with hl | hl
    · omega
    · exact hne hl
  rw [loopEnd, if_pos h, if_neg hstop]
  exact ⟨rfl, rfl⟩

/-- Settles O19: LOOP and BREAK have one lemma for each of their ends, and the loop end one for each of its cases. -/
theorem loopsOpenIterateAndLeave : Obligations.LoopsOpenIterateAndLeave := ⟨loopsOpenAndBreak, loopEndsIterateOrLeave⟩

/-! ## Targets of JMPI and CALLI (R127) -/

theorem State.core_modEng {s : State} {key : Nat} {e : EngTag} (hc : s.cur = .cell key e) (f : Eng → Eng) :
    (s.modEng f).core = s.core.setEng e (f (s.core.eng e)) := by
  simp only [State.modEng, State.curEng_cell hc]
  exact State.core_setCore hc _

/-- A change of the engine that leaves its PC. -/
theorem State.curPc_modEng {s : State} {key : Nat} {e : EngTag} (hc : s.cur = .cell key e) {f : Eng → Eng} (hf : ∀ g, (f g).pc = g.pc) :
    (s.modEng f).curPc = s.curPc := by
  rw [State.curPc, State.curPc, State.core_modEng hc, State.curEng_cell ((s.modEng_cur f).trans hc), State.curEng_cell hc,
    Cell.eng_setEng_same, hf]

section
variable {s0 : State} {key : Nat} {e : EngTag} {f : Br} {v : Word}

/-- A producer that finds its target misaligned or outside the section raises 0x08, and pushes nothing. -/
theorem State.target_outside (hc : s0.cur = .cell key e) (ha : s0.alone = false) (he : e = (if f.prod then .a else .c))
    (hv : s0.readReg f.reg.toNat = .ok v) (ho : v.toNat % 8 ≠ 0 ∨ 8 * s0.curCode.length ≤ v.toNat) :
    s0.target f = .error (.cause { code := 0x08 } none) := by
  have hcur : s0.curEng = if f.prod then .a else .c := (State.curEng_cell hc).trans he
  simp only [State.target, State.exchange, ha, Bool.false_eq_true, if_false, if_pos hcur, hv, bind, Except.bind, if_pos ho, raise]

/-- Another engine pops the target that the producer pushed for the same word. -/
theorem State.target_consumer {pos : Nat} (hc : s0.cur = .cell key e) (ha : s0.alone = false) (he : e ≠ (if f.prod then .a else .c))
    (hb : s0.headBq = .ok ⟨.target, v, s0.curPc, pos⟩) :
    s0.target f = .ok (v.toNat, s0.modEng fun g => { g with bq := g.bq.tail }) := by
  have hp := State.popBq_match (ok := fun x => x.kind == .target && x.pc == s0.curPc) hb (by simp)
  simp only [State.target, State.exchange_consumer hc ha he, hp, bind, Except.bind]

theorem jmpi_target {s t : State} {n : Nat} (st : Starts (.jmpi f) s key e s0) (ht : s0.target f = .ok (n, t)) :
    Ends (.jmpi f) s t (.goto n) := by
  refine ends_of st rfl rfl (fun _ => rfl) ?_
  simp only [ht, bind, Except.bind]

theorem jmpi_raises {s : State} {r : Raise} (st : Starts (.jmpi f) s key e s0) (ht : s0.target f = .error (.cause r none)) :
    Raises (.jmpi f) s r := by
  refine raises_of st rfl (fun _ => rfl) ?_
  simp only [ht, bind, Except.bind]

/-! ## The return stack (R127) -/

/-- The state with the address behind a word on the engine's return stack. -/
def State.returning (s : State) (wide : Bool) : State :=
  s.modEng fun g => { g with rstack := (g.pc + (if wide then 16 else 8)) :: g.rstack }

theorem State.pushRet_room {wide : Bool} (hc : s0.cur = .cell key e) (hl : (s0.core.eng e).rstack.length < 16) :
    s0.pushRet wide = .ok (s0.returning wide) := by
  simp only [State.pushRet, State.curEng_cell hc, if_neg (Nat.not_le.2 hl)]
  rfl

theorem State.pushRet_full {wide : Bool} (hc : s0.cur = .cell key .c) (hl : 16 ≤ (s0.core.eng .c).rstack.length) :
    s0.pushRet wide = .error (.cause { code := 0x8A } none) := by
  simp only [State.pushRet, State.curEng_cell hc, if_pos hl, State.raiseAtC_c hc]

/-- A return address pushed moves no engine and keeps C out of a handler. -/
theorem State.returning_spec (wide : Bool) (hc : s0.cur = .cell key e) :
    (s0.returning wide).cur = .cell key e ∧ (s0.returning wide).curPc = s0.curPc
    ∧ ((s0.returning wide).core.eng e).pos = (s0.core.eng e).pos ∧ (s0.returning wide).alone = s0.alone := by
  have hcur : (s0.returning wide).cur = .cell key e := (State.modEng_cur s0 _).trans hc
  have hcore : (s0.returning wide).core = _ := State.core_modEng hc _
  refine ⟨hcur, State.curPc_modEng hc fun _ => rfl, by rw [hcore, Cell.eng_setEng_same], ?_⟩
  simp only [State.alone, hcur, hc, hcore, Cell.setEng_handler]

theorem call_ends {s : State} (st : Starts (.call f) s key e s0) (hl : (s0.core.eng e).rstack.length < 16) :
    Ends (.call f) s (s0.returning f.w1.isSome) (.goto (offTarget s0.curPc f.off)) := by
  refine ends_of st rfl rfl (fun _ => rfl) ?_
  simp only [State.pushRet_room (Starts.cur st) hl, bind, Except.bind]

theorem call_overflows {s : State} (st : Starts (.call f) s key .c s0) (hl : 16 ≤ (s0.core.eng .c).rstack.length) :
    Raises (.call f) s { code := 0x8A } := by
  refine raises_of st rfl (fun _ => rfl) ?_
  simp only [State.pushRet_full (Starts.cur st) hl, bind, Except.bind]

theorem ret_ends {s : State} {r : Nat} {rs : List Nat} (st : Starts (.ret f) s key e s0) (hl : (s0.core.eng e).rstack = r :: rs) :
    Ends (.ret f) s (s0.modEng fun g => { g with rstack := rs }) (.goto r) := by
  refine ends_of st rfl rfl (fun _ => rfl) ?_
  simp only [Starts.curEng st, hl]

theorem ret_empty {s : State} (st : Starts (.ret f) s key .c s0) (hl : (s0.core.eng .c).rstack = []) :
    Raises (.ret f) s { code := 0x8A } := by
  refine raises_of st rfl (fun _ => rfl) ?_
  simp only [Starts.curEng st, hl, State.raiseAtC_c (Starts.cur st)]

theorem calli_target {s t : State} {n : Nat} (st : Starts (.calli f) s key e s0) (hl : (s0.core.eng e).rstack.length < 16)
    (ht : (s0.returning f.w1.isSome).target f = .ok (n, t)) : Ends (.calli f) s t (.goto n) := by
  refine ends_of st rfl rfl (fun _ => rfl) ?_
  simp only [State.pushRet_room (Starts.cur st) hl, ht, bind, Except.bind]

theorem calli_raises {s : State} {r : Raise} (st : Starts (.calli f) s key e s0) (hl : (s0.core.eng e).rstack.length < 16)
    (ht : (s0.returning f.w1.isSome).target f = .error (.cause r none)) : Raises (.calli f) s r := by
  refine raises_of st rfl (fun _ => rfl) ?_
  simp only [State.pushRet_room (Starts.cur st) hl, ht, bind, Except.bind]

theorem calli_overflows {s : State} (st : Starts (.calli f) s key .c s0) (hl : 16 ≤ (s0.core.eng .c).rstack.length) :
    Raises (.calli f) s { code := 0x8A } := by
  refine raises_of st rfl (fun _ => rfl) ?_
  simp only [State.pushRet_full (Starts.cur st) hl, bind, Except.bind]

end

theorem callsAndJumpsComplete : CallsAndJumpsComplete := by
  refine ⟨fun f s key e s0 st => ⟨call_ends st, ?_⟩, fun f s key e s0 st => ⟨fun r rs => ret_ends st, ?_⟩, ?_, ?_, ?_, ?_, ?_⟩
  · rintro hl rfl
    exact call_overflows st hl
  · rintro hl rfl
    exact ret_empty st hl
  · intro f s key e s0 v st hh he hv
    have hc := Starts.cur st
    have ha := Starts.alone st hh
    exact ⟨fun t h8 hlt ht => jmpi_target st (State.target_producer hc ha he hv h8 hlt ht),
      fun ho => jmpi_raises st (State.target_outside hc ha he hv ho)⟩
  · intro f s key e s0 v pos st hh he hb
    exact jmpi_target st (State.target_consumer (Starts.cur st) (Starts.alone st hh) he hb)
  · rintro f s key e s0 s1 v t st hh he hl rfl hv h8 hlt ht
    obtain ⟨hc, hpc, hpos, ha⟩ := State.returning_spec f.w1.isSome (Starts.cur st)
    refine calli_target st hl (State.target_producer hc (ha.trans (Starts.alone st hh)) he hv h8 hlt ?_)
    rw [hpc, hpos]
    exact ht
  · rintro f s key e s0 s1 v st hh hl rfl
    obtain ⟨hc, hpc, -, ha⟩ := State.returning_spec f.w1.isSome (Starts.cur st)
    refine ⟨fun he hv ho => calli_raises st hl (State.target_outside hc (ha.trans (Starts.alone st hh)) he hv ho), fun pos he hb => ?_⟩
    rw [← hpc] at hb
    exact calli_target st hl (State.target_consumer hc (ha.trans (Starts.alone st hh)) he hb)
  · exact fun f s key s0 st hl => calli_overflows st hl

/-! ## OUT and FOLLOW (R130) -/

/-- COND 1 of FOLLOW asks for an entry of 0, and COND 2 for one of 1. -/
theorem condTaken_follow {cond : BitVec 4} (h : cond = 1 ∨ cond = 2) (v : Word) :
    condTaken cond.toNat v = true ↔ (v = 0 ↔ cond = 1) := by
  rcases h with rfl | rfl <;> simp [condTaken]

theorem outAndFollowComplete : OutAndFollowComplete := by
  refine ⟨fun f s key s0 a s1 t st hh ha ht => ?_, fun f s key e s0 v pc pos st hh hb hcond => ?_⟩
  · have he : s1.curEng = .c := State.curEng_cell ((State.src_cur ha).trans (Starts.cur st))
    rw [State.curPc, he] at ht
    refine ends_of st rfl rfl (fun _ => rfl) (seqM_ok ?_)
    simp only [Starts.notInHandler st hh, ha, bind, Except.bind, he]
    exact ht
  · have hp := State.popBq_match (ok := fun x => x.kind == .out) hb (by simp)
    refine ends_of st rfl rfl (fun _ => rfl) ?_
    simp only [Starts.notInHandler st hh, hp, bind, Except.bind, condTaken_follow hcond,
      State.curPc_modEng (f := fun g => { g with bq := g.bq.tail }) (Starts.cur st) fun _ => rfl]

/-- Settles O20: calls, returns and jumps each move the return stack or learn a target, and then go. -/
theorem transfersOfControlComplete : Obligations.TransfersOfControlComplete := ⟨callsAndJumpsComplete, outAndFollowComplete⟩

end Sys2Proof.Machine
end

