-- ==== Sys2Proof/Proofs/RegionsAndEnd.lean ====
section
/-! SUPPORT. REGION with its restart record, FENCE.ENG, NOP and END (R131 to R133, R178), and what the frees at the end of
a region (R200, R300) leave of a cell. -/

namespace Sys2Proof.Machine

open Claims

/-! ## Frees at the end of a region (R200, R300) -/

/-- A change of the package that takes nothing from any cell but translations of its TLB. -/
def DropsTranslations (s t : State) : Prop := t.cur = s.cur ∧ ∀ k, ∃ l, t.cell k = { s.cell k with tlb := l }

section
variable {s t u : State}

theorem DropsTranslations.refl (s : State) : DropsTranslations s s := ⟨rfl, fun _ => ⟨_, rfl⟩⟩

theorem DropsTranslations.trans (h : DropsTranslations s t) (k : DropsTranslations t u) : DropsTranslations s u := by
  refine ⟨k.1.trans h.1, fun i => ?_⟩
  obtain ⟨l, hl⟩ := h.2 i
  obtain ⟨m, hm⟩ := k.2 i
  exact ⟨m, by rw [hm, hl]⟩

theorem DropsTranslations.of_cells (hc : t.cur = s.cur) (h : t.cells = s.cells) : DropsTranslations s t :=
  ⟨hc, fun k => ⟨(s.cell k).tlb, by rw [State.cell, h]; rfl⟩⟩

theorem DropsTranslations.foldl {β : Type} {f : State → β → State} (h : ∀ s b, DropsTranslations s (f s b)) (l : List β) (s : State) :
    DropsTranslations s (l.foldl f s) := by
  induction l generalizing s with
  | nil => exact .refl s
  | cons b l ih => exact (h s b).trans (ih _)

/-- A page table entry written leaves the cells. -/
theorem State.ptWrite_cells (s : State) (part va v table : Nat) (path : List (Nat × Nat)) :
    (s.ptWrite part va v table path).cells = s.cells ∧ (s.ptWrite part va v table path).cur = s.cur := by
  fun_induction State.ptWrite s part va v table path with
  | case1 => exact ⟨rfl, rfl⟩
  | case2 s table lo n at_ e t =>
    have ht : t.cells = s.cells ∧ t.cur = s.cur := by
      unfold t
      split <;> exact ⟨rfl, rfl⟩
    exact ht
  | case3 _ _ _ _ _ _ _ _ _ ih => exact ih
  | case4 => exact ⟨rfl, rfl⟩
  | case5 s table lo n rest hr at_ e hv hp f tail hf t u ih =>
    have hu : u.cells = s.cells ∧ u.cur = s.cur := by
      unfold u
      split <;> exact ⟨rfl, rfl⟩
    exact ⟨ih.1.trans hu.1, ih.2.trans hu.2⟩
  | case6 => exact ⟨rfl, rfl⟩

theorem State.setPage_drops (s : State) (ctx va size v : Nat) : DropsTranslations s (s.setPage ctx va size v) := by
  unfold State.setPage
  split
  · next c _ =>
    obtain ⟨h, hc⟩ := s.ptWrite_cells c.part va v c.root (ptPath size)
    exact .of_cells hc h
  · exact .refl s

/-- The values of a map changed one by one. -/
theorem FMap.find?_mapValues {α : Type} (m : FMap α) (f : Nat → α → α) (i : Nat) :
    FMap.find? (m.map fun e => (e.1, f e.1 e.2)) i = (FMap.find? m i).map (f i) := by
  induction m with
  | nil => rfl
  | cons e m ih =>
    rw [List.map_cons, FMap.find?, FMap.find?]
    split
    · next h => rw [h]; rfl
    · exact ih

/-- Cells that a test selects with their TLBs filtered. -/
theorem DropsTranslations.of_filter {p : Nat → Cell → Bool} {q : Nat × TlbEnt → Bool} (hc : t.cur = s.cur)
    (h : t.cells = s.cells.map fun e => if p e.1 e.2 then (e.1, { e.2 with tlb := e.2.tlb.filter q }) else e) : DropsTranslations s t := by
  have hm : t.cells = s.cells.map fun e => (e.1, if p e.1 e.2 then { e.2 with tlb := e.2.tlb.filter q } else e.2) := by
    rw [h]
    refine List.map_congr_left fun e _ => ?_
    split <;> rfl
  refine ⟨hc, fun k => ?_⟩
  rw [State.cell, State.cell, FMap.get, FMap.get, hm,
    FMap.find?_mapValues s.cells (fun k c => if p k c then { c with tlb := c.tlb.filter q } else c)]
  cases FMap.find? s.cells k with
  | none => exact ⟨_, rfl⟩
  | some c =>
    rw [Option.map_some, Option.getD_some, Option.getD_some]
    split <;> exact ⟨_, rfl⟩

theorem State.tlbInv_drops (s : State) (chips : List Nat) (ctx va len : Nat) : DropsTranslations s (s.tlbInv chips ctx va len) :=
  .of_filter (p := fun k c => chips.contains (keyChip k) && s.nodeCtx c.node == ctx) rfl rfl

theorem State.freeBuffer_drops (s : State) (id : Nat) : DropsTranslations s (s.freeBuffer id) := by
  unfold State.freeBuffer
  split
  · exact .refl s
  · next b _ =>
    split
    · exact .of_cells rfl rfl
    · dsimp only
      generalize (pagesOf b.va b.len).filter (fun p => !s.loose.contains (b.ctx, p)) = pages
      have hpages := DropsTranslations.foldl (fun s p => s.setPage_drops b.ctx p 0 0) pages s
      have hinv := hpages.trans (State.tlbInv_drops _ allChips b.ctx b.va b.len)
      exact hinv.trans (.of_cells rfl rfl)

theorem State.freeHeld_drops (s : State) (p : Ident → Bool) : DropsTranslations s (s.freeHeld p) := by
  unfold State.freeHeld
  exact (DropsTranslations.of_cells (s := s) rfl rfl).trans (.foldl (fun s (e : Ident × Nat) => s.freeBuffer_drops e.2) _ _)

theorem State.dropKept_drops (s : State) (node flatC flatD rinst : Nat) : DropsTranslations s (s.dropKept node flatC flatD rinst) := by
  unfold State.dropKept
  dsimp only
  refine DropsTranslations.trans ?_ (State.freeHeld_drops _ _)
  refine DropsTranslations.trans ?_ (DropsTranslations.foldl (fun s k => ?_) _ _)
  · exact .of_cells rfl rfl
  · split
    · exact s.freeBuffer_drops _
    · exact .refl s

/-- The executing cell after such a change. -/
theorem DropsTranslations.core {key : Nat} {e : EngTag} (h : DropsTranslations s t) (hc : s.cur = .cell key e) :
    ∃ l, t.core = { s.core with tlb := l } := by
  rw [State.core_cell hc, State.core_cell (h.1.trans hc)]
  exact h.2 key

end

/-! ## The checks of REGION (R131) -/

section
variable {c : Cell} {cls : DieClass}

theorem Cell.regionCause_open {g : EngTag} (hg : g ∈ c.live cls) (h : (c.eng g).rstack ≠ [] ∨ (c.eng g).lstack ≠ []) :
    c.regionCause cls = some 0x8C := by
  unfold Cell.regionCause
  refine if_pos (List.any_eq_true.2 ⟨g, hg, ?_⟩)
  simpa [List.isEmpty_iff] using h

/-- What REGION finds where no call and no loop is open: whether an entry of a queue is still held. -/
theorem Cell.regionCause_closed (h : ∀ g ∈ c.live cls, (c.eng g).rstack = [] ∧ (c.eng g).lstack = []) :
    c.regionCause cls = if (∃ g ∈ c.live cls, (c.eng g).bq ≠ [] ∨ (c.eng g).cq ≠ []) ∨ c.qx ≠ [] ∨ c.qc ≠ [] ∨ c.qa ≠ [] ∨ c.bqHeld ≠ []
      then some 0x8E else none := by
  have hopen : ((c.live cls).any fun e => !(c.eng e).rstack.isEmpty || !(c.eng e).lstack.isEmpty) = false := by
    rw [List.any_eq_false]
    intro g hg
    simp [h g hg]
  unfold Cell.regionCause
  simp only [hopen, Bool.false_eq_true, if_false]
  refine if_congr ?_ rfl rfl
  simp only [Bool.or_eq_true, Bool.not_eq_true', List.any_eq_true, List.isEmpty_eq_false_iff]
  rw [or_comm, or_assoc, or_assoc]

end

/-! ## The state behind a REGION (R131, R394) -/

/-- A cell with every token counter and every count of words reset. -/
def Cell.tokensReset (c : Cell) : Cell := EngTag.all.foldl (fun (c : Cell) e => c.setEng e { c.eng e with tok := [], ordinal := 0 }) c

/-- An engine with its token counters and its count of words reset. -/
def Eng.tokensReset (g : Eng) : Eng := { g with tok := [], ordinal := 0 }

theorem Cell.tokensReset_eq (c : Cell) : c.tokensReset = { c with
    engC := c.engC.tokensReset, engA := c.engA.tokensReset, engX := c.engX.tokensReset, engM := c.engM.tokensReset,
    engW := c.engW.tokensReset, engK := c.engK.tokensReset } := rfl

theorem Cell.tokensReset_eng (c : Cell) (g : EngTag) : c.tokensReset.eng g = (c.eng g).tokensReset := by
  rw [Cell.tokensReset_eq]
  cases g <;> rfl

theorem Cell.tokensReset_restarting (c : Cell) : c.tokensReset.restarting = c.restarting := by rw [Cell.tokensReset_eq]

/-- A reset of the tokens leaves what a restart record holds (R131). -/
theorem Cell.tokensReset_spec (c : Cell) : c.tokensReset.rinst = c.rinst ∧ c.tokensReset.record = c.record
    ∧ c.tokensReset.engC.pc = c.engC.pc ∧ c.tokensReset.x = c.x ∧ c.tokensReset.a = c.a ∧ c.tokensReset.fpstat = c.fpstat
    ∧ c.tokensReset.mstat = c.mstat ∧ c.tokensReset.winslip = c.winslip ∧ c.tokensReset.padval = c.padval
    ∧ c.tokensReset.ordwatch = c.ordwatch := by
  rw [Cell.tokensReset_eq]
  exact ⟨rfl, rfl, rfl, rfl, rfl, rfl, rfl, rfl, rfl, rfl⟩

theorem State.recordOf_spec (t : State) : t.recordOf.rinst = t.core.rinst + 1 ∧ t.recordOf.rpc = t.core.engC.pc
    ∧ t.recordOf.x = t.core.x ∧ t.recordOf.a = t.core.a ∧ t.recordOf.fpstat = t.core.fpstat ∧ t.recordOf.mstat = t.core.mstat
    ∧ t.recordOf.win = t.core.winslip ∧ t.recordOf.padval = t.core.padval ∧ t.recordOf.ordwatch = t.core.ordwatch :=
  ⟨rfl, rfl, rfl, rfl, rfl, rfl, rfl, rfl, rfl⟩

theorem Cell.restarting_eng (c : Cell) (b : Bool) (g : EngTag) : ({ c with restarting := b } : Cell).eng g = c.eng g := by
  cases g <;> rfl

theorem Cell.recorded_eng (c : Cell) (r : Record) (n : Nat) (g : EngTag) :
    ({ c with record := r, rinst := n } : Cell).eng g = c.eng g := by
  cases g <;> rfl

theorem Cell.tlb_eng (c : Cell) (l : FMap TlbEnt) (g : EngTag) : ({ c with tlb := l } : Cell).eng g = c.eng g := by
  cases g <;> rfl

/-- What a REGION makes of the state: the tokens reset and, outside a restart, the restart record written. -/
def State.regioned (s : State) : State :=
  let c := s.core.tokensReset
  let s := s.setCore c
  if c.restarting then s.setCore { c with restarting := false }
  else
    let s := s.dropKept c.node c.flatC c.flatD c.rinst
    s.setCore { s.core with record := s.recordOf, rinst := c.rinst + 1 }

section
variable {s : State} {key : Nat} {e : EngTag}

theorem State.regioned_restart (hc : s.cur = .cell key e) (hr : s.core.restarting = true) :
    s.regioned.core = { s.core.tokensReset with restarting := false } := by
  unfold State.regioned
  dsimp only
  rw [if_pos ((Cell.tokensReset_restarting _).trans hr)]
  exact State.core_setCore ((s.setCore_cur _).trans hc) _

/-- Outside a restart nothing of the cell changes but its tokens, its translations and its restart record. -/
theorem State.regioned_record (hc : s.cur = .cell key e) (hr : s.core.restarting = false) :
    ∃ (t : State) (l : FMap TlbEnt), t.cur = .cell key e ∧ t.core = { s.core.tokensReset with tlb := l }
      ∧ s.regioned.core = { t.core with record := t.recordOf, rinst := s.core.tokensReset.rinst + 1 } := by
  have hc' : (s.setCore s.core.tokensReset).cur = .cell key e := (s.setCore_cur _).trans hc
  have hd := (s.setCore s.core.tokensReset).dropKept_drops s.core.tokensReset.node s.core.tokensReset.flatC s.core.tokensReset.flatD
    s.core.tokensReset.rinst
  have hcur := hd.1.trans hc'
  obtain ⟨l, hl⟩ := hd.core hc'
  rw [State.core_setCore hc] at hl
  refine ⟨_, l, hcur, hl, ?_⟩
  unfold State.regioned
  dsimp only
  rw [if_neg (by rw [Cell.tokensReset_restarting, hr]; decide)]
  exact State.core_setCore hcur _

theorem State.regioned_counter (hc : s.cur = .cell key e) (g : EngTag) (k : Nat) : (s.regioned.core.eng g).counter k = 0 := by
  have heng : s.regioned.core.eng g = s.core.tokensReset.eng g := by
    cases hr : s.core.restarting with
    | true => rw [State.regioned_restart hc hr, Cell.restarting_eng]
    | false =>
      obtain ⟨t, l, -, ht, hreg⟩ := State.regioned_record hc hr
      rw [hreg, Cell.recorded_eng, ht, Cell.tlb_eng]
  rw [heng, Cell.tokensReset_eng]
  rfl

end

/-! ## REGION and FENCE.ENG (R131, R178) -/

section
variable {f : Rrr} {s s0 : State} {key : Nat} {e : EngTag}

/-- A body that goes on only with C, with every engine at the word and, where asked, without asynchronous work. -/
theorem fence_waits {async : Bool} {i : Instr} (st : Starts i s key e s0) (hh : i.body.hdr = some f.hdr)
    (hx : ∀ s, exec i s = fence async f s) (hn : s.core.handler = none)
    (hw : e ≠ .c ∨ s0.allHere = false ∨ async = true ∧ s0.core.jobs ≠ []) : Waits i s s0 10 := by
  refine waits_of st hh hx ?_
  simp only [Starts.notInHandler st hn, bind, Except.bind, Starts.curEng st]
  by_cases he : e = .c
  · rw [if_neg (not_not_intro he), if_pos]
    rcases hw with h | h | ⟨h1, h2⟩
    · exact absurd he h
    · simp [h]
    · simp [h1, h2]
  · rw [if_pos he]

theorem fence_ends {async : Bool} {i : Instr} (st : Starts i s key .c s0) (hh : i.body.hdr = some f.hdr)
    (hwide : i.body.w1.isSome = f.w1.isSome) (hx : ∀ s, exec i s = fence async f s) (hn : s.core.handler = none)
    (ha : s0.allHere = true) (hj : async = true → s0.core.jobs = []) : Ends i s (s0.releaseOthers f.w1.isSome) .seq := by
  refine ends_of st hh hwide hx ?_
  have hgo : (!s0.allHere || (async && !s0.core.jobs.isEmpty)) = false := by
    cases async with
    | true => simp [ha, hj rfl]
    | false => simp [ha]
  simp only [Starts.notInHandler st hn, bind, Except.bind, Starts.curEng st, hgo, Bool.false_eq_true, if_false, ne_eq, not_true_eq_false]

theorem region_waits (st : Starts (.region f) s key e s0) (hn : s.core.handler = none)
    (hw : e ≠ .c ∨ s0.allHere = false ∨ s0.core.jobs ≠ []) : Waits (.region f) s s0 10 := by
  refine waits_of st rfl (fun _ => rfl) ?_
  simp only [Starts.notInHandler st hn, bind, Except.bind, Starts.curEng st]
  by_cases he : e = .c
  · rw [if_neg (not_not_intro he), if_pos]
    rcases hw with h | h | h
    · exact absurd he h
    · simp [h]
    · simp [h]
  · rw [if_pos he]

theorem region_raises {code : BitVec 8} (st : Starts (.region f) s key .c s0) (hn : s.core.handler = none) (ha : s0.allHere = true)
    (hj : s0.core.jobs = []) (hr : s0.core.regionCause s0.curClass = some code) : Raises (.region f) s { code := code } := by
  refine raises_of st rfl (fun _ => rfl) ?_
  simp only [Starts.notInHandler st hn, bind, Except.bind, Starts.curEng st, ha, hj, List.isEmpty_nil, Bool.not_true, Bool.or_self,
    Bool.false_eq_true, if_false, ne_eq, not_true_eq_false, hr]
  rfl

theorem region_ends (st : Starts (.region f) s key .c s0) (hn : s.core.handler = none) (ha : s0.allHere = true)
    (hj : s0.core.jobs = []) (hr : s0.core.regionCause s0.curClass = none) :
    Ends (.region f) s (s0.regioned.releaseOthers f.w1.isSome) .seq := by
  refine ends_of st rfl rfl (fun _ => rfl) ?_
  simp only [Starts.notInHandler st hn, bind, Except.bind, Starts.curEng st, ha, hj, List.isEmpty_nil, Bool.not_true, Bool.or_self,
    Bool.false_eq_true, if_false, ne_eq, not_true_eq_false, hr]
  rfl

end

theorem regionsAndFencesComplete : RegionsAndFencesComplete := by
  refine ⟨fun f s key e s0 i hi st hn => ?_, fun f s key s0 st hn ha => ?_, fun f s key s0 st hn ha hj => ?_,
    fun f s key s0 st hn ha hj hs hq hx hc hqa hb => ?_, fun f s key s0 g st hn ha hj hg ho => ?_,
    fun f s key s0 st hn ha hj hs hq => ?_⟩
  · simp only [List.mem_cons, List.not_mem_nil, or_false] at hi
    rcases hi with rfl | rfl | rfl
    · exact ⟨fun he => region_waits st hn (.inl he), fun _ ha => region_waits st hn (.inr (.inl ha)),
        fun _ _ hj => region_waits st hn (.inr (.inr hj))⟩
    · exact ⟨fun he => fence_waits st rfl (fun _ => rfl) hn (.inl he), fun _ ha => fence_waits st rfl (fun _ => rfl) hn (.inr (.inl ha)),
        fun _ hne => absurd rfl hne⟩
    · exact ⟨fun he => fence_waits st rfl (fun _ => rfl) hn (.inl he), fun _ ha => fence_waits st rfl (fun _ => rfl) hn (.inr (.inl ha)),
        fun _ _ hj => fence_waits st rfl (fun _ => rfl) hn (.inr (.inr ⟨rfl, hj⟩))⟩
  · exact fence_ends st rfl rfl (fun _ => rfl) hn ha nofun
  · exact fence_ends st rfl rfl (fun _ => rfl) hn ha fun _ => hj
  · have hcur := Starts.cur st
    have hcause : s0.core.regionCause s0.curClass = none := by
      rw [Cell.regionCause_closed hs, if_neg]
      rintro (⟨g, hg, h⟩ | h | h | h | h)
      · obtain ⟨h1, h2⟩ := hq g hg
        rcases h with h | h
        exacts [h h1, h h2]
      exacts [h hx, h hc, h hqa, h hb]
    refine ⟨s0.regioned, region_ends st hn ha hj hcause, State.regioned_counter hcur, fun hr => ?_, fun hr => ?_⟩
    · rw [State.regioned_restart hcur hr]
      obtain ⟨hri, hrec, -⟩ := s0.core.tokensReset_spec
      exact ⟨hrec, hri⟩
    · obtain ⟨t, l, htc, ht, hreg⟩ := State.regioned_record hcur hr
      obtain ⟨h1, h2, h3, h4, h5, h6, h7, h8, h9⟩ := t.recordOf_spec
      obtain ⟨k1, -, k2, k3, k4, k5, k6, k7, k8, k9⟩ := s0.core.tokensReset_spec
      have hpc : s0.curPc = s0.core.engC.pc := by rw [State.curPc, State.curEng_cell hcur]; rfl
      rw [ht] at h1 h2 h3 h4 h5 h6 h7 h8 h9
      rw [hreg, hpc]
      exact ⟨congrArg (· + 1) k1, h1.trans (congrArg (· + 1) k1), h2.trans k2, h3.trans k3, h4.trans k4, h5.trans k5, h6.trans k6,
        h7.trans k7, h8.trans k8, h9.trans k9⟩
  · exact region_raises st hn ha hj (Cell.regionCause_open hg ho)
  · exact region_raises st hn ha hj ((Cell.regionCause_closed hs).trans (if_pos hq))

/-! ## END (R132) -/

/-- A stamp whose drain can no longer come has none (R441). -/
def Cell.stampsEnded (c : Cell) : Cell :=
  { c with stamps := c.stamps.map fun (x : Stamp) => if x.drain.isNone then { x with noDrain := true } else x }

/-- An engine at END. -/
def Eng.ended (g : Eng) : Eng := { g with done := true, lstack := [], rstack := [], bq := [], cq := [] }

/-- The cell at an END, which ends polling (R357). -/
def State.endedCell (s : State) : Cell :=
  let c := if s.curEng = .m then s.core.stampsEnded else s.core
  { c with pollSince := s.tick }

/-- What END makes of the state. -/
def State.ended (s : State) : State := (s.setCore s.endedCell).modEng Eng.ended

theorem Cell.stampsEnded_eng (c : Cell) (g : EngTag) : c.stampsEnded.eng g = c.eng g := by cases g <;> rfl

theorem Cell.pollSince_eng (c : Cell) (t : Nat) (g : EngTag) : ({ c with pollSince := t } : Cell).eng g = c.eng g := by
  cases g <;> rfl

theorem State.endedCell_eng (s : State) (g : EngTag) : s.endedCell.eng g = s.core.eng g := by
  refine (Cell.pollSince_eng _ _ g).trans ?_
  split
  · exact Cell.stampsEnded_eng _ g
  · rfl

section
variable {s s0 : State} {key : Nat} {e : EngTag}

theorem end_ends {f : Rrr} (st : Starts (.end_ f) s key e s0) (hn : s.core.handler = none) : Ends (.end_ f) s s0.ended .seq := by
  refine ends_of st rfl rfl (fun _ => rfl) ?_
  simp only [Starts.cur st, Starts.notInHandler st hn, bind, Except.bind]
  rfl

/-- END stops its engine and leaves every other. -/
theorem State.ended_eng (hc : s.cur = .cell key e) (g : EngTag) :
    s.ended.core.eng g = if g = e then (s.core.eng e).ended else s.core.eng g := by
  rw [State.ended, State.core_modEng ((s.setCore_cur _).trans hc), State.core_setCore hc]
  split
  · next h => rw [h, Cell.eng_setEng_same, State.endedCell_eng]
  · next h => rw [Cell.eng_setEng_ne _ _ h, State.endedCell_eng]

theorem State.ended_same (hc : s.cur = .cell key e) : SameButCell s s.ended key :=
  SameButCell.trans (State.setCore_same hc _) (State.modEng_same ((s.setCore_cur _).trans hc) _)

theorem Starts.same {i : Instr} (st : Starts i s key e s0) : SameButCell s s0 key := by
  obtain ⟨h, -, hi, rfl⟩ := st
  exact State.modEng_same hi.cur _

end

/-! ## An engine at END stays there -/

section
variable (c : Cell)

theorem Cell.rotate_eng (ls : List LoopEnt) (es : List (LoopEnt × Nat × Bool)) (g : EngTag) : (c.rotate ls es).eng g = c.eng g := by
  have hoff : ∀ (d : Cell) (o : Nat), ({ d with vrotOff := o } : Cell).eng g = d.eng g := fun _ _ => by cases g <;> rfl
  have hopen : ∀ (d : Cell) (b : Bool), ({ d with stageOpen := b } : Cell).eng g = d.eng g := fun _ _ => by cases g <;> rfl
  unfold Cell.rotate
  induction es generalizing c with
  | nil => rfl
  | cons x es ih =>
    rw [List.foldl_cons, ih]
    dsimp only
    split
    · rfl
    · have hv : (if c.vrotSize ≠ 0 then { c with vrotOff := (c.vrotOff + x.2.1) % c.vrotSize } else c).eng g = c.eng g := by
        split
        · exact hoff _ _
        · rfl
      split
      · rw [Cell.setStages_eng, hv]
      · rw [hopen, Cell.clearStages, Cell.setStages_eng, hv]

theorem Cell.pass_done (cls : DieClass) (e : EngTag) (pc : Nat) (own : Bool) (g : EngTag) :
    ((c.pass cls e pc own).eng g).done = (c.eng g).done := by
  by_cases hg : g = e
  · subst hg
    cases hh : c.handler with
    | none => rw [Cell.pass_eng_same _ _ _ _ _ hh]; rfl
    | some h =>
      unfold Cell.pass
      simp only [hh, Option.isSome_some, if_true, Cell.eng_setEng_same]
  · rw [Cell.pass_eng_ne _ _ _ _ hg]

theorem Cell.advance_done (cls : DieClass) (e : EngTag) (n : Next) (wide own : Bool) (g : EngTag) :
    ((c.advance cls e n wide own).eng g).done = (c.eng g).done := by
  have hset : ∀ ls, ((c.setEng e { c.eng e with lstack := ls }).eng g).done = (c.eng g).done := fun ls => by
    by_cases hg : g = e
    · rw [hg, Cell.eng_setEng_same]
    · rw [Cell.eng_setEng_ne _ _ hg]
  have hstep : ∀ ls pc es, (((if e = .x then ((c.setEng e { c.eng e with lstack := ls }).settleVrot ((c.eng e).pos + 1)).rotate ls es
      else c.setEng e { c.eng e with lstack := ls }).pass cls e pc own).eng g).done = (c.eng g).done := fun ls pc es => by
    rw [Cell.pass_done]
    split
    · rw [Cell.rotate_eng, Cell.settleVrot_eng, hset]
    · exact hset ls
  cases n with
  | seq => exact hstep _ _ _
  | goto pc => exact hstep _ _ _
  | jump pc => exact c.pass_done cls e pc own g
  | stay => rfl

end

/-- Retirement moves no engine to END nor from it. -/
theorem State.retire_done {s : State} {key : Nat} {e : EngTag} {h : Hdr} (wide : Bool) (n : Next) (hc : s.cur = .cell key e)
    (hs : h.sig = none) (g : EngTag) : ((s.retire h wide n).core.eng g).done = (s.core.eng g).done := by
  have hreach : ∀ (d : Cell), (if e = .m then { d with reachM := s.tick } else d).eng g = d.eng g := fun d => by
    split
    · cases g <;> rfl
    · rfl
  have hord : (if h.eng = 7 ∧ e = .c then s.core.noteOrd else s.core).eng g = s.core.eng g := by
    split
    · exact Cell.noteOrd_eng _ g
    · rfl
  rw [State.retire_core wide n hc hs]
  dsimp only
  generalize hd : Cell.advance (if h.eng = 7 ∧ e = .c then s.core.noteOrd else s.core) s.curClass e n wide true = d
  obtain ⟨q, hq⟩ := Cell.bqEnter_eng s.curClass s.curCode (if e = .m then { d with reachM := s.tick } else d).bqHeld
    (if e = .m then { d with reachM := s.tick } else d) g
  rw [hq, hreach, ← hd, Cell.advance_done, hord]

theorem endStopsTheEngine : EndStopsTheEngine := by
  intro f s key e s0 st hn
  have hc := Starts.cur st
  have heng := State.ended_eng hc
  have hself : s0.ended.core.eng e = (s0.core.eng e).ended := (heng e).trans (if_pos rfl)
  have hcur : s0.ended.cur = .cell key e := (SameButCell.cur_eq (State.ended_same hc)).trans hc
  refine ⟨s0.ended, end_ends st hn, SameButCell.trans (Starts.same st) (State.ended_same hc), ?_, ?_, ?_, ?_, ?_,
    fun g hg => (heng g).trans (if_neg hg), ?_⟩
  · rw [hself]; rfl
  · rw [hself]; rfl
  · rw [hself]; rfl
  · rw [hself]; rfl
  · rw [hself]; rfl
  · rintro c h wide n rfl hs
    have hd : ((s0.ended.retire h wide n).core.eng e).done = true := by
      rw [State.retire_done wide n hcur hs, hself]
      rfl
    simp only [Cell.mayRun, hd, Bool.not_true, Bool.and_false, Bool.false_and]

theorem nopHasNoEffect : NopHasNoEffect := fun _ _ _ _ _ st => ends_of st rfl rfl (fun _ => rfl) rfl

/-- Settles O21: REGION and the fences wait or go on by their checks, and END marks its engine for every later step. -/
theorem regionsFencesNopAndEndComplete : Obligations.RegionsFencesNopAndEndComplete :=
  ⟨regionsAndFencesComplete, nopHasNoEffect, endStopsTheEngine⟩

end Sys2Proof.Machine
end

