-- ==== Sys2Proof/Proofs/Traps.lean ====
section
/-! SUPPORT. What becomes of a cause (R145, R146, R149, R409), and the words TRAP, BKPT and ERET (R140, R148). -/

namespace Sys2Proof.Machine

open Claims

/-! ## A cause delivered on a cell -/

section
variable {s : State} {c : Cell} {cls : DieClass} {key tick : Nat} {e : EngTag} {r : Raise} {t : Cause} {w : BitVec 8}

theorem State.deliver_cell (hc : s.cur = .cell key e) : s.deliver r
    = s.setCore (s.core.takeCause s.curClass s.tick (r.at_ e (s.core.eng e).pc (s.core.eng e).pos) (s.cWait key)) := by
  simp only [State.deliver, State.setCore, State.core, State.curClass, hc]

/-- Where a handler may take the cause, C enters it once no other engine stands in a word that must complete first (R146). -/
theorem Cell.takeCause_enters (ht : trapClass t.code = true) (hv : c.tvec ≠ 0) (hh : c.handler = none) (hf : c.fatals = [])
    (hp : c.pendTrap = none) (ho : ∀ g ∈ c.live cls, g ≠ t.eng → (c.eng g).outside = false) :
    c.takeCause cls tick t w = c.trapEntry t w := by
  have hall : ((c.live cls).all fun e => e == t.eng || !(c.eng e).outside) = true := by
    rw [List.all_eq_true]
    intro g hg
    by_cases hne : g = t.eng
    · simp [hne]
    · simp [ho g hg hne]
  simp only [Cell.takeCause, ht, hv, hh, hf, hp, hall, Option.isNone_none, List.isEmpty_nil, Bool.not_true, Bool.false_eq_true,
    ne_eq, not_false_eq_true, and_self, if_true, if_false]

/-- A cause that no handler may take is a fatal one (R409). -/
theorem Cell.takeCause_fatal (h : trapClass t.code = false ∨ c.tvec = 0 ∨ c.handler.isSome = true) :
    c.takeCause cls tick t w = { c with fatals := (tick, t) :: c.fatals } := by
  refine if_neg ?_
  rintro ⟨h1, h2, h3⟩
  rcases h with h | h | h
  · rw [h] at h1; cases h1
  · exact h2 h
  · rw [Option.isNone_iff_eq_none] at h3
    rw [h3] at h; cases h

/-- A trap gives way to a fatal cause that stands (R149). -/
theorem Cell.takeCause_gives_way (ht : trapClass t.code = true) (hv : c.tvec ≠ 0) (hh : c.handler = none) (hf : c.fatals ≠ []) :
    c.takeCause cls tick t w = c := by
  unfold Cell.takeCause
  rw [if_pos ⟨ht, hv, by rw [hh]; rfl⟩, if_pos (by simpa [List.isEmpty_iff] using hf)]

end

/-! ## Trap entry (R146) -/

/-- A word's WAIT given back changes no more than token counters. -/
theorem Eng.giveWait_shape (g : Eng) (w : BitVec 8) : ∃ t, g.giveWait w = { g with tok := t } := by
  unfold Eng.giveWait
  generalize List.range 8 = l
  induction l generalizing g with
  | nil => exact ⟨_, rfl⟩
  | cons i l ih =>
    rw [List.foldl_cons]
    split
    · obtain ⟨t, ht⟩ := ih (g.setCounter i (g.counter i + 1))
      exact ⟨t, ht⟩
    · exact ih g

/-- The handler that an entry notes: the trapped engine and its word, and C as it stood. -/
def Cell.handlerOf (c : Cell) (t : Cause) : Handler :=
  ⟨t.eng, t.pc, c.engC.pc, c.engC.rstack, c.engC.lstack, c.engC.done⟩

/-- An engine moved to its handler's first word. -/
def Cell.atHandler (c : Cell) (g : Eng) : Eng :=
  { g with pc := c.tvec.toNat, rstack := [], lstack := [], done := false, issued := false, waitVal := none }

/-- Trap entry changes no more than the trap registers, the handler's note and C. -/
theorem Cell.trapEntry_shape (c : Cell) (t : Cause) (w : BitVec 8) : ∃ k, c.trapEntry t w = { c with
    epc := BitVec.ofNat 64 (t.pc % 2 ^ 57 / 8 * 8), ecause := BitVec.ofNat 64 t.info, eaddr := t.addr,
    handler := some (c.handlerOf t), pendTrap := none, engC := c.atHandler { c.engC with tok := k } } := by
  obtain ⟨k, hk⟩ := c.engC.giveWait_shape w
  unfold Cell.trapEntry
  dsimp only
  split
  · rw [hk]
    exact ⟨k, rfl⟩
  · exact ⟨c.engC.tok, rfl⟩

theorem trapEntrySavesAndEnters : TrapEntrySavesAndEnters := by
  intro s key e r hc ht hv hh hf hp ho
  have hd := State.deliver_cell (r := r) hc
  rw [Cell.takeCause_enters (t := r.at_ e (s.core.eng e).pc (s.core.eng e).pos) ht hv hh hf hp ho] at hd
  obtain ⟨k, hk⟩ := s.core.trapEntry_shape (r.at_ e (s.core.eng e).pc (s.core.eng e).pos) (s.cWait key)
  rw [hk] at hd
  rw [hd]
  refine ⟨State.setCore_same hc _, ?_⟩
  rintro c rfl
  rw [State.core_setCore hc]
  refine ⟨?_, BitVec.toNat_ofNat .., rfl, rfl, rfl, rfl, rfl, rfl,
    fun g hg => match g, hg with | .a, _ | .x, _ | .m, _ | .w, _ | .k, _ => rfl, rfl, rfl, rfl, rfl, rfl, rfl, rfl, rfl, rfl⟩
  have hlt : (s.core.eng e).pc % 2 ^ 57 / 8 * 8 < 2 ^ 64 := by omega
  exact (BitVec.toNat_ofNat ..).trans (Nat.mod_eq_of_lt hlt)

theorem otherCausesAreFatal : OtherCausesAreFatal := by
  intro s key e r hc
  have hd := State.deliver_cell (r := r) hc
  refine ⟨fun h => ?_, fun ht hv hh hf => ?_⟩
  · rw [Cell.takeCause_fatal (t := r.at_ e (s.core.eng e).pc (s.core.eng e).pos) h] at hd
    refine ⟨hd, ?_⟩
    rw [hd, State.core_setCore hc]
    have hmine : (r.at_ e (s.core.eng e).pc (s.core.eng e).pos).eng = e := rfl
    simp [Cell.mayRun, hmine]
  · rw [Cell.takeCause_gives_way (t := r.at_ e (s.core.eng e).pc (s.core.eng e).pos) ht hv hh hf] at hd
    exact hd

theorem trapClassCodes : TrapClassCodes := by
  intro c
  simp only [trapClass, Bool.or_eq_true, Bool.and_eq_true, decide_eq_true_eq, beq_iff_eq]

/-- Settles O22: `takeCause` has one lemma for each fate of a cause. -/
theorem causesAreTaken : Obligations.CausesAreTaken := ⟨trapEntrySavesAndEnters, otherCausesAreFatal, trapClassCodes⟩

/-! ## TRAP and BKPT (R140) -/

theorem trapAndBreakpointWords : TrapAndBreakpointWords := by
  refine ⟨fun f s key e s0 a s1 st ha => raises_of st rfl (fun _ => rfl) ?_, fun f s key e s0 st => raises_of st rfl (fun _ => rfl) rfl⟩
  simp only [ha, bind, Except.bind]
  rfl

/-! ## The return from the handler (R148) -/

/-- A cell whose C stands again where it stopped for the handler. -/
def Cell.afterHandler (c : Cell) (h : Handler) : Cell :=
  { c with
    handler := none
    engC := { c.engC with pc := h.cStop, rstack := h.cRstack, lstack := h.cLstack, done := h.cDone, reason := 0, issued := false } }

/-- The trapped engine as it resumes at EPC: behind its word, unless EPC names that word. -/
def Cell.resumed (c : Cell) (h : Handler) : Eng :=
  { (c.afterHandler h).eng h.trapEng with
    pc := c.epc.toNat
    pos := ((c.afterHandler h).eng h.trapEng).pos + (if c.epc.toNat = h.trapPc then 0 else 1) }

/-- A return changes the trapped engine, and what `afterHandler` says of C. -/
theorem Cell.trapReturn_shape (c : Cell) (h : Handler) :
    ∃ p, c.trapReturn h = ({ c.afterHandler h with path := p } : Cell).setEng h.trapEng (c.resumed h) := by
  have hpos : (if (c.epc.toNat != h.trapPc) = true then ((c.afterHandler h).eng h.trapEng).pos + 1
      else ((c.afterHandler h).eng h.trapEng).pos)
      = ((c.afterHandler h).eng h.trapEng).pos + (if c.epc.toNat = h.trapPc then 0 else 1) := by
    by_cases he : c.epc.toNat = h.trapPc <;> simp [he]
  unfold Cell.resumed
  rw [← hpos]
  unfold Cell.trapReturn
  dsimp only
  split
  · exact ⟨_, rfl⟩
  · exact ⟨(c.afterHandler h).path, rfl⟩

section
variable {c : Cell} {h : Handler}

theorem Cell.afterHandler_eng {g : EngTag} (hg : g ≠ .c) : (c.afterHandler h).eng g = c.eng g :=
  match g, hg with | .a, _ | .x, _ | .m, _ | .w, _ | .k, _ => rfl

/-- A return ends handler mode and leaves the registers, the scratchpad and EPC. -/
theorem Cell.trapReturn_frame : (c.trapReturn h).handler = none ∧ (c.trapReturn h).x = c.x ∧ (c.trapReturn h).a = c.a
    ∧ (c.trapReturn h).spad = c.spad ∧ (c.trapReturn h).epc = c.epc := by
  obtain ⟨p, hp⟩ := c.trapReturn_shape h
  rw [hp, Cell.setEng_handler, Cell.setEng_x, Cell.setEng_a, Cell.setEng_spad, Cell.setEng_epc]
  exact ⟨rfl, rfl, rfl, rfl, rfl⟩

theorem Cell.trapReturn_eng (g : EngTag) :
    (c.trapReturn h).eng g = if g = h.trapEng then c.resumed h else (c.afterHandler h).eng g := by
  obtain ⟨p, hp⟩ := c.trapReturn_shape h
  rw [hp]
  split
  · next hg => rw [hg, Cell.eng_setEng_same]
  · next hg => rw [Cell.eng_setEng_ne _ _ hg, Cell.path_eng]

/-- C's stacks and its END are those from before the handler, whichever engine had trapped. -/
theorem Cell.trapReturn_engC : (c.trapReturn h).engC.rstack = h.cRstack ∧ (c.trapReturn h).engC.lstack = h.cLstack
    ∧ (c.trapReturn h).engC.done = h.cDone ∧ (h.trapEng ≠ .c → (c.trapReturn h).engC.pc = h.cStop) := by
  have heng : (c.trapReturn h).engC = _ := c.trapReturn_eng (h := h) .c
  rw [heng]
  split
  · next hg =>
    rw [Cell.resumed, ← hg]
    exact ⟨rfl, rfl, rfl, fun hne => absurd rfl hne⟩
  · exact ⟨rfl, rfl, rfl, fun _ => rfl⟩

end

theorem trapReturnRestores : TrapReturnRestores := by
  refine ⟨fun f s key e s0 st hh => raises_of st rfl (fun _ => rfl) ?_, fun f s key s0 h st hh => ?_⟩
  · rw [Starts.handler st, hh]
    rfl
  · have hc := Starts.cur st
    have hh0 : s0.core.handler = some h := (Starts.handler st).trans hh
    obtain ⟨g, hcore⟩ := Starts.core st
    refine ⟨s0.setCore (s0.core.trapReturn h), ends_of st rfl rfl (fun _ => rfl) (by rw [hh0]),
      State.setCore_same hc _, ?_⟩
    obtain ⟨h1, h2, h3, h4, h5⟩ := s0.core.trapReturn_frame (h := h)
    obtain ⟨k1, k2, k3, k4⟩ := s0.core.trapReturn_engC (h := h)
    have heng := s0.core.trapReturn_eng (h := h)
    have hepc : s0.core.epc = s.core.epc := by rw [hcore, Cell.setEng_epc]
    have hother : ∀ p, p ≠ .c → (s0.core.afterHandler h).eng p = s.core.eng p := fun p hp => by
      rw [Cell.afterHandler_eng hp, hcore, Cell.eng_setEng_ne _ _ hp]
    have htrap := (heng h.trapEng).trans (if_pos rfl)
    rw [State.core_setCore hc]
    refine ⟨h1, ?_, fun hne => ⟨?_, k4 hne⟩, k1, k2, k3, fun p hp hpt => ?_, ?_, ?_, ?_, ?_⟩
    · rw [htrap, Cell.resumed, hepc]
    · rw [htrap, Cell.resumed, hother _ hne, hepc]
    · rw [heng, if_neg hpt, hother p hp]
    · rw [h2, hcore, Cell.setEng_x]
    · rw [h3, hcore, Cell.setEng_a]
    · rw [h4, hcore, Cell.setEng_spad]
    · rw [h5, hepc]

/-- Settles O23: TRAP and BKPT end in their causes, and ERET in `trapReturn`, whose engines are told one by one. -/
theorem trapWordsAndReturn : Obligations.TrapWordsAndReturn := ⟨trapAndBreakpointWords, trapReturnRestores⟩

end Sys2Proof.Machine
end

