-- ==== Sys2Proof/Proofs/TickFrames.lean ====
section
/-! SUPPORT. What the accesses of a word leave of the tick: reading an operand, the checks of an access (R154), its turn at the
home (R311, R364) and a store (R155, R308) take no time of their own. -/

namespace Sys2Proof.Machine

variable {s t u : State} {key chip : Nat}

/-- A computation mapped that succeeds, from what it gave. -/
theorem ok_of_map {α β : Type} {r : M α} {f : α → β} {b : β} (h : r.map f = .ok b) : ∃ a, r = .ok a ∧ b = f a := by
  cases r with
  | ok a => cases h; exact ⟨a, rfl, rfl⟩
  | error x => cases h

/-! ## Operands -/

/-- A popped operand is taken from a queue of the core; nothing else changes. -/
theorem State.popQ_shape {w : Word} (h : s.popQ = .ok (w, t)) : ∃ c, t = s.setCore c := by
  unfold State.popQ at h
  dsimp only at h
  split at h
  case h_4 => cases h
  all_goals
    split at h
    · cases h; exact ⟨_, rfl⟩
    · cases h

/-- A scalar source is read without a change, or popped. -/
theorem State.src_shape {code : BitVec 8} {lit w : Word} (h : s.src code lit = .ok (w, t)) : t = s ∨ ∃ c, t = s.setCore c := by
  unfold State.src at h
  split at h
  · cases h; exact .inl rfl
  · split at h
    · split at h
      · cases h
      · exact .inr (State.popQ_shape h)
    · split at h
      · obtain ⟨v, -, hv⟩ := ok_of_bind h
        cases hv
        exact .inl rfl
      · cases h

theorem State.src_tick {code : BitVec 8} {lit w : Word} (h : s.src code lit = .ok (w, t)) : t.tick = s.tick := by
  rcases State.src_shape h with rfl | ⟨c, rfl⟩
  · rfl
  · exact s.setCore_tick c

theorem State.src_version {code : BitVec 8} {lit w : Word} (h : s.src code lit = .ok (w, t)) : t.version = s.version := by
  rcases State.src_shape h with rfl | ⟨c, rfl⟩
  · rfl
  · unfold State.setCore; split <;> rfl

/-! ## Tiles and homes -/

/-- Steps that each leave the tick leave it together. -/
theorem foldl_tick {α : Type} {f : State → α → State} (h : ∀ s x, (f s x).tick = s.tick) (l : List α) (s : State) :
    (l.foldl f s).tick = s.tick := by
  induction l generalizing s with
  | nil => rfl
  | cons x l ih => exact (ih (f s x)).trans (h s x)

@[simp] theorem State.setTile_tick (s : State) (id i : Nat) (x : Tile) : (s.setTile id i x).tick = s.tick := rfl

@[simp] theorem State.applyInPlace_tick (s : State) (id i : Nat) : (s.applyInPlace id i).tick = s.tick := rfl

@[simp] theorem State.movePlace_tick (s : State) (src dst n : Nat) : (s.movePlace src dst n).tick = s.tick := rfl

@[simp] theorem State.noteBad_tick (s : State) (ps : List Nat) : (s.noteBad ps).tick = s.tick := rfl

/-- Places moved one after the other, wherever each stands by then. -/
theorem State.movePlaces_tick (s : State) (src dst : State → Nat → Nat) (n : Nat) (l : List Nat) :
    (l.foldl (fun s j => s.movePlace (src s j) (dst s j) n) s).tick = s.tick :=
  foldl_tick (fun s _ => s.movePlace_tick _ _ _) l s

@[simp] theorem State.claimFrame_tick (s : State) (id i : Nat) (x : Tile) : (s.claimFrame id i x).tick = s.tick := by
  unfold State.claimFrame
  dsimp only
  split
  · rfl
  · split <;> rfl

@[simp] theorem State.startFetch_tick (s : State) (id i : Nat) (spx : Option Nat) : (s.startFetch id i spx).tick = s.tick := by
  unfold State.startFetch
  dsimp only
  split
  · rfl
  · split
    · exact s.applyInPlace_tick id i
    · exact s.claimFrame_tick id i _

@[simp] theorem State.evictDone_tick (s : State) (id i : Nat) : (s.evictDone id i).tick = s.tick := by
  unfold State.evictDone
  dsimp only
  split
  · rw [State.setTile_tick]
    dsimp only
    exact (State.movePlaces_tick _ (fun _ j => _ + 16384 * j) (fun s j => s.tileHbm id i (16384 * j)) _ _).trans
      (s.noteBad_tick _)
  · rfl

@[simp] theorem State.fetchDone_tick (s : State) (id i : Nat) : (s.fetchDone id i).tick = s.tick := by
  unfold State.fetchDone
  dsimp only
  split
  · rfl
  · split
    · exact s.claimFrame_tick id i _
    · split
      · rfl
      · rw [State.setTile_tick]
        exact (State.movePlaces_tick _ (fun s j => s.tileHbm id i (16384 * j)) (fun _ j => _ + 16384 * j) _ _).trans
          (s.applyInPlace_tick id i)

@[simp] theorem State.endFetch_tick (s : State) (id i : Nat) : (s.endFetch id i).tick = s.tick := by
  unfold State.endFetch
  rw [State.fetchDone_tick]
  split
  · exact s.evictDone_tick _ _
  · rfl

@[simp] theorem State.endMove_tick (s : State) (id i : Nat) : (s.endMove id i).tick = s.tick := by
  unfold State.endMove
  dsimp only
  split
  · exact s.evictDone_tick id i
  · exact s.endFetch_tick id i
  · rw [State.endFetch_tick, State.claimFrame_tick]
    split
    · split
      · exact s.evictDone_tick _ _
      · exact s.endFetch_tick _ _
    · rfl
  · rfl

@[simp] theorem State.homeForce_tick (s : State) (loc : Nat) : (s.homeForce loc).tick = s.tick := by
  unfold State.homeForce
  split
  · rw [State.endMove_tick, State.startFetch_tick]
  · rfl

@[simp] theorem State.touchTile_tick (s : State) (loc : Nat) : (s.touchTile loc).tick = s.tick := by
  unfold State.touchTile
  split
  · dsimp only; split <;> rfl
  · rfl

@[simp] theorem State.dcNote_tick (s : State) (loc : Nat) (dirty : Bool) : (s.dcNote loc dirty).tick = s.tick := by
  unfold State.dcNote
  dsimp only
  split <;> rfl

@[simp] theorem State.homeTouch_tick (s : State) (loc : Nat) (dirty : Bool) : (s.homeTouch loc dirty).tick = s.tick := by
  rw [State.homeTouch, State.dcNote_tick, State.touchTile_tick]

@[simp] theorem State.putAt_tick (s : State) (loc : Nat) (ws : List ByteWrite) : (s.putAt loc ws).tick = s.tick := by
  rw [State.putAt, State.homeTouch_tick, State.eccWrite]
  split <;> rfl

@[simp] theorem State.homePut_tick (s : State) (loc : Nat) (ws : List ByteWrite) : (s.homePut loc ws).tick = s.tick := by
  rw [State.homePut, State.putAt_tick, State.homeForce_tick]

@[simp] theorem State.refresh_tick (s : State) (chip : Nat) (ws : List ByteWrite) : (s.refresh chip ws).tick = s.tick := rfl

@[simp] theorem State.placePut_tick (s : State) (chip : Nat) (p : Place) (bs : List Byte) :
    (s.placePut chip p bs).tick = s.tick := by
  cases p with
  | spad k off => rfl
  | line loc => exact (State.refresh_tick _ _ _).trans (s.homePut_tick _ _)

/-! ## The turn of an access at the home -/

theorem State.homeTurn_tick {loc : Nat} (h : s.homeTurn loc = .ok t) : t.tick = s.tick := by
  unfold State.homeTurn at h
  split at h
  · cases h
  · split at h
    · cases h; rfl
    · cases h; split <;> rfl

theorem State.warm_tick {loc : Nat} (h : s.warm loc = .ok t) : t.tick = s.tick := by
  unfold State.warm at h
  split at h
  · split at h
    · split at h
      · cases h; rfl
      · cases h
    · cases h; rfl
  · cases h; rfl

theorem State.homeWrite_tick {loc : Nat} {ws : List ByteWrite} (h : s.homeWrite loc ws = .ok t) : t.tick = s.tick := by
  obtain ⟨s1, h1, h⟩ := ok_of_bind h
  obtain ⟨s2, h2, h⟩ := ok_of_bind h
  cases h
  rw [State.putAt_tick, State.warm_tick h2, State.homeTurn_tick h1]

@[simp] theorem State.viewOf_tick (s : State) (key part scope loc : Nat) : (s.viewOf key part scope loc).2.tick = s.tick := by
  unfold State.viewOf
  split
  · rfl
  · dsimp only; split <;> rfl

@[simp] theorem State.performPeer_tick (s : State) (chip : Nat) (m : Msg) : (s.performPeer chip m).tick = s.tick := by
  unfold State.performPeer
  dsimp only
  split
  · rfl
  · split
    · split <;> rfl
    · rfl

@[simp] theorem State.performed_tick (s : State) (chip : Nat) (m : Msg) : (s.performed chip m).tick = s.tick := by
  have hnote : (s.noteApplied chip m.home m.seq 0).tick = s.tick := by
    unfold State.noteApplied
    split <;> rfl
  unfold State.performed
  dsimp only
  split
  · exact hnote
  · exact hnote

theorem State.perform_tick {m : Msg} (h : s.perform chip m = .ok t) : t.tick = s.tick := by
  unfold State.perform at h
  split at h
  · cases h; exact s.performPeer_tick chip m
  · split at h
    · cases h; rfl
    · obtain ⟨u, hu, rfl⟩ := ok_of_map h
      exact (u.performed_tick chip m).trans ((State.homeWrite_tick hu).trans (State.viewOf_tick _ _ _ _ _))

@[simp] theorem State.dropMsg_tick (s : State) (chip : Nat) (m : Msg) : (s.dropMsg chip m).tick = s.tick := rfl

theorem State.flush_tick {p : Msg → Bool} (h : s.flush chip p = .ok t) : t.tick = s.tick := by
  unfold State.flush at h
  generalize s.selected chip p = ms at h
  induction ms generalizing s with
  | nil => cases h; rfl
  | cons m ms ih =>
    obtain ⟨u, hu, h⟩ := ok_of_bind h
    obtain ⟨v, hv, rfl⟩ := ok_of_map hu
    exact (ih h).trans ((v.dropMsg_tick chip m).trans (State.perform_tick hv))

theorem State.traceTurn_tick {p : Place} (h : s.traceTurn key p = .ok t) : t.tick = s.tick := by
  cases p with
  | spad k off => cases h; rfl
  | line loc =>
    obtain ⟨s1, h1, h⟩ := ok_of_bind h
    obtain ⟨s2, h2, h⟩ := ok_of_bind h
    obtain ⟨-, -, h⟩ := ok_of_bind h
    rw [State.warm_tick h, State.homeTurn_tick h2, State.flush_tick h1]

/-! ## Stores -/

theorem State.post_tick {cell dest : Nat} {wt : Bool} {ws : List ByteWrite} (h : s.post chip cell dest wt ws = .ok t) :
    t.tick = s.tick := by
  obtain ⟨-, -, h⟩ := ok_of_bind h
  split at h
  · cases h
  · cases h; rfl

@[simp] theorem State.rdcAlloc_tick (s : State) (chip line : Nat) : (s.rdcAlloc chip line).tick = s.tick := by
  unfold State.rdcAlloc
  dsimp only
  split
  · rfl
  · split <;> rfl

theorem State.dieWrite_tick {cell part loc : Nat} {ws : List ByteWrite} {alloc : Bool}
    (h : s.dieWrite chip cell part loc ws alloc = .ok t) : t.tick = s.tick := by
  unfold State.dieWrite at h
  dsimp only at h
  split at h
  · split at h
    · exact (State.post_tick h).trans (s.rdcAlloc_tick chip _)
    · exact State.post_tick h
  · exact State.post_tick h

theorem State.l1Evict_tick {part line : Nat} {drop : Bool} (h : s.l1Evict key part line drop = .ok t) : t.tick = s.tick := by
  unfold State.l1Evict at h
  dsimp only at h
  split at h
  · cases h; rfl
  · refine (State.dieWrite_tick h).trans ?_
    split <;> rfl

theorem State.l1Alloc_tick {part line : Nat} (h : s.l1Alloc key part line = .ok t) : t.tick = s.tick := by
  unfold State.l1Alloc at h
  split at h
  · cases h; rfl
  · obtain ⟨u, hu, h⟩ := ok_of_bind h
    cases h
    change u.tick = s.tick
    split at hu
    · cases hu; rfl
    · dsimp only [State.draw] at hu
      split at hu
      · exact (State.l1Evict_tick hu).trans rfl
      · cases hu; rfl

theorem State.storeLine_tick {part loc scope : Nat} {bs : List Byte} {na : Bool}
    (h : s.storeLine key part loc bs scope na = .ok t) : t.tick = s.tick := by
  unfold State.storeLine at h
  dsimp only at h
  split at h
  · split at h
    · exact State.dieWrite_tick h
    · obtain ⟨u, hu, rfl⟩ := ok_of_map h
      exact (u.setCell_tick key _).trans (State.l1Alloc_tick hu)
  · refine (State.dieWrite_tick h).trans ?_
    split <;> rfl
  · refine (State.post_tick h).trans ?_
    split <;> rfl

@[simp] theorem State.tracePut_tick (s : State) (key : Nat) (p : Place) (bs : List Byte) :
    (s.tracePut key p bs).tick = s.tick := by
  cases p with
  | spad k off => rfl
  | line loc =>
    unfold State.tracePut
    dsimp only
    split
    · next h => exact State.storeLine_tick h
    · exact s.placePut_tick _ _ _

/-! ## The checks of an access -/

@[simp] theorem State.dieWalk_tick (s : State) (chip ctx va : Nat) : (s.dieWalk chip ctx va).2.tick = s.tick := by
  unfold State.dieWalk
  split
  · rfl
  · dsimp only; split <;> rfl

@[simp] theorem State.tlbLookup_tick (s : State) (key ctx va : Nat) : (s.tlbLookup key ctx va).2.tick = s.tick := by
  unfold State.tlbLookup
  dsimp only
  split
  · rfl
  · split
    · rfl
    · have hw := s.dieWalk_tick (keyChip key) ctx va
      split
      · next hr => rw [hr] at hw; exact hw
      · exact hw

theorem State.watchAt_tick {q : Acc} {w : Nat} (h : s.watchAt key q w = .ok t) : t.tick = s.tick := by
  unfold State.watchAt at h
  dsimp only at h
  split at h
  · cases h; rfl
  · split at h
    · cases h
    · cases h; split <;> rfl

theorem State.tagCheck_tick {part loc : Nat} {q : Acc} {p : Place} (h : s.tagCheck key part q loc = .ok (p, t)) :
    t.tick = s.tick := by
  unfold State.tagCheck at h
  dsimp only at h
  split at h
  · cases h
  · obtain ⟨u, hu, h⟩ := ok_of_bind h
    cases h
    refine (State.watchAt_tick hu).trans ?_
    split <;> rfl

theorem State.placeAccess_tick {q : Acc} {win off : Nat} {p : Place} (h : s.placeAccess key q win off = .ok (p, t)) :
    t.tick = s.tick := by
  unfold State.placeAccess at h
  dsimp only at h
  split at h
  · obtain ⟨u, hu, h⟩ := ok_of_bind h
    cases h
    exact State.watchAt_tick hu
  · obtain ⟨u, hu, h⟩ := ok_of_bind h
    cases h
    exact State.watchAt_tick hu
  · split at h
    · exact State.tagCheck_tick h
    · cases h
  · have hl := s.tlbLookup_tick key (s.nodeCtx (s.cell key).node) (addrVa q.addr)
    split at h
    · next hr =>
      rw [hr] at hl
      split at h
      · cases h
      · exact (State.tagCheck_tick h).trans hl
    · split at h <;> cases h
    · cases h

/-- An access that passes the checks leaves the tick. -/
theorem State.access_tick {q : Acc} {p : Place} (h : s.access key q = .ok (p, t)) : t.tick = s.tick := by
  cases hc : canonical q.addr with
  | false => rw [State.access_uncanonical hc] at h; cases h
  | true =>
    rcases hw : windowOf (s.apers (s.nodeCtx (s.cell key).node)) (addrVa q.addr) with _ | ⟨win, off⟩
    · rw [State.access_noWindow hc hw] at h; cases h
    · cases hb : s.beyond (keyChip key) (s.ctxPart (s.nodeCtx (s.cell key).node)) win off with
      | true => rw [State.access_beyond hc hw hb] at h; cases h
      | false =>
        rw [State.access_within hc hw hb] at h
        repeat
          split at h
          · cases h
        exact State.placeAccess_tick h

end Sys2Proof.Machine
end

