-- ==== Sys2Proof/Proofs/TimeWords.lean ====
section
/-! SUPPORT. TICK, WAITTICK and HALT with its event (R137, R138), ICINV and TLBINV (R139), WATCH (R141), FWSVC (R143), and the
mark records (R438, R439, R442). -/

namespace Sys2Proof.Machine

open Claims

section
variable {i : Instr} {s s0 : State} {key : Nat} {e : EngTag}

theorem Starts.tick (st : Starts i s key e s0) : s0.tick = s.tick := by
  obtain ⟨h, _, _, rfl⟩ := st
  exact State.modEng_tick _ _

theorem Starts.version (st : Starts i s key e s0) : s0.version = s.version := by
  obtain ⟨h, _, _, rfl⟩ := st
  unfold State.waited State.modEng State.setCore
  split <;> rfl

end

/-! ## An operand kept while its word waits -/

section
variable {s s1 : State} {code : BitVec 8} {lit v : Word}

theorem State.heldOperand_fresh (hw : (s.core.eng s.curEng).waitVal = none) (h : s.src code lit = .ok (v, s1)) :
    s.heldOperand code lit = .ok (v, s1.modEng fun g => { g with waitVal := some v }) := by
  simp only [State.heldOperand, hw, h]
  rfl

theorem State.heldOperand_kept (hw : (s.core.eng s.curEng).waitVal = some v) : s.heldOperand code lit = .ok (v, s) := by
  simp only [State.heldOperand, hw]

end

/-! ## The HALT event -/

/-- The event of one cell, where it is due (R138). -/
def State.haltReport (s : State) (x : Nat × Cell) : State :=
  match x.2.haltPc with
  | some pc => if x.2.haltQuiet then (s.setCell x.1 { x.2 with haltPc := none }).haltEvent x.1 pc else s
  | none => s

/-- Only a cell that executed HALT has an event to come. -/
theorem State.haltReports_filter (s : State) :
    s.haltReports = (s.cells.filter fun x => x.2.haltPc.isSome).foldl State.haltReport s := by
  rw [List.foldl_filter, State.haltReports]
  refine List.foldl_ext _ _ _ fun t x _ => ?_
  rcases h : x.2.haltPc with _ | pc <;> simp only [State.haltReport, h, Option.isSome, Bool.false_eq_true, if_false, if_true]

theorem Cell.haltQuiet_iff (c : Cell) : c.haltQuiet = true ↔
    c.phase = .halted ∧ c.jobs = [] ∧ ∀ e, (c.eng e).done = true ∨ (c.eng e).issued = false ∨ (c.eng e).reason = 10 := by
  have hall : ∀ p : EngTag → Bool, EngTag.all.all p = true ↔ ∀ e, p e = true := fun p =>
    ⟨fun h e => List.all_eq_true.1 h e (by cases e <;> decide), fun h => List.all_eq_true.2 fun e _ => h e⟩
  simp only [Cell.haltQuiet, Bool.and_eq_true, beq_iff_eq, List.isEmpty_iff, hall, and_assoc, Eng.outside, Bool.or_eq_true,
    Bool.not_and, Bool.not_eq_true', bne_eq_false_iff_eq]

theorem haltReported {s : State} {key pc : Nat} {c : Cell} (h : (s.cells.filter fun x => x.2.haltPc.isSome) = [(key, c)])
    (hp : c.haltPc = some pc) :
    s.haltReports = if c.haltQuiet then (s.setCell key { c with haltPc := none }).haltEvent key pc else s := by
  rw [State.haltReports_filter, h]
  simp only [List.foldl, State.haltReport, hp]

/-! ## The words of time -/

theorem timeWordsComplete : TimeWordsComplete := by
  refine ⟨fun f s key e s0 t st h => ?_, fun f s key e s0 v s1 st hw h => ?_, fun f s key e s0 st => ?_,
    fun s key pc c h hp => ⟨fun hq => ?_, fun hq => ?_⟩⟩
  · rw [← Starts.tick st] at h
    exact ends_of st rfl rfl (fun _ => rfl) (seqM_ok h)
  · have hv := State.heldOperand_fresh ((Starts.curEng st).symm ▸ hw) h
    have htick : (s1.modEng fun g => { g with waitVal := some v }).tick = s.tick := by
      rw [State.modEng_tick, State.src_tick h, Starts.tick st]
    refine ⟨fun hle => ends_of st rfl rfl (fun _ => rfl) ?_, fun hlt => waits_of st rfl (fun _ => rfl) ?_⟩
    · simp only [hv, htick, bind, Except.bind, if_pos hle]
    · simp only [hv, htick, bind, Except.bind, if_neg (Nat.not_le.2 hlt)]
  · exact ends_of st rfl rfl (fun _ => rfl) rfl
  · rw [haltReported h hp, if_pos (c.haltQuiet_iff.2 hq)]
  · rw [haltReported h hp, if_neg fun hc => ?_]
    obtain ⟨-, hj, he⟩ := c.haltQuiet_iff.1 hc
    rcases hq with hn | ⟨g, h1, h2, h3⟩
    · exact hn hj
    · rcases he g with hd | hi | hr
      · rw [h1] at hd; cases hd
      · rw [h2] at hi; cases hi
      · exact h3 hr

/-! ## Invalidations -/

theorem invRange_eq {a b : Word} {lo len : Nat}
    (h : (lo, len) = (if b = 0 then (0, 2 ^ 57) else (addrVa a, min b.toNat (2 ^ 57 - addrVa a)))) : invRange a b = (lo, len) :=
  h.symm

/-- The cells that ICINV reaches, by the test it makes. -/
theorem icinvReaches_iff {s : State} {f : Rrr} {key k : Nat} :
    (if f.rs = 0 then k == key else (s.scopeChips f.rs.toNat).contains (keyChip k)) = true
      ↔ (f.rs = 0 ∧ k = key ∨ f.rs ≠ 0 ∧ keyChip k ∈ s.scopeChips f.rs.toNat) := by
  split
  · next hr => simp [hr]
  · next hr => simp [show ¬ f.rs = 0#4 from hr]

theorem invalidationsComplete : InvalidationsComplete := by
  refine ⟨fun f s key e s0 a b s1 lo len st ⟨s2, h1, h2⟩ hr => ?_, fun f s key e s0 a b s1 lo len st ⟨s2, h1, h2⟩ hr => ?_⟩
  · have hk : s1.curKey = key :=
      State.curKey_cell ((State.src_cur h2).trans ((State.src_cur h1).trans (Starts.cur st)))
    refine ⟨s1.mapCells (fun k => if f.rs = 0 then k == s1.curKey else (s1.scopeChips f.rs.toNat).contains (keyChip k))
      fun c => c.icDrop lo len, ends_of st rfl rfl (fun _ => rfl) (seqM_ok ?_), rfl, List.map_congr_left fun x _ => ?_⟩
    · simp only [h1, h2, invRange_eq hr, bind, Except.bind]
    · simp only [hk, Bool.and_eq_true, icinvReaches_iff, beq_iff_eq]
      rfl
  · have hk : s1.curKey = key :=
      State.curKey_cell ((State.src_cur h2).trans ((State.src_cur h1).trans (Starts.cur st)))
    by_cases h0 : f.rs = 0
    · refine ⟨_, ends_of st rfl rfl (fun _ => rfl) (seqM_ok ?_), fun _ => rfl, fun hn => absurd h0 hn⟩
      simp only [h1, h2, invRange_eq hr, bind, Except.bind, if_pos h0, hk]
    · refine ⟨_, ends_of st rfl rfl (fun _ => rfl) (seqM_ok ?_), fun hz => absurd hz h0, fun _ => rfl⟩
      simp only [h1, h2, invRange_eq hr, bind, Except.bind, if_neg h0]

/-! ## WATCH and FWSVC -/

theorem Cell.armMask_eq_sum (c : Cell) :
    c.armMask = ((List.range 8).map fun i => if (c.wp i).ctl.getLsbD 8 then 2 ^ i else 0).sum := by
  rw [Cell.armMask, List.sum_eq_foldl, List.foldl_map]

theorem armed_eq (f : Ri) (c : Cell) : armed f c = (List.range 8).map fun i =>
    if (f.imm.getLsbD 4 || i == f.imm.toNat % 8) = true then (c.wp i).setArm (f.imm.getLsbD 3) else c.wp i := by
  refine List.map_congr_left fun i _ => ?_
  simp only [Bool.or_eq_true, beq_iff_eq]
  rfl

theorem watchAndFwsvcComplete : WatchAndFwsvcComplete := by
  refine ⟨fun f s key e s0 t st h => ?_, fun f s key e i s0 a s1 t v st h hv hd => ?_⟩
  · rw [armed_eq, ← Cell.armMask_eq_sum] at h
    exact ends_of st rfl rfl (fun _ => rfl) (seqM_ok h)
  · rcases hv with ⟨rfl, rfl⟩ | ⟨rfl, rfl⟩ | ⟨rfl, rfl⟩
    · refine ends_of st rfl rfl (fun _ => rfl) (seqM_ok ?_)
      simp only [h, bind, Except.bind, hd]
    · refine ends_of st rfl rfl (fun _ => rfl) (seqM_ok ?_)
      simp only [h, bind, Except.bind, (State.src_version h).trans (Starts.version st), hd]
    · refine ends_of st rfl rfl (fun _ => rfl) (seqM_ok ?_)
      simp only [h, bind, Except.bind, hd]

/-! ## Marks -/

/-- The body of MARK once its operand is at hand. -/
def State.mark (s : State) (f : Ri) (v : Word) : M (State × Next) :=
  if s.core.trbase = 0 then seqM (s.dst f.d (BitVec.allOnes 64))
  else match s.traceWrite s.curKey s.core.trbase (s.core.trctl.getLsbD 1) s.tick (markBytes s.tick v s.curKey) with
    | (.written, s) => seqM (s.dst f.d (BitVec.ofNat 64 s.tick))
    | (.full, s) => .error (.wait s 12)
    | (.held id i w fetch, s) => .error (.wait (s.traceHold id i w fetch) 12)
    | (_, s) => seqM (s.dst f.d (BitVec.allOnes 64))

theorem execMark_eq (f : Ri) (s : State) : execMark f s = runWord f.hdr f.w1.isSome false (fun s => do
    let (v, s) ← s.heldOperand f.a (litVal 0 f.w1)
    s.mark f v) s := rfl

/-- A record that finds its ring with room is written (R439). -/
theorem traceWrite_written {s s1 s2 s3 : State} {key n wr : Nat} {base : Word} {stall : Bool} {tick : Nat} {bs : List Byte}
    {h r : Place} (ha : s.access key (traceAcc base 64) = .ok (h, s1)) (ht : s1.traceTurn key h = .ok s2)
    (hn : n = s2.placeWord h 0x10) (h4 : 4 ≤ n) (h24 : n ≤ 24) (hwr : wr = s2.placeWord h 0)
    (hroom : (wr + 2 ^ 64 - s2.placeWord h 8) % 2 ^ 64 < 2 ^ n)
    (hr : s2.access key (traceAcc (base + BitVec.ofNat 64 (64 + 32 * (wr % 2 ^ n))) 32) = .ok (r, s3)) :
    s.traceWrite key base stall tick bs
      = (.written, (s3.placePut (keyChip key) h (leBytes 8 (wr + 1))).tracePut key r bs) := by
  have hmod : n % 32 = n := Nat.mod_eq_of_lt (by omega)
  have hlog : ¬ (n ≠ n % 32 ∨ n % 32 < 4 ∨ 24 < n % 32) := by omega
  rw [State.traceWrite]
  simp only [ha, ht, ← hn, ← hwr, if_neg hlog]
  simp only [hmod, if_pos hroom, hr]

section
variable {f : Ri} {s s0 s2 : State} {key : Nat} {e : EngTag} {a : Word}

theorem mark_exec (st : Starts (.mark f) s key e s0) (ho : s0.heldOperand f.a (litVal 0 f.w1) = .ok (a, s2)) :
    (∀ t n, s2.mark f a = .ok (t, n) → Ends (.mark f) s t n)
    ∧ ∀ t r, s2.mark f a = .error (.wait t r) → Waits (.mark f) s t r := by
  refine ⟨fun t n h => ends_of st rfl rfl (fun _ => execMark_eq f _) ?_,
    fun t r h => waits_of st rfl (fun _ => execMark_eq f _) ?_⟩
  · simp only [ho, bind, Except.bind, h]
  · simp only [ho, bind, Except.bind, h]

end

theorem marksAreWritten : MarksAreWritten := by
  intro f s key e s0 a s1 s2 st hop
  obtain ⟨ho, htick, hcur⟩ : s0.heldOperand f.a (litVal 0 f.w1) = .ok (a, s2) ∧ s2.tick = s.tick ∧ s2.cur = .cell key e := by
    rcases hop with ⟨hw, hs, rfl⟩ | ⟨hw, rfl⟩
    · exact ⟨State.heldOperand_fresh ((Starts.curEng st).symm ▸ hw) hs,
        (s1.modEng_tick _).trans ((State.src_tick hs).trans (Starts.tick st)),
        (s1.modEng_cur _).trans ((State.src_cur hs).trans (Starts.cur st))⟩
    · exact ⟨State.heldOperand_kept ((Starts.curEng st).symm ▸ hw), Starts.tick st, Starts.cur st⟩
  obtain ⟨hends, hwaits⟩ := mark_exec st ho
  have hkey : s2.curKey = key := State.curKey_cell hcur
  refine ⟨fun h s3 s4 n wr rd r s5 t hb ha ht hn h4 h24 hwr hrd hroom hr hd => hends _ _ ?_, fun t hb hd => hends _ _ ?_,
    fun x s3 hb hx => ⟨fun t hlost hd => hends _ _ ?_, fun hfull => hwaits _ _ ?_, fun id i w g hheld => hwaits _ _ ?_⟩⟩
  · have hw := traceWrite_written (stall := s2.core.trctl.getLsbD 1) (tick := s.tick) (bs := markBytes s.tick a key)
      ha ht hn h4 h24 hwr (hrd ▸ hroom) hr
    have hlast : ∀ bs, ((s5.placePut (keyChip key) h (leBytes 8 (wr + 1))).tracePut key r bs).tick = s.tick := fun bs => by
      rw [State.tracePut_tick, State.placePut_tick, State.access_tick hr, State.traceTurn_tick ht, State.access_tick ha, htick]
    simp only [State.mark, if_neg hb, hkey, htick, hw, hlast]
    exact seqM_ok hd
  · simp only [State.mark, if_pos hb]
    exact seqM_ok hd
  · rcases hlost with rfl | rfl
    · simp only [State.mark, if_neg hb, hkey, htick, hx]
      exact seqM_ok hd
    · simp only [State.mark, if_neg hb, hkey, htick, hx]
      exact seqM_ok hd
  · subst hfull
    simp only [State.mark, if_neg hb, hkey, htick, hx]
  · subst hheld
    simp only [State.mark, if_neg hb, hkey, htick, hx]

/-- Settles O25: the words of time, invalidation, watchpoints, firmware services and marks, each by its body. -/
theorem timeCacheAndWatchWords : Obligations.TimeCacheAndWatchWords :=
  ⟨timeWordsComplete, invalidationsComplete, watchAndFwsvcComplete, marksAreWritten⟩

end Sys2Proof.Machine
end

