-- ==== Sys2Proof/Proofs/PrologueWords.lean ====
section
/-! SUPPORT. The words that end a prologue's run, and its launch registers (R142, R351 to R353). -/

namespace Sys2Proof.Machine

open Claims

/-- A PEND word on a prologue core ends the run as its kind decides. -/
theorem pend_alone {s s1 : State} {f : Ri} {node : Nat} {p : Prologue} {kind : State → M (PendKind × State)} {k : PendKind}
    (h : IssuesAlone s node p f.hdr) (hk : kind s = .ok (k, s1)) :
    pend f kind s = .next (((s1.prologueEnd node k).counted node).retire f.hdr f.w1.isSome .seq) := by
  refine runWord_alone h ?_
  simp only [h.cur, hk, bind, Except.bind]

/-- What PEND REPEAT decides: a number that is not positive acts as GO, a positive one repeats at most 65,535 times. -/
theorem repeat_decides (a : Word) :
    (a.toInt ≤ 0 → (min (max a.toInt 0) 65535).toNat = 0)
    ∧ (0 < a.toInt → (min (max a.toInt 0) 65535).toNat = min a.toNat 65535 ∧ min a.toNat 65535 ≠ 0) := by
  have hlt := a.isLt
  have ha : a.toInt = if 2 * a.toNat < 2 ^ 64 then (a.toNat : Int) else (a.toNat : Int) - 2 ^ 64 := BitVec.toInt_eq_toNat_cond a
  split at ha
  · omega
  · omega

theorem pendRepeat_alone {s s1 : State} {f : Ri} {node : Nat} {p : Prologue} {a : Word} (h : IssuesAlone s node p f.hdr)
    (hs : s.src f.a (litVal 0 f.w1) = .ok (a, s1)) :
    (a.toInt ≤ 0 → exec (.pendRepeat f) s = .next (((s1.prologueEnd node .go).counted node).retire f.hdr f.w1.isSome .seq))
    ∧ (0 < a.toInt → exec (.pendRepeat f) s
        = .next (((s1.prologueEnd node (.again (min a.toNat 65535))).counted node).retire f.hdr f.w1.isSome .seq)) := by
  obtain ⟨hgo, hagain⟩ := repeat_decides a
  refine ⟨fun ha => pend_alone h ?_, fun ha => pend_alone h ?_⟩
  · simp only [hs, bind, Except.bind, hgo ha, if_true]
  · obtain ⟨hn, hne⟩ := hagain ha
    simp only [hs, bind, Except.bind, hn, if_neg hne]

/-- A PEND word on a cell. -/
theorem pend_raises {i : Instr} {f : Ri} {s s0 : State} {key : Nat} {e : EngTag} {kind : State → M (PendKind × State)}
    (st : Starts i s key e s0) (hh : i.body.hdr = some f.hdr) (hx : ∀ s, exec i s = pend f kind s) :
    Raises i s { code := 0xC7 } := by
  refine raises_of st hh hx ?_
  simp only [Starts.cur st]
  rfl

/-- Settles O26: each word ends the run with its decision, and on a cell the words of PEND share one cause. -/
theorem prologueWordsComplete : Obligations.PrologueWordsComplete := by
  refine ⟨fun f s node p h => ⟨pend_alone h rfl, pend_alone h rfl, fun a s1 hs => pendRepeat_alone h hs⟩,
    fun f s node p h => runWord_alone h ?_, fun f s node p t h hl ht => runWord_alone h (seqM_ok ?_),
    fun f s key e s0 i st hi => ?_⟩
  · simp only [h.cur]
  · have hl' : launchReg (Ri.csr f) = true := hl
    simp only [State.csrOld, h.cur, if_pos hl', bind, Except.bind]
    exact ht
  · rcases List.mem_cons.1 hi with rfl | hi
    · exact pend_raises st rfl fun _ => rfl
    · rcases List.mem_cons.1 hi with rfl | hi
      · exact pend_raises st rfl fun _ => rfl
      · obtain rfl := List.mem_singleton.1 hi
        exact pend_raises st rfl fun _ => rfl

end Sys2Proof.Machine
end

