-- ==== Sys2Proof/Proofs/ShardEvents.lean ====
section
/-! SUPPORT. The events of a shard (R132, R182, R272, R305, R311, R408, R440): its retirement, its stall and its stop, and the
tiles, commands, messages and records that wait. -/

namespace Sys2Proof.Machine

open Claims

/-! ## A cell freed, and a shard that retires -/

theorem State.cell_freeCell (s : State) (k : Nat) :
    (s.freeCell k).cell k = (s.cell k).freed ∨ (s.freeCell k).cell k = Cell.fresh ∧ s.cell k = Cell.fresh := by
  have hm : FMap.find? (s.freeCell k).cells k = (FMap.find? s.cells k).map Cell.freed :=
    (FMap.find?_modify s.cells k k Cell.freed).trans (if_pos rfl)
  simp only [State.cell, FMap.get, hm]
  cases FMap.find? s.cells k with
  | none => exact .inr ⟨rfl, rfl⟩
  | some c => exact .inl rfl

theorem freeCell_leaves (s : State) (k : Nat) : ((s.freeCell k).cell k).phase = .idle
    ∧ ((s.freeCell k).cell k).acc = (s.cell k).acc ∧ ((s.freeCell k).cell k).spad = (s.cell k).spad
    ∧ ((s.freeCell k).cell k).fe = (s.cell k).fe := by
  rcases s.cell_freeCell k with h | ⟨h, h'⟩
  · rw [h]; exact ⟨rfl, rfl, rfl, rfl⟩
  · rw [h, h']; exact ⟨rfl, rfl, rfl, rfl⟩

/-- What keeps a shard from retiring (R132; log entry 36). -/
def Cell.staysBusy (c : Cell) (cls : DieClass) : Bool :=
  c.phase ≠ .running || !(c.live cls).isEmpty || !c.jobs.isEmpty || !c.stamps.isEmpty || !c.peerIn.isEmpty
    || !c.fatals.isEmpty || c.pendTrap.isSome || c.handler.isSome

theorem Cell.staysBusy_iff (c : Cell) (cls : DieClass) : c.staysBusy cls = true ↔
    c.phase ≠ .running ∨ c.live cls ≠ [] ∨ c.jobs ≠ [] ∨ c.stamps ≠ [] ∨ c.peerIn ≠ [] ∨ c.fatals ≠ []
      ∨ c.pendTrap.isSome = true ∨ c.handler.isSome = true := by
  simp only [Cell.staysBusy, Bool.or_eq_true, decide_eq_true_eq, Bool.not_eq_true', List.isEmpty_eq_false_iff, or_assoc]

/-- The shard's identities dropped, its cell freed and its restart record left with the node (R299, R394). -/
def State.retireShard (d : State) (k : Nat) (c : Cell) : State :=
  ((d.dropKept c.node c.flatC c.flatD c.rinst).freeCell k).modNode c.node fun (n : Node) =>
    { n with records := FMap.put n.records (256 * c.flatD + c.flatC) c.record }

theorem State.retireShard_record {d : State} {k : Nat} {c : Cell} {n : Node} (h : (d.retireShard k c).node? c.node = some n) :
    FMap.find? n.records (256 * c.flatD + c.flatC) = some c.record := by
  have hm := (FMap.find?_modify ((d.dropKept c.node c.flatC c.flatD c.rinst).freeCell k).nodes c.node c.node fun (n : Node) =>
    { n with records := FMap.put n.records (256 * c.flatD + c.flatC) c.record }).trans (if_pos rfl)
  obtain ⟨m, -, rfl⟩ := Option.map_eq_some_iff.1 (hm.symm.trans h)
  exact FMap.find?_put_same _ _ _

/-- SHARD_RETIRE once the stamps that are due are produced. -/
def State.retireTurn (s : State) (k : Nat) : State :=
  let c := s.cell k
  let d := s.drainCell k (s.cellPart k)
  if c.staysBusy (chipClass (keyChip k)) then s
  else if d.condemnedOf (d.nodeCtx c.node) != s.condemnedOf (s.nodeCtx c.node) then d
  else if ((d.retireShard k c).nodeCells c.node).isEmpty then (d.retireShard k c).arrive c.node .retiring
  else d.retireShard k c

theorem shardRetire_exec (s : State) (k : Nat) : exec (.shardRetire k) s = .next ((s.produceStamps k).retireTurn k) := rfl

section
variable {s d : State} {k : Nat} {c : Cell} (hc : c = s.cell k)
include hc

theorem State.retireTurn_busy (h : c.staysBusy (chipClass (keyChip k)) = true) : s.retireTurn k = s := by
  subst hc
  exact if_pos h

variable (hb : ¬ c.staysBusy (chipClass (keyChip k)) = true) (hd : d = s.drainCell k (s.cellPart k))
include hb hd

theorem State.retireTurn_condemned (h : d.condemnedOf (d.nodeCtx c.node) ≠ s.condemnedOf (s.nodeCtx c.node)) :
    s.retireTurn k = d := by
  subst hc hd
  exact (if_neg hb).trans (if_pos (bne_iff_ne.2 h))

theorem State.retireTurn_frees (h : d.condemnedOf (d.nodeCtx c.node) = s.condemnedOf (s.nodeCtx c.node)) :
    s.retireTurn k = if ((d.retireShard k c).nodeCells c.node).isEmpty then (d.retireShard k c).arrive c.node .retiring
      else d.retireShard k c := by
  subst hc hd
  exact (if_neg hb).trans (if_neg fun hn => bne_iff_ne.1 hn h)

end

/-! ## Stalls and stops -/

theorem State.quiet_calm {s : State} {k : Nat} (h : s.quiet k = true) : (s.cell k).fatals = [] := by
  simp only [State.quiet, Bool.and_eq_true, List.isEmpty_iff] at h
  exact h.1.1.2

theorem Cell.stallCause_code {c : Cell} {cls : DieClass} {x : Cause} (h : c.stallCause cls = some x) : x.code = 0x81 := by
  unfold Cell.stallCause at h
  split at h
  · cases h
  · cases h; rfl

/-- Every reason is one that the shard's own cell can end, or some is not. -/
theorem all_internal_iff {c : Cell} {es : List EngTag} :
    (es.all fun e => internalReason (c.eng e).reason) = true ↔ ∀ e ∈ es, 1 ≤ (c.eng e).reason ∧ (c.eng e).reason ≤ 11 := by
  simp only [List.all_eq_true, internalReason, decide_eq_true_eq]

/-- ENGINE_STALL of a quiet shard that stalled at a tick: the cause, once it is due. -/
def State.stallCheck (s : State) (k t0 : Nat) : State :=
  let c := s.cell k
  if s.tick < t0 + 2 ^ 18 || !((c.live (chipClass (keyChip k))).all fun e => internalReason (c.eng e).reason) then s
  else match c.stallCause (chipClass (keyChip k)) with
    | some x => s.setCell k { c with fatals := (s.tick, x) :: c.fatals }
    | none => s

section
variable {s : State} {k t0 : Nat} {c : Cell} {x : Cause} (hc : c = s.cell k)
include hc

theorem engineStall_moves (h : s.quiet k = false ∨ c.live (chipClass (keyChip k)) = []) :
    exec (.engineStall k) s = .next (s.setCell k { c with stalledSince := none }) := by
  subst hc
  refine congrArg Host.Outcome.next (if_pos ?_)
  rcases h with h | h <;> simp [h]

variable (hq : s.quiet k = true) (hl : c.live (chipClass (keyChip k)) ≠ []) (ht : c.stalledSince = some t0)
include hq hl ht

/-- A quiet shard that has noted when it stalled is looked at again. -/
theorem engineStall_noted : exec (.engineStall k) s = .next (s.stallCheck k t0) := by
  subst hc
  have hgo : ¬ (!s.quiet k || ((s.cell k).live (chipClass (keyChip k))).isEmpty) = true := by
    simp [hq, List.isEmpty_iff, hl]
  refine congrArg Host.Outcome.next ((if_neg hgo).trans ?_)
  split
  · next hn => rw [ht] at hn; cases hn
  · next t hn =>
    obtain rfl := Option.some.inj (hn.symm.trans ht)
    rfl

theorem engineStall_waits
    (h : s.tick < t0 + 2 ^ 18 ∨ ∃ e ∈ c.live (chipClass (keyChip k)), (c.eng e).reason = 0 ∨ 12 ≤ (c.eng e).reason) :
    exec (.engineStall k) s = .next s := by
  rw [engineStall_noted hc hq hl ht]
  subst hc
  refine congrArg Host.Outcome.next (if_pos ?_)
  rw [Bool.or_eq_true, decide_eq_true_eq, Bool.not_eq_true', ← Bool.not_eq_true, all_internal_iff]
  refine h.imp_right ?_
  rintro ⟨e, he, hr⟩ hall
  have := hall e he
  omega

theorem engineStall_stops (h : t0 + 2 ^ 18 ≤ s.tick)
    (hr : ∀ e ∈ c.live (chipClass (keyChip k)), 1 ≤ (c.eng e).reason ∧ (c.eng e).reason ≤ 11)
    (hx : c.stallCause (chipClass (keyChip k)) = some x) :
    exec (.engineStall k) s = .next (s.setCell k { c with fatals := [(s.tick, x)] }) := by
  rw [engineStall_noted hc hq hl ht]
  subst hc
  refine congrArg Host.Outcome.next ((if_neg ?_).trans ?_)
  · rw [Bool.or_eq_true, decide_eq_true_eq, all_internal_iff.2 hr]
    simp only [Bool.not_true, Bool.false_eq_true, or_false]
    omega
  · simp only [hx, State.quiet_calm hq]

end

/-- SHARD_STOP of a cell: nothing without a cause, without room for the event, or of a shard that has stopped. -/
theorem shardStop_cell {s : State} {k : Nat} (hk : k < 2 ^ 21) :
    (((s.cell k).fatals = [] ∨ (s.cell k).phase = .stopped ∨ (s.cell k).phase = .idle ∨ s.eventRoom = false) →
      exec (.shardStop k) s = .next s)
    ∧ ((s.cell k).fatals ≠ [] → (s.cell k).phase ≠ .stopped → (s.cell k).phase ≠ .idle → s.eventRoom = true →
      exec (.shardStop k) s = .next
        (if (s.contextRecords (s.cell k).node).isEmpty then s.stopNode (s.cell k).node
          else s.terminateCtx (s.nodeCtx (s.cell k).node) (s.contextRecords (s.cell k).node
            ++ (s.condemnedOf (s.nodeCtx (s.cell k).node)).map FaultRec.asNested))) := by
  have hcell : ¬ 2 ^ 21 ≤ k := by omega
  refine ⟨fun h => congrArg Host.Outcome.next ?_, fun hf h1 h2 hr => congrArg Host.Outcome.next ?_⟩
  · unfold State.stopFor
    cases hr : s.eventRoom with
    | false => rfl
    | true =>
      rw [if_neg (by decide), if_neg hcell]
      refine if_pos ?_
      rcases h with h | h | h | h
      · simp [h]
      · simp [h]
      · simp [h]
      · rw [hr] at h; cases h
  · unfold State.stopFor
    rw [if_neg (by simp [hr]), if_neg hcell]
    refine if_neg ?_
    simp [hf, h1, h2]

/-- SHARD_STOP of a context that a prologue or the GSD has condemned. -/
theorem shardStop_ctx (s : State) (ctx : Nat) :
    (s.condemnedOf ctx = [] → exec (.shardStop (2 ^ 21 + ctx)) s = .next s)
    ∧ ∀ r rs, s.eventRoom = true → s.condemnedOf ctx = r :: rs → exec (.shardStop (2 ^ 21 + ctx)) s = .next (s.terminateCtx ctx
      (r :: rs.map FaultRec.asNested ++ s.otherRecords ctx none)) := by
  have hkey : 2 ^ 21 ≤ 2 ^ 21 + ctx := Nat.le_add_right _ _
  have hctx : 2 ^ 21 + ctx - 2 ^ 21 = ctx := Nat.add_sub_cancel_left ..
  refine ⟨fun h => congrArg Host.Outcome.next ?_, fun r rs hr h => congrArg Host.Outcome.next ?_⟩
  · unfold State.stopFor
    cases s.eventRoom with
    | false => rfl
    | true =>
      rw [if_neg (by decide), if_pos hkey]
      simp only [hctx, h]
  · unfold State.stopFor
    rw [if_neg (by simp [hr]), if_pos hkey]
    simp only [hctx, h]

/-! ## Tiles of a peer -/

section
variable {s : State} {k i : Nat} {x : PeerTile} (hi : (s.cell k).peerIn[i]? = some x) (hd : x.done = false)
include hi hd

theorem peerTileApply_waits (h : (s.cell k).serves = false ∨ (s.cell k).tileMayGo i x = false) :
    exec (.peerTileApply k i) s = .next s := by
  have hstop : (!(s.cell k).serves || !(s.cell k).tileMayGo i x) = true := by rcases h with h | h <;> simp [h]
  refine congrArg Host.Outcome.next ?_
  simp only [hi, hd, hstop, Bool.false_eq_true, if_false, if_true]

variable (hs : (s.cell k).serves = true) (hm : (s.cell k).tileMayGo i x = true)
include hs hm

theorem peerTileApply_adds {e : Nat × BitVec 32} {es : List (Nat × BitVec 32)} (h : x.elems = e :: es) :
    exec (.peerTileApply k i) s = .next (s.setCell k (((s.cell k).addElem x e).setTileIn i { x with elems := es })) := by
  refine congrArg Host.Outcome.next ?_
  simp only [hi, hd, hs, hm, h, Bool.not_true, Bool.or_false, Bool.false_eq_true, if_false]

theorem peerTileApply_ends (h : x.elems = []) :
    exec (.peerTileApply k i) s
      = .next ((s.setCell k (((s.cell k).setTileIn i { x with done := true }).closeRound { x with done := true })).tileTokens k i
          { x with done := true }) := by
  refine congrArg Host.Outcome.next ?_
  simp only [hi, hd, hs, hm, h, Bool.not_true, Bool.or_false, Bool.false_eq_true, if_false]

omit hi hd hs hm in
theorem State.tileTokens_silent {c : Cell} (hp : x.push = none) : (s.setCell k c).tileTokens k i x
    = (((s.setCell k c).setCell k { c with peerIn := c.peerIn.eraseIdx i }).modJob x.src x.job
        fun (j : Job) => { j with finished := true }).jobDone x.src x.job := by
  unfold State.tileTokens
  rw [hp, State.cell_setCell_same]

end

/-- An element of a tile is added by the accumulator's own sum, and no other element changes (R272). -/
theorem Cell.addElem_adds (c : Cell) (x : PeerTile) (e : Nat × BitVec 32) :
    let old := (c.accGet (32768 * x.acc + e.1)).toNat
    let r := if x.isF32 then accAdd old e.2.toNat else accAddInt old (toSigned 32 e.2.toNat)
    (c.addElem x e).accGet (32768 * x.acc + e.1) = BitVec.ofNat 32 r.1 ∧ (c.addElem x e).mstat = c.mstat ||| r.2
      ∧ ∀ n, n ≠ 32768 * x.acc + e.1 → (c.addElem x e).accGet n = c.accGet n := by
  intro old r
  exact ⟨FMap.get_set_same c.acc _ _ _, rfl, fun n hn => FMap.get_set_ne c.acc _ _ hn⟩

/-! ## Commands, messages and records that wait -/

/-- One step of a run of a job that has steps left. -/
theorem State.jobRun_pos (k j n : Nat) (s : State) (hn : 0 < n) : State.jobRun k j n s =
    if ((s.jobNext k j).cell k).job? j = (s.cell k).job? j ∨ (((s.jobNext k j).cell k).job? j).isNone = true then s.jobNext k j
    else State.jobRun k j (n - 1) (s.jobNext k j) := by
  obtain ⟨m, rfl⟩ := Nat.exists_eq_add_of_lt hn
  rw [Nat.zero_add, Nat.add_sub_cancel]
  rfl

theorem State.jobNext_gone {s : State} {k j : Nat} (h : (s.cell k).job? j = none) : s.jobNext k j = s := by
  have hturn : ({ s with actor := some (.job k j 0 []) } : State).jobTurn k j = { s with actor := some (.job k j 0 []) } := by
    have h' : (({ s with actor := some (.job k j 0 []) } : State).cell k).job? j = none := h
    simp only [State.jobTurn, h']
  rw [State.jobNext, hturn]

theorem asyncCompletion_exec (s : State) (k j : Nat) : exec (.asyncCompletion k j) s = .next
    (if ((s.jobNext k j).cell k).job? j = (s.cell k).job? j ∨ (((s.jobNext k j).cell k).job? j).isNone = true then s.jobNext k j
      else State.jobRun k j (2 ^ 40 - 1) (s.jobNext k j)) :=
  congrArg Host.Outcome.next (State.jobRun_pos k j (2 ^ 40) s (Nat.two_pow_pos 40))

section
variable {s : State} {chip i : Nat} {m : Msg} (hi : (s.die chip).out[i]? = some m)
include hi

theorem accessPerformed_behind (h : mayGo ((s.die chip).out.take i) m = false) :
    exec (.accessPerformed (.message chip i)) s = .next s := by
  refine congrArg Host.Outcome.next ?_
  simp only [State.performMessage, hi, h, Bool.not_false, if_true]

/-- A message that may go is performed, or a tile's move holds it. -/
theorem accessPerformed_first (h : mayGo ((s.die chip).out.take i) m = true) :
    (∀ t, s.perform chip m = .ok t → exec (.accessPerformed (.message chip i)) s = .next (t.dropMsg chip m))
    ∧ ∀ id j w fetch, s.perform chip m = .error (.tile id j w fetch) → exec (.accessPerformed (.message chip i)) s
      = .next ((if fetch then s.startFetch id j none else s).hold id j w) := by
  refine ⟨fun t hp => congrArg Host.Outcome.next ?_, fun id j w fetch hp => congrArg Host.Outcome.next ?_⟩
  · simp only [State.performMessage, hi, h, hp, Bool.not_true, Bool.false_eq_true, if_false]
  · simp only [State.performMessage, hi, h, hp, Bool.not_true, Bool.false_eq_true, if_false]

end

theorem traceRetry_unlisted {s : State} {k : Nat} (h : (FMap.find? s.cells k).isNone = true) :
    exec (.traceRetry k) s = .next s := if_pos h

/-- TRACE_RETRY where no drain of the cell is finished: the stamps are produced, and a mark that waits is tried again. -/
theorem traceRetry_listed {s t : State} {k : Nat} (h : (FMap.find? s.cells k).isSome = true) (ht : t = s.produceStamps k)
    (hj : ∀ j ∈ (t.cell k).jobs, j.finished = false ∨ j.eng ≠ .m) :
    ((t.cell k).engC.issued = false → exec (.traceRetry k) s = .next t)
    ∧ ∀ f, (t.cell k).engC.issued = true → t.cInstr k = some (.mark f) →
      exec (.traceRetry k) s = exec (.mark f) { t with cur := .cell k .c } := by
  subst ht
  have hlisted : ¬ (FMap.find? s.cells k).isNone = true := by
    rw [Option.isNone_iff_eq_none]; exact Option.ne_none_iff_isSome.2 h
  have hjobs : ((s.produceStamps k).cell k).jobs.foldl (fun (s : State) j =>
      if j.finished && j.eng == .m then s.jobDone k j.id else s) (s.produceStamps k) = s.produceStamps k :=
    (List.foldl_ext _ (fun s _ => s) _ fun _ j hm => if_neg (by rcases hj j hm with h | h <;> simp [h])).trans
      (List.foldl_fixed _)
  refine ⟨fun hi => (if_neg hlisted).trans ?_, fun f hi hm => (if_neg hlisted).trans ?_⟩
  · simp only [hjobs, hi]
    rfl
  · simp only [hjobs, hi, hm]
    rfl

/-! ## The events -/

/-- Settles O49: each event by its branches, of which each is a lemma above. -/
theorem shardEventsComplete : Obligations.ShardEventsComplete := by
  refine ⟨?_, freeCell_leaves, ?_, ?_, ?_, ?_, Cell.addElem_adds, ?_, ?_, ?_, ?_, fun s k h => traceRetry_unlisted h,
    fun s k t h ht hj => traceRetry_listed h ht hj⟩
  · rintro s s1 k c rfl hc
    have hx := shardRetire_exec s k
    refine ⟨fun h => hx.trans (congrArg _ (State.retireTurn_busy hc ((c.staysBusy_iff _).2 h))), ?_⟩
    intro h1 h2 h3 h4 h5 h6 h7 h8 d ctx hd hctx
    have hb : ¬ c.staysBusy (chipClass (keyChip k)) = true := by
      rw [Cell.staysBusy_iff]
      simp [h1, h2, h3, h4, h5, h6, h7, h8]
    subst hctx
    refine ⟨fun h => hx.trans (congrArg _ (State.retireTurn_condemned hc hb hd h)), fun h t ht => ?_⟩
    have hf := State.retireTurn_frees hc hb hd h
    change t = d.retireShard k c at ht
    subst ht
    refine ⟨(freeCell_leaves (d.dropKept c.node c.flatC c.flatD c.rinst) k).1, fun n hn => State.retireShard_record hn,
      fun hn => hx.trans (congrArg _ (hf.trans (if_neg ?_))), fun hn => hx.trans (congrArg _ (hf.trans (if_pos ?_)))⟩
    · rwa [List.isEmpty_iff]
    · rw [hn]; rfl
  · exact fun s k c x hc => ⟨engineStall_moves hc, fun t0 hq hl ht => ⟨engineStall_waits hc hq hl ht,
      fun h hr hx => ⟨Cell.stallCause_code hx, engineStall_stops hc hq hl ht h hr hx⟩⟩⟩
  · intro s k hk
    obtain ⟨hstay, hstop⟩ := shardStop_cell (s := s) hk
    refine ⟨hstay, fun hf h1 h2 hr => ⟨fun hn => ?_, fun r rs hn => ?_⟩⟩
    · rw [hstop hf h1 h2 hr, hn]; rfl
    · rw [hstop hf h1 h2 hr, hn]; rfl
  · exact fun s ctx => shardStop_ctx s ctx
  · intro s k i x hi hd
    refine ⟨peerTileApply_waits hi hd, fun e es hs hm he => peerTileApply_adds hi hd hs hm he, fun c hs hm he hp hc => ?_⟩
    subst hc
    exact (peerTileApply_ends hi hd hs hm he).trans
      (congrArg _ (State.tileTokens_silent (s := s) (x := { x with done := true }) hp))
  · intro s k j
    have hx := asyncCompletion_exec s k j
    refine ⟨fun h => ?_, fun x _ hn => hx.trans (congrArg _ (if_pos (.inr ?_)))⟩
    · rw [hx, State.jobNext_gone h, if_pos (.inl rfl)]
    · rw [hn]; rfl
  · exact fun s k j x h h' => (asyncCompletion_exec s k j).trans (congrArg _ (if_pos (.inl (h'.trans h.symm))))
  · refine fun s k j x y h h' hne => (asyncCompletion_exec s k j).trans (congrArg _ (if_neg ?_))
    rw [h, h']
    rintro (he | he)
    · exact hne (Option.some.inj he).symm
    · cases he
  · intro s chip i m hi
    refine ⟨accessPerformed_behind hi, fun t hg ht => (accessPerformed_first hi hg).1 t ht, fun id j w hg => ?_⟩
    obtain ⟨-, hheld⟩ := accessPerformed_first hi hg
    exact ⟨hheld id j w false, hheld id j w true⟩

end Sys2Proof.Machine
end

