-- ==== Sys2Proof/Proofs/LoadsAndStores.lean ====
section
/-! SUPPORT. LD, ST, LDS and STS (R153 to R162): the accesses they make, the values they move, and what a qualified access
waits for. -/

namespace Sys2Proof.Machine

open Claims

section
variable {α β : Type} {r : M α} {f : α → M β}

/-- A computation goes on from what the one before it gives. -/
theorem M.bind_of_ok {x : α} {y : M β} (h : r = .ok x) (hf : f x = y) : (r >>= f) = y := by rw [h]; exact hf

/-- A stop found on the way is the stop of the whole. -/
theorem M.bind_of_error {x : Stop} (h : r = .error x) : (r >>= f) = .error x := by rw [h]; rfl

end

/-! ## Addresses and places -/

section
variable {s s1 : State} {f : Rrr} {addr : Word}

theorem State.memAddr_cur (h : s.memAddr f = .ok (addr, s1)) : s1.cur = s.cur := by
  obtain ⟨⟨a, u⟩, ha, h⟩ := ok_of_bind h
  obtain ⟨⟨b, v⟩, hb, h⟩ := ok_of_bind h
  cases h
  exact (State.src_cur hb).trans (State.src_cur ha)

/-- The TYPE of a pair, as a word holds it and as its number (R93). -/
theorem isPair_eq (ty : BitVec 4) : (ty == 12) = (ty.toNat == 12) := by
  rw [Bool.eq_iff_iff, beq_iff_eq, beq_iff_eq, BitVec.toNat_eq]
  rfl

/-- What succeeds meets no cause that an address would be added to. -/
theorem atAddr_ok {α : Type} {x : α} {r : M α} (h : r = .ok x) : atAddr addr r = .ok x := by rw [h]; rfl

end

theorem loadsAndStoresComplete : LoadsAndStoresComplete := by
  constructor
  · intro f s key e s0 addr s1 p s2 bs s3 t st haddr hacc hload hput
    have hcur : s1.cur = .cell key e := (State.memAddr_cur haddr).trans (Starts.cur st)
    refine ends_of st rfl rfl (fun _ => rfl) (seqM_ok ?_)
    refine M.bind_of_ok haddr ?_
    simp only [hcur]
    refine M.bind_of_ok hacc ?_
    rcases hload with ⟨k, off, rfl, hs⟩ | ⟨loc, rfl, hl⟩
    · exact M.bind_of_ok hs hput
    · exact M.bind_of_ok (atAddr_ok hl) hput
  · intro f s key e s0 lo hi s1 addr s2 p s3 t st hdata haddr hacc hstore
    obtain rfl := Starts.curKey st
    rw [isPair_eq] at hdata
    refine ends_of st rfl rfl (fun _ => rfl) (seqM_ok ?_)
    refine M.bind_of_ok hdata (M.bind_of_ok haddr (M.bind_of_ok hacc ?_))
    rcases hstore with ⟨k, off, rfl, hs⟩ | ⟨loc, rfl, hl⟩
    · exact hs
    · exact hl

/-! ## Values (R156, R157) -/

section
variable {ty w : Nat}

theorem loadWord_signed (h : ITy.ofCode ty = ⟨true, w⟩) (hw : 0 < w) (bs : List Byte) :
    loadWord ty bs = (BitVec.ofNat w (leNat bs)).signExtend 64 := by
  have hread : (⟨true, w⟩ : ITy).read (leNat bs) = (BitVec.ofNat w (leNat bs)).toInt := toSigned_eq_toInt hw _
  rw [loadWord, h, hread, ITy.write_signed hw, BitVec.ofInt_toInt]

theorem loadWord_unsigned (h : ITy.ofCode ty = ⟨false, w⟩) (bs : List Byte) :
    loadWord ty bs = (BitVec.ofNat w (leNat bs)).setWidth 64 := by
  have hread : (⟨false, w⟩ : ITy).read (leNat bs) = ((BitVec.ofNat w (leNat bs)).toNat : Int) := by
    rw [BitVec.toNat_ofNat]; rfl
  rw [loadWord, h, hread, ITy.write_unsigned, BitVec.ofInt_natCast, BitVec.ofNat_toNat, BitVec.setWidth_eq]

theorem State.putLoaded_single (s : State) (d : BitVec 8) (bs : List Byte) (h : ty ≠ 12) :
    s.putLoaded d ty bs = s.dst d (loadWord ty bs) := by
  simp only [State.putLoaded, loadHalves, if_neg h]

theorem State.putLoaded_signed (s : State) (d : BitVec 8) (bs : List Byte) (h : ITy.ofCode ty = ⟨true, w⟩) (hw : 0 < w)
    (h12 : ty ≠ 12) : s.putLoaded d ty bs = s.dst d ((BitVec.ofNat w (leNat bs)).signExtend 64) := by
  rw [State.putLoaded_single s d bs h12, loadWord_signed h hw]

theorem State.putLoaded_unsigned (s : State) (d : BitVec 8) (bs : List Byte) (h : ITy.ofCode ty = ⟨false, w⟩) (h12 : ty ≠ 12) :
    s.putLoaded d ty bs = s.dst d ((BitVec.ofNat w (leNat bs)).setWidth 64) := by
  rw [State.putLoaded_single s d bs h12, loadWord_unsigned h]

/-- A `.b128` goes to an even register and its successor, the low half first (R156). -/
theorem State.putLoaded_pair (s : State) {d : BitVec 8} (bs : List Byte) (h : d.toNat < 64) :
    s.putLoaded d 12 bs = (s.writeReg d.toNat (BitVec.ofNat 64 (leNat (bs.take 8)))).bind
      fun t => t.writeReg (d.toNat + 1) (BitVec.ofNat 64 (leNat (bs.drop 8))) := by
  simp only [State.putLoaded, loadHalves, State.dstPair, if_true, if_pos h]
  rfl

end

theorem leNat_append (xs ys : List Byte) : leNat (xs ++ ys) = leNat xs + 256 ^ xs.length * leNat ys := by
  induction xs with
  | nil => simp [leNat]
  | cons x xs ih => rw [List.cons_append, leNat, leNat, ih, List.length_cons, Nat.pow_succ']; ring

theorem leNat_storeBytes {ty : Nat} (lo hi : Word) (h : ty ≠ 12) : leNat (storeBytes ty lo hi) = lo.toNat % 256 ^ typeBytes ty := by
  rw [storeBytes, if_neg h, leNat_leBytes]

theorem leNat_storeBytes_pair (lo hi : Word) : leNat (storeBytes 12 lo hi) = lo.toNat + 2 ^ 64 * hi.toNat := by
  have h64 : (256 : Nat) ^ 8 = 2 ^ 64 := by decide
  rw [storeBytes, if_pos rfl, leNat_append, leNat_leBytes, leNat_leBytes, leBytes_length, h64, Nat.mod_eq_of_lt lo.isLt,
    Nat.mod_eq_of_lt hi.isLt]

theorem loadedAndStoredValues : LoadedAndStoredValues := by
  intro s d bs lo hi
  refine ⟨?_, ?_, State.putLoaded_signed s d bs rfl (by decide) (by decide), State.putLoaded_unsigned s d bs rfl (by decide),
    State.putLoaded_signed s d bs rfl (by decide) (by decide), State.putLoaded_unsigned s d bs rfl (by decide),
    State.putLoaded_signed s d bs rfl (by decide) (by decide), State.putLoaded_unsigned s d bs rfl (by decide),
    State.putLoaded_pair s bs, ?_, leNat_storeBytes lo hi (by decide), leNat_storeBytes lo hi (by decide),
    leNat_storeBytes lo hi (by decide), leNat_storeBytes_pair lo hi⟩
  · rw [State.putLoaded_signed (w := 64) s d bs rfl (by decide) (by decide), BitVec.signExtend_eq]
  · rw [State.putLoaded_unsigned (w := 64) s d bs rfl (by decide), BitVec.setWidth_eq]
  · exact (leNat_storeBytes lo hi (by decide)).trans (Nat.mod_eq_of_lt lo.isLt)

/-- Settles O29: each word makes its access and moves its value, which the bytes give by the type. -/
theorem loadsAndStoresWithValues : Obligations.LoadsAndStoresWithValues := ⟨loadsAndStoresComplete, loadedAndStoredValues⟩

/-! ## LDS and STS (R160, R161) -/

/-- A qualified access goes on where its turn at the bank has come. -/
theorem heldBack_iff {qualified turn : Bool} : (qualified && !turn) = true ↔ qualified = true ∧ turn = false := by
  rw [Bool.and_eq_true, Bool.not_eq_true']

theorem lds_waits_or_ends {f : Rrr} {s s0 s1 s2 s3 : State} {key k off : Nat} {e : EngTag} {addr : Word} {bs : List Byte}
    (st : Starts (.lds f) s key e s0) (haddr : s0.memAddr f = .ok (addr, s1))
    (hacc : s1.access key { addr := addr, size := typeBytes f.ty.toNat, align := typeBytes f.ty.toNat, spadOnly := true }
      = .ok (.spad k off, s2))
    (hload : s2.spadLoad key k off (typeBytes f.ty.toNat) addr = .ok (bs, s3)) :
    (f.fl.getLsbD 0 = true → (s3.cell k).bankTurn key .a (off / 16) true = false →
      Waits (.lds f) s (s0.holdAt key k (off / 16) true) (if k = key then 9 else 12))
    ∧ (∀ s4 s5 t, (f.fl.getLsbD 0 = true → (s3.cell k).bankTurn key .a (off / 16) true = true) →
      s4 = (if f.fl.getLsbD 0 then s3.unhold key k else s3) →
      s5 = (if f.fl.getLsbD 1 then s4.setCell k { s4.cell k with fe := FMap.erase (s4.cell k).fe (off / 16) } else s4) →
      s5.putLoaded f.d f.ty.toNat bs = .ok t → Ends (.lds f) s t .seq) := by
  obtain rfl := Starts.curKey st
  refine ⟨fun hq hturn => ?_, fun s4 s5 t hturn h4 h5 hput => ?_⟩
  · refine waits_of st rfl (fun _ => rfl) (seqM_error ?_)
    exact M.bind_of_ok haddr (M.bind_of_ok hacc (M.bind_of_ok hload (if_pos (heldBack_iff.2 ⟨hq, hturn⟩))))
  · subst h4 h5
    have hgo : ¬ (f.fl.getLsbD 0 && !(s3.cell k).bankTurn s0.curKey .a (off / 16) true) = true := fun h => by
      obtain ⟨hq, hno⟩ := heldBack_iff.1 h
      rw [hturn hq] at hno
      cases hno
    refine ends_of st rfl rfl (fun _ => rfl) (seqM_ok ?_)
    exact M.bind_of_ok haddr (M.bind_of_ok hacc (M.bind_of_ok hload (Eq.trans (if_neg hgo) hput)))

section
variable {f : Rrr} {s s0 s1 s2 s3 : State} {key k off : Nat} {e : EngTag} {addr lo hi : Word}

/-- STS that is not qualified stores as ST does. -/
theorem sts_ends {t : State} (st : Starts (.sts f) s key e s0)
    (hdata : s0.dataSrc f.d (litVal f.ty.toNat f.w1) (f.ty == 12) = .ok (lo, hi, s1)) (haddr : s1.memAddr f = .ok (addr, s2))
    (hacc : s2.access key
      { addr := addr, size := typeBytes f.ty.toNat, write := true, align := typeBytes f.ty.toNat, spadOnly := true }
        = .ok (.spad k off, s3)) (hq : f.fl.getLsbD 1 = false)
    (hstore : s3.spadStore key k off (storeBytes f.ty.toNat lo hi) (if f.fl.getLsbD 0 then [off / 16] else []) addr = .ok t) :
    Ends (.sts f) s t .seq := by
  obtain rfl := Starts.curKey st
  rw [isPair_eq] at hdata
  refine ends_of st rfl rfl (fun _ => rfl) (seqM_ok ?_)
  refine M.bind_of_ok hdata (M.bind_of_ok haddr (M.bind_of_ok hacc (Eq.trans (if_neg ?_) hstore)))
  rw [hq]
  exact Bool.false_ne_true

/-- A qualified STS waits for an empty granule, and stores where its turn has come: at once, in the own cell and at a peer. -/
theorem sts_waits_or_ends {s4 : State} (st : Starts (.sts f) s key e s0)
    (hdata : s0.dataSrc f.d (litVal f.ty.toNat f.w1) (f.ty == 12) = .ok (lo, hi, s1)) (haddr : s1.memAddr f = .ok (addr, s2))
    (hacc : s2.access key
      { addr := addr, size := typeBytes f.ty.toNat, write := true, align := typeBytes f.ty.toNat, spadOnly := true }
        = .ok (.spad k off, s3)) (hq : f.fl.getLsbD 1 = true)
    (hready : s3.bankReady key k addr = .ok ()) (hflush : s3.flushPeer key k = .ok s4) :
    ((s4.cell k).bankTurn key .a (off / 16) false = false →
      Waits (.sts f) s (s0.holdAt key k (off / 16) false) (if k = key then 9 else 12))
    ∧ ∀ t, (s4.cell k).bankTurn key .a (off / 16) false = true →
      (if k = key then (s4.unhold key k).spadStore key k off (storeBytes f.ty.toNat lo hi) (if f.fl.getLsbD 0 then [off / 16] else []) addr
        else .ok ((s4.unhold key k).setCell k (((s4.unhold key k).cell k).spadPut (writesOf off (storeBytes f.ty.toNat lo hi))
          (if f.fl.getLsbD 0 then [off / 16] else [])))) = .ok t → Ends (.sts f) s t .seq := by
  obtain rfl := Starts.curKey st
  rw [isPair_eq] at hdata
  refine ⟨fun hturn => ?_, fun t hturn hstore => ?_⟩
  · refine waits_of st rfl (fun _ => rfl) (seqM_error ?_)
    refine M.bind_of_ok hdata (M.bind_of_ok haddr (M.bind_of_ok hacc (Eq.trans (if_pos hq)
      (M.bind_of_ok hready (M.bind_of_ok hflush (if_pos ?_))))))
    rw [hturn]
    rfl
  · refine ends_of st rfl rfl (fun _ => rfl) (seqM_ok ?_)
    refine M.bind_of_ok hdata (M.bind_of_ok haddr (M.bind_of_ok hacc (Eq.trans (if_pos hq)
      (M.bind_of_ok hready (M.bind_of_ok hflush (Eq.trans (if_neg ?_) hstore))))))
    rw [hturn]
    exact Bool.false_ne_true

end

/-- Settles O30: each word makes its access and then meets its bank, or stores at once. -/
theorem qualifiedAccessesComplete : Obligations.QualifiedAccessesComplete := by
  refine ⟨fun f s key e s0 addr s1 k off s2 bs s3 => lds_waits_or_ends, ?_⟩
  rintro f s key e s0 lo hi s1 addr s2 k off s3 bs fill st hdata haddr hacc rfl rfl
  refine ⟨fun t hq hstore => sts_ends st hdata haddr hacc hq hstore, fun s4 hq hready hflush => ?_⟩
  obtain ⟨hwaits, hends⟩ := sts_waits_or_ends st hdata haddr hacc hq hready hflush
  refine ⟨hwaits, fun t hturn hk hstore => hends t hturn ?_, fun s5 hturn hk h5 => hends _ hturn ?_⟩
  · subst hk
    exact (if_pos rfl).trans hstore
  · subst h5
    exact if_neg hk

end Sys2Proof.Machine
end

