-- ==== Sys2Proof/Proofs/Rings.lean ====
section
/-! SUPPORT. The ring words (R164 to R168): the ring a word works on, its slots, and its configuration. -/

namespace Sys2Proof.Machine

open Claims

/-! ## The ring of a word -/

/-- Check 9 on a ring's granule leaves the executing cell the same. -/
theorem State.watchRing_curKey {s t : State} {key n : Nat} {addr : Word} (h : s.watchRing key addr n = .ok t) :
    t.curKey = s.curKey := by
  unfold State.watchRing State.watchAt at h
  dsimp only at h
  split at h
  · cases h; rfl
  · split at h
    · cases h
    · cases h; split <;> rfl

section
variable {s : State} {n : Nat}

theorem State.ringOf_unconfigured (h : (s.core.ring n).cnt = 0) : s.ringOf n = .error (.cause { code := 0x26 } none) := if_pos h

theorem State.ringOf_configured (h : (s.core.ring n).cnt ≠ 0) : s.ringOf n = .ok (s.core.ring n) := if_neg h

end

section
variable {f : Rrr} {s s0 s1 : State} {key : Nat} {e : EngTag}

theorem ringWords_unconfigured (hc : (s0.core.ring f.rs.toNat).cnt = 0) :
    ∀ i ∈ [Instr.rclaim f, .rcommit f, .rtake f, .rdone f, .waitfill f, .waitfree f], Starts i s key e s0 →
      Raises i s { code := 0x26 } := by
  have hring := State.ringOf_unconfigured hc
  simp only [List.forall_mem_cons, List.not_mem_nil, false_imp_iff, implies_true, and_true]
  refine ⟨fun st => ?_, fun st => ?_, fun st => ?_, fun st => ?_, fun st => ?_, fun st => ?_⟩
  case refine_5 | refine_6 => exact raises_of st rfl (fun _ => rfl) (M.bind_of_error hring)
  all_goals exact raises_of st rfl (fun _ => rfl) (seqM_error (M.bind_of_error hring))

/-- WAITFILL and WAITFREE, by the count they wait for. -/
theorem ringWait_outcomes {i : Instr} {have_ : Ring → Nat} {a : Word} {r : Ring} (hi : i.body = .rrr f)
    (hx : ∀ s, exec i s = ringWait f have_ s) (st : Starts i s key e s0) (hr : r = s0.core.ring f.rs.toNat) (hc : r.cnt ≠ 0)
    (hw : (s0.core.eng e).waitVal = none) (hsrc : s0.src f.a (litVal 0 f.w1) = .ok (a, s1)) :
    (a.toNat ≤ have_ r → a.toNat ≤ r.cnt → Ends i s (s1.modEng fun g => { g with waitVal := some a }) .seq)
    ∧ (have_ r < a.toNat → a.toNat ≤ r.cnt → Waits i s (s1.modEng fun g => { g with waitVal := some a }) 9)
    ∧ (r.cnt < a.toNat → Raises i s { code := 0x26 }) := by
  subst hr
  have hring := State.ringOf_configured hc
  have hheld := State.heldOperand_fresh ((Starts.curEng st).symm ▸ hw) hsrc
  have hh : i.body.hdr = some f.hdr := by rw [hi]; rfl
  refine ⟨fun hle hcnt => ends_of st hh (by rw [hi]; rfl) hx ?_, fun hlt hcnt => waits_of st hh hx ?_, fun hlt => raises_of st hh hx ?_⟩
  · exact M.bind_of_ok hring (M.bind_of_ok hheld (Eq.trans (if_neg (Nat.not_lt.2 hcnt)) (if_pos hle)))
  · exact M.bind_of_ok hring (M.bind_of_ok hheld (Eq.trans (if_neg (Nat.not_lt.2 hcnt)) (if_neg (Nat.not_le.2 hlt))))
  · exact M.bind_of_ok hring (M.bind_of_ok hheld (if_pos hlt))

end

theorem ringWordsComplete : RingWordsComplete := by
  refine ⟨fun f s key e s0 i hm st hc => ringWords_unconfigured hc i hm st, ?_, ?_, ?_, ?_, ?_⟩
  · rintro f s key e s0 r t st rfl hc
    have hring := State.ringOf_configured hc
    refine ⟨fun hfree hd => ends_of st rfl rfl (fun _ => rfl) (seqM_ok ?_),
      fun hfree hd => ends_of st rfl rfl (fun _ => rfl) (seqM_ok ?_)⟩
    · exact M.bind_of_ok hring (Eq.trans (if_pos hfree) hd)
    · exact M.bind_of_ok hring (Eq.trans (if_neg hfree) hd)
  · rintro f s key e s0 r t st rfl hc
    have hring := State.ringOf_configured hc
    refine ⟨fun hfilled hd => ends_of st rfl rfl (fun _ => rfl) (seqM_ok ?_),
      fun hfilled hd => ends_of st rfl rfl (fun _ => rfl) (seqM_ok ?_)⟩
    · exact M.bind_of_ok hring (Eq.trans (if_pos hfilled) hd)
    · exact M.bind_of_ok hring (Eq.trans (if_neg hfilled) hd)
  · rintro f s key e s0 r st rfl hc
    have hring := State.ringOf_configured hc
    refine ⟨fun htaken => raises_of st rfl (fun _ => rfl) (seqM_error ?_),
      fun htaken => ends_of st rfl rfl (fun _ => rfl) (seqM_ok ?_)⟩
    · exact M.bind_of_ok hring (if_pos htaken)
    · exact M.bind_of_ok hring (if_neg htaken)
  · rintro f s key e s0 r st rfl hc hpending
    obtain rfl := Starts.curKey st
    have hring := State.ringOf_configured hc
    have hnow : ¬ s0.core.pendingCommits f.rs.toNat ≠ 0 := not_not.2 hpending
    refine ⟨fun hclaimed => raises_of st rfl (fun _ => rfl) (seqM_error ?_),
      fun s1 hclaimed hready hwatch => ends_of st rfl rfl (fun _ => rfl) (seqM_ok ?_)⟩
    · exact M.bind_of_ok hring (Eq.trans (if_neg hnow) (if_pos hclaimed))
    · refine M.bind_of_ok hring (Eq.trans (if_neg hnow) (Eq.trans (if_neg hclaimed) ?_))
      refine M.bind_of_ok hready (M.bind_of_ok hwatch ?_)
      rw [State.watchRing_curKey hwatch]
  · rintro f s key e s0 r a s1 i have_ (⟨rfl, rfl⟩ | ⟨rfl, rfl⟩) st hr hc hw hsrc
    · exact ringWait_outcomes rfl (fun _ => rfl) st hr hc hw hsrc
    · exact ringWait_outcomes rfl (fun _ => rfl) st hr hc hw hsrc

/-! ## The configuration of a ring (R165) -/

/-- The operands and the ring that RCLAIM .cfg takes (R165; log entry 149). -/
theorem configRefused_iff {a b : Word} {off pending : Nat} (old : Ring) : (!canonical a || a.toNat % 16 != 0 || natBits b.toNat 16 16 != 0
      || natBits b.toNat 48 16 != 0 || natBits b.toNat 0 16 == 0 || decide (4096 < natBits b.toNat 0 16) || natBits b.toNat 32 16 == 0
      || decide (spadBytes < off + (natBits b.toNat 0 16 * (16 * natBits b.toNat 32 16) + 32)) || old.taken != 0 || old.filled != 0
      || old.claimed != 0 || pending != 0) = true
    ↔ ¬ (canonical a = true ∧ a.toNat % 16 = 0 ∧ b.toNat / 2 ^ 16 % 2 ^ 16 = 0 ∧ b.toNat / 2 ^ 48 = 0 ∧ 1 ≤ natBits b.toNat 0 16
      ∧ natBits b.toNat 0 16 ≤ 4096 ∧ 1 ≤ natBits b.toNat 32 16
      ∧ off + natBits b.toNat 0 16 * (16 * natBits b.toNat 32 16) + 32 ≤ spadBytes ∧ old.taken = 0 ∧ old.filled = 0
      ∧ old.claimed = 0 ∧ pending = 0) := by
  have hhigh : natBits b.toNat 48 16 = b.toNat / 2 ^ 48 := by
    rw [natBits_eq, Nat.mod_eq_of_lt]
    have := b.isLt
    omega
  rw [hhigh, natBits_eq b.toNat 16 16, ← not_iff_not, not_not, Bool.not_eq_true]
  simp only [Bool.or_eq_false_iff, Bool.not_eq_false', bne_eq_false_iff_eq, beq_eq_false_iff_ne, decide_eq_false_iff_not, Nat.not_lt,
    Nat.one_le_iff_ne_zero, and_assoc, Nat.add_assoc]

theorem ringConfiguration : RingConfiguration := by
  intro f s key e s0 a b s1 off cnt units st hab hcnt hunits hwin
  obtain ⟨u, ha, hb⟩ := hab
  obtain rfl := Starts.curKey st
  obtain rfl : cnt = natBits b.toNat 0 16 := hcnt.trans (by rw [natBits_eq, Nat.pow_zero, Nat.div_one])
  obtain rfl : units = natBits b.toNat 32 16 := hunits.trans (natBits_eq _ _ _).symm
  intro old ok
  refine ⟨fun hbad => ?_, fun s2 hok hready hwatch => ?_⟩
  · refine raises_of st rfl (fun _ => rfl) (seqM_error (M.bind_of_ok ha (M.bind_of_ok hb ?_)))
    simp only [hwin]
    exact if_pos ((configRefused_iff old).2 hbad)
  · refine ends_of st rfl rfl (fun _ => rfl) (seqM_ok (M.bind_of_ok ha (M.bind_of_ok hb ?_)))
    simp only [hwin]
    exact Eq.trans (if_neg fun h => (configRefused_iff old).1 h hok) (M.bind_of_ok hready (M.bind_of_ok hwatch rfl))

/-- Settles O31: each word finds its ring and acts on its counts; a configuration passes its conditions or raises 0x26. -/
theorem ringWordsAndConfiguration : Obligations.RingWordsAndConfiguration := ⟨ringWordsComplete, ringConfiguration⟩

end Sys2Proof.Machine
end

