-- ==== Sys2Proof/Proofs/Atomics.lean ====
section
/-! SUPPORT. The atomics (R169 to R171). -/

namespace Sys2Proof.Machine

open Claims

/-- A computation goes on from what one of two gives, whichever is chosen. -/
theorem M.ite_bind_of_ok {α β : Type} {p : Prop} [Decidable p] {r r' : M α} {x : α} {f : α → M β} {y : M β}
    (h : (if p then r else r') = .ok x) (hf : f x = y) : (if p then r >>= f else r' >>= f) = y := by
  by_cases hp : p
  · rw [if_pos hp] at h ⊢
    exact M.bind_of_ok h hf
  · rw [if_neg hp] at h ⊢
    exact M.bind_of_ok h hf

theorem isDouble_iff (ty : BitVec 4) : ty = 8 ↔ ty.toNat = 8 := BitVec.toNat_inj.symm

theorem atomic_ends {i : Instr} {op : Nat} {pair : Bool} {f : Rrr} {s s0 s1 s2 s3 s4 s5 t : State} {key old : Nat} {e : EngTag} {v v2 addr : Word} {p : Place}
    {a : AtomOp} (hi : i.body = .rrr f)
    (hx : ∀ s, exec i s = atomic op pair f s) (st : Starts i s key e s0) (hv : s0.readReg f.d.toNat = .ok v)
    (hv2 : (if pair then s0.readReg (f.d.toNat + 1) else .ok 0) = .ok v2) (haddr : s0.memAddr f = .ok (addr, s1))
    (hacc : s1.access key
      { addr := addr, size := typeBytes f.ty.toNat, write := true, atomic := true, atomScope := f.rs.toNat,
        align := typeBytes f.ty.toNat, scope := f.rs.toNat } = .ok (p, s2))
    (ha : a = ⟨op, f.ty.toNat, v.toNat % 2 ^ (8 * typeBytes f.ty.toNat), v2.toNat % 2 ^ (8 * typeBytes f.ty.toNat)⟩)
    (hrel : (if f.fl.getLsbD 1 then s2.release key s0.curPart f.rs.toNat else .ok s2) = .ok s3)
    (hdone : (∃ k off, p = .spad k off ∧ s3.spadAtomic key k off a addr = .ok (old, s4))
      ∨ ∃ loc, p = .line loc ∧ s3.lineAtomic key s0.curPart loc f.rs.toNat a (s3.identOf 0) = .ok (old, s4))
    (hd : (if f.fl.getLsbD 0 then s4.acquire key s0.curPart f.rs.toNat else s4).writeReg f.d.toNat
      (loadWord (if isFloatType f.ty.toNat then (if f.ty = 8 then 1 else 3) else f.ty.toNat)
        (leBytes (typeBytes f.ty.toNat) old)) = .ok s5)
    (hflag : (if op = 10 then s5.writeReg (f.d.toNat + 1) (if (a.new old).2 then 1 else 0) else .ok s5) = .ok t) :
    Ends i s t .seq := by
  obtain rfl := Starts.curKey st
  have hh : i.body.hdr = some f.hdr := by rw [hi]; rfl
  refine ends_of st hh (by rw [hi]; rfl) hx (seqM_ok ?_)
  subst ha
  simp only [isDouble_iff] at hd
  refine M.bind_of_ok hv (M.ite_bind_of_ok hv2 (M.bind_of_ok haddr (M.bind_of_ok hacc (M.ite_bind_of_ok hrel ?_))))
  rcases hdone with ⟨k, off, rfl, hs⟩ | ⟨loc, rfl, hl⟩
  · exact M.bind_of_ok hs (M.bind_of_ok hd hflag)
  · exact M.bind_of_ok (atAddr_ok hl) (M.bind_of_ok hd hflag)

theorem atomicsComplete : AtomicsComplete := by
  intro f i op pair s key e s0 v v2 addr s1 p s2 a s3 old s4 s5 t hm
  simp only [List.mem_cons, List.not_mem_nil, or_false, Prod.mk.injEq] at hm
  rcases hm with ⟨rfl, rfl, rfl⟩ | ⟨rfl, rfl, rfl⟩ | ⟨rfl, rfl, rfl⟩ | ⟨rfl, rfl, rfl⟩ | ⟨rfl, rfl, rfl⟩ | ⟨rfl, rfl, rfl⟩ | ⟨rfl, rfl, rfl⟩
    | ⟨rfl, rfl, rfl⟩ | ⟨rfl, rfl, rfl⟩ | ⟨rfl, rfl, rfl⟩ | ⟨rfl, rfl, rfl⟩
  all_goals exact atomic_ends rfl fun _ => rfl

/-! ## The functions (R170) -/

section
variable {ty old v v2 : Nat}

/-- The lesser of two numbers, as the type reads them, is one of them. -/
theorem combine_min (hf : isFloatType ty = false) : ∃ x, combine 4 ty old v = x ∧ (x = old ∨ x = v)
    ∧ (ITy.ofCode ty).read x = min ((ITy.ofCode ty).read old) ((ITy.ofCode ty).read v) := by
  simp only [combine, hf, Bool.false_eq_true, if_false]
  split
  · next h => exact ⟨_, rfl, .inl rfl, (min_eq_left h).symm⟩
  · next h => exact ⟨_, rfl, .inr rfl, (min_eq_right (le_of_not_ge h)).symm⟩

theorem combine_max (hf : isFloatType ty = false) : ∃ x, combine 5 ty old v = x ∧ (x = old ∨ x = v)
    ∧ (ITy.ofCode ty).read x = max ((ITy.ofCode ty).read old) ((ITy.ofCode ty).read v) := by
  simp only [combine, hf, Bool.false_eq_true, if_false]
  split
  · next h => exact ⟨_, rfl, .inl rfl, (max_eq_left h).symm⟩
  · next h => exact ⟨_, rfl, .inr rfl, (max_eq_right (le_of_not_ge h)).symm⟩

/-- The first six operations write what they combine. -/
theorem AtomOp.new_combine {op : Nat} (h : op ≤ 5) : AtomOp.new ⟨op, ty, v, v2⟩ old = (some (combine op ty old v), true) := if_pos h

end

theorem atomicFunctions : AtomicFunctions := by
  intro ty old v v2 hf
  have hwrites : ∀ {op x : Nat}, op ≤ 5 → combine op ty old v = x → AtomOp.new ⟨op, ty, v, v2⟩ old = (some x, true) :=
    fun h hx => by rw [AtomOp.new_combine h, hx]
  obtain ⟨lo, hlo, hmin⟩ := combine_min (old := old) (v := v) hf
  obtain ⟨hi, hhi, hmax⟩ := combine_max (old := old) (v := v) hf
  refine ⟨hwrites (by decide) ?_, hwrites (by decide) ?_, hwrites (by decide) ?_, hwrites (by decide) ?_,
    ⟨lo, hwrites (by decide) hlo, hmin⟩, ⟨hi, hwrites (by decide) hhi, hmax⟩, rfl, rfl, rfl, rfl,
    fun hw hle => if_pos ⟨hw, hle⟩, fun h => if_neg (not_and_or.2 (h.imp Nat.not_lt.2 Nat.not_le.2))⟩
  all_goals simp only [combine, hf, Bool.false_eq_true, if_false]

/-! ## On the own scratchpad (R171) -/

/-- R171: an atomic on the own scratchpad reads, and writes what its function gives. -/
theorem State.spadAtomic_own {s : State} {key off : Nat} {a : AtomOp} (addr : Word) (hp : (s.cell key).phase ≠ .clearing)
    (hl : (s.cell key).locked off (typeBytes a.ty) = false) :
    s.spadAtomic key key off a addr = .ok (leNat (Memory.readN (s.cell key).spad off (typeBytes a.ty)),
      match (a.new (leNat (Memory.readN (s.cell key).spad off (typeBytes a.ty)))).1 with
      | some x => s.setCell key ((s.cell key).spadPut (writesOf off (leBytes (typeBytes a.ty) x)) [])
      | none => s) := by
  refine M.bind_of_ok (s.bankReady_own key addr) (M.bind_of_ok (State.spadReady_ok hp hl) (M.bind_of_ok (s.flushPeer_own key) ?_))
  simp only [Cell.spadRead]
  cases (a.new (leNat (Memory.readN (s.cell key).spad off (typeBytes a.ty)))).1 <;> rfl

/-- A byte of a number's bytes. -/
theorem leBytes_getD (n x : Nat) {i : Nat} (h : i < n) : (leBytes n x).getD i 0 = BitVec.ofNat 8 (x / 256 ^ i) := by
  induction n generalizing x i with
  | zero => omega
  | succ n ih =>
    cases i with
    | zero => simp [leBytes]
    | succ i => rw [leBytes, List.getD_cons_succ, ih _ (by omega), Nat.div_div_eq_div_mul, Nat.pow_succ']

theorem scratchpadAtomics : ScratchpadAtomics := by
  intro s key off a addr hp hl
  refine ⟨_, State.spadAtomic_own addr hp hl, ?_⟩
  cases (a.new (leNat (Memory.readN (s.cell key).spad off (typeBytes a.ty)))).1 with
  | none => exact ⟨⟨rfl, fun _ _ => rfl⟩, fun _ _ => rfl, fun _ h => (nomatch h), fun _ => rfl⟩
  | some x =>
    have hread := fun b => Memory.read_writesOf (leBytes (typeBytes a.ty) x) off (s.cell key).spad b
    rw [leBytes_length] at hread
    refine ⟨s.setCell_frame key _, fun b hb => ?_, fun y hy i hi => ?_, fun h => (nomatch h)⟩
    · rw [State.cell_setCell_same]
      exact (hread b).trans (if_neg (by omega))
    · obtain rfl : x = y := Option.some.inj hy
      rw [State.cell_setCell_same]
      refine (hread (off + i)).trans ((if_pos (by omega)).trans ?_)
      rw [Nat.add_sub_cancel_left, leBytes_getD _ _ hi]

/-- Settles O32: an atomic ends with what its operation gives, and the operations and the bytes they write are as R170 and R171 say. -/
theorem atomicWords : Obligations.AtomicWords := ⟨atomicsComplete, atomicFunctions, scratchpadAtomics⟩

end Sys2Proof.Machine
end

