-- ==== Sys2Proof/Proofs/AccessFrames.lean ====
section
/-! SUPPORT. What a release (R176) leaves unchanged: it writes back the L1 and performs messages at their homes, and these
change the memory system only. -/

namespace Sys2Proof.Machine

variable {s t : State} {key chip : Nat}

/-- A state without its memory system: what neither a message performed nor a line written back changes is left. -/
def State.besideMemory (s : State) : State :=
  { s with drawn := 0, actor := none, cells := [], dies := [], mem := [], bad := [], buffers := [], ueFound := [] }

theorem State.cur_of_besideMemory (h : t.besideMemory = s.besideMemory) : t.cur = s.cur := by
  change t.besideMemory.cur = s.besideMemory.cur
  rw [h]

theorem State.tick_of_besideMemory (h : t.besideMemory = s.besideMemory) : t.tick = s.tick := by
  change t.besideMemory.tick = s.besideMemory.tick
  rw [h]

/-! ## Tiles and homes -/

@[simp] theorem State.touchTile_beside (s : State) (loc : Nat) : (s.touchTile loc).besideMemory = s.besideMemory := by
  unfold State.touchTile
  split
  · dsimp only; split <;> rfl
  · rfl

@[simp] theorem State.dcNote_beside (s : State) (loc : Nat) (dirty : Bool) :
    (s.dcNote loc dirty).besideMemory = s.besideMemory := by
  unfold State.dcNote
  dsimp only
  split <;> rfl

@[simp] theorem State.putAt_beside (s : State) (loc : Nat) (ws : List ByteWrite) :
    (s.putAt loc ws).besideMemory = s.besideMemory := by
  rw [State.putAt, State.homeTouch, State.dcNote_beside, State.touchTile_beside, State.eccWrite]
  split <;> rfl

theorem State.homeTurn_beside {loc : Nat} (h : s.homeTurn loc = .ok t) : t.besideMemory = s.besideMemory := by
  unfold State.homeTurn at h
  split at h
  · cases h
  · split at h
    · cases h; rfl
    · cases h; split <;> rfl

theorem State.warm_beside {loc : Nat} (h : s.warm loc = .ok t) : t.besideMemory = s.besideMemory := by
  unfold State.warm at h
  split at h
  · split at h
    · split at h
      · cases h; rfl
      · cases h
    · cases h; rfl
  · cases h; rfl

theorem State.homeWrite_beside {loc : Nat} {ws : List ByteWrite} (h : s.homeWrite loc ws = .ok t) :
    t.besideMemory = s.besideMemory := by
  obtain ⟨s1, h1, h⟩ := ok_of_bind h
  obtain ⟨s2, h2, h⟩ := ok_of_bind h
  cases h
  rw [State.putAt_beside, State.warm_beside h2, State.homeTurn_beside h1]

@[simp] theorem State.viewOf_beside (s : State) (key part scope loc : Nat) :
    (s.viewOf key part scope loc).2.besideMemory = s.besideMemory := by
  unfold State.viewOf
  split
  · rfl
  · dsimp only; split <;> rfl

/-! ## Messages -/

@[simp] theorem State.performPeer_beside (s : State) (chip : Nat) (m : Msg) :
    (s.performPeer chip m).besideMemory = s.besideMemory := by
  unfold State.performPeer
  dsimp only
  split
  · rfl
  · split
    · split <;> rfl
    · rfl

@[simp] theorem State.noteApplied_beside (s : State) (chip home n : Nat) (old : Word) :
    (s.noteApplied chip home n old).besideMemory = s.besideMemory := by
  unfold State.noteApplied
  split <;> rfl

@[simp] theorem State.performed_beside (s : State) (chip : Nat) (m : Msg) :
    (s.performed chip m).besideMemory = s.besideMemory := by
  unfold State.performed
  dsimp only
  split <;> exact s.noteApplied_beside chip m.home m.seq 0

theorem State.perform_beside {m : Msg} (h : s.perform chip m = .ok t) : t.besideMemory = s.besideMemory := by
  unfold State.perform at h
  split at h
  · cases h; exact s.performPeer_beside chip m
  · split at h
    · cases h; rfl
    · obtain ⟨u, hu, rfl⟩ := ok_of_map h
      exact (u.performed_beside chip m).trans ((State.homeWrite_beside hu).trans (State.viewOf_beside _ _ _ _ _))

/-- What every step of a run of steps leaves, the run leaves. -/
theorem foldlM_beside {α : Type} {f : State → α → M State}
    (hf : ∀ s t x, f s x = .ok t → t.besideMemory = s.besideMemory) (l : List α) (h : l.foldlM f s = .ok t) :
    t.besideMemory = s.besideMemory := by
  induction l generalizing s with
  | nil => cases h; rfl
  | cons x l ih =>
    obtain ⟨u, hu, h⟩ := ok_of_bind h
    exact (ih h).trans (hf s u x hu)

theorem State.flush_beside {p : Msg → Bool} (h : s.flush chip p = .ok t) : t.besideMemory = s.besideMemory :=
  foldlM_beside (fun _ _ _ hx => by
    obtain ⟨v, hv, rfl⟩ := ok_of_map hx
    exact (State.perform_beside hv :)) _ h

theorem State.post_beside {cell dest : Nat} {wt : Bool} {ws : List ByteWrite} (h : s.post chip cell dest wt ws = .ok t) :
    t.besideMemory = s.besideMemory := by
  obtain ⟨-, -, h⟩ := ok_of_bind h
  split at h
  · cases h
  · cases h; rfl

/-! ## Lines written back -/

@[simp] theorem State.rdcAlloc_beside (s : State) (chip line : Nat) :
    (s.rdcAlloc chip line).besideMemory = s.besideMemory := by
  unfold State.rdcAlloc
  dsimp only
  split
  · rfl
  · split <;> rfl

theorem State.dieWrite_beside {cell part loc : Nat} {ws : List ByteWrite} {alloc : Bool}
    (h : s.dieWrite chip cell part loc ws alloc = .ok t) : t.besideMemory = s.besideMemory := by
  unfold State.dieWrite at h
  dsimp only at h
  split at h
  · split at h
    · exact (State.post_beside h).trans (s.rdcAlloc_beside chip _)
    · exact State.post_beside h
  · exact State.post_beside h

theorem State.l1Evict_beside {part line : Nat} {drop : Bool} (h : s.l1Evict key part line drop = .ok t) :
    t.besideMemory = s.besideMemory := by
  unfold State.l1Evict at h
  dsimp only at h
  split at h
  · cases h; rfl
  · refine (State.dieWrite_beside h).trans ?_
    split <;> rfl

theorem State.l1Clean_beside {part line : Nat} (h : s.l1Clean key part line = .ok t) : t.besideMemory = s.besideMemory := by
  unfold State.l1Clean at h
  split at h
  · obtain ⟨u, hu, h⟩ := ok_of_bind h
    exact (State.l1Evict_beside h).trans (State.flush_beside hu)
  · exact State.l1Evict_beside h

theorem State.cleanL1_beside {part : Nat} (h : s.cleanL1 key part = .ok t) : t.besideMemory = s.besideMemory :=
  foldlM_beside (fun _ _ _ => State.l1Clean_beside) _ h

/-- A release changes the memory system only. -/
theorem State.release_beside {part scope : Nat} (h : s.release key part scope = .ok t) :
    t.besideMemory = s.besideMemory := by
  unfold State.release at h
  dsimp only at h
  split at h
  · exact State.flush_beside h
  · obtain ⟨u, hu, h⟩ := ok_of_bind h
    have hc := State.cleanL1_beside hu
    split at h <;> exact (State.flush_beside h).trans hc

theorem State.release_cur {part scope : Nat} (h : s.release key part scope = .ok t) : t.cur = s.cur :=
  State.cur_of_besideMemory (State.release_beside h)

theorem State.release_curKey {part scope : Nat} (h : s.release key part scope = .ok t) : t.curKey = s.curKey := by
  rw [State.curKey, State.release_cur h, State.curKey]

theorem State.release_tick {part scope : Nat} (h : s.release key part scope = .ok t) : t.tick = s.tick :=
  State.tick_of_besideMemory (State.release_beside h)

end Sys2Proof.Machine
end

