-- ==== Sys2Proof/Proofs/Ordering.lean ====
section
/-! SUPPORT. The ordering words (R176, R177): what REL, ACQ, PHASE and BAR come to, and what an acquire drops. -/

namespace Sys2Proof.Machine

open Claims

/-! ## Barriers (R177) -/

section
variable {i : Instr} {f : Rrr} {s s0 s1 s2 : State} {key k : Nat} {e : EngTag} {node : Bool}

theorem barrier_outcomes (hi : i.body = .rrr f) (hx : ∀ s, exec i s = barrier node f s) (st : Starts i s key e s0)
    (hw : (s0.core.eng e).waitVal = none) (hrel : s0.release key s0.curPart f.rs.toNat = .ok s1)
    (hk : k = s1.core.barCount node + 1)
    (h2 : s2 = (s1.setCore (if node then { s1.core with barNode := k } else { s1.core with barDie := k })).modEng
      (fun g => { g with waitVal := some (BitVec.ofNat 64 k) })) :
    ((∀ x ∈ s2.participants node, x.2.engA.done = true ∨ k ≤ x.2.barCount node) → Ends i s (s2.acquire key s2.curPart f.rs.toNat) .seq)
    ∧ ((∃ x ∈ s2.participants node, x.2.engA.done = false ∧ x.2.barCount node < k) → Waits i s s2 12) := by
  obtain rfl := Starts.curKey st
  have hh : i.body.hdr = some f.hdr := by rw [hi]; rfl
  have hfresh : (s0.core.eng s0.curEng).waitVal = none := by rw [Starts.curEng st]; exact hw
  subst hk h2
  refine ⟨fun hall => ends_of st hh (by rw [hi]; rfl) hx ?_, fun hsome => waits_of st hh hx ?_⟩
  · simp only [hfresh]
    exact M.bind_of_ok hrel (if_pos (List.all_eq_true.mpr fun x hx => by simpa using hall x hx))
  · simp only [hfresh]
    refine M.bind_of_ok hrel (if_neg fun hall => ?_)
    obtain ⟨x, hx, hend, hk⟩ := hsome
    have hx' := List.all_eq_true.mp hall x hx
    simp [hend] at hx'
    omega

end

theorem orderingWordsComplete : OrderingWordsComplete := by
  refine ⟨fun f s key e s0 t st h => ?_, fun f s key e s0 st => ?_, fun f s key e s0 s1 st h => ?_, ?_⟩
  · obtain rfl := Starts.curKey st
    exact ends_of st rfl rfl (fun _ => rfl) (seqM_ok h)
  · obtain rfl := Starts.curKey st
    exact ends_of st rfl rfl (fun _ => rfl) rfl
  · obtain rfl := Starts.curKey st
    refine ends_of st rfl rfl (fun _ => rfl) (seqM_ok (M.bind_of_ok h ?_))
    rw [State.release_curKey h]
  · rintro f s key e s0 s1 s2 i node k (⟨rfl, rfl⟩ | ⟨rfl, rfl⟩) st hw hrel hk h2
    · exact barrier_outcomes rfl (fun _ => rfl) st hw hrel hk h2
    · exact barrier_outcomes rfl (fun _ => rfl) st hw hrel hk h2

/-! ## What an acquire drops (R176) -/

section
variable {s : State} {key part scope : Nat}

/-- The cell after an acquire at DIE or wider: its clean copies are gone. -/
def Cell.acquired (c : Cell) (scope chip : Nat) : Cell :=
  { c with
    l1 := c.l1.filter fun e => e.2.dirty
    l1Tag := c.l1Tag.filter fun e => (c.l1.filter fun e => e.2.dirty).any fun x => lineOf x.1 == e.1
    oldView := c.orderAfter scope chip }

/-- The die after an acquire at STACK or wider: its copies of the lines that the scope drops are gone. -/
def State.acquiredDie (s : State) (key part scope : Nat) : Die :=
  let keep := fun loc => !s.dropsLine (s.cell key) part scope loc
  { s.die (keyChip key) with
    rdc := (s.die (keyChip key)).rdc.filter fun e => keep e.1
    rdcHas := (s.die (keyChip key)).rdcHas.filter fun e => keep e.1
    rdcTag := (s.die (keyChip key)).rdcTag.filter fun e => keep e.1
    rows := (s.die (keyChip key)).rows.filter fun e => keep e.1 }

theorem State.cell_setDie (s : State) (chip k : Nat) (d : Die) : (s.setDie chip d).cell k = s.cell k := rfl

theorem State.die_setDie_ne (s : State) {chip k : Nat} (d : Die) (h : k ≠ chip) : (s.setDie chip d).die k = s.die k := by
  rw [State.die, FMap.get, State.find?_setDie_ne _ _ h, State.die, FMap.get]

theorem State.acquire_cell : s.acquire key part 0 = s := rfl

theorem State.acquire_die : s.acquire key part 1 = s.setCell key ((s.cell key).acquired 1 (keyChip key)) := rfl

theorem State.acquire_wide (h : 2 ≤ scope) : s.acquire key part scope
    = (s.setCell key ((s.cell key).acquired scope (keyChip key))).setDie (keyChip key) (s.acquiredDie key part scope) := by
  have h1 : 1 ≤ scope := by omega
  simp only [State.acquire, if_pos h1, if_pos h]
  rfl

end

theorem acquireDropsCopies : AcquireDropsCopies := by
  rintro s key part scope t rfl
  obtain rfl | rfl | h2 : scope = 0 ∨ scope = 1 ∨ 2 ≤ scope := by omega
  · rw [State.acquire_cell]
    exact ⟨rfl, fun _ _ => rfl, fun _ => rfl, fun h => absurd h (by omega), rfl, rfl, fun _ _ => rfl,
      fun h => absurd h (by omega)⟩
  · rw [State.acquire_die, State.cell_setCell_same]
    exact ⟨rfl, fun _ hk => s.find?_setCell_ne _ hk, fun h => absurd h (by omega), fun _ => rfl, rfl, rfl, fun _ _ => rfl,
      fun h => absurd h (by omega)⟩
  · rw [State.acquire_wide h2, State.cell_setDie, State.cell_setCell_same, State.die_setDie_same]
    refine ⟨rfl, fun _ hk => s.find?_setCell_ne _ hk, fun h => absurd h (by omega), fun _ => rfl, rfl, rfl,
      fun _ hc => State.die_setDie_ne _ _ hc, fun _ loc hdrop => ?_⟩
    exact (FMap.find?_filter _ (fun l => !s.dropsLine (s.cell key) part scope l) loc).trans (by rw [hdrop]; rfl)

/-- Settles O33: the words end in `release` and `acquire`, and an acquire is told scope by scope. -/
theorem orderingWords : Obligations.OrderingWords := ⟨orderingWordsComplete, acquireDropsCopies⟩

end Sys2Proof.Machine
end

