-- ==== Sys2Proof/Proofs/Capabilities.lean ====
section
/-! SUPPORT. The checks on capability slots (R196), and what the capability words come to (R197 to R200, R300). -/

namespace Sys2Proof.Machine

open Claims

/-! ## The checks on a slot (R196) -/

section
variable {s : State} {n : Nat} {rights : BitVec 4}

theorem State.checkSlot_empty (h : s.slot n = 0) : s.checkSlot n rights = raiseSlot 0x43 n := if_pos h

theorem State.checkSlot_refused {code : BitVec 8} (h : s.slot n ≠ 0)
    (hc : s.capCheck (s.nodeCtx s.curNode) (s.slot n) rights = some code) : s.checkSlot n rights = raiseSlot code n :=
  Eq.trans (if_neg h) (by rw [hc])

theorem State.checkSlot_ok_iff {c : Cap} : s.checkSlot n rights = .ok c
    ↔ c = s.slot n ∧ c ≠ 0 ∧ s.capCheck (s.nodeCtx s.curNode) c rights = none := by
  by_cases h : s.slot n = 0
  · rw [State.checkSlot_empty h]
    exact ⟨nofun, fun ⟨hc, hne, _⟩ => absurd (hc.trans h) hne⟩
  · cases hc : s.capCheck (s.nodeCtx s.curNode) (s.slot n) rights with
    | some code =>
      rw [State.checkSlot_refused h hc]
      exact ⟨nofun, fun ⟨he, _, hn⟩ => by rw [he, hc] at hn; cases hn⟩
    | none =>
      have hok : s.checkSlot n rights = .ok (s.slot n) := Eq.trans (if_neg h) (by rw [hc])
      rw [hok]
      exact ⟨fun he => by cases he; exact ⟨rfl, h, hc⟩, fun ⟨he, _, _⟩ => by rw [he]⟩

theorem State.capCheck_rights {ctx : Nat} {c : Cap} (h : capRights c &&& rights ≠ rights) :
    s.capCheck ctx c rights = some 0x41 := if_pos h

theorem State.capCheck_generation {ctx : Nat} {c : Cap} {b : Buffer} (h : capRights c &&& rights = rights)
    (hb : s.buf? (capId c) = some b) (hg : b.gen ≠ capGen c) : s.capCheck ctx c rights = some 0x42 :=
  Eq.trans (if_neg (not_not_intro h)) (by simp [hb, hg])

/-- A capability that passes has the rights and names a buffer of its generation, of the context. -/
theorem State.capCheck_none {ctx : Nat} {c : Cap} (h : s.capCheck ctx c rights = none) :
    capRights c &&& rights = rights ∧ ∃ b, s.buf? (capId c) = some b ∧ b.gen = capGen c ∧ b.ctx = ctx := by
  unfold State.capCheck at h
  split at h
  · cases h
  · next hr =>
    refine ⟨not_not.mp hr, ?_⟩
    split at h
    · next b hb =>
      split at h
      · next hok =>
        simp only [Bool.and_eq_true, beq_iff_eq] at hok
        exact ⟨b, hb, hok.2, hok.1.2⟩
      · cases h
    · cases h

end

theorem slotsAreChecked : SlotsAreChecked := fun s n rights =>
  ⟨State.checkSlot_empty,
    fun h hr => State.checkSlot_refused h (State.capCheck_rights hr),
    fun _ h hr hb hg => State.checkSlot_refused h (State.capCheck_generation hr hb hg),
    fun _ hok => by
      obtain ⟨he, hne, hc⟩ := State.checkSlot_ok_iff.mp hok
      obtain ⟨hr, hb⟩ := State.capCheck_none hc
      exact ⟨he, hne, hr, hb⟩⟩

/-! ## The words (R197 to R200) -/

section
variable {s s0 s1 : State} {f : Rrr} {key : Nat} {e : EngTag} {a : Word}

theorem capopen_outcomes (st : Starts (.capopen f) s key e s0) :
    (∀ c t, s0.slot f.rs.toNat ≠ 0 → s0.checkSlot f.rs.toNat f.fl = .ok c → s0.dst f.d (s0.capAddr c) = .ok t →
      Ends (.capopen f) s t .seq)
    ∧ (s0.slot f.rs.toNat = 0 → (∀ k ∈ s0.myKept, k.slot = f.rs.toNat → k.emptied = false) →
        Raises (.capopen f) s { code := 0x43, aux := BitVec.ofNat 64 f.rs.toNat }) := by
  refine ⟨fun c t hne hc hd => ends_of st rfl rfl (fun _ => rfl) (seqM_ok ?_),
    fun h0 hk => raises_of st rfl (fun _ => rfl) (seqM_error ?_)⟩
  · dsimp only
    split
    · next h0 _ => exact absurd h0 hne
    · exact M.bind_of_ok hc hd
  · have hnone : s0.myKept.find? (fun k => k.slot == f.rs.toNat && k.emptied) = none :=
      List.find?_eq_none.mpr fun k hmem => by
        simp only [Bool.and_eq_true, beq_iff_eq, not_and, Bool.not_eq_true]
        exact hk k hmem
    simp only [hnone]
    split
    · next hsome => cases hsome
    · exact M.bind_of_error (State.checkSlot_empty h0)

theorem capgive_outcomes (st : Starts (.capgive f) s key e s0) (ha : s0.src f.a (litVal 0 f.w1) = .ok (a, s1)) :
    (s1.repeated = true → Ends (.capgive f) s s1 .seq)
    ∧ (∀ c d x y, s1.repeated = false → s1.checkSlot f.rs.toNat 2 = .ok c → s1.node? s1.curNode = some d →
        d.succs[a.toNat]? = some x → s1.node? x.succ = some y → FMap.get y.caps f.fl.toNat 0 = 0 →
        FMap.get y.capsIn f.fl.toNat 0 = 0 → f.fl.toNat ∉ y.reserved →
        Ends (.capgive f) s (((s1.modNode x.succ fun (z : Node) => { z with capsIn := FMap.set z.capsIn f.fl.toNat c 0 }).setSlot
          s1.curNode f.rs.toNat 0).keep f.rs.toNat c true false) .seq) := by
  refine ⟨fun hr => ends_of st rfl rfl (fun _ => rfl) (seqM_ok (M.bind_of_ok ha (if_pos hr))),
    fun c d x y hr hc hd hx hy h1 h2 h3 => ends_of st rfl rfl (fun _ => rfl)
      (seqM_ok (M.bind_of_ok ha (Eq.trans (if_neg (by simp [hr])) (M.bind_of_ok hc ?_))))⟩
  have hsucc : (s1.node? s1.curNode).bind (fun d => d.succs[a.toNat]?) = some x := by rw [hd]; exact hx
  simp only [hsucc, hy, h1, h2]
  exact if_neg (by simp [h3])

theorem capdup_outcomes (st : Starts (.capdup f) s key e s0) (ha : s0.src f.a (litVal 0 f.w1) = .ok (a, s1)) :
    (s1.repeated = true → Ends (.capdup f) s s1 .seq)
    ∧ (∀ c b, s1.repeated = false → s1.checkSlot f.rs.toNat 0 = .ok c → s1.slot f.fl.toNat = 0 → s1.buf? (capId c) = some b →
        b.refs ≠ 2 ^ 32 - 1 →
        Ends (.capdup f) s (((s1.setSlot s1.curNode f.fl.toNat (capStrip c (a.setWidth 4))).addRef (capId c)).keep
          f.rs.toNat c false false) .seq)
    ∧ (∀ c, s1.repeated = false → s1.checkSlot f.rs.toNat 0 = .ok c → s1.slot f.fl.toNat ≠ 0 →
        Raises (.capdup f) s { code := 0x45, aux := BitVec.ofNat 64 f.rs.toNat })
    ∧ (∀ c b, s1.repeated = false → s1.checkSlot f.rs.toNat 0 = .ok c → s1.slot f.fl.toNat = 0 → s1.buf? (capId c) = some b →
        b.refs = 2 ^ 32 - 1 → Raises (.capdup f) s { code := 0x44, aux := BitVec.ofNat 64 f.rs.toNat }) := by
  refine ⟨fun hr => ends_of st rfl rfl (fun _ => rfl) (seqM_ok (M.bind_of_ok ha (if_pos hr))),
    fun c b hr hc h0 hb hfull => ends_of st rfl rfl (fun _ => rfl) (seqM_ok (M.bind_of_ok ha
      (Eq.trans (if_neg (by simp [hr])) (M.bind_of_ok hc (Eq.trans (if_neg (not_not_intro h0)) (if_neg ?_)))))),
    fun c hr hc hne => raises_of st rfl (fun _ => rfl) (seqM_error (M.bind_of_ok ha
      (Eq.trans (if_neg (by simp [hr])) (M.bind_of_ok hc (if_pos hne))))),
    fun c b hr hc h0 hb hfull => raises_of st rfl (fun _ => rfl) (seqM_error (M.bind_of_ok ha
      (Eq.trans (if_neg (by simp [hr])) (M.bind_of_ok hc (Eq.trans (if_neg (not_not_intro h0)) (if_pos ?_))))))⟩
  · simpa [State.refsFull, hb] using hfull
  · simp [State.refsFull, hb, hfull]

theorem capdrop_outcomes (st : Starts (.capdrop f) s key e s0) :
    (s0.repeated = true → Ends (.capdrop f) s s0 .seq)
    ∧ (∀ c s1 b, s0.repeated = false → s0.checkSlot f.rs.toNat 0 = .ok c → s1 = s0.setSlot s0.curNode f.rs.toNat 0 →
        s1.buf? (capId c) = some b →
        ((b.refs ≤ 1 ∧ s1.myKept.length < 256) → Ends (.capdrop f) s
          ((s1.modBuf (capId c) fun (z : Buffer) => { z with refs := 0 }).keep f.rs.toNat c true true) .seq)
        ∧ (∀ t, b.refs ≤ 1 → 256 ≤ s1.myKept.length → t = s1.modBuf (capId c) (fun z => { z with refs := 0 }) →
            Ends (.capdrop f) s { t with heldFrees := (t.identOf 0, capId c) :: t.heldFrees } .seq)
        ∧ (2 ≤ b.refs → Ends (.capdrop f) s ((s1.dropRef (capId c)).keep f.rs.toNat c true false) .seq)) := by
  refine ⟨fun hr => ends_of st rfl rfl (fun _ => rfl) (seqM_ok (if_pos hr)), ?_⟩
  rintro c s1 b hr hc rfl hb
  refine ⟨fun ⟨h1, hk⟩ => ends_of st rfl rfl (fun _ => rfl) (seqM_ok (Eq.trans (if_neg (by simp [hr]))
      (M.bind_of_ok hc (Eq.trans (if_pos ?_) (congrArg Except.ok (if_pos hk)))))),
    fun t h1 hk ht => ends_of st rfl rfl (fun _ => rfl) (seqM_ok (Eq.trans (if_neg (by simp [hr]))
      (M.bind_of_ok hc (Eq.trans (if_pos ?_) (congrArg Except.ok (Eq.trans (if_neg (by omega)) (by rw [ht]))))))),
    fun h2 => ends_of st rfl rfl (fun _ => rfl) (seqM_ok (Eq.trans (if_neg (by simp [hr]))
      (M.bind_of_ok hc (if_neg ?_))))⟩
  · simp only [hb, h1, decide_true]
  · simp only [hb, h1, decide_true]
  · simp only [hb, decide_eq_true_eq]
    omega

end

theorem capabilityWordsComplete : CapabilityWordsComplete :=
  ⟨fun _ _ _ _ _ st => capopen_outcomes st, fun _ _ _ _ _ _ _ st ha => capgive_outcomes st ha,
    fun _ _ _ _ _ _ _ st ha => capdup_outcomes st ha, fun _ _ _ _ _ st => capdrop_outcomes st⟩

/-- Settles O34: each word goes through its checks in order, and the checks are told once of `checkSlot`. -/
theorem capabilitiesAndSlots : Obligations.CapabilitiesAndSlots := ⟨capabilityWordsComplete, slotsAreChecked⟩

/-! ## PUBLISH (R180) -/

/-- Settles O35: PUBLISH releases first, and its repetition exchanges nothing. -/
theorem publishCompletes : Obligations.PublishCompletes := by
  refine ⟨fun f s key e s0 c b st hr hc hb => ?_, fun f s key e s0 s1 k b st hr hrel hk hb => ?_⟩
  · obtain rfl := Starts.curKey st
    refine ⟨fun hd => raises_of st rfl (fun _ => rfl) (seqM_error
        (Eq.trans (if_neg (by simp [hr])) (M.bind_of_ok hc ?_))),
      fun s1 hd hrel => ends_of st rfl rfl (fun _ => rfl) (seqM_ok
        (Eq.trans (if_neg (by simp [hr])) (M.bind_of_ok hc ?_)))⟩
    · simp only [hb]
      exact if_pos (by simp [hd])
    · simp only [hb]
      exact Eq.trans (if_neg (by simp [hd])) (M.bind_of_ok hrel rfl)
  · obtain rfl := Starts.curKey st
    refine ends_of st rfl rfl (fun _ => rfl) (seqM_ok (Eq.trans (if_pos hr) (M.bind_of_ok hrel ?_)))
    simp only [hk, hb]

end Sys2Proof.Machine
end

