-- ==== Sys2Proof/Proofs/AsyncWords.lean ====
section
/-! SUPPORT. The asynchronous words of A (R181, R182, R185): what holds one back, and how it is accepted; and THFENCE (R194). -/

namespace Sys2Proof.Machine

open Claims

/-! ## Acceptance (R182) -/

section
variable {f : Rrr} {i : Instr} {th : Bool} {locks : State → Job → List (Nat × Nat)} {s s0 s1 s2 s3 s4 : State}
  {key : Nat} {e : EngTag} {d a b : Word} {j j0 j1 : Job}

theorem State.queueRoom_full {n : Nat} (h : n ≤ (s.core.jobsOf s.curEng).length) : s.queueRoom n = blocked 12 := if_pos h

theorem State.queueRoom_ok {n : Nat} (h : (s.core.jobsOf s.curEng).length < n) : s.queueRoom n = .ok () :=
  if_neg (Nat.not_le.mpr h)

/-- The commit that a job owes: none, or the slot of the ring its word names. -/
def CommitOwed (f : Rrr) (s : State) (j j0 : Job) : Prop :=
  extCmt (extOf f.w1) = none ∧ j0 = j ∨ ∃ n w, extCmt (extOf f.w1) = some n ∧ s.owedSlot n = .ok w
    ∧ j0 = { j with cmt := some n, slot := w.toNat }

/-- The three operands that an asynchronous word reads, one after the other. -/
def ReadsThree (f : Rrr) (s0 : State) (d a b : Word) (s3 : State) : Prop :=
  ∃ s1 s2, s0.src f.d (litVal f.ty.toNat f.w1) = .ok (d, s1) ∧ s1.src f.a (litVal f.ty.toNat f.w1) = .ok (a, s2)
    ∧ s2.src f.b (litVal f.ty.toNat f.w1) = .ok (b, s3)

theorem ReadsThree.curKey (h : ReadsThree f s0 d a b s3) : s3.curKey = s0.curKey := by
  obtain ⟨s1, s2, h1, h2, h3⟩ := h
  rw [State.curKey, State.src_cur h3, State.src_cur h2, State.src_cur h1, State.curKey]

/-- An asynchronous word waits while its queue is full. -/
theorem asyncWord_full (hi : i.body = .rrr f) (hx : ∀ s, exec i s = asyncWord f i th locks s) (st : Starts i s key e s0)
    (h : 64 ≤ (s0.core.jobsOf e).length) : exec i s = .next (s.modEng fun g => { g with reason := 12 }) := by
  rw [← Starts.curEng st] at h
  exact blocks_of st (by rw [hi]; rfl) hx (seqM_error (M.bind_of_error (State.queueRoom_full h)))

/-- An asynchronous word that its queue takes ends in the acceptance of its job, with the tile record where it takes one. -/
theorem asyncWord_accepted (hi : i.body = .rrr f) (hx : ∀ s, exec i s = asyncWord f i th locks s)
    (st : Starts i s key e s0) (hroom : (s0.core.jobsOf e).length < 64) (hr : ReadsThree f s0 d a b s3)
    (hj : j = { s3.newJob f.hdr i with vd := d, va := a, vb := b }) (hc : CommitOwed f s3 j j0)
    (ht : (if th then s3.takeRecord key j0 (extTh (extOf f.w1)) else .ok (j0, s3)) = .ok (j1, s4)) :
    ∃ l, Ends i s (s4.accept { j1 with locks := l }) .seq := by
  have hkey : s3.curKey = key := hr.curKey.trans (Starts.curKey st)
  obtain ⟨s1, s2, h1, h2, h3⟩ := hr
  rw [← Starts.curEng st] at hroom
  subst hj
  refine ⟨locks s4 j1, ends_of st (by rw [hi]; rfl) (by rw [hi]; rfl) hx (seqM_ok (M.bind_of_ok (State.queueRoom_ok hroom)
    (M.bind_of_ok h1 (M.bind_of_ok h2 (M.bind_of_ok h3 ?_)))))⟩
  simp only [hkey]
  obtain ⟨hn, rfl⟩ | ⟨n, w, hn, hw, rfl⟩ := hc
  · simp only [hn]
    exact M.ite_bind_of_ok ht rfl
  · simp only [hn]
    exact M.bind_of_ok hw (M.ite_bind_of_ok ht rfl)

end

/-- The seven words are asynchronous words, each with its locks. -/
theorem asyncWord_of_mem {f : Rrr} {i : Instr} {th : Bool}
    (h : (i, th) ∈ [(Instr.copy f, false), (.copyThIn f, true), (.copyThOut f, true), (.copym f, true),
      (.gather f, true), (.scatter f, true), (.prefetch f, f.fl.getLsbD 1)]) :
    i.body = .rrr f ∧ ∃ locks, ∀ s, exec i s = asyncWord f i th locks s := by
  simp only [List.mem_cons, Prod.mk.injEq, List.not_mem_nil, or_false] at h
  obtain ⟨rfl, rfl⟩ | ⟨rfl, rfl⟩ | ⟨rfl, rfl⟩ | ⟨rfl, rfl⟩ | ⟨rfl, rfl⟩ | ⟨rfl, rfl⟩ | ⟨rfl, rfl⟩ := h
  · exact ⟨rfl, _, fun s => (rfl : execCopy f s = _)⟩
  · exact ⟨rfl, _, fun s => (rfl : execCopyThIn f s = _)⟩
  · exact ⟨rfl, _, fun s => (rfl : execCopyThOut f s = _)⟩
  · exact ⟨rfl, _, fun s => (rfl : execCopym f s = _)⟩
  · exact ⟨rfl, _, fun s => (rfl : execGather f s = _)⟩
  · exact ⟨rfl, _, fun s => (rfl : execScatter f s = _)⟩
  · exact ⟨rfl, _, fun s => (rfl : execPrefetch f s = _)⟩

theorem asyncWordsAreAccepted : AsyncWordsAreAccepted := by
  intro f i th s key e s0 hmem st
  obtain ⟨hi, locks, hx⟩ := asyncWord_of_mem hmem
  refine ⟨asyncWord_full hi hx st, fun d a b s1 s2 s3 j j0 hroom h1 h2 h3 hj hc => ⟨fun hth => ?_, fun j1 s4 hth ht => ?_⟩,
    fun j => congrArg Cell.jobs (State.core_setCore (Starts.cur st) _)⟩
  · exact asyncWord_accepted hi hx st hroom ⟨s1, s2, h1, h2, h3⟩ hj hc (by rw [hth]; rfl)
  · exact asyncWord_accepted hi hx st hroom ⟨s1, s2, h1, h2, h3⟩ hj hc (by rw [hth]; exact ht)

/-! ## THFENCE (R194) -/

section
variable {s s0 s1 : State} {f : Rrr} {key : Nat} {e : EngTag}

/-- A die without the records that a THFENCE drops: those of one handle of the object, or of all. -/
def Die.dropRecords (d : Die) (obj h : Nat) (all_ : Bool) : Die :=
  { d with tileCache := d.tileCache.filter fun x => !(x.1 == obj && (all_ || x.2.1 == h)) }

theorem Die.dropRecords_again (d : Die) (obj h : Nat) (all_ : Bool) :
    (d.dropRecords obj h all_).dropRecords obj h all_ = d.dropRecords obj h all_ := by
  simp only [Die.dropRecords, List.filter_filter, Bool.and_self]

/-- Dies changed one after the other. -/
def State.overDies (s : State) (l : List Nat) (g : Die → Die) : State :=
  l.foldl (fun s i => s.setDie i (g (s.die i))) s

theorem State.overDies_dies (s : State) (l : List Nat) (g : Die → Die) : { s.overDies l g with dies := s.dies } = s := by
  suffices h : ∀ (t : State), { t with dies := s.dies } = s → { t.overDies l g with dies := s.dies } = s from h s rfl
  induction l with
  | nil => exact fun _ ht => ht
  | cons i l ih => exact fun t ht => ih (t.setDie i (g (t.die i))) ht

/-- A change that does nothing the second time reaches each die of the list, and no other. -/
theorem State.overDies_die (s : State) (l : List Nat) {g : Die → Die} (hg : ∀ d, g (g d) = g d) (chip : Nat) :
    (s.overDies l g).die chip = if chip ∈ l then g (s.die chip) else s.die chip := by
  induction l generalizing s with
  | nil => rfl
  | cons i l ih =>
    refine (ih (s.setDie i (g (s.die i)))).trans ?_
    by_cases hi : chip = i
    · subst hi
      simp [State.die_setDie_same, hg]
    · simp [State.die_setDie_ne _ _ hi, hi]

/-- The object whose records a THFENCE drops. -/
def State.fenceObject (s : State) : Nat := match s.node? s.curNode with | some d => d.kobj | none => 0

/-- A state after the drops of a THFENCE. -/
def State.fenced (s : State) (f : Rrr) : State :=
  s.overDies (s.scopeChips f.rs.toNat) fun d => d.dropRecords s.fenceObject (extTh (extOf f.w1)) (f.fl.getLsbD 0)

theorem State.thfence_ok (h : s.release s.curKey s.curPart (if f.rs = 5 then 5 else 1) = .ok s1) :
    s.thfence f = .ok (s1.fenced f) := M.bind_of_ok h rfl

theorem State.fenced_tick (s : State) (f : Rrr) : (s.fenced f).tick = s.tick := by
  unfold State.fenced State.overDies
  exact foldl_tick (f := fun s i => s.setDie i _) (fun _ _ => rfl) _ s

theorem Starts.notIssued {i : Instr} (st : Starts i s key e s0) : (s0.core.eng e).issued = false := by
  obtain ⟨h, -, hi, rfl⟩ := st
  obtain ⟨k, hk⟩ := (s.core.eng e).takeWait_shape h.wait
  rw [State.waited, State.modEng, State.curEng_cell hi.cur, State.core_setCore hi.cur, Cell.eng_setEng_same, hk]
  exact hi.fresh

end

/-- The completion token of a THFENCE (R290), which completes with the state it is in. -/
def State.fenceToken (s : State) (f : Rrr) : M State :=
  match (s.newJob f.hdr (.thfence f)).sig with
  | none => .ok s
  | some p =>
    match s.core.completeTok p (some s.tick) with
    | some c => .ok (s.setCore c)
    | none => .error (.wait (s.modEng fun g => { g with waitVal := some 1 }) 12)

section
variable {s s0 s1 : State} {f : Rrr} {key : Nat} {e : EngTag} {g : Sig}

theorem State.fenceToken_silent (h : ∀ g, f.hdr.sig = some g → g.done = false) : s.fenceToken f = .ok s := by
  unfold State.fenceToken State.newJob
  cases hs : f.hdr.sig with
  | none => rfl
  | some g => simp [h g hs]

theorem State.fenceToken_done (hg : f.hdr.sig = some g) (hd : g.done = true) :
    s.fenceToken f = match s.core.completeTok ⟨g.eng, g.cnt⟩ (some s.tick) with
      | some c => .ok (s.setCore c)
      | none => .error (.wait (s.modEng fun g => { g with waitVal := some 1 }) 12) := by
  simp only [State.fenceToken, State.newJob, hg, hd, if_true]

/-- A THFENCE that its queue takes releases, drops the records, and then gives its token. -/
theorem thfence_outcomes (st : Starts (.thfence f) s key e s0) (hroom : (s0.core.jobsOf e).length < 64)
    (hrel : s0.release key s0.curPart (if f.rs = 5 then 5 else 1) = .ok s1) :
    (∀ t, (s1.fenced f).fenceToken f = .ok t → Ends (.thfence f) s t .seq)
    ∧ (∀ t r, (s1.fenced f).fenceToken f = .error (.wait t r) → Waits (.thfence f) s t r) := by
  obtain rfl := Starts.curKey st
  have hfresh : (s0.core.eng s0.curEng).issued = false := by rw [Starts.curEng st]; exact Starts.notIssued st
  have hroom' : s0.queueRoom 64 = .ok () := State.queueRoom_ok (by rw [Starts.curEng st]; exact hroom)
  refine ⟨fun t h => ends_of st rfl rfl (fun _ => rfl) (seqM_ok ?_), fun t r h => waits_of st rfl (fun _ => rfl) (seqM_error ?_)⟩ <;>
    exact Eq.trans (if_neg (by simp [hfresh])) (Eq.trans (if_neg (by simp [hfresh]))
      (M.bind_of_ok hroom' (M.bind_of_ok (State.thfence_ok hrel) h)))

end

theorem thfenceCompletes : ThfenceCompletes := by
  rintro f s key e s0 s1 obj st hroom hrel rfl
  obtain ⟨hends, hwaits⟩ := thfence_outcomes st hroom hrel
  have htick : (s1.fenced f).tick = s.tick :=
    (s1.fenced_tick f).trans ((State.release_tick hrel).trans (Starts.tick st))
  refine ⟨s1.fenced f, s1.overDies_dies _ _, fun chip => ?_, fun hsig => hends _ (State.fenceToken_silent hsig),
    fun g hg hd => ⟨fun c hc => hends _ ?_, fun hc => hwaits _ _ ?_⟩⟩
  · rw [State.fenced, s1.overDies_die _ (fun d => d.dropRecords_again _ _ _)]
    split <;> rfl
  · rw [State.fenceToken_done hg hd, htick, hc]
  · rw [State.fenceToken_done hg hd, htick, hc]

/-- Settles O36: a word that its queue takes becomes a job behind the others; THFENCE leaves all but the records it drops to
its release. -/
theorem asyncWordsAndFence : Obligations.AsyncWordsAndFence := ⟨asyncWordsAreAccepted, thfenceCompletes⟩

end Sys2Proof.Machine
end

