-- ==== Sys2Proof/Proofs/Elements.lean ====
section
/-! SUPPORT. The turns of a job (R184, R264, R311) and the elements of a COPY (R188). -/

namespace Sys2Proof.Machine

open Claims

/-! ## A turn of a job (R184) -/

section
variable {s u t : State} {key id : Nat} {j : Job} {r : Raise} {q : Option (List Nat)}

theorem accessPerformed_element (hu : u = { s with actor := some (.job key id 0 []) }) (ht : u.jobTurn key id = t) :
    exec (.accessPerformed (.element key id)) s = .next { t with actor := s.actor } := by
  subst hu ht
  rfl

/-- Where nothing holds a job, its turn is a step of it. -/
theorem State.jobTurn_step (hj : (u.cell key).job? id = some j) (hrun : (u.cell key).phase = .running ∨ (u.cell key).phase = .halted)
    (hdead : j.dead (u.cell key) = false) (hfin : j.finished = false)
    (hfault : (u.faults.find? fun r => r.cell == key && r.job == some id) = none) (hmay : (u.cell key).mayPerform j = true)
    (hearly : j.early = none) : u.jobTurn key id = u.jobStep key j := by
  have hphase : ((u.cell key).phase == .running || (u.cell key).phase == .halted) = true := by
    simpa only [Bool.or_eq_true, beq_iff_eq] using hrun
  simp only [State.jobTurn, hj, hphase, hdead, hfin, hfault, hmay, hearly, Bool.true_or, Bool.not_true, Bool.false_or,
    Bool.false_eq_true, if_false]

/-- The check of a plan is met before anything of it is performed. -/
theorem State.jobStep_check (hprep : (u.plan key j).prep = none) (hn : j.next = 0) (hp : j.part = [])
    (hc : (u.plan key j).check = some r) : u.jobStep key j = u.jobCause key j r := by
  simp only [State.jobStep, hprep, hn, hp, hc, and_self, if_true]

/-- Past the check, a step is the next one of the element. -/
theorem State.jobStep_elem (hprep : (u.plan key j).prep = none) (hlate : j.late = none)
    (h : j.next ≠ 0 ∨ j.part ≠ [] ∨ (u.plan key j).check.isNone = true) :
    u.jobStep key j = u.jobElem key j (u.plan key j) := by
  have hc : (if j.next = 0 ∧ j.part = [] then (u.plan key j).check else none) = none := by
    split
    · next h0 =>
      rcases h with h | h | h
      · exact absurd h0.1 h
      · exact absurd h0.2 h
      · exact Option.isNone_iff_eq_none.mp h
    · rfl
  simp only [State.jobStep, hprep, hc, hlate]

theorem State.jobElem_moves {p : Plan} (hn : j.next < p.count) (h : p.elem j.next j.part u = .ok (t, q)) :
    u.jobElem key j p = u.jobMoved key j t q := by
  simp only [State.jobElem, if_pos hn, h]

theorem State.jobElem_faults {p : Plan} (hp : p = u.plan key j) (hn : j.next < p.count)
    (h : p.elem j.next j.part u = .error (.cause r none)) :
    u.jobElem key j p = (u.laterElems key j p).jobCause key j r := by
  subst hp
  simp only [State.jobElem, if_pos hn, h]
  rfl

theorem State.jobElem_finishes {p : Plan} (hn : p.count ≤ j.next) (hs : j.sent = false) (h : p.finish u = .ok t) :
    u.jobElem key j p = (t.modJob key j.id fun (x : Job) => { x with finished := true }).jobDone key j.id := by
  simp only [State.jobElem, if_neg (Nat.not_lt.mpr hn), hs, h, Bool.false_eq_true, if_false]

/-! ## What a step leaves -/

theorem State.modJob_jobs (s : State) (key id : Nat) (g : Job → Job) :
    ((s.modJob key id g).cell key).jobs = (s.cell key).jobs.map fun x => if x.id = id then g x else x := by
  rw [State.modJob, State.cell_setCell_same, Cell.modJob]

theorem State.jobMoved_ends (s t : State) (key : Nat) (j : Job) : ((s.jobMoved key j t none).cell key).jobs
    = (t.cell key).jobs.map fun x => if x.id = j.id then { x with next := x.next + 1, part := [], hit := 0, bank := none } else x := by
  refine (State.modJob_jobs _ _ _ _).trans ?_
  rw [State.cell_setCell_same]

theorem State.jobMoved_part (s t : State) (key : Nat) (j : Job) (part : List Nat) :
    ∀ x ∈ ((s.jobMoved key j t (some part)).cell key).jobs, x.id = j.id → x.part = part := by
  intro x hx hid
  rw [State.jobMoved, State.modJob_jobs, List.mem_map] at hx
  obtain ⟨y, -, rfl⟩ := hx
  by_cases hy : y.id = j.id
  · rw [if_pos hy]
  · rw [if_neg hy] at hid
    exact absurd hid hy

theorem State.laterElems_inOrder {p : Plan} (h : inOrder j.ins = true) : s.laterElems key j p = s :=
  if_pos (by rw [h]; rfl)

theorem State.jobCause_fatal (h : trapClass r.code = false) : s.jobCause key j r = s.setCell key { s.cell key with
    fatals := (s.tick, { r.at_ j.eng j.pc j.pos with celem := some (r.celem.getD j.next) }) :: (s.cell key).fatals } := by
  rw [State.jobCause, Cell.takeCause_fatal (.inl h)]

end

theorem elementsArePerformed : ElementsArePerformed := by
  refine ⟨fun s u key id j p hj hrun hdead hfin hfault hmay hearly hlate hu hp hprep => ?_,
    fun s t key j => ⟨s.jobMoved_ends t key j, s.jobMoved_part t key j, State.laterElems_inOrder,
      fun r => State.jobCause_fatal⟩⟩
  have hstep : u.jobTurn key id = u.jobStep key j := by
    subst hu
    exact State.jobTurn_step hj hrun hdead hfin hfault hmay hearly
  subst hp
  rw [Option.isNone_iff_eq_none] at hprep
  refine ⟨fun r hn hpart hc => accessPerformed_element hu (hstep.trans (State.jobStep_check hprep hn hpart hc)), fun h => ?_⟩
  have helem := hstep.trans (State.jobStep_elem hprep hlate h)
  exact ⟨fun t q hn ht => accessPerformed_element hu (helem.trans (State.jobElem_moves hn ht)),
    fun r hn hr => accessPerformed_element hu (helem.trans (State.jobElem_faults rfl hn hr)),
    fun t hn hs ht => accessPerformed_element hu (helem.trans (State.jobElem_finishes hn hs ht))⟩

/-! ## The ranges of a COPY (R188) -/

section
variable {s : State} {ws : List Word} {key n off va fuel : Nat} {a : Word}

theorem addrVa_lt (a : Word) : addrVa a < 2 ^ 57 := (a.extractLsb' 0 57).isLt

/-- A range within one window is one span. -/
theorem windowSpans_within (hva : va < 2 ^ 57) (hn : n ≠ 0) (h : va + n ≤ nextEdge ws va) :
    windowSpans ws (fuel + 2) va n = [(va, n, windowOf ws va)] := by
  have hk : min n (nextEdge ws va - va) = n := by omega
  simp only [windowSpans, if_neg hn, if_pos hva, hk, Nat.sub_self, if_true]

/-- A range that goes beyond an edge is cut there. -/
theorem windowSpans_cut (hva : va < 2 ^ 57) (h : nextEdge ws va < va + n) (hedge : va < nextEdge ws va) :
    ∃ rest, windowSpans ws (fuel + 2) va n = (va, nextEdge ws va - va, windowOf ws va) :: rest ∧ rest ≠ [] := by
  have hk : min n (nextEdge ws va - va) = nextEdge ws va - va := by omega
  have hn : n ≠ 0 := by omega
  have hrest : n - (nextEdge ws va - va) ≠ 0 := by omega
  rw [windowSpans, if_neg hn]
  simp only [if_pos hva, hk]
  refine ⟨_, rfl, ?_⟩
  rw [windowSpans, if_neg hrest]
  exact List.cons_ne_nil _ _

theorem State.reached_within (hw : ws = s.apers (s.nodeCtx (s.cell key).node)) (hn : n ≠ 0)
    (h : addrVa a + n ≤ nextEdge ws (addrVa a)) :
    s.reached key a n = [spanReach key (addrVa a, n, windowOf ws (addrVa a))] := by
  rw [State.reached, ← hw, windowSpans_within (addrVa_lt a) hn h]
  rfl

theorem State.reached_cut (hw : ws = s.apers (s.nodeCtx (s.cell key).node)) (h : nextEdge ws (addrVa a) < addrVa a + n)
    (hedge : addrVa a < nextEdge ws (addrVa a)) : ∃ rest, s.reached key a n
      = spanReach key (addrVa a, nextEdge ws (addrVa a) - addrVa a, windowOf ws (addrVa a)) :: rest ∧ rest ≠ [] := by
  obtain ⟨rest, hr, hne⟩ := windowSpans_cut (fuel := 8) (addrVa_lt a) h hedge
  rw [State.reached, ← hw, hr]
  exact ⟨rest.map (spanReach key), rfl, fun hnil => hne (List.map_eq_nil_iff.mp hnil)⟩

theorem spanReach_local (h : off + n ≤ spadBytes) : spanReach key (va, n, some (0, off))
    = (0, keyCell key * spadBytes + off, keyCell key * spadBytes + off + n) := by
  simp only [spanReach, Nat.min_eq_left h, Nat.add_assoc]

end

/-! ## The plan of a COPY (R188) -/

section
variable {s : State} {key : Nat} {j : Job} {f : Rrr}

/-- Two ranges reach a byte in common. -/
def Reaches (xs ys : List (Nat × Nat × Nat)) : Prop :=
  ∃ x ∈ xs, ∃ y ∈ ys, x.1 = y.1 ∧ x.2.1 < y.2.2 ∧ y.2.1 < x.2.2

theorem State.copyPlan_check (s : State) (key : Nat) (j : Job) (f : Rrr) :
    (∃ r, (s.copyPlan key j f).check = some r ∧ r.code = 0xA2)
      ↔ 2 ^ 32 < j.vb.toNat ∨ Reaches (s.reached key j.va j.vb.toNat) (s.reached key j.vd j.vb.toNat) := by
  have hover : ((s.reached key j.va j.vb.toNat).any fun x => (s.reached key j.vd j.vb.toNat).any fun y =>
      x.1 == y.1 && decide (x.2.1 < y.2.2) && decide (y.2.1 < x.2.2)) = true
      ↔ Reaches (s.reached key j.va j.vb.toNat) (s.reached key j.vd j.vb.toNat) := by
    simp only [Reaches, List.any_eq_true, Bool.and_eq_true, beq_iff_eq, decide_eq_true_eq, and_assoc]
  rw [← hover]
  by_cases h : 2 ^ 32 < j.vb.toNat ∨ ((s.reached key j.va j.vb.toNat).any fun x => (s.reached key j.vd j.vb.toNat).any fun y =>
      x.1 == y.1 && decide (x.2.1 < y.2.2) && decide (y.2.1 < x.2.2)) = true
  · exact ⟨fun _ => h, fun _ => ⟨cause 0xA2, if_pos h, rfl⟩⟩
  · refine ⟨fun ⟨r, hr, _⟩ => ?_, fun h' => absurd h' h⟩
    have hnone : (s.copyPlan key j f).check = none := if_neg h
    rw [hnone] at hr
    cases hr

/-- Every byte of the range lies in the part of a granule that an element covers. -/
theorem State.copyPlan_covers (s : State) (key : Nat) (j : Job) (f : Rrr) {b : Nat} (hb : b < j.vb.toNat) :
    ∃ k, k < (s.copyPlan key j f).count ∧ (if k = 0 then 0 else 64 * k - j.va.toNat % 64) ≤ b
      ∧ b < 64 * (k + 1) - j.va.toNat % 64 := by
  have hcount : (s.copyPlan key j f).count = (j.va.toNat % 64 + j.vb.toNat - 1) / 64 + 1 := if_neg (by omega)
  refine ⟨(j.va.toNat % 64 + b) / 64, by omega, ?_, by omega⟩
  split <;> omega

end

theorem copyPlan : CopyPlan := by
  refine ⟨fun s key j f k lo hi q hlo hhi => ⟨?_, fun b => s.copyPlan_covers key j f,
      fun h => (s.copyPlan_check key j f).mpr (.inl h), fun h => ?_⟩,
    fun s key n off a ws hw hn h => ?_, fun s key n a ws => State.reached_cut⟩
  · subst hlo hhi
    rfl
  · rw [s.copyPlan_check key j f, or_iff_right (Nat.not_lt.mpr h)]
    rfl
  · rw [State.reached_within hw hn h]
    refine ⟨fun h0 hin => ?_, fun h1 => ?_, fun h2 => ?_, fun h3 => ?_⟩
    · rw [h0, spanReach_local hin]
    · rw [h1]; rfl
    · rw [h2]; rfl
    · rw [h3]; rfl

/-- Settles O37: a turn is told hypothesis by hypothesis down to the element, and a COPY's plan range by range. -/
theorem elementsAndCopies : Obligations.ElementsAndCopies := ⟨elementsArePerformed, copyPlan⟩

end Sys2Proof.Machine
end

