-- ==== Sys2Proof/Proofs/IntegerWords.lean ====
section
/-! SUPPORT. The integer words of X (R212, R213): what each makes of the elements read as integers of TYPE. -/

namespace Sys2Proof.Machine

open Claims

/-! ## Elements that fit their width -/

/-- Every element that a vector source gives fits the view's width. -/
theorem State.vsrc_lt {s t : State} {code : BitVec 8} {w : Nat} {lit : Word} {a : List Nat} (hw : w = 64 ∨ w = 32 ∨ w = 16)
    (h : s.vsrc code w lit = .ok (a, t)) : ∀ e ∈ a, e < 2 ^ w := by
  have hrep : ∀ x : Nat, ∀ e ∈ List.replicate (elemCount w) (x % 2 ^ w), e < 2 ^ w := fun x e he => by
    rw [List.eq_of_mem_replicate he]
    exact Nat.mod_lt _ (Nat.two_pow_pos w)
  unfold State.vsrc at h
  split at h
  · cases h; exact hrep _
  · split at h
    · cases hp : s.popQ with
      | error x => rw [hp] at h; cases h
      | ok r => rw [hp] at h; cases h; exact hrep _
    · cases h; exact s.core.velems_lt _ hw

theorem getD_lt {w : Nat} {a : List Nat} (h : ∀ e ∈ a, e < 2 ^ w) (j : Nat) : a.getD j 0 < 2 ^ w := by
  by_cases hj : j < a.length
  · rw [List.getD_eq_getElem a 0 hj]
    exact h _ (List.getElem_mem hj)
  · rw [List.getD_eq_default a 0 (Nat.le_of_not_lt hj)]
    exact Nat.two_pow_pos w

/-- A form on A, B and the old D whose function is the stated one on elements that fit their width. -/
theorem vTernary_of_fit {ok : BitVec 4 → Prop} {i : Rrr → Instr} {fn g : Rrr → Nat → Nat → Nat → Nat × Flags}
    (hok : ∀ ty, ok ty → VType ty) (hi : ∀ f, (i f).body = .rrr f) (hx : ∀ f s, exec (i f) s = vecTer f (g f) s)
    (hg : ∀ f a b d, ok f.ty → a < 2 ^ ebits f → b < 2 ^ ebits f → g f a b d = fn f a b d) : VTernary ok i fn := by
  rintro f s key s0 a b t rs st hty ⟨s1, ha, hb⟩ hl hrs
  have hw := ebits_of_vType (hok _ hty)
  refine vTernary_of hok hi hx f s key s0 a b t rs st hty ⟨s1, ha, hb⟩ hl fun j hj => ?_
  rw [hrs j hj, hg f _ _ _ hty (getD_lt (State.vsrc_lt hw ha) j) (getD_lt (State.vsrc_lt hw hb) j)]

/-! ## Elements as integers (R114) -/

theorem vType_of_iType (ty : BitVec 4) (h : IType ty) : VType ty := .inl h

/-- The elements of an integer TYPE are as wide as its integers. -/
theorem ebits_of_iType {f : Rrr} (h : IType f.ty) : ebits f = (ity f).w := if_neg (by omega)

theorem ity_pos (f : Rrr) : 0 < (ity f).w := ofCode_pos _
theorem ity_le (f : Rrr) : (ity f).w ≤ 64 := ofCode_le _

theorem two_pow_dvd_word {w : Nat} (h : w ≤ 64) : 2 ^ w ∣ 2 ^ 64 := Nat.pow_dvd_pow 2 h

theorem setWidth_signExtend {w : Nat} (h : w ≤ 64) (x : BitVec w) : (x.signExtend 64).setWidth w = x :=
  BitVec.eq_of_getLsbD_eq fun i hi => by
    have h64 : i < 64 := by omega
    rw [BitVec.getLsbD_setWidth, BitVec.getLsbD_signExtend, if_pos hi, decide_eq_true hi, decide_eq_true h64]; rfl

section
variable {T : ITy}

/-- int_read takes the low bits alone, so that an element may be read from a 64-bit word. -/
theorem ITy.read_word (h : T.w ≤ 64) (a : Nat) : T.read (BitVec.ofNat 64 a).toNat = T.read a := by
  simp only [ITy.read, toSigned, BitVec.toNat_ofNat, Nat.mod_mod_of_dvd _ (two_pow_dvd_word h)]

/-- The low bits of what int_write gives are the integer modulo 2^w. -/
theorem ITy.write_mod (h0 : 0 < T.w) (h : T.w ≤ 64) (z : Int) : (T.write z).toNat % 2 ^ T.w = (z % (2 : Int) ^ T.w).toNat := by
  have hz : (BitVec.ofInt T.w z).toNat = (z % (2 : Int) ^ T.w).toNat := by
    rw [BitVec.toNat_ofInt, Nat.cast_pow, Nat.cast_ofNat]
  obtain ⟨sg, w⟩ := T
  rw [← BitVec.toNat_setWidth, ← hz]
  cases sg with
  | true => rw [ITy.write_signed h0, setWidth_signExtend h]
  | false => rw [ITy.write_unsigned, BitVec.setWidth_setWidth_of_le _ h, BitVec.setWidth_eq]

end

/-! ## The words -/

/-- A word whose elements are an integer modulo 2^w that int_write would give. -/
theorem intWord {i : Rrr → Instr} {g : Rrr → ITy → Word → Word → Word} {v : Rrr → Nat → Nat → Int} (hi : ∀ f, (i f).body = .rrr f)
    (hx : ∀ f s, exec (i f) s = intBin f (g f) s)
    (hv : ∀ f a b, IType f.ty → b < 2 ^ 64 → g f (ity f) (BitVec.ofNat 64 a) (BitVec.ofNat 64 b) = (ity f).write (v f a b)) :
    VTernary IType i fun f a b _ => (md f (v f a b), 0) := by
  refine vTernary_of_fit vType_of_iType hi hx fun f a b _ hty _ hb => ?_
  have hb64 : b < 2 ^ 64 := hb.trans_le (by rw [ebits_of_iType hty]; exact Nat.pow_le_pow_right (by decide) (ity_le f))
  exact Prod.ext ((congrArg (fun z : Word => z.toNat % 2 ^ (ity f).w) (hv f a b hty hb64)).trans
    (ITy.write_mod (ity_pos f) (ity_le f) _)) rfl

/-- A word of an exact function of the elements as integers. -/
theorem exactWord {i : Rrr → Instr} {v : ITy → Int → Int → Int} {r : Rrr → Int → Int → Int} (hi : ∀ f, (i f).body = .rrr f)
    (hx : ∀ f s, exec (i f) s = intBin f (fun t => intOp (v t) t) s) (hr : ∀ f x y, v (ity f) x y = r f x y) :
    VTernary IType i fun f a b _ => (md f (r f (rd f a) (rd f b)), 0) :=
  intWord hi hx fun f a b _ _ => by
    rw [intOp, ITy.read_word (ity_le f), ITy.read_word (ity_le f), hr]
    rfl

/-- A word of a function of the elements' bits. -/
theorem bitWord {i : Rrr → Instr} {v : ITy → Nat → Nat → Nat} {r : Rrr → Nat → Nat → Nat} (hi : ∀ f, (i f).body = .rrr f)
    (hx : ∀ f s, exec (i f) s = intBin f (fun t => bitOp (v t) t) s)
    (hr : ∀ f a b, a < 2 ^ (ity f).w → b < 2 ^ (ity f).w → v (ity f) a b % 2 ^ (ity f).w = r f a b) :
    VTernary IType i fun f a b _ => (r f a b, 0) := by
  refine vTernary_of_fit vType_of_iType hi hx fun f a b _ hty ha hb => ?_
  rw [ebits_of_iType hty] at ha hb
  have h64 : 2 ^ (ity f).w ≤ 2 ^ 64 := Nat.pow_le_pow_right (by decide) (ity_le f)
  refine Prod.ext (Eq.trans ?_ (hr f a b ha hb)) rfl
  have hbits : (bitOp (v (ity f)) (ity f) (BitVec.ofNat 64 a) (BitVec.ofNat 64 b)).toNat = v (ity f) a b % 2 ^ 64 := by
    rw [bitOp, BitVec.toNat_ofNat, BitVec.toNat_ofNat, BitVec.toNat_ofNat, Nat.mod_eq_of_lt (ha.trans_le h64),
      Nat.mod_eq_of_lt (hb.trans_le h64)]
  exact (congrArg (· % 2 ^ (ity f).w) hbits).trans (Nat.mod_mod_of_dvd _ (two_pow_dvd_word (ity_le f)))

/-- The arithmetic shift of an element is the division of the number that its bits are (R117). -/
theorem shraWord : VTernary IType .ishra fun f a b _ =>
    (md f (Int.fdiv (toSigned (ity f).w a) ((2 : Int) ^ (b % (ity f).w))), 0) := by
  refine intWord (g := fun _ t a b => t.write (Int.fdiv (toSigned t.w a.toNat) (2 ^ (b.toNat % t.w) : Nat))) (fun _ => rfl)
    (fun _ _ => rfl) fun f a b _ hb => ?_
  have hread : toSigned (ity f).w (BitVec.ofNat 64 a).toNat = toSigned (ity f).w a :=
    ITy.read_word (T := ⟨true, (ity f).w⟩) (ity_le f) a
  rw [hread, BitVec.toNat_ofNat, Nat.mod_eq_of_lt hb, Nat.cast_pow, Nat.cast_ofNat]

/-- The magnitude of an element as an integer. -/
theorem absWord : VUnary IType .iabs fun f a => (md f ((rd f a).natAbs : Int), 0) := by
  refine vUnary_of (fun _ => rfl) fun f s _ => congrArg (fun g => vecUn f g s) (funext fun a => Prod.ext ?_ rfl)
  show ((ity f).read a).natAbs % 2 ^ (ity f).w = (((rd f a).natAbs : Int) % (2 : Int) ^ (ity f).w).toNat
  exact_mod_cast rfl

theorem compared_eq (f : Rrr) (a b : Int) : compared f a b = intCmp f.rs.toNat a b := by
  unfold compared intCmp
  split
  case h_2 => exact decide_not
  all_goals rfl

/-- The comparison of elements as integers. -/
theorem compareWord : VCompare IType .icmp fun f a b => (compared f (rd f a) (rd f b), 0) :=
  vCompare_of vType_of_iType (fun _ => rfl) fun f s => by
    simp only [compared_eq]
    rfl

/-- Settles O40: each word is a function of its elements as integers or as bits, which fit their width. -/
theorem integerVectorWordsComplete : Obligations.IntegerVectorWordsComplete := by
  refine ⟨exactWord (v := fun _ => (· + ·)) (fun _ => rfl) (fun _ _ => rfl) fun _ _ _ => rfl,
    exactWord (v := fun _ => (· - ·)) (fun _ => rfl) (fun _ _ => rfl) fun _ _ _ => rfl,
    exactWord (v := fun _ => (· * ·)) (fun _ => rfl) (fun _ _ => rfl) fun _ _ _ => rfl,
    exactWord (v := fun t a b => Int.fdiv (a * b) (2 ^ t.w : Nat)) (fun _ => rfl) (fun _ _ => rfl) fun _ _ _ => by
      rw [Nat.cast_pow, Nat.cast_ofNat],
    exactWord (v := fun _ => min) (fun _ => rfl) (fun _ _ => rfl) fun _ _ _ => rfl,
    exactWord (v := fun _ => max) (fun _ => rfl) (fun _ _ => rfl) fun _ _ _ => rfl,
    bitWord (v := fun _ => (· &&& ·)) (fun _ => rfl) (fun _ _ => rfl) fun _ a _ _ hb => Nat.mod_eq_of_lt (Nat.and_lt_two_pow a hb),
    bitWord (v := fun _ => (· ||| ·)) (fun _ => rfl) (fun _ _ => rfl) fun _ _ _ ha hb => Nat.mod_eq_of_lt (Nat.or_lt_two_pow ha hb),
    bitWord (v := fun _ => (· ^^^ ·)) (fun _ => rfl) (fun _ _ => rfl) fun _ _ _ ha hb => Nat.mod_eq_of_lt (Nat.xor_lt_two_pow ha hb),
    bitWord (v := fun t a b => a * 2 ^ (b % t.w)) (fun _ => rfl) (fun _ _ => rfl) fun _ _ _ _ _ => rfl,
    bitWord (v := fun t a b => a / 2 ^ (b % t.w)) (fun _ => rfl) (fun _ _ => rfl) fun _ _ _ ha _ =>
      Nat.mod_eq_of_lt ((Nat.div_le_self _ _).trans_lt ha),
    shraWord, absWord, compareWord⟩

end Sys2Proof.Machine
end

