-- ==== Sys2Proof/Proofs/VectorMoves.lean ====
section
/-! SUPPORT. Words that move elements and masks (R214 to R220, R230): selection, the mask words, MOV.V and the axis moves, the
reductions along a line, TRB and ROT.BASE. -/

namespace Sys2Proof.Machine

open Claims

/-! ## Registers row by row (R51) -/

theorem rows_of_vType {f : Rrr} (h : VType f.ty) : elemCount (ebits f) = 16 * erow f := by
  rcases ebits_of_vType h with hw | hw | hw <;> rw [erow, hw] <;> rfl

theorem place_lt {n row e : Nat} (hr : row < 16) (he : e < n) : row * n + e < 16 * n := by
  have := Nat.mul_le_mul_right n (Nat.le_of_lt_succ hr)
  omega

theorem place_div {n e : Nat} (row : Nat) (he : e < n) : (row * n + e) / n = row := by
  rw [Nat.mul_comm, Nat.mul_add_div (Nat.zero_lt_of_lt he), Nat.div_eq_of_lt he, Nat.add_zero]

theorem place_mod {n e : Nat} (row : Nat) (he : e < n) : (row * n + e) % n = e := by
  rw [Nat.mul_comm, Nat.mul_add_mod, Nat.mod_eq_of_lt he]

/-- Lists of 16 rows that agree at every row and column are equal. -/
theorem ext_rows {α : Type} (d : α) {n : Nat} {xs ys : List α} (hx : xs.length = 16 * n) (hy : ys.length = 16 * n)
    (h : ∀ row e, row < 16 → e < n → xs.getD (row * n + e) d = ys.getD (row * n + e) d) : xs = ys := by
  refine ext_getD d (hx.trans hy.symm) fun j hj => ?_
  rw [hx] at hj
  have hn : 0 < n := Nat.pos_of_ne_zero fun h0 => by simp [h0] at hj
  have := h (j / n) (j % n) ((Nat.div_lt_iff_lt_mul hn).2 hj) (Nat.mod_lt _ hn)
  rwa [Nat.div_add_mod'] at this

theorem map_range_getD {α : Type} (d : α) (g : Nat → α) {n i : Nat} (h : i < n) : ((List.range n).map g).getD i d = g i := by
  simp [h]

theorem getD_toArray {α : Type} (l : List α) (i : Nat) (d : α) : l.toArray.getD i d = l.getD i d := by
  simp

/-- What a rearranged register holds at a row and a column. -/
theorem rearrange_getD (from_ : Nat → Nat → Nat × Nat) (a : List Nat) {w n row e : Nat} (hn : n = rowElems w) (hr : row < 16)
    (he : e < n) : (rearrange w from_ a).getD (row * n + e) 0 = a.getD ((from_ row e).1 * n + (from_ row e).2) 0 := by
  subst hn
  rw [rearrange, map_range_getD 0 _ (place_lt hr he), getD_toArray, place_div row he, place_mod row he]

/-- A rearranged register as results without flags. -/
theorem rearrange_eq {from_ : Nat → Nat → Nat × Nat} {a : List Nat} {w n : Nat} {rs : List (Nat × Flags)} (hn : n = rowElems w)
    (hl : rs.length = 16 * n) (h : ∀ row e, row < 16 → e < n →
      rs.getD (row * n + e) (0, 0) = (a.getD ((from_ row e).1 * n + (from_ row e).2) 0, 0)) :
    (rearrange w from_ a).map (fun x => (x, (0 : Flags))) = rs := by
  have hlen : (rearrange w from_ a).length = 16 * n := by rw [rearrange, hn]; simp
  refine ext_rows (0, 0) ((List.length_map _).trans hlen) hl fun row e hr he => ?_
  have hx : row * n + e < (rearrange w from_ a).length := hlen.symm ▸ place_lt hr he
  rw [h row e hr he, ← rearrange_getD from_ a hn hr he]
  simp [hx]

/-! ## Selection (R214) -/

/-- VSEL writes every element from A or B. -/
theorem vsel_ends {f : Rrr} {s s0 t : State} {key : Nat} {a b es : List Nat} (st : StartsX (.vsel f) s key s0) (hty : VType f.ty)
    (hab : VReadsTwo s0 f.a f.b (ebits f) (litVal f.ty.toNat f.w1) a b t) (hl : es.length = elemCount (ebits f))
    (hes : ∀ i, i < elemCount (ebits f) →
      es.getD i 0 = if masked t.core f.fl.toNat (ebits f) i then a.getD i 0 else b.getD i 0) :
    Ends (.vsel f) s (t.setCore (t.core.writeV f.d (ebits f) 0 es)) .seq := by
  obtain ⟨s1, ha, hb⟩ := hab
  have hw := ebits_of_vType hty
  have la := State.vsrc_length hw ha
  have lb := State.vsrc_length hw hb
  have hsel : selectMask (maskBits (ebits f) (t.core.kreg f.fl.toNat)) a b = es := by
    refine ext_getD 0 ((selectMask_length _ _ _).trans (lb.trans hl.symm)) fun i hi => ?_
    rw [selectMask_length, lb] at hi
    rw [selectMask_getD _ _ _ (by rwa [maskBits_length]) (by rwa [la]) (by rwa [lb]), maskBits_getD _ _ _ hi, hes i hi]
  refine ends_of_vecWord st rfl (fun s => rfl) ?_
  unfold ebits at ha hb hsel ⊢
  simp only [ha, hb, hsel, bind, Except.bind]

/-! ## Mask words (R55, R215) -/

@[simp] theorem Cell.kreg_zero (c : Cell) : c.kreg 0 = BitVec.allOnes 2048 := rfl

@[simp] theorem Cell.setK_zero (c : Cell) (b : BitVec 2048) : c.setK 0 b = c := rfl

theorem State.stageFree_ok {s : State} {n : Nat} (h : s.core.stageOpen = true → n < 8) : s.stageFree n = .ok () := by
  refine if_neg fun hc => ?_
  rw [Bool.and_eq_true, decide_eq_true_eq] at hc
  exact absurd (h hc.1) (Nat.not_lt.2 hc.2)

theorem State.stageFree_raises {s : State} {n : Nat} (h : s.core.stageOpen = true) (hn : 8 ≤ n) : s.stageFree n = raise 0x05 :=
  if_pos (by rw [h, decide_eq_true hn]; rfl)

section
variable {i : Instr} {f : Rrr} {g : BitVec 2048 → BitVec 2048 → BitVec 2048} {s s0 : State} {key : Nat}

/-- A mask word whose destination is free writes its function of masks A and B. -/
theorem maskWord_ends (st : Starts i s key .x s0) (hi : i.body = .rrr f) (hx : ∀ s, exec i s = maskWord f g s)
    (h : s0.core.stageOpen = true → f.d.toNat < 8) :
    Ends i s (s0.setCore (s0.core.setK f.d.toNat (g (s0.core.kreg f.a.toNat) (s0.core.kreg f.b.toNat)))) .seq :=
  ends_of st (by rw [hi]; rfl) (by rw [hi]; rfl) hx (seqM_ok (by rw [State.stageFree_ok h]; rfl))

theorem maskWord_raises (st : Starts i s key .x s0) (hi : i.body = .rrr f) (hx : ∀ s, exec i s = maskWord f g s)
    (h : s0.core.stageOpen = true) (hd : 8 ≤ f.d.toNat) : Raises i s { code := 0x05 } :=
  raises_of st (by rw [hi]; rfl) hx (by rw [State.stageFree_raises h hd]; rfl)

/-- A mask word to k0 changes no mask. -/
theorem maskWord_discards (st : Starts i s key .x s0) (hi : i.body = .rrr f) (hx : ∀ s, exec i s = maskWord f g s)
    (hd : f.d.toNat = 0) : Ends i s (s0.setCore s0.core) .seq := by
  have := maskWord_ends st hi hx fun _ => by omega
  rwa [hd, Cell.setK_zero] at this

end

theorem vMask_of {i : Rrr → Instr} {g : BitVec 2048 → BitVec 2048 → BitVec 2048} {fn : Bool → Bool → Bool}
    (hi : ∀ f, (i f).body = .rrr f) (hx : ∀ f s, exec (i f) s = maskWord f g s)
    (hg : ∀ a b j, j < 2048 → (g a b).getLsbD j = fn (a.getLsbD j) (b.getLsbD j)) : VMask i fn := by
  refine fun f s key s0 bits st => ⟨fun h hb => ?_, maskWord_raises st (hi f) (hx f)⟩
  have hbits : g (s0.core.kreg f.a.toNat) (s0.core.kreg f.b.toNat) = bits :=
    BitVec.eq_of_getLsbD_eq fun j hj => (hg _ _ j hj).trans (hb j hj).symm
  exact hbits ▸ maskWord_ends st (hi f) (hx f) h

/-! ## MOV.V and the axis moves (R216, R218, R220) -/

theorem movV_ends {f : Rrr} {s s0 t : State} {key : Nat} {a : List Nat} (st : StartsX (.movV f) s key s0)
    (hsrc : f.rs.getLsbD 1 = false → s0.vsrc f.a (ebits f) (litVal f.ty.toNat f.w1) = .ok (a, t))
    (hreg : f.rs.getLsbD 1 = true → a = s0.core.velems (ebits f) (s0.core.vphys f.a.toNat) ∧ t = s0) :
    Ends (.movV f) s (t.putV f (ebits f) (a.map fun x => (x, 0))) .seq := by
  refine ends_of_vecWord st rfl (fun s => rfl) ?_
  unfold ebits at hsrc hreg ⊢
  cases h : f.rs.getLsbD 1 with
  | false => simp only [hsrc h, bind, Except.bind, Bool.false_eq_true, if_false]
  | true =>
    obtain ⟨rfl, rfl⟩ := hreg h
    simp only [bind, Except.bind, if_true]

/-- An axis move gives D the elements of A that it names, where the model's naming is the stated one. -/
theorem vMove_of {i : Rrr → Instr} {g : Nat → Nat → Nat → Nat → Nat × Nat} {fn : Nat → Nat → Nat → Nat → Nat × Nat}
    (hi : ∀ f, (i f).body = .rrr f) (hx : ∀ f s, exec (i f) s = axisMove f g s)
    (hg : ∀ n c row e, row < 16 → e < n → g n c row e = fn n c row e) : VMove i fn := by
  intro f s key s0 a s1 c t rs st hty ha hc hl hrs
  have hm : (rearrange (ebits f) (g (rowElems (ebits f)) c.toNat) a).map (fun x => (x, (0 : Flags))) = rs :=
    rearrange_eq (n := erow f) rfl hl fun row e hr he => (hrs row e hr he).trans (by rw [← hg _ c.toNat row e hr he]; rfl)
  refine ends_of_vecWord st (hi f) (hx f) ?_
  unfold ebits at ha hm ⊢
  simp only [ha, hc, hm, bind, Except.bind]

/-- Counting back by c modulo n, as naturals. -/
theorem back_mod {n : Nat} (hn : 0 < n) (c e : Nat) : (e + n - c % n) % n = ((e - c : Int) % n).toNat := by
  have hlt : c % n < n := Nat.mod_lt c hn
  have hc : (n : Int) * (c / n) + (c % n : Nat) = c := by
    rw [Int.natCast_mod]
    exact Int.mul_ediv_add_emod _ _
  have hcast : ((e + n - c % n : Nat) : Int) = (e - c : Int) + n * (c / n + 1) := by
    rw [mul_add]
    omega
  rw [← Int.toNat_natCast ((e + n - c % n) % n), Int.natCast_mod, hcast, Int.add_mul_emod_self_left]

theorem rotr_moves : VMove .rotr fun n c row e => (row, ((e - c : Int) % n).toNat) :=
  vMove_of (g := fun n c row e => (row, (e + n - c % n) % n)) (fun _ => rfl) (fun _ _ => rfl) fun n c row e _ he => by
    rw [back_mod (Nat.zero_lt_of_lt he)]

theorem rotc_moves : VMove .rotc fun _ c row e => (((row - c : Int) % 16).toNat, e) :=
  vMove_of (g := fun _ c row e => ((row + 16 - c % 16) % 16, e)) (fun _ => rfl) (fun _ _ => rfl) fun n c row e _ _ => by
    rw [back_mod (by decide)]
    rfl

theorem bcr_moves : VMove .bcr fun n c row _ => (row, c % n) :=
  vMove_of (g := fun n c row _ => (row, c % n)) (fun _ => rfl) (fun _ _ => rfl) fun _ _ _ _ _ _ => rfl

theorem bcc_moves : VMove .bcc fun _ c _ e => (c % 16, e) :=
  vMove_of (g := fun _ c _ e => (c % 16, e)) (fun _ => rfl) (fun _ _ => rfl) fun _ _ _ _ _ _ => rfl

theorem trb_ends {f : Rrr} {s s0 t : State} {key : Nat} {a : List Nat} {rs : List (Nat × Flags)} (st : StartsX (.trb f) s key s0)
    (ha : s0.vsrc f.a 32 (litVal f.ty.toNat f.w1) = .ok (a, t)) (hl : rs.length = 1024)
    (hrs : ∀ row q j, row < 16 → q < 4 → j < 16 →
      rs.getD (row * 64 + (16 * q + j)) (0, 0) = (a.getD (j * 64 + (16 * q + row)) 0, 0)) :
    Ends (.trb f) s (t.putV f 32 rs) .seq := by
  have hm : (rearrange 32 (fun row e => (e % 16, e / 16 * 16 + row)) a).map (fun x => (x, (0 : Flags))) = rs := by
    refine rearrange_eq (n := 64) rfl hl fun row e hr he => ?_
    have := hrs row (e / 16) (e % 16) hr (by omega) (by omega)
    rwa [Nat.div_add_mod, Nat.mul_comm 16] at this
  refine ends_of_vecWord st rfl (fun s => rfl) ?_
  simp only [ha, hm, bind, Except.bind]

/-! ## Reductions along a line (R219) -/

/-- Two lists side by side, numbered, number by number. -/
theorem zip_zipIdx_eq {α β : Type} (x : α) (y : β) {n : Nat} {as : List α} {bs : List β} (ha : as.length = n) (hb : bs.length = n) :
    (as.zip bs).zipIdx = (List.range n).map fun i => ((as.getD i x, bs.getD i y), i) := by
  refine List.ext_getElem (by simp [ha, hb]) fun i h1 h2 => ?_
  have hi : i < n := by simpa using h2
  simp [ha, hb, hi]

/-- The elements that contribute to a line are those of its active places. -/
theorem contributions_eq {m : List Bool} {a : List Nat} {n : Nat} (hm : m.length = n) (ha : a.length = n) (sel : Nat → Bool) :
    contributions m a sel = ((List.range n).filter fun i => m.getD i false && sel i).map fun i => a.getD i 0 := by
  rw [contributions, zip_zipIdx_eq false 0 hm ha, List.filter_map, List.map_map]
  rfl

theorem line_eq {f : Rrr} {a : List Nat} (hty : VType f.ty) (ha : a.length = elemCount (ebits f)) (c : Cell) (rows : Bool) (k : Nat) :
    contributions (maskBits (ebits f) (c.kreg f.fl.toNat)) a
      (fun i => if rows then i / rowElems (ebits f) == k else i % rowElems (ebits f) == k) = line f c a rows k := by
  rw [contributions_eq (maskBits_length _ _) ha, line, ← rows_of_vType hty]
  refine congrArg _ (List.filter_congr fun i hi => ?_)
  rw [maskBits_getD _ _ _ (List.mem_range.1 hi)]
  rfl

theorem vReduce_of {i : Rrr → Instr} {rows : Bool} (hi : ∀ f, (i f).body = .rrr f)
    (hx : ∀ f s, exec (i f) s = reduceWord f rows s) : VReduce i rows := by
  intro f s key s0 a t rs fl red st hty ha hred hl hrs hfl
  have hw := ebits_of_vType hty
  have la := State.vsrc_length hw ha
  have hfl' : ((List.range (if rows then 16 else erow f)).map fun k => red (line f t.core a rows k)).foldl
      (fun (x : Flags) r => x ||| r.2) 0 = fl := by
    rw [hfl, List.foldl_map, List.foldl_map]
  have hrs' : ((List.range (16 * erow f)).map fun i => ((((List.range (if rows then 16 else erow f)).map fun k =>
      red (line f t.core a rows k)).toArray).getD (if rows then i / erow f else i % erow f) (0, 0)).1) = rs := by
    refine ext_rows 0 (by simp) hl fun row e hr he => ?_
    rw [map_range_getD 0 _ (place_lt hr he), getD_toArray, place_div row he, place_mod row he, hrs row e hr he,
      map_range_getD (0, 0) _ (by split <;> assumption)]
  refine ends_of_vecWord st (hi f) (hx f) ?_
  have hline := line_eq hty la t.core rows
  subst hred
  unfold ebits at ha hline ⊢
  simp only [ha, bind, Except.bind, hline]
  rw [← hrs', ← hfl']
  rfl

/-! ## The rotating window (R230) -/

theorem rotBase_ends {f : Rrr} {s s0 : State} {key : Nat} (st : StartsX (.rotBase f) s key s0) : Ends (.rotBase f) s
    (s0.setCore { s0.core with vrotBase := f.d.toNat, vrotSize := f.a.toNat + 1, vrotOff := 0 }) .seq :=
  ends_of_vecWord st rfl (fun _ => rfl) rfl

theorem rotBaseOff_ends {f : Rrr} {s s0 : State} {key : Nat} (st : StartsX (.rotBaseOff f) s key s0) : Ends (.rotBaseOff f) s
    (s0.setCore { s0.core with vrotSize := 0, vrotOff := 0 }) .seq := ends_of_vecWord st rfl (fun _ => rfl) rfl

/-- Settles O41: each word is its body run once, and the elements, masks and lines are told place by place. -/
theorem masksAndMovesComplete : Obligations.MasksAndMovesComplete := by
  refine ⟨fun f s key s0 a b t es => vsel_ends, vMask_of (fun _ => rfl) (fun _ _ => rfl) fun _ _ _ _ => BitVec.getLsbD_and,
    vMask_of (fun _ => rfl) (fun _ _ => rfl) fun _ _ _ _ => BitVec.getLsbD_or,
    vMask_of (fun _ => rfl) (fun _ _ => rfl) fun _ _ _ _ => BitVec.getLsbD_xor,
    vMask_of (g := fun a _ => ~~~a) (fun _ => rfl) (fun _ _ => rfl) fun a _ j hj => by
      rw [BitVec.getLsbD_not, decide_eq_true hj, Bool.true_and],
    fun c b => ⟨c.kreg_zero, c.setK_zero b⟩, fun f s key s0 i hi st hd => ?_, fun f s key s0 st ha h => ?_,
    fun f s key s0 a t st _ => movV_ends st,
    rotr_moves, bcr_moves, rotc_moves, bcc_moves, fun f s key s0 a t rs => trb_ends,
    vReduce_of (fun _ => rfl) fun _ _ => rfl, vReduce_of (fun _ => rfl) fun _ _ => rfl,
    fun f s key s0 => rotBase_ends, fun f s key s0 => rotBaseOff_ends⟩
  · simp only [List.mem_cons, List.not_mem_nil, or_false] at hi
    rcases hi with rfl | rfl | rfl | rfl
    · exact maskWord_discards (g := (· &&& ·)) st rfl (fun _ => rfl) hd
    · exact maskWord_discards (g := (· ||| ·)) st rfl (fun _ => rfl) hd
    · exact maskWord_discards (g := (· ^^^ ·)) st rfl (fun _ => rfl) hd
    · exact maskWord_discards (g := fun a _ => ~~~a) st rfl (fun _ => rfl) hd
  · have := maskWord_ends (g := (· &&& ·)) st rfl (fun _ => rfl) h
    rwa [ha, Cell.kreg_zero, BitVec.allOnes_and] at this

end Sys2Proof.Machine
end

