-- ==== Sys2Proof/Proofs/Conversions.lean ====
section
/-! SUPPORT. What a reduction gives (R219), and the words that convert elements: CVT (R223), UNPK and PACK (R224 to R226). -/

namespace Sys2Proof.Machine

open Claims

/-! ## Reductions (R219) -/

section
variable {better : Int → Int → Bool} (key : Nat → Int)
  (refl : ∀ a, better a a = false) (asymm : ∀ a b, better a b = true → better b a = false)
  (trans : ∀ a b c, better b a = false → better c b = false → better c a = false)
include refl asymm trans

/-- Picking the better of two from a list on gives an element of it than which none is better. -/
theorem foldl_better (ys : List Nat) (y : Nat) :
    ys.foldl (fun m x => if better (key x) (key m) then x else m) y ∈ y :: ys
    ∧ ∀ x ∈ y :: ys, better (key x) (key (ys.foldl (fun m x => if better (key x) (key m) then x else m) y)) = false := by
  induction ys generalizing y with
  | nil => simp [refl]
  | cons z ys ih =>
    rw [List.foldl_cons]
    obtain ⟨hmem, hbest⟩ := ih (if better (key z) (key y) then z else y)
    generalize ys.foldl _ _ = r at hmem hbest ⊢
    rw [List.forall_mem_cons] at hbest
    obtain ⟨hfirst, hrest⟩ := hbest
    cases hz : better (key z) (key y) with
    | true =>
      rw [hz, if_pos rfl] at hmem hfirst
      exact ⟨List.mem_cons_of_mem _ hmem,
        List.forall_mem_cons.2 ⟨trans _ _ _ hfirst (asymm _ _ hz), List.forall_mem_cons.2 ⟨hfirst, hrest⟩⟩⟩
    | false =>
      rw [hz, if_neg Bool.false_ne_true] at hmem hfirst
      refine ⟨?_, List.forall_mem_cons.2 ⟨hfirst, List.forall_mem_cons.2 ⟨trans _ _ _ hfirst hz, hrest⟩⟩⟩
      rcases List.mem_cons.1 hmem with h | h
      · exact h ▸ List.mem_cons_self
      · exact List.mem_cons_of_mem _ (List.mem_cons_of_mem _ h)

end

section
variable (t : ITy)

theorem wrapNat_eq (w : Nat) (z : Int) : wrapNat w z = (z % (2 : Int) ^ w).toNat := by
  rw [wrapNat, Nat.cast_pow, Nat.cast_ofNat]

theorem ITy.reduce_sum (xs : List Nat) : t.reduce 0 xs = xs.sum % 2 ^ t.w := by
  rw [List.sum_eq_foldl_nat]
  rfl

/-- The least of some elements is one of them, and none is less. -/
theorem ITy.reduce_min {xs : List Nat} (h : xs ≠ []) : t.reduce 1 xs ∈ xs ∧ ∀ x ∈ xs, t.read (t.reduce 1 xs) ≤ t.read x := by
  obtain ⟨y, ys, rfl⟩ := List.exists_cons_of_ne_nil h
  obtain ⟨hmem, hbest⟩ := foldl_better (better := fun a b => decide (a < b)) t.read (by simp) (by simp; omega) (by simp; omega) ys y
  exact ⟨hmem, fun x hx => Int.not_lt.1 (of_decide_eq_false (hbest x hx))⟩

/-- The greatest of some elements is one of them, and none is greater. -/
theorem ITy.reduce_max {xs : List Nat} (h : xs ≠ []) : t.reduce 2 xs ∈ xs ∧ ∀ x ∈ xs, t.read x ≤ t.read (t.reduce 2 xs) := by
  obtain ⟨y, ys, rfl⟩ := List.exists_cons_of_ne_nil h
  obtain ⟨hmem, hbest⟩ := foldl_better (better := fun a b => decide (b < a)) t.read (by simp) (by simp; omega) (by simp; omega) ys y
  exact ⟨hmem, fun x hx => Int.not_lt.1 (of_decide_eq_false (hbest x hx))⟩

end

/-- The exact sum rounded once does not depend on the order of its values. -/
theorem FFmt.sumOnce_perm (t : FFmt) {vs us : List Val} (h : vs.Perm us) : t.sumOnce vs = t.sumOnce us := by
  simp only [FFmt.sumOnce, h.any_eq, h.all_eq, h.isEmpty_eq, foldl_dy_perm h]

theorem FFmt.reduce_nan (t : FFmt) {xs : List Nat} (h : ∃ x ∈ xs, (t.decode x).isNan = true) : t.reduce 0 xs = (t.qnan, flagNV) := by
  have hany : (xs.map t.decode).any Val.isNan = true := by simpa using h
  exact if_pos hany

theorem reductions : Reductions := by
  refine ⟨fun t xs => ⟨t.reduce_sum xs, fun x hx => (t.reduce_min (List.ne_nil_of_mem hx)).2 x hx,
      fun h => ⟨(t.reduce_min h).1, (t.reduce_max h).1⟩, fun x hx => (t.reduce_max (List.ne_nil_of_mem hx)).2 x hx,
      wrapNat_eq _ _, wrapNat_eq _ _, rfl, rfl, rfl⟩,
    fun t xs ys h => ?_, fun t xs => t.reduce_nan, fun t => ⟨rfl, rfl, rfl⟩⟩
  exact congrArg Prod.fst (t.sumOnce_perm (h.map t.decode))

/-! ## Conversions between TYPE codes (R223) -/

theorem map_getD {α β : Type} (x : α) (d : β) (g : α → β) {l : List α} {i : Nat} (h : i < l.length) :
    (l.map g).getD i d = g (l.getD i x) := by
  simp [h]

theorem zipIdx_map_getD {α β : Type} (d : β) (x : α) (g : α × Nat → β) (l : List α) {i : Nat} (h : i < l.length) :
    (l.zipIdx.map g).getD i d = g (l.getD i x, i) := by
  simp [h]

section
variable {ns nd p row e : Nat}

/-- A place of a wider row that the part covers takes the source element there. -/
theorem cvtFrom_inside {k : Nat} (h : ns ≤ nd) (hk : k < ns) : cvtFrom ns nd p row (k + ns * p) = some (row * ns + k) := by
  rw [cvtFrom, if_pos h, Nat.add_comm k, Nat.mul_comm ns p, place_div p hk, place_mod p hk, if_pos rfl]

theorem cvtFrom_outside (h : ns ≤ nd) (hn : 0 < ns) (hk : ∀ k, k < ns → e ≠ k + ns * p) : cvtFrom ns nd p row e = none := by
  refine (if_pos h).trans (if_neg fun he => hk (e % ns) (Nat.mod_lt _ hn) ?_)
  rw [← he, Nat.add_comm, Nat.div_add_mod]

theorem cvtFrom_narrowing (h : nd < ns) : cvtFrom ns nd p row e = some (row * ns + (e + nd * p)) := by
  rw [cvtFrom, if_neg (Nat.not_le.2 h), Nat.add_assoc]

end

theorem cvt_ends {f : Rrr} {s s0 t : State} {key : Nat} {a : List Nat} {rs : List (Nat × Flags)} {ws p : Nat}
    (st : StartsX (.cvt f) s key s0) (hty : VType f.ty) (hsrc : VType (f.b.setWidth 4)) (hws : ws = typeBits (f.b.toNat % 16))
    (hp : p = f.b.toNat / 16 % 4) (ha : s0.vsrc f.a ws (litVal (f.b.toNat % 16) f.w1) = .ok (a, t))
    (hl : rs.length = elemCount (ebits f))
    (hrs : Places (2048 / ws) (erow f) p (t.core.velems (ebits f) (t.core.vphys f.d.toNat)) a
      (cvtElem (f.b.toNat % 16) f.ty.toNat f.rs.toNat) rs) : Ends (.cvt f) s (t.putV f (ebits f) rs) .seq := by
  have hns : 0 < 2048 / ws := by
    have hb : f.b.toNat % 16 = (f.b.setWidth 4).toNat := (BitVec.toNat_setWidth 4 f.b).symm
    rcases typeBits_of_vType _ hsrc with h | h | h <;> rw [hws, hb, h] <;> decide
  refine ends_of_vecWord st rfl (fun s => rfl) ?_
  subst hws hp
  simp only [ha, bind, Except.bind]
  refine congrArg (fun rs => Except.ok (t.putV f (ebits f) rs)) ?_
  have hold : (t.oldV f (ebits f)).length = 16 * erow f :=
    (t.core.velems_length _ (ebits_of_vType hty)).trans (rows_of_vType hty)
  refine ext_rows (0, 0) ((List.length_map _).trans (List.length_zipIdx.trans hold)) (hl.trans (rows_of_vType hty)) fun row e hr he => ?_
  refine (zipIdx_map_getD (0, 0) 0 _ _ (hold.symm ▸ place_lt hr he)).trans ?_
  have hrow : rowElems (typeBits f.ty.toNat) = erow f := rfl
  have hcol : rowElems (typeBits (f.b.toNat % 16)) = 2048 / typeBits (f.b.toNat % 16) := rfl
  dsimp only
  rw [hrow, hcol, place_div row he, place_mod row he]
  obtain ⟨hwide, hnarrow⟩ := hrs
  generalize 2048 / typeBits (f.b.toNat % 16) = ns at hns hwide hnarrow ⊢
  rcases Nat.lt_or_ge (erow f) ns with h | h
  · rw [cvtFrom_narrowing h, hnarrow h row e hr he]
    exact congrArg (cvtElem (f.b.toNat % 16) f.ty.toNat f.rs.toNat) (getD_toArray a _ 0)
  · obtain ⟨hin, hout⟩ := hwide h row e hr he
    by_cases hk : ∃ k, k < ns ∧ e = k + ns * (f.b.toNat / 16 % 4)
    · obtain ⟨k, hk, rfl⟩ := hk
      rw [cvtFrom_inside h hk, hin k hk rfl]
      exact congrArg (cvtElem (f.b.toNat % 16) f.ty.toNat f.rs.toNat) (getD_toArray a _ 0)
    · have hk' : ∀ k, k < ns → e ≠ k + ns * (f.b.toNat / 16 % 4) := fun k hlt heq => hk ⟨k, hlt, heq⟩
      rw [cvtFrom_outside h hns hk', hout hk']
      rfl

/-! ## Packed fields (R224) -/

theorem narrowBits_pos (fmt : Nat) : 0 < narrowBits fmt := by
  unfold narrowBits
  split <;> decide

theorem testBit_natBits (x lo n i : Nat) : (natBits x lo n).testBit i = (decide (i < n) && x.testBit (lo + i)) := by
  rw [natBits, Nat.testBit_mod_two_pow, Nat.testBit_shiftRight]

theorem partBit_eq (fmt w p : Nat) : partBit fmt w p = 8 * (p * (elemCount w * narrowBits fmt / 8)) := Nat.mul_comm _ _

/-- Numbers of k bits put one behind another. -/
def joinFields (k : Nat) (vs : List Nat) : Nat := vs.foldr (fun v acc => acc * 2 ^ k + v) 0

section
variable {k : Nat} (hk : 0 < k) {vs : List Nat} (hv : ∀ v ∈ vs, v < 2 ^ k)
include hk hv

theorem testBit_joinFields (j : Nat) : (joinFields k vs).testBit j = (vs.getD (j / k) 0).testBit (j % k) := by
  induction vs generalizing j with
  | nil => simp [joinFields]
  | cons v vs ih =>
    rw [List.forall_mem_cons] at hv
    have ih := ih hv.2
    unfold joinFields at ih ⊢
    rw [List.foldr_cons, Nat.mul_comm, Nat.testBit_two_pow_mul_add _ hv.1]
    split
    · next h => rw [Nat.div_eq_of_lt h, Nat.mod_eq_of_lt h, List.getD_cons_zero]
    · next h =>
      have hle := Nat.le_of_not_lt h
      have hd : j / k = (j - k) / k + 1 := by rw [← Nat.add_div_right _ hk, Nat.sub_add_cancel hle]
      rw [ih, hd, List.getD_cons_succ, ← Nat.mod_eq_sub_mod hle]

theorem joinFields_lt : joinFields k vs < 2 ^ (vs.length * k) := by
  refine Nat.lt_pow_two_of_testBit _ fun j hj => ?_
  rw [testBit_joinFields hk hv, List.getD_eq_default, Nat.zero_testBit]
  exact (Nat.le_div_iff_mul_le hk).2 hj

end

/-- A number with the bits of a range replaced. -/
theorem testBit_splice {old part base len : Nat} (h : part < 2 ^ len) (j : Nat) :
    (old % 2 ^ base + part * 2 ^ base + old / 2 ^ (base + len) * 2 ^ (base + len)).testBit j
      = if base ≤ j ∧ j < base + len then part.testBit (j - base) else old.testBit j := by
  have hx : old % 2 ^ base + part * 2 ^ base + old / 2 ^ (base + len) * 2 ^ (base + len)
      = 2 ^ base * (2 ^ len * (old / 2 ^ (base + len)) + part) + old % 2 ^ base := by
    rw [pow_add]
    ring
  rw [hx, Nat.testBit_two_pow_mul_add _ (Nat.mod_lt _ (Nat.two_pow_pos _)), Nat.testBit_two_pow_mul_add _ h]
  by_cases hb : j < base
  · rw [if_pos hb, if_neg (by omega), Nat.testBit_mod_two_pow, decide_eq_true hb, Bool.true_and]
  · rw [if_neg hb]
    by_cases hl : j - base < len
    · rw [if_pos hl, if_pos (by omega)]
    · rw [if_neg hl, if_neg (by omega), Nat.testBit_div_two_pow]
      congr 1
      omega

/-- The bits of lanes as one number. -/
theorem testBit_lanesNat (ls : List (BitVec 32)) (j : Nat) : (lanesNat ls).testBit j = (ls.getD (j / 32) 0).getLsbD (j % 32) := by
  have hj : lanesNat ls = joinFields 32 (ls.map BitVec.toNat) := by
    rw [lanesNat, joinFields, List.foldr_map]
    simp only [Nat.add_comm]
  have hv : ∀ v ∈ ls.map BitVec.toNat, v < 2 ^ 32 := fun v hv => by
    obtain ⟨l, -, rfl⟩ := List.mem_map.1 hv
    exact l.isLt
  rw [hj, testBit_joinFields (by decide) hv]
  exact congrArg (fun x : Nat => x.testBit (j % 32)) (List.getD_map ls 0 BitVec.toNat)

/-- Lanes whose bits as one number are those of a number. -/
theorem natLanes_eq {x : Nat} {ls : List (BitVec 32)} (hl : ls.length = 1024)
    (h : ∀ j, j < 32768 → x.testBit j = (lanesNat ls).testBit j) : natLanes x = ls := by
  refine ext_getD 0 ((List.length_map _).trans (List.length_range.trans hl.symm)) fun i hi => ?_
  rw [natLanes, List.length_map, List.length_range] at hi
  rw [natLanes, map_range_getD 0 _ hi]
  refine BitVec.eq_of_getLsbD_eq fun b hb => ?_
  have hx := h (32 * i + b) (by omega)
  rw [testBit_lanesNat, Nat.mul_add_div (by decide), Nat.mul_add_mod, Nat.div_eq_of_lt hb, Nat.mod_eq_of_lt hb, Nat.add_zero] at hx
  rw [BitVec.getLsbD_ofNat, testBit_natBits, decide_eq_true hb, Bool.true_and, Bool.true_and, hx]

/-! ## UNPK (R225) -/

/-- The narrow formats of integers give integers. -/
theorem narrowVal_int {fmt : Nat} (h : 5 ≤ fmt) (code : Nat) : ∃ z fl, narrowVal fmt code = (intVal z, fl) := by
  obtain rfl | rfl | rfl | h8 : fmt = 5 ∨ fmt = 6 ∨ fmt = 7 ∨ 8 ≤ fmt := by omega
  · exact ⟨_, _, rfl⟩
  · exact ⟨_, _, rfl⟩
  · exact ⟨_, _, rfl⟩
  · obtain ⟨n, rfl⟩ := Nat.exists_eq_add_of_le' h8
    exact ⟨_, _, rfl⟩

theorem iType_of_notFloat {ty : BitVec 4} (h : VType ty) (hf : isFloatType ty.toNat = false) : IType ty := by
  refine h.resolve_right fun h => ?_
  rw [isFloatType, decide_eq_true h.1, decide_eq_true h.2] at hf
  exact absurd hf (by decide)

theorem md_eq_wrapNat {f : Rrr} (h : IType f.ty) (z : Int) : md f z = wrapNat (ebits f) z := by
  rw [wrapNat_eq, ebits_of_iType h]
  rfl

/-- The narrow code of an element of a part (R224). -/
def packedCode (f : Rrr) (a : List Nat) (i : Nat) : Nat :=
  natBits (lanesNat (lanesOf (ebits f) a)) (partBit f.rs.toNat (ebits f) f.b.toNat + i * narrowBits f.rs.toNat) (narrowBits f.rs.toNat)

theorem unpk_ends {f : Rrr} {s s0 t : State} {key nb : Nat} {a : List Nat} {rs : List (Nat × Flags)}
    (st : StartsX (.unpk f) s key s0) (hty : VType f.ty) (ha : s0.vsrc f.a (ebits f) (litVal f.ty.toNat f.w1) = .ok (a, t))
    (hnb : nb = narrowBits f.rs.toNat) (hl : rs.length = elemCount (ebits f))
    (hrs : ∀ i v fl, i < elemCount (ebits f) → narrowVal f.rs.toNat
        (lanesNat (lanesOf (ebits f) a) / 2 ^ (8 * (f.b.toNat * (elemCount (ebits f) * nb / 8)) + i * nb) % 2 ^ nb) = (v, fl) →
      (isFloatType f.ty.toNat = true → rs.getD i (0, 0) = (((ffmt f).roundVal 0 v).1, fl))
      ∧ (∀ n m, isFloatType f.ty.toNat = false → v = .fin n m 0 → rs.getD i (0, 0) = (md f (if n then -(m : Int) else m), fl)))
    (hint : isFloatType f.ty.toNat = false → 5 ≤ f.rs.toNat) : Ends (.unpk f) s (t.putV f (ebits f) rs) .seq := by
  refine ends_of_vecWord st rfl (fun s => rfl) ?_
  have ha' : s0.vsrc f.a (typeBits f.ty.toNat) (litVal f.ty.toNat f.w1) = .ok (a, t) := ha
  simp only [ha', bind, Except.bind]
  refine congrArg (fun rs => Except.ok (t.putV f (ebits f) rs)) ?_
  refine ext_getD (0, 0) ((List.length_map _).trans (List.length_range.trans hl.symm)) fun i hi => ?_
  rw [List.length_map, List.length_range] at hi
  refine (map_range_getD (0, 0) _ hi).trans ?_
  subst hnb
  simp only [← partBit_eq, ← natBits_eq] at hrs
  obtain ⟨v, fl, hv⟩ : ∃ v fl, narrowVal f.rs.toNat (packedCode f a i) = (v, fl) := ⟨_, _, rfl⟩
  obtain ⟨hfloat, hwhole⟩ := hrs i v fl hi hv
  have hv' := hv
  unfold packedCode ebits at hv'
  rw [hv']
  cases hf : isFloatType f.ty.toNat with
  | true => exact (hfloat hf).symm
  | false =>
    obtain ⟨z, fl', hz⟩ := narrowVal_int (hint hf) (packedCode f a i)
    obtain ⟨rfl, rfl⟩ := Prod.mk.inj (hv.symm.trans hz)
    rw [hwhole _ _ hf rfl, md_eq_wrapNat (iType_of_notFloat hty hf)]
    exact Prod.ext (congrArg (wrapNat _) (mul_one _)) rfl

/-! ## PACK (R226) -/

/-- An element in the narrow format (R226). -/
def narrowElem (f : Rrr) (x : Nat) : Nat × Flags :=
  if isFloatType f.ty.toNat then narrowOf f.rs.toNat ((ffmt f).decode x) else narrowOfInt f.rs.toNat (rd f x)

/-- The fields of a part: an active element's result, and of the others what the register holds. -/
def partFields (nb old base : Nat) (m : List Bool) (rs : List (Nat × Flags)) : List Nat :=
  ((m.zip rs).zipIdx).map fun e => if e.1.1 then e.1.2.1 % 2 ^ nb else natBits old (base + e.2 * nb) nb

/-- The bits of a register with the fields of a part of `n` elements replaced. -/
def packedBits (nb old base : Nat) (m : List Bool) (rs : List (Nat × Flags)) (n : Nat) : Nat :=
  old % 2 ^ base + joinFields nb (partFields nb old base m rs) * 2 ^ base + old / 2 ^ (base + n * nb) * 2 ^ (base + n * nb)

section
variable {nb old base n : Nat} {m : List Bool} {rs : List (Nat × Flags)} (hm : m.length = n) (hr : rs.length = n)

theorem partFields_lt : ∀ v ∈ partFields nb old base m rs, v < 2 ^ nb := by
  intro v hv
  obtain ⟨e, -, rfl⟩ := List.mem_map.1 hv
  split
  · exact Nat.mod_lt _ (Nat.two_pow_pos nb)
  · exact Nat.mod_lt _ (Nat.two_pow_pos nb)

include hm hr

theorem partFields_eq : partFields nb old base m rs = (List.range n).map fun k =>
    if m.getD k false then (rs.getD k (0, 0)).1 % 2 ^ nb else natBits old (base + k * nb) nb := by
  rw [partFields, zip_zipIdx_eq false (0, 0) hm hr, List.map_map]
  rfl

/-- A bit of a register after PACK: that of the active element whose field it lies in, or as it was. -/
theorem testBit_packedBits (hnb : 0 < nb) (j : Nat) : (packedBits nb old base m rs n).testBit j
      = if base ≤ j ∧ j < base + n * nb ∧ m.getD ((j - base) / nb) false = true
        then (rs.getD ((j - base) / nb) (0, 0)).1.testBit ((j - base) % nb) else old.testBit j := by
  have hlen : (partFields nb old base m rs).length = n := by
    rw [partFields_eq hm hr, List.length_map, List.length_range]
  have hlt := joinFields_lt hnb (partFields_lt (nb := nb) (old := old) (base := base) (m := m) (rs := rs))
  rw [hlen] at hlt
  rw [packedBits, testBit_splice hlt, testBit_joinFields hnb partFields_lt, partFields_eq hm hr]
  by_cases hin : base ≤ j ∧ j < base + n * nb
  · have hk : (j - base) / nb < n := (Nat.div_lt_iff_lt_mul hnb).2 (by omega)
    have hb : (j - base) % nb < nb := Nat.mod_lt _ hnb
    rw [if_pos hin, map_range_getD 0 _ hk]
    by_cases hact : m.getD ((j - base) / nb) false = true
    · rw [if_pos hact, if_pos ⟨hin.1, hin.2, hact⟩, Nat.testBit_mod_two_pow, decide_eq_true hb, Bool.true_and]
    · rw [if_neg hact, if_neg fun h => hact h.2.2, testBit_natBits, decide_eq_true hb, Bool.true_and, Nat.add_assoc,
        Nat.div_add_mod', Nat.add_sub_cancel' hin.1]
  · rw [if_neg hin, if_neg fun h => hin ⟨h.1, h.2.1⟩]

end

theorem pack_ends {f : Rrr} {s s0 t : State} {key nb base : Nat} {a : List Nat} {new : List (BitVec 32)}
    (st : StartsX (.pack f) s key s0) (hty : VType f.ty) (ha : s0.vsrc f.a (ebits f) (litVal f.ty.toNat f.w1) = .ok (a, t))
    (hnb : nb = narrowBits f.rs.toNat) (hbase : base = 8 * (f.b.toNat * (elemCount (ebits f) * nb / 8))) (hl : new.length = 1024)
    (hnew : ∀ j, j < 32768 → (lanesNat new).testBit j =
      if base ≤ j ∧ j < base + elemCount (ebits f) * nb ∧ masked t.core f.fl.toNat (ebits f) ((j - base) / nb) = true then
        (if isFloatType f.ty.toNat then narrowOf f.rs.toNat ((ffmt f).decode (a.getD ((j - base) / nb) 0))
          else narrowOfInt f.rs.toNat (rd f (a.getD ((j - base) / nb) 0))).1.testBit ((j - base) % nb)
      else (lanesNat (t.core.vlanes (t.core.vphys f.d.toNat))).testBit j) :
    ∃ fl, Ends (.pack f) s (t.setCore ((t.core.setVlanes (t.core.vphys f.d.toNat) new).raiseFp fl)) .seq := by
  have la' : a.length = elemCount (ebits f) := State.vsrc_length (ebits_of_vType hty) ha
  have la : (a.map (narrowElem f)).length = elemCount (ebits f) := (List.length_map _).trans la'
  have hpos : 0 < nb := hnb ▸ narrowBits_pos _
  have hnat : natLanes (packedBits nb (lanesNat (t.core.vlanes (t.core.vphys f.d.toNat))) base
      (maskBits (ebits f) (t.core.kreg f.fl.toNat)) (a.map (narrowElem f)) (elemCount (ebits f))) = new := by
    refine natLanes_eq hl fun j hj => ?_
    rw [hnew j hj, testBit_packedBits (maskBits_length _ _) la hpos]
    by_cases hin : base ≤ j ∧ j < base + elemCount (ebits f) * nb
    · have hk : (j - base) / nb < elemCount (ebits f) := (Nat.div_lt_iff_lt_mul hpos).2 (by omega)
      rw [maskBits_getD _ _ _ hk]
      refine if_congr Iff.rfl ?_ rfl
      rw [map_getD 0 (0, 0) _ (la'.symm ▸ hk)]
      rfl
    · rw [if_neg fun h => hin ⟨h.1, h.2.1⟩, if_neg fun h => hin ⟨h.1, h.2.1⟩]
  refine ⟨flagsOf (maskBits (ebits f) (t.core.kreg f.fl.toNat)) (a.map (narrowElem f)), ends_of_vecWord st rfl (fun s => rfl) ?_⟩
  have ha' : s0.vsrc f.a (typeBits f.ty.toNat) (litVal f.ty.toNat f.w1) = .ok (a, t) := ha
  simp only [ha', bind, Except.bind]
  rw [← hnat]
  simp only [packedBits, joinFields, partFields, List.foldr_map, hbase, hnb, ← partBit_eq]
  rfl

/-- Settles O42: a reduction is told operation by operation, a conversion place by place, and the packed fields bit by bit. -/
theorem conversionsComplete : Obligations.ConversionsComplete :=
  ⟨reductions, fun _ _ _ _ _ _ _ _ _ => cvt_ends, fun _ _ _ _ _ _ _ _ => unpk_ends, fun _ _ _ _ _ _ _ _ _ => pack_ends⟩

end Sys2Proof.Machine
end

