-- ==== Sys2Proof/Proofs/Predicates.lean ====
section
/-! SUPPORT. The geometric predicates (R233 to R241): the lanes of a word, the cause of the first that fails, and what a word
without such a lane writes. -/

namespace Sys2Proof.Machine

open Claims

/-- An X word whose body raises a cause, raises it. -/
theorem raises_of_vecWord {i : Instr} {s s0 : State} {key : Nat} {f : Rrr} {body : State → M State} {r : Raise} (st : StartsX i s key s0)
    (hi : i.body = .rrr f) (hx : ∀ s, exec i s = vecWord f body s) (b : body s0 = .error (.cause r none)) : Raises i s r := by
  have hv : s0.vrotReady = .ok () := by simp [State.vrotReady, st.2]
  exact raises_of st.1 (by rw [hi]; rfl) hx (seqM_error (by rw [hv]; exact b))

/-! ## Points and indices of a lane (R233) -/

theorem chunks_range {α : Type} (d n : Nat) (g : Nat → α) :
    chunks d n ((List.range (d * n)).map g) = (List.range n).map fun k => (List.range d).map fun j => g (d * k + j) := by
  induction n generalizing g with
  | zero => rfl
  | succ n ih =>
    have hrange : (List.range (d * (n + 1))).map g
        = (List.range d).map g ++ (List.range (d * n)).map fun j => g (d + j) := by
      rw [Nat.mul_succ, Nat.add_comm, List.range_add, List.map_append, List.map_map]
      rfl
    have hlen : ((List.range d).map g).length = d := by simp
    rw [hrange, chunks, List.take_left' hlen, List.drop_left' hlen, ih, List.range_succ_eq_map, List.map_cons, List.map_map]
    simp only [Nat.mul_zero, Nat.zero_add]
    refine congrArg _ (List.map_congr_left fun k _ => List.map_congr_left fun j _ => congrArg g ?_)
    rw [Nat.succ_eq_add_one, Nat.mul_succ]
    omega

/-- What register `k` of a predicate's sources holds in a lane. -/
def sourceLane (f : Rrr) (c : Cell) (l k : Nat) : Nat := (c.velems (ebits f) (c.vphys (f.a.toNat + k))).getD l 0

theorem points_eq (f : Rrr) (c : Cell) (d pts l : Nat) :
    chunks d pts ((List.range (d * pts)).map fun k => (fmtOf f.ty.toNat).decode (sourceLane f c l k)) = points f c d pts l := by
  rw [chunks_range, points]
  simp only [sourceLane, Nat.add_assoc]

theorem indices_eq (f : Rrr) (c : Cell) (d pts l : Nat) :
    (List.range pts).map (fun k => toSigned (ebits f) (sourceLane f c l (d * pts + k))) = indices f c d pts l := by
  rw [indices]
  simp only [sourceLane, Nat.add_assoc]

/-! ## A lane's outcome (R233, R236, R237) -/

section
variable {dec : Bool → List (List Val) → Option (List Int) → Int × Nat} {b sos nfq : Bool} {ps : List (List Val)} {ix : List Int}

theorem nonFinite_iff : (ps.any fun p => p.any fun v => !v.isFin) = true ↔ ¬ Claims.Finite ps := by
  simp [Claims.Finite]

theorem predLane_decides (h : Claims.Finite ps) (hix : sos = true → ix.Nodup) :
    predLane dec b sos nfq ps ix = .ok (dec b ps (if sos then some ix else none)) := by
  refine (if_neg fun hn => nonFinite_iff.1 hn h).trans (if_neg fun hn => ?_)
  rw [Bool.and_eq_true, Bool.not_eq_true', decide_eq_false_iff_not] at hn
  exact hn.2 (hix hn.1)

theorem predLane_skips (h : ¬ Claims.Finite ps) : predLane dec b sos true ps ix = .ok (-128, 0) := if_pos (nonFinite_iff.2 h)

theorem predLane_nonFinite (h : ¬ Claims.Finite ps) : predLane dec b sos false ps ix = .error 0x65 := if_pos (nonFinite_iff.2 h)

theorem predLane_equal (h : Claims.Finite ps) (hix : ¬ ix.Nodup) : predLane dec b true nfq ps ix = .error 0x66 :=
  (if_neg fun hn => nonFinite_iff.1 hn h).trans (if_pos (by rw [decide_eq_false hix]; rfl))

end

/-- Lane `l` of a predicate word: nothing where it is inactive. -/
def laneOutcome (f : Rrr) (c : Cell) (d pts : Nat) (dec : Bool → List (List Val) → Option (List Int) → Int × Nat) (l : Nat) :
    Option (Except (BitVec 8) (Int × Nat)) :=
  if masked c f.fl.toNat (ebits f) l then
    some (predLane dec (f.ty == 8) (f.rs.getLsbD 0) (f.rs.getLsbD 1) (points f c d pts l)
      (if f.rs.getLsbD 0 then indices f c d pts l else []))
  else none

/-! ## What a word writes (R233, R237, R241) -/

/-- The mask of the lanes with a result other than zero. -/
def nonZeroLanes (f : Rrr) (c : Cell) (rs : List (Int × Nat)) : BitVec 2048 :=
  maskOf (ebits f) (((maskBits (ebits f) (c.kreg f.fl.toNat)).zip rs).map fun e => e.1 && e.2.1 != 0)

theorem nonZeroLanes_eq {f : Rrr} {rs : List (Int × Nat)} (c : Cell) (hl : rs.length = elemCount (ebits f)) :
    nonZeroLanes f c rs = nonZeroMap f c rs := by
  refine congrArg (maskOf (ebits f)) (ext_getD false (by simp [maskBits_length, hl]) fun l h => ?_)
  have hlt : l < elemCount (ebits f) := by simpa [maskBits_length, hl] using h
  rw [map_range_getD false _ hlt, ← maskBits_getD c f.fl.toNat (ebits f) hlt]
  exact zip_map_getD (fun (m : Bool) (r : Int × Nat) => m && r.1 != 0) _ _ false (0, 0) false (by rwa [maskBits_length]) (by rwa [hl])

/-- The lanes of 32 bits that the exact stage decided. -/
def exactLanes (f : Rrr) (rs : List (Int × Nat)) : List Bool :=
  rs.flatMap fun r => List.replicate (if ebits f = 64 then 2 else 1) (r.2 == 3)

/-- The cell after a predicate word with results and stages. -/
def predCell (f : Rrr) (c : Cell) (rs : List (Int × Nat)) : Cell :=
  { ((c.writeV f.d (ebits f) f.fl.toNat (rs.map fun r => wrapNat (ebits f) r.1)).setK f.b.toNat (nonZeroLanes f c rs)) with
    pstg := rs.foldl (fun a r => max a r.2) 0, pnc := ((exactLanes f rs).filter id).length
    pslane := BitVec.ofNat 1024 ((exactLanes f rs).foldr (fun b (a : Nat) => 2 * a + (if b then 1 else 0)) 0) }

/-- The highest stage of the lanes. -/
theorem foldl_max_stage (rs : List (Int × Nat)) (n : Nat) :
    n ≤ rs.foldl (fun a r => max a r.2) n ∧ (∀ r ∈ rs, r.2 ≤ rs.foldl (fun a r => max a r.2) n)
    ∧ (rs.foldl (fun a r => max a r.2) n = n ∨ ∃ r ∈ rs, r.2 = rs.foldl (fun a r => max a r.2) n) := by
  induction rs generalizing n with
  | nil => simp
  | cons r rs ih =>
    obtain ⟨hn, hall, hone⟩ := ih (max n r.2)
    rw [List.foldl_cons]
    generalize rs.foldl (fun a r => max a r.2) (max n r.2) = m at hn hall hone ⊢
    refine ⟨by omega, List.forall_mem_cons.2 ⟨by omega, hall⟩, ?_⟩
    rcases hone with h | ⟨x, hx, h⟩
    · rcases Nat.le_total n r.2 with hle | hle
      · exact .inr ⟨r, List.mem_cons_self, by omega⟩
      · exact .inl (by omega)
    · exact .inr ⟨x, List.mem_cons_of_mem _ hx, h⟩

theorem flatMap_replicate_getD {α : Type} (g : α → Bool) {k : Nat} (hk : 0 < k) (l : List α) (x : α) {j : Nat} (h : j < l.length * k) :
    (l.flatMap fun r => List.replicate k (g r)).getD j false = g (l.getD (j / k) x) := by
  induction l generalizing j with
  | nil => simp at h
  | cons r l ih =>
    rw [List.flatMap_cons]
    rcases Nat.lt_or_ge j k with hj | hj
    · rw [List.getD_append _ _ _ _ (by simpa using hj), Nat.div_eq_of_lt hj, List.getD_cons_zero]
      simp [hj]
    · have hd : j / k = (j - k) / k + 1 := by rw [← Nat.add_div_right _ hk, Nat.sub_add_cancel hj]
      rw [List.length_cons, Nat.succ_mul] at h
      rw [List.getD_append_right _ _ _ _ (by simpa using hj), List.length_replicate, ih (by omega), hd, List.getD_cons_succ]

section
variable {f : Rrr} (hty : f.ty = 8 ∨ f.ty = 9) {rs : List (Int × Nat)}
include hty

theorem ebits_of_predicate : ebits f = 64 ∨ ebits f = 32 := by
  rcases hty with h | h <;> rw [ebits, h]
  · exact .inl rfl
  · exact .inr rfl

/-- The wide stages belong to the 64-bit format. -/
theorem isWide_eq : (ebits f == 64) = (f.ty == 8) := by
  rcases hty with h | h <;> rw [ebits, h] <;> rfl

theorem exactLanes_getD (hl : rs.length = elemCount (ebits f)) {j : Nat} (hj : j < 1024) :
    (exactLanes f rs).getD j false = ((rs.getD (j / (ebits f / 32)) (0, 0)).2 == 3) := by
  have hk : (if ebits f = 64 then 2 else 1) = ebits f / 32 := by
    rcases ebits_of_predicate hty with h | h <;> rw [h] <;> rfl
  have hpos : 0 < ebits f / 32 ∧ elemCount (ebits f) * (ebits f / 32) = 1024 := by
    rcases ebits_of_predicate hty with h | h <;> rw [h] <;> decide
  rw [exactLanes, hk]
  exact flatMap_replicate_getD (fun r => r.2 == 3) hpos.1 rs (0, 0) (by rw [hl, hpos.2]; exact hj)

theorem exactLanes_length (hl : rs.length = elemCount (ebits f)) : (exactLanes f rs).length = 1024 := by
  rw [exactLanes, List.length_flatMap]
  simp only [List.length_replicate, List.map_const', List.sum_replicate, hl]
  rcases ebits_of_predicate hty with h | h <;> rw [h] <;> rfl

theorem predCell_pslane (c : Cell) (hl : rs.length = elemCount (ebits f)) {j : Nat} (hj : j < 1024) :
    (predCell f c rs).pslane.getLsbD j = ((rs.getD (j / (ebits f / 32)) (0, 0)).2 == 3) := by
  have hbits := testBit_foldr_mask 1 (by decide) (exactLanes f rs) j
  rw [Nat.div_one, exactLanes_getD hty hl hj] at hbits
  simp only [Nat.mul_comm _ (2 ^ 1)] at hbits
  exact (BitVec.getLsbD_ofNat ..).trans ((congrArg₂ and (decide_eq_true hj) hbits).trans (Bool.true_and _))

theorem predCell_pnc (c : Cell) (hl : rs.length = elemCount (ebits f)) :
    (predCell f c rs).pnc = ((List.range 1024).filter fun j => (predCell f c rs).pslane.getLsbD j).length := by
  have hlanes : exactLanes f rs = (List.range 1024).map fun j => (predCell f c rs).pslane.getLsbD j := by
    refine ext_getD false (by rw [exactLanes_length hty hl, List.length_map, List.length_range]) fun j hj => ?_
    rw [exactLanes_length hty hl] at hj
    rw [map_range_getD false _ hj, predCell_pslane hty c hl hj, exactLanes_getD hty hl hj]
  have hcount : (predCell f c rs).pnc = ((exactLanes f rs).filter id).length := rfl
  rw [hcount, hlanes, List.filter_map, List.length_map]
  rfl

end

/-! ## The words -/

section
variable {β γ : Type} {F : γ × Nat → Option β} {g : Nat → γ} {n l : Nat}

theorem zipIdx_map_range (g : Nat → γ) (n : Nat) : ((List.range n).map g).zipIdx = (List.range n).map fun l => (g l, l) :=
  List.ext_getElem (by simp) fun _ _ _ => by simp

theorem findSome?_range_none (h : ∀ l, l < n → F (g l, l) = none) : ((List.range n).map g).zipIdx.findSome? F = none := by
  rw [zipIdx_map_range, List.findSome?_map, List.findSome?_eq_none_iff]
  exact fun l hl => h l (List.mem_range.1 hl)

/-- A search of numbered entries ends at the first that it finds. -/
theorem findSome?_range_first {y : β} (hl : l < n) (h : F (g l, l) = some y) (hf : ∀ j, j < l → F (g j, j) = none) :
    ((List.range n).map g).zipIdx.findSome? F = some y := by
  obtain ⟨m, rfl⟩ := Nat.exists_eq_add_of_lt hl
  have hbefore : (List.range l).findSome? (F ∘ fun l => (g l, l)) = none :=
    List.findSome?_eq_none_iff.2 fun j hj => hf j (List.mem_range.1 hj)
  rw [zipIdx_map_range, List.findSome?_map, Nat.add_assoc, List.range_add, List.findSome?_append, hbefore, Option.none_or,
    List.range_succ_eq_map, List.map_cons, List.findSome?_cons]
  simp only [Function.comp_apply, Nat.add_zero, h]

end

/-- The cause of a lane, with its number. -/
def laneFault (e : Option (Except (BitVec 8) (Int × Nat)) × Nat) : Option (BitVec 8 × Nat) :=
  match e.1 with | some (.error x) => some (x, e.2) | _ => none

/-- The result and the stage of a lane. -/
def laneResult (e : Option (Except (BitVec 8) (Int × Nat))) : Int × Nat := match e with | some (.ok r) => r | _ => (0, 0)

/-- What a predicate word makes of the outcomes of its lanes. -/
def predOut (f : Rrr) (s : State) (lanes : List (Option (Except (BitVec 8) (Int × Nat)))) : M State :=
  match lanes.zipIdx.findSome? laneFault with
  | some (code, i) =>
    .error (.cause { code := code, view := viewCode (ebits f), row := i / erow f, elem := i % erow f } none)
  | none => .ok (s.setCore (predCell f s.core (lanes.map laneResult)))

/-- The outcomes of the lanes, each from the registers that the word reads. -/
def predLanes (f : Rrr) (c : Cell) (d pts : Nat) (dec : Bool → List (List Val) → Option (List Int) → Int × Nat) :
    List (Option (Except (BitVec 8) (Int × Nat))) :=
  let reg := fun k => (c.velems (ebits f) (c.vphys (f.a.toNat + k))).toArray
  let idx := if f.rs.getLsbD 0 then (List.range pts).map fun i => reg (d * pts + i) else []
  (maskBits (ebits f) (c.kreg f.fl.toNat)).zipIdx.map fun e =>
    if e.1 then
      some (predLane dec (ebits f == 64) (f.rs.getLsbD 0) (f.rs.getLsbD 1)
        (chunks d pts ((laneOf ((List.range (d * pts)).map reg) e.2).map (fmtOf f.ty.toNat).decode))
        ((laneOf idx e.2).map (toSigned (ebits f))))
    else none

/-- A predicate word decides its lanes and then writes, or raises the first cause. -/
theorem predWord_eq (d pts : Nat) (dec : Bool → List (List Val) → Option (List Int) → Int × Nat) (f : Rrr) :
    predWord d pts dec f
      = vecWord f fun s => (s.stageFree f.b.toNat >>= fun _ => predOut f s (predLanes f s.core d pts dec)) := rfl

section
variable {d pts : Nat} {dec : Bool → List (List Val) → Option (List Int) → Int × Nat} {f : Rrr} (hty : f.ty = 8 ∨ f.ty = 9)

/-- The registers that a predicate word reads, from its `a`-th source on, and what a lane of them holds. -/
theorem laneOf_sources (f : Rrr) (c : Cell) (n a l : Nat) :
    laneOf ((List.range n).map fun k => (c.velems (ebits f) (c.vphys (f.a.toNat + (a + k)))).toArray) l
      = (List.range n).map fun k => sourceLane f c l (a + k) := by
  rw [laneOf, List.map_map]
  exact List.map_congr_left fun k _ => getD_toArray _ l 0

include hty

theorem predLanes_eq (c : Cell) :
    predLanes f c d pts dec = (List.range (elemCount (ebits f))).map (laneOutcome f c d pts dec) := by
  rw [predLanes, maskBits, zipIdx_map_range, List.map_map]
  refine List.map_congr_left fun l _ => ?_
  have hpts := laneOf_sources f c (d * pts) 0 l
  simp only [Nat.zero_add] at hpts
  have hix : (laneOf (if f.rs.getLsbD 0 then (List.range pts).map fun k =>
      (c.velems (ebits f) (c.vphys (f.a.toNat + (d * pts + k)))).toArray else []) l).map (toSigned (ebits f))
      = if f.rs.getLsbD 0 then indices f c d pts l else [] := by
    split
    · rw [laneOf_sources, List.map_map, ← indices_eq]
      rfl
    · rfl
  simp only [Function.comp_apply, hpts, hix, List.map_map, isWide_eq hty]
  rw [laneOutcome, ← points_eq]
  rfl

/-- Where every lane has a result, the word writes them. -/
theorem predOut_ok {s : State} {rs : List (Int × Nat)} (hl : rs.length = elemCount (ebits f))
    (h : ∀ l, l < elemCount (ebits f) → laneOutcome f s.core d pts dec l = none ∧ rs.getD l (0, 0) = (0, 0)
      ∨ laneOutcome f s.core d pts dec l = some (.ok (rs.getD l (0, 0)))) :
    predOut f s (predLanes f s.core d pts dec) = .ok (s.setCore (predCell f s.core rs)) := by
  have hres : (predLanes f s.core d pts dec).map laneResult = rs := by
    rw [predLanes_eq hty, List.map_map]
    refine ext_getD (0, 0) (by simp [hl]) fun l hlt => ?_
    rw [List.length_map, List.length_range] at hlt
    rw [map_range_getD _ _ hlt, Function.comp_apply]
    rcases h l hlt with ⟨hn, hr⟩ | hr
    · rw [hn, hr]; rfl
    · rw [hr]; rfl
  have hnone : (predLanes f s.core d pts dec).zipIdx.findSome? laneFault = none := by
    rw [predLanes_eq hty]
    refine findSome?_range_none fun l hlt => ?_
    rcases h l hlt with ⟨hn, -⟩ | hr
    · rw [hn]; rfl
    · rw [hr]; rfl
  rw [predOut, hnone, hres]

/-- Where a lane fails, and none before it does, the word raises its cause. -/
theorem predOut_raises {s : State} {l : Nat} {code : BitVec 8} (hl : l < elemCount (ebits f))
    (h : laneOutcome f s.core d pts dec l = some (.error code))
    (hf : ∀ j, j < l → laneFault (laneOutcome f s.core d pts dec j, j) = none) :
    predOut f s (predLanes f s.core d pts dec)
      = .error (.cause { code := code, view := viewCode (ebits f), row := l / erow f, elem := l % erow f } none) := by
  have hsome : (predLanes f s.core d pts dec).zipIdx.findSome? laneFault = some (code, l) := by
    rw [predLanes_eq hty]
    exact findSome?_range_first hl (by rw [h]; rfl) hf
  rw [predOut, hsome]

end

/-! ## The words -/

section
variable {d pts : Nat} {dec : Bool → List (List Val) → Option (List Int) → Int × Nat} {i : Instr} {f : Rrr} {s s0 : State} {key : Nat}
  (st : StartsX i s key s0) (hi : i.body = .rrr f) (hx : ∀ s, exec i s = predWord d pts dec f s)
  (hfree : s0.core.stageOpen = true → f.b.toNat < 8)
include st hi hx hfree

theorem predWord_ends {t : State} (h : predOut f s0 (predLanes f s0.core d pts dec) = .ok t) : Ends i s t .seq :=
  ends_of_vecWord st hi (fun s => (hx s).trans (congrFun (predWord_eq d pts dec f) s)) (by rw [State.stageFree_ok hfree]; exact h)

theorem predWord_raises {r : Raise} (h : predOut f s0 (predLanes f s0.core d pts dec) = .error (.cause r none)) : Raises i s r :=
  raises_of_vecWord st hi (fun s => (hx s).trans (congrFun (predWord_eq d pts dec f) s)) (by rw [State.stageFree_ok hfree]; exact h)

end

section
variable {d pts : Nat} {dec : Bool → List (List Val) → Option (List Int) → Int × Nat} {f : Rrr} {c : Cell} {l : Nat}

theorem laneOutcome_inactive (h : masked c f.fl.toNat (ebits f) l = false) : laneOutcome f c d pts dec l = none := by
  rw [laneOutcome, h, if_neg Bool.false_ne_true]

theorem laneOutcome_active (h : masked c f.fl.toNat (ebits f) l = true) : laneOutcome f c d pts dec l =
    some (predLane dec (f.ty == 8) (f.rs.getLsbD 0) (f.rs.getLsbD 1) (points f c d pts l)
      (if f.rs.getLsbD 0 then indices f c d pts l else [])) := if_pos h

/-- An active lane that can be decided has the decision. -/
theorem laneOutcome_decides (h : masked c f.fl.toNat (ebits f) l = true) (hfin : Claims.Finite (points f c d pts l))
    (hix : f.rs.getLsbD 0 = true → (indices f c d pts l).Nodup) : laneOutcome f c d pts dec l
      = some (.ok (dec (f.ty == 8) (points f c d pts l) (if f.rs.getLsbD 0 then some (indices f c d pts l) else none))) := by
  rw [laneOutcome_active h, predLane_decides hfin fun hs => by rw [if_pos hs]; exact hix hs]
  cases f.rs.getLsbD 0 <;> rfl

end

/-- A predicate word over a form of `d` coordinates and `pts` points. -/
theorem vPredicate_of {i : Rrr → Instr} {d pts : Nat} {dec : Bool → List (List Val) → Option (List Int) → Int × Nat}
    (hi : ∀ f, (i f).body = .rrr f) (hx : ∀ f s, exec (i f) s = predWord d pts dec f s) : VPredicate i d pts dec := by
  refine fun f s key s0 st hty hfree => ⟨fun rs hl h => ?_, fun l hl hm hbefore => ?_⟩
  · have hout : predOut f s0 (predLanes f s0.core d pts dec) = .ok (s0.setCore (predCell f s0.core rs)) := by
      refine predOut_ok hty hl fun l hlt => ?_
      obtain ⟨hoff, hon⟩ := h l hlt
      cases hm : masked s0.core f.fl.toNat (ebits f) l with
      | false => exact .inl ⟨laneOutcome_inactive hm, hoff hm⟩
      | true =>
        rcases hon hm with ⟨hfin, hix, hr⟩ | ⟨hfin, hnfq, hr⟩
        · exact .inr (by rw [laneOutcome_decides hm hfin hix, hr])
        · exact .inr (by rw [laneOutcome_active hm, hnfq, predLane_skips hfin, hr])
    have hcur := Starts.cur st.1
    have hcore : (s0.setCore (predCell f s0.core rs)).core = predCell f s0.core rs := State.core_setCore hcur _
    obtain ⟨-, hall, hone⟩ := foldl_max_stage rs 0
    refine ⟨_, predWord_ends st (hi f) (hx f) hfree hout, ?_, ?_⟩
    · rw [State.setCore_cell hcur]
      exact s0.setCell_frame key _
    · rw [hcore]
      refine ⟨⟨_, _, _, by rw [predCell, nonZeroLanes_eq _ hl]⟩, hall, hone, fun j => predCell_pslane hty _ hl, predCell_pnc hty _ hl⟩
  · have hf : ∀ j, j < l → laneFault (laneOutcome f s0.core d pts dec j, j) = none := by
      intro j hj
      cases hmj : masked s0.core f.fl.toNat (ebits f) j with
      | false => rw [laneOutcome_inactive hmj]; rfl
      | true =>
        obtain ⟨hfin, hix⟩ := hbefore j hj hmj
        rw [laneOutcome_decides hmj hfin hix]
        rfl
    refine ⟨fun hfin hnfq => predWord_raises st (hi f) (hx f) hfree (predOut_raises hty hl ?_ hf),
      fun hfin hsos hix => predWord_raises st (hi f) (hx f) hfree (predOut_raises hty hl ?_ hf)⟩
    · rw [laneOutcome_active hm, hnfq, predLane_nonFinite hfin]
    · rw [laneOutcome_active hm, hsos, if_pos rfl, predLane_equal hfin hix]

/-! ## The exact stage (R234, R240) -/

/-- The determinant of ORIENT2, of differences from the last point. -/
theorem orient2_det (ax ay bx bz cx cy : Val) : orient2Form.exact [[ax, ay], [bx, bz], [cx, cy]]
    = (((ax.dy.sub cx.dy).mul (bz.dy.sub cy.dy)).sub ((ay.dy.sub cy.dy).mul (bx.dy.sub cx.dy))).sign := rfl

/-- With integer coordinates the exact stage of ORIENT2 gives the sign of the determinant of differences. -/
theorem orient2_exact (ax ay bx bz cx cy : Int) :
    orient2Form.exact [[intVal ax, intVal ay], [intVal bx, intVal bz], [intVal cx, intVal cy]]
      = ((ax - cx) * (bz - cy) - (ay - cy) * (bx - cx)).sign := by
  have hdy : ∀ z : Int, (intVal z).dy = ⟨z, 0⟩ := fun z => by
    rw [intVal, Val.dy]
    congr 1
    simp only [decide_eq_true_eq]
    omega
  have hsub : ∀ x y : Int, (⟨x, 0⟩ : Dy).sub ⟨y, 0⟩ = ⟨x - y, 0⟩ := fun x y => by
    simp [Dy.sub, Dy.add, Dy.neg, sub_eq_add_neg]
  rw [orient2_det]
  simp only [hdy, hsub, Dy.mul, Int.add_zero, Dy.sign]

theorem decide_exact (p : PredForm) (f64_ : Bool) (pts : List (List Val)) (ha : p.stageA f64_ pts = none)
    (hb : p.stageB f64_ pts = none) : p.decide_ f64_ pts none = (p.exact pts, 3) := by
  simp only [PredForm.decide_, ha, hb]
  split
  · next h => cases h
  · rfl

end Sys2Proof.Machine
end

