-- ==== Sys2Proof/Proofs/SpecialFunctions.lean ====
section
/-! SUPPORT. The special functions (R228, R229): the stated results for special inputs, whatever the free values elsewhere. -/

namespace Sys2Proof.Machine

open Claims

section
variable {free : Bool} {ty fn x m : Nat} {e : Int}

theorem specialWith_nan {q : Bool} (h : (fmtOf ty).decode x = .nan q) :
    specialWith free ty fn x = ((fmtOf ty).qnan, if q then flagNV else 0) := by
  simp only [specialWith, h]

/-- A negative number other than zero has no logarithm and no root. -/
theorem specialWith_negative (h : (fmtOf ty).decode x = .fin true m e) (hm : m ≠ 0) (hfn : fn = 1 ∨ fn = 3) :
    specialWith free ty fn x = ((fmtOf ty).qnan, flagNV) := by
  rcases hfn with rfl | rfl <;> simp only [specialWith, h, if_neg hm, if_true]

end

/-- One with a sign is one with the sign bit. -/
theorem roundVal_one {ty : Nat} (h : ty ∈ [9, 10, 11]) (neg : Bool) : ((fmtOf ty).roundVal 0 (.fin false 1 0)).1
    + (if neg then 2 ^ ((fmtOf ty).width - 1) else 0) = ((fmtOf ty).roundVal 0 (.fin neg 1 0)).1 := by
  simp only [List.mem_cons, List.not_mem_nil, or_false] at h
  rcases h with rfl | rfl | rfl <;> cases neg <;> decide

theorem specialInputs : SpecialInputs := by
  rintro ty t rfl hty
  refine ⟨fun fn x _ h => specialWith_nan h, fun fn x _ h => specialWith_nan h, fun x neg m e h hm => ?_, fun x neg h => ?_,
    fun x m e h hm => ⟨specialWith_negative h hm (.inl rfl), specialWith_negative h hm (.inr rfl)⟩⟩
  · subst hm
    simp only [specialFn, specialWith, h, if_true, and_self]
  · simp only [specialFn, specialWith, h, true_and]
    exact Prod.ext (roundVal_one hty neg) rfl

end Sys2Proof.Machine
end

