-- ==== Sys2Proof/Proofs/VectorLoads.lean ====
section
/-! SUPPORT. VLD (R222, R294): a transfer granule by granule, and what a granule read leaves in a register. -/

namespace Sys2Proof.Machine

open Claims

/-! ## X words that go on -/

section
variable {i : Instr} {s s0 t : State} {key : Nat} {f : Rrr} {body : State → M State}
  (go : Goes i s key .x s0) (hv : s0.owes .c Instr.writesVrot = false) (hi : i.body = .rrr f) (hx : ∀ s, exec i s = vecWord f body s)
include go hv hi hx

theorem ends_of_vecGoes (b : body s0 = .ok t) : Ends i s t .seq := by
  have hr : s0.vrotReady = .ok () := by simp [State.vrotReady, hv]
  exact ends_of_goes go (by rw [hi]; rfl) (by rw [hi]; rfl) hx (seqM_ok (by rw [hr]; exact b))

theorem waits_of_vecGoes {r : Nat} (b : body s0 = .error (.wait t r)) : Waits i s t r := by
  have hr : s0.vrotReady = .ok () := by simp [State.vrotReady, hv]
  exact waits_of_goes go (by rw [hi]; rfl) hx (seqM_error (by rw [hr]; exact b))

end

/-! ## The address (R222) -/

section
variable {s s1 s2 : State} {f : Rrr} {a b : Word} (ha : s.src f.a (litZ f.w1) = .ok (a, s1)) (hb : s1.src f.b (litZ f.w1) = .ok (b, s2))
include ha hb

theorem State.vecAddr_misaligned (h : (a.toNat + b.toNat) % 2 ^ 64 % 16 ≠ 0) : s.vecAddr f = raise 0x20 := by
  rw [← BitVec.toNat_add] at h
  simp only [State.vecAddr, ha, hb, bind, Except.bind, if_pos h]

theorem State.vecAddr_outside (h : (a.toNat + b.toNat) % 2 ^ 64 % 16 = 0) (ho : 2 ^ 23 < (a.toNat + b.toNat) % 2 ^ 64 + 4096) :
    s.vecAddr f = raise 0x23 := by
  rw [← BitVec.toNat_add] at h ho
  have ho' : spadBytes < (a + b).toNat + 4096 := ho
  simp only [State.vecAddr, ha, hb, bind, Except.bind, if_neg (not_not_intro h), if_pos ho']

theorem State.vecAddr_ok (h : (a.toNat + b.toNat) % 2 ^ 64 % 16 = 0) (ho : (a.toNat + b.toNat) % 2 ^ 64 + 4096 ≤ 2 ^ 23) :
    s.vecAddr f = .ok ((a.toNat + b.toNat) % 2 ^ 64, s2) := by
  rw [← BitVec.toNat_add] at h ho ⊢
  have ho' : ¬ spadBytes < (a + b).toNat + 4096 := Nat.not_lt.2 ho
  simp only [State.vecAddr, ha, hb, bind, Except.bind, if_neg (not_not_intro h), if_neg ho']

end

theorem State.partsNext_last (s : State) {last g : Nat} (h : g = last) : s.partsNext last g = .ok s := if_pos (Nat.le_of_eq h.symm)

theorem State.partsNext_more (s : State) {last g : Nat} (h : g < last) : s.partsNext last g
    = .error (.wait (s.modEng fun x => { x with waitVal := some (BitVec.ofNat 64 (g + 1)) }) 0) := if_neg (Nat.not_le.2 h)

/-! ## VLD -/

section
variable {f : Rrr} {s s0 : State} {key o g : Nat}

/-- VLD with its address known: its next granule, or a wait at the bank. -/
def vldPart (f : Rrr) (s0 : State) (o : Nat) (s : State) : M State := do
  let key := s0.curKey
  let g := s0.partsDone
  s.spadReady key key (o + 16 * g) 16
  let s ← s.watchLocal key o 4096 false
  if f.rs.getLsbD 0 && !(s.cell key).bankTurn key .x (o / 16 + g) true then
    .error (.wait ((s0.holdAt key key (o / 16 + g) true).modEng fun x => { x with waitVal := some (BitVec.ofNat 64 g) }) 9)
  else
    (if 255 ≤ g then s else s0).vldGranule key o (s0.core.vphys f.d.toNat) g (f.rs.getLsbD 1)
      (laneMask (ebits f) (s0.core.kreg f.fl.toNat)) |>.partsNext 255 g

theorem exec_vld (f : Rrr) (s : State) :
    exec (.vld f) s = vecWord f (fun s0 => s0.vecAddr f >>= fun r => vldPart f s0 r.1 r.2) s := rfl

variable {s2 s3 : State} (hk : s0.curKey = key) (hg : g = s0.partsDone) (hready : s2.spadReady key key (o + 16 * g) 16 = .ok ())
  (hwatch : s2.watchLocal key o 4096 false = .ok s3)
include hk hg hready hwatch

theorem vldPart_takes (h : f.rs.getLsbD 0 = false ∨ (s3.cell key).bankTurn key .x (o / 16 + g) true = true) : vldPart f s0 o s2
    = ((if 255 ≤ g then s3 else s0).vldGranule key o (s0.core.vphys f.d.toNat) g (f.rs.getLsbD 1)
        (laneMask (ebits f) (s0.core.kreg f.fl.toNat))).partsNext 255 g := by
  subst hk hg
  have hc : (f.rs.getLsbD 0 && !(s3.cell s0.curKey).bankTurn s0.curKey .x (o / 16 + s0.partsDone) true) = false := by
    rcases h with h | h
    · rw [h, Bool.false_and]
    · rw [h, Bool.not_true, Bool.and_false]
  simp only [vldPart, hready, hwatch, bind, Except.bind, hc, Bool.false_eq_true, if_false]

theorem vldPart_waits (h : f.rs.getLsbD 0 = true) (hb : (s3.cell key).bankTurn key .x (o / 16 + g) true = false) :
    vldPart f s0 o s2 = .error (.wait ((s0.holdAt key key (o / 16 + g) true).modEng fun x =>
      { x with waitVal := some (BitVec.ofNat 64 g) }) 9) := by
  subst hk hg
  simp only [vldPart, hready, hwatch, bind, Except.bind, h, hb, Bool.not_false, Bool.and_self, if_true]

end

/-! ## A granule of a VLD -/

theorem bytesLanes_length : (bs : List Byte) → (bytesLanes bs).length = bs.length / 4
  | a :: b :: c :: d :: bs => by
    rw [bytesLanes, List.length_cons, bytesLanes_length bs]
    simp only [List.length_cons]
    omega
  | [] => rfl
  | [_] => by simp [bytesLanes]
  | [_, _] => by simp [bytesLanes]
  | [_, _, _] => by simp [bytesLanes]

/-- Four bytes as a lane, the lowest first. -/
theorem lane_of_bytes (a b c d : Byte) : d ++ c ++ b ++ a = BitVec.ofNat 32 (leNat [a, b, c, d]) := by
  refine BitVec.eq_of_toNat_eq ?_
  have ha := a.isLt
  have hb := b.isLt
  have hc := c.isLt
  have hd := d.isLt
  rw [BitVec.toNat_append, ← Nat.shiftLeft_add_eq_or_of_lt a.isLt, BitVec.toNat_append, ← Nat.shiftLeft_add_eq_or_of_lt b.isLt,
    BitVec.toNat_append, ← Nat.shiftLeft_add_eq_or_of_lt c.isLt, BitVec.toNat_ofNat]
  simp only [leNat, Nat.shiftLeft_eq]
  omega

theorem bytesLanes_getD : (bs : List Byte) → (k : Nat) → 4 * k + 4 ≤ bs.length →
    (bytesLanes bs).getD k 0 = BitVec.ofNat 32 (leNat ((bs.drop (4 * k)).take 4))
  | a :: b :: c :: d :: bs, 0, _ => by
    rw [bytesLanes, List.getD_cons_zero, lane_of_bytes]
    rfl
  | a :: b :: c :: d :: bs, k + 1, h => by
    simp only [List.length_cons] at h
    rw [bytesLanes, List.getD_cons_succ, bytesLanes_getD bs k (by omega), Nat.mul_succ]
    rfl
  | [], _, h => by simp at h
  | [_], _, h => by simp at h
  | [_, _], _, h => by simp at h
  | [_, _, _], _, h => by simp at h

/-- A part of a range is a range. -/
theorem Memory.readN_part {m : Memory} (a n k l : Nat) (h : Memory.wf m = true) (hk : k + l ≤ n) :
    ((Memory.readN m a n).drop k).take l = Memory.readN m (a + k) l := by
  have hlen : ∀ a n, (Memory.readN m a n).length = n := fun a n => FMap.toList_length _ _ _ _
  refine ext_getD 0 (by rw [List.length_take, List.length_drop, hlen, hlen]; omega) fun j hj => ?_
  rw [List.length_take, List.length_drop, hlen] at hj
  rw [Memory.readN_getD _ _ _ h (by omega), Nat.add_assoc, ← Memory.readN_getD a n (k + j) h (by omega)]
  simp [List.getD_eq_getElem?_getD, show j < l by omega]

theorem mergeLanes_length (ms ns os : List (BitVec 32)) : (mergeLanes ms ns os).length = os.length := by
  fun_induction mergeLanes ms ns os with
  | case1 m ms n ns o os ih => simp [ih]
  | case2 => rfl

theorem mergeLanes_getD (ms ns os : List (BitVec 32)) {i : Nat} (hm : i < ms.length) (hn : i < ns.length) (ho : i < os.length) :
    (mergeLanes ms ns os).getD i 0 = (ns.getD i 0 &&& ms.getD i 0) ||| (os.getD i 0 &&& ~~~(ms.getD i 0)) := by
  induction ms generalizing ns os i with
  | nil => simp at hm
  | cons m ms ih =>
    cases ns with
    | nil => simp at hn
    | cons n ns =>
      cases os with
      | nil => simp at ho
      | cons o os =>
        cases i with
        | zero => rfl
        | succ i =>
          simp only [mergeLanes, List.getD_cons_succ, List.length_cons, Nat.add_lt_add_iff_right] at *
          exact ih ns os hm hn ho

section
variable (s : State) (key o q g : Nat) (take : Bool) (lm : List (BitVec 32))

/-- The lanes that a granule read brings into a register. -/
def granuleLanes (c : Cell) (o q g : Nat) (lm : List (BitVec 32)) : List (BitVec 32) :=
  mergeLanes ((lm.drop (4 * g)).take 4) (bytesLanes (Memory.readN c.spad (o + 16 * g) 16)) (FMap.getRange c.v (1024 * q + 4 * g) 4 0)

theorem granuleLanes_length (c : Cell) : (granuleLanes c o q g lm).length = 4 :=
  (mergeLanes_length _ _ _).trans (FMap.toList_length _ _ _ _)

theorem State.vldGranule_frame : SameButCell s (s.vldGranule key o q g take lm) key :=
  ⟨rfl, fun _ hk => (State.find?_setCell_ne _ _ hk).trans (State.find?_setCell_ne _ _ hk)⟩

/-- The cell after a granule read: the lanes, the bit that a taking read clears, and what does not count here. -/
theorem State.vldGranule_cell : ((s.vldGranule key o q g take lm).cell key).spad = (s.cell key).spad
    ∧ ((s.vldGranule key o q g take lm).cell key).v
      = FMap.setRange (s.cell key).v (1024 * q + 4 * g) (granuleLanes (s.cell key) o q g lm) 0
    ∧ ((s.vldGranule key o q g take lm).cell key).fe
      = if take then FMap.erase (s.cell key).fe (o / 16 + g) else (s.cell key).fe := by
  have hc : (s.unhold key key).cell key = { s.cell key with
      bankHeld := (s.cell key).bankHeld.filter fun h => !(h.cell == key && h.eng == s.curEng) } := State.cell_setCell_same _ _ _
  simp only [State.vldGranule, State.cell_setCell_same, hc]
  exact ⟨rfl, rfl, rfl⟩

variable {o q g lm} {c : Cell}

/-- The lanes of a granule: the bytes read where the mask is set, else what the register held. -/
theorem granuleLanes_getD (hv : FMap.wf c.v 0 = true) (hs : Memory.wf c.spad = true) (hlm : lm.length = 1024) (hg : g ≤ 255) {k : Nat}
    (hk : k < 4) : (granuleLanes c o q g lm).getD k 0
      = (BitVec.ofNat 32 (leNat (Memory.readN c.spad (o + 4 * (4 * g + k)) 4)) &&& lm.getD (4 * g + k) 0)
        ||| ((c.vlanes q).getD (4 * g + k) 0 &&& ~~~(lm.getD (4 * g + k) 0)) := by
  have hlen : (Memory.readN c.spad (o + 16 * g) 16).length = 16 := FMap.toList_length _ _ _ _
  have hbytes : (bytesLanes (Memory.readN c.spad (o + 16 * g) 16)).getD k 0
      = BitVec.ofNat 32 (leNat (Memory.readN c.spad (o + 4 * (4 * g + k)) 4)) := by
    rw [bytesLanes_getD _ _ (by omega), Memory.readN_part _ _ _ _ hs (by omega)]
    congr 3
    omega
  have hmask : ((lm.drop (4 * g)).take 4).getD k 0 = lm.getD (4 * g + k) 0 := by
    simp [List.getD_eq_getElem?_getD, hk]
  have hold : (FMap.getRange c.v (1024 * q + 4 * g) 4 0).getD k 0 = (c.vlanes q).getD (4 * g + k) 0 := by
    rw [FMap.getRange_getD _ _ _ hv hk, Cell.vlanes, FMap.getRange_getD _ _ _ hv (by omega), Nat.add_assoc]
  rw [granuleLanes, mergeLanes_getD, hbytes, hmask, hold]
  · rw [List.length_take, List.length_drop]; omega
  · rw [bytesLanes_length, hlen]; exact hk
  · exact hk.trans_eq (FMap.toList_length _ _ _ _).symm

theorem vlanes_granule {c' : Cell} (hc : c'.v = FMap.setRange c.v (1024 * q + 4 * g) (granuleLanes c o q g lm) 0)
    (hv : FMap.wf c.v 0 = true) (hs : Memory.wf c.spad = true) (hlm : lm.length = 1024) (hg : g ≤ 255) {i : Nat} (hi : i < 1024) :
    (c'.vlanes q).getD i 0 = if 4 * g ≤ i ∧ i < 4 * g + 4 then
        (BitVec.ofNat 32 (leNat (Memory.readN c.spad (o + 4 * i) 4)) &&& lm.getD i 0) ||| ((c.vlanes q).getD i 0 &&& ~~~(lm.getD i 0))
      else (c.vlanes q).getD i 0 := by
  have hv' : FMap.wf c'.v 0 = true := hc ▸ FMap.wf_setRange _ _ hv
  rw [Cell.vlanes, FMap.getRange_getD _ _ _ hv' hi, hc, FMap.get_setRange, granuleLanes_length]
  by_cases h : 4 * g ≤ i ∧ i < 4 * g + 4
  · obtain ⟨k, rfl⟩ := Nat.exists_eq_add_of_le h.1
    rw [if_pos (by omega), if_pos h, ← granuleLanes_getD hv hs hlm hg (by omega)]
    congr 1
    omega
  · rw [if_neg (by omega), if_neg h, Cell.vlanes, FMap.getRange_getD _ _ _ hv hi]

theorem vlanes_beside {c' : Cell} (hc : c'.v = FMap.setRange c.v (1024 * q + 4 * g) (granuleLanes c o q g lm) 0) (hg : g ≤ 255) {p : Nat}
    (hp : p ≠ q) : c'.vlanes p = c.vlanes p := by
  rw [Cell.vlanes, hc]
  exact FMap.getRange_setRange_ne _ _ _ _ _ _ (by rw [granuleLanes_length]; omega)

theorem get_taken (m : FMap Bool) (take : Bool) (n x : Nat) : FMap.get (if take then FMap.erase m n else m) x false
    = if take = true ∧ x = n then false else FMap.get m x false := by
  cases take with
  | false => rfl
  | true =>
    by_cases h : x = n
    · subst h
      simp [FMap.get]
    · simp [FMap.get, h, FMap.find?_erase_ne m h]

end

/-! ## VLD, granule by granule -/

theorem vld_raises {f : Rrr} {s s0 : State} {key : Nat} {code : BitVec 8} (st : Starts (.vld f) s key .x s0)
    (hv : s0.owes .c Instr.writesVrot = false) (h : s0.vecAddr f = raise code) : Raises (.vld f) s { code := code } :=
  raises_of_vecWord ⟨st, hv⟩ rfl (exec_vld f) (by rw [h]; rfl)

/-- VLD takes its next granule, and waits for the one behind it or, behind the last, ends. -/
theorem vld_takes {f : Rrr} {s s0 s2 s3 : State} {key o g : Nat} (go : Goes (.vld f) s key .x s0)
    (hv : s0.owes .c Instr.writesVrot = false) (hg : g = s0.partsDone) (ha : s0.vecAddr f = .ok (o, s2))
    (hready : s2.spadReady key key (o + 16 * g) 16 = .ok ()) (hwatch : s2.watchLocal key o 4096 false = .ok s3)
    (h : f.rs.getLsbD 0 = false ∨ (s3.cell key).bankTurn key .x (o / 16 + g) true = true) :
    (g < 255 → Waits (.vld f) s ((s0.vldGranule key o (s0.core.vphys f.d.toNat) g (f.rs.getLsbD 1)
        (laneMask (ebits f) (s0.core.kreg f.fl.toNat))).modEng fun x => { x with waitVal := some (BitVec.ofNat 64 (g + 1)) }) 0)
    ∧ (g = 255 → Ends (.vld f) s (s3.vldGranule key o (s0.core.vphys f.d.toNat) g (f.rs.getLsbD 1)
        (laneMask (ebits f) (s0.core.kreg f.fl.toNat))) .seq) := by
  have hpart := vldPart_takes (State.curKey_cell (cur_of_goes go)) hg hready hwatch h
  refine ⟨fun hlt => waits_of_vecGoes go hv rfl (exec_vld f) ?_, fun heq => ends_of_vecGoes go hv rfl (exec_vld f) ?_⟩
  · rw [ha]
    exact hpart.trans (by rw [if_neg (Nat.not_le.2 hlt), State.partsNext_more _ hlt])
  · rw [ha]
    exact hpart.trans (by rw [if_pos (Nat.le_of_eq heq.symm), State.partsNext_last _ heq])

theorem vld_held {f : Rrr} {s s0 s2 s3 : State} {key o g : Nat} (go : Goes (.vld f) s key .x s0)
    (hv : s0.owes .c Instr.writesVrot = false) (hg : g = s0.partsDone) (ha : s0.vecAddr f = .ok (o, s2))
    (hready : s2.spadReady key key (o + 16 * g) 16 = .ok ()) (hwatch : s2.watchLocal key o 4096 false = .ok s3)
    (h : f.rs.getLsbD 0 = true) (hb : (s3.cell key).bankTurn key .x (o / 16 + g) true = false) :
    Waits (.vld f) s ((s0.holdAt key key (o / 16 + g) true).modEng fun x => { x with waitVal := some (BitVec.ofNat 64 g) }) 9 := by
  refine waits_of_vecGoes go hv rfl (exec_vld f) ?_
  rw [ha]
  exact vldPart_waits (State.curKey_cell (cur_of_goes go)) hg hready hwatch h hb

end Sys2Proof.Machine
end

