-- ==== Sys2Proof/Proofs/VectorStores.lean ====
section
/-! SUPPORT. VST (R222, R294): a transfer granule by granule, and what a granule written leaves in the scratchpad. -/

namespace Sys2Proof.Machine

open Claims

/-! ## What sources leave of a state -/

theorem State.vsrc_cur {s t : State} {code : BitVec 8} {w : Nat} {lit : Word} {a : List Nat} (h : s.vsrc code w lit = .ok (a, t)) :
    t.cur = s.cur := by
  unfold State.vsrc at h
  split at h
  · cases h; rfl
  · split at h
    · cases hp : s.popQ with
      | error x => rw [hp] at h; cases h
      | ok r => rw [hp] at h; cases h; exact State.popQ_cur hp
    · cases h; rfl

theorem State.watchLocal_cur {s t : State} {key o n : Nat} {write : Bool} (h : s.watchLocal key o n write = .ok t) : t.cur = s.cur := by
  unfold State.watchLocal State.watchAt at h
  dsimp only at h
  split at h
  · cases h; rfl
  · split at h
    · cases h
    · cases h; split <;> rfl

/-! ## The bytes of active elements -/

/-- Byte `j` of elements of `n` bytes each. -/
def elemByte (n : Nat) (es : List Nat) (j : Nat) : Byte := BitVec.ofNat 8 (es.getD (j / n) 0 / 256 ^ (j % n))

theorem mem_writesOf (b : ByteWrite) (off : Nat) (bs : List Byte) :
    b ∈ writesOf off bs ↔ ∃ k, k < bs.length ∧ b = ⟨off + k, bs.getD k 0⟩ := by
  induction bs generalizing off with
  | nil => simp [writesOf]
  | cons x bs ih =>
    rw [writesOf, List.mem_cons, ih]
    refine Iff.trans (or_congr ?_ (exists_congr fun k => ?_)) Nat.or_exists_add_one
    · simp
    · rw [List.length_cons, Nat.add_lt_add_iff_right, List.getD_cons_succ, Nat.add_assoc, Nat.add_comm 1]

/-- The writes of a VST are the bytes of the active elements, each at its place. -/
theorem mem_activeWrites (b : ByteWrite) (w off : Nat) (ms : List Bool) (es : List Nat) (hl : ms.length = es.length) :
    b ∈ activeWrites w off ms es ↔ ∃ i, i < es.length ∧ ms.getD i false = true
      ∧ ∃ k, k < w / 8 ∧ b = ⟨off + i * (w / 8) + k, BitVec.ofNat 8 (es.getD i 0 / 256 ^ k)⟩ := by
  induction ms generalizing off es with
  | nil =>
    cases es with
    | nil => simp [activeWrites]
    | cons e es => simp at hl
  | cons m ms ih =>
    cases es with
    | nil => simp at hl
    | cons e es =>
      rw [activeWrites, List.mem_append, ih _ _ (Nat.succ_injective hl)]
      refine Iff.trans (or_congr ?_ (exists_congr fun i => ?_)) Nat.or_exists_add_one
      · cases m with
        | false => simp
        | true =>
          simp only [if_true, mem_writesOf, leBytes_length, List.length_cons, Nat.zero_lt_succ, List.getD_cons_zero, true_and,
            Nat.zero_mul, Nat.add_zero]
          refine exists_congr fun k => and_congr_right fun hk => ?_
          rw [leBytes_getD _ _ hk]
      · simp only [List.length_cons, Nat.add_lt_add_iff_right, List.getD_cons_succ, Nat.succ_mul, Nat.add_assoc, Nat.add_comm (w / 8)]

/-! ## A granule of a VST -/

/-- The writes of granule `g` of a VST at an address. -/
def granuleWrites (f : Rrr) (c : Cell) (es : List Nat) (o g : Nat) : List ByteWrite :=
  (activeWrites (ebits f) o (maskBits (ebits f) (c.kreg f.fl.toNat)) es).filter fun b => b.at_ / 16 == o / 16 + g

/-- VST with its elements and its address known: its next granule, or a wait. -/
def vstPart (f : Rrr) (s0 : State) (es : List Nat) (o : Nat) (s : State) : M State := do
  let key := s0.curKey
  let g := s0.partsDone
  s.spadReady key key (o + 16 * g) 16
  let s ← s.watchLocal key o 4096 true
  let s := if 255 ≤ g then s else s0
  let c := s.core
  let ws := granuleWrites f c es o g
  if ws.any fun b => s.ordWaits key .x c.engX.pos b.at_ 1 then blocked 8
  else match ws.findSome? fun b => c.passedRead .x c.engX.pos b.at_ 1 with
  | some (r, at_) => orderWatch r at_
  | none => (s.setCell key (c.spadPut ws (if ws.isEmpty then [] else [o / 16 + g]))).partsNext 255 g

theorem exec_vst (f : Rrr) (s : State) : exec (.vst f) s = vecWord f (fun s0 =>
    s0.vsrc f.d (ebits f) (litVal f.ty.toNat f.w1) >>= fun e => e.2.vecAddr f >>= fun r => vstPart f s0 e.1 r.1 r.2) s := rfl

section
variable {f : Rrr} {c : Cell} {es : List Nat} {o g : Nat} (hty : VType f.ty) (hl : es.length = elemCount (ebits f)) (ho : o % 16 = 0)
  (hg : g ≤ 255)
include hty hl ho hg

theorem mem_granuleWrites (b : ByteWrite) : b ∈ granuleWrites f c es o g ↔ ∃ k, k < 16
    ∧ masked c f.fl.toNat (ebits f) ((16 * g + k) / (ebits f / 8)) = true
    ∧ b = ⟨o + 16 * g + k, elemByte (ebits f / 8) es (16 * g + k)⟩ := by
  have hn : 0 < ebits f / 8 ∧ elemCount (ebits f) * (ebits f / 8) = 4096 := by
    rcases ebits_of_vType hty with h | h | h <;> rw [h] <;> decide
  rw [granuleWrites, List.mem_filter, mem_activeWrites _ _ _ _ _ ((maskBits_length _ _).trans hl.symm), hl, beq_iff_eq]
  generalize ebits f / 8 = n at hn ⊢
  constructor
  · rintro ⟨⟨i, hi, hm, k, hk, rfl⟩, hat⟩
    dsimp only at hat
    rw [maskBits_getD _ _ _ hi] at hm
    have hj : 16 * g + (i * n + k - 16 * g) = i * n + k := by omega
    refine ⟨i * n + k - 16 * g, by omega, ?_, ?_⟩
    · rw [hj, place_div i hk]
      exact hm
    · rw [elemByte, hj, place_div i hk, place_mod i hk]
      congr 1
      omega
  · rintro ⟨k, hk, hm, rfl⟩
    have hi : (16 * g + k) / n < elemCount (ebits f) := (Nat.div_lt_iff_lt_mul hn.1).2 (by omega)
    refine ⟨⟨(16 * g + k) / n, hi, by rwa [maskBits_getD _ _ _ hi], (16 * g + k) % n, Nat.mod_lt _ hn.1, ?_⟩, by dsimp only; omega⟩
    rw [Nat.add_assoc o ((16 * g + k) / n * n), Nat.div_add_mod', Nat.add_assoc]
    rfl

/-- After the writes of a granule its bytes of active elements hold theirs, and every other byte what it held. -/
theorem read_granuleWrites (m : Memory) (j : Nat) :
    Memory.read ((granuleWrites f c es o g).foldl (fun m b => Memory.write m b.at_ b.val) m) j
      = if o + 16 * g ≤ j ∧ j < o + 16 * g + 16 ∧ masked c f.fl.toNat (ebits f) ((j - o) / (ebits f / 8)) = true
        then elemByte (ebits f / 8) es (j - o) else Memory.read m j := by
  have hmem := mem_granuleWrites (c := c) hty hl ho hg
  rcases Memory.read_foldl_write (granuleWrites f c es o g) m j with ⟨hr, hne⟩ | hin
  · rw [hr, if_neg]
    rintro ⟨hlo, hhi, hm⟩
    have hj : 16 * g + (j - o - 16 * g) = j - o := by omega
    exact hne _ ((hmem _).2 ⟨j - o - 16 * g, by omega, by rwa [hj], rfl⟩) (by dsimp only; omega)
  · obtain ⟨k, hk, hm, heq⟩ := (hmem _).1 hin
    obtain ⟨rfl, hval⟩ := ByteWrite.mk.inj heq
    have hj : o + 16 * g + k - o = 16 * g + k := by omega
    rw [hval, hj, if_pos ⟨by omega, by omega, hm⟩]

/-- A granule has a write exactly when one of its bytes is of an active element. -/
theorem granuleWrites_isEmpty : (granuleWrites f c es o g).isEmpty
    = !(List.range 16).any fun k => masked c f.fl.toNat (ebits f) ((16 * g + k) / (ebits f / 8)) := by
  rw [Bool.eq_iff_iff, List.isEmpty_iff, List.eq_nil_iff_forall_not_mem, Bool.not_eq_true', List.any_eq_false]
  simp only [mem_granuleWrites hty hl ho hg, List.mem_range]
  exact ⟨fun h k hk hm => h _ ⟨k, hk, hm, rfl⟩, fun h b ⟨k, hk, hm, _⟩ => h k hk hm⟩

/-- The writes of a granule fill it where there is one, and no other granule. -/
theorem fe_granuleWrites (m : FMap Bool) (x : Nat) :
    FMap.get ((if (granuleWrites f c es o g).isEmpty then [] else [o / 16 + g]).foldl (fun m i => FMap.put m i true) m) x false
      = (FMap.get m x false || (decide (x = o / 16 + g)
        && (List.range 16).any fun k => masked c f.fl.toNat (ebits f) ((16 * g + k) / (ebits f / 8)))) := by
  rw [FMap.get_foldl_put_true, granuleWrites_isEmpty hty hl ho hg, Bool.or_comm]
  congr 1
  cases (List.range 16).any fun k => masked c f.fl.toNat (ebits f) ((16 * g + k) / (ebits f / 8)) with
  | false => rw [Bool.and_false]; rfl
  | true => simp

end

/-! ## VST, granule by granule -/

section
variable {f : Rrr} {s s0 s1 s2 s3 s4 s5 : State} {key o g : Nat} {es : List Nat}

/-- A state after its granule of a VST. -/
def State.vstGranule (s : State) (f : Rrr) (key o g : Nat) (es : List Nat) : State :=
  s.setCell key (s.core.spadPut (granuleWrites f s.core es o g)
    (if (granuleWrites f s.core es o g).isEmpty then [] else [o / 16 + g]))

theorem State.vstGranule_core (hcur : s5.cur = .cell key .x) : (s5.vstGranule f key o g es).core
    = s5.core.spadPut (granuleWrites f s5.core es o g) (if (granuleWrites f s5.core es o g).isEmpty then [] else [o / 16 + g]) :=
  (State.core_cell (s := s5.vstGranule f key o g es) hcur).trans (State.cell_setCell_same _ _ _)

theorem vstPart_stores (hk : s0.curKey = key) (hg : g = s0.partsDone) (hready : s3.spadReady key key (o + 16 * g) 16 = .ok ())
    (hwatch : s3.watchLocal key o 4096 true = .ok s4) (h5 : (if 255 ≤ g then s4 else s0) = s5)
    (hord : s5.core.ordAt s5.core.engX.pos = false)
    (hopen : ∀ b ∈ granuleWrites f s5.core es o g, s5.ordWaits key .x s5.core.engX.pos b.at_ 1 = false) :
    vstPart f s0 es o s3 = (s5.vstGranule f key o g es).partsNext 255 g := by
  subst hk hg
  have hany := List.any_eq_false.2 fun b hb => Bool.not_eq_true _ ▸ hopen b hb
  have hpast : (granuleWrites f s5.core es o s0.partsDone).findSome?
      (fun b => s5.core.passedRead .x s5.core.engX.pos b.at_ 1) = none :=
    List.findSome?_eq_none_iff.2 fun b _ => Cell.passedRead_unwatched _ .x b.at_ 1 hord
  simp only [vstPart, hready, hwatch, bind, Except.bind, h5, hany, hpast, Bool.false_eq_true, if_false]
  rfl

theorem vst_raises {code : BitVec 8} (st : Starts (.vst f) s key .x s0) (hv : s0.owes .c Instr.writesVrot = false)
    (hs : s0.vsrc f.d (ebits f) (litVal f.ty.toNat f.w1) = .ok (es, s1)) (h : s1.vecAddr f = raise code) :
    Raises (.vst f) s { code := code } :=
  raises_of_vecWord ⟨st, hv⟩ rfl (exec_vst f) (by simp only [hs, h, bind, Except.bind, raise])

/-- VST writes its next granule, and waits for the one behind it or, behind the last, ends. -/
theorem vst_stores (go : Goes (.vst f) s key .x s0) (hv : s0.owes .c Instr.writesVrot = false)
    (hs : s0.vsrc f.d (ebits f) (litVal f.ty.toNat f.w1) = .ok (es, s1)) (ha : s1.vecAddr f = .ok (o, s3))
    (hpart : vstPart f s0 es o s3 = (s5.vstGranule f key o g es).partsNext 255 g) :
    (g < 255 → Waits (.vst f) s ((s5.vstGranule f key o g es).modEng fun x => { x with waitVal := some (BitVec.ofNat 64 (g + 1)) }) 0)
    ∧ (g = 255 → Ends (.vst f) s (s5.vstGranule f key o g es) .seq) := by
  have hbody : (s0.vsrc f.d (ebits f) (litVal f.ty.toNat f.w1) >>= fun e => e.2.vecAddr f >>= fun r => vstPart f s0 e.1 r.1 r.2)
      = (s5.vstGranule f key o g es).partsNext 255 g := by
    simpa only [hs, ha, bind, Except.bind] using hpart
  refine ⟨fun hlt => waits_of_vecGoes go hv rfl (exec_vst f) (hbody.trans (State.partsNext_more _ hlt)), fun heq =>
    ends_of_vecGoes go hv rfl (exec_vst f) (hbody.trans (State.partsNext_last _ heq))⟩

end

/-! ## Settling O43 -/

/-- VLD and VST go granule by granule (R222, R294). -/
theorem vectorTransfers : VectorTransfers := by
  refine ⟨?_, ?_, ?_⟩
  · rintro f s key s0 a s1 b s2 o g q lm go hv hty ha hb rfl hg hle rfl rfl
    refine ⟨fun st ho => vld_raises st hv (State.vecAddr_misaligned ha hb ho), fun st ho hout =>
      vld_raises st hv (State.vecAddr_outside ha hb ho hout), fun s3 ho hin hready hwatch => ?_⟩
    have hok := State.vecAddr_ok ha hb ho hin
    exact ⟨vld_takes go hv hg hok hready hwatch, vld_held go hv hg hok hready hwatch⟩
  · rintro s t key o q g take lm hcur rfl hg ho hlm hv hs
    obtain ⟨hspad, hreg, hfe⟩ := s.vldGranule_cell key o q g take lm
    exact ⟨s.vldGranule_frame key o q g take lm, hspad, fun i hi => vlanes_granule hreg hv hs hlm hg hi,
      fun p hp => vlanes_beside hreg hg hp, fun x => by rw [hfe]; exact get_taken _ _ _ _⟩
  · rintro f s key s0 es s1 a s2 b s3 o g go hv hty hs ha hb rfl hg hle
    refine ⟨fun st ho => vst_raises st hv hs (State.vecAddr_misaligned ha hb ho), fun st ho hout =>
      vst_raises st hv hs (State.vecAddr_outside ha hb ho hout), fun s4 s5 ho hin hready hwatch h5 hord hopen => ?_⟩
    have hok := State.vecAddr_ok ha hb ho hin
    generalize (a.toNat + b.toNat) % 2 ^ 64 = o at *
    have hl := State.vsrc_length (ebits_of_vType hty) hs
    have hcur0 := cur_of_goes go
    have hcur : s5.cur = .cell key .x := by
      rw [h5]
      split
      · rw [State.watchLocal_cur hwatch, State.src_cur hb, State.src_cur ha, State.vsrc_cur hs, hcur0]
      · exact hcur0
    have hpart : vstPart f s0 es o s3 = (s5.vstGranule f key o g es).partsNext 255 g := by
      refine vstPart_stores (State.curKey_cell hcur0) hg hready hwatch (h5.trans ?_).symm hord fun b hb => ?_
      · exact if_congr (by omega) rfl rfl
      · obtain ⟨k, hk, _, rfl⟩ := (mem_granuleWrites hty hl ho hle b).1 hb
        exact hopen _ (Nat.le_add_right _ _) (Nat.add_lt_add_left hk _)
    obtain ⟨hwaits, hends⟩ := vst_stores go hv hs hok hpart
    refine ⟨s5.vstGranule f key o g es, hwaits, hends, s5.setCell_frame key _, ?_, ?_⟩
    · rw [State.vstGranule_core hcur]
      exact read_granuleWrites hty hl ho hle _
    · rw [State.vstGranule_core hcur]
      exact fe_granuleWrites hty hl ho hle _

/-- Settles O43: VLD and VST granule by granule, the special functions by their inputs and lane by lane, the predicates by the
outcomes of the active lanes before each lane, and the exact stage by its determinant. -/
theorem transfersSpecialFunctionsAndPredicatesComplete : Obligations.TransfersSpecialFunctionsAndPredicatesComplete :=
  ⟨vectorTransfers, specialInputs,
    vUnary_of (fun _ => rfl) fun _ _ _ => rfl, vUnary_of (fun _ => rfl) fun _ _ _ => rfl, vUnary_of (fun _ => rfl) fun _ _ _ => rfl,
    vUnary_of (fun _ => rfl) fun _ _ _ => rfl, vUnary_of (fun _ => rfl) fun _ _ _ => rfl, vUnary_of (fun _ => rfl) fun _ _ _ => rfl,
    vUnary_of (fun _ => rfl) fun _ _ _ => rfl,
    vPredicate_of (fun _ => rfl) fun _ _ => rfl, vPredicate_of (fun _ => rfl) fun _ _ => rfl,
    vPredicate_of (fun _ => rfl) fun _ _ => rfl, vPredicate_of (fun _ => rfl) fun _ _ => rfl,
    vPredicate_of (fun _ => rfl) fun _ _ => rfl,
    orient2_exact, decide_exact⟩

end Sys2Proof.Machine
end

