-- ==== Sys2Proof/Proofs/TableWords.lean ====
section
/-! SUPPORT. The words of C that write the shadow nest table and the row timetable (R244 to R256, R275). -/

namespace Sys2Proof.Machine

open Claims

/-- C waits while an engine owes a word that takes the table (R246), unless a handler runs (R406). -/
theorem State.afterTakers_blocked {s : State} {g : EngTag} {p : Instr → Bool} (hh : s.core.handler = none)
    (h : s.owes g p = true) : s.afterTakers g p = blocked 11 := by
  simp [State.afterTakers, hh, h]

/-- A word that is a write of the shadow table. -/
theorem tableWord_of {i : Rrr → Instr} {w : Rrr → Nest → Word → Word → Nest} (hi : ∀ f, (i f).body = .rrr f)
    (hx : ∀ f s, exec (i f) s = shadowWord f (w f) s) : TableWord i w := by
  intro f s key e s0 st
  refine ⟨?_, fun hh ho => ?_⟩
  · rintro a b t hfree ⟨s1, ha, hb⟩
    exact ends_of st (by rw [hi]; rfl) (by rw [hi]; rfl) (hx f)
      (seqM_ok (M.bind_of_ok hfree (M.bind_of_ok ha (M.bind_of_ok hb rfl))))
  · exact blocks_of st (by rw [hi]; rfl) (hx f) (seqM_error (M.bind_of_error (State.afterTakers_blocked hh ho)))

section
variable {f : Rrr} {s s0 t : State} {key : Nat} {e : EngTag} {a : Word}

theorem rtt_ends (st : Starts (.rtt f) s key e s0) (hfree : s0.afterTakers .w Instr.isRgo = .ok ())
    (ha : s0.src f.a (litVal 0 f.w1) = .ok (a, t)) :
    Ends (.rtt f) s (t.setCore { t.core with timetable := FMap.set t.core.timetable f.d.toNat a 0 }) .seq :=
  ends_of st rfl rfl (fun _ => rfl) (seqM_ok (M.bind_of_ok hfree (M.bind_of_ok ha rfl)))

theorem rtt_waits (st : Starts (.rtt f) s key e s0) (hh : s.core.handler = none) (ho : s0.owes .w Instr.isRgo = true) :
    exec (.rtt f) s = .next (s.modEng fun g => { g with reason := 11 }) :=
  blocks_of st rfl (fun _ => rfl)
    (seqM_error (M.bind_of_error (State.afterTakers_blocked ((Starts.handler st).trans hh) ho)))

end

/-- Settles O44: MSET, MOPD and MSCALE are writes of the shadow table, and RTT has its two ends. -/
theorem tableWordsComplete : Obligations.TableWordsComplete :=
  ⟨tableWord_of (fun _ => rfl) fun _ _ => rfl, tableWord_of (fun _ => rfl) fun _ _ => rfl,
    tableWord_of (fun _ => rfl) fun _ _ => rfl, fun _ _ _ _ _ _ _ => rtt_ends, fun _ _ _ _ _ => rtt_waits⟩

end Sys2Proof.Machine
end

