-- ==== Sys2Proof/Proofs/DrainsAndRowWords.lean ====
section
/-! SUPPORT. Drains and row words (R268 to R271, R275): their issue, and the bytes of a drained element. -/

namespace Sys2Proof.Machine

open Claims

/-! ## Issue -/

section
variable {f : Rrr} {i : Instr} {locks : State → Job → List (Nat × Nat)} {s s0 t : State} {key : Nat} {e : EngTag} {a b : Word}

theorem drainWord_ends (hi : i.body = .rrr f) (hx : ∀ s, exec i s = drainWord f i locks s) (st : Starts i s key e s0)
    (hr : ReadsTwo s0 f.a f.b (litVal f.ty.toNat f.w1) a b t) : ∃ st l, Ends i s ((t.setCore { t.core with stamps := st }).accept
      { t.newJob f.hdr i with va := a, vb := b, locks := l }) .seq := by
  obtain ⟨s1, ha, hb⟩ := hr
  exact ⟨_, _, ends_of st (by rw [hi]; rfl) (by rw [hi]; rfl) hx (seqM_ok (M.bind_of_ok ha (M.bind_of_ok hb rfl)))⟩

theorem rgoWord_waits (hi : i.body = .rrr f) (hx : ∀ s, exec i s = rgoWord f i s) (st : Starts i s key e s0)
    (ho : s0.owes .c Instr.writesTimetable = true) : exec i s = .next (s.modEng fun g => { g with reason := 11 }) :=
  blocks_of st (by rw [hi]; rfl) hx (seqM_error (if_pos ho))

variable {ws : List Word}

theorem rgoWord_raises (hi : i.body = .rrr f) (hx : ∀ s, exec i s = rgoWord f i s) (st : Starts i s key e s0)
    (hws : ws = (List.range 4).map fun n => FMap.get s0.core.timetable n 0) (ho : s0.owes .c Instr.writesTimetable = false)
    (hok : (rttOf ws).ok = false) : Raises i s { code := 0x63 } := by
  subst hws
  exact raises_of st (by rw [hi]; rfl) hx (seqM_error ((if_neg (by simp [ho])).trans (if_pos (by rw [hok]; rfl))))

theorem rgoWord_ends (hi : i.body = .rrr f) (hx : ∀ s, exec i s = rgoWord f i s) (st : Starts i s key e s0)
    (hws : ws = (List.range 4).map fun n => FMap.get s0.core.timetable n 0) (ho : s0.owes .c Instr.writesTimetable = false)
    (hok : (rttOf ws).ok = true) : Ends i s (s0.accept { s0.newJob f.hdr i with timetable := ws }) .seq := by
  subst hws
  exact ends_of st (by rw [hi]; rfl) (by rw [hi]; rfl) hx
    (seqM_ok ((if_neg (by simp [ho])).trans (if_neg (by rw [hok]; decide))))

end

/-- The four drains, each with its locks. -/
theorem drainWord_of_mem {f : Rrr} {i : Instr} (h : i ∈ [Instr.mdrainSpad f, .mdrainGlob f, .mdrainGlobAdd f, .mdrainPeer f]) :
    i.body = .rrr f ∧ ∃ locks, ∀ s, exec i s = drainWord f i locks s := by
  simp only [List.mem_cons, List.not_mem_nil, or_false] at h
  rcases h with rfl | rfl | rfl | rfl
  · exact ⟨rfl, drainLocks f, fun _ => rfl⟩
  · exact ⟨rfl, drainLocks f, fun _ => rfl⟩
  · exact ⟨rfl, drainLocks f, fun _ => rfl⟩
  · exact ⟨rfl, fun _ _ => [], fun _ => rfl⟩

/-- The four row words. -/
theorem rgoWord_of_mem {f : Rrr} {i : Instr} (h : i ∈ [Instr.rgoMax f, .rgoExpsum f, .rgoScale f, .rgoNorm f]) :
    i.body = .rrr f ∧ ∀ s, exec i s = rgoWord f i s := by
  simp only [List.mem_cons, List.not_mem_nil, or_false] at h
  rcases h with rfl | rfl | rfl | rfl <;> exact ⟨rfl, fun _ => rfl⟩

/-! ## The bytes of a drained element (R269) -/

/-- n bytes hold a number modulo 256^n. -/
theorem leBytes_mod (n x : Nat) : leBytes n (x % 256 ^ n) = leBytes n x := by
  induction n generalizing x with
  | zero => rfl
  | succ n ih =>
    have hlow : BitVec.ofNat 8 (x % (256 * 256 ^ n)) = BitVec.ofNat 8 x := BitVec.eq_of_toNat_eq (by simp)
    rw [Nat.pow_succ', leBytes, leBytes, hlow, Nat.mod_mul_right_div_self, ih]

/-- At most four bytes of an integer cut to 32 bits are those of the integer. -/
theorem leBytes_wrapNat {n : Nat} (hn : n ≤ 4) (z : Int) : leBytes n (wrapNat 32 z) = leBytes n (z % 2 ^ (8 * n)).toNat := by
  have hpow : (256 : Nat) ^ n = 2 ^ (8 * n) := (Nat.pow_mul 2 8 n).symm
  have hdvd : (2 ^ (8 * n) : Int) ∣ 2 ^ 32 := pow_dvd_pow 2 (by omega)
  have hmod : wrapNat 32 z % 2 ^ (8 * n) = (z % 2 ^ (8 * n)).toNat := by
    refine Int.ofNat_inj.1 ?_
    rw [Int.toNat_of_nonneg (Int.emod_nonneg z (by positivity)), wrapNat_eq, Int.natCast_emod,
      Int.toNat_of_nonneg (Int.emod_nonneg z (by decide)), Nat.cast_pow, Nat.cast_ofNat, Int.emod_emod_of_dvd z hdvd]
  rw [← leBytes_mod, hpow, hmod]

section
variable {f : Rrr} {ty : Nat} (v : BitVec 32)

theorem drainBytes_word (h : f.ty = 9 ∨ f.ty = 2) : drainBytes f v = leBytes 4 v.toNat := by
  rcases h with h | h <;> simp [drainBytes, h]

/-- An integer type narrower than 32 bits takes the element saturated. -/
theorem drainBytes_int (h : f.ty.toNat = ty) (hf : isFloatType ty = false) (hw : ty ≠ 2) (hn : typeBits ty / 8 ≤ 4) :
    drainBytes f v = leBytes (typeBits ty / 8) (satInt (ITy.ofCode ty) v.toInt % 2 ^ (8 * (typeBits ty / 8))).toNat := by
  subst h
  have h9 : f.ty.toNat ≠ 9 := fun h => by rw [h] at hf; cases hf
  have hv : toSigned 32 v.toNat = v.toInt := by rw [toSigned_eq_toInt (by decide), BitVec.ofNat_toNat, BitVec.setWidth_eq]
  rw [← leBytes_wrapNat hn, ← hv]
  simp [drainBytes, drainSize, hf, hw, h9]

/-- A float type other than f32 takes the element rounded. -/
theorem drainBytes_float (h : f.ty.toNat = ty) (hf : isFloatType ty = true) (hw : ty ≠ 9) :
    drainBytes f v = leBytes (typeBits ty / 8) ((fmtOf ty).roundVal f.rs.toNat (f32.decode v.toNat)).1 := by
  subst h
  have h2 : f.ty.toNat ≠ 2 := fun h => by rw [h] at hf; cases hf
  simp [drainBytes, drainSize, hf, hw, h2]

end

theorem drainsAndRowWordsComplete : DrainsAndRowWordsComplete := by
  refine ⟨fun f i s key e s0 a b t hmem st hr => ?_, fun f i s key e s0 ws hmem st hws => ?_, fun f v => ?_⟩
  · obtain ⟨hi, _, hx⟩ := drainWord_of_mem hmem
    exact drainWord_ends hi hx st hr
  · obtain ⟨hi, hx⟩ := rgoWord_of_mem hmem
    exact ⟨rgoWord_waits hi hx st, rgoWord_raises hi hx st hws, rgoWord_ends hi hx st hws⟩
  · exact ⟨drainBytes_word v, fun h => drainBytes_int (ty := 4) v (congrArg BitVec.toNat h) rfl (by decide) (by decide),
      fun h => drainBytes_int (ty := 6) v (congrArg BitVec.toNat h) rfl (by decide) (by decide),
      fun h => drainBytes_float (ty := 10) v (congrArg BitVec.toNat h) rfl (by decide),
      fun h => drainBytes_float (ty := 11) v (congrArg BitVec.toNat h) rfl (by decide)⟩

end Sys2Proof.Machine
end

