-- ==== Sys2Proof/Proofs/RowPasses.lean ====
section
/-! SUPPORT. The passes of a row (R276, R277): what each makes of the row's elements, and what a step of a row leaves alone. -/

namespace Sys2Proof.Machine

open Claims

/-! ## The passes of a row (R276) -/

/-- The elements of a row, each with whether it is masked. -/
def rowMarks (t : Rtt) (r : Nat) (xs : List Nat) : List (Nat × Bool) := xs.zipIdx.map fun e => (e.1, t.masked r (t.col0 + e.2))

/-- The live elements of a row. -/
def rowLive (t : Rtt) (r : Nat) (xs : List Nat) : List Nat := ((rowMarks t r xs).filter fun e => !e.2).map fun e => e.1

/-- MX as MAX leaves it: the largest of the live elements, or minus infinity; a NaN canonical. -/
def rowMax (live : List Nat) : Nat :=
  let m := match live with | [] => 0xFF800000 | y :: ys => ys.foldl (fun m x => f32.minMax true m x) y
  if (f32.decode m).isNan then f32.qnan else m

theorem rowMax_nil : rowMax [] = 0xFF800000 := by decide

section
variable (t : Rtt) (r mx sm : Nat) (xs : List Nat)

/-- MAX leaves the elements and SM. -/
theorem rowPass_max : rowPass 0 t r mx sm xs = (xs, rowMax (rowLive t r xs), sm) := rfl

theorem rowPass_expsum : (rowPass 1 t r mx sm xs).1
    = (rowMarks t r xs).map fun e => if e.2 || mx == 0xFF800000 then 0 else exp2f (mulF (subF e.1 mx) t.s) := rfl

theorem rowPass_scale : (rowPass 2 t r mx sm xs).1
    = if sm = 0 then xs.map fun _ => 0 else (rowMarks t r xs).map fun e => if e.2 then 0 else mulF e.1 (rcpf sm) := by
  rw [rowPass]
  split <;> rfl

/-- NORM of a row without live elements. -/
theorem rowPass_norm_dead (h : rowLive t r xs = []) : rowPass 3 t r mx sm xs = (xs.map fun _ => 0, 0, 0) :=
  if_pos (List.isEmpty_iff.2 h)

/-- NORM of a row with live elements: each minus MX, the mean or with RMS 0, times SM. -/
theorem rowPass_norm_live (h : rowLive t r xs ≠ []) : (rowPass 3 t r mx sm xs).1 = ((rowMarks t r xs).map fun e =>
      if e.2 then 0 else mulF (subF e.1 (rowPass 3 t r mx sm xs).2.1) (rowPass 3 t r mx sm xs).2.2)
    ∧ (t.rms = true → (rowPass 3 t r mx sm xs).2.1 = 0) := by
  have hn : ¬ (rowLive t r xs).isEmpty = true := fun he => h (List.isEmpty_iff.1 he)
  have hp : rowPass 3 t r mx sm xs = _ := if_neg hn
  rw [hp]
  exact ⟨rfl, fun hrms => if_pos hrms⟩

@[simp] theorem rowMarks_length : (rowMarks t r xs).length = xs.length := by simp [rowMarks]

variable {t r xs} {i : Nat}

theorem rowMarks_getElem (h : i < (rowMarks t r xs).length) :
    (rowMarks t r xs)[i] = (xs.getD i 0, t.masked r (t.col0 + i)) := by
  have hi : i < xs.length := rowMarks_length t r xs ▸ h
  simp [rowMarks, hi]

/-- An element of a row that a function gives of each element and its mask. -/
theorem rowMarks_map_getD (g : Nat × Bool → Nat) (h : i < xs.length) :
    ((rowMarks t r xs).map g).getD i 0 = g (xs.getD i 0, t.masked r (t.col0 + i)) := by
  rw [List.getD_eq_getElem _ _ (by simpa using h), List.getElem_map, rowMarks_getElem]

theorem rowLive_of_masked (h : ∀ i, i < xs.length → t.masked r (t.col0 + i) = true) : rowLive t r xs = [] := by
  refine List.map_eq_nil_iff.2 (List.filter_eq_nil_iff.2 fun e he => ?_)
  obtain ⟨i, hi, rfl⟩ := List.getElem_of_mem he
  simp [rowMarks_getElem, h i (by simpa using hi)]

theorem rowLive_ne_nil (hi : i < xs.length) (h : t.masked r (t.col0 + i) = false) : rowLive t r xs ≠ [] := fun hn => by
  have hl : i < (rowMarks t r xs).length := by simpa using hi
  have := List.filter_eq_nil_iff.1 (List.map_eq_nil_iff.1 hn) _ (List.getElem_mem hl)
  simp [rowMarks_getElem, h] at this

end

section
variable {t : Rtt} {r mx sm k i : Nat} {xs : List Nat}

theorem rowPass_length (hk : k < 4) : (rowPass k t r mx sm xs).1.length = xs.length := by
  match k, hk with
  | 0, _ => rfl
  | 1, _ => rw [rowPass_expsum]; simp
  | 2, _ => rw [rowPass_scale]; split <;> simp
  | 3, _ =>
    by_cases h : rowLive t r xs = []
    · rw [rowPass_norm_dead _ _ _ _ _ h]; simp
    · rw [(rowPass_norm_live _ _ _ _ _ h).1]; simp

/-- Every pass but MAX makes a masked element 0. -/
theorem rowPass_masked (hk : k < 4) (h0 : k ≠ 0) (hi : i < xs.length) (hm : t.masked r (t.col0 + i) = true) :
    (rowPass k t r mx sm xs).1.getD i 0 = 0 := by
  match k, hk with
  | 1, _ => rw [rowPass_expsum, rowMarks_map_getD _ hi, hm]; rfl
  | 2, _ =>
    rw [rowPass_scale]
    split
    · simp
    · rw [rowMarks_map_getD _ hi, if_pos hm]
  | 3, _ =>
    by_cases h : rowLive t r xs = []
    · rw [rowPass_norm_dead _ _ _ _ _ h]; simp
    · rw [(rowPass_norm_live _ _ _ _ _ h).1, rowMarks_map_getD _ hi, if_pos hm]

variable (hi : i < xs.length) (hm : t.masked r (t.col0 + i) = false)
include hi hm

theorem rowPass_expsum_elem (h : mx ≠ 0xFF800000) :
    (rowPass 1 t r mx sm xs).1.getD i 0 = exp2f (mulF (subF (xs.getD i 0) mx) t.s) := by
  rw [rowPass_expsum, rowMarks_map_getD _ hi, if_neg (by simp [hm, h])]

theorem rowPass_scale_elem (h : sm ≠ 0) : (rowPass 2 t r mx sm xs).1.getD i 0 = mulF (xs.getD i 0) (rcpf sm) := by
  rw [rowPass_scale, if_neg h, rowMarks_map_getD _ hi, if_neg (by simp [hm])]

theorem rowPass_norm_elem : (rowPass 3 t r mx sm xs).1.getD i 0
    = mulF (subF (xs.getD i 0) (rowPass 3 t r mx sm xs).2.1) (rowPass 3 t r mx sm xs).2.2 := by
  rw [(rowPass_norm_live _ _ _ _ _ (rowLive_ne_nil hi hm)).1, rowMarks_map_getD _ hi, if_neg (by simp [hm])]

end

/-- EXPSUM of a row without a largest element is zero. -/
theorem rowPass_expsum_flat {t : Rtt} {r sm i : Nat} {xs : List Nat} (hi : i < xs.length) :
    (rowPass 1 t r 0xFF800000 sm xs).1.getD i 0 = 0 := by
  rw [rowPass_expsum, rowMarks_map_getD _ hi, if_pos (by simp)]

/-- SCALE of a row whose sum is zero is zero. -/
theorem rowPass_scale_zero {t : Rtt} {r mx i : Nat} {xs : List Nat} : (rowPass 2 t r mx 0 xs).1.getD i 0 = 0 := by
  rw [rowPass_scale, if_pos rfl]
  simp

/-! ## A step of a row (R276, R277) -/

theorem State.pickOf_eq (s : State) (left : List Nat) : s.pickOf left = (nthD left (s.draw.1 % left.length) 0, s.draw.2) := rfl

theorem State.pickOf_mem (s : State) {left : List Nat} (h : left ≠ []) : (s.pickOf left).1 ∈ left := by
  have hlt : s.draw.1 % left.length < left.length := Nat.mod_lt _ (List.length_pos_iff.2 h)
  rw [State.pickOf_eq, nthD, List.getD_eq_getElem _ _ hlt]
  exact List.getElem_mem hlt

/-- The reads that a step of a row keeps. -/
def State.keepReads (s : State) (key : Nat) (j : Job) (m : FMap Nat) : State := s.modJob key j.id fun (x : Job) => { x with reads := m }

/-- A cell of which one row has another MX and SM. -/
def Cell.setRow (c : Cell) (r : Nat) (mx sm : BitVec 32) : Cell := { c with mx := FMap.set c.mx r mx 0, sm := FMap.set c.sm r sm 0 }

section
variable (c : Cell) (r n : Nat) (mx sm : BitVec 32) (s : State) (key : Nat) (j : Job) (m : FMap Nat)

@[simp] theorem Cell.accGet_modJob (f : Job → Job) : (c.modJob r f).accGet n = c.accGet n := rfl
@[simp] theorem Cell.accGet_setRow : (c.setRow r mx sm).accGet n = c.accGet n := rfl

@[simp] theorem State.accGet_keepReads : ((s.keepReads key j m).cell key).accGet n = (s.cell key).accGet n := by
  simp [State.keepReads, State.modJob]
@[simp] theorem State.mx_keepReads : ((s.keepReads key j m).cell key).mx = (s.cell key).mx := by
  simp [State.keepReads, State.modJob, Cell.modJob]
@[simp] theorem State.sm_keepReads : ((s.keepReads key j m).cell key).sm = (s.cell key).sm := by
  simp [State.keepReads, State.modJob, Cell.modJob]
@[simp] theorem State.spad_keepReads : ((s.keepReads key j m).cell key).spad = (s.cell key).spad := by
  simp [State.keepReads, State.modJob, Cell.modJob]

theorem State.find?_keepReads_setCell {k : Nat} (h : k ≠ key) :
    FMap.find? ((s.setCell key c).keepReads key j m).cells k = FMap.find? s.cells k :=
  (FMap.find?_put_ne _ _ h).trans (FMap.find?_put_ne _ _ h)

end

section
variable {s u : State} {key kind i : Nat} {j : Job} {writing : Bool} {q : Option (List Nat)} {t : Rtt}

/-- What a step of a row whose statistics are not stored can do: write an element of the region, read one, give MX and SM of
the row, or nothing. -/
theorem rgoStep_cases (ht : t = rttOf j.timetable) (hen : t.en = false) (h : s.rgoStep key j kind i writing = .ok (u, q)) :
    (∃ k m, k < t.ncols ∧ u = (s.draw.2.setCell key ((s.cell key).accPut (32768 * t.acc + 256 * (t.row0 + i) + t.col0 + k)
      (BitVec.ofNat 32 (FMap.get j.reads k 0)))).keepReads key j m)
    ∨ (∃ m, u = s.draw.2.keepReads key j m)
    ∨ (∃ mx sm m, u = (s.setCell key ((s.cell key).setRow (t.row0 + i) mx sm)).keepReads key j m)
    ∨ u = s := by
  subst ht
  rw [State.rgoStep] at h
  simp only [hen, Bool.false_and, Bool.false_eq_true, if_false] at h
  split at h
  · next hl =>
    split at h
    · cases h
      refine .inl ⟨_, _, ?_, rfl⟩
      have hmem := s.pickOf_mem (List.isEmpty_eq_false_iff.1 ((Bool.not_eq_true' _).mp hl))
      exact List.mem_range.1 (List.mem_filter.1 hmem).1
    · cases h
      exact .inr (.inl ⟨_, rfl⟩)
  · split at h
    · cases h
      exact .inr (.inr (.inr rfl))
    · cases h
      exact .inr (.inr (.inl ⟨_, _, _, rfl⟩))

/-- A step of a row whose statistics are not stored changes no accumulator element but one of its row of the region, and no MX
or SM but the row's. -/
theorem rgoStep_frame (ht : t = rttOf j.timetable) (hen : t.en = false) (h : s.rgoStep key j kind i writing = .ok (u, q)) :
    { u with cells := s.cells, drawn := s.drawn } = s ∧ (∀ k, k ≠ key → FMap.find? u.cells k = FMap.find? s.cells k)
    ∧ (∀ n, (u.cell key).accGet n ≠ (s.cell key).accGet n → ∃ k, k < t.ncols
        ∧ n = 32768 * t.acc + 256 * (t.row0 + i) + t.col0 + k
        ∧ (u.cell key).accGet n = BitVec.ofNat 32 (FMap.get j.reads k 0))
    ∧ (∀ r, r ≠ t.row0 + i → FMap.get (u.cell key).mx r 0 = FMap.get (s.cell key).mx r 0
        ∧ FMap.get (u.cell key).sm r 0 = FMap.get (s.cell key).sm r 0)
    ∧ (u.cell key).spad = (s.cell key).spad := by
  rcases rgoStep_cases ht hen h with ⟨k, m, hk, rfl⟩ | ⟨m, rfl⟩ | ⟨mx, sm, m, rfl⟩ | rfl
  · simp only [State.accGet_keepReads, State.mx_keepReads, State.sm_keepReads, State.spad_keepReads, State.cell_setCell_same]
    refine ⟨rfl, fun _ => State.find?_keepReads_setCell _ _ _ _ _, fun n hn => ⟨k, hk, ?_⟩, fun _ _ => ⟨rfl, rfl⟩, rfl⟩
    by_cases hb : n = 32768 * t.acc + 256 * (t.row0 + i) + t.col0 + k
    · subst hb
      exact ⟨rfl, FMap.get_set_same _ _ _ _⟩
    · exact absurd (FMap.get_set_ne _ _ _ hb) hn
  · simp only [State.accGet_keepReads, State.mx_keepReads, State.sm_keepReads, State.spad_keepReads]
    exact ⟨rfl, fun _ hk => FMap.find?_put_ne _ _ hk, fun _ hn => absurd rfl hn, fun _ _ => ⟨rfl, rfl⟩, rfl⟩
  · simp only [State.accGet_keepReads, State.mx_keepReads, State.sm_keepReads, State.spad_keepReads, State.cell_setCell_same,
      Cell.accGet_setRow]
    exact ⟨rfl, fun _ => State.find?_keepReads_setCell _ _ _ _ _, fun _ hn => absurd rfl hn,
      fun _ hr => ⟨FMap.get_set_ne _ _ _ hr, FMap.get_set_ne _ _ _ hr⟩, rfl⟩
  · exact ⟨rfl, fun _ _ => rfl, fun _ hn => absurd rfl hn, fun _ _ => ⟨rfl, rfl⟩, rfl⟩

end

theorem rowPasses : RowPasses := by
  refine ⟨fun t r mx sm xs => ⟨rfl, fun hm => ?_⟩, fun k t r mx sm xs hk => ⟨rowPass_length hk, fun h0 i => rowPass_masked hk h0⟩,
    fun t r mx sm xs i hi hm => ⟨rowPass_expsum_elem hi hm, ?_, rowPass_scale_elem hi hm, ?_, rowPass_norm_elem hi hm,
      (rowPass_norm_live _ _ _ _ _ (rowLive_ne_nil hi hm)).2⟩,
    fun _ _ _ _ _ _ _ _ _ ht hen h => rgoStep_frame ht hen h⟩
  · rw [rowPass_max, rowLive_of_masked hm, rowMax_nil]
  · rintro rfl
    exact rowPass_expsum_flat hi
  · rintro rfl
    exact rowPass_scale_zero

/-- Settles O46: drains and row words by their issue, a drained element by its type, a pass by its elements and their masks,
and a step of a row by the four things that it can do. -/
theorem drainsRowWordsAndPasses : Obligations.DrainsRowWordsAndPasses := ⟨drainsAndRowWordsComplete, rowPasses⟩

end Sys2Proof.Machine
end

