-- ==== Sys2Proof/Proofs/SortWords.lean ====
section
/-! SUPPORT. The sort and sparse words (R279 to R283): their issue, and sorting, merging and removing equal neighbours as the
library's insertion sort, merge and destutter. -/

namespace Sys2Proof.Machine

open Claims

/-! ## Issue -/

section
variable {f : Rrr} {i : Instr} {s s0 s1 s2 t : State} {key : Nat} {e : EngTag} {d a b : Word}

/-- A word whose body begins with the room of its queue waits while the queue is full. -/
theorem queueWord_full {n : Nat} {body : State → M State} (hi : i.body = .rrr f)
    (hx : ∀ s, exec i s = runWord f.hdr f.w1.isSome false (fun s => seqM (s.queueRoom n >>= fun _ => body s)) s)
    (st : Starts i s key e s0) (h : n ≤ (s0.core.jobsOf e).length) : exec i s = .next (s.modEng fun g => { g with reason := 12 }) := by
  rw [← Starts.curEng st] at h
  exact blocks_of st (by rw [hi]; rfl) hx (seqM_error (M.bind_of_error (State.queueRoom_full h)))

theorem sortWord_accepted (hi : i.body = .rrr f) (hx : ∀ s, exec i s = sortWord f i s) (st : Starts i s key e s0)
    (hroom : (s0.core.jobsOf e).length < 8) (hd : s0.src f.d (litVal f.ty.toNat f.w1) = .ok (d, s1))
    (ha : s1.src f.a (litVal f.ty.toNat f.w1) = .ok (a, s2)) (hb : s2.src f.b (litVal f.ty.toNat f.w1) = .ok (b, t)) :
    ∃ l, Ends i s (t.accept { t.newJob f.hdr i with vd := d, va := a, vb := b, locks := l }) .seq := by
  rw [← Starts.curEng st] at hroom
  exact ⟨_, ends_of st (by rw [hi]; rfl) (by rw [hi]; rfl) hx (seqM_ok (M.bind_of_ok (State.queueRoom_ok hroom)
    (M.bind_of_ok hd (M.bind_of_ok ha (M.bind_of_ok hb rfl)))))⟩

theorem sparseWord_accepted (hi : i.body = .rrr f) (hx : ∀ s, exec i s = sparseWord f i s) (st : Starts i s key e s0)
    (hroom : (s0.core.jobsOf e).length < 8) (ha : s0.src f.a (litVal f.ty.toNat f.w1) = .ok (a, t)) :
    Ends i s (t.accept { t.newJob f.hdr i with va := a }) .seq := by
  rw [← Starts.curEng st] at hroom
  exact ends_of st (by rw [hi]; rfl) (by rw [hi]; rfl) hx
    (seqM_ok (M.bind_of_ok (State.queueRoom_ok hroom) (M.bind_of_ok ha rfl)))

end

/-- The six sort words. -/
theorem sortWord_of_mem {f : Rrr} {i : Instr} (h : i ∈ [Instr.sort f, .segsort f, .merge f, .topk f, .ksel f, .uniq f]) :
    i.body = .rrr f ∧ ∀ s, exec i s = sortWord f i s := by
  simp only [List.mem_cons, List.not_mem_nil, or_false] at h
  rcases h with rfl | rfl | rfl | rfl | rfl | rfl <;> exact ⟨rfl, fun _ => rfl⟩

/-- The four sparse words. -/
theorem sparseWord_of_mem {f : Rrr} {i : Instr} (h : i ∈ [Instr.spmmCsr f, .spmmBsr f, .sddmm f, .spmv f]) :
    i.body = .rrr f ∧ ∀ s, exec i s = sparseWord f i s := by
  simp only [List.mem_cons, List.not_mem_nil, or_false] at h
  rcases h with rfl | rfl | rfl | rfl <;> exact ⟨rfl, fun _ => rfl⟩

/-! ## The order of records (R280) -/

/-- A record may stand in front of another in a word's order. -/
@[reducible] def KRec.ordered (desc : Bool) (x y : KRec) : Prop := if desc then y.rank ≤ x.rank else x.rank ≤ y.rank

section
variable {desc : Bool}

theorem KRec.before_iff {x y : KRec} : y.before desc x = true ↔ ¬ x.ordered desc y := by
  cases desc <;> simp [KRec.before, KRec.ordered]

theorem KRec.ordered_of_rank_eq {x y : KRec} (h : x.rank = y.rank) : x.ordered desc y := by
  cases desc <;> simp [KRec.ordered, h]

theorem KRec.ordered_total : Std.Total (KRec.ordered desc) :=
  ⟨fun x y => by cases desc <;> simp [KRec.ordered, Int.le_total]⟩

theorem KRec.ordered_trans : IsTrans KRec (KRec.ordered desc) :=
  ⟨fun x y z hxy hyz => by
    cases desc
    · exact Int.le_trans hxy hyz
    · exact Int.le_trans hyz hxy⟩

end

/-! ## SORT (R280) -/

section
variable (desc : Bool)

theorem place_eq_orderedInsert (x : KRec) (ys : List KRec) :
    sortRecs.place desc x ys = ys.orderedInsert (KRec.ordered desc) x := by
  induction ys with
  | nil => rfl
  | cons y ys ih =>
    rw [sortRecs.place, List.orderedInsert_cons, ih]
    by_cases h : x.ordered desc y
    · rw [if_pos h, if_neg fun hb => KRec.before_iff.1 hb h]
    · rw [if_neg h, if_pos (KRec.before_iff.2 h)]

theorem sortRecs_eq_insertionSort (xs : List KRec) : sortRecs desc xs = xs.insertionSort (KRec.ordered desc) := by
  induction xs with
  | nil => rfl
  | cons x xs ih => rw [List.insertionSort_cons, ← ih, ← place_eq_orderedInsert]; rfl

theorem sortRecs_perm (xs : List KRec) : (sortRecs desc xs).Perm xs := by
  rw [sortRecs_eq_insertionSort]
  exact List.perm_insertionSort _ xs

theorem sortRecs_pairwise (xs : List KRec) : (sortRecs desc xs).Pairwise (KRec.ordered desc) := by
  have := KRec.ordered_total (desc := desc)
  have := KRec.ordered_trans (desc := desc)
  rw [sortRecs_eq_insertionSort]
  exact List.pairwise_insertionSort _ xs

/-- Records of one rank stand in the order in which they stood: they form a sorted sublist, which an insertion sort keeps. -/
theorem sortRecs_stable (xs : List KRec) (k : Int) :
    (sortRecs desc xs).filter (fun x => x.rank == k) = xs.filter fun x => x.rank == k := by
  have hrank : ∀ x ∈ xs.filter (fun x => x.rank == k), x.rank = k := fun x hx => by simpa using (List.mem_filter.1 hx).2
  have hsorted : (xs.filter fun x => x.rank == k).Pairwise (KRec.ordered desc) :=
    List.pairwise_iff_forall_sublist.2 fun {x y} hxy =>
      KRec.ordered_of_rank_eq ((hrank x (hxy.subset (by simp))).trans (hrank y (hxy.subset (by simp))).symm)
  have hsub : (xs.filter fun x => x.rank == k).Sublist (sortRecs desc xs) := by
    rw [sortRecs_eq_insertionSort]
    exact List.sublist_insertionSort hsorted List.filter_sublist
  have hfilter := hsub.filter fun x => x.rank == k
  rw [List.filter_filter] at hfilter
  simp only [Bool.and_self] at hfilter
  exact (hfilter.eq_of_length ((sortRecs_perm desc xs).filter _).length_eq.symm).symm

/-! ## MERGE (R280) -/

/-- Turns enough for every record make the merge of the library. -/
theorem mergeRecs_eq_merge {n : Nat} {xs ys : List KRec} (h : xs.length + ys.length ≤ n) :
    mergeRecs desc n xs ys = xs.merge ys fun x y => decide (x.ordered desc y) := by
  induction n generalizing xs ys with
  | zero =>
    obtain rfl : xs = [] := List.length_eq_zero_iff.1 (by omega)
    obtain rfl : ys = [] := List.length_eq_zero_iff.1 (by omega)
    simp [mergeRecs]
  | succ n ih =>
    cases xs with
    | nil => simp [mergeRecs]
    | cons x xs =>
      cases ys with
      | nil => simp [mergeRecs]
      | cons y ys =>
        simp only [List.length_cons] at h
        rw [mergeRecs]
        by_cases ho : x.ordered desc y
        · rw [if_neg fun hb => KRec.before_iff.1 hb ho, List.cons_merge_cons_pos _ _ _ (by simpa using ho),
            ih (by simp only [List.length_cons]; omega)]
        · rw [if_pos (KRec.before_iff.2 ho), List.cons_merge_cons_neg _ _ _ (by simpa using ho),
            ih (by simp only [List.length_cons]; omega)]

variable {desc}

/-- A sorted run whose first record may not stand in front of another has no record of the other's rank. -/
theorem filter_eq_nil_of_not_ordered {x y : KRec} {xs : List KRec} (hxs : (x :: xs).Pairwise (KRec.ordered desc))
    (h : ¬ x.ordered desc y) : (x :: xs).filter (fun z => z.rank == y.rank) = [] := by
  have htrans := KRec.ordered_trans (desc := desc)
  have hne : ∀ z ∈ x :: xs, z.rank ≠ y.rank := fun z hz hr => by
    rcases List.mem_cons.1 hz with rfl | hz
    · exact h (KRec.ordered_of_rank_eq hr)
    · exact h (htrans.trans _ _ _ (List.rel_of_pairwise_cons hxs hz) (KRec.ordered_of_rank_eq hr))
  exact List.filter_eq_nil_iff.2 fun z hz => by simpa using hne z hz

/-- In a merge of sorted runs the records of one rank are those of the first run, then those of the second. -/
theorem filter_merge {xs ys : List KRec} (hxs : xs.Pairwise (KRec.ordered desc)) (hys : ys.Pairwise (KRec.ordered desc)) (k : Int) :
    (xs.merge ys fun x y => decide (x.ordered desc y)).filter (fun x => x.rank == k)
      = (xs.filter fun x => x.rank == k) ++ ys.filter fun x => x.rank == k := by
  induction xs generalizing ys with
  | nil => simp
  | cons x xs ihx =>
    induction ys with
    | nil => simp
    | cons y ys ihy =>
      by_cases ho : x.ordered desc y
      · rw [List.cons_merge_cons_pos _ _ _ (by simpa using ho), List.filter_cons, ihx hxs.of_cons hys, List.filter_cons (x := x)]
        split <;> rfl
      · rw [List.cons_merge_cons_neg _ _ _ (by simpa using ho), List.filter_cons, ihy hys.of_cons, List.filter_cons (x := y)]
        by_cases hk : y.rank = k
        · subst hk
          rw [filter_eq_nil_of_not_ordered hxs ho]
          simp
        · simp [hk]

theorem mergeRecs_perm (desc : Bool) (xs ys : List KRec) : (mergeRecs desc (xs.length + ys.length) xs ys).Perm (xs ++ ys) := by
  rw [mergeRecs_eq_merge desc le_rfl]
  exact List.merge_perm_append _

theorem mergeRecs_pairwise {xs ys : List KRec} (hxs : xs.Pairwise (KRec.ordered desc)) (hys : ys.Pairwise (KRec.ordered desc)) :
    (mergeRecs desc (xs.length + ys.length) xs ys).Pairwise (KRec.ordered desc) := by
  have := KRec.ordered_total (desc := desc)
  have := KRec.ordered_trans (desc := desc)
  rw [mergeRecs_eq_merge desc le_rfl]
  exact hxs.merge hys

theorem mergeRecs_stable {xs ys : List KRec} (hxs : xs.Pairwise (KRec.ordered desc)) (hys : ys.Pairwise (KRec.ordered desc)) (k : Int) :
    (mergeRecs desc (xs.length + ys.length) xs ys).filter (fun x => x.rank == k)
      = (xs.filter fun x => x.rank == k) ++ ys.filter fun x => x.rank == k := by
  rw [mergeRecs_eq_merge desc le_rfl, filter_merge hxs hys]

end

/-! ## UNIQ (R280) -/

/-- Behind a record kept, UNIQ goes on as destutter does from it. -/
theorem cons_uniqRecs (x : KRec) (xs : List KRec) :
    x :: uniqRecs (some x.key) xs = xs.destutter' (fun x y => x.key ≠ y.key) x := by
  induction xs generalizing x with
  | nil => rfl
  | cons y ys ih =>
    rw [uniqRecs]
    by_cases h : x.key = y.key
    · rw [if_pos (congrArg some h), List.destutter'_cons_neg _ (not_not.2 h), ih]
    · rw [if_neg fun hs => h (Option.some.inj hs), List.destutter'_cons_pos _ h, ih]

theorem uniqRecs_eq_destutter (xs : List KRec) : uniqRecs none xs = xs.destutter fun x y => x.key ≠ y.key := by
  cases xs with
  | nil => rfl
  | cons x xs => exact cons_uniqRecs x xs

/-- Every key of the input is the last one kept or one kept further on. -/
theorem key_mem_uniqRecs {x : KRec} {xs : List KRec} (h : x ∈ xs) (p : Option Nat) :
    p = some x.key ∨ ∃ y ∈ uniqRecs p xs, y.key = x.key := by
  induction xs generalizing p with
  | nil => exact absurd h List.not_mem_nil
  | cons z zs ih =>
    rw [uniqRecs]
    split
    · next hp =>
      rcases List.mem_cons.1 h with rfl | hx
      · exact .inl hp
      · exact ih hx p
    · rcases List.mem_cons.1 h with rfl | hx
      · exact .inr ⟨x, List.mem_cons_self, rfl⟩
      · rcases ih hx (some z.key) with hz | ⟨y, hy, hk⟩
        · exact .inr ⟨z, List.mem_cons_self, Option.some.inj hz⟩
        · exact .inr ⟨y, List.mem_cons_of_mem _ hy, hk⟩

theorem uniqRecs_sublist (xs : List KRec) : (uniqRecs none xs).Sublist xs := by
  rw [uniqRecs_eq_destutter]
  exact xs.destutter_sublist _

theorem uniqRecs_neighbours {xs : List KRec} {i : Nat} {x y : KRec} (hx : (uniqRecs none xs)[i]? = some x)
    (hy : (uniqRecs none xs)[i + 1]? = some y) : x.key ≠ y.key := by
  have hchain := xs.isChain_destutter fun x y : KRec => x.key ≠ y.key
  rw [← uniqRecs_eq_destutter] at hchain
  obtain ⟨_, rfl⟩ := List.getElem?_eq_some_iff.1 hx
  obtain ⟨hlt, rfl⟩ := List.getElem?_eq_some_iff.1 hy
  exact List.isChain_iff_getElem.1 hchain i hlt

/-- Settles O47: each word is issued by `sortWord` or `sparseWord`, and the three functions on records are the library's. -/
theorem sortAndSparseWordsComplete : Obligations.SortAndSparseWordsComplete := by
  refine ⟨fun f i s key e s0 hmem st => ?_, fun f i s key e s0 hmem st => ?_,
    fun desc xs => ⟨sortRecs_perm desc xs, sortRecs_pairwise desc xs, sortRecs_stable desc xs⟩, ?_, ?_⟩
  · obtain ⟨hi, hx⟩ := sortWord_of_mem hmem
    exact ⟨queueWord_full hi hx st, fun _ _ _ _ _ _ => sortWord_accepted hi hx st⟩
  · obtain ⟨hi, hx⟩ := sparseWord_of_mem hmem
    exact ⟨queueWord_full hi hx st, fun _ _ => sparseWord_accepted hi hx st⟩
  · rintro desc xs ys _ rfl
    exact ⟨mergeRecs_perm desc xs ys, fun hxs hys => ⟨mergeRecs_pairwise hxs hys, mergeRecs_stable hxs hys⟩⟩
  · rintro xs _ rfl
    exact ⟨uniqRecs_sublist xs, fun _ _ _ => uniqRecs_neighbours,
      fun _ hx => (key_mem_uniqRecs hx none).resolve_left nofun⟩

end Sys2Proof.Machine
end

