-- ==== Sys2Proof/Proofs/CanonicalMemory.lean ====
section
/-! SUPPORT. Memory and host memory in canonical form (log entry 3), said of states, of results and of stops, and the
obligation about the state after reset. -/
namespace Sys2Proof.Machine

/-- Memory and host memory in their canonical form (log entry 3). -/
def Canon (s : State) : Prop := Memory.wf s.mem = true ∧ Memory.wf s.host = true

/-- A claim about what is found, where something is. -/
inductive Gives {α : Type} (P : α → Prop) : Option α → Prop
  | some {a : α} (h : P a) : Gives P (some a)
  | none : Gives P none

/-- The states a stop carries are canonical. -/
def StopCanon : Stop → Prop
  | .wait s _ => Canon s
  | .cause _ after => Gives Canon after
  | _ => True

/-- A claim about the result of a body, and one about what ends it instead. -/
inductive Leaves {ε α : Type} (E : ε → Prop) (P : α → Prop) : Except ε α → Prop
  | ok {a : α} (h : P a) : Leaves E P (.ok a)
  | error {e : ε} (h : E e) : Leaves E P (.error e)

/-- A body whose result, or whose stop, holds canonical states. -/
abbrev Lands {α : Type} (P : α → Prop) (x : M α) : Prop := Leaves StopCanon P x

/-- What a turn fetches holds a canonical state. -/
def FetchedCanon : Fetched → Prop
  | .run _ s => Canon s
  | .done s => Canon s

/-- The steps of a plan keep the canonical form. -/
structure PlanCanon (p : Plan) : Prop where
  prep : ∀ f, p.prep = some f → ∀ s, Canon s → Lands Canon (f s)
  elem : ∀ k part s, Canon s → Lands (fun r => Canon r.1) (p.elem k part s)
  finish : ∀ s, Canon s → Lands Canon (p.finish s)

/-- The state an instruction answers is canonical. -/
inductive Answers : Result → Prop
  | next {t : State} (h : Canon t) : Answers (.next t)
  | fault {f : Fault} : Answers (.fault f)

section
variable {α β ε : Type} {s t : State} {E : ε → Prop} {P : α → Prop} {Q : β → Prop}

/-- What a change of other fields keeps: for a state with these memories this is the form itself. -/
theorem Canon.same (h : Canon s) : Memory.wf s.mem = true ∧ Memory.wf s.host = true := h

theorem Canon.withMem {m : Memory} (h : Canon s) (hm : Memory.wf m = true) : Canon { s with mem := m } := ⟨hm, h.2⟩

theorem Memory.wf_fold {f : Memory → α → Memory} {m : Memory} (xs : List α) (h : Memory.wf m = true)
    (hf : ∀ m a, Memory.wf m = true → Memory.wf (f m a) = true) : Memory.wf (xs.foldl f m) = true := by
  induction xs generalizing m with
  | nil => exact h
  | cons x xs ih => exact ih (hf m x h)

/-- A block copied from one memory to another. -/
theorem Memory.wf_copy {m n : Memory} (dst src len : Nat) (hm : Memory.wf m = true) (hn : Memory.wf n = true) :
    Memory.wf (FMap.blit m dst len (FMap.slice n src len)) = true :=
  Memory.wf_blit dst len hm (FMap.wf_slice src len hn).1 (FMap.wf_slice src len hn).2

/-- A change of the pending actor. -/
theorem Canon.withActor {w : Option Waiter} (h : Canon s) : Canon { s with actor := w } := h

/-- A change of the tags. -/
theorem Canon.withTags {m : FMap (BitVec 4)} (h : Canon s) : Canon { s with tags := m } := h

theorem Canon.ite {c : Prop} {_ : Decidable c} (hs : Canon s) (ht : Canon t) : Canon (if c then s else t) := by
  split <;> assumption

theorem Canon.foldl {f : State → α → State} {xs : List α} (h : Canon s) (hf : ∀ s a, Canon s → Canon (f s a)) :
    Canon (xs.foldl f s) := by
  induction xs generalizing s with
  | nil => exact h
  | cons x xs ih => exact ih (hf s x h)

theorem Leaves.of_ok {x : Except ε α} {a : α} (hx : Leaves E P x) (h : x = .ok a) : P a := by
  subst h
  cases hx
  assumption
theorem Leaves.of_error {x : Except ε α} {e : ε} (hx : Leaves E P x) (h : x = .error e) : E e := by
  subst h
  cases hx
  assumption

theorem Leaves.bind {x : Except ε α} {f : α → Except ε β} (hx : Leaves E P x) (hf : ∀ a, P a → Leaves E Q (f a)) :
    Leaves E Q (x >>= f) := by
  cases hx with
  | error h => exact .error h
  | ok h => exact hf _ h

theorem Leaves.map {x : Except ε α} {f : α → β} (hx : Leaves E P x) (hf : ∀ a, P a → Q (f a)) : Leaves E Q (x.map f) := by
  cases hx with
  | error h => exact .error h
  | ok h => exact .ok (hf _ h)

theorem Leaves.ite {c : Prop} {_ : Decidable c} {x y : Except ε α} (hx : Leaves E P x) (hy : Leaves E P y) :
    Leaves E P (if c then x else y) := by
  split <;> assumption

theorem Canon.of_snd {p : α × State} {a : α} (h : Canon p.2) (e : p = (a, s)) : Canon s := by rwa [e] at h
theorem StopCanon.wait {n : Nat} (h : Canon s) : StopCanon (.wait s n) := h
theorem Canon.getD {o : Option State} (h : Canon s) (ho : Gives Canon o) : Canon (o.getD s) := by
  cases ho with
  | none => exact h
  | some ht => exact ht

theorem Gives.of_some {o : Option α} {a : α} (ho : Gives P o) (h : o = .some a) : P a := by
  subst h
  cases ho
  assumption
theorem Gives.ite {c : Prop} {_ : Decidable c} {x y : Option α} (hx : Gives P x) (hy : Gives P y) :
    Gives P (if c then x else y) := by
  split <;> assumption

theorem Leaves.foldlM {f : β → α → Except ε β} {xs : List α} {b : β} (h : Q b) (hf : ∀ b a, Q b → Leaves E Q (f b a)) :
    Leaves E Q (xs.foldlM f b) := by
  induction xs generalizing b with
  | nil => exact .ok h
  | cons x xs ih => exact Leaves.bind (hf b x h) fun b hb => ih hb

theorem Leaves.mapM {f : α → Except ε β} {xs : List α} (hf : ∀ a, Leaves E (fun _ => True) (f a)) :
    Leaves E (fun _ => True) (xs.mapM f) := by
  induction xs with
  | nil => exact .ok trivial
  | cons x xs ih =>
    rw [List.mapM_cons]
    exact (hf x).bind fun _ _ => ih.bind fun _ _ => .ok trivial

end

/-- Settles O60: after reset the homes list nothing, and host memory is the one the tests start from. -/
theorem memoryIsCanonicalAtReset : Obligations.MemoryIsCanonicalAtReset :=
  ⟨rfl, rfl⟩

end Sys2Proof.Machine
end

