-- ==== Sys2Proof/Proofs/CanonicalState.lean ====
section
/-! SUPPORT. The operations on the state, the registers and the home locations keep the canonical form (log entry 3). -/
namespace Sys2Proof.Machine

section
variable {s : State}

theorem Canon.setDie {i : Nat} {d : Die} (h : Canon s) : Canon (s.setDie i d) := h.same

theorem Canon.setCell {key : Nat} {c : Cell} (h : Canon s) : Canon (s.setCell key c) := h.same

theorem Canon.setCore {c : Cell} (h : Canon s) : Canon (s.setCore c) := by
  unfold State.setCore
  split
  · exact h.setCell
  · exact h.same

theorem Canon.modNode {n : Nat} {f : Node → Node} (h : Canon s) : Canon (s.modNode n f) := h.same

theorem Canon.draw (h : Canon s) : Canon s.draw.2 := h.same

theorem lands_raise {α : Type} {P : α → Prop} {code : BitVec 8} : Lands P (raise code) := .error .none

theorem lands_raiseAt {α : Type} {P : α → Prop} {code : BitVec 8} {addr : Word} : Lands P (raiseAt code addr) := .error .none

theorem lands_blocked {α : Type} {P : α → Prop} {reason : Nat} : Lands P (blocked reason) := .error trivial

theorem lands_readX {n : Nat} : Lands (fun _ => True) (s.readX n) := by
  unfold State.readX
  split
  · exact .ok trivial
  · split
    · exact .ok trivial
    · exact .ite lands_blocked (.ok trivial)

theorem Canon.writeX {n : Nat} {w : Word} (h : Canon s) : Lands Canon (s.writeX n w) :=
  .ite (.ok h) (.ite (.ok h.setCore) (.ite lands_blocked (.ok h.setCore)))

theorem lands_readLc {n : Nat} : Lands (fun _ => True) (s.readLc n) := .ite lands_blocked (.ok trivial)

theorem Canon.writeLc {n : Nat} {w : Word} (h : Canon s) : Lands Canon (s.writeLc n w) :=
  .ite (.ok h.setCore) (.ite lands_blocked (.ok h.setCore))

theorem Canon.popQ (h : Canon s) : Lands (fun r => Canon r.2) s.popQ := by
  unfold State.popQ
  dsimp only
  split
  · split
    · exact .ok h.setCore
    · exact lands_blocked
  · split
    · exact .ok h.setCore
    · exact lands_blocked
  · split
    · exact .ok h.setCore
    · exact lands_blocked
  · exact lands_raise

theorem Canon.pushQ {dest : EngTag} {w : Word} (h : Canon s) : Lands Canon (s.pushQ dest w) := by
  unfold State.pushQ
  dsimp only
  split
  · exact .ok h
  · split
    · exact .ite (.ok h.setCore) lands_blocked
    · exact .ite (.ok h.setCore) lands_blocked
    · exact .ite (.ok h.setCore) lands_blocked
    · exact lands_raise

theorem lands_readReg {n : Nat} : Lands (fun _ => True) (s.readReg n) := by
  unfold State.readReg
  split
  · exact .ok trivial
  · exact lands_readX

theorem Canon.writeReg {n : Nat} {w : Word} (h : Canon s) : Lands Canon (s.writeReg n w) := by
  unfold State.writeReg
  split
  · exact .ok (h.ite h.setCore)
  · exact h.writeX

theorem Canon.src {code : BitVec 8} {lit : Word} (h : Canon s) : Lands (fun r => Canon r.2) (s.src code lit) := by
  unfold State.src
  split
  · exact .ok h
  · split
    · split
      · exact lands_raise
      · exact h.popQ
    · exact .ite (lands_readReg.bind fun _ _ => .ok h) lands_raise

theorem Canon.dst {code : BitVec 8} {w : Word} (h : Canon s) : Lands Canon (s.dst code w) := by
  unfold State.dst
  split
  · exact h.writeReg
  · split
    · exact lands_raise
    · split
      · split
        · exact h.pushQ
        · exact h.pushQ
        · exact lands_raise
      · split
        · split
          · exact h.pushQ
          · exact lands_raise
        · exact lands_raise

theorem Canon.dstPair {code : BitVec 8} {lo hi : Word} (h : Canon s) : Lands Canon (s.dstPair code lo hi) :=
  .ite (h.writeReg.bind fun _ h1 => h1.writeReg) (h.dst.bind fun _ h1 => h1.dst)

theorem Canon.dataSrc {code : BitVec 8} {lit : Word} {pair : Bool} (h : Canon s) :
    Lands (fun r => Canon r.2.2) (s.dataSrc code lit pair) :=
  h.src.bind fun _ h1 => .ite (.ok h1) (.ite (h1.src.bind fun _ h2 => .ok h2) (lands_readReg.bind fun _ _ => .ok h1))

theorem Canon.vsrc {code : BitVec 8} {w : Nat} {lit : Word} (h : Canon s) : Lands (fun r => Canon r.2) (s.vsrc code w lit) :=
  .ite (.ok h) (.ite (h.popQ.bind fun _ h1 => .ok h1) (.ok h))

theorem Canon.setTile {id i : Nat} {t : Tile} (h : Canon s) : Canon (s.setTile id i t) := h.same

theorem lands_eccCheck {loc : Nat} : Lands (fun _ => True) (s.eccCheck loc) := .ite (.error .none) (.ok trivial)

theorem Canon.eccWrite {place n : Nat} (h : Canon s) : Canon (s.eccWrite place n) := Canon.ite h.same h

theorem Canon.dcNote {loc : Nat} {dirty : Bool} (h : Canon s) : Canon (s.dcNote loc dirty) := h.ite h.draw.setDie

theorem Canon.dcDrop {pages : List Nat} (h : Canon s) : Canon (s.dcDrop pages) := h.same

theorem Canon.touchTile {loc : Nat} (h : Canon s) : Canon (s.touchTile loc) := by
  unfold State.touchTile
  split
  · exact h.setTile.ite h
  · exact h

theorem Canon.homeTouch {loc : Nat} {dirty : Bool} (h : Canon s) : Canon (s.homeTouch loc dirty) := h.touchTile.dcNote

theorem Canon.homeTurn {loc : Nat} (h : Canon s) : Lands Canon (s.homeTurn loc) := by
  unfold State.homeTurn
  split
  · exact .error trivial
  · split
    · exact .ok h
    · exact .ok (h.ite h.setTile)

theorem Canon.leaveTiles {w : Waiter} {at_ : Option (Nat × Nat)} (h : Canon s) : Canon (s.leaveTiles w at_) :=
  h.foldl fun _ _ h1 => h1.setTile.ite h1

theorem Canon.hold {id i : Nat} {w : Waiter} (h : Canon s) : Canon (s.hold id i w) := h.leaveTiles.ite h.leaveTiles.setTile

theorem Canon.applyInPlace {id i : Nat} (h : Canon s) : Canon (s.applyInPlace id i) :=
  ⟨Memory.wf_fold _ h.1 fun _ _ hm => Memory.wf_writeN _ _ hm, h.2⟩

theorem Canon.claimFrame {id i : Nat} {t : Tile} (h : Canon s) : Canon (s.claimFrame id i t) := by
  unfold State.claimFrame
  dsimp only
  split
  · exact h.setTile
  · split
    · exact h.setTile.setTile
    · exact h.setTile

theorem Canon.startFetch {id i : Nat} {spx : Option Nat} (h : Canon s) : Canon (s.startFetch id i spx) :=
  h.ite (h.applyInPlace.ite h.claimFrame)

theorem Canon.movePlace {src dst n : Nat} (h : Canon s) : Canon (s.movePlace src dst n) :=
  ⟨Memory.wf_copy dst src n h.1 h.1, h.2⟩

theorem Canon.fetchDone {id i : Nat} (h : Canon s) : Canon (s.fetchDone id i) := by
  unfold State.fetchDone
  refine h.ite ?_
  split
  · exact h.claimFrame
  · exact h.ite (h.applyInPlace.foldl fun _ _ h => h.movePlace).setTile

theorem Canon.noteBad {ps : List Nat} (h : Canon s) : Canon (s.noteBad ps) := h.same

theorem Canon.evictDone {id i : Nat} (h : Canon s) : Canon (s.evictDone id i) := by
  unfold State.evictDone
  dsimp only
  split
  · exact (h.noteBad.foldl fun _ _ h => h.movePlace).withTags.setTile
  · exact h

theorem Canon.endFetch {id i : Nat} (h : Canon s) : Canon (s.endFetch id i) := by
  unfold State.endFetch
  refine Canon.fetchDone ?_
  split
  · exact h.evictDone
  · exact h

theorem Canon.endMove {id i : Nat} (h : Canon s) : Canon (s.endMove id i) := by
  unfold State.endMove
  dsimp only
  split
  · exact h.evictDone
  · exact h.endFetch
  · refine Canon.endFetch (Canon.claimFrame ?_)
    split
    · exact h.evictDone.ite h.endFetch
    · exact h
  · exact h

theorem Canon.homeForce {loc : Nat} (h : Canon s) : Canon (s.homeForce loc) := by
  unfold State.homeForce
  split
  · exact h.startFetch.endMove
  · exact h

theorem Canon.putAt {loc : Nat} {ws : List ByteWrite} (h : Canon s) : Canon (s.putAt loc ws) :=
  Canon.homeTouch (Canon.eccWrite ⟨Memory.wf_foldl _ _ ws h.1, h.2⟩)

theorem Canon.warm {loc : Nat} (h : Canon s) : Lands Canon (s.warm loc) := by
  unfold State.warm
  split
  · exact .ite (.ite (.ok h.applyInPlace) (.error trivial)) (.ok h)
  · exact .ok h

theorem Canon.homeWrite {loc : Nat} {ws : List ByteWrite} (h : Canon s) : Lands Canon (s.homeWrite loc ws) :=
  h.homeTurn.bind fun _ h1 => h1.warm.bind fun _ h2 => .ok h2.putAt

theorem Canon.homePut {loc : Nat} {ws : List ByteWrite} (h : Canon s) : Canon (s.homePut loc ws) := h.homeForce.putAt

theorem Canon.rmwAt {loc n : Nat} {f : Nat → Option Nat} (h : Canon s) : Canon (s.rmwAt loc n f).2 := by
  unfold State.rmwAt
  dsimp only
  split
  · exact Canon.homeTouch (⟨Memory.wf_writeN _ _ h.1, h.2⟩)
  · exact h.homeTouch

theorem Canon.homeRmw {loc n : Nat} {f : Nat → Option Nat} (h : Canon s) : Lands (fun r => Canon r.2) (s.homeRmw loc n f) :=
  h.homeTurn.bind fun _ h1 => lands_eccCheck.bind fun _ _ => h1.warm.bind fun _ h3 => .ok h3.rmwAt

theorem Canon.append {id i off loc op ty v : Nat} {who : Ident} (h : Canon s) : Canon (s.append id i off loc op ty v who).2 :=
  Canon.same (h.dcDrop.ite h)

theorem Canon.homeCombine {loc op ty v : Nat} {who : Ident} (h : Canon s) :
    Lands (fun r => Canon r.2) (s.homeCombine loc op ty v who) := by
  unfold State.homeCombine
  refine h.homeTurn.bind fun _ h1 => lands_eccCheck.bind fun _ h2 => ?_
  dsimp only
  split
  · split
    · split
      · exact .ok h1
      · exact .ite (.error trivial) (.ite (.ok h1.append) (h1.warm.bind fun _ h3 => .ok h3.rmwAt))
    · exact .ok h1.rmwAt
  · exact .ok h1.rmwAt

theorem Canon.viewOf {key part scope loc : Nat} (h : Canon s) : Canon (s.viewOf key part scope loc).2 := by
  unfold State.viewOf
  dsimp only
  split
  · exact h
  · split
    · exact h.draw
    · exact h

theorem lands_lost {chip cell dest : Nat} : Lands (fun _ => True) (s.lost chip cell dest) := .ite (.ok trivial) (.error .none)

theorem Canon.send {chip cell dest : Nat} {wt : Bool} {ws : List ByteWrite} {fill : List Nat} {by_ : Option Sender}
    (h : Canon s) :
    Lands Canon (s.send chip cell dest wt ws fill by_) :=
  lands_lost.bind fun _ _ => .ite lands_blocked (.ok h.setDie)

theorem Canon.post {chip cell dest : Nat} {wt : Bool} {ws : List ByteWrite} (h : Canon s) :
    Lands Canon (s.post chip cell dest wt ws) :=
  h.send

theorem Canon.postPeer {key k : Nat} {ws : List ByteWrite} {fill : List Nat} {by_ : Sender} (h : Canon s) :
    Lands Canon (s.postPeer key k ws fill by_) :=
  h.send

theorem Canon.noteApplied {chip home n : Nat} {old : Word} (h : Canon s) : Canon (s.noteApplied chip home n old) :=
  h.ite h.setDie

theorem Canon.sendAtomic {chip home : Nat} {run : State → M (Nat × State)} (h : Canon s)
    (h1 : ∀ s, Canon s → Lands (fun r => Canon r.2) (run s)) :
    Lands (fun r => Canon r.2) (s.sendAtomic chip home run) := by
  unfold State.sendAtomic
  dsimp only
  split
  · exact h1 _ h
  · split
    · exact lands_blocked
    · split
      · exact .ok h.setDie
      · exact (h1 _ h.setDie).map fun _ h2 => h2.noteApplied

theorem Canon.refresh {chip : Nat} {ws : List ByteWrite} (h : Canon s) : Canon (s.refresh chip ws) := h.same

theorem Canon.performPeer {chip : Nat} {m : Msg} (h : Canon s) : Canon (s.performPeer chip m) := by
  unfold State.performPeer
  refine h.setCell.ite ?_
  split
  · exact h.setCell.ite h
  · exact h

theorem Canon.resolve {chip : Nat} {m : Msg} (h : Canon s) : Canon (s.resolve chip m).2 := h.viewOf

theorem Canon.performed {chip : Nat} {m : Msg} (h : Canon s) : Canon (s.performed chip m) :=
  h.noteApplied.ite h.noteApplied.refresh

theorem Canon.perform {chip : Nat} {m : Msg} (h : Canon s) : Lands Canon (s.perform chip m) :=
  .ite (.ok h.performPeer) (.ite (.ok h) (h.withActor.resolve.homeWrite.map fun _ h1 => Canon.same h1.performed))

theorem Canon.performNow {chip : Nat} {m : Msg} (h : Canon s) : Canon (s.performNow chip m) := by
  unfold State.performNow
  split
  · exact h.perform.of_ok ‹_›
  · exact h.resolve.homePut.performed

theorem Canon.dropMsg {chip : Nat} {m : Msg} (h : Canon s) : Canon (s.dropMsg chip m) := h.same

theorem Canon.flush {chip : Nat} {p : Msg → Bool} (h : Canon s) : Lands Canon (s.flush chip p) :=
  Leaves.foldlM h fun _ _ h1 => h1.perform.map fun _ h2 => h2.dropMsg

theorem Canon.flushNow {chip : Nat} {p : Msg → Bool} (h : Canon s) : Canon (s.flushNow chip p) :=
  h.foldl fun _ _ h1 => h1.performNow.dropMsg

theorem Canon.flushLine {chip cell line : Nat} (h : Canon s) : Lands Canon (s.flushLine chip cell line) := h.flush

theorem Canon.rdcAlloc {chip line : Nat} (h : Canon s) : Canon (s.rdcAlloc chip line) := h.ite (h.setDie.ite h.draw.setDie)

theorem Canon.homeFetch {chip cell line : Nat} (h : Canon s) : Lands (fun r => Canon r.2) (s.homeFetch chip cell line) :=
  h.homeTurn.bind fun _ h1 => .ite lands_blocked (lands_eccCheck.bind fun _ _ => .ok h1.homeTouch)

theorem Canon.rdcFill {chip cell line : Nat} (h : Canon s) : Lands Canon (s.rdcFill chip cell line) :=
  .ite (.ok h) (.ite (h.flushLine.bind fun _ h1 => h1.homeFetch.bind fun _ h2 =>
    .ok h2.rdcAlloc.setDie) (Leaves.bind (P := Canon) (.ok h) fun _ h1 => h1.homeFetch.bind fun _ h2 =>
    .ok h2.rdcAlloc.setDie))

theorem Canon.dieRead {chip cell part loc n scope : Nat} {alloc : Bool} (h : Canon s) :
    Lands (fun r => Canon r.2) (s.dieRead chip cell part loc n scope alloc) :=
  .ite (h.flush.bind fun _ h1 => .ite (.ok h1) (h1.rdcFill.bind fun _ h2 =>
    .ok (h2.ite h2.setDie))) (h.flushLine.bind fun _ h1 => h1.viewOf.homeFetch.bind fun _ h2 => .ok h2.refresh)

theorem Canon.dieWrite {chip cell part loc : Nat} {ws : List ByteWrite} {alloc : Bool} (h : Canon s) :
    Lands Canon (s.dieWrite chip cell part loc ws alloc) :=
  .ite (.ite h.rdcAlloc.setDie.post h.post) h.post

theorem Canon.l1Evict {key part line : Nat} {drop : Bool} (h : Canon s) : Lands Canon (s.l1Evict key part line drop) :=
  .ite (.ok h.setCell) ((h.setCell.noteBad.ite h.setCell).dieWrite)

theorem Canon.l1Alloc {key part line : Nat} (h : Canon s) : Lands Canon (s.l1Alloc key part line) := by
  unfold State.l1Alloc
  dsimp only
  split
  · exact .ok h
  · refine Leaves.bind (P := Canon) ?_ fun _ h1 => .ok h1.setCell
    split
    · exact .ok h
    · split
      · exact h.draw.l1Evict
      · exact .ok h.draw

theorem Canon.loadLine {key part loc n scope : Nat} {na : Bool} (h : Canon s) :
    Lands (fun r => Canon r.2) (s.loadLine key part loc n scope na) := by
  unfold State.loadLine
  split
  · exact .ite (.ok h) (.ite (Leaves.bind (P := Canon) (.ok h) fun _ h1 => h1.dieRead.bind fun _ h2 =>
      .ok (h2.setCell.ite h2)) (h.l1Alloc.bind fun _ h1 => h1.dieRead.bind fun _ h2 => .ok (h2.setCell.ite h2)))
  · exact h.dieRead.bind fun _ h1 => .ok (h1.setCell.ite h1)
  · exact h.flushLine.bind fun _ h1 => h1.viewOf.homeFetch.bind fun _ h2 => .ok (h2.refresh.setCell.ite h2.refresh)

theorem Canon.storeLine {key part loc : Nat} {bs : List Byte} {scope : Nat} {na : Bool} (h : Canon s) :
    Lands Canon (s.storeLine key part loc bs scope na) := by
  unfold State.storeLine
  split
  · exact .ite h.dieWrite (h.l1Alloc.map fun _ h1 => h1.setCell)
  · exact (h.setCell.ite h).dieWrite
  · exact (h.setCell.ite h).post

theorem Canon.l1Clean {key part line : Nat} (h : Canon s) : Lands Canon (s.l1Clean key part line) := by
  unfold State.l1Clean
  split
  · exact h.flush.bind fun _ h2 => h2.l1Evict
  · exact h.l1Evict

theorem Canon.cleanL1 {key part : Nat} (h : Canon s) : Lands Canon (s.cleanL1 key part) :=
  Leaves.foldlM h fun _ _ h1 => h1.l1Clean

theorem Canon.release {key part scope : Nat} (h : Canon s) : Lands Canon (s.release key part scope) :=
  .ite h.flush (h.cleanL1.bind fun _ h1 => .ite h1.flush h1.flush)

theorem Canon.acquire {key part scope : Nat} (h : Canon s) : Canon (s.acquire key part scope) :=
  ((h.setCell.ite h).setDie).ite (h.setCell.ite h)

theorem Canon.halve {chip : Nat} (h : Canon s) : Canon (s.halve chip) := h.same

theorem Canon.promote {chip line : Nat} (h : Canon s) : Canon (s.promote chip line) := by
  unfold State.promote
  dsimp only
  split
  · split
    · exact h.startFetch.ite h
    · exact h.setTile
    · exact h
  · exact h

theorem Canon.rowRead {chip cell part line : Nat} {more : optParam Bool false} (h : Canon s) :
    Lands (fun r => Canon r.2) (s.rowRead chip cell part line more) := by
  unfold State.rowRead
  dsimp only
  refine h.halve.flushLine.bind fun _ h1 => ?_
  split
  · exact h1.viewOf.homeFetch.bind fun _ h2 => .ok h2.refresh
  · split
    · exact .ok (h1.setDie.promote.ite h1.setDie)
    · exact h1.homeFetch.bind fun _ h2 => .ok h2.setDie

theorem Canon.elemRead {key part loc n : Nat} {row na : Bool} {more : optParam Bool false} (h : Canon s) :
    Lands (fun r => Canon r.2) (s.elemRead key part loc n row na more) :=
  .ite (h.rowRead.bind fun _ h1 => Leaves.bind (P := fun r => Canon r.2) (.ok h1) fun _ h2 =>
    .ok h2) (h.dieRead.bind fun _ h1 => .ok h1)

theorem Canon.elemWrite {key part loc : Nat} {bs : List Byte} {na : Bool} (h : Canon s) :
    Lands Canon (s.elemWrite key part loc bs na) :=
  h.setCell.dieWrite

theorem Canon.warmLine {key part loc scope : Nat} (h : Canon s) : Lands Canon (s.warmLine key part loc scope) :=
  .ite (.ok h) (.ite (h.loadLine.map fun _ h1 => h1) (h.dieRead.map fun _ h1 => h1))

end

end Sys2Proof.Machine
end

