-- ==== Sys2Proof/Proofs/CanonicalBuffers.lean ====
section
/-! SUPPORT. Addresses, traps, buffers, the host's interface and graph launches keep the canonical form (log entry 3). -/
namespace Sys2Proof.Machine

section
variable {s : State}

theorem Canon.dieWalk {chip ctx va : Nat} (h : Canon s) : Canon (s.dieWalk chip ctx va).2 := by
  unfold State.dieWalk
  dsimp only
  split
  · exact h
  · split
    · exact h.draw.setDie
    · exact h.draw

theorem Canon.tlbLookup {key ctx va : Nat} (h : Canon s) : Canon (s.tlbLookup key ctx va).2 := by
  unfold State.tlbLookup
  dsimp only
  split
  · exact h
  · split
    · exact h.draw.setCell
    · have hw := h.dieWalk (chip := keyChip key) (ctx := ctx) (va := va)
      split
      · rename_i heq
        rw [heq] at hw
        exact (Canon.draw (Canon.setDie (Canon.draw hw))).setCell
      · exact hw

theorem lands_atAddr {α : Type} {P : α → Prop} {a : Word} {m : M α} (h : Lands P m) : Lands P (atAddr a m) := by
  unfold Machine.atAddr
  split
  · refine .error ?_
    have hs := h.of_error rfl
    split <;> exact hs
  · exact h

theorem Canon.watchAt {key : Nat} {q : Acc} {wscope : Nat} (h : Canon s) : Lands Canon (s.watchAt key q wscope) := by
  unfold State.watchAt
  dsimp only
  split
  · exact .ok h
  · split
    · exact .error .none
    · exact .ok (h.ite h.setCell)

theorem Canon.access {key : Nat} {q : Acc} (h : Canon s) : Lands (fun r => Canon r.2) (s.access key q) := by
  unfold State.access
  extract_lets +onlyGivenNames chip ctx part va
  refine .ite lands_raiseAt ?_
  split
  · exact lands_raiseAt
  · extract_lets +onlyGivenNames peer tagged
    have ht (t : State) (loc : Nat) (h : Canon t) : Lands (fun r => Canon r.2) (tagged t loc) :=
      .ite (.error .none) ((h.setCell.ite h).watchAt.bind fun _ h => .ok h)
    refine .ite lands_raiseAt (.ite lands_raiseAt (.ite lands_raiseAt (.ite lands_raiseAt (.ite lands_raiseAt ?_))))
    split
    · exact h.watchAt.bind fun _ h => .ok h
    · exact h.watchAt.bind fun _ h => .ok h
    · split
      · exact ht _ _ h
      · exact lands_raiseAt
    · split
      · rename_i heq
        exact .ite lands_raiseAt (ht _ _ (h.tlbLookup.of_snd heq))
      · exact .ite (.error trivial) lands_raiseAt
      · exact .error .none

theorem Canon.gsdTouch {ctx n : Nat} {addr : Word} (h : Canon s) : Canon (s.gsdTouch ctx n addr) := by
  induction n generalizing s addr with
  | zero => exact h
  | succ n ih =>
    refine ih ?_
    split
    · exact (h.homeForce.ite h).homeTouch
    · exact h

theorem Canon.gsdWrite {ctx : Nat} {addr : Word} {bs : List Byte} (h : Canon s) :
    Leaves (fun _ => True) Canon (s.gsdWrite ctx addr bs) := by
  unfold State.gsdWrite
  split
  · exact .error trivial
  · exact .ok h.homePut

theorem Canon.ringPut {b : EventBytes} (h : Canon s) : Canon (s.ringPut b) :=
  ⟨h.1, Memory.wf_writeN _ _ h.2⟩

theorem Canon.flushKept {l : List EventBytes} (h : Canon s) : Canon (s.flushKept l) := by
  induction l generalizing s with
  | nil => exact h.same
  | cons b bs ih => exact (ih h.ringPut).ite h.same

theorem Canon.postEvent {kind part ctx : Nat} {fields : List (Nat × Nat × Nat)} {rec_ : List Byte} (h : Canon s) :
    Canon (s.postEvent kind part ctx fields rec_) :=
  h.flushKept.ringPut.ite (Canon.ite (Canon.same h.flushKept) (Canon.same h.flushKept))

theorem Canon.markFaulted {queue idx : Nat} (h : Canon s) : Canon (s.markFaulted queue idx) := h.same

theorem Canon.dumpFor {ctx : Nat} {recs : List FaultRec} {cells : List Nat} (h : Canon s) :
    Canon (s.dumpFor ctx recs cells).2.1 := by
  unfold State.dumpFor
  extract_lets joined armed
  have hj : Canon joined := h.same
  clear_value joined armed
  split
  · exact hj
  · split
    · exact h
    · split
      · exact h.same
      · split
        · exact h.same
        · split <;> exact h.same

theorem Canon.prologueFault {node : Nat} {t : Cause} (h : Canon s) : Canon (s.prologueFault node t) := by
  unfold State.prologueFault
  split
  · exact h
  · exact h.ite (Canon.postEvent (Canon.modNode (Canon.dumpFor (Canon.markFaulted h.same))))

theorem Canon.condemn {ctx : Nat} {r : FaultRec} (h : Canon s) : Canon (s.condemn ctx r) := h.same

theorem Canon.cellCondemn {key : Nat} {r : Raise} (h : Canon s) : Canon (s.cellCondemn key r) := h.same

theorem Canon.deliver {r : Raise} (h : Canon s) : Canon (s.deliver r) := by
  unfold State.deliver
  split
  · exact h.setCell
  · refine Canon.ite ?_ h.prologueFault
    split
    · exact Canon.condemn h.same
    · exact h

theorem Canon.pageFault {q : FaultReq} {t : Cause} {chip cell node queue : Nat} (h : Canon s) :
    Canon (s.pageFault q t chip cell node queue) :=
  h.postEvent

theorem Canon.askPage {q : FaultReq} {t : Cause} {chip cell node queue : Nat} (h : Canon s) :
    Canon (s.askPage q t chip cell node queue) :=
  h.ite (Canon.ite h.same (Canon.pageFault h.same))

theorem Canon.modEng {f : Eng → Eng} (h : Canon s) : Canon (s.modEng f) := h.setCore

theorem Canon.retire {h : Hdr} {wide : Bool} {n : Next} (h1 : Canon s) : Canon (s.retire h wide n) := by
  unfold State.retire
  split
  · refine Canon.ite ?_ h1.setCore
    split
    · exact h1.setCore
    · exact h1.setCore
  · exact h1.setCore

theorem Canon.settle {s0 : State} {hd : Hdr} {wide : Bool} {x : M (State × Next)} (h : Canon s0)
    (hx : Lands (fun r => Canon r.1) x) : Canon (s0.settle hd wide x) := by
  cases hx with
  | ok hs => exact Canon.retire hs
  | error he =>
    unfold State.settle
    split
    · contradiction
    · exact h.modEng
    · cases ‹Except.error _ = _›
      exact Canon.modEng he
    · exact ((h.startFetch.ite h).hold).modEng
    · exact h.modEng
    · exact h.askPage.modEng
    · cases ‹Except.error _ = _›
      have ht := h.getD he
      exact (ht.modEng.ite ht).deliver

theorem Canon.runCell {hd : Hdr} {wide : Bool} {body : State → M (State × Next)} (h : Canon s)
    (hb : ∀ s, Canon s → Lands (fun r => Canon r.1) (body s)) : Canon (s.runCell hd wide body) := by
  unfold State.runCell
  refine h.ite (h.modEng.ite ?_)
  split
  · exact .ite (Canon.deliver h.same) h
  · exact (h.settle (hb _ h)).ite (h.modEng.ite (h.modEng.ite (h.settle (hb _ h.modEng))))

theorem Canon.runPrologue {hd : Hdr} {wide allowed : Bool} {body : State → M (State × Next)} (h : Canon s)
    (hb : ∀ s, Canon s → Lands (fun r => Canon r.1) (body s)) : Canon (s.runPrologue hd wide allowed body) := by
  unfold State.runPrologue
  split
  · split
    · exact h
    · refine h.deliver.ite (h.deliver.ite (h.deliver.ite ?_))
      split
      · exact .ite (Canon.deliver h.same) h
      · refine h.settle ?_
        have hs := hb s h
        revert hs
        generalize body s = r
        rintro (ht | he)
        · exact .ok (Canon.same ht)
        · exact .error he
  · exact h

theorem Canon.runWord {hd : Hdr} {wide onPrologue : Bool} {body : State → M (State × Next)} (h : Canon s)
    (hb : ∀ s, Canon s → Lands (fun r => Canon r.1) (body s)) : Answers (runWord hd wide onPrologue body s) := by
  unfold Machine.runWord
  split
  · split
    · exact .next (h.runCell hb)
    · exact .fault
  · split
    · exact .next (h.runPrologue hb)
    · exact .fault

theorem Canon.event (h : Canon s) : Answers (event s) := .next h

theorem lands_seqM {r : M State} (h : Lands Canon r) : Lands (fun r => Canon r.1) (seqM r) := h.bind fun _ h1 => .ok h1

theorem lands_notInHandler : Lands (fun _ => True) (notInHandler s) := .ite lands_raise (.ok trivial)

theorem Canon.performOut {key : Nat} (h : Canon s) : Canon (s.performOut key) := h.flushNow

theorem Canon.drainLine {key part line : Nat} (h : Canon s) : Canon (s.drainLine key part line) := by
  unfold State.drainLine
  dsimp only
  split
  · exact h.l1Evict.of_ok ‹_›
  · exact h.cellCondemn
  · split
    · exact h.performOut.l1Evict.of_ok ‹_›
    · exact h.performOut.cellCondemn
    · exact h.performOut

theorem Canon.drainCell {key part : Nat} (h : Canon s) : Canon (s.drainCell key part) :=
  (h.foldl fun _ _ h1 => h1.drainLine).performOut

theorem Canon.withdraw {key : Nat} (h : Canon s) : Canon (s.withdraw key) := h.same

theorem Canon.freeCell {key : Nat} (h : Canon s) : Canon (s.freeCell key) := h.same

theorem Canon.stopNode {n : Nat} (h : Canon s) : Canon (s.stopNode n) := by
  unfold State.stopNode
  split
  · exact ((((((h.foldl fun _ _ h1 => h1.drainCell.withdraw).dumpFor).foldl fun _ _ h1 =>
      h1.setCell).ite (((h.foldl fun _ _ h1 => h1.drainCell.withdraw).dumpFor).foldl fun _ _ h1 =>
      h1.freeCell)).markFaulted).modNode).postEvent
  · exact h

theorem Canon.giveFrames {part : Nat} {fs : List Nat} (h : Canon s) : Canon (s.giveFrames part fs) :=
  ⟨Memory.wf_fold fs h.1 fun _ _ hm => Memory.wf_clearRange _ _ hm, h.2⟩

theorem Canon.tagFrames {fs : List Nat} {t : BitVec 4} (h : Canon s) : Canon (s.tagFrames fs t) := h.same

theorem Canon.releaseFrames {fs : List Nat} (h : Canon s) : Canon (s.releaseFrames fs) := h.same

theorem Canon.returnFrames {fs : List Nat} {t : BitVec 4} (h : Canon s) : Canon (s.returnFrames fs t) := h.same

theorem Canon.modPart {p : Nat} {f : Part → Part} (h : Canon s) : Canon (s.modPart p f) := h.same

theorem Canon.useQuota {p n : Nat} (h : Canon s) : Canon (s.useQuota p n) := h.same

theorem Canon.freeQuota {p n : Nat} (h : Canon s) : Canon (s.freeQuota p n) := h.same

theorem Canon.putPte {at_ v : Nat} (h : Canon s) : Canon (s.putPte at_ v) :=
  ⟨Memory.wf_writeN _ _ h.1, h.2⟩

theorem Canon.ptWrite {part va v table : Nat} {path : List (Nat × Nat)} (h : Canon s) :
    Canon (s.ptWrite part va v table path) := by
  induction path generalizing s table with
  | nil => exact h
  | cons e rest ih =>
    obtain ⟨lo, n⟩ := e
    cases rest with
    | nil => exact (h.releaseFrames.ite h).putPte
    | cons e' rest' =>
      unfold State.ptWrite
      refine (ih h).ite (h.ite ?_)
      split
      · have hg {f : Nat} : Canon ((s.giveFrames part [f]).tagFrames [f] 0) := h.giveFrames.tagFrames
        exact ih (Canon.putPte ((hg.withMem (Memory.wf_foldl _ (fun _ => 2) _ hg.1)).ite hg))
      · exact h

theorem Canon.setPage {ctx va size v : Nat} (h : Canon s) : Canon (s.setPage ctx va size v) := by
  unfold State.setPage
  split
  · exact h.ptWrite
  · exact h

theorem Canon.tlbInv {chips : List Nat} {ctx va len : Nat} (h : Canon s) : Canon (s.tlbInv chips ctx va len) := h.same

theorem Canon.modBuf {id : Nat} {f : Buffer → Buffer} (h : Canon s) : Canon (s.modBuf id f) := h.same

theorem Canon.endBufMoves {id : Nat} (h : Canon s) : Canon (s.endBufMoves id) := by
  unfold State.endBufMoves
  split
  · exact h.foldl fun _ _ h1 => h1.endMove.ite h1
  · exact h

theorem Canon.freeBuffer {id : Nat} (h : Canon s) : Canon (s.freeBuffer id) := by
  unfold State.freeBuffer
  split
  · exact h
  · refine h.modBuf.ite ?_
    extract_lets +onlyGivenNames part pages mapped s1 s2 frames held s3 s4
    have h1 : Canon s1 := h.foldl fun _ _ h => h.setPage
    have h3 : Canon s3 := (h1.tlbInv : Canon s2).same
    have h4 : Canon s4 := h3.returnFrames.freeQuota
    exact h4.modBuf

theorem Canon.lateFree {id : Nat} (h : Canon s) : Canon (s.lateFree id) := by
  unfold State.lateFree
  split
  · exact h.freeBuffer.ite h
  · exact h

theorem Canon.lateFrees (h : Canon s) : Canon s.lateFrees := h.foldl fun _ _ h1 => h1.lateFree

theorem Canon.dropRef {id : Nat} (h : Canon s) : Canon (s.dropRef id) := by
  unfold State.dropRef
  split
  · exact h
  · exact h.modBuf.freeBuffer.ite h.modBuf

theorem Canon.addRef {id : Nat} (h : Canon s) : Canon (s.addRef id) := h.ite h.modBuf

theorem Canon.freeHeld {p : Ident → Bool} (h : Canon s) :
    Canon (s.freeHeld p) := Canon.foldl h.same fun _ _ h1 => h1.freeBuffer

theorem Canon.dropKept {node flatC flatD rinst : Nat} (h : Canon s) : Canon (s.dropKept node flatC flatD rinst) :=
  Canon.freeHeld (Canon.foldl h.same fun _ _ h1 => h1.freeBuffer.ite h1)

theorem Canon.createBuffer {ctx len : Nat} {double tiled pageable reassoc : Bool} {format : Nat} {w : Bool} (h : Canon s) :
    Gives (fun r => Canon r.2) (s.createBuffer ctx len double tiled pageable reassoc format w) := by
  unfold State.createBuffer
  dsimp only
  split
  · split
    · split
      · exact .none
      · split
        · exact .none
        · exact Gives.ite (.some (Canon.same (h.giveFrames.tagFrames.useQuota.foldl fun _ _ h1 => h1.setPage))) .none
    · split
      · exact .none
      · split
        · exact .none
        · exact Gives.ite (.some (Canon.same (h.giveFrames.tagFrames.useQuota.foldl fun _ _ h1 => h1.setPage))) .none
  · exact .none

theorem Canon.fillBuffer {id off : Nat} {bs : List Byte} (h : Canon s) : Canon (s.fillBuffer id off bs) := by
  unfold State.fillBuffer
  split
  · exact ⟨Memory.wf_foldl _ _ _ h.1, h.2⟩
  · exact h

theorem Canon.publishBuffer {id : Nat} (h : Canon s) : Canon (s.publishBuffer id) := by
  unfold State.publishBuffer
  split
  · exact (h.modBuf.foldl fun _ _ h1 => h1.setPage).tlbInv
  · exact h

theorem Canon.noteExchange {id chip : Nat} {publisher : Option Nat} (h : Canon s) :
    Canon (s.noteExchange id chip publisher) :=
  h.same

theorem Canon.hostWrite {a : Nat} {bs : List Byte} (h : Canon s) : Canon (s.hostWrite a bs) :=
  ⟨h.1, Memory.wf_writeN _ _ h.2⟩

theorem Canon.cmdDone {c : Cmd} {status result : Nat} (h : Canon s) : Canon (s.cmdDone c status result) := by
  unfold State.cmdDone
  cases c.i3c with
  | true => exact h.same
  | false => exact ⟨h.1, Memory.wf_writeN _ _ (Memory.wf_writeN _ _ h.2)⟩

theorem Canon.modQueue {q : Nat} {f : Queue → Queue} (h : Canon s) : Canon (s.modQueue q f) := h.same

theorem Canon.faultQueue {q idx : Nat} {code : BitVec 8} (h : Canon s) : Canon (s.faultQueue q idx code) := h.same

theorem Canon.condemnAt {ctx queue idx : Nat} {addr : Word} {n : Nat} (h : Canon s) :
    Canon (s.condemnAt ctx queue idx addr n) :=
  h.same

theorem Canon.gsdFault {node queue pkt ctx : Nat} {code : BitVec 8} {addr : optParam Word 0}
    {tags : optParam (Option (BitVec 4 × BitVec 4)) none} (h : Canon s) :
    Canon (s.gsdFault node queue pkt ctx code addr tags) :=
  h.dumpFor.postEvent

theorem Canon.queueFault {q idx : Nat} {code : BitVec 8} {addr : optParam Word 0}
    {tags : optParam (Option (BitVec 4 × BitVec 4)) none} (h : Canon s) :
    Canon (s.queueFault q idx code addr tags) :=
  h.faultQueue.gsdFault

theorem Canon.ringFault {q idx ctx : Nat} {addr : Word} {code : BitVec 8} (h : Canon s) :
    Canon (s.ringFault q idx ctx addr code) :=
  h.queueFault.ite h.same

theorem Canon.lateFaultTurn (h : Canon s) : Canon s.lateFaultTurn := Canon.foldl h.same fun _ _ h1 => h1.ringFault

theorem Canon.putStatus {o : Open} {status : Nat} (h : Canon s) : Canon (s.putStatus o status) := by
  unfold State.putStatus
  refine h.hostWrite.ite ?_
  split
  · exact h.gsdWrite.of_ok ‹_›
  · exact h.condemnAt.ite h.ringFault

theorem Canon.putSignal {sig : Nat} {v : Word} (h : Canon s) : Canon (s.putSignal sig v) := h.ite h.same

theorem Canon.packetDone {o : Open} {status : Nat} (h : Canon s) : Canon (s.packetDone o status) :=
  Canon.ite (Canon.same (Canon.ite (Canon.putSignal (Canon.putStatus h.same)) (Canon.putStatus h.same)))
    (Canon.ite (Canon.putSignal (Canon.putStatus h.same)) (Canon.putStatus h.same))

theorem Canon.endWaits {qs : List Nat} (h : Canon s) : Canon (s.endWaits qs) := h.same

theorem Canon.settleList {fuel : Nat} {due : List Open} (h : Canon s) : Canon (State.settleList fuel due s) := by
  induction fuel generalizing due s with
  | zero => exact h
  | succ fuel ih =>
    unfold State.settleList
    dsimp only
    split
    · exact h.endWaits
    · exact ih h.endWaits.packetDone

theorem Canon.settleWaits {fuel : Nat} (h : Canon s) : Canon (State.settleWaits fuel s) := h.settleList

theorem Canon.complete {o : Open} {status : Nat} (h : Canon s) : Canon (s.complete o status) := h.packetDone.settleWaits

theorem Canon.changeSignal {sig : Nat} {v : Word} (h : Canon s) : Canon (s.changeSignal sig v) := h.putSignal.settleWaits

theorem Canon.plainFault {node : Nat} {code : BitVec 8} (h : Canon s) : Canon (s.plainFault node code) := by
  unfold State.plainFault
  split
  · exact h
  · exact h.ite h.markFaulted.modNode.gsdFault

theorem Canon.takeIn {p : Pkt} {left : Nat} (h : Canon s) : Canon (s.takeIn p left) := h.same

theorem Canon.admitDone {p : Pkt} {status : Nat} (h : Canon s) : Canon (s.admitDone p status) := h.takeIn.complete

theorem Canon.packet {p : Pkt} {f : State → State} (h : Canon s) (h1 : ∀ s, Canon s → Canon (f s)) : Canon (s.packet p f) :=
  h.ite (h.ite (h.admitDone.ite (h1 _ h)))

theorem Canon.haltNode {n : Nat} (h : Canon s) : Canon (s.haltNode n) := h.same

theorem Canon.releasePreempts {n : Nat} (h : Canon s) : Canon (s.releasePreempts n) := by
  unfold State.releasePreempts
  split
  · exact h
  · exact h.modNode.foldl fun _ _ h1 => h1.ite h1.cmdDone

theorem Canon.haltDone {n : Nat} (h : Canon s) : Canon (s.haltDone n) := by
  unfold State.haltDone
  split
  · exact h
  · exact (((h.foldl fun _ _ h1 => h1.drainCell.withdraw).foldl fun _ _ h1 => h1.freeCell).modNode).releasePreempts

theorem Canon.discardNode {n : Nat} (h : Canon s) : Canon (s.discardNode n) := by
  unfold State.discardNode
  split
  · exact h.haltNode.haltDone.ite h
  · exact h

theorem Canon.arrive {n : Nat} {st : NodeState} (h : Canon s) : Canon (s.arrive n st) := h.same

theorem Canon.nodeReady {n : Nat} (h : Canon s) : Canon (s.nodeReady n) := h.arrive.ite h.modNode

theorem Canon.fillSlot {n slot : Nat} {c : Cap} (h : Canon s) : Canon (s.fillSlot n slot c) := h.addRef.modNode

theorem Canon.placeLcaps {n : Nat} {d : Node} (h : Canon s) : Leaves (fun _ => True) Canon (s.placeLcaps n d) := by
  unfold State.placeLcaps
  refine Leaves.foldlM h fun _ _ h1 => ?_
  split
  · exact .error trivial
  · exact .ok ((h1.ite h1.dropRef).fillSlot)

theorem Canon.prologueEnd {n : Nat} {k : PendKind} (h : Canon s) : Canon (s.prologueEnd n k) := by
  unfold State.prologueEnd
  dsimp only
  split
  · exact h
  · split
    · exact Canon.modNode (Canon.arrive h.same)
    · split
      · exact h.prologueFault
      · rename_i s1 heq
        have h1 : Canon s1 := (Canon.placeLcaps (s := { s with prols := FMap.erase s.prols n }) h.same).of_ok heq
        exact h1.modNode

theorem Canon.transfer {n : Nat} {x : Xfer} {mode : Nat} (h : Canon s) : Canon (s.transfer n x mode) := by
  unfold State.transfer
  refine h.ite ?_
  dsimp only
  split
  · exact h.modNode
  · exact h.modNode.ite (h.modNode.ite (h.modNode.modNode.addRef.ite h.modNode.modNode.modNode))

theorem Canon.settleSlots {n : Nat} (h : Canon s) : Canon (s.settleSlots n) := by
  unfold State.settleSlots
  split
  · exact h
  · exact (((h.foldl fun _ _ h1 => h1.transfer).foldl fun _ _ h1 => h1.transfer).foldl fun _ _ h1 => h1.dropRef).modNode

theorem Canon.lessOne {queue idx : Nat} (h : Canon s) : Canon (s.lessOne queue idx) := by
  unfold State.lessOne
  dsimp only
  split
  · exact Canon.complete h.same
  · exact h.same

theorem Canon.retireNode {n : Nat} (h : Canon s) : Canon (s.retireNode n) := by
  unfold State.retireNode
  split
  · exact h
  · extract_lets +onlyGivenNames s1 again
    have h1 : Canon s1 := h.settleSlots
    refine h1.ite ?_
    clear_value again
    split
    · exact h1.arrive.modNode
    · extract_lets +onlyGivenNames s2 s3 s4
      have h2 : Canon s2 := h1.releasePreempts
      have h3 : Canon s3 := h2.foldl fun s _ h => by
        dsimp only
        split
        · exact h.modNode.nodeReady.ite h.modNode
        · exact h.modNode
      have h4 : Canon s4 := Canon.ite h3.same h3
      exact Canon.lessOne (Canon.same h4)

theorem Canon.dropClass {n : Nat} {o : CodeObj} {shape : Bool} (h : Canon s) : Canon (s.dropClass n o shape) := by
  unfold State.dropClass
  split
  · exact h
  · split
    · exact h.modNode
    · exact h.plainFault

theorem Canon.chooseClass {fuel : Nat} {n : Nat} (h : Canon s) : Canon (State.chooseClass fuel s n) := by
  induction fuel generalizing s with
  | zero => exact h
  | succ fuel ih =>
    unfold State.chooseClass
    split
    · split
      · refine Canon.ite ?_ h
        split
        · exact (ih h.dropClass).ite h.plainFault
        · exact h
      · exact h
    · exact h

theorem Canon.fillSlots {n : Nat} {o : CodeObj} (h : Canon s) : Canon (s.fillSlots n o) := by
  unfold State.fillSlots
  refine h.foldl fun _ _ h1 => ?_
  dsimp only
  split
  · split
    · exact h1.fillSlot
    · exact h1
  · exact h1

theorem Canon.placeOn {n : Nat} {d : Node} {o : CodeObj} {cells : List (Nat × Nat × Nat)} (h : Canon s) :
    Canon (s.placeOn n d o cells) :=
  Canon.modNode (Canon.ite (Canon.arrive (Canon.same (Canon.foldl (Canon.ite (Canon.fillSlots (h.foldl fun _ _ h1 =>
    Canon.acquire (Canon.setCell h1.same))) (h.foldl fun _ _ h1 => Canon.acquire (Canon.setCell h1.same))) fun _ _ h1 =>
    h1.modNode))) (Canon.modNode (Canon.same (Canon.foldl (Canon.ite (Canon.fillSlots (h.foldl fun _ _ h1 =>
    Canon.acquire (Canon.setCell h1.same))) (h.foldl fun _ _ h1 => Canon.acquire (Canon.setCell h1.same))) fun _ _ h1 =>
    h1.modNode))))

theorem Canon.tryPlace {part n : Nat} {late : List Nat} {gone : Option Nat} (h : Canon s) :
    Canon (s.tryPlace part n late gone) := by
  unfold State.tryPlace
  dsimp only
  split
  · exact h.chooseClass
  · split
    · refine h.chooseClass.ite (h.chooseClass.placeOn.ite (h.chooseClass.ite ?_))
      split
      · exact h.chooseClass.placeOn
      · exact h.chooseClass
    · exact h.chooseClass

theorem Canon.placeBut {part : Nat} {gone : Option Nat} (h : Canon s) : Canon (s.placeBut part gone) :=
  h.draw.foldl fun _ _ h1 => h1.tryPlace

theorem Canon.placeAll {part : Nat} (h : Canon s) : Canon (s.placeAll part) := h.placeBut

end

end Sys2Proof.Machine
end

