-- ==== Sys2Proof/Proofs/CanonicalControl.lean ====
section
/-! SUPPORT. Control words, tracing and service words keep the canonical form (log entry 3). -/
namespace Sys2Proof.Machine

section
variable {s : State}

theorem Canon.pushBq {x : BqEnt} (h : Canon s) : Lands Canon (s.pushBq x) :=
  .ite (.ok h.setCore) (.ite lands_blocked (.ok h.setCore))

theorem lands_headBq : Lands (fun _ => True) s.headBq := by
  unfold State.headBq
  split
  · exact lands_blocked
  · exact .ok trivial

theorem Canon.popBq {ok : BqEnt → Bool} (h : Canon s) : Lands (fun r => Canon r.2) (s.popBq ok) :=
  lands_headBq.bind fun _ _ => .ite (.ok h.modEng) (.error .none)

theorem Canon.exchange {kind : BqKind} {prod : Bool} {value : State → M Word} (h : Canon s)
    (h1 : ∀ s, Canon s → Lands (fun _ => True) (value s)) :
    Lands (fun r => Canon r.2) (s.exchange kind prod value) :=
  .ite (.ite lands_raise ((h1 _ h).bind fun _ _ => .ok h)) (.ite ((h1 _ h).bind fun _ _ => h.pushBq.bind fun _ h3 =>
    .ok h3) h.popBq)

theorem Canon.outcome {f : Br} (h : Canon s) : Lands (fun r => Canon r.2) (s.outcome f) :=
  (h.exchange fun _ _ => lands_readReg.bind fun _ _ => .ok trivial).bind fun _ h1 => .ok h1

theorem Canon.target {f : Br} (h : Canon s) : Lands (fun r => Canon r.2) (s.target f) :=
  (h.exchange fun _ _ => lands_readReg.bind fun _ _ => .ite lands_raise (.ok trivial)).bind fun _ h1 => .ok h1

theorem lands_raiseAtC {α : Type} {P : α → Prop} {code : BitVec 8} : Lands P (s.raiseAtC code) := by
  unfold State.raiseAtC
  exact .ite lands_raise lands_blocked

theorem Canon.execBr {f : Br} (h : Canon s) : Answers (execBr f s) :=
  h.runWord fun _ h1 => .ite (.ok h1) (h1.outcome.bind fun _ h2 => .ok h2)

theorem Canon.execJmpi {f : Br} (h : Canon s) : Answers (execJmpi f s) :=
  h.runWord fun _ h1 => h1.target.bind fun _ h2 => .ok h2

theorem Canon.pushRet {wide : Bool} (h : Canon s) : Lands Canon (s.pushRet wide) := .ite lands_raiseAtC (.ok h.modEng)

theorem Canon.execCall {f : Br} (h : Canon s) : Answers (execCall f s) :=
  h.runWord fun _ h1 => h1.pushRet.bind fun _ h2 => .ok h2

theorem Canon.execCalli {f : Br} (h : Canon s) : Answers (execCalli f s) :=
  h.runWord fun _ h1 => h1.pushRet.bind fun _ h2 => h2.target.bind fun _ h3 => .ok h3

theorem Canon.execRet {f : Br} (h : Canon s) : Answers (execRet f s) := by
  unfold Machine.execRet
  refine h.runWord fun _ h1 => ?_
  split
  · exact lands_raiseAtC
  · exact .ok h1.modEng

theorem Canon.execLoop {f : Lp} (h : Canon s) : Answers (execLoop f s) :=
  h.runWord fun _ h1 => lands_readLc.bind fun _ _ => .ite (.ok h1) (.ite lands_raiseAtC (.ok
    (h1.modEng.setCore.ite h1.modEng)))

theorem Canon.popLoop (h : Canon s) : Canon s.popLoop := by
  unfold State.popLoop
  dsimp only
  split
  · exact h
  · exact h.setCore

theorem Canon.execBreak {f : Br} (h : Canon s) : Answers (execBreak f s) := by
  unfold Machine.execBreak
  refine h.runWord fun _ h1 => ?_
  split
  · exact lands_raiseAtC
  · split
    · exact .ok h1.popLoop
    · refine h1.outcome.bind fun _ h2 => .ok ?_
      split
      · exact h2.popLoop
      · exact h2

theorem Canon.execOut {f : Rrr} (h : Canon s) : Answers (execOut f s) :=
  h.runWord fun _ h1 => lands_seqM (lands_notInHandler.bind fun _ _ => h1.src.bind fun _ h3 => h3.pushBq)

theorem Canon.execFollow {f : Br} (h : Canon s) : Answers (execFollow f s) :=
  h.runWord fun _ h1 => lands_notInHandler.bind fun _ _ => h1.popBq.bind fun _ h3 => .ok h3

theorem Canon.releaseOthers {wide : Bool} (h : Canon s) : Canon (s.releaseOthers wide) :=
  h.foldl fun _ _ h1 => h1.ite h1.setCore

theorem Canon.execRegion {f : Rrr} (h : Canon s) : Answers (execRegion f s) := by
  unfold Machine.execRegion
  refine h.runWord fun _ h1 => lands_notInHandler.bind fun _ h2 => ?_
  dsimp only
  split
  · exact .error (.wait h1)
  · split
    · exact .error (.wait h1)
    · split
      · exact lands_raise
      · exact .ok ((h1.setCore.setCore.ite h1.setCore.dropKept.setCore).releaseOthers)

theorem Canon.fence {async : Bool} {f : Rrr} (h : Canon s) : Answers (fence async f s) :=
  h.runWord fun _ h1 => lands_notInHandler.bind fun _ _ => .ite (.error (.wait h1)) (.ite (.error (.wait h1))
    (.ok h1.releaseOthers))

theorem Canon.execEnd {f : Rrr} (h : Canon s) : Answers (execEnd f s) := by
  unfold Machine.execEnd
  refine h.runWord fun _ h1 => ?_
  split
  · exact .ok h1.prologueEnd
  · exact lands_notInHandler.bind fun _ _ => .ok h1.setCore.modEng

theorem Canon.execNop {f : Rrr} (h : Canon s) : Answers (execNop f s) := h.runWord fun _ h1 => .ok h1

theorem Canon.placePut {chip : Nat} {p : Place} {bs : List Byte} (h : Canon s) : Canon (s.placePut chip p bs) := by
  unfold State.placePut
  split
  · exact h.setCell
  · exact h.homePut.refresh

theorem Canon.tracePut {key : Nat} {p : Place} {bs : List Byte} (h : Canon s) : Canon (s.tracePut key p bs) := by
  unfold State.tracePut
  split
  · exact h.placePut
  · split
    · exact h.storeLine.of_ok ‹_›
    · exact h.placePut

theorem Canon.traceDrop {key : Nat} (h : Canon s) : Canon (s.traceDrop key) := h.same

theorem Canon.traceTurn {key : Nat} {h : Place} (h1 : Canon s) : Lands Canon (s.traceTurn key h) := by
  unfold State.traceTurn
  split
  · exact .ok h1
  · exact h1.flushLine.bind fun _ h => h.homeTurn.bind fun _ h2 => lands_eccCheck.bind fun _ _ => h2.warm

theorem Canon.traceWrite {key : Nat} {base : Word} {stall : Bool} {recTick : Nat} {rec_ : List Byte} (h : Canon s) :
    Canon (s.traceWrite key base stall recTick rec_).2 := by
  unfold State.traceWrite
  dsimp only
  split
  · exact h.traceDrop
  · rename_i r s2 heq
    have h1 : Canon (r, s2).2 := h.access.of_ok heq
    split
    · exact h
    · exact h1.traceDrop.cellCondemn
    · exact h
    · rename_i s1 heq1
      have h2 : Canon s1 := h1.traceTurn.of_ok heq1
      split
      · exact h2.traceDrop
      · split
        · split
          · exact h2.traceDrop
          · rename_i r1 s21 heq2
            have h3 : Canon (r1, s21).2 := h2.access.of_ok heq2
            exact h3.placePut.tracePut
        · split
          · exact h
          · exact h2.placePut.placePut.ite h2.placePut

theorem Canon.traceHold {id i : Nat} {w : Waiter} {fetch : Bool} (h : Canon s) : Canon (s.traceHold id i w fetch) :=
  (h.startFetch.ite h).hold

theorem Canon.produceStamps {key : Nat} (h : Canon s) : Canon (s.produceStamps key) := by
  unfold State.produceStamps
  refine h.foldl fun _ _ h1 => ?_
  split
  · exact h1
  · split
    · exact h1
    · exact h1.traceHold
    · rename_i t _ _ heq
      have h2 : Canon t := h1.withActor.traceWrite.of_snd heq
      exact Canon.setCell h2.same

theorem lands_afterTakers {e : EngTag} {p : Instr → Bool} : Lands (fun _ => True) (s.afterTakers e p) :=
  .ite lands_blocked (.ok trivial)

theorem Canon.writeVrot {w : Word} (h : Canon s) : Lands Canon (s.writeVrot w) :=
  .ite lands_raise (.ite (.ok h.setCore) (.ite (.ok h.setCore) (.ok h.setCore)))

theorem Canon.csrWrite {n : Nat} {w : Word} (h : Canon s) : Lands Canon (s.csrWrite n w) :=
  .ite (.ok h.setCore) (.ite (.ok h.setCore) (.ite (.ok h.setCore) (.ite (.ok h.setCore) (.ite (.ok h.setCore)
    (.ite h.writeVrot (.ite (.ok h.setCore) (.ite (.ok h.setCore) (.ite (.ok h.setCore) (.ite (.ok h.setCore) (.ite
    (.ok h.setCore) (.ok h)))))))))))

theorem Canon.writeLthb {node : Nat} {w : Word} (h : Canon s) : Lands Canon (s.writeLthb node w) := by
  unfold State.writeLthb
  split
  · split
    · exact .ite (.ok h) (.ite (.error .none) (.ok h.fillBuffer))
    · exact .ok h
  · exact .ok h

theorem Canon.launchWrite {node n : Nat} {w : Word} (h : Canon s) : Lands Canon (s.launchWrite node n w) :=
  .ite (.ok h.modNode) (.ite (.ok h.modNode) (.ite (.ok h.same) (.ite h.writeLthb (.ite (.ok h.modNode) (.ok h)))))

theorem lands_csrOld {n : Nat} : Lands (fun _ => True) (s.csrOld n) := by
  unfold State.csrOld
  split
  · exact .ok trivial
  · exact .ite (.ok trivial) lands_raise

theorem Canon.csrForm {onPrologue : Bool} {f : Ri} {fn : Word → Word → Word} (h : Canon s) :
    Answers (csrForm onPrologue f fn s) := by
  unfold Machine.csrForm
  dsimp only
  refine h.runWord fun _ h1 => lands_seqM ?_
  split
  · refine lands_afterTakers.bind fun _ h2 => h1.src.bind fun _ h3 => lands_csrOld.bind fun _ h4 => ?_
    split
    · exact h3.csrWrite.bind fun _ h5 => h5.dst
    · exact h3.launchWrite.bind fun _ h5 => h5.dst
  · refine h1.src.bind fun _ h2 => lands_csrOld.bind fun _ h3 => ?_
    split
    · exact h2.csrWrite.bind fun _ h4 => h4.dst
    · exact h2.launchWrite.bind fun _ h4 => h4.dst

theorem Canon.execCsrr {f : Ri} (h : Canon s) : Answers (execCsrr f s) :=
  h.runWord fun _ h1 => lands_seqM (lands_csrOld.bind fun _ _ => h1.dst)

theorem Canon.execTrap {f : Ri} (h : Canon s) : Answers (execTrap f s) :=
  h.runWord fun _ h1 => h1.src.bind fun _ _ => lands_raiseAt

theorem Canon.execBkpt {f : Ri} (h : Canon s) : Answers (execBkpt f s) := h.runWord fun _ _ => lands_raiseAt

theorem Canon.execEret {f : Ri} (h : Canon s) : Answers (execEret f s) := by
  unfold Machine.execEret
  refine h.runWord fun _ h1 => ?_
  split
  · exact lands_raise
  · exact .ok h1.setCore

theorem Canon.execTick {f : Rrr} (h : Canon s) : Answers (execTick f s) := h.runWord fun _ h1 => lands_seqM h1.dst

theorem Canon.heldOperand {code : BitVec 8} {lit : Word} (h : Canon s) :
    Lands (fun r => Canon r.2) (s.heldOperand code lit) := by
  unfold State.heldOperand
  split
  · exact .ok h
  · exact h.src.bind fun _ h1 => .ok h1.modEng

theorem Canon.execWaittick {f : Rrr} (h : Canon s) : Answers (execWaittick f s) :=
  h.runWord fun _ h1 => h1.heldOperand.bind fun _ h2 => .ite (.ok h2) (.error (.wait h2))

theorem Canon.haltEvent {key pc : Nat} (h : Canon s) : Canon (s.haltEvent key pc) := h.postEvent

theorem Canon.haltReports (h : Canon s) : Canon s.haltReports := by
  unfold State.haltReports
  refine h.foldl fun _ _ h1 => ?_
  split
  · exact h1.setCell.haltEvent.ite h1
  · exact h1

theorem Canon.execHalt {f : Rrr} (h : Canon s) : Answers (execHalt f s) := h.runWord fun _ h1 => .ok h1.setCore

theorem Canon.mapCells {sel : Nat → Bool} {f : Cell → Cell} (h : Canon s) : Canon (s.mapCells sel f) := h.same

theorem Canon.execIcinv {f : Rrr} (h : Canon s) : Answers (execIcinv f s) :=
  h.runWord fun _ h1 => lands_seqM (h1.src.bind fun _ h2 => h2.src.bind fun _ h3 => .ok h3.mapCells)

theorem Canon.execTlbinv {f : Rrr} (h : Canon s) : Answers (execTlbinv f s) :=
  h.runWord fun _ h1 => lands_seqM (h1.src.bind fun _ h2 => h2.src.bind fun _ h3 => .ite (.ok h3.mapCells) (.ok h3.tlbInv))

theorem Canon.execWatch {f : Ri} (h : Canon s) : Answers (execWatch f s) := h.runWord fun _ h1 => lands_seqM h1.setCore.dst

theorem Canon.pend {f : Ri} {kind : State → M (PendKind × State)} (h1 : Canon s)
    (h : ∀ s, Canon s → Lands (fun r => Canon r.2) (kind s)) :
    Answers (pend f kind s) := by
  unfold Machine.pend
  refine h1.runWord fun _ h2 => ?_
  split
  · exact lands_raise
  · exact (h _ h2).bind fun _ h3 => .ok h3.prologueEnd

theorem Canon.execPendGo {f : Ri} (h : Canon s) : Answers (execPendGo f s) := h.pend fun _ h1 => .ok h1

theorem Canon.execPendCancel {f : Ri} (h : Canon s) : Answers (execPendCancel f s) := h.pend fun _ h1 => .ok h1

theorem Canon.execPendRepeat {f : Ri} (h : Canon s) : Answers (execPendRepeat f s) :=
  h.pend fun _ h1 => h1.src.bind fun _ h2 => .ok h2

theorem Canon.service {f : Ri} {reply : State → Word → Word} (h : Canon s) : Answers (service f reply s) :=
  h.runWord fun _ h1 => lands_seqM (h1.src.bind fun _ h2 => h2.dst)

theorem Canon.execMark {f : Ri} (h : Canon s) : Answers (execMark f s) := by
  unfold Machine.execMark
  dsimp only
  refine h.runWord fun _ h1 => h1.heldOperand.bind fun _ h2 => ?_
  split
  · exact lands_seqM h2.dst
  · split
    · rename_i s1 heq
      have h3 : Canon s1 := h2.traceWrite.of_snd heq
      exact lands_seqM h3.dst
    · rename_i s1 heq
      have h3 : Canon s1 := h2.traceWrite.of_snd heq
      exact .error (.wait h3)
    · rename_i s1 heq
      have h3 : Canon s1 := h2.traceWrite.of_snd heq
      exact .error (.wait h3.traceHold)
    · rename_i s1 _ _ _ heq
      have h3 : Canon s1 := h2.traceWrite.of_snd heq
      exact lands_seqM h3.dst

end

end Sys2Proof.Machine
end

