-- ==== Sys2Proof/Proofs/CanonicalAccesses.lean ====
section
/-! SUPPORT. Loads, stores, atomics, capabilities, rings and asynchronous jobs keep the canonical form (log entry 3). -/
namespace Sys2Proof.Machine

section
variable {s : State}

theorem lands_spadReady {key k off n : Nat} : Lands (fun _ => True) (s.spadReady key k off n) :=
  .ite lands_blocked (.ite lands_blocked (.ok trivial))

theorem lands_bankReady {key k : Nat} {addr : Word} : Lands (fun _ => True) (s.bankReady key k addr) := by
  unfold State.bankReady
  split
  · exact .ok trivial
  · split
    · exact .ite lands_raiseAt (.ite (.error trivial) (.ok trivial))
    · exact .ite (.error trivial) (.ok trivial)

theorem Canon.flushPeer {key k : Nat} (h : Canon s) : Lands Canon (s.flushPeer key k) := .ite (.ok h) h.flush

theorem lands_orderWatch {α : Type} {P : α → Prop} {r : WatchedRead} {off : Nat} : Lands P (orderWatch r off) := .error .none

theorem Canon.spadLoad {key k off n : Nat} {addr : Word} (h : Canon s) :
    Lands (fun r => Canon r.2) (s.spadLoad key k off n addr) :=
  lands_bankReady.bind fun _ _ => lands_spadReady.bind fun _ _ => h.flushPeer.bind fun _ h3 => .ok (h3.setCell.ite h3)

theorem Canon.spadStore {key k off : Nat} {bs : List Byte} {fill : List Nat} {addr : Word} (h : Canon s) :
    Lands Canon (s.spadStore key k off bs fill addr) := by
  unfold State.spadStore
  dsimp only
  split
  · refine lands_spadReady.bind fun _ h1 => ?_
    split
    · exact lands_blocked
    · split
      · exact lands_orderWatch
      · exact .ok h.setCell
  · exact lands_bankReady.bind fun _ _ => h.postPeer

theorem Canon.putLoaded {d : BitVec 8} {ty : Nat} {bs : List Byte} (h : Canon s) : Lands Canon (s.putLoaded d ty bs) :=
  .ite h.dstPair h.dst

theorem Canon.memAddr {f : Rrr} (h : Canon s) : Lands (fun r => Canon r.2) (s.memAddr f) :=
  h.src.bind fun _ h1 => h1.src.bind fun _ h2 => .ok h2

theorem Canon.prologueLoad {node : Nat} {addr : Word} {n : Nat} {shadow : Bool} (h : Canon s) :
    Lands (fun r => Canon r.2) (s.prologueLoad node addr n shadow) := by
  unfold State.prologueLoad
  dsimp only
  split
  · exact lands_atAddr (h.homeTurn.bind fun _ h1 => lands_eccCheck.bind fun _ _ => .ok h1.homeTouch)
  · split
    · exact .error trivial
    · exact .error .none
    · exact .error .none
    · exact lands_raiseAt

theorem Canon.execLd {f : Rrr} (h : Canon s) : Answers (execLd f s) := by
  unfold Machine.execLd
  dsimp only
  refine h.runWord fun _ h1 => lands_seqM (h1.memAddr.bind fun _ h2 => ?_)
  split
  · exact h2.prologueLoad.bind fun _ h3 => h3.putLoaded
  · refine h2.access.bind fun _ h3 => ?_
    split
    · exact h3.spadLoad.bind fun _ h4 => h4.putLoaded
    · exact (lands_atAddr h3.loadLine).bind fun _ h4 => h4.putLoaded

theorem Canon.execSt {f : Rrr} (h : Canon s) : Answers (execSt f s) := by
  unfold Machine.execSt
  dsimp only
  refine h.runWord fun _ h1 => lands_seqM (h1.dataSrc.bind fun _ h2 => h2.memAddr.bind fun _ h3 => h3.access.bind fun _ h4 =>
    ?_)
  split
  · exact h4.spadStore
  · exact h4.storeLine

theorem Canon.holdAt {key k g : Nat} {full : Bool} (h : Canon s) : Canon (s.holdAt key k g full) := (h.ite h.setCell).modEng

theorem Canon.unhold {key k : Nat} (h : Canon s) : Canon (s.unhold key k) := h.same

theorem Canon.execLds {f : Rrr} (h : Canon s) : Answers (execLds f s) := by
  unfold Machine.execLds
  dsimp only
  refine h.runWord fun _ h1 => lands_seqM (h1.memAddr.bind fun _ h2 => h2.access.bind fun _ h3 => ?_)
  split
  · exact lands_raiseAt
  · exact h3.spadLoad.bind fun _ h4 => .ite (.error (.wait h1.holdAt)) ((((h4.unhold.ite h4).setCell).ite
      (h4.unhold.ite h4)).putLoaded)

theorem Canon.execSts {f : Rrr} (h : Canon s) : Answers (execSts f s) := by
  unfold Machine.execSts
  dsimp only
  refine h.runWord fun _ h1 => lands_seqM (h1.dataSrc.bind fun _ h2 => h2.memAddr.bind fun _ h3 => h3.access.bind fun _ h4 =>
    ?_)
  split
  · exact lands_raiseAt
  · exact .ite (lands_bankReady.bind fun _ _ => h4.flushPeer.bind fun _ h6 =>
      .ite (.error (.wait h1.holdAt)) (.ite h6.unhold.spadStore (.ok h6.unhold.setCell))) h4.spadStore

theorem Canon.lineAtomic {key part loc scope : Nat} {a : AtomOp} {who : Ident} (h : Canon s) :
    Lands (fun r => Canon r.2) (s.lineAtomic key part loc scope a who) := by
  unfold State.lineAtomic
  dsimp only
  split
  · refine h.loadLine.bind fun _ h1 => ?_
    split
    · exact h1.storeLine.bind fun _ h2 => .ok h2
    · exact .ok h1
  · refine h.l1Evict.bind fun _ h1 => ?_
    split
    · refine h1.dieRead.bind fun _ h2 => ?_
      split
      · exact h2.dieWrite.bind fun _ h3 => .ok h3
      · exact .ok h2
    · exact h1.flushLine.bind fun _ h2 => lands_lost.bind fun _ _ => (h2.viewOf.sendAtomic fun _ h4 =>
        .ite h4.homeCombine h4.homeRmw).bind fun _ h4 => .ok h4.refresh

theorem Canon.spadAtomic {key k off : Nat} {a : AtomOp} {addr : Word} (h : Canon s) :
    Lands (fun r => Canon r.2) (s.spadAtomic key k off a addr) := by
  unfold State.spadAtomic
  refine lands_bankReady.bind fun _ h1 => lands_spadReady.bind fun _ h2 => h.flushPeer.bind fun _ h3 => ?_
  dsimp only
  split
  · exact .ok h3.setCell
  · exact .ok h3

theorem Canon.atomic {op : Nat} {pair : Bool} {f : Rrr} (h : Canon s) : Answers (atomic op pair f s) := by
  unfold Machine.atomic
  dsimp only
  refine h.runWord fun _ h1 => lands_seqM (lands_readReg.bind fun _ h2 => ?_)
  split
  · refine lands_readReg.bind fun _ h3 => h1.memAddr.bind fun _ h4 => h4.access.bind fun _ h5 => ?_
    split
    · refine h5.release.bind fun _ h6 => ?_
      split
      · exact h6.spadAtomic.bind fun _ h7 => ((h7.acquire.ite h7).writeReg).bind fun _ h8 => .ite h8.writeReg (.ok h8)
      · exact (lands_atAddr h6.lineAtomic).bind fun _ h7 => ((h7.acquire.ite h7).writeReg).bind fun _ h8 =>
          .ite h8.writeReg (.ok h8)
    · refine Leaves.bind (P := Canon) (.ok h5) fun _ h6 => ?_
      split
      · exact h6.spadAtomic.bind fun _ h7 => ((h7.acquire.ite h7).writeReg).bind fun _ h8 => .ite h8.writeReg (.ok h8)
      · exact (lands_atAddr h6.lineAtomic).bind fun _ h7 => ((h7.acquire.ite h7).writeReg).bind fun _ h8 =>
          .ite h8.writeReg (.ok h8)
  · refine Leaves.bind (P := fun _ => True) (.ok trivial) fun _ h3 => h1.memAddr.bind fun _ h4 =>
    h4.access.bind fun _ h5 => ?_
    split
    · refine h5.release.bind fun _ h6 => ?_
      split
      · exact h6.spadAtomic.bind fun _ h7 => ((h7.acquire.ite h7).writeReg).bind fun _ h8 => .ite h8.writeReg (.ok h8)
      · exact (lands_atAddr h6.lineAtomic).bind fun _ h7 => ((h7.acquire.ite h7).writeReg).bind fun _ h8 =>
          .ite h8.writeReg (.ok h8)
    · refine Leaves.bind (P := Canon) (.ok h5) fun _ h6 => ?_
      split
      · exact h6.spadAtomic.bind fun _ h7 => ((h7.acquire.ite h7).writeReg).bind fun _ h8 => .ite h8.writeReg (.ok h8)
      · exact (lands_atAddr h6.lineAtomic).bind fun _ h7 => ((h7.acquire.ite h7).writeReg).bind fun _ h8 =>
          .ite h8.writeReg (.ok h8)

theorem Canon.execRel {f : Rrr} (h : Canon s) : Answers (execRel f s) := h.runWord fun _ h1 => lands_seqM h1.release

theorem Canon.execAcq {f : Rrr} (h : Canon s) : Answers (execAcq f s) := h.runWord fun _ h1 => .ok h1.acquire

theorem Canon.execPhase {f : Rrr} (h : Canon s) : Answers (execPhase f s) :=
  h.runWord fun _ h1 => lands_seqM (h1.release.bind fun _ h2 => .ok h2.acquire)

theorem Canon.barrier {node : Bool} {f : Rrr} (h : Canon s) : Answers (barrier node f s) := by
  unfold Machine.barrier
  refine h.runWord fun _ h1 => ?_
  split
  · exact Leaves.bind (P := fun r => Canon r.2) (.ok h1) fun _ h2 => .ite (.ok h2.acquire) (.error (.wait h2))
  · exact h1.release.bind fun _ h2 => Leaves.bind (P := fun r => Canon r.2) (.ok h2.setCore.modEng) fun _ h3 =>
      .ite (.ok h3.acquire) (.error (.wait h3))

theorem lands_raiseSlot {α : Type} {P : α → Prop} {code : BitVec 8} {n : Nat} : Lands P (raiseSlot code n) := .error .none

theorem Canon.setSlot {node n : Nat} {c : Cap} (h : Canon s) : Canon (s.setSlot node n c) := h.same

theorem lands_checkSlot {n : Nat} {rights : BitVec 4} : Lands (fun _ => True) (s.checkSlot n rights) := by
  unfold State.checkSlot
  dsimp only
  split
  · exact lands_raiseSlot
  · split
    · exact lands_raiseSlot
    · exact .ok trivial

theorem Canon.keep {n : Nat} {c : Cap} {emptied dropped : Bool} (h : Canon s) : Canon (s.keep n c emptied dropped) :=
  Canon.ite h.same h

theorem Canon.execCapopen {f : Rrr} (h : Canon s) : Answers (execCapopen f s) := by
  unfold Machine.execCapopen
  refine h.runWord fun _ h1 => lands_seqM ?_
  dsimp only
  split
  · refine Leaves.bind (P := fun _ => True) ?_ fun _ _ => h1.dst
    split
    · exact lands_raiseSlot
    · exact .ok trivial
  · exact lands_checkSlot.bind fun _ _ => h1.dst

theorem Canon.execCapgive {f : Rrr} (h : Canon s) : Answers (execCapgive f s) := by
  unfold Machine.execCapgive
  dsimp only
  refine h.runWord fun _ h1 => lands_seqM (h1.src.bind fun _ h2 => ?_)
  split
  · exact .ok h2
  · refine lands_checkSlot.bind fun _ h3 => ?_
    split
    · exact lands_raiseSlot
    · exact .ite lands_raiseSlot (.ok h2.modNode.setSlot.keep)

theorem Canon.execCapdup {f : Rrr} (h : Canon s) : Answers (execCapdup f s) :=
  h.runWord fun _ h1 => lands_seqM (h1.src.bind fun _ h2 => .ite (.ok h2) (lands_checkSlot.bind fun _ _ =>
    .ite lands_raiseSlot (.ite lands_raiseSlot (.ok h2.setSlot.addRef.keep))))

theorem Canon.execCapdrop {f : Rrr} (h : Canon s) : Answers (Machine.execCapdrop f s) := by
  unfold Machine.execCapdrop
  refine h.runWord fun s h => lands_seqM ?_
  refine .ite (.ok h) (lands_checkSlot.bind fun c _ => ?_)
  extract_lets s1 last t
  have h1 : Canon s1 := h.setSlot
  have ht : Canon t := h1.modBuf
  exact .ite (.ok (ht.keep.ite ht.same)) (.ok h1.dropRef.keep)

theorem Canon.execPublish {f : Rrr} (h : Canon s) : Answers (execPublish f s) := by
  unfold Machine.execPublish
  refine h.runWord fun _ h1 => lands_seqM ?_
  split
  · refine h1.release.bind fun _ h2 => ?_
    split
    · split
      · exact .ok h2.tlbInv
      · exact .ok h2
    · exact .ok h2
  · refine lands_checkSlot.bind fun _ h2 => ?_
    split
    · exact .ite lands_raiseSlot (h1.release.bind fun _ h3 => .ok h3.publishBuffer.noteExchange.keep)
    · exact lands_raiseSlot

theorem Canon.watchRing {key : Nat} {addr : Word} {n : Nat} (h : Canon s) : Lands Canon (s.watchRing key addr n) := h.watchAt

theorem Canon.commitRing {key n off : Nat} (h : Canon s) : Canon (s.commitRing key n off) := h.same

theorem lands_ringOf {n : Nat} : Lands (fun _ => True) (s.ringOf n) := .ite lands_raise (.ok trivial)

theorem Canon.execRclaimCfg {f : Rrr} (h : Canon s) : Answers (execRclaimCfg f s) := by
  unfold Machine.execRclaimCfg
  dsimp only
  refine h.runWord fun _ h1 => lands_seqM (h1.src.bind fun _ h2 => h2.src.bind fun _ h3 => ?_)
  split
  · exact .ite lands_raiseAt (lands_spadReady.bind fun _ _ => h3.watchRing.bind fun _ h5 => .ok h5.setCell)
  · exact lands_raiseAt

theorem Canon.execRclaim {f : Rrr} (h : Canon s) : Answers (execRclaim f s) :=
  h.runWord fun _ h1 => lands_seqM (lands_ringOf.bind fun _ _ => .ite h1.dst h1.setCore.dst)

theorem Canon.execRcommit {f : Rrr} (h : Canon s) : Answers (execRcommit f s) :=
  h.runWord fun _ h1 => lands_seqM (lands_ringOf.bind fun _ _ =>
    .ite lands_blocked (.ite lands_raise (lands_spadReady.bind fun _ _ => h1.watchRing.bind fun _ h4 => .ok h4.commitRing)))

theorem Canon.execRtake {f : Rrr} (h : Canon s) : Answers (execRtake f s) :=
  h.runWord fun _ h1 => lands_seqM (lands_ringOf.bind fun _ _ => .ite h1.dst h1.setCore.dst)

theorem Canon.execRdone {f : Rrr} (h : Canon s) : Answers (execRdone f s) :=
  h.runWord fun _ h1 => lands_seqM (lands_ringOf.bind fun _ _ => .ite lands_raise (.ok h1.setCore))

theorem Canon.ringWait {f : Rrr} {have_ : Ring → Nat} (h : Canon s) : Answers (ringWait f have_ s) :=
  h.runWord fun _ h1 => lands_ringOf.bind fun _ _ => h1.heldOperand.bind fun _ h3 =>
    .ite lands_raise (.ite (.ok h3) (.error (.wait h3)))

theorem Canon.modJob {key id : Nat} {f : Job → Job} (h : Canon s) : Canon (s.modJob key id f) := h.same

theorem Canon.wholeElem {f : Nat → State → M State} {k : Nat} {l : List Nat} (h1 : Canon s)
    (h : ∀ (a : Nat) (a_1 : State), Canon a_1 → Lands Canon (f a a_1)) :
    Lands (fun r => Canon r.1) (wholeElem f k l s) :=
  (h _ _ h1).map fun _ h2 => h2

theorem Canon.accept {j : Job} (h : Canon s) : Canon (s.accept j) := h.setCore

theorem lands_queueRoom {n : Nat} : Lands (fun _ => True) (s.queueRoom n) := .ite lands_blocked (.ok trivial)

theorem Canon.recordBytes {key : Nat} {addr : Word} {n scope : Nat} (h : Canon s) :
    Lands (fun r => Canon r.2) (s.recordBytes key addr n scope) := by
  unfold State.recordBytes
  dsimp only
  refine h.access.bind fun _ h1 => ?_
  split
  · exact lands_atAddr h1.loadLine
  · exact .ok h1

theorem Canon.recordShape {key obj h : Nat} {addr : Word} (h1 : Canon s) :
    Lands (fun r => Canon r.2) (s.recordShape key obj h addr) := by
  unfold State.recordShape
  dsimp only
  split
  · exact .ok h1.setDie
  · exact h1.recordBytes.bind fun _ h2 => .ok h2.setDie

theorem Canon.tileRecord {key hd : Nat} (h : Canon s) : Lands (fun r => Canon r.2) (s.tileRecord key hd) := by
  unfold State.tileRecord
  split
  · exact .ok h
  · split
    · exact .ok h
    · split
      · exact .ok h
      · refine .ite (.ok h) ?_
        extract_lets +onlyGivenNames addr read
        have hr : Lands (fun r => Canon r.2) read := h.recordShape.bind fun _ h => h.recordBytes.bind fun _ h => .ok h
        clear_value read
        split
        · exact .ok (hr.of_ok rfl)
        · exact .ok h
        · exact .error (hr.of_error rfl)

theorem lands_jobSpad {key : Nat} {j : Job} {k off n : Nat} {a : Word} : Lands (fun _ => True) (s.jobSpad key j k off n a) :=
  .ite lands_raiseAt (.ite (.error trivial) (.ite lands_blocked (.ok trivial)))

theorem Canon.checkPieces {key : Nat} {q : Acc} {fuel : Nat} {a : Word} {n : Nat} {r : State × Option Stop} (h : Canon r.1)
    (he : Gives StopCanon r.2) :
    Canon (checkPieces key q fuel a n r).1 ∧ Gives StopCanon (checkPieces key q fuel a n r).2 := by
  induction fuel generalizing a n r with
  | zero => exact ⟨h, he⟩
  | succ fuel ih =>
    obtain ⟨s, e⟩ := r
    unfold Machine.checkPieces
    split
    · exact ⟨h, he⟩
    · dsimp only
      split
      · rename_i heq
        exact ih (h.access.of_ok heq) he
      · rename_i heq
        have hx := h.access.of_error heq
        refine ih h ?_
        dsimp only
        split
        · exact Gives.ite (.some hx) he
        · exact .some hx

theorem Canon.elemCheck {key : Nat} {q : Acc} (h : Canon s) : Lands Canon (s.elemCheck key q) := by
  unfold State.elemCheck
  have hp := Canon.checkPieces (key := key) (q := q) (fuel := q.size / 64 + 2) (a := q.addr) (n := q.size) (r :=
    (s, none)) h .none
  split
  · rename_i heq
    rw [heq] at hp
    exact .error (hp.2.of_some rfl)
  · rename_i heq
    rw [heq] at hp
    exact .ite (.ok hp.1) (Canon.watchAt hp.1)

theorem Canon.readPiece {key : Nat} {j : Job} {row shadow : Bool} {a : Word} {n : Nat} {more : optParam Bool false}
    (h : Canon s) :
    Lands (fun r => Canon r.2) (s.readPiece key j row shadow a n more) := by
  unfold State.readPiece
  dsimp only
  refine h.access.bind fun _ h1 => ?_
  split
  · exact lands_jobSpad.bind fun _ _ => h1.flushPeer.bind fun _ h3 => .ok (h3.setCell.ite h3)
  · exact lands_atAddr h1.elemRead

theorem Canon.readRange {key : Nat} {j : Job} {row shadow : Bool} {fuel : Nat} {a : Word} {n : Nat} (h : Canon s) :
    Lands (fun r => Canon r.2) (State.readRange key j row shadow fuel s a n) := by
  induction fuel generalizing s a n with
  | zero => exact .ok h
  | succ fuel ih => exact .ite (.ok h) (h.readPiece.bind fun _ h => (ih h).bind fun _ h => .ok h)

theorem Canon.jobRead {key : Nat} {j : Job} {row shadow : Bool} {a : Word} {n : Nat} (h : Canon s) :
    Lands (fun r => Canon r.2) (s.jobRead key j row shadow a n) :=
  h.elemCheck.bind fun _ h1 => h1.readRange

theorem Canon.writePiece {key : Nat} {j : Job} {as_ : WriteAs} {shadow : Bool} {a : Word} {bs : List Byte} (h : Canon s) :
    Lands Canon (s.writePiece key j as_ shadow a bs) := by
  unfold State.writePiece
  dsimp only
  refine h.access.bind fun _ h1 => ?_
  split
  · exact lands_jobSpad.bind fun _ _ => .ite (.ok h1.setCell) h1.postPeer
  · split
    · exact h1.elemWrite
    · exact h1.elemWrite
    · exact h1.elemWrite
    · exact h1.elemWrite
    · exact h1.storeLine

theorem Canon.writeRange {key : Nat} {j : Job} {as_ : WriteAs} {shadow : Bool} {fuel : Nat} {a : Word} {bs : List Byte}
    (h : Canon s) : Lands Canon (State.writeRange key j as_ shadow fuel s a bs) := by
  induction fuel generalizing s a bs with
  | zero => exact .ok h
  | succ fuel ih => exact .ite (.ok h) (h.writePiece.bind fun _ h => ih h)

theorem Canon.jobWrite {key : Nat} {j : Job} {as_ : WriteAs} {shadow : Bool} {a : Word} {bs : List Byte} (h : Canon s) :
    Lands Canon (s.jobWrite key j as_ shadow a bs) :=
  h.elemCheck.bind fun _ h1 => h1.writeRange

theorem Canon.moveStep {key : Nat} {j : Job} {row shadow : Bool} {as_ : WriteAs} {src dst : Word} {n p : Nat} (h : Canon s) :
    Lands (fun r => Canon r.1) (s.moveStep key j row shadow as_ src dst n p) :=
  .ite (Leaves.bind (P := Canon) (.ok h) fun _ h1 => .ite (.ok h1) (h1.readPiece.bind fun _ h2 =>
    h2.writePiece.bind fun _ h3 => .ok h3)) (h.elemCheck.bind fun _ h1 => h1.elemCheck.bind fun _ h2 =>
    .ite (.ok h2) (h2.readPiece.bind fun _ h3 => h3.writePiece.bind fun _ h4 => .ok h4))

theorem Canon.localRead {key : Nat} {j : Job} {off n : Nat} {noted : Bool} (h : Canon s) :
    Lands (fun r => Canon r.2) (s.localRead key j off n noted) :=
  lands_jobSpad.bind fun _ _ => h.watchAt.bind fun _ h2 => .ok h2.setCell

theorem Canon.pickOf {left : List Nat} (h : Canon s) : Canon (s.pickOf left).2 := h.same

theorem Canon.localGather {key : Nat} {j : Job} {rs : List (Nat × Nat)} (h : Canon s) :
    Gives (Lands Canon) (s.localGather key j rs) := by
  unfold State.localGather
  dsimp only
  split
  · exact .none
  · exact .some (h.pickOf.localRead.bind fun _ h1 => .ok h1.modJob)

theorem Canon.localWrite {key : Nat} {j : Job} {off : Nat} {bs : List Byte} (h : Canon s) :
    Lands Canon (s.localWrite key j off bs) :=
  lands_jobSpad.bind fun _ _ => h.watchAt.bind fun _ h2 => .ok h2.setCell

theorem Canon.jobAtomic {key : Nat} {j : Job} {shadow : Bool} {a : Word} {scope op ty v elem : Nat} {watch : Bool}
    (h : Canon s) :
    Lands Canon (s.jobAtomic key j shadow a scope op ty v elem watch) := by
  unfold State.jobAtomic
  dsimp only
  refine h.access.bind fun _ h1 => ?_
  split
  · refine lands_jobSpad.bind fun _ h2 => h1.flushPeer.bind fun _ h3 => ?_
    split
    · exact .ok h3.setCell
    · exact .ok h3
  · exact (lands_atAddr h1.lineAtomic).bind fun _ h2 => .ok h2

theorem lands_failWith {α : Type} {P : α → Prop} {r : Raise} : Lands P (failWith r) := .error .none

theorem Canon.takeRecord {key : Nat} {j : Job} {h : Nat} (h1 : Canon s) :
    Lands (fun r => Canon r.2) (s.takeRecord key j h) := by
  unfold State.takeRecord
  dsimp only
  refine h1.tileRecord.bind fun _ h2 => ?_
  split
  · exact .ok h2
  · exact .ok h2

theorem lands_owedSlot {ring : Nat} : Lands (fun _ => True) (s.owedSlot ring) :=
  lands_ringOf.bind fun _ _ => .ite lands_raise (.ok trivial)

theorem Canon.asyncWord {f : Rrr} {i : Instr} {th : Bool} {locks : State → Job → List (Nat × Nat)} (h : Canon s) :
    Answers (asyncWord f i th locks s) := by
  unfold Machine.asyncWord
  dsimp only
  refine h.runWord fun _ h1 => lands_seqM (lands_queueRoom.bind fun _ h2 => h1.src.bind fun _ h3 => h3.src.bind fun _ h4 =>
    h4.src.bind fun _ h5 => ?_)
  split
  · exact lands_owedSlot.bind fun _ _ => Leaves.bind (P := fun _ => True) (.ok trivial) fun _ _ =>
      .ite (h5.takeRecord.bind fun _ h8 => .ok h8.accept) (Leaves.bind (P := fun r => Canon r.2) (.ok h5) fun _ h8 =>
      .ok h8.accept)
  · exact Leaves.bind (P := fun _ => True) (.ok trivial) fun _ _ => .ite (h5.takeRecord.bind fun _ h7 =>
      .ok h7.accept) (Leaves.bind (P := fun r => Canon r.2) (.ok h5) fun _ h7 => .ok h7.accept)

theorem planCanon_copyPlan {key : Nat} {j : Job} {f : Rrr} : PlanCanon (s.copyPlan key j f) where
  prep := nofun
  elem k part _ h := h.wholeElem (k := k) (l := part) fun _ _ h => h.jobRead.bind fun ⟨_, _⟩ h => h.jobWrite
  finish _ h := .ok h

theorem planCanon_copyThPlan {key : Nat} {j : Job} {f : Rrr} {out : Bool} : PlanCanon (s.copyThPlan key j f out) where
  prep := nofun
  elem _ _ _ h1 := Leaves.map (P := fun r => Canon r.1) (.ite h1.moveStep h1.moveStep) (fun _ h2 => h2)
  finish _ h := .ok h

theorem Canon.maskBit {key : Nat} {j : Job} {k : Nat} (h : Canon s) : Lands (fun r => Canon r.2) (s.maskBit key j k) :=
  h.jobRead.bind fun _ h1 => .ok h1

theorem Canon.readMask {key : Nat} {j : Job} {n k : Nat} (h : Canon s) :
    Lands (fun r => Canon r.2) (State.readMask key j n k s) := by
  induction n generalizing k s with
  | zero => exact .ok h
  | succ n ih =>
    unfold State.readMask
    have hb := h.maskBit (key := key) (j := j) (k := k)
    split
    · refine (ih (hb.of_ok ‹_›)).bind ?_
      exact fun ⟨_, _⟩ h => .ok h
    · exact .ok h
    · exact .error (hb.of_error ‹_›)

theorem planCanon_copymPlan {key : Nat} {j : Job} {f : Rrr} : PlanCanon (s.copymPlan key j f) where
  prep g hg t h := by
    unfold State.copymPlan at hg
    dsimp only at hg
    split at hg
    · cases hg
      exact h.readMask.bind fun _ h => .ok h.modJob
    · cases hg
  elem k _ t h := by
    unfold State.copymPlan
    dsimp only
    split
    · exact .ite (.ok h) (h.moveStep.map fun _ h => h)
    · exact h.maskBit.bind fun _ h => .ite (.ok h) (h.moveStep.map fun _ h => h)
  finish _ h := h.jobWrite

theorem Canon.indexAt {key : Nat} {j : Job} {wide : Bool} {k : Nat} (h : Canon s) :
    Lands (fun r => Canon r.2) (s.indexAt key j wide k) :=
  h.elemCheck.bind fun _ h1 => h1.readRange.bind fun _ h2 => .ok h2

theorem Canon.indexOf {key : Nat} {j : Job} {wide : Bool} {k : Nat} {part : List Nat} (h : Canon s) :
    Lands (fun r => Canon r.2) (indexOf key j wide k part s) := by
  unfold Machine.indexOf
  split
  · exact .ok h
  · exact h.indexAt

theorem planCanon_gatherPlan {key : Nat} {j : Job} {f : Rrr} : PlanCanon (State.gatherPlan key j f) where
  prep := nofun
  elem _ _ _ h := h.indexOf.bind (fun _ h1 => .ite lands_failWith (h1.moveStep.map fun _ h2 => h2))
  finish _ h := .ok h

theorem Canon.scatterCheck {key : Nat} {j : Job} {f : Rrr} {src dest : Word} (h : Canon s) :
    Lands Canon (s.scatterCheck key j f src dest) :=
  h.elemCheck.bind fun _ h1 => h1.elemCheck

theorem Canon.scatterPart {key : Nat} {j : Job} {f : Rrr} {src dest : Word} {k p : Nat} (h : Canon s) :
    Lands (fun r => Canon r.1) (s.scatterPart key j f src dest k p) :=
  .ite (h.scatterCheck.bind fun _ h1 => .ite (.ok h1) (h1.readRange.bind fun _ h2 => h2.jobAtomic.bind fun _ h3 =>
    .ok h3)) (Leaves.bind (P := Canon) (.ok h) fun _ h1 => .ite (.ok h1) (h1.readRange.bind fun _ h2 =>
    h2.jobAtomic.bind fun _ h3 => .ok h3))

theorem planCanon_scatterPlan {key : Nat} {j : Job} {f : Rrr} : PlanCanon (State.scatterPlan key j f) where
  prep := nofun
  elem _ _ _ h := h.indexOf.bind (fun _ h1 => .ite lands_failWith (Leaves.map (P := fun r =>
    Canon r.1) (.ite h1.moveStep h1.scatterPart) fun _ h2 => h2))
  finish _ h := .ok h

theorem Canon.prefetchPiece {key : Nat} {resident : Bool} {scope : Nat} {a : Word} {n : Nat} (h : Canon s) :
    Lands Canon (s.prefetchPiece key resident scope a n) := by
  unfold State.prefetchPiece
  dsimp only
  refine h.access.bind fun _ h1 => ?_
  split
  · exact .ok h1
  · split
    · exact h1.homeTurn.bind fun _ h2 => .ite (Leaves.bind (P := Canon) (.ok h2.setTile) fun _ h3 =>
        h3.warmLine) (.ite (Leaves.bind (P := Canon) (.ok h2.applyInPlace) fun _ h3 =>
        h3.warmLine) (Leaves.bind (P := Canon) (.error trivial) fun _ h3 => h3.warmLine))
    · exact Leaves.bind (P := Canon) (.ok h1) fun _ h2 => h2.warmLine

theorem Canon.prefetchStep {key : Nat} {f : Rrr} {a : Word} {n p : Nat} (h : Canon s) :
    Lands (fun r => Canon r.1) (s.prefetchStep key f a n p) := by
  unfold State.prefetchStep
  dsimp only
  split
  · exact .ite (.ite (h.elemCheck.bind fun _ h2 => h2.prefetchPiece.bind fun _ h3 =>
      .ok h3) (Leaves.bind (P := Canon) (.ok h) fun _ h2 => h2.prefetchPiece.bind fun _ h3 => .ok h3)) (.ok h)
  · exact .ite (.ite (h.elemCheck.bind fun _ h2 => h2.prefetchPiece.bind fun _ h3 =>
      .ok h3) (Leaves.bind (P := Canon) (.ok h) fun _ h2 => h2.prefetchPiece.bind fun _ h3 => .ok h3)) (.ok h)
  · exact .ite (h.elemCheck.bind fun _ h1 => h1.prefetchPiece.bind fun _ h2 =>
      .ok h2) (Leaves.bind (P := Canon) (.ok h) fun _ h1 => h1.prefetchPiece.bind fun _ h2 => .ok h2)

theorem planCanon_prefetchPlan {key : Nat} {j : Job} {f : Rrr} : PlanCanon (State.prefetchPlan key j f) where
  prep := nofun
  elem _ _ _ h := .ite h.prefetchStep h.prefetchStep
  finish _ h := .ok h

theorem Canon.thfence {f : Rrr} (h : Canon s) : Lands Canon (s.thfence f) :=
  h.release.bind fun _ h1 => .ok (h1.foldl fun _ _ h2 => h2.setDie)

theorem Canon.execThfence {f : Rrr} (h : Canon s) : Answers (execThfence f s) := by
  unfold Machine.execThfence
  refine h.runWord fun _ h1 => lands_seqM ?_
  dsimp only
  split
  · refine Leaves.bind (P := Canon) (.ok h1) fun _ h2 => ?_
    split
    · exact .ok h2
    · split
      · exact .ok h2.setCore
      · exact .error (.wait h2.modEng)
  · split
    · refine Leaves.bind (P := fun _ => True) (.ok trivial) fun _ h2 => h1.thfence.bind fun _ h3 => ?_
      split
      · exact .ok h3
      · split
        · exact .ok h3.setCore
        · exact .error (.wait h3.modEng)
    · refine lands_queueRoom.bind fun _ h2 => h1.thfence.bind fun _ h3 => ?_
      split
      · exact .ok h3
      · split
        · exact .ok h3.setCore
        · exact .error (.wait h3.modEng)

end

end Sys2Proof.Machine
end

