-- ==== Sys2Proof/Proofs/CanonicalCommands.lean ====
section
/-! SUPPORT. Stops, the management commands, fetching and boot keep the canonical form (log entry 3). -/
namespace Sys2Proof.Machine

section
variable {s : State}

theorem Canon.dropNodeKept {n : Nat} (h : Canon s) : Canon (s.dropNodeKept n) :=
  Canon.freeHeld (Canon.foldl h.same fun _ _ h1 => h1.freeBuffer.ite h1)

theorem Canon.freeEntry {n : Nat} (h : Canon s) : Canon (s.freeEntry n) := by
  unfold State.freeEntry
  split
  · exact h
  · exact Canon.same (h.releasePreempts.dropNodeKept.foldl fun _ _ h1 => h1.dropRef)

theorem Canon.freeEntries {ns : List Nat} (h : Canon s) : Canon (s.freeEntries ns) := h.foldl fun _ _ h1 => h1.freeEntry

theorem Canon.terminateCtx {ctx : Nat} {recs : List FaultRec} (h : Canon s) : Canon (s.terminateCtx ctx recs) := by
  unfold State.terminateCtx
  split
  · exact h.ite (Canon.postEvent (Canon.foldl (Canon.same (((((h.foldl fun _ _ h1 =>
      h1.drainCell.withdraw).dumpFor).foldl fun _ _ h1 => h1.setCell).ite (((h.foldl fun _ _ h1 =>
      h1.drainCell.withdraw).dumpFor).foldl fun _ _ h1 => h1.freeCell)).freeEntries)) fun _ _ h1 => h1.complete))
  · exact h

theorem Canon.terminateFor {ctx : Nat} {code : BitVec 8} {aux : Nat} (h : Canon s) : Canon (s.terminateFor ctx code aux) :=
  h.terminateCtx

theorem Canon.terminateAll (h : Canon s) : Canon s.terminateAll := Canon.same (h.foldl fun _ _ h1 => h1.terminateFor)

theorem Canon.stopFor {key : Nat} (h : Canon s) : Canon (s.stopFor key) := by
  unfold State.stopFor
  refine h.ite (Canon.ite ?_ (h.ite (h.stopNode.ite h.terminateCtx)))
  split
  · exact h.terminateCtx
  · exact h

theorem Canon.fails {α : Type} {P : α → Prop} {c : Cmd} {status : Nat} (h : Canon s) :
    Leaves Canon P (s.fails c status) := .error h.cmdDone

theorem Canon.must {c : Cmd} {ok : Bool} {status : Nat} (h : Canon s) : Leaves Canon (fun _ => True) (s.must c ok status) :=
  .ite (.ok trivial) h.fails

theorem Canon.declines {α : Type} {P : α → Prop} {c : Cmd} (h : Canon s) : Leaves Canon P (s.declines c) :=
  .error (Canon.cmdDone (Canon.same h))

theorem Canon.commandAnswers {c : Cmd} {f : State → CM State} (h : Canon s)
    (hf : ∀ s, Canon s → Leaves Canon Canon (f s)) : Answers (command c f s) := by
  have hr : Leaves Canon Canon (if c.i3c then s.declines c else f s) := .ite h.declines (hf s h)
  refine Canon.event (.ite h ?_)
  dsimp only
  split
  · exact hr.of_ok ‹_›
  · exact hr.of_error ‹_›

theorem Canon.cmdCtx {c : Cmd} {ctx : Nat} (h : Canon s) : Leaves Canon (fun _ => True) (s.cmdCtx c ctx) := by
  unfold State.cmdCtx
  split
  · exact h.fails
  · exact .ite h.declines (.ok trivial)

theorem Canon.cmdPart {c : Cmd} {p : Nat} (h : Canon s) : Leaves Canon (fun _ => True) (s.cmdPart c p) := by
  unfold State.cmdPart
  split
  · exact .ok trivial
  · exact h.fails

theorem Canon.zeroTarn {chip : Nat} (h : Canon s) : Canon (s.zeroTarn chip) :=
  ⟨Memory.wf_clearRange _ _ h.1, h.2⟩

theorem Canon.setRole {chip role : Nat} (h : Canon s) : Canon (s.setRole chip role) :=
  Canon.ite (Canon.zeroTarn (h.setDie.ite h.same)) (h.setDie.ite h.same)

theorem Canon.beginReenum {r : Reenum} (h : Canon s) : Canon (s.beginReenum r) := h.same

theorem Canon.endReenum (h : Canon s) : Canon s.endReenum := by
  unfold State.endReenum
  split
  · exact h
  · refine Canon.cmdDone ?_
    split
    · exact Canon.postEvent (Canon.modPart h.same)
    · exact Canon.modPart h.same

theorem Canon.reenumTurn (h : Canon s) : Canon s.reenumTurn := h.ite (h.draw.endReenum.ite h.draw)

theorem Canon.execPartCreate {c : Cmd} (h : Canon s) : Answers (execPartCreate c s) := by
  unfold Machine.execPartCreate
  refine h.commandAnswers fun _ h1 => h1.must.bind fun _ h2 => h1.must.bind fun _ h3 => h1.must.bind fun _ h4 =>
    h1.must.bind fun _ h5 => h1.must.bind fun _ h6 => h1.must.bind fun _ h7 => h1.must.bind fun _ h8 => ?_
  split
  · exact h1.fails
  · exact .ok (Canon.ite (Canon.beginReenum (Canon.same ((h1.foldl fun _ _ h9 => h9.ite h9.setRole).foldl fun _ _ h9 =>
      h9.setDie))) (Canon.cmdDone (Canon.same ((h1.foldl fun _ _ h9 => h9.ite h9.setRole).foldl fun _ _ h9 =>
      h9.setDie))))

theorem Canon.execPartDestroy {c : Cmd} (h : Canon s) : Answers (execPartDestroy c s) :=
  h.commandAnswers fun _ h1 => h1.must.bind fun _ _ => h1.cmdPart.bind fun _ _ => h1.must.bind fun _ _ =>
    .ok (Canon.cmdDone h1.same)

theorem Canon.execCtxCreate {c : Cmd} (h : Canon s) : Answers (Machine.execCtxCreate c s) := by
  unfold Machine.execCtxCreate
  refine h.commandAnswers fun s h => h.must.bind fun _ _ => h.cmdPart.bind fun _ _ => h.must.bind fun _ _ =>
    h.must.bind fun _ _ => ?_
  split
  · extract_lets s1
    have h1 : Canon s1 := h.giveFrames.tagFrames
    clear_value s1
    exact .ok (Canon.cmdDone h1.same)
  · exact h.fails

theorem Canon.destroyCtx {ctx : Nat} {x : Ctx} (h : Canon s) : Canon (s.destroyCtx ctx x) := by
  unfold State.destroyCtx
  extract_lets +onlyGivenNames ids s1
  have h1 : Canon s1 := h.foldl fun _ _ h => h.endBufMoves.freeBuffer
  clear_value s1
  dsimp only
  exact h1.same

theorem Canon.execCtxDestroy {c : Cmd} (h : Canon s) : Answers (execCtxDestroy c s) := by
  unfold Machine.execCtxDestroy
  refine h.commandAnswers fun _ h1 => h1.must.bind fun _ h2 => ?_
  dsimp only
  split
  · exact h1.fails
  · exact h1.must.bind fun _ _ => .ok h1.destroyCtx.cmdDone

theorem Canon.switchTo {part q : Nat} (h : Canon s) : Canon (s.switchTo part q) :=
  Canon.modPart (Canon.same ((h.foldl fun _ _ h1 => h1.discardNode).foldl fun _ _ h1 => h1.setDie))

theorem Canon.execCtxSwitch {c : Cmd} (h : Canon s) : Answers (execCtxSwitch c s) :=
  h.commandAnswers fun _ h1 => h1.must.bind fun _ _ => h1.cmdPart.bind fun _ _ => h1.cmdCtx.bind fun _ _ =>
    h1.must.bind fun _ _ => .ok ((h1.ite h1.switchTo).cmdDone)

theorem Canon.preempt {c : Cmd} {ns : List Nat} (h : Canon s) : Canon (s.preempt c ns) := by
  unfold State.preempt
  refine h.cmdDone.ite (h.foldl fun _ _ h1 => ?_)
  dsimp only
  split
  · exact h1.modNode.haltNode.ite h1.modNode
  · exact h1.modNode

theorem Canon.execPreempt {c : Cmd} (h : Canon s) : Answers (execPreempt c s) :=
  h.commandAnswers fun _ h1 => h1.must.bind fun _ _ => .ite (h1.must.bind fun _ _ =>
    .ok h1.preempt) (h1.cmdCtx.bind fun _ _ =>
    .ok h1.preempt)

theorem Canon.dropTables {ctx va size : Nat} (h : Canon s) : Canon (s.dropTables ctx va size) := by
  unfold State.dropTables
  split
  · exact h.releaseFrames
  · exact h

theorem Canon.setFront {ctx va frame : Nat} (h : Canon s) : Canon (s.setFront ctx va frame) := h.same

theorem Canon.mapPages {part ctx va size src : Nat} {w : Bool} {tag : BitVec 4} {blocks : List Nat} (h : Canon s) :
    Canon (s.mapPages part ctx va size src w tag blocks) := by
  unfold State.mapPages
  extract_lets +onlyGivenNames bytes k fs s1
  have h1 : Canon s1 := h.giveFrames.tagFrames.useQuota
  refine h1.foldl fun s e h => ?_
  have hm : Canon (if src = 0 then s else
      { s with mem := FMap.blit s.mem (e.1 * pageBytes) bytes (FMap.slice s.host (src + e.2 * bytes) bytes) }) :=
    h.ite (h.withMem (Memory.wf_copy _ _ _ h.1 h.2))
  exact (hm.setFront.ite hm.dropTables).setPage

theorem Canon.execMap {c : Cmd} (h : Canon s) : Answers (execMap c s) := by
  unfold Machine.execMap
  refine h.commandAnswers fun _ h1 => h1.must.bind fun _ h2 => h1.cmdCtx.bind fun _ h3 => h1.must.bind fun _ h4 =>
    h1.must.bind fun _ h5 => h1.must.bind fun _ h6 => ?_
  split
  · exact h1.fails
  · exact h1.must.bind fun _ _ => .ok h1.mapPages.tlbInv.cmdDone

theorem Canon.copyOut {leaves : List (Nat × Nat × Nat)} {va len target : Nat} (h : Canon s) :
    Canon (s.copyOut leaves va len target) :=
  ⟨h.1, Memory.wf_fold leaves (Memory.wf_clearRange _ _ h.2) fun _ _ hm => Memory.wf_copy _ _ _ hm h.1⟩

theorem Canon.unmapLeaf {part ctx : Nat} {pgbl : Bool} {l : Nat × Nat × Nat} (h : Canon s) :
    Canon (s.unmapLeaf part ctx pgbl l) := by
  unfold State.unmapLeaf
  extract_lets fs s1 s2
  have h1 : Canon s1 := h.setPage
  have h2 : Canon s2 := by
    clear_value s1
    dsimp only [s2]
    split
    · exact h1.returnFrames
    · exact h1.releaseFrames
  exact Canon.freeQuota h2.same

theorem Canon.execUnmap {c : Cmd} (h : Canon s) : Answers (execUnmap c s) :=
  h.commandAnswers fun _ h1 => h1.must.bind fun _ _ => h1.cmdCtx.bind fun _ _ => h1.must.bind fun _ _ =>
    h1.must.bind fun _ _ => h1.must.bind fun _ _ => .ok (((((h1.ite h1.copyOut).foldl fun _ _ h7 =>
    h7.unmapLeaf).foldl fun _ _ h7 => h7.setPage).tlbInv).cmdDone)

theorem Canon.execFaultReply {c : Cmd} (h : Canon s) : Answers (execFaultReply c s) :=
  h.commandAnswers fun _ h1 => h1.must.bind fun _ _ => h1.cmdCtx.bind fun _ _ => h1.must.bind fun _ _ =>
    .ok (Canon.cmdDone h1.same)

theorem Canon.execGraphCancel {c : Cmd} (h : Canon s) : Answers (execGraphCancel c s) := by
  unfold Machine.execGraphCancel
  refine h.commandAnswers fun _ h1 => h1.must.bind fun _ h2 => ?_
  split
  · exact h1.fails
  · exact .ok ((((h1.foldl fun _ _ h3 => h3.discardNode).freeEntries).complete).cmdDone)

theorem Canon.haltedNode {c : Cmd} {f : State → Nat → State} (h1 : Canon s)
    (h : ∀ (a : State), Canon a → ∀ (a_1 : Nat), Canon (f a a_1)) :
    Answers (haltedNode c f s) :=
  h1.commandAnswers fun _ h2 => h2.must.bind fun _ _ => h2.must.bind fun _ _ => h2.must.bind fun _ _ =>
    .ok ((h _ h2 _).cmdDone)

theorem Canon.execHaltResume {c : Cmd} (h : Canon s) : Answers (execHaltResume c s) :=
  h.haltedNode fun _ h1 _ => h1.foldl fun _ _ h2 => h2.setCell

theorem Canon.execHaltDiscard {c : Cmd} (h : Canon s) : Answers (execHaltDiscard c s) :=
  h.haltedNode fun _ h1 _ => h1.discardNode

theorem Canon.modCtx {ctx : Nat} {f : Ctx → Ctx} (h : Canon s) : Canon (s.modCtx ctx f) := h.same

theorem Canon.execDumpArea {c : Cmd} (h : Canon s) : Answers (execDumpArea c s) :=
  h.commandAnswers fun _ h1 => h1.must.bind fun _ _ => h1.must.bind fun _ _ => .ok h1.modCtx.cmdDone

theorem Canon.execWatchDefaults {c : Cmd} (h : Canon s) : Answers (execWatchDefaults c s) :=
  h.commandAnswers fun _ h1 => h1.must.bind fun _ _ => h1.cmdCtx.bind fun _ _ => .ok h1.modCtx.cmdDone

theorem Canon.execTraceDefaults {c : Cmd} (h : Canon s) : Answers (execTraceDefaults c s) :=
  h.commandAnswers fun _ h1 => h1.must.bind fun _ _ => h1.cmdCtx.bind fun _ _ => .ok h1.modCtx.cmdDone

theorem Canon.execStopAt {c : Cmd} (h : Canon s) : Answers (execStopAt c s) :=
  h.commandAnswers fun _ h1 => h1.must.bind fun _ _ => .ok (Canon.cmdDone h1.same)

theorem Canon.encodingFault {tag7 : Bool} {code : BitVec 8} (h : Canon s) : Canon (s.encodingFault tag7 code) :=
  h.modEng.ite h.deliver

theorem Canon.atWord {code : List Word} {w : Word} {i : Nat} (h : Canon s) : FetchedCanon (s.atWord code w i) := by
  unfold State.atWord
  dsimp only
  split
  · split
    · split
      · exact h.encodingFault
      · split
        · exact h.modEng
        · split
          · exact h
          · exact h.encodingFault
    · split
      · exact h.modEng
      · exact h.setCore
  · split
    · split
      · exact h.encodingFault
      · split
        · exact h.modEng
        · split
          · exact h
          · exact h.encodingFault
    · split
      · exact h.modEng
      · exact h.setCore

theorem Canon.fetchCell {s0 : State} {key : Nat} {e : EngTag} (h : Canon s0) : FetchedCanon (s0.fetchCell key e) := by
  unfold State.fetchCell
  dsimp only
  split
  · exact h
  · split
    · exact Canon.ite (Canon.deliver h.same) (Canon.modEng h.same)
    · split
      · exact Canon.deliver h.same
      · split
        · exact Canon.modEng h.same
        · split
          · exact Canon.modEng h.same
          · split
            · exact Canon.atWord (Canon.setCore (Canon.draw h.same))
            · exact Canon.setCore (Canon.draw h.same)

theorem Canon.fetchPrologue {s0 : State} {n : Nat} (h : Canon s0) : FetchedCanon (s0.fetchPrologue n) := by
  unfold State.fetchPrologue
  dsimp only
  split
  · exact h
  · split
    · exact Canon.deliver h.same
    · split
      · exact Canon.deliver h.same
      · split
        · exact Canon.deliver h.same
        · split
          · exact Canon.deliver h.same
          · split
            · exact Canon.deliver h.same
            · split
              · exact h.same
              · exact Canon.deliver h.same

theorem Canon.fetchEngine {key : Nat} {e : EngTag} (h : Canon s) : FetchedCanon (s.fetchEngine key e) := by
  unfold State.fetchEngine
  split
  · exact h.fetchPrologue
  · exact h.fetchCell

theorem Canon.fetchCommand (h : Canon s) : FetchedCanon s.fetchCommand := by
  unfold State.fetchCommand
  dsimp only
  split
  · exact h
  · split
    · split
      · exact h
      · exact h.same
    · exact Canon.cmdDone h.same

theorem Canon.fetchPacket {s0 : State} {n : Nat} (h : Canon s0) : FetchedCanon (s0.fetchPacket n) := by
  unfold State.fetchPacket
  dsimp only
  split
  · exact h
  · split
    · exact h.modQueue
    · split
      · exact h
      · split
        · split
          · exact h.modQueue.condemnAt
          · exact h.modQueue.modQueue.ringFault
        · split
          · exact h.modQueue.modQueue.queueFault
          · split
            · exact h.modQueue.ite h.modQueue.gsdTouch
            · exact (h.modQueue.ite h.modQueue.gsdTouch).packet fun _ h1 => h1.admitDone

theorem Canon.putCopies {seq : Nat} {cs : List Byte × List Byte} (h : Canon s) : Canon (s.putCopies seq cs) := h.same

theorem Canon.log {step outcome obj : Nat} (h : Canon s) : Canon (s.log step outcome obj) := h.same

theorem Canon.restart (h : Canon s) : Canon s.restart := ⟨rfl, h.2⟩

theorem Canon.extend {i : Nat} {digest : List Byte} (h : Canon s) : Canon (s.extend i digest) := h.same

theorem Canon.measureAll (h : Canon s) : Canon s.measureAll := h.extend.extend.extend.log

theorem Canon.mapOut {chip : Nat} (h : Canon s) : Canon (s.mapOut chip) := h.foldl fun _ _ h1 => h1.setDie

theorem Canon.trainObj {o : Nat} {fails : Bool} (h : Canon s) : Canon (s.trainObj o fails) := by
  unfold State.trainObj
  extract_lets +onlyGivenNames outcome s1
  have h1 : Canon s1 := h.log
  exact .ite (h1.mapOut.ite h1) (.ite h1.same h1)

theorem Canon.recover {fail : Nat} (h : Canon s) : Canon (s.recover fail) := h.same

theorem Canon.readJournal (h : Canon s) : Canon s.readJournal := h.same

theorem Canon.initMemory (h : Canon s) : Canon s.initMemory := ⟨rfl, h.2⟩

theorem Canon.bootDo {b : Boot} (h : Canon s) : Canon (s.bootDo b) := by
  unfold State.bootDo
  split
  · extract_lets s1
    have h1 : Canon s1 := h.readJournal
    clear_value s1
    split
    · exact Canon.log (Canon.same h1)
    · exact Canon.same (s := s1.log 0 0 0) h1.log
  · exact Canon.same (s := s.log 1 0 0) h.log
  · have h2 : Canon (s.log 2 2 0) := h.log
    exact .ite (Canon.same (s := s.log 2 0 0) h.log) (.ite h2.recover (Canon.same h2))
  · exact Canon.same (s := s.measureAll) h.measureAll
  · split
    · rename_i o _
      exact Canon.same (s := s.trainObj o (b.found.failing.contains o)) h.trainObj
    · exact .ite h.same (Canon.recover (Canon.same h))
  · exact Canon.same (s := s.initMemory.log 5 0 0) h.initMemory.log
  · exact Canon.same (s := s.log 6 0 0) h.log

theorem Canon.bootTurn (h : Canon s) : Canon s.bootTurn := by
  unfold State.bootTurn
  split
  · exact h
  · exact h.draw.bootDo.ite h.draw

theorem Canon.execPowerGood {b : BootInputs} (h : Canon s) : Answers (execPowerGood b s) := Canon.event (Canon.ite h.same h)

theorem Canon.execPcieReset (h : Canon s) : Answers (execPcieReset s) := (h.restart.ite h).event

theorem Canon.loseNow {torn : Bool} (h : Canon s) : Canon (s.loseNow torn) := by
  unfold State.loseNow
  refine Canon.same (Canon.restart (s := match s.booting with | some _ => _ | none => _) ?_)
  split
  · refine Canon.ite ?_ h
    dsimp only
    split
    · exact h.draw.putCopies
    · exact h.draw
  · exact h

theorem Canon.execPowerLoss {torn : Bool} (h : Canon s) : Answers (execPowerLoss torn s) := (h.loseNow.ite h).event

theorem Canon.execThermalTrip {chip : Nat} (h : Canon s) : Answers (execThermalTrip chip s) :=
  Canon.event (Canon.ite (Canon.same (s := s.loseNow false) h.loseNow) h)

theorem Canon.cmdWrite {c : Cmd} {a : Nat} {bs : List Byte} (h : Canon s) : Canon (s.cmdWrite c a bs) :=
  Canon.ite h.same (⟨h.1, Memory.wf_writeN _ _ h.2⟩)

theorem Canon.eitherPort {recovery : Bool} {c : Cmd} {f : State → CM State} (h : Canon s)
    (hf : ∀ s, Canon s → Leaves Canon Canon (f s)) : Answers (Machine.eitherPort recovery c f s) := by
  refine Canon.event (.ite ?_ (.ite ?_ h))
  · split
    · exact (hf s h).of_ok ‹_›
    · exact (hf s h).of_error ‹_›
  · split
    · exact h
    · exact h.declines.of_error (P := fun _ => True) ‹_›

theorem Canon.execAttest {c : Cmd} (h : Canon s) : Answers (execAttest c s) :=
  h.eitherPort fun _ h1 => h1.must.bind fun _ _ => .ok (Canon.cmdDone (Canon.cmdWrite h1.same))

theorem Canon.execFwStage {c : Cmd} (h : Canon s) : Answers (execFwStage c s) :=
  h.eitherPort fun _ h1 => h1.must.bind fun _ _ => h1.must.bind fun _ _ => .ok (Canon.cmdDone h1.same)

theorem Canon.execJournalClear {c : Cmd} (h : Canon s) : Answers (execJournalClear c s) :=
  h.eitherPort fun _ h1 => h1.must.bind fun _ _ => .ok (Canon.cmdDone h1.same)

theorem Canon.i3cCommand {entry : List Byte} (h : Canon s) : Answers (s.i3cCommand entry) := by
  unfold State.i3cCommand
  extract_lets s1
  have h1 : Canon s1 := h.same
  clear_value s1
  split
  · exact h1.eitherPort fun _ h => h.must.bind fun _ _ => .ok (Canon.cmdDone (Canon.cmdWrite (Canon.same h)))
  · exact h1.eitherPort fun _ h => h.must.bind fun _ _ => h.must.bind fun _ _ => .ok (Canon.cmdDone (Canon.same h))
  · exact h1.eitherPort fun _ h => h.must.bind fun _ _ => .ok (Canon.cmdDone (Canon.same h))
  · refine Canon.event (h1.cmdDone.ite ?_)
    split
    · exact h1
    · exact h1.declines.of_error (P := fun _ => True) ‹_›

theorem Canon.i3cTurn {n : Nat} (h : Canon s) : Canon (State.i3cTurn n s) := by
  induction n generalizing s with
  | zero => exact h
  | succ n ih =>
    unfold State.i3cTurn
    split
    · exact h
    · rename_i entry _ rest _
      refine h.ite ?_
      have hc : Answers ({ s with i3cWait := rest }.i3cCommand entry) := Canon.i3cCommand (Canon.same h)
      split
      · rename_i heq
        rw [heq] at hc
        cases hc with | next ht => exact ih ht
      · exact h

theorem Canon.execI3cMctpMessage {entry : List Byte} (h : Canon s) : Answers (execI3cMctpMessage entry s) := by
  unfold Machine.execI3cMctpMessage
  dsimp only
  split
  · exact h.event
  · split
    · exact Canon.i3cCommand h.same
    · exact Canon.event h.same

end

end Sys2Proof.Machine
end

