-- ==== Sys2Proof/Proofs/CanonicalCompute.lean ====
section
/-! SUPPORT. The words of the engines V, M and K keep the canonical form (log entry 3). -/
namespace Sys2Proof.Machine

section
variable {s : State}

theorem lands_vrotReady : Lands (fun _ => True) s.vrotReady := .ite lands_blocked (.ok trivial)

theorem lands_stageFree {n : Nat} : Lands (fun _ => True) (s.stageFree n) := .ite lands_raise (.ok trivial)

theorem Canon.vecWord {f : Rrr} {body : State → M State} (h1 : Canon s) (h : ∀ s, Canon s → Lands Canon (body s)) :
    Answers (vecWord f body s) :=
  h1.runWord fun _ h2 => lands_seqM (lands_vrotReady.bind fun _ _ => h _ h2)

theorem Canon.putV {f : Rrr} {w : Nat} {rs : List (Nat × Flags)} (h : Canon s) : Canon (s.putV f w rs) := h.setCore

theorem Canon.vecTer {f : Rrr} {fn : Nat → Nat → Nat → Nat × Flags} (h : Canon s) : Answers (vecTer f fn s) :=
  h.vecWord fun _ h1 => h1.vsrc.bind fun _ h2 => h2.vsrc.bind fun _ h3 => .ok h3.putV

theorem Canon.vecBin {f : Rrr} {fn : Nat → Nat → Nat × Flags} (h : Canon s) : Answers (vecBin f fn s) := h.vecTer

theorem Canon.vecUn {f : Rrr} {fn : Nat → Nat × Flags} (h : Canon s) : Answers (vecUn f fn s) :=
  h.vecWord fun _ h1 => h1.vsrc.bind fun _ h2 => .ok h2.putV

theorem Canon.vecCmp {f : Rrr} {fn : Nat → Nat → Bool × Flags} (h : Canon s) : Answers (vecCmp f fn s) :=
  h.vecWord fun _ h1 => lands_stageFree.bind fun _ _ => h1.vsrc.bind fun _ h3 => h3.vsrc.bind fun _ h4 => .ok h4.setCore

theorem Canon.floatBin {f : Rrr} {g : FFmt → Nat → Val → Val → Nat × Flags} (h : Canon s) :
    Answers (floatBin f g s) := h.vecBin

theorem Canon.execFcmp {f : Rrr} (h : Canon s) : Answers (execFcmp f s) := by
  unfold Machine.execFcmp
  exact h.vecCmp

theorem Canon.intBin {f : Rrr} {g : ITy → Word → Word → Word} (h : Canon s) : Answers (intBin f g s) := h.vecBin

theorem Canon.execIcmp {f : Rrr} (h : Canon s) : Answers (execIcmp f s) := by
  unfold Machine.execIcmp
  exact h.vecCmp

theorem Canon.execVsel {f : Rrr} (h : Canon s) : Answers (execVsel f s) :=
  h.vecWord fun _ h1 => h1.vsrc.bind fun _ h2 => h2.vsrc.bind fun _ h3 => .ok h3.setCore

theorem Canon.maskWord {f : Rrr} {fn : BitVec 2048 → BitVec 2048 → BitVec 2048} (h : Canon s) : Answers (maskWord f fn s) :=
  h.runWord fun _ h1 => lands_seqM (lands_stageFree.bind fun _ _ => .ok h1.setCore)

theorem Canon.execMovV {f : Rrr} (h : Canon s) : Answers (execMovV f s) :=
  h.vecWord fun _ h1 => .ite (Leaves.bind (P := fun r => Canon r.2) (.ok h1) fun _ h2 =>
    .ok h2.putV) (h1.vsrc.bind fun _ h2 =>
    .ok h2.putV)

theorem Canon.axisMove {f : Rrr} {from_ : Nat → Nat → Nat → Nat → Nat × Nat} (h : Canon s) : Answers (axisMove f from_ s) :=
  h.vecWord fun _ h1 => h1.vsrc.bind fun _ h2 => h2.src.bind fun _ h3 => .ok h3.putV

theorem Canon.reduceWord {f : Rrr} {rows : Bool} (h : Canon s) : Answers (reduceWord f rows s) :=
  h.vecWord fun _ h1 => h1.vsrc.bind fun _ h2 => .ok h2.setCore

theorem Canon.execTrb {f : Rrr} (h : Canon s) : Answers (execTrb f s) :=
  h.vecWord fun _ h1 => h1.vsrc.bind fun _ h2 => .ok h2.putV

theorem Canon.execCvt {f : Rrr} (h : Canon s) : Answers (execCvt f s) :=
  h.vecWord fun _ h1 => h1.vsrc.bind fun _ h2 => .ok h2.putV

theorem Canon.execUnpk {f : Rrr} (h : Canon s) : Answers (execUnpk f s) :=
  h.vecWord fun _ h1 => h1.vsrc.bind fun _ h2 => .ok h2.putV

theorem Canon.execPack {f : Rrr} (h : Canon s) : Answers (execPack f s) :=
  h.vecWord fun _ h1 => h1.vsrc.bind fun _ h2 => .ok h2.setCore

theorem Canon.vecAddr {f : Rrr} (h : Canon s) : Lands (fun r => Canon r.2) (s.vecAddr f) :=
  h.src.bind fun _ h1 => h1.src.bind fun _ h2 => .ite lands_raise (.ite lands_raise (.ok h2))

theorem Canon.watchLocal {key off n : Nat} {write : Bool} (h : Canon s) : Lands Canon (s.watchLocal key off n write) :=
  h.watchAt

theorem Canon.partsNext {last g : Nat} (h : Canon s) : Lands Canon (s.partsNext last g) :=
  .ite (.ok h) (.error (.wait h.modEng))

theorem Canon.vldGranule {key o q g : Nat} {take : Bool} {lm : List (BitVec 32)} (h : Canon s) :
    Canon (s.vldGranule key o q g take lm) :=
  h.unhold.setCell

theorem Canon.execVld {f : Rrr} (h : Canon s) : Answers (execVld f s) :=
  h.vecWord fun _ h1 => h1.vecAddr.bind fun _ h2 => lands_spadReady.bind fun _ _ => h2.watchLocal.bind fun _ h4 =>
    .ite (.error (.wait h1.holdAt.modEng)) (((h4.ite h1).vldGranule).partsNext)

theorem Canon.execVst {f : Rrr} (h : Canon s) : Answers (execVst f s) := by
  unfold Machine.execVst
  dsimp only
  refine h.vecWord fun _ h1 => h1.vsrc.bind fun _ h2 => h2.vecAddr.bind fun _ h3 => lands_spadReady.bind fun _ h4 =>
    h3.watchLocal.bind fun _ h5 => ?_
  split
  · split
    · exact lands_blocked
    · split
      · exact lands_orderWatch
      · exact h5.setCell.partsNext
  · split
    · exact lands_blocked
    · split
      · exact lands_orderWatch
      · exact h1.setCell.partsNext

theorem Canon.execRotBase {f : Rrr} (h : Canon s) : Answers (execRotBase f s) := h.vecWord fun _ h1 => .ok h1.setCore

theorem Canon.execRotBaseOff {f : Rrr} (h : Canon s) : Answers (execRotBaseOff f s) := h.vecWord fun _ h1 => .ok h1.setCore

theorem Canon.shadowWord {f : Rrr} {write : Nest → Word → Word → Nest} (h : Canon s) : Answers (shadowWord f write s) :=
  h.runWord fun _ h1 => lands_seqM (lands_afterTakers.bind fun _ _ => h1.src.bind fun _ h3 => h3.src.bind fun _ h4 =>
    .ok h4.setCore)

theorem lands_nestTrips {t : Nest} {l : List Nat} : Lands (fun _ => True) (s.nestTrips t l) := by
  induction l with
  | nil => exact .ok trivial
  | cons l ls ih =>
    unfold State.nestTrips
    dsimp only
    refine .ite (lands_readLc.bind fun _ _ => ih.bind ?_) (Leaves.bind (P := fun _ => True) (.ok trivial) fun _ _ =>
      ih.bind ?_)
    all_goals exact fun _ _ => .ok trivial

theorem Canon.execMgo {f : Rrr} (h : Canon s) : Answers (execMgo f s) :=
  h.runWord fun _ h1 => lands_seqM (.ite lands_blocked (.ite lands_raise (.ite lands_raise (lands_nestTrips.bind fun _ _ =>
    .ite lands_raise (.ok h1.setCore.accept.produceStamps)))))

theorem Canon.localBytes {key : Nat} {j : Job} {l : List Int} (h : Canon s) :
    Lands (fun r => Canon r.2) (s.localBytes key j l) := by
  induction l generalizing s with
  | nil => exact .ok h
  | cons b bs ih =>
    unfold State.localBytes
    exact h.localRead.bind fun ⟨_, _⟩ h => (ih h).bind fun ⟨_, _⟩ h => .ok h

theorem Canon.nestElem {key : Nat} {j : Job} {o : Opd} {r : TileRec} {bits : Nat} {c : Coord} (h : Canon s) :
    Lands (fun r => Canon r.2) (s.nestElem key j o r bits c) := by
  unfold State.nestElem
  dsimp only
  split
  · exact .ite (h.localRead.bind fun _ h1 => .ok h1) (h.localBytes.bind fun _ h1 => .ok h1)
  · exact .ok h
  · exact h.jobRead.bind fun _ h1 => .ok h1

theorem Canon.nestScale {key : Nat} {j : Job} {m : MgoF} {p : Word × Word} {o row g : Nat} (h : Canon s) :
    Lands (fun r => Canon r.2) (s.nestScale key j m p o row g) :=
  .ite (.ok h) (h.localRead.bind fun _ h1 => .ok h1)

theorem Canon.nestRead {key : Nat} {j : Job} {m : MgoF} {p k : Nat} {w : NestRead} (h : Canon s) :
    Lands (fun r => Canon r.2) (s.nestRead key j m p k w) := by
  unfold State.nestRead
  dsimp only
  split
  · split
    · exact .ok h
    · exact h.nestElem
  · exact h.nestElem
  · exact h.nestScale
  · exact h.nestScale

theorem Canon.nestTake {key : Nat} {j : Job} {m : MgoF} {p k : Nat} {w : NestRead} (h : Canon s) :
    Lands (fun r => Canon r.2) (s.nestTake key j m p k w) := by
  unfold State.nestTake
  split
  · exact .ok h
  · exact h.nestRead

theorem Canon.nestPairs {key : Nat} {j : Job} {m : MgoF} {p : Nat} {l : List Nat} (h : Canon s) :
    Lands (fun r => Canon r.2) (State.nestPairs key j m p l s) := by
  induction l generalizing s with
  | nil => exact .ok h
  | cons k ks ih =>
    unfold State.nestPairs
    exact h.nestTake.bind fun ⟨_, _⟩ h => h.nestTake.bind fun ⟨_, _⟩ h => (ih h).bind fun ⟨_, _⟩ h => .ok h

theorem Canon.nestGroup {key : Nat} {j : Job} {m : MgoF} {p g c : Nat} (h : Canon s) :
    Lands (fun r => Canon r.2.2) (s.nestGroup key j m p g c) :=
  h.nestPairs.bind fun _ h1 => h1.nestTake.bind fun _ h2 => h2.nestTake.bind fun _ h3 => .ok h3

theorem Canon.nestApply {key : Nat} {j : Job} {m : MgoF} {p g : Nat} (h : Canon s) : Lands Canon (s.nestApply key j m p g) :=
  h.nestGroup.bind fun _ h1 => .ok h1.setCell.modJob

theorem Canon.nestCause {key : Nat} {j : Job} {g : Nat} {r : Raise} (h : Canon s) : Canon (s.nestCause key j g r) := h.modJob

theorem Canon.nestGo {key : Nat} {j : Job} {m : MgoF} {p g : Nat} (h : Canon s) :
    Lands (fun r => Canon r.1) (s.nestGo key j m p g) :=
  .ite (h.draw.nestApply.map fun _ h1 => h1) (h.draw.nestRead.bind fun _ h1 => .ok h1.modJob)

theorem Canon.nestPoint {key : Nat} {j : Job} {m : MgoF} {p g : Nat} (h : Canon s) :
    Lands (fun r => Canon r.1) (State.nestPoint key j m p g s) := by
  unfold State.nestPoint
  split
  · exact .ok h.setCell
  · split
    · exact .ok h
    · split
      · rename_i t heq
        have h1 : Canon (t, true).1 := h.nestGo.of_ok heq
        exact .ok h1
      · rename_i t heq
        have h1 : Canon (t, false).1 := h.nestGo.of_ok heq
        exact .ok h1
      · exact .ok (h.ite h.nestCause)
      · rename_i e _ heq
        have h1 : StopCanon e := h.nestGo.of_error heq
        exact .ite (.ok h) (.error h1)

theorem Canon.readAhead {key : Nat} {j : Job} {m : MgoF} {p0 g0 : Nat} (h : Canon s) : Canon (s.readAhead key j m p0 g0) := by
  unfold State.readAhead
  dsimp only
  split
  · exact h.draw
  · refine h.draw.ite ?_
    split
    · rename_i v t heq
      have h1 : Canon (v, t).2 := h.draw.nestRead.of_ok heq
      exact h1.modJob
    · exact h.draw

theorem planCanon_mgoPlan {key : Nat} {j : Job} {f : Rrr} : PlanCanon (State.mgoPlan key j f) where
  prep g hg t h := by
    unfold State.mgoPlan at hg
    dsimp only at hg
    split at hg
    · cases hg
    · cases hg
      refine .ite (h.takeRecord.bind fun _ h => ?_) (Leaves.bind (P := fun r => Canon r.2) (.ok h) fun _ h => ?_)
      all_goals
        exact .ite (h.takeRecord.bind fun _ h => .ok h.modJob)
          (Leaves.bind (P := fun r => Canon r.2) (.ok h) fun _ h => .ok h.modJob)
  elem p part _ h := h.setCell.readAhead.nestPoint.map fun _ h => h.setCell
  finish _ h := .ok h.setCell.produceStamps

theorem Canon.zeroStep {acc : Nat} {v : BitVec 32} (h : Canon s) : Lands Canon (s.zeroStep acc v) := by
  unfold State.zeroStep
  exact .ite (.ok h.draw.setCore) (.error (.wait h.draw.setCore.modEng))

theorem Canon.execMzero {f : Rrr} (h : Canon s) : Answers (execMzero f s) :=
  h.runWord fun _ h1 => lands_seqM (.ite lands_blocked (.ite h1.zeroStep (.ok h1.setCore)))

theorem Canon.execMload {f : Rrr} (h : Canon s) : Answers (execMload f s) :=
  h.runWord fun _ h1 => lands_seqM (h1.src.bind fun _ h2 =>
    .ite lands_raiseAt (.ite lands_raiseAt (.ite lands_blocked (h2.watchLocal.bind fun _ h3 =>
    ((h3.ite h1).spadLoad).bind fun _ h4 => h4.setCore.partsNext))))

theorem Canon.drainWord {f : Rrr} {i : Instr} {locks : State → Job → List (Nat × Nat)} (h : Canon s) :
    Answers (drainWord f i locks s) :=
  h.runWord fun _ h1 => lands_seqM (h1.src.bind fun _ h2 => h2.src.bind fun _ h3 => .ok h3.setCore.accept)

theorem Canon.drainRowCheck {key : Nat} {f : Rrr} {spad add sh : Bool} {row : Word} {runs : List (Nat × List Byte)}
    (h : Canon s) :
    Lands Canon (s.drainRowCheck key f spad add sh row runs) :=
  Leaves.foldlM h fun _ _ h1 => h1.elemCheck

theorem Canon.drainStep {key : Nat} {j : Job} {f : Rrr} {spad add : Bool} {i p : Nat} (h : Canon s) :
    Lands (fun r => Canon r.1) (s.drainStep key j f spad add i p) :=
  .ite (h.drainRowCheck.bind fun _ h1 => (Leaves.foldlM h1 fun _ _ h2 => .ite h2.jobAtomic h2.writeRange).bind fun _ h2 =>
    .ok h2) (Leaves.bind (P := Canon) (.ok h) fun _ h1 => (Leaves.foldlM h1 fun _ _ h2 =>
    .ite h2.jobAtomic h2.writeRange).bind fun _ h2 => .ok h2)

theorem planCanon_drainPlan {key : Nat} {j : Job} {f : Rrr} {spad add : Bool} : PlanCanon (s.drainPlan key j f spad add) where
  prep := nofun
  elem _ _ _ h1 := h1.drainStep
  finish _ h := .ok h

theorem planCanon_peerPlan {key : Nat} {j : Job} {f : Rrr} : PlanCanon (s.peerPlan key j f) where
  prep := nofun
  elem k part _ h := h.wholeElem (k := k) (l := part) fun _ _ h => .ok h.setCell.modJob
  finish _ h := .ok h

theorem Canon.specialWord {fn : Nat} {f : Rrr} (h : Canon s) : Answers (specialWord fn f s) := h.vecUn

theorem Canon.execRtt {f : Rrr} (h : Canon s) : Answers (execRtt f s) :=
  h.runWord fun _ h1 => lands_seqM (lands_afterTakers.bind fun _ _ => h1.src.bind fun _ h3 => .ok h3.setCore)

theorem Canon.rgoWord {f : Rrr} {i : Instr} (h : Canon s) : Answers (rgoWord f i s) :=
  h.runWord fun _ h1 => lands_seqM (.ite lands_blocked (.ite lands_raise (.ok h1.accept)))

theorem Canon.rgoStep {key : Nat} {j : Job} {kind i : Nat} {writing : Bool} (h : Canon s) :
    Lands (fun r => Canon r.1) (s.rgoStep key j kind i writing) := by
  unfold State.rgoStep
  dsimp only
  exact .ite (.ite (.ok h.pickOf.setCell.modJob) (.ok h.pickOf.modJob)) (.ite (.ite (h.localWrite.map fun _ h1 =>
    h1) (.ok h)) (.ok h.setCell.modJob))

theorem planCanon_rgoPlan {key : Nat} {j : Job} {kind : Nat} : PlanCanon (State.rgoPlan key j kind) where
  prep := nofun
  elem _ _ _ h := h.rgoStep
  finish _ h := .ok h

theorem Canon.sortWrite {key : Nat} {j : Job} {i : Instr} {f : Rrr} {out : List KRec} (h : Canon s) :
    Lands Canon (s.sortWrite key j i f out) := by
  unfold State.sortWrite
  split
  · exact .ite (h.draw.localWrite.bind fun _ h1 => h1.localWrite) (h.draw.localWrite.bind fun _ h1 => h1.localWrite)
  · exact h.localWrite

theorem planCanon_sortPlan {key : Nat} {j : Job} {i : Instr} {f : Rrr} : PlanCanon (State.sortPlan key j i f) := by
  unfold State.sortPlan
  refine { prep := nofun, elem := fun _ _ _ h => ?_, finish := fun _ h => .ok h }
  dsimp only
  split
  · rename_i r heq
    have h1 : Lands Canon r := h.localGather.of_some heq
    exact h1.map fun _ h2 => h2
  · exact h.sortWrite.map fun _ h1 => h1

theorem Canon.sortWord {f : Rrr} {i : Instr} (h : Canon s) : Answers (sortWord f i s) :=
  h.runWord fun _ h1 => lands_seqM (lands_queueRoom.bind fun _ _ => h1.src.bind fun _ h3 => h3.src.bind fun _ h4 =>
    h4.src.bind fun _ h5 => .ok h5.accept)

theorem Canon.arrayRead {key : Nat} {j : Job} {base : Word} {off n : Nat} (h : Canon s) :
    Lands (fun r => Canon r.2) (s.arrayRead key j base off n) :=
  h.elemCheck.bind fun _ h1 => h1.readRange.bind fun _ h2 => .ok h2

theorem Canon.spCheck {key : Nat} {j : Job} {k : SpKind} {f : Rrr} {i lo hi : Nat} (h : Canon s) :
    Lands (fun _ => True) (s.spCheck key j k f i lo hi) :=
  (Leaves.foldlM h fun _ _ h1 => (Leaves.foldlM h1 fun _ _ h2 => h2.elemCheck).bind fun _ h2 => h2.elemCheck).bind fun _ _ =>
    .ok trivial

theorem Canon.spRead {key : Nat} {j : Job} {left : List SpRead} {first : Bool} (h : Canon s) :
    Lands Canon (s.spRead key j left first) :=
  h.draw.arrayRead.bind fun _ h1 => .ite lands_failWith (.ok h1.modJob)

theorem Canon.spRow {key : Nat} {j : Job} {k : SpKind} {f : Rrr} {i : Nat} {part : List Nat} (h : Canon s) :
    Lands (fun r => Canon r.1) (State.spRow key j k f i part s) := by
  unfold State.spRow
  dsimp only
  split
  · split
    · exact h.elemCheck.bind fun _ h1 => h1.writeRange.bind fun _ h2 => .ite (.ok h2.modJob) (.ok h2.modJob)
    · exact h.spRead.bind fun _ h1 => .ok h1
  · split
    · exact .ite lands_failWith (h.spCheck.bind fun _ _ => .ite (.ok h.modJob) (.ok h))
    · exact h.spRead.bind fun _ h1 => .ok h1

theorem Canon.spEnd {key : Nat} {j : Job} {r : SpRead} (h : Canon s) : Lands Canon (s.spEnd key j r) := by
  unfold State.spEnd
  split
  · rename_i b s1 heq
    have h1 : Canon (b, s1).2 := h.arrayRead.of_ok heq
    exact .ok h1.modJob
  · exact .ok h.modJob
  · rename_i e _ heq
    have h1 : StopCanon e := h.arrayRead.of_error heq
    exact .error h1

theorem Canon.spPrep {key : Nat} {j : Job} {k : SpKind} (h : Canon s) : Lands Canon (State.spPrep key j k s) := by
  unfold State.spPrep
  dsimp only
  split
  · exact lands_failWith
  · split
    · exact lands_failWith
    · split
      · exact h.localGather.of_some ‹_›
      · split
        · exact h.spEnd
        · exact .ok h.modJob

theorem planCanon_sparsePlan {key : Nat} {j : Job} {k : SpKind} {f : Rrr} : PlanCanon (State.sparsePlan key j k f) where
  prep g hg t h := by
    unfold State.sparsePlan at hg
    dsimp only at hg
    split at hg
    · cases hg
      exact h.spPrep
    · cases hg
  elem _ _ _ h := h.spRow
  finish _ h := .ok h

theorem Canon.sparseWord {f : Rrr} {i : Instr} (h : Canon s) : Answers (sparseWord f i s) :=
  h.runWord fun _ h1 => lands_seqM (lands_queueRoom.bind fun _ _ => h1.src.bind fun _ h3 => .ok h3.accept)

end

end Sys2Proof.Machine
end

