-- ==== Sys2Proof/Proofs/CanonicalEvents.lean ====
section
/-! SUPPORT. Running jobs and the events of the device keep the canonical form (log entry 3). -/
namespace Sys2Proof.Machine

section
variable {s : State}

theorem planCanon_plan {key : Nat} {j : Job} : PlanCanon (s.plan key j) := by
  unfold State.plan
  split
  · exact planCanon_copyPlan
  · exact planCanon_copyThPlan
  · exact planCanon_copyThPlan
  · exact planCanon_copymPlan
  · exact planCanon_gatherPlan
  · exact planCanon_scatterPlan
  · exact planCanon_prefetchPlan
  · exact planCanon_mgoPlan
  · exact planCanon_drainPlan
  · exact planCanon_drainPlan
  · exact planCanon_drainPlan
  · exact planCanon_peerPlan
  · exact planCanon_rgoPlan
  · exact planCanon_rgoPlan
  · exact planCanon_rgoPlan
  · exact planCanon_rgoPlan
  · exact planCanon_sortPlan
  · exact planCanon_sortPlan
  · exact planCanon_sortPlan
  · exact planCanon_sortPlan
  · exact planCanon_sortPlan
  · exact planCanon_sortPlan
  · exact planCanon_sparsePlan
  · exact planCanon_sparsePlan
  · exact planCanon_sparsePlan
  · exact planCanon_sparsePlan
  · exact { prep := nofun, elem := fun _ _ _ h => .ok h, finish := fun _ h => .ok h }

theorem Canon.jobCause {key : Nat} {j : Job} {r : Raise} (h : Canon s) : Canon (s.jobCause key j r) := h.same

theorem Canon.runElem {p : Plan} {key k n hit : Nat} {part : List Nat} (h : Canon s) (hp : PlanCanon p) :
    Canon (Machine.runElem p key k n hit part s) := by
  induction n generalizing hit part s with
  | zero => exact h
  | succ n ih =>
    unfold Machine.runElem
    have he := hp.elem k part s h
    split
    · have ht := he.of_ok ‹_›
      split
      · exact ih (Canon.setCell ht)
      · exact Canon.setCell ht
    · exact h

theorem Canon.laterElems {key : Nat} {j : Job} {p : Plan} (h : Canon s) (h1 : PlanCanon p) : Canon (s.laterElems key j p) :=
  h.ite (h.draw.foldl fun _ _ h2 => h2.runElem h1)

theorem Canon.jobStop {key : Nat} {j : Job} {x : Stop} (h : Canon s) (h1 : StopCanon x) : Canon (s.jobStop key j x) := by
  unfold State.jobStop
  split
  · exact h
  · exact h
  · exact h.modJob
  · exact ((h.getD h1).laterElems planCanon_plan).jobCause
  · exact (h.startFetch.ite h).hold
  · exact h.askPage

theorem Canon.jobCommit {key : Nat} {j : Job} (h : Canon s) : Canon (s.jobCommit key j) := by
  unfold State.jobCommit
  dsimp only
  split
  · exact h
  · refine h.ite ?_
    split
    · rename_i t heq
      have h1 : Canon t := h.watchRing.of_ok heq
      split
      · exact h1.commitRing.modJob
      · exact h1
    · rename_i a heq
      have h1 : StopCanon a := h.watchRing.of_error heq
      exact h.jobStop h1

theorem Canon.jobToken {key : Nat} {j : Job} (h : Canon s) : Canon (s.jobToken key j) := by
  unfold State.jobToken
  dsimp only
  split
  · exact h.setCell
  · split
    · exact h
    · exact h.setCell

theorem Canon.jobDone {key id : Nat} (h : Canon s) : Canon (s.jobDone key id) := by
  unfold State.jobDone
  dsimp only
  split
  · exact h
  · refine h.ite ?_
    split
    · exact h.jobCommit
    · exact h.jobCommit.ite (h.jobCommit.setCell.produceStamps.ite h.jobCommit.setCell.produceStamps.jobToken)

theorem Canon.jobMoved {key : Nat} {j : Job} {t : State} {part : Option (List Nat)} (h1 : Canon t) :
    Canon (s.jobMoved key j t part) :=
  h1.setCell.modJob

theorem Canon.jobElem {key : Nat} {j : Job} {p : Plan} (h : Canon s) (h1 : PlanCanon p) : Canon (s.jobElem key j p) := by
  unfold State.jobElem
  refine Canon.ite ?_ (h.ite ?_)
  · split
    · rename_i t rest heq
      have h2 : Canon (t, rest).1 := (h1.elem _ _ _ h).of_ok heq
      exact h2.jobMoved
    · rename_i a heq
      have h2 : StopCanon a := (h1.elem _ _ _ h).of_error heq
      exact h.jobStop h2
  · split
    · rename_i t heq
      have h2 : Canon t := (h1.finish _ h).of_ok heq
      exact h2.modJob.jobDone
    · rename_i a heq
      have h2 : StopCanon a := (h1.finish _ h).of_error heq
      exact h.jobStop h2

theorem Canon.jobStep {key : Nat} {j : Job} (h : Canon s) : Canon (s.jobStep key j) := by
  unfold State.jobStep
  extract_lets p
  have hp : PlanCanon p := planCanon_plan
  clear_value p
  split
  · have hf := hp.prep _ ‹_› s h
    split
    · exact Canon.leaveTiles (hf.of_ok ‹_›)
    · exact h.jobStop (hf.of_error ‹_›)
  · split
    · exact h.jobCause
    · exact (h.laterElems hp).setCell.ite (h.jobElem hp)
    · exact h.jobElem hp

theorem Canon.jobKilled {key : Nat} {j : Job} {q : FaultReq} (h : Canon s) : Canon (s.jobKilled key j q) := by
  unfold State.jobKilled
  split
  · exact Canon.modJob h.same
  · exact Canon.ite (Canon.jobCause h.same) (Canon.modJob (Canon.nestCause h.same))
  · exact Canon.jobCause (Canon.laterElems h.same planCanon_plan)

theorem Canon.jobTurn {key id : Nat} (h : Canon s) : Canon (s.jobTurn key id) := by
  unfold State.jobTurn
  dsimp only
  split
  · exact h
  · refine h.ite (h.jobDone.ite ?_)
    split
    · exact h.jobKilled.ite h
    · refine h.ite ?_
      split
      · exact h.setCell
      · exact h.jobStep

theorem Canon.jobNext {key id : Nat} (h : Canon s) : Canon (s.jobNext key id) := Canon.same (Canon.jobTurn h.same)

theorem Canon.jobRun {key id n : Nat} (h : Canon s) : Canon (State.jobRun key id n s) := by
  induction n generalizing s with
  | zero => exact h
  | succ n ih => exact .ite h.jobNext (ih h.jobNext)

theorem Canon.execAsyncCompletion {cell job : Nat} (h : Canon s) : Answers (execAsyncCompletion cell job s) := h.jobRun.event

theorem Canon.execCompletionQueueApply {cell : Nat} {e : EngTag} {idx : Nat} (h : Canon s) :
    Answers (execCompletionQueueApply cell e idx s) := by
  unfold Machine.execCompletionQueueApply
  refine Canon.event ?_
  dsimp only
  split
  · exact h
  · exact h.ite h.setCell

theorem Canon.execHeldPushAccept {cell : Nat} {e : EngTag} (h : Canon s) : Answers (execHeldPushAccept cell e s) := by
  unfold Machine.execHeldPushAccept
  refine Canon.event ?_
  dsimp only
  split
  · exact h
  · split
    · exact h
    · exact h.setCell

theorem Canon.tileTokens {cell idx : Nat} {t : PeerTile} (h : Canon s) : Canon (s.tileTokens cell idx t) := by
  unfold State.tileTokens
  dsimp only
  split
  · exact h
  · exact h.setCell.modJob.jobDone

theorem Canon.execPeerTileApply {cell idx : Nat} (h : Canon s) : Answers (execPeerTileApply cell idx s) := by
  unfold Machine.execPeerTileApply
  refine Canon.event ?_
  dsimp only
  split
  · exact h
  · refine h.tileTokens.ite (h.ite ?_)
    split
    · exact h.setCell
    · exact h.setCell.tileTokens

theorem Canon.performMessage {chip idx : Nat} (h : Canon s) : Canon (s.performMessage chip idx) := by
  unfold State.performMessage
  dsimp only
  split
  · exact h
  · refine h.ite ?_
    split
    · rename_i s1 heq
      have h1 : Canon s1 := h.perform.of_ok heq
      exact h1.dropMsg
    · exact (h.startFetch.ite h).hold
    · exact h

theorem Canon.execAccessPerformed {t : PerfTarget} (h : Canon s) : Answers (execAccessPerformed t s) := by
  unfold Machine.execAccessPerformed
  refine Canon.event ?_
  split
  · exact h.performMessage
  · exact h.jobNext

theorem Canon.execTrapEntry {cell : Nat} (h : Canon s) : Answers (execTrapEntry cell s) := by
  unfold Machine.execTrapEntry
  refine Canon.event ?_
  dsimp only
  split
  · exact h
  · exact h.setCell.ite (h.setCell.ite h)

theorem Canon.execEngineStall {cell : Nat} (h : Canon s) : Answers (execEngineStall cell s) := by
  unfold Machine.execEngineStall
  refine Canon.event (h.setCell.ite ?_)
  split
  · exact h.setCell
  · refine h.ite ?_
    split
    · exact h.setCell
    · exact h

theorem Canon.execShardStop {cell : Nat} (h : Canon s) : Answers (execShardStop cell s) := h.stopFor.event

theorem Canon.execScratchpadClearDone {cell : Nat} (h : Canon s) : Answers (execScratchpadClearDone cell s) :=
  (h.ite h.setCell).event

theorem Canon.execTimedStart {cell : Nat} (h : Canon s) : Answers (execTimedStart cell s) := (h.setCell.ite h).event

theorem Canon.execShardRetire {cell : Nat} (h : Canon s) : Answers (Machine.execShardRetire cell s) := by
  unfold Machine.execShardRetire
  extract_lets s1 c cls t s2 s3
  have h1 : Canon s1 := h.produceStamps
  have ht : Canon t := h1.drainCell
  have h3 : Canon s3 := ht.dropKept.freeCell.modNode
  exact (h1.ite (ht.ite (h3.arrive.ite h3))).event

theorem Canon.execWaittickEnd {cell : Nat} (h : Canon s) : Answers (execWaittickEnd cell s) := by
  unfold Machine.execWaittickEnd
  split
  · exact h.event
  · split
    · exact Canon.execWaittick h.same
    · exact h.event

theorem Canon.execTraceRetry {cell : Nat} (h : Canon s) : Answers (execTraceRetry cell s) := by
  unfold Machine.execTraceRetry
  dsimp only
  split
  · exact h.event
  · split
    · exact Canon.execMark (Canon.same (h.produceStamps.foldl fun _ _ h1 => h1.jobDone.ite h1))
    · exact (h.produceStamps.foldl fun _ _ h1 => h1.jobDone.ite h1).event

theorem Canon.replaced {cell line : Nat} (h : Canon s) : Canon (s.replaced cell line) := h.same

theorem Canon.execL1Eviction {cell line : Nat} (h : Canon s) : Answers (execL1Eviction cell line s) := by
  unfold Machine.execL1Eviction
  refine Canon.event (Canon.ite ?_ h.replaced)
  split
  · exact h.l1Evict.of_ok ‹_›
  · exact h

theorem Canon.execTileFetchComplete {buf tile : Nat} (h : Canon s) : Answers (execTileFetchComplete buf tile s) :=
  h.fetchDone.lateFree.event

theorem Canon.execTileEvictComplete {buf tile : Nat} (h : Canon s) : Answers (execTileEvictComplete buf tile s) :=
  h.evictDone.lateFree.event

theorem Canon.execRowCounterHalve {chip : Nat} (h : Canon s) : Answers (execRowCounterHalve chip s) := h.halve.event

theorem Canon.dropLost {chip : Nat} (h : Canon s) : Canon (s.dropLost chip) := h.setDie.foldl fun _ _ h1 => h1.terminateFor

theorem Canon.execLinkFailure {chipA chipB : Nat} (h : Canon s) : Answers (execLinkFailure chipA chipB s) :=
  Canon.event (h.ite (Canon.foldl h.same fun _ _ h1 => h1.dropLost))

theorem Canon.countCe {chip : Nat} (h : Canon s) : Canon (s.countCe chip) := h.same

theorem Canon.countUe {chip kind addr source : Nat} (h : Canon s) :
    Canon (s.countUe chip kind addr source) := Canon.postEvent h.same

theorem Canon.writeBackErrors (h : Canon s) : Canon s.writeBackErrors := Canon.foldl h.same fun _ _ h1 => h1.countUe

theorem Canon.l1Ue {chip key line : Nat} (h : Canon s) : Canon (s.l1Ue chip key line) := h.terminateFor.ite h.setCell.countCe

theorem Canon.scrubUe {chip place : Nat} (h : Canon s) : Canon (s.scrubUe chip place) := by
  unfold State.scrubUe
  dsimp only
  split
  · exact h
  · exact h.setDie.countCe
  · exact h.setDie.countCe
  · exact Canon.countUe h.same
  · exact h.l1Ue
  · exact h.setDie.countCe
  · exact h.setCell.countCe
  · exact h.terminateFor
  · exact Canon.countUe h.same
  · exact h.countUe.terminateAll
  · exact h.countUe.terminateFor
  · split
    · exact h.countUe.terminateFor
    · exact h.countUe

theorem Canon.execScrub {chip place : Nat} {found : EccFinding} (h : Canon s) : Answers (execScrub chip place found s) := by
  unfold Machine.execScrub
  refine Canon.event (h.scrubUe.ite ?_)
  split
  · exact h
  · exact h.ite h.countCe
  · exact h.scrubUe

theorem Canon.nextDump {d : Dump} (h : Canon s) : Canon (s.nextDump d) :=
  Canon.same (h.foldl fun _ _ h1 => h1.freeCell.ite h1)

theorem Canon.execDumpWrite (h : Canon s) : Answers (Machine.execDumpWrite s) := by
  unfold Machine.execDumpWrite
  apply Canon.event
  split
  · exact h
  · split
    · exact Canon.nextDump (Canon.same h)
    · extract_lets img s1
      clear_value img
      have h1 : Canon s1 := ⟨h.1, Memory.wf_fold _ (Memory.wf_clearRange _ _ h.2) fun _ _ hm => Memory.wf_write _ _ hm⟩
      exact h1.nextDump

theorem Canon.ends {α : Type} {P : α → Prop} {p : Pkt} {status : Nat} (h : Canon s) :
    Leaves Canon P (s.ends p status) := .error h.admitDone

theorem Canon.need {p : Pkt} {ok : Bool} {status : Nat} (h : Canon s) : Leaves Canon (fun _ => True) (s.need p ok status) :=
  .ite (.ok trivial) h.ends

theorem Canon.pktRead {p : Pkt} {addr : Word} {n : Nat} (h : Canon s) :
    Leaves Canon (fun _ => True) (s.pktRead p addr n) := by
  unfold State.pktRead
  split
  · exact .ok trivial
  · exact .ite (.error h.condemnAt) h.ends

theorem Canon.packetAnswers {p : Pkt} {f : State → PM State} (h : Canon s)
    (hf : ∀ s, Canon s → Leaves Canon Canon (f s)) : Answers (Machine.packet p f s) := by
  refine .next (h.packet fun s hs => ?_)
  have hr := hf s hs
  split
  · exact hr.of_ok ‹_›
  · exact hr.of_error ‹_›

theorem Canon.withCaps {p : Pkt} {r : NodeRec} (h : Canon s) : Leaves Canon (fun _ => True) (s.withCaps p r) :=
  .ite (.ok trivial) (h.pktRead.bind fun _ _ => h.need.bind fun _ _ => .ok trivial)

theorem Canon.admitLaunch {p : Pkt} {prol : Nat} {param : Word} {recs : List NodeRec} {es : List EdgeRec} (h : Canon s) :
    Canon (s.admitLaunch p prol param recs es) :=
  h.ite (Canon.foldl (Canon.same (((h.foldl fun _ _ h1 => h1.addRef).modQueue).ite (h.foldl fun _ _ h1 =>
    h1.addRef))) fun _ _ h1 => h1.nodeReady)

theorem Canon.launchChecked {p : Pkt} {prol : Nat} {param : Word} {recs : List NodeRec} {es : List EdgeRec} (h : Canon s) :
    Leaves Canon Canon (s.launchChecked p prol param recs es) :=
  h.need.bind fun _ _ => h.need.bind fun _ _ => h.need.bind fun _ _ => h.need.bind fun _ _ => h.need.bind fun _ _ =>
    .ok h.admitLaunch

theorem Canon.execGraphLaunch {p : Pkt} (h : Canon s) : Answers (Machine.execGraphLaunch p s) := by
  unfold Machine.execGraphLaunch
  refine h.packetAnswers fun _ h => h.need.bind fun _ _ => h.pktRead.bind fun _ _ => h.need.bind fun _ _ =>
    h.pktRead.bind fun _ _ => h.pktRead.bind fun _ _ => h.need.bind fun _ _ => h.need.bind fun _ _ =>
    (Leaves.mapM fun _ => h.withCaps).bind fun _ _ => ?_
  dsimp only
  exact (h.gsdTouch.gsdTouch.gsdTouch.foldl fun _ _ h => h.ite h.gsdTouch).launchChecked

theorem Canon.launchBlock {p : Pkt} {r : NodeRec} {addr : Word} (h : Canon s) :
    Leaves Canon (fun _ => True) (s.launchBlock p r addr) :=
  .ite (.ok trivial) (h.pktRead.bind fun _ _ => h.need.bind fun _ _ => h.withCaps)

theorem Canon.execNodeLaunch {p : Pkt} (h : Canon s) : Answers (execNodeLaunch p s) :=
  h.packetAnswers fun _ h1 => h1.need.bind fun _ _ => .ite (h1.need.bind fun _ _ =>
    h1.launchChecked) (h1.launchBlock.bind fun _ _ => ((h1.ite h1.gsdTouch).ite
    ((h1.ite h1.gsdTouch).gsdTouch)).launchChecked)

theorem Canon.execSignal {p : Pkt} (h : Canon s) : Answers (execSignal p s) :=
  h.packetAnswers fun _ h1 => h1.need.bind fun _ _ => .ok h1.changeSignal.admitDone

theorem Canon.execWait {p : Pkt} (h : Canon s) : Answers (execWait p s) :=
  h.packetAnswers fun _ h1 => h1.need.bind fun _ _ => .ite (.ok h1.admitDone) (.ite (.ok h1) (.ok h1.takeIn.modQueue))

theorem Canon.execBarrier {p : Pkt} (h : Canon s) : Answers (execBarrier p s) :=
  h.packetAnswers fun _ h1 => h1.need.bind fun _ _ => .ite (.ok h1) (.ok h1.admitDone)

theorem Canon.execTimed {p : Pkt} (h : Canon s) : Answers (execTimed p s) :=
  h.packetAnswers fun _ h1 => h1.need.bind fun _ _ => .ok h1.modQueue.admitDone

theorem Canon.resultOk {p : Pkt} (h : Canon s) : Leaves Canon (fun _ => True) (s.resultOk p) := by
  unfold State.resultOk
  dsimp only
  split
  · exact .ok trivial
  · split
    · exact h.ends
    · split
      · exact .ok trivial
      · split
        · exact .ok trivial
        · exact .ite (.error h.condemnAt) h.ends

theorem Canon.putResult {p : Pkt} {c : Cap} (h : Canon s) : Canon (s.putResult p c) := by
  unfold State.putResult
  refine h.ite (h.hostWrite.ite ?_)
  split
  · exact h.gsdWrite.of_ok ‹_›
  · exact h

theorem Canon.execBufferCreate {p : Pkt} (h : Canon s) : Answers (execBufferCreate p s) := by
  unfold Machine.execBufferCreate
  refine h.packetAnswers fun _ h1 => h1.need.bind fun _ h2 => h1.resultOk.bind fun _ h3 => h1.need.bind fun _ h4 =>
    h1.need.bind fun _ h5 => ?_
  split
  · exact h1.ends
  · rename_i id t heq
    have h6 : Canon (id, t).2 := h1.createBuffer.of_some heq
    split
    · exact h1.ends
    · exact .ok h6.putResult.admitDone

theorem Canon.pktCap {p : Pkt} {rights : BitVec 4} (h : Canon s) : Leaves Canon (fun _ => True) (s.pktCap p rights) :=
  h.need.bind fun _ _ => h.need.bind fun _ _ => .ok trivial

theorem Canon.execBufferDrop {p : Pkt} (h : Canon s) : Answers (execBufferDrop p s) :=
  h.packetAnswers fun _ h1 => h1.pktCap.bind fun _ _ => .ok h1.dropRef.admitDone

theorem Canon.execBufferPublish {p : Pkt} (h : Canon s) : Answers (execBufferPublish p s) :=
  h.packetAnswers fun _ h1 => h1.pktCap.bind fun _ _ => h1.need.bind fun _ _ => .ok h1.publishBuffer.noteExchange.admitDone

theorem Canon.setAnchor {t : TimeBase} (h : Canon s) : Canon (s.setAnchor t) := h.same

theorem Canon.setTimeSource {src link : Nat} (h : Canon s) : Canon (s.setTimeSource src link) := h.setAnchor.ite h.same

theorem Canon.timeTurn (h : Canon s) : Canon s.timeTurn := by
  unfold State.timeTurn
  split
  · exact h
  · exact Canon.ite h.same h.same

theorem Canon.execTbCorrection {offset : Int} {newInc : Nat} (h : Canon s) : Answers (execTbCorrection offset newInc s) :=
  (h.ite (h.setAnchor.ite h.setAnchor.postEvent)).event

theorem Canon.execNyernLinkLock {tick : Nat} (h : Canon s) : Answers (execNyernLinkLock tick s) := Canon.event (h.ite h.same)

theorem Canon.execStopOnTick (h : Canon s) : Answers (execStopOnTick s) := by
  unfold Machine.execStopOnTick
  refine Canon.event ?_
  split
  · exact Canon.ite h.same h
  · exact h

end

end Sys2Proof.Machine
end

