-- ==== Sys2Proof/Proofs/CanonicalHostWindow.lean ====
section
/-! SUPPORT. The host's window, the objects, roles and the scheduler keep the canonical form (log entry 3). -/
namespace Sys2Proof.Machine

section
variable {s : State}

theorem Canon.writeQcfg {n : Nat} {w : Word} (h : Canon s) : Canon (s.writeQcfg n w) := h.same

theorem Canon.writeBar2Ctl {w : Word} (h : Canon s) : Canon (s.writeBar2Ctl w) := h.same

theorem Canon.writePartReg {r : Nat} {w : Word} (h : Canon s) : Canon (s.writePartReg r w) := Canon.ite h.same h.same

theorem Canon.writeRing {r : Nat} {w : Word} (h : Canon s) : Canon (s.writeRing r w) := by
  unfold State.writeRing
  split
  · exact h.same
  · exact h.same
  · exact h.same
  · exact h.same
  · exact h.same
  · exact h.same
  · exact h.same
  · exact h

theorem Canon.ringBell {n : Nat} (h : Canon s) : Canon (s.ringBell n) := h.ite (Canon.modQueue h.same)

theorem Canon.writeQueueReg {n r : Nat} {w : Word} (h : Canon s) : Canon (s.writeQueueReg n r w) := by
  unfold State.writeQueueReg
  split
  · exact h.modQueue
  · exact h.writeQcfg
  · exact h.ringBell.modQueue
  · exact h

theorem Canon.windowWrite {off : Nat} {w : Word} (h : Canon s) : Canon (s.windowWrite off w) :=
  h.ite (h.writeBar2Ctl.ite (h.setTimeSource.ite (h.writePartReg.ite (Canon.ite h.same (Canon.ite h.same (h.writeRing.ite
    (h.changeSignal.ite (h.writeQueueReg.ite h))))))))

theorem Canon.hostTurn {op : HostOp} {f : State → State} (h : Canon s) (h1 : ∀ s, Canon s → Canon (f s)) :
    Canon (s.hostTurn op f) :=
  (h1 _ h).ite h.same

theorem Canon.execRegisterWrite {off : Nat} {value : Word} (h : Canon s) : Answers (execRegisterWrite off value s) :=
  ((h.hostTurn fun _ h1 => h1.windowWrite).ite h).event

theorem Canon.execQcfgWrite {q : Nat} {value : Word} (h : Canon s) : Answers (execQcfgWrite q value s) :=
  ((h.hostTurn fun _ h1 => h1.writeQcfg).ite h).event

theorem Canon.execSignalWrite {sig : Nat} {value : Word} (h : Canon s) : Answers (execSignalWrite sig value s) :=
  ((h.hostTurn fun _ h1 => h1.changeSignal).ite h).event

theorem Canon.bar2Fails {n : Nat} {read : Bool} (h : Canon s) : Canon (s.bar2Fails n read) := h.same

theorem Canon.bar2Perform {off len : Nat} {data : Option (List Byte)} (h : Canon s) :
    Gives Canon (s.bar2Perform off len data) := by
  obtain ⟨perform, hf⟩ : ∃ f, f = State.bar2Perform := ⟨_, rfl⟩
  obtain ⟨places, hp⟩ : ∃ f, f = State.bar2Places := ⟨_, rfl⟩
  rw [← hf]
  delta State.bar2Perform at hf
  rw [← hp] at hf
  subst hf
  dsimp only
  split
  · exact .some h.bar2Fails
  · refine .ite .none ?_
    split
    · exact .some (Canon.same (h.foldl fun _ _ h => h.touchTile))
    · exact .ite .none (.some (h.foldl fun _ _ h => h.homePut))

theorem Canon.bar2Hold {off len : Nat} {data : Option (List Byte)} (h : Canon s) :
    Canon (s.bar2Hold off len data) := by
  obtain ⟨hold, hf⟩ : ∃ f, f = State.bar2Hold := ⟨_, rfl⟩
  obtain ⟨places, hp⟩ : ∃ f, f = State.bar2Places := ⟨_, rfl⟩
  rw [← hf]
  delta State.bar2Hold at hf
  rw [← hp] at hf
  subst hf
  dsimp only
  split
  · split
    · exact h.hold
    · refine h.ite ?_
      split
      · exact h.startFetch.hold
      · exact h
  · exact h

theorem Canon.execBar2Access {off len : Nat} {data : Option (List Byte)} (h : Canon s) :
    Answers (execBar2Access off len data s) := by
  unfold Machine.execBar2Access
  refine Canon.event (h.ite (h.hostTurn fun _ h1 => ?_))
  split
  · exact h1.bar2Perform.of_some ‹_›
  · exact Canon.bar2Hold h1.same

theorem Canon.hostRun {n : Nat} (h : Canon s) : Canon (State.hostRun n s) := by
  obtain ⟨run, hf⟩ : ∃ f, f = State.hostRun := ⟨_, rfl⟩
  obtain ⟨perform, hp⟩ : ∃ f, f = State.bar2Perform := ⟨_, rfl⟩
  rw [← hf]
  delta State.hostRun State.hostRun._f at hf
  rw [← hp] at hf
  have hnext : ∀ n s, run (n + 1) s = match s.hostOps with
    | [] => s
    | .reg off value :: ops => run n ({ s with hostOps := ops }.windowWrite off value)
    | .window off len data :: ops =>
      match perform s off len data with
      | some t => run n { t.leaveTiles .window none with hostOps := ops }
      | none => s.bar2Hold off len data := by subst hf; exact fun _ _ => rfl
  replace hp : ∀ s off len data, Canon s → Gives Canon (perform s off len data) := fun _ _ _ _ h => hp ▸ h.bar2Perform
  induction n generalizing s with
  | zero => subst hf; exact h
  | succ n ih =>
    rw [hnext]
    split
    · exact h
    · exact ih (Canon.windowWrite (Canon.same h))
    · split
      · have ht := (hp _ _ _ _ h).of_some ‹_›
        exact ih (Canon.same (ht.leaveTiles (w := .window) (at_ := none)))
      · exact h.bar2Hold

theorem Canon.execEventRingPost (h : Canon s) : Answers (execEventRingPost s) := h.flushKept.event

theorem Canon.buildTiles {ctx : Nat} {ts : List (Nat × List Byte)} (h : Canon s) :
    Gives (fun r => Canon r.2) (s.buildTiles ctx ts) := by
  unfold State.buildTiles
  dsimp only
  split
  · exact .none
  · split
    · rename_i id s1 heq
      have h1 : Canon (id, s1).2 := h.createBuffer.of_some heq
      exact .some (h1.foldl fun _ _ h2 => h2.fillBuffer)
    · exact .none

theorem Canon.buildData {ctx : Nat} {data : List Byte} (h : Canon s) : Gives (fun r => Canon r.2) (s.buildData ctx data) := by
  unfold State.buildData
  dsimp only
  split
  · exact .some h
  · split
    · exact .none
    · split
      · rename_i id s1 heq
        have h1 : Canon (id, s1).2 := h.createBuffer.of_some heq
        exact .some h1.fillBuffer
      · exact .none

theorem Canon.execObjLoad {c : Cmd} (h : Canon s) : Answers (Machine.execObjLoad c s) := by
  unfold Machine.execObjLoad
  refine h.commandAnswers fun s h => h.must.bind fun _ _ => h.cmdCtx.bind fun _ _ => ?_
  split
  · exact h.fails
  · split
    · exact h.fails
    · rename_i hb
      obtain ⟨⟨id, u⟩, ht, hd⟩ := Option.bind_eq_some_iff.1 hb
      obtain ⟨d, he, hu⟩ := Option.map_eq_some_iff.1 hd
      cases hu
      have h1 : Canon u := h.buildTiles.of_some ht
      exact .ok (Canon.cmdDone (Canon.same (h1.buildData.of_some he)))

theorem Canon.icinvCtx {ctx lo len : Nat} (h : Canon s) : Canon (s.icinvCtx ctx lo len) := h.same

theorem Canon.execObjPatch {c : Cmd} (h : Canon s) : Answers (execObjPatch c s) := by
  unfold Machine.execObjPatch
  refine h.commandAnswers fun _ h1 => h1.must.bind fun _ h2 => ?_
  dsimp only
  split
  · exact h1.fails
  · refine h1.must.bind fun _ h3 => h1.cmdCtx.bind fun _ h4 => ?_
    split
    · exact h1.fails
    · exact h1.must.bind fun _ _ => .ok (Canon.cmdDone (Canon.ite (Canon.icinvCtx h1.same) h1.same))

theorem Canon.dropObject {o : CodeObj} (h : Canon s) : Canon (s.dropObject o) := by
  unfold State.dropObject
  split
  · exact h.dropRef.dropRef
  · exact h.dropRef

theorem Canon.execObjUnload {c : Cmd} (h : Canon s) : Answers (execObjUnload c s) := by
  unfold Machine.execObjUnload
  refine h.commandAnswers fun _ h1 => h1.must.bind fun _ h2 => ?_
  dsimp only
  split
  · exact h1.fails
  · exact h1.must.bind fun _ _ => h1.cmdCtx.bind fun _ _ => .ite (h1.must.bind fun _ _ =>
      .ok (Canon.cmdDone (Canon.same h1.dropObject))) (.ok (Canon.cmdDone (Canon.same ((h1.foldl fun _ _ h5 =>
      h5.discardNode).dropObject))))

theorem Canon.predWord {d pts : Nat} {dec : Bool → List (List Val) → Option (List Int) → Int × Nat} {f : Rrr} (h : Canon s) :
    Answers (predWord d pts dec f s) := by
  unfold Machine.predWord
  refine h.vecWord fun _ h1 => lands_stageFree.bind fun _ h2 => ?_
  dsimp only
  split
  · exact .error .none
  · exact .ok h1.setCore

theorem Canon.signWord {p : PredForm} {f : Rrr} (h : Canon s) : Answers (signWord p f s) := h.predWord

theorem Canon.endMoves {part : Nat} (h : Canon s) : Canon (s.endMoves part) :=
  (h.foldl fun _ _ h1 => h1.evictDone).foldl fun _ _ h1 => h1.fetchDone

theorem Canon.settleTiles {n part : Nat} (h : Canon s) : Canon (State.settleTiles n s part) := by
  induction n generalizing s with
  | zero => exact h
  | succ n ih => exact .ite (ih h.endMoves) h

theorem Canon.expel {id i frame : Nat} (h : Canon s) : Canon (s.expel id i frame) := by
  have h1 : Canon ((s.setTile id i { s.tile id i with st := .evicting }).evictDone id i) := h.setTile.evictDone
  exact ⟨Memory.wf_clearRange _ _ h1.1, h1.2⟩

theorem Canon.emptyPool {part : Nat} (h : Canon s) : Canon (s.emptyPool part) := by
  unfold State.emptyPool
  refine h.foldl fun _ _ h1 => ?_
  split
  · exact h1.expel.ite h1
  · exact h1

theorem Canon.evacuate {part ctx va chip : Nat} {frames : List Nat} (h : Canon s) :
    Canon (s.evacuate part ctx va chip frames) :=
  Canon.foldl (Canon.same h.mapPages) fun _ _ h1 => h1.noteBad.movePlace

theorem Canon.changeRole {part chip role ctx va : Nat} {frames : List Nat} (h : Canon s) :
    Canon (s.changeRole part chip role ctx va frames) :=
  ((((((h.foldl fun _ _ h1 => h1.discardNode).settleTiles).emptyPool).foldl fun _ _ h1 =>
    h1.setDie).ite (((((h.foldl fun _ _ h1 => h1.discardNode).settleTiles).emptyPool).foldl fun _ _ h1 =>
    h1.setDie).evacuate)).zeroTarn).setRole

theorem Canon.execRoleSet {c : Cmd} (h : Canon s) : Answers (Machine.execRoleSet c s) := by
  unfold Machine.execRoleSet
  refine h.commandAnswers fun _ h => h.must.bind fun _ _ => h.cmdPart.bind fun _ _ => h.must.bind fun _ _ =>
    h.must.bind fun _ _ =>
    h.must.bind fun _ _ => h.must.bind fun _ _ => ?_
  extract_lets roles frames rest
  have hrest u : Leaves Canon Canon (rest u) := by
    refine .ite (.ok h.cmdDone) (h.must.bind fun _ _ => ?_)
    clear_value frames
    split
    · exact h.fails
    · exact h.must.bind fun _ _ => .ok h.changeRole.beginReenum
  exact .ite (Leaves.bind (P := fun _ => True) (.ok trivial) fun u _ => hrest u) 
    ((h.cmdCtx.map (Q := fun _ => True) fun _ _ => trivial).bind fun u _ => hrest u)

theorem Canon.execPowerSet {c : Cmd} (h : Canon s) : Answers (execPowerSet c s) :=
  h.commandAnswers fun _ h1 => h1.must.bind fun _ _ => h1.cmdPart.bind fun _ _ => h1.must.bind fun _ _ =>
    .ok (((((h1.foldl fun _ _ h5 => h5.discardNode).ite h1).modPart).postEvent).cmdDone)

theorem Canon.scalarRrr {f : Rrr} {fn : ITy → Word → Word → Word} (h : Canon s) : Answers (scalarRrr f fn s) :=
  h.runWord fun _ h1 => lands_seqM (h1.src.bind fun _ h2 => h2.src.bind fun _ h3 => h3.dst)

theorem Canon.scalarRi {f : Ri} {fn : ITy → Word → Word → Word} (h : Canon s) : Answers (scalarRi f fn s) :=
  h.runWord fun _ h1 => lands_seqM (h1.src.bind fun _ h2 => h2.dst)

theorem Canon.scalarUn {f : Rrr} {fn : State → ITy → Word → Word} (h : Canon s) : Answers (scalarUn f fn s) :=
  h.runWord fun _ h1 => lands_seqM (h1.src.bind fun _ h2 => h2.dst)

theorem Canon.execSel {f : Rrr} (h : Canon s) : Answers (execSel f s) :=
  h.runWord fun _ h1 => lands_seqM (lands_readReg.bind fun _ _ => h1.src.bind fun _ h3 => h3.src.bind fun _ h4 => h4.dst)

theorem Canon.execBfi {f : Rrr} (h : Canon s) : Answers (execBfi f s) :=
  h.runWord fun _ h1 => lands_seqM (lands_readReg.bind fun _ _ => h1.src.bind fun _ h3 => h3.src.bind fun _ h4 => h4.dst)

theorem Canon.execCvta {f : Rrr} (h : Canon s) : Answers (execCvta f s) :=
  h.runWord fun _ h1 => lands_seqM (h1.src.bind fun _ h2 => .ite (h2.src.bind fun _ h3 => h3.dst) h2.dst)

theorem Canon.execLcset {f : Rrr} (h : Canon s) : Answers (execLcset f s) :=
  h.runWord fun _ h1 => lands_seqM (h1.src.bind fun _ h2 => h2.writeLc)

theorem Canon.execLi {f : Ri} (h : Canon s) : Answers (execLi f s) := h.runWord fun _ h1 => lands_seqM h1.dst

theorem Canon.execNodeRetire {node : Nat} (h : Canon s) : Answers (execNodeRetire node s) := by
  unfold Machine.execNodeRetire
  refine Canon.event ?_
  split
  · exact h.retireNode.ite h
  · exact h

theorem Canon.execNodePlace {part : Nat} (h : Canon s) : Answers (execNodePlace part s) := h.placeAll.event

theorem Canon.execFallbackTimeout {node : Nat} (h : Canon s) : Answers (execFallbackTimeout node s) := by
  unfold Machine.execFallbackTimeout
  refine Canon.event ?_
  split
  · exact h
  · split
    · refine Canon.ite ?_ h
      split
      · exact h.modNode.chooseClass
      · exact h
    · exact h

theorem Canon.execLatencyToleranceExpiry {node : Nat} (h : Canon s) : Answers (execLatencyToleranceExpiry node s) := by
  unfold Machine.execLatencyToleranceExpiry
  refine Canon.event ?_
  split
  · exact h.placeAll.ite h
  · exact h

theorem Canon.execTimedPlacementOpen {node : Nat} (h : Canon s) : Answers (execTimedPlacementOpen node s) := by
  unfold Machine.execTimedPlacementOpen
  refine Canon.event ?_
  split
  · exact h.placeAll.ite h
  · exact h

theorem Canon.execNodeHalted {node : Nat} (h : Canon s) : Answers (execNodeHalted node s) := by
  unfold Machine.execNodeHalted
  refine Canon.event ?_
  split
  · exact h.haltDone.ite (h.releasePreempts.ite h)
  · exact h

theorem Canon.execSlotStarvation {node : Nat} (h : Canon s) : Answers (execSlotStarvation node s) := by
  unfold Machine.execSlotStarvation
  refine Canon.event ?_
  split
  · exact h
  · split
    · refine h.ite ?_
      split
      · exact h
      · split
        · exact h
        · exact h.discardNode.modNode.placeBut.ite h.discardNode.markFaulted.modNode.faultQueue.gsdFault
    · exact h

theorem Canon.execQueueDeadlock {q : Nat} (h : Canon s) : Answers (execQueueDeadlock q s) := by
  unfold Machine.execQueueDeadlock
  refine Canon.event ?_
  split
  · exact h
  · exact h.ite (Canon.postEvent h.same)

theorem Canon.execPrologueRun {node : Nat} (h : Canon s) : Answers (execPrologueRun node s) := by
  unfold Machine.execPrologueRun
  refine Canon.event ?_
  split
  · exact h
  · refine h.ite ?_
    split
    · exact h.prologueFault.ite h.same
    · exact h

theorem Canon.execLthbWrite {node : Nat} {value : Word} (h : Canon s) : Answers (execLthbWrite node value s) := by
  unfold Machine.execLthbWrite
  refine Canon.event (h.ite ?_)
  split
  · exact h.writeLthb.of_ok ‹_›
  · exact Canon.deliver h.same
  · exact h

end

end Sys2Proof.Machine
end

