-- ==== Sys2Proof/Proofs/CanonicalStep.lean ====
section
/-! Every step keeps the canonical form (log entry 3): an obligation. -/
namespace Sys2Proof.Machine

section
variable {s : State}

theorem Canon.nextTurn (h : Canon s) : Canon s.nextTurn.2 := by
  unfold State.nextTurn
  split
  · exact h.same
  · exact h.same

theorem Canon.passTicks {n : Nat} (h : Canon s) : Canon (s.passTicks n) := Canon.ite h.same h

theorem Canon.turnBacks (h : Canon s) : Canon s.turnBacks := h.foldl fun _ _ h1 => h1.setCell

theorem Canon.owedDone (h : Canon s) : Canon s.owedDone :=
  h.ite h.hostRun.lateFrees.turnBacks.haltReports.reenumTurn.timeTurn.bootTurn.lateFaultTurn.writeBackErrors.i3cTurn

theorem Canon.fetchAct {a : Act} (h : Canon s) : FetchedCanon (s.fetchAct a) := by
  unfold State.fetchAct
  split
  · exact h
  · split
    · exact h.fetchEngine
    · exact h.fetchCommand
    · exact h.fetchPacket
    · split
      · exact h
      · exact h

theorem Canon.exec {i : Instr} (h : Canon s) : Answers (Machine.exec i s) := by
  cases i with dsimp only [Machine.exec]
  | add | sub | mul | mulh | div | rem | and | or | xor | andn | shl | shr | shra | min | max | seteq | setne
  | setlt | setle | bfx | addsc => exact h.scalarRrr
  | addRi | andRi | orRi | shlRi | shrRi | setltRi => exact h.scalarRi
  | sel => exact h.execSel
  | clz | popc | aptest => exact h.scalarUn
  | bfi => exact h.execBfi
  | cvta => exact h.execCvta
  | lcset => exact h.execLcset
  | li => exact h.execLi
  | tick => exact h.execTick
  | trap => exact h.execTrap
  | bkpt => exact h.execBkpt
  | eret => exact h.execEret
  | csrr => exact h.execCsrr
  | csrw | csrs | csrc => exact h.csrForm
  | waittick => exact h.execWaittick
  | halt => exact h.execHalt
  | icinv => exact h.execIcinv
  | tlbinv => exact h.execTlbinv
  | watch => exact h.execWatch
  | pendGo => exact h.execPendGo
  | pendCancel => exact h.execPendCancel
  | pendRepeat => exact h.execPendRepeat
  | echo | discver | fwsvcUndefined => exact h.service
  | mark => exact h.execMark
  | out => exact h.execOut
  | mset | mopd | mscale => exact h.shadowWord
  | rtt => exact h.execRtt
  | ld => exact h.execLd
  | st => exact h.execSt
  | lds => exact h.execLds
  | sts => exact h.execSts
  | rclaimCfg => exact h.execRclaimCfg
  | rclaim => exact h.execRclaim
  | rtake => exact h.execRtake
  | rcommit => exact h.execRcommit
  | rdone => exact h.execRdone
  | waitfill | waitfree => exact h.ringWait
  | atomAdd | atomAnd | atomOr | atomXor | atomMin | atomMax | atomExch | atomCas | atomIncw | atomDecw
  | atomFaddb => exact h.atomic
  | phase => exact h.execPhase
  | rel => exact h.execRel
  | acq => exact h.execAcq
  | barDie | barNode => exact h.barrier
  | publish => exact h.execPublish
  | copy | copyThIn | copyThOut | copym | gather | scatter | prefetch => exact h.asyncWord
  | thfence => exact h.execThfence
  | capopen => exact h.execCapopen
  | capgive => exact h.execCapgive
  | capdup => exact h.execCapdup
  | capdrop => exact h.execCapdrop
  | fenceEng | fenceEngAsync => exact h.fence
  | fadd | fsub | fmul | fdiv => exact h.floatBin
  | fsqrt | fabs | fneg | iabs => exact h.vecUn
  | fma | fms => exact h.vecTer
  | fmin | fmax => exact h.vecBin
  | fcmp => exact h.execFcmp
  | icmp => exact h.execIcmp
  | iadd | isub | imul | imulh | imin | imax | iand | ior | ixor | ishl | ishr | ishra => exact h.intBin
  | vsel => exact h.execVsel
  | kand | kor | kxor | knot => exact h.maskWord
  | movV => exact h.execMovV
  | rotr | rotc | bcr | bcc => exact h.axisMove
  | redr | redc => exact h.reduceWord
  | trb => exact h.execTrb
  | unpk => exact h.execUnpk
  | pack => exact h.execPack
  | cvt => exact h.execCvt
  | exp2 | log2 | rcp | rsq | sin | cos | tanh => exact h.specialWord
  | rotBase => exact h.execRotBase
  | rotBaseOff => exact h.execRotBaseOff
  | orient2 | orient3 | incircle | insphere => exact h.signWord
  | segcross => exact h.predWord
  | vld => exact h.execVld
  | vst => exact h.execVst
  | mzero => exact h.execMzero
  | mload => exact h.execMload
  | mgo => exact h.execMgo
  | mdrainSpad | mdrainGlob | mdrainGlobAdd | mdrainPeer => exact h.drainWord
  | rgoMax | rgoExpsum | rgoScale | rgoNorm => exact h.rgoWord
  | sort | segsort | merge | topk | ksel | uniq => exact h.sortWord
  | spmmCsr | spmmBsr | sddmm | spmv => exact h.sparseWord
  | br => exact h.execBr
  | jmpi => exact h.execJmpi
  | call => exact h.execCall
  | calli => exact h.execCalli
  | ret => exact h.execRet
  | loop => exact h.execLoop
  | break_ => exact h.execBreak
  | follow => exact h.execFollow
  | region => exact h.execRegion
  | end_ => exact h.execEnd
  | nop => exact h.execNop
  | peerTileApply => exact h.execPeerTileApply
  | asyncCompletion => exact h.execAsyncCompletion
  | completionQueueApply => exact h.execCompletionQueueApply
  | heldPushAccept => exact h.execHeldPushAccept
  | trapEntry => exact h.execTrapEntry
  | engineStall => exact h.execEngineStall
  | shardStop => exact h.execShardStop
  | scratchpadClearDone => exact h.execScratchpadClearDone
  | shardRetire => exact h.execShardRetire
  | nodeRetire => exact h.execNodeRetire
  | nodePlace => exact h.execNodePlace
  | fallbackTimeout => exact h.execFallbackTimeout
  | slotStarvation => exact h.execSlotStarvation
  | queueDeadlock => exact h.execQueueDeadlock
  | prologueRun => exact h.execPrologueRun
  | lthbWrite => exact h.execLthbWrite
  | timedStart => exact h.execTimedStart
  | nodeHalted => exact h.execNodeHalted
  | graphLaunch => exact h.execGraphLaunch
  | nodeLaunch => exact h.execNodeLaunch
  | signal => exact h.execSignal
  | wait => exact h.execWait
  | bufferCreate => exact h.execBufferCreate
  | bufferDrop => exact h.execBufferDrop
  | bufferPublish => exact h.execBufferPublish
  | barrier => exact h.execBarrier
  | timed => exact h.execTimed
  | qcfgWrite => exact h.execQcfgWrite
  | signalWrite => exact h.execSignalWrite
  | registerWrite => exact h.execRegisterWrite
  | partCreate => exact h.execPartCreate
  | partDestroy => exact h.execPartDestroy
  | ctxCreate => exact h.execCtxCreate
  | ctxDestroy => exact h.execCtxDestroy
  | ctxSwitch => exact h.execCtxSwitch
  | preempt => exact h.execPreempt
  | map => exact h.execMap
  | unmap => exact h.execUnmap
  | faultReply => exact h.execFaultReply
  | objLoad => exact h.execObjLoad
  | objPatch => exact h.execObjPatch
  | objUnload => exact h.execObjUnload
  | graphCancel => exact h.execGraphCancel
  | haltResume => exact h.execHaltResume
  | haltDiscard => exact h.execHaltDiscard
  | dumpArea => exact h.execDumpArea
  | watchDefaults => exact h.execWatchDefaults
  | traceDefaults => exact h.execTraceDefaults
  | stopAt => exact h.execStopAt
  | roleSet => exact h.execRoleSet
  | powerSet => exact h.execPowerSet
  | attest => exact h.execAttest
  | fwStage => exact h.execFwStage
  | journalClear => exact h.execJournalClear
  | tileFetchComplete => exact h.execTileFetchComplete
  | tileEvictComplete => exact h.execTileEvictComplete
  | rowCounterHalve => exact h.execRowCounterHalve
  | linkFailure => exact h.execLinkFailure
  | dumpWrite => exact h.execDumpWrite
  | scrub => exact h.execScrub
  | thermalTrip => exact h.execThermalTrip
  | pcieReset => exact h.execPcieReset
  | powerGood => exact h.execPowerGood
  | nyernLinkLock => exact h.execNyernLinkLock
  | tbCorrection => exact h.execTbCorrection
  | stopOnTick => exact h.execStopOnTick
  | traceRetry => exact h.execTraceRetry
  | eventRingPost => exact h.execEventRingPost
  | bar2Access => exact h.execBar2Access
  | i3cMctpMessage => exact h.execI3cMctpMessage
  | accessPerformed => exact h.execAccessPerformed
  | l1Eviction => exact h.execL1Eviction
  | waittickEnd => exact h.execWaittickEnd
  | latencyToleranceExpiry => exact h.execLatencyToleranceExpiry
  | timedPlacementOpen => exact h.execTimedPlacementOpen
  | powerLoss => exact h.execPowerLoss

theorem Canon.fetchNext (h : Canon s) : FetchedCanon s.fetchNext := h.nextTurn.passTicks.owedDone.fetchAct

theorem Canon.step (h : Canon s) : Answers (Machine.step s) := by
  unfold Machine.step
  have hf : FetchedCanon s.fetchNext := h.fetchNext
  split
  · rename_i heq
    rw [heq] at hf
    exact Canon.exec hf
  · rename_i heq
    rw [heq] at hf
    exact .next hf

end

/-- Settles O59: every operation that a step is made of keeps the canonical form, or ends the word without a next
state. -/
theorem memoryStaysCanonical : Obligations.MemoryStaysCanonical := by
  intro s t hm hh hs
  have hn : Answers (step s) := Canon.step ⟨hm, hh⟩
  rw [hs] at hn
  cases hn with
  | next ht => exact ht

end Sys2Proof.Machine
end

