-- ==== Sys2Proof/Proofs/MemoryEvents.lean ====
section
/-! The events of the memories (chapters 10 and 13): moves that end, hit counters, lost links, scrubbing and dumps. -/
namespace Sys2Proof.Machine

/-! ## A block copied -/

section
variable {α : Type}

theorem FMap.find?_shift (m : FMap α) (k i : Nat) :
    FMap.find? (m.map fun e => (e.1 + k, e.2)) i = if k ≤ i then FMap.find? m (i - k) else none := by
  induction m with
  | nil => simp [FMap.find?]
  | cons e m ih =>
    rw [List.map_cons, FMap.find?, ih, FMap.find?]
    by_cases hi : i = e.1 + k
    · rw [if_pos hi, if_pos (by omega), if_pos (by omega)]
    · rw [if_neg hi]
      by_cases hk : k ≤ i
      · rw [if_pos hk, if_pos hk, if_neg (by omega)]
      · rw [if_neg hk, if_neg hk]

theorem FMap.lt_of_mem_slice {m : FMap α} {b n : Nat} {e : Nat × α} (h : e ∈ FMap.slice m b n) : e.1 < n := by
  simp only [FMap.slice, List.mem_map, List.mem_filter, Bool.and_eq_true, decide_eq_true_eq] at h
  obtain ⟨x, ⟨-, hlo, hhi⟩, rfl⟩ := h
  dsimp only
  omega

/-- An entry after a range has been replaced by a slice. -/
theorem FMap.get_blit (m sl : FMap α) (dst n i : Nat) (d : α) (hsl : ∀ e ∈ sl, e.1 < n) :
    FMap.get (FMap.blit m dst n sl) i d = if dst ≤ i ∧ i < dst + n then FMap.get sl (i - dst) d else FMap.get m i d := by
  have hlow := FMap.find?_filter m (fun k => decide (k < dst)) i
  have hhigh := FMap.get_filter m (fun k => decide (dst + n ≤ k)) i d
  simp only [decide_eq_true_eq] at hlow hhigh
  rw [FMap.blit, List.append_assoc, FMap.get_append, hlow, FMap.get_append, FMap.find?_shift, hhigh]
  rcases Nat.lt_or_ge i dst with hl | hl
  · rw [if_pos hl, if_neg (by omega), if_neg (by omega), if_neg (by omega)]
    rfl
  · rw [if_neg (by omega), if_pos hl, Option.getD_none]
    rcases Nat.lt_or_ge i (dst + n) with hh | hh
    · rw [if_neg (by omega), if_pos ⟨hl, hh⟩]
      rfl
    · rw [if_pos hh, if_neg (by omega), FMap.find?_eq_none fun e he => by have := hsl e he; omega]
      rfl

/-- A byte of a block that is copied, and a byte beside it. -/
theorem Memory.read_copy (m : Memory) (src dst n a : Nat) : Memory.read (FMap.blit m dst n (FMap.slice m src n)) a
    = if dst ≤ a ∧ a < dst + n then Memory.read m (src + (a - dst)) else Memory.read m a := by
  rw [Memory.read, FMap.get_blit _ _ _ _ _ _ fun _ => FMap.lt_of_mem_slice]
  split
  · rw [FMap.get_slice _ _ _ _ _ (by omega)]
    rfl
  · rfl

end

section
variable {s : State} {src dst n a : Nat}

theorem State.read_movePlace_same (ha : a < n) :
    Memory.read (s.movePlace src dst n).mem (dst + a) = Memory.read s.mem (src + a) := by
  rw [State.movePlace, Memory.read_copy, if_pos (by omega), Nat.add_sub_cancel_left]

theorem State.read_movePlace_ne (ha : a < dst ∨ dst + n ≤ a) :
    Memory.read (s.movePlace src dst n).mem a = Memory.read s.mem a := by
  rw [State.movePlace, Memory.read_copy, if_neg (by omega)]

end

/-! ## Moves that end -/

section
variable {s : State} {id i f : Nat}

theorem State.fetchDone_of_not_fetching (h : (s.tile id i).st ≠ .fetching) : s.fetchDone id i = s := by
  rw [State.fetchDone, if_pos h]

/-- A fetch without a frame asks for one again. -/
theorem State.fetchDone_without_frame (h : (s.tile id i).st = .fetching) (hf : (s.tile id i).frame = none) :
    s.fetchDone id i = s.claimFrame id i (s.tile id i) := by
  rw [State.fetchDone, if_neg (not_not.2 h), hf]

/-- A fetch into a frame that another tile still leaves waits. -/
theorem State.fetchDone_of_leaver (h : (s.tile id i).st = .fetching) (hf : (s.tile id i).frame = some f)
    (hl : (s.leaver f).isSome = true) : s.fetchDone id i = s := by
  rw [State.fetchDone, if_neg (not_not.2 h), hf]
  exact if_pos hl

/-- The four pages of a tile moved into a frame. -/
theorem State.fetchDone_moves {t : State} (h : (s.tile id i).st = .fetching) (hf : (s.tile id i).frame = some f)
    (hl : s.leaver f = none)
    (ht : t = (List.range 4).foldl (fun u j => u.movePlace (u.tileHbm id i (pageBytes * j)) (f + pageBytes * j) pageBytes)
      (s.applyInPlace id i)) :
    s.fetchDone id i = t.setTile id i
      { s.tile id i with st := .resident, log := [], slot := false, lastAccess := t.tick } := by
  rw [State.fetchDone, if_neg (not_not.2 h), hf]
  dsimp only
  rw [hl, if_neg (by decide), ht, hf]
  rfl

theorem State.evictDone_of_not_evicting (h : (s.tile id i).st ≠ .evicting) : s.evictDone id i = s := by
  unfold State.evictDone
  dsimp only
  split
  · next hst _ => exact absurd hst h
  · rfl

/-- The four pages of a tile moved home, the frame's check bits noted before and its tags gone after. -/
theorem State.evictDone_moves {t : State} (h : (s.tile id i).st = .evicting) (hf : (s.tile id i).frame = some f)
    (ht : t = (List.range 4).foldl (fun u j => u.movePlace (f + pageBytes * j) (u.tileHbm id i (pageBytes * j)) pageBytes)
      { s with ueFound := s.ueFound ++ s.badIn f 65536 }) :
    s.evictDone id i = ({ t with tags := FMap.clearRange t.tags (f / 64) 1024 } : State).setTile id i
      { Tile.cold with held := (s.tile id i).held } := by
  rw [State.evictDone, h, hf, ht]
  rfl

theorem State.lateFree_eq_self {b : Buffer} (hb : s.buf? id = some b) (h : b.freeing = false ∨ s.movesBuf b = true) :
    s.lateFree id = s := by
  rcases h with h | h <;> simp [State.lateFree, hb, h]

theorem State.lateFree_frees {b : Buffer} (hb : s.buf? id = some b) (hf : b.freeing = true) (hm : s.movesBuf b = false) :
    s.lateFree id = s.freeBuffer id := by
  simp [State.lateFree, hb, hf, hm]

end

/-! ## Errors that a write-back meets -/

theorem State.mem_badIn {s : State} {place n p : Nat} (hp : place % 64 = 0) (hn : n % 64 = 0) :
    p ∈ s.badIn place n ↔ p % 64 = 0 ∧ place ≤ p ∧ p < place + n ∧ (p / 64, true) ∈ s.bad := by
  simp only [State.badIn, List.mem_map, List.mem_filter, Bool.and_eq_true, decide_eq_true_eq]
  constructor
  · rintro ⟨⟨k, b⟩, ⟨hk, rfl, hlo, hhi⟩, rfl⟩
    dsimp only at hlo hhi hk ⊢
    exact ⟨by omega, by omega, by omega, by rwa [Nat.mul_div_cancel_left k (by decide)]⟩
  · rintro ⟨hd, hlo, hhi, hb⟩
    exact ⟨(p / 64, true), ⟨hb, rfl, by dsimp only; omega, by dsimp only; omega⟩, by dsimp only; omega⟩

theorem State.writeBackErrors_single {s : State} {p : Nat} (hp : p < 2 ^ 40) (h : s.ueFound = [p]) :
    s.writeBackErrors = ({ s with ueFound := [] } : State).countUe (memDie p) (placeKind p) (placeAddr p) 1 := by
  rw [State.writeBackErrors, h, List.foldl_cons, List.foldl_nil, if_pos hp]

/-! ## What a posted event leaves alone -/

/-- The state but for the event ring and host memory, as far as the error counters need it. -/
def SameErrors (s t : State) : Prop := t.mem = s.mem ∧ t.bad = s.bad ∧ t.errs = s.errs

theorem flushKept_sameErrors (l : List EventBytes) (s : State) : SameErrors s (s.flushKept l) := by
  induction l generalizing s with
  | nil => exact ⟨rfl, rfl, rfl⟩
  | cons b l ih =>
    unfold State.flushKept
    split
    · exact ih (s.ringPut b)
    · exact ⟨rfl, rfl, rfl⟩

theorem postEvent_sameErrors (s : State) (kind part ctx : Nat) (fields : List (Nat × Nat × Nat)) (rec_ : List Byte) :
    SameErrors s (s.postEvent kind part ctx fields rec_) := by
  have h := flushKept_sameErrors s.evKept s
  unfold State.postEvent
  dsimp only
  split
  · exact h
  · split <;> exact h

section
variable (s : State) (chip kind addr source : Nat)

theorem State.countUe_mem : (s.countUe chip kind addr source).mem = s.mem := (postEvent_sameErrors _ ..).1

theorem State.countUe_bad : (s.countUe chip kind addr source).bad = s.bad := (postEvent_sameErrors _ ..).2.1

/-- The counter of uncorrectable errors goes up by one, to its greatest value at most; the other one stays. -/
theorem State.errOf_countUe : (s.countUe chip kind addr source).errOf chip
    = ((s.errOf chip).1, min ((s.errOf chip).2.1 + 1) (2 ^ 32 - 1), kind, addr % 2 ^ 48) := by
  obtain ⟨-, -, he⟩ := postEvent_sameErrors _ 5 _ 0 [(8, 1, chip), (9, 1, kind), (10, 1, source), (16, 8, addr)] []
  rw [State.countUe, State.errOf, he, FMap.get_put_same]

end

/-! ## Lost links -/

section
variable {s : State} {a b : Nat}

theorem execLinkFailure_of_no_link (h : (s.links.any fun l => l == (a, b) || l == (b, a)) = false) :
    execLinkFailure a b s = .next s := by
  simp only [execLinkFailure, h, event, Bool.not_false, Bool.true_or, if_true]

/-- A link that fails for the first time is recorded, and what it alone carried is dropped. -/
theorem execLinkFailure_of_link (h : (s.links.any fun l => l == (a, b) || l == (b, a)) = true)
    (hab : (a, b) ∉ s.deadLinks) (hba : (b, a) ∉ s.deadLinks) :
    execLinkFailure a b s
      = .next ((List.range 44).foldl State.dropLost { s with deadLinks := s.deadLinks ++ [(min a b, max a b)] }) := by
  have hknown : (s.deadLinks.contains (a, b) || s.deadLinks.contains (b, a)) = false := by simp [hab, hba]
  simp only [execLinkFailure, h, hknown, event, Bool.not_true, Bool.false_or, Bool.false_eq_true, if_false]

end

/-! ## Scrubbing -/

section
variable {s : State} {chip place loc key line : Nat} (hk : s.knownBad chip place = false)
include hk

theorem execScrub_clean : execScrub chip place .clean s = .next s := by
  rw [execScrub, hk]
  rfl

theorem execScrub_correctable (h : s.scrubbed chip place ≠ .nothing) :
    execScrub chip place .correctable s = .next (s.countCe chip) := by
  simp [execScrub, hk, h, event]

theorem execScrub_uncorrectable : execScrub chip place .uncorrectable s = .next (s.scrubUe chip place) := by
  rw [execScrub, hk]
  rfl

end

section
variable (s : State) (chip loc kind addr source : Nat)

/-- The state after a place that holds data is found bad: the place is marked and the error counted. -/
def State.markBadUe : State := ({ s with bad := FMap.put s.bad (loc / 64) true }).countUe chip kind addr source

theorem State.markBadUe_mem : (s.markBadUe chip loc kind addr source).mem = s.mem := State.countUe_mem ..

theorem State.markBadUe_bad : FMap.get (s.markBadUe chip loc kind addr source).bad (loc / 64) false = true := by
  rw [State.markBadUe, State.countUe_bad, FMap.get_put_same]

theorem State.errOf_markBadUe : (s.markBadUe chip loc kind addr source).errOf chip
    = ((s.errOf chip).1, min ((s.errOf chip).2.1 + 1) (2 ^ 32 - 1), kind, addr % 2 ^ 48) := State.errOf_countUe ..

end

section
variable {s : State} {chip place loc key line : Nat}

theorem State.scrubUe_of_data (h : s.scrubbed chip place = .data loc) :
    s.scrubUe chip place = s.markBadUe chip loc (placeKind loc) (placeAddr loc) 0 := by
  rw [State.scrubUe, h]
  rfl

theorem State.scrubUe_of_dirty (h : s.scrubbed chip place = .dirty loc) :
    s.scrubUe chip place = s.markBadUe chip loc 2 (placeAddr loc) 0 := by
  rw [State.scrubUe, h]
  rfl

theorem State.scrubUe_of_l1 (h : s.scrubbed chip place = .l1 key line) : s.scrubUe chip place = s.l1Ue chip key line := by
  rw [State.scrubUe, h]

/-- A line of an L1 none of whose bytes is dirty is dropped and read again. -/
theorem State.l1Ue_of_clean (h : ∀ e ∈ (s.cell key).l1, lineOf e.1 = line → e.2.dirty = false) :
    s.l1Ue chip key line = (s.setCell key { s.cell key with
      l1 := (s.cell key).l1.filter fun e => lineOf e.1 != line, l1Tag := FMap.erase (s.cell key).l1Tag line }).countCe chip := by
  refine if_neg ?_
  simpa using h

/-- A line with a byte that stands nowhere else costs the context. -/
theorem State.l1Ue_of_dirty (h : ∃ e ∈ (s.cell key).l1, lineOf e.1 = line ∧ e.2.dirty = true) :
    s.l1Ue chip key line = s.terminateFor (s.nodeCtx (s.cell key).node) 0xE1 (line % 2 ^ 48 + 2 * 2 ^ 56) := by
  refine if_pos ?_
  simpa using h

end

/-! ## Dumps -/

section
variable {s : State} {d : Dump} {ds : List Dump} {x : Ctx}

theorem execDumpWrite_of_none (h : s.dumps = []) : execDumpWrite s = .next s := by
  rw [execDumpWrite, h]
  rfl

/-- A dump with no area armed is counted lost. -/
theorem execDumpWrite_without_area (h : s.dumps = d :: ds) (hx : s.ctx? d.ctx = some x) (ha : x.dump = none) :
    execDumpWrite s = .next (({ s with noArea := min (s.noArea + 1) (2 ^ 32 - 1) } : State).nextDump d) := by
  simp only [execDumpWrite, h, hx, Option.bind_some, ha]
  rfl

/-- Host memory after a dump's image is written at the area `a`. -/
def State.dumpHost (s : State) (d : Dump) (a n parts : Nat) : Memory :=
  (s.dumpImage d n parts).2.foldl (fun (m : Memory) (e : Nat × Byte) => Memory.write m (a + e.1) e.2)
    (FMap.clearRange s.host a (s.dumpImage d n parts).1)

/-- A dump is written into its context's armed area, which is armed no more. -/
theorem execDumpWrite_into_area {a n parts : Nat} (h : s.dumps = d :: ds) (hx : s.ctx? d.ctx = some x)
    (ha : x.dump = some (a, n, parts)) :
    execDumpWrite s = .next ((({ s with host := s.dumpHost d a n parts } : State).modCtx d.ctx
      fun (x : Ctx) => { x with dump := none }).nextDump d) := by
  simp only [execDumpWrite, h, hx, Option.bind_some, ha]
  rfl

end

/-! ## The obligation -/

section
variable (s : State) (id i chip place : Nat)

theorem exec_tileFetchComplete : exec (.tileFetchComplete id i) s = .next ((s.fetchDone id i).lateFree id) := rfl

theorem exec_tileEvictComplete : exec (.tileEvictComplete id i) s = .next ((s.evictDone id i).lateFree id) := rfl

theorem fetch_completes : ((s.tile id i).st ≠ .fetching → exec (.tileFetchComplete id i) s = .next (s.lateFree id))
    ∧ ((s.tile id i).st = .fetching → (s.tile id i).frame = none →
        exec (.tileFetchComplete id i) s = .next ((s.claimFrame id i (s.tile id i)).lateFree id))
    ∧ (∀ f, (s.tile id i).st = .fetching → (s.tile id i).frame = some f → (s.leaver f).isSome = true →
        exec (.tileFetchComplete id i) s = .next (s.lateFree id))
    ∧ (∀ f t, (s.tile id i).st = .fetching → (s.tile id i).frame = some f → s.leaver f = none →
        t = (List.range 4).foldl (fun (u : State) j => u.movePlace (u.tileHbm id i (pageBytes * j)) (f + pageBytes * j) pageBytes)
          (s.applyInPlace id i) →
        exec (.tileFetchComplete id i) s = .next ((t.setTile id i
          { s.tile id i with st := .resident, log := [], slot := false, lastAccess := t.tick }).lateFree id)) := by
  simp only [exec_tileFetchComplete]
  refine ⟨fun h => ?_, fun h hf => ?_, fun f h hf hl => ?_, fun f t h hf hl ht => ?_⟩
  · rw [State.fetchDone_of_not_fetching h]
  · rw [State.fetchDone_without_frame h hf]
  · rw [State.fetchDone_of_leaver h hf hl]
  · rw [State.fetchDone_moves h hf hl ht]

theorem evict_completes : ((s.tile id i).st ≠ .evicting → exec (.tileEvictComplete id i) s = .next (s.lateFree id))
    ∧ (∀ f t, (s.tile id i).st = .evicting → (s.tile id i).frame = some f →
        t = (List.range 4).foldl (fun (u : State) j => u.movePlace (f + pageBytes * j) (u.tileHbm id i (pageBytes * j)) pageBytes)
          { s with ueFound := s.ueFound ++ s.badIn f 65536 } →
        exec (.tileEvictComplete id i) s = .next ((({ t with tags := FMap.clearRange t.tags (f / 64) 1024 } : State).setTile id i
          { Tile.cold with held := (s.tile id i).held }).lateFree id)) := by
  simp only [exec_tileEvictComplete]
  refine ⟨fun h => ?_, fun f t h hf ht => ?_⟩
  · rw [State.evictDone_of_not_evicting h]
  · rw [State.evictDone_moves h hf ht]

theorem scrub_completes (hk : s.knownBad chip place = false) :
    exec (.scrub chip place .clean) s = .next s
    ∧ (s.scrubbed chip place ≠ .nothing → exec (.scrub chip place .correctable) s = .next (s.countCe chip))
    ∧ exec (.scrub chip place .uncorrectable) s = .next (s.scrubUe chip place) :=
  ⟨execScrub_clean hk, execScrub_correctable hk, execScrub_uncorrectable hk⟩

end

/-- Settles O55: each event is its case lemma above; a scrub that finds an uncorrectable error is `State.scrubUe` at the kind
of place. -/
theorem memoryEventsComplete : Obligations.MemoryEventsComplete := by
  unfold Obligations.MemoryEventsComplete
  refine ⟨fetch_completes, fun s id => ⟨fun _ => State.lateFree_eq_self, fun _ => State.lateFree_frees⟩, evict_completes,
    fun s place n p => State.mem_badIn, fun s p => State.writeBackErrors_single,
    fun s src dst n _ _ _ => ⟨fun _ => State.read_movePlace_same, fun _ => State.read_movePlace_ne⟩, fun s chip => rfl,
    fun s a b => ⟨execLinkFailure_of_no_link, execLinkFailure_of_link⟩, fun s chip place hk => ?_,
    fun s => ⟨execDumpWrite_of_none, fun d ds x h hx => ⟨execDumpWrite_without_area h hx, fun a n parts m ha hm => ?_⟩⟩⟩
  · obtain ⟨hclean, hce, hue⟩ := scrub_completes s chip place hk
    rw [hue]
    refine ⟨hclean, hce, fun loc h => ?data, fun line h => ?copy, fun line h => ?cached, fun loc h => ?dirty,
      fun key line h => ?l1, fun page h => ?dieTlb, fun key page h => ?cellTlb, fun ctx h => ?record⟩
    case data =>
      refine ⟨_, rfl, ?_⟩
      rw [State.scrubUe_of_data h, State.errOf_markBadUe]
      exact ⟨State.markBadUe_mem .., State.markBadUe_bad .., rfl, rfl⟩
    case dirty =>
      refine ⟨_, rfl, ?_⟩
      rw [State.scrubUe_of_dirty h]
      exact ⟨State.markBadUe_mem .., State.markBadUe_bad ..⟩
    case l1 =>
      rw [State.scrubUe_of_l1 h]
      exact ⟨fun hl => congrArg _ (State.l1Ue_of_clean hl), fun hl => congrArg _ (State.l1Ue_of_dirty hl)⟩
    all_goals rw [State.scrubUe, h]
  · subst hm
    exact execDumpWrite_into_area h hx ha

end Sys2Proof.Machine
end
